-- ==== Sys2Proof/Word.lean ====
section
/-! DEFINITION. The plain value types: register words, bytes, 64-bit formats, accumulators, and index ranges of R2. -/

namespace Sys2Proof

/-- A 32-bit register word (00_scope.md, Numbers). -/
abbrev Word := BitVec 32
/-- One byte of a record or memory. -/
abbrev Byte := BitVec 8
/-- The encoding of an extended (binary64) value of R178. -/
abbrev Ext := BitVec 64
/-- A total with its fraction: the 128-bit accumulator of R207. -/
abbrev Acc := BitVec 128

/-- Hall h, 0 to 7 (R2). -/
abbrev Hall := Fin 8
/-- Channel c of a hall, 0 to 3 (R2). -/
abbrev Chan := Fin 4
/-- Global converter number 2h + k, 0 to 15 (R2). -/
abbrev Conv := Fin 16
/-- Meter run m, 0 to 7 (R2). -/
abbrev Run := Fin 8

end Sys2Proof
end

