-- ==== Sys2Proof/Syntax.lean ====
section
/-! DEFINITION. The commands of the block: one constructor per row of spec/opcode_table.json, with the operands that the
environment supplies (a frame's bits, a written value, a measured quantity, a received frame). -/

namespace Sys2Proof

/-- The source of a register write, coded 0 to 4 as the audit SOURCE (R239). -/
inductive Source where
  /-- Host port, 0. -/
  | host
  /-- Miethlink acyclic access, 1. -/
  | ring
  /-- Debug port, 2. -/
  | debug
  /-- A write forwarded by the partner, 3. -/
  | pair
  /-- The device itself, 4. -/
  | internal
deriving DecidableEq, Repr

/-- The audit code of a source (R239). -/
def Source.code : Source → Nat
  | .host => 0
  | .ring => 1
  | .debug => 2
  | .pair => 3
  | .internal => 4

/-- Who writes: the source and, for the ring, the writer's ring address (R239 WRITER). -/
structure Origin where
  src : Source
  writer : Nat
deriving DecidableEq, Repr

/-- A 16-bit word address (R302). -/
abbrev Addr := BitVec 16

/-- A frame whose select rises part-way (R307). -/
inductive ShortFrame where
  /-- Ended during the address of a register frame. -/
  | header
  /-- A write frame: fixed address or not, WEXT, address, the whole units, then `n` bits `partialBits` of the next one. -/
  | write (fixed : Bool) (wext : Fin 32) (addr : Addr) (units : List Word) (partialBits : Word) (n : Fin 32)
  /-- A read frame: the whole units delivered, then part of one. -/
  | read (fixed : Bool) (wext : Fin 32) (addr : Addr) (n : Nat) (underrun : List Nat) (changed : Bool)
deriving DecidableEq, Repr

/-- What a hall's status frame measures (R32, HALL_VLP, HALL_CJ, CH_STATUS): L+ and reservoir in mV, cold junction in
binary32 °C, and for each channel whether its FRC stands above L+/2; and that the frame found room in the hall's queue to SYSCLK
(R400, R401). -/
structure HallMeas where
  vlp : Nat
  vres : Nat
  cj : Word
  frc : BitVec 4
  fits : Bool
deriving DecidableEq, Repr

/-- The loop current classes of a mode 3 input are read from its return current in µA (R39). -/
abbrev MicroAmp := Int

/-- A pulse delivery (R44, R456): the level sampled at the tick boundary, and that the delivery found room in the hall's queue to
SYSCLK (R400, R401). -/
structure PulseReport where
  level : Bool
  fits : Bool
deriving DecidableEq, Repr

/-- What an overloaded switched output does (R49): its current reaches the limit, leaves it before 0.5 ms, or its stage
switches off after 0.5 ms or a thermal trip. -/
inductive LimitPhase where
  | entered
  | left
  | switchedOff
deriving DecidableEq, Repr

/-- An output's overload: its channel and what it does (R49). -/
structure Overload where
  ch : Chan
  phase : LimitPhase
deriving DecidableEq, Repr

/-- Voltage from outside at an output: its channel, and whether it is there or has gone (R49). -/
structure OutsideDrive where
  ch : Chan
  on : Bool
deriving DecidableEq, Repr

/-- What the filter window of one result gives: the modulator's bit stream, overrange samples in the window, and the lead
conditions of the step (R89, R100, R117, R145). -/
structure Sample where
  /-- The modulator samples over t_CONV to the completing one, oldest first; true for a one (R146, R147). -/
  stream : List Bool
  /-- Overrange samples in the window: the sign of the last one (true positive) and how many ns before the completion
  it lay (R131, R132). -/
  ovr : Option (Bool × Nat)
  /-- IEXC0 or IEXC1 at its compliance limit during the step (R89). -/
  compl0 : Bool
  compl1 : Bool
  /-- A sense lead open: the sense input overrange with the source within compliance (R100). -/
  leadOpen : Bool
deriving DecidableEq, Repr

/-- A Miethlink frame as received (R332): TYPE, HOPS, SRC, CYC, payload; `good` says that no code error occurred and the CRC
passes (R333); `own` that this device sent it, and it has come round the loop (R337); `fits` that its content found room in the queue
to SYSCLK (R400, R401). -/
structure MlFrame where
  typ : BitVec 4
  hops : Nat
  src : Nat
  cyc : Nat
  payload : List Byte
  good : Bool
  own : Bool
  fits : Bool
deriving DecidableEq, Repr

/-- What the pair agent observes with a frame: for an ACK the time in ps from its heartbeat less the partner's turnaround, for a
heartbeat the offset in ns of the partner's ring time from this device's own (R336, R343, R363); PAIR_ACT_IN: it counts as
toggling, and it has had a gap of 30 µs since the partner became active (R362, R364); and that the frame found room in the queue to
SYSCLK (R400, R401). -/
structure PairSeen where
  roundTrip : Nat
  offset : Int
  actIn : Bool
  actGap : Bool
  fits : Bool
deriving DecidableEq, Repr

/-- A pair-link frame as received (R360); `good` says that its CRC passes. -/
structure PairFrame where
  seq : Nat
  maddr : Nat
  payload : List Byte
  good : Bool
  seen : PairSeen
deriving DecidableEq, Repr

/-- A collision of two writes to mirror RAM while a payload is stored (R368): the word of the payload it happened at, the last
one where there were several. -/
abbrev Collision := Option (Fin 16)

/-- A frame whose payload goes to mirror RAM, and the collision it met. -/
structure StoredFrame where
  frame : PairFrame
  collide : Collision
deriving DecidableEq, Repr

/-- A totals copy offered by the partner (R215): tick and the six accumulators of one run. -/
structure TotCopy where
  tick : Nat
  accs : List Acc
deriving DecidableEq, Repr

/-- What flash identification and the supplies give in the start sequence (R279, R284, R285, R396). -/
structure StartFacts where
  /-- REF10 has edges, so that PLL2 takes it (R23). -/
  ref10 : Bool
  /-- VBAT is at least 2.0 V at the release. -/
  vbatOk : Bool
  /-- The retention RAM header CRC passes (R396). -/
  retOk : Bool
  /-- Chip 0 and chip 1 answer with a valid SFDP and every feature of R284. -/
  chip0 : Bool
  chip1 : Bool
  /-- JEDEC identification bytes. -/
  id0 : BitVec 24
  id1 : BitVec 24
  /-- The read clock in MHz, 50 or 100, and quad reads. -/
  mhz : Nat
  quad0 : Bool
  quad1 : Bool
  /-- The partner reports step 3 of the handover left open finished (R261). -/
  hoDone : Bool
deriving DecidableEq, Repr

/-- What a failed chip gives at its retry (R284, R285): quad reads by its SFDP, and its JEDEC identification bytes. -/
structure ChipFound where
  quad : Bool
  id : BitVec 24
deriving DecidableEq, Repr

/-- What the device samples at the release of RESET_N besides the BOOT straps: PAIR_ROLE, TEST_N high, and whether the die is below
115 °C (R411, R412, R433). -/
structure ReleasePins where
  pairRole : Bool
  testN : Bool
  cool : Bool
deriving DecidableEq, Repr

/-- What the partner answers when a role settles (R363); the commands that judge a partner also carry whether PAIR_ACT_IN
counts as toggling (R362). -/
inductive PartnerAnswer where
  /-- No answer on the pair link. -/
  | silent
  /-- An answer with the partner's PAIR_ID and PAIR_ROLE strap. -/
  | answers (pairId : Nat) (roleStrap : Bool)
deriving DecidableEq, Repr

/-- A handover message (R376). -/
inductive HoMsg where
  /-- REQUEST of the active device. -/
  | request
  /-- READY of the standby. -/
  | ready
  /-- The pulse output of a channel is idle. -/
  | pulseIdle (ch : Fin 32)
  /-- The active orders a restart with cause 6 (R293, R372). -/
  | restart
deriving DecidableEq, Repr

/-- A clock-monitor condition (R403). -/
inductive ClockCond where
  | xin
  | ref10
  | rtc
  | pll (i : Fin 4)
deriving DecidableEq, Repr

/-- A memory of R392. -/
inductive MemId where
  | main
  | ret
  | prog
  | mirror
  | hall (h : Hall)
deriving DecidableEq, Repr

/-- What ends a run's computation in its slot besides overrun and non-finite values (R201): an uncorrectable word of program
RAM or of main SRAM, an undefined instruction or a foreign access, an exhausted call stack. -/
inductive EngTrap where
  | ecc (prog : Bool) (word : Nat)
  | illegal
  | stack
deriving DecidableEq, Repr

/-- What a scrub read finds (R398, R399): nothing, a single-bit error, an uncorrectable one. -/
inductive EccFind where
  | clean
  | single
  | double
deriving DecidableEq, Repr

/-- A miethlink port: 0 MLA, 1 MLB, 2 MLC. -/
abbrev Port := Fin 3

/-- An 8b/10b link: a Miethlink port or the pair link (R328, R359). -/
inductive Link where
  | ml (p : Port)
  | pair
deriving DecidableEq, Repr

/-- The commands: the 193 rows of spec/opcode_table.json in the table's order. -/
inductive Instr where
  -- Host port
  | read (mode3 : Bool) (wext : Fin 32) (addr : Addr) (n : Nat) (underrun : List Nat) (changed : Bool)
  | write (mode3 : Bool) (wext : Fin 32) (addr : Addr) (units : List Word)
  | readFixed (mode3 : Bool) (wext : Fin 32) (addr : Addr) (n : Nat) (underrun : List Nat) (changed : Bool)
  | writeFixed (mode3 : Bool) (wext : Fin 32) (addr : Addr) (units : List Word)
  | nop (mode3 : Bool)
  | reservedOp (mode3 : Bool) (op : Fin 3)
  | streamRead (mode3 : Bool) (stream : Fin 24) (nbytes : Nat)
  | streamPeek (mode3 : Bool) (stream : Fin 24) (nbytes : Nat)
  | reservedStreamOp (mode3 : Bool) (sop : Fin 4) (stream : Fin 64)
  | selConflict
  | short (mode3 : Bool) (f : ShortFrame)
  | frameEndsInStatusByte (mode3 : Bool)
  -- Register writes and staging
  | registerWrite (o : Origin) (addr : Addr) (mask value : Word)
  | commit (o : Origin)
  | commitCheckDone
  | commitDone
  | abandon (o : Origin)
  -- Streams
  | seek (o : Origin) (hi : Word)
  | seekOldest (o : Origin)
  | seekNewest (o : Origin)
  | streamBufferFilled
  -- Audit
  | auditRelease (o : Origin) (hi : Word)
  | auditSectorErased
  | auditRecordFlashWrite (ok0 ok1 : Bool)
  -- Image
  | openImage (o : Origin)
  | imageData (o : Origin) (value : Word)
  | imgWoffWrite (o : Origin) (value : Word)
  | close (o : Origin)
  | imageVerifyDone
  | activate (o : Origin)
  | abort (o : Origin)
  | reload (o : Origin) (h : Hall)
  | roll (o : Origin)
  | rollAbandon
  | rollStandbyCountDone
  | hallSectionConfirmed (ok : Bool)
  | reloadOutputsReleased
  | switchBoundary
  | imageCopyCheck
  -- Reset and start
  | resetNLow
  | resetNRelease (straps : BitVec 2) (pins : ReleasePins)
  | logicSupplyFailure (vddc : Bool)
  | thermalTrip
  | pllLock (f : StartFacts)
  | imageChoice
  | totalsReconcile (partner : List (Run × TotCopy))
  | roleSettle (ans : PartnerAnswer) (actIn : Bool)
  | firstValidRunTick
  -- Watchdog and debug
  | spareCheckin
  | watchdogPeriodEnd (late : BitVec 16)
  | watchdogResetRelease
  | wdWarn
  | debugHalt
  | debugResume
  | debugReset
  -- Clocks, supplies, memories
  | xinLost
  | pllUnlock (i : Fin 4)
  | ref10Lost
  | rtcStop
  | clockConditionClear (cond : ClockCond)
  | vbatLow
  | vbatDrop
  | scrub (mem : MemId) (word : Nat) (find : EccFind)
  | programRamRewrite
  -- Halls
  | hallHeartbeatSend
  | heartbeat (h : Hall) (good : Bool) (seq : BitVec 16)
  | hbLoss (h : Hall)
  | statusFrame (h : Hall) (m : HallMeas)
  | hallDown (h : Hall)
  | underVoltageReset (h : Hall)
  | hallUvrExit (h : Hall)
  | hallAnnounce (h : Hall)
  | sag1 (h : Hall)
  | sag2 (h : Hall)
  | sag3 (h : Hall)
  | sag1Clear (h : Hall)
  | sag2Clear (h : Hall)
  | recovering (h : Hall) (above : Bool)
  | recoveryEnd (h : Hall)
  | restoreSwitchOn (h : Hall)
  | dieTempMeasure (h : Hall) (deciC : Int)
  | hallOvertempEnd (h : Hall)
  | lpOverDecl (h : Hall) (on : Bool)
  -- Channel inputs
  | stateEvt (h : Hall) (ch : Chan) (level : Bool)
  | wireBreakMeasure (h : Hall) (ch : Chan) (i : MicroAmp)
  | pulseEdge (h : Hall) (ch : Chan) (rising : Bool) (phaseNs : Nat)
  | freqHighClear (h : Hall) (ch : Chan)
  | pulseDelivery (h : Hall) (ch : Chan) (x : PulseReport)
  -- Outputs
  | outputCommand (h : Hall) (ch : Chan) (value : BitVec 32)
  | modeChangeApply (h : Hall) (ch : Chan)
  | overload (h : Hall) (x : Overload)
  | extDrive (h : Hall) (x : OutsideDrive)
  | reverseCurrent (h : Hall) (ch : Chan)
  | readback (h : Hall) (ch : Chan)
  | loopShort (h : Hall) (ch : Chan)
  | burdenOver (h : Hall) (ch : Chan)
  | retry (h : Hall) (ch : Chan) (again : Bool)
  | retryClear (h : Hall) (ch : Chan)
  | hallAck (o : Origin) (h : Hall) (acks present : BitVec 4)
  | forceSafe (o : Origin) (h : Hall)
  | forceSafeRelease (o : Origin) (h : Hall)
  | currentMonitorSample (h : Hall) (ch : Chan) (iMeas : MicroAmp) (vFrc vLp : Int)
  | extOvercurrentReclose (h : Hall) (ch : Chan) (again : Bool)
  | extOvercurrentClear (h : Hall) (ch : Chan)
  | vexcLimit (h : Hall) (on : Bool)
  | vexcSenseOpen (h : Hall) (on : Bool)
  | force (o : Origin) (h : Hall)
  -- Converters
  | stepBoundary (n : Conv)
  | tcOpen (n : Conv) (high : Bool)
  | settlingEnd (n : Conv)
  | resultComplete (n : Conv) (x : Sample)
  | resultDmaWrite (n : Conv) (fits : Bool)
  | injGo (o : Origin) (n : Conv)
  | injectedSequenceStart (n : Conv)
  | blankAssert (h : Hall) (input : Fin 2)
  | blankRelease (h : Hall) (input : Fin 2)
  | blankStuck (h : Hall) (input : Fin 2)
  | warmUpEnd (h : Hall)
  | syncIn
  | syncNow (o : Origin)
  | syncExecute
  | syncOutEnd
  | rotationDue (h : Hall)
  | rotNow (o : Origin) (h : Hall)
  | unretireK0 (o : Origin) (h : Hall)
  | unretireK1 (o : Origin) (h : Hall)
  | overdue (h : Hall)
  -- Engine and totals
  | tickBoundary
  | runSlot (m : Run) (cycles : Nat) (trap : Option EngTrap)
  | slotOverrun (m : Run)
  | balanceWaitExpiry (b : Fin 64)
  | pulseEmitted (h : Hall) (ch : Chan)
  -- Flash and black box
  | flashOperationComplete (chip : Fin 2) (ok : Bool)
  | chipRetry (chip : Fin 2) (ok : Option ChipFound)
  | freezeNow (o : Origin)
  | dumpDone (ok0 ok1 : Bool)
  | release (o : Origin)
  -- Miethlink
  | portUp (p : Port)
  | linkFault (p : Port)
  | transmitterSilenceEnd (p : Port)
  | nullFrame (p : Port)
  | cycleFrame (p : Port) (f : MlFrame)
  | data (p : Port) (f : MlFrame)
  | form (p : Port) (f : MlFrame)
  | formDone (p : Port) (f : MlFrame)
  | echo (p : Port) (f : MlFrame)
  | echoReply (p : Port) (f : MlFrame) (roundTrip : Nat)
  | echoRefresh
  | reform (o : Origin)
  | formationRetry
  | loopAdopt
  | cycleBoundary
  | dataAppend
  | headTakeover
  | noHead
  | subLost (e : Fin 64)
  | injectExecute
  | acyTimeout
  | mailboxRead (o : Origin) (count : Fin 64)
  | mailboxWrite (o : Origin) (count : Fin 64)
  | syncCommandSend (o : Origin) (bcast : Bool) (dst : BitVec 10)
  | injectCommandSend (o : Origin) (bcast : Bool) (dst : BitVec 10)
  | ppsIn
  | ppsLost
  | timeSet (o : Origin)
  | utcSet (o : Origin)
  | utcClear (o : Origin)
  -- Pair
  | pairHeartbeatTick
  | pairHeartbeat (f : PairFrame)
  | ack (f : PairFrame)
  | heartbeatMissed (actIn : Bool)
  | takeoverInputMode
  | takeoverOutputDrive
  | pairActFault
  | fence
  | record (f : PairFrame) (collide : Collision)
  | tickset (f : PairFrame) (collide : Collision)
  | totals (f : PairFrame) (collide : Collision)
  | state (f : StoredFrame)
  | config (f : StoredFrame)
  | handover (o : Origin)
  | handoverMessage (f : PairFrame) (m : HoMsg)
  | handoverRampStart
  | handoverInputRelease
  | handoverOutputOff
  | handoverSwitch
  | imageCopyToStandby
  | gridLock
  | characterLockLost (l : Link)
  | pairLinkUp
  | vbatLowClear
  | checkIn (slot : Fin 16)
  | rampEnd (h : Hall) (ch : Chan)
deriving DecidableEq, Repr

end Sys2Proof
end

