-- ==== Sys2Proof/Config.lean ====
section
/-! DEFINITION. Values the spec leaves open: constants without a body, so that no proof can see them (log 9). -/

namespace Sys2Proof

/-- A fresh 32-bit value the spec does not fix, by the count of free values taken (log 9). -/
opaque Config.freeWord : Nat → Word

/-- The device's temperature in binary32 for a base value inside the range of a standard RTD curve 1 to 8; the spec gives
the relation it inverts and bounds its residual (R102, log 15). -/
opaque Config.rtdTemp : Nat → Word → Word

/-- E of a thermocouple type, curves 9 to 16, in 10^-9 mV at a temperature in 2^-20 °C outside the span of its reference function: a
cold junction can lie there (R102, log 15). -/
opaque Config.tcRef : Nat → Int → Int

/-- The device's E(T_CJ) of a thermocouple curve in mV, binary32 (R102, log 15). -/
opaque Config.tcEmf : Nat → Word → Word

/-- The device's temperature for an EMF inside the range of a thermocouple curve, binary32 (R102, log 15). -/
opaque Config.tcTemp : Nat → Word → Word

/-- Taps a, b, c of the symmetric five-tap half-band stage `k` of the settled or the continuous chain; the spec gives the
stages and their span, not their coefficients (R145, R146, log 35). -/
opaque Config.halfBand : Bool → Nat → Int × Int × Int

/-- The value in codes of a modulator stream of ones only (R107, R145, log 35). -/
opaque Config.modFull : Nat

/-- IDCODE [27:0] (R430, log 36). -/
opaque Config.idcode : BitVec 28

/-- What retention RAM holds with a check of its own (R237, R245, R239, R246, R260, R396): its header, a run's live record and shadow
checkpoint, an audit record by SEQ, a journal slot, a captured period record by run, kind and sequence number, and a COMMIT's
captured checkpoints by operation. -/
inductive RetItem where
  | header
  | live (m : Nat)
  | shadow (m : Nat)
  | audit (seq : Nat)
  | journal (slot : Nat)
  | period (run kind seq : Nat)
  | commit (op : Nat)
deriving DecidableEq, Repr

/-- A word of retention RAM holds part of an item; the spec gives the areas' sizes, not their places (R237, R396, log 37). -/
opaque Config.retHolds : RetItem → Nat → Bool

/-- The region directory's page from the oldest and newest sector of each ring (R236, log 54). -/
opaque Config.dirBytes : List (Nat × Nat) → List Byte

/-- Factory value of a ladder point: converter, VSRC, log2 gain (R166). -/
opaque Config.factory : Nat → Nat → Nat → Int

/-! The engine program and the property tables (R178, R186, R191): the spec binds their bits to documents it names and
does not hold. -/

/-- A routine of the engine program (R178). -/
inductive LibFn where
  | exp
  | log
  | pow
deriving DecidableEq, Repr

/-- A property of R192 and R193: pressure in kPa absolute, temperature in °C. -/
inductive FluidFn where
  /-- Density in kg/m³, specific enthalpy in kJ/kg, viscosity in Pa s of fluid 0 to 3; the third argument is the relative
  humidity in % for fluid 3. -/
  | rho (fluid : Nat)
  | enth (fluid : Nat)
  | visc (fluid : Nat)
  /-- T_sat(p). -/
  | tSat
  /-- On the saturation line at p: liquid and vapour density and enthalpy. -/
  | rhoF
  | rhoG
  | hF
  | hG
  /-- Relative humidity in % at p and t of the dew point given as third argument. -/
  | rhOfDew
deriving DecidableEq, Repr

/-- exp, log or pow of the engine program `prog` (R178, log 19). -/
opaque Config.lib : Nat → LibFn → Ext → Ext → Ext

/-- cdis of program `prog` by `TAPS`, dD, b and Re (R186, log 19). -/
opaque Config.cdis : Nat → Nat → Ext → Ext → Ext → Ext

/-- A fluid property by `PROP_VER` (R191, log 19). -/
opaque Config.fluid : Nat → FluidFn → Ext → Ext → Ext → Ext

/-- A word of program RAM (2) or of the run data area in main SRAM (0) is read in the slot of a run of program `prog`: the
arguments are the program, the memory, the word and the run (R399, log 53). -/
opaque Config.reads : Nat → Nat → Nat → Nat → Bool

/-- A word of main SRAM holds part of a gallery tier's block in progress: tier and word (R393, R399, log 53). -/
opaque Config.galWord : Nat → Nat → Bool

/-- A word of main SRAM buffers the frame that a Miethlink port sends: port and word (R393, R399, log 53). -/
opaque Config.frameWord : Nat → Nat → Bool

/-! Blocks of mirror RAM whose inner layout the spec does not give (R367, log 20). -/

/-- The carried state of a run (R179). -/
structure Carried where
  /-- Last good value of each input by role: 0 DP, 3 P, 4 T, 5 FLOW, 6 AUX. -/
  good : List (Nat × Word)
  /-- Stack selection. -/
  sel : Nat
  /-- The pulse meter's last edge time and frequency, the ticks since its last delivery, and whether it was stale since. -/
  tPrev : Option Nat
  freq : Ext
  deliv : Option Nat
  discard : Bool
  /-- The pulse output's accumulator and backlog. -/
  pacc : Nat
  backlog : Nat
  piWarn : Bool
  piAlarm : Bool
  /-- The increments of the last completed tick. -/
  inc : Option (Ext × Ext × Ext)
deriving DecidableEq, Repr, Inhabited

/-- One delivery of a pulse input (R44): its index, edges, ring times of the first and the last of them, FREQ_HIGH as it was
sent. -/
structure Deliv where
  idx : Nat
  edges : Nat
  first : Nat
  last : Nat
  high : Bool
deriving DecidableEq, Repr, Inhabited

/-- One entry of a tick-set block (R17, R20, R99, R159). -/
inductive TsEntry where
  /-- The record of channel `ch` at position `pos` of converter `conv`'s stream, with p, m and SETTLING. -/
  | record (ch conv pos : Nat) (puls : Option (Word × Word × Bool))
  /-- The indexes of the deliveries of a pulse channel latched with the tick, and its FREQ_HIGH. -/
  | pulses (ch : Nat) (l : List Nat) (high : Bool)
  /-- The cold-junction sensor of a hall. -/
  | coldJunction (hall : Nat) (t : Word)
deriving DecidableEq, Repr, Inhabited

/-- Output state of a run: pulse accumulator, backlog, pulses emitted, and the commands of its outputs (R367). -/
structure OutState where
  run : Nat
  backlog : Nat
  pacc : Nat
  emitted : Nat
  fout : Option Nat
  iout : Option Nat
deriving DecidableEq, Repr, Inhabited

/-- The output state of a device (R367): the command of every output by channel, and its runs'. -/
structure OutBlock where
  cmds : List (Nat × Nat)
  runs : List OutState
deriving DecidableEq, Repr, Inhabited

/-- What a device announces of itself to its partner (R293, R367, R372): the generation it runs, 0 under IMAGE_NONE, that it has
no image, and the phase and generation of the image it holds verified. -/
structure PairStatus where
  gen : Nat
  none_ : Bool
  phase : Nat
  newGen : Nat
deriving DecidableEq, Repr, Inhabited

/-- A tick-set block and its reading. -/
opaque Config.tsBytes : List TsEntry → List Byte
opaque Config.tsOf : List Byte → List TsEntry
/-- The output-state block and its reading. -/
opaque Config.outBytes : OutBlock → List Byte
opaque Config.outOf : List Byte → OutBlock
/-- A run's carried state and its reading. -/
opaque Config.carBytes : Carried → List Byte
opaque Config.carOf : List Byte → Carried
/-- A device's status block and its reading (R293, R367). -/
opaque Config.statusBytes : PairStatus → List Byte
opaque Config.statusOf : List Byte → PairStatus

end Sys2Proof
end

