-- ==== Sys2Proof/Machine/Bits.lean ====
section
/-! DEFINITION. Bit fields, signed readings and little-endian byte strings (R4). -/

namespace Sys2Proof.Machine

/-- Bits [hi:lo] of a word as a number. -/
def bits (w : Word) (hi lo : Nat) : Nat := (w.toNat >>> lo) % 2 ^ (hi + 1 - lo)

/-- Bit `i` of a word. -/
def bit (w : Word) (i : Nat) : Bool := w.getLsbD i

/-- The word with bits [hi:lo] set and the rest clear. -/
def fieldMask (hi lo : Nat) : Word := BitVec.ofNat 32 ((2 ^ (hi + 1 - lo) - 1) <<< lo)

/-- The word with bit `i` alone set. -/
def bitMask (i : Nat) : Word := BitVec.ofNat 32 (1 <<< i)

/-- `w` with bits [hi:lo] replaced by the low bits of `v`. -/
def putBits (w : Word) (hi lo v : Nat) : Word :=
  (w &&& ~~~ (fieldMask hi lo)) ||| (BitVec.ofNat 32 (v <<< lo) &&& fieldMask hi lo)

/-- `w` with bit `i` set to `b`. -/
def putBit (w : Word) (i : Nat) (b : Bool) : Word :=
  if b then w ||| bitMask i else w &&& ~~~ (bitMask i)

/-- `old` where the mask is 0, `new` where it is 1. -/
def merge (mask old new : Word) : Word := (old &&& ~~~ mask) ||| (new &&& mask)

/-- The field [hi:lo] read as two's complement. -/
def bitsSigned (w : Word) (hi lo : Nat) : Int :=
  let n := hi + 1 - lo
  let v := bits w hi lo
  if v ≥ 2 ^ (n - 1) then (v : Int) - (2 ^ n : Nat) else v

/-- A word as two's complement. -/
def sval (w : Word) : Int := w.toInt

/-- Two's complement word of an integer, modulo 2^32. -/
def ofInt (i : Int) : Word := BitVec.ofInt 32 i

/-- 1 or 0. -/
def b2n (b : Bool) : Nat := if b then 1 else 0

/-- `x` limited to `lo` .. `hi`. -/
def clampNat (lo hi x : Nat) : Nat := if x < lo then lo else if x > hi then hi else x

/-- `x` limited to `lo` .. `hi`. -/
def clampInt (lo hi x : Int) : Int := if x < lo then lo else if x > hi then hi else x

/-- One more, stopping at `top` (counters that saturate). -/
def satSucc (top n : Nat) : Nat := if n < top then n + 1 else top

/-- The `n` low bytes of `v`, least significant first (R4). -/
def leBytes : Nat → Nat → List Byte
  | 0, _ => []
  | n + 1, v => BitVec.ofNat 8 v :: leBytes n (v / 256)

/-- The number whose bytes, least significant first, are given (R4). -/
def leNat : List Byte → Nat
  | [] => 0
  | b :: t => b.toNat + 256 * leNat t

/-- The `n` low bytes of `v`, most significant first (stream header words, R321). -/
def beBytes (n v : Nat) : List Byte := (leBytes n v).reverse

/-- `n` bytes at offset `off` of a byte string, as a number (R4). -/
def leAt (bs : List Byte) (off n : Nat) : Nat := leNat ((bs.drop off).take n)

/-- A byte string filled or cut to `n` bytes with `pad`. -/
def padTo (n : Nat) (pad : Byte) (bs : List Byte) : List Byte :=
  (bs ++ List.replicate (n - bs.length) pad).take n

/-- Round to nearest, ties to even, of num / den (den > 0). -/
def roundDivEven (num : Int) (den : Nat) : Int :=
  let q := num.fdiv den
  let r := num - q * den
  if 2 * r < den then q else if 2 * r > den then q + 1 else if q % 2 = 0 then q else q + 1

/-- Round to nearest, ties away from zero, of num / den (den > 0) (R146). -/
def roundDivAway (num : Int) (den : Nat) : Int :=
  let q := num.natAbs / den
  let r := num.natAbs % den
  let m : Int := if 2 * r ≥ den then q + 1 else q
  if num < 0 then -m else m

end Sys2Proof.Machine
end

