-- ==== Sys2Proof/Machine/Float.lean ====
section
/-! DEFINITION. The engine's two arithmetic formats (R178): binary32 and extended (binary64), each operation rounded once,
to nearest with ties to even, subnormal values kept. The arithmetic is exact on integers and powers of two. -/

namespace Sys2Proof.Machine

/-- A value of either format: (-1)^neg * m * 2^e, an infinity or a NaN. -/
inductive Fp where
  | nan
  | inf (neg : Bool)
  | fin (neg : Bool) (m : Nat) (e : Int)
deriving DecidableEq, Repr

/-- A format: precision, exponent of the least subnormal, exponent field width. -/
structure FpFmt where
  p : Nat
  emin : Int
  eb : Nat
deriving DecidableEq, Repr

/-- binary32 (R178). -/
def fmt32 : FpFmt := ⟨24, -149, 8⟩
/-- Extended: the encoding of binary64 (R178). -/
def fmt64 : FpFmt := ⟨53, -1074, 11⟩

/-- The value that `n`, the bits of an encoding, stands for. -/
def fpDecode (f : FpFmt) (n : Nat) : Fp :=
  let frac := n % 2 ^ (f.p - 1)
  let ex := (n >>> (f.p - 1)) % 2 ^ f.eb
  let neg := n.testBit (f.p - 1 + f.eb)
  if ex = 2 ^ f.eb - 1 then (if frac = 0 then .inf neg else .nan)
  else if ex = 0 then .fin neg frac f.emin
  else .fin neg (frac + 2 ^ (f.p - 1)) (f.emin + ex - 1)

/-- The encoding with a sign bit. -/
def fpSign (f : FpFmt) (neg : Bool) (n : Nat) : Nat := if neg then n + 2 ^ (f.p - 1 + f.eb) else n

/-- The bits of +infinity. -/
def fpInfBits (f : FpFmt) : Nat := (2 ^ f.eb - 1) <<< (f.p - 1)

/-- The quiet NaN (R225; 0x7FC0_0000 in binary32, R246). -/
def fpNanBits (f : FpFmt) : Nat := fpInfBits f + 2 ^ (f.p - 2)

/-- m * 2^e rounded once to the format, as bits without sign. -/
def fpRoundMag (f : FpFmt) (m : Nat) (e : Int) : Nat :=
  if m = 0 then 0
  else
    let l : Int := m.log2 + 1
    let e1 := max (e + l - f.p) f.emin
    let q :=
      if e1 ≤ e then m <<< (e - e1).toNat
      else
        let sh := (e1 - e).toNat
        let q0 := m >>> sh
        let r := m % 2 ^ sh
        let half := 2 ^ (sh - 1)
        if r > half || (r = half && q0 % 2 = 1) then q0 + 1 else q0
    let n := (e1 - f.emin).toNat * 2 ^ (f.p - 1) + q
    if n ≥ fpInfBits f then fpInfBits f else n

/-- A value rounded to the format's bits. -/
def fpEncode (f : FpFmt) : Fp → Nat
  | .nan => fpNanBits f
  | .inf neg => fpSign f neg (fpInfBits f)
  | .fin neg m e => fpSign f neg (fpRoundMag f m e)

/-- The signed integer numerator at exponent `e0` (e0 no larger than the value's own). -/
def fpScaled (neg : Bool) (m : Nat) (e e0 : Int) : Int :=
  let v : Int := m <<< (e - e0).toNat
  if neg then -v else v

/-- Exact sum of two finite values. -/
def fpAddFin (n1 : Bool) (m1 : Nat) (e1 : Int) (n2 : Bool) (m2 : Nat) (e2 : Int) : Fp :=
  let e0 := min e1 e2
  let s := fpScaled n1 m1 e1 e0 + fpScaled n2 m2 e2 e0
  if s = 0 then .fin (n1 && n2) 0 e0 else .fin (s < 0) s.natAbs e0

/-- Sum. -/
def fpAdd : Fp → Fp → Fp
  | .nan, _ => .nan
  | _, .nan => .nan
  | .inf a, .inf b => if a = b then .inf a else .nan
  | .inf a, _ => .inf a
  | _, .inf b => .inf b
  | .fin n1 m1 e1, .fin n2 m2 e2 => fpAddFin n1 m1 e1 n2 m2 e2

/-- Negation. -/
def fpNeg : Fp → Fp
  | .nan => .nan
  | .inf a => .inf (!a)
  | .fin n m e => .fin (!n) m e

/-- Absolute value. -/
def fpAbs : Fp → Fp
  | .nan => .nan
  | .inf _ => .inf false
  | .fin _ m e => .fin false m e

/-- Product, exact. -/
def fpMul : Fp → Fp → Fp
  | .nan, _ => .nan
  | _, .nan => .nan
  | .inf a, .inf b => .inf (a != b)
  | .inf a, .fin n m _ => if m = 0 then .nan else .inf (a != n)
  | .fin n m _, .inf b => if m = 0 then .nan else .inf (n != b)
  | .fin n1 m1 e1, .fin n2 m2 e2 => .fin (n1 != n2) (m1 * m2) (e1 + e2)

/-- Quotient: exact up to a sticky last bit, beyond every format's precision. -/
def fpDiv : Fp → Fp → Fp
  | .nan, _ => .nan
  | _, .nan => .nan
  | .inf _, .inf _ => .nan
  | .inf a, .fin n _ _ => .inf (a != n)
  | .fin n _ _, .inf b => .fin (n != b) 0 0
  | .fin n1 m1 e1, .fin n2 m2 e2 =>
    if m2 = 0 then (if m1 = 0 then .nan else .inf (n1 != n2))
    else if m1 = 0 then .fin (n1 != n2) 0 0
    else
      let k := 60 + (m2.log2 + 1)
      let num := m1 <<< k
      let q := num / m2
      let st := if num % m2 = 0 then 0 else 1
      .fin (n1 != n2) (2 * q + st) (e1 - e2 - k - 1)

/-- Integer square root by `n` halving bits: the largest r with r*r ≤ x among bits below `n`. -/
def isqrtGo (x : Nat) : Nat → Nat → Nat
  | 0, r => r
  | n + 1, r =>
    let c := r + 2 ^ n
    isqrtGo x n (if c * c ≤ x then c else r)

/-- The largest r with r * r ≤ x. -/
def isqrt (x : Nat) : Nat := isqrtGo x (x.log2 / 2 + 1) 0

/-- Square root: exact up to a sticky last bit. -/
def fpSqrt : Fp → Fp
  | .nan => .nan
  | .inf neg => if neg then .nan else .inf false
  | .fin neg m e =>
    if m = 0 then .fin neg 0 e
    else if neg then .nan
    else
      let sh : Nat := 120 + (if e % 2 = 0 then 0 else 1)
      let x := m <<< sh
      let r := isqrt x
      let st := if r * r = x then 0 else 1
      .fin false (2 * r + st) ((e - sh) / 2 - 1)

/-- `a < b`; false where either is a NaN. -/
def fpLt : Fp → Fp → Bool
  | .nan, _ => false
  | _, .nan => false
  | .inf a, .inf b => a && !b
  | .inf a, .fin _ _ _ => a
  | .fin _ _ _, .inf b => !b
  | .fin n1 m1 e1, .fin n2 m2 e2 =>
    let e0 := min e1 e2
    decide (fpScaled n1 m1 e1 e0 < fpScaled n2 m2 e2 e0)

/-- `a = b` as numbers; false where either is a NaN. -/
def fpEq (a b : Fp) : Bool :=
  match a, b with
  | .nan, _ => false
  | _, .nan => false
  | _, _ => !fpLt a b && !fpLt b a

/-- `a ≤ b`; false where either is a NaN. -/
def fpLe (a b : Fp) : Bool := fpLt a b || fpEq a b

/-- A finite value. -/
def fpFinite : Fp → Bool
  | .fin _ _ _ => true
  | _ => false

/-- The nearest integer, ties to even; none for a NaN or an infinity. -/
def fpRoundInt : Fp → Option Int
  | .fin neg m e =>
    if e ≥ 0 then some (fpScaled neg m e 0)
    else some (roundDivEven (if neg then -(m : Int) else m) (2 ^ (-e).toNat))
  | _ => none

/-- An exact integer. -/
def fpOfInt (i : Int) : Fp := .fin (decide (i < 0)) i.natAbs 0

/-! Extended (binary64) operations, R178. -/

/-- The value of an extended word. -/
def xval (x : Ext) : Fp := fpDecode fmt64 x.toNat
/-- A value rounded to extended. -/
def xenc (v : Fp) : Ext := BitVec.ofNat 64 (fpEncode fmt64 v)
/-- Sum, rounded once. -/
def xadd (a b : Ext) : Ext := xenc (fpAdd (xval a) (xval b))
/-- Difference, rounded once. -/
def xsub (a b : Ext) : Ext := xenc (fpAdd (xval a) (fpNeg (xval b)))
/-- Product, rounded once. -/
def xmul (a b : Ext) : Ext := xenc (fpMul (xval a) (xval b))
/-- Quotient, rounded once. -/
def xdiv (a b : Ext) : Ext := xenc (fpDiv (xval a) (xval b))
/-- Correctly rounded square root. -/
def xsqrt (a : Ext) : Ext := xenc (fpSqrt (xval a))
/-- a * b + c, rounded once. -/
def xfma (a b c : Ext) : Ext := xenc (fpAdd (fpMul (xval a) (xval b)) (xval c))
/-- Negation. -/
def xneg (a : Ext) : Ext := xenc (fpNeg (xval a))
/-- Absolute value. -/
def xabs (a : Ext) : Ext := xenc (fpAbs (xval a))
/-- a < b. -/
def xlt (a b : Ext) : Bool := fpLt (xval a) (xval b)
/-- a ≤ b. -/
def xle (a b : Ext) : Bool := fpLe (xval a) (xval b)
/-- a = b as numbers. -/
def xeq (a b : Ext) : Bool := fpEq (xval a) (xval b)
/-- Neither NaN nor infinity. -/
def xfinite (a : Ext) : Bool := fpFinite (xval a)
/-- The extended value nearest the integer. -/
def xint (i : Int) : Ext := xenc (fpOfInt i)
/-- The extended value nearest num / den. -/
def xrat (num : Int) (den : Nat) : Ext := xenc (fpDiv (fpOfInt num) (fpOfInt den))
/-- The smaller of two. -/
def xmin (a b : Ext) : Ext := if xlt b a then b else a
/-- The larger of two. -/
def xmax (a b : Ext) : Ext := if xlt a b then b else a
/-- `x` limited to `lo` .. `hi`. -/
def xclamp (lo hi x : Ext) : Ext := if xlt x lo then lo else if xlt hi x then hi else x
/-- 2^k for an integer k. -/
def xpow2 (k : Int) : Ext := xenc (.fin false 1 k)

/-! binary32 operations, R178. -/

/-- The value of a binary32 word. -/
def fval (x : Word) : Fp := fpDecode fmt32 x.toNat
/-- A value rounded to binary32. -/
def fenc (v : Fp) : Word := BitVec.ofNat 32 (fpEncode fmt32 v)
/-- Sum, rounded once. -/
def fadd (a b : Word) : Word := fenc (fpAdd (fval a) (fval b))
/-- Difference, rounded once. -/
def fsub (a b : Word) : Word := fenc (fpAdd (fval a) (fpNeg (fval b)))
/-- Product, rounded once. -/
def fmul (a b : Word) : Word := fenc (fpMul (fval a) (fval b))
/-- Quotient, rounded once. -/
def fdiv32 (a b : Word) : Word := fenc (fpDiv (fval a) (fval b))
/-- a * b + c, rounded once. -/
def ffma (a b c : Word) : Word := fenc (fpAdd (fpMul (fval a) (fval b)) (fval c))
/-- a < b. -/
def flt (a b : Word) : Bool := fpLt (fval a) (fval b)
/-- a ≤ b. -/
def fle (a b : Word) : Bool := fpLe (fval a) (fval b)
/-- The binary32 nearest the integer. -/
def fint (i : Int) : Word := fenc (fpOfInt i)
/-- The binary32 nearest num / den, ties to even. -/
def frat (num : Int) (den : Nat) : Word := fenc (fpDiv (fpOfInt num) (fpOfInt den))
/-- The binary32 value widened to extended, exact. -/
def xof32 (a : Word) : Ext := xenc (fval a)
/-- The extended value rounded to binary32. -/
def x32 (a : Ext) : Word := fenc (xval a)
/-- Neither NaN nor infinity. -/
def ffinite (a : Word) : Bool := fpFinite (fval a)

end Sys2Proof.Machine
end

