-- ==== Sys2Proof/Machine/Fluid.lean ====
section
/-! DEFINITION. Fluid properties and the differential-pressure meter (R185, R186, R191 to R194). Pressures in kPa absolute,
temperatures in °C; everything in extended. -/

namespace Sys2Proof.Machine

/-- What R192 gives for a tick: ρ1, h (0 for air), μ, and the flags FLUID_RANGE and PHASE. -/
structure Props where
  rho : Ext
  h : Ext
  mu : Ext
  range : Bool
  phase : Bool
deriving DecidableEq, Repr

/-- A value limited to a range, and whether it lay outside. -/
def limit (lo hi x : Ext) : Ext × Bool := (xclamp lo hi x, xlt x lo || xlt hi x)

/-- Largest pressure of a fluid's range in kPa. -/
def pMax (fluid : Nat) : Ext := if fluid = 3 then xint 4000 else xint 10000

/-- Saturated steam on the line at p with dryness x; its viscosities are those of fluids 1 and 0 at saturation (R193). -/
def satProps (ver : Nat) (p x : Ext) : Ext × Ext × Ext :=
  let f (a : FluidFn) : Ext := Config.fluid ver a p 0 0
  let v (fluid : Nat) : Ext := Config.fluid ver (.visc fluid) p (f .tSat) 0
  let y := xsub (xint 1) x
  (xdiv (xint 1) (xadd (xdiv x (f .rhoG)) (xdiv y (f .rhoF))), xadd (xmul x (f .hG)) (xmul y (f .hF)),
    xadd (xmul x (v 1)) (xmul y (v 0)))

/-- Properties of a fluid at p and t; `tb` that T is bound, `x` dryness, `rh` relative humidity, `dew` a dew point that
takes its place (R192, R193). -/
def fluidProps (ver fluid : Nat) (p t : Ext) (tb : Bool) (x rh : Ext) (dew : Option Ext) : Props :=
  let pl := limit (xint 100) (pMax fluid) p
  let ts := Config.fluid ver .tSat pl.1 0 0
  let f (a : FluidFn) (u h : Ext) : Ext := Config.fluid ver a pl.1 u h
  match fluid with
  | 0 =>
    let tl := limit (xint 1) (xint 200) t
    let u := if xlt ts tl.1 then ts else tl.1
    ⟨f (.rho 0) u 0, f (.enth 0) u 0, f (.visc 0) u 0, pl.2 || tl.2, xlt ts t⟩
  | 1 =>
    let hot := xlt (xint 400) t
    let u0 := if hot then xint 400 else t
    let u := if xlt u0 ts then ts else u0
    ⟨f (.rho 1) u 0, f (.enth 1) u 0, f (.visc 1) u 0, pl.2 || hot, xlt t ts⟩
  | 2 =>
    let xl := limit 0 (xint 1) x
    let r := satProps ver pl.1 xl.1
    ⟨r.1, r.2.1, r.2.2, pl.2 || xl.2, tb && xlt (xadd ts (xint 2)) t⟩
  | _ =>
    let tl := limit (xint (-20)) (xint 100) t
    let ovr := match dew with | some d => xlt tl.1 d | none => false
    let r0 := match dew with
      | some d => if ovr then xint 100 else f .rhOfDew tl.1 d
      | none => rh
    let rl := limit 0 (xint 100) r0
    ⟨f (.rho 3) tl.1 rl.1, 0, f (.visc 3) tl.1 rl.1, pl.2 || tl.2 || rl.2 || ovr, false⟩

/-- The base density (R194). -/
def rhoBase (ver fluid : Nat) (p t : Ext) : Ext :=
  if fluid = 3 then Config.fluid ver (.rho 3) p t 0 else Config.fluid ver (.rho 0) p t 0

/-! Differential-pressure meters (R186). -/

/-- π as an extended value. -/
def xPi : Ext := 0x400921FB54442D18

/-- 10^9, the cap of Re. -/
def reCap : Ext := xint 1000000000

/-- Geometry and conditions of a DP meter in a tick. -/
structure DpIn where
  meter : Nat
  taps : Nat
  dPipe : Ext
  dBore : Ext
  aPipe : Ext
  aBore : Ext
  tRef : Ext
  kappa : Ext
  cVent : Ext
  cut : Ext
  dp : Ext
  p : Ext
  t : Ext
  rho : Ext
  mu : Ext
deriving DecidableEq, Repr

/-- What R186 gives. -/
structure DpOut where
  q : Ext
  c : Ext
  eps : Ext
  re : Ext
  iters : Nat
  cutoff : Bool
  iter : Bool
  reRange : Bool
  ratio : Bool
deriving DecidableEq, Repr

/-- The iteration of an orifice: flow, Re, iterations run, end reached, some Re above the cap. -/
def orificeLoop (cd : Ext → Ext) (k den : Ext) : Nat → Nat → Ext → Ext → Bool → Ext × Ext × Nat × Bool × Bool
  | 0, i, q, re, cap => (q, re, i, false, cap)
  | n + 1, i, q, _, cap =>
    let raw := xdiv (xmul (xint 4) q) den
    let re := xmin raw reCap
    let ovr := cap || xlt reCap raw
    let qn := xmul (cd re) k
    if xle (xabs (xsub qn q)) (xmul (xrat 1 1000000) qn) then (qn, re, i + 1, true, ovr)
    else orificeLoop cd k den n (i + 1) qn re ovr

/-- Expansibility. -/
def expansibility (prog : Nat) (x : DpIn) (tau b4 : Ext) : Ext :=
  let one := xint 1
  let pow (a e : Ext) : Ext := Config.lib prog .pow a e
  if x.meter = 0 then
    xsub one (xmul (xadd (xadd (xrat 351 1000) (xmul (xrat 256 1000) b4)) (xmul (xmul (xrat 93 100) b4) b4))
      (xsub one (pow tau (xdiv one x.kappa))))
  else if xeq x.kappa one then
    xsqrt (xdiv (xmul (xdiv (xmul (xmul tau tau) (xsub one b4)) (xsub one (xmul (xmul b4 tau) tau)))
      (xneg (Config.lib prog .log tau 0))) (xsub one tau))
  else
    let e2 := pow tau (xdiv (xint 2) x.kappa)
    let k1 := xsub x.kappa one
    xsqrt (xdiv (xmul (xdiv (xmul (xdiv (xmul x.kappa e2) k1) (xsub one b4)) (xsub one (xmul b4 e2)))
      (xsub one (pow tau (xdiv k1 x.kappa)))) (xsub one tau))

/-- The range of Re_D by meter and β. -/
def reOut (meter : Nat) (b re : Ext) : Bool :=
  let lo := if meter = 1 then xint 200000
    else if xle b (xrat 56 100) then xint 5000 else xmul (xint 16000) (xmul b b)
  let hi := if meter = 1 then xint 1000000 else xint 100000000
  xlt re lo || xlt hi re

/-- The mass flow of a DP meter. -/
def dpFlow (prog : Nat) (x : DpIn) : DpOut :=
  let one := xint 1
  let dp := xmul (xint 1000) x.dp
  let p1 := xmul (xint 1000) x.p
  if xle dp (xmul (xint 1000) x.cut) then ⟨0, 0, 0, 0, 0, true, false, false, false⟩
  else
    let dt := xsub x.t x.tRef
    let dd := xmul x.dBore (xadd one (xmul x.aBore dt))
    let dD := xmul x.dPipe (xadd one (xmul x.aPipe dt))
    let b := xdiv dd dD
    let b4 := xmul (xmul (xmul b b) b) b
    let tau := xdiv (xsub p1 dp) p1
    let low := xlt tau (xrat 75 100)
    let eps := expansibility prog x tau b4
    let k := xmul (xdiv (xmul (xmul (xmul eps (xdiv xPi (xint 4))) dd) dd) (xsqrt (xsub one b4)))
      (xsqrt (xmul (xmul (xint 2) dp) x.rho))
    let den := xmul (xmul xPi x.mu) dD
    if x.meter = 1 then
      let q := xmul x.cVent k
      let re := xmin (xdiv (xmul (xint 4) q) den) reCap
      ⟨q, x.cVent, eps, re, 0, false, false, reOut 1 b re, low⟩
    else
      let cd (re : Ext) : Ext := Config.cdis prog x.taps dD b re
      let re0 := xint 10000000
      let r := orificeLoop cd k den 8 0 (xmul (cd re0) k) re0 false
      ⟨r.1, cd r.2.1, eps, r.2.1, r.2.2.1, false, !r.2.2.2.1, reOut 0 b r.2.1 || r.2.2.2.2, low⟩

end Sys2Proof.Machine
end

