-- ==== Sys2Proof/Machine/Crc.lean ====
section
/-! DEFINITION. CRC-32C and SHA-256, the check sums that records, frames and images carry (R214, R239, R267). -/

namespace Sys2Proof.Machine

/-- One bit of the reflected CRC-32C (Castagnoli polynomial; PRESUMED, log 10). -/
def crcBit (c : Word) : Word := if c.getLsbD 0 then (c >>> 1) ^^^ 0x82F63B78#32 else c >>> 1

/-- One byte of the CRC. -/
def crcByte (c : Word) (b : Byte) : Word :=
  let x := c ^^^ b.zeroExtend 32
  crcBit (crcBit (crcBit (crcBit (crcBit (crcBit (crcBit (crcBit x)))))))

/-- CRC-32C over a byte string (R214, R239, R360). -/
def crc32c (bs : List Byte) : Word := ~~~ (bs.foldl crcByte 0xFFFFFFFF#32)

/-! SHA-256 (R267). The hash is kept as two sequences of words, `a` and `e`, newest first: round t makes the next word of
each from the four newest of both. The constants are the first 32 fraction bits of roots of primes. -/

/-- The bits `n - 1` to 0 of the largest `x` above the found part `x` whose `k`-th power is at most `v`. -/
def rootBits (k v : Nat) : Nat → Nat → Nat
  | 0, x => x
  | n + 1, x => if (x + 2 ^ n) ^ k ≤ v then rootBits k v n (x + 2 ^ n) else rootBits k v n x

/-- The first 32 fraction bits of the `k`-th root of `p`, a prime below 512. -/
def rootFraction (k p : Nat) : Word := BitVec.ofNat 32 (rootBits k (p * 2 ^ (32 * k)) 37 0)

/-- The first `n` primes from `c` on, tried in turn with `fuel` candidates. -/
def primesFrom : Nat → Nat → Nat → List Nat
  | 0, _, _ => []
  | fuel + 1, n, c =>
    if n = 0 then []
    else if ((List.range c).drop 2).all fun d => c % d ≠ 0 then c :: primesFrom fuel (n - 1) (c + 1)
    else primesFrom fuel n (c + 1)

/-- The 64 round constants: cube roots. -/
def shaK : List Word := (primesFrom 320 64 2).map (rootFraction 3)

/-- The words of the start: square roots of the first eight primes; `a` takes four, `e` four. -/
def shaStart : List Word := (primesFrom 32 8 2).map (rootFraction 2)

/-- Exclusive or of a word's right rotations by the amounts listed. -/
def rotXor (ns : List Nat) (w : Word) : Word := ns.foldl (fun acc n => acc ^^^ w.rotateRight n) 0

/-- The sequences `a` and `e`, newest word first; the newest four of each are the hash so far. -/
structure ShaSeq where
  a : List Word
  e : List Word
deriving DecidableEq, Repr

/-- The next word of each sequence from a constant plus a message word. -/
def ShaSeq.next (s : ShaSeq) (kw : Word) : ShaSeq :=
  match s.a, s.e with
  | a1 :: a2 :: a3 :: a4 :: _, e1 :: e2 :: e3 :: e4 :: _ =>
    let pick := e3 ^^^ (e1 &&& (e2 ^^^ e3))
    let vote := (a1 &&& (a2 ||| a3)) ||| (a2 &&& a3)
    let t := kw + e4 + pick + rotXor [6, 11, 25] e1
    { a := [t + vote + rotXor [2, 13, 22] a1, a1, a2, a3], e := [a4 + t, e1, e2, e3] }
  | _, _ => s

/-- `n` more message words after those already there, newest first. -/
def shaExpand : Nat → List Word → List Word
  | 0, ws => ws
  | n + 1, ws =>
    let back (i : Nat) : Word := ws.getD (i - 1) 0
    let w := rotXor [17, 19] (back 2) ^^^ (back 2 >>> 10)
    let v := rotXor [7, 18] (back 15) ^^^ (back 15 >>> 3)
    shaExpand n ((back 16 + v + back 7 + w) :: ws)

/-- The 64 message words of a 64-byte block, in order: its own 16, most significant byte first, and 48 made from them. -/
def shaWords (blk : List Byte) : List Word :=
  let own := (List.range 16).map fun i => BitVec.ofNat 32 (leNat ((blk.drop (4 * i)).take 4).reverse)
  (shaExpand 48 own.reverse).reverse

/-- One block added to the hash. -/
def shaBlock (s : ShaSeq) (blk : List Byte) : ShaSeq :=
  let t := (List.zipWith (· + ·) shaK (shaWords blk)).foldl ShaSeq.next s
  { a := List.zipWith (· + ·) s.a t.a, e := List.zipWith (· + ·) s.e t.e }

/-- `n` blocks in turn. -/
def shaBlocks : Nat → List Byte → ShaSeq → ShaSeq
  | 0, _, s => s
  | n + 1, bs, s => shaBlocks n (bs.drop 64) (shaBlock s (bs.take 64))

/-- SHA-256 of a byte string (R267; the standard's algorithm, log 10). -/
def sha256 (bs : List Byte) : List Byte :=
  let l := bs.length
  let z := (119 - l % 64) % 64
  let p := bs ++ (0x80 : Byte) :: List.replicate z 0 ++ beBytes 8 (8 * l)
  let s := shaBlocks (p.length / 64) p { a := (shaStart.take 4), e := (shaStart.drop 4) }
  ((s.a ++ s.e).map fun w => beBytes 4 w.toNat).flatten

end Sys2Proof.Machine
end

