-- ==== Sys2Proof/Machine/RegMap.lean ====
section
/-! DEFINITION. The register map of chapter 15 (R434 to R453): for every address its writable bits, class, reset word
and snapshot group. A word that carries IMG fields resets to 0 in them (R10). -/

namespace Sys2Proof.Machine

/-- The register classes of R6. -/
inductive RegClass where
  /-- No writable field. -/
  | no
  /-- Metrological: staged, applied at COMMIT. -/
  | a
  /-- Operational: applied at once and audited. -/
  | b
  /-- Access mechanics: applied at once, no audit. -/
  | c
deriving DecidableEq, Repr

/-- What chapter 15 and the field tables give a register: masks of RW, W1C and WO bits (R5), class, reset word, SNAP. -/
structure RegDesc where
  rw : Word
  w1c : Word
  wo : Word
  cls : RegClass
  reset : Word
  snap : Bool
deriving DecidableEq, Repr

/-- A read-only register. -/
def roReg (reset : Word) : RegDesc := ⟨0, 0, 0, .no, reset, false⟩
/-- A snapshot word. -/
def snapReg (reset : Word) : RegDesc := ⟨0, 0, 0, .no, reset, true⟩
/-- RW fields. -/
def rwReg (cl : RegClass) (m reset : Word) : RegDesc := ⟨m, 0, 0, cl, reset, false⟩
/-- Class A fields loaded from the image. -/
def aReg (m : Word) : RegDesc := rwReg .a m 0
/-- W1C bits, class C. -/
def w1cReg (m : Word) : RegDesc := ⟨0, m, 0, .c, 0, false⟩
/-- WO fields. -/
def woReg (cl : RegClass) (m : Word) : RegDesc := ⟨0, 0, m, cl, 0, false⟩

/-! Base addresses and offsets. -/

/-- Hall block word (R442). -/
def aHall (h off : Nat) : Nat := 0x0400 + 0x100 * h + off
/-- Converter block word (R443). -/
def aConv (n off : Nat) : Nat := 0x0C00 + 0x80 * n + off
/-- Filter and rotation block word (R444). -/
def aRot (h off : Nat) : Nat := 0x1400 + 0x40 * h + off
/-- Run block word (R445). -/
def aRun (m off : Nat) : Nat := 0x1800 + 0x100 * m + off
/-- Totals block word (R446). -/
def aTot (m off : Nat) : Nat := 0x2000 + 0x40 * m + off
/-- Balance entry word (R446). -/
def aBal (b off : Nat) : Nat := 0x2400 + 8 * b + off
/-- Channel word at `off` + c of hall h. -/
def aCh (h c off : Nat) : Nat := aHall h (off + c)

/-- Identity, device status, attention and events (R436, R439). -/
def descDev (a : Nat) : Option RegDesc :=
  match a with
  | 0x0000 => some (roReg 0x08320003)
  | 0x0001 => some (roReg 0)
  | 0x0002 => some (roReg 0x20000000)
  | 0x0003 => some (roReg 0)
  | 0x0004 => some (snapReg 0)
  | 0x0100 => some (roReg 0)
  | 0x0101 => some (roReg 0)
  | 0x0104 => some (roReg 0)
  | 0x0105 => some (snapReg 0)
  | 0x0106 => some (snapReg 0)
  | 0x0107 => some (snapReg 0)
  | _ => none

/-- Host port, staging, streams (R441, R326). -/
def descHost (a : Nat) : Option RegDesc :=
  match a with
  | 0x0200 => some (roReg 0)
  | 0x0201 => some (w1cReg 0x7F)
  | 0x0202 => some (rwReg .b 0x7F 0x7F)
  | 0x0203 => some (roReg 0)
  | 0x0204 => some (roReg 0)
  | 0x0205 => some (rwReg .b 0xFFFFFFFF 0xFFFFFFFF)
  | 0x0206 => some (rwReg .b 0x3FFFFFFF 0x3FFFFFFF)
  | 0x0207 => some (roReg 0)
  | 0x0208 => some (roReg 0)
  | 0x0209 => some (roReg 0)
  | 0x0210 => some (roReg 0x0000FFFF)
  | 0x0211 => some (woReg .c 0x3)
  | 0x0212 => some (rwReg .c 0xFFFF 0)
  | 0x0213 => some (roReg 0)
  | 0x0214 => some (rwReg .c 0x3F 0)
  | 0x0215 => some (roReg 0)
  | 0x0216 => some (roReg 0)
  | 0x0217 => some (roReg 0)
  | 0x0220 => some (rwReg .c 0x3F 0)
  | 0x0221 => some (roReg 0)
  | 0x0222 => some (rwReg .c 0xFFFFFFFF 0)
  | 0x0223 => some (rwReg .c 0xFFFFFFFF 0)
  | 0x0224 => some (woReg .c 0x3)
  | 0x0225 => some (roReg 0)
  | _ => none

/-- Channel rows of a hall block, offsets 0x10 to 0x37 and 0x50 to 0x67 (R442). -/
def descChan (off : Nat) : Option RegDesc :=
  if off < 0x10 then none
  else if off < 0x14 then some (aReg 0x07FFFFFF)
  else if off < 0x18 then some (aReg 0xFFFFFFFF)
  else if off < 0x1C then some (rwReg .b 0xFFFFFF0F 0)
  else if off < 0x20 then some (rwReg .b 0x00FFFFFF 0)
  else if off < 0x24 then some (roReg 0)
  else if off < 0x28 then some (w1cReg 0x000F3FF9)
  else if off < 0x38 then
    match off % 4 with
    | 0 => some (roReg 0)
    | 3 => some (snapReg 0xFFFFFFFF)
    | _ => some (snapReg 0)
  else if off < 0x50 then none
  else if off < 0x58 then some (aReg 0xFFFFFFFF)
  else if off < 0x5C then some (roReg 0)
  else if off < 0x60 then some (w1cReg 0x7F8)
  else if off < 0x68 then some (roReg 0)
  else none

/-- One hall block (R442). -/
def descHall (h off : Nat) : Option RegDesc :=
  match off with
  | 0x00 => some (roReg (BitVec.ofNat 32 (0x300 + h)))
  | 0x01 => some (aReg 0x0001FFF1)
  | 0x02 => some (roReg 0)
  | 0x03 => some (roReg 0)
  | 0x04 => some (w1cReg 0x3BF)
  | 0x05 => some (rwReg .b 0x1 0)
  | 0x06 => some (woReg .c 0xF)
  | 0x07 => some (roReg 0)
  | 0x08 => some (roReg 0)
  | 0x09 => some (rwReg .b 0x000F03FF 0)
  | 0x40 => some (aReg 0x0000FF03)
  | 0x41 => some (roReg 0)
  | 0x42 => some (aReg 0x3FFF0003)
  | 0x43 => some (roReg 0)
  | 0x68 => some (aReg 0xF0FFFF00)
  | 0x69 => some (aReg 0xF0FFFF00)
  | 0x6A => some (aReg 0xF0FFFF00)
  | 0x6B => some (aReg 0xF0FFFF00)
  | 0x6C => some (woReg .b 0x1)
  | 0x6D => some (roReg 0)
  | 0x6E => some (w1cReg 0xF8)
  | 0x6F => some (roReg 0)
  | _ => descChan off

/-- One converter block; the window rows exist in K0 blocks only (R443). -/
def descConv (n off : Nat) : Option RegDesc :=
  match off with
  | 0x00 => some (aReg 0x1F)
  | 0x01 => some (aReg 0xF07)
  | 0x02 => some (aReg 0x3FFF0)
  | 0x03 => some (aReg 0x7FFF)
  | 0x04 => some (roReg 0)
  | 0x05 => some (w1cReg (if n % 2 = 0 then 0xFF1F else 0x1F))
  | 0x06 => some (rwReg .b (if n % 2 = 0 then 0xFF1F else 0x1F) 0)
  | 0x07 => some (woReg .b 0x1)
  | 0x08 => some (roReg 0)
  | 0x09 => some (snapReg 0)
  | 0x0A => some (roReg 0)
  | 0x0B => some (snapReg 0)
  | _ =>
    if off < 0x10 then none
    else if off < 0x38 then
      if off % 2 = 0 then some (aReg 0x3FFFFFFF) else some (aReg 0x0000FFF0)
    else if off < 0x48 ∧ n % 2 = 0 then
      match off % 4 with
      | 0 => some (rwReg .b 0xFFFFFFFF 0)
      | 1 => some (rwReg .b 0xFFFFFFFF 0)
      | 2 => some (rwReg .b 0xCFFFFFFF 0)
      | _ => some (roReg 0)
    else none

/-- One filter and rotation block (R444). -/
def descRot (off : Nat) : Option RegDesc :=
  match off with
  | 0x00 => some (aReg 0x8FFFFF0F)
  | 0x01 => some (woReg .b 0x7)
  | 0x02 => some (roReg 0)
  | 0x03 => some (w1cReg 0x7F)
  | 0x04 => some (rwReg .b 0x7F 0)
  | 0x05 => some (roReg 0)
  | 0x06 => some (snapReg 0)
  | 0x07 => some (snapReg 0)
  | 0x08 => some (roReg 0)
  | 0x09 => some (roReg 0)
  | 0x0A => some (roReg 0)
  | 0x14 => some (rwReg .b 0xF 0)
  | 0x15 => some (roReg 0)
  | _ =>
    if off < 0x10 then none
    else if off < 0x14 then some (aReg 0x80000F0F)
    else if off < 0x18 then none
    else if off < 0x20 then (if off % 2 = 0 then some (roReg 0) else some (snapReg 0))
    else none

/-- Synchronisation (R444). -/
def descSync (a : Nat) : Option RegDesc :=
  match a with
  | 0x1600 => some (rwReg .b 0xFFFDFFFF 0)
  | 0x1601 => some (roReg 0)
  | 0x1602 => some (w1cReg 0xF)
  | 0x1603 => some (rwReg .b 0xF 0)
  | 0x1604 => some (roReg 0)
  | 0x1605 => some (snapReg 0)
  | 0x1606 => some (snapReg 0)
  | 0x1607 => some (woReg .b 0x1)
  | 0x1608 => some (roReg 0)
  | _ => none

/-- The writable bits of RUN_OPAR j (R204). -/
def oparMask (j : Nat) : Word :=
  match j with
  | 6 => 0x3
  | 7 => 0
  | _ => 0xFFFFFFFF

/-- One run block (R445). -/
def descRun (off : Nat) : Option RegDesc :=
  match off with
  | 0x00 => some (aReg 0xFFFFF000)
  | 0x01 => some (aReg 0x00FFFFFF)
  | 0x02 => some (aReg 0x0003FFFF)
  | 0x03 => some (aReg 0x077FFFFF)
  | 0x40 => some (roReg 0)
  | 0x41 => some (w1cReg 0xFFFF3FC0)
  | 0x42 => some (rwReg .b 0xFFFF3FC0 0)
  | _ =>
    if off < 0x10 then none
    else if off < 0x30 then some (aReg 0xFFFFFFFF)
    else if off < 0x38 then some (rwReg .b (oparMask (off - 0x30)) 0)
    else if off < 0x43 then none
    else if off < 0x49 then some (roReg 0)
    else if off < 0x5A then some (snapReg 0)
    else if off < 0x80 then none
    else if off < 0xA0 then some (aReg 0xFFFFFFFF)
    else none

/-- One totals block (R446). -/
def descTot (off : Nat) : Option RegDesc :=
  match off with
  | 0x00 => some (roReg 0)
  | 0x1A => some (roReg 0)
  | 0x1B => some (w1cReg 0x3F)
  | 0x1C => some (rwReg .b 0x3F 0)
  | 0x1D => some (roReg 0)
  | _ => if off < 0x1A then some (snapReg 0) else none

/-- Periods (R446). -/
def descPer (a : Nat) : Option RegDesc :=
  match a with
  | 0x2200 => some (aReg 0x0FF0001F)
  | 0x2201 => some (roReg 0)
  | 0x2202 => some (w1cReg 0x1F)
  | 0x2203 => some (rwReg .b 0x1F 0)
  | 0x2204 => some (roReg 0)
  | 0x2205 => some (snapReg 0)
  | 0x2206 => some (snapReg 0)
  | 0x2207 => some (rwReg .b 0xF 0)
  | _ => none

/-- One balance entry (R446). -/
def descBal (off : Nat) : Option RegDesc :=
  match off with
  | 0 => some (aReg 0xFFFFFFFF)
  | 1 => some (aReg 0x007FFFFF)
  | 2 => some (aReg 0xFFFFFFFF)
  | 3 => some (aReg 0x0000FFFF)
  | 4 => some (aReg 0xFFFFFFFF)
  | 5 => some (roReg 0)
  | 6 => some (w1cReg 0xF)
  | _ => some (roReg 0)

/-- Audit and gallery (R447). -/
def descAud (a : Nat) : Option RegDesc :=
  match a with
  | 0x2600 => some (roReg 0)
  | 0x2601 => some (w1cReg 0xF)
  | 0x2602 => some (rwReg .b 0xF 0)
  | 0x2603 => some (roReg 0)
  | 0x2604 => some (snapReg 0)
  | 0x2605 => some (snapReg 0)
  | 0x2606 => some (snapReg 0)
  | 0x2607 => some (rwReg .c 0xFFFFFFFF 0)
  | 0x2608 => some (rwReg .c 0x0000FFFF 0)
  | 0x2609 => some (roReg 0)
  | 0x2610 => some (roReg 0)
  | 0x2611 => some (w1cReg 0x3)
  | 0x2612 => some (rwReg .b 0x3 0)
  | 0x2613 => some (roReg 0)
  | _ =>
    if a < 0x2614 then none
    else if a < 0x261E then some (roReg 0)
    else if a < 0x2620 then none
    else if a < 0x2628 then some (aReg 0x3FFFFFFF)
    else if a < 0x2630 then some (aReg 0x3FFFFFFF)
    else none

/-- Black box and journal (R447). -/
def descBb (a : Nat) : Option RegDesc :=
  match a with
  | 0x2800 => some (roReg 0)
  | 0x2801 => some (w1cReg 0x7)
  | 0x2802 => some (rwReg .b 0x7 0)
  | 0x2803 => some (rwReg .b 0x9F9F9F9F 0)
  | 0x2804 => some (rwReg .b 0x9F9F9F9F 0)
  | 0x2805 => some (roReg 0)
  | 0x2806 => some (woReg .b 0x3)
  | 0x2810 => some (roReg 0)
  | 0x2811 => some (w1cReg 0x3)
  | 0x2812 => some (rwReg .b 0x3 0)
  | 0x2813 => some (roReg 0)
  | 0x2814 => some (snapReg 0)
  | 0x2815 => some (snapReg 0)
  | 0x2816 => some (snapReg 0)
  | 0x2818 => some (rwReg .c 0xF 0)
  | _ => if 0x2819 ≤ a ∧ a ≤ 0x2820 then some (roReg 0) else none

/-- Watchdog, arbitration, ECC, clocks (R449). -/
def descWd (a : Nat) : Option RegDesc :=
  match a with
  | 0x2900 => some (rwReg .a 0xFFFF03FF 0x400003E8)
  | 0x2901 => some (roReg 0)
  | 0x2902 => some (w1cReg 0x3)
  | 0x2903 => some (rwReg .b 0x3 0)
  | 0x2904 => some (woReg .c 0x1)
  | 0x2905 => some (roReg 0)
  | 0x2906 => some (roReg 0)
  | 0x2907 => some (roReg 0)
  | 0x2908 => some (roReg 0)
  | 0x2910 => some (roReg 0)
  | 0x2920 => some (w1cReg 0xFF)
  | 0x2921 => some (rwReg .b 0xFF 0)
  | 0x2922 => some (roReg 0)
  | 0x2923 => some (roReg 0)
  | 0x2924 => some (roReg 0)
  | 0x2930 => some (roReg 0)
  | _ => none

/-- Miethlink (R450). -/
def descMl (a : Nat) : Option RegDesc :=
  match a with
  | 0x2A00 => some (aReg 0xF3FF0007)
  | 0x2A01 => some (aReg 0x0001FFFF)
  | 0x2A02 => some (aReg 0x00FF1FFC)
  | 0x2A03 => some (roReg 0)
  | 0x2A04 => some (w1cReg 0xFFFF)
  | 0x2A05 => some (rwReg .b 0xFFFF 0)
  | 0x2A06 => some (roReg 0)
  | 0x2A07 => some (roReg 0xFFFFFFFF)
  | 0x2A08 => some (roReg 0xFFFFFFFF)
  | 0x2A09 => some (roReg 0xFFFFFFFF)
  | 0x2A0A => some (roReg 0)
  | 0x2A0B => some (roReg 0)
  | 0x2A0C => some (roReg 0)
  | 0x2A0D => some (roReg 0)
  | 0x2A0E => some (roReg 0)
  | 0x2A0F => some (snapReg 0)
  | 0x2A10 => some (rwReg .b 0xFFFFFFFF 0)
  | 0x2A11 => some (rwReg .b 0xFFFFFFFF 0)
  | 0x2A12 => some (rwReg .b 0xFFFFFFFF 0)
  | 0x2A13 => some (woReg .b 0xF)
  | 0x2A14 => some (roReg 0)
  | 0x2A15 => some (roReg 0)
  | 0x2A16 => some (roReg 0)
  | 0x2A17 => some (woReg .b 0xF00103FF)
  | 0x2A18 => some (rwReg .b 0xFFFFFFFF 0)
  | 0x2A19 => some (rwReg .b 0xFFFFFFFF 0)
  | 0x2A20 => some (woReg .c 0xC03F0000)
  | 0x2A21 => some (rwReg .c 0x03FFFFFF 0)
  | 0x2A22 => some (rwReg .c 0xFFFFFFFF 0xFFFFFFFF)
  | 0x2A23 => some (roReg 0)
  | 0x2AC0 => some (roReg 0)
  | 0x2AC1 => some (roReg 0)
  | _ =>
    if a < 0x2A40 then none
    else if a < 0x2A80 then some (aReg 0xFF801FFF)
    else if a < 0x2AC0 then some (aReg 0xFFFFFFFF)
    else if a < 0x2B00 then none
    else if a < 0x2B40 then some (rwReg .c 0xFFFFFFFF 0)
    else none

/-- Pair (R451). -/
def descPair (a : Nat) : Option RegDesc :=
  match a with
  | 0x2C00 => some (aReg 0x8000FFFF)
  | 0x2C01 => some (aReg 0xFFFFFFFF)
  | 0x2C02 => some (roReg 0x00000007)
  | 0x2C03 => some (w1cReg 0x7FFF)
  | 0x2C04 => some (rwReg .b 0x7FFF 0)
  | 0x2C05 => some (woReg .b 0x1)
  | 0x2C06 => some (roReg 0)
  | 0x2C07 => some (roReg 0)
  | 0x2C08 => some (roReg 0)
  | 0x2C09 => some (roReg 0xFFFFFFFF)
  | 0x2C0A => some (roReg 0)
  | 0x2C0B => some (snapReg 0)
  | _ => none

/-- Image, start, flash (R452). -/
def descImg (a : Nat) : Option RegDesc :=
  match a with
  | 0x2D00 => some (roReg 0)
  | 0x2D01 => some (w1cReg 0x1FF)
  | 0x2D02 => some (rwReg .b 0x1FF 0)
  | 0x2D03 => some (roReg 0)
  | 0x2D04 => some (roReg 0)
  | 0x2D05 => some (roReg 0)
  | 0x2D06 => some (roReg 0)
  | 0x2D07 => some (roReg 0)
  | 0x2D08 => some (roReg 0)
  | 0x2D09 => some (roReg 0)
  | 0x2D0A => some (woReg .b 0xF07)
  | 0x2D0B => some (rwReg .c 0x000FFFFC 0)
  | 0x2D0C => some (woReg .c 0xFFFFFFFF)
  | 0x2D10 => some (roReg 0)
  | 0x2D11 => some (roReg 0)
  | 0x2D20 => some (roReg 0)
  | 0x2D21 => some (w1cReg 0x7)
  | 0x2D22 => some (rwReg .b 0x7 0)
  | 0x2D23 => some (roReg 0)
  | 0x2D24 => some (roReg 0)
  | _ => none

/-- Points of the window (R346, R453): run points, user points, channel and device points; the rest reserved. -/
def descPoint (n : Nat) : Option RegDesc :=
  if 2048 ≤ n ∧ n ≤ 6143 then some (rwReg .c 0xFFFFFFFF 0) else some (roReg 0)

/-- The register at a word address; none where the map has none (R434, R9). -/
def regDesc (a : Nat) : Option RegDesc :=
  if a < 0x0200 then descDev a
  else if a < 0x0300 then descHost a
  else if a < 0x0400 then none
  else if a < 0x0C00 then descHall ((a - 0x400) / 0x100) ((a - 0x400) % 0x100)
  else if a < 0x1400 then descConv ((a - 0xC00) / 0x80) ((a - 0xC00) % 0x80)
  else if a < 0x1600 then descRot ((a - 0x1400) % 0x40)
  else if a < 0x1800 then descSync a
  else if a < 0x2000 then descRun ((a - 0x1800) % 0x100)
  else if a < 0x2200 then descTot ((a - 0x2000) % 0x40)
  else if a < 0x2400 then descPer a
  else if a < 0x2600 then descBal ((a - 0x2400) % 8)
  else if a < 0x2800 then descAud a
  else if a < 0x2900 then descBb a
  else if a < 0x2A00 then descWd a
  else if a < 0x2C00 then descMl a
  else if a < 0x2D00 then descPair a
  else if a < 0x2E00 then descImg a
  else if a < 0x4000 then none
  else if a < 0x6000 then descPoint (a - 0x4000)
  else none

/-- The whole word after logic-die reset (R435); 0 where nothing is implemented. -/
def resetWord (a : Nat) : Word :=
  match regDesc a with
  | some d => d.reset
  | none => 0

/-- The words latched by a read of the first word of a snapshot group (R312), by the first word's address. -/
def snapGroup (a : Nat) : List Nat :=
  match a with
  | 0x0003 => [0x0004]
  | 0x0104 => [0x0105, 0x0106, 0x0107]
  | 0x1604 => [0x1605, 0x1606]
  | 0x2204 => [0x2205, 0x2206]
  | 0x2603 => [0x2604, 0x2605, 0x2606]
  | 0x2813 => [0x2814, 0x2815, 0x2816]
  | 0x2A0E => [0x2A0F]
  | 0x2C0A => [0x2C0B]
  | _ =>
    if 0x0400 ≤ a ∧ a < 0x0C00 then
      let off := (a - 0x400) % 0x100
      if 0x28 ≤ off ∧ off < 0x38 ∧ off % 4 = 0 then [a + 1, a + 2, a + 3] else []
    else if 0x0C00 ≤ a ∧ a < 0x1400 then
      let off := (a - 0xC00) % 0x80
      if off = 0x08 ∨ off = 0x0A then [a + 1] else []
    else if 0x1400 ≤ a ∧ a < 0x1600 then
      let off := (a - 0x1400) % 0x40
      if off = 0x05 then [a + 1, a + 2]
      else if 0x18 ≤ off ∧ off < 0x20 ∧ off % 2 = 0 then [a + 1] else []
    else if 0x1800 ≤ a ∧ a < 0x2000 then
      if (a - 0x1800) % 0x100 = 0x48 then (List.range 17).map (fun i => a + 1 + i) else []
    else if 0x2000 ≤ a ∧ a < 0x2200 then
      if (a - 0x2000) % 0x40 = 0 then (List.range 0x19).map (fun i => a + 1 + i) else []
    else []

/-- The _EVT registers in the order of R440, as (code, first address, stride, instances). -/
def evtTable : List (Nat × Nat × Nat × Nat) :=
  [(0x01, 0x0201, 0, 1), (0x02, 0x0404, 0x100, 8), (0x05, 0x046E, 0x100, 8), (0x06, 0x0C05, 0x80, 16),
   (0x07, 0x1403, 0x40, 8), (0x08, 0x1602, 0, 1), (0x09, 0x1841, 0x100, 8), (0x0A, 0x201B, 0x40, 8),
   (0x0B, 0x2202, 0, 1), (0x0C, 0x2406, 8, 64), (0x0D, 0x2601, 0, 1), (0x0E, 0x2611, 0, 1),
   (0x0F, 0x2801, 0, 1), (0x10, 0x2811, 0, 1), (0x11, 0x2902, 0, 1), (0x12, 0x2920, 0, 1),
   (0x13, 0x2A04, 0, 1), (0x14, 0x2C03, 0, 1), (0x15, 0x2D01, 0, 1), (0x16, 0x2D21, 0, 1)]

/-- Black-box CODE and SRC of the _EVT register at an address (R440). -/
def evtCode (a : Nat) : Nat × Nat :=
  if 0x0400 ≤ a ∧ a < 0x0C00 then
    let h := (a - 0x400) / 0x100
    let off := (a - 0x400) % 0x100
    if 0x24 ≤ off ∧ off < 0x28 then (0x03, 4 * h + (off - 0x24))
    else if 0x5C ≤ off ∧ off < 0x60 then (0x04, 4 * h + (off - 0x5C))
    else if off = 0x04 then (0x02, h) else (0x05, h)
  else
    match evtTable.find? (fun e => e.2.1 ≤ a && (a - e.2.1) % (max e.2.2.1 1) = 0
        && (a - e.2.1) / (max e.2.2.1 1) < e.2.2.2) with
    | some e => (e.1, (a - e.2.1) / (max e.2.2.1 1))
    | none => (0, 0)

/-! Addresses of single registers used by the meanings (R436 to R452). -/

/-- HP_EVT (R441). -/
def rHpEvt : Nat := 0x0201
/-- HP_REJ. -/
def rHpRej : Nat := 0x0207
/-- HP_CLAMP. -/
def rHpClamp : Nat := 0x0208
/-- HP_FRAMES. -/
def rHpFrames : Nat := 0x0209
/-- SYNC_EVT (R444). -/
def rSyncEvt : Nat := 0x1602
/-- PER_EVT (R446). -/
def rPerEvt : Nat := 0x2202
/-- AUD_EVT (R447). -/
def rAudEvt : Nat := 0x2601
/-- AUD_DROPPED. -/
def rAudDropped : Nat := 0x2609
/-- GAL_EVT. -/
def rGalEvt : Nat := 0x2611
/-- GAL_DROPPED. -/
def rGalDropped : Nat := 0x2613
/-- BB_EVT. -/
def rBbEvt : Nat := 0x2801
/-- BB_MISSED. -/
def rBbMissed : Nat := 0x2805
/-- JNL_EVT. -/
def rJnlEvt : Nat := 0x2811
/-- WD_CFG (R449). -/
def rWdCfg : Nat := 0x2900
/-- WD_EVT. -/
def rWdEvt : Nat := 0x2902
/-- WD_CHECKIN_COUNT. -/
def rWdCount : Nat := 0x2905
/-- ARB_WAIT. -/
def rArbWait : Nat := 0x2910
/-- ECC_EVT. -/
def rEccEvt : Nat := 0x2920
/-- ML_EVT (R450). -/
def rMlEvt : Nat := 0x2A04
/-- PAIR_EVT (R451). -/
def rPairEvt : Nat := 0x2C03
/-- PAIR_CFG. -/
def rPairCfg : Nat := 0x2C00
/-- IMG_EVT (R452). -/
def rImgEvt : Nat := 0x2D01
/-- NV_EVT. -/
def rNvEvt : Nat := 0x2D21
/-- HALL_EVT of hall h (R442). -/
def rHallEvt (h : Nat) : Nat := aHall h 0x04
/-- HALL_EXC_EVT of hall h. -/
def rExcEvt (h : Nat) : Nat := aHall h 0x6E
/-- CV_EVT of converter n (R443). -/
def rCvEvt (n : Nat) : Nat := aConv n 0x05
/-- ROT_EVT of hall h (R444). -/
def rRotEvt (h : Nat) : Nat := aRot h 0x03
/-- RUN_STATUS of run m (R445). -/
def rRunStatus (m : Nat) : Nat := aRun m 0x40
/-- RUN_EVT of run m. -/
def rRunEvt (m : Nat) : Nat := aRun m 0x41
/-- TOT_EVT of run m (R446). -/
def rTotEvt (m : Nat) : Nat := aTot m 0x1B
/-- BAL_EVT of entry b. -/
def rBalEvt (b : Nat) : Nat := aBal b 6

end Sys2Proof.Machine
end

