-- ==== Sys2Proof/Machine/Table.lean ====
section
/-! DEFINITION. Sparse plain-data tables keyed by number: register words, memory bytes, per-block state. -/

namespace Sys2Proof.Machine

/-- Key and value pairs, keys strictly rising; a key not listed reads as the table's default. -/
abbrev Table (α : Type) := List (Nat × α)

/-- The value at key `i`; `d i` where it is not listed. -/
def tget {α : Type} (d : Nat → α) : Table α → Nat → α
  | [], i => d i
  | (k, v) :: t, i => if k = i then v else tget d t i

/-- The table without key `i`. -/
def tdel {α : Type} : Table α → Nat → Table α
  | [], _ => []
  | (k, v) :: t, i => if k = i then tdel t i else (k, v) :: tdel t i

/-- `(i, x)` put before the first larger key. -/
def tins {α : Type} : Table α → Nat → α → Table α
  | [], i, x => [(i, x)]
  | (k, v) :: t, i, x => if i < k then (i, x) :: (k, v) :: t else (k, v) :: tins t i x

/-- The table with `x` at key `i`, whatever stood there. -/
def tput {α : Type} (t : Table α) (i : Nat) (x : α) : Table α := tins (tdel t i) i x

/-- The table with `x` at key `i` in canonical form: no entry where `x` is the default. -/
def tset {α : Type} [DecidableEq α] (d : Nat → α) (t : Table α) (i : Nat) (x : α) : Table α :=
  if x = d i then tdel t i else tput t i x

/-- The keys rise strictly from above `lo`, and no entry equals its default. -/
def twfFrom {α : Type} [DecidableEq α] (d : Nat → α) : Table α → Option Nat → Bool
  | [], _ => true
  | (k, v) :: t, lo =>
    (match lo with | none => true | some l => l < k) && (v != d k) && twfFrom d t (some k)

/-- The canonical form: keys strictly rising and no entry equal to what an unlisted key reads as. -/
def Table.wf {α : Type} [DecidableEq α] (d : Nat → α) (t : Table α) : Bool := twfFrom d t none

/-- The byte memory of R392 and R236: address and byte pairs. -/
abbrev Memory := Table Byte

/-- The byte at `a`; `blank` where nothing has been written. -/
def mread (blank : Byte) (m : Memory) (a : Nat) : Byte := tget (fun _ => blank) m a

/-- The memory with byte `b` at `a`, in canonical form. -/
def mwrite (blank : Byte) (m : Memory) (a : Nat) (b : Byte) : Memory := tset (fun _ => blank) m a b

/-- `n` bytes from `a` upward. -/
def mreads (blank : Byte) (m : Memory) (a : Nat) : Nat → List Byte
  | 0 => []
  | n + 1 => mread blank m a :: mreads blank m (a + 1) n

/-- The bytes written from `a` upward, lowest address first. -/
def mwrites (blank : Byte) (m : Memory) (a : Nat) : List Byte → Memory
  | [] => m
  | b :: t => mwrites blank (mwrite blank m a b) (a + 1) t

/-- The memory with `n` bytes from `a` erased to `blank`. -/
def merase (m : Memory) (a n : Nat) : Memory :=
  m.filter fun e => e.1 < a || a + n ≤ e.1

end Sys2Proof.Machine
end

