-- ==== Sys2Proof/Machine/State.lean ====
section
/-! DEFINITION. The state of the block as plain data: every register, RAM, flash chip, queue, mode and pin the spec gives
the AV832, and the queue of waiting commands. -/

namespace Sys2Proof.Machine

/-- Why a step can stop with a fault. No command of the table does: each has an effect in the spec, and the one
constructor stands so that the type is not empty of a name. -/
inductive Fault where
  /-- A state that no command can reach; raised by no meaning. Safe: nothing is proved through it. -/
  | unreachable
deriving DecidableEq, Repr

/-- Why a command can be refused by the model. -/
inductive Refusal where
  /-- A command the model does not give a meaning yet; raised by exec's refused arms alone. Safe: the run stops. -/
  | notModelled (mnemonic : String)
deriving DecidableEq, Repr

/-! Time (R22 to R24, R177). -/

/-- The clocks of the block, in ns. -/
structure TimeSt where
  /-- Local time since power-on, TCLK domain: only ever advances (log 1). -/
  now : Nat
  /-- Ring time, 64 bits (R24). -/
  ring : Nat
  /-- The RTC, VBAT domain (R22). -/
  rtc : Nat
  /-- The pairing of local time and ring time latched at the last tick boundary (R15). -/
  pairNow : Nat
  pairRing : Nat
  /-- Ring time of the last tick boundary taken, none before the first (R177). -/
  boundary : Option Nat
  /-- Ring time was stepped since the last tick boundary (R177). -/
  adj : Bool
deriving DecidableEq, Repr

/-! Host port (chapter 10). -/

/-- The frame state of the host port (R300 to R313). -/
structure HpSt where
  /-- TOGGLE of the next frame (R309); mode of the last one (R298). -/
  toggle : Bool
  mode3 : Bool
  /-- Bits 4 to 1 of the next status byte (R308). -/
  changed : Bool
  short : Bool
  reject : Bool
  addrEnd : Bool
  /-- What SDO carried in the last frame: driven or not, status byte, units of a read, bytes of a stream (R302, R321). -/
  driven : Bool
  status : Byte
  units : List Word
  bytes : List Byte
  /-- The command byte that a read frame's fetch gap echoes (R302). -/
  echo : Option Byte
deriving DecidableEq, Repr

/-- A staged word (R316). -/
structure StgEntry where
  addr : Nat
  value : Word
  src : Source
  writer : Nat
deriving DecidableEq, Repr

/-- Where a COMMIT stands (R318). -/
inductive StgPhase where
  | idle
  | checking
  | waiting
deriving DecidableEq, Repr

/-- The staging shadow (R316 to R320). -/
structure StgSt where
  /-- Staged words in ascending address order. -/
  entries : List StgEntry
  phase : StgPhase
  /-- STG_STAT.RESULT and REF_ADDR. -/
  result : Nat
  refAddr : Nat
  /-- STG_OP: the operation of the last COMMIT. -/
  op : Nat
  /-- On a standby, the tick whose boundary the forwarded COMMIT applies at (R371). -/
  tick : Option Nat
  /-- The standby has told that it holds every staged word of the COMMIT being checked (R371). -/
  delivered : Bool
deriving DecidableEq, Repr

/-- Stream positions and the stream buffer (R321 to R324). -/
structure StrSt where
  /-- Position by 32 * interface + stream; interface 0 host, 1 ring. -/
  pos : Table Nat
  /-- Keys whose buffer was reset: the next frame carries LOST (R323). -/
  reset : List Nat
  /-- The stream the buffer serves: STR_SEL or the last SEL1 frame, whichever came later (R324). -/
  named : Nat
  /-- Records of that stream ready in the buffer from the host's position onward. -/
  ready : Nat
  /-- STR_STAT.FILLING: the buffer is being filled since a select, a seek or a frame that consumed records (R324, R326). -/
  filling : Bool
  /-- The word written to STR_POS_LO, waiting for STR_POS_HI. -/
  posLo : Word
deriving DecidableEq, Repr

/-! Records (chapter 8). -/

/-- An audit record before its CRC (R239). -/
structure AudRec where
  seq : Nat
  src : Source
  kind : Nat
  time : Nat
  op : Nat
  writer : Nat
  addr : Nat
  width : Nat
  detail : Nat
  old : Nat
  new : Nat
deriving DecidableEq, Repr

/-- The audit trail (R238 to R244). -/
structure AudSt where
  /-- The audit queue in retention RAM, oldest first. -/
  queue : List AudRec
  /-- Next SEQ. -/
  next : Nat
  /-- Highest released SEQ. -/
  rel : Nat
  /-- SEQ of each stored record to its running slot. -/
  index : Table Nat
  /-- Slots ever written and sectors ever erased: the fill is slots - 1,024 * erased (R243). -/
  slots : Nat
  erased : Nat
  /-- AUD_LOST. -/
  lost : Bool
  /-- Class A and B writes since the running image was activated, and the generation they were made under (R240, R282). -/
  writes : Nat
  gen : Nat
deriving DecidableEq, Repr

/-- A flash ring of 64 KiB sectors (R236). -/
structure RingSt where
  /-- Bytes ever written. -/
  next : Nat
  /-- Records ever erased: the position of the oldest one held. -/
  erased : Nat
  /-- Records held: running byte offset to its BLOCK_SEQ, tick or SEQ, and its length. -/
  index : Table (Nat × Nat)
  /-- Next BLOCK_SEQ of the tier. -/
  seq : Nat
deriving DecidableEq, Repr

/-- What a slot of the capture area holds (R223, R242). -/
inductive CapRec where
  /-- A period record with its run and kind and the journal operation of its close, laid out by R246. -/
  | period (run kind seq op : Nat) (bytes : List Byte)
  /-- The live totals records of a COMMIT that no chip holds yet, four slots (R242), and its journal operation. -/
  | commitCkpt (op tick : Nat) (recs : List (List Byte))
deriving DecidableEq, Repr

/-- Interval values of one run in an open gallery block (R247). -/
structure GalIv where
  /-- Some tick was computed in the interval. -/
  any : Bool
  flags : Word
  alarm : Nat
  gap : Nat
  /-- Absent and saturated points, bit p. -/
  absent : Nat
  sat : Nat
  /-- X of points 0 to 5. -/
  xs : List Int
deriving DecidableEq, Repr

/-- The sums of one run's open interval: ticks computed, flags, alarm ticks, per point sum and count (R225, R247). -/
structure GalSum where
  ticks : Nat
  flags : Word
  alarm : Nat
  sums : List Ext
  cnts : List Nat
deriving DecidableEq, Repr

/-- One tier's open block (R251, R252). -/
structure GalTier where
  /-- GAL_CFG and GAL_SCALE of each run as they apply to the open interval and block; a COMMIT changed them (R252). -/
  plan : List (Word × Word)
  replan : Bool
  firstTick : Option Nat
  first : Bool
  timeStep : Bool
  /-- First tick of the open interval; none before the first computed tick. -/
  cur : Option Nat
  /-- Closed intervals by run, oldest first. -/
  ivs : Table (List GalIv)
  /-- The open interval's sums by run. -/
  sums : Table GalSum
  count : Nat
deriving DecidableEq, Repr

/-- The gallery and the capture area (R236, R247 to R253). -/
structure GalSt where
  t1 : GalTier
  t2 : GalTier
  /-- Flash rings: tier 1, tier 2 averages, checkpoints, hour records, day and month records. -/
  rings : Table RingSt
  cap : List CapRec
  writeFail : Bool
deriving DecidableEq, Repr

/-- A black-box event entry (R254). -/
structure BbEntry where
  time : Nat
  seq : Nat
  code : Nat
  src : Nat
  data : Nat
deriving DecidableEq, Repr

/-- The freeze header (R259). -/
structure BbHdr where
  cause : Nat
  trap : Nat
  seq : Nat
  time : Nat
  checked : Nat
  mask : Nat
  addr : Nat
  gen : Nat
  missed : Nat
  tick : Nat
deriving DecidableEq, Repr

/-- A block of the sample area: channel and its result records, 16 bytes each (R256). -/
structure SampBlk where
  ch : Nat
  recs : List (List Byte)
deriving DecidableEq, Repr

/-- The black box (R254 to R259). -/
structure BbSt where
  /-- The event ring, oldest first, 2,048 entries at most. -/
  events : List BbEntry
  seq : Nat
  frozen : Bool
  hdr : BbHdr
  /-- DUMP_PENDING; an attempt to write the dump is under way. -/
  pend : Bool
  dumping : Bool
  /-- An attempt failed since the freeze: only a recovering chip brings another (R258). -/
  failed : Bool
  dumpSeq : Nat
  /-- Dumps in flash: dump sequence number and sector 0 to 15, oldest first. -/
  dumps : List (Nat × Nat)
  /-- The sample area, oldest block first, 56 blocks at most. -/
  samples : List SampBlk
deriving DecidableEq, Repr

/-- A journal entry (R260). -/
structure JEntry where
  op : Nat
  typ : Nat
  st : Nat
  steps : Nat
  time : Nat
  target : Nat
  detail : Nat
deriving DecidableEq, Repr

/-- The journal ring of 16 entries (R260 to R263). -/
structure JnlSt where
  ring : Table JEntry
  slot : Nat
  /-- Entries ever written to the flash copy. -/
  copied : Nat
  next : Nat
  /-- The last entry that was open at the reset, as settled (R263). -/
  rst : Option JEntry
deriving DecidableEq, Repr

/-! Flash (chapters 8 and 9). -/

/-- What a flash job writes (R252). -/
inductive JobKind where
  /-- Checkpoint of a run at a tick, minute or commit. -/
  | ckpt (run tick : Nat) (commit : Bool) (op : Nat)
  /-- A period record. -/
  | period (run kind seq op : Nat)
  /-- A gallery block of tier 1 or 2. -/
  | block (tier seq op : Nat)
  /-- The repair of an image copy (R277). -/
  | repair (op : Nat)
  /-- Image data of a page of an image commit (R289). -/
  | page (op : Nat)
deriving DecidableEq, Repr

/-- A flash write under way: what, where (byte offset in the chip), the bytes, the chips it is for, the result on each,
attempts. -/
structure FlashJob where
  kind : JobKind
  off : Nat
  bytes : List Byte
  use0 : Bool
  use1 : Bool
  r0 : Option Bool
  r1 : Option Bool
  tries : Nat
deriving DecidableEq, Repr

/-- One serial NOR chip (R284, R285). -/
structure NvChip where
  mem : Memory
  /-- Identified since the start (R285); CSn_PRESENT, identified at the start. -/
  known : Bool
  present : Bool
  failed : Bool
  quad : Bool
  /-- Consecutive failed operations. -/
  fails : Nat
  id : Nat
deriving DecidableEq, Repr

/-- The flash controller and both chips. -/
structure NvSt where
  c0 : NvChip
  c1 : NvChip
  mhz : Nat
  jobs : List FlashJob
deriving DecidableEq, Repr

/-! Watchdog, clocks, memories (chapter 13). -/

/-- The watchdog (R382 to R391). -/
structure WdSt where
  /-- The plan in force. -/
  period : Nat
  mask : Nat
  /-- Slots checked in. -/
  checked : Nat
  /-- Local time at which the period began, and the halted time inside it. -/
  start : Nat
  halted : Nat
  /-- WD_WARN_MISS.WARN; LAST and WD_RESETS live in retention RAM. -/
  warn : Nat
  last : Nat
  resets : Nat
deriving DecidableEq, Repr

/-- Where the logic die stands (R279). -/
inductive DieSt where
  /-- Held in reset. -/
  | reset
  /-- Held in full reset by the watchdog for 64 WDCLK cycles (R388). -/
  | wdReset
  /-- Held in reset until the die is below 115 °C (R433). -/
  | hot
  /-- Released, PLL0 not locked (R309). -/
  | released
  /-- PLLs locked: the host port answers. -/
  | locked
  /-- Image chosen and applied to the logic die; halls take their sections. -/
  | chosen
  /-- Image applied and halls configured. -/
  | applied
  /-- No image accepted. -/
  | noImage
deriving DecidableEq, Repr

/-- Clocks, supplies and the start sequence. -/
structure ClkSt where
  die : DieSt
  /-- The next start's cause (START_STAT.CAUSE). -/
  cause : Nat
  /-- Straps sampled, BOOT1 and BOOT0; PAIR_ROLE. -/
  straps : Nat
  roleStrap : Bool
  /-- Local time of the release of RESET_N. -/
  rel : Nat
  /-- PLL_LOCK bits; MODCLK reaches the halls. -/
  lock : Nat
  modclk : Bool
  xinLost : Bool
  ref10Lost : Bool
  tclkXin : Bool
  rtcStop : Bool
  vbatLow : Bool
  /-- The VBAT domain's latch and its copy at start (R396). -/
  vbatDropLatch : Bool
  vbatDrop : Bool
  /-- VDDC is absent. -/
  vddcOff : Bool
  /-- The engine is halted by the debugger, at this tick (R391). -/
  halt : Option Nat
  /-- Local time at which the halt began. -/
  haltAt : Nat
  /-- DEV_STATE.PHASE. -/
  phase : Nat
  /-- All enabled runs reconciled; role settled (R216, R363). -/
  reconciled : Bool
  retLost : Bool
  timeUnset : Bool
  /-- START_STAT fields TRIED and KEPT, START_TIME. -/
  tried : Nat
  kept : Nat
  startUs : Nat
deriving DecidableEq, Repr

/-- The byte memories of R392. -/
structure MemSt where
  main : Memory
  mirror : Memory
  ret : Memory
  prog : Memory
  /-- The active half of program RAM. -/
  half : Nat
  /-- Words with an uncorrectable error: memory number of R405 and word (R399); of program RAM by byte address / 4. -/
  bad : List (Nat × Nat)
deriving DecidableEq, Repr

/-! Miethlink (chapter 11). -/

/-- One port (R328 to R331, R336). -/
structure MlPort where
  /-- 0 disabled, 1 down, 2 lock, 3 up, 4 faulty. -/
  st : Nat
  silent : Bool
  pass : Bool
  /-- In the present loop. -/
  inLoop : Bool
  /-- Measured link delay in ps and the exchanges in the running average. -/
  delay : Option Nat
  sum : Nat
  cnt : Nat
  /-- The next ECHO of its series waits for the reserve (R336). -/
  echoDue : Bool
deriving DecidableEq, Repr

/-- A loop: addressed nodes, processing hops, own address, and whether it is a ring (R331, R334). -/
structure MlLoop where
  nodes : Nat
  hops : Nat
  addr : Option Nat
  ring : Bool
deriving DecidableEq, Repr

/-- An entry waiting to be sent in a DATA frame: its bytes, the earliest local time, and whether it answers a request that
is still pending (R351). -/
structure AcyOut where
  bytes : List Byte
  notBefore : Nat
  answer : Bool
deriving DecidableEq, Repr

/-- The mailbox's outstanding request (R353). -/
structure MbReq where
  op : Nat
  tag : Nat
  words : Nat
  /-- Local time of the request. -/
  sent : Nat
deriving DecidableEq, Repr

/-- The Miethlink node. -/
structure MlSt where
  ports : Table MlPort
  loop : Option MlLoop
  /-- The loop to adopt and its START (R334). -/
  next : Option (MlLoop × Nat)
  /-- Address offered by the FORM in progress. -/
  offered : Option Nat
  /-- The head's FORM in flight: local time of dispatch; one waits for the next cycle. -/
  formAt : Option Nat
  formReq : Bool
  /-- Ports up when the FORM in progress passed, bit p. -/
  formPorts : Nat
  /-- Stopped by a second head (R337). -/
  stopped : Bool
  isHead : Bool
  backup : Bool
  noHead : Bool
  isolated : Bool
  timeLock : Bool
  lockCnt : Nat
  formResult : Nat
  /-- The head's last formation succeeded (R334). -/
  formed : Bool
  topo : Nat
  /-- The ring has wrapped and is not yet back in its intact form (R341). -/
  turned : Bool
  loopNs : Nat
  lbound : Nat
  train : Nat
  tofs : Int
  /-- Cycle number and the cycle in which a CYCLE frame was last received or sent. -/
  cyc : Nat
  gotCycle : Bool
  appended : Bool
  /-- WRAPPED or NEWLINK came back with the last CYCLE frame. -/
  needForm : Bool
  mismatch : Bool
  /-- Valid subscription entries, bit e (R349). -/
  subValid : Nat
  outs : List AcyOut
  mb : Option MbReq
  tag : Nat
  /-- Scheduled INJECT commands by ring time. -/
  injects : List Nat
  /-- TIME_SET waiting for a PPS edge (R345). -/
  tset : Bool
  utcValid : Bool
  utcOfs : Word
  ppsErr : Int
  ppsBig : Nat
  /-- Local time of the last offset or error of ring time that was taken (R343, R345). -/
  timeAt : Option Nat
deriving DecidableEq, Repr

/-! Redundant pair (chapter 12). -/

/-- The pair agent (R359 to R377). -/
structure PairSt where
  /-- Active. -/
  active : Bool
  confirmed : Bool
  linkUp : Bool
  partnerReady : Bool
  single : Bool
  linkDown : Bool
  actFault : Bool
  cfgDiverge : Bool
  fenced : Bool
  strapConflict : Bool
  idMismatch : Bool
  genDiff : Bool
  /-- Consecutive missed heartbeats; last SEQ of each frame type (R360); a heartbeat awaits its ACK. -/
  missed : Nat
  seqs : Table Nat
  waiting : Bool
  /-- Consecutive heartbeats of the partner that lagged; the partner answered and confirmed its role. The lagging ones count in
  `missed`, too (R361). -/
  lagged : Nat
  joined : Bool
  /-- The partner answered within the last second: local time of its last sign. -/
  partnerAt : Option Nat
  /-- PAIR_ACT level, local time of its last change, and a gap of 30 µs since becoming active. -/
  act : Bool
  actAt : Nat
  gap : Bool
  /-- PAIR_ACT_IN counted as toggling when it was last looked at (R362). -/
  inToggling : Bool
  /-- Local time of the last heartbeat tick. -/
  tickAt : Nat
  /-- Ticks computed as standby without divergence; the last diverging tick's age. -/
  standbyTicks : Nat
  divAge : Option Nat
  /-- Carried state asked for and arrived. -/
  stateAsked : Bool
  stateHere : Bool
  /-- Open handover: step, and its switch boundary. -/
  hoStep : Option Nat
  hoOp : Nat
  hoSwitch : Option Nat
  /-- A debug halt waits for the handover (R377). -/
  hoHalt : Bool
  /-- A rolling reload waits for the handover (R293). -/
  hoRoll : Bool
  /-- Local time of the takeover's detection D. -/
  tkAt : Option Nat
  /-- The role change's ring time. -/
  tko : Nat
  crcErr : Nat
  missCnt : Nat
  divCnt : Nat
  chgCnt : Nat
  wcoll : Nat
  /-- The link delay in ps, and the exchanges of the running average (R336, R363). -/
  delay : Option Nat
  delaySum : Nat
  delayCnt : Nat
  /-- Record rings as received (R367, R369): for each slot 112 n + k the number of the record it holds, counted from the first
  one received, for each converter n the number the next record takes, and its distance from the sender's position. -/
  recAt : Table Nat
  recNext : Table Nat
  recBase : Table Nat
  /-- The partner's generation when it last differed (R293). -/
  otherGen : Nat
  /-- The partner was lost after it was ordered to restart (R294). -/
  away : Bool
  /-- The first tick boundary in the present role is still to come (R218, R365, R376). -/
  join : Bool
  /-- The tick being computed has its set from mirror RAM (R20). -/
  mirrored : Bool
  /-- Pulse outputs whose idle report to the new active is still to come (R376): 4h + c. -/
  idleDue : List Nat
deriving DecidableEq, Repr

/-- A frame handed to a transmitter: 0 to 2 Miethlink ports, 3 the pair link, 4 + h the link of hall h (log 8). `good`
false: a Miethlink frame ended with EOFB (R333). -/
structure TxFrame where
  line : Nat
  bytes : List Byte
  good : Bool
deriving DecidableEq, Repr

/-! Halls, channels and converters (chapters 2 to 5). -/

/-- A result record on its way (R135) with its pulsation values (R159): p and m in binary32, SETTLING; `stale` marks a
record of the buffer before a reset (R139). `buf` and `idx` name its place once it is in SRAM (R20). -/
structure Rec where
  code : Word
  tag : Word
  /-- The hall's MODCLK sample count of the completing sample, and the ring time in ns that the logic die makes of it. -/
  count : Nat
  time : Nat
  puls : Option (Word × Word × Bool)
  stale : Bool
  buf : Nat
  idx : Nat
  /-- Local time of its DMA write. -/
  wrote : Nat
deriving DecidableEq, Repr

/-- A channel as it was before the COMMIT that last changed its mode: mode, CH_SENS, CH_NE43, and the ring time of the
COMMIT's boundary (R31). -/
structure OldChan where
  mode : Nat
  sens : Word
  ne43 : Word
  at_ : Nat
deriving DecidableEq, Repr

/-- Phase of a converter's sequencer (R113, R117, R125). -/
inductive ConvPhase where
  | idle
  /-- A step begins at the instant `at16`. -/
  | boundary
  /-- The settling delay ends at `at16`. -/
  | settling
  /-- The settling delay ended during blanking. -/
  | waiting
  /-- A window is open and its result completes at `at16`. -/
  | window
  /-- A step whose window had opened when blanking began: restarts from its settling delay at the release. -/
  | blanked
deriving DecidableEq, Repr

/-- What a converter runs (R114, R161, R165). -/
inductive ConvRole where
  | none
  | flight
  | shadow
  | ladder
deriving DecidableEq, Repr

/-- One converter. Instants are MODCLK time in units of 15,625 to a MODCLK/16 tick, 1/16 ns at the nominal frequency. -/
structure ConvState where
  phase : ConvPhase
  role : ConvRole
  at16 : Nat
  /-- Opening instant of the present window. -/
  open16 : Nat
  /-- Step in progress, injected or not, and its results complete. -/
  step : Nat
  inj : Bool
  done : Nat
  /-- The abandoned flight step and its results complete (R120). -/
  backStep : Nat
  backDone : Nat
  /-- INJ_PENDING; sequences run back to back; results still owed by the resumed flight (R121). -/
  pend : Bool
  twice : Bool
  owed : Bool
  owedCnt : Nat
  /-- A trigger that waits for the release of blanking (R127). -/
  heldTrig : Bool
  /-- Automatic gain of the next execution, by step (16 + i for injected step i), log2 (R134). -/
  autoGain : Table Nat
  /-- Gain of the last execution by step, log2 (R133). -/
  lastGain : Table Nat
  /-- Gain of the execution in progress, log2. -/
  gain : Nat
  /-- Instant of the last overrange sample (R132). -/
  lastOvr : Option Nat
  /-- An overrange result since the last first result of a step; the step's first result is still to come and carries
  RECOV (R132). -/
  ovrStep : Bool
  first : Bool
  recovNext : Bool
  /-- The boundary reached restarts the step that was in progress. -/
  again : Bool
  /-- The channel's TC_OPEN check of this step found a break (R98). -/
  tcOpen : Bool
  /-- Check-in bookkeeping: a cycle was completed since the last check-in (R115). -/
  cycled : Bool
  /-- A flight cycle of the flight now held counts these results in continuous mode. -/
  cycRes : Nat
  /-- A committed flight change waits for the end of the cycle (R116). -/
  newFlight : Bool
  /-- Triggers that reached the sequencer, by the instant at which they take effect (R119). -/
  trigs : List Nat
  /-- The boundary reached ends a flight step: swaps may take place (R122). -/
  fresh : Bool
  /-- The boundary reached begins a flight cycle of which no step has begun (R116). -/
  cycStart : Bool
  /-- A swap or swap back fell due in the sequence that ended: it waits for REPEAT results in continuous mode (R122). -/
  swapWait : Bool
  /-- CV_STATUS.DISC_CNT. -/
  disc : Nat
  /-- Records that left the hall for this converter's buffer, oldest first (R16, R137). -/
  fifo : List Rec
  /-- CV_DMA_WIDX and CV_DMA_WRAP. -/
  widx : Nat
  wrap : Nat
deriving DecidableEq, Repr

/-- The latch that holds an output until HALL_ACK (R48, R50, R56). -/
inductive Latch where
  | none
  /-- Held off. -/
  | off
  /-- Held in the safe state. -/
  | safe
deriving DecidableEq, Repr

/-- Where EXT_OVERCURRENT stands (R86). -/
inductive ExtPhase where
  | none
  /-- Switch open, 10 ms. -/
  | opened
  /-- Safe state driven, 100 ms. -/
  | driving
  /-- Open and latched. -/
  | latched
deriving DecidableEq, Repr

/-- A ramp of a current output: from, to, start in ns of local time, length in ns (R58, R62, R87). -/
structure Ramp where
  from_ : Nat
  dest : Nat
  start : Nat
  len : Nat
  /-- Rank of R55 that started it: 2 a sag, 5 a return to the command. -/
  rank : Nat
deriving DecidableEq, Repr

/-- One channel of a hall. -/
structure ChanState where
  /-- Mode in effect; the committed mode and the local time from which it may apply (R31). -/
  mode : Nat
  newMode : Option (Nat × Nat)
  /-- Latest command (R57) and the value driven: 0 or 1, µA or mHz. -/
  cmd : Nat
  drive : Nat
  ramp : Option Ramp
  /-- The command a HOLD safe state keeps (R53, R57). -/
  held : Nat
  /-- Causes of a safe state: gang failure, EXT_OVERCURRENT, pair standby (R54, R373). -/
  gangSafe : Bool
  extSafe : Bool
  idleOut : Bool
  /-- Waits to be switched on in channel order (R58). -/
  queued : Bool
  /-- A cause cleared while a reload held the output: RESTORE waits for the release (R56, R58, R287). -/
  restoreDue : Bool
  /-- A per-channel switch-off is in force (R55 item 3). -/
  cut : Bool
  latch : Latch
  attempts : Nat
  /-- Flags of CH_STATUS and CH_AIN_STAT as the hall holds them; events not yet reported. -/
  stat : Word
  ain : Word
  evt : Word
  ainEvt : Word
  /-- Ring time of the last reported change of STATE (R38, R456). -/
  stTime : Nat
  /-- EXT_DRIVE stands for reverse current, not for voltage while off (R49). -/
  rev : Bool
  ext : ExtPhase
  /-- Consecutive monitor samples for: warn, warn clear, fail, fail clear, open, open clear, readback, external. -/
  mon : List Nat
  /-- COMPLIANCE_FAIL, READBACK and EXT_OVERCURRENT suspended until (R85). -/
  suspend : Nat
  imeas : Word
  /-- Wire-break band under test and its consecutive measurements (R40). -/
  wbBand : Nat
  wbCount : Nat
  /-- Last valid STATE of mode 3. -/
  wbState : Bool
  /-- Pulse input: level sampled last, running count, last edge time and interval, deliveries (R42 to R44). -/
  level : Bool
  pcnt : Nat
  plast : Option Nat
  pper : Option Nat
  /-- MODCLK time of the last counted edge in sixteenths of a MODCLK period (R42). -/
  pstep : Option Nat
  /-- Local time of the last edge of either sense, for the phase of R43. -/
  pedge : Option Nat
  acc : Nat
  accFirst : Nat
  accLast : Nat
  /-- Deliveries sent but not yet latched, and the index of the last one. -/
  deliv : List Deliv
  delivN : Nat
  /-- The interval of local time in which both devices' burdens may be in circuit (R375): its start and its end. -/
  mixFrom : Nat
  mixed : Nat
  /-- Pulse output (R199): backlog last received, W in ns, and the local time at which the pulse in progress began. -/
  pulseLeft : Nat
  pulseW : Nat
  pulseOn : Option Nat
  /-- Local time before which no pulse begins: W off after the last one (R199). -/
  pulseRest : Nat
  /-- Pulsation path: results taken since its reset, m and s in binary64, SKIPPED (R156 to R158). -/
  pulsN : Nat
  pulsM : Ext
  pulsS : Ext
  pulsSkip : Bool
  pulsP : Word
  pulsMean : Word
  pulsSettling : Bool
deriving DecidableEq, Repr

/-- The landing rotation of one hall (R160 to R172). -/
structure RotSt where
  /-- ROT_STAT.PHASE. -/
  phase : Nat
  due : Bool
  /-- Number of the next rotation (ROT_COUNT). -/
  count : Nat
  step : Nat
  /-- Flight cycles of the present shadow phase, in continuous mode results; counted pairs; their sum. -/
  cycles : Nat
  pairs : Nat
  sum : Int
  /-- The shadow step was begun in this flight cycle; a FORCE restarted it or an injected sequence abandoned it, so that its
  execution gives no pair (R162, R168). -/
  seen : Bool
  forced : Bool
  /-- Results of the pair in progress: instant, code, clean. -/
  k0 : Option (Nat × Int × Bool)
  k1 : Option (Nat × Int × Bool)
  /-- The shadow failed once in this rotation; a K0 ladder failed once (R169). -/
  failedOnce : Bool
  ladderTwice : Bool
  arbitrate : Bool
  /-- A swap, or a swap back, takes place at the next boundary. -/
  swap : Bool
  back : Bool
  /-- The flight is on K1. -/
  onK1 : Bool
  /-- Ladder points left: VSRC and log2 gain; the converter that converts them; a point failed. -/
  ladder : List (Nat × Nat)
  bad : Bool
  /-- Some ladder of this rotation failed. -/
  anyBad : Bool
  worst : Word
  worstDev : Nat
  ratio : Int
  dMean : Int
  unresolved : Bool
  ladderFail : Bool
  refDis : Bool
  overdue : Bool
  /-- Completed at some time since the configuration; ring time of the last one; local time of reference for OVERDUE. -/
  done : Bool
  last : Nat
  since : Nat
  /-- Ring time up to which due instants were taken (R160). -/
  dueSeen : Nat
  /-- The rotation was asked for by UNRETIRE_K1 (R172 item 1). -/
  unret1 : Bool
deriving DecidableEq, Repr

/-- One hall. -/
structure HallState where
  /-- Supplied and not in under-voltage reset. -/
  up : Bool
  /-- Hall local RAM's section: register address to word; its CRC-32C (R35, R272). -/
  cfg : Table Word
  crc : Option Nat
  /-- Committed words that wait: a flight's for the end of its cycle, an injected sequence's for its next start (R116). -/
  next : Table Word
  /-- Configured since the logic die's last start (R36). -/
  since : Bool
  /-- The channels run the section: false until the configuration is applied. -/
  active : Bool
  /-- Last valid heartbeat sequence received; next one to send. -/
  hbSeq : Option Nat
  hbTx : Nat
  /-- The logic die sees the hall: status frames arrive. -/
  linked : Bool
  /-- HALL_STATUS bits [9:1] as the hall holds them, events not yet reported. -/
  stat : Word
  evt : Word
  excStat : Word
  excEvt : Word
  /-- ROT_EVT bits not yet reported. -/
  rotEvt : Word
  vlp : Nat
  vres : Nat
  tdie : Int
  cj : Word
  /-- A reload holds every output at its present drive (R287). -/
  hold : Bool
  /-- The SAG3 state of the exit from under-voltage reset; the logic die set UVR_EVT for it (R421). -/
  uvrSag : Bool
  uvrEvt : Bool
  /-- A recovery ended before the outputs were released: the policy of R56 waits, with the state LATCH_OFF keeps (R36). -/
  leaveDue : Option Latch
  /-- The window comparators as WIN_STAT shows them (R128 to R130, R144). -/
  win : List Word
  /-- Local time from which R58 may switch the next digital output on. -/
  nextOn : Nat
  /-- Reference buffer: local time of its enable; warm-up running (R109). -/
  bufAt : Option Nat
  warming : Bool
  /-- Local time at which WARMING last cleared (R110). -/
  warmEnd : Nat
  /-- Flights run (R110). -/
  running : Bool
  /-- Levels of BLANK0 and BLANK1 as the hall sees them, ignored since BLANK_MAX, and the start of blanking. -/
  blank0 : Bool
  blank1 : Bool
  stuck0 : Bool
  stuck1 : Bool
  /-- Local time since which BLANK0 and BLANK1 are asserted (R126). -/
  blankAt0 : Nat
  blankAt1 : Nat
  /-- Retirement kept in local RAM, and the logic die's copy of it in retention RAM (R170, R396). -/
  ret0 : Bool
  ret1 : Bool
  kept0 : Bool
  kept1 : Bool
  rot : RotSt
  /-- Excitation profiles in effect and the committed ones that wait for a boundary (R91). -/
  exc : List Word
  excNew : Option (List Word)
  profile : Nat
  /-- Hall local RAM with an uncorrectable word (R399). -/
  ecc : Bool
deriving DecidableEq, Repr

/-- Synchronisation (R150 to R154). -/
structure SyncSt where
  /-- Scheduled syncs: ring time and whether SYNC_IN or SYNC_NOW made it. -/
  queue : List (Nat × Bool)
  /-- MODCLK time less local time in 1/16 ns when the present slew began, the phase error the slew is to remove in the same
  unit, and the local time at which it began (R150). -/
  grid : Int
  slew : Int
  slewAt : Nat
  count : Nat
  last : Nat
  outEnd : Option Nat
  /-- Level of SYNC_IN, true high; its ball has a pull-down (R411). -/
  level : Bool
deriving DecidableEq, Repr

/-! Run engine, totals, periods and balance pairs (chapters 6 and 7). -/

/-- The pulse input of a channel as a tick set holds it (R43, R44): the deliveries latched, and FREQ_HIGH. -/
structure PulseSet where
  deliv : List Deliv
  high : Bool
deriving DecidableEq, Repr

/-- A tick set (R17, R99, R159): newest record of each channel, pulse deliveries by channel, cold-junction sensors by hall. -/
structure TickSet where
  tick : Nat
  recs : Table Rec
  pulses : Table PulseSet
  cjs : Table Word
  /-- The boundary that began the tick was realigned (R177), and the channels whose mode the last COMMIT changed (R31). -/
  adj : Bool
  modes : Table OldChan
deriving DecidableEq, Repr

/-- A tick as the boundary that began it named it: its number, a realigned boundary, and the channels whose mode the last COMMIT
changed (R31, R177). -/
structure TickId where
  tick : Nat
  adj : Bool
  modes : Table OldChan
deriving DecidableEq, Repr

/-- A COMMIT on a standby whose tick before the boundary is still to be computed (R20, R182): the changed words of runs and
channels with the values that tick is computed with, and for each run whether it was enabled and its POUT channel. -/
structure LateCommit where
  old : List (Nat × Word)
  runs : List (Bool × Option Nat)
deriving DecidableEq, Repr

/-- The engine (R17, R18, R291). -/
structure EngSt where
  /-- The tick being computed and its set. -/
  set : TickSet
  /-- The tick that the last boundary began, and the one the boundary before it began, which a standby computes (R20). -/
  this : Option TickId
  prev : Option TickId
  /-- What a COMMIT changed at the last boundary waits for the tick before it (R182). -/
  late : Option LateCommit
  /-- Next slot, 8 when the sequencer has passed M7's slot, 9 when it did not reach it (R202, R383). -/
  slot : Nat
  /-- Local time at which the slots of the tick began. -/
  start : Nat
  /-- Last tick whose M7 slot has ended. -/
  doneTick : Nat
  /-- Ticks are computed: the first valid run tick has come (R280). -/
  running : Bool
  /-- A run trapped in this tick; a tick without a trap has been completed since the last trap (R202). -/
  tickTrap : Bool
  armed : Bool
  /-- RUN_OPAR POUT_Q words written and waiting for a tick boundary, by run (R204). -/
  poutNew : Table (Word × Word)
  poutQ : Table (Word × Word)
  progId : Nat
  propVer : Nat
  stateVer : Nat
deriving DecidableEq, Repr

/-- The sums of one mean (R225). -/
structure MeanSum where
  sw : Ext
  sq : Ext
  sv : Ext
  n : Nat
deriving DecidableEq, Repr

/-- A run's figures of one open period (R224, R246), kept in retention RAM. -/
structure PerOpen where
  /-- Integer parts of the totals at the previous close of the kind, or with which the period opened; there is a previous
  close. -/
  base : List Nat
  closed : Bool
  good : Nat
  alarm : Nat
  gap : Nat
  /-- P, T, ρ1, h, DP or FREQ, PI. -/
  means : List MeanSum
  flags : Word
  marks : Nat
deriving DecidableEq, Repr

/-- One meter run: carried state, accumulators, copies in retention RAM, output values and open sums. -/
structure RunSt where
  car : Carried
  /-- The six accumulators (R207) and the tick they stand after. -/
  accs : List Acc
  tick : Option Nat
  /-- Live record and shadow checkpoint in retention RAM, as the 112 bytes of R245; empty where none was written (R213,
  R214). -/
  live : List Byte
  shadow : List Byte
  reconciled : Bool
  /-- Commands for FOUT and IOUT of the last completed tick (R198, R200). -/
  fout : Option Nat
  iout : Option Nat
  /-- The recorded current output in µA: the command, or I_MEAS while R88 calls for it. -/
  irec : Option Nat
  /-- Pulses reported as emitted (R367). -/
  emitted : Nat
  /-- Marks of R217 and R218 waiting for the first accumulating tick. -/
  marks : Nat
  /-- The open hour, day and month; last sequence number of each kind. -/
  per : List PerOpen
  seqs : List Nat
deriving DecidableEq, Repr

/-- A hall reload under way (R286). -/
structure Reload where
  hall : Nat
  op : Nat
  /-- Local time of step 0; sections sent; steps 1, 2 and 3 finished. -/
  start : Nat
  tries : Nat
  confirmed : Bool
  flights : Bool
  released : Bool
  /-- The image being activated, not the active one, gives the hall section. -/
  fromNew : Bool
deriving DecidableEq, Repr

/-- Image operations (R276, R277, R286 to R294). -/
structure ImgSt where
  /-- IMG_STAT.PHASE: 0 idle, 1 erasing, 2 writing, 3 verifying, 4 verified, 5 activating, 6 rolling. -/
  phase : Nat
  /-- Journal operation of the open image commit. -/
  op : Nat
  woff : Nat
  reloads : List Reload
  /-- Halls the activation has still to reload; halls whose records wait for the switch boundary. -/
  queue : List Nat
  held : List Nat
  /-- Halls excused at the watchdog by a reload, until a flight cycle has checked in (R384), bit h. -/
  excuse : Nat
  /-- Journal operation of an engine swap whose half is loaded (R290). -/
  swapOp : Option Nat
  /-- Local time of the last release or of step 1 of the swap (R290). -/
  ready : Nat
  /-- Copy chosen at start, its generation, and the states and generations of the four copies. -/
  chip : Nat
  slot : Nat
  gen : Nat
  copies : List Nat
  gens : List Nat
  /-- Local time at which the standby was ordered to restart (R294). -/
  rollAt : Option Nat
  /-- Image bytes of the page being filled, not yet handed to the flash writer, and the offset in the image of the first of them
  (R289). -/
  page : List Byte
  pageAt : Nat
deriving DecidableEq, Repr

/-- One open period kind: first tick, contract time of its end boundary in ns, TIME_STEP (R221 to R226), and for each hall
the first VSTATE in the order of R172 that held in the period. -/
structure PerKind where
  first : Option Nat
  stop : Int
  tstep : Bool
  vst : List Nat
deriving DecidableEq, Repr

/-- The open hour, contract day and month. -/
structure PerSt where
  kinds : List PerKind
deriving DecidableEq, Repr

/-- A closed balance window that waits for its sender's block (R230). -/
structure BalWin where
  first : Nat
  q : Nat
  p : Word
  t : Word
  /-- Dryness, relative humidity or dew point as the run used it last (R231). -/
  aux : Word
  gap : Bool
  tstep : Bool
  /-- Local time at which WAIT ends. -/
  due : Nat
deriving DecidableEq, Repr

/-- One balance entry (R227 to R232). -/
structure BalSt where
  /-- First tick of the open window; none before its first computed tick. -/
  cur : Option Nat
  /-- Good plus alarm integer parts at the start of the open window; none before the first window's end. -/
  start : Option Nat
  alarm : Bool
  gap : Bool
  tstep : Bool
  win : Option BalWin
  /-- Line density of the previous window. -/
  rho : Option Ext
  /-- A sender's block that waits for a tick boundary (R229). -/
  pub : Option (List Word)
deriving DecidableEq, Repr

/-- What an output carries. -/
inductive PinLevel where
  | low
  | high
  | floating
deriving DecidableEq, Repr

/-- Levels of the pins the block drives and of the inputs it keeps (R154, R411, R438). -/
structure PinSt where
  /-- FAULT_N, true high. -/
  faultN : Bool
  syncOut : Bool
  /-- NV_CLK, NV_CS0 and NV_CS1, NV_IO0 to NV_IO3 and TDO between operations; the debug port is held in reset (R411). -/
  nvClk : PinLevel
  nvCs : PinLevel
  nvIo : PinLevel
  tdo : PinLevel
  debugHeld : Bool
  /-- Boundary-scan register: one cell per LVCMOS ball of R411 in the order of that table (R430). -/
  scan : List Bool
deriving DecidableEq, Repr

/-! The whole block. -/

/-- The state of the AV832 and of its attached flash, and the queue of waiting commands. -/
structure State where
  time : TimeSt
  /-- Register words by address; an address not listed holds its reset word (R435). -/
  regs : Table Word
  /-- Snapshot latches by interface: 0 host, 1 ring, 2 debug (R312). -/
  latch : Table (Table Word)
  hp : HpSt
  stg : StgSt
  str : StrSt
  halls : Table HallState
  chans : Table ChanState
  convs : Table ConvState
  sync : SyncSt
  /-- Newest record of each channel in SRAM with INPUT 0 (R17), and the newest of any path (CH_ENG). -/
  newest : Table Rec
  /-- The newest record of each channel written before the instant of the newest one's DMA write (R17). -/
  older : Table Rec
  /-- The mode of a channel before its last committed change, and the ring time of that COMMIT's boundary (R31). -/
  modes : Table OldChan
  /-- Custom curve tables 32 to 47 in effect: breakpoints x, y and slope (R103). -/
  curves : Table (List (Word × Word × Word))
  eng : EngSt
  runs : Table RunSt
  per : PerSt
  bal : Table BalSt
  aud : AudSt
  gal : GalSt
  bb : BbSt
  jnl : JnlSt
  img : ImgSt
  nv : NvSt
  mem : MemSt
  wd : WdSt
  clk : ClkSt
  ml : MlSt
  pair : PairSt
  pins : PinSt
  /-- Frames handed to the transmitters, oldest first (log 8). -/
  tx : List TxFrame
  /-- Counter of free values (log 9). -/
  free : Nat
  /-- Commands waiting, first in first out. -/
  pending : List Instr
deriving DecidableEq, Repr

/-! Reset values. -/

/-- A converter that runs nothing. -/
def convReset : ConvState :=
  { phase := .idle, role := .none, at16 := 0, open16 := 0, step := 0, inj := false, done := 0, backStep := 0,
    backDone := 0, pend := false, twice := false, owed := false, owedCnt := 0, heldTrig := false, autoGain := [],
    lastGain := [], gain := 0, lastOvr := none, ovrStep := false, first := false, recovNext := false, again := false, tcOpen := false,
    cycled := false, cycRes := 0, newFlight := false, trigs := [], fresh := false, cycStart := false, swapWait := false, disc := 0, fifo := [], widx := 0, wrap := 0 }

/-- A channel in mode 0 (R36). -/
def chanReset : ChanState :=
  { mode := 0, newMode := none, cmd := 0, drive := 0, ramp := none, held := 0, gangSafe := false, extSafe := false,
    idleOut := false, queued := false, restoreDue := false, cut := false, latch := .none, attempts := 0, stat := 0, ain := 0, evt := 0,
    ainEvt := 0, stTime := 0, rev := false, ext := .none, mon := List.replicate 8 0, suspend := 0, imeas := 0, wbBand := 0, wbCount := 0,
    wbState := false, level := false, pcnt := 0, plast := none, pper := none, pstep := none, pedge := none, acc := 0, accFirst := 0,
    accLast := 0, deliv := [], delivN := 0, mixFrom := 0, mixed := 0, pulseLeft := 0, pulseW := 0, pulseOn := none, pulseRest := 0, pulsN := 0, pulsM := 0, pulsS := 0, pulsSkip := false, pulsP := 0, pulsMean := 0,
    pulsSettling := false }

/-- The rotation of a hall that was never configured. -/
def rotReset : RotSt :=
  { phase := 0, due := false, count := 0, step := 0, cycles := 0, pairs := 0, sum := 0, seen := false, forced := false, k0 := none, k1 := none,
    failedOnce := false, ladderTwice := false, arbitrate := false, swap := false, back := false, onK1 := false,
    ladder := [], bad := false, anyBad := false, worst := 0, worstDev := 0, ratio := 0, dMean := 0,
    unresolved := false, ladderFail := false, refDis := false, overdue := false, done := false, last := 0, since := 0,
    dueSeen := 0, unret1 := false }

/-- A hall without L+ (log 4). -/
def hallReset : HallState :=
  { up := false, cfg := [], crc := none, next := [], since := false, active := false, hbSeq := none, hbTx := 0, linked := false,
    stat := 0, evt := 0, excStat := 0, excEvt := 0, rotEvt := 0, vlp := 0, vres := 0, tdie := 0, cj := 0, hold := false,
    uvrSag := false, uvrEvt := false, leaveDue := none, win := [0, 0, 0, 0], nextOn := 0, bufAt := none, warming := false, warmEnd := 0, running := false, blank0 := false,
    blank1 := false, stuck0 := false, stuck1 := false, blankAt0 := 0, blankAt1 := 0, ret0 := false, ret1 := false, kept0 := false, kept1 := false, rot := rotReset,
    exc := [0, 0, 0, 0], excNew := none, profile := 0, ecc := false }

/-- The carried state of a run after its reset (R182). -/
def carReset : Carried :=
  { good := [], sel := 0, tPrev := none, freq := 0, deliv := none, discard := false, pacc := 0, backlog := 0,
    piWarn := false, piAlarm := false, inc := none }

/-- Sums that hold nothing. -/
def meanReset : MeanSum := { sw := 0, sq := 0, sv := 0, n := 0 }

/-- A period's figures when it opens with the totals `base`, those of a previous close where `closed`. -/
def perOpenReset (base : List Nat) (closed : Bool) : PerOpen :=
  { base := base, closed := closed, good := 0, alarm := 0, gap := 0, means := List.replicate 6 meanReset, flags := 0, marks := 0 }

/-- A run that was never reconciled. -/
def runReset : RunSt :=
  { car := carReset, accs := List.replicate 6 0, tick := none, live := [], shadow := [], reconciled := false,
    fout := none, iout := none, irec := none, emitted := 0, marks := 0,
    per := List.replicate 3 (perOpenReset [0, 0, 0, 0, 0, 0] false), seqs := [0, 0, 0] }

/-- A balance entry before its first window. -/
def balReset : BalSt :=
  { cur := none, start := none, alarm := false, gap := false, tstep := false, win := none, rho := none, pub := none }

/-- The open hour, day or month before the first boundary. -/
def perKindReset : PerKind := { first := none, stop := 0, tstep := false, vst := List.replicate 8 0 }

/-- A gallery tier with no block open. -/
def galTier0 : GalTier :=
  { plan := [], replan := false, firstTick := none, first := true, timeStep := false, cur := none, ivs := [], sums := [], count := 0 }

/-- A flash ring never written. -/
def ringReset : RingSt := { next := 0, erased := 0, index := [], seq := 0 }

/-- The freeze header before the first freeze. -/
def bbHdrReset : BbHdr :=
  { cause := 0, trap := 0, seq := 0, time := 0, checked := 0, mask := 0, addr := 0, gen := 0, missed := 0, tick := 0 }

/-- A flash chip before its identification (log 6). -/
def chipReset : NvChip := { mem := [], known := false, present := false, failed := false, quad := false, fails := 0, id := 0 }

/-- A tick set that holds nothing. -/
def tickSetReset : TickSet := { tick := 0, recs := [], pulses := [], cjs := [], adj := false, modes := [] }

/-- The engine before the first valid run tick (R280). -/
def engReset : EngSt :=
  { set := tickSetReset, this := none, prev := none, late := none, slot := 8, start := 0, doneTick := 0, running := false, tickTrap := false,
    armed := true, poutNew := [], poutQ := [], progId := 0, propVer := 0, stateVer := 0 }

/-- The Miethlink node after a logic-die reset (chapter 11). -/
def mlReset : MlSt :=
  { ports := [], loop := none, next := none, offered := none, formAt := none, formReq := false, formPorts := 0, stopped := false, isHead := false,
    backup := false, noHead := false, isolated := false, timeLock := false, lockCnt := 0, formResult := 0, formed := false, topo := 0, turned := false,
    loopNs := 0, lbound := 0, train := 0, tofs := 0, cyc := 0, gotCycle := false, appended := false,
    needForm := false, mismatch := false, subValid := 0, outs := [], mb := none, tag := 0, injects := [],
    tset := false, utcValid := false, utcOfs := 0, ppsErr := 0, ppsBig := 0, timeAt := none }

/-- The pair agent after a logic-die reset (chapter 12). -/
def pairReset : PairSt :=
  { active := false, confirmed := false, linkUp := false, partnerReady := false, single := false, linkDown := false,
    actFault := false, cfgDiverge := false, fenced := false, strapConflict := false, idMismatch := false,
    genDiff := false, missed := 0, seqs := [], waiting := false, lagged := 0, joined := false, partnerAt := none, act := false, actAt := 0,
    gap := false, inToggling := false, tickAt := 0, standbyTicks := 0, divAge := none, stateAsked := false,
    stateHere := false, hoStep := none, hoOp := 0, hoSwitch := none, hoHalt := false, hoRoll := false, tkAt := none,
    tko := 0, crcErr := 0, missCnt := 0, divCnt := 0, chgCnt := 0, wcoll := 0, delay := none, delaySum := 0, delayCnt := 0, recAt := [], recNext := [], recBase := [], otherGen := 0, away := false,
    join := false, mirrored := false, idleDue := [] }

/-- The image part after a logic-die reset. -/
def imgReset : ImgSt :=
  { phase := 0, op := 0, woff := 0, reloads := [], queue := [], held := [], excuse := 0, swapOp := none, ready := 0, chip := 0,
    slot := 0, gen := 0, copies := [0, 0, 0, 0], gens := [0, 0, 0, 0], rollAt := none, page := [], pageAt := 0 }

/-- The block at power-on, RESET_N low: every register at its word of R435, every memory unwritten (logs 3 to 7). -/
def State.reset : State :=
  { time := { now := 0, ring := 0, rtc := 0, pairNow := 0, pairRing := 0, boundary := none, adj := false }
    regs := []
    latch := []
    hp := { toggle := false, mode3 := false, changed := false, short := false, reject := false, addrEnd := false,
            driven := false, status := 0, units := [], bytes := [], echo := none }
    stg := { entries := [], phase := .idle, result := 0, refAddr := 0xFFFF, op := 0, tick := none, delivered := false }
    str := { pos := [], reset := [], named := 0, ready := 0, filling := false, posLo := 0 }
    halls := []
    chans := []
    convs := []
    sync := { queue := [], grid := 0, slew := 0, slewAt := 0, count := 0, last := 0, outEnd := none, level := false }
    newest := []
    older := []
    modes := []
    curves := []
    eng := engReset
    runs := []
    per := { kinds := List.replicate 3 perKindReset }
    bal := []
    aud := { queue := [], next := 0, rel := 0, index := [], slots := 0, erased := 0, lost := false, writes := 0, gen := 0 }
    gal := { t1 := galTier0, t2 := galTier0, rings := [], cap := [], writeFail := false }
    bb := { events := [], seq := 0, frozen := false, hdr := bbHdrReset, pend := false, dumping := false, failed := false, dumpSeq := 0,
            dumps := [], samples := [] }
    jnl := { ring := [], slot := 0, copied := 0, next := 1, rst := none }
    img := imgReset
    nv := { c0 := chipReset, c1 := chipReset, mhz := 0, jobs := [] }
    mem := { main := [], mirror := [], ret := [], prog := [], half := 0, bad := [] }
    wd := { period := 1000, mask := 0x4000, checked := 0, start := 0, halted := 0, warn := 0, last := 0, resets := 0 }
    clk := { die := .reset, cause := 0, straps := 0, roleStrap := false, rel := 0, lock := 0, modclk := false,
             xinLost := false, ref10Lost := false, tclkXin := false, rtcStop := false, vbatLow := false,
             vbatDropLatch := false, vbatDrop := false, vddcOff := false, halt := none, haltAt := 0, phase := 0,
             reconciled := false, retLost := false, timeUnset := false, tried := 0, kept := 0, startUs := 0 }
    ml := mlReset
    pair := pairReset
    pins := { faultN := false, syncOut := false, nvClk := .low, nvCs := .floating, nvIo := .floating, tdo := .floating, debugHeld := true, scan := List.replicate 30 false }
    tx := []
    free := 0
    pending := [] }

end Sys2Proof.Machine
end

