-- ==== Sys2Proof/Machine/Ops.lean ====
section
/-! DEFINITION. The operations every meaning is built from: reading and updating parts of the state, time, events and the
black box, audit and journal entries, check-ins, and the answer of a command. -/

namespace Sys2Proof.Machine

/-! Parts of the state. -/

/-- The stored word of a register (R435). -/
def getReg (s : State) (a : Nat) : Word := tget resetWord s.regs a

/-- The state with word `v` in register `a`. -/
def setReg (a : Nat) (v : Word) (s : State) : State := { s with regs := tset resetWord s.regs a v }

/-- The state with register `a` mapped by `f`. -/
def modReg (a : Nat) (f : Word → Word) (s : State) : State := setReg a (f (getReg s a)) s

/-- Hall `h`. -/
def getHall (s : State) (h : Nat) : HallState := tget (fun _ => hallReset) s.halls h

/-- Hall `h` mapped by `f`. -/
def updHall (h : Nat) (f : HallState → HallState) (s : State) : State :=
  { s with halls := tset (fun _ => hallReset) s.halls h (f (getHall s h)) }

/-- Channel `c` of hall `h`. -/
def getChan (s : State) (h c : Nat) : ChanState := tget (fun _ => chanReset) s.chans (4 * h + c)

/-- Channel `c` of hall `h` mapped by `f`. -/
def updChan (h c : Nat) (f : ChanState → ChanState) (s : State) : State :=
  { s with chans := tset (fun _ => chanReset) s.chans (4 * h + c) (f (getChan s h c)) }

/-- Converter `n`. -/
def getConv (s : State) (n : Nat) : ConvState := tget (fun _ => convReset) s.convs n

/-- Converter `n` mapped by `f`. -/
def updConv (n : Nat) (f : ConvState → ConvState) (s : State) : State :=
  { s with convs := tset (fun _ => convReset) s.convs n (f (getConv s n)) }

/-- `f` over the four channels of a hall, in channel order. -/
def forChans (f : Nat → State → State) (s : State) : State := f 3 (f 2 (f 1 (f 0 s)))

/-- `f` over the eight halls, in hall order. -/
def forHalls (f : Nat → State → State) (s : State) : State :=
  f 7 (f 6 (f 5 (f 4 (f 3 (f 2 (f 1 (f 0 s)))))))

/-- `f` over 0 .. n - 1, in order. -/
def forN (n : Nat) (f : Nat → State → State) (s : State) : State :=
  (List.range n).foldl (fun t i => f i t) s

/-- The configuration word a hall holds in its local RAM (R14). -/
def hcfg (s : State) (h a : Nat) : Word := tget (fun _ => 0) (getHall s h).cfg a

/-- A hall's copy of register `a` set to `v`. -/
def setHcfg (h a : Nat) (v : Word) (s : State) : State :=
  updHall h (fun x => { x with cfg := tset (fun _ => 0) x.cfg a v }) s

/-- A fresh free value (log 9). -/
def freeValue (s : State) : Word := Config.freeWord s.free

/-- One free value taken. -/
def takeFree (s : State) : State := { s with free := s.free + 1 }

/-! Runs (R181, R203, R204). -/

/-- RUN_CFG of a run. -/
def runCfgW (s : State) (m : Nat) : Word := getReg s (aRun m 0)
/-- RUN_CFG.EN. -/
def runEn (s : State) (m : Nat) : Bool := bit (runCfgW s m) 31

/-- The channels a run binds: 0 DP0, 1 DP1, 2 DP2, 3 P, 4 T, 5 FLOW, 6 AUX, 7 FOUT, 8 POUT, 9 IOUT. -/
def roleCh (s : State) (m role : Nat) : Option Nat :=
  let w :=
    if role < 4 then bits (getReg s (aRun m 1)) (6 * role + 5) (6 * role)
    else if role < 7 then bits (getReg s (aRun m 2)) (6 * (role - 4) + 5) (6 * (role - 4))
    else bits (getReg s (aRun m 3)) (6 * (role - 7) + 5) (6 * (role - 7))
  if w.testBit 5 then some (w % 32) else none

/-! Time. -/

/-- `d` ns pass: local time and ring time on TCLK, the RTC unless it stopped (R22, R24, R403). -/
def advance (d : Nat) (s : State) : State :=
  { s with time := { s.time with
      now := s.time.now + d
      ring := (s.time.ring + d) % 2 ^ 64
      rtc := if s.clk.rtcStop then s.time.rtc else s.time.rtc + d } }

/-- Local time brought up to `t`, if it is not there yet. -/
def moveTo (t : Nat) (s : State) : State :=
  if s.time.now < t then advance (t - s.time.now) s else s

/-- Ring time of a local instant, in ns. -/
def ringOf (s : State) (t : Nat) : Nat := s.time.ring + t - s.time.now

/-! MODCLK time: MODCLK periods counted in units of 15,625 to a MODCLK/16 tick, 1/16 ns at the nominal frequency (R22,
R150). -/

/-- What the slew has added to MODCLK time by a local instant in 1/16 ns: at most 100 ppm (R150). -/
def slewDone (s : State) (t16 : Nat) : Int :=
  let m := min s.sync.slew.natAbs ((t16 - 16 * s.sync.slewAt) / 10000)
  if s.sync.slew < 0 then -(m : Int) else m

/-- MODCLK time less local time at a local instant in 1/16 ns. -/
def gridOff (s : State) (t16 : Nat) : Int := s.sync.grid + slewDone s t16

/-- MODCLK time of a local instant in 1/16 ns. -/
def modclkTime (s : State) (t16 : Nat) : Nat := ((t16 : Int) + gridOff s t16).toNat

/-- Present MODCLK time. -/
def nowM (s : State) : Nat := modclkTime s (16 * s.time.now)

/-- The local instant of a MODCLK time, in 1/16 ns. -/
def localOfM (s : State) (g : Nat) : Nat :=
  let e : Int := 16 * s.sync.slewAt
  let x : Int := g - s.sync.grid - e
  let n := s.sync.slew
  let d : Int :=
    if x ≤ 0 then x
    else if 0 ≤ n then (if 10001 * n ≤ x then x - n else x * 10000 / 10001)
    else if -9999 * n ≤ x then x - n else x * 10000 / 9999
  (e + d).toNat

/-- The MODCLK sample count of a MODCLK time: 16 periods to a MODCLK/16 tick (R15, R22). -/
def modclkCount (g : Nat) : Nat := g * 16 / 15625

/-- Ring time of a local instant by the pairing latched at the last tick boundary; before the first one by the present
pairing (R15). -/
def pairedRing (s : State) (t : Nat) : Nat :=
  if s.time.boundary.isSome then s.time.pairRing + t - s.time.pairNow else ringOf s t

/-- Ring time of a hall's MODCLK sample count (R15). -/
def stampOf (s : State) (count : Nat) : Nat := pairedRing s (localOfM s (count * 15625 / 16) / 16)

/-- Local time of a ring time, in ns; 0 for a time before power-on. -/
def localOf (s : State) (r : Nat) : Nat := r + s.time.now - s.time.ring

/-- The engine tick of a ring time (R177). -/
def tickOf (r : Nat) : Nat := r / 1000000

/-- The phase error of MODCLK/16 against the grid of ring time in 1/16 ns, -7,812 to 7,812 (R150). -/
def gridErr (s : State) : Int :=
  let d := (16 * (s.time.ring : Int) - 16 * s.time.now - gridOff s (16 * s.time.now)).emod 15625
  if 7812 < d then d - 15625 else d

/-- The phase error lies within ±61.04 ns, a MODCLK period (R150). -/
def gridNear (s : State) : Bool := (gridErr s).natAbs ≤ 976

/-- GRID_LOCK: it holds while MODCLK runs and the phase error is within a period of it (R150). -/
def gridLock (s : State) : Bool := s.clk.modclk && gridNear s

/-- The last MODCLK/16 tick at or before a MODCLK time. -/
def gridDown (g : Nat) : Nat := g - g % 15625

/-- The MODCLK/16 tick nearest to a MODCLK time. -/
def gridNearest (g : Nat) : Nat := if 2 * (g % 15625) < 15625 then gridDown g else gridDown g + 15625

/-- The first MODCLK/16 tick at or after a MODCLK time. -/
def gridUp (g : Nat) : Nat := if g % 15625 = 0 then g else gridDown g + 15625

/-- The first MODCLK/16 tick after a MODCLK time. -/
def gridAfter (g : Nat) : Nat := gridDown g + 15625

/-- One TCLK cycle of 10 ns passes (log 1). -/
def idleTick (s : State) : State := advance 10 s

/-! Fault summary and pins (R436 to R438). -/

/-- A chip that cannot be used. -/
def NvChip.down (c : NvChip) : Bool := c.failed

/-- Both flash chips failed (R285). -/
def nvLost (s : State) : Bool := s.nv.c0.failed && s.nv.c1.failed

/-- Any run has TRAPPED (R202). -/
def anyTrapped (s : State) : Bool := (List.range 8).any fun m => bit (getReg s (rRunStatus m)) 31

/-- No image accepted (R276). -/
def imageNone (s : State) : Bool := s.clk.die == .noImage

/-- DEV_FAULT (R437). -/
def devFault (s : State) : Word :=
  BitVec.ofNat 32 (b2n (imageNone s) + 2 * b2n (nvLost s) + 4 * b2n (anyTrapped s)
    + 8 * b2n (bit (getReg s rEccEvt) 1) + 16 * b2n s.clk.xinLost + 32 * b2n s.pair.strapConflict)

/-- What FAULT_N must carry: high only when PHASE is 1 and DEV_FAULT is 0 (R438). -/
def faultNLevel (s : State) : Bool := s.clk.phase == 1 && devFault s == 0

/-- The logic die runs: its clocks are up and it is not held in reset. -/
def logicUp (s : State) : Bool :=
  match s.clk.die with
  | .locked => true
  | .chosen => true
  | .applied => true
  | .noImage => true
  | _ => false

/-- The logic die is held in reset: by RESET_N, a supply, its temperature or the watchdog (R388, R411, R416, R433). -/
def heldDie (s : State) : Bool :=
  match s.clk.die with
  | .reset => true
  | .wdReset => true
  | .hot => true
  | _ => false

/-- The black-box event ring cut to its 2,048 newest entries (R254, R237). -/
def trimEvents (s : State) : State :=
  if s.bb.events.length ≤ 2048 then s
  else { s with bb := { s.bb with events := s.bb.events.drop (s.bb.events.length - 2048) } }

/-- The pins as the state calls for them (R411, R438); SYNC_OUT and the scan register stand. -/
def pinLevels (s : State) : PinSt :=
  { s.pins with
    faultN := faultNLevel s, nvClk := .low, nvCs := if heldDie s then .floating else .high, nvIo := .floating, tdo := .floating
    debugHeld := heldDie s }

/-- The pins brought to what the state calls for, and the event ring to its size. -/
def settle (s : State) : State := { trimEvents s with pins := pinLevels (trimEvents s) }

/-- The answer of a command: the next state, its pins settled. -/
def done (s : State) : Host.Outcome State Fault Refusal := .next (settle s)

/-- A frame handed to a transmitter. -/
def send (line : Nat) (bs : List Byte) (s : State) : State := { s with tx := s.tx ++ [⟨line, bs, true⟩] }

/-! Black box (R254 to R257). -/

/-- An entry for the event ring with a ring time; counted in BB_MISSED while the black box is frozen (R257). -/
def bbEventAt (time code src data : Nat) (s : State) : State :=
  if s.bb.frozen then modReg rBbMissed (fun w => BitVec.ofNat 32 (satSucc 0xFFFFFFFF w.toNat)) s
  else
    let e : BbEntry := { time := time, seq := s.bb.seq, code := code, src := src, data := data }
    trimEvents { s with bb := { s.bb with events := s.bb.events ++ [e], seq := (s.bb.seq + 1) % 65536 } }

/-- An entry for the event ring with the present ring time. -/
def bbEvent (code src data : Nat) (s : State) : State := bbEventAt s.time.ring code src data s

/-- Bits of an _EVT register set at a ring time; the bits newly set make a black-box entry, window bits of CV_EVT excepted
(R254). -/
def raiseEvtAt (time a : Nat) (m : Word) (s : State) : State :=
  let new := m &&& ~~~ (getReg s a)
  let t := setReg a (getReg s a ||| m) s
  let cs := evtCode a
  let shown := if cs.1 = 6 then new &&& 0xFFFF00FF else new
  if shown = 0 then t else bbEventAt time cs.1 cs.2 shown.toNat t

/-- Bits of an _EVT register set now. -/
def raiseEvt (a : Nat) (m : Word) (s : State) : State := raiseEvtAt s.time.ring a m s

/-- Event bit `i` of the register at `a` set. -/
def raiseBit (a i : Nat) (s : State) : State := raiseEvt a (bitMask i) s

/-- The bitmap of slots checked in and the required mask, the tick and the generation at a freeze (R259). -/
def freezeHdr (s : State) (cause trap addr : Nat) : BbHdr :=
  { cause := cause, trap := trap, seq := s.bb.dumpSeq, time := s.time.ring, checked := s.wd.checked, mask := s.wd.mask,
    addr := addr, gen := (getReg s 0x2D03).toNat, missed := (getReg s rBbMissed).toNat, tick := s.eng.doneTick }

/-- The black box freezes (R257): an entry with code 0x51 is the newest one, then writing stops. A cause that arrives
while it is frozen is counted in BB_MISSED. DESIGN CHOICE (log 79): DATA of entry 0x51, "Tick [31:0]", is the last completed
tick. -/
def freeze (cause trap addr : Nat) (s : State) : State :=
  if s.bb.frozen then modReg rBbMissed (fun w => BitVec.ofNat 32 (satSucc 0xFFFFFFFF w.toNat)) s
  else
    let t := bbEvent 0x51 cause (s.eng.doneTick % 2 ^ 32) (raiseBit rBbEvt 0 s)
    { t with bb := { t.bb with
      frozen := true, pend := true, failed := false, dumping := decide (4 ≤ cause), hdr := freezeHdr t cause trap addr } }

/-- An uncorrectable error found in a memory: its address, ECC_FATAL_EVT, and the freeze with cause 5 (R399). -/
def eccFound (mem hall word : Nat) (s : State) : State :=
  freeze 5 0 word (raiseBit rEccEvt 1 (setReg 0x2924 (BitVec.ofNat 32 (mem * 2 ^ 28 + hall * 2 ^ 24 + word % 2 ^ 17)) s))

/-- A word of a memory outside the halls holds an uncorrectable error. -/
def eccMark (mem word : Nat) (s : State) : State :=
  { s with mem := { s.mem with bad := (s.mem.bad.filter fun e => e ≠ (mem, word)) ++ [(mem, word)] } }

/-- A reader meets the words with uncorrectable errors that `sel` names: each is reported (R399). -/
def eccSeen (sel : Nat × Nat → Bool) (s : State) : State :=
  (s.mem.bad.filter sel).foldl (fun t e => eccFound e.1 0 e.2 t) s

/-- A word of retention RAM that holds part of an item. -/
def inRet (x : RetItem) (e : Nat × Nat) : Bool := e.1 = 1 && Config.retHolds x e.2

/-- An item of retention RAM is not intact (R399). -/
def retBad (s : State) (x : RetItem) : Bool := s.mem.bad.any (inRet x)

/-- An entry did not find room in the queue of a crossing, a row of R400: CDC_LAST, CDC_OVF_EVT with its black-box entry (R401). -/
def crossingFull (row : Nat) (s : State) : State :=
  raiseBit rEccEvt 2 (modReg 0x2930 (fun w => putBits w 31 28 row) s)

/-- The words that `sel` names are written anew, with good check bits. -/
def eccRewritten (sel : Nat × Nat → Bool) (s : State) : State :=
  { s with mem := { s.mem with bad := s.mem.bad.filter fun e => !sel e } }

/-- An item of retention RAM written whole: its words carry good check bits again (R398). -/
def retWritten (x : RetItem) (s : State) : State := eccRewritten (inRet x) s

/-! Audit (R239 to R243). -/

/-- Slots of the audit region in use: records in sectors not yet erased (R243). -/
def audFill (s : State) : Nat := s.aud.slots - 1024 * s.aud.erased

/-- AUD_FULL (R243). -/
def audFull (s : State) : Bool := 261120 ≤ audFill s

/-- AUD_NEAR_FULL (R243). -/
def audNear (s : State) : Bool := 235930 ≤ audFill s

/-- The audit queue has room for `n` records (R237, R241). -/
def audRoom (s : State) (n : Nat) : Bool := s.aud.queue.length + n ≤ 64

/-- A record counted as dropped (R241, R243). -/
def audDrop (s : State) : State := modReg rAudDropped (fun w => BitVec.ofNat 32 (satSucc 0xFFFFFFFF w.toNat)) s

/-- A record placed in the audit queue with the next SEQ, or dropped and counted when the queue is full (R241). -/
def audit (o : Origin) (kind addr width detail old new op : Nat) (s : State) : State :=
  if audRoom s 1 then
    let r : AudRec :=
      { seq := s.aud.next, src := o.src, kind := kind, time := s.time.ring, op := op,
        writer := if o.src = .ring then o.writer % 65536 else 0xFFFF, addr := addr, width := width, detail := detail,
        old := old, new := new }
    retWritten (.audit r.seq)
      { s with aud := { s.aud with queue := s.aud.queue ++ [r], next := (s.aud.next + 1) % 2 ^ 48 } }
  else raiseBit rAudEvt 2 (audDrop s)

/-- The device itself as a source (R239). -/
def selfOrigin : Origin := ⟨.internal, 0xFFFF⟩

/-- A class A or B write counted for R282. -/
def countWrite (s : State) : State := { s with aud := { s.aud with writes := s.aud.writes + 1 } }

/-- A field was clamped or raised by R11: CFG_CLAMP and HP_CLAMP with the word address, 0xFFFF for none. -/
def cfgClamp (a : Nat) (s : State) : State :=
  raiseBit rHpEvt 0 (modReg rHpClamp (fun w => BitVec.ofNat 32 (satSucc 0xFFFF (bits w 31 16) * 65536 + a)) s)

/-! Journal (R260). -/

/-- A free journal entry. -/
def jFree : JEntry := { op := 0, typ := 0, st := 0, steps := 0, time := 0, target := 0, detail := 0 }

/-- Entry of ring slot `i`. -/
def getJ (s : State) (i : Nat) : JEntry := tget (fun _ => jFree) s.jnl.ring i

/-- The number the next operation takes. -/
def jNext (s : State) : Nat := s.jnl.next

/-- Every entry of operation `op` mapped by `f`. -/
def jMod (op : Nat) (f : JEntry → JEntry) (s : State) : State :=
  { s with jnl := { s.jnl with ring := s.jnl.ring.map fun e => if e.2.op = op then (e.1, f e.2) else e } }

/-- Step `i` of operation `op` finished. -/
def jStep (op i : Nat) (s : State) : State :=
  jMod op (fun e => { e with steps := e.steps ||| (1 <<< i) }) s

/-- The open entries of a type, by operation number. -/
def jOpenOf (s : State) (typ : Nat) : List JEntry :=
  (s.jnl.ring.map (·.2)).filter fun e => e.typ = typ && e.st = 1

/-! Watchdog check-ins (R383, R386). -/

/-- Slot `i` checks in: its bit in the bitmap, or one more repeated check-in; a hall's excusal after a reload ends once its
flights run (R384). -/
def checkIn (i : Nat) (s : State) : State :=
  let t := if s.wd.checked.testBit i then modReg rWdCount (fun w => w + 1) s
    else { s with wd := { s.wd with checked := s.wd.checked + 2 ^ i } }
  if t.img.excuse.testBit i && !(t.img.reloads.any fun r => r.hall = i && !r.flights) then
    { t with img := { t.img with excuse := t.img.excuse - 2 ^ i } }
  else t

/-! Roles. -/

/-- The pair is enabled: PAIR_CFG.EN, which the quiet strap sets aside (R278). -/
def pairEn (s : State) : Bool := bit (getReg s rPairCfg) 31 && s.clk.straps ≠ 2

/-- ROLE of the status byte: active, or a single device, once confirmed (R308, R363). -/
def role (s : State) : Bool := s.pair.active && s.pair.confirmed

end Sys2Proof.Machine
end

