-- ==== Sys2Proof/Machine/Flash.lean ====
section
/-! DEFINITION. The attached flash: chips, rings of sectors, writes under way, chip failure and recovery, the audit region
(R236, R241 to R244, R252, R284, R285). -/

namespace Sys2Proof.Machine

/-- Erased flash. -/
def blankByte : Byte := 0xFF

/-- Chip `i`. -/
def nvChip (s : State) (i : Nat) : NvChip := if i = 0 then s.nv.c0 else s.nv.c1

/-- Chip `i` mapped by `f`. -/
def updChip (i : Nat) (f : NvChip → NvChip) (s : State) : State :=
  if i = 0 then { s with nv := { s.nv with c0 := f s.nv.c0 } } else { s with nv := { s.nv with c1 := f s.nv.c1 } }

/-- A chip accepts writes: identified and not failed. -/
def chipOk (c : NvChip) : Bool := c.known && !c.failed

/-- Some chip accepts writes. -/
def nvWritable (s : State) : Bool := chipOk s.nv.c0 || chipOk s.nv.c1

/-- `n` bytes of chip `i` from `a`. -/
def nvRead (s : State) (i a n : Nat) : List Byte := mreads blankByte (nvChip s i).mem a n

/-- Bytes programmed on chip `i`. -/
def nvProgram (i a : Nat) (bs : List Byte) (s : State) : State :=
  updChip i (fun c => { c with mem := mwrites blankByte c.mem a bs }) s

/-- `n` bytes erased on every chip that accepts writes. -/
def nvErase (a n : Nat) (s : State) : State :=
  let f (c : NvChip) : NvChip := if chipOk c then { c with mem := merase c.mem a n } else c
  { s with nv := { s.nv with c0 := f s.nv.c0, c1 := f s.nv.c1 } }

/-- Bytes programmed on every chip that accepts writes. -/
def nvWrite (a : Nat) (bs : List Byte) (s : State) : State :=
  let f (c : NvChip) : NvChip := if chipOk c then { c with mem := mwrites blankByte c.mem a bs } else c
  { s with nv := { s.nv with c0 := f s.nv.c0, c1 := f s.nv.c1 } }

/-! The region directory and the journal's flash copy (R236, R260): log 54. -/

/-- Oldest and newest sector of a ring from the running offsets of its oldest record and of its end, in bytes. -/
def sectorEnds (oldest next : Nat) : Nat × Nat := (oldest / 65536, (next - 1) / 65536)

/-- The positions that the directory holds: the five gallery rings, audit, dumps, journal. -/
def ringEnds (s : State) : List (Nat × Nat) :=
  ((List.range 5).map fun r =>
    let x := tget (fun _ => ringReset) s.gal.rings r
    sectorEnds ((x.index.head?.map (·.1)).getD x.next) x.next)
    ++ [sectorEnds (65536 * s.aud.erased) (64 * s.aud.slots),
      ((s.bb.dumps.head?.map (·.2)).getD 0, (s.bb.dumps.getLast?.map (·.2)).getD 0),
      sectorEnds (32 * s.jnl.copied - 131072) (32 * s.jnl.copied)]

/-- The directory rewritten, after an erase (R236). -/
def dirWrite (s : State) : State := nvWrite 0x00230000 (Config.dirBytes (ringEnds s)) (nvErase 0x00230000 65536 s)

/-- A sector of a ring erased, and the directory rewritten (R236). -/
def sectorErase (a : Nat) (s : State) : State := dirWrite (nvErase a 65536 s)

/-- A journal entry's 28 bytes and its CRC (R260). -/
def jBytes (e : JEntry) : List Byte :=
  let b := leBytes 4 e.op ++ leBytes 1 e.typ ++ leBytes 1 e.st ++ leBytes 2 e.steps ++ leBytes 8 e.time
    ++ leBytes 4 e.target ++ leBytes 8 e.detail
  b ++ leBytes 4 (crc32c b).toNat

/-- An entry copied to the flash journal, three sectors in turn (R260). -/
def jCopy (e : JEntry) (s : State) : State :=
  if !nvWritable s then s
  else
    let a := 0x00200000 + 32 * s.jnl.copied % 196608
    let t := if 32 * s.jnl.copied % 65536 = 0 then sectorErase a s else s
    { nvWrite a (jBytes e) t with jnl := { s.jnl with copied := s.jnl.copied + 1 } }

/-- The slot the next entry takes: the first one from the ring's position whose entry is not open. -/
def jSlot (s : State) : Nat :=
  (s.jnl.slot + ((List.range 16).find? fun i => (getJ s ((s.jnl.slot + i) % 16)).st ≠ 1).getD 0) % 16

/-- A journal entry opened (R260), and copied to flash; its number is `jNext` before. -/
def jOpen (typ target detail : Nat) (s : State) : State :=
  let e : JEntry :=
    { op := s.jnl.next, typ := typ, st := 1, steps := 0, time := s.time.ring, target := target, detail := detail }
  jCopy e { (retWritten (.journal (jSlot s)) s) with jnl := { s.jnl with
    ring := tset (fun _ => jFree) s.jnl.ring (jSlot s) e
    slot := (jSlot s + 1) % 16
    next := if s.jnl.next = 0xFFFFFFFF then 1 else s.jnl.next + 1 } }

/-- The entry of an operation. -/
def jEntry (s : State) (op : Nat) : Option JEntry := (s.jnl.ring.find? fun e => e.2.op = op).map (·.2)

/-- Operation `op` closed with a STATE: 2 completed, 3 rolled back, 4 and 5 the same at a restart; its entry is copied to
flash. -/
def jClose (op st : Nat) (s : State) : State :=
  let t := jMod op (fun e => { e with st := st }) s
  match jEntry t op with
  | some e => jCopy e t
  | none => t

/-! Rings (R236, R252). -/

/-- Base and size of gallery ring `r`: 0 tier 1, 1 tier 2 averages, 2 checkpoints, 3 hours, 4 days and months. -/
def ringGeo (r : Nat) : Nat × Nat :=
  match r with
  | 0 => (0x01340000, 0x1400000)
  | 1 => (0x02740000, 0xE00000)
  | 2 => (0x03540000, 0xC0000)
  | 3 => (0x03600000, 0x200000)
  | _ => (0x03800000, 0x800000)

/-- Gallery ring `r`. -/
def getRing (s : State) (r : Nat) : RingSt := tget (fun _ => ringReset) s.gal.rings r

/-- Gallery ring `r` mapped by `f`. -/
def updRing (r : Nat) (f : RingSt → RingSt) (s : State) : State :=
  { s with gal := { s.gal with rings := tset (fun _ => ringReset) s.gal.rings r (f (getRing s r)) } }

/-- Chip address of a running offset of ring `r`. -/
def ringAddr (r off : Nat) : Nat := (ringGeo r).1 + off % (ringGeo r).2

/-- A record of `len` bytes, 16-byte aligned, takes the next place of ring `r`; one that would pass the region's end starts
at its base. Sectors entered are erased first, with the records they held (R236). -/
def ringPlace (s : State) (r len : Nat) : Nat :=
  let n := (getRing s r).next
  let sz := (ringGeo r).2
  if n % sz + len > sz then n + (sz - n % sz) else n

/-- The ring with a record placed: index, erasure of the sectors it enters. -/
def ringPut (r id len : Nat) (s : State) : State :=
  let x := getRing s r
  let off := ringPlace s r len
  let stop := off + (len + 15) / 16 * 16
  let s0 := (x.next + 65535) / 65536
  let s1 := (stop + 65535) / 65536
  let keep := s1 - (ringGeo r).2 / 65536
  let old := x.index.filter fun e => e.1 / 65536 < keep
  let t := (List.range (s1 - s0)).foldl (fun u i => nvErase (ringAddr r ((s0 + i) * 65536)) 65536 u) s
  let t := updRing r (fun y => { y with
    next := stop
    erased := y.erased + old.length
    index := (y.index.filter fun e => keep ≤ e.1 / 65536) ++ [(off, (id, len))] }) t
  if s0 < s1 then dirWrite t else t

/-- The bytes of a ring's record at a running offset on chip `i`. -/
def ringBytes (s : State) (i r off len : Nat) : List Byte := nvRead s i (ringAddr r off) len

/-! Writes under way. -/

/-- A fresh write of `bs` at `addr`, for the chips `u0` and `u1` that accept writes. -/
def newJob (k : JobKind) (addr : Nat) (bs : List Byte) (tries : Nat) (u0 u1 : Bool) (s : State) : FlashJob :=
  let a := u0 && chipOk s.nv.c0
  let b := u1 && chipOk s.nv.c1
  { kind := k, off := addr, bytes := bs, use0 := a, use1 := b, r0 := if a then none else some false
    r1 := if b then none else some false, tries := tries }

/-- A write joins the flash writer's work. -/
def addJob (j : FlashJob) (s : State) : State := { s with nv := { s.nv with jobs := s.nv.jobs ++ [j] } }

/-- A write handed to the flash writer for both chips (R236). -/
def pushJob (k : JobKind) (addr : Nat) (bs : List Byte) (s : State) : State :=
  addJob (newJob k addr bs 1 true true s) s

/-- A chip fails (R285): its flag, NV_SINGLE and CHIP_FAIL_EVT, or NV_LOST_EVT when it was the last. -/
def failChip (i : Nat) (s : State) : State :=
  let t := raiseBit rNvEvt 0 (updChip i (fun c => { c with failed := true }) s)
  let t := { t with nv := { t.nv with jobs := t.nv.jobs.map fun j =>
    if i = 0 then { j with r0 := some (j.r0.getD false) } else { j with r1 := some (j.r1.getD false) } } }
  if nvLost t then raiseBit rNvEvt 2 t else t

/-- The result of one program or erase operation on chip `i`: the second failure in a row fails it (R285). -/
def chipResult (i : Nat) (ok : Bool) (s : State) : State :=
  let n := if ok then 0 else (nvChip s i).fails + 1
  let t := updChip i (fun c => { c with fails := n }) s
  if 2 ≤ n && chipOk (nvChip s i) then failChip i t else t

/-! The audit region (R239, R241 to R244). -/

/-- Chip address of an audit slot. -/
def audAddr (slot : Nat) : Nat := 0x00240000 + 64 * (slot % 262144)

/-- An audit record's 64 bytes (R239). -/
def audBytes (r : AudRec) : List Byte :=
  let b := leBytes 6 r.seq ++ leBytes 1 r.src.code ++ leBytes 1 r.kind ++ leBytes 8 r.time ++ leBytes 4 r.op
    ++ leBytes 2 r.writer ++ leBytes 2 r.addr ++ leBytes 1 r.width ++ leBytes 1 r.detail ++ leBytes 2 0
    ++ leBytes 16 r.old ++ leBytes 16 r.new
  b ++ leBytes 4 (crc32c b).toNat

/-- The record that an audit record's bytes hold, when its CRC passes. -/
def audOf (bs : List Byte) : Option AudRec :=
  if bs.length = 64 && leAt bs 60 4 = (crc32c (bs.take 60)).toNat then
    some { seq := leAt bs 0 6
           src := (match leAt bs 6 1 with | 0 => .host | 1 => .ring | 2 => .debug | 3 => .pair | _ => .internal)
           kind := leAt bs 7 1, time := leAt bs 8 8, op := leAt bs 16 4, writer := leAt bs 20 2, addr := leAt bs 22 2
           width := leAt bs 24 1, detail := leAt bs 25 1, old := leAt bs 28 16, new := leAt bs 44 16 }
  else none

/-- The region has no room for a record (R243, R457). -/
def audExhausted (s : State) : Bool := 262144 ≤ audFill s

/-- A staged transaction whose records have all left the queue finishes step 2; with its commit checkpoints written too it
is completed (R261). -/
def jCommitProgress (s : State) : State :=
  (jOpenOf s 5).foldl (fun t e =>
    if !e.steps.testBit 1 then t
    else
      let t := if t.aud.queue.any fun r => r.op = e.op then t else jStep e.op 2 t
      let held := t.gal.cap.any fun c => match c with | .commitCkpt op _ _ => op == e.op | _ => false
      let t := if held then t else jStep e.op 3 t
      if (jOpenOf t 5).any (fun x => x.op = e.op && x.steps.testBit 2 && x.steps.testBit 3) then jClose e.op 2 t else t) s

/-- The oldest queued record is lost with an uncorrectable word: DESIGN CHOICE (log 82), it is dropped and counted, since R399 names
the area's own rule and R239 to R243 have none for it. -/
def audUnread (r : AudRec) (rest : List AudRec) (s : State) : State :=
  let t := retWritten (.audit r.seq) (eccSeen (inRet (.audit r.seq)) s)
  raiseBit rAudEvt 2 (audDrop { t with aud := { t.aud with queue := rest } })

/-- AUDIT_RECORD_FLASH_WRITE (R241, R243): the oldest queued record goes to both chips; it is stored once one reads it back.
A region without room drops it. -/
def execAuditRecordFlashWrite (ok0 ok1 : Bool) (s : State) : Host.Outcome State Fault Refusal :=
  match s.aud.queue with
  | [] => done s
  | r :: rest =>
    if !logicUp s || !nvWritable s then done s
    else if retBad s (.audit r.seq) then done (jCommitProgress (checkIn 12 (audUnread r rest s)))
    else if audExhausted s then
      let t := audDrop { s with aud := { s.aud with queue := rest, lost := true } }
      done (jCommitProgress (checkIn 12 (raiseBit rAudEvt 2 t)))
    else
      let a := audAddr s.aud.slots
      let w0 := chipOk s.nv.c0
      let w1 := chipOk s.nv.c1
      let t := if w0 then chipResult 0 ok0 (if ok0 then nvProgram 0 a (audBytes r) s else s) else s
      let t := if w1 then chipResult 1 ok1 (if ok1 then nvProgram 1 a (audBytes r) t else t) else t
      if (w0 && ok0) || (w1 && ok1) then
        let near := audNear t
        let full := audFull t
        let t := { t with aud := { t.aud with
          queue := rest
          index := tput t.aud.index r.seq t.aud.slots
          slots := t.aud.slots + 1 } }
        let t := if !near && audNear t then raiseBit rAudEvt 0 t else t
        let t := if !full && audFull t then raiseBit rAudEvt 1 t else t
        done (jCommitProgress (checkIn 12 t))
      else done (checkIn 12 t)

/-- The released number that an acknowledgement of `n` gives: clamped to the newest stored SEQ (R244). -/
def audAck (s : State) (n : Nat) : Nat := min n ((s.aud.index.getLast?.map (·.1)).getD s.aud.rel)

/-- The release of audit records up to `n` (R244): clamped to the newest stored, no effect at or below the present one. An
exhausted reserve drops its record, with AUD_LOST (R457). -/
def audRelease (o : Origin) (n : Nat) (s : State) : State :=
  let r := audAck s n
  let s := if r < n then cfgClamp 0x2608 s else s
  if r ≤ s.aud.rel then s
  else
    let full := audExhausted s
    let t := if full then raiseBit rAudEvt 2 (audDrop s) else audit o 7 0xFFFF 2 0 s.aud.rel r 0 s
    raiseBit rAudEvt 3 { t with aud := { t.aud with rel := r, lost := full } }

/-- The newest SEQ of the oldest sector, when the sector is full. -/
def oldestSectorTop (s : State) : Option Nat :=
  let lo := 1024 * s.aud.erased
  if lo + 1024 ≤ s.aud.slots then
    ((s.aud.index.filter fun e => lo ≤ e.2 && e.2 < lo + 1024).map (·.1)).foldl (fun a b => some (max b (a.getD 0))) none
  else none

/-- AUDIT_SECTOR_ERASED (R244): the oldest sector, whose newest record is released, is erased; the flash writer checks in
(R383). -/
def execAuditSectorErased (s : State) : Host.Outcome State Fault Refusal :=
  match oldestSectorTop s with
  | none => done s
  | some top =>
    if logicUp s && nvWritable s && top ≤ s.aud.rel then
      let lo := 1024 * s.aud.erased
      let t := nvErase (audAddr lo) 65536 s
      done (dirWrite (checkIn 12 { t with aud := { t.aud with
        erased := t.aud.erased + 1
        index := t.aud.index.filter fun e => lo + 1024 ≤ e.2 } }))
    else done s

end Sys2Proof.Machine
end

