-- ==== Sys2Proof/Machine/Totals.lean ====
section
/-! DEFINITION. The six totals of a run: quantisation, addition, records, checkpoints and reconciliation (R206 to R220). -/

namespace Sys2Proof.Machine

/-- Run `m`. -/
def getRun (s : State) (m : Nat) : RunSt := tget (fun _ => runReset) s.runs m

/-- Run `m` mapped by `f`. -/
def updRun (m : Nat) (f : RunSt → RunSt) (s : State) : State :=
  { s with runs := tset (fun _ => runReset) s.runs m (f (getRun s m)) }

/-! Quantisation (R208, R209). -/

/-- q of an increment, and whether it was limited. -/
def quant (x : Ext) : Nat × Bool :=
  match fpRoundInt (fpMul (xval x) (.fin false 1 32)) with
  | some i => if i.toNat < 2 ^ 64 then (i.toNat, false) else (2 ^ 64 - 1, true)
  | none => (2 ^ 64 - 1, true)

/-- An accumulator advanced by q (R208, R210). -/
def accAdd (a : Acc) (q : Nat) : Acc := a + BitVec.ofNat 128 q

/-- The integer part of an accumulator (R207). -/
def accInt (a : Acc) : Nat := a.toNat / 2 ^ 32

/-- The six accumulators after a tick's quantised increments go to the good or the alarm set (R206, R211). -/
def accsAdd (accs : List Acc) (q : Nat × Nat × Nat) (alarm : Bool) : List Acc :=
  let o := b2n alarm
  (List.range 6).map fun t =>
    let a := accs.getD t 0
    if t = o then accAdd a q.1 else if t = 2 + o then accAdd a q.2.1 else if t = 4 + o then accAdd a q.2.2 else a

/-- Quantised increments of a tick and whether any was limited. -/
def quants (inc : Ext × Ext × Ext) : (Nat × Nat × Nat) × Bool :=
  let a := quant inc.1
  let b := quant inc.2.1
  let c := quant inc.2.2
  ((a.1, b.1, c.1), a.2 || b.2 || c.2)

/-- Marks of R246 put on the open periods of a run. -/
def markRun (m mark : Nat) (s : State) : State :=
  updRun m (fun r => { r with per := r.per.map fun p => { p with marks := p.marks ||| mark } }) s

/-! Records (R214, R245). -/

/-- The 112 bytes of a totals record. -/
def totBytes (m kind : Nat) (c : TotCopy) : List Byte :=
  let b := leBytes 1 m ++ leBytes 1 kind ++ leBytes 2 0 ++ leBytes 8 c.tick
    ++ ((List.range 6).map fun t => leBytes 16 (c.accs.getD t 0).toNat).flatten
  b ++ leBytes 4 (crc32c b).toNat

/-- Its 128-byte slot. -/
def totSlot (m kind : Nat) (c : TotCopy) : List Byte := padTo 128 blankByte (totBytes m kind c)

/-- Six accumulators in a record's bytes. -/
def accsAt (bs : List Byte) (off : Nat) : List Acc :=
  (List.range 6).map fun t => BitVec.ofNat 128 (leAt bs (off + 16 * t) 16)

/-- The totals record that bytes hold for run `m`, when intact and of the kind. -/
def totOf (m kind : Nat) (bs : List Byte) : Option TotCopy :=
  if leAt bs 108 4 = (crc32c (bs.take 108)).toNat && leAt bs 0 1 = m && leAt bs 1 1 = kind then
    some { tick := leAt bs 4 8, accs := accsAt bs 12 }
  else none

/-! The two records in retention RAM (R213, R237, R399). -/

/-- The live record of run `m`, when intact. -/
def liveOf (s : State) (m : Nat) : Option TotCopy :=
  if retBad s (.live m) then none else totOf m 2 (getRun s m).live

/-- The shadow checkpoint of run `m`, when intact. -/
def shadowOf (s : State) (m : Nat) : Option TotCopy :=
  if retBad s (.shadow m) then none else totOf m 3 (getRun s m).shadow

/-- The live record of run `m` written. -/
def liveWrite (m : Nat) (c : TotCopy) (s : State) : State :=
  retWritten (.live m) (updRun m (fun r => { r with live := totBytes m 2 c }) s)

/-- The shadow checkpoint of run `m` written with the totals of its last completed tick (R213). -/
def shadowWrite (m : Nat) (s : State) : State :=
  match (getRun s m).tick with
  | some k =>
    retWritten (.shadow m) (updRun m (fun r => { r with shadow := totBytes m 3 { tick := k, accs := r.accs } }) s)
  | none => s

/-- The totalizer's step of run `m` in a tick (R211): the accumulators and the live record, the marks of a reconciliation on
the open periods (R217), INC_LIMIT when a quantised increment was limited. -/
def totalize (m tick : Nat) (q : (Nat × Nat × Nat) × Bool) (alarm : Bool) (s : State) : State :=
  let accs := accsAdd (getRun s m).accs q.1 (alarm || q.2)
  let t := liveWrite m { tick := tick, accs := accs } (updRun m (fun r =>
    { r with accs := accs, tick := some tick
             per := r.per.map (fun p => { p with marks := p.marks ||| r.marks }), marks := 0 }) s)
  if q.2 then raiseBit (rTotEvt m) 5 (markRun m 16 t) else t

/-! Flash copies (R214). -/

/-- A flash record read from chip 0, or from chip 1 where chip 0's copy is not intact (R214). -/
def nvFirst {α : Type} (s : State) (r off len : Nat) (f : List Byte → Option α) : Option α :=
  match (if chipOk s.nv.c0 then f (ringBytes s 0 r off len) else none) with
  | some x => some x
  | none => if chipOk s.nv.c1 then f (ringBytes s 1 r off len) else none

/-- The flash checkpoints of a run, newest first. -/
def flashCkpts (s : State) (m : Nat) : List TotCopy :=
  (getRing s 2).index.reverse.filterMap fun e => nvFirst s 2 e.1 128 (totOf m 0)

/-- The newest flash checkpoint of a run at a tick. -/
def flashAt (s : State) (m tick : Nat) : Option TotCopy := (flashCkpts s m).find? fun c => c.tick = tick

/-- The totals of an intact period record of run `m`. -/
def periodTotals (m : Nat) (bs : List Byte) : Option TotCopy :=
  if leAt bs 0 2 = 0xA6A3 && leAt bs 252 4 = (crc32c (bs.take 252)).toNat && leAt bs 2 1 = m then
    some { tick := leAt bs 16 8, accs := accsAt bs 24 }
  else none

/-- The newest totals in the period records of a run. -/
def flashPeriod (s : State) (m : Nat) : Option TotCopy :=
  let rs (r : Nat) := (getRing s r).index.filterMap fun e => nvFirst s r e.1 256 (periodTotals m)
  (rs 3 ++ rs 4).foldl (fun a c => match a with
    | none => some c
    | some b => if b.tick < c.tick then some c else some b) none

/-! Checkpoints (R213, R219, R242). -/

/-- A flash checkpoint of run `m` begun: a slot of the checkpoint ring, journaled as a gallery flush unless it belongs to a
COMMIT. -/
def ckptBegin (m : Nat) (c : TotCopy) (commit : Bool) (op : Nat) (s : State) : State :=
  let n := if commit then op else jNext s
  let t := if commit then s else jOpen 6 2 c.tick s
  let off := ringPlace t 2 128
  let t := ringPut 2 c.tick 128 t
  pushJob (.ckpt m c.tick commit n) (ringAddr 2 off) (totSlot m (b2n commit) c) t

/-- The captured checkpoints of a COMMIT handed to the flash writer (R242, R261). -/
def ckptsBegin (op : Nat) (recs : List (List Byte)) (s : State) : State :=
  recs.foldl (fun u bs => match totOf (leAt bs 0 1) 1 bs with
    | some k => ckptBegin (leAt bs 0 1) k true op u
    | none => u) s

/-! Reconciliation (R215 to R217). -/

/-- The copies that may vote: audit code (2 shadow, 3 flash, 4 partner) and content. -/
def copiesAt (s : State) (m : Nat) (partner : Option TotCopy) (k : Nat) : List (Nat × TotCopy) :=
  let f (c : Nat) (x : Option TotCopy) : List (Nat × TotCopy) := match x with
    | some y => if y.tick = k then [(c, y)] else []
    | none => []
  f 2 (shadowOf s m) ++ f 3 (flashAt s m k) ++ f 4 partner

/-- The checkpoint tick k of R216. -/
def voteTick (s : State) (m : Nat) (partner : Option TotCopy) : Option Nat :=
  let ticks := ((shadowOf s m).toList ++ partner.toList).map (·.tick)
  let two := ticks.filter fun k => 2 ≤ (copiesAt s m partner k).length
  let any := ticks ++ ((flashCkpts s m).map (·.tick))
  let top (l : List Nat) : Option Nat := l.foldl (fun a b => some (max b (a.getD 0))) none
  match top two with
  | some k => some k
  | none => top any

/-- One accumulator's vote: value, and 0 agreed, 1 two of three, 2 median, 3 one side of two. -/
def vote (c : List (Nat × TotCopy)) (t : Nat) : Acc × Nat :=
  let v (i : Nat) : Acc := match (c.drop i).head? with
    | some x => x.2.accs.getD t 0
    | none => 0
  match c.length with
  | 3 =>
    if v 0 = v 1 then (v 0, if v 1 = v 2 then 0 else 1)
    else if v 0 = v 2 then (v 0, 1)
    else if v 1 = v 2 then (v 1, 1)
    else
      let a := (v 0).toNat
      let b := (v 1).toNat
      let d := (v 2).toNat
      (BitVec.ofNat 128 (max (min a b) (min (max a b) d)), 2)
  | 2 =>
    if v 0 = v 1 then (v 0, 0)
    else ((match c.find? (fun x => x.1 = 3) with
      | some x => x.2.accs.getD t 0
      | none => v 0), 3)
  | _ => (v 0, 0)

/-- TOT_STAT.OUTCOME of a vote. -/
def voteOutcome (n : Nat) (kinds : List Nat) : Nat :=
  if n = 1 then 5
  else if kinds.all (· = 0) then 1
  else if kinds.any (· = 3) then 4
  else if kinds.any (· = 2) then 3
  else 2

/-- Audit records of the copies that differ from the winner (R216). -/
def voteAudit (m : Nat) (c : List (Nat × TotCopy)) (w : List Acc) (s : State) : State :=
  (List.range 6).foldl (fun u t => c.foldl (fun u x =>
    let a := x.2.accs.getD t 0
    if a = w.getD t 0 then u
    else audit selfOrigin 3 (aTot m (2 + 3 * t)) 4 x.1 a.toNat (w.getD t 0).toNat 0 u) u) s

/-- The resumption of a run's totals: values, tick, outcome, marks and events. -/
def resume (m : Nat) (accs : List Acc) (tick : Option Nat) (outcome marks : Nat) (s : State) : State :=
  let t := updRun m (fun r => { r with accs := accs, tick := tick, reconciled := true, marks := r.marks ||| marks }) s
  let t := match tick with
    | some k => liveWrite m { tick := k, accs := accs } t
    | none => retWritten (.live m) (updRun m (fun r => { r with live := [] }) t)
  let t := setReg (aTot m 0x1A) (BitVec.ofNat 32 outcome) t
  raiseEvt (rTotEvt m) (BitVec.ofNat 32 marks) t

/-- The answer this device gives as a partner for run `m`: its flash checkpoint, else its shadow (R215). -/
def ownAnswer (s : State) (m : Nat) : Option TotCopy :=
  match (flashCkpts s m).head? with
  | some c => some c
  | none => shadowOf s m

/-- Both records of run `m` in retention RAM are read; uncorrectable words are reported (R399). -/
def totalsRead (m : Nat) (s : State) : State := eccSeen (fun e => inRet (.live m) e || inRet (.shadow m) e) s

/-- Reconciliation of one run (R216, R217); TOTALS_INIT_EVT wherever the winner is zero. -/
def reconcileRun (m : Nat) (partner : Option TotCopy) (s : State) : State :=
  let s := totalsRead m s
  match voteTick s m partner with
  | some k =>
    let c := copiesAt s m partner k
    let votes := (List.range 6).map (vote c)
    let w := votes.map (·.1)
    let kinds := votes.map (·.2)
    let marks := b2n (kinds.any fun x => 2 ≤ x) + (if w.all (· == 0) then 4 else 0)
    let o := voteOutcome c.length kinds
    let t := voteAudit m c w s
    let shadowOk := c.any fun x => x.1 = 2 && x.2.accs == w
    match liveOf s m with
    | some l => if k ≤ l.tick && shadowOk then resume m l.accs (some l.tick) o marks t
                else resume m w (some k) o (marks + 2) t
    | none => resume m w (some k) o (marks + 2) t
  | none =>
    match flashPeriod s m with
    | some p => resume m p.accs (some p.tick) 6 (2 + (if p.accs.all (· == 0) then 4 else 0)) s
    | none => resume m (List.replicate 6 0) none 7 4 s

/-- A run takes the active device's accumulators (R218): events, marks and one audit record per differing accumulator,
unless `quiet`. -/
def adopt (m : Nat) (c : TotCopy) (quiet : Bool) (s : State) : State :=
  let own := (getRun s m).accs
  let take := fun u => liveWrite m c (updRun m (fun r => { r with accs := c.accs, tick := some c.tick }) u)
  if own == c.accs then take s
  else
    let t := if quiet then s else (List.range 6).foldl (fun u i =>
      let a := own.getD i 0
      let b := c.accs.getD i 0
      if a = b then u else audit selfOrigin 4 (aTot m (2 + 3 * i)) 4 5 a.toNat b.toNat 0 u) s
    let t := take t
    if quiet then t
    else raiseBit (rTotEvt m) 3 (markRun m 9 (modReg (aTot m 0x1A) (fun w => putBits w 3 0 8) t))

end Sys2Proof.Machine
end

