-- ==== Sys2Proof/Machine/Balance.lean ====
section
/-! DEFINITION. Balance pairs: windows, sender blocks, evaluation (R227 to R232), and where a subscription keeps a point
(R347). -/

namespace Sys2Proof.Machine

/-! Subscriptions (R347). -/

/-- ML_SUB_e: enabled, points, first global point. -/
def subEntry (s : State) (e : Nat) : Bool × Nat × Nat :=
  let w := getReg s (0x2A80 + e)
  (bit w 31, bits w 30 23 + 1, bits w 22 0)

/-- The first slot of subscription entry `e`: the points of the enabled entries before it. -/
def subBase (s : State) (e : Nat) : Nat :=
  (List.range e).foldl (fun a i => if (subEntry s i).1 then a + (subEntry s i).2.1 else a) 0

/-- The enabled entry that holds global point `g`. -/
def subEntryOf (s : State) (g : Nat) : Option Nat :=
  (List.range 64).find? fun e =>
    let x := subEntry s e
    x.1 && decide (x.2.2 ≤ g) && decide (g < x.2.2 + x.2.1)

/-- The slot of a subscribed global point. -/
def subSlot (s : State) (g : Nat) : Option Nat := (subEntryOf s g).map fun e => subBase s e + (g - (subEntry s e).2.2)

/-- The value held for a subscribed point. -/
def subValue (s : State) (g : Nat) : Word :=
  match subSlot s g with
  | some i => if i < 1024 then getReg s (0x4000 + i) else 0
  | none => 0

/-! Entries. -/

/-- Entry `b`. -/
def getBal (s : State) (b : Nat) : BalSt := tget (fun _ => balReset) s.bal b

/-- Entry `b` mapped by `f`. -/
def updBal (b : Nat) (f : BalSt → BalSt) (s : State) : State :=
  { s with bal := tset (fun _ => balReset) s.bal b (f (getBal s b)) }

/-- BAL_CFG. -/
def balCfgW (s : State) (b : Nat) : Word := getReg s (aBal b 0)
/-- ROLE. -/
def balRole (s : State) (b : Nat) : Nat := bits (balCfgW s b) 31 30
/-- RUN. -/
def balRun (s : State) (b : Nat) : Nat := bits (balCfgW s b) 29 27
/-- QTY. -/
def balQty (s : State) (b : Nat) : Nat := bits (balCfgW s b) 26 25
/-- W in s. -/
def balW (s : State) (b : Nat) : Nat := bits (balCfgW s b) 23 12
/-- N. -/
def balN (s : State) (b : Nat) : Nat := bits (balCfgW s b) 3 0

/-- Good plus alarm integer parts of the entry's quantity (R228). -/
def balSum (s : State) (b : Nat) : Nat :=
  let accs := (getRun s (balRun s b)).accs
  accInt (accs.getD (2 * balQty s b) 0) + accInt (accs.getD (2 * balQty s b + 1) 0)

/-- A window opens with the present totals; it carries GAP (R228). -/
def balOpen (b : Nat) (s : State) : State :=
  updBal b (fun _ => { balReset with start := some (balSum s b), gap := true }) s

/-- Every configured entry opens its first window. -/
def balOpenAll (s : State) : State := forN 64 (fun b t => if balRole t b = 0 then t else balOpen b t) s

/-- Ticks not computed put GAP on every open window. -/
def balGap (s : State) : State :=
  forN 64 (fun b t => if balRole t b = 0 then t else updBal b (fun x => { x with gap := true }) t) s

/-! The sender (R229). -/

/-- A sender's eight words. -/
def balBlock (first q : Nat) (p t : Word) (w qty : Nat) (alarm gap tstep : Bool) : List Word :=
  let l := [BitVec.ofNat 32 first, BitVec.ofNat 32 (first / 2 ^ 32), BitVec.ofNat 32 q, BitVec.ofNat 32 (q / 2 ^ 32), p, t,
    BitVec.ofNat 32 (w * 65536 + b2n tstep * 32 + b2n gap * 16 + b2n alarm * 8 + qty)]
  l ++ [crc32c ((l.map fun x => leBytes 4 x.toNat).flatten)]

/-! The receiver (R230 to R232). -/

/-- An incomplete window: flag and event; the line pack of the next one is not available. -/
def balIncomplete (b : Nat) (s : State) : State :=
  let t := updBal b (fun x => { x with win := none, rho := none }) s
  raiseBit (rBalEvt b) 2 (modReg (aBal b 5) (fun w => putBit w 3 true) t)

/-- What the last block says of quantity and W: MISMATCH, with its event where they differ (R230, R234). -/
def balMismatch (b : Nat) (differ : Bool) (s : State) : State :=
  let t := modReg (aBal b 5) (fun w => putBit w 2 differ) s
  if differ then raiseBit (rBalEvt b) 3 t else t

/-- RUN_PAR `i` of a run, extended. -/
def xpar (s : State) (m i : Nat) : Ext := xof32 (getReg s (aRun m (0x10 + i)))

/-- The line density by the receiver run's own fluid routine at mean pressure and temperature: dryness or humidity fixed, or
from AUX as the run used it in the window's last tick (R192, R193, R231). -/
def lineDensity (s : State) (m : Nat) (p t : Ext) (aux : Word) : Ext :=
  let use := bits (runCfgW s m) 19 18
  let a (i : Nat) : Ext := if use = 0 then xpar s m i else xof32 aux
  (fluidProps s.eng.propVer (bits (runCfgW s m) 27 26) p t true (a 12) (a 13) (if use = 2 then some (xof32 aux) else none)).rho

/-- The line-pack term, and whether it is not available. -/
def linePack (s : State) (b : Nat) (w : BalWin) (ps ts : Word) : Ext × Option Ext × Bool :=
  if !bit (balCfgW s b) 24 then (0, none, false)
  else
    let half (x y : Word) : Ext := xdiv (xadd (xof32 x) (xof32 y)) (xint 2)
    let m := balRun s b
    let r := lineDensity s m (half ps w.p) (half ts w.t) w.aux
    match (getBal s b).rho with
    | none => (0, some r, true)
    | some r0 =>
      let d := xmul (xmul (xof32 (getReg s (aBal b 4))) (xsub r r0)) (xint 1000000)
      let d := if balQty s b = 1
        then xdiv d (rhoBase s.eng.propVer (bits (runCfgW s m) 27 26) (xpar s m 9) (xpar s m 10)) else d
      (d, some r, false)

/-- The imbalance lies outside the band (R232). -/
def outOfBand (s : State) (b : Nat) (i : Ext) (qs qr : Nat) : Bool :=
  xlt (xadd (xmul (xof32 (getReg s (aBal b 2))) (xint 1000000))
    (xmul (xmul (xint (bits (getReg s (aBal b 3)) 15 0)) (xrat 1 100000)) (xint (max qs qr)))) (xabs i)

/-- A window evaluated: counters, alarm, imbalance. -/
def balEvaluate (b : Nat) (w : BalWin) (qs : Nat) (ps ts : Word) (s : State) : State :=
  let lp := linePack s b w ps ts
  let i := xsub (xsub (xint qs) (xint w.q)) lp.1
  let out := outOfBand s b i qs w.q
  let st := getReg s (aBal b 5)
  let oc := if out then satSucc 255 (bits st 31 24) else 0
  let ic := if out then 0 else satSucc 255 (bits st 23 16)
  let al := bit st 4
  let set := !al && out && oc ≥ balN s b
  let clr := al && !out && ic ≥ balN s b
  let al2 := set || (al && !clr)
  let t := updBal b (fun x => { x with win := none, rho := lp.2.1 }) s
  let t := setReg (aBal b 5)
    (BitVec.ofNat 32 (oc * 2 ^ 24 + ic * 2 ^ 16 + b2n al2 * 16 + b2n lp.2.2 * 2 + b2n out)) t
  let t := setReg (aBal b 7) (x32 (xmul i (xrat 1 1000000))) t
  let t := if set then raiseBit (rBalEvt b) 0 t else t
  if clr then raiseBit (rBalEvt b) 1 t else t

/-- The receiver looks at its subscribed block (R230): one of another quantity or W makes the waiting window incomplete, and of the
others the first that names its first tick decides it. -/
def balTry (b : Nat) (s : State) : State :=
  match (getBal s b).win with
  | none => s
  | some w =>
    let g := bits (getReg s (aBal b 1)) 22 0
    let v (i : Nat) : Word := subValue s (g + i)
    let l := (List.range 7).map v
    let first := (v 0).toNat + 2 ^ 32 * (v 1).toNat
    let q := (v 2).toNat + 2 ^ 32 * (v 3).toNat
    let differ := decide (bits (v 6) 1 0 ≠ balQty s b) || decide (bits (v 6) 31 16 ≠ balW s b)
    if v 7 ≠ crc32c ((l.map fun x => leBytes 4 x.toNat).flatten) || (first ≠ w.first && !differ) then s
    else
      let t := balMismatch b differ s
      if differ || w.gap || w.tstep || bit (v 6) 4 || bit (v 6) 5 then balIncomplete b t
      else balEvaluate b w q (v 4) (v 5) t

/-- Every waiting receiver looks at its block. -/
def balTryAll (s : State) : State := forN 64 balTry s

/-- The window of entry `b` closes after tick `n` (R228). -/
def balClose (b n : Nat) (s : State) : State :=
  let x := getBal s b
  let m := balRun s b
  let sum := balSum s b
  let q := (sum + 2 ^ 96 - x.start.getD sum % 2 ^ 96) % 2 ^ 64
  let first := n + 1 - 1000 * balW s b
  let p := getReg s (aRun m 0x4D)
  let t := getReg s (aRun m 0x4E)
  let gap := x.gap || x.start.isNone
  let next : BalSt := { x with cur := some (n + 1), start := some sum, alarm := false, gap := false, tstep := false }
  if balRole s b = 1 then
    updBal b (fun _ => { next with pub := some (balBlock first q p t (balW s b) (balQty s b) x.alarm gap x.tstep) }) s
  else
    let u := if x.win.isSome then balIncomplete b s else s
    let win : BalWin :=
      { first := first, q := q, p := p, t := t, aux := getReg s (aRun m 0x58), gap := gap, tstep := x.tstep
        due := s.time.now + bits (balCfgW s b) 11 4 * 100000000 }
    balTry b (updBal b (fun y => { next with win := some win, rho := y.rho }) u)

/-- Entry `b` before tick `n` is computed (R228): where ticks were not computed, or ring time was stepped, the window left
open closes with the totals as they stand, and so does the last one that no tick fell in; both carry GAP. -/
def balReach (b n : Nat) (s : State) : State :=
  let w := 1000 * balW s b
  if balRole s b = 0 || w = 0 then s
  else
    let a := n / w * w
    match (getBal s b).cur with
    | none => updBal b (fun x => { x with cur := some a }) s
    | some c =>
      if c = a then s
      else
        let close (k : Nat) (t : State) : State := balClose b (k + w - 1) (updBal b (fun x => { x with gap := true }) t)
        let t := close c s
        let t := if c + w < a then close (a - w) t else t
        updBal b (fun x => { x with cur := some a, gap := x.gap || decide (a < n) }) t

/-- A tick of run `m` enters the windows of its entries. -/
def balTick (m n : Nat) (alarm adj : Bool) (s : State) : State :=
  forN 64 (fun b t =>
    if balRole t b = 0 || balRun t b ≠ m then t
    else
      let u := updBal b (fun x => { x with alarm := x.alarm || alarm, tstep := x.tstep || adj }) t
      if 0 < balW u b && (n + 1) % (1000 * balW u b) = 0 then balClose b n u else u) s

/-- BALANCE_WAIT_EXPIRY (R230): the block that came last is looked at; with none the window is incomplete. -/
def execBalanceWaitExpiry (b : Fin 64) (s : State) : Host.Outcome State Fault Refusal :=
  match (getBal s b).win with
  | none => done s
  | some w =>
    let t := balTry b (moveTo w.due s)
    done (if (getBal t b).win.isSome then balIncomplete b t else t)

/-- Sender blocks reach their points, all eight at one tick boundary (R229). -/
def balPublish (s : State) : State :=
  forN 64 (fun b t => match (getBal t b).pub with
    | none => t
    | some l => updBal b (fun x => { x with pub := none })
        (forN 8 (fun i u => setReg (0x4000 + 7680 + 8 * b + i) (l.getD i 0) u) t)) s

end Sys2Proof.Machine
end

