-- ==== Sys2Proof/Machine/Flags.lean ====
section
/-! DEFINITION. The flags of a hall and of its channels, with the event bits that keep their rises. -/

namespace Sys2Proof.Machine

/-! Flags and events of a hall (R12, R71, R104). -/

/-- HALL_STATUS bit `i` of a hall; an event is kept when it rises and has an _EVT form. -/
def hallFlag (h i : Nat) (b : Bool) (s : State) : State :=
  updHall h (fun x => { x with
    stat := putBit x.stat i b
    evt := if b && !bit x.stat i && (i = 1 || i = 2 || i = 3 || i = 7 || i = 8 || i = 9)
      then x.evt ||| bitMask i else x.evt }) s

/-- A HALL_EVT bit kept for reporting. -/
def hallEvent (h i : Nat) (s : State) : State := updHall h (fun x => { x with evt := x.evt ||| bitMask i }) s

/-- HALL_EXC_STAT bit `i`; the _EVT form of bits 3 to 6 on a rise. -/
def excFlag (h i : Nat) (b : Bool) (s : State) : State :=
  updHall h (fun x => { x with
    excStat := putBit x.excStat i b
    excEvt := if b && !bit x.excStat i && 3 ≤ i then x.excEvt ||| bitMask i else x.excEvt }) s

/-- A flag of CH_STATUS with its _EVT form on a rise (R71). -/
def chFlag (h c i : Nat) (b : Bool) (s : State) : State :=
  updChan h c (fun x => { x with
    stat := putBit x.stat i b
    evt := if b && !bit x.stat i then x.evt ||| bitMask i else x.evt }) s

/-- CH_STATUS.STATE with STATE_EVT on each reported change, timestamped (R38). -/
def chStateAt (time h c : Nat) (b : Bool) (s : State) : State :=
  updChan h c (fun x => { x with
    stat := putBit x.stat 0 b
    stTime := if b != bit x.stat 0 then time else x.stTime
    evt := if b != bit x.stat 0 then x.evt ||| 1 else x.evt }) s

/-- STATE reported now. -/
def chState (h c : Nat) (b : Bool) (s : State) : State := chStateAt s.time.ring h c b s

/-- A flag of CH_AIN_STAT with its _EVT form on a rise (R100, R104). -/
def ainFlag (h c i : Nat) (b : Bool) (s : State) : State :=
  updChan h c (fun x => { x with
    ain := putBit x.ain i b
    ainEvt := if b && !bit x.ain i then x.ainEvt ||| bitMask i else x.ainEvt }) s

/-- CH_AIN_STAT.NE43_CLASS. -/
def setClass (h c k : Nat) (s : State) : State := updChan h c (fun x => { x with ain := putBits x.ain 2 0 k }) s

end Sys2Proof.Machine
end

