-- ==== Sys2Proof/Machine/Hall.lean ====
section
/-! DEFINITION. What the commands of a hall share: its configuration fields, the report to the logic die,
and the state of an output by the order of R55. -/

namespace Sys2Proof.Machine

/-! Configuration the hall holds. -/

/-- HALL_CFG of a hall, as it holds it. -/
def hallCfgW (s : State) (h : Nat) : Word := hcfg s h (aHall h 0x01)
/-- CH_CFG of a channel. -/
def chCfgW (s : State) (h c : Nat) : Word := hcfg s h (aCh h c 0x10)
/-- CH_SAFE of a channel. -/
def chSafeW (s : State) (h c : Nat) : Word := hcfg s h (aCh h c 0x18)
/-- CH_SENS of a channel. -/
def chSensW (s : State) (h c : Nat) : Word := hcfg s h (aCh h c 0x50)
/-- HALL_CFG.RETRY_COUNT. -/
def retryCount (s : State) (h : Nat) : Nat := bits (hallCfgW s h) 7 4
/-- CH_CFG.GANG. -/
def gangOf (s : State) (h c : Nat) : Nat := bits (chCfgW s h c) 13 12
/-- Mode in effect of a channel. -/
def modeOf (s : State) (h c : Nat) : Nat := (getChan s h c).mode

/-- Output modes (R30). -/
def isOutMode (m : Nat) : Bool := m == 13 || m == 14 || m == 15 || m == 16

/-- The members of channel c's gang in channel order; c alone outside mode 14 (R47). -/
def gangMembers (s : State) (h c : Nat) : List Nat :=
  if modeOf s h c = 14 then
    (List.range 4).filter fun d => modeOf s h d = 14 && gangOf s h d = gangOf s h c
  else [c]

/-- The lead of channel c's gang: the lowest-numbered member (R47). -/
def leadOf (s : State) (h c : Nat) : Nat := (gangMembers s h c).headD c

/-- The largest command of a mode (R71): 1 on, 24,000 µA, 10,000,000 mHz; a mode that is no output has none. -/
def cmdMax (mode : Nat) : Nat :=
  match mode with
  | 13 => 1
  | 14 => 1
  | 15 => 24000
  | 16 => 10000000
  | _ => 0xFFFFFF

/-- CH_SAFE.PRESET as a command of the mode, limited to the mode's maximum (R53, R71). -/
def presetOf (mode : Nat) (w : Word) : Nat :=
  if mode = 15 ∨ mode = 16 then min (bits w 31 8) (cmdMax mode) else bits w 8 8

/-! The report to the logic die (R25, R32). -/

/-- STATE_EVT of a channel arrives with the ring time of its change (R38), ahead of its other events. -/
def reportState (h c : Nat) (s : State) : State :=
  let x := getChan s h c
  if bit x.evt 0 then raiseEvtAt x.stTime (aCh h c 0x24) (bitMask 0) s else s

/-- Channel c's status, its kept events and its pulse and monitor words. -/
def reportChan (h c : Nat) (s : State) : State :=
  let x := getChan s h c
  let t := setReg (aCh h c 0x20) x.stat s
  let t := setReg (aCh h c 0x58) x.ain t
  let t := setReg (aCh h c 0x60) x.imeas t
  let t := setReg (aHall h (0x28 + 4 * c)) (BitVec.ofNat 32 x.pcnt) t
  let t := setReg (aHall h (0x29 + 4 * c)) (BitVec.ofNat 32 (x.plast.getD 0)) t
  let t := setReg (aHall h (0x2A + 4 * c)) (BitVec.ofNat 32 (x.plast.getD 0 / 2 ^ 32)) t
  let t := setReg (aHall h (0x2B + 4 * c)) (BitVec.ofNat 32 (min (x.pper.getD 0xFFFFFFFF) 0xFFFFFFFF)) t
  let t := setReg (aRot h (0x18 + 2 * c)) x.pulsP t
  let t := setReg (aRot h (0x19 + 2 * c)) x.pulsMean t
  let t := raiseEvt (aCh h c 0x24) x.evt (reportState h c t)
  let t := raiseEvt (aCh h c 0x5C) x.ainEvt t
  updChan h c (fun y => { y with evt := 0, ainEvt := 0 }) t

/-- PULS_STAT of a hall (R175): the paths that are on. -/
def pulsStat (s : State) (h : Nat) : Word :=
  BitVec.ofNat 32 ((List.range 4).foldl (fun a c =>
    if bit (hcfg s h (aRot h (0x10 + c))) 31 then
      a + b2n (getChan s h c).pulsSettling * 2 ^ c + b2n (getChan s h c).pulsSkip * 2 ^ (4 + c) else a) 0)

/-- Rotation is enabled for the hall (ROT_CFG.ROT_EN). -/
def rotEn (s : State) (h : Nat) : Bool := bit (hcfg s h (aRot h 0)) 31

/-- The verification state by the order of R172. -/
def vstate (s : State) (h : Nat) : Nat :=
  let x := getHall s h
  if x.rot.unresolved then 4
  else if x.ret0 || x.ret1 then 3
  else if x.rot.refDis then 2
  else if x.rot.overdue then 5
  else if !rotEn s h || !x.rot.done then 0
  else 1

/-- The place of a VSTATE in the order of R172. -/
def vstateRank (v : Nat) : Nat := [5, 6, 3, 2, 1, 4].getD v 6

/-- A hall's state as the logic die sees it joins the open periods (R172): each keeps the first in order that held. -/
def noteVstate (h : Nat) (s : State) : State :=
  let v := vstate s h
  { s with per := { s.per with kinds := s.per.kinds.map fun k =>
      if (vstateRank v < vstateRank (k.vst.getD h 1)) then { k with vst := k.vst.set h v } else k } }

/-- HALL_REF_STAT (R144): ms since the buffer was enabled, WARMING, BUF_ON. -/
def refStat (s : State) (h : Nat) : Word :=
  match (getHall s h).bufAt with
  | none => 0
  | some t => BitVec.ofNat 32 (min ((s.time.now - t) / 1000000) 65535 * 65536
      + 2 * b2n (getHall s h).warming + 1)

/-- Blanking is asserted as the hall acts on it: a selected input, not ignored (R124, R126). -/
def blankOn (s : State) (h : Nat) : Bool :=
  let x := getHall s h
  let sel := bits (hcfg s h (aHall h 0x42)) 1 0
  (x.blank0 && !x.stuck0 && (sel = 1 || sel = 3)) || (x.blank1 && !x.stuck1 && (sel = 2 || sel = 3))

/-- What a hall keeps reaches the logic die's registers while status frames arrive (R25, R32); events are raised as they
arrive, once. -/
def report (h : Nat) (s : State) : State :=
  if logicUp s && (getHall s h).linked && (getHall s h).up then
    let x := getHall s h
    let t := setReg (aHall h 0x03) (x.stat ||| (getReg s (aHall h 0x03) &&& 1)) s
    let t := setReg (aHall h 0x07) (putBits 0 15 0 (ofInt x.tdie).toNat) t
    let t := setReg (aHall h 0x6D) (putBits x.excStat 1 0 x.profile) t
    let stuck := x.stuck0 || x.stuck1
    let t := setReg (aHall h 0x43) (BitVec.ofNat 32 (b2n (blankOn s h && !stuck) + 2 * b2n stuck)) t
    let t := setReg (aRot h 0x15) (pulsStat s h) t
    let t := forN 4 (fun w u => setReg (aConv (2 * h) (0x3B + 4 * w)) (x.win.getD w 0) u) t
    let t := raiseEvt (rHallEvt h) x.evt t
    let t := raiseEvt (rExcEvt h) x.excEvt t
    let t := raiseEvt (rRotEvt h) x.rotEvt t
    let t := updHall h (fun y => { y with evt := 0, excEvt := 0, rotEvt := 0 }) t
    forChans (reportChan h) (noteVstate h t)
  else s

/-- A shared channel is in its standby form: on a standby, and while the hall has applied its safe states for want of a
heartbeat (R373). -/
def idleForm (s : State) (h c : Nat) : Bool :=
  (hcfg s h 0x2C01).getLsbD (4 * h + c) && (bit (getHall s h).stat 5 || (pairEn s && !s.pair.active))

/-! The state of an output (R53 to R58). -/

/-- Value of a ramp at a local time: linear between its ends (log 11). -/
def rampValue (r : Ramp) (t : Nat) : Nat :=
  if t < r.start then r.from_
  else if r.start + r.len ≤ t then r.dest
  else if r.from_ ≤ r.dest then r.from_ + (r.dest - r.from_) * (t - r.start) / r.len
  else r.from_ - (r.from_ - r.dest) * (t - r.start) / r.len

/-- The value driven now, inside a ramp or not. -/
def driveNow (s : State) (h c : Nat) : Nat :=
  match (getChan s h c).ramp with
  | some r => rampValue r s.time.now
  | none => (getChan s h c).drive

/-- The safe state of an output as a command value (R53); a gang's is its lead's (R47). -/
def safeValue (s : State) (h c : Nat) : Nat :=
  let l := leadOf s h c
  let w := chSafeW s h l
  match bits w 2 0 with
  | 1 => (getChan s h l).held
  | 2 => presetOf (modeOf s h c) w
  | 3 => 3600
  | 4 => 21000
  | _ => 0

/-- A safe-state cause acts on an output (R54, R399). -/
def safeCause (s : State) (h c : Nat) : Bool :=
  let l := getChan s h (leadOf s h c)
  bit (getHall s h).stat 5 || bit (getHall s h).stat 6 || (getHall s h).ecc || l.gangSafe || l.extSafe || l.latch == .safe

/-- The place in the list of R55 that decides an output: 1 to 5. -/
def outRank (s : State) (h c : Nat) : Nat :=
  let x := getHall s h
  let l := getChan s h (leadOf s h c)
  if !x.up || modeOf s h c = 0 then 1
  else if bit x.stat 3 || bit x.stat 8 then 2
  else if (getChan s h c).cut || l.cut || l.latch == .off || l.idleOut then 3
  else if safeCause s h c then 4
  else 5

/-- The value an output takes by its rank. -/
def outTarget (s : State) (h c : Nat) : Nat :=
  match outRank s h c with
  | 4 => safeValue s h c
  | 5 => (getChan s h (leadOf s h c)).cmd
  | _ => 0

/-- Drive an output: its value and IN_SAFE; a command that decides is the one a later HOLD keeps (R53); EXT_DRIVE for voltage while off ends when the stage is on (R49). A pulse in
progress that the new state stops is cut short (R199). -/
def setDrive (h c v : Nat) (s : State) : State :=
  let x := getChan s h c
  let t := updChan h c (fun y => { y with
    drive := v, ramp := none, pulseOn := if outRank s h c = 5 then y.pulseOn else none
    held := if outRank s h c = 5 then y.cmd else y.held }) s
  let t := chFlag h c 8 (outRank s h c = 4 || x.ext == .opened) t
  if modeOf s h c ≠ 15 && v ≠ 0 && !x.rev then chFlag h c 5 false t else t

/-- A shared pulse output whose pulses the partner is to emit: on a standby, and on the active from step 2 of a handover
(R373, R376). -/
def pulseStopped (s : State) (h c : Nat) : Bool :=
  pairEn s && (hcfg s h 0x2C01).getLsbD (4 * h + c) && (!s.pair.active || s.pair.hoStep = some 2 || s.pair.hoStep = some 3)

/-- A pulse output whose command decides, outside a reload's hold, starts its next pulse when one is owed (R199, R287). -/
def pulseGo (h c : Nat) (s : State) : State :=
  let x := getChan s h c
  if x.mode = 16 ∧ !pulseStopped s h c ∧ 0 < x.pulseLeft ∧ x.pulseOn = none ∧ outRank s h c = 5 ∧ !(getHall s h).hold then
    updChan h c (fun y => { y with pulseOn := some (max s.time.now y.pulseRest) }) s
  else s

/-- A current output of the hall still ramps to 0 mA at SAG3; the switched outputs wait for it (R62). -/
def sagRamping (s : State) (h : Nat) : Bool :=
  (List.range 4).any fun c => match (getChan s h c).ramp with
    | some r => r.rank == 2
    | none => false

/-- An output brought to the state its causes call for (R55). A running ramp is kept while its cause still decides (R87);
an output waiting for its place in the switch-on order, or held by a reload, keeps its drive (R58, R287). -/
def resolve (h c : Nat) (s : State) : State :=
  let x := getChan s h c
  let r := outRank s h c
  if !isOutMode x.mode then s
  else
    match x.ramp with
    | some p =>
      if p.rank = r then s
      else if r = 5 && (getHall s h).hold then s
      else setDrive h c (outTarget s h c) s
    | none =>
      if r = 2 && x.mode ≠ 15 && sagRamping s h && !bit (getHall s h).stat 8 then s
      else if r = 5 && ((getHall s h).hold || (getChan s h (leadOf s h c)).queued) then
        chFlag h c 8 (x.ext == .opened) s
      else pulseGo h c (setDrive h c (outTarget s h c) s)

/-- Every output of a hall brought to the state its causes call for. -/
def resolveAll (h : Nat) (s : State) : State := forChans (resolve h) s

/-- An output's ramp started toward `v` over 200 µs (R58, R62). -/
def startRamp (h c v rank : Nat) (s : State) : State :=
  let f := driveNow s h c
  let t := updChan h c (fun x => { x with
    ramp := some { from_ := f, dest := v, start := s.time.now, len := 200000, rank := rank }, drive := f
    held := if rank = 5 then v else x.held }) s
  chFlag h c 8 false t

/-- The latch of LATCH_OFF (R56): off after a cause that switched the output off, also over an output latched in its safe
state; the safe state after one that put it there, unless it is latched already. -/
def latchAs (l old : Latch) : Latch := if l == .off || old == .none then l else old

/-- An output's policy when a cause that held it clears (R56): LATCH_OFF keeps the state `l` and latches; RESTORE ramps a
current output, queues a digital output that is commanded on, and otherwise applies the command (R58), at the release while
a reload holds the output (R287). With `l` none the policy is RESTORE for every output (R421). -/
def leaveSafe (l : Latch) (h c : Nat) (s : State) : State :=
  let x := getChan s h c
  if !isOutMode x.mode || leadOf s h c ≠ c then s
  else if l != .none && bit (chSafeW s h c) 3 then
    resolve h c (chFlag h c 7 true (updChan h c (fun y => { y with latch := latchAs l y.latch }) s))
  else if outRank s h c = 5 then
    if (getHall s h).hold then resolve h c (updChan h c (fun y => { y with restoreDue := true }) s)
    else if x.mode = 15 then startRamp h c x.cmd 5 s
    else if x.cmd ≠ 0 && x.drive = 0 then updChan h c (fun y => { y with queued := true }) s
    else resolve h c s
  else resolve h c s

/-- Every output of a hall leaves its state by its policy; the first digital output may switch on 200 µs from now (R58). -/
def leaveAll (l : Latch) (h : Nat) (s : State) : State :=
  let t := updHall h (fun x => { x with nextOn := s.time.now + 200000 }) s
  let t := forChans (fun c => updChan h c (fun x => { x with restoreDue := false })) t
  forChans (resolve h) (forChans (leaveSafe l h) t)

/-- COMPL_RISK of a mode 15 output and LOOP_RISK of a mode 5 input follow SAG2 in the channel's present mode (R61). -/
def riskOf (h c : Nat) (s : State) : State :=
  let sag := bit (getHall s h).stat 2
  chFlag h c 13 (sag && modeOf s h c = 5) (chFlag h c 12 (sag && modeOf s h c = 15) s)

/-- The largest command of a channel: of its mode, or, while it passes through mode 0, of the mode it is to take (R31, R57,
R71). -/
def cmdLimit (s : State) (h c : Nat) : Nat :=
  let x := getChan s h c
  cmdMax (if x.mode ≠ 0 then x.mode else match x.newMode with
    | some n => n.1
    | none => bits (getReg s (aCh h c 0x10)) 4 0)

/-- A command received and stored (R57); applied at once where the command decides (R55, R87), with the suspension of
R85 when it changes the output by more than 0.5 mA. -/
def applyCommand (h c v : Nat) (s : State) : State :=
  let x := getChan s h c
  let t := updChan h c (fun y => { y with
    cmd := v
    held := if safeCause s h c then y.held else v }) s
  let t := if x.mode = 15 ∧ (500 < v - x.cmd ∨ 500 < x.cmd - v)
    then updChan h c (fun y => { y with suspend := s.time.now + 200000 }) t else t
  (gangMembers s h c).foldl (fun u d => resolve h d u) t

end Sys2Proof.Machine
end

