-- ==== Sys2Proof/Machine/HallLink.lean ====
section
/-! DEFINITION. Heartbeat, status frames and the under-voltage reset of a hall (R32 to R36, R421). -/

namespace Sys2Proof.Machine

/-- A converter stops: a window in progress is discarded and counted (R35, R137). -/
def convStop (n : Nat) (s : State) : State :=
  updConv n (fun x => { convReset with
    disc := if x.phase == .window || x.phase == .blanked then (x.disc + 1) % 65536 else x.disc
    autoGain := x.autoGain, lastGain := x.lastGain, lastOvr := x.lastOvr, cycled := x.cycled
    fifo := x.fifo, widx := x.widx, wrap := x.wrap }) s

/-- A running rotation is abandoned with ROT_SKIP_EVT; the flight goes back to K0 unless K0 is retired (R168). -/
def rotAbandon (h : Nat) (s : State) : State :=
  updHall h (fun x => { x with
    rotEvt := if x.rot.phase = 0 then x.rotEvt else x.rotEvt ||| bitMask 5
    rot := { x.rot with phase := 0, cycles := 0, pairs := 0, sum := 0, k0 := none, k1 := none, failedOnce := false,
                        ladderTwice := false, arbitrate := false, swap := false, back := false, ladder := [],
                        bad := false, seen := false, forced := false, onK1 := x.ret0 } }) s

/-- The pulsation path of a channel reset (R158). -/
def pulsReset (h c : Nat) (s : State) : State :=
  updChan h c (fun x => { x with pulsN := 0, pulsM := 0, pulsS := 0, pulsSkip := false, pulsSettling := true }) s

/-- The flights of a hall stop; no cycle or sequence is left for which committed words would wait (R116). -/
def stopHall (h : Nat) (s : State) : State :=
  updHall h (fun x => { x with
      running := false, next := []
      cfg := x.next.foldl (fun t e => tset (fun _ => 0) t e.1 e.2) x.cfg }) (convStop (2 * h + 1) (convStop (2 * h) s))

/-- HALL_CTRL.FORCE_SAFE as the logic die holds it (R54). -/
def forceOn (s : State) (h : Nat) : Bool := bit (getReg s (aHall h 0x05)) 0

/-- One heartbeat frame for hall `h`: sequence number and section CRC in effect (R32, log 8). -/
def sendHeartbeat (h : Nat) (s : State) : State :=
  let x := getHall s h
  updHall h (fun y => { y with hbTx := (y.hbTx + 1) % 65536 })
    (send (4 + h) (leBytes 2 x.hbTx ++ leBytes 4 (x.crc.getD 0)) s)

/-- An active member of an enabled pair sends hall heartbeats only within 10 µs of its last heartbeat tick (R362). -/
def heartbeatAllowed (s : State) : Bool :=
  logicUp s && (!(pairEn s && s.pair.active) || s.time.now - s.pair.tickAt ≤ 10000)

/-- HALL_HEARTBEAT_SEND (R32): a round of heartbeats to every hall; slot 13 checks in (R383). -/
def execHallHeartbeatSend (s : State) : Host.Outcome State Fault Refusal :=
  done (if heartbeatAllowed s then checkIn 13 (forHalls sendHeartbeat s) else s)

/-- STATE of the switched outputs is their readback: FRC above L+/2 (R71). -/
def readbackState (h : Nat) (frc : BitVec 4) (s : State) : State :=
  forChans (fun c t =>
    if modeOf t h c = 13 ∨ modeOf t h c = 14 ∨ modeOf t h c = 16 then chState h c (frc.getLsbD c) t else t) s

/-- STATUS_FRAME (R32): the logic die sees the hall; HALL_DOWN clears; status, events and measurements arrive. -/
def execStatusFrame (h : Hall) (m : HallMeas) (s : State) : Host.Outcome State Fault Refusal :=
  if (getHall s h).up && logicUp s && !m.fits then done (crossingFull 1 s)
  else if (getHall s h).up && logicUp s then
    let t := updHall h (fun x => { x with linked := true, vlp := m.vlp, vres := m.vres, cj := m.cj }) s
    let t := modReg (aHall h 0x03) (fun w => putBit w 0 false) t
    let t := setReg (aHall h 0x02) (BitVec.ofNat 32 (min m.vres 65535 * 65536 + min m.vlp 65535)) t
    let t := setReg (aHall h 0x6F) m.cj t
    done (report h (readbackState h m.frc t))
  else done s

/-- A hall's own state after an under-voltage reset (R36, R111): local RAM and every channel cleared; the logic die's
bookkeeping stays, and with it its copy of the retirement, which the hall takes again (R170). DESIGN CHOICE (log 38): of the rotation, ROT_COUNT and
UNRESOLVED, which goes with the retirement, survive; REF_DISAGREE, LADDER_FAIL, ROT_LAST and the last deviations go. -/
def hallCleared (x : HallState) : HallState :=
  { hallReset with since := x.since, hbTx := x.hbTx, linked := x.linked, rotEvt := x.rotEvt, ret0 := x.kept0,
                   ret1 := x.kept1, kept0 := x.kept0, kept1 := x.kept1, blank0 := x.blank0, blank1 := x.blank1
                   rot := { rotReset with count := x.rot.count, onK1 := x.kept0, unresolved := x.rot.unresolved } }

/-- The whole hall falls back to under-voltage reset. DESIGN CHOICE (log 33): the running edge count and the sampled level
of a pulse input survive it; the spec names no value for them. -/
def hallReset1 (h : Nat) (s : State) : State :=
  let t := rotAbandon h (stopHall h s)
  let t := updConv (2 * h) (fun x => { x with autoGain := [], lastGain := [], lastOvr := none }) t
  let t := updConv (2 * h + 1) (fun x => { x with autoGain := [], lastGain := [], lastOvr := none }) t
  forChans (fun c => updChan h c (fun x => { chanReset with pcnt := x.pcnt, level := x.level })) (updHall h hallCleared t)

/-- HALL_UVR_EXIT (R421): the hall holds its channels in mode 0 with SAG3 set and no event, and announces itself. -/
def execHallUvrExit (h : Hall) (s : State) : Host.Outcome State Fault Refusal :=
  if (getHall s h).up then done s
  else done (updHall h (fun x => { x with up := true, stat := bitMask 3, uvrSag := true, uvrEvt := false }) s)

end Sys2Proof.Machine
end

