-- ==== Sys2Proof/Machine/Supply.lean ====
section
/-! DEFINITION. Field supply sag, recovery and die temperature of a hall (R59 to R70). -/

namespace Sys2Proof.Machine

/-- A change of a powered hall, reported to the logic die. -/
def hallDo (h : Nat) (f : State → State) (s : State) : Host.Outcome State Fault Refusal :=
  if (getHall s h).up then done (report h (f s)) else done s

/-- SAG1 (R60): a warning. -/
def execSag1 (h : Hall) (s : State) : Host.Outcome State Fault Refusal := hallDo h (hallFlag h 1 true) s

/-- SAG2 (R61). -/
def execSag2 (h : Hall) (s : State) : Host.Outcome State Fault Refusal :=
  hallDo h (fun t => forChans (riskOf h) (hallFlag h 2 true t)) s

/-- Every current output of the hall starts its ramp to 0 mA (R62). -/
def sagRamps (h : Nat) (s : State) : State :=
  forChans (fun c t => if modeOf t h c = 15 then startRamp h c 0 2 t else t) s

/-- SAG3 (R62): current outputs ramp to 0 mA; the switched outputs go off when the ramps have ended. -/
def execSag3 (h : Hall) (s : State) : Host.Outcome State Fault Refusal :=
  hallDo h (fun t =>
    if bit (getHall t h).stat 3 then t
    else
      let u := updHall h (fun x => { x with leaveDue := none }) (hallFlag h 3 true t)
      let u := forChans (fun c => updChan h c (fun x => { x with queued := false })) u
      resolveAll h (sagRamps h u)) s

/-- SAG1_CLEAR (R60). -/
def execSag1Clear (h : Hall) (s : State) : Host.Outcome State Fault Refusal := hallDo h (hallFlag h 1 false) s

/-- SAG2_CLEAR (R60, R61). -/
def execSag2Clear (h : Hall) (s : State) : Host.Outcome State Fault Refusal :=
  hallDo h (fun t => forChans (riskOf h) (hallFlag h 2 false t)) s

/-- RECOVERING (R64): set while L+ stays above 18.0 V during SAG3; a fall below it ends the interval. -/
def execRecovering (h : Hall) (above : Bool) (s : State) : Host.Outcome State Fault Refusal :=
  hallDo h (fun t => hallFlag h 4 (above && bit (getHall t h).stat 3) t) s

/-- The outputs of a hall are not yet released: no section, or a reload still holds them (R36, R287). -/
def unreleased (s : State) (h : Nat) : Bool := !(getHall s h).active || (getHall s h).hold

/-- RECOVERY_END (R64): SAG3 and RECOVERING clear and every output follows its policy, at once or, where the outputs are not
yet released, at the release; after an under-voltage reset LATCH_OFF applies only where the logic die set UVR_EVT (R36,
R421). -/
def execRecoveryEnd (h : Hall) (s : State) : Host.Outcome State Fault Refusal :=
  hallDo h (fun t =>
    if bit (getHall t h).stat 3 && bit (getHall t h).stat 4 then
      let x := getHall t h
      let u := hallFlag h 4 false (hallFlag h 3 false t)
      let u := updHall h (fun y => { y with uvrSag := false, uvrEvt := false }) u
      let l : Latch := if x.uvrSag && !x.uvrEvt then .none else .off
      if unreleased u h then updHall h (fun y => { y with leaveDue := some l }) u else leaveAll l h u
    else t) s

/-- RESTORE_SWITCH_ON (R58): the lowest-numbered waiting output switches on; the next one 1 ms later. -/
def execRestoreSwitchOn (h : Hall) (s : State) : Host.Outcome State Fault Refusal :=
  hallDo h (fun t =>
    match (List.range 4).find? fun c => (getChan t h c).queued with
    | none => t
    | some c =>
      let u := moveTo (getHall t h).nextOn t
      let u := updHall h (fun x => { x with nextOn := u.time.now + 1000000 }) u
      let u := updChan h c (fun x => { x with queued := false }) u
      (gangMembers u h c).foldl (fun v d => resolve h d v) u) s

/-- DIE_TEMP_MEASURE (R70), in 0.1 °C: HALL_HOT above 120 °C until below 115 °C; HALL_OVERTEMP above 140 °C switches every
output off. -/
def execDieTempMeasure (h : Hall) (deciC : Int) (s : State) : Host.Outcome State Fault Refusal :=
  hallDo h (fun t =>
    let u := updHall h (fun x => { x with tdie := deciC }) t
    let u := if 1200 < deciC then hallFlag h 7 true u else if deciC < 1150 then hallFlag h 7 false u else u
    if 1400 < deciC then resolveAll h (hallFlag h 8 true u) else u) s

/-- HALL_OVERTEMP_END (R70): R56 applies. -/
def execHallOvertempEnd (h : Hall) (s : State) : Host.Outcome State Fault Refusal :=
  hallDo h (fun t => if bit (getHall t h).stat 8 then leaveAll .off h (hallFlag h 8 false t) else t) s

/-- LP_OVER_DECL (R69): set after 100 ms above the declared maximum + 0.5 V, cleared after 100 ms at or below it. -/
def execLpOverDecl (h : Hall) (on : Bool) (s : State) : Host.Outcome State Fault Refusal :=
  hallDo h (hallFlag h 9 on) s

end Sys2Proof.Machine
end

