-- ==== Sys2Proof/Machine/Inputs.lean ====
section
/-! DEFINITION. Digital, wire-break and pulse inputs (R37 to R44, R456). -/

namespace Sys2Proof.Machine

/-- CH_CFG.DI_FILT in units of 0.1 ms (R38, R71); codes above 4 count as 4. -/
def diFilt (code : Nat) : Nat :=
  match code with
  | 0 => 0
  | 1 => 1
  | 2 => 10
  | 3 => 30
  | _ => 100

/-- Ring time of the first sample of a digital state that has now held for its filter time (R38): the MODCLK/16 tick at or
before that instant. -/
def firstSample (s : State) (h c : Nat) : Nat :=
  stampOf s (modclkCount (gridDown (nowM s - 1600000 * diFilt (bits (chCfgW s h c) 7 5))))

/-- STATE_EVT (R38): a state that has held for its filter time is reported with the time of its first sample; without MODCLK
nothing is. -/
def execStateEvt (h : Hall) (ch : Chan) (level : Bool) (s : State) : Host.Outcome State Fault Refusal :=
  hallDo h (fun t =>
    if (modeOf t h ch = 1 ∨ modeOf t h ch = 2) ∧ t.clk.modclk then chStateAt (firstSample t h ch) h ch level t
    else t) s

/-- The band of a mode 3 measurement in µA by CH_WB, whose steps are 50 µA (R39): 0 break, 1 open, 2 closed, 3 short,
4 between open and closed. -/
def wbBand (w : Word) (i : Int) : Nat :=
  if i < 50 * (bits w 7 0 : Int) then 0
  else if i ≤ 50 * (bits w 15 8 : Int) then 1
  else if i < 50 * (bits w 23 16 : Int) then 4
  else if i ≤ 50 * (bits w 31 24 : Int) then 2
  else 3

/-- Measurements a band must last in mode 3: the filter time or 1 ms, whichever is longer, and the one that ends it
(R40, log 14). -/
def wbNeeded (w : Word) : Nat := max (diFilt (bits w 7 5)) 10 + 1

/-- A band takes effect (R39): break and short set WB_FAULT and hold STATE; open and closed report it. DESIGN CHOICE (log
34): in the band between open and closed, where the spec names no flag, WB_FAULT stays as it was, as WB_STATE and STATE do. -/
def wbEffect (h c band : Nat) (s : State) : State :=
  if band = 4 then s
  else
    let t := updChan h c (fun x => { x with stat := putBits x.stat 2 1 band }) s
    let t := chFlag h c 3 (band = 0 || band = 3) t
    if band = 1 then chState h c false t else if band = 2 then chState h c true t else t

/-- WIRE_BREAK_MEASURE (R39, R40). -/
def execWireBreakMeasure (h : Hall) (ch : Chan) (i : MicroAmp) (s : State) : Host.Outcome State Fault Refusal :=
  hallDo h (fun t =>
    if modeOf t h ch = 3 then
      let b := wbBand (hcfg t h (aCh h ch 0x14)) i
      let x := getChan t h ch
      let n := if x.wbBand = b then min (x.wbCount + 1) 1000 else 1
      let u := updChan h ch (fun y => { y with wbBand := b, wbCount := n }) t
      if wbNeeded (chCfgW t h ch) ≤ n then wbEffect h ch b u else u
    else t) s

/-- An edge of this sense is counted (R41): CH_CFG.EDGE 0 rising, 1 falling, 2 both. -/
def edgeSelected (w : Word) (rising : Bool) : Bool :=
  match bits w 9 8 with
  | 0 => rising
  | 1 => !rising
  | _ => true

/-- The present instant as the hall stamps an edge: MODCLK interpolated to 1/16 of its period, 3.815 ns (R42). -/
def edgeStep (s : State) : Nat := nowM s * 256 / 15625

/-- Ring time of an edge stamp (R15, R42). -/
def edgeTime (s : State) (k : Nat) : Nat := pairedRing s (localOfM s (k * 15625 / 256) / 16)

/-- `n` edges counted, the last at stamp `k` and ring time `time` (R42, R44): the interval is between the hall's own stamps. -/
def countEdge (h c n k time : Nat) (s : State) : State :=
  updChan h c (fun x => { x with
    pcnt := (x.pcnt + n) % 2 ^ 32
    pper := match x.pstep with
      | some j => if j ≤ k ∧ (k - j) * 15625 / 4096 ≤ 0xFFFFFFFF then some ((k - j) * 15625 / 4096) else none
      | none => none
    plast := some time
    pstep := some k
    acc := x.acc + n
    accFirst := if x.acc = 0 then time else x.accFirst
    accLast := time }) s

/-- PULSE_EDGE (R42, R43): a phase that passed the glitch filter ends. A phase below 10 µs sets FREQ_HIGH; while that
holds, how many edges are counted and their times are not guaranteed and are free values (log 9). DESIGN CHOICE (log 75): the
hall counts and stamps by MODCLK, and without MODCLK it counts no edge. -/
def execPulseEdge (h : Hall) (ch : Chan) (rising : Bool) (phaseNs : Nat) (s : State) :
    Host.Outcome State Fault Refusal :=
  hallDo h (fun t =>
    let w := chCfgW t h ch
    if modeOf t h ch ≠ 4 ∨ !t.clk.modclk ∨ phaseNs < 1000 * bits w 16 14 then t
    else
      let u := if phaseNs < 10000 then chFlag h ch 10 true t else t
      if !edgeSelected w rising then u
      else if bit (getChan u h ch).stat 10 then
        takeFree (takeFree (takeFree (countEdge h ch (Config.freeWord u.free).toNat (Config.freeWord (u.free + 1)).toNat
          (Config.freeWord (u.free + 2)).toNat u)))
      else countEdge h ch 1 (edgeStep u) (edgeTime u (edgeStep u)) u) s

/-- FREQ_HIGH_CLEAR (R43). -/
def execFreqHighClear (h : Hall) (ch : Chan) (s : State) : Host.Outcome State Fault Refusal :=
  hallDo h (chFlag h ch 10 false) s

/-- The level of a pulse input sampled at a tick boundary (R456). -/
def samplePulse (h c : Nat) (s : State) : State :=
  if modeOf s h c = 4 then chState h c (getChan s h c).level s else s

end Sys2Proof.Machine
end

