-- ==== Sys2Proof/Machine/Coder.lean ====
section
/-! DEFINITION. The lossy-to-a-bound coder of the gallery and of coded sample blocks (R249, R251, R256), on bit strings. -/

namespace Sys2Proof.Machine

/-- The low `n` bits of `v`, most significant first. -/
def msbBits : Nat → Nat → List Bool
  | 0, _ => []
  | n + 1, v => v.testBit n :: msbBits n v

/-- One byte from up to eight bits, from bit 7 downward, zero-padded. -/
def packByte (l : List Bool) : Byte :=
  BitVec.ofNat 8 ((List.range 8).foldl (fun a i => a + b2n (l.getD i false) * 2 ^ (7 - i)) 0)

/-- Bytes filled from bit 7 downward, the last one padded with zero bits; `fuel` bytes at most. -/
def packBits : Nat → List Bool → List Byte
  | 0, _ => []
  | _, [] => []
  | n + 1, l => packByte (l.take 8) :: packBits n (l.drop 8)

/-- All the bits of a string packed. -/
def packAll (l : List Bool) : List Byte := packBits (l.length / 8 + 1) l

/-- rice(z, r). -/
def rice (z r : Nat) : List Bool :=
  let u := z / 2 ^ r
  if u < 32 then List.replicate u true ++ [false] ++ msbBits r (z % 2 ^ r)
  else List.replicate 32 true ++ msbBits 40 z

/-- The number of bits of rice(z, r). -/
def riceLen (z r : Nat) : Nat := if z / 2 ^ r < 32 then z / 2 ^ r + 1 + r else 72

/-- Zigzag of R249. -/
def zigzag (q : Int) : Nat := if 0 ≤ q then (2 * q).toNat else (-2 * q - 1).toNat

/-- Limits to the 32-bit range of R249. -/
def clamp32 (x : Int) : Int := clampInt (-2147483648) 2147483647 x

/-- The coder's state: the last two reconstructions. -/
abbrev CoderSt := List Int

/-- One coded value after the first: zigzag code and reconstruction (R249). -/
def codeOne (delta : Nat) (st : CoderSt) (x : Int) : Nat × Int :=
  let p := match st with
    | a :: b :: _ => clamp32 (2 * a - b)
    | a :: _ => clamp32 a
    | [] => 0
  let e := x - p
  let w : Nat := 2 * delta + 1
  let m : Int := (e.natAbs + delta) / w
  let q := if e < 0 then -m else m
  (zigzag q, clamp32 (p + q * w))

/-- Codes of a sequence of present values after `st`; the first value of an empty state is raw and codes to none. -/
def codeSeq (delta : Nat) : CoderSt → List Int → List (Option Nat)
  | _, [] => []
  | [], x :: t => none :: codeSeq delta [x] t
  | a :: l, x :: t =>
    let r := codeOne delta (a :: l) x
    some r.1 :: codeSeq delta [r.2, a] t

/-- Bits all the codes take at one r. -/
def codesLen (zs : List (Option Nat)) (r : Nat) : Nat :=
  zs.foldl (fun a z => a + match z with | some z => riceLen z r | none => 32) 0

/-- The smallest r of 0 to 15 that gives the shortest stream (R251). -/
def bestR (zs : List (Option Nat)) : Nat :=
  (List.range 16).foldl (fun b r => if codesLen zs r < codesLen zs b then r else b) 0

/-! Sample blocks (R256). -/

/-- The fields of a 16-byte record: code, tag, time. -/
def recCode (r : List Byte) : Int := (BitVec.ofNat 32 (leAt r 0 4)).toInt
/-- Tag. -/
def recTag (r : List Byte) : Nat := leAt r 4 4
/-- Time. -/
def recTime (r : List Byte) : Nat := leAt r 8 8

/-- Changes of the timestamp interval in zigzag, the first interval against 0. -/
def timeCodes : Option Nat → Int → List (List Byte) → List Nat
  | _, _, [] => []
  | none, iv, r :: t => timeCodes (some (recTime r)) iv t
  | some p, iv, r :: t =>
    let d : Int := (recTime r : Int) - p
    zigzag (d - iv) :: timeCodes (some (recTime r)) d t

/-- Tag bits of each record after the first. -/
def tagCodes : Option Nat → List (List Byte) → List (List Bool)
  | _, [] => []
  | none, r :: t => tagCodes (some (recTag r)) t
  | some p, r :: t => (if recTag r = p then [true] else false :: msbBits 32 (recTag r)) :: tagCodes (some (recTag r)) t

/-- The bit stream of the records after the first, at r of the code and r of the time. -/
def sampleBits (recs : List (List Byte)) (rc rt : Nat) : List Bool :=
  let cs := (codeSeq 0 [] (recs.map recCode)).drop 1
  let ts := timeCodes none 0 recs
  let gs := tagCodes none recs
  ((cs.zip (gs.zip ts)).map fun x => rice (x.1.getD 0) rc ++ x.2.1 ++ rice x.2.2 rt).flatten

/-- r of the code and of the time for a coded block. -/
def sampleR (recs : List (List Byte)) : Nat × Nat :=
  (bestR ((codeSeq 0 [] (recs.map recCode)).drop 1), bestR ((timeCodes none 0 recs).map some))

/-- Payload bytes of the coded form: the first record raw, then the bits. -/
def sampleCodedLen (recs : List (List Byte)) : Nat :=
  let r := sampleR recs
  16 + ((sampleBits recs r.1 r.2).length + 7) / 8

/-- The coded form decodes to the records: every change of the timestamp interval fits the 40 bits of the escape (R249). -/
def sampleLossless (recs : List (List Byte)) : Bool := (timeCodes none 0 recs).all (· < 2 ^ 40)

/-- The records fit one block of 256 bytes with its 16-byte header, raw or coded. -/
def sampleFits (recs : List (List Byte)) : Bool :=
  recs.length ≤ 15 || (sampleLossless recs && sampleCodedLen recs ≤ 240)

/-- A sample block's 256 bytes (R256, log 18): coded when that is shorter and decodes without loss. -/
def sampleBlock (ch : Nat) (recs : List (List Byte)) : List Byte :=
  let r := sampleR recs
  let coded := sampleLossless recs && sampleCodedLen recs < 16 * recs.length
  let head := [BitVec.ofNat 8 ch, BitVec.ofNat 8 (b2n coded)] ++ leBytes 2 recs.length
    ++ [BitVec.ofNat 8 (if coded then r.1 else 0), BitVec.ofNat 8 (if coded then r.2 else 0), 0, 0]
    ++ leBytes 8 (recTime (recs.headD []))
  let body := if coded then recs.headD [] ++ packAll (sampleBits recs r.1 r.2) else recs.flatten
  padTo 256 0 (head ++ body)

end Sys2Proof.Machine
end

