-- ==== Sys2Proof/Machine/Decimate.lean ====
section
/-! DEFINITION. The decimation chain: sinc4 decimator, half-band stages and averaging stage, exact until the code is formed
(R145 to R147). -/

namespace Sys2Proof.Machine

/-! Stages over lists of exact integers, oldest first; what lies before a list counts as 0. -/

/-- Running sums. -/
def runSums : Int → List Int → List Int
  | _, [] => []
  | acc, x :: t => (acc + x) :: runSums (acc + x) t

/-- Differences of neighbours. -/
def diffs : Int → List Int → List Int
  | _, [] => []
  | p, x :: t => (x - p) :: diffs x t

/-- Every `r`-th entry; `k` entries were passed since the last one kept. -/
def everyNth (r : Nat) : Nat → List Int → List Int
  | _, [] => []
  | k, x :: t => if r ≤ k + 1 then x :: everyNth r 0 t else everyNth r (k + 1) t

/-- The sinc4 decimator: four running sums, every OSR-th sum kept, four differences; its gain is OSR^4. -/
def sinc4 (osr : Nat) (l : List Int) : List Int :=
  let i := runSums 0 (runSums 0 (runSums 0 (runSums 0 l)))
  diffs 0 (diffs 0 (diffs 0 (diffs 0 (everyNth osr 0 i))))

/-- A half-band stage with the symmetric taps a, b, c, b, a; every second output kept. The arguments before the list are the
three inputs before it, newest first. -/
def halfBand (a b c : Int) : Int → Int → Int → List Int → List Int
  | p1, p2, p3, x :: y :: t => (a * (y + p3) + b * (x + p2) + c * p1) :: halfBand a b c y x p1 t
  | _, _, _, _ => []

/-- Gain of a half-band stage. -/
def halfBandGain (t : Int × Int × Int) : Int := 2 * t.1 + 2 * t.2.1 + t.2.2

/-- `n` half-band stages of the settled or continuous chain, from stage `k` on (log 35). -/
def halfBands (cont : Bool) : Nat → Nat → List Int → List Int
  | 0, _, l => l
  | n + 1, k, l =>
    let t := Config.halfBand cont k
    halfBands cont n (k + 1) (halfBand t.1 t.2.1 t.2.2 0 0 0 l)

/-- The gain of `n` half-band stages from stage `k` on. -/
def halfBandsGain (cont : Bool) : Nat → Nat → Int
  | 0, _ => 1
  | n + 1, k => halfBandGain (Config.halfBand cont k) * halfBandsGain cont n (k + 1)

/-! The chain of an ODR code (R145). -/

/-- OSR of the sinc4 stage. -/
def chainOsr (cont : Bool) : Nat := if cont then 32 else 256

/-- Half-band stages of a code; codes 3 to 15 use the chain of code 2. -/
def chainStages (odr : Nat) (cont : Bool) : Nat := if cont then min odr 2 + 3 else min odr 2

/-- Outputs M of the code 2 chain that the averaging stage takes; 0 for codes 0 to 2, which have no such stage (R147). -/
def odrM (odr : Nat) : Nat := [0, 0, 0, 2, 4, 8, 16, 32, 40, 80, 160, 320, 400, 800, 1600, 3200].getD odr 0

/-- A modulator sample as a number. -/
def modBit (b : Bool) : Int := if b then 1 else -1

/-- The chain's outputs from the opening of a window on, times its gain. -/
def chainOut (odr : Nat) (cont : Bool) (l : List Bool) : List Int :=
  halfBands cont (chainStages odr cont) 0 (sinc4 (chainOsr cont) (l.map modBit))

/-- The chain's gain. -/
def chainGain (odr : Nat) (cont : Bool) : Int :=
  (chainOsr cont : Int) ^ 4 * halfBandsGain cont (chainStages odr cont) 0

/-- The value of a window's modulator samples in codes, as a quotient: the last output, or the sum of the last M outputs
over M; a stream of ones only has the value `Config.modFull` (log 35). -/
def chainValue (odr : Nat) (cont : Bool) (l : List Bool) : Int × Int :=
  let out := chainOut odr cont l
  let m := max (odrM odr) 1
  ((out.drop (out.length - m)).foldl (· + ·) 0 * (Config.modFull : Int), m * chainGain odr cont)

/-- The code before R107's limits: the value rounded to the nearest integer, ties away from zero (R146). -/
def chainCode (odr : Nat) (cont : Bool) (l : List Bool) : Int :=
  let v := chainValue odr cont l
  roundDivAway (if v.2 < 0 then -v.1 else v.1) v.2.natAbs

end Sys2Proof.Machine
end

