-- ==== Sys2Proof/Machine/Thermo.lean ====
section
/-! DEFINITION. The reference functions of IEC 60584-1, by which R102 defines curves 9 to 16. PRESUMED (log 89): the spec names the
standard and prints none of its coefficients; they are taken from the standard. -/

namespace Sys2Proof.Machine

/-- One piece of a reference function: its temperatures in 10^-3 °C, and the coefficients of E in mV by rising power of T in °C, each
as (m, e) for m × 10^-e. -/
structure TcPiece where
  lo : Int
  hi : Int
  cs : List (Int × Nat)
deriving DecidableEq, Repr

/-- Type J. -/
def tcJ : List TcPiece :=
  [⟨-210000, 760000,
    [(0, 0), (50381187815, 12), (3047583693, 14), (-8568106572, 17), (13228195295, 20), (-17052958337, 23),
    (20948090697, 26), (-12538395336, 29), (15631725697, 33)]⟩,
   ⟨760000, 1200000,
    [(29645625681, 8), (-14976127786, 10), (31787103924, 13), (-31847686701, 16), (15720819004, 19), (-30691369056, 23)]⟩]

/-- Type K. -/
def tcK : List TcPiece :=
  [⟨-270000, 0,
    [(0, 0), (39450128025, 12), (23622373598, 15), (-32858906784, 17), (-49904828777, 19), (-67509059173, 21),
    (-57410327428, 23), (-31088872894, 25), (-10451609365, 27), (-19889266878, 30), (-16322697486, 33)]⟩,
   ⟨0, 1372000,
    [(-17600413686, 12), (38921204975, 12), (18558770032, 15), (-99457592874, 18), (31840945719, 20), (-56072844889, 23),
    (56075059059, 26), (-32020720003, 29), (97151147152, 33), (-12104721275, 36)]⟩]

/-- Type N. -/
def tcN : List TcPiece :=
  [⟨-270000, 0,
    [(0, 0), (26159105962, 12), (10957484228, 15), (-93841111554, 18), (-46412039759, 21), (-26303357716, 22),
    (-22653438003, 24), (-76089300791, 27), (-93419667835, 30)]⟩,
   ⟨0, 1300000,
    [(0, 0), (25929394601, 12), (1571014188, 14), (43825627237, 18), (-25261169794, 20), (64311819339, 23),
    (-10063471519, 25), (99745338992, 29), (-60863245607, 32), (20849229339, 35), (-30682196151, 39)]⟩]

/-- Type R. -/
def tcR : List TcPiece :=
  [⟨-50000, 1064180,
    [(0, 0), (528961729765, 14), (139166589782, 16), (-238855693017, 19), (356916001063, 22), (-462347666298, 25),
    (500777441034, 28), (-373105886191, 31), (157716482367, 34), (-281038625251, 38)]⟩,
   ⟨1064180, 1664500,
    [(295157925316, 11), (-252061251332, 14), (159564501865, 16), (-764085947576, 20), (205305291024, 23),
    (-293359668173, 27)]⟩,
   ⟨1664500, 1768100,
    [(152232118209, 9), (-268819888545, 12), (171280280471, 15), (-345895706453, 19), (-934633971046, 26)]⟩]

/-- Type S. -/
def tcS : List TcPiece :=
  [⟨-50000, 1064180,
    [(0, 0), (540313308631, 14), (12593428974, 15), (-232477968689, 19), (322028823036, 22), (-331465196389, 25),
    (255744251786, 28), (-125068871393, 31), (271443176145, 35)]⟩,
   ⟨1064180, 1664500,
    [(132900444085, 11), (334509311344, 14), (654805192818, 17), (-164856259209, 20), (129989605174, 25)]⟩,
   ⟨1664500, 1768100,
    [(146628232636, 9), (-258430516752, 12), (163693574641, 15), (-330439046987, 19), (-943223690612, 26)]⟩]

/-- Type B. -/
def tcB : List TcPiece :=
  [⟨0, 630615,
    [(0, 0), (-24650818346, 14), (59040421171, 16), (-13257931636, 19), (15668291901, 22), (-1694452924, 24),
    (62990347094, 29)]⟩,
   ⟨630615, 1820000,
    [(-38938168621, 10), (2857174747, 11), (-84885104785, 15), (15785280164, 17), (-16835344864, 20), (11109794013, 23),
    (-44515431033, 27), (98975640821, 31), (-93791330289, 35)]⟩]

/-- Type T. -/
def tcT : List TcPiece :=
  [⟨-270000, 0,
    [(0, 0), (38748106364, 12), (44194434347, 15), (11844323105, 17), (20032973554, 18), (90138019559, 20),
    (22651156593, 21), (36071154205, 23), (38493939883, 25), (28213521925, 27), (14251594779, 29), (48768662286, 32),
    (1079553927, 33), (13945027062, 37), (79795153927, 41)]⟩,
   ⟨0, 400000,
    [(0, 0), (38748106364, 12), (3329222788, 14), (20618243404, 17), (-21882256846, 19), (10996880928, 21),
    (-30815758772, 24), (4547913529, 26), (-27512901673, 30)]⟩]

/-- Type E. -/
def tcE : List TcPiece :=
  [⟨-270000, 0,
    [(0, 0), (58665508708, 12), (45410977124, 15), (-77998048686, 17), (-25800160843, 18), (-59452583057, 20),
    (-93214058667, 22), (-10287605534, 23), (-80370123621, 26), (-43979497391, 28), (-16414776355, 30), (-39673619516, 33),
    (-55827328721, 36), (-34657842013, 39)]⟩,
   ⟨0, 1000000,
    [(0, 0), (5866550871, 11), (45032275582, 15), (28908407212, 18), (-33056896652, 20), (6502440327, 22),
    (-19197495504, 26), (-12536600497, 28), (21489217569, 31), (-14388041782, 34), (35960899481, 38)]⟩]

/-- The pieces of a thermocouple curve. -/
def tcPieces (curve : Nat) : List TcPiece :=
  match curve with
  | 9 => tcJ
  | 10 => tcK
  | 11 => tcN
  | 12 => tcR
  | 13 => tcS
  | 14 => tcB
  | 15 => tcT
  | 16 => tcE
  | _ => []

/-- A polynomial at n × 2^-20 °C, in 10^-60 mV × 2^-(20 × its coefficients). -/
def tcPoly (n : Int) : List (Int × Nat) → Int
  | [] => 0
  | c :: t => c.1 * 10 ^ (60 - c.2) * 2 ^ (20 * (t.length + 1)) + n * tcPoly n t

/-- exp(-x) in 2^-64, for x = 0.1183432 × 10^-3 × (T - 126.9686)²: a series of exp(x/1024) inverted and squared ten times. -/
def tcExp (n : Int) : Int :=
  let d := n * 10 ^ 4 - 1269686 * 2 ^ 20
  let z := (1183432 * d ^ 2 * 2 ^ 14).fdiv (10 ^ 18)
  let u : Int := 2 ^ 64
  let e := u + z + (z ^ 2).fdiv (2 * u) + (z ^ 3).fdiv (6 * u ^ 2) + (z ^ 4).fdiv (24 * u ^ 3)
  (List.range 10).foldl (fun r _ => (r * r).fdiv u) ((u * u).fdiv e)

/-- E of a thermocouple type in 10^-9 mV at a temperature in 2^-20 °C, rounded down. Type K adds its exponential term above 0 °C. -/
def tcRef (curve : Nat) (n : Int) : Int :=
  match (tcPieces curve).find? fun p => p.lo * 2 ^ 20 ≤ n * 1000 && n * 1000 ≤ p.hi * 2 ^ 20 with
  | some p =>
    (tcPoly n p.cs).fdiv (10 ^ 51 * 2 ^ (20 * p.cs.length))
      + (if curve = 10 && decide (0 < n) then (118597600 * tcExp n).fdiv (2 ^ 64) else 0)
  | none => Config.tcRef curve n

end Sys2Proof.Machine
end

