-- ==== Sys2Proof/Machine/Sensors.lean ====
section
/-! DEFINITION. From a result's code to its value: classes, base values and linearisation curves (R74, R77, R94 to R103). -/

namespace Sys2Proof.Machine

/-! Tag fields (R136). -/

/-- Tag bits: OVR 31, RECOV 30, RANGE_CHG 29, REF_SETTLING 28, SENSOR 27, LOOP_RISK 26, UNVERIFIED 25. -/
def tagBit (t : Word) (i : Nat) : Bool := bit t i
/-- INPUT. -/
def tagInput (t : Word) : Nat := bits t 21 20
/-- GAIN, log2. -/
def tagGain (t : Word) : Nat := bits t 14 12
/-- CH. -/
def tagCh (t : Word) : Nat := bits t 6 5
/-- VERIFY. -/
def tagVerify (t : Word) : Bool := bit t 8

/-! Classes (R77). -/

/-- A threshold in 0.1 mA as a code: t × 2^31 / 250 to the nearest integer. -/
def ne43Code (t : Nat) : Int := roundDivAway (t * 2147483648) 250

/-- The NE 43 class of a code under CH_NE43. -/
def ne43Class (w : Word) (code : Word) : Nat :=
  let c := sval code
  if c = -2147483648 ∨ c < ne43Code (bits w 7 0) then 1
  else if c = 2147483647 ∨ ne43Code (bits w 31 24) ≤ c then 4
  else if c < ne43Code (bits w 15 8) then 2
  else if c ≤ ne43Code (bits w 23 16) then 0
  else 3

/-! Base values (R101), in binary32. -/

/-- A rational times 2^-31. -/
def kOf (num den : Nat) : Word := fenc (fpMul (fpDiv (fpOfInt num) (fpOfInt den)) (.fin false 1 (-31)))

/-- R_FS of CH_SENS.RANGE in Ω (R94). -/
def rFs (range : Nat) : Nat :=
  match range with
  | 0 => 512
  | 1 => 5120
  | _ => 51200

/-- The base value of a code by mode, CH_SENS and the gain used; diagnostic inputs are scaled as mode 7 (R454). -/
def baseValue (mode : Nat) (sens : Word) (gain input : Nat) (code : Word) : Word :=
  let x := fint (sval code)
  let g := 2 ^ gain
  if input ≠ 0 then fmul x (kOf 25 (2 * g))
  else match mode with
    | 5 => fmul x (kOf 25 1)
    | 6 => fmul x (kOf 25 1)
    | 17 => fmul x (kOf 25 1)
    | 7 => fmul x (kOf 25 (2 * g))
    | 8 => fsub (fmul x (kOf (rFs (bits sens 7 6)) 1)) (frat (bits sens 31 18) 1000)
    | 9 => fmul x (kOf (rFs (bits sens 7 6)) 1)
    | 10 => fmul x (kOf (rFs (bits sens 7 6)) 1)
    | 11 => fmul x (kOf 2500 g)
    | 12 => fmul x (kOf 1000 g)
    | _ => 0

/-! Curves (R102, R103). -/

/-- R0 in Ω. -/
def rtdR0 (curve : Nat) : Int :=
  match curve with
  | 2 => 500
  | 3 => 1000
  | 5 => 500
  | 6 => 1000
  | 8 => 1000
  | _ => 100

/-- The device range of a standard curve in °C. -/
def curveEnds (curve : Nat) : Int × Int :=
  match curve with
  | 7 => (-60, 250)
  | 8 => (-60, 250)
  | 9 => (-210, 1200)
  | 10 => (-200, 1372)
  | 11 => (-200, 1300)
  | 12 => (-50, 1768)
  | 13 => (-50, 1768)
  | 14 => (250, 1820)
  | 15 => (-200, 400)
  | 16 => (-200, 1000)
  | _ => (-200, 850)

/-- R / R0 × 10^17 × q^6 of an RTD curve at p/q °C (q > 0), by its defining relation. -/
def rtdRel (curve : Nat) (p q : Int) : Int :=
  let c : Int := if 0 ≤ p then 0 else 1
  if curve ≤ 3 then
    10 ^ 17 * q ^ 6 + 39083 * 10 ^ 10 * p * q ^ 5 - 5775 * 10 ^ 7 * p ^ 2 * q ^ 4
      - c * 418300 * (p - 100 * q) * p ^ 3 * q ^ 2
  else if curve ≤ 6 then
    10 ^ 17 * q ^ 6 + 39739 * 10 ^ 10 * p * q ^ 5 - 5870 * 10 ^ 7 * p ^ 2 * q ^ 4
      - c * 440000 * (p - 100 * q) * p ^ 3 * q ^ 2
  else 10 ^ 17 * q ^ 6 + 5485 * 10 ^ 11 * p * q ^ 5 + 665 * 10 ^ 9 * p ^ 2 * q ^ 4 + 2805 * 10 ^ 3 * p ^ 4 * q ^ 2
    - 2 * p ^ 6

/-- A value × 10^17 × q^6 against the relation: at or above the resistance at p/q °C. -/
def rtdAbove (curve : Nat) (base : Word) (p q : Int) : Bool :=
  fpLe (fpOfInt (rtdR0 curve * rtdRel curve p q)) (fpMul (fval base) (fpOfInt (10 ^ 17 * q ^ 6)))

/-- A value at or below the resistance at p/q °C. -/
def rtdBelow (curve : Nat) (base : Word) (p q : Int) : Bool :=
  fpLe (fpMul (fval base) (fpOfInt (10 ^ 17 * q ^ 6))) (fpOfInt (rtdR0 curve * rtdRel curve p q))

/-- A finite binary32 number as a quotient with a positive denominator. -/
def ratOf (w : Word) : Option (Int × Int) :=
  match fval w with
  | .fin neg m e =>
    let v : Int := if neg then -(m : Int) else m
    some (if 0 ≤ e then (v * 2 ^ e.toNat, 1) else (v, 2 ^ (-e).toNat))
  | _ => none

/-- Largest n in lo .. lo + 2^k - 1 that holds, where what holds for a number holds for every smaller one. -/
def bisect (f : Int → Bool) : Nat → Int → Int
  | 0, lo => lo
  | k + 1, lo => if f (lo + 2 ^ k) then bisect f k (lo + 2 ^ k) else bisect f k lo

/-- A number of 2^-20 units in binary32. -/
def of20 (n : Int) : Word := fenc (.fin (n < 0) n.natAbs (-20))

/-- The residual of R102 in °C, as its reciprocal. -/
def residual (curve : Nat) : Int := if curve ≤ 6 then 500 else if curve ≤ 8 then 200 else 100

/-- A temperature lies within the residual of the exact inverse of an RTD relation at a base value. -/
def rtdNear (curve : Nat) (base t : Word) : Bool :=
  let k := residual curve
  match ratOf t with
  | some (p, q) => rtdAbove curve base (k * p - q) (k * q) && rtdBelow curve base (k * p + q) (k * q)
  | none => false

/-- The exact inverse of an RTD relation inside its range, to 2^-20 °C. -/
def rtdInverse (curve : Nat) (base : Word) : Word :=
  of20 (bisect (fun n => rtdAbove curve base n (2 ^ 20)) 31 ((curveEnds curve).1 * 2 ^ 20))

/-- An RTD curve: value and CURVE_RANGE; inside the range the device's own temperature, which lies within the residual. -/
def rtdCurve (curve : Nat) (base : Word) : Word × Bool :=
  let e := curveEnds curve
  if !rtdAbove curve base e.1 1 then (fint e.1, true)
  else if !rtdBelow curve base e.2 1 then (fint e.2, true)
  else
    let t := Config.rtdTemp curve base
    (if rtdNear curve base t then t else rtdInverse curve base, false)

/-- An EMF in mV against an amount of 10^-9 mV: at or above it. -/
def emfAbove (e : Word) (n : Int) : Bool := fpLe (fpOfInt n) (fpMul (fval e) (fpOfInt 1000000000))

/-- An EMF in mV at or below an amount of 10^-9 mV. -/
def emfBelow (e : Word) (n : Int) : Bool := fpLe (fpMul (fval e) (fpOfInt 1000000000)) (fpOfInt n)

/-- The 2^-20 °C unit at or below a temperature. -/
def unit20 (t : Word) : Int :=
  match ratOf t with
  | some (p, q) => (p * 2 ^ 20).fdiv q
  | none => 0

/-- E(T_CJ) of a thermocouple type: the device's own value, within 0.05 µV of the reference function. -/
def tcCold (curve : Nat) (cj : Word) : Word :=
  let r := tcRef curve (unit20 cj)
  let e := Config.tcEmf curve cj
  if emfAbove e (r - 50000) && emfBelow e (r + 50000) then e else frat r 1000000000

/-- The temperature of an EMF inside the range: the device's own, within the residual of the inverse reference function. -/
def tcInverse (curve : Nat) (e : Word) : Word :=
  let t := Config.tcTemp curve e
  let u := unit20 t
  if (ratOf t).isSome && emfAbove e (tcRef curve (u - 10485)) && emfBelow e (tcRef curve (u + 10485)) then t
  else of20 (bisect (fun n => emfAbove e (tcRef curve n)) 31 ((curveEnds curve).1 * 2 ^ 20))

/-- A thermocouple curve with cold-junction temperature `cj`: value and CURVE_RANGE. -/
def tcCurve (curve : Nat) (base cj : Word) : Word × Bool :=
  let e := fadd base (tcCold curve cj)
  let r := curveEnds curve
  if !emfAbove e (tcRef curve (r.1 * 2 ^ 20)) then (fint r.1, true)
  else if !emfBelow e (tcRef curve (r.2 * 2 ^ 20)) then (fint r.2, true)
  else (tcInverse curve e, false)

/-- The segment of a custom table that holds x: the last breakpoint but one at most. -/
def tableSeg (x : Word) : List (Word × Word × Word) → Word × Bool
  | [] => (0, true)
  | [p] => (p.2.1, flt p.1 x)
  | p :: q :: t =>
    if t.isEmpty then
      if flt q.1 x then (q.2.1, true) else (ffma (fsub x p.1) p.2.2 p.2.1, false)
    else if fle q.1 x then tableSeg x (q :: t)
    else (ffma (fsub x p.1) p.2.2 p.2.1, false)

/-- A custom table (R103): value and curve_range. -/
def tableCurve (t : List (Word × Word × Word)) (x : Word) : Word × Bool :=
  match t with
  | [] => (0, true)
  | p :: _ => if flt x p.1 then (p.2.1, true) else tableSeg x t

/-- A channel's curve applied to a base value (R102, R103). -/
def applyCurve (curves : Table (List (Word × Word × Word))) (curve : Nat) (base cj : Word) : Word × Bool :=
  if curve = 0 then (base, false)
  else if curve ≤ 8 then rtdCurve curve base
  else if curve ≤ 16 then tcCurve curve base cj
  else tableCurve (tget (fun _ => []) curves curve) base

/-! Records (R31, R78, R99). -/

/-- The configuration that scales and classifies a record of channel `g`, `ms` being the last changes of a mode: the one before a COMMIT that changed the mode, for a
result completed before that COMMIT's boundary, else the one in effect (R31). -/
def chanAt (s : State) (ms : Table OldChan) (g : Nat) (r : Rec) : OldChan :=
  let now : OldChan :=
    { mode := bits (getReg s (aCh (g / 4) (g % 4) 0x10)) 4 0, sens := getReg s (aCh (g / 4) (g % 4) 0x50)
      ne43 := getReg s (aCh (g / 4) (g % 4) 0x54), at_ := 0 }
  match ms.find? fun e => e.1 = g with
  | some e => if r.time < e.2.at_ then e.2 else now
  | none => now

/-- A loop mode, classified by NE 43 (R77). -/
def isLoopMode (m : Nat) : Bool := m == 5 || m == 6 || m == 17

/-- The value of a record of channel `g` (global) with its scaling, and CURVE_RANGE. -/
def recordValue (s : State) (ms : Table OldChan) (g : Nat) (r : Rec) (cj : Word) : Word × Bool :=
  let x := chanAt s ms g r
  applyCurve s.curves (bits x.sens 5 0) (baseValue x.mode x.sens (tagGain r.tag) 0 r.code) cj

/-- The class of a record in a loop mode; 0 in any other (R77). -/
def recordClass (s : State) (ms : Table OldChan) (g : Nat) (r : Rec) : Nat :=
  let x := chanAt s ms g r
  if isLoopMode x.mode then ne43Class x.ne43 r.code else 0

/-- A record is flagged by its tag or class (R78, R110, R132): OVR, RECOV, REF_SETTLING, SENSOR, LOOP_RISK, or an NE 43
class other than 0 in modes 5, 6 and 17. -/
def recordFlagged (s : State) (ms : Table OldChan) (g : Nat) (r : Rec) : Bool :=
  tagBit r.tag 31 || tagBit r.tag 30 || tagBit r.tag 28 || tagBit r.tag 27 || tagBit r.tag 26 || recordClass s ms g r ≠ 0

/-- The newest record of channel `g` in SRAM. -/
def newestRec (s : State) (g : Nat) : Option Rec := (s.newest.find? fun e => e.1 = g).map (·.2)

/-- T_CJ for CH_ENG: the hall's sensor, or the newest value of channel CJ_CH (R99). -/
def cjNow (s : State) (h c : Nat) : Word :=
  let w := getReg s (aCh h c 0x50)
  if bit w 13 then getReg s (aCh (bits w 12 10) (bits w 9 8) 0x64) else getReg s (aHall h 0x6F)

/-- T_CJ of a thermocouple channel `g` from a tick set, and CJ_FAULT: the hall's sensor as latched, or the value of channel
CJ_CH, which fails when its record is missing, flagged, out of its curve or older than three ticks (R99, R183). -/
def setColdJunction (s : State) (x : TickSet) (g : Nat) : Word × Bool :=
  let w := getReg s (aCh (g / 4) (g % 4) 0x50)
  if !bit w 13 then (tget (fun _ => 0) x.cjs (g / 4), false)
  else
    let k := bits w 12 8
    match x.recs.find? fun e => e.1 = k with
    | none => (0, true)
    | some e =>
      let v := recordValue s x.modes k e.2 0
      (v.1, v.2 || recordFlagged s x.modes k e.2 || tagBit e.2.tag 29
        || decide ((e.2.time : Int) + 3000000 < (x.tick * 1000000 : Nat)))

end Sys2Proof.Machine
end

