-- ==== Sys2Proof/Machine/ConvCore.lean ====
section
/-! DEFINITION. The converter's sequencer: steps, timing, gain, injected sequences, blanking (R106 to R127, R133, R134). -/

namespace Sys2Proof.Machine

/-! Configuration of a flight, read from the hall that holds it. -/

/-- Word at `off` of converter block `n`, as its hall holds it. -/
def cvW (s : State) (n off : Nat) : Word := hcfg s (n / 2) (aConv n off)

/-- The converter whose block owns the flight that converter `n` runs (R114): K0's while K1 holds it. -/
def ownerOf (s : State) (n : Nat) : Nat :=
  if n % 2 = 1 ∧ (getHall s (n / 2)).rot.onK1 then n - 1 else n

/-- The converter that runs the flight belonging to `own` (R122). -/
def runnerOf (s : State) (own : Nat) : Nat :=
  if own % 2 = 0 ∧ (getHall s (own / 2)).rot.onK1 then own + 1 else own

/-- CV_CFG.FLIGHT_LEN, at most 16. -/
def flightLen (s : State) (own : Nat) : Nat := min (bits (cvW s own 0) 4 0) 16
/-- CV_INJ_CFG.INJ_LEN, at most 4. -/
def injLen (s : State) (own : Nat) : Nat := min (bits (cvW s own 1) 2 0) 4
/-- CV_INJ_CFG.TRIG bit `b`, 8 to 11. -/
def trigOn (s : State) (own b : Nat) : Bool := bit (cvW s own 1) b
/-- Word A of a flight or injected step. -/
def stepA (s : State) (own : Nat) (inj : Bool) (i : Nat) : Word :=
  cvW s own (if inj then 0x30 + 2 * i else 0x10 + 2 * i)
/-- Word B of a flight or injected step. -/
def stepB (s : State) (own : Nat) (inj : Bool) (i : Nat) : Word :=
  cvW s own (if inj then 0x31 + 2 * i else 0x11 + 2 * i)

/-- CH of word A. -/
def saCh (a : Word) : Nat := bits a 29 28
/-- GAIN of word A. -/
def saGain (a : Word) : Nat := bits a 27 25
/-- FILT_MODE of word A: continuous. -/
def saCont (a : Word) : Bool := bit a 23
/-- ODR of word A. -/
def saOdr (a : Word) : Nat := bits a 22 19
/-- SETTLE of word A. -/
def saSettle (a : Word) : Nat := bits a 15 0
/-- REPEAT of word B. -/
def sbRepeat (b : Word) : Nat := bits b 15 8
/-- EXC of word B. -/
def sbExc (b : Word) : Nat := bits b 7 6
/-- INPUT of word B. -/
def sbInput (b : Word) : Nat := bits b 5 4

/-! Rates (R108, R148), in 1/16 ns. -/

/-- t_CONV. -/
def tConv (odr : Nat) : Nat :=
  match odr with
  | 0 => 2000000
  | 1 => 4000000
  | 2 => 8000000
  | _ => 8000000 + odrM odr * 2000000

/-- 1 / ODR. -/
def odrPeriod (odr : Nat) : Nat :=
  match odr with
  | 0 => 500000
  | 1 => 1000000
  | 2 => 2000000
  | _ => odrM odr * 2000000

/-- A MODCLK/16 tick. -/
def tick16 : Nat := 15625

/-- Flight cycle time of R140. -/
def cycleTime (s : State) (own : Nat) : Nat :=
  (List.range (flightLen s own)).foldl (fun t i =>
    let a := stepA s own false i
    let b := stepB s own false i
    t + if saCont a then tConv (saOdr a) + (sbRepeat b - 1) * odrPeriod (saOdr a)
      else saSettle a * tick16 + sbRepeat b * tConv (saOdr a)) 0

/-! Gain (R74, R94, R134). -/

/-- The fixed gain of a mode for INPUT 0, log2; none where the step's gain counts. -/
def fixedGain (mode : Nat) (sens : Word) : Option Nat :=
  if mode = 5 ∨ mode = 6 ∨ mode = 17 then some 1
  else if mode = 8 ∨ mode = 9 ∨ mode = 10 then some (if bits sens 7 6 = 0 then 1 else 0)
  else none

/-- AUTO acts in this step (R134). -/
def autoActs (mode : Nat) (a b : Word) : Bool :=
  bit a 24 && (if sbInput b = 0 then mode == 7 || mode == 11 || mode == 12 else true)

/-- Key of a step in the gain tables. -/
def gainKey (inj : Bool) (i : Nat) : Nat := if inj then 16 + i else i

/-- Gain of the next execution of a step, log2. -/
def stepGain (s : State) (n : Nat) (inj : Bool) (i : Nat) : Nat :=
  let own := ownerOf s n
  let a := stepA s own inj i
  let b := stepB s own inj i
  let c := saCh a
  let m := modeOf s (n / 2) c
  match (if sbInput b = 0 then fixedGain m (chSensW s (n / 2) c) else none) with
  | some g => g
  | none =>
    if autoActs m a b then
      min (tget (fun _ => saGain a) (getConv s own).autoGain (gainKey inj i)) (saGain a)
    else saGain a

/-- The automatic gain after a result of the step (R134). -/
def nextAuto (gain limit : Nat) (ovr : Bool) (code : Int) : Nat :=
  if ovr || 0x70000000 ≤ code.natAbs then gain - 1
  else if code.natAbs < 0x30000000 ∧ gain < limit then gain + 1
  else gain

/-! Beginning a step (R113, R117). -/

/-- Waiting excitation profiles take effect at a boundary of the flight's converter (R91). -/
def applyExc (h : Nat) (s : State) : State :=
  match (getHall s h).excNew with
  | none => s
  | some l => excFlag h 2 false (updHall h (fun x => { x with exc := l, excNew := none }) s)

/-- TC_UNCHECKED follows whether the step's settling delay allows the check of R98: 308 ticks or longer. -/
def tcChecked (s : State) (n : Nat) (a b : Word) : State :=
  let h := n / 2
  if sbInput b = 0 ∧ modeOf s h (saCh a) = 11 then ainFlag h (saCh a) 8 (saSettle a < 308) s else s

/-- Converter `n` begins step `i` at an instant: gain, excitation, settling delay; `done` results stand already (R120). A step
that restarts keeps what its first result owes. -/
def beginStep (n : Nat) (inj : Bool) (i done : Nat) (t16 : Nat) (s : State) : State :=
  let h := n / 2
  let own := ownerOf s n
  let s := updHall h (fun x => { x with profile := sbExc (stepB s own inj i) }) (applyExc h s)
  let a := stepA s own inj i
  let g := stepGain s n inj i
  let s := updConv n (fun x => { x with
    phase := .settling, role := .flight, at16 := t16 + saSettle a * tick16, step := i, inj := inj, done := done
    gain := g, tcOpen := false, fresh := false, again := false, cycStart := inj && x.cycStart
    first := if x.again then x.first else true
    recovNext := if x.again then x.recovNext else x.ovrStep && decide (saSettle a ≤ 25) }) s
  tcChecked s n a (stepB s own inj i)

/-- The filter window of converter `n` opens at an instant (R117). -/
def openWindow (n : Nat) (t16 len : Nat) (s : State) : State :=
  updConv n (fun x => { x with phase := .window, open16 := t16, at16 := t16 + len }) s

/-- A window that opened at an instant began while WARMING held (R110). -/
def refSettling (s : State) (h open16 : Nat) : Bool :=
  let x := getHall s h
  match x.bufAt with
  | none => false
  | some b =>
    let o := localOfM s open16
    decide (16 * b ≤ o) && (x.warming || decide (o < 16 * x.warmEnd))

/-- The converter block that gives the step converter `n` has in progress; K0's for a shadow execution. -/
def stepOwner (s : State) (n : Nat) : Nat := if (getConv s n).role == .shadow then n / 2 * 2 else ownerOf s n

/-- Word A of the step converter `n` has in progress. -/
def nowA (s : State) (n : Nat) : Word := stepA s (stepOwner s n) (getConv s n).inj (getConv s n).step

/-- ODR of the window converter `n` opens next: of its step, or of a ladder point. -/
def windowOdr (s : State) (n : Nat) : Nat :=
  if (getConv s n).role == .ladder then bits (hcfg s (n / 2) (aRot (n / 2) 0)) 3 0 else saOdr (nowA s n)

/-- A result in progress is discarded and counted (R137). DESIGN CHOICE (log 39): in the block of the converter that was
producing it. -/
def discard (n : Nat) (s : State) : State := updConv n (fun x => { x with disc := (x.disc + 1) % 65536 }) s

/-- A window in progress is discarded, otherwise nothing is. -/
def discardOpen (n : Nat) (s : State) : State :=
  if (getConv s n).phase == .window || (getConv s n).phase == .blanked then discard n s else s

/-- Converter `n` leaves a shadow execution without a pair. -/
def leaveShadow (n : Nat) (s : State) : State :=
  if (getConv s n).role == .shadow then updConv n (fun x => { x with phase := .idle, role := .none }) (discardOpen n s) else s

/-- The shadow execution of a hall ends without a pair (R168): K1's, or K0's before a swap back. -/
def dropShadow (h : Nat) (s : State) : State :=
  updHall h (fun x => { x with rot := { x.rot with k0 := none, k1 := none } })
    (leaveShadow (2 * h + 1) (leaveShadow (2 * h) s))

/-- A ladder in progress ends with its rotation (R168). -/
def freeLadder (n : Nat) (s : State) : State :=
  if (getConv s n).role == .ladder then updConv n (fun x => { x with phase := .idle, role := .none }) (discardOpen n s) else s

/-! Words that wait in the hall (R116). -/

/-- The words of `next` that lie in a list of addresses take effect. -/
def takeNext (h : Nat) (l : List Nat) (s : State) : State :=
  l.foldl (fun u a => match (getHall u h).next.find? fun e => e.1 = a with
    | some e => updHall h (fun x => { x with next := x.next.filter fun y => y.1 ≠ a }) (setHcfg h a e.2 u)
    | none => u) s

/-- The addresses of block `n`'s flight, and of its injected sequence. -/
def flightRegs (n : Nat) : List Nat := aConv n 0 :: (List.range 0x20).map fun i => aConv n (0x10 + i)
def injRegs (n : Nat) : List Nat := aConv n 1 :: (List.range 8).map fun i => aConv n (0x30 + i)

/-! Injected sequences (R119 to R122). -/

/-- The shadow step in progress restarts by a FORCE, or an injected sequence abandons it: its execution gives no pair
(R168). -/
def forcedShadow (h : Nat) (s : State) : State :=
  let x := getConv s (2 * h)
  updHall h (fun y => { y with rot := { y.rot with
    forced := y.rot.forced || ((y.rot.phase = 1 || y.rot.phase = 4) && !x.inj && x.step = y.rot.step) } }) s

/-- The injected sequence of `n`'s flight starts at an instant: the flight step is abandoned (R120); at a boundary that ended a
flight step a swap may still take place (R122). -/
def startInjected (n : Nat) (t16 : Nat) (s : State) : State :=
  let x := getConv s n
  let t := discardOpen n (forcedShadow (n / 2) s)
  let t := updConv n (fun y => { y with
    inj := true, backStep := x.step, backDone := x.done, step := 0, done := 0, phase := .boundary, at16 := t16
    twice := false, fresh := x.fresh && x.phase == .boundary, again := false }) t
  dropShadow (n / 2) t

/-- A trigger takes effect at converter `n` (R119, R121, R127): it waits for the release of blanking, or becomes pending
while a sequence runs or the flight still owes a step, or is dropped, or starts the sequence. -/
def takeTrigger (n : Nat) (t16 : Nat) (s : State) : State :=
  let x := getConv s n
  let own := ownerOf s n
  if injLen s own = 0 ∨ x.role ≠ .flight then s
  else if x.inj || x.owed || (x.heldTrig && blankOn s (n / 2)) then
    if x.pend then raiseBit (rCvEvt own) 2 s else updConv n (fun y => { y with pend := true }) s
  else if blankOn s (n / 2) then updConv n (fun y => { y with heldTrig := true }) s
  else startInjected n t16 s

/-- A trigger reaches the sequencer at an instant; it takes effect at the first MODCLK/16 tick after it. -/
def addTrigger (n : Nat) (t16 : Nat) (s : State) : State :=
  updConv n (fun x => { x with trigs := x.trigs ++ [gridAfter t16] }) s

/-- Trigger source `b` of CV_INJ_CFG.TRIG fires for block `own` at an instant (R119): it reaches the converter that runs the
flight of that block, where one does. -/
def triggerBlock (own b t16 : Nat) (s : State) : State :=
  if trigOn s own b && ownerOf s (runnerOf s own) = own then addTrigger (runnerOf s own) t16 s else s

/-- Trigger source `b` fires for every block that enables it. -/
def triggerAll (b t16 : Nat) (s : State) : State := forN 16 (fun own t => triggerBlock own b t16 t) s

/-- INJECTED_SEQUENCE_START (R120): the oldest trigger takes effect. -/
def execInjectedSequenceStart (n : Conv) (s : State) : Host.Outcome State Fault Refusal :=
  match (getConv s n).trigs with
  | [] => done s
  | t16 :: rest =>
    done (takeTrigger n t16 (moveTo (localOfM s t16 / 16) (updConv n (fun x => { x with trigs := rest }) s)))

/-- A host trigger of converter block `n` (R119): CV_CTRL.INJ_GO with TRIG bit 11. -/
def injGoOp (n : Nat) (s : State) : State := triggerBlock n 11 (nowM s) s

/-! Flights start and stop. -/

/-- Converter `n` starts its flight at step 0 at the first tick from now. -/
def startFlight (n : Nat) (s : State) : State :=
  updConv n (fun x => { convReset with
    phase := .boundary, role := .flight, at16 := gridUp (nowM s), disc := x.disc, fifo := x.fifo, widx := x.widx
    wrap := x.wrap, autoGain := x.autoGain, lastGain := x.lastGain, lastOvr := x.lastOvr, fresh := true
    cycStart := true }) s

/-- The flight of block `own` may run: K0's always, K1's where rotation is disabled and neither converter is retired
(R114, R170). -/
def flightAllowed (s : State) (own : Nat) : Bool :=
  let x := getHall s (own / 2)
  flightLen s own ≠ 0 && (own % 2 = 0 || !(rotEn s (own / 2) || x.ret0 || x.ret1 || x.rot.onK1))

/-- A flight that may run and does not starts. -/
def startIdle (own : Nat) (s : State) : State :=
  if flightAllowed s own && (getConv s (runnerOf s own)).role != .flight then startFlight (runnerOf s own) s else s

/-- A hall may convert: configured, with MODCLK, and past its warm-up where EARLY_START is 0 (R35, R110). -/
def mayConvert (s : State) (h : Nat) : Bool :=
  let x := getHall s h
  x.up && x.active && s.clk.modclk && (!x.warming || bit (hcfg s h (aHall h 0x40)) 1)

/-- The flights of a hall start: K0's on K0, or on K1 while K0 is retired; K1's own where rotation is disabled (R35, R110,
R114, R170). After a configuration the first rotation falls due (R160). -/
def startFlights (h : Nat) (first : Bool) (s : State) : State :=
  let x := getHall s h
  if !mayConvert s h then s
  else
    let t := if x.running then s else updHall h (fun y => { y with
      running := true
      rot := { y.rot with
        onK1 := y.ret0, due := if first then true else y.rot.due, dueSeen := s.time.ring } }) s
    startIdle (2 * h + 1) (startIdle (2 * h) t)

/-! Settling (R117, R98). -/

/-- The local time at which the channel of the step in progress leaves mode 0 after a COMMIT that changed its mode (R31), or has
but one burden in circuit again (R375), for a window that opens at local time `t`. -/
def modeEnd (s : State) (n t : Nat) : Option Nat :=
  let x := getChan s (n / 2) (saCh (nowA s n))
  match x.newMode with
  | some m => some m.2
  | none => if x.mixFrom ≤ t && decide (t < x.mixed) then some x.mixed else none

/-- The end of the interval of R375 that the window of `n`'s result overlaps: opened at `open16`, complete at `t16`. -/
def mixedWindow (s : State) (n open16 t16 : Nat) : Option Nat :=
  let x := getChan s (n / 2) (saCh (nowA s n))
  if (getConv s n).role != .ladder && decide (localOfM s open16 < 16 * x.mixed) && decide (16 * x.mixFrom < localOfM s t16)
  then some x.mixed else none

/-- The step converter `n` has in progress restarts from its settling delay at an instant. -/
def restartAt (n t16 : Nat) (s : State) : State :=
  updConv n (fun y => { y with phase := .boundary, at16 := t16, fresh := false, again := true }) s

/-- SETTLING_END (R117): the window opens; during blanking it waits for the release (R125), and a window that would open while
its channel passes through mode 0 does not: the step restarts after it (R31). -/
def execSettlingEnd (n : Conv) (s : State) : Host.Outcome State Fault Refusal :=
  let x : ConvState := getConv s n
  if x.phase == .settling then
    let open_ := localOfM s x.at16 / 16
    let t := moveTo open_ s
    let late : Option Nat := match modeEnd t n open_ with
      | some e => if x.role != .ladder && decide (open_ < e) then some (gridAfter (modclkTime t (16 * e))) else none
      | none => none
    match late with
    | some r => done (if x.role == .flight then restartAt n r t else leaveShadow n t)
    | none =>
      if blankOn t (n / 2) then done (updConv n (fun y => { y with phase := .waiting }) t)
      else done (openWindow n x.at16 (tConv (windowOdr t n)) t)
  else done s

/-- The channel of the step a converter has in progress. -/
def stepCh (s : State) (n : Nat) : Nat := saCh (stepA s (ownerOf s n) (getConv s n).inj (getConv s n).step)

/-- TC_OPEN (R98): the check at the end of the first 100 µs of a settling delay of 308 ticks or more of a mode 11 step. -/
def execTcOpen (n : Conv) (high : Bool) (s : State) : Host.Outcome State Fault Refusal :=
  let x := getConv s n
  let a := stepA s (ownerOf s n) x.inj x.step
  let b := stepB s (ownerOf s n) x.inj x.step
  if x.phase == .settling && x.role == .flight && modeOf s (n / 2) (saCh a) == 11 && sbInput b == 0
      && 308 ≤ saSettle a then
    done (report (n / 2) (ainFlag (n / 2) (saCh a) 7 high (updConv n (fun y => { y with tcOpen := high }) s)))
  else done s

/-! Blanking (R125 to R127). -/

/-- Blanking begins for converter `n`: an open window cannot complete. -/
def blankConv (n : Nat) (s : State) : State :=
  updConv n (fun x => { x with phase := if x.phase == .window then .blanked else x.phase }) s

/-- The release for a converter's step (R125): a step whose window had opened, and every step in continuous mode, restarts from
its settling delay, a step that waited opens its window, each at the first tick; the shadow of a continuous step leaves, and joins again with
the restarted filter. -/
def releaseStep (n t16 : Nat) (s : State) : State :=
  let x := getConv s n
  let cont := x.role == .flight && !x.inj && saCont (nowA s n)
  let lone := x.role == .shadow && saCont (nowA s n)
  match x.phase with
  | .blanked =>
    match x.role with
    | .ladder => updConv n (fun y => { y with phase := .settling, at16 := t16 + 100 * tick16 }) (discard n s)
    | .shadow => updConv n (fun y => { y with phase := .idle, role := .none }) (discard n s)
    | _ => restartAt n t16 (discard n s)
  | .waiting =>
    if cont then restartAt n t16 s else if lone then leaveShadow n s else openWindow n t16 (tConv (windowOdr s n)) s
  | .settling => if cont then restartAt n t16 s else if lone then leaveShadow n s else s
  | _ => s

/-- The release for converter `n`: its step, then a trigger that waited, which starts its sequence before the restarted step,
and the end-of-blanking trigger of its flight (R125, R127). DESIGN CHOICE (log 74): a step that waited opens its window at the
release, and a trigger that waited abandons it there: DISC_CNT counts that window. -/
def unblankConv (n : Nat) (t16 : Nat) (s : State) : State :=
  let x := getConv s n
  let own := ownerOf s n
  let s := updConv n (fun y => { y with heldTrig := false }) (releaseStep n t16 s)
  let s := if x.heldTrig then takeTrigger n t16 s else s
  if trigOn s own 8 && x.role == .flight then takeTrigger n t16 s else s

/-- Both converters of a hall after a change of what blanks it. DESIGN CHOICE (log 40): the end-of-blanking trigger fires where
the hall resumes conversion, at BLANK_STUCK as at a release, and not again at the later release of the input it ignores. -/
def afterBlank (h : Nat) (before : Bool) (s : State) : State :=
  let after := blankOn s h
  if before = after then s
  else if after then blankConv (2 * h + 1) (blankConv (2 * h) s)
  else
    let t16 := gridUp (nowM s)
    unblankConv (2 * h + 1) t16 (unblankConv (2 * h) t16 s)

/-- BLANK_ASSERT (R125): the instant from which BLANK_MAX counts is kept (R126). -/
def execBlankAssert (h : Hall) (input : Fin 2) (s : State) : Host.Outcome State Fault Refusal :=
  if (getHall s h).up then
    let b := blankOn s h
    let t := updHall h (fun x =>
      if input = 0 then { x with blank0 := true, blankAt0 := if x.blank0 then x.blankAt0 else s.time.now }
      else { x with blank1 := true, blankAt1 := if x.blank1 then x.blankAt1 else s.time.now }) s
    done (report h (afterBlank h b t))
  else done s

/-- BLANK_RELEASE (R125, R126): BLANK_STUCK of the input clears. -/
def execBlankRelease (h : Hall) (input : Fin 2) (s : State) : Host.Outcome State Fault Refusal :=
  if (getHall s h).up then
    let b := blankOn s h
    let t := updHall h (fun x =>
      if input = 0 then { x with blank0 := false, stuck0 := false }
      else { x with blank1 := false, stuck1 := false }) s
    done (report h (afterBlank h b t))
  else done s

/-- HALL_SEQ_CFG.BLANK_MAX in ns: units of 0.1 ms, 1 to 10,000 (R144). -/
def blankMax (s : State) (h : Nat) : Nat := clampNat 1 10000 (bits (hcfg s h (aHall h 0x42)) 29 16) * 100000

/-- BLANK_STUCK (R126): a selected input has stayed asserted for BLANK_MAX; the hall resumes as if released and ignores the
input until its release. -/
def execBlankStuck (h : Hall) (input : Fin 2) (s : State) : Host.Outcome State Fault Refusal :=
  let x := getHall s h
  let sel := bits (hcfg s h (aHall h 0x42)) 1 0
  let acts := if input = 0 then x.blank0 && !x.stuck0 && (sel = 1 || sel = 3)
    else x.blank1 && !x.stuck1 && (sel = 2 || sel = 3)
  if x.up && acts then
    let s := moveTo ((if input = 0 then x.blankAt0 else x.blankAt1) + blankMax s h) s
    let b := blankOn s h
    let t := updHall h (fun y => if input = 0 then { y with stuck0 := true } else { y with stuck1 := true }) s
    let t := raiseBit (rCvEvt (2 * h + 1)) 4 (raiseBit (rCvEvt (2 * h)) 4 t)
    done (report h (afterBlank h b t))
  else done s

/-! FORCE (R91) and mode changes (R31). -/

/-- The step converter `n` has in progress restarts from its settling delay at an instant; its result is discarded. -/
def restartStep (n : Nat) (t16 : Nat) (s : State) : State :=
  let x := getConv s n
  if x.role == .flight && x.phase != .idle && x.phase != .boundary then restartAt n t16 (discardOpen n s) else s

/-- A write of HALL_EXC_CTRL.FORCE (R91): with a change pending it applies at once and every step in progress in the hall
restarts. -/
def forceExc (h : Nat) (s : State) : State :=
  let x := getHall s h
  if x.up && x.excNew.isSome then
    let t := applyExc h s
    let r := gridAfter (nowM t)
    let t := dropShadow h (restartStep (2 * h + 1) r (restartStep (2 * h) r (forcedShadow h t)))
    report h (updHall h (fun y => { y with excEvt := y.excEvt ||| bitMask 7 }) t)
  else s

/-- Every window of the hall on channel `c` that opened, or would open, before `before` is discarded, and its step restarts at
an instant (R31, R375). -/
def restartChannel (h c before t16 : Nat) (s : State) : State :=
  let f := fun n t =>
    let x : ConvState := getConv t n
    if x.role != .ladder && saCh (nowA t n) == c
        && ((x.phase == .window && decide (x.open16 < before)) || (x.phase == .settling && decide (x.at16 < before))) then
      if x.role == .flight then restartAt n t16 (discardOpen n t) else dropShadow h t
    else t
  f (2 * h + 1) (f (2 * h) s)

/-- A channel in mode 0: its terminals are open and the conditions of its mode are gone (R31, log 16). -/
def chanOff (h c : Nat) (s : State) : State :=
  updChan h c (fun x => { chanReset with
    cmd := x.cmd, held := x.cmd, evt := x.evt, ainEvt := x.ainEvt, pcnt := x.pcnt, plast := x.plast, pper := x.pper, pstep := x.pstep
    delivN := x.delivN
    level := x.level }) s

/-- The mode a channel takes, a shared one in the form of the device's role (R373), with the risk flags a sag gives it (R61) and
its output state (R55); the latest command stays (R57). -/
def takeMode (h c m : Nat) (s : State) : State :=
  let idle := idleForm s h c
  let t := updChan h c (fun x => { x with
    mode := if idle && (m = 5 || m = 6) then 17 else m, newMode := none, cmd := min x.cmd (cmdMax m)
    held := min x.cmd (cmdMax m), idleOut := idle && isOutMode m }) s
  resolve h c (riskOf h c t)

/-- MODE_CHANGE_APPLY (R31): the new mode after 100 µs in mode 0. -/
def execModeChangeApply (h : Hall) (ch : Chan) (s : State) : Host.Outcome State Fault Refusal :=
  match (getChan s h ch).newMode with
  | none => done s
  | some (m, t0) =>
    if (getHall s h).up then
      let t := takeMode h ch m (moveTo t0 s)
      done (report h (restartChannel h ch (modclkTime t (16 * t0)) (gridAfter (max (modclkTime t (16 * t0)) (nowM t))) t))
    else done s

end Sys2Proof.Machine
end

