-- ==== Sys2Proof/Machine/Rotation.lean ====
section
/-! DEFINITION. The landing rotation: shadow, swap, self-check, swap back, verdicts and retirement (R160 to R172). -/

namespace Sys2Proof.Machine

/-- The rotation of hall `h` mapped by `f`. -/
def updRot (h : Nat) (f : RotSt → RotSt) (s : State) : State := updHall h (fun x => { x with rot := f x.rot }) s

/-- The rotation of hall `h`. -/
def getRot (s : State) (h : Nat) : RotSt := (getHall s h).rot

/-- ROT_CFG as the hall holds it. -/
def rotW (s : State) (h : Nat) : Word := hcfg s h (aRot h 0)
/-- P in ns (R175). -/
def rotP (s : State) (h : Nat) : Nat := clampNat 1 3600 (bits (rotW s h) 27 16) * 1000000000
/-- SHADOW_CYC, at least 1. -/
def shadowCyc (s : State) (h : Nat) : Nat := max (bits (rotW s h) 15 8) 1
/-- LADDER_ODR. -/
def ladderOdr (s : State) (h : Nat) : Nat := bits (rotW s h) 3 0

/-- A ROT_EVT bit kept for the report. -/
def rotEvent (h i : Nat) (s : State) : State := updHall h (fun x => { x with rotEvt := x.rotEvt ||| bitMask i }) s

/-! The ladder (R165, R166). -/

/-- A gain, log2, that some flight step of K0's flight can use. -/
def gainUsed (s : State) (h g : Nat) : Bool :=
  (List.range (flightLen s (2 * h))).any fun i =>
    let a := stepA s (2 * h) false i
    let b := stepB s (2 * h) false i
    let m := modeOf s h (saCh a)
    match (if sbInput b = 0 then fixedGain m (chSensW s h (saCh a)) else none) with
    | some f => f == g
    | none => if autoActs m a b then g ≤ saGain a else saGain a == g

/-- The points of a ladder in order: ZERO, +FS and -FS at each gain used, ascending, then RATIO. -/
def ladderPoints (s : State) (h : Nat) : List (Nat × Nat) :=
  ((List.range 8).filter (gainUsed s h)).flatMap (fun g => [(1, g), (2, g), (3, g)]) ++ [(4, 0)]

/-- Converter `n` begins a ladder at an instant. -/
def startLadder (n t16 : Nat) (s : State) : State :=
  let h := n / 2
  let t := updRot h (fun r => { r with ladder := ladderPoints s h, bad := false, worst := 0, worstDev := 0 }) s
  updConv n (fun x => { x with
    role := .ladder, phase := .settling, at16 := t16 + 100 * tick16, inj := false, step := 0, done := 0
    first := true, recovNext := false, again := false, gain := ((ladderPoints s h).headD (4, 0)).2 }) t

/-- The limit of a ladder point in codes: ZERO 17,179, ±FS 42,949. -/
def pointLimit (vsrc : Nat) : Nat := if vsrc = 1 then 17179 else 42949

/-- A deviation in codes as 0.01 ppm of full-scale range, saturating at 24 bits (R175). DESIGN CHOICE (log 41): rounded down. -/
def devWord (d : Nat) : Nat := min (d * 100000000 / 2 ^ 32) 0xFFFFFF

/-- A point other than RATIO judged against its factory value (R166); the largest deviation is kept for ROT_LADDER. -/
def judgePoint (n vsrc gain : Nat) (code : Int) (s : State) : State :=
  let d := (code - Config.factory n vsrc gain).natAbs
  updRot (n / 2) (fun r => { r with
    bad := r.bad || pointLimit vsrc < d
    worstDev := max r.worstDev d
    worst := if r.worst = 0 ∨ r.worstDev < d then
        BitVec.ofNat 32 (vsrc * 2 ^ 29 + (n % 2) * 2 ^ 28 + gain * 2 ^ 25 + devWord d)
      else r.worst }) s

/-- RATIO judged (R171): outside 15 ppm of its factory value sets REF_DISAGREE and its event, within 12 ppm clears it. DESIGN
CHOICE (log 41): ROT_RATIO.DEV is rounded toward zero. -/
def judgeRatio (n : Nat) (code : Int) (s : State) : State :=
  let h := n / 2
  let f := Config.factory n 4 0
  let d := code - f
  let out := 15 * f.natAbs < d.natAbs * 1000000
  let t := updRot h (fun r => { r with
    ratio := (d * 100000000).tdiv f
    refDis := if out then true else if d.natAbs * 1000000 ≤ 12 * f.natAbs then false else r.refDis }) s
  if out then rotEvent h 2 t else t

/-! Verdicts (R169, R170). -/

/-- A converter is retired and the rotation ends: RETIRE_EVT; the flight stays where the hall runs it. -/
def retire (n : Nat) (s : State) : State :=
  let h := n / 2
  let t := updHall h (fun x => if n % 2 = 0 then { x with ret0 := true, kept0 := true } else { x with ret1 := true, kept1 := true }) s
  let t := updRot h (fun r => { r with phase := 0, due := false, swap := false, back := false, ladder := [] }) t
  let t := updConv n (fun x => if x.role == .flight then x else { x with phase := .idle, role := .none }) t
  rotEvent h 1 t

/-- A ladder failed: LADDER_FAIL with its event. -/
def ladderFailed (h : Nat) (s : State) : State :=
  rotEvent h 3 (updRot h (fun r => { r with ladderFail := true, anyBad := true }) s)

/-- The first result instant of a continuous step at or after which both the filter of the joining converter, started at `t16`
or later, and the results still owed after a sequence are complete. DESIGN CHOICE (log 74): at the end of a ladder that is the
first result instant for which the filter can still start t_CONV before it: `t16` now, `x` the converter that runs the step (R122,
R161, R167). -/
def joinInstant (s : State) (h : Nat) (x : ConvState) (t16 : Nat) : Nat :=
  let a := stepA s (2 * h) false x.step
  let p := odrPeriod (saOdr a)
  let k := max (sbRepeat (stepB s (2 * h) false x.step)) 1
  let owed := if x.swapWait then x.at16 + (k - 1 - x.owedCnt) * p else x.at16
  let need := max owed (t16 + tConv (saOdr a))
  x.at16 + (need - x.at16 + p - 1) / p * p

/-- Converter `n` starts its filter t_CONV before the result instant it is to share with `x`: now, or when that instant
comes. -/
def joinAt (n h : Nat) (x : ConvState) (inst : Nat) (s : State) : State :=
  let o := inst - tConv (saOdr (stepA s (2 * h) false x.step))
  let wait := nowM s < o
  updConv n (fun y => { y with
    role := .shadow, phase := if wait then .settling else .window, open16 := o, at16 := if wait then o else inst
    gain := x.gain, inj := false, step := x.step, done := 0, first := true, recovNext := false, again := false }) s

/-- The flight on K1 is to go back to K0: a swap back is due, or K0 was returned to service (R167, R170, log 17). -/
def wantsBack (s : State) (h : Nat) : Bool :=
  let r := getRot s h
  r.onK1 && (r.back || (r.phase == 0 && !(getHall s h).ret0))

/-- In continuous mode K0 joins K1's results for the way back, where neither a sequence nor blanking stands in the way. -/
def joinBack (h t16 : Nat) (s : State) : State :=
  let x := getConv s (2 * h + 1)
  if wantsBack s h && saCont (stepA s (2 * h) false x.step) && !x.inj && x.role == .flight && x.phase == .window
      && (getConv s (2 * h)).role == .none then
    joinAt (2 * h) h x (joinInstant s h x t16) s
  else s

/-- The swap back falls due (R167). -/
def wantBack (h t16 : Nat) (s : State) : State :=
  let t := updRot h (fun r => { r with phase := 3, back := true, k0 := none, k1 := none }) s
  joinBack h t16 (updConv (2 * h) (fun x => { x with phase := .idle, role := .none }) t)

/-- The verdict when converter `n` has converted every ladder point (R166, R169). -/
def ladderVerdict (n t16 : Nat) (s : State) : State :=
  let h := n / 2
  let r := getRot s h
  if r.bad then
    let t := ladderFailed h s
    match r.phase with
    | 2 => if r.ladderTwice then retire n t
        else startLadder n t16 (updRot h (fun q => { q with ladderTwice := true }) t)
    | _ => retire n t
  else
    match r.phase with
    | 5 => updConv n (fun x => { x with phase := .idle, role := .none })
        (updRot h (fun q => { q with swap := true, arbitrate := true }) s)
    | _ => wantBack h t16 s

/-- A ladder point's result: judged, then the next point or the verdict. -/
def ladderResult (n : Nat) (code : Int) (t16 : Nat) (s : State) : State :=
  let h := n / 2
  match (getRot s h).ladder with
  | [] => s
  | (v, g) :: rest =>
    let t := if v = 4 then judgeRatio n code s else judgePoint n v g code s
    let t := updRot h (fun r => { r with ladder := rest }) t
    match rest with
    | [] => ladderVerdict n t16 t
    | (_, g') :: _ =>
      updConv n (fun x => { x with phase := .settling, at16 := t16 + 100 * tick16, gain := g' }) t

/-! The shadow phase (R160 to R163). -/

/-- A shadow phase begins. -/
def beginShadow (h phase : Nat) (s : State) : State :=
  updRot h (fun r => { r with
    phase := phase, cycles := 0, pairs := 0, sum := 0, seen := false, forced := false, k0 := none, k1 := none }) s

/-- A rotation starts at the first boundary of its shadow step at or after its due time (R160). -/
def startRotation (h : Nat) (s : State) : State :=
  let n := (getRot s h).count
  beginShadow h 1 (updRot h (fun r => { r with
    due := false, count := (n + 1) % 2 ^ 32, step := n % max (flightLen s (2 * h)) 1, failedOnce := false
    ladderTwice := false, arbitrate := false, swap := false, back := false, anyBad := false }) s)

/-- The shadow step of the rotation that is due. -/
def dueStep (s : State) (h : Nat) : Nat := (getRot s h).count % max (flightLen s (2 * h)) 1

/-- A rotation may start: enabled, due, none running, both converters in service, flight on K0. -/
def mayRotate (s : State) (h : Nat) : Bool :=
  let x := getHall s h
  rotEn s h && x.rot.due && x.rot.phase == 0 && !x.ret0 && !x.ret1 && !x.rot.onK1

/-- The shadow has its pairs: D rounded toward zero passes within 85,899 codes; a first failure repeats the phase, a
second sends K1 to the ladder (R162, R169). -/
def shadowVerdict (h t16 : Nat) (s : State) : State :=
  let r := getRot s h
  let d := r.sum.tdiv (r.pairs : Int)
  let t := updRot h (fun q => { q with dMean := d }) s
  let t := updConv (2 * h + 1) (fun x => { x with phase := .idle, role := .none }) t
  if d.natAbs ≤ 85899 then updRot h (fun q => { q with swap := true }) t
  else
    let t := rotEvent h 4 t
    if r.failedOnce then startLadder (2 * h + 1) t16 (updRot h (fun q => { q with phase := 5 }) t)
    else beginShadow h 4 (updRot h (fun q => { q with failedOnce := true }) t)

/-- Both results of an instant are in: a pair is counted when both are clean (R161). -/
def pairCheck (h : Nat) (s : State) : State :=
  let r := getRot s h
  match r.k0, r.k1 with
  | some (t0, c0, g0), some (t1, c1, g1) =>
    if t0 ≠ t1 then s
    else
      let t := updRot h (fun q => { q with
        k0 := none, k1 := none
        pairs := if g0 && g1 then q.pairs + 1 else q.pairs
        sum := if g0 && g1 then q.sum + (c1 - c0) else q.sum }) s
      if (getRot t h).pairs = shadowCyc t h && g0 && g1 then shadowVerdict h t0 t else t
  | _, _ => s

/-- A clean result for R161: no OVR, RECOV, RANGE_CHG or REF_SETTLING. -/
def cleanTag (w : Word) : Bool := !(bit w 31 || bit w 30 || bit w 29 || bit w 28)

/-- K1 joins the shadow step that K0 begins (R161), on the same timing; a step begun again in its cycle is the same cycle's,
and one that a FORCE restarted gives no pair (R162, R168). -/
def joinShadow (h : Nat) (s : State) : State :=
  let x := getConv s (2 * h)
  let r := getRot s h
  let a := stepA s (2 * h) false x.step
  if (r.phase = 1 ∨ r.phase = 4) ∧ !r.swap ∧ !x.inj ∧ x.step = r.step ∧ x.phase == .settling ∧ !saCont a then
    let cyc := if r.seen then r.cycles else r.cycles + 1
    if 4 * shadowCyc s h < cyc then rotAbandon h (dropShadow h s)
    else
      let t := updRot h (fun q => { q with cycles := cyc, seen := true, k0 := none, k1 := none }) s
      if r.forced then t
      else updConv (2 * h + 1) (fun y => { y with
        role := .shadow, phase := .settling, at16 := x.at16, step := x.step, inj := false, done := x.done
        gain := x.gain, first := true, again := false, recovNext := y.ovrStep && decide (saSettle a ≤ 25) }) t
  else s

/-- In continuous mode K1 starts its filter t_CONV before a result instant of K0 (R161). -/
def joinContinuous (h t16 : Nat) (s : State) : State :=
  let x := getConv s (2 * h)
  let r := getRot s h
  if saCont (stepA s (2 * h) false x.step) && (r.phase == 1 || r.phase == 4) && !r.swap && !x.inj && x.phase == .window
      && (getConv s (2 * h + 1)).role == .none then
    joinAt (2 * h + 1) h x (joinInstant s h x t16) s
  else s

/-! Swaps (R163, R164, R167). -/

/-- The flight moves from converter `a` to converter `b` as it stands; each keeps what is its own. -/
def moveFlight (a b : Nat) (s : State) : State :=
  let x := getConv s a
  let t := updConv b (fun y => { x with
    disc := y.disc, fifo := y.fifo, widx := y.widx, wrap := y.wrap, lastOvr := y.lastOvr, ovrStep := y.ovrStep
    autoGain := y.autoGain, lastGain := y.lastGain, newFlight := y.newFlight, cycled := y.cycled }) s
  updConv a (fun y => { y with
    phase := .idle, role := .none, inj := false, pend := false, twice := false, owed := false, heldTrig := false
    trigs := [], fresh := false, swapWait := false }) (updConv b (fun y => { y with swapWait := false }) t)

/-- The swap: K1 runs the flight, K0 converts the ladder (R163, R165). -/
def swapToK1 (h t16 : Nat) (s : State) : State :=
  let r := getRot s h
  let t := moveFlight (2 * h) (2 * h + 1) s
  let t := updRot h (fun q => { q with onK1 := true, swap := false, phase := if r.arbitrate then 6 else 2 }) t
  startLadder (2 * h) t16 t

/-- The swap back completes the rotation (R167); after an arbitration that both ladders passed it leaves UNRESOLVED and
retires K1 (R169). -/
def swapBack (h t16 : Nat) (s : State) : State :=
  let r := getRot s h
  let t := moveFlight (2 * h + 1) (2 * h) s
  let ring := ringOf t (localOfM t t16 / 16)
  let t := updRot h (fun q => { q with
    onK1 := false, back := false, phase := 0, done := true, last := ring, since := t.time.now, overdue := false
    ladderFail := if q.anyBad then q.ladderFail else false
    unresolved := if r.arbitrate then true else if q.unret1 then false else q.unresolved
    unret1 := false }) t
  let t := rotEvent h 6 t
  if r.arbitrate then retire (2 * h + 1) (if r.unresolved then t else rotEvent h 0 t) else t

/-- K0, returned to service, takes its flight back (R170, log 17), and K1 may run its own again (R114). -/
def takeBack (h : Nat) (s : State) : State :=
  startIdle (2 * h + 1) (updRot h (fun q => { q with onK1 := false }) (moveFlight (2 * h + 1) (2 * h) s))

/-- Rotation disabled while K1 runs K0's flight: the rotation is abandoned and the flight goes back to K0, its step in
progress restarted there (R114). DESIGN CHOICE (log 42): at once, or, where K1 runs an injected sequence, as a swap that falls due in it
(R122). -/
def rotDisabled (h : Nat) (s : State) : State :=
  let x := getHall s h
  let t := freeLadder (2 * h + 1) (freeLadder (2 * h) (dropShadow h s))
  let later := x.rot.onK1 && !x.ret0 && (getConv t (2 * h + 1)).inj
  let t := if later then t else if x.rot.onK1 && !x.ret0 then
      let t := updConv (2 * h) (fun y => { y with phase := .idle, role := .none }) t
      moveFlight (2 * h + 1) (2 * h) (restartStep (2 * h + 1) (gridUp (nowM t)) t)
    else updConv (2 * h + 1) (fun y => if y.role == .flight then y else { y with phase := .idle, role := .none }) t
  updRot h (fun r => { r with overdue := false, onK1 := r.onK1 || later }) (rotAbandon h t)

/-- The flight on the converter that is to run the next step, after a swap or swap back due at this boundary (R122, R163,
R167); K0 returned to service takes its flight back (R170, log 17). The answer names that converter. -/
def swapAt (n t16 : Nat) (s : State) : Nat × State :=
  let h := n / 2
  let x := getConv s n
  let r := getRot s h
  if !x.fresh then (n, s)
  else if n % 2 = 0 && r.swap then (n + 1, swapToK1 h t16 s)
  else if n % 2 = 1 && r.onK1 && r.back && (getConv s (n - 1)).role != .shadow then (n - 1, swapBack h t16 s)
  else if n % 2 = 1 && r.onK1 && r.phase = 0 && !(getHall s h).ret0 then
    (n - 1, takeBack h s)
  else (n, s)

/-! The commands of the rotation. -/

/-- The first instant k P + h P/8 of ring time after `t` (R160). -/
def dueAfter (s : State) (h t : Nat) : Nat :=
  let p := rotP s h
  let o := h * (p / 8)
  if t < o then o else o + ((t - o) / p + 1) * p

/-- The next due instant to be taken: the first one after the last taken, within the last P where ring time was stepped. -/
def nextDue (s : State) (h : Nat) : Nat :=
  let seen := (getRot s h).dueSeen
  dueAfter s h (if seen ≤ s.time.ring then max seen (s.time.ring - rotP s h) else s.time.ring)

/-- ROTATION_DUE (R160): the next due instant comes. -/
def execRotationDue (h : Hall) (s : State) : Host.Outcome State Fault Refusal :=
  if rotEn s h then
    let d := nextDue s h
    done (updRot h (fun r => { r with due := true, dueSeen := d }) (moveTo (localOf s d) s))
  else done s

/-- ROT_NOW (R160): a rotation is due at once. -/
def rotNowOp (h : Nat) (s : State) : State := if rotEn s h then updRot h (fun r => { r with due := true }) s else s

/-- UNRETIRE_K0 or UNRETIRE_K1 (R170): the converter is in service again, K1 with a flight of its own where it has one (R114),
and a rotation is due at once. -/
def unretireOp (h k : Nat) (s : State) : State :=
  let t := updHall h (fun x =>
    if k = 0 then { x with ret0 := false, kept0 := false, rot := { x.rot with due := true } }
    else { x with ret1 := false, kept1 := false, rot := { x.rot with due := true, unret1 := true } }) s
  let t := if (getHall t h).running then startIdle (2 * h + 1) t else t
  report h (joinBack h (nowM s) t)

/-- OVERDUE (R172): no rotation has completed for 2 P, counted from the last completion or the configuration. -/
def execOverdue (h : Hall) (s : State) : Host.Outcome State Fault Refusal :=
  if rotEn s h && (getHall s h).active then
    done (report h (updRot h (fun r => { r with overdue := true })
      (moveTo ((getRot s h).since + 2 * rotP s h) s)))
  else done s

/-- ROT_STAT (R175). -/
def rotStat (s : State) (h : Nat) : Word :=
  let x := getHall s h
  BitVec.ofNat 32 (x.rot.pairs % 256 * 2 ^ 24 + dueStep s h * 2 ^ 20 + vstate s h * 2 ^ 16
    + b2n (x.ret0 || x.ret1) * 4096 + b2n x.rot.unresolved * 2048 + b2n x.rot.ladderFail * 1024
    + b2n x.rot.refDis * 512 + b2n x.rot.overdue * 256 + b2n x.ret1 * 32 + b2n x.ret0 * 16 + x.rot.phase % 8)

end Sys2Proof.Machine
end

