-- ==== Sys2Proof/Machine/Converter.lean ====
section
/-! DEFINITION. Step boundaries and results: tags, overrange, windows, the pulsation path, and the order of steps (R113 to
R137, R155 to R159). -/

namespace Sys2Proof.Machine

/-! The pulsation path (R155 to R158). -/

/-- 2π × 2^128, rounded down. -/
def twoPi128 : Nat := 2138057168129933495719360746323741566601

/-- f_C in mHz by PULS_CFG.FC (R175). -/
def fcMilli (code : Nat) : Nat := [10, 20, 50, 100, 200, 500, 1000, 2000, 5000, 10000].getD code 10000
/-- τ in ms by PULS_CFG.TAU. -/
def tauMs (code : Nat) : Nat := [100, 200, 500, 1000, 2000, 5000, 10000].getD code 10000

/-- 2π f_C T × 2^128 for T in 1/16 ns. -/
def fcT (fc t16 : Nat) : Nat := twoPi128 * fcMilli fc * t16 / 16000000000000

/-- T / τ × 2^128 for T in 1/16 ns. -/
def tOverTau (tau t16 : Nat) : Nat := 2 ^ 128 * t16 / (tauMs tau * 16000000)

/-- Terms k to k + n - 1 of the alternating series of 1 - exp(-x), x and the term scaled by 2^128. -/
def expSeries (x : Nat) : Nat → Nat → Nat → Int
  | 0, _, _ => 0
  | n + 1, k, term =>
    let t : Nat := term * x / 2 ^ 128 / k
    (if k % 2 = 1 then (t : Int) else -(t : Int)) + expSeries x n (k + 1) t

/-- 1 - exp(-x) rounded to a multiple of 2^-32, as that multiple (R156). DESIGN CHOICE (log 43): to the nearest, a tie up. -/
def oneMinusExp (x : Nat) : Nat := ((expSeries x 40 1 (2 ^ 128) + 2 ^ 95) / 2 ^ 96).toNat

/-- A multiple of 2^-32 in binary64. -/
def xof32nd (n : Nat) : Ext := xenc (.fin false n (-32))

/-- The nominal interval T of a path fed by step `a` of flight `own` (R155). -/
def pulsT (s : State) (own : Nat) (a : Word) : Nat := if saCont a then odrPeriod (saOdr a) else cycleTime s own

/-- The `n` results taken so far do not yet span 5 / (2π f_C) + 3τ (R158). DESIGN CHOICE (log 44): their span is (n - 1) T, from
the first to the last. -/
def pulsUnsettled (n fc tau t16 : Nat) : Bool :=
  let span := (n - 1) * t16
  decide (span * fcT fc t16 < (5 * t16 * 2 ^ 128) + 3 * (tauMs tau * 16000000) * fcT fc t16)

/-- A result taken by the path (R156). DESIGN CHOICE (log 74): a and b are those of the cycle time in effect at the result, which
a COMMIT to another step of the flight changes without a reset of the path. -/
def pulsTake (s : State) (own h c : Nat) (a : Word) (code : Word) : State :=
  let w := hcfg s h (aRot h (0x10 + c))
  let t16 := pulsT s own a
  let frozen := bit (hcfg s h (aRot h 0x14)) c
  let ca := xof32nd (oneMinusExp (fcT (bits w 3 0) t16))
  let cb := xof32nd (oneMinusExp (tOverTau (bits w 11 8) t16))
  let y := getChan s h c
  let x := xint (sval code)
  let e := xsub x y.pulsM
  let m := if y.pulsN = 0 then x else if frozen then y.pulsM else xadd y.pulsM (xmul ca e)
  let q := if y.pulsN = 0 then 0 else xadd y.pulsS (xmul cb (xsub (xmul e e) y.pulsS))
  updChan h c (fun z => { z with
    pulsN := y.pulsN + 1, pulsM := m, pulsS := q, pulsSkip := false, pulsP := x32 (xsqrt q), pulsMean := x32 m
    pulsSettling := pulsUnsettled (y.pulsN + 1) (bits w 3 0) (bits w 11 8) t16 }) s

/-- The path meets a result: taken, or skipped by its tag (R157). -/
def pulsResult (s : State) (own h c : Nat) (a tag code : Word) : State :=
  if !bit (hcfg s h (aRot h (0x10 + c))) 31 then s
  else if bit tag 31 || bit tag 30 || bit tag 29 || bit tag 28 || bit tag 27 || bit tag 26 then
    updChan h c (fun z => { z with pulsSkip := true }) s
  else pulsTake s own h c a code

/-! Window comparators (R128 to R130). -/

/-- Word `off` of window `w` of hall `h` (K0's block). -/
def aWin (h w off : Nat) : Nat := aConv (2 * h) (0x38 + 4 * w + off)

/-- A comparator's WIN_STAT, which the hall holds (R14). -/
def winStat (s : State) (h w : Nat) : Word := (getHall s h).win.getD w 0

/-- A comparator's WIN_STAT set. -/
def setWin (h w : Nat) (v : Word) (s : State) : State := updHall h (fun x => { x with win := x.win.set w v }) s

/-- A comparator leaves its band (R129): exit event, count, side, and the selected actions. -/
def winExit (h w : Nat) (high : Bool) (code : Word) (n t16 : Nat) (s : State) : State :=
  let cfg := hcfg s h (aWin h w 2)
  let st := winStat s h w
  let t := setWin h w (putBits (putBits (putBit st 0 true) 1 1 (b2n high)) 31 16 (bits st 31 16 + 1)) s
  let t := raiseBit (rCvEvt (2 * h)) (8 + w) t
  let t := if bit cfg 31 then bbEvent (if high then 0x31 else 0x30) (4 * (2 * h) + w) code.toNat t else t
  if bit cfg 30 then addTrigger n t16 t else t

/-- A comparator evaluates a result's code (R128). -/
def winEval (h w : Nat) (code : Word) (n t16 : Nat) (s : State) : State :=
  let c := sval code
  let hi := sval (hcfg s h (aWin h w 0))
  let lo := sval (hcfg s h (aWin h w 1))
  let hyst : Int := bits (hcfg s h (aWin h w 2)) 27 0
  let st := winStat s h w
  if !bit st 0 then
    if hi < c ∨ c < lo then winExit h w (hi < c) code n t16 s else s
  else if lo + hyst ≤ c ∧ c ≤ hi - hyst then
    let t := raiseBit (rCvEvt (2 * h)) (12 + w) (setWin h w (putBit st 0 false) s)
    if bit (hcfg s h (aWin h w 2)) 31 then bbEvent 0x32 (4 * (2 * h) + w) code.toNat t else t
  else if hi < c ∨ c < lo then setWin h w (putBits st 1 1 (b2n (decide (hi < c)))) s
  else s

/-! The code and the tag of a result. -/

/-- The code by R107, R131 and R146 of a window at a rate: an open sensor gives positive overrange (R100). -/
def resultCode (x : Sample) (odr : Nat) (cont openLead : Bool) : Word × Bool :=
  if openLead then (0x7FFFFFFF, true)
  else match x.ovr with
    | some (pos, _) => (if pos then 0x7FFFFFFF else 0x80000000, true)
    | none =>
      let c := chainCode odr cont x.stream
      if 2147483646 < c then (0x7FFFFFFF, true)
      else if c < -2147483647 then (0x80000000, true)
      else (ofInt c, false)

/-- A source of the profile in effect drives a terminal of channel `c` (R90). -/
def drives (s : State) (h c : Nat) (second : Bool) : Bool :=
  let p := (getHall s h).exc.getD (getHall s h).profile 0
  if second then bits p 23 20 ≠ 0 && bits p 19 18 = c else bits p 15 12 ≠ 0 && bits p 11 10 = c

/-- The compliance flags of the current sources (R89): a terminal above 10.5 V during the step. -/
def complFlags (h : Nat) (x : Sample) (s : State) : State := excFlag h 3 x.compl0 (excFlag h 4 x.compl1 s)

/-- An RTD mode. -/
def isRtdMode (m : Nat) : Bool := m == 8 || m == 9 || m == 10

/-- The open flags of an RTD channel's result with INPUT 0 (R100): element or excitation lead, sense lead. -/
def openFlags (h c : Nat) (x : Sample) (s : State) : State :=
  let m := modeOf s h c
  if isRtdMode m then
    let op := (x.compl0 && drives s h c false) || (x.compl1 && drives s h c true)
    ainFlag h c 5 (!op && x.leadOpen && m ≠ 8) (ainFlag h c 4 op s)
  else s

/-- The result of a channel with INPUT 0 gives positive overrange: an open element or lead (R100). -/
def openResult (s : State) (h c : Nat) : Bool :=
  isRtdMode (modeOf s h c) && (bit (getChan s h c).ain 4 || bit (getChan s h c).ain 5)

/-- SENSOR_SHORT and CURVE_RANGE of a result with INPUT 0, from its code and gain (R100, R102). -/
def codeFlags (h c : Nat) (code : Word) (gain : Nat) (s : State) : State :=
  let m := modeOf s h c
  let sens := chSensW s h c
  let cv := bits sens 5 0
  let t := if isRtdMode m then
      ainFlag h c 6 (!openResult s h c && 1 ≤ cv && cv ≤ 8 && decide (sval code * 50 < 2147483648)) s
    else s
  ainFlag h c 10 (applyCurve s.curves cv (baseValue m sens gain 0 code) (cjNow s h c)).2 t

/-- The SENSOR tag (R76, R93, R98, R100, log 45): with any INPUT an open burden switch, and a signal channel's VEXC; with INPUT 0
the channel's open, short, thermocouple and curve flags. -/
def sensorTag (s : State) (h c input : Nat) (tcOpen : Bool) : Bool :=
  let m := modeOf s h c
  let y := getChan s h c
  let p := (getHall s h).exc.getD (getHall s h).profile 0
  (m == 6 && y.cut)
    || (m == 12 && (bit (getHall s h).excStat 5 || bit (getHall s h).excStat 6)
        && bits p 29 28 == bits (chSensW s h c) 15 14)
    || (input == 0 && (bit y.ain 10 || (isRtdMode m && (bit y.ain 4 || bit y.ain 5 || bit y.ain 6))
        || (m == 11 && (tcOpen || bit y.ain 9))))

/-- LOOP_RISK of a result (R61). -/
def riskTag (s : State) (h c : Nat) : Bool := modeOf s h c == 5 && bit (getChan s h c).stat 13

/-- The instant at which the filter window of the result that completes opened: t_CONV before it in continuous mode (R108). -/
def windowOpen (v : ConvState) (a : Word) : Nat := if saCont a && !v.inj then v.at16 - tConv (saOdr a) else v.open16

/-- RECOV of the result that completes (R132): the first result of a step that owes it, or one whose window opened within 20 µs
after the last overrange sample. -/
def recovNow (v : ConvState) (open16 : Nat) : Bool :=
  (v.first && v.recovNext) || (match v.lastOvr with
    | some o => decide (o ≤ open16) && decide (open16 ≤ o + 320000)
    | none => false)

/-- What a result leaves for RECOV of those that follow (R132). -/
def afterOvr (x : Sample) (ovr : Bool) (t16 : Nat) (v : ConvState) : ConvState :=
  { v with
    ovrStep := if v.first then ovr else v.ovrStep || ovr
    first := false
    lastOvr := match x.ovr with | some (_, age) => some (t16 - 16 * age) | none => v.lastOvr }

/-- The tag of R136. -/
def mkTag (ovr recov rng refs sens risk unver : Bool) (input odr : Nat) (cont : Bool) (gain vsrc : Nat) (verify : Bool)
    (conv ch : Nat) (inj : Bool) (step : Nat) : Word :=
  BitVec.ofNat 32 (b2n ovr * 2 ^ 31 + b2n recov * 2 ^ 30 + b2n rng * 2 ^ 29 + b2n refs * 2 ^ 28 + b2n sens * 2 ^ 27
    + b2n risk * 2 ^ 26 + b2n unver * 2 ^ 25 + input * 2 ^ 20 + odr * 2 ^ 16 + b2n cont * 2 ^ 15 + gain * 2 ^ 12
    + vsrc * 2 ^ 9 + b2n verify * 2 ^ 8 + conv * 2 ^ 7 + ch * 2 ^ 5 + b2n inj * 2 ^ 4 + step)

/-- A record leaves the hall for buffer `own` (R137). -/
def sendRec (own : Nat) (r : Rec) (s : State) : State := updConv own (fun x => { x with fifo := x.fifo ++ [r] }) s

/-- OVR_EVT and RECOV_EVT of the converter that made a result (R131, R132). -/
def resultEvents (n : Nat) (ovr recov : Bool) (s : State) : State :=
  let t := if ovr then raiseBit (rCvEvt n) 0 s else s
  if recov then raiseBit (rCvEvt n) 1 t else t

/-! The order of steps. -/

/-- The hall checks in for a flight (R115): K0's flight, and K1's own where it has one, each with progress since the last
check-in. -/
def flightCheckIn (own : Nat) (s : State) : State :=
  let h := own / 2
  let t := updConv own (fun x => { x with cycled := true }) s
  let need1 := !rotEn t h && flightLen t (2 * h + 1) ≠ 0
  let ok0 := flightLen t (2 * h) = 0 || (getConv t (2 * h)).cycled
  let ok1 := !need1 || (getConv t (2 * h + 1)).cycled
  if ok0 && ok1 then
    checkIn h (updConv (2 * h + 1) (fun x => { x with cycled := false })
      (updConv (2 * h) (fun x => { x with cycled := false }) t))
  else t

/-- A flight step is complete: the step the flight owed is done, and a pending sequence starts, where one is still configured
(R121); a swap that is due comes before it (R122). -/
def stepPaid (n t16 : Nat) (s : State) : State :=
  let x := getConv s n
  if x.owed then
    let t := updConv n (fun y => { y with owed := false, pend := false }) s
    if x.pend && injLen s (ownerOf s n) ≠ 0 then
      updConv n (fun y => { y with fresh := true }) (startInjected n t16 t)
    else t
  else s

/-- A flight cycle of K0's flight ends: the shadow step of the next one is a new execution (R162). -/
def shadowCycle (own : Nat) (s : State) : State :=
  if own % 2 = 0 then updHall (own / 2) (fun x => { x with rot := { x.rot with seen := false, forced := false } }) s else s

/-- The last result of a flight step: the next step, or the end of the cycle (R113, R115). -/
def flightStepDone (n t16 : Nat) (s : State) : State :=
  let own := ownerOf s n
  let x := getConv s n
  let last := flightLen s own ≤ x.step + 1
  let t := updConv n (fun y => { y with
    phase := .boundary, at16 := t16, step := if last then 0 else x.step + 1, done := 0, fresh := true, again := false
    cycStart := last }) s
  stepPaid n t16 (if last then flightCheckIn own (shadowCycle own t) else t)

/-- The last result of an injected step: the next one, a pending sequence, or the flight again (R120, R121); a sequence committed
meanwhile is the next to start (R116), and a swap that fell due meanwhile waits for a flight step (R122). -/
def injStepDone (n t16 : Nat) (s : State) : State :=
  let own := ownerOf s n
  let x := getConv s n
  let s := updConv n (fun y => { y with phase := .boundary, at16 := t16, done := 0, fresh := false, again := false }) s
  if x.step + 1 < injLen s own then updConv n (fun y => { y with step := x.step + 1 }) s
  else
    let t := takeNext (n / 2) (injRegs own) (flightCheckIn own s)
    if x.pend && !x.twice && injLen t own ≠ 0 then
      updConv n (fun y => { y with step := 0, pend := false, twice := true }) t
    else
      let r := (getHall t (n / 2)).rot
      updConv n (fun y => { y with
        inj := false, step := x.backStep, done := x.backDone, owed := x.twice, owedCnt := 0, twice := false
        swapWait := r.swap || r.back }) t

/-- A committed flight takes effect (R116): the hall's words of block `own`, and the pulsation paths whose bound step it changes
reset (R158). -/
def newFlightWords (own : Nat) (s : State) : State :=
  let h := own / 2
  let bound (u : State) (c : Nat) : Option (Word × Word) :=
    ((List.range (flightLen u own)).find? fun i =>
      saCh (stepA u own false i) = c && sbInput (stepB u own false i) = 0).map fun i =>
        (stepA u own false i, stepB u own false i)
  let t := takeNext h (flightRegs own) s
  let t := updConv own (fun x => { x with newFlight := false }) t
  forChans (fun c u => if bound s c = bound t c then u else pulsReset h c u) t

/-- A committed flight takes effect at the end of the cycle in progress, and a running rotation is abandoned (R116, R168). -/
def takeNewFlight (own : Nat) (s : State) : State :=
  let t := newFlightWords own s
  if own % 2 = 0 then rotAbandon (own / 2) (freeLadder (own + 1) (freeLadder own (dropShadow (own / 2) t))) else t

/-- A continuous result: the next window, the cycle count, the step owed, and at the end of a cycle a new flight, whose first
step begins at that boundary (R108, R115 to R117, R121). -/
def contDone (n t16 : Nat) (s : State) : State :=
  let own := ownerOf s n
  let x := getConv s n
  let a := stepA s own false x.step
  let k := max (sbRepeat (stepB s own false x.step)) 1
  let last := k ≤ x.cycRes + 1
  let t := updConv n (fun y => { y with
    phase := .window, open16 := t16, at16 := t16 + odrPeriod (saOdr a), done := y.done + 1
    cycRes := if last then 0 else y.cycRes + 1, owedCnt := y.owedCnt + 1 }) s
  let t := if last then flightCheckIn own t else t
  let t := if last && (getConv t own).newFlight then
      updConv n (fun y => { y with
        phase := .boundary, at16 := t16, step := 0, done := 0, fresh := true, again := false, cycStart := true }) t
    else t
  if x.owed && k ≤ x.owedCnt + 1 then stepPaid n t16 t else t

/-- The step goes on after a result: another result, or its end. -/
def advanceStep (n t16 : Nat) (s : State) : State :=
  let own := ownerOf s n
  let x := getConv s n
  let a := stepA s own x.inj x.step
  if saCont a && !x.inj then contDone n t16 s
  else if x.done + 1 < sbRepeat (stepB s own x.inj x.step) then
    updConv n (fun y => { y with open16 := t16, at16 := t16 + tConv (saOdr a), done := y.done + 1 }) s
  else if x.inj then injStepDone n t16 s
  else flightStepDone n t16 s

/-! Results. -/

/-- The gain a step's last result used is kept; a different one gives RANGE_CHG (R133). -/
def rangeChanged (s : State) (own k gain : Nat) : Bool :=
  match (getConv s own).lastGain.find? fun e => e.1 = k with
  | some e => e.2 ≠ gain
  | none => false

/-- The gains a result leaves: the one it used, and under AUTO the next execution's (R133, R134). -/
def gainDone (own k gain limit : Nat) (auto ovr : Bool) (code : Word) (s : State) : State :=
  updConv own (fun y => { y with
    lastGain := tput y.lastGain k gain
    autoGain := if auto then tput y.autoGain k (nextAuto gain limit ovr (sval code)) else y.autoGain }) s

/-- A record of a result that completes at an instant, with its MODCLK sample count and ring time (R15, R135). -/
def mkRec (s : State) (t16 : Nat) (code tag : Word) (puls : Option (Word × Word × Bool)) : Rec :=
  let n := modclkCount t16
  { code := code, tag := tag, count := n, time := stampOf s n, puls := puls, stale := false, buf := 0, idx := 0,
    wrote := 0 }

/-- A result of K0 (`k` = 0) or K1 takes its side of a pair (R161); in continuous mode K0's counts toward the limit of R162. -/
def pairSide (h k t16 : Nat) (code tag : Word) (s : State) : State :=
  updRot h (fun q => if k = 0 then { q with k0 := some (t16, sval code, cleanTag tag) }
    else { q with k1 := some (t16, sval code, cleanTag tag) }) s

/-- A flight or injected result of converter `n` at an instant (R117, R128 to R137, R155). -/
def flightResult (n t16 : Nat) (x : Sample) (s : State) : State :=
  let h := n / 2
  let own := ownerOf s n
  let v := getConv s n
  let a := stepA s own v.inj v.step
  let b := stepB s own v.inj v.step
  let c := saCh a
  let inp := sbInput b
  let s := complFlags h x s
  let s := if inp = 0 then openFlags h c x s else s
  let r := resultCode x (saOdr a) (saCont a && !v.inj) (inp = 0 && openResult s h c)
  let s := if inp = 0 then codeFlags h c r.1 v.gain s else s
  let op := windowOpen v a
  let recov := recovNow v op
  let k := gainKey v.inj v.step
  let tag := mkTag r.2 recov (rangeChanged s own k v.gain) (refSettling s h op) (sensorTag s h c inp v.tcOpen)
    (riskTag s h c) (getRot s h).refDis inp (saOdr a) (saCont a) v.gain 0 false (n % 2) c v.inj v.step
  let s := updConv n (afterOvr x r.2 t16) (resultEvents n r.2 recov s)
  let s := gainDone own k v.gain (saGain a) (autoActs (modeOf s h c) a b) r.2 r.1 s
  let s := if inp = 0 && isLoopMode (modeOf s h c) then setClass h c (ne43Class (hcfg s h (aCh h c 0x54)) r.1) s else s
  let s := if !v.inj && inp = 0 && (saCont a || sbRepeat b ≤ v.done + 1) then pulsResult s own h c a tag r.1 else s
  let y := getChan s h c
  let puls := if inp = 0 && bit (hcfg s h (aRot h (0x10 + c))) 31 then some (y.pulsP, y.pulsMean, y.pulsSettling) else none
  let s := sendRec own (mkRec s t16 r.1 tag puls) s
  let win := bits a 18 16
  let s := if !v.inj && 1 ≤ win && win ≤ 4 then winEval h (win - 1) r.1 n t16 s else s
  let s := if n = 2 * h then
      pairSide h 0 t16 r.1 tag (if saCont a && !v.inj then updRot h (fun q => { q with cycles := q.cycles + 1 }) s else s)
    else if (getRot s h).onK1 then pairSide h 1 t16 r.1 tag s
    else s
  advanceStep n t16 s

/-- A shadow result (R161): a VERIFY record with VSRC 0, to K1's buffer. DESIGN CHOICE (log 74): its RANGE_CHG is 0, which the
tag table gives to the flight's own record. -/
def shadowResult (n t16 : Nat) (x : Sample) (s : State) : State :=
  let h := n / 2
  let v := getConv s n
  let a := stepA s (2 * h) false v.step
  let b := stepB s (2 * h) false v.step
  let c := saCh a
  let inp := sbInput b
  let r := resultCode x (saOdr a) (saCont a) (inp = 0 && openResult s h c)
  let op := windowOpen v a
  let recov := recovNow v op
  let tag := mkTag r.2 recov false (refSettling s h op) (sensorTag s h c inp v.tcOpen) (riskTag s h c) false 0 (saOdr a)
    (saCont a) v.gain 0 true (n % 2) c false v.step
  let s := updConv n (afterOvr x r.2 t16) (resultEvents n r.2 recov s)
  let s := sendRec (2 * h + 1) (mkRec s t16 r.1 tag none) s
  let s := pairSide h (n % 2) t16 r.1 tag s
  let more := saCont a || v.done + 1 < sbRepeat b
  updConv n (fun y => { y with
    phase := if more then .window else .idle
    role := if more then y.role else .none
    open16 := t16
    at16 := if saCont a then t16 + odrPeriod (saOdr a) else t16 + tConv (saOdr a)
    done := y.done + 1 }) s

/-- A ladder point's result (R165): a VERIFY record with its VSRC. -/
def ladderPoint (n t16 : Nat) (x : Sample) (s : State) : State :=
  let h := n / 2
  let v := getConv s n
  let vs := ((getRot s h).ladder.headD (4, 0)).1
  let r := resultCode x (ladderOdr s h) false false
  let recov := recovNow v v.open16
  let tag := mkTag r.2 recov false (refSettling s h v.open16) false false false 0 (ladderOdr s h) false v.gain vs true
    (n % 2) 0 false 0
  let s := updConv n (afterOvr x r.2 t16) (resultEvents n r.2 recov s)
  ladderResult n (sval r.1) t16 (sendRec (2 * h + 1) (mkRec s t16 r.1 tag none) s)

/-- A swap or swap back of continuous mode is not held up by a sequence it fell due in (R122); one whose REPEAT results are just
complete comes before the next sequence. -/
def swapFree (s : State) (h : Nat) (x : ConvState) : Bool :=
  (!x.inj || x.fresh) && (!x.swapWait || decide (max (sbRepeat (stepB s (2 * h) false (if x.inj then x.backStep else x.step))) 1 ≤ x.owedCnt))

/-- The swap at a result instant of continuous mode (R163); after K1's ladder (R169), where no shadow shares the instant, K1's
filter starts there (log 42). -/
def swapContinuous (h t16 : Nat) (s : State) : State :=
  let alone := (getRot s h).arbitrate
  let t := swapToK1 h t16 s
  if alone && !(getConv t (2 * h + 1)).inj then openWindow (2 * h + 1) t16 (tConv (saOdr (nowA t (2 * h + 1)))) t else t

/-- Both converters' results of one instant are in. -/
def atOneInstant (r : RotSt) : Bool :=
  match r.k0, r.k1 with
  | some x, some y => x.1 == y.1
  | _, _ => false

/-- The shadow phase of continuous mode after a result: abandoned after 4 × SHADOW_CYC cycles of REPEAT results without enough
pairs (R162), where no result of the same instant is still to come, else joined by K1. -/
def shadowContinuous (h t16 : Nat) (s : State) : State :=
  let k := max (sbRepeat (stepB s (2 * h) false (getConv s (2 * h)).step)) 1
  let y := getConv s (2 * h + 1)
  if 4 * shadowCyc s h * k ≤ (getRot s h).cycles && !(y.role == .shadow && y.at16 == t16) then
    rotAbandon h (dropShadow h s)
  else joinContinuous h t16 s

/-- After a result in continuous mode: the swap, the way back, a rotation that starts, or the shadow phase (R160 to R163, R167,
R170). -/
def afterContinuous (h t16 : Nat) (s : State) : State :=
  let r := getRot s h
  let x := getConv s (if r.onK1 then 2 * h + 1 else 2 * h)
  if r.swap && !r.onK1 then if swapFree s h x then swapContinuous h t16 s else s
  else if wantsBack s h then
    if atOneInstant r && swapFree s h x then
      if r.back then swapBack h t16 s else updRot h (fun q => { q with k0 := none, k1 := none }) (takeBack h s)
    else joinBack h t16 s
  else if mayRotate s h && x.phase == .window then joinContinuous h t16 (startRotation h s)
  else if r.phase == 1 || r.phase == 4 then shadowContinuous h t16 s
  else s

/-- After a result of either converter: pairs of the shadow phase, and what continuous mode does at a result instant. -/
def afterResult (h t16 : Nat) (s : State) : State :=
  let s := if (getRot s h).phase = 1 ∨ (getRot s h).phase = 4 then pairCheck h s else s
  let k := if (getRot s h).onK1 then 2 * h + 1 else 2 * h
  let x := getConv s k
  let i := if x.inj then x.backStep else x.step
  if saCont (stepA s (2 * h) false i) && x.role == .flight && (!x.inj || x.fresh) then
    afterContinuous h t16 s
  else s

/-- A result whose window overlaps the interval in which both burdens may be in circuit, up to local time `e`: it is discarded,
and its step restarts after the interval (R375). -/
def mixedResult (n e : Nat) (s : State) : State :=
  if (getConv s n).role == .flight then restartAt n (gridUp (max (nowM s) (modclkTime s (16 * e)))) (discardOpen n s)
  else dropShadow (n / 2) s

/-- The result that a completed window gives by the converter's role. -/
def resultOf (n : Nat) (v : ConvState) (x : Sample) (s : State) : State :=
  match v.role with
  | .flight => flightResult n v.at16 x s
  | .shadow => shadowResult n v.at16 x s
  | .ladder => ladderPoint n v.at16 x s
  | .none => s

/-- What the end of converter `v`'s window gives: a result, or the error of inputs mixed in it (R375). -/
def windowEnd (n : Nat) (v : ConvState) (x : Sample) (s : State) : State :=
  match mixedWindow s n (windowOpen v (nowA s n)) v.at16 with
  | some e => mixedResult n e s
  | none => afterResult (n / 2) v.at16 (resultOf n v x s)

/-- RESULT_COMPLETE (R117): the window that completes converter `n`'s result, at its instant. -/
def execResultComplete (n : Conv) (x : Sample) (s : State) : Host.Outcome State Fault Refusal :=
  let v := getConv s n
  if v.phase == .window && s.clk.modclk then
    done (report (n / 2) (windowEnd n v x (moveTo (localOfM s v.at16 / 16) s)))
  else done s

/-- STEP_BOUNDARY (R113): swaps and a new flight take place, a due rotation starts, the step begins, K1 joins a shadow
step. -/
def execStepBoundary (n : Conv) (s : State) : Host.Outcome State Fault Refusal :=
  let x := getConv s n
  let h := n.val / 2
  if x.phase == .boundary && x.role == .flight && s.clk.modclk then
    let s := moveTo (localOfM s x.at16 / 16) s
    let own := ownerOf s n
    let cycleEnd := !x.inj && x.cycStart && (getConv s own).newFlight
    let (m, s) := swapAt n x.at16 s
    let (m, s) := if cycleEnd then
        let t := takeNewFlight own s
        if m ≠ runnerOf t own then (runnerOf t own, moveFlight m (runnerOf t own) t) else (m, t)
      else (m, s)
    if flightLen s own = 0 ∧ !x.inj then
      done (report h (updConv m (fun y => { y with phase := .idle, role := .none }) s))
    else
      let y := getConv s m
      let s := if mayRotate s h && m = 2 * h && !y.inj && !x.again && y.done = 0 && y.step = dueStep s h then startRotation h s else s
      let s := beginStep m y.inj y.step y.done x.at16 s
      done (report h (if m = 2 * h then joinShadow h s else s))
  else done s

end Sys2Proof.Machine
end

