-- ==== Sys2Proof/Machine/Dma.lean ====
section
/-! DEFINITION. DMA of result records into main SRAM, the channel monitor and the sample area (R16, R137 to R139, R256,
R454). -/

namespace Sys2Proof.Machine

/-- A result record's 16 bytes (R135). -/
def recBytes (r : Rec) : List Byte := leBytes 4 r.code.toNat ++ leBytes 4 r.tag.toNat ++ leBytes 8 r.time

/-- Buffer length of converter block `n` in records, limited by R138: 1 to 15 raised to 16, at most 16,384. -/
def bufLen (s : State) (n : Nat) : Nat :=
  let v := bits (getReg s (aConv n 3)) 14 0
  if v = 0 then 0 else clampNat 16 16384 v

/-- Byte offset of the buffer. -/
def bufBase (s : State) (n : Nat) : Nat := bits (getReg s (aConv n 2)) 17 4 * 16

/-- Bytes written to main SRAM; a word written whole carries good check bits again (R398). -/
def writeMain (a : Nat) (bs : List Byte) (s : State) : State :=
  { s with mem := { s.mem with
      main := mwrites 0 s.mem.main a bs
      bad := s.mem.bad.filter fun e => !(e.1 = 0 && a ≤ 4 * e.2 && 4 * e.2 < a + bs.length) } }

/-- A record counts for tick sets and CH_ENG: INPUT 0 and not VERIFY (R17, R454). -/
def isInput (r : Rec) : Bool := tagInput r.tag = 0 && !tagVerify r.tag

/-- The channel monitor takes a record with INPUT 0: CH_ENG, with the newest available T_CJ (R99, R137). -/
def monitorRec (h : Nat) (r : Rec) (s : State) : State :=
  let c := tagCh r.tag
  setReg (aCh h c 0x64) (recordValue s s.modes (4 * h + c) r (cjNow s h c)).1 s

/-- Channel `g` is selected for the sample area: a slot of BB_SEL_A or BB_SEL_B enables it (R256). -/
def sampleSelected (s : State) (g : Nat) : Bool :=
  (List.range 8).any fun j =>
    let w := getReg s (if j < 4 then 0x2803 else 0x2804)
    let b := 8 * (j % 4)
    bit w (b + 7) && bits w (b + 4) b = g

/-- A record joins the newest block of its channel where it fits, else a new block, the oldest of 56 reused (R256). -/
def samplePut (g : Nat) (bs : List Byte) (blocks : List SampBlk) : List SampBlk :=
  let fresh := (blocks ++ [({ ch := g, recs := [bs] } : SampBlk)]).drop (blocks.length + 1 - 56)
  match blocks.reverse.find? (fun b => b.ch = g) with
  | none => fresh
  | some b =>
    if sampleFits (b.recs ++ [bs]) then
      blocks.map fun x => if x = b then { x with recs := x.recs ++ [bs] } else x
    else fresh

/-- The sample area keeps a flight or injected record of a selected channel, unless the black box is frozen. -/
def sampleTake (g : Nat) (r : Rec) (s : State) : State :=
  if s.bb.frozen || tagVerify r.tag || !sampleSelected s g then s
  else { s with bb := { s.bb with samples := samplePut g (recBytes r) s.bb.samples } }

/-- A record placed in its buffer: bytes, index, wrap count, and the newest record of its channel (R138). -/
def placeRec (n : Nat) (r : Rec) (s : State) : State :=
  let x := getConv s n
  let len := bufLen s n
  let q := { r with buf := n, idx := x.widx, wrote := s.time.now }
  let t := writeMain (bufBase s n + 16 * x.widx) (recBytes r) s
  let t := updConv n (fun y => { y with
    widx := if len ≤ y.widx + 1 then 0 else y.widx + 1
    wrap := if len ≤ y.widx + 1 then (y.wrap + 1) % 2 ^ 32 else y.wrap }) t
  let g := 4 * (n / 2) + tagCh r.tag
  if isInput r then
    { t with
      older := (match t.newest.find? fun e => e.1 = g with
        | some e => if e.2.wrote < q.wrote then tput t.older g e.2 else t.older
        | none => t.older)
      newest := tput t.newest g q }
  else t

/-- A buffer reset at a COMMIT, or at a reload (R139, R286, R323): index and wrap to 0, records under way marked stale, the old
records out of every tick set. -/
def resetBuffer (n : Nat) (s : State) : State :=
  let t := updConv n (fun x => { x with widx := 0, wrap := 0, fifo := x.fifo.map fun r => { r with stale := true } }) s
  let t := { t with newest := t.newest.filter fun e => e.2.buf ≠ n, older := t.older.filter fun e => e.2.buf ≠ n }
  let t := { t with str := { t.str with
    pos := tset (fun _ => 0) (tset (fun _ => 0) t.str.pos n 0) (32 + n) 0
    reset := (t.str.reset.filter fun k => k ≠ n && k ≠ 32 + n) ++ [n, 32 + n] } }
  raiseBit (rCvEvt n) 3 t

end Sys2Proof.Machine
end

