-- ==== Sys2Proof/Machine/Outputs.lean ====
section
/-! DEFINITION. Field outputs: commands, switch-offs, retries, gangs, acknowledgement, the current-output monitor (R45 to
R58, R76, R81 to R88, R93). -/

namespace Sys2Proof.Machine

/-- The run whose POUT the channel is (R181). -/
def poutRun (s : State) (g : Nat) : Option Nat :=
  (List.range 8).find? fun m => runEn s m && roleCh s m 8 == some g

/-- POUT_W of a run in ns (R204): units of 0.1 ms, 5 to 5,000. -/
def pulseWidth (s : State) (m : Nat) : Nat := clampNat 5 5000 (getReg s (aRun m 0x33)).toNat * 100000

/-- A backlog and W received for a pulse output (R19, R199). -/
def takeBacklog (h c m v : Nat) (s : State) : State :=
  pulseGo h c (updChan h c (fun x => { x with pulseLeft := v, pulseW := pulseWidth s m }) s)

/-- OUTPUT_COMMAND (R19, R57): the hall stores the command, limited to the mode's maximum (R71), and applies it unless a
higher cause holds the output; for a pulse output it is the backlog, worked off by R199. -/
def execOutputCommand (h : Hall) (ch : Chan) (value : BitVec 32) (s : State) : Host.Outcome State Fault Refusal :=
  hallDo h (fun t =>
    match poutRun t (4 * h + ch) with
    | some m => takeBacklog h ch m value.toNat t
    | none => applyCommand h ch (min value.toNat (cmdLimit t h ch)) t) s

/-! Switch-offs and retries (R48 to R51). -/

/-- LATCHED_OFF with its event; RETRYING ends. -/
def latchOff (l : Latch) (h c : Nat) (s : State) : State :=
  chFlag h c 7 true (chFlag h c 9 false (updChan h c (fun x => { x with latch := l }) s))

/-- A gang fails (R48): every member goes to the lead's safe state and the lead latches. -/
def gangFail (h c : Nat) (s : State) : State :=
  let l := leadOf s h c
  let t := updChan h l (fun x => { x with gangSafe := true }) s
  let t := chFlag h l 7 true t
  (gangMembers t h c).foldl (fun u d => resolve h d u) t

/-- A switch-off that is retried (R50): off, RETRYING, or latched when no attempt is left; a switch-off that follows a
retry within its second counts as that retry's failure. -/
def cutRetry (h c : Nat) (s : State) : State :=
  let x := getChan s h c
  let n := if bit x.stat 9 then x.attempts + 1 else x.attempts
  let t := updChan h c (fun y => { y with cut := true, attempts := n }) s
  let t := if n < retryCount s h then chFlag h c 9 true t else latchOff .off h c t
  resolve h c t

/-- A switch-off that latches at once (R49). -/
def cutLatch (h c : Nat) (s : State) : State :=
  resolve h c (latchOff .off h c (updChan h c (fun y => { y with cut := true }) s))

/-- The on phase of a pulse is under way (R199). -/
def pulsing (s : State) (h c : Nat) : Bool :=
  match (getChan s h c).pulseOn with
  | some t => decide (t ≤ s.time.now) && decide (s.time.now < t + (getChan s h c).pulseW)
  | none => false

/-- The stage of a switched output is on. -/
def stageOn (s : State) (h c : Nat) : Bool :=
  let m := modeOf s h c
  (m == 13 || m == 14 || m == 16) && ((getChan s h c).drive != 0 || pulsing s h c)

/-- OVERLOAD (R49): SHORT from the entry into the limit until the current leaves it; a gang member fails its gang at once
(R48), another output switches off after 0.5 ms or a thermal trip and is retried (R50). -/
def execOverload (h : Hall) (x : Overload) (s : State) : Host.Outcome State Fault Refusal :=
  hallDo h (fun t =>
    if x.phase = .left then (if (getChan t h x.ch).cut then t else chFlag h x.ch 4 false t)
    else if stageOn t h x.ch then
      let u := chFlag h x.ch 4 true t
      if modeOf t h x.ch = 14 then gangFail h x.ch u
      else if x.phase = .switchedOff then cutRetry h x.ch u else u
    else t) s

/-- A standby suspends some checks on shared outputs (R374). -/
def sharedStandby (s : State) (h c : Nat) : Bool := idleForm s h c

/-- Both devices may drive a shared output: the overlap of a handover (R376). -/
def handoverOverlap (s : State) (h c : Nat) : Bool :=
  (hcfg s h 0x2C01).getLsbD (4 * h + c) && (s.pair.hoStep == some 2 || s.pair.hoStep == some 3)

/-- The output has been off for the 1 ms of EXT_DRIVE: commanded off, or an off phase of mode 16 of 1 ms or more, which a
frequency of 500 Hz or less has (R49). -/
def offLong (s : State) (h c : Nat) : Bool :=
  let x := getChan s h c
  !pulsing s h c && (x.drive = 0 || (x.mode = 16 && x.drive ≤ 500000))

/-- EXT_DRIVE (R49): voltage while off, or its end; the output stays off. -/
def execExtDrive (h : Hall) (x : OutsideDrive) (s : State) : Host.Outcome State Fault Refusal :=
  hallDo h (fun t =>
    let m := modeOf t h x.ch
    if !x.on then (if (getChan t h x.ch).rev then t else chFlag h x.ch 5 false t)
    else if (m = 13 ∨ m = 14 ∨ m = 16) ∧ offLong t h x.ch ∧ !sharedStandby t h x.ch then
      let u := chFlag h x.ch 5 true t
      if m = 14 then gangFail h x.ch u else u
    else t) s

/-- REVERSE_CURRENT (R49): the stage opens, EXT_DRIVE, held off until acknowledged. On shared outputs the check is suspended on a
standby and in the overlap of a handover (R374, R376). -/
def execReverseCurrent (h : Hall) (ch : Chan) (s : State) : Host.Outcome State Fault Refusal :=
  hallDo h (fun t =>
    if stageOn t h ch && !sharedStandby t h ch && !handoverOverlap t h ch then
      let u := chFlag h ch 5 true (updChan h ch (fun x => { x with rev := true }) t)
      if modeOf t h ch = 14 then gangFail h ch u else cutLatch h ch u
    else t) s

/-- READBACK (R49): off and latched. -/
def execReadback (h : Hall) (ch : Chan) (s : State) : Host.Outcome State Fault Refusal :=
  hallDo h (fun t =>
    if stageOn t h ch && !sharedStandby t h ch then
      let u := chFlag h ch 6 true t
      if modeOf t h ch = 14 then gangFail h ch u else cutLatch h ch u
    else t) s

/-- LOOP_SHORT (R49): the loop supply of a mode 5 input goes off and is retried. -/
def execLoopShort (h : Hall) (ch : Chan) (s : State) : Host.Outcome State Fault Refusal :=
  hallDo h (fun t => if modeOf t h ch = 5 then cutRetry h ch (chFlag h ch 11 true t) else t) s

/-- BURDEN_OVER (R76): the channel switch of a mode 6 input opens and is retried. -/
def execBurdenOver (h : Hall) (ch : Chan) (s : State) : Host.Outcome State Fault Refusal :=
  hallDo h (fun t => if modeOf t h ch = 6 then cutRetry h ch (ainFlag h ch 3 true t) else t) s

/-- RETRY (R50): the channel is switched on again; `again` when it ends in the same condition, which counts as one attempt.
Retries are suspended while SAG3 holds. -/
def execRetry (h : Hall) (ch : Chan) (again : Bool) (s : State) : Host.Outcome State Fault Refusal :=
  hallDo h (fun t =>
    let x := getChan t h ch
    if x.cut && bit x.stat 9 && !bit (getHall t h).stat 3 then
      if again then cutRetry h ch t
      else
        let u := updChan h ch (fun y => { y with cut := false }) t
        let u := ainFlag h ch 3 false (chFlag h ch 11 false (chFlag h ch 4 false u))
        resolve h ch u
    else t) s

/-- RETRY_CLEAR (R50): one second without the condition after a retry. -/
def execRetryClear (h : Hall) (ch : Chan) (s : State) : Host.Outcome State Fault Refusal :=
  hallDo h (fun t =>
    if bit (getChan t h ch).stat 9 && !(getChan t h ch).cut then
      chFlag h ch 9 false (updChan h ch (fun y => { y with attempts := 0 }) t)
    else t) s

/-- The conditions a member or channel keeps after an acknowledgement: none unless still present (R48, R51, R84). -/
def ackFlags (h c : Nat) (present : Bool) (s : State) : State :=
  if present then s
  else
    let t := updChan h c (fun x => { x with rev := false }) s
    ainFlag h c 3 false (chFlag h c 11 false (chFlag h c 6 false (chFlag h c 5 false (chFlag h c 4 false t))))

/-- A latched channel's bit of HALL_ACK (R51): LATCHED_OFF and RETRYING clear, the attempts return to zero and the current
command applies; a gang takes its lead's command, and a member whose condition is present fails it again (R48). -/
def ackChannel (h c : Nat) (present : Nat → Bool) (s : State) : State :=
  let x := getChan s h c
  if leadOf s h c ≠ c || !bit x.stat 7 then s
  else
    let t := updChan h c (fun y => { y with
      latch := .none, gangSafe := false, extSafe := false, cut := false, attempts := 0, ext := .none }) s
    let t := chFlag h c 19 false (chFlag h c 7 false (chFlag h c 9 false t))
    let ms := gangMembers t h c
    let t := ms.foldl (fun u d => ackFlags h d (ms.length ≠ 1 && present d) u) t
    let still := ms.length ≠ 1 && ms.any fun d => present d && bits (getChan t h d).stat 6 4 ≠ 0
    let t := ms.foldl (fun u d => resolve h d u) t
    if still then gangFail h c t else t

/-- A write of HALL_ACK (R51). -/
def hallAck (h : Nat) (acks : Nat) (present : Nat → Bool) (s : State) : State :=
  if (getHall s h).up then
    report h (forChans (fun c t => if acks.testBit c then ackChannel h c present t else t) s)
  else s

/-! FORCE_SAFE (R54, R56). -/

/-- HALL_CTRL.FORCE_SAFE takes a value: 1 puts every output in its safe state, 0 releases them by R56. A hall without supply
takes the value with its next section. -/
def forceSafe (h : Nat) (b : Bool) (s : State) : State :=
  if !(getHall s h).up then s
  else if b then report h (resolveAll h (hallFlag h 6 true s))
  else if bit (getHall s h).stat 6 then report h (leaveAll .safe h (hallFlag h 6 false s))
  else s

/-! Current outputs (R82 to R87). -/

/-- Headroom in half µV by R83, from µA and mV. -/
def headroom2 (i vFrc vLp : Int) : Int := 2000 * vLp - 5000000 - 91 * i - 2000 * vFrc

/-- CH_IMEAS (R104): headroom in mV, 0 when negative, saturating, and I_MEAS in µA. DESIGN CHOICE (log 75): HEADROOM is rounded
down to a whole mV, and I_MEAS is limited to 0 to 65,535. -/
def imeasWord (i vFrc vLp : Int) : Word :=
  let mv := clampInt 0 65535 (headroom2 i vFrc vLp / 2000)
  let ua := clampInt 0 65535 i
  BitVec.ofNat 32 (mv.toNat * 65536 + ua.toNat)

/-- Counter `i` of the monitor advanced while its condition holds, else 0. -/
def monStep (l : List Nat) (i : Nat) (b : Bool) : Nat := if b then min (l.getD i 0 + 1) 1000 else 0

/-- EXT_OVERCURRENT detected (R86): the switch opens, or opens for good on the second detection. -/
def extDetected (h c : Nat) (s : State) : State :=
  let x := getChan s h c
  let t := if x.ext == .driving then
      latchOff .off h c (updChan h c (fun y => { y with ext := .latched, cut := true }) s)
    else updChan h c (fun y => { y with ext := .opened, extSafe := true, cut := true }) s
  resolve h c (chFlag h c 19 true t)

/-- The conditions of R84 after one sample, each counted over consecutive samples: 1.0 ms is 11 samples, 5.0 ms 51,
0.3 ms 4 (log 14). -/
def monitorFlags (h c : Nat) (i : Int) (hr : Int) (ref : Int) (s : State) : State :=
  let x := getChan s h c
  let susp := decide (s.time.now < x.suspend)
  let retExt := bit (chSensW s h c) 17
  let quiet := sharedStandby s h c
  let warnIf := hr < 3000000 && ref - 200 ≤ i && i ≤ ref + 200
  let failIf := hr < 200000 && i < ref - 200 && 200 ≤ i && !susp && !quiet && !bit x.stat 18
  let openIf := hr < 200000 && i < 200 && 1000 ≤ ref && !quiet
  let rbIf := 200000 ≤ hr && i < ref - 200 && !susp && !x.cut
  let extIf := ref + 500 < i && !susp && !retExt && (x.ext == .none || x.ext == .driving)
  let m := x.mon
  let mon := [monStep m 0 warnIf, monStep m 1 (3400000 ≤ hr), monStep m 2 failIf,
    monStep m 3 (ref - 100 ≤ i && i ≤ ref + 100), monStep m 4 openIf, monStep m 5 (500 ≤ i), monStep m 6 rbIf,
    monStep m 7 extIf]
  let t := updChan h c (fun y => { y with mon := mon }) s
  let t := if bit x.stat 18 then (if 11 ≤ mon.getD 5 0 then chFlag h c 18 false t else t)
    else if 51 ≤ mon.getD 4 0 then chFlag h c 18 true t else t
  let t := if bit x.stat 17 then (if 11 ≤ mon.getD 3 0 then chFlag h c 17 false t else t)
    else if 11 ≤ mon.getD 2 0 && !bit (getChan t h c).stat 18 then chFlag h c 17 true t else t
  let y := getChan t h c
  let t := if bit y.stat 17 || bit y.stat 18 then chFlag h c 16 false t
    else if bit x.stat 16 then (if 11 ≤ mon.getD 1 0 then chFlag h c 16 false t else t)
    else if 11 ≤ mon.getD 0 0 then chFlag h c 16 true t else t
  let t := if 11 ≤ mon.getD 6 0 then cutLatch h c (chFlag h c 6 true t) else t
  if 4 ≤ mon.getD 7 0 then
    extDetected h c (updChan h c (fun z => { z with mon := List.replicate 8 0 }) t)
  else t

/-- CURRENT_MONITOR_SAMPLE (R82 to R86): µA and mV. All conditions are suspended while SAG3 holds (R61, R85). -/
def execCurrentMonitorSample (h : Hall) (ch : Chan) (iMeas : MicroAmp) (vFrc vLp : Int) (s : State) :
    Host.Outcome State Fault Refusal :=
  hallDo h (fun t =>
    if modeOf t h ch = 15 then
      let ref : Int := driveNow t h ch
      let u := updChan h ch (fun x => { x with imeas := imeasWord iMeas vFrc vLp }) t
      if bit (getHall t h).stat 3 then updChan h ch (fun x => { x with mon := List.replicate 8 0 }) u
      else monitorFlags h ch iMeas (headroom2 iMeas vFrc vLp) ref u
    else t) s

/-- EXT_OVERCURRENT_RECLOSE (R86): the switch closes and the safe state is driven; `again` when the condition is detected
again within 100 ms, which opens the switch and latches. -/
def execExtOvercurrentReclose (h : Hall) (ch : Chan) (again : Bool) (s : State) : Host.Outcome State Fault Refusal :=
  hallDo h (fun t =>
    if (getChan t h ch).ext == .opened then
      let u := resolve h ch (updChan h ch (fun x => { x with ext := .driving, cut := false }) t)
      if again then extDetected h ch u else u
    else t) s

/-- EXT_OVERCURRENT_CLEAR (R86): not detected again for 100 ms; the output leaves its safe state by its policy. -/
def execExtOvercurrentClear (h : Hall) (ch : Chan) (s : State) : Host.Outcome State Fault Refusal :=
  hallDo h (fun t =>
    if (getChan t h ch).ext == .driving then
      let u := updChan h ch (fun x => { x with ext := .none, extSafe := false }) t
      leaveSafe .safe h ch (chFlag h ch 19 false u)
    else t) s

/-- RAMP_END (R58, R62, R87): the ramp ends at the value it started toward; a newer command then applies as a step, and
after the last ramp of a SAG3 the switched outputs go off. -/
def execRampEnd (h : Hall) (ch : Chan) (s : State) : Host.Outcome State Fault Refusal :=
  hallDo h (fun t =>
    match (getChan t h ch).ramp with
    | none => t
    | some r =>
      let u := moveTo (r.start + r.len) t
      let u := updChan h ch (fun x => { x with ramp := none, drive := r.dest }) u
      if r.rank = 2 then resolveAll h u else resolve h ch u) s

/-- VEXC_LIMIT (R93): 1 ms in the limit, or out of it. -/
def execVexcLimit (h : Hall) (on : Bool) (s : State) : Host.Outcome State Fault Refusal :=
  hallDo h (excFlag h 5 on) s

/-- VEXC_SENSE_OPEN (R93): a sense line opens, or closes again. -/
def execVexcSenseOpen (h : Hall) (on : Bool) (s : State) : Host.Outcome State Fault Refusal :=
  hallDo h (excFlag h 6 on) s

end Sys2Proof.Machine
end

