-- ==== Sys2Proof/Machine/Periods.lean ====
section
/-! DEFINITION. Periods: contract time, boundaries, means, records and their capture (R221 to R226, R246, R455). -/

namespace Sys2Proof.Machine

/-! Contract time (R221, R345). -/

/-- Contract time of a ring time in ns: ring time + UTC offset + 15 min × TZ_Q. -/
def contractOf (s : State) (ring : Nat) : Int :=
  (ring : Int) + sval s.ml.utcOfs * 1000000000 + bitsSigned (getReg s 0x2200) 27 20 * 900000000000

/-- Nanoseconds of the contract day's start hour. -/
def dayStart (s : State) : Int := (bits (getReg s 0x2200) 4 0 : Int) * 3600000000000

/-- Nanoseconds of a day. -/
def dayNs : Int := 86400000000000

/-- Year and month (1 to 12) of a day number counted from 1970-01-01 (Gregorian). -/
def civilMonth (days : Int) : Int × Int :=
  let z := days + 719468
  let era := z.fdiv 146097
  let doe := z - era * 146097
  let yoe := (doe - doe / 1460 + doe / 36524 - doe / 146096) / 365
  let doy := doe - (365 * yoe + yoe / 4 - yoe / 100)
  let mp := (5 * doy + 2) / 153
  let m := if mp < 10 then mp + 3 else mp - 9
  (yoe + era * 400 + (if m ≤ 2 then 1 else 0), m)

/-- Day number of the first day of a month. -/
def monthDays (y m : Int) : Int :=
  let y1 := if m ≤ 2 then y - 1 else y
  let era := y1.fdiv 400
  let yoe := y1 - era * 400
  let doy := (153 * (if 2 < m then m - 3 else m + 9) + 2) / 5
  era * 146097 + (yoe * 365 + yoe / 4 - yoe / 100 + doy) - 719468

/-- The newest boundary of a kind (0 hour, 1 contract day, 2 month) at or before a contract instant. -/
def periodFloor (s : State) (kind : Nat) (c : Int) : Int :=
  match kind with
  | 0 => c.fdiv 3600000000000 * 3600000000000
  | 1 => (c - dayStart s).fdiv dayNs * dayNs + dayStart s
  | _ =>
    let ym := civilMonth ((c - dayStart s).fdiv dayNs)
    monthDays ym.1 ym.2 * dayNs + dayStart s

/-- The first boundary of a kind after a contract instant. -/
def periodNext (s : State) (kind : Nat) (c : Int) : Int :=
  match kind with
  | 0 => periodFloor s 0 c + 3600000000000
  | 1 => periodFloor s 1 c + dayNs
  | _ =>
    let ym := civilMonth ((c - dayStart s).fdiv dayNs)
    (if ym.2 = 12 then monthDays (ym.1 + 1) 1 else monthDays ym.1 (ym.2 + 1)) * dayNs + dayStart s

/-- The first tick that starts at or after a contract instant. -/
def tickAt (s : State) (c : Int) : Nat :=
  let r := c - (contractOf s 0)
  ((r + 999999).fdiv 1000000).toNat

/-- The open period of a kind. -/
def getKind (s : State) (k : Nat) : PerKind := s.per.kinds.getD k perKindReset

/-- The open period of a kind mapped by `f`. -/
def updKind (k : Nat) (f : PerKind → PerKind) (s : State) : State :=
  { s with per := { s.per with kinds := (List.range 3).map fun i => if i = k then f (getKind s i) else getKind s i } }

/-- The verification states of the halls now, with which a period opens (R172). -/
def vstates (s : State) : List Nat := (List.range 8).map (vstate s)

/-- A period of a kind opens at a tick, to end at a contract instant. -/
def openKind (k first : Nat) (stop : Int) (s : State) : State :=
  updKind k (fun _ => { first := some first, stop := stop, tstep := false, vst := vstates s }) s

/-! Sums (R225). -/

/-- One value enters a mean: weight q, or time alone. -/
def meanAdd (a : MeanSum) (q v : Ext) : MeanSum :=
  { sw := xadd a.sw (xmul q v), sq := xadd a.sq q, sv := xadd a.sv v, n := a.n + 1 }

/-- A mean at close, rounded to binary32; the quiet NaN where nothing entered (R225, R246). -/
def meanWord (a : MeanSum) : Word :=
  if a.n = 0 then 0x7FC00000
  else if xlt 0 a.sq then x32 (xdiv a.sw a.sq) else x32 (xdiv a.sv (xint a.n))

/-- A tick's six values enter the sums; PI is weighted by time. -/
def meansAdd (ms : List MeanSum) (q : Ext) (vs : List (Option Ext)) : List MeanSum :=
  (List.range 6).map fun i =>
    let a := ms.getD i meanReset
    match vs.getD i none with
    | some v => meanAdd a (if i = 5 then 0 else q) v
    | none => a

/-- One computed tick enters a run's open periods (R224, R225, R246). -/
def periodTick (m : Nat) (alarm : Bool) (status : Word) (q : Nat) (vs : List (Option Ext)) (s : State) : State :=
  updRun m (fun r => { r with per := r.per.map fun p => { p with
    good := p.good + b2n (!alarm)
    alarm := p.alarm + b2n alarm
    flags := p.flags ||| (status &&& 0xFFFF3FC0)
    means := meansAdd p.means (xint q) vs } }) s

/-! Records (R223, R224, R246). -/

/-- The halls a run uses, bit h. -/
def runHalls (s : State) (m : Nat) : Nat :=
  (List.range 8).foldl (fun a h =>
    if (List.range 10).any (fun r => match roleCh s m r with | some c => c / 4 = h | none => false) then a + 2 ^ h else a) 0

/-- Generation of the active image. -/
def activeGen (s : State) : Nat := (getReg s 0x2D03).toNat

/-- A period record's 256 bytes. -/
def periodBytes (m kind seq first last : Nat) (p : PerOpen) (k : PerKind) (s : State) : List Byte :=
  let r := getRun s m
  let hs := runHalls s m
  let vs := (List.range 8).foldl (fun a h => if hs.testBit h then a + k.vst.getD h 0 * 2 ^ (3 * h) else a) 0
  let b := leBytes 2 0xA6A3 ++ leBytes 1 m ++ leBytes 1 kind ++ leBytes 4 seq ++ leBytes 8 first ++ leBytes 8 last
    ++ ((List.range 6).map fun t => leBytes 16 (r.accs.getD t 0).toNat).flatten
    ++ ((List.range 6).map fun t =>
      leBytes 12 (accInt (r.accs.getD t 0) + 2 ^ 96 - p.base.getD t 0 % 2 ^ 96)).flatten
    ++ leBytes 4 p.good ++ leBytes 4 p.alarm ++ leBytes 4 p.gap
    ++ ((List.range 6).map fun i => leBytes 4 (meanWord (p.means.getD i meanReset)).toNat).flatten
    ++ leBytes 4 p.flags.toNat ++ leBytes 1 (p.marks ||| (b2n k.tstep * 32)) ++ leBytes 1 hs ++ leBytes 3 vs ++ leBytes 3 0
    ++ leBytes 8 s.time.ring ++ leBytes 4 (activeGen s)
  b ++ leBytes 4 (crc32c b).toNat

/-- Slots of the capture area in use; a COMMIT's checkpoints take four (R237, R242). -/
def capUsed (s : State) : Nat :=
  s.gal.cap.foldl (fun a c => a + match c with | .period _ _ _ _ _ => 1 | .commitCkpt _ _ _ => 4) 0

/-- A closed record waits in the capture area for its flash write (R223, R234). -/
def closePending (s : State) : Bool := s.gal.cap.any fun c => match c with | .period _ _ _ _ _ => true | _ => false

/-- A captured hour record. -/
def isHourCap (c : CapRec) : Bool := match c with | .period _ 0 _ _ _ => true | _ => false

/-- The journal operation of a captured period record. -/
def capOp (c : CapRec) : Option Nat := match c with | .period _ _ _ op _ => some op | _ => none

/-- A period close of which no captured record waits any more is completed, where its entry is open (R261). -/
def closeWritten (op : Nat) (s : State) : State :=
  if (s.gal.cap.any fun c => capOp c == some op) || !((jOpenOf s 4).any fun e => e.op = op) then s else jClose op 2 s

/-- A list without the first element that satisfies `p`. -/
def dropFirst {α : Type} (p : α → Bool) : List α → List α
  | [] => []
  | x :: t => if p x then t else x :: dropFirst p t

/-- A dropped block or record counted, with its GAL_EVT bit (R252). -/
def galDrop (bit_ : Nat) (s : State) : State :=
  raiseBit rGalEvt bit_ (modReg rGalDropped (fun w => BitVec.ofNat 32 (satSucc 0xFFFFFFFF w.toNat)) s)

/-- A captured record's place in retention RAM. -/
def capItem : CapRec → RetItem
  | .period m kind seq _ _ => .period m kind seq
  | .commitCkpt op _ _ => .commit op

/-- A period record enters the capture area, which has room for it. -/
def capPut (c : CapRec) (s : State) : State := retWritten (capItem c) { s with gal := { s.gal with cap := s.gal.cap ++ [c] } }

/-- A captured record leaves the capture area unwritten: its flash write is given up with it, and a close that waits for no other
record is over. -/
def capDrop (c : CapRec) (s : State) : State :=
  match c with
  | .period m kind seq op _ =>
    let t := { s with nv := { s.nv with jobs := s.nv.jobs.filter fun j => match j.kind with
      | .period a b d _ => !(a == m && b == kind && d == seq)
      | _ => true } }
    closeWritten op { t with gal := { t.gal with cap := dropFirst (fun x => x = c) t.gal.cap } }
  | .commitCkpt _ _ _ => s

/-- A period record enters the capture area; in a full one it replaces the oldest hour record, else it is dropped (R252). -/
def capture (c : CapRec) (s : State) : State :=
  if capUsed s < 24 then capPut c s
  else match s.gal.cap.find? isHourCap with
    | some old => capPut c (capDrop old s)
    | none => galDrop 1 s

/-- The next sequence number of a run and kind. -/
def seqNext (n : Nat) : Nat := if n = 0xFFFFFFFF then 1 else n + 1

/-- A run's figures of the open period of a kind. -/
def getPer (s : State) (m kind : Nat) : PerOpen := (getRun s m).per.getD kind (perOpenReset [] false)

/-- The figures of a run's period of a kind restart, from totals whose integer parts are `base` (R225). -/
def perRestart (m kind : Nat) (base : List Nat) (closed : Bool) (s : State) : State :=
  updRun m (fun x => { x with per := (List.range 3).map fun i =>
    if i = kind then perOpenReset base closed else x.per.getD i (perOpenReset [] false) }) s

/-- A captured period record is handed to the flash writer (R223). -/
def periodWrite (m kind seq op : Nat) (bs : List Byte) (s : State) : State :=
  let ring := if kind = 0 then 3 else 4
  let off := ringPlace s ring 256
  pushJob (.period m kind seq op) (ringAddr ring off) bs (ringPut ring seq 256 s)

/-- One record of a closing period captured, its flash write begun, and the run's sums restarted; a record that the capture area
drops is not written (R252). A run that is not enabled has no close, and keeps the totals of its previous one (R223 to R225). -/
def closeRun (m kind last op : Nat) (s : State) : State :=
  let p := getPer s m kind
  if !runEn s m then perRestart m kind p.base p.closed s
  else
    let r := getRun s m
    let k := getKind s kind
    let seq := seqNext (r.seqs.getD kind 0)
    let bs := periodBytes m kind seq (k.first.getD last) last p k s
    let c : CapRec := .period m kind seq op bs
    let t := capture c s
    let t := if t.gal.cap.contains c then periodWrite m kind seq op bs t else t
    let t := perRestart m kind (r.accs.map accInt) true (updRun m (fun x => { x with
      seqs := (List.range 3).map fun i => if i = kind then seq else x.seqs.getD i 0 }) t)
    setReg 0x2204 (BitVec.ofNat 32 seq) (setReg 0x2205 (BitVec.ofNat 32 t.time.ring)
      (setReg 0x2206 (BitVec.ofNat 32 (t.time.ring / 2 ^ 32)) t))

/-- A period kind closes after tick `last`: one record per enabled run, M0 to M7, and its event (R223). -/
def closeKind (kind last op : Nat) (s : State) : State :=
  raiseBit rPerEvt kind (forN 8 (fun m => closeRun m kind last op) s)

/-- The runs enabled, bit m. -/
def runMask (s : State) : Nat := (List.range 8).foldl (fun a m => a + b2n (runEn s m) * 2 ^ m) 0

/-- The kinds of a list, with their last ticks, close under one journal entry, and their next period opens at the tick and
with the end given (R223, R261); an entry without a record to write is completed at once. -/
def closeKinds (ks : List (Nat × Nat × Nat × Int)) (boundary : Nat) (s : State) : State :=
  if ks.isEmpty then s
  else
    let op := jNext s
    let mask := runMask s + ks.foldl (fun a k => a + 2 ^ (8 + k.1)) 0
    let t := jStep op 0 (jOpen 4 (boundary % 2 ^ 32) mask s)
    closeWritten op (ks.foldl (fun u k =>
      openKind k.1 k.2.2.1 k.2.2.2 (closeKind k.1 k.2.1 op (forHalls noteVstate u))) t)

/-- After M7's slot of tick n: the periods whose next tick would start at or after their end close (R222, R223, R226). -/
def periodEnd (n : Nat) (s : State) : State :=
  let c := contractOf s ((n + 1) * 1000000)
  let ks := (List.range 3).filterMap fun k =>
    let p := getKind s k
    if p.first.isSome && decide (p.stop ≤ c) then some (k, n, n + 1, periodNext s k c) else none
  closeKinds ks n s

/-- A step of ring time marks the open periods (R226). -/
def periodStep (s : State) : State :=
  raiseBit rPerEvt 4 (updKind 0 (fun p => { p with tstep := true })
    (updKind 1 (fun p => { p with tstep := true }) (updKind 2 (fun p => { p with tstep := true }) s)))

/-- Gap ticks from `a` up to but not including `b` added to a run's open period of a kind, those before its totals' tick
apart (R455). -/
def addGap (kind a b m : Nat) (s : State) : State :=
  if !runEn s m then s
  else match (getRun s m).tick with
    | none => s
    | some k => updRun m (fun r => { r with per := (List.range 3).map fun i =>
        let p := r.per.getD i (perOpenReset [] false)
        if i = kind then { p with gap := p.gap + (b - max a (k + 1)) } else p }) s

/-- Ticks not computed up to tick `f`, the first one computed again (R211, R455): open periods whose end passed close, the
periods open at `f` start at their own boundary, where no figures were kept with the totals at the previous close of the kind, or
with those resumed (R224), and each counts the gap ticks inside its bounds. -/
def gapUpTo (f : Nat) (s : State) : State :=
  let c := contractOf s (f * 1000000)
  let past := (List.range 3).filterMap fun k =>
    let p := getKind s k
    if p.first.isSome && decide (p.stop ≤ c) then
      some (k, tickAt s p.stop - 1, tickAt s (periodFloor s k c), periodNext s k c) else none
  let t := past.foldl (fun u k =>
    forN 8 (fun m => addGap k.1 ((getKind u k.1).first.getD 0) (k.2.1 + 1) m) u) s
  let t := closeKinds past ((past.head?.map (·.2.1)).getD 0) t
  let t := forN 3 (fun k u =>
    if (getKind u k).first.isSome then u
    else
      openKind k (tickAt u (periodFloor u k c)) (periodNext u k c)
        (forN 8 (fun m w =>
          let p := getPer w m k
          perRestart m k (if p.closed then p.base else (getRun w m).accs.map accInt) p.closed w) u)) t
  forN 3 (fun k u => forN 8 (fun m => addGap k ((getKind u k).first.getD 0) f m) u) t

/-- A COMMIT of TZ_Q or DAY_HOUR at tick `n`: open periods end at the first boundary after it (R221). -/
def periodReplan (n : Nat) (s : State) : State :=
  forN 3 (fun k u => updKind k (fun p => { p with stop := periodNext u k (contractOf u (n * 1000000)) }) u) s

end Sys2Proof.Machine
end

