-- ==== Sys2Proof/Machine/Gallery.lean ====
section
/-! DEFINITION. The gallery: interval sums, blocks and their coding (R247 to R252). -/

namespace Sys2Proof.Machine

/-- A run's empty interval sums. -/
def galSumReset : GalSum :=
  { ticks := 0, flags := 0, alarm := 0, sums := List.replicate 6 0, cnts := List.replicate 6 0 }

/-- A tier's open block before its first interval. -/
def galTierReset (first : Bool) : GalTier :=
  { plan := [], replan := false, firstTick := none, first := first, timeStep := false, cur := none, ivs := [], sums := [], count := 0 }

/-- Tier 1 or 2. -/
def getTier (s : State) (tier : Nat) : GalTier := if tier = 1 then s.gal.t1 else s.gal.t2

/-- A tier mapped by `f`. -/
def updTier (tier : Nat) (f : GalTier → GalTier) (s : State) : State :=
  if tier = 1 then { s with gal := { s.gal with t1 := f s.gal.t1 } } else { s with gal := { s.gal with t2 := f s.gal.t2 } }

/-- Ticks of an interval of a tier. -/
def galLen (tier : Nat) : Nat := if tier = 1 then 1000 else 60000

/-- A computed tick of a run enters its open interval (R247): QM, P, T, DP or FREQ, ρ1, PI. -/
def galTick (m : Nat) (alarm : Bool) (status : Word) (vs : List (Option Ext)) (s : State) : State :=
  let f (g : GalTier) : GalTier :=
    let a := tget (fun _ => galSumReset) g.sums m
    let b : GalSum :=
      { ticks := a.ticks + 1
        flags := a.flags ||| status
        alarm := a.alarm + b2n alarm
        sums := (List.range 6).map fun i => match vs.getD i none with
          | some v => xadd (a.sums.getD i 0) v
          | none => a.sums.getD i 0
        cnts := (List.range 6).map fun i => a.cnts.getD i 0 + b2n (vs.getD i none).isSome }
    { g with sums := tset (fun _ => galSumReset) g.sums m b }
  updTier 1 f (updTier 2 f s)

/-- GAL_CFG and GAL_SCALE of every run as they stand. -/
def galPlan (s : State) : List (Word × Word) := (List.range 8).map fun m => (getReg s (0x2620 + m), getReg s (0x2628 + m))

/-- Scale s of point p in a tier's plan: a signed 5-bit field of GAL_SCALE. -/
def galScale (g : GalTier) (m p : Nat) : Int := bitsSigned (g.plan.getD m (0, 0)).2 (5 * p + 4) (5 * p)

/-- k of point p. -/
def galK (g : GalTier) (m p : Nat) : Nat := bits (g.plan.getD m (0, 0)).1 (4 * p + 3) (4 * p)

/-- X of a value at scale `sc`, and its saturation (R248). -/
def galFixed (v : Word) (sc : Int) : Int × Bool :=
  match fpRoundInt (fpMul (fval v) (.fin false 1 sc)) with
  | some i => (clamp32 i, i != clamp32 i)
  | none => (clamp32 (if bit v 31 then -2147483648 else 2147483647), true)

/-- An interval of a run closed from its sums. -/
def galClose (g : GalTier) (tier m : Nat) (a : GalSum) : GalIv :=
  let v (p : Nat) : Word := x32 (xdiv (a.sums.getD p 0) (xint (a.cnts.getD p 0)))
  let fx (p : Nat) : Int × Bool := if a.cnts.getD p 0 = 0 then (0, false) else galFixed (v p) (galScale g m p)
  { any := a.ticks != 0
    flags := a.flags
    alarm := a.alarm
    gap := galLen tier - a.ticks
    absent := (List.range 6).foldl (fun w p => w + b2n (a.cnts.getD p 0 = 0) * 2 ^ p) 0
    sat := (List.range 6).foldl (fun w p => w + b2n (fx p).2 * 2 ^ p) 0
    xs := (List.range 6).map fun p => (fx p).1 }

/-- An interval in which a run computed nothing. -/
def galNone (tier : Nat) : GalIv :=
  { any := false, flags := 0, alarm := 0, gap := galLen tier, absent := 63, sat := 0, xs := List.replicate 6 0 }

/-- The open interval of a tier closes (R247) under the plan it began with. -/
def galIntervalEnd (tier : Nat) (s : State) : State :=
  let g := getTier s tier
  let f (ivs : Table (List GalIv)) (m : Nat) : Table (List GalIv) :=
    let l := tget (fun _ => []) ivs m
    if runEn s m || !l.isEmpty then
      tset (fun _ => []) ivs m
        (l ++ List.replicate (g.count - l.length) (galNone tier)
          ++ [galClose g tier m (tget (fun _ => galSumReset) g.sums m)])
    else ivs
  updTier tier (fun x => { x with
    firstTick := if x.count = 0 then x.cur else x.firstTick
    cur := x.cur.map (· + galLen tier)
    ivs := (List.range 8).foldl f x.ivs
    sums := []
    count := x.count + 1 }) s

/-! Blocks (R249, R251). -/

/-- The present values of point p over the intervals. -/
def pointXs (ivs : List GalIv) (p : Nat) : List Int :=
  (ivs.filter fun v => v.any && !v.absent.testBit p).map fun v => v.xs.getD p 0

/-- The codes of point p as bit strings, one per present value, with its r. -/
def pointCodes (ivs : List GalIv) (p k : Nat) : Nat × List (List Bool) :=
  let xs := pointXs ivs p
  let zs := codeSeq (2 ^ k - 1) [] xs
  let r := bestR zs
  (r, (zs.zip xs).map fun e => match e.1 with
    | some z => rice z r
    | none => msbBits 32 (BitVec.ofInt 32 e.2).toNat)

/-- Bits A and F and the fields of one interval. -/
def ivHead (prev : Option GalIv) (v : GalIv) : List Bool :=
  if !v.any then [true]
  else
    let same := match prev with
      | some q => q.any && q.flags == v.flags && q.alarm == v.alarm && q.gap == v.gap && q.absent == v.absent
          && q.sat == v.sat
      | none => false
    if same then [false, true]
    else [false, false] ++ msbBits 32 v.flags.toNat ++ msbBits 16 v.alarm ++ msbBits 16 v.gap ++ msbBits 6 v.absent
      ++ msbBits 6 v.sat

/-- The bit stream of a run's intervals; `cs` holds the codes still to be written of each point of the mask. -/
def sectionBits (mask : Nat) : Option GalIv → List (List (List Bool)) → List GalIv → List Bool
  | _, _, [] => []
  | prev, cs, v :: t =>
    let use (p : Nat) : Bool := v.any && mask.testBit p && !v.absent.testBit p
    let now := ((List.range 6).map fun p => if use p then ((cs.getD p []).headD []) else []).flatten
    let rest := (List.range 6).map fun p => if use p then (cs.getD p []).drop 1 else cs.getD p []
    ivHead prev v ++ now ++ sectionBits mask (some v) rest t

/-- A run's section of a block. -/
def galSection (g : GalTier) (m : Nat) (ivs : List GalIv) : List Byte :=
  let mask := bits (g.plan.getD m (0, 0)).1 29 24
  let cs := (List.range 6).map fun p => pointCodes ivs p (galK g m p)
  let ks := (List.range 6).foldl (fun a p => a + galK g m p * 16 ^ p) 0
  let rs := (List.range 6).foldl (fun a p => a + (cs.getD p (0, [])).1 * 16 ^ p) 0
  leBytes 1 mask ++ leBytes 1 0 ++ leBytes 3 ks ++ leBytes 3 rs
    ++ (List.range 6).map (fun p => BitVec.ofInt 8 (galScale g m p)) ++ leBytes 2 0
    ++ packAll (sectionBits mask none (cs.map (·.2)) ivs)

/-- A tier's block as bytes. -/
def galBlock (s : State) (tier : Nat) : List Byte :=
  let g := getTier s tier
  let runs := (List.range 8).filter fun m => !(tget (fun _ => []) g.ivs m).isEmpty
  let pay := (runs.map fun m =>
    let l := tget (fun _ => []) g.ivs m
    galSection g m (l ++ List.replicate (g.count - l.length) (galNone tier))).flatten
  let h := leBytes 2 0xA6A1 ++ leBytes 1 tier ++ leBytes 1 (b2n g.first + 2 * b2n g.timeStep)
    ++ leBytes 4 (getRing s (tier - 1)).seq ++ leBytes 8 (g.firstTick.getD 0) ++ leBytes 4 (activeGen s)
    ++ leBytes 2 g.count ++ leBytes 2 pay.length ++ leBytes 1 (runs.foldl (fun a m => a + 2 ^ m) 0) ++ leBytes 3 0
  h ++ leBytes 4 (crc32c (h ++ pay)).toNat ++ pay

/-- A main SRAM word of a tier's block in progress that holds an uncorrectable error (R393, R399). -/
def galBad (s : State) (tier : Nat) : Option (Nat × Nat) :=
  s.mem.bad.find? fun e => e.1 = 0 && 0x1A000 ≤ e.2 && e.2 < 0x1D000 && Config.galWord tier e.2

/-- A tier's closed block begins its flash write, journaled as a gallery flush (R251, R252). -/
def galWrite (tier seq : Nat) (s : State) : State :=
  let r := tier - 1
  let bs := galBlock s tier
  let op := jNext s
  let t := jOpen 6 r seq s
  let off := ringPlace t r bs.length
  pushJob (.block tier seq op) (ringAddr r off) bs (ringPut r seq bs.length t)

/-- A tier's open block closes and is written; one that the coder cannot read is dropped (R399). -/
def galFlush (tier : Nat) (s : State) : State :=
  if (getTier s tier).count = 0 then s
  else
    let r := tier - 1
    let seq := (getRing s r).seq
    let t := match galBad s tier with
      | none => galWrite tier seq s
      | some e => galDrop 0 (eccFound 0 0 e.2 (eccRewritten (fun x => x.1 = 0 && Config.galWord tier x.2) s))
    let t := updRing r (fun x => { x with seq := (x.seq + 1) % 2 ^ 32 }) t
    updTier tier (fun g => { galTierReset false with plan := g.plan, replan := g.replan, cur := g.cur, sums := g.sums }) t

/-- A plan changed by a COMMIT takes effect between two intervals: the block that holds the interval the COMMIT fell into closes
(R252). -/
def galReplan (tier : Nat) (s : State) : State :=
  if (getTier s tier).replan then
    updTier tier (fun g => { g with plan := galPlan s, replan := false }) (galFlush tier s)
  else s

/-- The open interval of a tier closes, and a new plan applies from the next one (R247, R252). -/
def galInterval (tier : Nat) (s : State) : State := galReplan tier (galIntervalEnd tier s)

/-- A COMMIT changes GAL_CFG or GAL_SCALE: the open blocks close, and the new plan waits for the interval's end (R252). -/
def galCommit (s : State) : State :=
  let t := galFlush 1 (galFlush 2 s)
  updTier 1 (fun g => { g with replan := true }) (updTier 2 (fun g => { g with replan := true }) t)

/-- A tick that carries TICK_ADJ marks the open blocks. -/
def galStep (s : State) : State :=
  updTier 1 (fun g => { g with timeStep := true }) (updTier 2 (fun g => { g with timeStep := true }) s)

/-- Ticks of a block of a tier. -/
def galSpan (tier : Nat) : Nat := 60 * galLen tier

/-- Intervals without a computed tick fill a tier's block up to tick `a`. -/
def galSkip (tier a : Nat) (s : State) : State :=
  updTier tier (fun g => { g with
    firstTick := if g.count = 0 then g.cur else g.firstTick
    count := g.count + (a - g.cur.getD a) / galLen tier
    cur := some a }) s

/-- A tier before tick `n` is computed (R247, R252): where ticks were not computed, or ring time was stepped, the interval
left open closes, whole intervals between hold no tick, and a block whose end was passed closes. After a backward step a
block ends with the interval it stands in. -/
def galReach (tier n : Nat) (s : State) : State :=
  let a := n / galLen tier * galLen tier
  let b := n / galSpan tier * galSpan tier
  match (getTier s tier).cur with
  | none => updTier tier (fun g => { g with plan := galPlan s, replan := false, cur := some a }) s
  | some c =>
    if c = a then s
    else
      let g := getTier s tier
      let t := if g.sums.isEmpty then s else galInterval tier s
      if c < a && b ≤ c then galSkip tier a t
      else
        let stop := (c / galSpan tier + 1) * galSpan tier
        let t := if c < a && 0 < (getTier t tier).count then galSkip tier stop t else t
        let t := galFlush tier t
        if c < a then galSkip tier a (updTier tier (fun g => { g with cur := some b }) t)
        else updTier tier (fun g => { g with cur := some a }) t

/-- Intervals that end with tick `n` close. -/
def galIntervals (n : Nat) (s : State) : State :=
  let t := if (n + 1) % 1000 = 0 then galInterval 1 s else s
  if (n + 1) % 60000 = 0 then galInterval 2 t else t

/-- Blocks that end with tick `n` close, tier 2 before tier 1 (R252). -/
def galBlocks (n : Nat) (s : State) : State :=
  let t := if (n + 1) % 3600000 = 0 then galFlush 2 s else s
  if (n + 1) % 60000 = 0 then galFlush 1 t else t

/-- A logic-die reset loses the open blocks; the next one is the first after a start (R252). -/
def galReset (s : State) : State := { s with gal := { s.gal with t1 := galTierReset true, t2 := galTierReset true } }

end Sys2Proof.Machine
end

