-- ==== Sys2Proof/Machine/Records.lean ====
section
/-! DEFINITION. Completion of flash writes, chip recovery, and the black-box dump (R219, R223, R252, R257 to R259, R277,
R285). -/

namespace Sys2Proof.Machine

/-! Flash writes (R219, R223, R252, R261). -/

/-- Both results of a write are in. -/
def jobOver (j : FlashJob) : Bool := j.r0.isSome && j.r1.isSome
/-- The write reads back from some chip. -/
def jobStored (j : FlashJob) : Bool := j.r0 == some true || j.r1 == some true
/-- The write failed on a chip it was for, or had none. -/
def jobFailed (j : FlashJob) : Bool := (j.use0 && j.r0 == some false) || (j.use1 && j.r1 == some false) || !jobStored j

/-- The journal operation of a write. -/
def jobOp (j : FlashJob) : Nat :=
  match j.kind with
  | .ckpt _ _ _ op => op
  | .period _ _ _ op => op
  | .block _ _ op => op
  | .repair op => op
  | .page op => op

/-- The journal steps of a gallery flush that a write finished (R261). -/
def flushSteps (j : FlashJob) (s : State) : State :=
  let t := if j.r0 == some true then jStep (jobOp j) 0 s else s
  let t := if j.r1 == some true then jStep (jobOp j) 1 t else t
  if jobStored j then jClose (jobOp j) 2 (jStep (jobOp j) 2 t) else jClose (jobOp j) 3 t

/-- GAL_STAT.WRITE_FAIL after a gallery write. -/
def galWrote (j : FlashJob) (s : State) : State := { s with gal := { s.gal with writeFail := !jobStored j } }

/-- A write of operation `op` is still under way. -/
def opPending (s : State) (op : Nat) : Bool := s.nv.jobs.any fun j => jobOp j = op

/-- A COMMIT's checkpoint of run `m` is on flash: it leaves the capture area, whose slots are free with its last one (R242). -/
def ckptStored (op m : Nat) (s : State) : State :=
  let drop (c : CapRec) : Option CapRec := match c with
    | .commitCkpt o k recs =>
      if o = op then
        let l := recs.filter fun bs => leAt bs 0 1 ≠ m
        if l.isEmpty then none else some (.commitCkpt o k l)
      else some c
    | .period _ _ _ _ _ => some c
  { s with gal := { s.gal with cap := s.gal.cap.filterMap drop } }

/-- A checkpoint's write is over (R219): TOT_CKPT where some chip holds it; tried once more after a failure, then
CKPT_FAIL_EVT. -/
def ckptOver (j : FlashJob) (m tick : Nat) (commit : Bool) (op : Nat) (s : State) : State :=
  let s := if jobStored j && !commit then setReg (aTot m 0x1D) (BitVec.ofNat 32 tick) s else s
  if jobFailed j && j.tries < 2 && nvWritable s then addJob (newJob j.kind j.off j.bytes 2 true true s) s
  else
    let t := if jobFailed j then raiseBit (rTotEvt m) 4 s else s
    if !commit then flushSteps j t
    else if jobStored j then jCommitProgress (ckptStored op m t)
    else t

/-- A period record's write is over (R223): its capture slot is free once a chip holds it. -/
def periodOver (j : FlashJob) (m kind seq op : Nat) (s : State) : State :=
  if jobStored j then
    let t := { s with gal := { s.gal with cap := s.gal.cap.filter fun c => match c with
      | .period a b d _ _ => !(a == m && b == kind && d == seq)
      | _ => true } }
    let t := if opPending t op then t
      else
        let t := if j.r0 == some true then jStep op 1 t else t
        if j.r1 == some true then jStep op 2 t else t
    closeWritten op t
  else
    let t := raiseBit rPerEvt 3 s
    if nvWritable t then addJob (newJob j.kind j.off j.bytes (j.tries + 1) true true t) t else t

/-- A gallery block's write is over: dropped and counted where no chip took it (R252). -/
def blockOver (j : FlashJob) (s : State) : State :=
  flushSteps j (if jobStored j then s else galDrop 0 s)

/-- The repair of an image copy is over (R277): the copy holds the active image, REPAIR_EVT. -/
def repairOver (j : FlashJob) (op : Nat) (s : State) : State :=
  let i := (if j.use0 then 0 else 2) + s.img.slot
  if jobStored j then
    let t := jClose op 2 (jStep op 2 (jStep op 1 (jStep op 0 s)))
    raiseBit rImgEvt 7 { t with img := { t.img with
      copies := (List.range 4).map fun k => if k = i then 2 else t.img.copies.getD k 0
      gens := (List.range 4).map fun k => if k = i then t.img.gen else t.img.gens.getD k 0xFFFFFFFF } }
  else
    jClose op 3 { s with img := { s.img with
      copies := (List.range 4).map fun k => if k = i then 6 else s.img.copies.getD k 0 } }

/-- Image data of the open image commit that waits for its page program. -/
def isPageJob (j : FlashJob) : Bool := match j.kind with | .page _ => true | _ => false

/-- Closed image data is programmed: steps 0 and 1 are finished once its last page is (R289). -/
def pagesDone (s : State) : State :=
  if s.img.phase = 3 && !(s.nv.jobs.any isPageJob) then jStep s.img.op 1 (jStep s.img.op 0 s) else s

/-- What a finished write leads to. -/
def jobDone (j : FlashJob) (s : State) : State :=
  match j.kind with
  | .ckpt m tick commit op => galWrote j (ckptOver j (m % 8) tick commit op s)
  | .period m kind seq op => galWrote j (periodOver j m kind seq op s)
  | .block _ _ _ => galWrote j (blockOver j s)
  | .repair op => repairOver j op s
  | .page _ => pagesDone s

/-- The result of the first write that still waits for chip `i`. -/
def jobMark (i : Nat) (ok : Bool) : List FlashJob → List FlashJob
  | [] => []
  | j :: t =>
    if (if i = 0 then j.r0 else j.r1).isNone then
      (if i = 0 then { j with r0 := some ok } else { j with r1 := some ok }) :: t
    else j :: jobMark i ok t

/-- The first write that still waits for chip `i`. -/
def jobFor (s : State) (i : Nat) : Option FlashJob :=
  s.nv.jobs.find? fun j => (if i = 0 then j.r0 else j.r1).isNone

/-- Finished writes leave the list in order, each with its consequences; `fuel` of them. -/
def jobsSettle : Nat → State → State
  | 0, s => s
  | n + 1, s =>
    match s.nv.jobs.find? jobOver with
    | none => s
    | some j => jobsSettle n (jobDone j { s with nv := { s.nv with jobs := dropFirst jobOver s.nv.jobs } })

/-- With no chip that accepts writes, what waits for the flash writer is over: blocks dropped, checkpoints and closes failed
(R21, R219, R223, R252). -/
def jobsLost (s : State) : State := if nvWritable s then s else jobsSettle s.nv.jobs.length s

/-- FLASH_OPERATION_COMPLETE (R285): a program, erase or read-back on a chip completes; the flash writer checks in. -/
def execFlashOperationComplete (chip : Fin 2) (ok : Bool) (s : State) : Host.Outcome State Fault Refusal :=
  if !logicUp s || !chipOk (nvChip s chip) then done s
  else
    let n := s.nv.jobs.length
    let t := match jobFor s chip with
      | none => s
      | some j =>
        let u := if ok then nvProgram chip j.off j.bytes s else s
        { u with nv := { u.nv with jobs := jobMark chip ok u.nv.jobs } }
    done (checkIn 12 (jobsSettle n (chipResult chip ok t)))

/-- A captured record that retention RAM does not hold intact is not written: reported, dropped and counted (R252, R399). -/
def capUnread (c : CapRec) (s : State) : State :=
  let t := galDrop 1 (retWritten (capItem c) (eccSeen (inRet (capItem c)) s))
  match c with
  | .period _ _ _ _ _ => capDrop c t
  | .commitCkpt _ _ _ => { t with gal := { t.gal with cap := dropFirst (fun x => x = c) t.gal.cap } }

/-- The captured records that the flash writer can read. -/
def capSound (s : State) : State :=
  s.gal.cap.foldl (fun t c => if retBad t (capItem c) then capUnread c t else t) s

/-- Captured period records are handed to the flash writer again. -/
def recapturePeriods (s : State) : State :=
  (capSound s).gal.cap.foldl (fun t c => match c with
    | .period m kind seq op bs => periodWrite m kind seq op bs t
    | .commitCkpt _ _ _ => t) (capSound s)

/-- Every captured record is handed to the flash writer again. -/
def recapture (s : State) : State :=
  (capSound s).gal.cap.foldl (fun t c => match c with
    | .period _ _ _ _ _ => t
    | .commitCkpt op _ recs => ckptsBegin op recs t) (recapturePeriods s)

/-- CHIP_RETRY (R285): a failed chip answers with its SFDP and takes the region directory's page; the flash writer checks in
(R383), a pending dump is tried, and its image copies are to be checked. -/
def execChipRetry (chip : Fin 2) (ok : Option ChipFound) (s : State) : Host.Outcome State Fault Refusal :=
  if !logicUp s || !(nvChip s chip).failed then done s
  else match ok with
    | none => done (checkIn 12 s)
    | some f =>
      let t := updChip chip (fun c => { c with known := true, failed := false, fails := 0, quad := f.quad, id := f.id.toNat }) s
      let t := raiseBit rNvEvt 1 (dirWrite (checkIn 12 t))
      let t := { t with
        bb := { t.bb with dumping := t.bb.pend, failed := false }
        img := { t.img with copies := (List.range 4).map fun k =>
          if k / 2 = chip.val && t.img.copies.getD k 0 ≠ 1 then 7 else t.img.copies.getD k 0 } }
      done (if nvLost s then recapture t else t)

/-! The black box (R256 to R259). -/

/-- A ring entry's 16 bytes (R254). -/
def bbBytes (e : BbEntry) : List Byte :=
  leBytes 8 e.time ++ leBytes 2 e.seq ++ leBytes 1 e.code ++ leBytes 1 e.src ++ leBytes 4 e.data

/-- The event ring's 32 KiB: entry with count n at place n modulo 2,048. -/
def bbRing (s : State) : List Byte :=
  let t : Table BbEntry := s.bb.events.foldl (fun a e => tput a (e.seq % 2048) e) []
  ((List.range 2048).map fun i =>
    bbBytes (tget (fun _ => { time := 0, seq := 0, code := 0, src := 0, data := 0 }) t i)).flatten

/-- The sample area's 14 KiB. -/
def bbSamples (s : State) : List Byte :=
  padTo 14336 0 ((s.bb.samples.map fun b => sampleBlock b.ch b.recs).flatten)

/-- The 60 bytes of the freeze header before its CRC (R259). -/
def bbHead (s : State) : List Byte :=
  let h := s.bb.hdr
  let newest := match s.bb.events.getLast? with | some e => e.seq % 2048 | none => 0
  leBytes 2 0xA6A5 ++ leBytes 1 h.cause ++ leBytes 1 h.trap ++ leBytes 4 h.seq ++ leBytes 8 h.time ++ leBytes 2 h.checked
    ++ leBytes 2 h.mask ++ leBytes 2 newest ++ leBytes 2 s.bb.events.length ++ leBytes 4 h.addr ++ leBytes 4 h.gen
    ++ leBytes 4 h.missed ++ leBytes 8 h.tick ++ leBytes 16 0

/-- A dump's 64 KiB (R259). -/
def bbDump (s : State) : List Byte :=
  let body := padTo 65472 blankByte (bbRing s ++ bbSamples s)
  bbHead s ++ leBytes 4 (crc32c (bbHead s ++ body)).toNat ++ body

/-- Chip address of a dump sector. -/
def dumpAddr (sector : Nat) : Nat := 0x01240000 + 65536 * (sector % 16)

/-- Capture resumes. -/
def bbResume (s : State) : State :=
  { s with
    str := { s.str with ready := if s.str.named % 32 = 23 then 0 else s.str.ready }
    bb := { s.bb with frozen := false, pend := false, dumping := false, failed := false } }

/-- DUMP_DONE (R258): the dump's sector erase and page programs are over on both chips; one that reads back ends the freeze,
none leaves it pending. -/
def execDumpDone (ok0 ok1 : Bool) (s : State) : Host.Outcome State Fault Refusal :=
  if !logicUp s || !s.bb.frozen || !s.bb.pend || !s.bb.dumping then done s
  else
    let sec := s.bb.dumpSeq % 16
    let a := dumpAddr sec
    let w0 := chipOk s.nv.c0
    let w1 := chipOk s.nv.c1
    let t := nvErase a 65536 s
    let t := if nvWritable s then
        dirWrite { t with bb := { t.bb with dumps := t.bb.dumps.filter fun d => d.2 ≠ sec } }
      else t
    let t := if w0 then chipResult 0 ok0 (if ok0 then nvProgram 0 a (bbDump s) t else t) else t
    let t := if w1 then chipResult 1 ok1 (if ok1 then nvProgram 1 a (bbDump s) t else t) else t
    let t := checkIn 12 t
    if (w0 && ok0) || (w1 && ok1) then
      let t := { t with bb := { t.bb with
        dumps := t.bb.dumps ++ [(t.bb.dumpSeq, sec)], dumpSeq := t.bb.dumpSeq + 1 } }
      done (raiseBit rBbEvt 1 (bbResume t))
    else done (raiseBit rBbEvt 2 { t with bb := { t.bb with dumping := false, failed := true } })

end Sys2Proof.Machine
end

