-- ==== Sys2Proof/Machine/Engine.lean ====
section
/-! DEFINITION. The run engine: inputs, one run's tick, increments, outputs, traps, slots and the end of a tick (R177 to
R205, R211). -/

namespace Sys2Proof.Machine

/-! Run configuration (R203, R204). -/

/-- RUN_CFG.METER. -/
def runMeter (s : State) (m : Nat) : Nat := bits (runCfgW s m) 30 28
/-- RUN_CFG.FLUID. -/
def runFluid (s : State) (m : Nat) : Nat := bits (runCfgW s m) 27 26
/-- RUN_CFG.N_DP. -/
def runNDp (s : State) (m : Nat) : Nat := bits (runCfgW s m) 23 22
/-- RUN_CFG.AUX_USE. -/
def runAux (s : State) (m : Nat) : Nat := bits (runCfgW s m) 19 18
/-- RUN_PAR `i`, binary32. -/
def par (s : State) (m i : Nat) : Word := getReg s (aRun m (0x10 + i))
/-- RUN_OPAR `j`. -/
def opar (s : State) (m j : Nat) : Word := getReg s (aRun m (0x30 + j))

/-! Inputs (R183, R184). -/

/-- s and o of a scaling, each rounded to binary32 once. -/
def scaleOf (lrv urv : Word) : Word × Word :=
  let k := fenc (fpMul (fpAdd (fval urv) (fpNeg (fval lrv))) (.fin false 1 (-4)))
  (k, fenc (fpAdd (fval lrv) (fpNeg (fpMul (.fin false 4 0) (fval k)))))

/-- An input as classified in a tick: scaled value, and for a stack member class 3 or 4 or OVR upward, and the conditions of
STACK_DEGRADED (R187). -/
structure InVal where
  stale : Bool
  flagged : Bool
  v : Word
  ovrUp : Bool
  degraded : Bool
  rec_ : Option Rec
deriving DecidableEq, Repr

/-- A good input (R183). -/
def InVal.ok (x : InVal) : Bool := !x.stale && !x.flagged

/-- Channel `g` read from the tick set at the tick boundary's label, scaled where a scaling is given; a thermocouple takes
T_CJ from the set too (R99). -/
def readIn (s : State) (g : Nat) (scale : Option (Word × Word)) : InVal :=
  match s.eng.set.recs.find? (fun e => e.1 = g) with
  | none => ⟨true, false, 0, false, true, none⟩
  | some e =>
    let r := e.2
    let ms := s.eng.set.modes
    let tc := (chanAt s ms g r).mode = 11
    let cj := if tc then setColdJunction s s.eng.set g else (0, false)
    let x := recordValue s ms g r cj.1
    let v := match scale with
      | some k => ffma x.1 k.1 k.2
      | none => x.1
    let old := decide ((r.time : Int) + 3000000 < (s.eng.set.tick * 1000000 : Nat))
    let cls := recordClass s ms g r
    let ovr := tagBit r.tag 31
    ⟨old, recordFlagged s ms g r || tagBit r.tag 29 || x.2 || cj.2, v,
      cls = 3 || cls = 4 || (ovr && !bit r.code 31),
      old || ovr || tagBit r.tag 27 || tagBit r.tag 26 || cls = 1 || cls = 4, some r⟩

/-- Role `role` of a run, scaled by RUN_PAR `lo` and `lo` + 1, or unscaled. -/
def readRole (s : State) (m role : Nat) (scaled : Option Nat) : InVal :=
  match roleCh s m role with
  | none => ⟨true, false, 0, false, false, none⟩
  | some g => readIn s g (scaled.map fun lo => scaleOf (par s m lo) (par s m (lo + 1)))

/-- What the inputs of a tick have given so far: last good values, HOLD, STALE, FLAGGED, NO_VALUE. -/
structure Held where
  good : List (Nat × Word)
  hold : Bool
  stale : Bool
  flagged : Bool
  none_ : Bool
deriving DecidableEq, Repr

/-- The last good value of a role. -/
def lastGood (l : List (Nat × Word)) (role : Nat) : Option Word := (l.find? fun e => e.1 = role).map (·.2)

/-- A role's last good value replaced. -/
def setGood (l : List (Nat × Word)) (role : Nat) (v : Word) : List (Nat × Word) :=
  (role, v) :: l.filter fun e => e.1 ≠ role

/-- A stale or flagged input is replaced by its last good value (R184). -/
def holdIn (role : Nat) (stale : Bool) (h : Held) : Word × Held :=
  let v := lastGood h.good role
  (v.getD 0, { h with hold := h.hold || v.isSome, stale := h.stale || stale, flagged := h.flagged || !stale
                      none_ := h.none_ || v.isNone })

/-- An input used in a tick (R184). -/
def useIn (role : Nat) (x : InVal) (h : Held) : Word × Held :=
  if x.ok then (x.v, { h with good := setGood h.good role x.v }) else holdIn role x.stale h

/-! Stacked transmitters (R187). -/

/-- The members of a stack: values, URVs, and the switch points. -/
structure Stack where
  ins : List InVal
  urv : List Word
  up : Ext
  dn : Ext
deriving DecidableEq, Repr

/-- Member `k`. -/
def Stack.at (t : Stack) (k : Nat) : InVal := t.ins.getD k ⟨true, false, 0, false, false, none⟩
/-- v[k] lies above SW_UP × URV[k]. -/
def Stack.above (t : Stack) (k : Nat) : Bool := xlt (xmul t.up (xof32 (t.urv.getD k 0))) (xof32 (t.at k).v)

/-- The upward moves, one member per unit of fuel. -/
def stackUp (t : Stack) : Nat → Nat → Nat
  | 0, k => k
  | n + 1, k =>
    if k + 1 < t.ins.length && ((t.at k).ovrUp || t.above k) && (t.at (k + 1)).ok then stackUp t n (k + 1) else k

/-- The downward moves. -/
def stackDown (t : Stack) : Nat → Nat → Nat
  | 0, k => k
  | n + 1, k =>
    if 0 < k && (t.at (k - 1)).ok && (t.at k).ok
        && xlt (xof32 (t.at k).v) (xmul t.dn (xof32 (t.urv.getD (k - 1) 0))) then stackDown t n (k - 1) else k

/-- The member selected, from the previous selection. -/
def stackSelect (t : Stack) (sel : Nat) : Nat :=
  let n := t.ins.length
  let u := stackUp t n sel
  let k := if u = sel then stackDown t n sel else u
  if (t.at k).ok then k
  else
    let good := (List.range n).filter fun i => (t.at i).ok
    match good.find? fun i => !(t.at i).ovrUp && !t.above i with
    | some i => i
    | none => (good.getLast?).getD k

/-- The differential pressure of a tick: value, selection, switch tick, switch tick that fails R187, degraded, record of the
selected member. -/
structure DpSel where
  v : Word
  sel : Nat
  switch : Bool
  bad : Bool
  degraded : Bool
  rec_ : Option Rec
deriving DecidableEq, Repr

/-- The stack of a run in a tick (R187). -/
def stackOf (s : State) (m : Nat) : Stack :=
  { ins := (List.range (runNDp s m)).map fun k => readRole s m k (some (16 + 2 * k))
    urv := (List.range (runNDp s m)).map fun k => par s m (17 + 2 * k)
    up := xof32 (par s m 26), dn := xof32 (par s m 27) }

/-- Selection and use of the DP (R184, R187); in a switch tick the last good DP is used (log 21). -/
def useDp (s : State) (m sel : Nat) (h : Held) : DpSel × Held :=
  let t := stackOf s m
  let k := stackSelect t sel
  let x := t.at k
  let deg := (List.range t.ins.length).any fun i => i ≠ k && (t.at i).degraded
  if k = sel then
    let r := useIn 0 x h
    (⟨r.1, k, false, false, deg, x.rec_⟩, r.2)
  else
    match lastGood h.good 0 with
    | none => (⟨0, k, true, true, deg, x.rec_⟩, { h with none_ := true })
    | some d =>
      let far := xlt (xmul (xsub t.up t.dn) (xof32 (t.urv.getD (min k sel) 0))) (xabs (xsub (xof32 x.v) (xof32 d)))
      (⟨d, k, true, !(k = sel + 1 || sel = k + 1) || far, deg, x.rec_⟩, h)

/-! Pulse meters (R188, R189). -/

/-- The pulse input of a tick: N as extended, f, KF is asked with N > 0, EDGE_DISC, carried state. -/
structure PulseIn where
  n : Ext
  f : Ext
  some_ : Bool
  disc : Bool
  car : Carried
deriving DecidableEq, Repr

/-- The pulse input of run `m` in the tick set. -/
def pulseSetOf (s : State) (m : Nat) : PulseSet :=
  tget (fun _ => { deliv := [], high := false }) s.eng.set.pulses ((roleCh s m 5).getD 0)

/-- Ticks since the last delivery: 0 with one in this tick; a tick whose boundary was realigned counts as one (R183). -/
def delivAge (s : State) (m : Nat) : Option Nat :=
  if (pulseSetOf s m).deliv.isEmpty then
    (getRun s m).car.deliv.map (· + if s.eng.set.adj then 1 else s.eng.set.tick - s.eng.doneTick)
  else some 0

/-- `n` edges, the last at ring time `last`, enter f and t_prev; in a tick with TICK_ADJ f is kept (R188). -/
def pulseFreq (adj : Bool) (n last : Nat) (car : Carried) : Carried :=
  let f := match car.tPrev with
    | some p => if adj then car.freq else xdiv (xmul (xint n) (xint 1000000000)) (xint ((last : Int) - p))
    | none => car.freq
  { car with freq := f, tPrev := some last }

/-- f of a tick without edges falls by the time since the last one (R188). -/
def pulseDecay (s : State) (m : Nat) (car : Carried) : Carried :=
  match car.tPrev with
  | none => car
  | some p =>
    let age := xint ((s.eng.set.tick * 1000000 : Nat) - (p : Int))
    let f := if s.eng.set.adj then car.freq
      else if xlt (xmul (xint 1000000000) (xof32 (par s m 30))) age then 0
      else if xlt 0 car.freq && xlt (xint 1000000000) (xmul age car.freq) then xdiv (xint 1000000000) age
      else car.freq
    { car with freq := f }

/-- The deliveries of a good tick: counts added; after staleness the first one that carries edges moves f and t_prev, its
count discarded (R188). -/
def pulseTake (s : State) (m : Nat) (l : List Deliv) (car : Carried) : PulseIn :=
  let es := l.filter fun d => 0 < d.edges
  let step (c : Carried) (ds : List Deliv) : Carried := match ds.getLast? with
    | some d => pulseFreq s.eng.set.adj ((ds.map (·.edges)).sum) d.last c
    | none => c
  let disc := car.discard && !es.isEmpty
  let rest := if disc then es.drop 1 else es
  let n := (rest.map (·.edges)).sum
  let c := if es.isEmpty then pulseDecay s m car
    else step (if disc then step car (es.take 1) else car) rest
  ⟨xint n, c.freq, decide (0 < n), disc, { c with discard := car.discard && es.isEmpty }⟩

/-- The pulse input's frequency and count (R183, R188). -/
def usePulse (s : State) (m : Nat) (car : Carried) (h : Held) : PulseIn × Held :=
  let x := pulseSetOf s m
  let car := { car with deliv := delivAge s m }
  let stale := match car.deliv with | some k => decide (3 < k) | none => true
  if stale || x.high then
    let c := { car with discard := car.discard || stale }
    (⟨xmul c.freq (xrat 1 1000), c.freq, xlt 0 c.freq, false, c⟩, (holdIn 5 stale h).2)
  else (pulseTake s m x.deliv car, { h with good := setGood h.good 5 0 })

/-- K-factor points of a run. -/
def kfPoints (s : State) (m : Nat) : List (Ext × Ext) :=
  (List.range (bits (runCfgW s m) 16 12)).map fun i =>
    (xof32 (getReg s (aRun m (0x80 + 2 * i))), xof32 (getReg s (aRun m (0x81 + 2 * i))))

/-- K by the segment that holds f: value, and f above the last point. -/
def kfSeg (f : Ext) : List (Ext × Ext) → Ext × Bool
  | [] => (0, true)
  | [p] => (p.2, xlt p.1 f)
  | p :: q :: t =>
    let here := xfma (xsub f p.1) (xdiv (xsub q.2 p.2) (xsub q.1 p.1)) p.2
    if t.isEmpty then (if xlt q.1 f then (q.2, true) else (here, false))
    else if xle q.1 f then kfSeg f (q :: t)
    else (here, false)

/-- K(f) and f outside the points (R189). -/
def kfOf (pts : List (Ext × Ext)) (f : Ext) : Ext × Bool :=
  match pts with
  | [] => (0, true)
  | p :: _ => if xlt f p.1 then (p.2, true) else kfSeg f pts

/-! One run's tick (R179, R184 to R197). -/

/-- The results of a run's tick. -/
structure RunOut where
  /-- RUN_STATUS without TRAPPED, ALARM_TICK and the output flags. -/
  flags : Word
  alarm : Bool
  inc : Ext × Ext × Ext
  /-- QM, QV, QE, DP, P, T, RHO, H, RHO_B, C, EPS, RE, FREQ, KF, PI, AUX, ITERS. -/
  live : List Ext
  /-- P, T, ρ1, h, DP or FREQ, PI where they enter the means. -/
  vals : List (Option Ext)
  car : Carried
deriving DecidableEq, Repr

/-- A flag word with bit `i` as `b`. -/
def fl (i : Nat) (b : Bool) : Word := if b then bitMask i else 0

/-- The pulsation index: value, PI_NA, new warn and alarm states (R197). -/
def pulsIndex (s : State) (m : Nat) (d : DpSel) (car : Carried) : Ext × Bool × Bool × Bool :=
  match d.rec_.bind (·.puls) with
  | none => (0, true, false, false)
  | some p =>
    let k := scaleOf (par s m (16 + 2 * d.sel)) (par s m (17 + 2 * d.sel))
    let den := xadd (xmul (xof32 p.2.1) (xof32 k.1)) (xof32 k.2)
    if p.2.2 || d.switch || xle den (xof32 (par s m 7)) then (0, true, false, false)
    else
      let pi := xdiv (xmul (xof32 p.1) (xabs (xof32 k.1))) den
      let state (was : Bool) (lim : Ext) : Bool := xlt lim pi || (was && xlt (xmul (xrat 9 10) lim) pi)
      (pi, false, state car.piWarn (xof32 (par s m 28)), state car.piAlarm (xof32 (par s m 29)))

/-- What the meter gives: mass rate, dM, live values of the meter, flags. -/
structure MeterOut where
  qm : Ext
  dm : Ext
  c : Ext
  eps : Ext
  re : Ext
  iters : Nat
  kf : Ext
  flags : Word
deriving DecidableEq, Repr

/-- A DP meter (R186). -/
def meterDp (s : State) (m : Nat) (dp p t rho mu : Ext) : MeterOut :=
  let x (i : Nat) : Ext := xof32 (par s m i)
  let r := dpFlow s.eng.progId
    { meter := runMeter s m, taps := bits (runCfgW s m) 25 24, dPipe := x 0, dBore := x 1, aPipe := x 2, aBore := x 3,
      tRef := x 4, kappa := x 5, cVent := x 6, cut := x 7, dp := dp, p := p, t := t, rho := rho, mu := mu }
  ⟨r.q, xmul r.q (xint 1000), r.c, r.eps, r.re, r.iters, 0,
    fl 25 r.cutoff ||| fl 24 r.iter ||| fl 23 r.reRange ||| fl 22 r.ratio⟩

/-- A pulse meter (R189, R196). -/
def meterPulse (s : State) (m : Nat) (x : PulseIn) (rho : Ext) : MeterOut :=
  let k := kfOf (kfPoints s m) x.f
  ⟨xmul (xdiv x.f k.1) rho, xmul (xmul (xdiv x.n k.1) rho) (xint 1000000), 0, 0, 0, 0, k.1, fl 19 (k.2 && x.some_)⟩

/-- An analogue meter (R190). -/
def meterAnalogue (s : State) (m : Nat) (q : Word) (rho rhoB : Ext) : MeterOut :=
  let neg := xlt (xof32 q) 0
  let qh := xdiv (if neg then 0 else xof32 q) (xint 3600)
  let qm := match bits (runCfgW s m) 21 20 with
    | 1 => xmul qh rho
    | 2 => xmul qh rhoB
    | _ => qh
  ⟨qm, xmul qm (xint 1000), 0, 0, 0, 0, 0, fl 25 neg⟩

/-- The flags that send a tick to the alarm totals (R195). -/
def alarmMask : Word := 0x31F80800

/-- The inputs of a run's tick together. -/
structure RunIn where
  held : Held
  p : Word
  t : Word
  tb : Bool
  aux : Word
  dp : DpSel
  pulse : PulseIn
  flow : Word
deriving DecidableEq, Repr

/-- All inputs of run `m` read, classified and held (R181, R183, R184, R187, R188). -/
def gather (s : State) (m : Nat) : RunIn :=
  let car := (getRun s m).car
  let meter := runMeter s m
  let h0 : Held := ⟨car.good, false, false, false, false⟩
  let p := useIn 3 (readRole s m 3 (some 22)) h0
  let tb := (roleCh s m 4).isSome
  let t := if tb then useIn 4 (readRole s m 4 none) p.2 else (0, p.2)
  let a := if runAux s m = 1 || runAux s m = 2 then useIn 6 (readRole s m 6 (some 24)) t.2 else (0, t.2)
  let noDp : DpSel := ⟨0, car.sel, false, false, false, none⟩
  let d := if meter ≤ 1 then useDp s m car.sel a.2 else (noDp, a.2)
  let u := if meter = 2 then usePulse s m car d.2 else (⟨0, 0, false, false, car⟩, d.2)
  let f := if meter = 3 then useIn 5 (readRole s m 5 (some 14)) u.2 else (0, u.2)
  ⟨f.2, p.1, t.1, tb, a.1, d.1, u.1, f.1⟩

/-- The flags of the inputs and the stack. -/
def inFlags (s : State) (m : Nat) (x : RunIn) : Word :=
  fl 28 x.held.hold ||| fl 27 x.held.stale ||| fl 26 x.held.flagged ||| fl 29 x.held.none_ ||| fl 17 x.dp.switch
    ||| fl 16 x.dp.degraded ||| fl 7 x.pulse.disc ||| fl 6 s.eng.set.adj
    ||| (if runMeter s m ≤ 1 then BitVec.ofNat 32 (x.dp.sel * 2 ^ 14) else 0)

/-- The carried state that the inputs leave. -/
def inCarried (x : RunIn) : Carried := { x.pulse.car with good := x.held.good, sel := x.dp.sel }

/-- A tick without values (R184): increments and live values 0. -/
def noValueOut (s : State) (m : Nat) (x : RunIn) : RunOut :=
  { flags := inFlags s m x ||| fl 13 true, alarm := true, inc := (0, 0, 0), live := List.replicate 17 0
    vals := List.replicate 6 none
    car := { inCarried x with piWarn := false, piAlarm := false, inc := some (0, 0, 0) } }

/-- A tick with values (R186 to R197). -/
def valueOut (s : State) (m : Nat) (x : RunIn) : RunOut :=
  let meter := runMeter s m
  let fluid := runFluid s m
  let ver := s.eng.propVer
  let p := if bit (runCfgW s m) 17 then xadd (xof32 x.p) (xof32 (par s m 8)) else xof32 x.p
  let t := if x.tb then xof32 x.t else Config.fluid ver .tSat (xclamp (xint 100) (xint 10000) p) 0 0
  let use := runAux s m
  let fixed := if fluid = 2 then xof32 (par s m 12) else if fluid = 3 then xof32 (par s m 13) else 0
  let aux := if use = 0 then fixed else xof32 x.aux
  let pr := fluidProps ver fluid p t x.tb aux aux (if use = 2 then some aux else none)
  let rhoB := rhoBase ver fluid (xof32 (par s m 9)) (xof32 (par s m 10))
  let dp := xof32 x.dp.v
  let o := if meter ≤ 1 then meterDp s m dp p t pr.rho pr.mu
    else if meter = 2 then meterPulse s m x.pulse pr.rho
    else meterAnalogue s m x.flow pr.rho rhoB
  let dh := xsub pr.h (xof32 (par s m 11))
  let neg := fluid ≠ 3 && xlt pr.h (xof32 (par s m 11))
  let de := if fluid = 3 || neg then 0 else xdiv (xmul o.dm dh) (xint 1000)
  let qe := if fluid = 3 || bit o.flags 25 then 0 else xmul o.qm dh
  let pi := if meter ≤ 1 then pulsIndex s m x.dp (getRun s m).car else (0, true, false, false)
  let flags := inFlags s m x ||| o.flags ||| fl 21 pr.range ||| fl 20 pr.phase ||| fl 18 neg ||| fl 13 pi.2.1
    ||| fl 12 pi.2.2.1 ||| fl 11 pi.2.2.2
  let inc := (o.dm, xdiv o.dm rhoB, de)
  { flags := flags
    alarm := flags &&& alarmMask != 0 || x.dp.bad
    inc := inc
    live := [o.qm, xdiv o.qm rhoB, qe, if meter ≤ 1 then dp else 0, p, t, pr.rho, pr.h, rhoB, o.c, o.eps, o.re,
      if meter = 2 then x.pulse.f else 0, o.kf, pi.1, if 2 ≤ fluid then aux else 0, xint o.iters]
    vals := [some p, some t, some pr.rho, if fluid = 3 then none else some pr.h,
      if meter ≤ 1 then some dp else if meter = 2 then some x.pulse.f else none, if pi.2.1 then none else some pi.1]
    car := { inCarried x with piWarn := pi.2.2.1, piAlarm := pi.2.2.2, inc := some inc } }

/-- One run's computation of a tick. -/
def compute (s : State) (m : Nat) : RunOut :=
  let x := gather s m
  if x.held.none_ then noValueOut s m x else valueOut s m x

/-- No NaN or infinity in the increments and live values, no negative increment (R196, R201). -/
def soundOut (o : RunOut) : Bool :=
  let i := [o.inc.1, o.inc.2.1, o.inc.2.2]
  i.all (fun x => xfinite x && !xlt x 0) && o.live.all fun x => xfinite x && ffinite (x32 x)

/-! Outputs (R198 to R200). -/

/-- A rounded command and whether it was clamped; none for a NaN or an infinity (R201). -/
def cmdOf (v : Ext) (lo hi : Int) : Option (Nat × Bool) :=
  (fpRoundInt (xval v)).map fun i => ((clampInt lo hi i).toNat, i != clampInt lo hi i)

/-- FOUT's command in mHz (R198). -/
def foutOf (s : State) (m : Nat) (o : RunOut) : Option (Nat × Bool) :=
  if bit o.flags 29 then some (0, false)
  else
    let rate := o.live.getD (bits (getReg s (aRun m 3)) 19 18) 0
    cmdOf (xdiv (xmul (xint 10000000) rate) (xof32 (opar s m 0))) 0 10000000

/-- IOUT's command in µA (R200). -/
def ioutOf (s : State) (m : Nat) (o : RunOut) : Option (Nat × Bool) :=
  let fail := bits (opar s m 6) 1 0
  if bit o.flags 29 || (bit o.flags 28 && fail ≠ 0) then some (if 2 ≤ fail then 21000 else 3600, false)
  else
    let v := o.live.getD (bits (getReg s (aRun m 3)) 26 24) 0
    let l := xof32 (opar s m 4)
    let u := xof32 (opar s m 5)
    cmdOf (xadd (xint 4000) (xdiv (xmul (xint 16000) (xsub v l)) (xsub u l))) 3800 20500

/-- Both commands where the roles are bound; none when a NaN or an infinity reaches an output. -/
def outputsOf (s : State) (m : Nat) (o : RunOut) : Option (Option (Nat × Bool) × Option (Nat × Bool)) :=
  let f := if (roleCh s m 7).isSome then (foutOf s m o).map some else some none
  let i := if (roleCh s m 9).isSome then (ioutOf s m o).map some else some none
  match f, i with
  | some a, some b => some (a, b)
  | _, _ => none

/-- POUT_Q in effect: total units per pulse, at least 1 (R204). -/
def poutQ (s : State) (m : Nat) : Nat :=
  let w := tget (fun _ => (opar s m 1, opar s m 2)) s.eng.poutQ m
  max (w.1.toNat + 2 ^ 32 * w.2.toNat) 1

/-- The pulse output of a tick (R199): accumulator, backlog, PLOST; PULSE_BACKLOG follows. -/
def pulseOut (m : Nat) (q : Nat × Nat × Nat) (alarm : Bool) (s : State) : State × Bool :=
  if (roleCh s m 8).isNone then (s, false)
  else
    let w := getReg s (aRun m 3)
    let qinc := match bits w 21 20 with
      | 0 => q.1
      | 1 => q.2.1
      | _ => q.2.2
    let qinc := if bit w 22 || !alarm then qinc else 0
    let qp := poutQ s m * 2 ^ 32
    let c := (getRun s m).car
    let a := c.pacc + qinc
    let n := a / qp
    let room := 0xFFFFFFFF - c.backlog
    let b := c.backlog + min n room
    let t := updRun m (fun r => { r with car := { r.car with pacc := a % qp, backlog := b } }) s
    let t := setReg (aRun m 0x46) (BitVec.ofNat 32 b) t
    let t := if room < n then modReg (aRun m 0x47) (fun x => x + BitVec.ofNat 32 (n - room)) t else t
    (t, b = 0xFFFFFFFF)

/-! The end of a slot (R201, R202, R211). -/

/-- RUN_STATUS written; each bit that rises, and those of `again`, make their events. -/
def runStatus (m : Nat) (w again : Word) (s : State) : State :=
  let old := getReg s (rRunStatus m)
  raiseEvt (rRunEvt m) (((w &&& ~~~ old) ||| again) &&& 0xFFFF3FC0) (setReg (rRunStatus m) w s)

/-- RUN_CYC after a slot of at most 31,250 cycles: the most so far, and those of the last completed tick. -/
def runCycles (m cycles : Nat) (completed : Bool) (s : State) : State :=
  let c := min cycles 31250
  modReg (aRun m 0x44) (fun w =>
    BitVec.ofNat 32 (max (bits w 31 16) c * 65536 + (if completed then c else bits w 15 0))) s

/-- What follows a run's totals in its slot: periods, gallery, balance windows. -/
def afterRun (m : Nat) (alarm : Bool) (status : Word) (q : Nat) (vals gal : List (Option Ext)) (s : State) : State :=
  let n := s.eng.set.tick
  balTick m n alarm s.eng.set.adj (galTick m alarm status gal (periodTick m alarm status q vals s))

/-- The black box at a trap: frozen by the first one since a tick without any; one that falls while it is frozen is counted
(R202). -/
def trapFreeze (m cause : Nat) (s : State) : State :=
  let t := if s.eng.armed || s.bb.frozen then freeze 4 (m * 32 + cause) 0 s else s
  { t with eng := { t.eng with armed := false, tickTrap := true } }

/-- A run traps (R201, R202). -/
def trapRun (m cause cycles : Nat) (s : State) : State :=
  let n := s.eng.set.tick
  let inc := (getRun s m).car.inc
  let q := quants (inc.getD (0, 0, 0))
  let t := totalize m n q true (updRun m (fun r => { r with car := { r.car with deliv := delivAge s m } }) s)
  let p := pulseOut m q.1 true t
  let w := (getReg s (rRunStatus m) &&& ~~~ (bitMask 10 ||| bitMask 6)) ||| fl 31 true ||| fl 30 true
    ||| fl 29 inc.isNone ||| fl 10 p.2 ||| fl 6 s.eng.set.adj
  let t := runCycles m cycles false (runStatus m w (bitMask 31) p.1)
  let t := modReg (aRun m 0x43) (fun x => BitVec.ofNat 32 (cause * 2 ^ 28 + satSucc 0xFFFF (bits x 15 0))) t
  afterRun m true w q.1.1 (List.replicate 6 none) (List.replicate 6 none) (trapFreeze m cause t)

/-- The recorded value of a run's current output: the command, or I_MEAS under COMPLIANCE_FAIL, OPEN_LOOP, READBACK or
EXT_OVERCURRENT (R88). -/
def recorded (s : State) (m : Nat) (cmd : Option Nat) : Option Nat :=
  match roleCh s m 9 with
  | none => cmd
  | some g =>
    let st := getReg s (aCh (g / 4) (g % 4) 0x20)
    if bit st 17 || bit st 18 || bit st 6 || bit st 19 then some (bits (getReg s (aCh (g / 4) (g % 4) 0x60)) 15 0) else cmd

/-- A run completes its tick: totals, outputs, status, live values. -/
def completeRun (m cycles : Nat) (o : RunOut) (f i : Option (Nat × Bool)) (s : State) : State :=
  let n := s.eng.set.tick
  let q := quants o.inc
  let alarm := o.alarm || q.2
  let t := updRun m (fun r => { r with
    car := { o.car with pacc := r.car.pacc, backlog := r.car.backlog }
    fout := f.map (·.1), iout := i.map (·.1), irec := recorded s m (i.map (·.1)) }) s
  let p := pulseOut m q.1 alarm (totalize m n q o.alarm t)
  let clamped (x : Option (Nat × Bool)) : Bool := match x with | some y => y.2 | none => false
  let w := o.flags ||| fl 30 alarm ||| fl 10 p.2 ||| fl 9 (clamped f) ||| fl 8 (clamped i)
  let t := runStatus m w 0 p.1
  let t := runCycles m cycles true (setReg (aRun m 0x48) (BitVec.ofNat 32 n) t)
  let t := forN 17 (fun j u => setReg (aRun m (0x49 + j)) (x32 (o.live.getD j 0)) u) t
  let g := if bit w 29 then List.replicate 6 none
    else [some (o.live.getD 0 0), o.vals.getD 0 none, o.vals.getD 1 none, o.vals.getD 4 none, o.vals.getD 2 none,
      o.vals.getD 5 none]
  afterRun m alarm w q.1.1 o.vals g t

/-- A word of main SRAM in run m's data area of 12 KiB (R393). -/
def inRunData (m word : Nat) : Bool := decide (0x12000 + 3072 * m ≤ word) && decide (word < 0x12000 + 3072 * (m + 1))

/-- The word with an uncorrectable error that run m's slot reads: in the active half of program RAM, or in its data area (R201,
R393, R399). -/
def slotEcc (s : State) (m : Nat) : Option (Nat × Nat) :=
  s.mem.bad.find? fun e =>
    ((e.1 = 2 && e.2 / 8192 = s.mem.half) || (e.1 = 0 && inRunData m e.2)) && Config.reads s.eng.progId e.1 e.2 m

/-- The trap that ends run m's computation: its cause, and the state with what the trap found. An ECC error is found and
recorded (R399); a run still computing at 31,250 cycles has overrun its slot (R18, R201). -/
def slotTrap (m cycles : Nat) (trap : Option EngTrap) (s : State) : Option (Nat × State) :=
  match slotEcc s m, trap with
  | some e, _ => some (3, eccFound e.1 0 e.2 s)
  | none, some (.ecc prog word) =>
    let k := if prog then 2 else 0
    some (3, eccMark k word (eccFound k 0 word s))
  | none, some .illegal => some (4, s)
  | none, some .stack => some (5, s)
  | none, none => if 31250 < cycles then some (1, s) else none

/-- Run m's computation in its slot. -/
def slotRun (m cycles : Nat) (trap : Option EngTrap) (s : State) : State :=
  if !runEn s m || !(getRun s m).reconciled then s
  else match slotTrap m cycles trap s with
    | some x => trapRun m x.1 (min cycles 31250) x.2
    | none =>
      let o := compute s m
      match outputsOf s m o with
      | some fi => if soundOut o then completeRun m cycles o fi.1 fi.2 s else trapRun m 2 cycles s
      | none => trapRun m 2 cycles s

/-- The checkpoints of a checkpoint tick (R213): shadows first, then flash. -/
def ckptTick (n : Nat) (s : State) : State :=
  if n % 60000 = 59999 then
    let t := forN 8 (fun m u => if runEn u m then shadowWrite m u else u) s
    forN 8 (fun m u => match shadowOf u m with
      | some c => if runEn u m then ckptBegin m c false 0 u else u
      | none => u) t
  else s

/-- The end of M7's slot: checkpoints, periods, gallery blocks in the order of R252, and the engine's bookkeeping. -/
def endTick (s : State) : State :=
  let n := s.eng.set.tick
  let t := galIntervals n s
  let t := ckptTick n t
  let t := periodEnd n t
  let t := jobsLost (galBlocks n t)
  { t with eng := { t.eng with
      doneTick := n
      armed := t.eng.armed || !t.eng.tickTrap
      tickTrap := false } }

/-- The largest engine stall in a slot, a value from 0 to 2,967 SYSCLK cycles that the spec does not fix (R395). -/
def noteStall (s : State) : State :=
  takeFree (modReg rArbWait (fun w => putBits w 31 16 (max (bits w 31 16) ((freeValue s).toNat % 2968))) s)

/-- A slot of the engine ends (R18): 125 µs after the one before. -/
def slotEnd (m cycles : Nat) (trap : Option EngTrap) (s : State) : State :=
  if !s.eng.running || s.eng.slot ≠ m || s.clk.halt.isSome then s
  else
    let t := moveTo (s.eng.start + (m + 1) * 125000) s
    let t := noteStall (slotRun m cycles trap t)
    let t := { t with eng := { t.eng with slot := m + 1 } }
    if m = 7 then endTick (checkIn 9 t) else t

/-- The report of an emitted pulse lowers the run's backlog while the logic die runs (R199). -/
def pulseReported (m : Nat) (s : State) : State :=
  if logicUp s then
    let t := updRun m (fun r => { r with
      emitted := r.emitted + 1
      car := { r.car with backlog := r.car.backlog - 1 } }) s
    setReg (aRun m 0x46) (BitVec.ofNat 32 (getRun t m).car.backlog) t
  else s

/-- PULSE_EMITTED (R199): the on phase of the pulse in progress ends W after it began; the pulse is reported, and the next
one begins W later at the earliest. -/
def execPulseEmitted (h : Hall) (ch : Chan) (s : State) : Host.Outcome State Fault Refusal :=
  match (getChan s h ch).pulseOn, poutRun s (4 * h.val + ch.val) with
  | some t0, some m =>
    let w := (getChan s h ch).pulseW
    let t := moveTo (t0 + w) s
    let t := updChan h ch (fun x => { x with
      pulseOn := none, pulseLeft := x.pulseLeft - 1, pulseRest := t.time.now + w }) t
    done (pulseReported m (pulseGo h ch t))
  | _, _ => done s

/-- A run's carried state reset, its pulse accumulator and backlog kept (R182, R291). -/
def resetCarried (m : Nat) (s : State) : State :=
  updRun m (fun r => { r with
    car := { carReset with pacc := r.car.pacc, backlog := r.car.backlog }, fout := none, iout := none }) s

/-- POUT of a run changes: the old backlog is lost (R182). -/
def dropBacklog (m : Nat) (s : State) : State :=
  let b := (getRun s m).car.backlog
  let t := modReg (aRun m 0x47) (fun w => w + BitVec.ofNat 32 b) s
  setReg (aRun m 0x46) 0 (updRun m (fun r => { r with car := { r.car with pacc := 0, backlog := 0 } }) t)

end Sys2Proof.Machine
end

