-- ==== Sys2Proof/Machine/Streams.lean ====
section
/-! DEFINITION. Streams: their records and positions, the stream buffer, seeks, and the SEL1 frames (R321 to R324). -/

namespace Sys2Proof.Machine

/-- Records written to converter buffer `n` since its last reset (R322). -/
def dmaCount (s : State) (n : Nat) : Nat := (getConv s n).wrap * bufLen s n + (getConv s n).widx

/-- Gallery ring of a flash stream 16 to 20. -/
def streamRing (n : Nat) : Nat := n - 16

/-- A stream is kept in the stream buffer (R324). -/
def buffered (n : Nat) : Bool := 16 ≤ n

/-- SEQ of the record that the audit trail stores next. -/
def audWaiting (s : State) : Nat := match s.aud.queue.head? with | some r => r.seq | none => s.aud.next

/-- A stream's range: the position of its oldest record and one past its newest (R322, R323). -/
def strRange (s : State) (n : Nat) : Nat × Nat :=
  if n < 16 then (dmaCount s n - min (dmaCount s n) (bufLen s n), dmaCount s n)
  else if n < 18 then
    let x := getRing s (streamRing n)
    match x.index with
    | [] => (x.seq, x.seq)
    | e :: _ => (e.2.1, x.seq)
  else if n < 21 then
    let x := getRing s (streamRing n)
    (x.erased, x.erased + x.index.length)
  else if n = 21 then
    match s.aud.index with
    | [] => (audWaiting s, audWaiting s)
    | e :: _ => (e.1, (match s.aud.index.getLast? with | some l => l.1 | none => e.1) + 1)
  else if n = 22 then
    match s.bb.dumps with
    | [] => (s.bb.dumpSeq * 256, s.bb.dumpSeq * 256)
    | e :: _ => (e.1 * 256, (match s.bb.dumps.getLast? with | some l => l.1 | none => e.1) * 256 + 256)
  else if s.bb.frozen then (0, 256) else (0, 0)

/-- A record's bytes from both chips: chip 0 when that copy passes its check, else chip 1 when that one does, else chip 0 as
read (R322). -/
def twoChips (s : State) (addr len : Nat) (ok : List Byte → Bool) : List Byte :=
  let a := nvRead s 0 addr len
  if ok a then a
  else
    let b := nvRead s 1 addr len
    if ok b then b else a

/-- The check of a gallery block (R251). -/
def blockOk (bs : List Byte) : Bool := leAt bs 28 4 = (crc32c (bs.take 28 ++ bs.drop 32)).toNat

/-- The check of a totals record (R245). -/
def ckptOk (bs : List Byte) : Bool := leAt bs 108 4 = (crc32c (bs.take 108)).toNat

/-- The check of a period record (R246). -/
def periodOk (bs : List Byte) : Bool := leAt bs 252 4 = (crc32c (bs.take 252)).toNat

/-- The check of a whole dump on a chip (R259). -/
def dumpOk (s : State) (i sector : Nat) : Bool :=
  let bs := nvRead s i (dumpAddr sector) 65536
  leAt bs 60 4 = (crc32c (bs.take 60 ++ bs.drop 64)).toNat

/-- The check of a stream's record. -/
def strCheck (n : Nat) : List Byte → Bool :=
  if n < 18 then blockOk else if n = 18 then ckptOk else periodOk

/-- The record of a stream at a position, or the next one after it: its position and its bytes. -/
def strRec (s : State) (n p : Nat) : Option (Nat × List Byte) :=
  if n < 16 then
    if p < dmaCount s n then some (p, mreads 0 s.mem.main (bufBase s n + 16 * (p % bufLen s n)) 16) else none
  else if n < 18 then
    ((getRing s (streamRing n)).index.find? fun e => p ≤ e.2.1).map fun e =>
      (e.2.1, twoChips s (ringAddr (streamRing n) e.1) e.2.2 (strCheck n))
  else if n < 21 then
    let x := getRing s (streamRing n)
    (x.index.drop (p - x.erased)).head?.map fun e =>
      (p, twoChips s (ringAddr (streamRing n) e.1) e.2.2 (strCheck n))
  else if n = 21 then
    (s.aud.index.find? fun e => p ≤ e.1).map fun e =>
      (e.1, twoChips s (audAddr e.2) 64 (fun bs => (audOf bs).isSome))
  else if n = 22 then
    (s.bb.dumps.find? fun e => p / 256 ≤ e.1).map fun e =>
      let q := max p (e.1 * 256)
      let i := if dumpOk s 0 e.2 then 0 else if dumpOk s 1 e.2 then 1 else 0
      (q, nvRead s i (dumpAddr e.2 + 256 * (q % 256)) 256)
  else if s.bb.frozen && p < 256 then some (p, ((bbDump s).drop (256 * p)).take 256)
  else none

/-- Up to `k` records of a stream from a position. -/
def strRecs (s : State) (n : Nat) : Nat → Nat → List (Nat × List Byte)
  | _, 0 => []
  | p, k + 1 =>
    match strRec s n p with
    | none => []
    | some r => r :: strRecs s n (r.1 + 1) k

/-- Key of a stream's position for an interface: 0 host, 1 ring (R323, R351). -/
def strKey (ifc n : Nat) : Nat := 32 * ifc + n

/-- A stream's position for an interface. -/
def strPos (s : State) (k : Nat) : Nat := tget (fun _ => 0) s.str.pos k

/-- A stream's position set; what the buffer held for it is refilled from there. -/
def setStrPos (k p : Nat) (s : State) : State :=
  { s with str := { s.str with
      pos := tset (fun _ => 0) s.str.pos k p
      ready := if s.str.named = k then 0 else s.str.ready
      filling := if s.str.named = k then buffered (k % 32) else s.str.filling } }

/-- The stream the buffer serves from now on (R324). -/
def nameStream (k : Nat) (s : State) : State :=
  if s.str.named = k then s else { s with str := { s.str with named := k, ready := 0, filling := buffered (k % 32) } }

/-- Records ready at the frame start (R324): all up to the newest for a DMA stream, those in the buffer for the others; stream 23 has
some only while FROZEN (R322). -/
def strReady (s : State) (ifc n : Nat) : Nat :=
  if n = 23 && !s.bb.frozen then 0
  else if buffered n then (if s.str.named = strKey ifc n then s.str.ready else 0)
  else dmaCount s n - strPos s (strKey ifc n)

/-- The records that fit a stream buffer of 32 KiB, counted. -/
def fitCount (room : Nat) : List (Nat × List Byte) → Nat
  | [] => 0
  | r :: t => if r.2.length ≤ room then fitCount (room - r.2.length) t + 1 else 0

/-- STREAM_BUFFER_FILLED (R324): the buffer holds the records of the stream it serves from the position onward. -/
def execStreamBufferFilled (s : State) : Host.Outcome State Fault Refusal :=
  let k := s.str.named
  if !logicUp s || !buffered (k % 32) then done s
  else
    let n := fitCount 32768 (strRecs s (k % 32) (strPos s k) 512)
    done { s with str := { s.str with ready := n, filling := false } }

/-- STR_STAT.FILLING: from a select, a seek or a frame that consumed records until the buffer holds what it can (R324, log 31). -/
def strFilling (s : State) (n : Nat) : Bool := buffered n && s.str.named = strKey 0 n && s.str.filling

/-- A seek (R323): a position outside the range is clamped to it. -/
def seekTo (k p : Nat) (s : State) : State :=
  let r := strRange s (k % 32)
  let q := clampNat r.1 r.2 p
  setStrPos k q (if q = p then s else cfgClamp 0xFFFF s)

/-- The position moves to the oldest record when it has fallen behind it, or when a buffer reset is to be reported: LOST
(R323). -/
def strCatchUp (k : Nat) (s : State) : Bool × State :=
  let r := strRange s (k % 32)
  let p := strPos s k
  if p < r.1 then
    let t := modReg 0x0225 (fun w => BitVec.ofNat 32 (min (w.toNat + (r.1 - p)) 0xFFFFFFFF)) (setStrPos k r.1 s)
    (true, raiseBit rHpEvt 6 { t with str := { t.str with reset := t.str.reset.filter (· ≠ k) } })
  else if s.str.reset.contains k then
    (true, raiseBit rHpEvt 6 { s with str := { s.str with reset := s.str.reset.filter (· ≠ k) } })
  else (false, s)

/-- The records wholly inside the first `n` bytes: how many, and the bytes of a record begun and not finished. -/
def wholeRecs (n : Nat) : List (Nat × List Byte) → Nat × Nat
  | [] => (0, 0)
  | r :: t =>
    if r.2.length ≤ n then
      let x := wholeRecs (n - r.2.length) t
      (x.1 + 1, x.2)
    else (0, n)

/-- The position after `k` records. -/
def posAfter (p k : Nat) (l : List (Nat × List Byte)) : Nat :=
  match (l.take k).getLast? with
  | some r => r.1 + 1
  | none => p

/-- The stream part of a SEL1 frame of `nbytes` record bytes (R321 to R324): what SDO carries after the status byte, SHORT and
ADDR_END, and the state with the position moved by a read. -/
def streamFrame (k : Nat) (peek : Bool) (nbytes : Nat) (s : State) : List Byte × Bool × Bool × State :=
  let c := strCatchUp k s
  let t := c.2
  let p := strPos t k
  let ready := strReady t (k / 32) (k % 32)
  let recs := strRecs t (k % 32) p (min ready (nbytes + 1))
  let all := (recs.map (·.2)).flatten
  let pos := match recs.head? with | some r => r.1 | none => p
  let head := beBytes 4 pos ++ beBytes 4 (b2n c.1 * 2 ^ 31 + min ready 0xFFFFFF)
  let w := wholeRecs nbytes recs
  let past := all.length < nbytes
  let t := if peek || w.1 = 0 then t
    else
      let left := ready - w.1
      let u := setStrPos k (posAfter p w.1 recs) t
      { u with str := { u.str with ready := if u.str.named = k && buffered (k % 32) then left else u.str.ready } }
  (head ++ (all.take nbytes ++ List.replicate (nbytes - all.length) 0), 0 < w.2, past, nameStream k t)

end Sys2Proof.Machine
end

