-- ==== Sys2Proof/Machine/Sync.lean ====
section
/-! DEFINITION. Ring time steps, commands for the ring, and synchronised sampling (R150 to R154, R177, R350, R352). -/

namespace Sys2Proof.Machine

/-- The slew under way taken up to now: what it has done is part of the offset. -/
def rebaseGrid (s : State) : State :=
  let d := slewDone s (16 * s.time.now)
  { s with sync := { s.sync with grid := s.sync.grid + d, slew := s.sync.slew - d, slewAt := s.time.now } }

/-- A phase error of more than a period of MODCLK begins to be slewed (R150). What error then remains is free within that
period (log 9). -/
def judgeGrid (s : State) : State :=
  let t := rebaseGrid s
  if !t.clk.modclk || gridNear t then { t with sync := { t.sync with slew := 0 } }
  else
    let r : Int := ((freeValue t).toNat % 1953 : Nat) - 976
    takeFree { t with sync := { t.sync with slew := gridErr t - r } }

/-- Ring time stepped to `t` (R177, R343, R345): the label jumps and local time goes on; the RTC follows (log 22); the MODCLK
grid stays where it is, and GRID_LOCK clears where it no longer fits (R150). -/
def stepRing (t : Nat) (s : State) : State :=
  if t = s.time.ring then s
  else judgeGrid { s with
    modes := []
    time := { s.time with
      ring := t % 2 ^ 64, rtc := if s.clk.rtcStop then s.time.rtc else t, adj := s.time.boundary.isSome } }

/-- An acyclic entry's bytes (R350). -/
def acyEntry (op : Nat) (bcast : Bool) (dst tag : Nat) (data : List Byte) : List Byte :=
  leBytes 1 op ++ leBytes 1 (b2n bcast) ++ leBytes 2 dst ++ leBytes 2 tag ++ leBytes 2 data.length ++ data

/-- An acyclic entry waits for the next DATA frame this device appends, not before a local time. -/
def acyPush (bytes : List Byte) (notBefore : Nat) (answer : Bool) (s : State) : State :=
  { s with ml := { s.ml with outs := s.ml.outs ++ [⟨bytes, notBefore, answer⟩] } }

/-- A request of this device, with the next TAG. -/
def acyRequest (op : Nat) (bcast : Bool) (dst : Nat) (data : List Byte) (s : State) : State :=
  let t := acyPush (acyEntry op bcast dst s.ml.tag data) s.time.now false s
  { t with ml := { t.ml with tag := (t.ml.tag + 1) % 65536 } }

/-- SYNC_CFG. -/
def syncCfgW (s : State) : Word := getReg s 0x1600

/-- A sync scheduled for ring time `t`; `loc` that SYNC_IN or SYNC_NOW made it. -/
def schedule (t : Nat) (loc : Bool) (s : State) : State :=
  { s with sync := { s.sync with queue := s.sync.queue ++ [(t, loc)] } }

/-- A sync scheduled by SYNC_IN or SYNC_NOW, forwarded on the ring with SYNC_FWD (R151). -/
def scheduleLocal (t : Nat) (s : State) : State :=
  let u := schedule t true s
  if bit (syncCfgW s) 29 then acyRequest 8 true 0 (leBytes 8 t) u else u

/-- SYNC_LEAD in ns. -/
def syncLead (s : State) : Nat := bits (syncCfgW s) 16 0 * 1000

/-- SYNC_IN (R151, R153): the pin changes its level, and the edge of the polarity that SYNC_IN_EDGE selects acts. DESIGN
CHOICE (log 46): captured to 10 ns by rounding down. -/
def execSyncIn (s : State) : Host.Outcome State Fault Refusal :=
  let t := { s with sync := { s.sync with level := !s.sync.level } }
  if !logicUp s || !bit (syncCfgW s) 31 || t.sync.level == bit (syncCfgW s) 30 then done t
  else if s.sync.queue.any (·.2) then done (raiseBit rSyncEvt 1 t)
  else done (scheduleLocal (t.time.ring / 10 * 10 + syncLead t) t)

/-- A write of SYNC_CTRL.SYNC_NOW (R151). -/
def syncNowOp (s : State) : State := scheduleLocal (s.time.ring + syncLead s) s

/-- A sync command received for ring time `t` (R151 to R153). -/
def syncCommand (t : Nat) (s : State) : State :=
  if t < s.time.ring then raiseBit rSyncEvt 2 s else schedule t false s

/-- The first grid instant at or after ring time `t`, in 1/16 ns of ring time (R150). -/
def gridInstant (t : Nat) : Nat := (16 * t + 15624) / 15625 * 15625

/-- A sync at converter `n`: an open filter window restarts at the instant (R152), a ladder point's and a shadow execution's as
well. DESIGN CHOICE (log 74): those two restart with a new window and no settling delay, as every converter does at a sync. In
continuous mode the shadow leaves and joins again with the restarted filter. -/
def syncConv (n t16 : Nat) (s : State) : State :=
  let x := getConv s n
  if x.role == .shadow && saCont (nowA s n) then leaveShadow n s
  else if x.phase == .window then openWindow n t16 (tConv (windowOdr s n)) (discard n s) else s

/-- A sync resets the pulsation paths of a flight in continuous mode (R158). -/
def syncPuls (own : Nat) (s : State) : State :=
  let a := stepA s own false 0
  let k := runnerOf s own
  if (getConv s k).role == .flight && ownerOf s k = own && saCont a && sbInput (stepB s own false 0) = 0 then
    pulsReset (own / 2) (saCh a) s
  else s

/-- The MODCLK/16 tick at which a sync of grid instant `g`, in 1/16 ns of ring time, executes: with GRID_LOCK the one that
stands for it, without it the one nearest to it (R150, R153). -/
def syncTick (s : State) (g : Nat) : Nat := gridNearest (modclkTime s (g + 16 * s.time.now - 16 * s.time.ring))

/-- What a sync leaves in the synchronisation block (R152 to R154): count, instant, SYNC_OUT and events. DESIGN CHOICE (log 46):
SYNC_LAST gives an instant with a fraction of a nanosecond rounded down. -/
def syncDone (g : Nat) (s : State) : State :=
  let out := bit (syncCfgW s) 28
  let u := { s with
    sync := { s.sync with
      count := (s.sync.count + 1) % 2 ^ 32, last := g / 16
      outEnd := if out then some (s.time.now + bits (syncCfgW s) 27 18 * 1000) else s.sync.outEnd }
    pins := { s.pins with syncOut := s.pins.syncOut || out } }
  raiseBit rSyncEvt 0 (if gridLock s then u else raiseBit rSyncEvt 3 u)

/-- SYNC_EXECUTE (R152 to R154): the sync due first takes place at its grid instant, with every other one of that instant. -/
def execSyncExecute (s : State) : Host.Outcome State Fault Refusal :=
  match s.sync.queue.foldl (fun a e => match a with
      | none => some e.1
      | some b => some (min e.1 b)) none with
  | none => done s
  | some t =>
    if !logicUp s then done s
    else
      let g := gridInstant t
      let u := moveTo (localOf s ((g + 15) / 16)) s
      let t16 := syncTick u g
      let u := { u with sync := { u.sync with queue := u.sync.queue.filter fun e => gridInstant e.1 ≠ g } }
      let u := triggerAll 9 t16 (forN 16 syncPuls (forN 16 (fun n v => syncConv n t16 v) u))
      done (forHalls report (syncDone g u))

/-- SYNC_OUT_EN 0 holds SYNC_OUT low (R154). -/
def syncOutOff (s : State) : State :=
  if bit (syncCfgW s) 28 then s
  else { s with sync := { s.sync with outEnd := none }, pins := { s.pins with syncOut := false } }

/-- SYNC_OUT_END (R154). -/
def execSyncOutEnd (s : State) : Host.Outcome State Fault Refusal :=
  match s.sync.outEnd with
  | none => done s
  | some t =>
    let u := moveTo t s
    done { u with sync := { u.sync with outEnd := none }, pins := { u.pins with syncOut := false } }

/-- The local time at which the slew of 100 ns per ms has brought the phase error within a period of MODCLK (R150). -/
def slewEnd (s : State) : Nat := s.time.now + (((gridErr s).natAbs - 976) * 10000 + 15) / 16

/-- GRID_LOCK (R150): the slew has brought the phase error within a period of MODCLK. -/
def execGridLock (s : State) : Host.Outcome State Fault Refusal :=
  done (if !s.clk.modclk || gridNear s then s else moveTo (slewEnd s) s)

/-- Ring time steered toward an offset, at most 50 ppm since the last one (R343, R345); MODCLK follows it, or has that much more
to slew (R150). How much of the offset is taken is free, and all of it is applied here (log 25). -/
def steer (off : Int) (s : State) : State :=
  let most := match s.ml.timeAt with
    | some t => min off.natAbs (min (s.time.now - t) 2500000000 * 50 / 1000000)
    | none => 0
  let k : Int := ((freeValue s).toNat % (most + 1) : Nat)
  let k := if off < 0 then -k else k
  let t := rebaseGrid (takeFree s)
  let slewing := t.sync.slew ≠ 0
  { t with
    time := { t.time with ring := ((t.time.ring : Int) + k).toNat % 2 ^ 64 }
    sync := { t.sync with
      grid := if slewing then t.sync.grid else t.sync.grid + 16 * k
      slew := if slewing then t.sync.slew + 16 * k else 0 } }

/-- An offset of ring time taken: a large one steps ring time to `v`, another one steers it (R343, R345). -/
def takeOffset (large : Bool) (v : Nat) (off : Int) (s : State) : State :=
  let t := if large then stepRing v s else steer off s
  { t with ml := { t.ml with timeAt := some t.time.now } }

/-- MODCLK_PHASE: the MODCLK/16 phase against the grid in ns, signed. DESIGN CHOICE (log 74): a fraction of a nanosecond is rounded
down. -/
def modclkPhase (s : State) : Word := if s.clk.modclk then ofInt ((gridErr s).fdiv 16) else 0

end Sys2Proof.Machine
end

