-- ==== Sys2Proof/Machine/Live.lean ====
section
/-! DEFINITION. The word in effect at every address: stored words, and the words that follow the state (R7, R12, chapter 15).
-/

namespace Sys2Proof.Machine

/-! Attention (R72, R143, R176, R205, R235, R266, R297, R310, R327, R358, R381, R406). -/

/-- Some bit of an _EVT register is 1 and, where `masked`, enabled in its mask. -/
def evtAny (s : State) (masked : Bool) (evt mask : Nat) : Bool :=
  getReg s evt &&& (if masked then getReg s mask else 0xFFFFFFFF#32) != 0

/-- A hall's attention bit (R72). -/
def hallAttn (s : State) (masked : Bool) (h : Nat) : Bool :=
  let m := getReg s (aHall h 0x09)
  (getReg s (rHallEvt h) &&& (if masked then m &&& 0x3FF else 0xFFFFFFFF#32)) != 0
    || (List.range 4).any fun c => getReg s (aCh h c 0x24) != 0 && (!masked || bit m (16 + c))

/-- A block's attention bit: 0 to 61 in the order of HP_ATTN_LO and HP_ATTN_HI. -/
def blockAttn (s : State) (masked : Bool) (b : Nat) : Bool :=
  if b < 8 then hallAttn s masked b
  else if b < 24 then evtAny s masked (rCvEvt (b - 8)) (aConv (b - 8) 0x06)
  else if b < 32 then evtAny s masked (rRotEvt (b - 24)) (aRot (b - 24) 0x04)
  else if b < 40 then evtAny s masked (rRunEvt (b - 32)) (aRun (b - 32) 0x42)
  else if b < 48 then evtAny s masked (rTotEvt (b - 40)) (aTot (b - 40) 0x1C)
  else match b with
    | 48 => evtAny s masked rSyncEvt 0x1603
    | 49 => evtAny s masked rPerEvt 0x2203
    | 50 => (List.range 64).any fun e => evtAny s masked (rBalEvt e) 0x2207
    | 51 => evtAny s masked rAudEvt 0x2602
    | 52 => evtAny s masked rGalEvt 0x2612
    | 53 => evtAny s masked rBbEvt 0x2802
    | 54 => evtAny s masked rJnlEvt 0x2812
    | 55 => evtAny s masked rImgEvt 0x2D02
    | 56 => evtAny s masked rNvEvt 0x2D22
    | 57 => evtAny s masked rWdEvt 0x2903
    | 58 => evtAny s masked rEccEvt 0x2921
    | 59 => evtAny s masked rMlEvt 0x2A05
    | 60 => evtAny s masked rPairEvt 0x2C04
    | 61 => evtAny s masked rHpEvt 0x0202
    | _ => false

/-- Bits as a word. -/
def bitsWord (n : Nat) (f : Nat → Bool) : Word := BitVec.ofNat 32 ((List.range n).foldl (fun a i => a + b2n (f i) * 2 ^ i) 0)

/-- HP_ATTN_LO or EVT_PEND_LO. -/
def attnLo (s : State) (masked : Bool) : Word := bitsWord 32 (blockAttn s masked)

/-- HP_ATTN_HI or EVT_PEND_HI. -/
def attnHi (s : State) (masked : Bool) : Word := bitsWord 30 fun i => blockAttn s masked (32 + i)

/-- ATTN of the status byte (R310). -/
def attn (s : State) : Bool :=
  attnLo s true &&& getReg s 0x0205 != 0 || attnHi s true &&& getReg s 0x0206 != 0

/-! Words of single blocks. -/

/-- HALL_EN in effect. -/
def hallEn (s : State) (h : Nat) : Bool := bit (getReg s (aHall h 0x01)) 0

/-- HALL_DOWN. -/
def hallIsDown (s : State) (h : Nat) : Bool := bit (getReg s (aHall h 0x03)) 0

/-- The halls that enabled runs use, bit h. -/
def usedHalls (s : State) : Nat :=
  (List.range 8).foldl (fun a m => if runEn s m then a ||| runHalls s m else a) 0

/-- This device is READY (R369). -/
def pairReady (s : State) : Bool :=
  let p := s.pair
  p.confirmed && p.linkUp && 1000 ≤ p.standbyTicks && s.clk.halt.isNone && !p.cfgDiverge
    && (!p.genDiff || s.img.phase = 6 || (s.clk.cause = 6 && p.otherGen < s.img.gen))
    && (List.range 8).all fun h => !((usedHalls s).testBit h && hallIsDown s h)

/-- CV_STATUS. -/
def cvStatus (s : State) (n : Nat) : Word :=
  let own := getConv s n
  let r := getConv s (runnerOf s n)
  let onK1 := n % 2 = 0 && (getRot s (n / 2)).onK1
  BitVec.ofNat 32 (own.disc % 65536 * 65536 + 128 * b2n (blankOn s (n / 2)) + 64 * b2n r.pend + 32 * b2n r.inj
    + 16 * b2n onK1 + r.step % 16)

/-- Slots excused at the watchdog (R384). -/
def wdExcused (s : State) : Nat :=
  (List.range 8).foldl (fun a h =>
    if !hallEn s h || hallIsDown s h || s.img.excuse.testBit h || blankOn s h then a + 2 ^ h else a) 0
    + 256 * b2n s.clk.halt.isSome + 2048 * b2n (!pairEn s)

/-- Local time run in the present watchdog period, ns; a halt stops the count (R391). -/
def wdElapsed (s : State) : Nat :=
  (match s.clk.halt with | some _ => s.clk.haltAt | none => s.time.now) - s.wd.start - s.wd.halted

/-- CLK_STAT; the row of the last crossing overflow is stored. -/
def clkStat (s : State) : Word :=
  let c := s.clk
  (getReg s 0x2930 &&& 0xF0000000) ||| BitVec.ofNat 32 (512 * b2n c.vbatDrop + 256 * b2n c.vbatLow + 128 * b2n c.rtcStop
    + 64 * b2n c.tclkXin + 32 * b2n c.ref10Lost + 16 * b2n c.xinLost + c.lock % 16)

/-- START_STAT (R278, R283). -/
def startStat (s : State) : Word :=
  let c := s.clk
  BitVec.ofNat 32 (c.cause * 2 ^ 28 + c.straps * 2 ^ 24 + b2n (c.straps = 3) * 2 ^ 20 + b2n (c.straps = 2) * 2 ^ 19
    + b2n (c.straps = 1) * 2 ^ 18 + b2n c.timeUnset * 2 ^ 17 + b2n c.retLost * 2 ^ 16 + c.tried % 256 * 256 + c.kept % 256)

/-- NV_STAT. -/
def nvStat (s : State) : Word :=
  let a := s.nv.c0
  let b := s.nv.c1
  BitVec.ofNat 32 (s.nv.mhz * 65536 + 128 * b2n b.quad + 64 * b2n a.quad + 32 * b2n (a.failed && b.failed)
    + 16 * b2n (a.failed != b.failed) + 8 * b2n b.failed + 4 * b2n a.failed + 2 * b2n b.present + b2n a.present)

/-- IMAGE_DIVERGE: a divergent copy is known (R277, R296). -/
def imgDiverged (s : State) : Bool := s.img.copies.any (· == 4)

/-- IMG_STAT. -/
def imgStat (s : State) : Word :=
  let i := s.img
  BitVec.ofNat 32 (i.phase * 2 ^ 29 + (match i.reloads.head? with | some r => r.hall | none => 0) * 4096 + 64 * b2n s.pair.genDiff
    + 32 * b2n (!i.reloads.isEmpty) + 16 * b2n i.swapOp.isSome + 8 * b2n (imgDiverged s) + 4 * b2n (imageNone s) + 2 * i.chip + i.slot)

/-- PAIR_STAT. -/
def pairStat (s : State) : Word :=
  let p := s.pair
  BitVec.ofNat 32 (2 ^ 15 * b2n p.active + 2 ^ 14 * b2n p.confirmed + 2 ^ 13 * b2n (pairReady s)
    + 4096 * b2n p.partnerReady + 2048 * b2n p.single + 1024 * b2n p.linkDown + 512 * b2n p.actFault
    + 256 * b2n (p.divAge.any (· < 1000)) + 128 * b2n p.cfgDiverge + 64 * b2n p.fenced + 32 * b2n p.strapConflict
    + 16 * b2n p.idMismatch + 8 * b2n s.clk.halt.isSome + p.hoStep.getD 7)

/-- ML_STAT. -/
def mlStat (s : State) : Word :=
  let m := s.ml
  let adr := match m.loop with | some l => l.addr | none => none
  BitVec.ofNat 32 (adr.getD 0 % 1024 * 2 ^ 22 + 2 ^ 21 * b2n adr.isSome + 2 ^ 20 * b2n m.isHead + 2 ^ 19 * b2n m.backup
    + 2 ^ 18 * b2n m.timeLock + 2 ^ 17 * b2n m.noHead + 2 ^ 16 * b2n m.isolated + m.topo % 4 * 2 ^ 14
    + m.formResult % 8 * 2048 + (match m.loop with | some l => l.nodes % 2048 | none => 0))

/-- A Miethlink port that was never up. -/
def portReset : MlPort :=
  { st := 0, silent := false, pass := false, inLoop := false, delay := none, sum := 0, cnt := 0,
    echoDue := false }

/-- Port `p`. -/
def getPort (s : State) (p : Nat) : MlPort := tget (fun _ => portReset) s.ml.ports p

/-- Port `p` takes traffic: up, and in the loop unless a formation passes (R330, R331). -/
def usable (s : State) (form : Bool) (p : Nat) : Bool := (getPort s p).st = 3 && (form || (getPort s p).inLoop)

/-- Traffic of the loop is turned at port `p`: at MLA or MLB, where that port takes none and another does (R331). -/
def portTurns (s : State) (p : Nat) : Bool :=
  match p with
  | 0 => !usable s false 0 && (usable s false 1 || usable s false 2)
  | 1 => !usable s false 1 && (usable s false 0 || usable s false 2)
  | _ => false

/-- ML_PORT_STAT. -/
def portStat (s : State) : Word :=
  BitVec.ofNat 32 ((List.range 3).foldl (fun a p =>
    let x := getPort s p
    a + (32 * b2n x.delay.isSome + 16 * b2n x.pass + 8 * b2n (portTurns s p) + x.st % 8) * 2 ^ (8 * p)) 0)

/-- A measured delay in ps. -/
def psWord (d : Option Nat) : Word := match d with | some v => BitVec.ofNat 32 (min v 0xFFFFFFFE) | none => 0xFFFFFFFF

/-- AUD_STAT. -/
def audStat (s : State) : Word :=
  BitVec.ofNat 32 (2 ^ 27 * b2n s.aud.lost + 2 ^ 26 * b2n (decide (261120 < audFill s)) + 2 ^ 25 * b2n (audFull s)
    + 2 ^ 24 * b2n (audNear s) + s.aud.queue.length % 128 * 65536 + (audFill s + 1023) / 1024)

/-- GAL_OLD_i and GAL_NEW_i: oldest and newest BLOCK_SEQ, checkpoint tick, or SEQ of the last record written. -/
def galEnd (s : State) (r : Nat) (new : Bool) : Word :=
  let x := getRing s r
  match (if new then x.index.getLast? else x.index.head?) with
  | some e => BitVec.ofNat 32 e.2.1
  | none => 0

/-- The newest black-box event. -/
def lastEvent (s : State) : BbEntry := s.bb.events.getLast?.getD { time := 0, seq := 0, code := 0, src := 0, data := 0 }

/-- The staged word at an address. -/
def stagedAt (s : State) (a : Nat) : Option StgEntry := s.stg.entries.find? fun e => e.addr = a

/-- Source, presence and address of a staging entry (R326). -/
def entWord (e : Option StgEntry) (a : Nat) : Word :=
  match e with
  | some x => BitVec.ofNat 32 (x.src.code * 2 ^ 17 + 65536 + a % 65536)
  | none => BitVec.ofNat 32 (a % 65536)

/-- The staged entry that STG_IDX selects. -/
def idxEntry (s : State) : Option StgEntry := (s.stg.entries.drop (bits (getReg s 0x0214) 5 0)).head?

/-- Word `i` of a run's points (R346). -/
def runPoint (s : State) (m j : Nat) : Word := getReg s (0x4000 + 1088 + 64 * m + j)

/-- A totals word: tick, total t in three words, fractions (R220, R233). -/
def totWord (s : State) (m off : Nat) : Word :=
  let r := getRun s m
  if off < 2 then BitVec.ofNat 32 (r.tick.getD 0 / 2 ^ (32 * off))
  else if off < 0x14 then BitVec.ofNat 32 (accInt (r.accs.getD ((off - 2) / 3) 0) / 2 ^ (32 * ((off - 2) % 3)))
  else BitVec.ofNat 32 ((r.accs.getD (off - 0x14) 0).toNat % 2 ^ 32)

/-- DEV_STATE.PHASE (R437): starting, metering, quiet once the image is applied under the quiet strap, no image. -/
def devPhase (s : State) : Nat :=
  if imageNone s then 3
  else if s.clk.straps = 2 && (s.clk.die == .chosen || s.clk.die == .applied) then 2
  else s.clk.phase

/-- The half of a 64-bit value: 0 low, 1 high. -/
def half (v i : Nat) : Word := BitVec.ofNat 32 (v / 2 ^ (32 * i))

/-- The words of the device, host port, staging and stream blocks that follow the state. -/
def liveHost (s : State) (a : Nat) : Option Word :=
  match a with
  | 0x0001 => some (devFault s)
  | 0x0002 => some (BitVec.ofNat 32 (devPhase s * 2 ^ 30 + 2 ^ 29 * b2n (!faultNLevel s) + 2 ^ 28 * b2n (role s)
      + runMask s * 65536 + (List.range 8).foldl (fun a h => a + b2n (hallEn s h && !hallIsDown s h) * 2 ^ h) 0))
  | 0x0003 => some (half s.eng.doneTick 0)
  | 0x0004 => some (half s.eng.doneTick 1)
  | 0x0100 => some (attnLo s false)
  | 0x0101 => some (attnHi s false)
  | 0x0104 => some (BitVec.ofNat 32 ((lastEvent s).src * 2 ^ 24 + (lastEvent s).code * 65536 + (lastEvent s).seq))
  | 0x0105 => some (BitVec.ofNat 32 (lastEvent s).data)
  | 0x0106 => some (half (lastEvent s).time 0)
  | 0x0107 => some (half (lastEvent s).time 1)
  | 0x0200 => some (BitVec.ofNat 32 (256 * b2n s.hp.mode3 + b2n (s.clk.die == .applied)))
  | 0x0203 => some (attnLo s true)
  | 0x0204 => some (attnHi s true)
  | 0x0210 => some (BitVec.ofNat 32 (s.stg.result * 2 ^ 28 + s.stg.entries.length * 2 ^ 20
      + 65536 * b2n (s.stg.phase != .idle) + s.stg.refAddr))
  | 0x0212 => some (entWord (stagedAt s (bits (getReg s 0x0212) 15 0)) (bits (getReg s 0x0212) 15 0))
  | 0x0215 => some (entWord (idxEntry s) (match idxEntry s with | some e => e.addr | none => 0))
  | 0x0216 => some (match idxEntry s with | some e => e.value | none => 0)
  | 0x0217 => some (BitVec.ofNat 32 s.stg.op)
  | 0x0221 =>
    let n := bits (getReg s 0x0220) 5 0
    some (BitVec.ofNat 32 (min (strReady s 0 n) 0xFFFFFF * 256 + 2 * b2n (strFilling s n)
      + b2n (decide (strPos s n < (strRange s n).1))))
  | 0x0222 => some (half (strPos s (bits (getReg s 0x0220) 5 0)) 0)
  | 0x0223 => some (half (strPos s (bits (getReg s 0x0220) 5 0)) 1)
  | _ => none

/-- Channel `g` is bound as FOUT, POUT or IOUT of an enabled run: CH_OUT.SRC_ENGINE (R181). -/
def srcEngine (s : State) (g : Nat) : Bool :=
  (List.range 8).any fun m => runEn s m && [7, 8, 9].any fun r => roleCh s m r == some g

/-- The words that a hall's own state gives, as its status frames bring them to the logic die (R32): HALL_REF_STAT,
CV_STATUS and the rotation's words. -/
def heldWord (s : State) (a : Nat) : Option Word :=
  if 0x0400 ≤ a ∧ a < 0x0C00 then
    if (a - 0x400) % 0x100 = 0x41 then some (refStat s ((a - 0x400) / 0x100)) else none
  else if 0x0C00 ≤ a ∧ a < 0x1400 then
    if (a - 0xC00) % 0x80 = 0x04 then some (cvStatus s ((a - 0xC00) / 0x80)) else none
  else if 0x1400 ≤ a ∧ a < 0x1600 then
    let h := (a - 0x1400) / 0x40
    let r := getRot s h
    match (a - 0x1400) % 0x40 with
    | 0x02 => some (rotStat s h)
    | 0x05 => some (BitVec.ofNat 32 r.count)
    | 0x06 => some (half r.last 0)
    | 0x07 => some (half r.last 1)
    | 0x08 => some (ofInt r.dMean)
    | 0x09 => some r.worst
    | 0x0A => some (ofInt r.ratio)
    | _ => none
  else none

/-- The hall whose state gives the word at `a`. -/
def heldHall (a : Nat) : Nat :=
  if a < 0x0C00 then (a - 0x400) / 0x100 else if a < 0x1400 then (a - 0xC00) / 0x100 else (a - 0x1400) / 0x40

/-- The addresses of hall `h` at which `heldWord` gives a word. -/
def heldAddrs (h : Nat) : List Nat :=
  [aHall h 0x41, aConv (2 * h) 0x04, aConv (2 * h + 1) 0x04]
    ++ ([0x02, 0x05, 0x06, 0x07, 0x08, 0x09, 0x0A]).map fun i => aRot h i

/-- The status frames of hall `h` end (R34): the logic die goes on with the words it holds. -/
def unlink (h : Nat) (s : State) : State :=
  if (getHall s h).linked then
    updHall h (fun x => { x with linked := false })
      ((heldAddrs h).foldl (fun t a => match heldWord s a with | some w => setReg a w t | none => t) s)
  else s

/-- HALL_DOWN (R34): no status frame for 500 µs. -/
def execHallDown (h : Hall) (s : State) : Host.Outcome State Fault Refusal :=
  if logicUp s then
    let w := getReg s (aHall h 0x03)
    let t := setReg (aHall h 0x03) (putBit w 0 true) (unlink h s)
    done (if bit w 0 then t else raiseBit (rHallEvt h) 0 t)
  else done s

/-- UNDER_VOLTAGE_RESET (R36, R63): the hall sends no status frame until it leaves it. -/
def execUnderVoltageReset (h : Hall) (s : State) : Host.Outcome State Fault Refusal :=
  done (if (getHall s h).up then hallReset1 h (unlink h s) else s)

/-- The words of the halls, converters, rotation and synchronisation that follow the state. -/
def liveField (s : State) (a : Nat) : Option Word :=
  if 0x0400 ≤ a ∧ a < 0x0C00 then
    let off := (a - 0x400) % 0x100
    if off = 0x41 then (if (getHall s (heldHall a)).linked then heldWord s a else none)
    else if 0x1C ≤ off ∧ off < 0x20 then
      some (putBit (getReg s a) 31 (srcEngine s (4 * ((a - 0x400) / 0x100) + (off - 0x1C))))
    else none
  else if 0x0C00 ≤ a ∧ a < 0x1400 then
    let n := (a - 0xC00) / 0x80
    match (a - 0xC00) % 0x80 with
    | 0x04 => if (getHall s (heldHall a)).linked then heldWord s a else none
    | 0x08 => some (BitVec.ofNat 32 (getConv s n).widx)
    | 0x09 => some (BitVec.ofNat 32 (getConv s n).wrap)
    | _ => none
  else if 0x1400 ≤ a ∧ a < 0x1600 then
    if (getHall s (heldHall a)).linked then heldWord s a else none
  else match a with
    | 0x1601 => some (BitVec.ofNat 32 (2 * b2n (gridLock s) + b2n (!s.sync.queue.isEmpty)))
    | 0x1604 => some (BitVec.ofNat 32 s.sync.count)
    | 0x1605 => some (half s.sync.last 0)
    | 0x1606 => some (half s.sync.last 1)
    | 0x1608 => some (modclkPhase s)
    | _ => none

/-- The words of the runs, totals, periods and records that follow the state. -/
def liveRecords (s : State) (a : Nat) : Option Word :=
  if 0x1800 ≤ a ∧ a < 0x2000 then
    if (a - 0x1800) % 0x100 = 0x45 then some (BitVec.ofNat 32 (s.eng.progId * 65536 + s.eng.propVer)) else none
  else if 0x2000 ≤ a ∧ a < 0x2200 then
    if (a - 0x2000) % 0x40 < 0x1A then some (totWord s ((a - 0x2000) / 0x40) ((a - 0x2000) % 0x40)) else none
  else match a with
    | 0x2201 => some (BitVec.ofNat 32 (4 * b2n (closePending s) + 2 * b2n ((getKind s 0).tstep)
        + b2n s.ml.utcValid))
    | 0x2600 => some (audStat s)
    | 0x2603 => some (half s.aud.next 0)
    | 0x2604 => some (half s.aud.next 1)
    | 0x2605 => some (half s.aud.rel 0)
    | 0x2606 => some (half s.aud.rel 1)
    | 0x2610 => some (BitVec.ofNat 32 (2 * b2n (closePending s) + b2n s.gal.writeFail))
    | 0x2800 => some (BitVec.ofNat 32 (s.bb.dumps.length * 256 + (if s.bb.frozen then s.bb.hdr.cause else 0) * 16
        + 2 * b2n s.bb.pend + b2n s.bb.frozen))
    | 0x2810 => some (BitVec.ofNat 32 (s.jnl.ring.filter (·.2.st = 1)).length)
    | 0x2813 => some (BitVec.ofNat 32 (s.jnl.rst.getD jFree).op)
    | 0x2814 => some (BitVec.ofNat 32 ((s.jnl.rst.getD jFree).typ * 2 ^ 24 + (s.jnl.rst.getD jFree).st * 65536
        + (s.jnl.rst.getD jFree).steps))
    | 0x2815 => some (BitVec.ofNat 32 (s.jnl.rst.getD jFree).target)
    | 0x2816 => some (BitVec.ofNat 32 (s.jnl.rst.getD jFree).detail)
    | _ =>
      if 0x2614 ≤ a ∧ a < 0x261E then some (galEnd s ((a - 0x2614) / 2) (a % 2 = 1))
      else if 0x2819 ≤ a ∧ a ≤ 0x2820 then
        let e := getJ s (bits (getReg s 0x2818) 3 0)
        some (if e = jFree then 0 else BitVec.ofNat 32 (leAt (jBytes e) (4 * (a - 0x2819)) 4))
      else none

/-- The words of the watchdog, Miethlink, pair, image and flash blocks that follow the state, and the points. -/
def liveSystem (s : State) (a : Nat) : Option Word :=
  match a with
  | 0x2901 => some (BitVec.ofNat 32 (s.wd.checked % 65536 * 65536 + wdExcused s))
  | 0x2906 => some (BitVec.ofNat 32 (s.wd.last * 65536 + s.wd.warn))
  | 0x2907 => some (BitVec.ofNat 32 s.wd.resets)
  | 0x2908 => some (BitVec.ofNat 32 ((s.wd.period * 1000000 - wdElapsed s) / 1000))
  | 0x2930 => some (clkStat s)
  | 0x2A03 => some (mlStat s)
  | 0x2A06 => some (portStat s)
  | 0x2A07 => some (psWord (getPort s 0).delay)
  | 0x2A08 => some (psWord (getPort s 1).delay)
  | 0x2A09 => some (psWord (getPort s 2).delay)
  | 0x2A0A => some (BitVec.ofNat 32 s.ml.loopNs)
  | 0x2A0B => some (BitVec.ofNat 32 s.ml.lbound)
  | 0x2A0C => some (BitVec.ofNat 32 s.ml.train)
  | 0x2A0D => some (ofInt s.ml.tofs)
  | 0x2A0E => some (half s.time.ring 0)
  | 0x2A0F => some (half s.time.ring 1)
  | 0x2A10 => some s.ml.utcOfs
  | 0x2A14 => some (ofInt s.ml.ppsErr)
  | 0x2A23 => some ((getReg s 0x2A23 &&& 0xFFFFFFFE) ||| BitVec.ofNat 32 (b2n s.ml.mb.isSome))
  | 0x2AC0 => some (BitVec.ofNat 32 s.ml.subValid)
  | 0x2AC1 => some (BitVec.ofNat 32 (s.ml.subValid / 2 ^ 32))
  | 0x2C02 => some (pairStat s)
  | 0x2C06 => some (BitVec.ofNat 32 (min s.pair.crcErr 65535 * 65536 + min s.pair.missCnt 65535))
  | 0x2C07 => some (BitVec.ofNat 32 (min s.pair.divCnt 65535 * 65536 + min s.pair.chgCnt 65535))
  | 0x2C08 => some (BitVec.ofNat 32 s.pair.wcoll)
  | 0x2C09 => some (psWord s.pair.delay)
  | 0x2C0A => some (half s.pair.tko 0)
  | 0x2C0B => some (half s.pair.tko 1)
  | 0x2D00 => some (imgStat s)
  | 0x2D05 => some (BitVec.ofNat 32 ((List.range 4).foldl (fun a i => a + s.img.copies.getD i 0 * 16 ^ i) 0))
  | 0x2D06 => some (BitVec.ofNat 32 (s.img.gens.getD 0 0))
  | 0x2D07 => some (BitVec.ofNat 32 (s.img.gens.getD 1 0))
  | 0x2D08 => some (BitVec.ofNat 32 (s.img.gens.getD 2 0))
  | 0x2D09 => some (BitVec.ofNat 32 (s.img.gens.getD 3 0))
  | 0x2D0B => some (BitVec.ofNat 32 (s.img.woff % 0x100000))
  | 0x2D10 => some (startStat s)
  | 0x2D11 => some (BitVec.ofNat 32 s.clk.startUs)
  | 0x2D20 => some (nvStat s)
  | 0x2D23 => some (BitVec.ofNat 32 s.nv.c0.id)
  | 0x2D24 => some (BitVec.ofNat 32 s.nv.c1.id)
  | _ =>
    if 0x4400 ≤ a ∧ a < 0x4420 then some (getReg s (aCh ((a - 0x4400) / 4) ((a - 0x4400) % 4) 0x64))
    else if 0x4420 ≤ a ∧ a < 0x4440 then some (getReg s (aCh ((a - 0x4420) / 4) ((a - 0x4420) % 4) 0x20))
    else none

/-- The word in effect at an address below 0x6000. -/
def liveWord1 (s : State) (a : Nat) : Word :=
  let l := if a < 0x0400 then liveHost s a
    else if a < 0x1800 then liveField s a
    else if a < 0x2900 then liveRecords s a
    else liveSystem s a
  match l with
  | some w => w
  | none => getReg s a

/-- Before the image is applied STG_LOOK_VAL, WD_STAT and WD_LEFT stand at their Reset column (R10): the first one until a lookup is
asked for. -/
def beforeImage (s : State) (a : Nat) : Bool :=
  s.clk.die == .locked && (a = 0x2901 || a = 0x2908 || (a = 0x0213 && getReg s 0x0212 == 0))

/-- The word in effect (R7): STG_LOOK_VAL shows a staged word, or the value in effect where none is staged (R320); while the
logic die is held in reset every register is at its Reset column (R10). -/
def liveWord (s : State) (a : Nat) : Word :=
  if !logicUp s || beforeImage s a then resetWord a
  else if a = 0x0213 then
    let t := bits (getReg s 0x0212) 15 0
    match stagedAt s t with
    | some e => e.value
    | none => if t = 0x0213 then 0 else liveWord1 s t
  else liveWord1 s a

/-! Reads through an interface (R302 to R313, R351). -/

/-- The bits a read of a register returns: WO bits read 0 (R5). -/
def readMask (a : Nat) : Word :=
  match regDesc a with
  | some d => ~~~ d.wo
  | none => 0

/-- Latches of an interface: 0 host, 1 ring, 2 debug. -/
def getLatch (s : State) (ifc : Nat) : Table Word := tget (fun _ => []) s.latch ifc

/-- A word that reads from the latches: SNAP words, and STR_POS_HI (R326). -/
def isSnap (a : Nat) : Bool :=
  a = 0x0223 || (match regDesc a with | some d => d.snap | none => false)

/-- The words that reading `a` latches (R312). -/
def latchGroup (a : Nat) : List Nat := if a = 0x0222 then [0x0223] else snapGroup a

/-- One word read through an interface: its value, and the state with the group latched. -/
def readWord (ifc a : Nat) (s : State) : Word × State :=
  if isSnap a then (tget resetWord (getLatch s ifc) a, s)
  else
    let v := liveWord s a &&& readMask a
    match latchGroup a with
    | [] => (v, s)
    | g =>
      let l := g.foldl (fun t b => tset resetWord t b (liveWord s b)) (getLatch s ifc)
      (v, { s with latch := tset (fun _ => []) s.latch ifc l })

end Sys2Proof.Machine
end

