-- ==== Sys2Proof/Machine/MlPort.lean ====
section
/-! DEFINITION. The Miethlink node's configuration and ports: which are enabled, which are up, and what committed words do to them and
to subscriptions (R21, R328, R337, R342, R347, R349). -/

namespace Sys2Proof.Machine

/-- The Miethlink node mapped by `f`. -/
def updMl (f : MlSt → MlSt) (s : State) : State := { s with ml := f s.ml }

/-- ML_EVT bit `i` set. -/
def mlEvent (i : Nat) (s : State) : State := raiseBit rMlEvt i s

/-- Port `p` mapped by `f`. -/
def updPort (p : Nat) (f : MlPort → MlPort) (s : State) : State :=
  updMl (fun m => { m with ports := tset (fun _ => portReset) m.ports p (f (getPort s p)) }) s

/-! Configuration. -/

/-- ML_CFG. -/
def mlCfg (s : State) : Word := getReg s 0x2A00
/-- ML_CFG.HEAD_ROLE: 0 node, 1 head, 2 backup. -/
def headRole (s : State) : Nat := bits (mlCfg s) 31 30
/-- A port is enabled; the quiet strap joins no ring (R278). -/
def portEn (s : State) (p : Nat) : Bool := bit (mlCfg s) p && s.clk.straps ≠ 2
/-- ML_CYCLE in ns. -/
def mlCycle (s : State) : Nat := bits (getReg s 0x2A01) 16 0 * 1000
/-- ML_ACY_CFG.ACY_MAX in bytes. -/
def acyMax (s : State) : Nat := bits (getReg s 0x2A02) 12 2 * 4
/-- Enabled publish ranges: first point and points. -/
def pubRanges (s : State) : List (Nat × Nat) :=
  (List.range 64).filterMap fun e =>
    let w := getReg s (0x2A40 + e)
    if bit w 31 then some (bits w 12 0, bits w 30 23 + 1) else none
/-- The length of a DATA frame in ns (R335). -/
def dataDur (s : State) : Nat :=
  (8 + 4 + 4 * (pubRanges s).length + 4 * ((pubRanges s).foldl (fun a r => a + r.2) 0) + acyMax s + 4 + 4) * 40

/-- This device keeps ring time as the head does: the head, or a device with no ring (R24, R342, R345). -/
def timeHead (s : State) : Bool := headRole s = 1 || s.ml.loop.isNone || s.ml.isolated

/-! Ports (R328, R342). -/

/-- Ports are enabled and none of them is up. -/
def portsDown (s : State) : Bool :=
  ((List.range 3).any fun p => portEn s p) && !((List.range 3).any fun p => portEn s p && (getPort s p).st = 3)

/-- RING_ISOLATED follows the ports: set, with its event, when no enabled port is up (R21, R342). DEDUCED (log 85): ports that never
came up are down, too; a device that enables none has no ring to be isolated from. -/
def isolate (s : State) : State :=
  if !portsDown s then updMl (fun m => { m with isolated := false }) s
  else if s.ml.isolated then s
  else mlEvent 8 (updMl (fun m => { m with isolated := true }) s)

/-- Port `p` as ML_CFG has it: one newly enabled begins to seek lock, a disabled one is out of use. -/
def portWord (p : Nat) (s : State) : State :=
  if !portEn s p then updPort p (fun _ => portReset) s
  else if (getPort s p).st = 0 then updPort p (fun x => { x with st := 1 }) s else s

/-- Miethlink ports the registers enable begin to seek lock; all are down then. -/
def startPorts (s : State) : State := isolate (forN 3 portWord s)

/-- ML_CFG changed from `w`: the ports follow PORT_EN; a device of another HEAD_ROLE sends no CYCLE frames until it heads a loop anew
(R334, R337). -/
def applyMlCfg (w : Word) (s : State) : State :=
  let t := startPorts s
  if headRole t = bits w 31 30 then t
  else updMl (fun m => { m with
    isHead := false, backup := false, stopped := false, formed := false, formAt := none, formReq := false }) t

/-! Subscriptions (R347, R349). -/

/-- A subscribed value stored in its slot. -/
def putSub (slot : Nat) (v : Word) (s : State) : State := if slot < 1024 then setReg (0x4000 + slot) v s else s

/-- Entry `e` after a change from the state `old`: an unchanged one takes its values along to its new slots; a changed one is not
valid (R349), and its slots hold what they held. -/
def moveSub (old : State) (e : Nat) (s : State) : State :=
  let x := subEntry s e
  if getReg old (0x2A80 + e) = getReg s (0x2A80 + e) then
    (if x.1 then forN x.2.1 (fun i u => putSub (subBase s e + i) (getReg old (0x4000 + (subBase old e + i) % 1024)) u) s else s)
  else if s.ml.subValid.testBit e then
    let t := updMl (fun m => { m with subValid := m.subValid - 2 ^ e }) s
    if x.1 then mlEvent 9 t else t
  else s

end Sys2Proof.Machine
end

