-- ==== Sys2Proof/Machine/Image.lean ====
section
/-! DEFINITION. The Rhaunca image as bytes: header, sections, register lists, tables, hall sections, and the checks that make a
copy intact (R267 to R273). -/

namespace Sys2Proof.Machine

/-- An image's content. -/
structure Img where
  gen : Nat
  len : Nat
  digest : List Byte
  /-- Register entries of all lists, in section order: address and value. -/
  regs : List (Nat × Word)
  /-- Custom tables in order, 32 upward. -/
  tables : List (List (Word × Word × Word))
  /-- Curves section length; program section: length, PROG_ID, PROP_VER, STATE_VER, worst-case cycles, bytes. -/
  curveLen : Nat
  progLen : Nat
  progId : Nat
  propVer : Nat
  stateVer : Nat
  cycles : Nat
  prog : List Byte
  /-- Titum's figures: P_WORST per hall, DMA bytes, longest cycle. -/
  pworst : List Nat
  dmaBytes : Nat
  cycMax : Nat
deriving DecidableEq, Repr

/-- A refusal: REASON, SECTION and ADDR of IMG_REFUSE (R296). -/
structure ImgRefusal where
  reason : Nat
  sect : Nat
  addr : Nat
deriving DecidableEq, Repr

/-- A refusal of the whole image. -/
def refuseWhole (reason : Nat) : ImgRefusal := ⟨reason, 0, 0xFFFF⟩

/-- Flash offset of a slot. -/
def slotBase (slot : Nat) : Nat := 0x100000 * slot

/-- The header part of R273: none when it passes. -/
def headerBad (h : List Byte) : Option ImgRefusal :=
  if leAt h 0 2 ≠ 0xA6A0 ∨ leAt h 252 4 ≠ (crc32c (h.take 252)).toNat then some (refuseWhole 1)
  else if leAt h 2 1 ≠ 3 ∨ 3 < leAt h 3 1 then some (refuseWhole 4)
  else
    let g := leAt h 4 4
    let l := leAt h 8 4
    if g = 0 ∨ g = 0xFFFFFFFF ∨ l < 512 ∨ 1048576 < l ∨ l % 16 ≠ 0 then some (refuseWhole 1) else none

/-- Section table entry `i`, 0 to 9: offset, length, CRC. -/
def sectEntry (h : List Byte) (i : Nat) : Nat × Nat × Nat :=
  (leAt h (36 + 16 * i) 4, leAt h (40 + 16 * i) 4, leAt h (44 + 16 * i) 4)

/-- Bytes `a` to `b - 1` of a copy are all 0. -/
def zeroBytes (bs : List Byte) (a b : Nat) : Bool := ((bs.drop a).take (b - a)).all (· == 0)

/-- The header bytes that R268 gives as 0. -/
def headerZeros (bs : List Byte) : Bool := zeroBytes bs 13 16 && zeroBytes bs 28 32 && zeroBytes bs 216 252

/-- The section table obeys R268; `lo` is the end of the section before, and the bytes from there to a section are 0. -/
def tableBad (h : List Byte) (len : Nat) : Nat → Nat → Nat → Option ImgRefusal
  | 0, _, _ => none
  | n + 1, i, lo =>
    let e := sectEntry h i
    if leAt h (32 + 16 * i) 1 ≠ i + 1 ∨ leAt h (33 + 16 * i) 1 ≠ 1 ∨ leAt h (34 + 16 * i) 2 ≠ 0
        ∨ e.1 % 16 ≠ 0 ∨ e.1 < lo ∨ len < e.1 + e.2.1 + 32 ∨ (0 < i ∧ !zeroBytes h lo e.1) then some ⟨6, i + 1, 0xFFFF⟩
    else tableBad h len n (i + 1) (e.1 + e.2.1)

/-- The bytes of section type `t`, 1 to 10. -/
def sectBytes (bs : List Byte) (t : Nat) : List Byte :=
  let e := sectEntry bs (t - 1)
  (bs.drop e.1).take e.2.1

/-- The first section whose CRC fails. -/
def sectCrcBad (bs : List Byte) : Option ImgRefusal :=
  ((List.range 10).find? fun i => (crc32c (sectBytes bs (i + 1))).toNat ≠ (sectEntry bs i).2.2).map fun i =>
    ⟨2, i + 1, 0xFFFF⟩

/-- The checks of R273 on a whole copy. -/
def intactBad (bs : List Byte) : Option ImgRefusal :=
  match headerBad bs with
  | some r => some r
  | none =>
    let len := leAt bs 8 4
    match (if leAt bs 12 1 ≠ 10 || !headerZeros bs then some (refuseWhole 6) else tableBad bs len 10 0 256) with
    | some r => some r
    | none =>
      match sectCrcBad bs with
      | some r => some r
      | none => if bs.drop (len - 32) ≠ sha256 (bs.take (len - 32)) then some (refuseWhole 3) else none

/-! Register lists (R269, R270). -/

/-- The 8-byte entries of a list; `fuel` of them. -/
def listEntries : Nat → List Byte → List (Nat × Nat × Word)
  | 0, _ => []
  | n + 1, bs =>
    if bs.length < 8 then []
    else (leAt bs 0 2, leAt bs 2 2, BitVec.ofNat 32 (leAt bs 4 4)) :: listEntries n (bs.drop 8)

/-- The entries of section type `t`. -/
def sectList (bs : List Byte) (t : Nat) : List (Nat × Nat × Word) :=
  let s := sectBytes bs t
  listEntries (s.length / 8) s

/-- The section types that are register lists. -/
def listSects : List Nat := [1, 2, 3, 4, 7, 8, 9, 10]

/-- The register range of a list section (R269). -/
def sectRange (t : Nat) : Nat × Nat :=
  match t with
  | 1 => (0x0400, 0x0BFF)
  | 2 => (0x0C00, 0x13FF)
  | 3 => (0x1400, 0x17FF)
  | 4 => (0x1800, 0x25FF)
  | 7 => (0x2600, 0x28FF)
  | 8 => (0x2A00, 0x2BFF)
  | 9 => (0x2C00, 0x2CFF)
  | _ => (0x2900, 0x29FF)

/-- The section type that lists an address; 0 for none. -/
def sectOf (a : Nat) : Nat := (listSects.find? fun t => (sectRange t).1 ≤ a && a ≤ (sectRange t).2).getD 0

/-- An address holds CH_OUT of some channel. -/
def isChOut (a : Nat) : Bool := 0x0400 ≤ a && a < 0x0C00 && 0x1C ≤ (a - 0x400) % 0x100 && (a - 0x400) % 0x100 < 0x20

/-- The bits of a listed value that are not reserved: the RW fields, and CH_OUT.SRC_ENGINE (R181, R270). -/
def listMask (a : Nat) : Word :=
  match regDesc a with
  | some d => if isChOut a then d.rw ||| 0x80000000 else d.rw
  | none => 0

/-- A register of class A or B with a RW field (R270). -/
def listable (a : Nat) : Bool :=
  match regDesc a with
  | some d => d.rw != 0 && (d.cls == .a || d.cls == .b)
  | none => false

/-- The first entry of a list that breaks R270. -/
def listBad (t : Nat) : Nat → List (Nat × Nat × Word) → Option ImgRefusal
  | _, [] => none
  | lo, e :: l =>
    let r := sectRange t
    if e.1 < lo ∨ e.1 < r.1 ∨ r.2 < e.1 ∨ e.2.1 ≠ 0 ∨ !listable e.1 ∨ e.2.2 &&& ~~~ (listMask e.1) ≠ 0 then
      some ⟨7, t, e.1⟩
    else listBad t (e.1 + 1) l

/-- The lists of an image obey R270. -/
def listsBad (bs : List Byte) : Option ImgRefusal :=
  listSects.findSome? fun t =>
    if (sectBytes bs t).length % 8 ≠ 0 then some ⟨7, t, 0xFFFF⟩ else listBad t 0 (sectList bs t)

/-! Content. -/

/-- The breakpoints of a 768-byte table before the first one of 0xFFFFFFFF in all words (R271). -/
def tablePoints : Nat → List Byte → List (Word × Word × Word)
  | 0, _ => []
  | n + 1, bs =>
    let w (i : Nat) : Word := BitVec.ofNat 32 (leAt bs (4 * i) 4)
    if w 0 = 0xFFFFFFFF ∧ w 1 = 0xFFFFFFFF ∧ w 2 = 0xFFFFFFFF then []
    else (w 0, w 1, w 2) :: tablePoints n (bs.drop 12)

/-- The content of an intact copy. -/
def imgOf (bs : List Byte) : Img :=
  let p := sectBytes bs 5
  let c := sectBytes bs 6
  { gen := leAt bs 4 4
    len := leAt bs 8 4
    digest := bs.drop (leAt bs 8 4 - 32)
    regs := listSects.flatMap fun t => (sectList bs t).map fun e => (e.1, e.2.2)
    tables := (List.range (c.length / 768)).map fun i => tablePoints 64 (c.drop (768 * i))
    curveLen := c.length
    progLen := p.length
    progId := leAt p 0 2
    propVer := leAt p 2 2
    stateVer := leAt p 4 2
    cycles := leAt p 8 4
    prog := p
    pworst := (List.range 8).map fun h => leAt bs (192 + 2 * h) 2
    dmaBytes := leAt bs 208 4
    cycMax := leAt bs 212 4 }

/-- PULS_FRZ of some hall, whose reset is 0 (R175). -/
def isPulsFrz (a : Nat) : Bool := 0x1400 ≤ a && a < 0x1600 && (a - 0x1400) % 0x40 == 0x14

/-- The IMG bits of a register: those an image gives (R10, R270). Action and command words of class B keep their reset; IMG_EVT_MASK and
NV_EVT_MASK, which no section covers, take 0 (R435). -/
def imgBits (a : Nat) : Word :=
  if a = 0x2A11 ∨ a = 0x2A12 ∨ a = 0x2A18 ∨ a = 0x2A19 then 0
  else if isPulsFrz a then 0
  else if 0x0400 ≤ a ∧ a < 0x0C00 ∧ (a - 0x400) % 0x100 = 0x05 then 0
  else if listable a && (sectOf a ≠ 0 || a = 0x2D02 || a = 0x2D22) then (match regDesc a with | some d => d.rw | none => 0) else 0

/-- The listed value of an address. -/
def imgListed (im : Img) (a : Nat) : Option Word := (im.regs.find? fun e => e.1 = a).map (·.2)

/-- The word an image gives a register before R11: the value's IMG bits, 0 where it is not listed; WD_CFG, which has a fixed
reset, keeps it where it is not listed (log 32). -/
def imgWord (im : Img) (a : Nat) : Word :=
  match imgListed im a with
  | some v => merge (imgBits a) (resetWord a) v
  | none => if a = rWdCfg then resetWord a else resetWord a &&& ~~~ (imgBits a)

/-! Hall sections (R272). -/

/-- An address lies in hall `h`'s blocks. -/
def hallOwns (h a : Nat) : Bool :=
  (aHall h 0 ≤ a && a < aHall h 0x100) || (aConv (2 * h) 0 ≤ a && a < aConv (2 * h) 0x100)
    || (aRot h 0 ≤ a && a < aRot h 0x40)

/-- The entries of hall `h`'s section. -/
def hallEntries (im : Img) (h : Nat) : List (Nat × Word) := im.regs.filter fun e => hallOwns h e.1

/-- Section CRC of a list of entries. -/
def entriesCrc (l : List (Nat × Word)) : Nat :=
  (crc32c (l.flatMap fun e => leBytes 2 e.1 ++ leBytes 2 0 ++ leBytes 4 e.2.toNat)).toNat

/-- The section CRC of hall `h` in an image. -/
def hallCrcOf (im : Img) (h : Nat) : Nat := entriesCrc (hallEntries im h)

/-! Copies (R276). -/

/-- Chip and slot of copy `i`. -/
def copyChip (i : Nat) : Nat := i / 2
/-- Slot of copy `i`. -/
def copySlot (i : Nat) : Nat := i % 2

/-- The header of copy `i` as read from its chip. -/
def copyHeader (s : State) (i : Nat) : List Byte := nvRead s (copyChip i) (slotBase (copySlot i)) 256

/-- Copy `i` in full, as long as its header says. -/
def copyBytes (s : State) (i : Nat) : List Byte :=
  nvRead s (copyChip i) (slotBase (copySlot i)) (min (leAt (copyHeader s i) 8 4) 1048576)

/-- Copy `i` can be read and its header passes. -/
def copyHeadOk (s : State) (i : Nat) : Bool :=
  chipOk (nvChip s (copyChip i)) && (headerBad (copyHeader s i)).isNone

end Sys2Proof.Machine
end

