-- ==== Sys2Proof/Machine/Check.lean ====
section
/-! DEFINITION. R11's clamps and the checks of R274 and R318 on a configuration: field values, thermal, memory, timing. A
configuration is read as a function from address to word. -/

namespace Sys2Proof.Machine

/-! Clamps (R11). -/

/-- Field [hi:lo] of a word held in lo1 .. hi1. -/
def clampField (w : Word) (hi lo lo1 hi1 : Nat) : Word := putBits w hi lo (clampNat lo1 hi1 (bits w hi lo))

/-- Field [hi:lo] raised or clamped, 0 left alone. -/
def clampOr0 (w : Word) (hi lo lo1 hi1 : Nat) : Word := if bits w hi lo = 0 then w else clampField w hi lo lo1 hi1

/-- R11 on the words of a hall block; `mode` is the channel's mode. -/
def clampHall (off mode : Nat) (w : Word) : Word :=
  if 0x10 ≤ off ∧ off < 0x14 then clampField w 7 5 0 4
  else if 0x18 ≤ off ∧ off < 0x1C then
    if isOutMode mode then clampField w 31 8 0 (cmdMax mode) else w
  else if 0x1C ≤ off ∧ off < 0x20 then (if isOutMode mode then clampField w 23 0 0 (cmdMax mode) else w)
  else w

/-- R11 on the words of the runs, periods and balance entries. -/
def clampRecords (a : Nat) (w : Word) : Word :=
  if 0x1800 ≤ a ∧ a < 0x2000 then
    match (a - 0x1800) % 0x100 with
    | 0x30 => if flt 0 w then w else 1
    | 0x33 => BitVec.ofNat 32 (clampNat 5 5000 w.toNat)
    | 0x36 => clampField w 1 0 0 2
    | _ => w
  else if a = 0x2200 then putBits w 27 20 (ofInt (clampInt (-48) 56 (bitsSigned w 27 20))).toNat
  else if 0x2400 ≤ a ∧ a < 0x2600 ∧ (a - 0x2400) % 8 = 0 then
    clampField (clampField (clampField w 23 12 1 3600) 11 4 1 255) 3 0 1 15
  else w

/-- R11 on a word written to register `a`. -/
def clampValue (mode a : Nat) (w : Word) : Word :=
  if a < 0x0400 then (if a = 0x0220 then clampField w 5 0 0 23 else w)
  else if a < 0x0C00 then clampHall ((a - 0x400) % 0x100) mode w
  else if a < 0x1400 then
    match (a - 0xC00) % 0x80 with
    | 0x00 => clampField w 4 0 0 16
    | 0x01 => clampField w 2 0 0 4
    | 0x03 => clampOr0 w 14 0 16 16384
    | _ => w
  else if a < 0x1600 then
    if (a - 0x1400) % 0x40 = 0 then clampField (clampField w 27 16 1 3600) 15 8 1 255 else w
  else match a with
    | 0x1600 => clampField (clampField w 27 18 1 1000) 16 0 10 100000
    | 0x2900 => clampField w 9 0 1 1000
    | 0x2A01 => clampField w 16 0 250 100000
    | 0x2A02 => clampField (clampField w 23 16 2 255) 12 2 16 1024
    | _ => clampRecords a w

/-! What the checks read. -/

/-- A configuration's words. -/
abbrev CfgView := Nat → Word

/-- MODE of a channel as written. -/
def vMode (g : CfgView) (h c : Nat) : Nat := bits (g (aCh h c 0x10)) 4 0
/-- MODE of a global channel. -/
def gMode (g : CfgView) (ch : Nat) : Nat := vMode g (ch / 4) (ch % 4)
/-- CURVE of a global channel. -/
def gCurve (g : CfgView) (ch : Nat) : Nat := bits (g (aCh (ch / 4) (ch % 4) 0x50)) 5 0
/-- FLIGHT_LEN. -/
def vLen (g : CfgView) (n : Nat) : Nat := min (bits (g (aConv n 0)) 4 0) 16
/-- INJ_LEN. -/
def vInj (g : CfgView) (n : Nat) : Nat := min (bits (g (aConv n 1)) 2 0) 4
/-- ROT_CFG.ROT_EN. -/
def vRot (g : CfgView) (h : Nat) : Bool := bit (g (aRot h 0)) 31
/-- HALL_CFG.HALL_EN. -/
def vHallEn (g : CfgView) (h : Nat) : Bool := bit (g (aHall h 0x01)) 0
/-- RUN_CFG.EN. -/
def vRunEn (g : CfgView) (m : Nat) : Bool := bit (g (aRun m 0)) 31
/-- Addresses of word A of the steps in use of converter `n`: flight steps, then injected ones. -/
def flightAddrs (g : CfgView) (n : Nat) : List Nat := (List.range (vLen g n)).map fun i => aConv n (0x10 + 2 * i)
/-- Addresses of word A of the injected steps in use. -/
def injAddrs (g : CfgView) (n : Nat) : List Nat := (List.range (vInj g n)).map fun i => aConv n (0x30 + 2 * i)

/-- The flight steps of a hall that read channel `c` with INPUT 0: converter and word A's address. -/
def readers (g : CfgView) (h c : Nat) : List (Nat × Nat) :=
  [2 * h, 2 * h + 1].flatMap fun n =>
    ((flightAddrs g n).filter fun a => saCh (g a) = c && sbInput (g (a + 1)) = 0).map fun a => (n, a)

/-- Flight cycle time by R140, in 1/16 ns. -/
def vCycle (g : CfgView) (n : Nat) : Nat :=
  (flightAddrs g n).foldl (fun t a =>
    t + if saCont (g a) then tConv (saOdr (g a)) + (sbRepeat (g (a + 1)) - 1) * odrPeriod (saOdr (g a))
      else saSettle (g a) * tick16 + sbRepeat (g (a + 1)) * tConv (saOdr (g a))) 0

/-- The addresses that fail: `a` where `b` holds. -/
def failAt (b : Bool) (a : Nat) : List Nat := if b then [a] else []

/-- `l` strictly ascending. -/
def ascending : List Nat → Bool
  | x :: y :: t => decide (x < y) && ascending (y :: t)
  | _ => true

/-! Channels and excitation (R47, R53, R71, R77, R92 to R103, R155). -/

/-- A mode 14 channel's gang has an earlier member. -/
def notLead (g : CfgView) (h c : Nat) : Bool :=
  vMode g h c = 14 && (List.range c).any fun d =>
    vMode g h d = 14 && bits (g (aCh h d 0x10)) 13 12 = bits (g (aCh h c 0x10)) 13 12

/-- A channel is bound as POUT of an enabled run. -/
def isPout (g : CfgView) (ch : Nat) : Bool :=
  (List.range 8).any fun m => vRunEn g m && bit (g (aRun m 3)) 11 && bits (g (aRun m 3)) 10 6 = ch

/-- A safe state that R53 refuses for the channel. -/
def safeBad (g : CfgView) (h c : Nat) (w : Word) : Bool :=
  let m := vMode g h c
  let f := bits w 2 0
  if !isOutMode m || notLead g h c then false
  else if m = 15 then 4 < f
  else if m = 16 && isPout g (4 * h + c) then f ≠ 0
  else 2 < f

/-- A channel's gang breaks R47. -/
def gangBad (g : CfgView) (h c : Nat) : Bool :=
  let k := bits (g (aCh h c 0x10)) 13 12
  let mem := (List.range 4).filter fun d => vMode g h d = 14 && bits (g (aCh h d 0x10)) 13 12 = k
  if vMode g h c = 14 then k = 0 || k = 3 || mem.length < 2 else k ≠ 0

/-- Curve and mode pairing (R102). -/
def curveBad (mode curve : Nat) : Bool :=
  if curve = 0 then false
  else if curve ≤ 8 then !(mode == 8 || mode == 9 || mode == 10)
  else if curve ≤ 16 then mode ≠ 11
  else if 32 ≤ curve && curve ≤ 47 then !((5 ≤ mode && mode ≤ 12) || mode == 17)
  else true

/-- Resistance range and curve pairing (R94). -/
def rangeBad (mode range curve : Nat) : Bool :=
  range = 3 || ((mode == 8 || mode == 9 || mode == 10) &&
    !(curve = 0 || 32 ≤ curve || (match range with
      | 0 => curve == 1 || curve == 4 || curve == 7
      | 1 => curve == 2 || curve == 3 || curve == 5 || curve == 6 || curve == 8
      | _ => false)))

/-- CH_SENS breaks R94, R96, R99, R102 or R104. -/
def sensBad (g : CfgView) (h c : Nat) : Bool :=
  let w := g (aCh h c 0x50)
  let m := vMode g h c
  let cj := bits w 12 8
  let r := bits w 15 14
  curveBad m (bits w 5 0) || rangeBad m (bits w 7 6) (bits w 5 0)
    || (m = 11 && bit w 13 && !(8 ≤ gMode g cj && gMode g cj ≤ 10 && 1 ≤ gCurve g cj && gCurve g cj ≤ 8))
    || (m = 12 && bit w 16 && !(vMode g h r = 12 && !bit (g (aCh h r 0x50)) 16))

/-- The words of a channel that break a rule. -/
def chanBad (g : CfgView) (h c : Nat) : List Nat :=
  let w := g (aCh h c 0x10)
  let wb := g (aCh h c 0x14)
  let ne := g (aCh h c 0x54)
  failAt (17 < bits w 4 0 || bits w 11 10 = 3 || bits w 9 8 = 3 || gangBad g h c) (aCh h c 0x10)
    ++ failAt (!ascending [bits wb 7 0, bits wb 15 8, bits wb 23 16, bits wb 31 24]) (aCh h c 0x14)
    ++ failAt (safeBad g h c (g (aCh h c 0x18))) (aCh h c 0x18)
    ++ failAt (sensBad g h c) (aCh h c 0x50)
    ++ failAt (!ascending [0, bits ne 7 0, bits ne 15 8, bits ne 23 16, bits ne 31 24, 241]) (aCh h c 0x54)

/-- Current of a source code in µA (R89). -/
def excMicro (code : Nat) : Nat := [0, 10, 20, 25, 50, 100, 200, 250, 500, 1000, 1500, 2000].getD code 0

/-- A profile word uses a code of 12 to 15, or steers a source to an output's terminal (R89, R92). -/
def profileBad (g : CfgView) (h : Nat) (w : Word) : Bool :=
  11 < bits w 23 20 || 11 < bits w 15 12
    || (bits w 23 20 ≠ 0 && isOutMode (vMode g h (bits w 19 18)))
    || (bits w 15 12 ≠ 0 && isOutMode (vMode g h (bits w 11 10)))

/-- The current a profile drives into FRC of channel c, in µA. -/
def frcMicro (w : Word) (c : Nat) : Nat :=
  (if bits w 11 8 = 4 * c then excMicro (bits w 15 12) else 0) + (if bits w 19 16 = 4 * c then excMicro (bits w 23 20) else 0)

/-- The profile of a step does not drive an RTD channel by R95, or drives it outside the range of R94. -/
def rtdDriveBad (mode range c : Nat) (w : Word) : Bool :=
  let i := if mode = 9 then excMicro (bits w 15 12) else frcMicro w c
  let wired := if mode = 9 then bits w 15 12 ≠ 0 && bits w 11 8 = 4 * c && bits w 19 16 = 4 * c + 2
      && bits w 23 20 = bits w 15 12
    else i ≠ 0
  !wired || (match range with
    | 0 => i < 200 || 2000 < i
    | 1 => i < 20 || 250 < i
    | _ => i < 10 || 25 < i)

/-- A step breaks R92 or the step rows of R140. -/
def stepBad (g : CfgView) (h : Nat) (inj : Bool) (len a : Nat) : List Nat :=
  let w := g a
  let b := g (a + 1)
  let c := saCh w
  let m := vMode g h c
  let sens := g (aCh h c 0x50)
  let p := g (aHall h (0x68 + sbExc b))
  let win := bits w 18 16
  let in0 := sbInput b = 0
  failAt ((in0 && (m ≤ 4 || (13 ≤ m && m ≤ 16) || (m = 12 && !bit sens 16))) || 4 < win || (inj && win ≠ 0)
      || (saCont w && (inj || 1 < len))) a
    ++ failAt (sbInput b = 3 || sbRepeat b = 0
      || (8 ≤ m && m ≤ 10 && rtdDriveBad m (bits sens 7 6) c p)
      || (in0 && m = 12 && bit sens 16 && !(bit p 31 && bits p 29 28 = bits sens 15 14))) (a + 1)

/-- The steps of a converter that break a rule. -/
def stepsBad (g : CfgView) (n : Nat) : List Nat :=
  (flightAddrs g n).flatMap (stepBad g (n / 2) false (vLen g n))
    ++ (injAddrs g n).flatMap (stepBad g (n / 2) true (vInj g n))

/-- LOW + HYST > HIGH - HYST (R130). -/
def winBad (hi lo cfg : Word) : Bool := sval hi - bits cfg 27 0 < sval lo + bits cfg 27 0

/-- The window words of a K0 block that break R130. -/
def windowsBad (g : CfgView) (h : Nat) : List Nat :=
  (List.range 4).flatMap fun w =>
    let a := aConv (2 * h) (0x38 + 4 * w)
    failAt (winBad (g a) (g (a + 1)) (g (a + 2))) a

/-- A pulsation path breaks R155 or R175. -/
def pulsBad (g : CfgView) (h c : Nat) : Bool :=
  let w := g (aRot h (0x10 + c))
  let rs := readers g h c
  6 < bits w 11 8 || 9 < bits w 3 0 || (bit w 31 && (rs.length ≠ 1 || (match rs.head? with
    | none => true
    | some r =>
      let t := if saCont (g r.2) then odrPeriod (saOdr (g r.2)) else vCycle g r.1
      16000000000000 < fcMilli (bits w 3 0) * 20 * t || tauMs (bits w 11 8) * 16000000 < 10 * t)))

/-- The words of a hall that break a rule. -/
def hallBad (g : CfgView) (h : Nat) : List Nat :=
  let ref := g (aHall h 0x40)
  let blank := bits (g (aHall h 0x42)) 29 16
  (List.range 4).flatMap (chanBad g h)
    ++ failAt ((!bit ref 0 && (vLen g (2 * h) ≠ 0 || vLen g (2 * h + 1) ≠ 0)) || bits ref 15 8 < 12) (aHall h 0x40)
    ++ failAt (blank < 1 || 10000 < blank) (aHall h 0x42)
    ++ (List.range 4).flatMap (fun p => failAt (profileBad g h (g (aHall h (0x68 + p)))) (aHall h (0x68 + p)))
    ++ stepsBad g (2 * h) ++ windowsBad g h ++ stepsBad g (2 * h + 1)
    ++ failAt (vRot g h && vLen g (2 * h + 1) ≠ 0) (aConv (2 * h + 1) 0)
    ++ failAt (vRot g h && vInj g (2 * h + 1) ≠ 0) (aConv (2 * h + 1) 1)
    ++ failAt (bits (g (aRot h 0)) 3 0 < 5) (aRot h 0)
    ++ (List.range 4).flatMap fun c => failAt (pulsBad g h c) (aRot h (0x10 + c))

/-! Runs (R181, R185, R187, R189, R194, R204). -/

/-- Role's channel in a configuration: roles in the order of `roleCh`. -/
def vRole (g : CfgView) (m role : Nat) : Option Nat :=
  let w :=
    if role < 4 then bits (g (aRun m 1)) (6 * role + 5) (6 * role)
    else if role < 7 then bits (g (aRun m 2)) (6 * (role - 4) + 5) (6 * (role - 4))
    else bits (g (aRun m 3)) (6 * (role - 7) + 5) (6 * (role - 7))
  if w.testBit 5 then some (w % 32) else none

/-- The register that holds a role. -/
def roleAddr (m role : Nat) : Nat := if role < 4 then aRun m 1 else if role < 7 then aRun m 2 else aRun m 3

/-- A current input without a curve. -/
def loopInput (g : CfgView) (ch : Nat) : Bool :=
  (gMode g ch == 5 || gMode g ch == 6 || gMode g ch == 17) && gCurve g ch == 0

/-- A temperature input (R181). -/
def tempInput (g : CfgView) (ch : Nat) : Bool :=
  let m := gMode g ch
  let k := gCurve g ch
  (8 ≤ m && m ≤ 11 && 1 ≤ k && k ≤ 16) || (((5 ≤ m && m ≤ 12) || m == 17) && 32 ≤ k && k ≤ 47)

/-- The mode and curve of a bound role break R181. -/
def roleBad (g : CfgView) (meter role ch : Nat) : Bool :=
  match role with
  | 4 => !tempInput g ch
  | 5 => if meter = 2 then gMode g ch ≠ 4 else if meter = 3 then !loopInput g ch else !(gMode g ch = 4 || loopInput g ch)
  | 7 => gMode g ch ≠ 16
  | 8 => gMode g ch ≠ 16
  | 9 => gMode g ch ≠ 15
  | _ => !loopInput g ch

/-- A role the run needs (R181). -/
def roleNeeded (g : CfgView) (m role : Nat) : Bool :=
  let w := g (aRun m 0)
  let meter := bits w 30 28
  match role with
  | 0 => meter ≤ 1
  | 1 => meter ≤ 1 && 2 ≤ bits w 23 22
  | 2 => meter ≤ 1 && bits w 23 22 = 3
  | 3 => true
  | 4 => bits w 27 26 ≠ 2
  | 5 => 2 ≤ meter
  | 6 => bits w 19 18 = 1 || bits w 19 18 = 2
  | _ => false

/-- How many roles 7 to 9 of all runs name an output channel. -/
def outUses (g : CfgView) (ch : Nat) : Nat :=
  ((List.range 8).flatMap fun m => (List.range 3).filter fun r => vRole g m (7 + r) = some ch).length

/-- A run's bindings that break R181 or R140. -/
def bindBad (g : CfgView) (m : Nat) : List Nat :=
  let meter := bits (g (aRun m 0)) 30 28
  (List.range 10).flatMap fun r =>
    match vRole g m r with
    | none => failAt (vRunEn g m && roleNeeded g m r) (roleAddr m r)
    | some ch =>
      let rs := readers g (ch / 4) (ch % 4)
      failAt (!vRunEn g m || roleBad g meter r ch || (r < 7 && gMode g ch ≠ 4 && rs.isEmpty)
          || ((List.range 10).any fun q => q ≠ r && vRole g m q = some ch) || (7 ≤ r && 1 < outUses g ch)) (roleAddr m r)
        ++ (if r < 7 then rs.flatMap fun x => failAt (bits (g (aConv x.1 3)) 14 0 = 0) (aConv x.1 3) else [])

/-- A binary32 within limits given as quotients, each rounded to binary32. -/
def within (w : Word) (a : Int) (da : Nat) (b : Int) (db : Nat) : Bool := fle (frat a da) w && fle w (frat b db)

/-- Base conditions outside the range of R194. -/
def baseBad (ver fluid : Nat) (p t : Word) : Bool :=
  if fluid = 3 then !within p 100 1 4000 1 || !within t (-20) 1 100 1
  else !within p 100 1 10000 1 || !within t 1 1 200 1 || xlt (Config.fluid ver .tSat (xof32 p) 0 0) (xof32 t)

/-- Parameter `i` of an enabled run lies outside its range while the run uses it (R185, R187, R194, R204). -/
def parBad (g : CfgView) (ver m i : Nat) : Bool :=
  let w := g (aRun m 0)
  let p (j : Nat) : Word := g (aRun m (0x10 + j))
  let meter := bits w 30 28
  let fluid := bits w 27 26
  let dp := meter ≤ 1
  let nDp := bits w 23 22
  let aux := bits w 19 18
  let beta := fdiv32 (p 1) (p 0)
  match i with
  | 0 => dp && !(if meter = 0 then within (p 0) 1 20 1 1 else within (p 0) 1 20 6 5)
  | 1 => dp && !(if meter = 0 then fle (frat 1 80) (p 1) && within beta 1 10 3 4 else within beta 3 10 3 4)
  | 2 => dp && !within (p 2) 0 1 1 20000
  | 3 => dp && !within (p 3) 0 1 1 20000
  | 4 => dp && !within (p 4) (-50) 1 100 1
  | 5 => dp && !within (p 5) 1 1 167 100
  | 6 => meter = 1 && !within (p 6) 19 20 101 100
  | 7 => dp && !(fle 0 (p 7) && fle (p 7) (fmul (frat 1 10) (p 17)))
  | 8 => bit w 17 && !within (p 8) 50 1 110 1
  | 9 => baseBad ver fluid (p 9) (p 10)
  | 11 => fluid ≤ 2 && !within (p 11) (-10) 1 1000 1
  | 12 => fluid = 2 && aux = 0 && !within (p 12) 0 1 1 1
  | 13 => fluid = 3 && aux = 0 && !within (p 13) 0 1 100 1
  | 14 => meter = 3 && !flt (p 14) (p 15)
  | 16 => dp && !flt (p 16) (p 17)
  | 18 => dp && 2 ≤ nDp && !(flt (p 18) (p 19) && flt (p 17) (p 19))
  | 20 => dp && nDp = 3 && !(flt (p 20) (p 21) && flt (p 19) (p 21))
  | 22 => !flt (p 22) (p 23)
  | 24 => (aux = 1 || aux = 2) && !flt (p 24) (p 25)
  | 26 => dp && 2 ≤ nDp && !within (p 26) 1 2 1 1
  | 27 => dp && 2 ≤ nDp && !(fle (frat 3 10) (p 27) && fle (p 27) (fsub (p 26) (frat 1 100)))
  | 28 => dp && !(fle (frat 1 100) (p 28) && flt (p 28) (p 29) && fle (p 29) (fint 1))
  | 30 => meter = 2 && !within (p 30) 1 10 600 1
  | _ => false

/-- RUN_CFG of a run breaks R189, R190 or R204. -/
def runCfgBad (g : CfgView) (m : Nat) : Bool :=
  let w := g (aRun m 0)
  let meter := bits w 30 28
  let aux := bits w 19 18
  let fluid := bits w 27 26
  let n := bits w 16 12
  3 < meter || bits w 25 24 = 3 || bits w 21 20 = 3 || aux = 3
    || (vRunEn g m && ((meter ≤ 1 && bits w 23 22 = 0) || (aux = 1 && fluid < 2) || (aux = 2 && fluid ≠ 3)
      || (meter = 2 && (n < 2 || 16 < n))))

/-- The K-factor points of a pulse meter break R189. -/
def kfBad (g : CfgView) (m : Nat) : List Nat :=
  let n := min (bits (g (aRun m 0)) 16 12) 16
  if vRunEn g m && bits (g (aRun m 0)) 30 28 = 2 then
    (List.range n).flatMap fun i =>
      failAt (i ≠ 0 && !flt (g (aRun m (0x7E + 2 * i))) (g (aRun m (0x80 + 2 * i)))) (aRun m (0x80 + 2 * i))
        ++ failAt (!flt 0 (g (aRun m (0x81 + 2 * i)))) (aRun m (0x81 + 2 * i))
  else []

/-- The words of a run that break a rule. -/
def runBad (g : CfgView) (ver m : Nat) : List Nat :=
  let o := g (aRun m 3)
  failAt (runCfgBad g m) (aRun m 0) ++ bindBad g m
    ++ failAt (bits o 26 24 = 7 || bits o 21 20 = 3 || bits o 19 18 = 3) (aRun m 3)
    ++ (if vRunEn g m then (List.range 31).flatMap fun i => failAt (parBad g ver m i) (aRun m (0x10 + i)) else [])
    ++ failAt (g (aRun m 0x2F) ≠ 0) (aRun m 0x2F) ++ kfBad g m

/-! Balance, points, pair, watchdog (R227, R234, R347, R373, R380, R390). -/

/-- A range of points: enabled, first, count. -/
def pubRange (g : CfgView) (e : Nat) : Bool × Nat × Nat :=
  (bit (g (0x2A40 + e)) 31, bits (g (0x2A40 + e)) 12 0, bits (g (0x2A40 + e)) 30 23 + 1)

/-- A subscription range. -/
def subRange (g : CfgView) (e : Nat) : Bool × Nat × Nat :=
  (bit (g (0x2A80 + e)) 31, bits (g (0x2A80 + e)) 22 0, bits (g (0x2A80 + e)) 30 23 + 1)

/-- A point lies in an enabled range. -/
def inRange (r : Bool × Nat × Nat) (p : Nat) : Bool := r.1 && decide (r.2.1 ≤ p) && decide (p < r.2.1 + r.2.2)

/-- Eight points from `p` lie in enabled ranges. -/
def eightIn (f : Nat → Bool × Nat × Nat) (p : Nat) : Bool :=
  (List.range 8).all fun i => (List.range 64).any fun e => inRange (f e) (p + i)

/-- Points of the enabled ranges up to entry `e`. -/
def pointsTo (f : Nat → Bool × Nat × Nat) (e : Nat) : Nat :=
  (List.range (e + 1)).foldl (fun a i => if (f i).1 then a + (f i).2.2 else a) 0

/-- Two enabled ranges share a point. -/
def overlap (x y : Bool × Nat × Nat) : Bool :=
  x.1 && y.1 && decide (x.2.1 < y.2.1 + y.2.2) && decide (y.2.1 < x.2.1 + x.2.2)

/-- A balance entry breaks R227 or R234. -/
def balBad (g : CfgView) (b : Nat) : List Nat :=
  let w := g (aBal b 0)
  let r := bits w 31 30
  failAt (r = 3 || bits w 26 25 = 3 || ((r = 1 || r = 2) && !vRunEn g (bits w 29 27))
      || (r = 2 && ((bit w 24 && bits w 26 25 = 2) || 10 * bits w 23 12 ≤ bits w 11 4))
      || (r = 1 && !eightIn (pubRange g) (7680 + 8 * b))) (aBal b 0)
    ++ failAt (((r = 1 || r = 2) && bits (g (aBal b 1)) 22 0 % 8 ≠ 0)
      || (r = 2 && !eightIn (subRange g) (bits (g (aBal b 1)) 22 0))) (aBal b 1)

/-- The range words that break R347. -/
def rangesBad (g : CfgView) : List Nat :=
  (List.range 64).flatMap fun e =>
    let p := pubRange g e
    let q := subRange g e
    failAt (p.1 && (1024 < pointsTo (pubRange g) e || 8192 < p.2.1 + p.2.2
        || (List.range e).any fun i => overlap (pubRange g i) p)) (0x2A40 + e)
      ++ failAt (q.1 && (1024 < pointsTo (subRange g) e || 8192 < q.2.1 % 8192 + q.2.2)) (0x2A80 + e)

/-- A shared channel breaks R373. -/
def sharedBad (g : CfgView) (ch : Nat) : List Nat :=
  let h := ch / 4
  let c := ch % 4
  let m := vMode g h c
  if !bit (g 0x2C01) ch then []
  else
    failAt (m = 3 || (7 ≤ m && m ≤ 12) || m = 14 || m = 17) (aCh h c 0x10)
      ++ failAt ((m = 13 || m = 15 || m = 16) && bits (g (aCh h c 0x18)) 2 0 ≠ 0) (aCh h c 0x18)
      ++ failAt (m = 15 && !bit (g (aCh h c 0x50)) 17) (aCh h c 0x50)

/-- WD_CFG breaks R390, the hall slots' interval apart. -/
def wdBad (g : CfgView) : Bool :=
  let w := g rWdCfg
  let p := bits w 9 0
  let req (i : Nat) : Bool := bit w (16 + i)
  !req 14 || ((List.range 8).any fun h => req h && vLen g (2 * h) = 0)
    || (req 8 && !(List.range 8).any (vRunEn g)) || (req 10 && bits (g 0x2A00) 2 0 = 0) || (req 11 && !bit (g rPairCfg) 31)
    || (req 8 && p < 2) || (req 9 && p < 4) || (req 10 && 1000 * p < 2 * max (bits (g 0x2A01) 16 0) 1000)
    || (req 12 && p < 20)

/-- Every word that holds a refused field value, in no order. -/
def fieldBad (g : CfgView) (ver : Nat) : List Nat :=
  (List.range 8).flatMap (hallBad g) ++ (List.range 8).flatMap (runBad g ver)
    ++ failAt (23 < bits (g 0x2200) 4 0) 0x2200 ++ (List.range 64).flatMap (balBad g)
    ++ failAt (wdBad g) rWdCfg ++ failAt (bits (g 0x2A00) 31 30 = 3) 0x2A00 ++ rangesBad g
    ++ failAt (bit (g rPairCfg) 31 && bits (g rPairCfg) 15 0 = 0) rPairCfg ++ (List.range 32).flatMap (sharedBad g)

/-! Thermal (R67, R68). -/

/-- num / den rounded up; 0 for a negative one. -/
def ceilDiv (num : Int) (den : Nat) : Nat := (num.toNat + den - 1) / den

/-- A channel's term of P_WORST in mW; `v` is V_LP_MAX in 0.1 V. -/
def chanPower (v mode d : Nat) : Nat :=
  match mode with
  | 1 => 90
  | 2 => 90
  | 4 => 90
  | 3 => v
  | 5 => ceilDiv (((v : Int) - d) * 22) 10
  | 6 => 45
  | 13 => max 150 (ceilDiv (v * 55 : Nat) 100)
  | 14 => max 150 (ceilDiv (v * 55 : Nat) 100)
  | 16 => max 150 (ceilDiv (v * 55 : Nat) 100)
  | 15 => max 84 (ceilDiv ((100 * (v : Int) - 24 * d) * 24) 1000)
  | _ => 0

/-- A profile's excitation term in mW. -/
def excPower (g : CfgView) (h v : Nat) (w : Word) : Nat :=
  if !bit w 31 then 0
  else
    let c := bits w 29 28
    let e : Int := if bit w 30 then 5000 else 2500
    let d := bits (g (aCh h c 0x10)) 26 17
    if vMode g h c = 12 && d ≠ 0 then ceilDiv ((100 * (v : Int) - e) * e) (1000 * d) else ceilDiv ((100 * (v : Int) - e) * 20) 1000

/-- P_WORST of a hall (R67, R68). -/
def pWorst (g : CfgView) (h : Nat) : Nat :=
  if !vHallEn g h then 0
  else
    let v := bits (g (aHall h 0x01)) 16 8
    (List.range 4).foldl (fun a c => a + chanPower v (vMode g h c) (bits (g (aCh h c 0x10)) 26 17)) 0
      + (List.range 4).foldl (fun a p => max a (excPower g h v (g (aHall h (0x68 + p))))) 0

/-- The halls that R68 refuses. -/
def thermalBad (g : CfgView) : List Nat :=
  (List.range 8).filter fun h => vHallEn g h &&
    (decide (1200 < pWorst g h) || bits (g (aHall h 0x01)) 16 8 < 180 || 320 < bits (g (aHall h 0x01)) 16 8)

/-! Memory and timing (R140, R175, R180, R274). -/

/-- A buffer: base and length in bytes. -/
def bufRange (g : CfgView) (n : Nat) : Nat × Nat := (bits (g (aConv n 2)) 17 4 * 16, bits (g (aConv n 3)) 14 0 * 16)

/-- The sum of all buffers in bytes. -/
def dmaSum (g : CfgView) : Nat := (List.range 16).foldl (fun a n => a + (bufRange g n).2) 0

/-- The words that break the memory row: buffers outside the region or overlapping, curves without a table. -/
def memoryBad (g : CfgView) (tables : Nat) : List Nat :=
  ((List.range 16).flatMap fun n =>
    let x := bufRange g n
    failAt (x.2 ≠ 0 && (262144 < x.1 + x.2 || (List.range 16).any fun k =>
      k ≠ n && (bufRange g k).2 ≠ 0 && x.1 < (bufRange g k).1 + (bufRange g k).2 && (bufRange g k).1 < x.1 + x.2))
      (aConv n 2))
    ++ (List.range 32).flatMap fun ch => failAt (32 + tables ≤ gCurve g ch && gCurve g ch ≤ 47) (aCh (ch / 4) (ch % 4) 0x50)

/-- A gain, log2, that some flight step of K0 can use (R165). -/
def vGainUsed (g : CfgView) (h k : Nat) : Bool :=
  (flightAddrs g (2 * h)).any fun a =>
    let w := g a
    let b := g (a + 1)
    let m := vMode g h (saCh w)
    match (if sbInput b = 0 then fixedGain m (g (aCh h (saCh w) 0x50)) else none) with
    | some f => f == k
    | none => if autoActs m w b then k ≤ saGain w else saGain w == k

/-- Time of a ladder in 1/16 ns. -/
def ladderTime (g : CfgView) (h : Nat) : Nat :=
  (3 * ((List.range 8).filter (vGainUsed g h)).length + 1) * (100 * tick16 + tConv (bits (g (aRot h 0)) 3 0))

/-- The words that break the timing row. -/
def timingBad (g : CfgView) : List Nat :=
  let p := bits (g rWdCfg) 9 0
  ((List.range 16).flatMap fun n => failAt (bit (g rWdCfg) (16 + n / 2) && p * 8000000 < vCycle g n) (aConv n 0))
    ++ (List.range 8).flatMap fun h =>
      failAt (vRot g h && bits (g (aRot h 0)) 27 16 * 8000000000
        < (bits (g (aRot h 0)) 15 8 + 2) * vCycle g (2 * h) + ladderTime g h) (aRot h 0)

/-- The longest flight cycle in MODCLK/16 ticks, rounded up. -/
def cycMax (g : CfgView) : Nat := (List.range 16).foldl (fun a n => max a ((vCycle g n + 15624) / 15625)) 0

/-- The lowest address of a list. -/
def lowest (l : List Nat) : Option Nat := l.foldl (fun a b => some (min b (a.getD b))) none

/-- The first register-value check that a configuration fails, as a reason of R296 (8 field, 9 thermal, 10 memory, 11 timing)
and its lowest word; a thermal refusal names the hall's HALL_CFG. -/
def checkConfig (g : CfgView) (ver tables : Nat) : Option (Nat × Nat) :=
  match lowest (fieldBad g ver) with
  | some a => some (8, a)
  | none =>
    match lowest (thermalBad g) with
    | some h => some (9, aHall h 0x01)
    | none =>
      match lowest (memoryBad g tables) with
      | some a => some (10, a)
      | none => (lowest (timingBad g)).map fun a => (11, a)

/-! Images (R274, R275). -/

/-- The lower word of a run's POUT_Q. -/
def isPoutLow (a : Nat) : Bool := 0x1800 ≤ a && a < 0x2000 && (a - 0x1800) % 0x100 == 0x31

/-- The configuration an image gives, after R11; a POUT_Q of 0 is raised to 1 (R204). -/
def imgView (im : Img) : CfgView := fun a =>
  if isPoutLow a && imgWord im a == 0 && imgWord im (a + 1) == 0 then 1
  else clampValue (if 0x0400 ≤ a ∧ a < 0x0C00 then bits (imgWord im (a - (a - 0x400) % 0x100 + 0x10 + (a - 0x400) % 4)) 4 0 else 0)
    a (imgWord im a)

/-- A custom table breaks R103. -/
def tableBadPts (t : List (Word × Word × Word)) : Bool :=
  t.length < 2 || ((t.zip (t.drop 1)).any fun x => !flt x.1.1 x.2.1)

/-- The checks of R274 on an image's content: lists, field values, thermal, memory, timing, agreement with Titum. -/
def contentBad (bs : List Byte) : Option ImgRefusal :=
  match listsBad bs with
  | some r => some r
  | none =>
    let im := imgOf bs
    let g := imgView im
    let fields := lowest (fieldBad g im.propVer)
    match fields with
    | some a => some ⟨8, sectOf a, a⟩
    | none =>
      if im.tables.any tableBadPts then some ⟨8, 6, 0xFFFF⟩
      else match lowest (thermalBad g) with
        | some h => some ⟨9, 1, h⟩
        | none =>
          if 32768 < im.progLen then some ⟨10, 5, 0xFFFF⟩
          else if im.curveLen % 768 ≠ 0 || 12288 < im.curveLen then some ⟨10, 6, 0xFFFF⟩
          else match lowest (memoryBad g im.tables.length) with
            | some a => some ⟨10, sectOf a, a⟩
            | none =>
              if 28000 < im.cycles then some ⟨11, 5, 0xFFFF⟩
              else match lowest (timingBad g) with
                | some a => some ⟨11, sectOf a, a⟩
                | none =>
                  if (List.range 8).map (pWorst g) ≠ im.pworst || dmaSum g ≠ im.dmaBytes || cycMax g ≠ im.cycMax
                  then some (refuseWhole 12) else none

/-- Every check on a whole copy: R273, then R274. -/
def imageBad (bs : List Byte) : Option ImgRefusal :=
  match intactBad bs with
  | some r => some r
  | none => contentBad bs

end Sys2Proof.Machine
end

