-- ==== Sys2Proof/Machine/Forms.lean ====
section
/-! DEFINITION. The forms of shared channels and the release of a hall's outputs after heartbeat loss (R33, R35, R54, R56, R373,
R375). -/

namespace Sys2Proof.Machine

/-- A shared input takes mode `m`; both burdens may be in circuit in the interval of local time from `a` to `e`. Results whose
window overlaps it are discarded and their steps restart after it (R375). -/
def inputForm (h c m a e : Nat) (s : State) : State :=
  let t := riskOf h c (updChan h c (fun x => { x with mode := m, mixFrom := a, mixed := e }) s)
  let g := modclkTime t (16 * e)
  restartChannel h c g (gridUp g) t

/-- The old active's last pulse of a shared output goes on past the switch boundary of a handover (R376). -/
def lastPulse (s : State) (h c : Nat) : Bool :=
  s.pair.idleDue.contains (4 * h + c) && (getChan s h c).pulseOn.isSome && outRank s h c = 5

/-- A shared channel in its standby form (R373): inputs of modes 5 and 6 listen, outputs are off or at 0 mA. -/
def standbyForm (h c : Nat) (s : State) : State :=
  if (hcfg s h 0x2C01).getLsbD (4 * h + c) then
    let m := modeOf s h c
    if m = 5 ∨ m = 6 then inputForm h c 17 s.time.now s.time.now s
    else if isOutMode m && !lastPulse s h c then resolve h c (updChan h c (fun x => { x with idleOut := true }) s)
    else s
  else s

/-- A shared channel in its active form (R373). -/
def activeForm (h c : Nat) (s : State) : State :=
  if (hcfg s h 0x2C01).getLsbD (4 * h + c) then
    let m := bits (chCfgW s h c) 4 0
    if modeOf s h c = 17 ∧ (m = 5 ∨ m = 6) then inputForm h c m s.time.now s.time.now s
    else if isOutMode m then resolve h c (updChan h c (fun x => { x with idleOut := false }) s)
    else s
  else s

/-- A shared channel that a heartbeat loss put in its standby form takes that of the device's role again; an output then leaves
its safe state by its policy (R56, R373). -/
def roleForm (h c : Nat) (s : State) : State :=
  if !(hcfg s h 0x2C01).getLsbD (4 * h + c) || idleForm s h c then s
  else if modeOf s h c = 17 then activeForm h c s
  else updChan h c (fun x => { x with idleOut := false }) s

/-- Every shared channel in its active form at once (R363). -/
def allActive (s : State) : State :=
  forHalls (fun h t => if (getHall t h).up then report h (forChans (activeForm h) t) else t) s

/-- The release of a hall's outputs from the safe states of a heartbeat loss, and of a FORCE_SAFE the logic die no longer
holds (R35, R54, R56). -/
def releaseHall (h : Nat) (s : State) : State :=
  if bit (getHall s h).stat 5 then
    leaveAll .safe h (forChans (roleForm h) (hallFlag h 6 (forceOn s h) (hallFlag h 5 false s)))
  else s

/-- HEARTBEAT (R32): a frame that passes its check and does not repeat a sequence number is valid; the release of a hall
that lost its heartbeat while the station meters comes with it (R33, log 13). -/
def execHeartbeat (h : Hall) (good : Bool) (seq : BitVec 16) (s : State) : Host.Outcome State Fault Refusal :=
  if (getHall s h).up && good && (getHall s h).hbSeq ≠ some seq.toNat then
    let t := updHall h (fun x => { x with hbSeq := some seq.toNat }) s
    let t := if s.clk.phase = 1 then releaseHall h t else t
    done (report h t)
  else done s

/-- HB_LOSS (R33): every output in its safe state, HB_SAFE and HB_LOSS_EVT; shared channels in their standby form (R373). -/
def execHbLoss (h : Hall) (s : State) : Host.Outcome State Fault Refusal :=
  if (getHall s h).up then
    let t := hallEvent h 5 (hallFlag h 5 true s)
    done (report h (resolveAll h (forChans (standbyForm h) t)))
  else done s

end Sys2Proof.Machine
end

