-- ==== Sys2Proof/Machine/Reload.lean ====
section
/-! DEFINITION. Hall reloads: holding, sending a section, confirming it, starting flights and releasing the outputs (R109,
R110, R286 to R288), and the registers an image gives (R270, R282). -/

namespace Sys2Proof.Machine

/-! Images in flash. -/

/-- The content of the copy the device runs. -/
def activeImg (s : State) : Img := imgOf (copyBytes s (2 * s.img.chip + s.img.slot))

/-- The copy in the inactive slot that is read: chip 0's where that chip works, else chip 1's. -/
def newCopy (s : State) : Nat := (if chipOk s.nv.c0 then 0 else 2) + (1 - s.img.slot)

/-- The content of the inactive slot. -/
def newImg (s : State) : Img := imgOf (copyBytes s (newCopy s))

/-! The registers an image gives. -/

/-- One register takes an image's IMG bits; a listed value that R11 changes is reported. -/
def loadReg (im : Img) (a : Nat) (s : State) : State :=
  if imgBits a = 0 then s
  else
    match imgListed im a with
    | none => setReg a (merge (imgBits a) (getReg s a) (imgWord im a)) s
    | some _ =>
      let v := imgView im a
      let t := setReg a (merge (imgBits a) (getReg s a) v) s
      if v = imgWord im a then t else cfgClamp a t

/-- The registers of a list of addresses take an image's values. -/
def loadRegs (im : Img) (l : List Nat) (s : State) : State := l.foldl (fun t a => loadReg im a t) s

/-- The addresses of hall `h`'s blocks. -/
def hallAddrs (h : Nat) : List Nat :=
  (List.range 0x100).map (fun i => aHall h i) ++ (List.range 0x100).map (fun i => aConv (2 * h) i)
    ++ (List.range 0x40).map fun i => aRot h i

/-- Hall `h`'s registers but CH_OUT and the words no image gives take an image's values. -/
def loadHallRegs (im : Img) (h : Nat) (s : State) : State := loadRegs im ((hallAddrs h).filter fun a => !isChOut a) s

/-- The custom tables an image carries, from curve 32 on. -/
def imgCurves (im : Img) : Table (List (Word × Word × Word)) :=
  (List.range im.tables.length).map fun i => (32 + i, im.tables.getD i [])

/-! The hall's configuration. -/

/-- The words of hall `h`'s section as the hall holds them, with the shared map (R373). -/
def hallWords (im : Img) (h : Nat) : Table Word :=
  let t : Table Word := (hallEntries im h).foldl (fun t e => tset (fun _ => 0) t e.1 (imgView im e.1)) []
  tset (fun _ => 0) t 0x2C01 (imgView im 0x2C01)

/-- The hall section of a reload. -/
def reloadImg (s : State) (r : Reload) : Img := if r.fromNew then newImg s else activeImg s

/-- The mode the hall's section gives channel `c`; 0 while the hall is not enabled (R71). -/
def cfgMode (s : State) (h c : Nat) : Nat := if bit (hallCfgW s h) 0 then bits (chCfgW s h c) 4 0 else 0

/-- The reference buffer and warm-up by R109: enabled by the section, or left running. -/
def takeBuffer (h : Nat) (s : State) : State :=
  let on := bit (hcfg s h (aHall h 0x40)) 0
  updHall h (fun x => { x with
    bufAt := if on then some (x.bufAt.getD s.time.now) else none
    warming := on && (x.warming || x.bufAt.isNone) }) s

/-- What every configuration of a hall does: comparators in band (R128), gains by their steps (R134), no rotation completed yet
(R172), pulsation paths reset (R158), FORCED_SAFE as HALL_CTRL.FORCE_SAFE says (R54, R71). -/
def hallConfigured (h : Nat) (s : State) : State :=
  let t := updHall h (fun x => { x with
    win := x.win.map (fun w => putBit w 0 false)
    rot := { x.rot with done := false, overdue := false, since := s.time.now, dueSeen := s.time.ring } }) s
  let t := forN 2 (fun k => updConv (2 * h + k) (fun x => { x with autoGain := [], lastGain := [] })) t
  let t := setHcfg h (aRot h 0x14) (getReg t (aRot h 0x14)) t
  forChans (pulsReset h) (hallFlag h 6 (forceOn s h) t)

/-- The hall applies its section: buffer first, profiles, and every latest command (R57, R109). -/
def takeSection (im : Img) (h : Nat) (s : State) : State :=
  let t := updHall h (fun x => { x with
    cfg := hallWords im h, next := [], crc := some (hallCrcOf im h), since := true, active := true, ecc := false }) s
  let t := takeBuffer h (hallConfigured h t)
  let t := updHall h (fun x => { x with
    exc := (List.range 4).map fun p => hcfg t h (aHall h (0x68 + p)), excNew := none, excStat := putBit x.excStat 2 false }) t
  forChans (fun c u => updChan h c (fun x => { x with
    cmd := min (bits (getReg u (aCh h c 0x1C)) 23 0) (cmdMax (cfgMode u h c)) }) u) t

/-! The journal of a reload. -/

/-- The reload of hall `h`. -/
def reloadOf (s : State) (h : Nat) : Option Reload := s.img.reloads.find? fun r => r.hall = h

/-- The reload of hall `h` mapped by `f`. -/
def updReload (h : Nat) (f : Reload → Reload) (s : State) : State :=
  { s with img := { s.img with reloads := s.img.reloads.map fun r => if r.hall = h then f r else r } }

/-- The reload of hall `h` leaves the list. -/
def dropReload (h : Nat) (s : State) : State :=
  { s with img := { s.img with reloads := s.img.reloads.filter fun r => r.hall ≠ h } }

/-- The entry closes when steps 2 and 3 have both finished (R286). -/
def reloadClose (h : Nat) (s : State) : State :=
  match reloadOf s h with
  | some r =>
    if r.flights && r.released then raiseBit rImgEvt 5 (dropReload h (jClose r.op 2 s)) else s
  | none => s

/-- The flights of a reloaded hall have started: step 2. -/
def reloadFlights (h : Nat) (s : State) : State :=
  match reloadOf s h with
  | some r =>
    if r.confirmed && !r.flights && (getHall s h).running then
      reloadClose h (updReload h (fun x => { x with flights := true }) (jStep r.op 2 s))
    else s
  | none => s

/-- WARM_UP_END (R110). -/
def execWarmUpEnd (h : Hall) (s : State) : Host.Outcome State Fault Refusal :=
  let x := getHall s h
  if x.up && x.warming then
    let w := hcfg s h (aHall h 0x40)
    let t := moveTo (x.bufAt.getD 0 + bits w 15 8 * 1000000) s
    let t := updHall h (fun y => { y with warming := false }) t
    let t := updHall h (fun y => { y with warmEnd := t.time.now }) t
    done (report h (reloadFlights h (startFlights h true t)))
  else done s

/-! Step 0 and the steps after it. -/

/-- An output that a reload holds keeps its present drive: a ramp to its command stops where it is, and a pulse that has not
begun does not begin (R287). -/
def freezeDrive (h c : Nat) (s : State) : State :=
  let x := getChan s h c
  let stop := match x.ramp with | some r => r.rank == 5 | none => false
  let v := driveNow s h c
  updChan h c (fun y => { y with
    ramp := if stop then none else y.ramp, drive := if stop then v else y.drive
    pulseOn := match y.pulseOn with
      | some t => if s.time.now < t then none else some t
      | none => none }) s

/-- Step 0 at the hall (R286, R287): outputs hold, the flights stop, a rotation is abandoned, pulsation paths reset, and a
channel whose mode changes goes to mode 0. -/
def holdHall (im : Img) (h : Nat) (s : State) : State :=
  let en := bit (imgView im (aHall h 0x01)) 0
  let t := updHall h (fun x => { x with hold := true }) (stopHall h (rotAbandon h s))
  forChans (fun c u =>
    let m := if en then bits (imgView im (aCh h c 0x10)) 4 0 else 0
    let u := freezeDrive h c (pulsReset h c u)
    if (getChan u h c).mode ≠ 0 && (getChan u h c).mode ≠ m then chanOff h c u else u) t

/-- A hall reload begins (R286), journaled as type 2; `start` in the start sequence, where the buffers are already reset. -/
def reloadBegin (h : Nat) (fromNew start : Bool) (s : State) : State :=
  let im := if fromNew then newImg s else activeImg s
  let op := jNext s
  let t := jOpen 2 h (hallCrcOf im h) s
  let r : Reload :=
    { hall := h, op := op, start := s.time.now, tries := 0, confirmed := false, flights := false, released := false,
      fromNew := fromNew }
  let t := { t with img := { t.img with
    reloads := t.img.reloads.filter (fun x => x.hall ≠ h) ++ [r]
    excuse := if t.img.excuse.testBit h then t.img.excuse else t.img.excuse + 2 ^ h } }
  let t := loadHallRegs im h t
  let t := setReg (aHall h 0x08) (BitVec.ofNat 32 (pWorst (getReg t) h)) t
  let t := if start then t else resetBuffer (2 * h + 1) (resetBuffer (2 * h) t)
  holdHall im h t

/-- An output whose cause cleared during the hold returns by RESTORE (R58). -/
def restoreLate (h c : Nat) (s : State) : State :=
  leaveSafe .none h c (updChan h c (fun x => { x with restoreDue := false }) s)

/-- The hall's channels in their released form (R287, R373); outputs that came through a recovery before their release leave by
its policy (R36, R56, R58). -/
def releaseChannels (h : Nat) (s : State) : State :=
  let modes (u : State) : State := forChans (fun c u =>
    if modeOf u h c ≠ cfgMode u h c && !(modeOf u h c = 17 && (getHall u h).active && (cfgMode u h c = 5 || cfgMode u h c = 6))
    then takeMode h c (cfgMode u h c) u else u) u
  let standby (u : State) : State := if pairEn u && !u.pair.active then forChans (standbyForm h) u else u
  let free (u : State) : State := updHall h (fun x => { x with hold := false, leaveDue := none }) u
  match (getHall s h).leaveDue with
  | none =>
    let t := updHall h (fun x => { x with nextOn := s.time.now + 200000 }) (standby (modes (free s)))
    forChans (fun c u => if (getChan u h c).restoreDue then restoreLate h c u else resolve h c u) t
  | some l => leaveAll l h (free (standby (modes s)))

/-- The next hall of an activation begins its reload (R290), unless another hall's holds its outputs still. -/
def activateNext (s : State) : State :=
  match s.img.queue with
  | [] => s
  | h :: t => if s.img.reloads.any (fun r => !r.released) then s else reloadBegin h true false { s with img := { s.img with queue := t, held := s.img.held ++ [h] } }

/-- A second failure of step 1 (R286): the hall is left unconfigured with HALL_DOWN and the entry is rolled back. -/
def reloadFail (r : Reload) (s : State) : State :=
  let h := r.hall
  let t := jClose r.op 3 (dropReload h s)
  let t := modReg (aHall h 0x01) (fun w => putBit w 0 false) t
  let t := forChans (chanOff h) t
  let t := unlink h (updHall h (fun x => { x with
    cfg := [], next := [], crc := none, active := false, hold := false, bufAt := none, warming := false }) t)
  let t := setReg (aHall h 0x08) 0 t
  let t := { t with img := { t.img with
    excuse := if t.img.excuse.testBit h then t.img.excuse - 2 ^ h else t.img.excuse } }
  let w := getReg t (aHall h 0x03)
  let t := setReg (aHall h 0x03) (putBit w 0 true) t
  let t := if bit w 0 then t else raiseBit (rHallEvt h) 0 t
  if t.img.phase = 5 then activateNext { t with img := { t.img with ready := t.time.now } } else t

/-- Halls of the start sequence all have their sections: READY (R315). -/
def startApplied (s : State) : State :=
  if s.clk.die == .chosen && !(s.img.reloads.any fun r => !r.confirmed) then
    { s with clk := { s.clk with die := .applied } } else s

/-- The section is confirmed: the hall takes it and starts its flights, at once or after a warm-up (R286). -/
def reloadConfirm (r : Reload) (s : State) : State :=
  let h := r.hall
  let t := updReload h (fun x => { x with confirmed := true }) (jStep r.op 1 (jStep r.op 0 s))
  let t := takeSection (reloadImg s r) h t
  report h (reloadFlights h (startFlights h true t))

/-- HALL_SECTION_CONFIRMED (R286): the hall that waits first answers with its CRC; a section that fails is sent once more. -/
def execHallSectionConfirmed (ok : Bool) (s : State) : Host.Outcome State Fault Refusal :=
  match s.img.reloads.find? fun r => !r.confirmed with
  | none => done s
  | some r =>
    if ok && (getHall s r.hall).up then done (startApplied (reloadConfirm r s))
    else if r.tries = 0 then done (updReload r.hall (fun x => { x with tries := 1 }) s)
    else done (startApplied (reloadFail r s))

/-- RELOAD_OUTPUTS_RELEASED (R286, R287): step 3. -/
def execReloadOutputsReleased (s : State) : Host.Outcome State Fault Refusal :=
  match s.img.reloads.find? fun r => r.confirmed && !r.released with
  | none => done s
  | some r =>
    let h := r.hall
    let t := releaseChannels h (updReload h (fun x => { x with released := true }) (jStep r.op 3 s))
    let t := reloadClose h (report h t)
    if t.img.phase = 5 then done (activateNext { t with img := { t.img with ready := t.time.now } }) else done t

/-- A hall's channels off and its section gone: HALL_EN 0, or the quiet strap (R278). -/
def hallOff (h : Nat) (s : State) : State :=
  let t := stopHall h s
  let t := updHall h (fun x => { x with
    cfg := [], next := [], crc := none, active := false, since := false, bufAt := none, warming := false, hold := false, exc := [0, 0, 0, 0]
    excNew := none, excStat := putBit x.excStat 2 false }) t
  forChans (fun c u => resolve h c (chanOff h c u)) t

/-- A RELOAD may begin: no image operation open and no reload running (R288, R292). -/
def reloadAllowed (s : State) : Bool := s.img.reloads.isEmpty && s.img.phase = 0

/-- A reload of the hall under way ends with the configuration it had sent: its entry is rolled back. -/
def reloadDrop (h : Nat) (s : State) : State :=
  match reloadOf s h with
  | some r => jClose r.op 3 (dropReload h s)
  | none => s

/-- HALL_ANNOUNCE (R36): the logic die performs a reload with the active image's section, with UVR_EVT when it had configured
the hall since its start. DEDUCED (log 73): a reload of the hall that was under way is rolled back and begun anew, and a hall
that an activation has already reloaded takes the new image's section. -/
def execHallAnnounce (h : Hall) (s : State) : Host.Outcome State Fault Refusal :=
  let x := getHall s h
  if !x.up || x.active || !(s.clk.die == .chosen || s.clk.die == .applied) then done s
  else
    let t := if x.since then
        raiseBit (rHallEvt h) 4 (updHall h (fun y => { y with uvrEvt := true }) s)
      else s
    if !hallEn t h || t.clk.straps = 2 then done t
    else done (reloadBegin h (t.img.phase = 5 && t.img.held.contains h.val) false (reloadDrop h t))

end Sys2Proof.Machine
end

