-- ==== Sys2Proof/Machine/PairOps.lean ====
section
/-! DEFINITION. What the pair agent sends, and the request of a handover (R360, R371, R376, R377). -/

namespace Sys2Proof.Machine

/-- The pair of the device mapped by `f`. -/
def updPair (f : PairSt → PairSt) (s : State) : State := { s with pair := f s.pair }

/-- PAIR_EVT bit `i` set. -/
def pairEvent (i : Nat) (s : State) : State := raiseBit rPairEvt i s

/-- A pair-link frame's bytes (R360). -/
def pairFrame (typ seq maddr : Nat) (payload : List Byte) : List Byte :=
  let b := leBytes 1 typ ++ leBytes 1 seq ++ leBytes 2 payload.length ++ leBytes 4 maddr ++ payload
  b ++ leBytes 4 (crc32c b).toNat

/-- SEQ of the last frame of a type. -/
def pairSeq (s : State) (typ : Nat) : Nat := tget (fun _ => 0) s.pair.seqs typ

/-- The device takes part on the pair link: an enabled pair, and a device without an image, which announces that and receives one
(R372, R378). -/
def onPairLink (s : State) : Bool := pairEn s || imageNone s

/-- A frame of a type sent over the pair link, while it is up. -/
def pairSend (typ maddr : Nat) (payload : List Byte) (s : State) : State :=
  if onPairLink s && s.pair.linkUp && logicUp s then
    let q := (pairSeq s typ + 1) % 256
    send 3 (pairFrame typ q maddr payload) (updPair (fun p => { p with seqs := tset (fun _ => 0) p.seqs typ q }) s)
  else s

/-- A partner answers on the pair link. -/
def partnerPresent (s : State) : Bool := pairEn s && s.pair.linkUp && !s.pair.single && s.pair.partnerAt.isSome

/-- Code of a handover message in byte 0 of its payload (log 20). -/
def hoCode : HoMsg → Nat × Nat
  | .request => (1, 0)
  | .ready => (2, 0)
  | .pulseIdle ch => (3, ch.val)
  | .restart => (4, 0)

/-- A handover message's payload (log 20). -/
def hoBytes (m : HoMsg) : List Byte := leBytes 1 (hoCode m).1 ++ leBytes 1 (hoCode m).2 ++ leBytes 2 0

/-- A handover message sent (R376). -/
def hoSend (m : HoMsg) (s : State) : State := pairSend 8 0 (hoBytes m) s

/-- Pulse outputs whose last pulse and its following W off are over: off, and reported idle (R376). -/
def idleReports (s : State) : State :=
  (List.finRange 32).foldl (fun t g =>
    let h := g.val / 4
    let x := getChan t h (g.val % 4)
    if t.pair.idleDue.contains g.val && x.pulseOn = none && decide (x.pulseRest ≤ t.time.now) then
      let u := updPair (fun p => { p with idleDue := p.idleDue.filter (· ≠ g.val) }) t
      hoSend (.pulseIdle g) (report h (standbyForm h (g.val % 4) u))
    else t) s

/-! What the partner announces (R293, R367, R372). -/

/-- `n` bytes of mirror RAM from `a`, when every word reads without an uncorrectable error (R399). -/
def mirrorRead (s : State) (a n : Nat) : Option (List Byte) :=
  if s.mem.bad.any fun e => e.1 = 3 && a < 4 * e.2 + 4 && 4 * e.2 < a + n then none
  else some (mreads 0 s.mem.mirror a n)

/-- The partner's status block, once one was received. -/
def partnerStatus (s : State) : Option PairStatus :=
  match mirrorRead s 0xFC00 64 with
  | some bs => if bs.all (· == 0) then none else some (Config.statusOf bs)
  | none => none

/-- The generation of the new image in the inactive slot. -/
def newGen (s : State) : Nat := s.img.gens.getD (newCopy s) 0xFFFFFFFF

/-- What the device announces; 0 for a generation it does not run or hold verified. -/
def ownStatus (s : State) : PairStatus :=
  { gen := if imageNone s then 0 else s.img.gen, none_ := imageNone s, phase := s.img.phase
    newGen := if s.img.phase = 4 then newGen s else 0 }

/-- The partner holds the new image of this device verified (R293). -/
def partnerVerified (s : State) : Bool :=
  match partnerStatus s with
  | some p => p.phase = 4 && p.newGen = newGen s
  | none => false

/-! Forwarded writes and image data (R289, R371). -/

/-- One item of a CONFIG payload, 12 bytes: address, kind, mask, value (log 20). Kinds: 0 a class B write, 1 a staged word,
2 the staged words apply at the boundary whose tick the value names, 3 the standby holds as many staged words as the value
says, 4 the staged words of a new COMMIT follow. -/
def cfgItem (addr kind : Nat) (mask value : Word) : List Byte :=
  leBytes 2 addr ++ leBytes 2 kind ++ leBytes 4 mask.toNat ++ leBytes 4 value.toNat

/-- An _EVT_MASK register. -/
def evtMaskReg (a : Nat) : Bool :=
  [0x0202, 0x1603, 0x2203, 0x2207, 0x2602, 0x2612, 0x2802, 0x2812, 0x2903, 0x2921, 0x2A05, 0x2C04, 0x2D02,
    0x2D22].contains a
    || (0x0400 ≤ a && a < 0x0C00 && (a - 0x400) % 0x100 = 0x09) || (0x0C00 ≤ a && a < 0x1400 && (a - 0xC00) % 0x80 = 0x06)
    || (0x1400 ≤ a && a < 0x1600 && (a - 0x1400) % 0x40 = 0x04) || (0x1800 ≤ a && a < 0x2000 && (a - 0x1800) % 0x100 = 0x42)
    || (0x2000 ≤ a && a < 0x2200 && (a - 0x2000) % 0x40 = 0x1C)

/-- Registers whose writes an active device does not forward (R371). -/
def notForwarded (a : Nat) : Bool :=
  a = 0x2806 || a = 0x0205 || a = 0x0206 || evtMaskReg a
    || a = 0x2A13 || (0x2A10 ≤ a && a ≤ 0x2A12) || (0x2A17 ≤ a && a ≤ 0x2A23) || (0x2B00 ≤ a && a < 0x2B40)
    || a = 0x1607 || (0x0C00 ≤ a && a < 0x1400 && (a - 0xC00) % 0x80 = 0x07)
    || (0x1400 ≤ a && a < 0x1600 && (a - 0x1400) % 0x40 = 0x01) || a = 0x0211

/-- An accepted write forwarded to the standby. -/
def forward (a kind : Nat) (mask value : Word) (s : State) : State :=
  if s.pair.active then pairSend 7 0xF000 (cfgItem a kind mask value) s else s

/-! The handover's request. -/

/-- The ring address this device and its partner share (R354). -/
def ringAddrOf (s : State) : Nat := match s.ml.loop with | some l => l.addr.getD 0 | none => 0

/-- The first tick boundary at least 2 ms from now, in ring time. -/
def boundaryIn2ms (s : State) : Nat := (s.time.ring + 2999999) / 1000000 * 1000000

/-- A handover is open on this device. -/
def hoOpen (s : State) : Bool := s.pair.hoStep.isSome

/-- A handover may be requested (R376): an active device, its partner READY, none open. -/
def hoAllowed (s : State) : Bool := pairEn s && s.pair.active && s.pair.linkUp && s.pair.partnerReady && !hoOpen s

/-- A request refused because the partner is not READY is recorded (R376). -/
def hoRefused (s : State) : State := if s.pair.partnerReady then s else pairEvent 10 s

/-- The type 7 entry opened and REQUEST sent: step 0. -/
def hoRequest (s : State) : State :=
  let op := jNext s
  let t := jStep op 0 (jOpen 7 (ringAddrOf s) (tickOf s.time.ring) s)
  hoSend .request (updPair (fun p => { p with hoStep := some 0, hoOp := op, hoSwitch := none }) t)

/-- A request for a handover; refused with HANDOVER_FAIL_EVT when the partner is not READY. -/
def handoverOp (s : State) : State × Bool := if hoAllowed s then (hoRequest s, true) else (hoRefused s, false)

/-- A device whose pair is not enabled is a single device (R308, R362): ROLE 1, PAIR_ACT low, its shared channels in their active
form. -/
def soloRole (s : State) : State :=
  if pairEn s then s
  else
    let t := updPair (fun p => { p with active := true, confirmed := true, act := false, single := false }) s
    if s.pair.confirmed && !s.pair.active then allActive t else t

end Sys2Proof.Machine
end

