-- ==== Sys2Proof/Machine/Apply.lean ====
section
/-! DEFINITION. Words of class A taking effect together at a tick boundary, by a COMMIT or an activation: the registers, and
what each changed word does to the halls, runs, records and the watchdog (R6, R31, R91, R109, R116, R139, R158, R182,
R221, R227, R389). -/

namespace Sys2Proof.Machine

/-! Halls. -/

/-- The hall whose blocks hold an address. -/
def hallAt (a : Nat) : Option Nat :=
  if 0x0400 ≤ a ∧ a < 0x0C00 then some ((a - 0x400) / 0x100)
  else if 0x0C00 ≤ a ∧ a < 0x1400 then some ((a - 0xC00) / 0x100)
  else if 0x1400 ≤ a ∧ a < 0x1600 then some ((a - 0x1400) / 0x40)
  else none

/-- A converter block's offset of an address. -/
def convOff (a : Nat) : Option (Nat × Nat) :=
  if 0x0C00 ≤ a ∧ a < 0x1400 then some ((a - 0xC00) / 0x80, (a - 0xC00) % 0x80) else none

/-- A word of a flight's steps or length (R116): its converter block. -/
def flightWord (a : Nat) : Option Nat :=
  match convOff a with
  | some (n, off) => if off = 0 ∨ (0x10 ≤ off ∧ off < 0x30) then some n else none
  | none => none

/-- A word of an injected sequence: its converter block. -/
def injWord (a : Nat) : Option Nat :=
  match convOff a with
  | some (n, off) => if off = 1 ∨ (0x30 ≤ off ∧ off < 0x38) then some n else none
  | none => none

/-- The hall takes a register's word. -/
def copyWord (h a : Nat) (s : State) : State := setHcfg h a (getReg s a) s

/-- The CRC of the section a hall holds after a COMMIT, with the words that still wait (R32, R116, R272). -/
def committedCrc (s : State) (h : Nat) : Nat :=
  let x := getHall s h
  entriesCrc ((x.next.foldl (fun t e => tset (fun _ => 0) t e.1 e.2) x.cfg).filter fun e => hallOwns h e.1 && !isPulsFrz e.1)

/-- Words that the hall takes when their time comes (R116). -/
def waitWords (h : Nat) (l : List Nat) (s : State) : State :=
  l.foldl (fun u a => updHall h (fun x => { x with next := tput x.next a (getReg u a) }) u) s

/-- The committed words `l` of block `n`'s flight: at the end of the cycle in progress while its converter runs one, else at
once (R116). -/
def commitFlight (n : Nat) (l : List Nat) (s : State) : State :=
  let k := runnerOf s n
  let t := waitWords (n / 2) l s
  if (getConv s k).role == .flight && ownerOf s k = n then updConv n (fun x => { x with newFlight := true }) t
  else newFlightWords n t

/-- The committed words `l` of block `n`'s injected sequence: at its next start (R116). -/
def commitInjected (n : Nat) (l : List Nat) (s : State) : State :=
  let t := waitWords (n / 2) l s
  if (getConv s (runnerOf s n)).inj && ownerOf s (runnerOf s n) = n then t else takeNext (n / 2) (injRegs n) t

/-- A committed CH_CFG: a changed mode holds the channel in mode 0 for 100 µs from the boundary (R31). -/
def commitChan (h c : Nat) (s : State) : State :=
  let m0 := bits (chCfgW s h c) 4 0
  let t := copyWord h (aCh h c 0x10) s
  let m := bits (chCfgW t h c) 4 0
  if m = m0 then resolve h c t
  else
    let e := t.time.now + 100000
    let g := modclkTime t (16 * e)
    let t := restartChannel h c g (gridAfter g) (chanOff h c t)
    updChan h c (fun x => { x with newMode := some (m, e) }) t

/-- A committed ROT_CFG: rotation disabled or enabled (R114, R160, R172). -/
def commitRotation (h : Nat) (was : Bool) (s : State) : State :=
  if rotEn s h = was then s
  else if was then rotDisabled h s
  else
    let n := 2 * h + 1
    let t := if (getConv s n).role == .flight && !(getRot s h).onK1 then newFlightWords n (convStop n s) else s
    updRot h (fun r => { r with since := s.time.now, dueSeen := s.time.ring }) t

/-- A hall that HALL_EN enables takes all its words and starts (R35, R109): every channel its command (R57, R71). -/
def commitEnable (h : Nat) (s : State) : State :=
  let t := (hallAddrs h).foldl (fun u a => if imgBits a = 0 ∨ isChOut a then u else copyWord h a u) s
  let t := updHall h (fun x => { x with since := true, active := true }) (setHcfg h 0x2C01 (getReg t 0x2C01) t)
  let t := takeBuffer h (hallConfigured h t)
  let t := updHall h (fun x => { x with
    exc := (List.range 4).map fun p => hcfg t h (aHall h (0x68 + p)), excNew := none, excStat := putBit x.excStat 2 false }) t
  let t := forChans (fun c u =>
    let m := bits (chCfgW u h c) 4 0
    updChan h c (fun x => { x with
      cmd := min (bits (getReg u (aCh h c 0x1C)) 23 0) (cmdMax m), newMode := some (m, u.time.now + 100000) }) u) t
  startFlights h true t

/-- The changed words of a configured hall. -/
def commitHall (h : Nat) (l : List Nat) (s : State) : State :=
  let blanked := blankOn s h
  let rot := rotEn s h
  let t := l.foldl (fun u a =>
    if (flightWord a).isSome || (injWord a).isSome then u
    else if (0x10 ≤ a - aHall h 0 && a - aHall h 0 < 0x14 && a < 0x0C00) then u
    else copyWord h a u) s
  let t := forChans (fun c u => if l.contains (aCh h c 0x10) then commitChan h c u else u) t
  let t := if l.contains (aHall h 0x40) then takeBuffer h t else t
  let t := if (List.range 4).any fun p => l.contains (aHall h (0x68 + p)) then
      excFlag h 2 true (updHall h (fun x => { x with
        excNew := some ((List.range 4).map fun p => hcfg t h (aHall h (0x68 + p))) }) t)
    else t
  let t := forChans (fun c u => if l.contains (aRot h (0x10 + c)) then pulsReset h c u else u) t
  let t := commitRotation h rot t
  let t := forN 2 (fun k u =>
    let n := 2 * h + k
    let fl := l.filter fun a => flightWord a == some n
    let il := l.filter fun a => injWord a == some n
    let u := if fl.isEmpty then u else commitFlight n fl u
    if il.isEmpty then u else commitInjected n il u) t
  startFlights h true (resolveAll h (afterBlank h blanked t))

/-- What the changed words `l` do at hall `h`; `was` is its HALL_EN before. -/
def applyHall (h : Nat) (was : Bool) (l : List Nat) (s : State) : State :=
  let own := l.filter fun a => hallAt a == some h
  let shared := l.contains 0x2C01
  if own.isEmpty && !shared then s
  else
    let en := bit (getReg s (aHall h 1)) 0
    let x := getHall s h
    let t := if !x.up || s.clk.straps = 2 then s
      else if !was && en then commitEnable h s
      else if was && !en then hallOff h s
      else if en && x.active then
        let u := if shared then copyWord h 0x2C01 s else s
        if own.isEmpty then u else commitHall h own u
      else s
    let t := if own.isEmpty then t
      else if (getHall t h).active then updHall h (fun y => { y with crc := some (committedCrc t h) }) t else t
    let t := setReg (aHall h 0x08) (BitVec.ofNat 32 (pWorst (getReg t) h)) t
    report h t

/-! Runs and records. -/

/-- What the changed words do to run `m`; `was` is its EN and `pout` its POUT binding before (R182). DESIGN CHOICE (log 81): a run
that was never reconciled and that a COMMIT enables is reconciled at the COMMIT's boundary from this device's own copies. -/
def applyRun (m : Nat) (was : Bool) (pout : Option Nat) (l : List Nat) (s : State) : State :=
  if !(l.contains (aRun m 0) || l.contains (aRun m 1) || l.contains (aRun m 2) || l.contains (aRun m 3)) then s
  else
    let t := resetCarried m s
    let t := if roleCh t m 8 ≠ pout then dropBacklog m t else t
    if !was && runEn t m then
      if t.clk.reconciled && !(getRun t m).reconciled then reconcileRun m none t else t
    else t

/-- What a COMMIT does to every run, given what they were before it. -/
def applyRuns (runs : List (Bool × Option Nat)) (l : List Nat) (s : State) : State :=
  forN 8 (fun m u =>
    let w := runs.getD m (false, none)
    applyRun m w.1 w.2 l u) s

/-- A standby computes the tick before a COMMIT's boundary after it (R20, R182). -/
def computesLate (s : State) : Bool := pairEn s && !s.pair.active && s.eng.running

/-- What a COMMIT does to the runs, once the tick before its boundary is computed. -/
def lateRuns (s : State) : State :=
  match s.eng.late with
  | some x => { (applyRuns x.runs (x.old.map (·.1)) s) with eng := { s.eng with late := none } }
  | none => s

/-- Register words `ws` in place of those in effect. -/
def putWords (ws : List (Nat × Word)) (s : State) : State := ws.foldl (fun u e => setReg e.1 e.2 u) s

/-- The registers that `ws` names as they were in the state `old`. -/
def backWords (ws : List (Nat × Word)) (old s : State) : State := ws.foldl (fun u e => setReg e.1 (getReg old e.1) u) s

/-- The plan of WD_CFG takes effect: a new period begins and the bitmap is carried into it (R389). -/
def wdPlan (s : State) : State :=
  let w := getReg s rWdCfg
  { s with wd := { s.wd with period := bits w 9 0, mask := bits w 31 16, start := s.time.now, halted := 0 } }

/-- What the changed words do to records, balance entries and the watchdog; under the quiet strap its boot plan stays
(R389). -/
def applyRecords (l : List Nat) (s : State) : State :=
  let t := if l.contains 0x2200 then periodReplan (tickOf s.time.ring) s else s
  let t := forN 64 (fun b u =>
    if (List.range 5).any (fun i => l.contains (aBal b i)) then
      (if balRole u b = 0 then updBal b (fun _ => balReset) u else balOpen b u) else u) t
  let t := if l.contains rPairCfg then soloRole t else t
  if l.contains rWdCfg && t.clk.straps ≠ 2 then wdPlan t else t

/-- What the changed words do to the Miethlink node; `old` is the state before them (R337, R342, R349). -/
def applyRing (old : State) (l : List Nat) (s : State) : State :=
  let t := if l.contains 0x2A00 then applyMlCfg (mlCfg old) s else s
  if l.any fun a => 0x2A80 ≤ a && a < 0x2AC0 then forN 64 (moveSub old) t else t

/-- The channels whose mode the words change, as they were: results completed before the boundary keep it (R31). -/
def oldModes (ws : List (Nat × Word)) (s : State) : State :=
  forN 32 (fun g u =>
    let a := aCh (g / 4) (g % 4) 0x10
    match ws.find? fun e => e.1 = a with
    | some e =>
      if bits e.2 4 0 = bits (getReg u a) 4 0 then u
      else
        let old : OldChan :=
          { mode := bits (getReg u a) 4 0, sens := getReg u (aCh (g / 4) (g % 4) 0x50)
            ne43 := getReg u (aCh (g / 4) (g % 4) 0x54), at_ := u.time.ring }
        { u with modes := tput u.modes g old }
    | none => u) s

/-- Words take effect together: registers first, then what the changed ones do; gallery blocks of
the old scales close before. The halls of `held` have their words from a
reload (R290). -/
def applyWords (ws : List (Nat × Word)) (held : List Nat) (s : State) : State :=
  let l := (ws.filter fun e => getReg s e.1 ≠ e.2).map (·.1)
  let wasEn := (List.range 8).map fun h => bit (getReg s (aHall h 1)) 0
  let wasRun := (List.range 8).map fun m => (runEn s m, roleCh s m 8)
  let s := if l.any fun a => 0x2620 ≤ a && a < 0x2630 then galCommit s else s
  let s := lateRuns s
  let old := (l.filter fun a => (0x0400 ≤ a && a < 0x0C00) || (0x1800 ≤ a && a < 0x2000)).map fun a => (a, getReg s a)
  let t := putWords ws (oldModes ws s)
  let t := forN 16 (fun n u =>
    if !held.contains (n / 2) && (l.contains (aConv n 2) || l.contains (aConv n 3)) then resetBuffer n u else u) t
  let t := forHalls (fun h u => if held.contains h then u else applyHall h (wasEn.getD h false) l u) t
  let t := if computesLate t then { t with eng := { t.eng with late := some { old := old, runs := wasRun } } }
    else applyRuns wasRun l t
  applyRing s l (applyRecords l t)

end Sys2Proof.Machine
end

