-- ==== Sys2Proof/Machine/ImageOps.lean ====
section
/-! DEFINITION. Image commits: OPEN, data, CLOSE, verification, ACTIVATE and its switch boundary, ABORT, RELOAD, ROLL, and the
check of the other copies (R277, R286 to R294). -/

namespace Sys2Proof.Machine

/-- The image part mapped by `f`. -/
def updImg (f : ImgSt → ImgSt) (s : State) : State := { s with img := f s.img }

/-- The slot that holds no running copy. -/
def idleSlot (s : State) : Nat := 1 - s.img.slot

/-- STATE and GEN of copy `i` recorded. -/
def setCopy (i st gen : Nat) (s : State) : State :=
  updImg (fun x => { x with
    copies := (List.range 4).map fun k => if k = i then st else x.copies.getD k 0
    gens := (List.range 4).map fun k => if k = i then gen else x.gens.getD k 0xFFFFFFFF }) s

/-- STATE and GEN of the copies in the inactive slot of the chips that work. -/
def setNewCopies (st gen : Nat) (s : State) : State :=
  forN 2 (fun chip t => if chipOk (nvChip t chip) then setCopy (2 * chip + idleSlot t) st gen t else t) s

/-- IMG_REFUSE written, with IMAGE_REFUSED_EVT. -/
def imgRefused (r : ImgRefusal) (copy : Nat) (s : State) : State :=
  raiseBit rImgEvt 0 (setReg 0x2D04
    (BitVec.ofNat 32 (r.reason * 2 ^ 24 + r.sect * 2 ^ 20 + copy * 2 ^ 16 + r.addr)) s)

/-! Writing an image (R289). -/

/-- Image data in the page buffer: the page being filled and those that wait for their programming, in bytes. -/
def pageHeld (s : State) : Nat :=
  (s.nv.jobs.filter isPageJob).foldl (fun a j => a + j.bytes.length) s.img.page.length

/-- The page being filled is handed to the flash writer. -/
def pageFlush (s : State) : State :=
  if s.img.page.isEmpty then s
  else jobsLost (pushJob (.page s.img.op) (slotBase (idleSlot s) + s.img.pageAt) s.img.page
    (updImg (fun x => { x with page := [] }) s))

/-- The page buffer emptied. -/
def pageDrop (s : State) : State :=
  updImg (fun x => { x with page := [] }) { s with nv := { s.nv with jobs := s.nv.jobs.filter fun j => !isPageJob j } }

/-- OPEN: the entry, the inactive slot erased on both chips, writing from offset 0. -/
def imgOpen (s : State) : State :=
  let op := jNext s
  let t := nvErase (slotBase (idleSlot s)) 0x100000 (jOpen 1 0 (idleSlot s) (pageDrop s))
  updImg (fun x => { x with phase := 2, op := op, woff := 0 }) (setNewCopies 8 0xFFFFFFFF t)

/-- Four bytes stored at IMG_WOFF; a page of 256 bytes that is full goes to the flash writer (R284, R289). -/
def imgData (v : Word) (s : State) : State :=
  let t := updImg (fun x => { x with
    pageAt := if x.page.isEmpty then x.woff else x.pageAt, page := x.page ++ leBytes 4 v.toNat, woff := x.woff + 4 }) s
  if t.img.woff % 256 = 0 then pageFlush t else t

/-- IMG_WOFF written: bytes that are skipped stay 0xFF. -/
def imgSeek (v : Nat) (s : State) : State :=
  updImg (fun x => { x with woff := v }) (if v = s.img.woff then s else pageFlush s)

/-- CLOSE: the last page goes to the flash writer, and verification follows. -/
def imgClose (s : State) : State := pagesDone (updImg (fun x => { x with phase := 3 }) (pageFlush s))

/-- The new copies erased, `n` bytes of each, and the entry rolled back. -/
def imgRollBack (n : Nat) (s : State) : State :=
  let t := jClose s.img.op 3 (nvErase (slotBase (idleSlot s)) n (pageDrop s))
  updImg (fun x => { x with phase := 0, rollAt := none }) (setNewCopies 0 0xFFFFFFFF t)

/-- ABORT, and the end of an abandoned roll. -/
def imgAbort (s : State) : State := raiseBit rImgEvt 4 (imgRollBack 0x100000 s)

/-- ABORT on a device that kept refused newer copies (R294). -/
def abortRefused (s : State) : State :=
  raiseBit rImgEvt 4 (setNewCopies 0 0xFFFFFFFF (nvErase (slotBase (idleSlot s)) 0x100000 s))

/-- The first new copy that fails R273, R274 or R275. -/
def newCopyBad (s : State) : Option ImgRefusal :=
  (List.range 2).findSome? fun chip =>
    if !chipOk (nvChip s chip) then none
    else
      let bs := copyBytes s (2 * chip + idleSlot s)
      match imageBad bs with
      | some r => some r
      | none => if leAt bs 4 4 ≤ s.img.gen then some (refuseWhole 5) else none

/-- IMAGE_VERIFY_DONE (R289), once every page is programmed. -/
def execImageVerifyDone (s : State) : Host.Outcome State Fault Refusal :=
  if s.img.phase ≠ 3 || s.nv.jobs.any isPageJob then done s
  else match (if nvWritable s then newCopyBad s else some (refuseWhole 1)) with
    | some r => done (imgRefused r 4 (imgRollBack 0x10000 s))
    | none =>
      let g := (newImg s).gen
      let t := jStep s.img.op 2 (jMod s.img.op (fun e => { e with target := g }) s)
      done (raiseBit rImgEvt 2 (updImg (fun x => { x with phase := 4 }) (setNewCopies 8 g t)))

/-! Activation (R290, R291). -/

/-- The halls whose section differs from the new image's; none under the quiet strap. -/
def hallsToReload (s : State) (im : Img) : List Nat :=
  (List.range 8).filter fun h =>
    let x := getHall s h
    x.up && s.clk.straps ≠ 2 && (x.active || bit (imgView im (aHall h 0x01)) 0) && x.crc ≠ some (hallCrcOf im h)

/-- The idle half of program RAM loaded and verified: steps 0 and 1 of a type 3 entry. -/
def loadIdleHalf (im : Img) (s : State) : State :=
  let op := jNext s
  let t := jStep op 1 (jStep op 0 (jOpen 3 im.progId (tickOf s.time.ring) s))
  { t with
    mem := { t.mem with
      prog := mwrites 0 t.mem.prog (32768 * (1 - t.mem.half)) im.prog
      bad := t.mem.bad.filter fun e => !(e.1 = 2 && e.2 / 8192 = 1 - t.mem.half) }
    img := { t.img with swapOp := some op } }

/-- ACTIVATE: the engine's idle half, then the halls one after another. -/
def imgActivate (s : State) : State :=
  let im := newImg s
  let t := if imageNone s || im.prog ≠ (activeImg s).prog then loadIdleHalf im s else s
  activateNext (updImg (fun x => { x with
    phase := 5, queue := hallsToReload s im, held := [], ready := t.time.now }) t)

/-- The halves of program RAM exchange roles and the new program's identity holds (R291, R397). -/
def swapEngine (im : Img) (s : State) : State :=
  match s.img.swapOp with
  | none => s
  | some op =>
    let t := if im.stateVer ≠ s.eng.stateVer then forN 8 resetCarried s else s
    let t := { t with
      eng := { t.eng with progId := im.progId, propVer := im.propVer, stateVer := im.stateVer }
      mem := { t.mem with half := 1 - t.mem.half }
      img := { t.img with swapOp := none } }
    jClose op 2 (jStep op 2 t)

/-- The addresses an image gives values to, CH_OUT apart. -/
def imgAddrs : List Nat := ((List.range 0x2923).map (· + 0x0400)).filter fun a => imgBits a ≠ 0 && !isChOut a

/-- The words a new image gives, halls of `held` apart. -/
def imgWords (im : Img) (held : List Nat) (s : State) : List (Nat × Word) :=
  (imgAddrs.filter fun a => match hallAt a with | some h => !held.contains h | none => true).map fun a =>
    (a, merge (imgBits a) (getReg s a) (imgView im a))

/-- CH_OUT takes the image's value, 0 where it is not listed (R270), and commands its output (R57). DESIGN CHOICE (log 84): an output
that a run drives takes its command from the engine alone. -/
def imgChOut (im : Img) (h c : Nat) (s : State) : State :=
  let v := (match imgListed im (aCh h c 0x1C) with
    | some _ => imgView im (aCh h c 0x1C) &&& 0x00FFFFFF
    | none => 0)
  let t := setReg (aCh h c 0x1C) v s
  if (getHall t h).active && !srcEngine t (4 * h + c) then applyCommand h c (min v.toNat (cmdLimit t h c)) t else t

/-- A register of class B. -/
def classBReg (a : Nat) : Bool := (regDesc a).any fun d => d.cls == .b

/-- The class B registers that the image lists for a hall it reloaded take its values once more: a write since then does not outlast
the switch (R292). -/
def imgHeldB (im : Img) (h : Nat) (s : State) : State :=
  (hallEntries im h).foldl (fun t e =>
    let v := merge (imgBits e.1) (getReg t e.1) (imgView im e.1)
    if !classBReg e.1 || isChOut e.1 || v = getReg t e.1 then t
    else
      let u := setReg e.1 v t
      if (getHall u h).active then resolveAll h (copyWord h e.1 u) else u) s

/-- Listed values that R11 changes are reported. -/
def imgClamps (im : Img) (s : State) : State :=
  im.regs.foldl (fun t e => if imgView im e.1 = imgWord im e.1 then t else cfgClamp e.1 t) s

/-- The staging shadow emptied; STAGE_DROP_EVT when it held words. -/
def stageDrop (s : State) : State :=
  let t := { s with stg := { s.stg with entries := [], phase := .idle } }
  if s.stg.entries.isEmpty then t else raiseBit rImgEvt 6 t

/-- The switch: the swap, the registers with SYNC_OUT and the head's UTC offset that follow them (R154, R345), run state, the record
and the copies' new roles. -/
def switchImage (s : State) : State :=
  let im := newImg s
  let old := s.img.gen
  let held := s.img.held
  let t := swapEngine im s
  let t := { t with curves := imgCurves im, eng := { t.eng with poutQ := [], poutNew := [] } }
  let t := imgClamps im (applyWords (imgWords im held t) held t)
  let t := forHalls (fun h u =>
    let u := forChans (imgChOut im h) (if held.contains h then imgHeldB im h u else u)
    let u := if (getHall u h).up then report h u else u
    if (getHall u h).active && !held.contains h then updHall h (fun x => { x with crc := some (hallCrcOf im h) }) u else u) t
  let t := syncOutOff t
  let t := if timeHead t then { t with ml := { t.ml with utcOfs := getReg t 0x2A10 } } else t
  let t := audit selfOrigin 6 0xFFFF 1 1 old im.gen s.img.op (stageDrop t)
  let chip := copyChip (newCopy s)
  let op := s.img.op
  let t := setNewCopies 2 im.gen t
  let t := updImg (fun x => { x with
    copies := (List.range 4).map fun k =>
      if k % 2 = s.img.slot then (if x.copies.getD k 0 = 1 || x.copies.getD k 0 = 2 then 3 else x.copies.getD k 0)
      else if k = newCopy s then 1 else x.copies.getD k 0 }) t
  let t := setReg 0x2D03 (BitVec.ofNat 32 im.gen) (updImg (fun x => { x with
    phase := 0, slot := 1 - x.slot, chip := chip, gen := im.gen, held := [] }) t)
  let t := { t with aud := { t.aud with writes := 0, gen := im.gen }
                    clk := { t.clk with die := if t.clk.die == .noImage then .applied else t.clk.die } }
  raiseBit rImgEvt 3 (jClose op 2 (jStep op 4 (jStep op 3 (soloRole t))))

/-- The ring time of the first tick boundary at least 2 ms after a local instant. -/
def boundaryAfter (s : State) (t : Nat) : Nat := (ringOf s t + 2999999) / 1000000 * 1000000

/-- SWITCH_BOUNDARY (R290): once every hall of the activation has released its outputs and the engine is not halted. -/
def execSwitchBoundary (s : State) : Host.Outcome State Fault Refusal :=
  if s.img.phase = 5 && s.img.queue.isEmpty && !(s.img.reloads.any fun r => !r.released) && s.clk.halt.isNone then
    done (switchImage (moveTo (localOf s (boundaryAfter s s.img.ready)) s))
  else done s

/-! Rolls (R293, R294). -/

/-- ROLL: the standby is ordered to restart. -/
def imgRoll (s : State) : State :=
  hoSend .restart (updPair (fun p => { p with away := false })
    (updImg (fun x => { x with phase := 6, rollAt := some s.time.now }) s))

/-- The standby ordered to restart has rejoined (R294). -/
def rejoined (s : State) : Bool := s.pair.away && s.pair.joined

/-- ROLL_ABANDON (R294): when the standby is back on another generation, or not back 1 s after the order. -/
def execRollAbandon (s : State) : Host.Outcome State Fault Refusal :=
  match s.img.rollAt with
  | some t0 =>
    if s.img.phase = 6 && !s.pair.hoRoll then
      done (if !rejoined s then imgAbort (moveTo (t0 + 1000000000) s)
        else if s.pair.otherGen = newGen s then s else imgAbort s)
    else done s
  | none => done s

/-- ROLL_STANDBY_COUNT_DONE (R293 step 4): the handover of the roll begins. -/
def execRollStandbyCountDone (s : State) : Host.Outcome State Fault Refusal :=
  if s.img.phase = 6 && hoAllowed s then done (hoRequest (updPair (fun p => { p with hoRoll := true }) s)) else done s

/-! IMG_CTRL, IMG_WOFF and IMG_WDATA as written (R289, R292, R315). -/

/-- The refusal of an action of IMG_CTRL, as a reason of R315. -/
def imgActionBad (act h : Nat) (s : State) : Option Nat :=
  match act with
  | 1 => if s.img.phase ≠ 0 then some 7 else none
  | 2 => if s.img.phase ≠ 2 then some 6 else none
  | 3 => if s.img.phase ≠ 4 || partnerPresent s then some 6 else none
  | 4 =>
    if 1 ≤ s.img.phase && s.img.phase ≤ 4 then none
    else if s.img.phase = 0 && (List.range 2).any fun chip =>
      let st := s.img.copies.getD (2 * chip + idleSlot s) 0
      st = 5 || st = 6 then none
    else some 6
  | 5 =>
    if !reloadAllowed s then some 7
    else if 8 ≤ h || !(s.clk.die == .applied) || s.clk.straps = 2 || !hallEn s h || !(getHall s h).up then some 6 else none
  | 6 =>
    if 0 < s.img.phase && s.img.phase ≠ 4 then some 7
    else if s.img.phase ≠ 4 || !(s.pair.active && partnerPresent s && partnerVerified s) then some 6 else none
  | _ => none

/-- An action of IMG_CTRL. -/
def imgAction (act h : Nat) (s : State) : State :=
  match act with
  | 1 => imgOpen s
  | 2 => imgClose s
  | 3 => imgActivate s
  | 4 => if s.img.phase = 0 then abortRefused s else imgAbort s
  | 5 => reloadBegin h false false s
  | 6 => imgRoll s
  | _ => s

/-- The refusal of a data write (R289). DESIGN CHOICE (log 83): the page buffer is full while it holds 16 KiB, all of the flash
writer's page buffers (R393). -/
def imgDataBad (s : State) : Option Nat :=
  if s.img.phase ≠ 2 || 1048576 ≤ s.img.woff || 16384 ≤ pageHeld s then some 6 else none

/-- The refusal of a write of IMG_WOFF. -/
def imgWoffBad (v : Nat) (s : State) : Option Nat := if v < s.img.woff then some 6 else none

/-! The other copies (R277). -/

/-- What copy `i` is, read in full. -/
def copyState (s : State) (i : Nat) : Nat × Nat :=
  if !chipOk (nvChip s (copyChip i)) then (7, s.img.gens.getD i 0xFFFFFFFF)
  else if s.img.copies.getD i 0 = 8 then (8, s.img.gens.getD i 0xFFFFFFFF)
  else if !copyHeadOk s i then (0, 0xFFFFFFFF)
  else
    let bs := copyBytes s i
    let g := leAt bs 4 4
    if (intactBad bs).isSome then (6, g)
    else if g = s.img.gen then
      (if bs.drop (leAt bs 8 4 - 32) = (activeImg s).digest then 2 else 4, g)
    else if g < s.img.gen then (3, g) else (5, g)

/-- The repair of the active slot on the other chip: erased and rewritten from the chosen copy, journaled (R277). -/
def repairCopy (s : State) : State :=
  let k := 2 * (1 - s.img.chip) + s.img.slot
  let st := s.img.copies.getD k 0
  if (st = 0 || st = 3 || st = 6) && s.clk.straps ≠ 1 && !nvLost s && chipOk (nvChip s (1 - s.img.chip)) then
    let op := jNext s
    let bs := copyBytes s (2 * s.img.chip + s.img.slot)
    let t := jStep op 4 (jStep op 3 (jOpen 1 s.img.gen s.img.slot s))
    let t := updChip (1 - s.img.chip) (fun c => { c with mem := merase c.mem (slotBase s.img.slot) 0x100000 }) t
    let t := setCopy k 8 s.img.gen t
    addJob (newJob (.repair op) (slotBase s.img.slot) bs 1 (s.img.chip = 1) (s.img.chip = 0) t) t
  else s

/-- IMAGE_COPY_CHECK (R277). -/
def execImageCopyCheck (s : State) : Host.Outcome State Fault Refusal :=
  if !logicUp s || imageNone s || !s.eng.running then done s
  else
    let me := 2 * s.img.chip + s.img.slot
    let t := forN 4 (fun i u => if i = me then u else
      let r := copyState s i
      setCopy i r.1 r.2 u) s
    let t := if imgDiverged t && !imgDiverged s then
        raiseBit rImgEvt 1 (audit selfOrigin 6 0xFFFF 1 0 s.img.gen s.img.gen 0 t)
      else t
    done (repairCopy t)

end Sys2Proof.Machine
end

