-- ==== Sys2Proof/Machine/MlOps.lean ====
section
/-! DEFINITION. What the Miethlink node sends: frames and ports, formation, the mailbox, commands for the ring, and the head's
time settings (R329 to R337, R345, R350 to R353). -/

namespace Sys2Proof.Machine

/-! Frames and ports (R331, R332). -/

/-- A frame's bytes between SOF and EOF. -/
def mlFrame (typ hops src cyc : Nat) (payload : List Byte) : List Byte :=
  let b := leBytes 2 (typ * 4096 + hops % 2048) ++ leBytes 2 (src % 1024) ++ leBytes 2 payload.length
    ++ leBytes 2 (cyc % 65536) ++ payload
  b ++ leBytes 4 (crc32c b).toNat

/-- The port a forward frame leaves by: MLC, MLB, or turned back by MLA. -/
def outPort (s : State) (form : Bool) : Option Nat :=
  if usable s form 2 then some 2 else if usable s form 1 then some 1 else if usable s form 0 then some 0 else none

/-- Bytes sent by a port. -/
def mlSend (p : Nat) (bs : List Byte) (good : Bool) (s : State) : State := { s with tx := s.tx ++ [⟨p, bs, good⟩] }

/-- A frame sent from its buffer; an uncorrectable error there ends it with EOFB (R333, R399). -/
def frameSend (p : Nat) (bs : List Byte) (good : Bool) (s : State) : State :=
  match s.mem.bad.find? fun e => e.1 = 0 && 0x18000 ≤ e.2 && e.2 < 0x1A000 && Config.frameWord p e.2 with
  | none => mlSend p bs good s
  | some e => mlSend p bs false (eccFound 0 0 e.2 (eccRewritten (fun x => x.1 = 0 && Config.frameWord p x.2) s))

/-- A frame of this device sent forward. -/
def mlOriginate (form : Bool) (typ : Nat) (payload : List Byte) (s : State) : State :=
  match outPort s form with
  | some p => frameSend p (mlFrame typ 0 (ringAddrOf s) s.ml.cyc payload) true s
  | none => s

/-! Formation (R334, R335). -/

/-- A FORM payload: NEXT, H, PAIR, RESULT, SUMD in ps, TRAIN in ns. -/
structure FormData where
  next : Nat
  hops : Nat
  pair : Nat
  result : Nat
  sumd : Nat
  train : Nat
deriving DecidableEq, Repr

/-- Its bytes (log 24). -/
def FormData.bytes (f : FormData) : List Byte :=
  leBytes 2 f.next ++ leBytes 2 f.hops ++ leBytes 2 f.pair ++ leBytes 2 f.result ++ leBytes 8 f.sumd ++ leBytes 8 f.train

/-- Its reading. -/
def formOf (bs : List Byte) : FormData :=
  ⟨leAt bs 0 2, leAt bs 2 2, leAt bs 4 2, leAt bs 6 2, leAt bs 8 8, leAt bs 16 8⟩

/-- The ports that are up, bit p. -/
def upPorts (s : State) : Nat := b2n (usable s true 0) + 2 * b2n (usable s true 1) + 4 * b2n (usable s true 2)

/-- FORM goes out; address 0 is the head's own. -/
def formGo (s : State) : State :=
  let t := updMl (fun m => { m with
    formAt := some s.time.now, formReq := false, formPorts := upPorts s, offered := some 0 }) s
  mlOriginate true 3 (FormData.bytes ⟨1, 1, 0, 0, 0, 1920 + dataDur s⟩) (forN 3 (fun p => updPort p fun x => { x with pass := false }) t)

/-- The head starts a formation; one of a loop in use takes the place of the next cycle's frames. -/
def formStart (s : State) : State :=
  if headRole s = 1 && !s.ml.stopped && (outPort s true).isSome then
    (if s.ml.loop.isSome then updMl (fun m => { m with formReq := true }) s else formGo s)
  else s

/-! The head's time (R345). -/

/-- Ring time set by the host. -/
def timeSetNow (s : State) : State :=
  let v := (getReg s 0x2A11).toNat + 2 ^ 32 * (getReg s 0x2A12).toNat
  let t := stepRing v s
  { t with ml := { t.ml with tset := false }, clk := { t.clk with timeUnset := false } }

/-- A write of TIME_SET: at the next PPS edge with PPS_EN, else at once. -/
def timeSetOp (s : State) : State :=
  if bit (mlCfg s) 29 then updMl (fun m => { m with tset := true }) s else timeSetNow s

/-- ML_CTRL: its refusal on a device that is not the head. -/
def mlCtrlBad (v : Word) (s : State) : Option Nat := if v &&& 0xE != 0 && !timeHead s then some 6 else none

/-- ML_CTRL as written. -/
def mlCtrl (v : Word) (s : State) : State :=
  let t := if bit v 1 then timeSetOp s else s
  let t := if bit v 2 then updMl (fun m => { m with utcValid := true }) t else t
  let t := if bit v 3 then updMl (fun m => { m with utcValid := false }) t else t
  if bit v 0 then formStart t else t

/-! Commands (R352). -/

/-- ML_CMD_T. -/
def cmdTime (s : State) : Nat := (getReg s 0x2A18).toNat + 2 ^ 32 * (getReg s 0x2A19).toNat

/-- ML_CMD_CTRL: refused when T lies in the past. -/
def mlCmdBad (v : Word) (s : State) : Option Nat :=
  if (bits v 31 28 = 1 || bits v 31 28 = 2) && decide (cmdTime s < s.time.ring) then some 6 else none

/-- An INJECT command for ring time `t`. -/
def injectCommand (t : Nat) (s : State) : State :=
  if t < s.time.ring then mlEvent 11 s else updMl (fun m => { m with injects := m.injects ++ [t] }) s

/-- ML_CMD_CTRL as written: the entry is queued; the originator of a broadcast executes it itself at T. -/
def mlCmd (v : Word) (s : State) : State :=
  let cast := bit v 16
  match bits v 31 28 with
  | 1 =>
    let t := acyRequest 8 cast (bits v 9 0) (leBytes 8 (cmdTime s)) s
    if cast then schedule (cmdTime s) false t else t
  | 2 =>
    let t := acyRequest 9 cast (bits v 9 0) (leBytes 8 (cmdTime s)) s
    if cast then injectCommand (cmdTime s) t else t
  | _ => s

/-! The mailbox (R353). -/

/-- Bytes of a mailbox request's entry. -/
def mbLen (op words : Nat) : Nat := if op = 2 then 16 + 4 * words else 12

/-- ML_MB_CTRL: refused while BUSY, or with an entry above ACY_MAX. -/
def mbBad (v : Word) (s : State) : Option Nat :=
  let op := bits v 31 30
  if s.ml.mb.isSome then some 6
  else if op = 0 || op = 3 then none
  else if acyMax s < mbLen op (bits v 21 16 + 1) then some 6 else none

/-- The mailbox completes with a status and words. -/
def mbDone (status words : Nat) (s : State) : State :=
  mlEvent 15 (setReg 0x2A23 (BitVec.ofNat 32 (status * 2 ^ 24 + words * 65536 + 2))
    (updMl (fun m => { m with mb := none }) s))

/-- ML_MB_CTRL as written: one request sent. -/
def mbStart (v : Word) (s : State) : State :=
  let op := bits v 31 30
  let n := bits v 21 16 + 1
  let w := getReg s 0x2A21
  let dst := bits w 25 16
  if op = 0 || op = 3 then s
  else if s.ml.loop.isSome && dst = ringAddrOf s then mbDone 18 0 s
  else
    let head := leBytes 2 (bits w 15 0) ++ leBytes 2 n
    let data := if op = 2 then
        head ++ leBytes 4 (getReg s 0x2A22).toNat
          ++ ((List.range n).map fun i => leBytes 4 (getReg s (0x2B00 + i)).toNat).flatten
      else head
    let t := updMl (fun m => { m with mb := some { op := op, tag := s.ml.tag, words := n, sent := s.time.now } }) s
    acyRequest op false dst data (setReg 0x2A23 0 t)

end Sys2Proof.Machine
end

