-- ==== Sys2Proof/Machine/Write.lean ====
section
/-! DEFINITION. A register write from any interface: classes, refusals, staging, clamps, audit, forwarding, and what the
registers with behaviour of their own do (R5 to R11, R239 to R243, R305, R314 to R319, R371). -/

namespace Sys2Proof.Machine

/-! Staging (R316 to R319). -/

/-- The staging shadow mapped by `f`. -/
def updStg (f : StgSt → StgSt) (s : State) : State := { s with stg := f s.stg }

/-- A staged word placed in ascending address order. -/
def stageIns (e : StgEntry) : List StgEntry → List StgEntry
  | [] => [e]
  | x :: t => if e.addr < x.addr then e :: x :: t else if e.addr = x.addr then e :: t else x :: stageIns e t

/-- ABANDON. -/
def stgAbandon (s : State) : State := updStg (fun g => { g with entries := [] }) s

/-- Every bit of a word. -/
def allBits : Word := 0xFFFFFFFF

/-- The staged words go to the standby (R371). -/
def stgForward (s : State) : State :=
  if partnerPresent s && s.pair.active then
    s.stg.entries.foldl (fun u e => forward e.addr 1 allBits e.value u) (forward 0xFFFF 4 0 0 s)
  else s

/-- A COMMIT request: RESULT 2 with an empty shadow, else PENDING and the check begins (R318), in a pair with the delivery of
the staged words (R371). -/
def stgCommit (s : State) : State :=
  if s.stg.entries.isEmpty then updStg (fun g => { g with result := 2 }) s
  else stgForward (updStg (fun g => { g with phase := .checking, delivered := false }) s)

/-- STG_CTRL as written; ABANDON acts before COMMIT. -/
def stgCtrl (v : Word) (s : State) : State :=
  let t := if bit v 1 then stgAbandon s else s
  if bit v 0 then stgCommit t else t

/-! The word a write gives (R11, R305). -/

/-- The mode that decides R11 for CH_SAFE and CH_OUT. -/
def modeAt (s : State) (a : Nat) : Nat :=
  if 0x0400 ≤ a ∧ a < 0x0C00 then bits (getReg s (aCh ((a - 0x400) / 0x100) (a % 4) 0x10)) 4 0 else 0

/-- The word a write is merged with: staged, or in effect. -/
def baseWord (s : State) (a : Nat) : Word :=
  match stagedAt s a with
  | some e => e.value
  | none => if a = 0x0222 then s.str.posLo else liveWord s a

/-- The new word before R11. -/
def mergedWord (s : State) (d : RegDesc) (a : Nat) (mask v : Word) : Word := merge (d.rw &&& mask) (baseWord s a) v

/-! Refusals (R315). -/

/-- Registers that a device with ROLE 0 accepts. -/
def standbyAccepts (a : Nat) (v : Word) : Bool :=
  a = 0x2806 || (a = 0x2D0A && bits v 2 0 = 4) || evtMaskReg a || a = 0x0205 || a = 0x0206

/-- The registers accepted while no image is applied under IMAGE_NONE. -/
def noneAccepts (s : State) (a : Nat) : Bool := imageNone s && (a = 0x2D0A || a = 0x2D0B || a = 0x2D0C)

/-- A rule of the register's own refuses the word `w` of a class B register, or the bits `v` written to its actions. -/
def homeBad (s : State) (a : Nat) (w v : Word) : Option Nat :=
  if 0x0400 ≤ a ∧ a < 0x0C00 then
    let h := (a - 0x400) / 0x100
    let off := (a - 0x400) % 0x100
    if 0x18 ≤ off ∧ off < 0x1C then (if safeBad (getReg s) h (off - 0x18) w then some 6 else none)
    else if 0x1C ≤ off ∧ off < 0x20 then
      if srcEngine s (4 * h + (off - 0x1C)) || notLead (getReg s) h (off - 0x1C) then some 6 else none
    else none
  else if 0x0C00 ≤ a ∧ a < 0x1400 then
    let b := a - (a - 0xC00) % 0x80
    let off := (a - 0xC00) % 0x80
    if 0x38 ≤ off ∧ off < 0x48 then
      let base := b + 0x38 + (off - 0x38) / 4 * 4
      let g (i : Nat) : Word := if base + i = a then w else getReg s (base + i)
      if winBad (g 0) (g 1) (g 2) then some 6 else none
    else none
  else match a with
    | 0x0211 => if s.stg.phase ≠ .idle && v &&& 3 != 0 then some 5 else none
    | 0x2A10 => if timeHead s then none else some 6
    | 0x2A11 => if timeHead s then none else some 6
    | 0x2A12 => if timeHead s then none else some 6
    | 0x2A13 => mlCtrlBad v s
    | 0x2A17 => mlCmdBad v s
    | 0x2A20 => mbBad v s
    | 0x2C05 => if bit v 0 && s.pair.active && !hoAllowed s then some 6 else none
    | 0x2D0A => imgActionBad (bits v 2 0) (bits v 11 8) s
    | 0x2D0B => imgWoffBad w.toNat s
    | 0x2D0C => imgDataBad s
    | 0x2608 =>
      if !audRoom s 1 && !audExhausted s && s.aud.rel < audAck s ((getReg s 0x2607).toNat + w.toNat * 2 ^ 32) then some 2
      else none
    | _ => none

/-- The lowest reason of R315 that refuses a write of class `cl`. -/
def refusal (o : Origin) (cl : RegClass) (a : Nat) (w v : Word) (s : State) : Option Nat :=
  let ab := cl == .a || cl == .b
  let own := o.src == .pair || o.src == .internal
  if ab && !own && audFull s then some 1
  else if ab && !audRoom s 1 then some 2
  else if ab && !(s.clk.die == .applied) && !noneAccepts s a then some 3
  else if cl == .a && (stagedAt s a).isNone && 64 ≤ s.stg.entries.length then some 4
  else if cl == .a && s.stg.phase != .idle then some 5
  else match homeBad s a w v with
    | some r => some r
    | none =>
      if ab && nvLost s then some 8
      else if ab && !own && !role s && !standbyAccepts a v && !noneAccepts s a then some 10
      else none

/-! What a class B word does (R6). -/

/-- The pulse quantity in effect is kept until the boundary after its upper word is written; a quantity of 0 is raised to 1 (R11,
R204). -/
def poutWrite (m j : Nat) (before : Word × Word) (s : State) : State :=
  let t := { s with eng := { s.eng with poutQ := tput s.eng.poutQ m before } }
  if j = 2 then
    let t := if opar t m 1 = 0 ∧ opar t m 2 = 0 then cfgClamp (aRun m 0x31) (setReg (aRun m 0x31) 1 t) else t
    { t with eng := { t.eng with poutNew := tput t.eng.poutNew m (opar t m 1, opar t m 2) } }
  else t

/-- A command written to CH_OUT reaches the hall (R57). -/
def chOutWrite (h c : Nat) (s : State) : State :=
  if (getHall s h).active then
    report h (applyCommand h c (min (bits (getReg s (aCh h c 0x1C)) 23 0) (cmdLimit s h c)) s)
  else s

/-- What follows a class B word that register `a` has taken; `before` is the run's POUT_Q. -/
def classB (a : Nat) (before : Word × Word) (s : State) : State :=
  if 0x0400 ≤ a ∧ a < 0x1600 then
    match hallAt a with
    | none => s
    | some h =>
      let off := (a - 0x400) % 0x100
      if a < 0x0C00 && 0x1C ≤ off && off < 0x20 then chOutWrite h (off - 0x1C) s
      else if a < 0x0C00 && off = 0x05 then forceSafe h (bit (getReg s a) 0) s
      else if (imgBits a ≠ 0 || isPulsFrz a) && (getHall s h).active then report h (resolveAll h (copyWord h a s)) else s
  else if 0x1800 ≤ a ∧ a < 0x2000 then
    let j := (a - 0x1800) % 0x100 - 0x30
    if j = 1 ∨ j = 2 then poutWrite ((a - 0x1800) / 0x100) j before s else s
  else if a = 0x1600 then syncOutOff s
  else if a = 0x2A10 then updMl (fun m => { m with utcOfs := getReg s a }) s
  else s

/-- The pulse quantity in effect of the run whose block holds `a`. -/
def poutBefore (s : State) (a : Nat) : Word × Word :=
  let m := (a - 0x1800) / 0x100
  tget (fun _ => (opar s m 1, opar s m 2)) s.eng.poutQ m

/-- What the bits `v` written to the actions of register `a` do; `pres` are the conditions still present at a HALL_ACK. -/
def action (a : Nat) (v : Word) (pres : Nat) (s : State) : State :=
  if 0x0400 ≤ a ∧ a < 0x0C00 then
    let h := (a - 0x400) / 0x100
    if (a - 0x400) % 0x100 = 0x06 then hallAck h v.toNat (fun c => pres.testBit c) s
    else if bit v 0 then forceExc h s else s
  else if 0x0C00 ≤ a ∧ a < 0x1400 then (if bit v 0 then injGoOp ((a - 0xC00) / 0x80) s else s)
  else if 0x1400 ≤ a ∧ a < 0x1600 then
    let h := (a - 0x1400) / 0x40
    let t := if bit v 0 then rotNowOp h s else s
    let t := if bit v 1 then unretireOp h 0 t else t
    if bit v 2 then unretireOp h 1 t else t
  else match a with
    | 0x0211 => stgCtrl v s
    | 0x0224 =>
      let k := strKey 0 (bits (getReg s 0x0220) 5 0)
      let t := if bit v 0 then setStrPos k (strRange s (k % 32)).1 s else s
      if bit v 1 then setStrPos k (strRange s (k % 32)).2 t else t
    | 0x1607 => if bit v 0 then syncNowOp s else s
    | 0x2806 =>
      let t := if bit v 0 then freeze 6 0 0 s else s
      if bit v 1 then bbResume t else t
    | 0x2904 => if bit v 0 then checkIn 15 s else s
    | 0x2A13 => mlCtrl v s
    | 0x2A17 => mlCmd v s
    | 0x2A20 => mbStart v s
    | 0x2C05 => if bit v 0 && s.pair.active then (handoverOp s).1 else s
    | 0x2D0A => imgAction (bits v 2 0) (bits v 11 8) s
    | 0x2D0C => imgData v s
    | _ => s

/-- What a class C word of register `a` does. -/
def classC (o : Origin) (a : Nat) (w : Word) (s : State) : State :=
  match a with
  | 0x0220 => nameStream (strKey 0 (bits w 5 0)) (setReg a w s)
  | 0x0222 => { s with str := { s.str with posLo := w } }
  | 0x0223 => seekTo (strKey 0 (bits (getReg s 0x0220) 5 0)) (w.toNat * 2 ^ 32 + s.str.posLo.toNat) s
  | 0x2608 => audRelease o ((getReg s 0x2607).toNat + w.toNat * 2 ^ 32) (setReg a w s)
  | 0x2D0B => imgSeek w.toNat s
  | _ => setReg a w s

/-! The write. -/

/-- The bits of a ROT_CTRL write that return a retired converter to service (R170). -/
def returnBits (s : State) (h : Nat) (v : Word) : Word :=
  v &&& BitVec.ofNat 32 (2 * b2n (getHall s h).ret0 + 4 * b2n (getHall s h).ret1)

/-- The audit record of an accepted class B write (R240): kind 8 for a converter's return to service, else kind 0. -/
def auditB (o : Origin) (a : Nat) (d : RegDesc) (w v : Word) (s : State) : State :=
  let back := returnBits s ((a - 0x1400) / 0x40) v
  if 0x1400 ≤ a ∧ a < 0x1600 ∧ (a - 0x1400) % 0x40 = 1 ∧ back ≠ 0 then
    audit o 8 a 1 ((a - 0x1400) / 0x40) 0 back.toNat 0 s
  else if d.rw = 0 then audit o 0 a 1 0 0 v.toNat 0 s
  else audit o 0 a 1 0 (liveWord s a).toNat w.toNat 0 s

/-- An accepted write goes to the standby: class B words, and the image's data (R289, R371). -/
def forwardWrite (o : Origin) (d : RegDesc) (a : Nat) (mask v : Word) (s : State) : State :=
  let image := a = 0x2D0B || a = 0x2D0C
  let roll := a = 0x2D0A && (bits v 2 0 = 3 || bits v 2 0 = 6)
  if o.src != .pair && ((d.cls == .b && !notForwarded a && !roll) || image) then forward a 0 mask v s else s

/-- A clamp reported. -/
def clampNote (a : Nat) (before after : Word) (s : State) : State := if before = after then s else cfgClamp a s

/-- A write of the bits `mask` of register `a` by an interface: the next state, and the reason of R315 where it is refused.
`pres` names the output conditions still present at a HALL_ACK; none takes free values. -/
def writeReg (o : Origin) (a : Nat) (mask v : Word) (pres : Option Nat) (s : State) : State × Option Nat :=
  match regDesc a with
  | none => (s, none)
  | some d =>
    if !logicUp s || (d.rw ||| d.w1c ||| d.wo) &&& mask = 0 then (s, none)
    else
      let u := mergedWord s d a mask v
      let w := clampValue (modeAt s a) a u
      let bitsW := v &&& mask &&& d.wo
      match refusal o d.cls a w bitsW s with
      | some r => (if a = 0x2C05 && r = 6 then hoRefused s else s, some r)
      | none =>
        match d.cls with
        | .a =>
          let t := updStg (fun g => { g with
            entries := stageIns { addr := a, value := w, src := o.src, writer := o.writer } g.entries }) s
          (clampNote a u w t, none)
        | .b =>
          let t := countWrite (auditB o a d w bitsW s)
          let t := forwardWrite o d a mask v t
          let t := if d.rw = 0 then action a bitsW 0 t
            else classB a (poutBefore s a) (setReg a w (clampNote a u w t))
          (t, none)
        | .c =>
          let t := forwardWrite o d a mask v s
          if d.rw ≠ 0 then (classC o a w (clampNote a u w t), none)
          else if d.w1c ≠ 0 then (modReg a (fun x => x &&& ~~~ (v &&& mask &&& d.w1c)) t, none)
          else match pres with
            | some p => (action a bitsW p t, none)
            | none =>
              let ack := 0x0400 ≤ a ∧ a < 0x0C00
              (action a bitsW (freeValue t).toNat (if ack then takeFree t else t), none)
        | .no => (s, none)

/-- A refusal seen by the host: REJECT in the next status byte, HP_REJ for the first one in the frame, REJECT_SEEN (R315). -/
def hostRefused (reason a : Nat) (s : State) : State :=
  let t := if s.hp.reject then s else setReg rHpRej (BitVec.ofNat 32 (reason * 2 ^ 24 + a)) s
  raiseBit rHpEvt 1 { t with hp := { t.hp with reject := true } }

/-- A write as a command of its own: a refusal is reported to the host where the host sent it. -/
def cmdWrite (o : Origin) (a : Nat) (mask v : Word) (pres : Option Nat) (s : State) : State :=
  let r := writeReg o a mask v pres s
  match r.2 with
  | none => r.1
  | some n => if o.src == .host then hostRefused n a r.1 else r.1

/-- An action bit written. -/
def actWrite (o : Origin) (a : Nat) (v : Word) (s : State) : Host.Outcome State Fault Refusal :=
  done (cmdWrite o a allBits v none s)

/-- REGISTER_WRITE (R6). -/
def execRegisterWrite (o : Origin) (addr : Addr) (mask value : Word) (s : State) : Host.Outcome State Fault Refusal :=
  done (cmdWrite o addr.toNat mask value none s)

/-- SEEK (R323). -/
def execSeek (o : Origin) (hi : Word) (s : State) : Host.Outcome State Fault Refusal := actWrite o 0x0223 hi s

/-- SEEK_OLDEST (R323). -/
def execSeekOldest (o : Origin) (s : State) : Host.Outcome State Fault Refusal := actWrite o 0x0224 1 s

/-- SEEK_NEWEST (R323). -/
def execSeekNewest (o : Origin) (s : State) : Host.Outcome State Fault Refusal := actWrite o 0x0224 2 s

/-- AUDIT_RELEASE (R244): AUD_ACK_HI written. -/
def execAuditRelease (o : Origin) (hi : Word) (s : State) : Host.Outcome State Fault Refusal := actWrite o 0x2608 hi s

/-- ABANDON (R319). -/
def execAbandon (o : Origin) (s : State) : Host.Outcome State Fault Refusal := actWrite o 0x0211 2 s

/-- OPEN (R289). -/
def execOpenImage (o : Origin) (s : State) : Host.Outcome State Fault Refusal := actWrite o 0x2D0A 1 s

/-- IMAGE_DATA (R289). -/
def execImageData (o : Origin) (value : Word) (s : State) : Host.Outcome State Fault Refusal := actWrite o 0x2D0C value s

/-- IMG_WOFF_WRITE (R289). -/
def execImgWoffWrite (o : Origin) (value : Word) (s : State) : Host.Outcome State Fault Refusal := actWrite o 0x2D0B value s

/-- CLOSE (R289). -/
def execClose (o : Origin) (s : State) : Host.Outcome State Fault Refusal := actWrite o 0x2D0A 2 s

/-- ACTIVATE (R290). -/
def execActivate (o : Origin) (s : State) : Host.Outcome State Fault Refusal := actWrite o 0x2D0A 3 s

/-- ABORT (R289). -/
def execAbort (o : Origin) (s : State) : Host.Outcome State Fault Refusal := actWrite o 0x2D0A 4 s

/-- RELOAD (R286). -/
def execReload (o : Origin) (h : Hall) (s : State) : Host.Outcome State Fault Refusal :=
  actWrite o 0x2D0A (BitVec.ofNat 32 (h.val * 256 + 5)) s

/-- ROLL (R293). -/
def execRoll (o : Origin) (s : State) : Host.Outcome State Fault Refusal := actWrite o 0x2D0A 6 s

/-- SPARE_CHECKIN (R383). -/
def execSpareCheckin (s : State) : Host.Outcome State Fault Refusal := actWrite selfOrigin 0x2904 1 s

/-- HALL_ACK (R51): bits `acks` written; `present` are the conditions that still hold. -/
def execHallAck (o : Origin) (h : Hall) (acks present : BitVec 4) (s : State) : Host.Outcome State Fault Refusal :=
  done (cmdWrite o (aHall h 0x06) allBits (acks.setWidth 32) (some present.toNat) s)

/-- FORCE_SAFE (R54). -/
def execForceSafe (o : Origin) (h : Hall) (s : State) : Host.Outcome State Fault Refusal := actWrite o (aHall h 0x05) 1 s

/-- FORCE_SAFE released (R56). -/
def execForceSafeRelease (o : Origin) (h : Hall) (s : State) : Host.Outcome State Fault Refusal :=
  actWrite o (aHall h 0x05) 0 s

/-- FORCE (R91). -/
def execForce (o : Origin) (h : Hall) (s : State) : Host.Outcome State Fault Refusal := actWrite o (aHall h 0x6C) 1 s

/-- INJ_GO (R119). -/
def execInjGo (o : Origin) (n : Conv) (s : State) : Host.Outcome State Fault Refusal := actWrite o (aConv n 0x07) 1 s

/-- SYNC_NOW (R151). -/
def execSyncNow (o : Origin) (s : State) : Host.Outcome State Fault Refusal := actWrite o 0x1607 1 s

/-- ROT_NOW (R160). -/
def execRotNow (o : Origin) (h : Hall) (s : State) : Host.Outcome State Fault Refusal := actWrite o (aRot h 0x01) 1 s

/-- UNRETIRE_K0 (R170). -/
def execUnretireK0 (o : Origin) (h : Hall) (s : State) : Host.Outcome State Fault Refusal := actWrite o (aRot h 0x01) 2 s

/-- UNRETIRE_K1 (R170). -/
def execUnretireK1 (o : Origin) (h : Hall) (s : State) : Host.Outcome State Fault Refusal := actWrite o (aRot h 0x01) 4 s

/-- FREEZE_NOW (R257). -/
def execFreezeNow (o : Origin) (s : State) : Host.Outcome State Fault Refusal := actWrite o 0x2806 1 s

/-- RELEASE (R258). -/
def execRelease (o : Origin) (s : State) : Host.Outcome State Fault Refusal := actWrite o 0x2806 2 s

/-- REFORM (R334). -/
def execReform (o : Origin) (s : State) : Host.Outcome State Fault Refusal := actWrite o 0x2A13 1 s

/-- TIME_SET (R345). -/
def execTimeSet (o : Origin) (s : State) : Host.Outcome State Fault Refusal := actWrite o 0x2A13 2 s

/-- UTC_SET (R345). -/
def execUtcSet (o : Origin) (s : State) : Host.Outcome State Fault Refusal := actWrite o 0x2A13 4 s

/-- UTC_CLEAR (R345). -/
def execUtcClear (o : Origin) (s : State) : Host.Outcome State Fault Refusal := actWrite o 0x2A13 8 s

/-- MAILBOX_READ (R353). -/
def execMailboxRead (o : Origin) (count : Fin 64) (s : State) : Host.Outcome State Fault Refusal :=
  actWrite o 0x2A20 (BitVec.ofNat 32 (2 ^ 30 + count.val * 65536)) s

/-- MAILBOX_WRITE (R353). -/
def execMailboxWrite (o : Origin) (count : Fin 64) (s : State) : Host.Outcome State Fault Refusal :=
  actWrite o 0x2A20 (BitVec.ofNat 32 (2 ^ 31 + count.val * 65536)) s

/-- SYNC_COMMAND_SEND (R352). -/
def execSyncCommandSend (o : Origin) (bcast : Bool) (dst : BitVec 10) (s : State) : Host.Outcome State Fault Refusal :=
  actWrite o 0x2A17 (BitVec.ofNat 32 (2 ^ 28 + b2n bcast * 65536 + dst.toNat)) s

/-- INJECT_COMMAND_SEND (R352). -/
def execInjectCommandSend (o : Origin) (bcast : Bool) (dst : BitVec 10) (s : State) : Host.Outcome State Fault Refusal :=
  actWrite o 0x2A17 (BitVec.ofNat 32 (2 ^ 29 + b2n bcast * 65536 + dst.toNat)) s

/-- HANDOVER (R376). -/
def execHandover (o : Origin) (s : State) : Host.Outcome State Fault Refusal := actWrite o 0x2C05 1 s

end Sys2Proof.Machine
end

