-- ==== Sys2Proof/Machine/Commit.lean ====
section
/-! DEFINITION. Tick boundaries on ring time, and a COMMIT: its check, its journal entry, and the boundary at which all staged
words take effect (R18, R177, R241, R242, R316 to R319, R371). -/

namespace Sys2Proof.Machine

/-! Boundaries (R177). -/

/-- The next tick boundary: its ring time and its local time. After a tick boundary at a local time L it is the latest whole
millisecond of ring time from L + 0.5 ms to L + 1.5 ms; otherwise the first one from now on. -/
def nextBoundary (s : State) : Nat × Nat :=
  let up := (s.time.ring + 999999) / 1000000 * 1000000
  match s.time.boundary with
  | none => (up, localOf s up)
  | some _ =>
    let r := ringOf s (s.time.pairNow + 1500000) / 1000000 * 1000000
    if s.time.now ≤ localOf s r && s.time.pairNow < localOf s r then (r, localOf s r) else (up, localOf s up)

/-! The check (R318, R242). -/

/-- The staged words merged with the values in effect. -/
def stagedView (s : State) : CfgView := fun a => match stagedAt s a with | some e => e.value | none => getReg s a

/-- The room conditions of R242: the audit queue, four slots of the capture area, the limit of R243 for writers it binds. -/
def commitRoom (s : State) : Bool :=
  let n := s.stg.entries.length
  audRoom s n && decide (capUsed s + 4 ≤ 24)
    && (decide (audFill s + s.aud.queue.length + n ≤ 261120)
      || s.stg.entries.all fun e => e.src == .pair || e.src == .internal)

/-- The RESULT and REF_ADDR of a COMMIT that its check refuses: 3 field values, 4 thermal, 5 memory, 6 timing, 7 room, 8 an
image operation. In a pair it includes the delivery of the staged words to the standby (R371). DESIGN CHOICE (log 76): for
words that were not delivered R318 and R326 name no code, and RESULT is 7. -/
def commitRefusal (s : State) : Option (Nat × Nat) :=
  match checkConfig (stagedView s) s.eng.propVer s.curves.length with
  | some r => some (r.1 - 5, r.2)
  | none =>
    if !commitRoom s then some (7, 0xFFFF)
    else if s.img.phase = 5 || s.img.phase = 6 then some (8, 0xFFFF)
    else if partnerPresent s && s.pair.active && !s.stg.delivered then some (7, 0xFFFF)
    else none

/-- COMMIT (R318). -/
def execCommit (o : Origin) (s : State) : Host.Outcome State Fault Refusal := actWrite o 0x0211 1 s

/-- The standby learns the tick at which the staged words apply (R371). -/
def commitForward (s : State) : State :=
  if partnerPresent s && s.pair.active then forward 0xFFFF 2 0 (BitVec.ofNat 32 (tickOf (nextBoundary s).1)) s else s

/-- The check is refused: PENDING clears, the shadow stays. -/
def commitRefused (r : Nat × Nat) (s : State) : State :=
  raiseBit rHpEvt 5 (updStg (fun g => { g with phase := .idle, result := r.1, refAddr := r.2, tick := none }) s)

/-- The check passes: the type 5 entry opens and the COMMIT waits for the boundary. -/
def commitOpen (s : State) : State :=
  let op := jNext s
  commitForward (updStg (fun g => { g with phase := .waiting, op := op }) (jOpen 5 s.stg.entries.length 0 s))

/-- COMMIT_CHECK_DONE (R318). -/
def execCommitCheckDone (s : State) : Host.Outcome State Fault Refusal :=
  match s.stg.phase with
  | .checking =>
    (match commitRefusal s with
    | some r => done (commitRefused r s)
    | none => done (commitOpen s))
  | _ => done s

/-! The boundary (R241, R242, R318). -/

/-- The audit records of a COMMIT, in ascending address order, each with the source kept with its word. -/
def commitAudit (s : State) : State :=
  s.stg.entries.foldl (fun t e =>
    audit ⟨e.src, e.writer⟩ 1 e.addr 1 0 (getReg s e.addr).toNat e.value.toNat s.stg.op t) s

/-- The enabled runs that have a live record, with it. -/
def liveRuns (s : State) : List (Nat × TotCopy) :=
  (List.range 8).filterMap fun m => if runEn s m then (liveOf s m).map fun c => (m, c) else none

/-- The live totals records go to the capture area and to the checkpoint ring (R242). -/
def commitCapture (s : State) : State :=
  let l := liveRuns s
  if l.isEmpty then s
  else
    let t := capPut (.commitCkpt s.stg.op s.eng.doneTick (l.map fun e => totBytes e.1 1 e.2))
      (eccSeen (fun e => (List.range 8).any fun m => inRet (.live m) e) s)
    l.foldl (fun u e => ckptBegin e.1 e.2 true s.stg.op u) t

/-- All staged words take effect together. -/
def commitApply (s : State) : State :=
  let op := s.stg.op
  let first := s.aud.next
  let ws := s.stg.entries.map fun e => (e.addr, e.value)
  let t := commitAudit (bbEvent 0x40 0 op s)
  let t := jStep op 0 (jMod op (fun e => { e with detail := first }) t)
  let t := applyWords ws [] (commitCapture t)
  let t := { t with aud := { t.aud with writes := t.aud.writes + ws.length } }
  let t := updStg (fun g => { g with entries := [], phase := .idle, result := 1, refAddr := 0xFFFF, tick := none }) (jStep op 1 t)
  raiseBit rHpEvt 4 t

/-- A forwarded write that the standby refuses: CFG_DIVERGE (R371). -/
def cfgDiverged (s : State) : State :=
  if s.pair.cfgDiverge then s else pairEvent 13 (updPair (fun p => { p with cfgDiverge := true }) s)

/-- Room is lacking at the boundary: the COMMIT is refused as a whole and its entry rolled back; a standby refuses what its
partner forwarded (R242, R371). -/
def commitLate (s : State) : State :=
  let t := commitRefused (7, 0xFFFF) (jClose s.stg.op 3 s)
  if pairEn s && !s.pair.active then cfgDiverged t else t

/-- The boundary at which the COMMIT that waits applies: the next one, or on a standby the active's (R318, R371). -/
def commitBoundary (s : State) : Nat :=
  match s.stg.tick with
  | some k => if s.time.ring ≤ k * 1000000 then localOf s (k * 1000000) else (nextBoundary s).2
  | none => (nextBoundary s).2

/-- COMMIT_DONE (R318): at the first tick boundary after the check, with the room of R242 still there. -/
def execCommitDone (s : State) : Host.Outcome State Fault Refusal :=
  match s.stg.phase with
  | .waiting =>
    let t := moveTo (commitBoundary s) s
    done (if commitRoom t then jCommitProgress (commitApply t) else commitLate t)
  | _ => done s

end Sys2Proof.Machine
end

