-- ==== Sys2Proof/Machine/Role.lean ====
section
/-! DEFINITION. Roles of a pair member and the forms of shared channels that go with them (R319, R362, R363, R366, R373 to
R375). -/

namespace Sys2Proof.Machine

/-- The staging shadow emptied on becoming standby; a COMMIT that waited is rolled back (R319). -/
def stgEmpty (s : State) : State :=
  let t := updStg (fun g => { g with entries := [], phase := .idle, tick := none, delivered := false }) s
  match s.stg.phase with
  | .waiting => jClose s.stg.op 3 t
  | _ => t

/-- A role settled or changed: entry 0x60 with the last completed tick (DESIGN CHOICE, log 79), ROLE_CHANGE_EVT, the time and count of the change (R363, R380); a new active
member appends DATA frames from the next cycle (R354). -/
def roleChange (active : Bool) (s : State) : State :=
  let t := updPair (fun p => { p with
    active := active, confirmed := true, fenced := false, actFault := false, act := active && p.act
    actAt := s.time.now, gap := false, tko := s.time.ring, chgCnt := satSucc 65535 p.chgCnt, missed := 0, lagged := 0
    single := active && p.single, standbyTicks := 0, join := true, mirrored := false, idleDue := [] }) s
  let t := pairEvent 0 (bbEvent 0x60 (b2n active) (s.eng.doneTick % 2 ^ 32) t)
  if active then { t with ml := { t.ml with appended := true } } else stgEmpty t

/-- A halted engine or a conflict of straps keeps a standby where it is. -/
def mayTakeOver (s : State) : Bool := s.clk.halt.isNone && !s.pair.strapConflict

/-! Shared channels (R373, R375). -/

/-- A channel that PAIR_SHARED names, in the map its hall holds. -/
def isShared (s : State) (h c : Nat) : Bool := (hcfg s h 0x2C01).getLsbD (4 * h + c)

/-- Every shared channel in its standby form. -/
def allStandby (s : State) : State :=
  forHalls (fun h t => if (getHall t h).up then report h (forChans (standbyForm h) t) else t) s

/-- Shared inputs of modes 5 and 6 in their active mode; both burdens may be in circuit from local time `a` to `e` (R375). -/
def inputsActive (a e : Nat) (s : State) : State :=
  forHalls (fun h t => forChans (fun c u =>
    let m := bits (chCfgW u h c) 4 0
    if isShared u h c && modeOf u h c = 17 && (m = 5 || m = 6) then inputForm h c m a e u else u) t) s

/-- Shared inputs back to mode 17, the interval of R375 from local time `a` to `e`. -/
def inputsStandby (a e : Nat) (s : State) : State :=
  forHalls (fun h t => forChans (fun c u =>
    if isShared u h c && (modeOf u h c = 5 || modeOf u h c = 6) then inputForm h c 17 a e u else u) t) s

/-- Shared inputs whose partner changes its form: both burdens may be in circuit from local time `a` to `e` (R375). -/
def inputsMixed (a e : Nat) (s : State) : State :=
  forHalls (fun h t => forChans (fun c u =>
    if isShared u h c && (modeOf u h c = 5 || modeOf u h c = 6 || modeOf u h c = 17) then
      updChan h c (fun x => { x with mixFrom := a, mixed := e }) u
    else u) t) s

/-- A shared output driven from its command: current outputs ramp from the value they drive over 200 µs, switched and
frequency outputs take the command (R365, R376). -/
def outputActive (h c : Nat) (s : State) : State :=
  if isShared s h c && isOutMode (modeOf s h c) then
    let t := updChan h c (fun x => { x with idleOut := false }) s
    if modeOf t h c = 15 && outRank t h c = 5 && !(getHall t h).hold then startRamp h c (getChan t h c).cmd 5 t
    else resolve h c t
  else s

/-- Every shared output driven. -/
def outputsActive (s : State) : State :=
  forHalls (fun h t => if (getHall t h).up then report h (forChans (outputActive h) t) else t) s

end Sys2Proof.Machine
end

