-- ==== Sys2Proof/Machine/Mirror.lean ====
section
/-! DEFINITION. What passes through mirror RAM: records, pulse deliveries, tick-set blocks, totals, output state and carried
state, as sent and as read (R20, R159, R367 to R370, R376; inner layouts log 20), and the commands that send as they land. -/

namespace Sys2Proof.Machine

/-! Blocks as sent. -/

/-- This device sends its records and totals to its partner: the active one, and both during a handover (R20, R376). -/
def mirrorSends (s : State) : Bool := pairEn s && s.pair.linkUp && (s.pair.active || hoOpen s)

/-- A block sent in frames of at most 64 payload bytes, from a mirror RAM offset upward; `fuel` frames. -/
def pairBlock (typ : Nat) : Nat → Nat → List Byte → State → State
  | 0, _, _, s => s
  | n + 1, maddr, bs, s =>
    if bs.isEmpty then s
    else pairBlock typ n (maddr + 64) (bs.drop 64) (pairSend typ maddr (padTo ((min bs.length 64 + 3) / 4 * 4) 0 (bs.take 64)) s)

/-- A block of at most 4 KiB sent. -/
def pairBlockAll (typ maddr : Nat) (bs : List Byte) (s : State) : State := pairBlock typ 64 maddr bs s

/-- A block of unknown layout after its tick number and length. -/
def tagged (n : Nat) (bs : List Byte) : List Byte := leBytes 8 n ++ leBytes 4 bs.length ++ bs

/-- The body of a tagged block at an offset, when it is of tick `n`. -/
def taggedAt (s : State) (a size n : Nat) : Option (List Byte) :=
  match mirrorRead s a size with
  | none => none
  | some bs => if leAt bs 0 8 = n && 0 < leAt bs 8 4 then some ((bs.drop 12).take (leAt bs 8 4)) else none

/-! Records (R322, R367). -/

/-- Position in its converter's stream of a record in its buffer. -/
def recPos (s : State) (r : Rec) : Nat :=
  let x := getConv s r.buf
  (if r.idx < x.widx then x.wrap else x.wrap - 1) * bufLen s r.buf + r.idx

/-- Mirror RAM offset of a record of converter `n` at position `p`. -/
def recSlot (n p : Nat) : Nat := 0x700 * n + 16 * (p % 112)

/-- Key of slot `k` of converter `n`'s ring in the pair agent's table of received records. -/
def slotKey (n k : Nat) : Nat := 112 * n + k

/-- A RECORD frame stored in ring slot `k` of converter `n`: the record takes the next number that ends on that slot, so that
slots passed by frames that were lost keep their old records' numbers (R367, R369). -/
def noteSlot (n k : Nat) (s : State) : State :=
  let c := match s.pair.recNext.find? fun e => e.1 = n with
    | some e => e.2 + (k + 112 - e.2 % 112) % 112
    | none => k
  { s with pair := { s.pair with recAt := tput s.pair.recAt (slotKey n k) c, recNext := tput s.pair.recNext n (c + 1) } }

/-- A RECORD payload stored at mirror RAM offset `a`: the ring slots it fills. -/
def noteRecords (a len : Nat) (s : State) : State :=
  if a < 0x7000 then
    (List.range (len / 16)).foldl (fun t i =>
      let b := a + 16 * i
      if b < 0x7000 then noteSlot (b / 0x700) (b % 0x700 / 16) t else t) s
  else s

/-- The distance of a converter's received numbers from the sender's positions is learnt from the first block that names one
of its records, and anew where a position lies beyond every record received. DEDUCED (log 77). -/
def alignRing (n p : Nat) (s : State) : State :=
  let at_ := tget (fun _ => 0) s.pair.recAt (slotKey n (p % 112))
  let next := tget (fun _ => 0) s.pair.recNext n
  let known := match s.pair.recBase.find? fun e => e.1 = n with
    | some e => decide (p < next + e.2 + 112)
    | none => false
  if known || !(s.pair.recAt.any fun e => e.1 = slotKey n (p % 112)) then s
  else { s with pair := { s.pair with recBase := tput s.pair.recBase n (p - at_) } }

/-- Mirror RAM holds the record of position `p` of converter `n`: its slot was filled by that record, not by one 112 positions
before or after it (R369). -/
def holdsRec (s : State) (n p : Nat) : Bool :=
  match s.pair.recAt.find? (fun e => e.1 = slotKey n (p % 112)), s.pair.recBase.find? (fun e => e.1 = n) with
  | some a, some b => a.2 + b.2 == p
  | _, _ => false

/-- The record of a position; none where mirror RAM does not hold it (R369). -/
def mirrorRec (s : State) (n p : Nat) (puls : Option (Word × Word × Bool)) : Option Rec :=
  match mirrorRead s (recSlot n p) 16 with
  | none => none
  | some bs =>
    if !holdsRec s n p then none
    else some { code := BitVec.ofNat 32 (leAt bs 0 4), tag := BitVec.ofNat 32 (leAt bs 4 4), count := 0, time := leAt bs 8 8, puls := puls
                stale := false, buf := n, idx := 0, wrote := 0 }

/-- RESULT_DMA_WRITE (R16): the oldest record for buffer `n` arrives; `fits` false when its crossing queue overflows (R401);
a record of a buffer since reset is written nowhere (R139). The pair agent copies a record as it lands (R367). -/
def execResultDmaWrite (n : Conv) (fits : Bool) (s : State) : Host.Outcome State Fault Refusal :=
  match (getConv s n).fifo with
  | [] => done s
  | r :: rest =>
    let t := updConv n (fun x => { x with fifo := rest }) s
    if !logicUp t then done t
    else if !fits then done (crossingFull 1 t)
    else
      let t := setReg (aConv n 0x0A) r.code (setReg (aConv n 0x0B) r.tag t)
      let p := dmaCount t n
      let t := if r.stale then discard n t
        else if bufLen t n = 0 then t
        else
          let u := placeRec n r t
          if mirrorSends u then pairSend 3 (recSlot n p) (recBytes r) u else u
      let t := if isInput r then monitorRec (n / 2) r t else t
      done (sampleTake (4 * (n / 2) + tagCh r.tag) r t)

/-- Mirror RAM offset of a channel's delivery in the area of tick `n` (R367). -/
def delivSlot (n g : Nat) : Nat := 0x7800 + 0x400 * (n % 2) + 32 * g

/-- A delivery as the pair agent copies it (log 20). -/
def delivBytes (d : Deliv) : List Byte :=
  leBytes 4 d.edges ++ leBytes 8 d.first ++ leBytes 8 d.last ++ leBytes 4 (b2n d.high) ++ leBytes 4 d.idx

/-- The delivery of an index in a channel's slot of either tick parity. -/
def mirrorDeliv (s : State) (g i : Nat) : Option Deliv :=
  let at_ (p : Nat) : Option Deliv := match mirrorRead s (delivSlot p g) 28 with
    | some bs =>
      if leAt bs 24 4 = i then
        some { idx := i, edges := leAt bs 0 4, first := leAt bs 4 8, last := leAt bs 12 8, high := leAt bs 20 4 ≠ 0 }
      else none
    | none => none
  match at_ 0 with
  | some d => some d
  | none => at_ 1

/-- PULSE_DELIVERY (R44): the edges counted since the last delivery leave the hall for the next tick set, with the level
that R456 samples at the tick boundary; the pair agent copies the delivery (R367). One that finds the hall's queue full is dropped
(R401). -/
def execPulseDelivery (h : Hall) (ch : Chan) (r : PulseReport) (s : State) : Host.Outcome State Fault Refusal :=
  hallDo h (fun t =>
    if modeOf t h ch = 4 then
      let x := getChan t h ch
      let d : Deliv :=
        { idx := (x.delivN + 1) % 2 ^ 32, edges := x.acc, first := x.accFirst, last := x.accLast, high := bit x.stat 10 }
      let u := updChan h ch (fun y => { y with
        level := r.level, deliv := if r.fits then y.deliv ++ [d] else y.deliv, delivN := d.idx, acc := 0 }) t
      if !r.fits then (if logicUp u then crossingFull 1 u else u)
      else if mirrorSends u then pairSend 3 (delivSlot (tickOf u.time.ring + 1) (4 * h.val + ch.val)) (delivBytes d) u
      else u
    else t) s

/-! Tick sets (R17, R20, R159). -/

/-- A word of main SRAM that holds part of a record. -/
def inRec (s : State) (r : Rec) (e : Nat × Nat) : Bool :=
  e.1 = 0 && decide (bufBase s r.buf + 16 * r.idx ≤ 4 * e.2) && decide (4 * e.2 < bufBase s r.buf + 16 * r.idx + 16)

/-- A record's words in main SRAM read without an uncorrectable error (R399). -/
def recSound (s : State) (r : Rec) : Bool := !(s.mem.bad.any (inRec s r))

/-- The pulse input of a channel as latched: its deliveries, and FREQ_HIGH as the hall reports it. -/
def latchPulse (s : State) (g : Nat) : PulseSet :=
  { deliv := (getChan s (g / 4) (g % 4)).deliv, high := bit (getReg s (aCh (g / 4) (g % 4) 0x20)) 10 }

/-- The record of a channel that a boundary at the present instant latches: a record whose DMA write falls in that instant
belongs to the next tick's set (R17). -/
def latchRec (s : State) (e : Nat × Rec) : Option (Nat × Rec) :=
  if e.2.wrote < s.time.now then some e else s.older.find? fun x => x.1 = e.1

/-- The device's own tick set of a tick at the boundary that begins it; halls of an activation are kept out until its switch
boundary (R290). -/
def ownSet (i : TickId) (s : State) : TickSet :=
  let live (h : Nat) : Bool := !s.img.held.contains h
  { tick := i.tick
    adj := i.adj
    modes := i.modes
    recs := (s.newest.filterMap (latchRec s)).filter fun e => live (e.1 / 4) && recSound s e.2
    pulses := (List.range 32).foldl (fun t g =>
      if live (g / 4) then tset (fun _ => { deliv := [], high := false }) t g (latchPulse s g) else t) []
    cjs := (List.range 8).foldl (fun t h => if live h then tset (fun _ => 0) t h (getReg s (aHall h 0x6F)) else t) [] }

/-- The engine reads the records that a boundary latches: uncorrectable words are reported (R399). -/
def recsRead (s : State) : State :=
  eccSeen (fun e => (s.newest.filterMap (latchRec s)).any fun x => inRec s x.2 e) s

/-- A reader of the mirror RAM area of `n` bytes from `a` reports its uncorrectable words (R399). -/
def mirrorSeen (a n : Nat) (s : State) : State :=
  eccSeen (fun e => e.1 = 3 && decide (a < 4 * e.2 + 4) && decide (4 * e.2 < a + n)) s

/-- The tick that the last boundary began. -/
def thisTick (s : State) : TickId := s.eng.this.getD { tick := 0, adj := false, modes := [] }

/-- CJ_FAULT of every thermocouple channel by the records at a tick boundary (R99, R100). -/
def coldJunctions (s : State) : State :=
  let x := ownSet (thisTick s) s
  forHalls (fun h t => if (getHall t h).up then
      report h (forChans (fun c u =>
        if modeOf u h c = 11 then ainFlag h c 9 (setColdJunction u x (4 * h + c)).2 u else u) t)
    else t) s

/-- The deliveries latched or passed by. -/
def clearDeliveries (s : State) : State :=
  forHalls (fun h t => forChans (fun c u => if (getChan u h c).deliv.isEmpty then u
    else updChan h c (fun x => { x with deliv := [] }) u) t) s

/-- The block that names a tick set. -/
def setEntries (s : State) (x : TickSet) : List TsEntry :=
  (x.recs.map fun e => .record e.1 e.2.buf (recPos s e.2) e.2.puls)
    ++ (x.pulses.map fun e => .pulses e.1 (e.2.deliv.map (·.idx)) e.2.high)
    ++ x.cjs.map fun e => .coldJunction e.1 e.2

/-- One entry of a block joins a set; a record or delivery that mirror RAM does not hold is missing (R369). -/
def takeEntry (s : State) (a : TickSet) (e : TsEntry) : TickSet :=
  match e with
  | .record ch conv pos puls => (match mirrorRec s conv pos puls with
    | some r => { a with recs := tput a.recs ch r }
    | none => a)
  | .pulses ch l high => { a with pulses := tput a.pulses ch { deliv := l.filterMap (mirrorDeliv s ch), high := high } }
  | .coldJunction h t => { a with cjs := tput a.cjs h t }

/-- The block of tick `n` as mirror RAM holds it; empty where it is missing. -/
def mirrorBlock (n : Nat) (s : State) : List TsEntry :=
  match taggedAt s (0x7000 + 0x400 * (n % 2)) 1024 n with
  | none => []
  | some bs => Config.tsOf bs

/-- The record rings are aligned with the positions a block names; what is read of it is reported where it does not read. -/
def alignRings (n : Nat) (s : State) : State :=
  (mirrorBlock n s).foldl (fun t e => match e with
    | .record _ conv pos _ => mirrorSeen (recSlot conv pos) 16 (alignRing conv pos t)
    | .pulses ch _ _ => mirrorSeen (delivSlot 1 ch) 28 (mirrorSeen (delivSlot 0 ch) 28 t)
    | .coldJunction _ _ => t) s

/-- The tick set of a tick from mirror RAM. -/
def mirrorSet (i : TickId) (s : State) : TickSet :=
  (mirrorBlock i.tick s).foldl (takeEntry s) { tickSetReset with tick := i.tick, adj := i.adj, modes := i.modes }

/-- The tick set's identity goes to the partner. -/
def sendSet (s : State) : State :=
  let n := s.eng.set.tick
  pairBlockAll 4 (0x7000 + 0x400 * (n % 2)) (tagged n (Config.tsBytes (setEntries s s.eng.set))) s

/-! Totals, output state and carried state. -/

/-- A totals block: tick, the 48 accumulators, CRC-32C. -/
def totBlock (s : State) (n : Nat) : List Byte :=
  let b := leBytes 8 n ++ ((List.range 8).map fun m =>
    ((List.range 6).map fun t => leBytes 16 ((getRun s m).accs.getD t 0).toNat).flatten).flatten
  b ++ leBytes 4 (crc32c b).toNat

/-- The totals block of a parity, when its CRC passes: tick and the accumulators by run. -/
def totBlockOf (s : State) (parity : Nat) : Option (Nat × List (List Acc)) :=
  match mirrorRead s (0x8000 + 0x400 * parity) 780 with
  | none => none
  | some bs =>
    if leAt bs 776 4 = (crc32c (bs.take 776)).toNat then
      some (leAt bs 0 8, (List.range 8).map fun m => accsAt bs (8 + 96 * m))
    else none

/-- The totals block of tick `n`. -/
def totBlockAt (s : State) (n : Nat) : Option (List (List Acc)) :=
  match totBlockOf s (n % 2) with
  | some x => if x.1 = n then some x.2 else none
  | none => none

/-- The newest totals block received. -/
def totBlockNew (s : State) : Option (Nat × List (List Acc)) :=
  match totBlockOf s 0, totBlockOf s 1 with
  | some a, some b => some (if a.1 < b.1 then b else a)
  | some a, none => some a
  | none, b => b

/-- The pulse that the old active still emits after the switch of a handover: the backlog it hands over leaves it out
(R376, log 55). -/
def ownPulse (s : State) (m : Nat) : Nat :=
  match roleCh s m 8 with
  | some g => b2n ((s.pair.hoStep = some 2 || s.pair.hoStep = some 3) && (getChan s (g / 4) (g % 4)).pulseOn.isSome)
  | none => 0

/-- The output state of the enabled runs. -/
def outStates (s : State) : List OutState :=
  (List.range 8).filterMap fun m =>
    if runEn s m then
      let r := getRun s m
      some { run := m, backlog := r.car.backlog - ownPulse s m, pacc := r.car.pacc, emitted := r.emitted, fout := r.fout, iout := r.iout }
    else none

/-- The command of every output by channel, as CH_OUT shows it (R367). -/
def outCommands (s : State) : List (Nat × Nat) :=
  (List.range 32).filterMap fun g =>
    if isOutMode (bits (getReg s (aCh (g / 4) (g % 4) 0x10)) 4 0) then
      some (g, bits (getReg s (aCh (g / 4) (g % 4) 0x1C)) 23 0)
    else none

/-- Totals and output state after tick `n` go to the partner. -/
def sendTotals (n : Nat) (s : State) : State :=
  pairBlockAll 5 0x8800 (tagged n (Config.outBytes { cmds := outCommands s, runs := outStates s }))
    (pairBlockAll 5 (0x8000 + 0x400 * (n % 2)) (totBlock s n) s)

/-- The partner's output state as received. -/
def mirrorOut (s : State) : OutBlock :=
  match mirrorRead s 0x8800 2048 with
  | some bs => if 0 < leAt bs 8 4 then Config.outOf ((bs.drop 12).take (leAt bs 8 4)) else { cmds := [], runs := [] }
  | none => { cmds := [], runs := [] }

/-- The command of an output given to its hall and shown in its CH_OUT; the output itself stays as it is. -/
def giveCommand (g v : Nat) (s : State) : State :=
  let h := g / 4
  let c := g % 4
  if g < 32 && (getHall s h).active then
    updChan h c (fun x => { x with cmd := min v (cmdLimit s h c) }) (setReg (aCh h c 0x1C) (BitVec.ofNat 32 v) s)
  else s

/-- The active's commands of the shared outputs taken over (R376). -/
def takeCommands (s : State) : State :=
  (mirrorOut s).cmds.foldl (fun t e => if isShared t (e.1 / 4) (e.1 % 4) then giveCommand e.1 e.2 t else t) s

/-- Pulse state and output values of the partner taken over (R365, R376). -/
def takeOutputs (s : State) : State :=
  let s := mirrorSeen 0x8800 2048 s
  (mirrorOut s).runs.foldl (fun t o =>
    if o.run < 8 then
      setReg (aRun o.run 0x46) (BitVec.ofNat 32 o.backlog) (updRun o.run (fun r => { r with
        car := { r.car with backlog := o.backlog, pacc := o.pacc }, emitted := o.emitted, fout := o.fout, iout := o.iout }) t)
    else t) s

/-- The carried state of every run goes to the partner. -/
def sendCarried (s : State) : State :=
  forN 8 (fun m t => pairBlockAll 6 (0x9000 + 0xC00 * m) (tagged t.eng.doneTick (Config.carBytes (getRun t m).car)) t) s

/-- The carried state of run `m` as received. -/
def mirrorCar (s : State) (m : Nat) : Option Carried :=
  match mirrorRead s (0x9000 + 0xC00 * m) 3072 with
  | some bs => if 0 < leAt bs 8 4 then some (Config.carOf ((bs.drop 12).take (leAt bs 8 4))) else none
  | none => none

/-- Every run takes the carried state received. -/
def takeCarried (s : State) : State :=
  let s := mirrorSeen 0x9000 0x6000 s
  forN 8 (fun m t => match mirrorCar t m with
    | some c => updRun m (fun r => { r with car := c }) t
    | none => t) s

/-- Every run takes the accumulators of a totals block; one that is not enabled where they differ. -/
def takeTotals (n : Nat) (accs : List (List Acc)) (quiet : Bool) (s : State) : State :=
  forN 8 (fun m t =>
    if runEn t m || (getRun t m).accs != accs.getD m [] then adopt m { tick := n, accs := accs.getD m [] } quiet t
    else t) s

/-- The device's status block goes to the partner's mirror RAM (R293, R367, R372). -/
def sendStatus (s : State) : State := pairSend 7 0xFC00 (padTo 64 0 (Config.statusBytes (ownStatus s))) s

/-- This device's answer for a partner that starts: one record for each run, after the status block; zeros where it has
none (R215, log 20). -/
def sendAnswer (s : State) : State :=
  pairBlockAll 5 0xFC40 ((List.range 8).map fun m => match ownAnswer s m with
    | some c => totBytes m 0 c
    | none => List.replicate 112 0).flatten s

/-- The carried state asked for: a STATE frame without payload (R370, log 20); what has arrived is not asked for anew. -/
def askCarried (s : State) : State :=
  if s.pair.stateHere then s else pairSend 6 0 [] (updPair (fun p => { p with stateAsked := true }) s)

end Sys2Proof.Machine
end

