-- ==== Sys2Proof/Machine/Boundary.lean ====
section
/-! DEFINITION. The tick boundary: the pairing of local and ring time, points, outputs sent, the tick set latched, and the
standby's comparison (R15, R17 to R20, R177, R204, R211, R218, R229, R346, R347, R365, R369, R370, R456). -/

namespace Sys2Proof.Machine

/-! Time (R15, R177). -/

/-- The present instant is a tick boundary: it begins a tick, which a step since the last one marks with the open periods and
blocks. -/
def takeBoundary (s : State) : State :=
  let i : TickId := { tick := tickOf s.time.ring, adj := s.time.adj, modes := s.modes }
  let t := { s with eng := { s.eng with prev := s.eng.this, this := some i } }
  let t := if s.time.adj then periodStep (galStep t) else t
  { t with time := { t.time with
      pairNow := t.time.now, pairRing := t.time.ring, boundary := some t.time.ring, adj := false } }

/-! Points (R229, R346, R347). -/

/-- The word of a run point: `RUN_VAL`, `RUN_STATUS`, tick and totals. -/
def runPointNow (s : State) (m j : Nat) : Word :=
  if j < 17 then getReg s (aRun m (0x49 + j))
  else if j = 17 then getReg s (rRunStatus m)
  else if j < 38 then totWord s m (j - 18)
  else 0

/-- Run points take the values of the tick that ended. -/
def publishRuns (s : State) : State :=
  forN 8 (fun m t => forN 38 (fun j u => setReg (0x4000 + 1088 + 64 * m + j) (runPointNow s m j) u) t) s

/-- Subscriptions to the device's own points are served (R347). -/
def ownSubs (s : State) : State :=
  forN 64 (fun e t =>
    let x := subEntry t e
    if x.1 && x.2.2 / 8192 = ringAddrOf t then
      let base := subBase t e
      let u := forN x.2.1 (fun i u => putSub (base + i) (liveWord s (0x4000 + (x.2.2 + i) % 8192)) u) t
      { u with ml := { u.ml with subValid := if u.ml.subValid.testBit e then u.ml.subValid else u.ml.subValid + 2 ^ e } }
    else t) s

/-! Outputs (R19, R204). -/

/-- A command for a channel's engine-driven output goes to its hall (log 8). -/
def sendOutput (g v : Nat) (s : State) : State :=
  send (4 + g / 4) (leBytes 1 0 ++ leBytes 1 (g % 4) ++ leBytes 4 v) s

/-- A value sent to the output a role names, and shown in its CH_OUT. -/
def sendValue (g v : Option Nat) (s : State) : State :=
  match g, v with
  | some c, some x => sendOutput c x (setReg (aCh (c / 4) (c % 4) 0x1C) (BitVec.ofNat 32 x) s)
  | _, _ => s

/-- A pulse output's backlog goes to its hall with W (R199). -/
def sendBacklog (g m : Nat) (s : State) : State :=
  send (4 + g / 4) (leBytes 1 1 ++ leBytes 1 (g % 4) ++ leBytes 4 (getRun s m).car.backlog
    ++ leBytes 4 (getReg s (aRun m 0x33)).toNat) s

/-- A device that drives the outputs of its engine: the active one, and one without a pair (R200). -/
def drivesOutputs (s : State) : Bool := !pairEn s || s.pair.active

/-- The outputs of the tick that ended: FOUT and IOUT commands, shown in CH_OUT, and POUT backlogs. -/
def sendOutputs (s : State) : State :=
  if !drivesOutputs s then s
  else forN 8 (fun m t =>
    if !runEn t m then t
    else
      let r := getRun t m
      let t := sendValue (roleCh t m 7) r.fout t
      let t := sendValue (roleCh t m 9) r.iout t
      match roleCh t m 8 with
      | some g => sendBacklog g m t
      | none => t) s

/-- Both words of POUT_Q take effect together. -/
def latchPoutQ (s : State) : State :=
  { s with eng := { s.eng with
      poutQ := s.eng.poutNew.foldl (fun t e => tput t e.1 e.2) s.eng.poutQ, poutNew := [] } }

/-! The standby (R20, R212, R218, R293, R365, R369, R370). -/

/-- A difference of the comparison: PAIR_DIVERGE, the active's accumulators stand, the carried state is asked for. -/
def diverge (n : Nat) (accs : Option (List (List Acc))) (s : State) : State :=
  let t := updPair (fun p => { p with divCnt := p.divCnt + 1, divAge := some 0, standbyTicks := 0 }) s
  let t := match accs with
    | some a => takeTotals n a false t
    | none => t
  askCarried (pairEvent 4 t)

/-- All six accumulators of every run equal a totals block's (R212). -/
def sameTotals (s : State) (accs : List (List Acc)) : Bool :=
  (List.range 8).all fun m => (getRun s m).accs == accs.getD m []

/-- The comparison of the tick computed, or, while generations differ, the quiet adoption. -/
def standbyCompare (s : State) : State :=
  let n := s.eng.set.tick
  let age := updPair (fun p => { p with standbyTicks := p.standbyTicks + 1 }) s
  if s.pair.genDiff then
    match totBlockAt s n with
    | some a => takeTotals n a true age
    | none => age
  else match totBlockAt s n with
    | some a => if sameTotals s a then age else diverge n (some a) s
    | none => diverge n none s

/-- Accumulators that stand after tick `n` hold that tick: it is not computed again. -/
def tickHeld (n : Nat) (s : State) : State :=
  let drop (i : Option TickId) : Option TickId := if i.any (·.tick == n) then none else i
  { s with eng := { s.eng with doneTick := n, this := drop s.eng.this, prev := drop s.eng.prev } }

/-- A standby's first boundary: ticks it has not computed are gap ticks, and it takes the active's live records through the
mirror (R218, R377, R455). DESIGN CHOICE (log 78): no event, OUTCOME, mark or audit record names what it takes so. -/
def standbyJoin (s : State) : State :=
  match totBlockNew s with
  | some b =>
    let t := takeTotals b.1 b.2 true (balGap (gapUpTo (b.1 + 1) s))
    askCarried (tickHeld b.1 (updPair (fun p => { p with join := false }) t))
  | none => s

/-- The carried state that arrived, together with the accumulators; the count restarts (R370). -/
def standbyTake (s : State) : State :=
  let t := match totBlockNew s with
    | some b => tickHeld b.1 (takeTotals b.1 b.2 true s)
    | none => s
  updPair (fun p => { p with stateAsked := false, stateHere := false, standbyTicks := 0 }) (takeCarried t)

/-- What a standby does at a boundary before it takes the set of the tick that ended there. -/
def standbyBoundary (s : State) : State :=
  let t := if s.pair.mirrored && s.eng.slot = 8 then
      standbyCompare (mirrorSeen (0x8000 + 0x400 * (s.eng.set.tick % 2)) 780 s)
    else s
  let t := if t.pair.join then standbyJoin t else t
  if t.pair.stateHere then standbyTake t else t

/-- Gallery intervals and balance windows are brought up to tick `n`; a tick with TICK_ADJ marks the blocks it enters. -/
def reachTick (n : Nat) (s : State) : State :=
  let t := forN 64 (fun b u => balReach b n u) (galReach 1 n (galReach 2 n s))
  if t.eng.set.adj then galStep t else t

/-- Slots of tick `x` begin. -/
def beginSlots (x : TickSet) (mirrored : Bool) (s : State) : State :=
  let t := reachTick x.tick { s with eng := { s.eng with set := x, slot := 0, start := s.time.now } }
  updPair (fun p => { p with mirrored := mirrored }) t

/-- No tick is computed until the next boundary. -/
def idleSlots (s : State) : State :=
  updPair (fun p => { p with mirrored := false }) (lateRuns { s with eng := { s.eng with slot := 8 } })

/-- The standby's set: the tick that ended at this boundary, as the active named it (R20, R177), unless its totals were
taken. -/
def standbyLatch (s : State) : State :=
  match s.eng.prev with
  | some i =>
    let t := alignRings i.tick (mirrorSeen (0x7000 + 0x400 * (i.tick % 2)) 1024 s)
    beginSlots (mirrorSet i t) true t
  | none => idleSlots s

/-- The first boundary as active: ticks since the last one computed are gap ticks (R365, R455). -/
def activeJoin (n : Nat) (s : State) : State :=
  if s.pair.join then updPair (fun p => { p with join := false }) (balGap (gapUpTo n s)) else s

/-- The own set of the tick that begins, latched, and its identity sent to the partner. -/
def activeLatch (s : State) : State :=
  let i := thisTick s
  let t := beginSlots (ownSet i s) false (recsRead (activeJoin i.tick (lateRuns s)))
  if mirrorSends t then sendSet t else t

/-- The tick set is latched by the device's role; a halted engine computes nothing. -/
def latchTick (s : State) : State :=
  let t := if s.clk.halt.isSome then balGap (idleSlots (updPair (fun p => { p with standbyTicks := 0 }) s))
    else if pairEn s && !s.pair.active then standbyLatch (standbyBoundary s)
    else activeLatch s
  clearDeliveries t

/-- Slot 8 checks in when the sequencer reached the end of M7's slot; the tick just ended reaches points, outputs and the
partner. -/
def tickEnded (s : State) : State :=
  if s.eng.running && s.eng.slot = 8 && s.clk.halt.isNone then
    let t := sendOutputs (publishRuns (checkIn 8 s))
    if t.pair.active && mirrorSends t then sendTotals t.eng.doneTick t else t
  else s

/-- The tick that ends at the switch boundary of a handover. -/
def lastBeforeSwitch (s : State) : Bool :=
  match s.pair.hoSwitch with
  | some b => tickOf b = s.eng.doneTick + 1
  | none => false

/-- After M7's slot of the last tick before a switch, step 3 begins: the active sends totals, carried state, pulse state and
output values (R376). -/
def handoverSend (s : State) : State :=
  if s.pair.active && s.eng.slot = 8 && lastBeforeSwitch s then
    sendCarried (sendTotals s.eng.doneTick (updPair (fun p => { p with hoStep := some 3 }) s))
  else s

/-- Run m's slot is the one that goes on. -/
def slotDue (m : Nat) (s : State) : Bool := s.eng.running && s.eng.slot == m && s.clk.halt.isNone

/-- Run m's slot ends; a standby's tick before a COMMIT is computed with the words before it, and what the COMMIT did to the runs
follows M7's slot (R20, R182). -/
def slotDone (m cycles : Nat) (trap : Option EngTrap) (s : State) : State :=
  let t := match s.eng.late with
    | some l => backWords l.old s (slotEnd m cycles trap (putWords l.old s))
    | none => slotEnd m cycles trap s
  handoverSend (if t.eng.slot = 8 then lateRuns t else t)

/-- RUN_SLOT (R18): run m computes and its increments join its totals at the slot's end, unless a trap ends its
computation (R201). -/
def execRunSlot (m : Run) (cycles : Nat) (trap : Option EngTrap) (s : State) : Host.Outcome State Fault Refusal :=
  if slotDue m s then done (slotDone m cycles trap s) else done s

/-- SLOT_OVERRUN (R201): run m still computes after the 31,250 cycles of its slot. -/
def execSlotOverrun (m : Run) (s : State) : Host.Outcome State Fault Refusal :=
  if slotDue m s then done (slotDone m 31251 none s) else done s

/-- The levels of the pulse inputs are sampled (R456). -/
def samplePulses (s : State) : State :=
  forHalls (fun h t => if (getHall t h).up then report h (forChans (samplePulse h) t) else t) s

/-- The device has joined its image and runs: boundaries are taken. -/
def takesBoundaries (s : State) : Bool := s.clk.die == .applied || s.clk.die == .chosen

/-- PAIR_DIVERGE shows a divergence within the last 1,000 ticks, whatever the role since (R380). -/
def ageDiverge (s : State) : State := updPair (fun p => { p with divAge := p.divAge.map (· + 1) }) s

/-- TICK_BOUNDARY (R17, R18, R177). -/
def execTickBoundary (s : State) : Host.Outcome State Fault Refusal :=
  if !takesBoundaries s then done s
  else
    let b := nextBoundary s
    let t := ageDiverge (idleReports (takeBoundary (moveTo b.2 s)))
    let t := samplePulses (latchPoutQ (tickEnded t))
    let t := coldJunctions (sendStatus (balTryAll (ownSubs (balPublish (forHalls noteVstate t)))))
    done (if t.eng.running then latchTick t else clearDeliveries t)

end Sys2Proof.Machine
end

