-- ==== Sys2Proof/Machine/Operands.lean ====
section
/-! DEFINITION. The operand forms of a host-port register frame: unit width and unit address (R303, R313). -/

namespace Sys2Proof.Machine

/-- W of a command byte: WEXT 0 to 2 raised to 4 with CFG_CLAMP (R303). -/
def unitWidth (wext : Nat) (s : State) : Nat × State := if wext < 3 then (4, cfgClamp 0xFFFF s) else (wext + 1, s)

/-- The address of unit `i` of a frame (R303, R313). -/
def unitAddr (fixed : Bool) (a i : Nat) : Nat := if fixed then a else min (a + i) 0xFFFF

end Sys2Proof.Machine
end

