-- ==== Sys2Proof/Machine/Host.lean ====
section
/-! DEFINITION. Host-port frames: the status byte, register frames on SEL0, stream frames on SEL1 (R298 to R313, R321). -/

namespace Sys2Proof.Machine

/-- The status byte at the select fall (R308). -/
def statusByte (s : State) : Byte :=
  BitVec.ofNat 8 (128 * b2n (attn s) + 64 * b2n (devFault s != 0) + 32 * b2n (role s) + 16 * b2n s.hp.changed
    + 8 * b2n s.hp.short + 4 * b2n s.hp.reject + 2 * b2n s.hp.addrEnd + b2n s.hp.toggle)

/-- A counted frame begins: status delivered, TOGGLE alternates, bits 4 to 1 start again, HP_FRAMES counts (R301, R308). -/
def beginFrame (mode3 : Bool) (s : State) : State :=
  let b := statusByte s
  modReg rHpFrames (fun w => w + 1) { s with hp :=
    { toggle := !s.hp.toggle, mode3 := mode3, changed := false, short := false, reject := false, addrEnd := false
      driven := true, status := b, units := [], bytes := [], echo := none } }

/-- A frame the device answers; before PLL0 locks it drives nothing and ignores frames (R309). -/
def frame (mode3 : Bool) (f : State → State) (s : State) : Host.Outcome State Fault Refusal :=
  if logicUp s then done (f (beginFrame mode3 s)) else done { s with hp := { s.hp with driven := false } }

/-- ADDR_END follows an access above 0x5FFF (R313). -/
def pastEnd (a : Nat) (s : State) : State :=
  if 0x5FFF < a then { s with hp := { s.hp with addrEnd := true } } else s

/-- Unit `i` of a read frame, W bits wide: the word, or bits that are not guaranteed where the unit began before its fetch
completed, which the gap excludes for the first unit (R304, R305, R311). -/
def readUnit (fixed : Bool) (w a : Nat) (underrun : List Nat) (changed : Bool) (i : Nat) (s : State) : State :=
  let b := unitAddr fixed a i
  let r := readWord 0 b s
  let late := w < 6 && 0 < i && underrun.contains i
  let v := if late then freeValue r.2 else r.1
  let t := if late then raiseBit rHpEvt 3 (takeFree r.2) else r.2
  pastEnd b { t with hp := { t.hp with
    units := t.hp.units ++ [BitVec.ofNat 32 (v.toNat % 2 ^ w)]
    changed := t.hp.changed || (changed && !late && !isSnap b) } }

/-- A read frame of `n` units; its fetch gap echoes the command byte (R302, R303). -/
def readFrame (fixed : Bool) (wext a n : Nat) (underrun : List Nat) (changed : Bool) (s : State) : State :=
  let p := unitWidth wext { s with hp := { s.hp with echo := some (BitVec.ofNat 8 (64 * b2n fixed + wext)) } }
  forN n (fun i t => readUnit fixed p.1 a underrun changed i t) p.2

/-- A write of `k` low bits of register `a` by the host (R305, R306). -/
def writeUnit (k a : Nat) (v : Word) (s : State) : State :=
  pastEnd a (cmdWrite ⟨.host, 0xFFFF⟩ a (BitVec.ofNat 32 (2 ^ k - 1)) v none s)

/-- The units of a write frame, in order. -/
def writeUnits (fixed : Bool) (w : Nat) : Nat → List Word → State → State
  | _, [], s => s
  | a, v :: l, s => writeUnits fixed w (unitAddr fixed a 1) l (writeUnit w a v s)

/-- A write frame. -/
def writeFrame (fixed : Bool) (wext a : Nat) (units : List Word) (s : State) : State :=
  let p := unitWidth wext s
  writeUnits fixed p.1 a units p.2

/-- SHORT in the next status byte (R307). -/
def markShort (s : State) : State := { s with hp := { s.hp with short := true } }

/-- A frame whose select rises part-way (R307): a partial write unit is an n-bit masked write. -/
def shortFrame (f : ShortFrame) (s : State) : State :=
  match f with
  | .header => markShort s
  | .write fixed wext a units v n =>
    let w := max (wext.val + 1) 4
    let t := writeFrame fixed wext.val a.toNat units s
    if 0 < n.val && n.val < w then markShort (writeUnit n.val (unitAddr fixed a.toNat units.length) v t) else t
  | .read fixed wext a n underrun changed => markShort (readFrame fixed wext.val a.toNat n underrun changed s)

/-- The largest host stream wait, a value from 0 to 40 SYSCLK cycles that the spec does not fix (R394, R395). -/
def noteWait (s : State) : State :=
  takeFree (modReg rArbWait (fun w => putBits w 7 0 (max (bits w 7 0) ((freeValue s).toNat % 41))) s)

/-- A stream frame (R321 to R324). -/
def streamDeliver (stream : Nat) (peek : Bool) (nbytes : Nat) (s : State) : State :=
  let r := streamFrame (strKey 0 stream) peek nbytes (noteWait s)
  { r.2.2.2 with hp := { r.2.2.2.hp with bytes := r.1, short := r.2.1, addrEnd := r.2.2.1 } }

/-- READ (R302). -/
def execRead (mode3 : Bool) (wext : Fin 32) (addr : Addr) (n : Nat) (underrun : List Nat) (changed : Bool) (s : State) :
    Host.Outcome State Fault Refusal :=
  frame mode3 (readFrame false wext.val addr.toNat n underrun changed) s

/-- WRITE (R305). -/
def execWrite (mode3 : Bool) (wext : Fin 32) (addr : Addr) (units : List Word) (s : State) :
    Host.Outcome State Fault Refusal :=
  frame mode3 (writeFrame false wext.val addr.toNat units) s

/-- READ_FIXED (R303). -/
def execReadFixed (mode3 : Bool) (wext : Fin 32) (addr : Addr) (n : Nat) (underrun : List Nat) (changed : Bool)
    (s : State) : Host.Outcome State Fault Refusal :=
  frame mode3 (readFrame true wext.val addr.toNat n underrun changed) s

/-- WRITE_FIXED (R303). -/
def execWriteFixed (mode3 : Bool) (wext : Fin 32) (addr : Addr) (units : List Word) (s : State) :
    Host.Outcome State Fault Refusal :=
  frame mode3 (writeFrame true wext.val addr.toNat units) s

/-- NOP (R302). -/
def execNop (mode3 : Bool) (s : State) : Host.Outcome State Fault Refusal := frame mode3 (fun t => t) s

/-- RESERVED_OP (R303): refused with reason 9. -/
def execReservedOp (mode3 : Bool) (_op : Fin 3) (s : State) : Host.Outcome State Fault Refusal :=
  frame mode3 (hostRefused 9 0xFFFF) s

/-- STREAM_READ (R321). -/
def execStreamRead (mode3 : Bool) (stream : Fin 24) (nbytes : Nat) (s : State) : Host.Outcome State Fault Refusal :=
  frame mode3 (streamDeliver stream.val false nbytes) s

/-- STREAM_PEEK (R321). -/
def execStreamPeek (mode3 : Bool) (stream : Fin 24) (nbytes : Nat) (s : State) : Host.Outcome State Fault Refusal :=
  frame mode3 (streamDeliver stream.val true nbytes) s

/-- RESERVED_STREAM_OP (R321): refused with reason 9 where SOP or the stream is reserved; SOP 0 and 1 of a stream below 24 are
not this frame, and only count. -/
def execReservedStreamOp (mode3 : Bool) (sop : Fin 4) (stream : Fin 64) (s : State) : Host.Outcome State Fault Refusal :=
  frame mode3 (fun t => if 2 ≤ sop.val || 24 ≤ stream.val then hostRefused 9 0xFFFF t else t) s

/-- SEL_CONFLICT (R300): the later frame is ignored. -/
def execSelConflict (s : State) : Host.Outcome State Fault Refusal := done (if logicUp s then raiseBit rHpEvt 2 s else s)

/-- SHORT (R307). -/
def execShort (mode3 : Bool) (f : ShortFrame) (s : State) : Host.Outcome State Fault Refusal := frame mode3 (shortFrame f) s

/-- FRAME_ENDS_IN_STATUS_BYTE (R301): no effect and not counted; what bits 4 to 1 reported is delivered again. -/
def execFrameEndsInStatusByte (_mode3 : Bool) (s : State) : Host.Outcome State Fault Refusal := done s

end Sys2Proof.Machine
end

