-- ==== Sys2Proof/Machine/Reset.lean ====
section
/-! DEFINITION. Logic-die resets and their release (R21, R278, R279, R296, R309, R388, R396, R411, R416, R433). -/

namespace Sys2Proof.Machine

/-- What a run keeps in retention RAM: live record, shadow checkpoint, open-period sums, sequence numbers, pulse accumulator
and backlog (R237, R396). -/
def runKept (r : RunSt) : RunSt :=
  { runReset with
    car := { carReset with pacc := r.car.pacc, backlog := r.car.backlog }
    live := r.live, shadow := r.shadow, per := r.per, seqs := r.seqs }

/-- The halls see MODCLK stop: results in progress are discarded, rotations abandoned; the logic die forgets the links and its
DMA indexes (R21, R35, R168). -/
def hallsUnclocked (s : State) : State :=
  let t := forN 16 (fun n u => updConv n (fun x => { x with disc := 0, fifo := [], widx := 0, wrap := 0 }) u) s
  let t := forHalls (fun h u => rotAbandon h (stopHall h u)) t
  let t := forHalls (fun h u => updHall h (fun x => { x with
    linked := false, since := false, hbTx := 0, uvrEvt := false, leaveDue := x.leaveDue.map fun _ => Latch.none }) u) t
  forHalls (fun h u => forChans (fun c v => updChan h c (fun x => { x with deliv := [] }) v) u) t

/-- The logic die resets with a cause (R296): registers, queues and engines return to their reset values; flash, retention RAM
and the halls keep what they hold. -/
def logicReset (cause : Nat) (die : DieSt) (s : State) : State :=
  let t := galReset (hallsUnclocked s)
  let z := State.reset
  { t with
    time := { t.time with boundary := none, adj := false }
    regs := [], latch := [], hp := z.hp, stg := z.stg, str := z.str, sync := { z.sync with level := t.sync.level }, newest := [], older := [],
    modes := [], curves := []
    eng := engReset
    runs := t.runs.map fun e => (e.1, runKept e.2)
    bal := []
    aud := { t.aud with lost := false }
    gal := { t.gal with writeFail := false }
    bb := { t.bb with dumping := false }
    jnl := { t.jnl with rst := none }
    img := imgReset
    nv := { t.nv with
      c0 := { t.nv.c0 with known := false, present := false, failed := false, quad := false, fails := 0, id := 0 }
      c1 := { t.nv.c1 with known := false, present := false, failed := false, quad := false, fails := 0, id := 0 }
      mhz := 0, jobs := [] }
    mem := { z.mem with ret := t.mem.ret, bad := t.mem.bad.filter fun e => e.1 = 1 }
    wd := { z.wd with start := t.time.now, last := t.wd.last, resets := t.wd.resets }
    clk := { z.clk with
      die := die, cause := cause, straps := t.clk.straps, roleStrap := t.clk.roleStrap, rtcStop := t.clk.rtcStop
      vbatLow := t.clk.vbatLow, vbatDropLatch := t.clk.vbatDropLatch, vddcOff := t.clk.vddcOff }
    ml := mlReset
    pair := { pairReset with actAt := t.time.now }
    pins := z.pins
    tx := [] }

/-- The logic die is released: time 0 of the start sequence, the watchdog counts from here (R279, R382); entry 0x50. -/
def releaseDie (s : State) : State :=
  bbEvent 0x50 0 s.clk.cause { s with
    clk := { s.clk with die := .released, rel := s.time.now, vddcOff := false }
    wd := { s.wd with start := s.time.now, halted := 0, checked := 0 } }

/-- A restart ordered while the supplies and RESET_N stay as they are. -/
def restart (cause : Nat) (s : State) : State := releaseDie (logicReset cause .reset s)

/-- The die is held in reset by RESET_N, TEST_N, a supply or its temperature. -/
def heldInReset (s : State) : Bool := s.clk.die == .reset || s.clk.die == .hot

/-- RESET_N_LOW (R416): held low for 10 µs. -/
def execResetNLow (s : State) : Host.Outcome State Fault Refusal :=
  done (if heldInReset s then s else logicReset 1 .reset s)

/-- The die may leave reset: TEST_N is high, and after a thermal trip it is below 115 °C (R412, R433). -/
def mayRelease (x : ReleasePins) (s : State) : Bool := heldInReset s && x.testN && (!(s.clk.die == .hot) || x.cool)

/-- RESET_N_RELEASE (R278, R279, R412, R433): straps and PAIR_ROLE are sampled. -/
def execResetNRelease (straps : BitVec 2) (x : ReleasePins) (s : State) : Host.Outcome State Fault Refusal :=
  done (if mayRelease x s then
      releaseDie { s with clk := { s.clk with straps := straps.toNat, roleStrap := x.pairRole } }
    else s)

/-- LOGIC_SUPPLY_FAILURE (R257, R416): the black box freezes for VDDC; cause 4. A die held in reset stays as it is held. -/
def execLogicSupplyFailure (vddc : Bool) (s : State) : Host.Outcome State Fault Refusal :=
  let t := if heldInReset s then s
    else logicReset 4 .reset (if vddc then freeze 2 0 0 s else s)
  done { t with clk := { t.clk with vddcOff := t.clk.vddcOff || vddc } }

/-- THERMAL_TRIP (R433): freeze, then reset with cause 3 until the die is below 115 °C. -/
def execThermalTrip (s : State) : Host.Outcome State Fault Refusal :=
  done (if heldInReset s then s else logicReset 3 .hot (freeze 3 0 0 s))

/-- WATCHDOG_RESET_RELEASE (R388): 64 WDCLK cycles after the expiry, 8 µs nominal. -/
def execWatchdogResetRelease (s : State) : Host.Outcome State Fault Refusal :=
  done (if s.clk.die == .wdReset then releaseDie (moveTo (s.wd.start + 8000) s) else s)

/-- DEBUG_RESET (R296): cause 5. -/
def execDebugReset (s : State) : Host.Outcome State Fault Refusal :=
  done (if logicUp s || s.clk.die == .released then restart 5 s else s)

end Sys2Proof.Machine
end

