-- ==== Sys2Proof/Machine/Start.lean ====
section
/-! DEFINITION. The start sequence: PLL lock with the retention RAM and the journal, the image choice, reconciliation, the role,
and the first valid run tick (R22 to R24, R35, R215, R217, R218, R260 to R263, R276, R278 to R285, R363, R388, R389, R396). -/

namespace Sys2Proof.Machine

/-! Retention RAM (R283, R396). -/

/-- The audit record of a slot, from chip 0, or chip 1 where chip 0's copy is not intact. -/
def audAt (s : State) (slot : Nat) : Option AudRec :=
  match audOf (nvRead s 0 (audAddr slot) 64) with
  | some r => some r
  | none => audOf (nvRead s 1 (audAddr slot) 64)

/-- The stored audit records, newest first. -/
def audStored (s : State) : List AudRec := s.aud.index.reverse.filterMap fun e => audAt s e.2

/-- A class A or B write is newer than the newest record of an image activated or applied (R282). -/
def writesLost (s : State) : Bool :=
  match (audStored s).find? fun r => r.kind = 0 || r.kind = 1 || (r.kind = 6 && (r.detail = 1 || r.detail = 2)) with
  | some r => r.kind ≠ 6
  | none => false

/-- The intact period records in flash, newest first of each ring. -/
def periodRecords (s : State) : List (List Byte) :=
  let rs (r : Nat) := (getRing s r).index.reverse.filterMap fun e =>
    nvFirst s r e.1 256 fun bs => if leAt bs 0 2 = 0xA6A3 && leAt bs 252 4 = (crc32c (bs.take 252)).toNat then some bs else none
  rs 3 ++ rs 4

/-- The newest sequence number of a run and kind in flash; 0 where none is held. -/
def periodSeq (s : State) (m kind : Nat) : Nat :=
  match (periodRecords s).find? fun bs => leAt bs 2 1 = m && leAt bs 3 1 = kind with
  | some bs => leAt bs 4 4
  | none => 0

/-- The integer parts of the totals at the newest close of a kind that flash holds for a run (R224). -/
def periodBase (s : State) (m kind : Nat) : Option (List Nat) :=
  ((periodRecords s).find? fun bs => leAt bs 2 1 = m && leAt bs 3 1 = kind).map fun bs => (accsAt bs 24).map accInt

/-- The newest time stamped in an intact record of the audit, checkpoint or period regions, ns (R283). -/
def flashTime (s : State) : Nat :=
  let a := (audStored s).map (·.time)
  let c := (List.range 8).flatMap fun m => (flashCkpts s m).map fun k => k.tick * 1000000
  let p := (periodRecords s).map fun bs => leAt bs 240 8
  (a ++ c ++ p).foldl max 0

/-- A journal entry of the flash copy, with STEPS unknown (R262); a repair names its generation from the opening on (R277). -/
def jOf (bs : List Byte) : Option JEntry :=
  if leAt bs 28 4 = (crc32c (bs.take 28)).toNat && leAt bs 0 4 ≠ 0 then
    let typ := leAt bs 4 1
    let target := leAt bs 16 4
    some { op := leAt bs 0 4, typ := typ, st := leAt bs 5 1, steps := if typ = 1 && target ≠ 0 then 24 else 0
           time := leAt bs 8 8, target := target, detail := leAt bs 20 8 }
  else none

/-- The newest copies of the operations that the flash journal holds, the oldest first, cut to the ring's 16 entries, open ones
before others (R262). -/
def jFromFlash (s : State) : Table JEntry :=
  let n := s.jnl.copied
  let at_ (i : Nat) : Option JEntry :=
    let a := 0x00200000 + 32 * i % 196608
    match (if chipOk s.nv.c0 then jOf (nvRead s 0 a 32) else none) with
    | some e => some e
    | none => if chipOk s.nv.c1 then jOf (nvRead s 1 a 32) else none
  let all := (List.range (min n 6144)).filterMap fun i => at_ (n - min n 6144 + i)
  let new := all.foldl (fun l e => (l.filter fun x => x.op ≠ e.op) ++ [e]) []
  let open_ := new.filter fun e => e.st = 1
  let rest := new.filter fun e => e.st ≠ 1
  let l := (open_ ++ rest.reverse).take 16
  (List.range l.length).foldl (fun t i => tset (fun _ => jFree) t i (l.getD i jFree)) []

/-- Retention RAM found invalid: every area is lost, the retired converters' copy too, and what flash also holds is taken from there (R21, R224, R262, R396). -/
def retentionLost (s : State) : State :=
  let top := match s.aud.index.getLast? with | some e => e.1 + 1 | none => 0
  let rel := match (audStored s).find? fun r => r.kind = 7 with | some r => r.new | none => 0
  let lost := writesLost s
  let seqs (m : Nat) : List Nat := (List.range 3).map fun k => periodSeq s m k
  let per (m : Nat) : List PerOpen := (List.range 3).map fun k => match periodBase s m k with
    | some b => perOpenReset b true
    | none => perOpenReset [0, 0, 0, 0, 0, 0] false
  forHalls (fun h => updHall h fun x => { x with kept0 := false, kept1 := false }) { s with
    aud := { s.aud with
      queue := [], next := top + 64, rel := rel, writes := b2n lost
      gen := match (audStored s).find? fun r => r.kind = 6 with | some r => r.new | none => 0 }
    gal := { s.gal with cap := [] }
    bb := { s.bb with
      events := [], seq := 0, frozen := false, hdr := bbHdrReset, pend := false, dumping := false, failed := false, samples := []
      dumpSeq := match s.bb.dumps.getLast? with | some d => d.1 + 1 | none => 0 }
    runs := (List.range 8).foldl (fun t m => tset (fun _ => runReset) t m { runReset with seqs := seqs m, per := per m }) []
    per := State.reset.per
    jnl := { s.jnl with ring := jFromFlash s }
    mem := { s.mem with ret := [], bad := s.mem.bad.filter fun e => e.1 ≠ 1 }
    wd := { s.wd with last := 0, resets := 0 }
    clk := { s.clk with retLost := true } }

/-! The region directory (R236). -/

/-- A gallery ring's record reads back intact from some chip. -/
def ringIntact (s : State) (r : Nat) (e : Nat × (Nat × Nat)) : Bool :=
  let crcAt (bs : List Byte) (n : Nat) : Bool := leAt bs n 4 = (crc32c (bs.take n)).toNat
  let ok (bs : List Byte) : Bool :=
    if r < 2 then leAt bs 0 2 = 0xA6A1 && leAt bs 28 4 = (crc32c (bs.take 28 ++ bs.drop 32)).toNat
    else if r = 2 then crcAt bs 108
    else leAt bs 0 2 = 0xA6A3 && crcAt bs 252
  (nvFirst s r e.1 e.2.2 fun bs => if ok bs then some () else none).isSome

/-- The end of ring `r` is found by reading forward from its newest sector: records after the last intact one were never
written. -/
def confirmRing (r : Nat) (s : State) : State :=
  let keep := ((getRing s r).index.reverse.dropWhile fun e => !ringIntact s r e).reverse
  if keep.length = (getRing s r).index.length then s
  else updRing r (fun x => { x with
    index := keep
    next := match keep.getLast? with
      | some e => e.1 + (e.2.2 + 15) / 16 * 16
      | none => (x.index.head?.map (·.1)).getD x.next }) s

/-- The directory confirmed at start, with a chip that reads (R236). -/
def confirmRings (s : State) : State := if nvWritable s then forN 5 confirmRing s else s

/-! The journal (R261 to R263). -/

/-- How long ago an operation was opened, in operations. -/
def jAge (s : State) (e : JEntry) : Nat := (s.jnl.next + 2 ^ 32 - e.op) % 2 ^ 32

/-- An entry placed among others, oldest first. -/
def jInsert (s : State) (e : JEntry) : List JEntry → List JEntry
  | [] => [e]
  | x :: t => if jAge s x < jAge s e then e :: x :: t else x :: jInsert s e t

/-- The open entries, oldest first. -/
def jOpenAll (s : State) : List JEntry :=
  (((List.range 16).map (getJ s)).filter fun e => e.st = 1).foldl (fun l e => jInsert s e l) []

/-- The copies in slot `slot` of the chips that work. -/
def slotCopies (s : State) (slot : Nat) : List (List Byte) :=
  (List.range 2).filterMap fun chip => if chipOk (nvChip s chip) then some (copyBytes s (2 * chip + slot)) else none

/-- Both new copies are intact, with equal digests (R262). -/
def copiesAgree (s : State) (slot : Nat) : Bool :=
  match slotCopies s slot with
  | [] => false
  | c :: t => (intactBad c).isNone && t.all fun d =>
      (intactBad d).isNone && d.drop (leAt d 8 4 - 32) == c.drop (leAt c 8 4 - 32)

/-- Damaged copies of a slot erased: what a repair in progress leaves (R277). -/
def eraseDamaged (slot : Nat) (s : State) : State :=
  forN 2 (fun chip t =>
    if chipOk (nvChip t chip) && (intactBad (copyBytes t (2 * chip + slot))).isSome then
      updChip chip (fun c => { c with mem := merase c.mem (slotBase slot) 0x100000 }) t
    else t) s

/-- An image commit settled: completed by the choice when step 2 is finished, else the new copies are erased. -/
def settleImage (lost : Bool) (e : JEntry) (s : State) : State :=
  let fin := if lost then copiesAgree s e.detail else e.steps.testBit 2
  if fin then jClose e.op 4 s
  else if e.steps &&& 24 = 24 then jClose e.op 5 (eraseDamaged e.detail s)
  else jClose e.op 5 (nvErase (slotBase e.detail) 0x100000 s)

/-- A staged transaction settled: completed from the queue and the capture area, else its records go and one kind 2 record
comes. -/
def settleStaged (lost : Bool) (e : JEntry) (s : State) : State :=
  if !lost && e.steps.testBit 1 then
    let t := jClose e.op 4 (capSound s)
    t.gal.cap.foldl (fun u c => match c with
      | .commitCkpt op _ recs => if op = e.op then ckptsBegin op recs u else u
      | .period _ _ _ _ _ => u) t
  else
    let t := { s with
      aud := { s.aud with queue := s.aud.queue.filter fun r => r.op ≠ e.op }
      gal := { s.gal with cap := s.gal.cap.filter fun c => match c with
        | .commitCkpt op _ _ => op ≠ e.op
        | .period _ _ _ _ _ => true } }
    jClose e.op 5 (audit selfOrigin 2 0xFFFF 1 e.target 0 0 e.op t)

/-- A gallery flush settled: a checkpoint is rewritten from its intact shadow, anything else is rolled back. -/
def settleFlush (e : JEntry) (s : State) : State :=
  let s := if e.target = 2 then eccSeen (fun x => (List.range 8).any fun m => inRet (.shadow m) x) s else s
  let held (m : Nat) : Bool := (shadowOf s m).any fun c => c.tick = e.detail
  if e.target = 2 && (List.range 8).any held then
    let busy (m : Nat) : Bool := s.nv.jobs.any fun j => match j.kind with
      | .ckpt r k _ _ => r = m && k = e.detail
      | _ => false
    let t := jClose e.op 4 s
    match (List.range 8).find? fun m => held m && (flashAt s m e.detail).isNone && !busy m with
    | some m =>
      (match shadowOf s m with
      | some c =>
        let off := ringPlace t 2 128
        pushJob (.ckpt m c.tick false 0) (ringAddr 2 off) (totSlot m 0 c) (ringPut 2 c.tick 128 t)
      | none => t)
    | none => t
  else jClose e.op 5 s

/-- One open entry settled by the rule for its type; an engine swap waits for the image choice. -/
def settleEntry (f : StartFacts) (lost : Bool) (e : JEntry) (s : State) : State :=
  match e.typ with
  | 1 => settleImage lost e s
  | 2 => jClose e.op 4 s
  | 3 => s
  | 4 => if lost then jClose e.op 5 s else jClose e.op 4 s
  | 5 => settleStaged lost e s
  | 6 => settleFlush e s
  | _ => jClose e.op (if f.hoDone then 4 else 5) s

/-- The outcome of an entry reported: its event, and the latched words when it was the last one open (R263). -/
def settleReport (last : Nat) (e : JEntry) (s : State) : State :=
  match (s.jnl.ring.find? fun x => x.2.op = e.op).map (·.2) with
  | none => s
  | some f =>
    let t := if e.op = last then { s with jnl := { s.jnl with rst := some { e with st := f.st } } } else s
    if f.st = 5 then raiseBit rJnlEvt 0 t else if f.st = 4 then raiseBit rJnlEvt 1 t else t

/-- The copy of an operation that the flash journal holds. -/
def jFlashOf (s : State) (op : Nat) : JEntry := ((jFromFlash s).find? fun x => x.2.op = op).elim jFree (·.2)

/-- Journal slots that do not read: reported, and their entries taken from the flash copy (R262, R399). -/
def jRecover (s : State) : State :=
  let bad (i : Nat) : Bool := retBad s (.journal i)
  let t := eccSeen (fun e => (List.range 16).any fun i => inRet (.journal i) e) s
  let t := (List.range 16).foldl (fun u i => retWritten (.journal i) u) t
  let ring := (s.jnl.ring.map fun e => if bad e.1 then (e.1, jFlashOf s e.2.op) else e).filter fun e => e.2 ≠ jFree
  { t with jnl := { t.jnl with ring := ring } }

/-- Operations whose entries come from the flash copy, with STEPS unknown. -/
def jUnread (s : State) : List Nat := (s.jnl.ring.filter fun e => retBad s (.journal e.1)).map (·.2.op)

/-- Every entry left open is settled. -/
def settleJournal (f : StartFacts) (lost : Bool) (s : State) : State :=
  let unread := jUnread s
  let s := jRecover s
  let l := jOpenAll s
  let last := match l.getLast? with | some e => e.op | none => 0
  let t := l.foldl (fun u e => settleReport last e (settleEntry f (lost || unread.contains e.op) e u)) s
  if lost then t else recapturePeriods t

/-- Engine swaps are completed when the chosen image carries their program, else rolled back. -/
def settleSwaps (s : State) : State :=
  let last := match s.jnl.rst with | some e => e.op | none => 0
  (jOpenOf s 3).foldl (fun u e => settleReport last e (jClose e.op (if e.target = u.eng.progId then 4 else 5) u)) s

/-! PLL_LOCK. -/

/-- Both chips identified (R284, R285). -/
def identifyChips (f : StartFacts) (s : State) : State :=
  let t := { s with nv := { s.nv with
    c0 := { s.nv.c0 with known := f.chip0, present := f.chip0, failed := false, quad := f.quad0 && f.chip0, id := f.id0.toNat }
    c1 := { s.nv.c1 with known := f.chip1, present := f.chip1, failed := false, quad := f.quad1 && f.chip1, id := f.id1.toNat }
    mhz := f.mhz } }
  let t := if f.chip0 then t else failChip 0 t
  if f.chip1 then t else failChip 1 t

/-- PLL2 takes REF10 where it has edges (R23); MODCLK returns to the halls, at a phase the spec does not fix (R150). -/
def lockClocks (f : StartFacts) (s : State) : State :=
  let g := (freeValue s).toNat % 15625
  takeFree { s with
    clk := { s.clk with
      die := .locked, lock := 15, modclk := true, tclkXin := !f.ref10
      vbatDrop := s.clk.vbatDropLatch || !f.vbatOk, vbatDropLatch := false }
    sync := { s.sync with grid := 31250 + g, slew := 0 } }

/-- Ring time from the RTC, or from flash where the RTC was lost (R24, R283). -/
def loadTime (s : State) : State :=
  let r := if s.clk.vbatDrop then flashTime s + 1000000000 else s.time.rtc
  { s with
    time := { s.time with ring := r % 2 ^ 64, rtc := r, pairNow := s.time.now, pairRing := r % 2 ^ 64 }
    clk := { s.clk with timeUnset := s.clk.vbatDrop } }

/-- PLL_LOCK (R279): the halls that hold a section restart their flights as MODCLK returns (R35). -/
def execPllLock (f : StartFacts) (s : State) : Host.Outcome State Fault Refusal :=
  if s.clk.die == .released then
    let t := confirmRings (identifyChips f (lockClocks f s))
    let lost := !f.retOk || t.clk.vbatDrop || retBad t .header
    let t := if lost then retentionLost t else t
    let t := judgeGrid (loadTime (jobsLost (settleJournal f lost t)))
    done (checkIn 14 (forHalls (fun h u => startFlights h false u) t))
  else done s

/-! IMAGE_CHOICE (R276). -/

/-- A copy's GEN as its header says. -/
def copyGen (s : State) (i : Nat) : Nat := leAt (copyHeader s i) 4 4

/-- `i` placed among candidates, higher GEN first, equal GEN by number. -/
def candIns (s : State) (i : Nat) : List Nat → List Nat
  | [] => [i]
  | k :: t => if copyGen s k < copyGen s i then i :: k :: t else k :: candIns s i t

/-- The candidates in order; the highest generation is left out by the strap where others remain (R278). -/
def candidates (s : State) : List Nat :=
  let l := ((List.range 4).filter (copyHeadOk s)).foldl (fun a i => candIns s i a) []
  if s.clk.straps = 1 then
    let top := match l.head? with | some i => copyGen s i | none => 0
    let r := l.filter fun i => copyGen s i ≠ top
    if r.isEmpty then l else r
  else l

/-- Candidates read in order until one is accepted; refused ones are reported. -/
def tryCopies : List Nat → State → Option Nat × State
  | [], s => (none, s)
  | i :: l, s =>
    let t := { s with clk := { s.clk with tried := s.clk.tried + 1 } }
    match imageBad (copyBytes s i) with
    | none => (some i, t)
    | some r => tryCopies l (setCopy i (if (intactBad (copyBytes s i)).isSome then 6 else 5) (copyGen s i) (imgRefused r i t))

/-- The chosen copy is the one the device runs. -/
def takeCopy (i : Nat) (s : State) : State :=
  let g := copyGen s i
  setReg 0x2D03 (BitVec.ofNat 32 g) (setCopy i 1 g (updImg (fun x => { x with
    chip := copyChip i, slot := copySlot i, gen := g }) s))

/-- HALL_EN 0 in every hall under the quiet strap (R278). -/
def quietHalls (s : State) : State :=
  if s.clk.straps = 2 then forHalls (fun h t => modReg (aHall h 0x01) (fun w => putBit w 0 false) t) s else s

/-- Every register, table and program of the image; WD_CFG waits for the first valid run tick (R282, R389). -/
def takeImage (im : Img) (s : State) : State :=
  let t := loadRegs im (imgAddrs.filter fun a => a ≠ rWdCfg) s
  let t := quietHalls t
  let t := forHalls (fun h u => setReg (aHall h 0x08) (BitVec.ofNat 32 (pWorst (getReg u) h)) u) t
  let t := forN 8 (fun m u => setReg (aRun m 0x46) (BitVec.ofNat 32 (getRun u m).car.backlog) u) t
  { t with
    curves := imgCurves im
    mem := { t.mem with prog := mwrites 0 t.mem.prog (32768 * t.mem.half) im.prog }
    eng := { t.eng with progId := im.progId, propVer := im.propVer, stateVer := im.stateVer }
    ml := { t.ml with utcOfs := getReg t 0x2A10 } }

/-- A hall kept by R35: commands read back. -/
def keepHall (h : Nat) (s : State) : State :=
  let t := updHall h (fun x => { x with since := true, hold := false }) s
  let t := forChans (fun c u => setReg (aCh h c 0x1C) (BitVec.ofNat 32 (getChan u h c).cmd) u) t
  { t with clk := { t.clk with kept := t.clk.kept + 2 ^ h } }

/-- The commands an image lists for a hall that takes its section; a value that R11 changes is reported. -/
def listedOutputs (im : Img) (h : Nat) (s : State) : State :=
  forChans (fun c u => match imgListed im (aCh h c 0x1C) with
    | some _ =>
      let v := imgView im (aCh h c 0x1C)
      let t := setReg (aCh h c 0x1C) (v &&& 0x00FFFFFF) u
      if v = imgWord im (aCh h c 0x1C) then t else cfgClamp (aCh h c 0x1C) t
    | none => u) s

/-- A hall at the image choice: kept, reloaded, or off. -/
def startHall (im : Img) (h : Nat) (s : State) : State :=
  let x := getHall s h
  let en := hallEn s h
  if !x.up then listedOutputs im h s
  else if !en then hallOff h (listedOutputs im h s)
  else if x.active && x.crc == some (hallCrcOf im h) then keepHall h s
  else reloadBegin h false true (listedOutputs im h s)

/-- The record that the start applied the image over changes made under the generation before it (R240, R282). -/
def auditApplied (s : State) : State :=
  if 0 < s.aud.writes then
    let old := if s.aud.gen = 0 then s.img.gen else s.aud.gen
    let t := audit selfOrigin 6 0xFFFF 1 2 old s.img.gen 0 s
    { t with aud := { t.aud with writes := 0, gen := s.img.gen } }
  else { s with aud := { s.aud with gen := s.img.gen } }

/-- The chosen image applied. -/
def applyImage (i : Nat) (s : State) : State :=
  let t := takeCopy i s
  let im := activeImg t
  let t := soloRole (startPorts (takeImage im t))
  let t := forHalls (startHall im) { t with clk := { t.clk with die := .chosen } }
  auditApplied (settleSwaps t)

/-- WD_EXPIRED_EVT of a restart after an expiry: at the first valid run tick, or here where none will come (R388). -/
def expiredEvt (s : State) : State := if s.clk.cause = 2 then raiseBit rWdEvt 1 s else s

/-- IMAGE_CHOICE (R276, R279): dumps that wait begin. -/
def execImageChoice (s : State) : Host.Outcome State Fault Refusal :=
  if s.clk.die == .locked then
    let t := forN 4 (fun i u => if copyHeadOk u i then setCopy i 7 (copyGen u i) u else setCopy i 0 0xFFFFFFFF u) s
    let r := tryCopies (candidates t) t
    let t := match r.1 with
      | some i =>
        let u := startApplied (applyImage i r.2)
        if u.clk.straps = 2 then expiredEvt u else u
      | none =>
        let u := settleSwaps { r.2 with clk := { r.2.clk with die := .noImage } }
        expiredEvt (forHalls (fun h v => if (getHall v h).up then hallOff h v else v) u)
    done (checkIn 14 { t with bb := { t.bb with dumping := t.bb.pend && !t.bb.failed } })
  else done s

/-! TOTALS_RECONCILE (R215 to R218). -/

/-- A run's totals differ from the partner's checkpoint at the tick it resumed from. -/
def partnerDiffers (s : State) (m : Nat) (p : Option TotCopy) : Bool :=
  match p with
  | some c => voteTick s m p == some c.tick && (List.range 6).any fun t =>
      (vote (copiesAt s m p c.tick) t).1 != c.accs.getD t 0
  | none => false

/-- TOTALS_RECONCILE: every enabled run, each on its own; the partner's copies where a pair is enabled. -/
def execTotalsReconcile (partner : List (Run × TotCopy)) (s : State) : Host.Outcome State Fault Refusal :=
  if takesBoundaries s && s.clk.straps ≠ 2 && !s.clk.reconciled then
    let off (m : Nat) : Option TotCopy :=
      if pairEn s then (partner.find? fun e => e.1.val = m).map (·.2) else none
    let differ := (List.range 8).any fun m => runEn s m && partnerDiffers s m (off m)
    let t := forN 8 (fun m u => if runEn u m then reconcileRun m (off m) u else u) s
    let t := if differ then updPair (fun p => { p with divAge := some 0 }) t else t
    done (checkIn 14 { t with clk := { t.clk with reconciled := true } })
  else done s

/-! ROLE_SETTLE (R363). -/

/-- Settled as standby: shared channels in their standby form, PAIR_DIVERGE where reconciliation found the active's checkpoint
to differ (R218). -/
def settleStandby (s : State) : State :=
  let t := allStandby (roleChange false s)
  if t.pair.divAge.isSome then pairEvent 4 (updPair (fun p => { p with divCnt := p.divCnt + 1 }) t) else t

/-- Settled as active. -/
def settleActive (single : Bool) (s : State) : State :=
  allActive (roleChange true (updPair (fun p => { p with single := single, divAge := none }) s))

/-- Bit PAIR_CFG.PAIR_ID. -/
def pairId (s : State) : Nat := bits (getReg s rPairCfg) 15 0

/-- The role by the table of R363; `actIn` that PAIR_ACT_IN toggles. -/
def settleRole (ans : PartnerAnswer) (actIn : Bool) (s : State) : State :=
  let t := updPair (fun p => { p with inToggling := actIn }) s
  if actIn then settleStandby t
  else match ans with
    | .silent => settleActive true t
    | .answers id strap =>
      if id ≠ pairId t then settleActive true (updPair (fun p => { p with idMismatch := true }) t)
      else if strap ≠ t.clk.roleStrap then
        let u := updPair (fun p => { p with partnerAt := some t.time.now }) t
        if t.clk.roleStrap then settleActive false u else settleStandby u
      else
        settleStandby (pairEvent 14 (updPair (fun p => { p with
          strapConflict := true, partnerAt := some t.time.now }) t))

/-- ROLE_SETTLE (R363): once the totals are reconciled, and again when a fenced device rejoins (R366). -/
def execRoleSettle (ans : PartnerAnswer) (actIn : Bool) (s : State) : Host.Outcome State Fault Refusal :=
  if takesBoundaries s && pairEn s && s.clk.reconciled && !s.pair.confirmed then
    done (checkIn 14 (settleRole ans actIn s))
  else done s

/-! FIRST_VALID_RUN_TICK (R280). -/

/-- Every input channel bound to an enabled run has a record in main SRAM; pulse inputs deliver no records. -/
def boundRecorded (s : State) : Bool :=
  (List.range 8).all fun m => !runEn s m || (List.range 7).all fun r => match roleCh s m r with
    | none => true
    | some g => bits (hcfg s (g / 4) (aCh (g / 4) (g % 4) 0x10)) 4 0 = 4 || (newestRec s g).isSome

/-- The conditions of R280; a pair's role is settled. -/
def mayRun (s : State) : Bool :=
  takesBoundaries s && s.clk.straps ≠ 2 && s.clk.reconciled && s.pair.confirmed && !s.eng.running
    && ((List.range 8).all fun m => !runEn s m || (getRun s m).reconciled) && boundRecorded s

/-- TOT_STAT.LOST of the runs that resumed from an earlier tick (R217). -/
def lostTicks (f : Nat) (s : State) : State :=
  forN 8 (fun m t =>
    let r := getRun t m
    match r.tick with
    | some k =>
      if runEn t m && r.marks.testBit 1 then
        modReg (aTot m 0x1A) (fun w => putBits w 31 8 (min (f - (k + 1)) 0xFFFFFF)) t
      else t
    | none => t) s

/-- The image plan takes effect (R389); a PERIOD that R11 changes is reported. -/
def imagePlan (s : State) : State :=
  let im := activeImg s
  let v := imgView im rWdCfg
  let t := setReg rWdCfg v s
  wdPlan (if (imgListed im rWdCfg).isSome && v ≠ imgWord im rWdCfg then cfgClamp rWdCfg t else t)

/-- FIRST_VALID_RUN_TICK: the engine computes from this boundary on; outputs of the halls are released (R35), the watchdog
takes the image's plan, START_TIME is written, and FAULT_N follows DEV_FAULT from here (R412). -/
def execFirstValidRunTick (s : State) : Host.Outcome State Fault Refusal :=
  if !mayRun s then done s
  else
    let b := nextBoundary s
    let f := tickOf b.1
    let t := takeBoundary (moveTo b.2 s)
    let t := lostTicks f (if t.pair.active then gapUpTo f t else t)
    let t := balOpenAll (imagePlan t)
    let t := if t.pair.active then updPair (fun p => { p with join := false }) t else t
    let t := latchTick (samplePulses { t with eng := { t.eng with running := true } })
    let t := { t with clk := { t.clk with phase := 1, startUs := (t.time.now - t.clk.rel) / 1000 } }
    let t := forHalls (fun h u => if (getHall u h).up then report h (releaseHall h u) else u) t
    done (checkIn 14 (expiredEvt t))

end Sys2Proof.Machine
end

