-- ==== Sys2Proof/Machine/Miethlink.lean ====
section
/-! DEFINITION. The Miethlink node: ports and link faults, formation, the cycle, ring time, points, acyclic access, and commands
received (R328 to R354). -/

namespace Sys2Proof.Machine

/-! Ports (R328 to R330, R336, R342). -/

/-- The delay of port `p`'s link in ps; a free value while unmeasured (R336). -/
def linkDelay (s : State) (p : Nat) : Nat := (getPort s p).delay.getD (freeValue s).toNat

/-- The free value of an unmeasured link taken. -/
def takeDelay (p : Nat) (s : State) : State := if (getPort s p).delay.isNone then takeFree s else s

/-- The reserve, the last 10 µs of the cycle: no DATA frame starts inside it (R336, R340). -/
def inReserve (s : State) : Bool := mlCycle s ≤ s.time.ring % max 1 (mlCycle s) + 10000

/-- ECHO out of a port: the transmit time (log 24); with a loop it waits for the reserve. -/
def sendEcho (p : Nat) (s : State) : State :=
  if s.ml.loop.isSome && !inReserve s then updPort p (fun x => { x with echoDue := true }) s
  else
    mlSend p (mlFrame 5 0 (ringAddrOf s) s.ml.cyc (leBytes 8 s.time.now)) true (updPort p (fun x => { x with echoDue := false }) s)

/-- The reserve of the present cycle reached. -/
def toReserve (s : State) : State :=
  if s.ml.loop.isSome && !inReserve s then
    moveTo (localOf s (s.time.ring / mlCycle s * mlCycle s + mlCycle s - 10000)) s
  else s

/-- The ECHO frames that wait for the reserve go out in it. -/
def dueEchoes (s : State) : State :=
  if (List.range 3).any fun p => (getPort s p).echoDue && usable s true p then
    forN 3 (fun p t => if (getPort t p).echoDue && usable t true p then sendEcho p t else t) (toReserve s)
  else s

/-- A new series of 16 exchanges on a port that is up. -/
def startEcho (p : Nat) (s : State) : State :=
  if usable s true p then sendEcho p (updPort p (fun x => { x with sum := 0, cnt := 0 }) s) else s

/-- PORT_UP (R328, R330, R334): a port that was faulty stays out of the loop until a formation; a head without a loop forms
one. -/
def execPortUp (p : Port) (s : State) : Host.Outcome State Fault Refusal :=
  if !logicUp s || !portEn s p.val || (getPort s p.val).st = 3 then done s
  else
    let t := updPort p.val (fun x => { x with st := 3, silent := false, inLoop := x.inLoop && decide (x.st ≠ 4) }) s
    let t := startEcho p.val (isolate t)
    done (if t.ml.loop.isNone && t.ml.formAt.isNone then formStart t else t)

/-- The ring has wrapped: TOPO says so until a formation (R341). -/
def noteWrap (w : Bool) (m : MlSt) : MlSt := if w && decide (m.topo = 2) then { m with topo := 3, turned := true } else m

/-- LINK_FAULT (R330, R341, R342): a port that is up, or in the loop without character lock, sees no frame. -/
def execLinkFault (p : Port) (s : State) : Host.Outcome State Fault Refusal :=
  let x := getPort s p.val
  if !logicUp s || !(x.st = 3 || (x.inLoop && decide (x.st = 1 ∨ x.st = 2))) then done s
  else
    let t := mlEvent 2 (updPort p.val (fun y => { y with st := 4, silent := true, pass := false }) s)
    done (isolate (mlEvent 3 (updMl (noteWrap x.inLoop) t)))

/-- TRANSMITTER_SILENCE_END (R330). -/
def execTransmitterSilenceEnd (p : Port) (s : State) : Host.Outcome State Fault Refusal :=
  done (if (getPort s p.val).silent then updPort p.val (fun x => { x with silent := false }) s else s)

/-- CHARACTER_LOCK_LOST (R328, R342, R359): a port without lock is down until it is up anew. -/
def execCharacterLockLost (l : Link) (s : State) : Host.Outcome State Fault Refusal :=
  if !logicUp s then done s
  else match l with
    | .ml p =>
      done (if (getPort s p.val).st = 2 || (getPort s p.val).st = 3 then isolate (updPort p.val (fun x => { x with st := 1 }) s)
        else s)
    | .pair => done (updPair (fun q => { q with linkUp := false }) s)

/-- NULL_FRAME (R329, R330): SOF and EOF alone. -/
def execNullFrame (p : Port) (s : State) : Host.Outcome State Fault Refusal :=
  done (if logicUp s && portEn s p.val && !(getPort s p.val).silent then mlSend p.val [] true s else s)

/-- An error in a frame that arrived at port `p` (R333). -/
def portError (p : Nat) (s : State) : State :=
  mlEvent 12 (modReg 0x2A15 (fun w => putBits w (10 * p + 9) (10 * p) (satSucc 1023 (bits w (10 * p + 9) (10 * p)))) s)

/-- A TYPE that R332 does not list. -/
def typeBad (f : MlFrame) : Bool := f.typ = 0 || decide (7 ≤ f.typ.toNat)

/-- The node takes a frame that arrives at port `p`. -/
def takes (form : Bool) (p : Nat) (f : MlFrame) (s : State) : Bool := logicUp s && usable s form p && !typeBad f

/-- A frame the node does not take: one of another TYPE is discarded and counted as a CRC error (R332); one that comes to a port that
is down shows its character lock (R328; DEDUCED, log 86). -/
def leaves (form : Bool) (p : Nat) (f : MlFrame) (s : State) : State :=
  if !logicUp s then s
  else if usable s form p then portError p s
  else if portEn s p && (getPort s p).st = 1 && f.good then updPort p (fun x => { x with st := 2 }) s
  else s

/-- ECHO (R336): the neighbour answers with its turnaround time, a free value. -/
def execEcho (p : Port) (f : MlFrame) (s : State) : Host.Outcome State Fault Refusal :=
  if !takes true p.val f s then done (leaves true p.val f s)
  else if !f.good then done (portError p.val s)
  else if !f.fits then done (crossingFull 6 s)
  else
    done (mlSend p.val (mlFrame 6 0 (ringAddrOf s) s.ml.cyc (leBytes 8 (freeValue s).toNat)) true (takeFree s))

/-- One exchange measured; the sixteenth gives the average. -/
def addEcho (d : Nat) (x : MlPort) : MlPort :=
  if x.cnt + 1 < 16 then { x with sum := x.sum + d, cnt := x.cnt + 1 }
  else { x with delay := some ((x.sum + d) / 16), sum := 0, cnt := 0 }

/-- ECHO_REPLY (R336): half the round trip without the turnaround. -/
def execEchoReply (p : Port) (f : MlFrame) (roundTrip : Nat) (s : State) : Host.Outcome State Fault Refusal :=
  if !takes true p.val f s then done (leaves true p.val f s)
  else if !f.good then done (portError p.val s)
  else if !f.fits then done (crossingFull 6 s)
  else
    let t := updPort p.val (addEcho ((roundTrip * 1000 - leAt f.payload 0 8) / 2)) s
    done (if (getPort t p.val).cnt = 0 then t else sendEcho p.val t)

/-- ECHO_REFRESH (R336): a new series on each up link, in the reserve. -/
def execEchoRefresh (s : State) : Host.Outcome State Fault Refusal :=
  done (if logicUp s then forN 3 startEcho (toReserve s) else s)

/-! Frames on their way (R331 to R333). -/

/-- A frame that arrives at port `p` is processed, not passed (R331). -/
def processes (s : State) (form : Bool) (p : Nat) : Bool :=
  p = 0 || (p = 1 && !usable s form 0) || (p = 2 && !usable s form 1 && !usable s form 0)

/-- The port by which a processed frame leaves is `outPort`; one that passes leaves by MLB or MLA. -/
def passPort (s : State) (form : Bool) (p : Nat) : Option Nat :=
  if p = 2 && usable s form 1 then some 1 else if usable s form 0 then some 0 else none

/-- A frame sent on; a bad one ends with EOFB. -/
def relay (q : Option Nat) (typ hops : Nat) (f : MlFrame) (payload : List Byte) (s : State) : State :=
  match q with
  | some q => frameSend q (mlFrame typ hops f.src f.cyc payload) f.good s
  | none => s

/-- A frame passes through. -/
def passOn (form : Bool) (typ p : Nat) (f : MlFrame) (payload : List Byte) (s : State) : State :=
  relay (passPort s form p) typ f.hops f payload
    (updPort p (fun x => { x with pass := true }) (if f.good then s else portError p s))

/-- The loop's processing hops, H. -/
def loopHops (s : State) : Nat := match s.ml.loop with | some l => l.hops | none => 0

/-- A frame ends at this node: HOPS would reach H (R333). -/
def endsHere (s : State) (f : MlFrame) : Bool := f.hops + 1 = loopHops s

/-- A frame processed by this node goes on with HOPS raised, unless it ends here. -/
def goOn (typ : Nat) (f : MlFrame) (payload : List Byte) (s : State) : State :=
  if endsHere s f then s else relay (outPort s false) typ (f.hops + 1) f payload s

/-! Ring time (R343, R344). -/

/-- A node turns traffic at a faulty port; it has a port up that is not in the loop (R339). -/
def wrapped (s : State) : Bool := (List.range 3).any fun p => (getPort s p).st = 4 && (getPort s p).inLoop
def newLink (s : State) : Bool := (List.range 3).any fun p => (getPort s p).st = 3 && !(getPort s p).inLoop

/-- The CYCLE payload as it leaves: D_in and a residence time of at most `most` ps in CORR, the node's own flags. -/
def cycleOut (p most : Nat) (b : List Byte) (s : State) : List Byte :=
  let res := (Config.freeWord (s.free + b2n (getPort s p).delay.isNone)).toNat % (most + 1)
  let flags := BitVec.ofNat 32 (leAt b 28 4)
  let flags := if wrapped s then flags ||| 8 else flags
  let flags := if newLink s then flags ||| 16 else flags
  b.take 8 ++ leBytes 8 (leAt b 8 8 + linkDelay s p + res) ++ ((b.drop 16).take 12) ++ leBytes 4 flags.toNat

/-- The free values of `cycleOut` taken. -/
def takeCycleOut (p : Nat) (s : State) : State := takeFree (takeDelay p s)

/-- The offset of the node's ring time: expected minus local (R343). -/
def cycleOffset (p : Nat) (b : List Byte) (s : State) : Int :=
  (leAt b 0 8 + (leAt b 8 8 + linkDelay s p) / 1000 : Nat) - (s.time.ring : Int)

/-- TIME_LOCK after an offset. -/
def lockStep (off : Int) (m : MlSt) : MlSt :=
  if off.natAbs ≤ 100 then { m with lockCnt := min 8 (m.lockCnt + 1), timeLock := m.timeLock || decide (7 ≤ m.lockCnt) }
  else { m with lockCnt := 0, timeLock := m.timeLock && decide (off.natAbs ≤ 200) }

/-- Ring time from a CYCLE frame (R343): a large offset steps it, a small one steers it. -/
def takeTime (p : Nat) (b : List Byte) (s : State) : State :=
  let off := cycleOffset p b s
  let t := updMl (fun m => lockStep off { m with tofs := off }) s
  let large := decide (1000 < off.natAbs)
  let u := takeOffset large (leAt b 0 8 + (leAt b 8 8 + linkDelay s p) / 1000) off (takeCycleOut p t)
  if large then mlEvent 7 u else u

/-- What a node that is not the head takes from a CYCLE frame (R337, R343, R345, R383). -/
def takeCycle (p : Nat) (f : MlFrame) (s : State) : State :=
  let b := f.payload
  let flags := BitVec.ofNat 32 (leAt b 28 4)
  let t := takeTime p b s
  let t := updMl (fun m => noteWrap (bit flags 3) { m with
    cyc := f.cyc, gotCycle := true, appended := false, noHead := false, backup := false, isHead := false
    utcValid := bit flags 0, utcOfs := BitVec.ofNat 32 (leAt b 16 4) }) t
  checkIn 10 { t with clk := { t.clk with timeUnset := t.clk.timeUnset && !bit flags 1 } }

/-- A second head (R337): this one stops. -/
def twoHeads (s : State) : State :=
  mlEvent 1 (updMl (fun m => { m with
    stopped := true, isHead := false, formAt := none, formReq := false, formResult := 5, formed := false }) s)

/-- CYCLE (R331, R337, R339, R341, R343). DESIGN CHOICE (log 87): the spec gives no field that tells a device's own frame from that of
another head; the command says which it is. -/
def execCycleFrame (p : Port) (f : MlFrame) (s : State) : Host.Outcome State Fault Refusal :=
  let p := p.val
  let flags := BitVec.ofNat 32 (leAt f.payload 28 4)
  if !takes false p f s then done (leaves false p f s)
  else if !processes s false p then
    done (takeCycleOut p (passOn false 1 p f (if f.good then cycleOut p 200000 f.payload s else f.payload)
      (updMl (noteWrap (f.good && bit flags 3)) s)))
  else if !f.good then done (goOn 1 f f.payload (portError p s))
  else if !f.fits then done (crossingFull 6 (takeCycleOut p (goOn 1 f (cycleOut p 640000 f.payload s) s)))
  else if f.own then
    done (checkIn 10 (updMl (fun m => noteWrap (bit flags 3) { m with needForm := m.isHead && (bit flags 3 || bit flags 4) }) s))
  else if headRole s = 1 && !bit flags 2 then done (twoHeads s)
  else
    let t := goOn 1 f (cycleOut p 640000 f.payload s) s
    done (if headRole s = 1 then takeCycleOut p t else takeCycle p f t)

/-! Formation (R334, R335, R354). -/

/-- The address part of FORM at a node: pair members share one address. -/
def formAddr (s : State) (d : FormData) : FormData × Option Nat :=
  let bad (r : Nat) : FormData × Option Nat := ({ d with result := if d.result = 0 then r else d.result }, none)
  if pairEn s && d.pair ≠ 0 && decide (d.pair = pairId s) then
    ({ d with pair := 0 }, some (d.next - 1))
  else if d.pair ≠ 0 then bad 4
  else if 1023 < d.next + 1 then bad 3
  else ({ d with next := d.next + 1, pair := if pairEn s then pairId s else 0, train := d.train + dataDur s }, some d.next)

/-- A node that holds an address and would receive another one reports FORM_CONFLICT. -/
def formConflict (s : State) (a : Option Nat) : Bool :=
  match s.ml.loop, a with
  | some l, some b => match l.addr with | some c => b ≠ c | none => false
  | _, _ => false

/-- FORM at a processing node: the payload that leaves and the address taken. -/
def formNode (p : Nat) (d : FormData) (s : State) : FormData × Option Nat :=
  let r := formAddr s d
  let e := { r.1 with hops := r.1.hops + 1, sumd := r.1.sumd + linkDelay s p }
  if formConflict s r.2 then ({ e with result := if e.result = 0 then 7 else e.result }, none) else (e, r.2)

/-- L_BOUND in ns. -/
def lBound (d : FormData) : Nat := 2 * d.sumd / 1000 + d.hops * 840

/-- The head's verdict on a FORM that has returned. -/
def formVerdict (s : State) (d : FormData) : Nat :=
  if d.result ≠ 0 then d.result
  else if 1023 < d.next then 3
  else if d.pair ≠ 0 then 4
  else if mlCycle s < lBound d + d.train + 10000 then 2
  else 1

/-- FORM_DONE's payload: RESULT, N, H, START, and TOPO in two bytes that R334 does not name (log 24). -/
def formDoneBytes (r : Nat) (l : MlLoop) (start : Nat) : List Byte :=
  leBytes 2 r ++ leBytes 2 l.nodes ++ leBytes 2 l.hops ++ leBytes 2 (1 + b2n l.ring) ++ leBytes 8 start

/-- What FORM_DONE says, at every node: the loop to adopt at START, or the refusal. -/
def formEnd (r : Nat) (l : MlLoop) (start : Nat) (s : State) : State :=
  if r = 1 then updMl (fun m => { m with formResult := 1, formed := true, next := some (l, start) }) s
  else mlEvent 1 (updMl (fun m => { m with formResult := r, formed := false, next := none }) s)

/-- FORM back at the head: the loop is a ring when it arrives on MLA, MLB is up, and it has not come back through MLB on the way
(R331). -/
def formBack (p : Nat) (d : FormData) (s : State) : State :=
  let d := if p = 0 then { d with sumd := d.sumd + linkDelay s 0 } else d
  let r := formVerdict s d
  let start := (s.time.ring / max 1 (mlCycle s) + 2) * mlCycle s
  let l : MlLoop := ⟨d.next, d.hops, some 0, p = 0 && usable s true 1 && !(getPort s 1).pass⟩
  let t := updMl (fun m => { m with
    formAt := none, loopNs := s.time.now - (m.formAt.getD s.time.now), lbound := lBound d, train := d.train })
    (if p = 0 then takeDelay 0 s else s)
  formEnd r l start (mlOriginate true 4 (formDoneBytes r l start) t)

/-- FORM goes on. It is the frame that counts H, and meets no H to end at: with its head gone it ends where HOPS can count no
further (R333; DEDUCED, log 88). -/
def formOn (f : MlFrame) (payload : List Byte) (s : State) : State :=
  if 2047 ≤ f.hops then s else relay (outPort s true) 3 (f.hops + 1) f payload s

/-- FORM (R331, R333, R334, R337). -/
def execForm (p : Port) (f : MlFrame) (s : State) : Host.Outcome State Fault Refusal :=
  let p := p.val
  if !takes true p f s then done (leaves true p f s)
  else if !processes s true p then done (passOn true 3 p f f.payload s)
  else if !f.good then done (if headRole s = 1 && f.own then portError p s else formOn f f.payload (portError p s))
  else if !f.fits then done (crossingFull 6 (if f.own then s else formOn f f.payload s))
  else if headRole s = 1 then
    done (if !f.own then twoHeads s else if s.ml.formAt.isSome then formBack p (formOf f.payload) s else s)
  else
    let r := formNode p (formOf f.payload) s
    let t := formOn f r.1.bytes (takeDelay p s)
    done (updMl (fun m => { m with offered := r.2, formPorts := upPorts s }) t)

/-- FORM_DONE goes on, and ends where HOPS reaches the H it carries; a bad one at the H of the loop held (R333). -/
def formDoneOn (f : MlFrame) (s : State) : State :=
  if f.hops + 1 = (if f.good then leAt f.payload 4 2 else loopHops s) then s
  else relay (outPort s true) 4 (f.hops + 1) f f.payload s

/-- FORM_DONE (R333, R334): the head removes its own. -/
def execFormDone (p : Port) (f : MlFrame) (s : State) : Host.Outcome State Fault Refusal :=
  let p := p.val
  if !takes true p f s then done (leaves true p f s)
  else if !processes s true p then done (passOn true 4 p f f.payload s)
  else if headRole s = 1 then done (if f.good then s else portError p s)
  else
    let t := formDoneOn f s
    if !f.good then done (portError p t)
    else if !f.fits then done (crossingFull 6 t)
    else
      let b := f.payload
      done (formEnd (leAt b 0 2) ⟨leAt b 2 2, leAt b 4 2, s.ml.offered, leAt b 6 2 = 2⟩ (leAt b 8 8) t)

/-- LOOP_ADOPT (R334, R338, R341): at START. The ring back in its intact form after a wrap is told by RESTORE_EVT. -/
def execLoopAdopt (s : State) : Host.Outcome State Fault Refusal :=
  match s.ml.next with
  | none => done s
  | some (l, start) =>
    let t := if s.time.ring < start then moveTo (localOf s start) s else s
    let bad := bit (mlCfg t) 28 && l.addr.isSome && decide (l.addr ≠ some (bits (mlCfg t) 25 16))
    let up := t.ml.formPorts
    let u := forN 3 (fun p v => updPort p (fun x => { x with inLoop := decide (x.st = 3) && up.testBit p, pass := false }) v) t
    let u := updMl (fun m => { m with
      loop := some l, next := none, isHead := decide (headRole t = 1) && !m.stopped, backup := false, needForm := false
      mismatch := bad, noHead := false, gotCycle := false, appended := false, turned := m.turned && !l.ring
      topo := 1 + b2n l.ring, formResult := if bad then 6 else 1 }) u
    let u := mlEvent 0 u
    let u := if t.ml.turned && l.ring then mlEvent 4 u else u
    done (if bad then mlEvent 13 u else u)

/-- FORMATION_RETRY (R334). -/
def execFormationRetry (s : State) : Host.Outcome State Fault Refusal :=
  done (if logicUp s && (!s.ml.formed || s.ml.needForm) then formStart s else s)

/-! The cycle (R339, R340, R346, R348, R351). -/

/-- The device appends DATA frames and answers requests: alone, or the active member (R354). -/
def answers (s : State) : Bool := !pairEn s || s.pair.active

/-- Queued entries that go into a frame of `room` bytes: those due that still fit, in order; and the rest, deferred (R351). -/
def takeOuts (now : Nat) : Nat → List AcyOut → List AcyOut × List AcyOut
  | _, [] => ([], [])
  | room, o :: t =>
    if o.notBefore ≤ now && o.bytes.length ≤ room then
      let r := takeOuts now (room - o.bytes.length) t
      (o :: r.1, r.2)
    else
      let r := takeOuts now room t
      (r.1, o :: r.2)

/-- A published range: its head and the values now. -/
def rangeBytes (s : State) (r : Nat × Nat) : List Byte :=
  leBytes 2 r.1 ++ leBytes 2 r.2 ++ ((List.range r.2).map fun i => leBytes 4 (liveWord s (0x4000 + r.1 + i)).toNat).flatten

/-- The device's DATA frame of this cycle (R348); with ADDR_MISMATCH it carries nothing (R338). -/
def sendData (s : State) : State :=
  let ranges := if s.ml.mismatch then [] else pubRanges s
  let o := if s.ml.mismatch then ([], s.ml.outs) else takeOuts s.time.now (acyMax s) s.ml.outs
  let acy := (o.1.map (·.bytes)).flatten
  let b := leBytes 2 ranges.length ++ leBytes 2 acy.length ++ (ranges.map (rangeBytes s)).flatten ++ acy
  mlOriginate false 2 b (updMl (fun m => { m with outs := o.2, appended := true }) s)

/-- The DATA frame appended, or the cycle counted as skipped. -/
def appendData (s : State) : State :=
  if inReserve s then
    modReg 0x2A16 (fun w => putBits w 15 0 (satSucc 0xFFFF (bits w 15 0))) (updMl (fun m => { m with appended := true }) s)
  else sendData s

/-- DATA_APPEND (R340). -/
def execDataAppend (s : State) : Host.Outcome State Fault Refusal :=
  done (if logicUp s && s.ml.loop.isSome && s.ml.gotCycle && !s.ml.appended && !s.ml.isHead && answers s then appendData s
    else s)

/-- The CYCLE frame of the head or of an active backup (R337, R339). -/
def cycleBytes (s : State) : List Byte :=
  let flags := b2n s.ml.utcValid + 2 * b2n (!s.clk.timeUnset) + 4 * b2n s.ml.backup + 8 * b2n (wrapped s) + 16 * b2n (newLink s)
  leBytes 8 s.time.ring ++ leBytes 8 0 ++ leBytes 4 s.ml.utcOfs.toNat ++ leBytes 4 (mlCycle s / 1000)
    ++ leBytes 2 (match s.ml.loop with | some l => l.nodes | none => 0) ++ leBytes 2 (loopHops s) ++ leBytes 4 flags

/-- The next cycle boundary: the present instant when it is one that has not been taken. -/
def nextCycle (s : State) : Nat :=
  let t := mlCycle s
  let k := s.time.ring / t
  if s.time.ring % t = 0 && decide (s.ml.cyc ≠ k % 65536) then k * t else (k + 1) * t

/-- CYCLE_BOUNDARY (R334, R336, R339). -/
def execCycleBoundary (s : State) : Host.Outcome State Fault Refusal :=
  if !logicUp s || s.ml.loop.isNone || mlCycle s = 0 then done s
  else
    let s := if s.time.ring < nextCycle s then dueEchoes s else s
    let t := moveTo (localOf s (nextCycle s)) s
    let t := updMl (fun m => { m with
      cyc := t.time.ring / mlCycle t % 65536, gotCycle := m.isHead, appended := false }) t
    done (if !t.ml.isHead then t
      else if t.ml.formReq then formGo t
      else
        let u := mlOriginate false 1 (cycleBytes t) t
        if answers u then sendData u else u)

/-- HEAD_TAKEOVER (R337): the backup head sends CYCLE frames from now on. -/
def execHeadTakeover (s : State) : Host.Outcome State Fault Refusal :=
  done (if logicUp s && headRole s = 2 && s.ml.loop.isSome && !s.ml.backup then
      mlEvent 5 (updMl (fun m => { m with backup := true, isHead := true, noHead := false }) s)
    else s)

/-- NO_HEAD (R337). -/
def execNoHead (s : State) : Host.Outcome State Fault Refusal :=
  done (if logicUp s && s.ml.loop.isSome && headRole s = 0 && !s.ml.noHead then
      mlEvent 6 (updMl (fun m => { m with noHead := true, timeLock := false, lockCnt := 0 }) s)
    else s)

/-! DATA received (R347 to R349). -/

/-- Values of a DATA frame's ranges: first point and words, and the bytes after them. -/
def rangesOf : Nat → List Byte → List (Nat × List Word) × List Byte
  | 0, b => ([], b)
  | n + 1, b =>
    let k := leAt b 2 2
    let ws := (List.range k).map fun i => BitVec.ofNat 32 (leAt b (4 + 4 * i) 4)
    let r := rangesOf n (b.drop (4 + 4 * k))
    ((leAt b 0 2 % 8192, ws) :: r.1, r.2)

/-- The value of a point in the ranges of a frame. -/
def pointIn (l : List (Nat × List Word)) (n : Nat) : Option Word :=
  match l.find? fun r => r.1 ≤ n && n < r.1 + r.2.length with
  | some r => (r.2.drop (n - r.1)).head?
  | none => none

/-- Subscribed values of a frame from ring address `src` copied; a range whose points all came is valid (R349). -/
def copyPoints (src : Nat) (l : List (Nat × List Word)) (s : State) : State :=
  forN 64 (fun e t =>
    let x := subEntry t e
    if x.1 && decide (x.2.2 / 8192 = src) then
      let base := subBase t e
      let vals := (List.range x.2.1).map fun i => pointIn l ((x.2.2 + i) % 8192)
      let u := forN x.2.1 (fun i u => match vals.getD i none with
        | some v => putSub (base + i) v u
        | none => u) t
      if vals.all Option.isSome && !u.ml.subValid.testBit e then
        updMl (fun m => { m with subValid := m.subValid + 2 ^ e }) u
      else u
    else t) s

/-- SUB_LOST (R349): the points hold their last values. -/
def execSubLost (e : Fin 64) (s : State) : Host.Outcome State Fault Refusal :=
  done (if logicUp s && s.ml.subValid.testBit e.val then
      mlEvent 9 (updMl (fun m => { m with subValid := m.subValid - 2 ^ e.val }) s)
    else s)

/-! Acyclic access received (R350 to R352). -/

/-- An acyclic entry. -/
structure AcyIn where
  op : Nat
  cast : Bool
  dst : Nat
  tag : Nat
  data : List Byte
deriving DecidableEq, Repr

/-- The entries of NA bytes; `fuel` bounds their number. -/
def acysOf : Nat → List Byte → List AcyIn
  | 0, _ => []
  | n + 1, b =>
    if b.length < 8 then []
    else
      let k := leAt b 6 2
      ⟨leAt b 0 1, (leAt b 1 1).testBit 0, leAt b 2 2 % 1024, leAt b 4 2, (b.drop 8).take k⟩ :: acysOf n (b.drop (8 + k))

/-- A response waits at least 20 µs after its request. -/
def respond (dst tag op : Nat) (data : List Byte) (s : State) : State :=
  acyPush (acyEntry op false dst tag data) (s.time.now + 20000) true s

/-- A status with three zero bytes. -/
def statusBytes (st : Nat) : List Byte := leBytes 4 st

/-- `n` words read from `a` upward through the Miethlink latches. -/
def ringReads : Nat → Nat → State → List Word × State
  | 0, _, s => ([], s)
  | n + 1, a, s =>
    let r := readWord 1 (min a 0xFFFF) s
    let t := ringReads n (a + 1) r.2
    ((if 0x5FFF < a then 0 else r.1) :: t.1, t.2)

/-- READ served: as many leading words as ACY_MAX holds. -/
def serveRead (src : Nat) (e : AcyIn) (s : State) : State :=
  let a := leAt e.data 0 2
  let n := leAt e.data 2 2
  if e.data.length < 4 || n = 0 || 64 < n then respond src e.tag 0x81 (statusBytes 18) s
  else
    let r := ringReads n a s
    let ws := r.1.take ((acyMax s - 12) / 4)
    respond src e.tag 0x81 (statusBytes (if 0x5FFF < a + n - 1 then 11 else 0) ++ (ws.map fun w => leBytes 4 w.toNat).flatten) r.2

/-- The words of a WRITE in ascending order, up to the first refused one: its reason and address. -/
def ringWrites (o : Origin) (mask : Word) : Nat → List Word → State → Option (Nat × Nat) × State
  | _, [], s => (none, s)
  | a, w :: l, s =>
    let r := writeReg o a mask w none s
    match r.2 with
    | some n => (some (n, a), r.1)
    | none => ringWrites o mask (min (a + 1) 0xFFFF) l r.1

/-- WRITE served. -/
def serveWrite (src : Nat) (e : AcyIn) (s : State) : State :=
  let n := leAt e.data 2 2
  if e.data.length < 8 || n = 0 || e.data.length < 8 + 4 * n then respond src e.tag 0x82 (statusBytes 18) s
  else
    let ws := (List.range n).map fun i => BitVec.ofNat 32 (leAt e.data (8 + 4 * i) 4)
    let r := ringWrites ⟨.ring, src⟩ (BitVec.ofNat 32 (leAt e.data 4 4)) (leAt e.data 0 2) ws s
    match r.1 with
    | some x => respond src e.tag 0x82 (leBytes 2 x.1 ++ leBytes 2 x.2) r.2
    | none => respond src e.tag 0x82 (statusBytes 0) r.2

/-- STREAM_RESP's data. -/
def streamResp (st : Nat) (lost : Bool) (pos ready len off : Nat) (bs : List Byte) : List Byte :=
  leBytes 1 st ++ leBytes 1 (b2n lost) ++ leBytes 2 0 ++ leBytes 8 pos ++ leBytes 4 ready ++ leBytes 4 len ++ leBytes 4 off
    ++ padTo ((bs.length + 3) / 4 * 4) 0 bs

/-- STREAM served: one record from a byte offset; the position goes on with the record's last byte (R322 to R324, R351). -/
def serveStream (src : Nat) (e : AcyIn) (s : State) : State :=
  let n := leAt e.data 0 1
  let sop := leAt e.data 1 1
  let k := strKey 1 n
  let off := leAt e.data 12 4
  let asked := leAt e.data 2 2
  if e.data.length < 16 || 24 ≤ n || 3 ≤ sop || (sop < 2 && (asked < 4 || 1024 < asked)) then respond src e.tag 0x83 (streamResp 18 false 0 0 0 0 []) s
  else if sop = 2 then
    let t := nameStream k (seekTo k (leAt e.data 4 8) s)
    respond src e.tag 0x83 (streamResp 0 false (strPos t k) (strReady t 1 n) 0 0 []) t
  else
    let c := strCatchUp k s
    let t := nameStream k c.2
    let ready := strReady t 1 n
    match strRec t n (strPos t k) with
    | none => respond src e.tag 0x83 (streamResp 0 c.1 (strPos t k) ready 0 off []) t
    | some r =>
      if ready = 0 then respond src e.tag 0x83 (streamResp 17 c.1 r.1 0 r.2.length off []) t
      else
        let most := min asked (acyMax t - 32)
        let part := (r.2.drop off).take most
        let last := off < r.2.length && r.2.length ≤ off + most
        let u := if sop = 0 && last then
            let v := setStrPos k (r.1 + 1) t
            { v with str := { v.str with ready := if v.str.named = k then ready - 1 else v.str.ready } }
          else t
        respond src e.tag 0x83 (streamResp 0 c.1 r.1 ready r.2.length off part) u

/-- Requests pending: answers queued and not yet sent. -/
def pendingAnswers (s : State) : Nat := (s.ml.outs.filter (·.answer)).length

/-- A request beyond 32 pending is answered with BUSY. -/
def busyAnswer (src : Nat) (e : AcyIn) (s : State) : State :=
  acyPush (acyEntry (e.op + 0x80) false src e.tag
    (if e.op = 3 then streamResp 16 false 0 0 0 0 [] else statusBytes 16)) (s.time.now + 20000) false s

/-- A request addressed to this device. -/
def serveRequest (src : Nat) (e : AcyIn) (s : State) : State :=
  if !answers s then s
  else if 32 ≤ pendingAnswers s then busyAnswer src e s
  else match e.op with
    | 1 => serveRead src e s
    | 2 => serveWrite src e s
    | _ => serveStream src e s

/-- A response to the mailbox's request (R353). -/
def mailboxResponse (e : AcyIn) (s : State) : State :=
  match s.ml.mb with
  | none => s
  | some q =>
    if e.tag ≠ q.tag || e.op ≠ q.op + 0x80 then s
    else
      let st := leAt e.data 0 1
      let k := if e.op = 0x81 then min (min q.words 64) ((e.data.length - 4) / 4) else 0
      let t := forN k (fun i u => setReg (0x2B00 + i) (BitVec.ofNat 32 (leAt e.data (4 + 4 * i) 4)) u) s
      mbDone st k t

/-- One acyclic entry of a frame from `src`. A broadcast READ, WRITE or STREAM is ignored. -/
def serveEntry (src : Nat) (e : AcyIn) (s : State) : State :=
  let mine := e.dst = ringAddrOf s
  if s.ml.mismatch then s
  else if e.op = 8 then (if e.cast || mine then syncCommand (leAt e.data 0 8) s else s)
  else if e.op = 9 then (if e.cast || mine then injectCommand (leAt e.data 0 8) s else s)
  else if e.cast || !mine then s
  else if 1 ≤ e.op && e.op ≤ 3 then serveRequest src e s
  else mailboxResponse e s

/-- What a node takes from a DATA frame that does not end here. -/
def takeData (f : MlFrame) (s : State) : State :=
  let b := f.payload
  let r := rangesOf (leAt b 0 2) (b.drop 4)
  let na := leAt b 2 2
  let t := if f.src = ringAddrOf s then s else copyPoints f.src r.1 s
  (acysOf (na / 8 + 1) (r.2.take na)).foldl (fun u e => serveEntry f.src e u) t

/-- DATA (R331, R333, R348, R350 to R352). -/
def execData (p : Port) (f : MlFrame) (s : State) : Host.Outcome State Fault Refusal :=
  let p := p.val
  if !takes false p f s then done (leaves false p f s)
  else if !processes s false p then done (passOn false 2 p f f.payload s)
  else
    let t := goOn 2 f f.payload s
    if !f.good then done (portError p t)
    else if !f.fits then done (crossingFull 6 t)
    else done (if endsHere s f then t else takeData f t)

/-- INJECT_EXECUTE (R352): the earliest INJECT is due. -/
def execInjectExecute (s : State) : Host.Outcome State Fault Refusal :=
  match s.ml.injects.foldl (fun a r => match a with
      | none => some r
      | some b => some (min r b)) none with
  | none => done s
  | some r =>
    let t := moveTo (localOf s r) s
    done (triggerAll 10 (modclkTime t (16 * localOf s r)) (updMl (fun m => { m with injects := m.injects.filter (· ≠ r) }) t))

/-- ACY_TIMEOUT (R351, R353): the mailbox's request has waited ACY_TO cycles. -/
def execAcyTimeout (s : State) : Host.Outcome State Fault Refusal :=
  match s.ml.mb with
  | none => done s
  | some q =>
    let t := moveTo (q.sent + bits (getReg s 0x2A02) 23 16 * mlCycle s) s
    let t := modReg 0x2A16 (fun w => putBits w 31 16 (satSucc 0xFFFF (bits w 31 16))) t
    done (mlEvent 10 (mbDone 19 0 t))

/-! PPS (R345). -/

/-- The head disciplines ring time to PPS_IN. -/
def ppsOn (s : State) : Bool := logicUp s && timeHead s && bit (mlCfg s) 29

/-- The error of an edge at ring time `r` against the nearest whole second, ns. -/
def ppsError (r : Nat) : Int := (r : Int) - ((r + 500000000) / 1000000000 * 1000000000 : Nat)

/-- PPS_IN (R24, R345): a waiting TIME_SET takes effect; else the error is reported; one of at most 1 ms steers ring time, and
three larger ones in a row step it. DESIGN CHOICE (log 46): the edge is captured to 10 ns (R428) by rounding down. -/
def execPpsIn (s : State) : Host.Outcome State Fault Refusal :=
  if !ppsOn s then done s
  else if s.ml.tset then done (timeSetNow s)
  else
    let e := ppsError (s.time.ring / 10 * 10)
    let big := 1000000 < e.natAbs
    let n := if big then s.ml.ppsBig + 1 else 0
    let t := updMl (fun m => { m with ppsErr := e, ppsBig := n % 3 }) s
    if n = 3 || !big then done (takeOffset (n = 3) ((s.time.ring : Int) - e).toNat (-e) t) else done t

/-- PPS_LOST: the head runs free. -/
def execPpsLost (s : State) : Host.Outcome State Fault Refusal :=
  done (if ppsOn s then mlEvent 14 (updMl (fun m => { m with ppsBig := 0, timeAt := none }) s) else s)

end Sys2Proof.Machine
end

