-- ==== Sys2Proof/Machine/Watch.lean ====
section
/-! DEFINITION. Watchdog, debug halt, clock monitor, VBAT and ECC (R23, R257, R377, R382 to R391, R396, R398, R399, R403). -/

namespace Sys2Proof.Machine

/-! Watchdog (R382 to R389). -/

/-- The watchdog counts: the die is released and the debugger does not hold the engine. -/
def wdRuns (s : State) : Bool := (logicUp s || s.clk.die == .released) && s.clk.halt.isNone

/-- Required slots neither checked in nor excused. -/
def wdMissing (s : State) : Nat :=
  (List.range 16).foldl (fun a i =>
    if s.wd.mask.testBit i && !s.wd.checked.testBit i && !(wdExcused s).testBit i then a + 2 ^ i else a) 0

/-- The local time at which `n` quarters of the present period have run. -/
def wdQuarter (s : State) (n : Nat) : Nat := s.wd.start + s.wd.halted + s.wd.period * 250000 * n

/-- Expiry: freeze, the missing slots, the count, then full reset (R388). -/
def wdExpire (missing : Nat) (s : State) : State :=
  let t := freeze 1 0 0 s
  logicReset 2 .wdReset { t with wd := { t.wd with last := missing, resets := satSucc 65535 t.wd.resets } }

/-- A new period; check-ins of the evaluation cycle count in it (R385). -/
def wdRestart (late : Nat) (s : State) : State :=
  let t := { s with wd := { s.wd with checked := 0, start := s.time.now, halted := 0 } }
  forN 16 (fun i u => if late.testBit i then checkIn i u else u) t

/-- WATCHDOG_PERIOD_END (R385). -/
def execWatchdogPeriodEnd (late : BitVec 16) (s : State) : Host.Outcome State Fault Refusal :=
  if !wdRuns s then done s
  else
    let t := moveTo (wdQuarter s 4) s
    let m := wdMissing t
    done (if m = 0 then wdRestart late.toNat t else wdExpire m t)

/-- WD_WARN (R387). -/
def execWdWarn (s : State) : Host.Outcome State Fault Refusal :=
  if !wdRuns s then done s
  else
    let t := moveTo (wdQuarter s 3) s
    let m := wdMissing t
    done (if m = 0 then t else raiseBit rWdEvt 0 { t with wd := { t.wd with warn := m } })

/-- CHECK_IN (R383): the supervisor after the image choice, the flash writer as a status poll returns and while idle, the ring agent
without a loop. -/
def execCheckIn (slot : Fin 16) (s : State) : Host.Outcome State Fault Refusal :=
  let on := match slot.val with
    | 10 => logicUp s && s.ml.loop.isNone
    | 12 => logicUp s
    | 14 => takesBoundaries s || imageNone s
    | _ => false
  done (if on then checkIn slot.val s else s)

/-! Debug halt (R377, R391). -/

/-- The tick in which the device stands. -/
def presentTick (s : State) : Nat := tickOf (s.time.boundary.getD 0)

/-- The debugger as a source. -/
def debugOrigin : Origin := ⟨.debug, 0xFFFF⟩

/-- The engine halts: entry 0x41 with the present tick and a kind 5 record. DESIGN CHOICE (log 80): a full audit queue drops and
counts the record of a halt or resume, which takes effect. -/
def haltNow (s : State) : State :=
  let n := presentTick s
  let t := audit debugOrigin 5 0xFFFF 1 0 (n % 2 ^ 32) 0 0 (bbEvent 0x41 0 (n % 2 ^ 32) s)
  { t with clk := { t.clk with halt := some n, haltAt := t.time.now } }

/-- DEBUG_HALT: on an active member with a partner a handover comes first, or the halt is refused. -/
def execDebugHalt (s : State) : Host.Outcome State Fault Refusal :=
  if !logicUp s || s.clk.halt.isSome then done s
  else if s.pair.active && partnerPresent s then
    if hoAllowed s then done (hoRequest (updPair (fun p => { p with hoHalt := true }) s)) else done (pairEvent 11 s)
  else done (haltNow s)

/-- DEBUG_RESUME: the watchdog count goes on, in a period that a COMMIT began during the halt from its start; the halted ticks are gap ticks at the next boundary. -/
def execDebugResume (s : State) : Host.Outcome State Fault Refusal :=
  match s.clk.halt with
  | none => done s
  | some n =>
    let k := presentTick s
    let t := audit debugOrigin 5 0xFFFF 1 1 (n % 2 ^ 32) (k % 2 ^ 32) 0 (bbEvent 0x42 0 (k % 2 ^ 32) s)
    let t := { t with
      wd := { t.wd with halted := t.wd.halted + (t.time.now - max t.clk.haltAt t.wd.start) }
      clk := { t.clk with halt := none }
      img := { t.img with ready := if t.img.phase = 5 then t.time.now else t.img.ready } }
    let t := idleSlots t
    done (updPair (fun p => { p with join := true }) { t with eng := { t.eng with slot := 9 } })

/-! Clock monitor (R23, R403) and VBAT (R396). -/

/-- An ECC_EVT bit, raised while the logic die runs. -/
def eccEvent (i : Nat) (s : State) : State := if logicUp s then raiseBit rEccEvt i s else s

/-- XIN_LOST. -/
def execXinLost (s : State) : Host.Outcome State Fault Refusal :=
  done (if logicUp s then eccEvent 4 { s with clk := { s.clk with xinLost := true } } else s)

/-- PLL_UNLOCK. -/
def execPllUnlock (i : Fin 4) (s : State) : Host.Outcome State Fault Refusal :=
  done (if logicUp s && s.clk.lock.testBit i.val then
      eccEvent 5 { s with clk := { s.clk with lock := s.clk.lock - 2 ^ i.val } }
    else s)

/-- REF10_LOST: PLL2 holds its control value. -/
def execRef10Lost (s : State) : Host.Outcome State Fault Refusal :=
  done (if logicUp s && !s.clk.tclkXin then eccEvent 3 { s with clk := { s.clk with ref10Lost := true } } else s)

/-- RTC_STOP. -/
def execRtcStop (s : State) : Host.Outcome State Fault Refusal :=
  done (eccEvent 7 { s with clk := { s.clk with rtcStop := true } })

/-- CLOCK_CONDITION_CLEAR. -/
def execClockConditionClear (cond : ClockCond) (s : State) : Host.Outcome State Fault Refusal :=
  done { s with clk := match cond with
    | .xin => { s.clk with xinLost := false }
    | .ref10 => { s.clk with ref10Lost := false }
    | .rtc => { s.clk with rtcStop := false }
    | .pll i => { s.clk with lock := if logicUp s then s.clk.lock ||| 2 ^ i.val else s.clk.lock } }

/-- VBAT_LOW. -/
def execVbatLow (s : State) : Host.Outcome State Fault Refusal :=
  done (if logicUp s then eccEvent 6 { s with clk := { s.clk with vbatLow := true } } else s)

/-- VBAT_LOW_CLEAR. -/
def execVbatLowClear (s : State) : Host.Outcome State Fault Refusal :=
  done { s with clk := { s.clk with vbatLow := false } }

/-- VBAT_DROP: latched while VDDC is absent. -/
def execVbatDrop (s : State) : Host.Outcome State Fault Refusal :=
  done (if s.clk.vddcOff then { s with clk := { s.clk with vbatDropLatch := true } } else s)

/-! ECC (R398, R399). -/

/-- Number of a memory in ECC_FATAL_ADDR, and the hall. -/
def memNumber : MemId → Nat × Nat
  | .main => (0, 0)
  | .ret => (1, 0)
  | .prog => (2, 0)
  | .mirror => (3, 0)
  | .hall h => (4, h.val)

/-- A corrected error counted. -/
def eccCorrected (m : MemId) (s : State) : State :=
  let add (a hi lo top : Nat) (t : State) : State := modReg a (fun w => putBits w hi lo (satSucc top (bits w hi lo))) t
  let t := match m with
    | .main => add 0x2922 31 24 255 s
    | .ret => add 0x2922 23 16 255 s
    | .prog => add 0x2922 15 8 255 s
    | .mirror => add 0x2922 7 0 255 s
    | .hall h => add 0x2923 (4 * h.val + 3) (4 * h.val) 15 s
  raiseBit rEccEvt 0 t

/-- A hall with an uncorrectable word applies its safe states, and the logic die reloads it. -/
def eccHall (h : Nat) (s : State) : State :=
  let t := resolveAll h (updHall h (fun x => { x with ecc := true }) s)
  if logicUp t && (getHall t h).active && hallEn t h && (reloadOf t h).isNone && t.clk.straps ≠ 2
  then reloadBegin h false false t else t

/-- The idle half of program RAM loaded again for the swap that waits. -/
def reloadIdle (s : State) : State :=
  let lo := 8192 * (1 - s.mem.half)
  { s with mem := { s.mem with
      prog := mwrites 0 s.mem.prog (4 * lo) (newImg s).prog
      bad := s.mem.bad.filter fun e => !(e.1 = 2 && lo ≤ e.2 && e.2 < lo + 8192) } }

/-- An uncorrectable error: address, event, freeze with cause 5, and the rule of its memory. -/
def eccFatal (m : MemId) (word : Nat) (s : State) : State :=
  let n := memNumber m
  let t := eccFound n.1 n.2 word s
  match m with
  | .hall h => eccHall h.val t
  | _ =>
    let t := eccMark n.1 word t
    if n.1 = 2 && word / 8192 ≠ t.mem.half && t.img.swapOp.isSome then reloadIdle t else t

/-- SCRUB (R398): a word of a memory read. -/
def execScrub (mem : MemId) (word : Nat) (find : EccFind) (s : State) : Host.Outcome State Fault Refusal :=
  if !logicUp s then done s
  else match find with
    | .clean => done s
    | .single => done (eccCorrected mem s)
    | .double => done (eccFatal mem word s)

/-- PROGRAM_RAM_REWRITE (R399): the 1 KiB of the active half that holds an uncorrectable word, from the active image. -/
def execProgramRamRewrite (s : State) : Host.Outcome State Fault Refusal :=
  let lo := 8192 * s.mem.half
  match s.mem.bad.find? fun e => e.1 = 2 && lo ≤ e.2 && e.2 < lo + 8192 with
  | none => done s
  | some e =>
    if !takesBoundaries s then done s
    else
      let k := (e.2 - lo) / 256
      done { s with mem := { s.mem with
        prog := mwrites 0 s.mem.prog (4 * lo + 1024 * k) (padTo 1024 0 ((activeImg s).prog.drop (1024 * k)))
        bad := s.mem.bad.filter fun x => !(x.1 = 2 && lo + 256 * k ≤ x.2 && x.2 < lo + 256 * k + 256) } }

end Sys2Proof.Machine
end

