-- ==== Sys2Proof/Machine/Pair.lean ====
section
/-! DEFINITION. The redundant pair: heartbeats and their judgement, takeover, fencing, frames received into mirror RAM, and the
planned handover (R360 to R377). -/

namespace Sys2Proof.Machine

/-- The pair link receives: a device that takes part on it, the link up (R359). -/
def pairRx (s : State) : Bool := logicUp s && onPairLink s && s.pair.linkUp

/-- A frame that fails its CRC. -/
def pairBad (s : State) : State := updPair (fun p => { p with crcErr := satSucc 65535 p.crcErr }) s

/-- PAIR_LINK_UP (R359): the record rings fill anew (R369), and each device announces itself and answers for its totals. -/
def execPairLinkUp (s : State) : Host.Outcome State Fault Refusal :=
  done (if logicUp s && onPairLink s && !s.pair.linkUp then
      sendAnswer (sendStatus (updPair (fun p => { p with linkUp := true, recAt := [], recNext := [], recBase := [] }) s))
    else s)

/-! Heartbeats (R361, R362). -/

/-- HEARTBEAT's payload. -/
def heartbeatBytes (s : State) : List Byte :=
  let p := s.pair
  leBytes 1 (b2n p.active + 2 * b2n p.confirmed + 4 * b2n (pairReady s) + 8 * b2n s.clk.halt.isSome + 16 * b2n p.fenced
      + 32 * b2n s.clk.roleStrap)
    ++ leBytes 1 (p.hoStep.getD 0xFF) ++ leBytes 2 (pairId s) ++ leBytes 4 s.eng.doneTick

/-- PAIR_HEARTBEAT_TICK (R361, R362, R383): 10 µs after the last one; a level change of PAIR_ACT that comes 30 µs or more after
the one before leaves a gap. -/
def execPairHeartbeatTick (s : State) : Host.Outcome State Fault Refusal :=
  if !logicUp s || !pairEn s then done s
  else
    let t := moveTo (s.pair.tickAt + 10000) s
    let now := t.time.now
    let t := updPair (fun p => { p with
      tickAt := now, waiting := true
      act := p.active && !p.act
      gap := p.gap || (p.active && decide (p.actAt + 30000 ≤ now))
      actAt := if p.active then now else p.actAt }) t
    done (checkIn 11 (pairSend 1 0 (heartbeatBytes t) t))

/-! Generations (R293, R294, R372). -/

/-- The generation the partner announced that it runs. -/
def otherGenNow (s : State) : Option Nat :=
  match partnerStatus s with
  | some p => if p.none_ then none else some p.gen
  | none => none

/-- Kind 6, DETAIL 1: both devices run the present generation. -/
def bothRun (old : Nat) (s : State) : State :=
  raiseBit rImgEvt 3 (audit selfOrigin 6 0xFFFF 1 1 old s.img.gen 0 s)

/-- The generation of the slot that does not run. -/
def idleGen (s : State) : Nat :=
  let g (chip : Nat) : Nat := let v := s.img.gens.getD (2 * chip + idleSlot s) 0xFFFFFFFF
    if v = 0xFFFFFFFF then 0 else v
  max (g 0) (g 1)

/-- GEN_DIFF against the partner's announcement; a device restarted by its partner (cause 6) records its first agreement. -/
def genCheck (s : State) : State :=
  match otherGenNow s with
  | none => s
  | some g =>
    let t := updPair (fun p => { p with otherGen := g, genDiff := decide (g ≠ s.img.gen) }) s
    if g ≠ s.img.gen then (if s.pair.genDiff then t else raiseBit rImgEvt 8 t)
    else if s.pair.genDiff then bothRun s.pair.otherGen t
    else if s.pair.otherGen = 0 && s.clk.cause = 6 then bothRun (idleGen s) t
    else t

/-! Handover rolled back (R376). -/

/-- A standby that stops answering in steps 1 to 3: outputs and inputs stay with the active device, which reports it. -/
def hoRollBack (s : State) : State :=
  if hoOpen s then
    let t := jClose s.pair.hoOp 3 s
    let t := updPair (fun p => { p with hoStep := none, hoSwitch := none, hoHalt := false, hoRoll := false }) t
    if t.pair.active then pairEvent 10 (outputsActive (inputsActive t.time.now t.time.now t)) else t
  else s

/-- A standby whose partner's heartbeats say that it has closed the handover while still active (R361, R376): this one closes its
entry, and its shared channels go back to their standby form. DEDUCED (log 55). -/
def hoDropped (step : Nat) (otherActive : Bool) (s : State) : State :=
  if !s.pair.active && hoOpen s && otherActive && step = 0xFF then allStandby (hoRollBack s) else s

/-- The partner is lost to an active device (R364). -/
def partnerLost (s : State) : State :=
  let t := updPair (fun p => { p with away := true }) (hoRollBack s)
  if t.pair.single then t
  else pairEvent 2 (updPair (fun p => { p with single := true, partnerReady := false, joined := false }) t)

/-! Takeover (R365). -/

/-- The accumulators received last, where PAIR_LINK_DOWN held: totals resume there, and the ticks since are gap ticks. -/
def takeoverTotals (s : State) : State :=
  match totBlockNew s with
  | none => s
  | some b =>
    let t := takeTotals b.1 b.2 true s
    let t := forN 8 (fun m u => if runEn u m then
        raiseBit (rTotEvt m) 1 (updRun m (fun r => { r with marks := r.marks ||| 2 }) u) else u) t
    lostTicks (tickOf (nextBoundary t).1) (tickHeld b.1 t)

/-- The mirrored backlogs: their pulses are emitted from here. -/
def takeBacklogs (s : State) : State :=
  (mirrorOut s).runs.foldl (fun t o =>
    if o.run < 8 then
      setReg (aRun o.run 0x46) (BitVec.ofNat 32 o.backlog)
        (updRun o.run (fun r => { r with car := { r.car with backlog := o.backlog } }) t)
    else t) s

/-- A pulse of the failed device may be emitted again. -/
def pulseRisk (s : State) : Bool :=
  (List.range 8).any fun m => runEn s m && (roleCh s m 8).isSome && decide (0 < (getRun s m).car.backlog)

/-- The standby becomes active at D; results of shared inputs between D + 360 µs and D + 520 µs do not count (R375). -/
def takeover (s : State) : State :=
  let down := s.pair.linkDown
  let t := roleChange true (updPair (fun p => { p with single := true, partnerReady := false, joined := false }) (hoRollBack s))
  let op := jNext t
  let t := jClose op 2 (jStep op 3 (jOpen 7 (ringAddrOf t) (tickOf t.time.ring) t))
  let t := takeBacklogs (if down then takeoverTotals t else t)
  let d := t.time.now
  let t := inputsMixed (d + 360000) (d + 520000) t
  let t := pairEvent 1 (updPair (fun p => { p with tkAt := some d, linkDown := false }) t)
  if pulseRisk t then pairEvent 12 t else t

/-- The judgement after a heartbeat that was missed (R364); `actIn` that PAIR_ACT_IN toggles. -/
def judge (actIn : Bool) (s : State) : State :=
  if s.pair.missed < 3 then s
  else if !s.pair.confirmed then s
  else if s.pair.active then (if actIn then s else partnerLost s)
  else if actIn then
    (if s.pair.linkDown then s else pairEvent 7 (updPair (fun p => { p with linkDown := true, joined := false }) s))
  else if mayTakeOver s then takeover s
  else s

/-- HEARTBEAT_MISSED (R361, R364): 4 µs after the EOF of a frame of 22 characters. -/
def execHeartbeatMissed (actIn : Bool) (s : State) : Host.Outcome State Fault Refusal :=
  if !logicUp s || !pairEn s || !s.pair.waiting then done s
  else
    let t := moveTo (s.pair.tickAt + 4440) s
    let t := updPair (fun p => { p with
      waiting := false, missed := satSucc 65535 p.missed, missCnt := satSucc 65535 p.missCnt
      inToggling := actIn, actFault := p.actFault && !actIn }) t
    done (judge actIn t)

/-- TAKEOVER_INPUT_MODE (R365, R375): D + 460 µs. -/
def execTakeoverInputMode (s : State) : Host.Outcome State Fault Refusal :=
  match s.pair.tkAt with
  | some d => done (inputsActive (d + 360000) (d + 520000) (moveTo (d + 460000) s))
  | none => done s

/-- A shared output takes the newest value the device computed for it. -/
def giveValue (g v : Option Nat) (s : State) : State :=
  match g, v with
  | some c, some x => if isShared s (c / 4) (c % 4) then giveCommand c x s else s
  | _, _ => s

/-- Shared frequency and current outputs take the newest values the device computed. -/
def giveOutputs (s : State) : State :=
  forN 8 (fun m t =>
    if runEn t m then giveValue (roleCh t m 9) (getRun t m).iout (giveValue (roleCh t m 7) (getRun t m).fout t) else t) s

/-- Shared pulse outputs emit the mirrored backlog. -/
def giveBacklogs (s : State) : State :=
  forN 8 (fun m t => match roleCh t m 8 with
    | some g => if runEn t m && isShared t (g / 4) (g % 4) then takeBacklog (g / 4) (g % 4) m (getRun t m).car.backlog t else t
    | none => t) s

/-- TAKEOVER_OUTPUT_DRIVE (R365): D + 520 µs. -/
def execTakeoverOutputDrive (s : State) : Host.Outcome State Fault Refusal :=
  match s.pair.tkAt with
  | some d =>
    let t := updPair (fun p => { p with tkAt := none }) (moveTo (d + 520000) s)
    done (sendOutputs (giveBacklogs (outputsActive (giveOutputs t))))
  | none => done s

/-- PAIR_ACT_FAULT (R364). -/
def execPairActFault (s : State) : Host.Outcome State Fault Refusal :=
  done (if pairRx s && s.pair.confirmed && !s.pair.active && !s.pair.actFault then
      pairEvent 8 (updPair (fun p => { p with actFault := true, inToggling := false }) s)
    else s)

/-! Fencing (R364, R366). -/

/-- The device drops to standby, its shared outputs off, and rejoins by R363. -/
def fenceNow (s : State) : State :=
  let t := allStandby (roleChange false (hoRollBack s))
  pairEvent 5 (updPair (fun p => { p with confirmed := false, fenced := true, tkAt := none, joined := false }) t)

/-- FENCE: PAIR_ACT has not changed level for 30 µs, the partner present within the last second. -/
def execFence (s : State) : Host.Outcome State Fault Refusal :=
  if logicUp s && pairEn s && s.pair.active && s.pair.confirmed then
    let t := moveTo (s.pair.actAt + 30000) s
    match t.pair.partnerAt with
    | some a => done (if t.time.now ≤ a + 1000000000 then fenceNow t else t)
    | none => done t
  else done s

/-! Heartbeats received (R361, R363, R364). -/

/-- The tick field lags this device's own tick number by more than 2, modulo 2^32. -/
def lags (s : State) (tick : Nat) : Bool :=
  let d := (presentTick s % 2 ^ 32 + 2 ^ 32 - tick) % 2 ^ 32
  decide (2 < d) && decide (d < 2 ^ 31)

/-- The tick of which `tick` gives bits [31:0], nearest to the present one. -/
def nearTick (s : State) (tick : Nat) : Nat :=
  let n := tickOf s.time.ring
  let d := (tick + 2 ^ 32 - n % 2 ^ 32) % 2 ^ 32
  if d < 2 ^ 31 then n + d else n - (2 ^ 32 - d)

/-- A standby that shares no ring with the active takes ring time from its heartbeats by the method of R343 (R363): an offset
above 1 µs steps ring time, another one steers it. -/
def heartbeatTime (f : PairFrame) (s : State) : State :=
  if s.pair.active || !s.pair.confirmed || s.ml.loop.isSome || !(leAt f.payload 0 1).testBit 0 then s
  else
    let off := f.seen.offset
    let large := decide (1000 < off.natAbs)
    let t := takeOffset large ((s.time.ring : Int) + off).toNat off s
    if large then mlEvent 7 t else t

/-- The partner answered and confirmed its role: PARTNER_JOIN_EVT once, PAIR_SINGLE clears (R378, R380). -/
def partnerJoin (confirmed lag : Bool) (s : State) : State :=
  if confirmed && !lag then
    (if s.pair.joined then s else pairEvent 3 (updPair (fun p => { p with joined := true, single := false }) s))
  else updPair (fun p => { p with joined := p.joined && confirmed }) s

/-- Both devices active (R364): the one whose own PAIR_ACT had a gap fences; with no gap on either, the one whose strap is low. -/
def mustFence (otherActive otherGap : Bool) (s : State) : Bool :=
  s.pair.active && s.pair.confirmed && otherActive && (s.pair.gap || (!otherGap && !s.clk.roleStrap))

/-- What a heartbeat with this device's PAIR_ID tells. A lagging one counts as missed on an active device (R361). -/
def takeHeartbeat (f : PairFrame) (s : State) : State :=
  let s := heartbeatTime f s
  let b := f.payload
  let flags := BitVec.ofNat 32 (leAt b 0 1)
  let lag := s.pair.active && lags s (leAt b 4 4)
  let t := updPair (fun p => { p with
    partnerAt := some s.time.now, partnerReady := bit flags 2, idMismatch := false
    inToggling := f.seen.actIn, actFault := p.actFault && !f.seen.actIn
    lagged := if lag then satSucc 65535 p.lagged else 0
    missed := if lag then satSucc 65535 p.missed else p.missed
    missCnt := if lag then satSucc 65535 p.missCnt else p.missCnt }) s
  let t := genCheck (partnerJoin (bit flags 1) lag t)
  let t := hoDropped (leAt b 1 1) (bit flags 0) t
  if mustFence (bit flags 0) f.seen.actGap t then fenceNow t
  else if lag then judge f.seen.actIn t else t

/-- PAIR_HEARTBEAT (R361): answered with an ACK; a partner of another pair is treated as absent (R363). A device without an
image has no PAIR_ID and answers only (R372). -/
def execPairHeartbeat (f : PairFrame) (s : State) : Host.Outcome State Fault Refusal :=
  if !pairRx s then done s
  else if !f.good then done (pairBad s)
  else if !f.seen.fits then done (crossingFull 7 s)
  else
    let t := pairSend 2 0 (leBytes 4 f.seq) s
    done (if imageNone s then t
      else if leAt f.payload 2 2 = pairId s then takeHeartbeat f t
      else updPair (fun p => { p with idMismatch := true, joined := false, partnerReady := false }) t)

/-- One exchange of the link delay measured; the sixteenth gives the average (R336, R363). -/
def addDelay (d : Nat) (p : PairSt) : PairSt :=
  if p.delayCnt + 1 < 16 then { p with delaySum := p.delaySum + d, delayCnt := p.delayCnt + 1 }
  else { p with delay := some ((p.delaySum + d) / 16), delaySum := 0, delayCnt := 0 }

/-- ACK (R361): the heartbeat it names was received in time; one that comes later, and one of another pair, counts for nothing.
A partner whose heartbeats lag goes on counting as missed. -/
def execAck (f : PairFrame) (s : State) : Host.Outcome State Fault Refusal :=
  if !pairRx s then done s
  else if !f.good then done (pairBad s)
  else if !f.seen.fits then done (crossingFull 7 s)
  else if leAt f.payload 0 1 ≠ pairSeq s 1 || !s.pair.waiting || s.pair.idMismatch then done s
  else
    done (updPair (fun p => addDelay (f.seen.roundTrip / 2) { p with
      waiting := false, missed := if p.lagged = 0 then 0 else p.missed, linkDown := false
      partnerAt := some s.time.now }) s)

/-! Frames into mirror RAM (R360, R367, R368). -/

/-- Bytes written to mirror RAM; a word written whole carries good check bits again (R398). -/
def writeMirror (a : Nat) (bs : List Byte) (s : State) : State :=
  { s with mem := { s.mem with
      mirror := mwrites 0 s.mem.mirror a bs
      bad := s.mem.bad.filter fun e => !(e.1 = 3 && a ≤ 4 * e.2 && 4 * e.2 < a + bs.length) } }

/-- The payload goes to MADDR through port B; a collision of two writes leaves it, with WCOLL and the word's offset. -/
def mirrorFrame (f : PairFrame) (collide : Collision) (s : State) : State :=
  let a := f.maddr % 65536
  let t := writeMirror a (f.payload.take (65536 - a)) s
  match collide with
  | some w => if 4 * w.val < f.payload.length then pairEvent 6 (updPair (fun p => { p with wcoll := (a + 4 * w.val) % 65536 }) t) else t
  | none => t

/-- A frame of types 3 to 7 received. -/
def pairReceive (f : PairFrame) (use : State → State) (s : State) : Host.Outcome State Fault Refusal :=
  if !pairRx s then done s
  else if !f.good then done (pairBad s)
  else if !f.seen.fits then done (crossingFull 7 s)
  else done (use s)

/-- RECORD (R367). -/
def execRecord (f : PairFrame) (collide : Collision) (s : State) : Host.Outcome State Fault Refusal :=
  pairReceive f (fun t => noteRecords (f.maddr % 65536) f.payload.length (mirrorFrame f collide t)) s

/-- TICKSET (R367, R369). -/
def execTickset (f : PairFrame) (collide : Collision) (s : State) : Host.Outcome State Fault Refusal :=
  pairReceive f (mirrorFrame f collide) s

/-- The totals of tick h have arrived on the new active of a handover: step 3 (R376). -/
def hoTotals (s : State) : State :=
  match s.pair.hoSwitch with
  | some b =>
    if !s.pair.active && s.pair.hoStep = some 2 && (totBlockAt s (tickOf b - 1)).isSome then
      updPair (fun p => { p with hoStep := some 3 }) s
    else s
  | none => s

/-- TOTALS (R367). -/
def execTotals (f : PairFrame) (collide : Collision) (s : State) : Host.Outcome State Fault Refusal :=
  pairReceive f (fun t => hoTotals (mirrorFrame f collide t)) s

/-- The carried-state area is complete: the frame ends the block of run 7. -/
def carriedComplete (f : PairFrame) (s : State) : Bool :=
  decide (0xE400 ≤ f.maddr) && decide (0xE400 + 12 + leNat (mreads 0 s.mem.mirror 0xE408 4) ≤ f.maddr + f.payload.length)

/-- STATE (R370): the active answers a request; a standby that asked takes the state at the next boundary. -/
def execState (x : StoredFrame) (s : State) : Host.Outcome State Fault Refusal :=
  let f := x.frame
  pairReceive f (fun t =>
    if f.payload.isEmpty then (if t.pair.active then sendCarried t else t)
    else
      let u := mirrorFrame f x.collide t
      updPair (fun p => { p with stateHere := p.stateHere || (p.stateAsked && carriedComplete f u) }) u) s

/-! Forwarded writes (R371). -/

/-- The partner as a source. -/
def pairOrigin : Origin := ⟨.pair, 0xFFFF⟩

/-- A forwarded write on a standby; one it refuses sets CFG_DIVERGE. -/
def configWrite (a : Nat) (mask value : Word) (s : State) : State :=
  let r := writeReg pairOrigin a mask value none s
  match r.2 with
  | some _ => cfgDiverged r.1
  | none => r.1

/-- The standby tells how many staged words it holds (log 20). -/
def tellStaged (s : State) : State :=
  pairSend 7 0xF000 (cfgItem 0xFFFF 3 0 (BitVec.ofNat 32 s.stg.entries.length)) s

/-- The staged words of a standby wait for the boundary of the tick whose number ends in `v`. -/
def configCommit (v : Nat) (s : State) : State :=
  if s.stg.entries.isEmpty then s
  else
    let op := jNext s
    updStg (fun g => { g with phase := .waiting, op := op, tick := some (nearTick s v) }) (jOpen 5 s.stg.entries.length 0 s)

/-- One item of a CONFIG payload by its kind (log 20): on a standby a write, a staged word, the boundary at which the staged words
apply, or the beginning of another COMMIT's words; on the active the standby's count of staged words. -/
def configItem (b : List Byte) (s : State) : State :=
  let a := leAt b 0 2
  let v := leAt b 8 4
  match s.pair.active, leAt b 2 2 with
  | false, 0 => configWrite a (BitVec.ofNat 32 (leAt b 4 4)) (BitVec.ofNat 32 v) s
  | false, 1 => tellStaged (configWrite a (BitVec.ofNat 32 (leAt b 4 4)) (BitVec.ofNat 32 v) s)
  | false, 2 => configCommit v s
  | false, 4 => stgAbandon s
  | true, 3 => updStg (fun g => { g with delivered := g.phase == .checking && v = g.entries.length }) s
  | _, _ => s

/-- The items of a payload. -/
def configItems (b : List Byte) (s : State) : State :=
  forN (b.length / 12) (fun i t => configItem ((b.drop (12 * i)).take 12) t) s

/-- CONFIG (R289, R371): the forwarding area's frames act; the partner's status block is only kept. -/
def execConfig (x : StoredFrame) (s : State) : Host.Outcome State Fault Refusal :=
  let f := x.frame
  pairReceive f (fun t =>
    let u := mirrorFrame f x.collide t
    if f.maddr < 0xFC00 then configItems f.payload u else u) s

/-! Planned handover (R376, R377). -/

/-- READY sent on a request: step 1 on the standby, and the switch boundary. -/
def hoAccept (s : State) : State :=
  if !s.pair.active && pairReady s && !hoOpen s then
    let op := jNext s
    let t := jStep op 1 (jStep op 0 (jOpen 7 (ringAddrOf s) (tickOf s.time.ring) s))
    hoSend .ready (updPair (fun p => { p with hoStep := some 1, hoOp := op, hoSwitch := some (boundaryIn2ms s) }) t)
  else s

/-- READY received: step 1 on the active. -/
def hoReady (s : State) : State :=
  if s.pair.active && s.pair.hoStep = some 0 then
    jStep s.pair.hoOp 1 (updPair (fun p => { p with hoStep := some 1, hoSwitch := some (boundaryIn2ms s) }) s)
  else s

/-- The old active's pulse output of a channel is idle: this one emits from the adopted backlog. -/
def pulseStart (g : Nat) (s : State) : State :=
  if s.pair.active then
    let t := report (g / 4) (outputActive (g / 4) (g % 4) s)
    match (List.range 8).find? fun m => runEn t m && roleCh t m 8 == some g with
    | some m => sendBacklog g m t
    | none => t
  else s

/-- HANDOVER_MESSAGE (R376, R293, R372): it stands in mirror RAM behind the partner's status as received (R367). -/
def execHandoverMessage (f : PairFrame) (m : HoMsg) (s : State) : Host.Outcome State Fault Refusal :=
  pairReceive f (fun t =>
    let t := writeMirror 0xFFC0 (hoBytes m) t
    match m with
    | .request => hoAccept t
    | .ready => hoReady t
    | .pulseIdle ch => pulseStart ch.val t
    | .restart => if t.pair.active then t else restart 6 t) s

/-- The switch boundary and step of an open handover past step 0. -/
def hoRunning (s : State) : Option Nat :=
  match s.pair.hoStep with
  | some k => if 1 ≤ k then s.pair.hoSwitch else none
  | none => none

/-- A channel is a run's pulse output. -/
def isPulseOut (s : State) (g : Nat) : Bool := (List.range 8).any fun m => runEn s m && roleCh s m 8 == some g

/-- Every shared output of the modes `sel` names, mapped. -/
def forShared (sel : State → Nat → Nat → Bool) (f : Nat → Nat → State → State) (s : State) : State :=
  forHalls (fun h t => if (getHall t h).up then
      report h (forChans (fun c u => if isShared u h c && isOutMode (modeOf u h c) && sel u h c then f h c u else u) t)
    else t) s

/-- An output idle: off at once, or a current output ramped to 0 mA over 200 µs. -/
def outputIdle (h c : Nat) (s : State) : State :=
  let t := updChan h c (fun x => { x with idleOut := true }) s
  if modeOf t h c = 15 && outRank t h c = 3 then startRamp h c 0 3 t else resolve h c t

/-- HANDOVER_RAMP_START: −250 µs. The old active ramps its current outputs to 0 mA and stops its frequency outputs; the new one
takes its commands and drives its outputs, pulse outputs apart, and its shared inputs. Results of shared inputs in the 50 µs from
here do not count on either (R375). -/
def execHandoverRampStart (s : State) : Host.Outcome State Fault Refusal :=
  match hoRunning s with
  | none => done s
  | some b =>
    let a := localOf s b - 250000
    let e := localOf s b - 200000
    let t := moveTo a s
    let t := jStep t.pair.hoOp 2 (updPair (fun p => { p with hoStep := some 2 }) t)
    done (if t.pair.active then
        inputsMixed a e
          (forShared (fun u h c => modeOf u h c = 15 || (modeOf u h c = 16 && !isPulseOut u (4 * h + c))) outputIdle t)
      else inputsActive a e (forShared (fun u h c => !isPulseOut u (4 * h + c)) outputActive (takeCommands t)))

/-- HANDOVER_INPUT_RELEASE: −200 µs. -/
def execHandoverInputRelease (s : State) : Host.Outcome State Fault Refusal :=
  match hoRunning s with
  | none => done s
  | some b =>
    let t := moveTo (localOf s b - 200000) s
    done (if t.pair.active then inputsStandby (localOf s b - 250000) (localOf s b - 200000) t else t)

/-- HANDOVER_OUTPUT_OFF: −150 µs. -/
def execHandoverOutputOff (s : State) : Host.Outcome State Fault Refusal :=
  match hoRunning s with
  | none => done s
  | some b =>
    let t := moveTo (localOf s b - 150000) s
    done (if t.pair.active then forShared (fun u h c => modeOf u h c = 13) outputIdle t else t)

/-- The handover is complete: step 3, HANDOVER_DONE_EVT. -/
def hoComplete (s : State) : State :=
  let op := s.pair.hoOp
  pairEvent 9 (jClose op 2 (jStep op 3 (updPair (fun p => { p with
    hoStep := none, hoSwitch := none, hoHalt := false, hoRoll := false }) s)))

/-- The old active: standby from here, its last own tick not computed again; its pulse outputs are reported idle; a halt or a
restart that waited follows. -/
def hoLeave (s : State) : State :=
  let halt := s.pair.hoHalt
  let roll := s.pair.hoRoll
  let t := updPair (fun p => { p with
    idleDue := (List.range 32).filter fun g => isPulseOut s g && isShared s (g / 4) (g % 4) }) (roleChange false s)
  let t := idleReports (hoComplete (allStandby t))
  let t := tickHeld t.eng.doneTick (updPair (fun p => { p with join := false }) t)
  if roll then restart 6 t else if halt then haltNow t else t

/-- The new active: the accumulators, carried state, pulse state and output values of tick `h` without audit. -/
def hoEnter (h : Nat) (s : State) : State :=
  let t := roleChange true (lateRuns s)
  let t := match totBlockAt t h with
    | some a => tickHeld h (updPair (fun p => { p with join := false }) (takeTotals h a true t))
    | none => t
  let t := takeOutputs (takeCarried (takeCommands t))
  hoComplete (sendOutputs (updPair (fun p => { p with stateAsked := false, stateHere := false, joined := true }) t))

/-- The boundary of the switch's instant was taken before it. -/
def switchTaken (b : Nat) (s : State) : Bool := s.time.boundary = some b && s.eng.running

/-- The old active's slots of the tick that begins at the switch stay idle (R376). -/
def switchIdle (b : Nat) (s : State) : State := if switchTaken b s then idleSlots s else s

/-- The tick that begins at the switch is the new active's to latch (R376). -/
def switchLatch (b : Nat) (s : State) : State := if switchTaken b s then activeLatch s else s

/-- HANDOVER_SWITCH (R376): at the switch boundary. -/
def execHandoverSwitch (s : State) : Host.Outcome State Fault Refusal :=
  match hoRunning s with
  | none => done s
  | some b =>
    let t := moveTo (localOf s b) s
    done (if t.pair.active then hoLeave (switchIdle b t) else switchLatch b (hoEnter (tickOf b - 1) t))

/-! IMAGE_COPY_TO_STANDBY (R372). -/

/-- One write of the active image's copy to the standby. -/
def sendImageWord (bs : List Byte) (i : Nat) (s : State) : State :=
  forward 0x2D0C 0 allBits (BitVec.ofNat 32 (leAt bs (4 * i) 4)) s

/-- IMAGE_COPY_TO_STANDBY: to a partner that announces IMAGE_NONE or a lower generation, the active image forwarded as OPEN, data
and CLOSE, then the order to restart. -/
def execImageCopyToStandby (s : State) : Host.Outcome State Fault Refusal :=
  match partnerStatus s with
  | none => done s
  | some p =>
    if pairEn s && s.pair.active && s.pair.linkUp && s.img.phase = 0 && (p.none_ || decide (p.gen < s.img.gen)) then
      let bs := copyBytes s (2 * s.img.chip + s.img.slot)
      let t := forward 0x2D0A 0 allBits 1 s
      let t := forN ((bs.length + 3) / 4) (sendImageWord bs) t
      done (hoSend .restart (forward 0x2D0A 0 allBits 2 t))
    else done s

end Sys2Proof.Machine
end

