-- ==== Sys2Proof/Machine/Dispatch.lean ====
section
/-! DEFINITION. What each command does to everything but the queue: one arm per command of spec/opcode_table.json. -/

namespace Sys2Proof.Machine

def exec (i : Instr) (s : State) : Host.Outcome State Fault Refusal :=
  match i with
  | .read mode3 wext addr n underrun changed => Sys2Proof.Machine.execRead mode3 wext addr n underrun changed s
  | .write mode3 wext addr units => Sys2Proof.Machine.execWrite mode3 wext addr units s
  | .readFixed mode3 wext addr n underrun changed => Sys2Proof.Machine.execReadFixed mode3 wext addr n underrun changed s
  | .writeFixed mode3 wext addr units => Sys2Proof.Machine.execWriteFixed mode3 wext addr units s
  | .nop mode3 => Sys2Proof.Machine.execNop mode3 s
  | .reservedOp mode3 op => Sys2Proof.Machine.execReservedOp mode3 op s
  | .streamRead mode3 stream nbytes => Sys2Proof.Machine.execStreamRead mode3 stream nbytes s
  | .streamPeek mode3 stream nbytes => Sys2Proof.Machine.execStreamPeek mode3 stream nbytes s
  | .reservedStreamOp mode3 sop stream => Sys2Proof.Machine.execReservedStreamOp mode3 sop stream s
  | .selConflict => Sys2Proof.Machine.execSelConflict s
  | .short mode3 f => Sys2Proof.Machine.execShort mode3 f s
  | .frameEndsInStatusByte mode3 => Sys2Proof.Machine.execFrameEndsInStatusByte mode3 s
  | .registerWrite o addr mask value => Sys2Proof.Machine.execRegisterWrite o addr mask value s
  | .commit o => Sys2Proof.Machine.execCommit o s
  | .commitCheckDone => Sys2Proof.Machine.execCommitCheckDone s
  | .commitDone => Sys2Proof.Machine.execCommitDone s
  | .abandon o => Sys2Proof.Machine.execAbandon o s
  | .seek o hi => Sys2Proof.Machine.execSeek o hi s
  | .seekOldest o => Sys2Proof.Machine.execSeekOldest o s
  | .seekNewest o => Sys2Proof.Machine.execSeekNewest o s
  | .streamBufferFilled => Sys2Proof.Machine.execStreamBufferFilled s
  | .auditRelease o hi => Sys2Proof.Machine.execAuditRelease o hi s
  | .auditSectorErased => Sys2Proof.Machine.execAuditSectorErased s
  | .auditRecordFlashWrite ok0 ok1 => Sys2Proof.Machine.execAuditRecordFlashWrite ok0 ok1 s
  | .openImage o => Sys2Proof.Machine.execOpenImage o s
  | .imageData o value => Sys2Proof.Machine.execImageData o value s
  | .imgWoffWrite o value => Sys2Proof.Machine.execImgWoffWrite o value s
  | .close o => Sys2Proof.Machine.execClose o s
  | .imageVerifyDone => Sys2Proof.Machine.execImageVerifyDone s
  | .activate o => Sys2Proof.Machine.execActivate o s
  | .abort o => Sys2Proof.Machine.execAbort o s
  | .reload o h => Sys2Proof.Machine.execReload o h s
  | .roll o => Sys2Proof.Machine.execRoll o s
  | .rollAbandon => Sys2Proof.Machine.execRollAbandon s
  | .rollStandbyCountDone => Sys2Proof.Machine.execRollStandbyCountDone s
  | .hallSectionConfirmed ok => Sys2Proof.Machine.execHallSectionConfirmed ok s
  | .reloadOutputsReleased => Sys2Proof.Machine.execReloadOutputsReleased s
  | .switchBoundary => Sys2Proof.Machine.execSwitchBoundary s
  | .imageCopyCheck => Sys2Proof.Machine.execImageCopyCheck s
  | .resetNLow => Sys2Proof.Machine.execResetNLow s
  | .resetNRelease straps pins => Sys2Proof.Machine.execResetNRelease straps pins s
  | .logicSupplyFailure vddc => Sys2Proof.Machine.execLogicSupplyFailure vddc s
  | .thermalTrip => Sys2Proof.Machine.execThermalTrip s
  | .pllLock f => Sys2Proof.Machine.execPllLock f s
  | .imageChoice => Sys2Proof.Machine.execImageChoice s
  | .totalsReconcile partner => Sys2Proof.Machine.execTotalsReconcile partner s
  | .roleSettle ans actIn => Sys2Proof.Machine.execRoleSettle ans actIn s
  | .firstValidRunTick => Sys2Proof.Machine.execFirstValidRunTick s
  | .spareCheckin => Sys2Proof.Machine.execSpareCheckin s
  | .watchdogPeriodEnd late => Sys2Proof.Machine.execWatchdogPeriodEnd late s
  | .watchdogResetRelease => Sys2Proof.Machine.execWatchdogResetRelease s
  | .wdWarn => Sys2Proof.Machine.execWdWarn s
  | .debugHalt => Sys2Proof.Machine.execDebugHalt s
  | .debugResume => Sys2Proof.Machine.execDebugResume s
  | .debugReset => Sys2Proof.Machine.execDebugReset s
  | .xinLost => Sys2Proof.Machine.execXinLost s
  | .pllUnlock idx => Sys2Proof.Machine.execPllUnlock idx s
  | .ref10Lost => Sys2Proof.Machine.execRef10Lost s
  | .rtcStop => Sys2Proof.Machine.execRtcStop s
  | .clockConditionClear cond => Sys2Proof.Machine.execClockConditionClear cond s
  | .vbatLow => Sys2Proof.Machine.execVbatLow s
  | .vbatDrop => Sys2Proof.Machine.execVbatDrop s
  | .scrub mem word find => Sys2Proof.Machine.execScrub mem word find s
  | .programRamRewrite => Sys2Proof.Machine.execProgramRamRewrite s
  | .hallHeartbeatSend => Sys2Proof.Machine.execHallHeartbeatSend s
  | .heartbeat h good seq => Sys2Proof.Machine.execHeartbeat h good seq s
  | .hbLoss h => Sys2Proof.Machine.execHbLoss h s
  | .statusFrame h m => Sys2Proof.Machine.execStatusFrame h m s
  | .hallDown h => Sys2Proof.Machine.execHallDown h s
  | .underVoltageReset h => Sys2Proof.Machine.execUnderVoltageReset h s
  | .hallUvrExit h => Sys2Proof.Machine.execHallUvrExit h s
  | .hallAnnounce h => Sys2Proof.Machine.execHallAnnounce h s
  | .sag1 h => Sys2Proof.Machine.execSag1 h s
  | .sag2 h => Sys2Proof.Machine.execSag2 h s
  | .sag3 h => Sys2Proof.Machine.execSag3 h s
  | .sag1Clear h => Sys2Proof.Machine.execSag1Clear h s
  | .sag2Clear h => Sys2Proof.Machine.execSag2Clear h s
  | .recovering h above => Sys2Proof.Machine.execRecovering h above s
  | .recoveryEnd h => Sys2Proof.Machine.execRecoveryEnd h s
  | .restoreSwitchOn h => Sys2Proof.Machine.execRestoreSwitchOn h s
  | .dieTempMeasure h deciC => Sys2Proof.Machine.execDieTempMeasure h deciC s
  | .hallOvertempEnd h => Sys2Proof.Machine.execHallOvertempEnd h s
  | .lpOverDecl h on => Sys2Proof.Machine.execLpOverDecl h on s
  | .stateEvt h ch level => Sys2Proof.Machine.execStateEvt h ch level s
  | .wireBreakMeasure h ch idx => Sys2Proof.Machine.execWireBreakMeasure h ch idx s
  | .pulseEdge h ch rising phaseNs => Sys2Proof.Machine.execPulseEdge h ch rising phaseNs s
  | .freqHighClear h ch => Sys2Proof.Machine.execFreqHighClear h ch s
  | .pulseDelivery h ch x => Sys2Proof.Machine.execPulseDelivery h ch x s
  | .outputCommand h ch value => Sys2Proof.Machine.execOutputCommand h ch value s
  | .modeChangeApply h ch => Sys2Proof.Machine.execModeChangeApply h ch s
  | .overload h x => Sys2Proof.Machine.execOverload h x s
  | .extDrive h x => Sys2Proof.Machine.execExtDrive h x s
  | .reverseCurrent h ch => Sys2Proof.Machine.execReverseCurrent h ch s
  | .readback h ch => Sys2Proof.Machine.execReadback h ch s
  | .loopShort h ch => Sys2Proof.Machine.execLoopShort h ch s
  | .burdenOver h ch => Sys2Proof.Machine.execBurdenOver h ch s
  | .retry h ch again => Sys2Proof.Machine.execRetry h ch again s
  | .retryClear h ch => Sys2Proof.Machine.execRetryClear h ch s
  | .hallAck o h acks present => Sys2Proof.Machine.execHallAck o h acks present s
  | .forceSafe o h => Sys2Proof.Machine.execForceSafe o h s
  | .forceSafeRelease o h => Sys2Proof.Machine.execForceSafeRelease o h s
  | .currentMonitorSample h ch iMeas vFrc vLp => Sys2Proof.Machine.execCurrentMonitorSample h ch iMeas vFrc vLp s
  | .extOvercurrentReclose h ch again => Sys2Proof.Machine.execExtOvercurrentReclose h ch again s
  | .extOvercurrentClear h ch => Sys2Proof.Machine.execExtOvercurrentClear h ch s
  | .vexcLimit h on => Sys2Proof.Machine.execVexcLimit h on s
  | .vexcSenseOpen h on => Sys2Proof.Machine.execVexcSenseOpen h on s
  | .force o h => Sys2Proof.Machine.execForce o h s
  | .stepBoundary n => Sys2Proof.Machine.execStepBoundary n s
  | .tcOpen n high => Sys2Proof.Machine.execTcOpen n high s
  | .settlingEnd n => Sys2Proof.Machine.execSettlingEnd n s
  | .resultComplete n x => Sys2Proof.Machine.execResultComplete n x s
  | .resultDmaWrite n fits => Sys2Proof.Machine.execResultDmaWrite n fits s
  | .injGo o n => Sys2Proof.Machine.execInjGo o n s
  | .injectedSequenceStart n => Sys2Proof.Machine.execInjectedSequenceStart n s
  | .blankAssert h input => Sys2Proof.Machine.execBlankAssert h input s
  | .blankRelease h input => Sys2Proof.Machine.execBlankRelease h input s
  | .blankStuck h input => Sys2Proof.Machine.execBlankStuck h input s
  | .warmUpEnd h => Sys2Proof.Machine.execWarmUpEnd h s
  | .syncIn => Sys2Proof.Machine.execSyncIn s
  | .syncNow o => Sys2Proof.Machine.execSyncNow o s
  | .syncExecute => Sys2Proof.Machine.execSyncExecute s
  | .syncOutEnd => Sys2Proof.Machine.execSyncOutEnd s
  | .rotationDue h => Sys2Proof.Machine.execRotationDue h s
  | .rotNow o h => Sys2Proof.Machine.execRotNow o h s
  | .unretireK0 o h => Sys2Proof.Machine.execUnretireK0 o h s
  | .unretireK1 o h => Sys2Proof.Machine.execUnretireK1 o h s
  | .overdue h => Sys2Proof.Machine.execOverdue h s
  | .tickBoundary => Sys2Proof.Machine.execTickBoundary s
  | .runSlot m cycles trap => Sys2Proof.Machine.execRunSlot m cycles trap s
  | .slotOverrun m => Sys2Proof.Machine.execSlotOverrun m s
  | .balanceWaitExpiry b => Sys2Proof.Machine.execBalanceWaitExpiry b s
  | .pulseEmitted h ch => Sys2Proof.Machine.execPulseEmitted h ch s
  | .flashOperationComplete chip ok => Sys2Proof.Machine.execFlashOperationComplete chip ok s
  | .chipRetry chip ok => Sys2Proof.Machine.execChipRetry chip ok s
  | .freezeNow o => Sys2Proof.Machine.execFreezeNow o s
  | .dumpDone ok0 ok1 => Sys2Proof.Machine.execDumpDone ok0 ok1 s
  | .release o => Sys2Proof.Machine.execRelease o s
  | .portUp p => Sys2Proof.Machine.execPortUp p s
  | .linkFault p => Sys2Proof.Machine.execLinkFault p s
  | .transmitterSilenceEnd p => Sys2Proof.Machine.execTransmitterSilenceEnd p s
  | .nullFrame p => Sys2Proof.Machine.execNullFrame p s
  | .cycleFrame p f => Sys2Proof.Machine.execCycleFrame p f s
  | .data p f => Sys2Proof.Machine.execData p f s
  | .form p f => Sys2Proof.Machine.execForm p f s
  | .formDone p f => Sys2Proof.Machine.execFormDone p f s
  | .echo p f => Sys2Proof.Machine.execEcho p f s
  | .echoReply p f roundTrip => Sys2Proof.Machine.execEchoReply p f roundTrip s
  | .echoRefresh => Sys2Proof.Machine.execEchoRefresh s
  | .reform o => Sys2Proof.Machine.execReform o s
  | .formationRetry => Sys2Proof.Machine.execFormationRetry s
  | .loopAdopt => Sys2Proof.Machine.execLoopAdopt s
  | .cycleBoundary => Sys2Proof.Machine.execCycleBoundary s
  | .dataAppend => Sys2Proof.Machine.execDataAppend s
  | .headTakeover => Sys2Proof.Machine.execHeadTakeover s
  | .noHead => Sys2Proof.Machine.execNoHead s
  | .subLost e => Sys2Proof.Machine.execSubLost e s
  | .injectExecute => Sys2Proof.Machine.execInjectExecute s
  | .acyTimeout => Sys2Proof.Machine.execAcyTimeout s
  | .mailboxRead o count => Sys2Proof.Machine.execMailboxRead o count s
  | .mailboxWrite o count => Sys2Proof.Machine.execMailboxWrite o count s
  | .syncCommandSend o bcast dst => Sys2Proof.Machine.execSyncCommandSend o bcast dst s
  | .injectCommandSend o bcast dst => Sys2Proof.Machine.execInjectCommandSend o bcast dst s
  | .ppsIn => Sys2Proof.Machine.execPpsIn s
  | .ppsLost => Sys2Proof.Machine.execPpsLost s
  | .timeSet o => Sys2Proof.Machine.execTimeSet o s
  | .utcSet o => Sys2Proof.Machine.execUtcSet o s
  | .utcClear o => Sys2Proof.Machine.execUtcClear o s
  | .pairHeartbeatTick => Sys2Proof.Machine.execPairHeartbeatTick s
  | .pairHeartbeat f => Sys2Proof.Machine.execPairHeartbeat f s
  | .ack f => Sys2Proof.Machine.execAck f s
  | .heartbeatMissed actIn => Sys2Proof.Machine.execHeartbeatMissed actIn s
  | .takeoverInputMode => Sys2Proof.Machine.execTakeoverInputMode s
  | .takeoverOutputDrive => Sys2Proof.Machine.execTakeoverOutputDrive s
  | .pairActFault => Sys2Proof.Machine.execPairActFault s
  | .fence => Sys2Proof.Machine.execFence s
  | .record f collide => Sys2Proof.Machine.execRecord f collide s
  | .tickset f collide => Sys2Proof.Machine.execTickset f collide s
  | .totals f collide => Sys2Proof.Machine.execTotals f collide s
  | .state f => Sys2Proof.Machine.execState f s
  | .config f => Sys2Proof.Machine.execConfig f s
  | .handover o => Sys2Proof.Machine.execHandover o s
  | .handoverMessage f m => Sys2Proof.Machine.execHandoverMessage f m s
  | .handoverRampStart => Sys2Proof.Machine.execHandoverRampStart s
  | .handoverInputRelease => Sys2Proof.Machine.execHandoverInputRelease s
  | .handoverOutputOff => Sys2Proof.Machine.execHandoverOutputOff s
  | .handoverSwitch => Sys2Proof.Machine.execHandoverSwitch s
  | .imageCopyToStandby => Sys2Proof.Machine.execImageCopyToStandby s
  | .gridLock => Sys2Proof.Machine.execGridLock s
  | .characterLockLost l => Sys2Proof.Machine.execCharacterLockLost l s
  | .pairLinkUp => Sys2Proof.Machine.execPairLinkUp s
  | .vbatLowClear => Sys2Proof.Machine.execVbatLowClear s
  | .checkIn slot => Sys2Proof.Machine.execCheckIn slot s
  | .rampEnd h ch => Sys2Proof.Machine.execRampEnd h ch s

end Sys2Proof.Machine
end

