-- ==== Sys2Proof/Safety.lean ====
section
/-! DEFINITION. The terms the statements are made in: what a command leaves unchanged, and the invariant of the block. -/

namespace Sys2Proof.Machine

/-- The parts of the state, one per field. -/
inductive Part where
  /-- Local time, ring time and the RTC. -/
  | time
  /-- Register words. -/
  | regs
  /-- Snapshot latches. -/
  | latch
  /-- Frame state of the host port. -/
  | hp
  /-- The staging shadow. -/
  | stg
  /-- Stream positions and buffer. -/
  | str
  /-- Hall states. -/
  | halls
  /-- Channel states. -/
  | chans
  /-- Converter states. -/
  | convs
  /-- Synchronisation. -/
  | sync
  /-- Newest records. -/
  | newest
  /-- Records written at the present instant, and those before them. -/
  | older
  /-- Modes before the last committed change. -/
  | modes
  /-- Custom curve tables. -/
  | curves
  /-- The run engine. -/
  | eng
  /-- Meter runs. -/
  | runs
  /-- Open periods. -/
  | per
  /-- Balance entries. -/
  | bal
  /-- Audit trail. -/
  | aud
  /-- Gallery. -/
  | gal
  /-- Black box. -/
  | bb
  /-- Journal. -/
  | jnl
  /-- Image operations. -/
  | img
  /-- Flash. -/
  | nv
  /-- Byte memories. -/
  | mem
  /-- Watchdog. -/
  | wd
  /-- Clocks, supplies, start sequence. -/
  | clk
  /-- Miethlink. -/
  | ml
  /-- Pair agent. -/
  | pair
  /-- Pins. -/
  | pins
  /-- Frames handed to the transmitters. -/
  | tx
  /-- Counter of free values. -/
  | free
  /-- Waiting commands. -/
  | pending
deriving DecidableEq, Repr

/-- A part reads the same in both states. -/
def Part.same : Part → State → State → Prop
  | .time, s, t => t.time = s.time
  | .regs, s, t => t.regs = s.regs
  | .latch, s, t => t.latch = s.latch
  | .hp, s, t => t.hp = s.hp
  | .stg, s, t => t.stg = s.stg
  | .str, s, t => t.str = s.str
  | .halls, s, t => t.halls = s.halls
  | .chans, s, t => t.chans = s.chans
  | .convs, s, t => t.convs = s.convs
  | .sync, s, t => t.sync = s.sync
  | .newest, s, t => t.newest = s.newest
  | .older, s, t => t.older = s.older
  | .modes, s, t => t.modes = s.modes
  | .curves, s, t => t.curves = s.curves
  | .eng, s, t => t.eng = s.eng
  | .runs, s, t => t.runs = s.runs
  | .per, s, t => t.per = s.per
  | .bal, s, t => t.bal = s.bal
  | .aud, s, t => t.aud = s.aud
  | .gal, s, t => t.gal = s.gal
  | .bb, s, t => t.bb = s.bb
  | .jnl, s, t => t.jnl = s.jnl
  | .img, s, t => t.img = s.img
  | .nv, s, t => t.nv = s.nv
  | .mem, s, t => t.mem = s.mem
  | .wd, s, t => t.wd = s.wd
  | .clk, s, t => t.clk = s.clk
  | .ml, s, t => t.ml = s.ml
  | .pair, s, t => t.pair = s.pair
  | .pins, s, t => t.pins = s.pins
  | .tx, s, t => t.tx = s.tx
  | .free, s, t => t.free = s.free
  | .pending, s, t => t.pending = s.pending

/-- Every part outside `ps` is the same in `t` as in `s`. -/
def changesOnly (ps : List Part) (s t : State) : Prop := ∀ p, p ∉ ps → p.same s t

/-- The pins of a settled state: SYNC_OUT and the scan register as given, the other pins as the state calls for them (R411, R438). -/
def pinned (out : Bool) (scan : List Bool) (t : State) : Prop := t.pins = { pinLevels t with syncOut := out, scan := scan }

/-- The frame of a command: every part outside `ps` is the same, and of the pins at most those move that follow the rest of the
state, FAULT_N among them (R411, R438). -/
def framed (ps : List Part) (s t : State) : Prop := changesOnly (.pins :: ps) s t ∧ pinned s.pins.syncOut s.pins.scan t

/-- Every register outside `P` reads the same in `t` as in `s`. -/
def regsOutside (P : Nat → Prop) (s t : State) : Prop := ∀ a, ¬ P a → getReg t a = getReg s a

/-- Every hall outside `P` is the same in `t` as in `s`. -/
def hallsOutside (P : Nat → Prop) (s t : State) : Prop := ∀ h, ¬ P h → getHall t h = getHall s h

/-- Every channel outside `P` is the same in `t` as in `s`. -/
def chansOutside (P : Nat → Nat → Prop) (s t : State) : Prop :=
  ∀ h c, c < 4 → ¬ P h c → getChan t h c = getChan s h c

/-- Every converter outside `P` is the same in `t` as in `s`. -/
def convsOutside (P : Nat → Prop) (s t : State) : Prop := ∀ n, ¬ P n → getConv t n = getConv s n

/-- The registers of the logic die that hall `h`'s report writes (R25, R32): its status, event, window and measurement words,
and the counter of black-box entries missed while frozen (R257). -/
def hallRegs (h a : Nat) : Prop :=
  a = rBbMissed ∨ a = aHall h 0x03 ∨ a = rHallEvt h ∨ a = aHall h 0x07 ∨ a = aHall h 0x43 ∨ a = aHall h 0x6D ∨
  a = rExcEvt h ∨ a = rRotEvt h ∨ a = aRot h 0x15 ∨ (∃ w, w < 4 ∧ a = aConv (2 * h) (0x3B + 4 * w)) ∨
  ∃ c, c < 4 ∧ (a = aCh h c 0x20 ∨ a = aCh h c 0x24 ∨ a = aCh h c 0x58 ∨ a = aCh h c 0x5C ∨ a = aCh h c 0x60 ∨
    a = aHall h (0x28 + 4 * c) ∨ a = aHall h (0x29 + 4 * c) ∨ a = aHall h (0x2A + 4 * c) ∨ a = aHall h (0x2B + 4 * c) ∨
    a = aRot h (0x18 + 2 * c) ∨ a = aRot h (0x19 + 2 * c))

/-- What holds after every step: the pins that follow the rest of the state carry what it calls for, FAULT_N the fault summary
(R411, R438), and the black-box event ring holds at most its 2,048 entries (R254). -/
def Inv (s : State) : Prop := s.pins = pinLevels s ∧ s.bb.events.length ≤ 2048

/-- Memory holds the same bytes from `s` to `t`, and no word is newly bad: what was written to retention RAM has good check bits (R398,
R399). -/
def mended (s t : State) : Prop := t.mem = { s.mem with bad := t.mem.bad } ∧ ∀ e ∈ t.mem.bad, e ∈ s.mem.bad

/-- The frame of a command that writes an audit record or a journal entry beside what `ps` holds. -/
def framedRet (ps : List Part) (s t : State) : Prop := framed (.mem :: ps) s t ∧ mended s t

/-- One frame of `typ` went to the partner at `maddr` (R360): with the next SEQ of its type, where the pair link is up; else nothing
was sent. -/
def pairSent (typ maddr : Nat) (bs : List Byte) (s t : State) : Prop :=
  if onPairLink s && s.pair.linkUp && logicUp s then
    t.tx = s.tx ++ [⟨3, pairFrame typ ((pairSeq s typ + 1) % 256) maddr bs, true⟩] ∧
      t.pair = { s.pair with seqs := tset (fun _ => 0) s.pair.seqs typ ((pairSeq s typ + 1) % 256) }
  else t.tx = s.tx ∧ t.pair = s.pair

/-- A write by `o` of the bits `v` under `mask` to register `a` went to the standby in a CONFIG frame of its address, mask and value
where the rules forward it: from the active device, unless it came from the partner or `a` is one of those kept here (R371). -/
def forwarded (o : Origin) (a : Nat) (mask v : Word) (s t : State) : Prop :=
  if o.src ≠ .pair ∧ notForwarded a = false ∧ s.pair.active = true then
    pairSent 7 0xF000 (leBytes 2 a ++ leBytes 2 0 ++ leBytes 4 mask.toNat ++ leBytes 4 v.toNat) s t
  else t.tx = s.tx ∧ t.pair = s.pair

/-- What a class A or B write needs whatever its register: the image applied, a working flash chip, room for its audit record,
and from the host, the ring or the debug port a trail that is not full and ROLE 1 (R315 reasons 1, 2, 3, 8, 10). -/
def accepts (o : Origin) (s : State) : Prop :=
  s.clk.die = .applied ∧ audRoom s 1 = true ∧ nvLost s = false ∧
    (o.src = .pair ∨ o.src = .internal ∨ (audFull s = false ∧ role s = true))

/-- The audit record of a class B write of value `new` to the register at `a` by `o`, with the value `old` before (R239,
R240). -/
def auditRec (o : Origin) (kind a detail old new : Nat) (s : State) : AudRec :=
  { seq := s.aud.next, src := o.src, kind := kind, time := s.time.ring, op := 0,
    writer := if o.src = .ring then o.writer % 65536 else 0xFFFF, addr := a, width := 1, detail := detail,
    old := old, new := new }

/-- What a class B write of the bits `v` to register `a` needs whatever its register: the image applied, a working flash chip,
room for its audit record, and from the host, the ring or the debug port a trail that is not full and ROLE 1; where no image
is applied or ROLE is 0, the registers that R315 still accepts (reasons 1, 2, 3, 8, 10). -/
def acceptsAct (o : Origin) (a : Nat) (v : Word) (s : State) : Prop :=
  logicUp s = true ∧ (s.clk.die = .applied ∨ noneAccepts s a = true) ∧ audRoom s 1 = true ∧ nvLost s = false ∧
    (o.src = .pair ∨ o.src = .internal ∨
      (audFull s = false ∧ (role s = true ∨ standbyAccepts a v = true ∨ noneAccepts s a = true)))

/-- From `s` to `t` one action write was audited: one record of kind 0 with the written bits, and one more write for R282. -/
def audited (o : Origin) (a : Nat) (v : Word) (s t : State) : Prop :=
  t.aud = { s.aud with queue := s.aud.queue ++ [auditRec o 0 a 0 0 v.toNat s], next := (s.aud.next + 1) % 2 ^ 48
                       writes := s.aud.writes + 1 }

/-- Journal slot `i`. -/
def journal (s : State) (i : Nat) : JEntry := getJ s i

/-- The journal entry of an operation of type `typ` opened now: STATE open, no step finished (R260). -/
def opened (typ target detail : Nat) (s : State) : JEntry :=
  { op := s.jnl.next, typ := typ, st := 1, steps := 0, time := s.time.ring, target := target, detail := detail }

/-- From `s` to `t` the entry `e` took the next of the 16 journal slots whose entry is not open and the other entries stand (R260). -/
def journaled (e : JEntry) (s t : State) : Prop := ∀ i, journal t i = if i = jSlot s then e else journal s i

/-- The journal's copy and the region directory in flash (R236, log 54). -/
def bookArea (b : Nat) : Prop := 0x00200000 ≤ b ∧ b < 0x00240000

/-- Every flash byte outside `P` reads the same on both chips. -/
def flashOutside (P : Nat → Prop) (s t : State) : Prop :=
  ∀ i < 2, ∀ b, ¬ P b → mread blankByte (nvChip t i).mem b = mread blankByte (nvChip s i).mem b

/-- No frame buffer of port `q` holds a word with an uncorrectable error (R399). -/
def bufferSound (s : State) (q : Nat) : Prop :=
  ∀ e ∈ s.mem.bad, ¬ (e.1 = 0 ∧ 0x18000 ≤ e.2 ∧ e.2 < 0x1A000 ∧ Config.frameWord q e.2 = true)

/-- From `s` to `t` one frame was handed to its Miethlink port: as it stands, or ended with EOFB, with ECC_FATAL_EVT, where its
buffer holds an uncorrectable error (R333, R399). -/
def handed (f : TxFrame) (s t : State) : Prop :=
  (bufferSound s f.line → t.tx = s.tx ++ [f]) ∧
    (¬ bufferSound s f.line → t.tx = s.tx ++ [{ f with good := false }] ∧ bit (getReg t rEccEvt) 1 = true)

/-- The frame of a command that sends: beside `ps` the frames sent, and what an uncorrectable error in a frame buffer leaves. -/
def sentOnly (ps : List Part) (s t : State) : Prop :=
  framed (.regs :: .bb :: .mem :: .tx :: ps) s t ∧ t.mem = { s.mem with bad := t.mem.bad } ∧
    ((∀ q < 3, bufferSound s q) → framed (.tx :: ps) s t)

/-- One bad frame at port `p` was counted: ML_CNT_CRC and ML_EVT (R333). -/
def countedBad (p : Nat) (s t : State) : Prop :=
  bits (getReg t 0x2A15) (10 * p + 9) (10 * p) = satSucc 1023 (bits (getReg s 0x2A15) (10 * p + 9) (10 * p)) ∧
    bit (getReg t rMlEvt) 12 = true

/-- A crossing of row `row` of R400 found its queue full: CDC_LAST and CDC_OVF_EVT (R401). -/
def queueFull (row : Nat) (t : State) : Prop := bits (getReg t 0x2930) 31 28 = row ∧ bit (getReg t rEccEvt) 2 = true

/-- A frame at port `p` that the node does not take: one of a TYPE that R332 does not list counts as a CRC error; a good one at an
enabled port without character lock shows that lock (R328); nothing else. -/
def notTaken (form : Bool) (p : Nat) (f : MlFrame) (s t : State) : Prop :=
  (logicUp s = true → usable s form p = true → countedBad p s t ∧
    regsOutside (fun a => a = 0x2A15 ∨ a = rMlEvt ∨ a = rBbMissed) s t ∧ framed [.regs, .bb] s t) ∧
  (logicUp s = true → usable s form p = false → portEn s p = true → (getPort s p).st = 1 → f.good = true →
    getPort t p = { getPort s p with st := 2 } ∧ (∀ q, q ≠ p → getPort t q = getPort s q) ∧ framed [.ml] s t) ∧
  (logicUp s = false ∨ (usable s form p = false ∧ ¬ (portEn s p = true ∧ (getPort s p).st = 1 ∧ f.good = true)) →
    framed [] s t)

/-- Ring time was steered toward the offset `off`: part of it was taken, at most 50 ppm of the time since the last one (R343,
R345). -/
def steered (off : Int) (s t : State) : Prop :=
  t.ml.timeAt = some s.time.now ∧ ∃ k : Int, (0 ≤ k ∧ k ≤ off ∨ off ≤ k ∧ k ≤ 0) ∧
    k.natAbs ≤ (match s.ml.timeAt with
      | some a => (s.time.now - a) * 50 / 1000000
      | none => 0) ∧
    t.time = { s.time with ring := ((s.time.ring : Int) + k).toNat % 2 ^ 64 }

/-- Of the flash at most the journal's copy and the directory are written: no record's write starts or ends, and the chips work
as before. -/
def booksOnly (s t : State) : Prop :=
  flashOutside bookArea s t ∧ t.nv.jobs = s.nv.jobs ∧ t.nv.mhz = s.nv.mhz ∧
    ∀ i < 2, chipOk (nvChip t i) = chipOk (nvChip s i)

/-- The logic die is in reset with a cause: every register reads its reset word, host port, staging, streams, synchronisation,
engine, image, Miethlink and pair agents and pins are at their reset values, the halls' flights are stopped; flash, audit
trail, gallery records, journal and straps stand (R296, R416). -/
def inReset (cause : Nat) (die : DieSt) (s t : State) : Prop :=
  t.regs = [] ∧ t.latch = [] ∧ t.hp = State.reset.hp ∧ t.stg = State.reset.stg ∧ t.str = State.reset.str ∧
    t.sync = { State.reset.sync with level := s.sync.level } ∧ t.newest = [] ∧ t.older = [] ∧ t.modes = [] ∧ t.curves = [] ∧ t.eng = engReset ∧ t.bal = [] ∧ t.img = imgReset ∧
    t.ml = mlReset ∧ t.pair = { pairReset with actAt := s.time.now } ∧ t.pins = State.reset.pins ∧ t.tx = [] ∧
    t.clk.die = die ∧ t.clk.cause = cause ∧ t.clk.straps = s.clk.straps ∧ t.clk.halt = none ∧ t.time.now = s.time.now ∧
    t.nv.c0.mem = s.nv.c0.mem ∧ t.nv.c1.mem = s.nv.c1.mem ∧ t.mem.ret = s.mem.ret ∧ t.aud.queue = s.aud.queue ∧
    t.aud.index = s.aud.index ∧ t.aud.next = s.aud.next ∧ t.gal.rings = s.gal.rings ∧ t.gal.cap = s.gal.cap ∧
    t.jnl.ring = s.jnl.ring ∧ t.per = s.per ∧ ∀ h < 8, (getHall t h).running = false ∧ (getHall t h).linked = false

/-- The frame of a command of hall `h` alone: no other hall and no channel of another hall changes. -/
def hallApart (h : Nat) (s t : State) : Prop := hallsOutside (· = h) s t ∧ chansOutside (fun a _ => a = h) s t

/-- Of the open periods at most the verification states noted for each hall have changed (R172). -/
def onlyVstates (s t : State) : Prop :=
  { t.per with kinds := t.per.kinds.map fun (k : PerKind) => { k with vst := [] } } =
    { s.per with kinds := s.per.kinds.map fun (k : PerKind) => { k with vst := [] } }

/-- The frame of a report of hall `h`: registers of the hall's report, the hall, its channels, the verification states noted for
the open periods, and the black box. -/
def hallOnly (h : Nat) (s t : State) : Prop :=
  framed [.regs, .halls, .chans, .per, .bb] s t ∧ regsOutside (hallRegs h) s t ∧ hallApart h s t ∧ onlyVstates s t

/-- The frame of a report of hall `h` whose shared inputs may change their form: the hall's converters besides (R373, R375). -/
def hallForms (h : Nat) (s t : State) : Prop :=
  framed [.regs, .halls, .chans, .convs, .per, .bb] s t ∧ regsOutside (hallRegs h) s t ∧ hallApart h s t ∧ onlyVstates s t ∧
    convsOutside (fun n => n / 2 = h) s t

/-- Bit `i` of HALL_EVT is set, or kept by the hall for its next status frame (R25). -/
def hallRaised (h i : Nat) (t : State) : Prop :=
  bit (getHall t h).evt i = true ∨ bit (getReg t (rHallEvt h)) i = true

/-- Bit `i` of a channel's CH_EVT is set, or kept by the hall for its next status frame. -/
def chanRaised (h c i : Nat) (t : State) : Prop :=
  bit (getChan t h c).evt i = true ∨ bit (getReg t (aCh h c 0x24)) i = true

/-- Hall `h` runs no rotation and none is enabled: each converter runs its own flight (R114). -/
def noRotation (s : State) (h : Nat) : Prop :=
  rotEn s h = false ∧ (getHall s h).rot.phase = 0 ∧ (getHall s h).rot.onK1 = false ∧ (getHall s h).rot.swap = false ∧
    (getHall s h).rot.back = false

/-- Converter `n`, running a flight, when blanking ends at the instant `t16` (R125): a step whose window had opened restarts and its
result is discarded, one that waited opens its window and one still settling goes on, but for a step in continuous mode, which
restarts from its settling delay. -/
def unblanked (n t16 : Nat) (s t : State) : Prop :=
  let x := getConv s n
  let y := getConv t n
  let cont := saCont (nowA s n)
  x.role = .flight → x.inj = false →
    (x.phase = .blanked → y.phase = .boundary ∧ y.at16 = t16 ∧ y.disc = (x.disc + 1) % 65536) ∧
    (x.phase = .waiting → cont = false → y.phase = .window ∧ y.open16 = t16 ∧ y.disc = x.disc) ∧
    (x.phase = .settling → cont = false → y.phase = .settling ∧ y.at16 = x.at16 ∧ y.disc = x.disc) ∧
    (x.phase = .waiting ∨ x.phase = .settling → cont = true →
      y.phase = .boundary ∧ y.at16 = t16 ∧ y.disc = x.disc)

/-- Class A registers: those a COMMIT or an image gives (R6). -/
def classA (a : Nat) : Prop := ∃ d, regDesc a = some d ∧ d.cls = .a

/-- The commands that may give class A registers values: COMMIT_DONE, those that load an image or a section, the resets, and
the writes that may carry RELOAD or ACTIVATE (R6, R286, R290, R296). -/
def configures : Instr → Bool
  | .commitDone | .switchBoundary | .imageChoice | .firstValidRunTick => true
  | .reload _ _ | .activate _ | .hallAnnounce _ | .hallSectionConfirmed _ | .reloadOutputsReleased | .scrub .. => true
  | .resetNLow | .logicSupplyFailure _ | .thermalTrip | .watchdogPeriodEnd _ | .debugReset => true
  | .handoverMessage _ _ | .handoverSwitch => true
  | .write .. | .writeFixed .. | .short .. | .registerWrite .. | .config _ | .data _ _ => true
  | _ => false

/-- MODE of the frame that a command is, where it is a frame that counts (R301, R302, R321). -/
def frameMode : Instr → Option Bool
  | .read m _ _ _ _ _ => some m
  | .write m _ _ _ => some m
  | .readFixed m _ _ _ _ _ => some m
  | .writeFixed m _ _ _ => some m
  | .nop m => some m
  | .reservedOp m _ => some m
  | .streamRead m _ _ => some m
  | .streamPeek m _ _ => some m
  | .reservedStreamOp m _ _ => some m
  | .short m _ => some m
  | _ => none

/-- Both flash chips in canonical form. -/
def Canon.flash (n : NvSt) : Bool := Table.wf (fun _ => blankByte) n.c0.mem && Table.wf (fun _ => blankByte) n.c1.mem

/-- The RAMs in canonical form. -/
def Canon.rams (m : MemSt) : Bool :=
  Table.wf (fun _ => 0) m.main && Table.wf (fun _ => 0) m.mirror && Table.wf (fun _ => 0) m.ret &&
    Table.wf (fun _ => 0) m.prog

/-- The canonical form: in the registers, the halls, the channels, the converters, the RAMs and the flash, addresses or
numbers rise strictly and no entry equals what an unlisted one reads as. -/
structure Canon (s : State) : Prop where
  regs : Table.wf resetWord s.regs = true
  halls : Table.wf (fun _ => hallReset) s.halls = true
  chans : Table.wf (fun _ => chanReset) s.chans = true
  convs : Table.wf (fun _ => convReset) s.convs = true
  nv : Canon.flash s.nv = true
  mem : Canon.rams s.mem = true

end Sys2Proof.Machine
end

