-- ==== Sys2Proof/Certificates/Slice0/Obligations.lean ====
section
/-! DEFINITION. The statements about the model. -/

open Sys2Proof Sys2Proof.Machine

/-- A step is the front command, whole and indivisible, on the state with the rest of the queue (95_what_each_step_holds.md). -/
def Obligations.StepRunsFrontCommand : Prop :=
  ∀ (c : Instr) (cs : List Instr) (s : State),
    step { s with pending := c :: cs } = exec c { s with pending := cs }

/-- On an empty queue one TCLK cycle passes (the model's choice, log 1): the clocks run on (R22, R24) and nothing else changes. -/
def Obligations.IdleStepPassesOneCycle : Prop :=
  ∀ s : State, Inv s → s.pending = [] →
    ∃ t, step s = .next t ∧ t.time.now = s.time.now + 10 ∧ t.time.ring = (s.time.ring + 10) % 2 ^ 64 ∧
      t.time.rtc = (if s.clk.rtcStop then s.time.rtc else s.time.rtc + 10) ∧
      t.time.pairNow = s.time.pairNow ∧ t.time.pairRing = s.time.pairRing ∧ t.time.boundary = s.time.boundary ∧
      t.time.adj = s.time.adj ∧ framed [.time] s t

/-- No command is refused and none faults: each answers a next state, whose queue is the one it had, whose FAULT_N follows the fault summary (R438), whose event ring has at most 2,048 entries (R254) and whose local time is not earlier. -/
def Obligations.EveryCommandAnswersNextState : Prop :=
  ∀ (i : Instr) (s : State),
    ∃ t, exec i s = .next t ∧ t.pending = s.pending ∧ Inv t ∧ s.time.now ≤ t.time.now

/-- The invariant and the canonical form pass through every step, from every state that has them; local time never runs back. -/
def Obligations.StepKeepsCanonicalForm : Prop :=
  ∀ s t : State, Inv s → Canon s → step s = .next t → Inv t ∧ Canon t ∧ s.time.now ≤ t.time.now

/-- The state at power-on meets what every step keeps. -/
def Obligations.ResetHasInvariants : Prop :=
  Inv State.reset ∧ Canon State.reset

/-- R436: what the identity and device status block reads after a logic-die reset. -/
def Obligations.ResetReadsIdentityAndStatus : Prop :=
  liveWord State.reset 0x0000 = 0x08320003 ∧ liveWord State.reset 0x0001 = 0x00000000 ∧
    liveWord State.reset 0x0002 = 0x20000000 ∧ liveWord State.reset 0x0003 = 0x00000000 ∧
    liveWord State.reset 0x0004 = 0x00000000 ∧ State.reset.pins.faultN = false

/-- R308, R309: every counted frame delivers the status byte and alternates TOGGLE; before PLL0 locks a frame is ignored. -/
def Obligations.CountedFrameDeliversStatus : Prop :=
  State.reset.hp.toggle = false ∧
  ∀ (c : Instr) (m : Bool) (s : State), frameMode c = some m →
    (logicUp s = true → ∃ t, exec c s = .next t ∧ t.hp.driven = true ∧ t.hp.status = statusByte s ∧
      t.hp.status.getLsbD 0 = s.hp.toggle ∧ t.hp.mode3 = m ∧ t.hp.toggle = !s.hp.toggle) ∧
    (logicUp s = false → Inv s → ∃ t, exec c s = .next t ∧ t.hp = { s.hp with driven := false } ∧ framed [.hp] s t)

/-- R300, R301, R302, R303, R321: the frames without an access. -/
def Obligations.NopAndReservedFrames : Prop :=
  ∀ s : State, Inv s → logicUp s = true →
    (∀ m, ∃ t, exec (.nop m) s = .next t ∧ getReg t rHpFrames = getReg s rHpFrames + 1 ∧
      t.hp.reject = false ∧ t.hp.short = false ∧ t.hp.changed = false ∧ t.hp.addrEnd = false ∧ t.hp.units = [] ∧
      framed [.hp, .regs] s t ∧ regsOutside (· = rHpFrames) s t) ∧
    (∀ c, (∃ m op, c = Instr.reservedOp m op) ∨
        (∃ m sop st, c = Instr.reservedStreamOp m sop st ∧ (2 ≤ sop.val ∨ 24 ≤ st.val)) →
      ∃ t, exec c s = .next t ∧ t.hp.reject = true ∧ getReg t rHpRej = 0x0900FFFF ∧
        bit (getReg t rHpEvt) 1 = true ∧ framed [.hp, .regs, .bb] s t ∧
        regsOutside (fun a => a = rHpFrames ∨ a = rHpRej ∨ a = rHpEvt ∨ a = rBbMissed) s t) ∧
    (∃ t, exec .selConflict s = .next t ∧ bit (getReg t rHpEvt) 2 = true ∧ framed [.regs, .bb] s t ∧
      regsOutside (fun a => a = rHpEvt ∨ a = rBbMissed) s t) ∧
    (∀ m, ∃ t, exec (.frameEndsInStatusByte m) s = .next t ∧ framed [] s t)

/-- R302, R303, R312, R313: what a read frame delivers and what it leaves alone. R304: an underrun is reported and its bits are free (log 9). -/
def Obligations.ReadFramesDeliverWords : Prop :=
  (∀ (fixed m : Bool) (wext : Fin 32) (addr : Addr) (n : Nat) (s : State), Inv s → logicUp s = true → 3 ≤ wext.val →
      ∃ t, exec (if fixed then .readFixed m wext addr n [] false else .read m wext addr n [] false) s = .next t ∧
        (let v (i : Nat) : Word × State :=
           (List.range (i + 1)).foldl (fun p k => readWord 0 (unitAddr fixed addr.toNat k) p.2) (0, beginFrame m s)
         t.hp.units = (List.range n).map fun i => BitVec.ofNat 32 ((v i).1.toNat % 2 ^ (wext.val + 1))) ∧
        (t.hp.addrEnd = true ↔ ∃ i, i < n ∧ 0x5FFF < unitAddr fixed addr.toNat i) ∧
        t.hp.changed = false ∧ t.hp.short = false ∧ t.hp.reject = false ∧
        t.hp.echo = some (BitVec.ofNat 8 (64 * b2n fixed + wext.val)) ∧
        getReg t rHpFrames = getReg s rHpFrames + 1 ∧
        framed [.hp, .regs, .latch] s t ∧ regsOutside (· = rHpFrames) s t) ∧
  ∀ (m : Bool) (wext : Fin 32) (addr : Addr) (s : State), Inv s → logicUp s = true → 3 ≤ wext.val → wext.val < 5 →
    ∃ t, exec (.read m wext addr 2 [1] false) s = .next t ∧ bit (getReg t rHpEvt) 3 = true ∧
      t.hp.units = [BitVec.ofNat 32 ((readWord 0 addr.toNat (beginFrame m s)).1.toNat % 2 ^ (wext.val + 1)),
        BitVec.ofNat 32 ((Config.freeWord s.free).toNat % 2 ^ (wext.val + 1))] ∧ t.free = s.free + 1 ∧
      framed [.hp, .regs, .latch, .free, .bb] s t ∧
      regsOutside (fun a => a = rHpFrames ∨ a = rHpEvt ∨ a = rBbMissed) s t

/-- R302, R303, R305, R307, R313: the units of a write frame act in turn, each as a masked write at its address. -/
def Obligations.WriteFrameWritesUnitsInTurn : Prop :=
  ∀ (fixed m : Bool) (wext : Fin 32) (addr : Addr) (us : List Word) (v : Word) (n : Fin 32) (s : State),
    logicUp s = true → 3 ≤ wext.val →
    (exec (if fixed then .writeFixed m wext addr [] else .write m wext addr []) s = .next (settle (beginFrame m s))) ∧
    ∃ u, exec (if fixed then .writeFixed m wext addr us else .write m wext addr us) s = .next (settle u) ∧
      (let a := unitAddr fixed addr.toNat us.length
       let wr (k : Nat) : State := pastEnd a (cmdWrite ⟨.host, 0xFFFF⟩ a (BitVec.ofNat 32 (2 ^ k - 1)) v none u)
       exec (if fixed then .writeFixed m wext addr (us ++ [v]) else .write m wext addr (us ++ [v])) s =
           .next (settle (wr (wext.val + 1))) ∧
         (0 < n.val → n.val < wext.val + 1 →
           ∃ t, exec (.short m (.write fixed wext addr us v n)) s = .next t ∧ t.hp.short = true ∧
             t = settle { wr n.val with hp := { (wr n.val).hp with short := true } }))

/-- R307: the frames whose partial unit has no effect. -/
def Obligations.ShortFramesWithoutAccess : Prop :=
  ∀ (fixed m : Bool) (wext : Fin 32) (addr : Addr) (n : Nat) (un : List Nat) (ch : Bool) (s : State),
    Inv s → logicUp s = true →
    (∃ t, exec (.short m .header) s = .next t ∧ t.hp.short = true ∧ t.hp.units = [] ∧
      getReg t rHpFrames = getReg s rHpFrames + 1 ∧ framed [.hp, .regs] s t ∧ regsOutside (· = rHpFrames) s t) ∧
    (∃ t u, exec (.short m (.read fixed wext addr n un ch)) s = .next t ∧
      exec (if fixed then .readFixed m wext addr n un ch else .read m wext addr n un ch) s = .next u ∧
      t = { u with hp := { u.hp with short := true } })

/-- R6, R305, R316: class A goes to the shadow. -/
def Obligations.ClassAWriteIsStaged : Prop :=
  ∀ (o : Origin) (addr : Addr) (mask v : Word) (d : RegDesc) (s : State), Inv s →
    regDesc addr.toNat = some d → d.cls = .a → (d.rw ||| d.w1c ||| d.wo) &&& mask ≠ 0 → accepts o s → s.stg.phase = .idle →
    (stagedAt s addr.toNat ≠ none ∨ s.stg.entries.length < 64) →
    (let a := addr.toNat
     let w := clampValue (modeAt s a) a (merge (d.rw &&& mask) (baseWord s a) v)
     homeBad s a w (v &&& mask &&& d.wo) = none →
     ∃ t, exec (.registerWrite o addr mask v) s = .next t ∧ stagedAt t a = some ⟨a, w, o.src, o.writer⟩ ∧
       (∀ b, b ≠ a → stagedAt t b = stagedAt s b) ∧ t.stg.phase = .idle ∧ t.stg.result = s.stg.result ∧
       t.stg.refAddr = s.stg.refAddr ∧ t.stg.op = s.stg.op ∧ framed [.stg, .regs, .bb] s t ∧
       regsOutside (fun b => b = rHpEvt ∨ b = rHpClamp ∨ b = rBbMissed) s t)

/-- R6, R239, R240, R371: class B acts at once, is audited and forwarded. -/
def Obligations.ClassBWriteActsAtOnce : Prop :=
  ∀ (o : Origin) (addr : Addr) (mask v : Word) (d : RegDesc) (s : State), Inv s →
    regDesc addr.toNat = some d → d.cls = .b → d.rw ≠ 0 → (d.rw ||| d.w1c ||| d.wo) &&& mask ≠ 0 → accepts o s →
    (let a := addr.toNat
     let w := clampValue (modeAt s a) a (merge (d.rw &&& mask) (baseWord s a) v)
     homeBad s a w (v &&& mask &&& d.wo) = none →
     ∃ t, exec (.registerWrite o addr mask v) s = .next t ∧ getReg t a = w ∧
       t.aud = { s.aud with
         queue := s.aud.queue ++ [auditRec o 0 a 0 (liveWord s a).toNat w.toNat s]
         next := (s.aud.next + 1) % 2 ^ 48, writes := s.aud.writes + 1 } ∧
       forwarded o a mask v s t ∧ mended s t ∧
       (hallAt a = none →
         t.ml = (if a = 0x2A10 then { s.ml with utcOfs := w } else s.ml) ∧
         t.sync = (if a = 0x1600 ∧ bit w 28 = false then { s.sync with outEnd := none } else s.sync) ∧
         pinned (s.pins.syncOut && (a != 0x1600 || bit w 28)) s.pins.scan t ∧
         changesOnly [.regs, .aud, .mem, .tx, .pair, .eng, .bb, .ml, .sync, .pins] s t ∧
         { t.eng with poutQ := [], poutNew := [] } = { s.eng with poutQ := [], poutNew := [] } ∧
         regsOutside (fun b => b = a ∨ (b + 1 = a ∧ a < 0x2000 ∧ (a - 0x1800) % 0x100 = 0x32) ∨ b = rHpEvt ∨ b = rHpClamp ∨
           b = rBbMissed) s t) ∧
       ∀ h, hallAt a = some h →
         ((getHall s h).active = true → isChOut a = false → a ≠ aHall h 0x05 → hcfg t h a = w) ∧
         ((getHall s h).active = true → ∀ c < 4, a = aCh h c 0x1C →
           (getChan t h c).cmd = min (bits w 23 0) (cmdLimit s h c)) ∧
         (a = aHall h 0x05 → (getHall s h).up = true → bit (getHall t h).stat 6 = bit w 0) ∧
         framed [.regs, .aud, .mem, .tx, .pair, .halls, .chans, .per, .bb] s t ∧ hallApart h s t ∧ onlyVstates s t ∧
         regsOutside (fun b => b = a ∨ hallRegs h b ∨ b = rHpEvt ∨ b = rHpClamp ∨ b = rBbMissed) s t)

/-- R5, R6, R305: class C. -/
def Obligations.ClassCWriteActsAtOnce : Prop :=
  ∀ (o : Origin) (addr : Addr) (mask v : Word) (d : RegDesc) (s : State), Inv s → logicUp s = true →
    regDesc addr.toNat = some d → d.cls = .c → addr.toNat ≠ 0x2D0B → addr.toNat ≠ 0x2D0C →
    (let a := addr.toNat
     let w := clampValue (modeAt s a) a (merge (d.rw &&& mask) (baseWord s a) v)
     homeBad s a w (v &&& mask &&& d.wo) = none →
     (d.rw = 0 → d.w1c &&& mask ≠ 0 →
       ∃ t, exec (.registerWrite o addr mask v) s = .next t ∧
         getReg t a = getReg s a &&& ~~~ (v &&& mask &&& d.w1c) ∧ framed [.regs] s t ∧ regsOutside (· = a) s t) ∧
     (d.rw &&& mask ≠ 0 → a ≠ 0x0220 → a ≠ 0x0222 → a ≠ 0x0223 → a ≠ 0x2608 →
       ∃ t, exec (.registerWrite o addr mask v) s = .next t ∧ getReg t a = w ∧ framed [.regs, .bb] s t ∧
         regsOutside (fun b => b = a ∨ b = rHpEvt ∨ b = rHpClamp ∨ b = rBbMissed) s t))

/-- R8, R315: a refused write. -/
def Obligations.RefusedWriteChangesNothing : Prop :=
  (∀ (o : Origin) (addr : Addr) (mask v : Word) (s : State), Inv s →
    (regDesc addr.toNat = none ∨ ∃ d, regDesc addr.toNat = some d ∧ (d.rw ||| d.w1c ||| d.wo) &&& mask = 0) →
    ∃ t, exec (.registerWrite o addr mask v) s = .next t ∧ framed [] s t) ∧
  ∀ (o : Origin) (addr : Addr) (mask v : Word) (d : RegDesc) (r : Nat) (s : State), Inv s → logicUp s = true →
    regDesc addr.toNat = some d → (d.rw ||| d.w1c ||| d.wo) &&& mask ≠ 0 → addr.toNat ≠ 0x2C05 →
    refusal o d.cls addr.toNat
      (clampValue (modeAt s addr.toNat) addr.toNat (merge (d.rw &&& mask) (baseWord s addr.toNat) v))
      (v &&& mask &&& d.wo) s = some r →
    ∃ t, exec (.registerWrite o addr mask v) s = .next t ∧
      (if o.src = .host then
        t.hp = { s.hp with reject := true } ∧ bit (getReg t rHpEvt) 1 = true ∧
        getReg t rHpRej = (if s.hp.reject then getReg s rHpRej else BitVec.ofNat 32 (r * 2 ^ 24 + addr.toNat)) ∧
        framed [.hp, .regs, .bb] s t ∧ regsOutside (fun b => b = rHpRej ∨ b = rHpEvt ∨ b = rBbMissed) s t
      else framed [] s t)

/-- R321 to R324: stream frames, with LOST for both operations, for a lost position and for a buffer reset. -/
def Obligations.StreamFramesDeliverRecords : Prop :=
  ∀ (peek m : Bool) (st : Fin 24) (nbytes : Nat) (s : State), Inv s → logicUp s = true →
    (let k := st.val
     let r := strRange s k
     let behind := strPos s k < r.1
     let lost := behind ∨ k ∈ s.str.reset
     let p := if behind then r.1 else strPos s k
     let ready := if behind then (if k < 16 then dmaCount s k - p else 0) else strReady s 0 k
     let recs := strRecs s k p (min ready (nbytes + 1))
     let all := (recs.map (·.2)).flatten
     let whole := if peek then 0 else (wholeRecs nbytes recs).1
     ∃ t, exec (if peek then .streamPeek m st nbytes else .streamRead m st nbytes) s = .next t ∧
       t.hp.bytes = beBytes 4 (match recs.head? with | some e => e.1 | none => p)
         ++ beBytes 4 ((if lost then 2 ^ 31 else 0) + min ready 0xFFFFFF)
         ++ (all.take nbytes ++ List.replicate (nbytes - all.length) 0) ∧
       t.hp.short = decide (0 < (wholeRecs nbytes recs).2) ∧ t.hp.addrEnd = decide (all.length < nbytes) ∧
       strPos t k = posAfter p whole recs ∧ (∀ j, j ≠ k → strPos t j = strPos s j) ∧
       t.str.named = k ∧ (16 ≤ k → (k = 23 → s.bb.frozen = true) → t.str.ready = ready - whole) ∧
       t.str.reset = s.str.reset.filter (· ≠ k) ∧
       (lost → bit (getReg t rHpEvt) 6 = true) ∧
       getReg t 0x0225 = (if behind then
         BitVec.ofNat 32 (min ((getReg s 0x0225).toNat + (r.1 - strPos s k)) 0xFFFFFFFF) else getReg s 0x0225) ∧
       (∃ n, n ≤ 40 ∧ getReg t rArbWait = putBits (getReg s rArbWait) 7 0 (max (bits (getReg s rArbWait) 7 0) n)) ∧
       t.free = s.free + 1 ∧ framed [.hp, .regs, .str, .free, .bb] s t ∧ (¬ lost → t.bb = s.bb) ∧
       regsOutside (fun a => a = rHpFrames ∨ a = rArbWait ∨
         lost ∧ (a = rHpEvt ∨ a = 0x0225 ∨ a = rBbMissed)) s t)

/-- R323, R324: positions and the stream buffer. -/
def Obligations.SeeksMoveThePosition : Prop :=
  ∀ (o : Origin) (hi : Word) (s : State), Inv s → logicUp s = true →
    (let k := strKey 0 (bits (getReg s 0x0220) 5 0)
     let r := strRange s (k % 32)
     (∃ t, exec (.seek o hi) s = .next t ∧
       strPos t k = clampNat r.1 r.2 (hi.toNat * 2 ^ 32 + s.str.posLo.toNat) ∧ (∀ j, j ≠ k → strPos t j = strPos s j) ∧
       framed [.str, .regs, .bb] s t ∧ regsOutside (fun a => a = rHpEvt ∨ a = rHpClamp ∨ a = rBbMissed) s t) ∧
     (∃ t, exec (.seekOldest o) s = .next t ∧ strPos t k = r.1 ∧ (∀ j, j ≠ k → strPos t j = strPos s j) ∧
       framed [.str] s t) ∧
     (∃ t, exec (.seekNewest o) s = .next t ∧ strPos t k = r.2 ∧ (∀ j, j ≠ k → strPos t j = strPos s j) ∧
       framed [.str] s t)) ∧
    (16 ≤ s.str.named % 32 →
      ∃ t, exec .streamBufferFilled s = .next t ∧
        t.str = { s.str with
          ready := fitCount 32768 (strRecs s (s.str.named % 32) (strPos s s.str.named) 512), filling := false } ∧
        framed [.str] s t)

/-- R239, R240, R244, R457: the release. -/
def Obligations.AuditReleaseRule : Prop :=
  ∀ (o : Origin) (hi : Word) (s : State), Inv s → logicUp s = true → s.aud.index ≠ [] →
    (let w := merge 0xFFFF (baseWord s 0x2608) hi
     let n := (getReg s 0x2607).toNat + w.toNat * 2 ^ 32
     let newest := match s.aud.index.getLast? with | some e => e.1 | none => s.aud.rel
     let r := min n newest
     (r ≤ s.aud.rel → ∃ t, exec (.auditRelease o hi) s = .next t ∧ getReg t 0x2608 = w ∧ framed [.regs, .bb] s t ∧
       regsOutside (fun a => a = 0x2608 ∨ a = rHpEvt ∨ a = rHpClamp ∨ a = rBbMissed) s t) ∧
     (s.aud.rel < r → audRoom s 1 = true → audExhausted s = false →
       ∃ t q, exec (.auditRelease o hi) s = .next t ∧
         t.aud = { s.aud with queue := s.aud.queue ++ [q], next := (s.aud.next + 1) % 2 ^ 48, rel := r, lost := false } ∧
         q.kind = 7 ∧ q.seq = s.aud.next ∧ q.src = o.src ∧ q.addr = 0xFFFF ∧ q.width = 2 ∧ q.detail = 0 ∧
         q.time = s.time.ring ∧ q.old = s.aud.rel ∧ q.new = r ∧ bit (getReg t rAudEvt) 3 = true ∧
         framedRet [.regs, .aud, .bb] s t ∧
         regsOutside (fun a => a = 0x2608 ∨ a = rHpEvt ∨ a = rHpClamp ∨ a = rAudEvt ∨ a = rBbMissed) s t) ∧
     (s.aud.rel < r → audExhausted s = true →
       ∃ t, exec (.auditRelease o hi) s = .next t ∧ t.aud = { s.aud with rel := r, lost := true } ∧
         getReg t rAudDropped = BitVec.ofNat 32 (satSucc 0xFFFFFFFF (getReg s rAudDropped).toNat) ∧
         bit (getReg t rAudEvt) 2 = true ∧ bit (getReg t rAudEvt) 3 = true ∧ framed [.regs, .aud, .bb] s t ∧
         regsOutside (fun a => a = 0x2608 ∨ a = rHpEvt ∨ a = rHpClamp ∨ a = rAudEvt ∨ a = rAudDropped ∨
           a = rBbMissed) s t))

/-- R241, R243, R244: audit records in flash. -/
def Obligations.AuditRecordsReachFlash : Prop :=
  ∀ (s : State), Inv s → logicUp s = true → nvWritable s = true →
    (∀ (ok0 ok1 : Bool) (r : AudRec) (rest : List AudRec), s.aud.queue = r :: rest →
      (retBad s (.audit r.seq) = true → ∃ t, exec (.auditRecordFlashWrite ok0 ok1) s = .next t ∧
        t.aud = { s.aud with queue := rest } ∧
        getReg t rAudDropped = BitVec.ofNat 32 (satSucc 0xFFFFFFFF (getReg s rAudDropped).toNat) ∧
        bit (getReg t rAudEvt) 2 = true ∧ bit (getReg t rEccEvt) 1 = true ∧ retBad t (.audit r.seq) = false ∧
        booksOnly s t ∧ framedRet [.aud, .regs, .bb, .wd, .img, .jnl, .nv] s t) ∧
      (retBad s (.audit r.seq) = false → audExhausted s = false → ∃ t, exec (.auditRecordFlashWrite ok0 ok1) s = .next t ∧
        (let a := audAddr s.aud.slots
         let good0 := chipOk s.nv.c0 && ok0
         let good1 := chipOk s.nv.c1 && ok1
         (∀ i, i < 64 → mread blankByte t.nv.c0.mem (a + i) =
           if good0 then (audBytes r).getD i 0 else mread blankByte s.nv.c0.mem (a + i)) ∧
         (∀ i, i < 64 → mread blankByte t.nv.c1.mem (a + i) =
           if good1 then (audBytes r).getD i 0 else mread blankByte s.nv.c1.mem (a + i)) ∧
         flashOutside (fun b => bookArea b ∨ (a ≤ b ∧ b < a + 64)) s t ∧
         t.aud = (if good0 || good1 then
           { s.aud with queue := rest, index := tput s.aud.index r.seq s.aud.slots, slots := s.aud.slots + 1 }
           else s.aud) ∧
         framed [.nv, .aud, .regs, .bb, .wd, .img, .jnl] s t)) ∧
      (retBad s (.audit r.seq) = false → audExhausted s = true → ∃ t, exec (.auditRecordFlashWrite ok0 ok1) s = .next t ∧
        t.aud = { s.aud with queue := rest, lost := true } ∧
        getReg t rAudDropped = BitVec.ofNat 32 (satSucc 0xFFFFFFFF (getReg s rAudDropped).toNat) ∧
        booksOnly s t ∧ framed [.aud, .regs, .bb, .wd, .img, .jnl, .nv] s t)) ∧
    (∀ top, oldestSectorTop s = some top → top ≤ s.aud.rel →
      ∃ t, exec .auditSectorErased s = .next t ∧ audFill t = audFill s - 1024 ∧
        t.aud = { s.aud with erased := s.aud.erased + 1, index := s.aud.index.filter fun e => 1024 * s.aud.erased + 1024 ≤ e.2 } ∧
        (∀ i < 2, ∀ b, ¬ bookArea b → mread blankByte (nvChip t i).mem b =
          if chipOk (nvChip s i) ∧ audAddr (1024 * s.aud.erased) ≤ b ∧ b < audAddr (1024 * s.aud.erased) + 65536
          then blankByte else mread blankByte (nvChip s i).mem b) ∧
        framed [.aud, .nv, .regs, .wd, .img] s t ∧ regsOutside (· = rWdCount) s t)

/-- R318, R319: STG_CTRL.COMMIT, the end of its check, and ABANDON. -/
def Obligations.CommitStartsAndAbandonDrops : Prop :=
  ∀ (o : Origin) (s : State), Inv s →
    (logicUp s = true → s.stg.phase = .idle →
      (∃ t, exec (.commit o) s = .next t ∧
        t.stg = (if s.stg.entries = [] then { s.stg with result := 2 }
          else { s.stg with phase := .checking, delivered := false }) ∧
        (s.stg.entries ≠ [] → partnerPresent s = true → s.pair.active = true →
          t.tx = s.tx ++ (((0xFFFF, 4, (0 : Word), (0 : Word)) :: s.stg.entries.map fun e => (e.addr, 1, allBits, e.value)).mapIdx
            fun i x => ⟨3, pairFrame 7 ((pairSeq s 7 + 1 + i) % 256) 0xF000 (cfgItem x.1 x.2.1 x.2.2.1 x.2.2.2), true⟩) ∧
          t.pair = { s.pair with seqs := t.pair.seqs }) ∧
        (s.stg.entries = [] ∨ partnerPresent s = false ∨ s.pair.active = false → t.tx = s.tx ∧ t.pair = s.pair) ∧
        framed [.stg, .tx, .pair] s t) ∧
      (∃ t, exec (.abandon o) s = .next t ∧ t.stg = { s.stg with entries := [] } ∧ framed [.stg] s t)) ∧
    (s.stg.phase ≠ .checking → ∃ t, exec .commitCheckDone s = .next t ∧ framed [] s t) ∧
    (s.stg.phase = .checking →
      match commitRefusal s with
      | some (r, a) => ∃ t, exec .commitCheckDone s = .next t ∧
          t.stg = { s.stg with phase := .idle, result := r, refAddr := a, tick := none } ∧ bit (getReg t rHpEvt) 5 = true ∧
          framed [.stg, .regs, .bb] s t ∧ regsOutside (fun b => b = rHpEvt ∨ b = rBbMissed) s t
      | none => ∃ t, exec .commitCheckDone s = .next t ∧
          t.stg = { s.stg with phase := .waiting, op := s.jnl.next } ∧
          journaled (opened 5 s.stg.entries.length 0 s) s t ∧
          (if partnerPresent s = true ∧ s.pair.active = true then
            pairSent 7 0xF000 (cfgItem 0xFFFF 2 0 (BitVec.ofNat 32 (tickOf (nextBoundary s).1))) s t
          else t.tx = s.tx ∧ t.pair = s.pair) ∧
          booksOnly s t ∧ framedRet [.stg, .jnl, .nv, .pair, .tx] s t)

/-- R6, R241, R242, R318: the boundary of a COMMIT. -/
def Obligations.CommitAppliesTheShadow : Prop :=
  ∀ (s : State), Inv s →
    (s.stg.phase ≠ .waiting → ∃ t, exec .commitDone s = .next t ∧ framed [] s t) ∧
    (s.stg.phase = .waiting → commitRoom s = false →
      ∃ t, exec .commitDone s = .next t ∧ t.time.now = max s.time.now (commitBoundary s) ∧
        t.stg = { s.stg with phase := .idle, result := 7, refAddr := 0xFFFF, tick := none } ∧ t.jnl = (jClose s.stg.op 3 s).jnl ∧
        bit (getReg t rHpEvt) 5 = true ∧ regsOutside (fun b => b = rHpEvt ∨ b = rBbMissed ∨ b = rPairEvt) s t ∧
        t.pair = (if pairEn s = true ∧ s.pair.active = false then { s.pair with cfgDiverge := true } else s.pair) ∧
        booksOnly s t ∧ framed [.time, .regs, .stg, .bb, .jnl, .nv, .pair] s t) ∧
    (s.stg.phase = .waiting → commitRoom s = true →
      ∃ t, exec .commitDone s = .next t ∧
        t.time.now = max s.time.now (commitBoundary s) ∧
        (∀ e ∈ s.stg.entries, (∀ f ∈ s.stg.entries, f.addr = e.addr → f = e) → classA e.addr → getReg t e.addr = e.value) ∧
        (∀ a, classA a → stagedAt s a = none → getReg t a = getReg s a) ∧
        ((s.aud.queue.map fun r => (r.kind, r.src, r.addr, r.new, r.op)) ++
            (s.stg.entries.map fun e => (1, e.src, e.addr, e.value.toNat, s.stg.op))) <+:
          (t.aud.queue.map fun r => (r.kind, r.src, r.addr, r.new, r.op)) ∧
        t.aud.writes = s.aud.writes + s.stg.entries.length ∧
        t.stg = { s.stg with entries := [], phase := .idle, result := 1, refAddr := 0xFFFF, tick := none } ∧
        bit (getReg t rHpEvt) 4 = true ∧
        framed [.time, .regs, .stg, .str, .halls, .chans, .convs, .newest, .modes, .runs, .per, .bal, .aud, .gal, .bb, .jnl,
          .nv, .mem, .wd, .ml, .eng, .older, .pair] s t)

/-- R289 items 1 to 3: writing an image through the page buffers. -/
def Obligations.ImageWritingCommands : Prop :=
  ∀ (o : Origin) (v : Word) (s : State), Inv s →
    (let base := slotBase (idleSlot s)
     let at_ := if s.img.page = [] then s.img.woff else s.img.pageAt
     let page := s.img.page ++ leBytes 4 v.toNat
     let out (a : Nat) (bs : List Byte) (t : State) : Prop := ∃ j, t.nv = { s.nv with jobs := s.nv.jobs ++ [j] } ∧
       j.kind = .page s.img.op ∧ j.off = base + a ∧ j.bytes = bs ∧ j.use0 = chipOk s.nv.c0 ∧ j.use1 = chipOk s.nv.c1 ∧
       j.r0 = (if chipOk s.nv.c0 then none else some false) ∧ j.r1 = (if chipOk s.nv.c1 then none else some false)
     (acceptsAct o 0x2D0A 1 s → s.img.phase = 0 →
       ∃ t, exec (.openImage o) s = .next t ∧ audited o 0x2D0A 1 s t ∧ forwarded o 0x2D0A allBits 1 s t ∧
         t.img.phase = 2 ∧ t.img.woff = 0 ∧ t.img.page = [] ∧
         t.img.op = s.jnl.next ∧ journaled (opened 1 0 (idleSlot s) s) s t ∧
         (∀ i < 2, if chipOk (nvChip s i) then
             t.img.copies.getD (2 * i + idleSlot s) 0 = 8 ∧
             ∀ a, ¬ bookArea a → mread blankByte (nvChip t i).mem a =
               if base ≤ a ∧ a < base + 0x100000 then 0xFF else mread blankByte (nvChip s i).mem a
           else nvChip t i = nvChip s i) ∧
         t.nv.jobs = s.nv.jobs.filter (fun j => !isPageJob j) ∧
         framedRet [.aud, .tx, .pair, .jnl, .img, .nv] s t) ∧
     (logicUp s = true → s.img.phase = 2 → s.img.woff < 1048576 → pageHeld s < 16384 →
       ((s.img.woff + 4) % 256 ≠ 0 → ∃ t, exec (.imageData o v) s = .next t ∧ forwarded o 0x2D0C allBits v s t ∧
         t.img = { s.img with woff := s.img.woff + 4, page := page, pageAt := at_ } ∧ framed [.tx, .pair, .img] s t) ∧
       ((s.img.woff + 4) % 256 = 0 → nvWritable s = true →
         ∃ t, exec (.imageData o v) s = .next t ∧ forwarded o 0x2D0C allBits v s t ∧
           t.img = { s.img with woff := s.img.woff + 4, page := [], pageAt := at_ } ∧ out at_ page t ∧
           framed [.tx, .pair, .img, .nv] s t)) ∧
     (logicUp s = true → s.img.woff ≤ v.toNat → v &&& 0x000FFFFC = v →
       (v.toNat = s.img.woff ∨ s.img.page = [] →
         ∃ t, exec (.imgWoffWrite o v) s = .next t ∧ forwarded o 0x2D0B allBits v s t ∧
           t.img = { s.img with woff := v.toNat } ∧ framed [.tx, .pair, .img] s t) ∧
       (v.toNat ≠ s.img.woff → s.img.page ≠ [] → nvWritable s = true →
         ∃ t, exec (.imgWoffWrite o v) s = .next t ∧ forwarded o 0x2D0B allBits v s t ∧
           t.img = { s.img with woff := v.toNat, page := [] } ∧ out s.img.pageAt s.img.page t ∧
           framed [.tx, .pair, .img, .nv] s t)) ∧
     (acceptsAct o 0x2D0A 2 s → s.img.phase = 2 → s.img.page = [] ∨ nvWritable s = true →
       ∃ t, exec (.close o) s = .next t ∧ audited o 0x2D0A 2 s t ∧ forwarded o 0x2D0A allBits 2 s t ∧
         t.img = { s.img with phase := 3, page := [] } ∧
         (s.img.page = [] → t.nv = s.nv) ∧ (s.img.page ≠ [] → out s.img.pageAt s.img.page t) ∧
         t.jnl = (if t.nv.jobs.any isPageJob then s.jnl
           else (jMod s.img.op (fun e => { e with steps := e.steps ||| 3 }) s).jnl) ∧
         framedRet [.aud, .tx, .pair, .jnl, .img, .nv] s t))

/-- R289 item 3 and ABORT, R294. -/
def Obligations.VerificationAbortAndAbandon : Prop :=
  ∀ (o : Origin) (s : State), Inv s →
    (let base := slotBase (idleSlot s)
     let wiped (n : Nat) (t : State) : Prop := ∀ i < 2, if chipOk (nvChip s i) then
         t.img.copies.getD (2 * i + idleSlot s) 0 = 0 ∧
         ∀ a, ¬ bookArea a → mread blankByte (nvChip t i).mem a =
           if base ≤ a ∧ a < base + n then 0xFF else mread blankByte (nvChip s i).mem a
       else nvChip t i = nvChip s i
     let erased (t : State) : Prop := t.img.phase = 0 ∧ t.img.rollAt = none ∧ t.img.page = [] ∧
       t.jnl = (jClose s.img.op 3 s).jnl ∧ bit (getReg t rImgEvt) 4 = true ∧
       t.nv.jobs = s.nv.jobs.filter (fun j => !isPageJob j) ∧
       regsOutside (fun b => b = rImgEvt ∨ b = rBbMissed) s t ∧ wiped 0x100000 t
     (s.img.phase ≠ 3 ∨ s.nv.jobs.any isPageJob = true → ∃ t, exec .imageVerifyDone s = .next t ∧ framed [] s t) ∧
     (s.img.phase = 3 → s.nv.jobs.any isPageJob = false →
       match (if nvWritable s then newCopyBad s else some (refuseWhole 1)) with
       | some r => ∃ t, exec .imageVerifyDone s = .next t ∧ t.img.phase = 0 ∧
           t.jnl = (jClose s.img.op 3 s).jnl ∧
           getReg t 0x2D04 = BitVec.ofNat 32 (r.reason * 2 ^ 24 + r.sect * 2 ^ 20 + 4 * 2 ^ 16 + r.addr) ∧
           bit (getReg t rImgEvt) 0 = true ∧ wiped 0x10000 t ∧ framed [.regs, .bb, .jnl, .img, .nv] s t ∧
           regsOutside (fun b => b = 0x2D04 ∨ b = rImgEvt ∨ b = rBbMissed) s t
       | none => ∃ t, exec .imageVerifyDone s = .next t ∧ t.img.phase = 4 ∧
           t.jnl = (jMod s.img.op (fun e => { e with steps := e.steps ||| 4, target := (newImg s).gen }) s).jnl ∧
           bit (getReg t rImgEvt) 2 = true ∧ framed [.regs, .bb, .jnl, .img] s t ∧
           regsOutside (fun b => b = rImgEvt ∨ b = rBbMissed) s t) ∧
     (acceptsAct o 0x2D0A 4 s → 1 ≤ s.img.phase → s.img.phase ≤ 4 →
       ∃ t, exec (.abort o) s = .next t ∧ audited o 0x2D0A 4 s t ∧ forwarded o 0x2D0A allBits 4 s t ∧ erased t ∧
         framedRet [.aud, .tx, .pair, .regs, .bb, .jnl, .img, .nv] s t) ∧
     (acceptsAct o 0x2D0A 4 s → s.img.phase = 0 →
       (∃ i < 2, s.img.copies.getD (2 * i + idleSlot s) 0 = 5 ∨ s.img.copies.getD (2 * i + idleSlot s) 0 = 6) →
       ∃ t, exec (.abort o) s = .next t ∧ audited o 0x2D0A 4 s t ∧ forwarded o 0x2D0A allBits 4 s t ∧ wiped 0x100000 t ∧
         bit (getReg t rImgEvt) 4 = true ∧ t.img = { s.img with copies := t.img.copies, gens := t.img.gens } ∧
         framedRet [.aud, .tx, .pair, .regs, .bb, .img, .nv] s t ∧ regsOutside (fun b => b = rImgEvt ∨ b = rBbMissed) s t) ∧
     (∀ t0, s.img.rollAt = some t0 → s.img.phase = 6 → s.pair.hoRoll = false →
       (rejoined s = false ∨ s.pair.otherGen ≠ newGen s → ∃ t, exec .rollAbandon s = .next t ∧ erased t ∧
         t.time.now = (if rejoined s then s.time.now else max s.time.now (t0 + 1000000000)) ∧
         framed [.time, .regs, .bb, .jnl, .img, .nv] s t) ∧
       (rejoined s = true → s.pair.otherGen = newGen s → ∃ t, exec .rollAbandon s = .next t ∧ framed [] s t)) ∧
     ((s.img.rollAt = none ∨ s.img.phase ≠ 6 ∨ s.pair.hoRoll = true) →
       ∃ t, exec .rollAbandon s = .next t ∧ framed [] s t))

/-- R286, R287: steps 0 and 1 of a hall reload. -/
def Obligations.HallReloadSteps : Prop :=
  ∀ (o : Origin) (h : Hall) (ok : Bool) (s : State), Inv s →
    (acceptsAct o 0x2D0A (BitVec.ofNat 32 (h.val * 256 + 5)) s → s.clk.die = .applied → reloadAllowed s = true →
      s.clk.straps ≠ 2 → hallEn s h = true → (getHall s h).up = true →
      ∃ t, exec (.reload o h) s = .next t ∧ audited o 0x2D0A (BitVec.ofNat 32 (h.val * 256 + 5)) s t ∧
        forwarded o 0x2D0A allBits (BitVec.ofNat 32 (h.val * 256 + 5)) s t ∧
        t.img.reloads = [{ hall := h.val, op := s.jnl.next, start := s.time.now, tries := 0, confirmed := false
                           flights := false, released := false, fromNew := false }] ∧
        journaled (opened 2 h (hallCrcOf (activeImg s) h) s) s t ∧ t.img.excuse.testBit h = true ∧
        (getHall t h).hold = true ∧ (getHall t h).running = false ∧
        (∀ a, classA a → hallAt a ≠ some h.val → getReg t a = getReg s a) ∧
        (∀ a ∈ hallAddrs h, classA a → imgListed (activeImg s) a ≠ none →
          getReg t a = merge (imgBits a) (getReg s a) (imgView (activeImg s) a)) ∧
        booksOnly s t ∧
        framedRet [.aud, .tx, .pair, .regs, .str, .halls, .chans, .convs, .newest, .older, .bb, .jnl, .img, .nv] s t) ∧
    match s.img.reloads.find? fun r => !r.confirmed with
    | none => ∃ t, exec (.hallSectionConfirmed ok) s = .next t ∧ framed [] s t
    | some r =>
      (ok = true → (getHall s r.hall).up = true →
        ∃ t, exec (.hallSectionConfirmed ok) s = .next t ∧ (getHall t r.hall).active = true ∧
          (getHall t r.hall).since = true ∧ (getHall t r.hall).crc = some (hallCrcOf (reloadImg s r) r.hall) ∧
          (∀ e ∈ t.jnl.ring, e.2.op = r.op → e.2.steps.testBit 0 = true ∧ e.2.steps.testBit 1 = true) ∧
          regsOutside (fun b => hallRegs r.hall b ∨ b = rImgEvt) s t ∧
          onlyVstates s t ∧ booksOnly s t ∧ framed [.regs, .halls, .chans, .convs, .per, .bb, .jnl, .img, .nv, .clk] s t) ∧
      ((ok = false ∨ (getHall s r.hall).up = false) →
        (r.tries = 0 → ∃ t, exec (.hallSectionConfirmed ok) s = .next t ∧
          t.img = { s.img with reloads := s.img.reloads.map fun x => if x.hall = r.hall then { x with tries := 1 } else x } ∧
          framed [.img] s t) ∧
        (r.tries ≠ 0 → s.img.phase ≠ 5 → ∃ t, exec (.hallSectionConfirmed ok) s = .next t ∧
          (getHall t r.hall).active = false ∧ (getHall t r.hall).crc = none ∧ (getHall t r.hall).cfg = [] ∧
          bit (getReg t (aHall r.hall 0x01)) 0 = false ∧ bit (getReg t (aHall r.hall 0x03)) 0 = true ∧
          getReg t (aHall r.hall 0x08) = 0 ∧ (∀ c < 4, (getChan t r.hall c).mode = 0) ∧ (∀ e ∈ t.jnl.ring, e.2.op = r.op → e.2.st = 3) ∧
          (∀ x ∈ t.img.reloads, x.hall ≠ r.hall) ∧
          booksOnly s t ∧ framed [.regs, .halls, .chans, .convs, .bb, .jnl, .img, .nv, .clk] s t) ∧
        (r.tries ≠ 0 → s.img.phase = 5 → ∃ t, exec (.hallSectionConfirmed ok) s = .next t ∧
          (if s.img.reloads.any (fun x => x.hall ≠ r.hall && !x.released) then
            t.img.queue = s.img.queue ∧ t.img.held = s.img.held
          else t.img.queue = s.img.queue.tail ∧ t.img.held = s.img.held ++ s.img.queue.take 1)))

/-- R286 step 3, R36, R110. -/
def Obligations.ReloadReleaseAnnounceAndWarmUp : Prop :=
  ∀ (h : Hall) (s : State), Inv s →
    (match s.img.reloads.find? fun r => r.confirmed && !r.released with
     | none => ∃ t, exec .reloadOutputsReleased s = .next t ∧ framed [] s t
     | some r => s.img.phase ≠ 5 →
       ∃ t, exec .reloadOutputsReleased s = .next t ∧ (getHall t r.hall).hold = false ∧
         (∀ x ∈ t.img.reloads, x.hall = r.hall → x.released = true) ∧
         (∀ x, reloadOf s r.hall = some x → x.flights = true →
           bit (getReg t rImgEvt) 5 = true ∧ ∀ y ∈ t.img.reloads, y.hall ≠ r.hall) ∧
         regsOutside (fun b => hallRegs r.hall b ∨ b = rImgEvt) s t ∧
         onlyVstates s t ∧ booksOnly s t ∧ framed [.regs, .halls, .chans, .convs, .per, .bb, .jnl, .img, .nv] s t) ∧
    (let x := getHall s h
     let occasion : Prop := x.up = true ∧ x.active = false ∧ (s.clk.die = .chosen ∨ s.clk.die = .applied)
     (¬ occasion → ∃ t, exec (.hallAnnounce h) s = .next t ∧ framed [] s t) ∧
     (occasion → ∃ t, exec (.hallAnnounce h) s = .next t ∧
       (x.since = true → (getHall t h).uvrEvt = true ∧ bit (getReg t (rHallEvt h)) 4 = true) ∧
       (hallEn s h = true → s.clk.straps ≠ 2 →
         t.img.reloads = (s.img.reloads.filter fun r => r.hall ≠ h.val) ++
           [{ hall := h.val, op := s.jnl.next, start := s.time.now, tries := 0, confirmed := false
              flights := false, released := false, fromNew := s.img.phase = 5 && s.img.held.contains h.val }] ∧
         (getHall t h).hold = true ∧
         ∀ r, reloadOf s h = some r → r.op ≠ s.jnl.next → ∀ e ∈ t.jnl.ring, e.2.op = r.op → e.2.st = 3) ∧
       ((hallEn s h = false ∨ s.clk.straps = 2) → t.img = s.img ∧ t.jnl = s.jnl) ∧
       booksOnly s t ∧ framedRet [.regs, .str, .halls, .chans, .convs, .newest, .older, .bb, .jnl, .img, .nv] s t) ∧
     (¬ (x.up = true ∧ x.warming = true) → ∃ t, exec (.warmUpEnd h) s = .next t ∧ framed [] s t) ∧
     (x.up = true → x.warming = true →
       ∃ t, exec (.warmUpEnd h) s = .next t ∧ (getHall t h).warming = false ∧
         t.time.now = max s.time.now (x.bufAt.getD 0 + bits (hcfg s h (aHall h 0x40)) 15 8 * 1000000) ∧
         (x.active = true → s.clk.modclk = true → (getHall t h).running = true) ∧
         regsOutside (fun b => hallRegs h b ∨ b = rImgEvt) s t ∧
         onlyVstates s t ∧ booksOnly s t ∧
         framed [.time, .regs, .halls, .chans, .convs, .per, .bb, .jnl, .img, .nv] s t))

/-- R290, R291: ACTIVATE and the switch boundary. -/
def Obligations.ActivationAndSwitch : Prop :=
  ∀ (o : Origin) (s : State), Inv s →
    (let im := newImg s
     let busy := s.img.reloads.any fun r => !r.released
     (acceptsAct o 0x2D0A 3 s → s.img.phase = 4 → partnerPresent s = false →
       ∃ t, exec (.activate o) s = .next t ∧ audited o 0x2D0A 3 s t ∧ t.img.phase = 5 ∧
         t.img.queue = (if busy then hallsToReload s im else (hallsToReload s im).tail) ∧
         t.img.held = (if busy then [] else (hallsToReload s im).take 1) ∧
         (∀ h, busy = false → (hallsToReload s im).head? = some h →
           (getHall t h).hold = true ∧ ∃ r ∈ t.img.reloads, r.hall = h ∧ r.fromNew = true ∧ r.confirmed = false) ∧
         (busy = true ∨ hallsToReload s im = [] → t.img.reloads = s.img.reloads ∧ t.halls = s.halls ∧ t.regs = s.regs) ∧
         ((imageNone s = true ∨ im.prog ≠ (activeImg s).prog) → t.img.swapOp = some s.jnl.next ∧
           ∀ j < im.prog.length, mread 0 t.mem.prog (32768 * (1 - s.mem.half) + j) = im.prog.getD j 0) ∧
         t.mem = { s.mem with prog := t.mem.prog, bad := t.mem.bad } ∧ (∀ e ∈ t.mem.bad, e ∈ s.mem.bad) ∧
         booksOnly s t ∧
         framed [.aud, .regs, .str, .halls, .chans, .convs, .newest, .older, .bb, .jnl, .img, .nv, .mem] s t) ∧
     (let occasion : Prop := s.img.phase = 5 ∧ s.img.queue = [] ∧ (∀ r ∈ s.img.reloads, r.released = true) ∧ s.clk.halt = none
      (¬ occasion → ∃ t, exec .switchBoundary s = .next t ∧ framed [] s t) ∧
      (occasion → ∃ t, exec .switchBoundary s = .next t ∧ t.img.phase = 0 ∧ t.img.slot = 1 - s.img.slot ∧
         t.img.gen = im.gen ∧ getReg t 0x2D03 = BitVec.ofNat 32 im.gen ∧ bit (getReg t rImgEvt) 3 = true ∧
         t.stg.entries = [] ∧ t.stg.phase = .idle ∧ t.clk.die = (if s.clk.die = .noImage then .applied else s.clk.die) ∧
         t.time.now = max s.time.now (localOf s (boundaryAfter s s.img.ready)) ∧
         (∀ a ∈ imgAddrs, (∀ h, hallAt a = some h → h ∉ s.img.held) →
           getReg t a = merge (imgBits a) (getReg s a) (imgView im a)) ∧
         (∀ h < 8, ∀ c < 4, getReg t (aCh h c 0x1C) =
           (match imgListed im (aCh h c 0x1C) with
            | some _ => imgView im (aCh h c 0x1C) &&& 0x00FFFFFF
            | none => 0)) ∧
         pinned (s.pins.syncOut && bit (getReg t 0x1600) 28) s.pins.scan t ∧
         (timeHead t = true → t.ml.utcOfs = getReg t 0x2A10) ∧
         changesOnly [.time, .regs, .stg, .str, .halls, .chans, .convs, .sync, .newest, .older, .modes, .curves, .eng, .runs, .per, .bal,
           .aud, .gal, .bb, .jnl, .img, .nv, .mem, .wd, .clk, .ml, .pair, .pins] s t)))

/-- R293 items 1 and 4, R277. -/
def Obligations.RollAndOtherCopies : Prop :=
  ∀ (o : Origin) (s : State), Inv s →
    (acceptsAct o 0x2D0A 6 s → s.img.phase = 4 → s.pair.active = true → partnerPresent s = true → partnerVerified s = true →
      ∃ t, exec (.roll o) s = .next t ∧ audited o 0x2D0A 6 s t ∧
        t.img = { s.img with phase := 6, rollAt := some s.time.now } ∧
        t.tx = s.tx ++ [⟨3, pairFrame 8 ((pairSeq s 8 + 1) % 256) 0 [4, 0, 0, 0], true⟩] ∧
        t.pair.away = false ∧ framedRet [.aud, .tx, .pair, .img] s t) ∧
    (s.img.phase = 6 → hoAllowed s = true → logicUp s = true →
      ∃ t, exec .rollStandbyCountDone s = .next t ∧ t.pair.hoRoll = true ∧ t.pair.hoStep = some 0 ∧
        t.pair.hoOp = s.jnl.next ∧
        t.tx = s.tx ++ [⟨3, pairFrame 8 ((pairSeq s 8 + 1) % 256) 0 [1, 0, 0, 0], true⟩] ∧
        (journal t (jSlot s)).typ = 7 ∧ (journal t (jSlot s)).st = 1 ∧ (journal t (jSlot s)).steps = 1 ∧
        booksOnly s t ∧ framedRet [.jnl, .nv, .pair, .tx] s t) ∧
    ((s.img.phase ≠ 6 ∨ hoAllowed s = false) → ∃ t, exec .rollStandbyCountDone s = .next t ∧ framed [] s t) ∧
    (let occasion : Prop := logicUp s = true ∧ imageNone s = false ∧ s.eng.running = true
     let me := 2 * s.img.chip + s.img.slot
     (¬ occasion → ∃ t, exec .imageCopyCheck s = .next t ∧ framed [] s t) ∧
     (occasion → ∃ t, exec .imageCopyCheck s = .next t ∧
       (∀ i < 4, i ≠ me → i ≠ 2 * (1 - s.img.chip) + s.img.slot →
         t.img.copies.getD i 0 = (copyState s i).1 ∧ t.img.gens.getD i 0 = (copyState s i).2) ∧
       (imgDiverged t = true → imgDiverged s = false → bit (getReg t rImgEvt) 1 = true) ∧
       framedRet [.regs, .aud, .bb, .jnl, .img, .nv] s t))

/-- R296, R416, R433, R257, R279: the resets of the logic die. -/
def Obligations.ResetsOfTheLogicDie : Prop :=
  ∀ (straps : BitVec 2) (x : ReleasePins) (vddc : Bool) (s : State), Inv s →
    (heldInReset s = true →
      (∃ t, exec .resetNLow s = .next t ∧ framed [] s t) ∧ (∃ t, exec .thermalTrip s = .next t ∧ framed [] s t) ∧
      (∃ t, exec (.logicSupplyFailure vddc) s = .next t ∧
        t.clk = { s.clk with vddcOff := s.clk.vddcOff || vddc } ∧ framed [.clk] s t) ∧
      (mayRelease x s = true →
        ∃ t, exec (.resetNRelease straps x) s = .next t ∧ t.clk.die = .released ∧ t.clk.straps = straps.toNat ∧
        t.clk.roleStrap = x.pairRole ∧ t.clk.rel = s.time.now ∧ t.wd.start = s.time.now ∧ t.wd.checked = 0 ∧
        (s.bb.frozen = false → t.bb.events.getLast? = some
          { time := s.time.ring, seq := s.bb.seq, code := 0x50, src := 0, data := s.clk.cause }) ∧
        framed [.regs, .bb, .wd, .clk] s t ∧ regsOutside (· = rBbMissed) s t)) ∧
    (x.testN = false ∨ (s.clk.die = .hot ∧ x.cool = false) →
      ∃ t, exec (.resetNRelease straps x) s = .next t ∧ framed [] s t) ∧
    (heldInReset s = false →
      (∃ t, exec .resetNLow s = .next t ∧ inReset 1 .reset s t ∧ t.bb.events = s.bb.events ∧ t.bb.frozen = s.bb.frozen) ∧
      (∃ t, exec .thermalTrip s = .next t ∧ inReset 3 .hot s t ∧ t.bb.frozen = true ∧
        (s.bb.frozen = false → t.bb.hdr.cause = 3)) ∧
      (∃ t, exec (.logicSupplyFailure vddc) s = .next t ∧ inReset 4 .reset s t ∧
        t.clk.vddcOff = (s.clk.vddcOff || vddc) ∧
        t.bb.frozen = (s.bb.frozen || vddc) ∧ (s.bb.frozen = false → vddc = true → t.bb.hdr.cause = 2)) ∧
      (∃ t, exec (.resetNRelease straps x) s = .next t ∧ framed [] s t)) ∧
    (logicUp s = true ∨ s.clk.die = .released →
      ∃ t, exec .debugReset s = .next t ∧ t.clk.die = .released ∧ t.clk.cause = 5 ∧ t.clk.rel = s.time.now ∧
        (∀ a, a ≠ rBbMissed → getReg t a = resetWord a) ∧ t.stg.entries = [] ∧ t.img = imgReset ∧ t.eng = engReset ∧
        t.aud.queue = s.aud.queue ∧ t.jnl.ring = s.jnl.ring ∧ t.nv.c0.mem = s.nv.c0.mem ∧ t.nv.c1.mem = s.nv.c1.mem) ∧
    (logicUp s = false → s.clk.die ≠ .released → ∃ t, exec .debugReset s = .next t ∧ framed [] s t)

/-- R385, R387, R388: the end of a watchdog period. R383: check-ins on a timer. -/
def Obligations.WatchdogPeriodAndExpiry : Prop :=
  ∀ (late : BitVec 16) (slot : Fin 16) (s : State), Inv s →
    (wdRuns s = false → (∃ t, exec .wdWarn s = .next t ∧ framed [] s t) ∧
      ∃ t, exec (.watchdogPeriodEnd late) s = .next t ∧ framed [] s t) ∧
    (wdRuns s = true →
      (let u := moveTo (wdQuarter s 3) s
       ∃ t, exec .wdWarn s = .next t ∧ t.time = u.time ∧
         (if wdMissing u = 0 then t.wd = s.wd ∧ t.regs = s.regs
          else t.wd = { s.wd with warn := wdMissing u } ∧ bit (getReg t rWdEvt) 0 = true) ∧
         framed [.time, .regs, .bb, .wd] s t ∧ regsOutside (fun b => b = rWdEvt ∨ b = rBbMissed) s t) ∧
      (let u := moveTo (wdQuarter s 4) s
       (wdMissing u ≠ 0 → ∃ t, exec (.watchdogPeriodEnd late) s = .next t ∧ inReset 2 .wdReset u t ∧ t.bb.frozen = true ∧
         (s.bb.frozen = false → t.bb.hdr.cause = 1 ∧ t.bb.hdr.checked = s.wd.checked ∧ t.bb.hdr.mask = s.wd.mask) ∧
         t.wd.last = wdMissing u ∧ t.wd.resets = satSucc 65535 s.wd.resets) ∧
       (wdMissing u = 0 → ∃ t, exec (.watchdogPeriodEnd late) s = .next t ∧ t.wd.start = u.time.now ∧ t.wd.halted = 0 ∧
         t.wd.checked = late.toNat ∧ framed [.time, .regs, .wd, .img] s t ∧ regsOutside (· = rWdCount) s t))) ∧
    (s.clk.die = .wdReset → ∃ t, exec .watchdogResetRelease s = .next t ∧ t.clk.die = .released ∧
      t.time.now = max s.time.now (s.wd.start + 8000) ∧ framed [.time, .regs, .bb, .wd, .clk] s t) ∧
    (s.clk.die ≠ .wdReset → ∃ t, exec .watchdogResetRelease s = .next t ∧ framed [] s t) ∧
    (let due : Prop := (slot = 10 ∧ logicUp s = true ∧ s.ml.loop = none) ∨ (slot = 12 ∧ logicUp s = true) ∨
       (slot = 14 ∧ (takesBoundaries s = true ∨ imageNone s = true))
     (due → ∃ t, exec (.checkIn slot) s = .next t ∧ t.wd.checked.testBit slot.val = true ∧
       framed [.regs, .wd, .img] s t ∧ regsOutside (· = rWdCount) s t) ∧
     (¬ due → ∃ t, exec (.checkIn slot) s = .next t ∧ framed [] s t)) ∧
    (logicUp s = true → ∃ t, exec .spareCheckin s = .next t ∧ t.wd.checked.testBit 15 = true ∧
      framed [.regs, .wd, .img] s t ∧ regsOutside (· = rWdCount) s t)

/-- R279, R276, R215, R363: the start sequence. -/
def Obligations.StartSequenceSteps : Prop :=
  ∀ (f : StartFacts) (partner : List (Run × TotCopy)) (ans : PartnerAnswer) (actIn : Bool) (s : State), Inv s →
    (s.clk.die ≠ .released → ∃ t, exec (.pllLock f) s = .next t ∧ framed [] s t) ∧
    (s.clk.die = .released → ∃ t, exec (.pllLock f) s = .next t ∧ t.clk.die = .locked ∧ t.clk.lock = 15 ∧
      t.clk.modclk = true ∧ t.clk.tclkXin = !f.ref10 ∧ t.nv.c0.present = f.chip0 ∧ t.nv.c1.present = f.chip1 ∧
      t.nv.c0.failed = !f.chip0 ∧ t.nv.c1.failed = !f.chip1 ∧ t.nv.mhz = f.mhz ∧
      t.nv.c0.id = f.id0.toNat ∧ t.nv.c1.id = f.id1.toNat ∧
      t.clk.vbatDrop = (s.clk.vbatDropLatch || !f.vbatOk) ∧ t.clk.timeUnset = t.clk.vbatDrop ∧
      t.clk.retLost = (s.clk.retLost || !f.retOk || t.clk.vbatDrop || retBad s .header) ∧
      (t.clk.vbatDrop = false → t.time.ring = s.time.rtc % 2 ^ 64 ∧ t.time.rtc = s.time.rtc) ∧
      t.time.now = s.time.now ∧ t.wd.checked.testBit 14 = true ∧
      framed [.time, .regs, .halls, .convs, .sync, .runs, .per, .aud, .gal, .bb, .jnl, .img, .nv, .mem, .wd, .clk, .free] s t) ∧
    (s.clk.die ≠ .locked → ∃ t, exec .imageChoice s = .next t ∧ framed [] s t) ∧
    (s.clk.die = .locked → ∃ t, exec .imageChoice s = .next t ∧ t.wd.checked.testBit 14 = true ∧
      (((t.clk.die = .chosen ∨ t.clk.die = .applied) ∧ t.img.chip < 2 ∧ t.img.slot < 2 ∧
          getReg t 0x2D03 = BitVec.ofNat 32 t.img.gen ∧ t.img.copies.getD (2 * t.img.chip + t.img.slot) 0 = 1 ∧
          (∀ i < 4, i ≠ 2 * t.img.chip + t.img.slot → t.img.copies.getD i 0 ≠ 1) ∧
          imageBad (copyBytes s (2 * t.img.chip + t.img.slot)) = none ∧ copyHeadOk s (2 * t.img.chip + t.img.slot) = true) ∨
        (t.clk.die = .noImage ∧ (∀ i < 4, t.img.copies.getD i 0 ≠ 1) ∧
          ∀ i < 4, s.clk.straps ≠ 1 → copyHeadOk s i = true → imageBad (copyBytes s i) ≠ none)) ∧
      framed [.regs, .str, .halls, .chans, .convs, .newest, .older, .curves, .eng, .per, .aud, .bb, .jnl, .img, .nv, .mem, .wd,
        .clk, .ml, .pair] s t ∧ booksOnly s t) ∧
    (let open1 : Prop := takesBoundaries s = true ∧ s.clk.straps ≠ 2
     ((open1 ∧ s.clk.reconciled = false) → ∃ t, exec (.totalsReconcile partner) s = .next t ∧ t.clk.reconciled = true ∧
       (∀ m < 8, runEn s m = true → (getRun t m).reconciled = true) ∧
       framed [.regs, .runs, .aud, .bb, .img, .mem, .wd, .clk, .pair] s t) ∧
     (¬ (open1 ∧ s.clk.reconciled = false) → ∃ t, exec (.totalsReconcile partner) s = .next t ∧ framed [] s t) ∧
     (let due : Prop := open1 ∧ pairEn s = true ∧ s.clk.reconciled = true ∧ s.pair.confirmed = false
      (¬ due → ∃ t, exec (.roleSettle ans actIn) s = .next t ∧ framed [] s t) ∧
      (due → ∃ t, exec (.roleSettle ans actIn) s = .next t ∧ t.pair.confirmed = true ∧ t.pair.inToggling = actIn ∧
        (t.pair.active = true ↔ actIn = false ∧ (ans = .silent ∨ ∃ id strap, ans = .answers id strap ∧
          (id ≠ pairId s ∨ strap ≠ s.clk.roleStrap ∧ s.clk.roleStrap = true))) ∧
        (t.pair.single = true → t.pair.active = true) ∧
        (∀ id strap, actIn = false → ans = .answers id strap → id = pairId s → strap = s.clk.roleStrap →
          t.pair.strapConflict = true ∧ bit (getReg t rPairEvt) 14 = true) ∧
        onlyVstates s t ∧ booksOnly s t ∧
        framed [.regs, .stg, .halls, .chans, .convs, .per, .bb, .jnl, .img, .nv, .wd, .ml, .pair] s t)))

/-- R280, R389: the first valid run tick. -/
def Obligations.FirstValidRunTickReleases : Prop :=
  ∀ (s : State), Inv s →
    (mayRun s = false → ∃ t, exec .firstValidRunTick s = .next t ∧ framed [] s t) ∧
    (mayRun s = true → ∃ t, exec .firstValidRunTick s = .next t ∧
      t.time.now = max s.time.now (nextBoundary s).2 ∧ t.eng.running = true ∧ t.clk.phase = 1 ∧
      t.clk.startUs = (t.time.now - s.clk.rel) / 1000 ∧ t.wd.period = bits (getReg t rWdCfg) 9 0 ∧
      t.wd.mask = bits (getReg t rWdCfg) 31 16 ∧ t.wd.checked.testBit 14 = true ∧
      (∀ h < 8, (getHall s h).up = true → bit (getHall t h).stat 5 = false) ∧
      (s.clk.cause = 2 → bit (getReg t rWdEvt) 1 = true) ∧ (t.pins.faultN = true ↔ devFault t = 0) ∧
      framed [.time, .regs, .halls, .chans, .convs, .eng, .runs, .per, .bal, .aud, .gal, .bb, .jnl, .img, .nv, .mem, .wd, .clk,
        .pair, .tx] s t)

/-- R377, R391: debug halt and resume. -/
def Obligations.DebugHaltAndResume : Prop :=
  ∀ (s : State), Inv s →
    (let due : Prop := logicUp s = true ∧ s.clk.halt = none
     (¬ due → ∃ t, exec .debugHalt s = .next t ∧ framed [] s t) ∧
     (due → (s.pair.active = false ∨ partnerPresent s = false) → audRoom s 1 = true →
       ∃ t, exec .debugHalt s = .next t ∧ t.clk = { s.clk with halt := some (presentTick s), haltAt := s.time.now } ∧
         t.aud = { s.aud with
           queue := s.aud.queue ++ [auditRec debugOrigin 5 0xFFFF 0 (presentTick s % 2 ^ 32) 0 s]
           next := (s.aud.next + 1) % 2 ^ 48 } ∧
         framedRet [.regs, .aud, .bb, .clk] s t ∧ regsOutside (· = rBbMissed) s t) ∧
     (due → s.pair.active = true → partnerPresent s = true → hoAllowed s = true →
       ∃ t, exec .debugHalt s = .next t ∧ t.pair.hoHalt = true ∧ t.pair.hoStep = some 0 ∧ t.pair.hoOp = s.jnl.next ∧
         (journal t (jSlot s)).typ = 7 ∧ booksOnly s t ∧ framedRet [.jnl, .nv, .pair, .tx] s t) ∧
     (due → s.pair.active = true → partnerPresent s = true → hoAllowed s = false →
       ∃ t, exec .debugHalt s = .next t ∧ bit (getReg t rPairEvt) 11 = true ∧ framed [.regs, .bb] s t ∧
         regsOutside (fun b => b = rPairEvt ∨ b = rBbMissed) s t)) ∧
    (s.clk.halt = none → ∃ t, exec .debugResume s = .next t ∧ framed [] s t) ∧
    (∀ n, s.clk.halt = some n → audRoom s 1 = true →
      ∃ t, exec .debugResume s = .next t ∧ t.clk = { s.clk with halt := none } ∧
        t.wd.halted = s.wd.halted + (s.time.now - max s.clk.haltAt s.wd.start) ∧ t.pair.join = true ∧
        s.aud.queue ++ [auditRec debugOrigin 5 0xFFFF 1 (n % 2 ^ 32) (presentTick s % 2 ^ 32) s] <+: t.aud.queue ∧
        framed [.regs, .eng, .runs, .aud, .bb, .img, .mem, .wd, .clk, .pair] s t ∧
        (s.eng.late = none → t.aud = { s.aud with
            queue := s.aud.queue ++ [auditRec debugOrigin 5 0xFFFF 1 (n % 2 ^ 32) (presentTick s % 2 ^ 32) s]
            next := (s.aud.next + 1) % 2 ^ 48 } ∧
          framedRet [.regs, .eng, .aud, .bb, .img, .wd, .clk, .pair] s t))

/-- R403, R396, R398, R399: monitors and ECC. -/
def Obligations.ClockSupplyAndMemoryMonitors : Prop :=
  ∀ (i : Fin 4) (cond : ClockCond) (mem : MemId) (word : Nat) (find : EccFind) (s : State), Inv s →
    (let ev (b : Nat) (t : State) : Prop := bit (getReg t rEccEvt) b = true ∧ framed [.regs, .bb, .clk] s t ∧
       regsOutside (fun a => a = rEccEvt ∨ a = rBbMissed) s t
     (logicUp s = true →
       (∃ t, exec .xinLost s = .next t ∧ t.clk = { s.clk with xinLost := true } ∧ ev 4 t) ∧
       (s.clk.tclkXin = false → ∃ t, exec .ref10Lost s = .next t ∧ t.clk = { s.clk with ref10Lost := true } ∧ ev 3 t) ∧
       (s.clk.tclkXin = true → ∃ t, exec .ref10Lost s = .next t ∧ framed [] s t) ∧
       (s.clk.lock.testBit i.val = false → ∃ t, exec (.pllUnlock i) s = .next t ∧ framed [] s t) ∧
       (s.clk.lock.testBit i.val = true →
         ∃ t, exec (.pllUnlock i) s = .next t ∧ t.clk = { s.clk with lock := s.clk.lock - 2 ^ i.val } ∧ ev 5 t) ∧
       (∃ t, exec .rtcStop s = .next t ∧ t.clk = { s.clk with rtcStop := true } ∧ ev 7 t) ∧
       (∃ t, exec .vbatLow s = .next t ∧ t.clk = { s.clk with vbatLow := true } ∧ ev 6 t)) ∧
     (logicUp s = false →
       (∃ t, exec .xinLost s = .next t ∧ framed [] s t) ∧ (∃ t, exec .ref10Lost s = .next t ∧ framed [] s t) ∧
       (∃ t, exec (.pllUnlock i) s = .next t ∧ framed [] s t) ∧ (∃ t, exec .vbatLow s = .next t ∧ framed [] s t) ∧
       (∃ t, exec .rtcStop s = .next t ∧ t.clk = { s.clk with rtcStop := true } ∧ framed [.clk] s t) ∧
       (∃ t, exec (.scrub mem word find) s = .next t ∧ framed [] s t)) ∧
     (∃ t, exec (.clockConditionClear cond) s = .next t ∧ framed [.clk] s t ∧
       t.clk.xinLost = (s.clk.xinLost && cond != .xin) ∧ t.clk.ref10Lost = (s.clk.ref10Lost && cond != .ref10) ∧
       t.clk.rtcStop = (s.clk.rtcStop && cond != .rtc) ∧ (cond = .pll i → logicUp s = true → t.clk.lock.testBit i.val = true)) ∧
     (∃ t, exec .vbatLowClear s = .next t ∧ t.clk = { s.clk with vbatLow := false } ∧ framed [.clk] s t) ∧
     (∃ t, exec .vbatDrop s = .next t ∧ t.clk = { s.clk with vbatDropLatch := s.clk.vbatDropLatch || s.clk.vddcOff } ∧
       framed [.clk] s t) ∧
     (logicUp s = true →
       (∃ t, exec (.scrub mem word .clean) s = .next t ∧ framed [] s t) ∧
       (∃ t, exec (.scrub mem word .single) s = .next t ∧ bit (getReg t rEccEvt) 0 = true ∧
         (mem = .main → bits (getReg t 0x2922) 31 24 = min 255 (bits (getReg s 0x2922) 31 24 + 1)) ∧
         (mem = .ret → bits (getReg t 0x2922) 23 16 = min 255 (bits (getReg s 0x2922) 23 16 + 1)) ∧
         (mem = .prog → bits (getReg t 0x2922) 15 8 = min 255 (bits (getReg s 0x2922) 15 8 + 1)) ∧
         (mem = .mirror → bits (getReg t 0x2922) 7 0 = min 255 (bits (getReg s 0x2922) 7 0 + 1)) ∧
         (∀ h : Hall, mem = .hall h →
           bits (getReg t 0x2923) (4 * h.val + 3) (4 * h.val) = min 15 (bits (getReg s 0x2923) (4 * h.val + 3) (4 * h.val) + 1)) ∧
         framed [.regs, .bb] s t ∧
         regsOutside (fun a => a = 0x2922 ∨ a = 0x2923 ∨ a = rEccEvt ∨ a = rBbMissed) s t) ∧
       (∃ t, exec (.scrub mem word .double) s = .next t ∧ bit (getReg t rEccEvt) 1 = true ∧ t.bb.frozen = true ∧
         (s.bb.frozen = false → t.bb.hdr.cause = 5 ∧ t.bb.hdr.addr = word) ∧
         getReg t 0x2924 = BitVec.ofNat 32 ((memNumber mem).1 * 2 ^ 28 + (memNumber mem).2 * 2 ^ 24 + word % 2 ^ 17) ∧
         (∀ h : Hall, mem = .hall h → (getHall t h).ecc = true) ∧
         booksOnly s t ∧ framed [.regs, .str, .halls, .chans, .convs, .newest, .older, .bb, .jnl, .img, .nv, .mem] s t)) ∧
     (let lo := 8192 * s.mem.half
      match s.mem.bad.find? fun e => e.1 = 2 && lo ≤ e.2 && e.2 < lo + 8192 with
      | none => ∃ t, exec .programRamRewrite s = .next t ∧ framed [] s t
      | some e => if takesBoundaries s = false then ∃ t, exec .programRamRewrite s = .next t ∧ framed [] s t
        else
          let k := (e.2 - lo) / 256
          ∃ t, exec .programRamRewrite s = .next t ∧ (∀ x ∈ t.mem.bad, ¬ (x.1 = 2 ∧ lo + 256 * k ≤ x.2 ∧ x.2 < lo + 256 * k + 256)) ∧
            (∀ j < 1024, mread 0 t.mem.prog (4 * lo + 1024 * k + j) = (activeImg s).prog.getD (1024 * k + j) 0) ∧
            (∀ j, (j < 4 * lo + 1024 * k ∨ 4 * lo + 1024 * k + 1024 ≤ j) →
              mread 0 t.mem.prog j = mread 0 s.mem.prog j) ∧ framed [.mem] s t))

/-- R60, R61, R64, R69, R70: flags of a hall. -/
def Obligations.HallStatusFlagsFollowMeasures : Prop :=
  ∀ (h : Hall) (d : Int) (b : Bool) (s : State), Inv s →
    ((getHall s h).up = false →
      ∀ c ∈ [Instr.sag1 h, .sag1Clear h, .sag2 h, .sag2Clear h, .lpOverDecl h b, .recovering h b, .dieTempMeasure h d,
        .hallOvertempEnd h, .sag3 h, .recoveryEnd h, .restoreSwitchOn h], ∃ t, exec c s = .next t ∧ framed [] s t) ∧
    ((getHall s h).up = true →
      (let st := (getHall s h).stat
       (∃ t, exec (.sag1 h) s = .next t ∧ (getHall t h).stat = putBit st 1 true ∧
         (bit st 1 = false → hallRaised h 1 t) ∧ hallOnly h s t) ∧
       (∃ t, exec (.sag1Clear h) s = .next t ∧ (getHall t h).stat = putBit st 1 false ∧ hallOnly h s t) ∧
       (∃ t, exec (.sag2 h) s = .next t ∧ (getHall t h).stat = putBit st 2 true ∧ (bit st 2 = false → hallRaised h 2 t) ∧
         (∀ c < 4, bit (getChan t h c).stat 12 = (modeOf s h c = 15 : Bool) ∧
           bit (getChan t h c).stat 13 = (modeOf s h c = 5 : Bool)) ∧ hallOnly h s t) ∧
       (∃ t, exec (.sag2Clear h) s = .next t ∧ (getHall t h).stat = putBit st 2 false ∧
         (∀ c < 4, bit (getChan t h c).stat 12 = false ∧ bit (getChan t h c).stat 13 = false) ∧ hallOnly h s t) ∧
       (∃ t, exec (.lpOverDecl h b) s = .next t ∧ (getHall t h).stat = putBit st 9 b ∧
         (b = true → bit st 9 = false → hallRaised h 9 t) ∧ hallOnly h s t) ∧
       (∃ t, exec (.recovering h b) s = .next t ∧ (getHall t h).stat = putBit st 4 (b && bit st 3) ∧ hallOnly h s t) ∧
       (∃ t, exec (.dieTempMeasure h d) s = .next t ∧ (getHall t h).tdie = d ∧
         bit (getHall t h).stat 7 = (if 1200 < d then true else if d < 1150 then false else bit st 7) ∧
         bit (getHall t h).stat 8 = (bit st 8 || decide (1400 < d)) ∧
         (1400 < d → ∀ c < 4, isOutMode (modeOf s h c) = true → (getChan s h c).ramp = none → (getChan t h c).drive = 0) ∧
         hallOnly h s t) ∧
       (∃ t, exec (.hallOvertempEnd h) s = .next t ∧ bit (getHall t h).stat 8 = false ∧ hallOnly h s t)))

/-- R62, R56, R58, R64: SAG3 and recovery. -/
def Obligations.Sag3AndItsRecovery : Prop :=
  ∀ (h : Hall) (s : State), Inv s → (getHall s h).up = true →
    (bit (getHall s h).stat 3 = true → ∃ t, exec (.sag3 h) s = .next t ∧ (getHall t h).stat = (getHall s h).stat ∧
      (∀ c < 4, (getChan t h c).drive = (getChan s h c).drive ∧ (getChan t h c).ramp = (getChan s h c).ramp) ∧
      hallOnly h s t) ∧
    (bit (getHall s h).stat 3 = false → ∃ t, exec (.sag3 h) s = .next t ∧ bit (getHall t h).stat 3 = true ∧
      hallRaised h 3 t ∧
      (∀ c < 4, modeOf s h c = 15 → (getChan t h c).ramp =
        some { from_ := driveNow s h c, dest := 0, start := s.time.now, len := 200000, rank := 2 }) ∧
      ((∀ c < 4, modeOf s h c ≠ 15 ∧ (getChan s h c).ramp = none) →
        ∀ c < 4, isOutMode (modeOf s h c) = true → (getChan t h c).drive = 0) ∧ hallOnly h s t) ∧
    (let x := getHall s h
     (¬ (bit x.stat 3 = true ∧ bit x.stat 4 = true) → ∃ t, exec (.recoveryEnd h) s = .next t ∧
       (getHall t h).stat = x.stat ∧ (∀ c < 4, (getChan t h c).drive = (getChan s h c).drive) ∧ hallOnly h s t) ∧
     (bit x.stat 3 = true → bit x.stat 4 = true → ∃ t, exec (.recoveryEnd h) s = .next t ∧
       bit (getHall t h).stat 3 = false ∧ bit (getHall t h).stat 4 = false ∧ (getHall t h).uvrSag = false ∧
       (x.active = false ∨ x.hold = true → (getHall t h).leaveDue = some (if x.uvrSag && !x.uvrEvt then .none else .off) ∧
         ∀ c < 4, (getChan t h c).drive = (getChan s h c).drive ∧ (getChan t h c).latch = (getChan s h c).latch) ∧
       (∀ c < 4, x.active = true → x.hold = false → isOutMode (modeOf s h c) = true → leadOf s h c = c →
         bit (chSafeW s h c) 3 = true → (x.uvrSag = false ∨ x.uvrEvt = true) →
         (getChan t h c).latch = .off ∧ bit (getChan t h c).stat 7 = true) ∧
       (∀ c < 4, modeOf s h c = 15 → (bit (chSafeW s h c) 3 = false ∨ (x.uvrSag = true ∧ x.uvrEvt = false)) →
         x.active = true → x.hold = false → outRank t h c = 5 → (getChan t h c).ramp = some
           { from_ := driveNow s h c, dest := (getChan s h c).cmd, start := s.time.now, len := 200000, rank := 5 }) ∧
       hallOnly h s t)) ∧
    (match (List.range 4).find? fun c => (getChan s h c).queued with
     | none => ∃ t, exec (.restoreSwitchOn h) s = .next t ∧ hallOnly h s t
     | some c => ∃ t, exec (.restoreSwitchOn h) s = .next t ∧ (getChan t h c).queued = false ∧
         t.time.now = max s.time.now (getHall s h).nextOn ∧ (getHall t h).nextOn = t.time.now + 1000000 ∧
         framed [.time, .regs, .halls, .chans, .per, .bb] s t ∧ regsOutside (hallRegs h) s t ∧ hallApart h s t ∧
         onlyVstates s t)

/-- R32, R33, R34: the hall link. -/
def Obligations.HeartbeatsAndStatusFrames : Prop :=
  ∀ (h : Hall) (good : Bool) (seq : BitVec 16) (m : HallMeas) (s : State), Inv s →
    (heartbeatAllowed s = false → ∃ t, exec .hallHeartbeatSend s = .next t ∧ framed [] s t) ∧
    (heartbeatAllowed s = true → ∃ t, exec .hallHeartbeatSend s = .next t ∧
      t.tx = s.tx ++ (List.range 8).map (fun k =>
        ⟨4 + k, leBytes 2 (getHall s k).hbTx ++ leBytes 4 ((getHall s k).crc.getD 0), true⟩) ∧
      (∀ k < 8, getHall t k = { getHall s k with hbTx := ((getHall s k).hbTx + 1) % 65536 }) ∧
      t.wd.checked.testBit 13 = true ∧ framed [.regs, .halls, .img, .wd, .tx] s t ∧ regsOutside (· = rWdCount) s t) ∧
    (let valid : Prop := (getHall s h).up = true ∧ good = true ∧ (getHall s h).hbSeq ≠ some seq.toNat
     (¬ valid → ∃ t, exec (.heartbeat h good seq) s = .next t ∧ framed [] s t) ∧
     (valid → ∃ t, exec (.heartbeat h good seq) s = .next t ∧ (getHall t h).hbSeq = some seq.toNat ∧
       bit (getHall t h).stat 5 = (bit (getHall s h).stat 5 && s.clk.phase != 1) ∧ hallForms h s t)) ∧
    ((getHall s h).up = false → (∃ t, exec (.hbLoss h) s = .next t ∧ framed [] s t) ∧
      ∃ t, exec (.statusFrame h m) s = .next t ∧ framed [] s t) ∧
    ((getHall s h).up = true → ∃ t, exec (.hbLoss h) s = .next t ∧ bit (getHall t h).stat 5 = true ∧ hallRaised h 5 t ∧
      (∀ c < 4, isOutMode (modeOf s h c) = true → (getChan s h c).ramp = none → outRank t h c = 4 →
        (getChan t h c).drive = safeValue t h c) ∧ hallForms h s t) ∧
    ((getHall s h).up = true → logicUp s = true → m.fits = false → ∃ t, exec (.statusFrame h m) s = .next t ∧
      bits (getReg t 0x2930) 31 28 = 1 ∧ bit (getReg t rEccEvt) 2 = true ∧ framed [.regs, .bb] s t ∧
      regsOutside (fun a => a = 0x2930 ∨ a = rEccEvt ∨ a = rBbMissed) s t) ∧
    ((getHall s h).up = true → logicUp s = true → m.fits = true →
      ∃ t, exec (.statusFrame h m) s = .next t ∧ (getHall t h).linked = true ∧
      (getHall t h).vlp = m.vlp ∧ (getHall t h).vres = m.vres ∧ (getHall t h).cj = m.cj ∧
      getReg t (aHall h 0x02) = BitVec.ofNat 32 (min m.vres 65535 * 65536 + min m.vlp 65535) ∧
      getReg t (aHall h 0x6F) = m.cj ∧ getReg t (aHall h 0x03) = (getHall s h).stat ∧
      (∀ c < 4, getReg t (aCh h c 0x20) = (getChan t h c).stat ∧
        bit (getChan t h c).stat 0 = (if modeOf s h c = 13 ∨ modeOf s h c = 14 ∨ modeOf s h c = 16 then m.frc.getLsbD c
          else bit (getChan s h c).stat 0) ∧
        ∀ i, 0 < i → bit (getChan t h c).stat i = bit (getChan s h c).stat i) ∧
      framed [.regs, .halls, .chans, .per, .bb] s t ∧ hallApart h s t ∧ onlyVstates s t ∧
      regsOutside (fun a => hallRegs h a ∨ a = aHall h 0x02 ∨ a = aHall h 0x6F) s t) ∧
    (logicUp s = true → ∃ t, exec (.hallDown h) s = .next t ∧ (getHall t h).linked = false ∧
      bit (getReg t (aHall h 0x03)) 0 = true ∧
      (bit (getReg s (aHall h 0x03)) 0 = false → bit (getReg t (rHallEvt h)) 0 = true) ∧
      (∀ a ∈ heldAddrs h, liveWord t a = liveWord s a) ∧ framed [.regs, .halls, .bb] s t ∧ hallApart h s t ∧
      regsOutside (fun a => a = aHall h 0x03 ∨ a = rHallEvt h ∨ a = rBbMissed ∨ a ∈ heldAddrs h) s t) ∧
    (logicUp s = false → (∃ t, exec (.hallDown h) s = .next t ∧ framed [] s t) ∧
      ∃ t, exec (.statusFrame h m) s = .next t ∧ framed [] s t)

/-- R36, R63, R421: under-voltage reset. -/
def Obligations.UnderVoltageResetAndExit : Prop :=
  ∀ (h : Hall) (s : State), Inv s →
    ((getHall s h).up = false → (∃ t, exec (.underVoltageReset h) s = .next t ∧ framed [] s t) ∧
      ∃ t, exec (.hallUvrExit h) s = .next t ∧ framed [.halls] s t ∧ hallApart h s t ∧
        getHall t h = { getHall s h with up := true, stat := 8, uvrSag := true, uvrEvt := false }) ∧
    ((getHall s h).up = true → (∃ t, exec (.hallUvrExit h) s = .next t ∧ framed [] s t) ∧
      ∃ t, exec (.underVoltageReset h) s = .next t ∧ (getHall t h).up = false ∧ (getHall t h).cfg = [] ∧
        (getHall t h).crc = none ∧ (getHall t h).active = false ∧ (getHall t h).running = false ∧
        (getHall t h).ret0 = (getHall s h).kept0 ∧ (getHall t h).ret1 = (getHall s h).kept1 ∧
        (getHall t h).kept0 = (getHall s h).kept0 ∧ (getHall t h).kept1 = (getHall s h).kept1 ∧
        (∀ c < 4, (getChan t h c).mode = 0 ∧ (getChan t h c).drive = 0 ∧ (getChan t h c).ramp = none) ∧
        (∀ k < 2, (getConv t (2 * h + k)).phase = .idle ∧ (getConv t (2 * h + k)).role = .none) ∧
        (∀ a ∈ heldAddrs h, liveWord t a = liveWord s a) ∧ framed [.regs, .halls, .chans, .convs] s t ∧
        regsOutside (· ∈ heldAddrs h) s t ∧ hallApart h s t ∧ convsOutside (fun n => n / 2 = h.val) s t)

/-- R37 to R44: discrete and pulse inputs. The free values under FREQ_HIGH are log 9. -/
def Obligations.ChannelInputsFollowTheirTerminals : Prop :=
  ∀ (h : Hall) (c : Chan) (b : Bool) (i : MicroAmp) (ns : Nat) (r : PulseReport) (s : State), Inv s →
    ((getHall s h).up = false → ∀ k ∈ [Instr.stateEvt h c b, .wireBreakMeasure h c i, .pulseEdge h c b ns, .freqHighClear h c,
      .pulseDelivery h c r], ∃ t, exec k s = .next t ∧ framed [] s t) ∧
    ((getHall s h).up = true →
      (let x := getChan s h c
       let w := chCfgW s h c
       (∃ t, exec (.stateEvt h c b) s = .next t ∧ hallOnly h s t ∧
         (if (x.mode = 1 ∨ x.mode = 2) ∧ s.clk.modclk = true then
           (getChan t h c).stat = putBit x.stat 0 b ∧
             (b ≠ bit x.stat 0 → chanRaised h c 0 t ∧ (getChan t h c).stTime = firstSample s h c)
         else (getChan t h c).stat = x.stat)) ∧
       (∃ t, exec (.wireBreakMeasure h c i) s = .next t ∧ hallOnly h s t ∧
         (if x.mode = 3 then
           let band := wbBand (hcfg s h (aHall h (0x14 + c))) i
           let n := if x.wbBand = band then min (x.wbCount + 1) 1000 else 1
           (getChan t h c).wbBand = band ∧ (getChan t h c).wbCount = n ∧
           (if wbNeeded w ≤ n ∧ band ≠ 4 then
             bits (getChan t h c).stat 2 1 = band ∧ bit (getChan t h c).stat 3 = (band = 0 || band = 3) ∧
             bit (getChan t h c).stat 0 = (if band = 1 then false else if band = 2 then true else bit x.stat 0)
           else (getChan t h c).stat = x.stat)
         else (getChan t h c).stat = x.stat ∧ (getChan t h c).wbCount = x.wbCount)) ∧
       (∃ t, exec (.pulseEdge h c b ns) s = .next t ∧ framed [.regs, .halls, .chans, .per, .bb, .free] s t ∧
         regsOutside (hallRegs h) s t ∧ hallApart h s t ∧ onlyVstates s t ∧
         (if x.mode ≠ 4 ∨ s.clk.modclk = false ∨ ns < 1000 * bits w 16 14 then
           (getChan t h c).pcnt = x.pcnt ∧ (getChan t h c).stat = x.stat
         else
           bit (getChan t h c).stat 10 = (bit x.stat 10 || decide (ns < 10000)) ∧
           (edgeSelected w b = false → (getChan t h c).pcnt = x.pcnt ∧ (getChan t h c).plast = x.plast) ∧
           (edgeSelected w b = true → bit (getChan t h c).stat 10 = false →
             let k := edgeStep s
             let now := edgeTime s k
             (getChan t h c).pstep = some k ∧ (getChan t h c).acc = x.acc + 1 ∧ (getChan t h c).pcnt = (x.pcnt + 1) % 2 ^ 32 ∧ t.free = s.free ∧
               (getChan t h c).plast = some now ∧ (getChan t h c).accLast = now ∧
               (∀ j, x.pstep = some j → j ≤ k → (k - j) * 15625 / 4096 ≤ 0xFFFFFFFF →
                 (getChan t h c).pper = some ((k - j) * 15625 / 4096))) ∧
           (edgeSelected w b = true → bit (getChan t h c).stat 10 = true →
             ∃ n now, (getChan t h c).acc = x.acc + n ∧ (getChan t h c).pcnt = (x.pcnt + n) % 2 ^ 32 ∧
               (getChan t h c).plast = some now ∧ (getChan t h c).accLast = now))) ∧
       (∃ t, exec (.freqHighClear h c) s = .next t ∧ (getChan t h c).stat = putBit x.stat 10 false ∧ hallOnly h s t) ∧
       (∃ t, exec (.pulseDelivery h c r) s = .next t ∧ framed [.regs, .halls, .chans, .per, .bb, .pair, .tx] s t ∧
         regsOutside (fun a => hallRegs h a ∨ a = 0x2930 ∨ a = rEccEvt) s t ∧ hallApart h s t ∧ onlyVstates s t ∧
         (if x.mode = 4 then
           let d : Deliv :=
             { idx := (x.delivN + 1) % 2 ^ 32, edges := x.acc, first := x.accFirst, last := x.accLast, high := bit x.stat 10 }
           (getChan t h c).level = r.level ∧ (getChan t h c).acc = 0 ∧ (getChan t h c).delivN = d.idx ∧
             (getChan t h c).deliv = (if r.fits then x.deliv ++ [d] else x.deliv) ∧
             (if r.fits = true ∧ mirrorSends s = true then
               pairSent 3 (delivSlot (tickOf s.time.ring + 1) (4 * h + c)) (delivBytes d) s t
             else t.tx = s.tx ∧ t.pair = s.pair) ∧
             (r.fits = false → logicUp s = true → bits (getReg t 0x2930) 31 28 = 1 ∧ bit (getReg t rEccEvt) 2 = true)
         else (getChan t h c).deliv = x.deliv ∧ (getChan t h c).acc = x.acc ∧ t.tx = s.tx ∧ t.pair = s.pair))))

/-- R57, R55, R71, R31, R87: commands, mode changes and the end of a ramp. -/
def Obligations.OutputCommandsModesAndRamps : Prop :=
  ∀ (h : Hall) (c : Chan) (v : Word) (s : State), Inv s →
    ((getHall s h).up = false → ∀ k ∈ [Instr.outputCommand h c v, .modeChangeApply h c, .rampEnd h c],
      ∃ t, exec k s = .next t ∧ framed [] s t) ∧
    ((getHall s h).up = true →
      (let x := getChan s h c
       let free : Prop := (getHall s h).hold = false ∧ x.queued = false ∧ outRank s h c = 5
       (∃ t, exec (.outputCommand h c v) s = .next t ∧
         (∀ m, poutRun s (4 * h + c) = some m → (getChan t h c).pulseLeft = v.toNat ∧ (getChan t h c).pulseW = pulseWidth s m ∧
           (getChan t h c).cmd = x.cmd ∧ (getChan t h c).drive = x.drive) ∧
         (poutRun s (4 * h + c) = none → (getChan t h c).cmd = min v.toNat (cmdLimit s h c) ∧
           ((x.mode = 13 ∨ x.mode = 15 ∨ x.mode = 16) → x.ramp = none → free →
             (getChan t h c).drive = min v.toNat (cmdMax x.mode))) ∧
         (∀ d < 4, d ≠ c.val → (getChan t h d).cmd = (getChan s h d).cmd ∧ (getChan t h d).mode = (getChan s h d).mode) ∧
         hallOnly h s t) ∧
       (x.newMode = none → ∃ t, exec (.modeChangeApply h c) s = .next t ∧ framed [] s t) ∧
       (∀ m t0, x.newMode = some (m, t0) → ∃ t, exec (.modeChangeApply h c) s = .next t ∧
         (getChan t h c).mode = (if idleForm s h c && (m = 5 || m = 6) then 17 else m) ∧ (getChan t h c).newMode = none ∧ (getChan t h c).cmd = min x.cmd (cmdMax m) ∧
         t.time.now = max s.time.now t0 ∧ framed [.time, .regs, .halls, .chans, .convs, .per, .bb] s t ∧
         regsOutside (hallRegs h) s t ∧ hallApart h s t ∧ convsOutside (fun n => n / 2 = h.val) s t ∧ onlyVstates s t) ∧
       (x.ramp = none → ∃ t, exec (.rampEnd h c) s = .next t ∧ (getChan t h c).drive = x.drive ∧ hallOnly h s t) ∧
       (∀ r, x.ramp = some r → ∃ t, exec (.rampEnd h c) s = .next t ∧ (getChan t h c).ramp = none ∧
         t.time.now = max s.time.now (r.start + r.len) ∧
         (r.rank ≠ 2 → x.mode = 15 → free → (getChan t h c).drive = x.cmd) ∧
         (r.rank ≠ 2 → isOutMode x.mode = false → (getChan t h c).drive = r.dest) ∧
         framed [.time, .regs, .halls, .chans, .per, .bb] s t ∧ regsOutside (hallRegs h) s t ∧ hallApart h s t ∧
         onlyVstates s t)))

/-- R48 to R50: switch-offs and retries. -/
def Obligations.SwitchOffsAndRetries : Prop :=
  ∀ (h : Hall) (c : Chan) (b : Bool) (p : LimitPhase) (s : State), Inv s →
    ((getHall s h).up = false → ∀ k ∈ [Instr.overload h ⟨c, p⟩, .extDrive h ⟨c, b⟩, .reverseCurrent h c, .readback h c, .loopShort h c,
      .burdenOver h c, .retry h c b, .retryClear h c], ∃ t, exec k s = .next t ∧ framed [] s t) ∧
    ((getHall s h).up = true →
      (let x := getChan s h c
       let n := if bit x.stat 9 then x.attempts + 1 else x.attempts
       let off (t : State) : Prop := (getChan t h c).cut = true ∧
         (isOutMode x.mode = true → x.ramp = none → sagRamping s h = false → (getChan t h c).drive = 0)
       let latched (t : State) : Prop := (getChan t h c).latch = .off ∧ bit (getChan t h c).stat 7 = true ∧
         bit (getChan t h c).stat 9 = false
       let tried (t : State) : Prop := off t ∧ (getChan t h c).attempts = n ∧
         (n < retryCount s h → bit (getChan t h c).stat 9 = true) ∧ (retryCount s h ≤ n → latched t)
       let kept (t : State) : Prop := (getChan t h c).stat = x.stat ∧ (getChan t h c).cut = x.cut
       (x.mode ≠ 14 →
         (∃ t, exec (.overload h ⟨c, p⟩) s = .next t ∧ hallOnly h s t ∧
           (if p = .left then (getChan t h c).cut = x.cut ∧ (getChan t h c).stat = if x.cut then x.stat else putBit x.stat 4 false
           else if stageOn s h c then bit (getChan t h c).stat 4 = true ∧
             (p = .switchedOff → tried t) ∧ (p = .entered → (getChan t h c).cut = x.cut ∧ (getChan t h c).drive = x.drive)
           else kept t)) ∧
         (∃ t, exec (.extDrive h ⟨c, b⟩) s = .next t ∧ hallOnly h s t ∧
           (if b = false then (getChan t h c).stat = (if x.rev then x.stat else putBit x.stat 5 false) ∧
             (getChan t h c).cut = x.cut
           else if (x.mode = 13 ∨ x.mode = 16) ∧ offLong s h c = true ∧ sharedStandby s h c = false then
             (getChan t h c).stat = putBit x.stat 5 true ∧ (getChan t h c).cut = x.cut ∧
               (bit x.stat 5 = false → chanRaised h c 5 t)
           else kept t)) ∧
         (∃ t, exec (.reverseCurrent h c) s = .next t ∧ hallOnly h s t ∧
           (if stageOn s h c && !sharedStandby s h c && !handoverOverlap s h c then bit (getChan t h c).stat 5 = true ∧ (getChan t h c).rev = true ∧
             off t ∧ latched t else kept t)) ∧
         (∃ t, exec (.readback h c) s = .next t ∧ hallOnly h s t ∧
           (if stageOn s h c && !sharedStandby s h c then bit (getChan t h c).stat 6 = true ∧ off t ∧ latched t else kept t))) ∧
       (∃ t, exec (.loopShort h c) s = .next t ∧ hallOnly h s t ∧
         (if x.mode = 5 then bit (getChan t h c).stat 11 = true ∧ tried t else kept t)) ∧
       (∃ t, exec (.burdenOver h c) s = .next t ∧ hallOnly h s t ∧
         (if x.mode = 6 then bit (getChan t h c).ain 3 = true ∧ tried t else kept t)) ∧
       (∃ t, exec (.retry h c b) s = .next t ∧ hallOnly h s t ∧
         (if x.cut && bit x.stat 9 && !bit (getHall s h).stat 3 then
           (if b then tried t
            else (getChan t h c).cut = false ∧ bit (getChan t h c).stat 4 = false ∧ bit (getChan t h c).stat 11 = false)
         else kept t)) ∧
       (∃ t, exec (.retryClear h c) s = .next t ∧ hallOnly h s t ∧
         (if bit x.stat 9 && !x.cut then (getChan t h c).attempts = 0 ∧ (getChan t h c).stat = putBit x.stat 9 false
          else kept t)) ∧
       (let failed (t : State) : Prop := (getChan t h (leadOf s h c)).gangSafe = true ∧
          bit (getChan t h (leadOf s h c)).stat 7 = true ∧ hallOnly h s t
        x.mode = 14 →
         (stageOn s h c = true → p ≠ .left → ∃ t, exec (.overload h ⟨c, p⟩) s = .next t ∧ bit (getChan t h c).stat 4 = true ∧
           failed t) ∧
         (offLong s h c = true → sharedStandby s h c = false →
           ∃ t, exec (.extDrive h ⟨c, true⟩) s = .next t ∧ failed t) ∧
         (stageOn s h c = true → sharedStandby s h c = false →
           (handoverOverlap s h c = false →
             ∃ t, exec (.reverseCurrent h c) s = .next t ∧ bit (getChan t h c).stat 5 = true ∧ failed t) ∧
           ∃ t, exec (.readback h c) s = .next t ∧ bit (getChan t h c).stat 6 = true ∧ failed t))))

/-- R51, R54, R56, R91: the writes that act on a hall. -/
def Obligations.HallAckForceSafeAndForce : Prop :=
  ∀ (o : Origin) (h : Hall) (acks pres : BitVec 4) (s : State), Inv s → (getHall s h).up = true →
    (logicUp s = true → ∃ t, exec (.hallAck o h acks pres) s = .next t ∧ hallOnly h s t ∧
      ∀ c < 4, modeOf s h c ≠ 14 →
        (if acks.getLsbD c && bit (getChan s h c).stat 7 then
          (getChan t h c).latch = .none ∧ (getChan t h c).cut = false ∧ (getChan t h c).attempts = 0 ∧
            bit (getChan t h c).stat 7 = false ∧ bit (getChan t h c).stat 9 = false
        else (getChan t h c).stat = (getChan s h c).stat ∧ (getChan t h c).latch = (getChan s h c).latch ∧
          (getChan t h c).drive = (getChan s h c).drive)) ∧
    (let a := aHall h 0x05
     let forced (v : Word) (t : State) : Prop := getReg t a = v ∧ bit (getHall t h).stat 6 = bit v 0 ∧
       (∃ r, t.aud = { s.aud with queue := s.aud.queue ++ [r], next := (s.aud.next + 1) % 2 ^ 48, writes := s.aud.writes + 1 } ∧
         r.kind = 0 ∧ r.addr = a ∧ r.new = v.toNat ∧ r.src = o.src) ∧
       forwarded o a allBits v s t ∧ framedRet [.regs, .halls, .chans, .per, .aud, .bb, .pair, .tx] s t ∧
       regsOutside (fun b => hallRegs h b ∨ b = a) s t ∧
       hallApart h s t ∧ onlyVstates s t
     (acceptsAct o a 1 s → baseWord s a &&& 0xFFFFFFFE = 0 →
       (∃ t, exec (.forceSafe o h) s = .next t ∧ forced 1 t ∧
         ∀ c < 4, isOutMode (modeOf s h c) = true → (getChan s h c).ramp = none → outRank t h c = 4 →
           (getChan t h c).drive = safeValue t h c) ∧
       ∃ t, exec (.forceSafeRelease o h) s = .next t ∧ forced 0 t) ∧
     (acceptsAct o (aHall h 0x6C) 1 s →
       ((getHall s h).excNew = none → ∃ t, exec (.force o h) s = .next t ∧ audited o (aHall h 0x6C) 1 s t ∧
         forwarded o (aHall h 0x6C) allBits 1 s t ∧ framedRet [.aud, .pair, .tx] s t) ∧
       (∀ e, (getHall s h).excNew = some e → ∃ t, exec (.force o h) s = .next t ∧ audited o (aHall h 0x6C) 1 s t ∧
         forwarded o (aHall h 0x6C) allBits 1 s t ∧ (getHall t h).exc = e ∧ (getHall t h).excNew = none ∧
         (bit (getHall t h).excEvt 7 = true ∨ bit (getReg t (rExcEvt h)) 7 = true) ∧
         framedRet [.regs, .halls, .chans, .convs, .per, .aud, .bb, .pair, .tx] s t ∧ regsOutside (hallRegs h) s t ∧
         hallApart h s t ∧ convsOutside (fun n => n / 2 = h.val) s t ∧ onlyVstates s t)))

/-- R82 to R86, R93. The sample counts are log 14. -/
def Obligations.CurrentOutputMonitorAndExcitation : Prop :=
  ∀ (h : Hall) (c : Chan) (b : Bool) (i : MicroAmp) (vf vl : Int) (s : State), Inv s →
    ((getHall s h).up = false → ∀ k ∈ [Instr.currentMonitorSample h c i vf vl, .extOvercurrentReclose h c b,
      .extOvercurrentClear h c, .vexcLimit h b, .vexcSenseOpen h b], ∃ t, exec k s = .next t ∧ framed [] s t) ∧
    ((getHall s h).up = true →
      (let x := getChan s h c
       let ref : Int := driveNow s h c
       let hr := headroom2 i vf vl
       let beyond : Bool := ref + 500 < i && !(decide (s.time.now < x.suspend)) && !bit (chSensW s h c) 17 &&
         (x.ext == .none || x.ext == .driving)
       (∃ t, exec (.currentMonitorSample h c i vf vl) s = .next t ∧ hallOnly h s t ∧
         (if x.mode = 15 then (getChan t h c).imeas = imeasWord i vf vl ∧
           (if bit (getHall s h).stat 3 then (getChan t h c).stat = x.stat ∧ (getChan t h c).mon = List.replicate 8 0
            else
              bit (getChan t h c).stat 18 = (if bit x.stat 18 then decide (monStep x.mon 5 (500 ≤ i) < 11)
                else decide (51 ≤ monStep x.mon 4 (hr < 200000 && i < 200 && 1000 ≤ ref && !sharedStandby s h c))) ∧
              (4 ≤ monStep x.mon 7 beyond → bit (getChan t h c).stat 19 = true ∧ (getChan t h c).cut = true ∧
                (getChan t h c).ext = (if x.ext = .driving then .latched else .opened) ∧
                (x.ext = .driving → bit (getChan t h c).stat 7 = true)) ∧
              (monStep x.mon 7 beyond < 4 → bit (getChan t h c).stat 19 = bit x.stat 19 ∧ (getChan t h c).ext = x.ext))
         else getChan t h c = { x with evt := (getChan t h c).evt, ainEvt := (getChan t h c).ainEvt })) ∧
       (∃ t, exec (.extOvercurrentReclose h c b) s = .next t ∧ hallOnly h s t ∧
         (if x.ext = .opened then
           (if b then (getChan t h c).ext = .latched ∧ (getChan t h c).cut = true ∧ bit (getChan t h c).stat 7 = true
            else (getChan t h c).ext = .driving ∧ (getChan t h c).cut = false)
         else (getChan t h c).stat = x.stat ∧ (getChan t h c).ext = x.ext)) ∧
       (∃ t, exec (.extOvercurrentClear h c) s = .next t ∧ hallOnly h s t ∧
         (if x.ext = .driving then (getChan t h c).ext = .none ∧ (getChan t h c).extSafe = false ∧
           bit (getChan t h c).stat 19 = false
         else (getChan t h c).stat = x.stat ∧ (getChan t h c).ext = x.ext)) ∧
       (∃ t, exec (.vexcLimit h b) s = .next t ∧ (getHall t h).excStat = putBit (getHall s h).excStat 5 b ∧ hallOnly h s t) ∧
       (∃ t, exec (.vexcSenseOpen h b) s = .next t ∧ (getHall t h).excStat = putBit (getHall s h).excStat 6 b ∧
         hallOnly h s t)))

/-- R113, R117, R108: the timing of steps. R107, R131: the code of a result. -/
def Obligations.StepsRunSettleConvertAndAdvance : Prop :=
  ∀ (n : Conv) (x : Sample) (high : Bool) (s : State), Inv s →
    (let v := getConv s n
     let h := n.val / 2
     let a := stepA s n v.inj v.step
     let b := stepB s n v.inj v.step
     (¬ (v.phase = .boundary ∧ v.role = .flight ∧ s.clk.modclk = true) →
       ∃ t, exec (.stepBoundary n) s = .next t ∧ framed [] s t) ∧
     (v.phase = .boundary → v.role = .flight → s.clk.modclk = true → noRotation s h → v.newFlight = false →
       ∃ t, exec (.stepBoundary n) s = .next t ∧ t.time.now = max s.time.now (localOfM s v.at16 / 16) ∧
         (if flightLen s n = 0 ∧ v.inj = false then (getConv t n).phase = .idle ∧ (getConv t n).role = .none
          else (getConv t n).phase = .settling ∧ (getConv t n).at16 = v.at16 + saSettle a * tick16 ∧
            (getConv t n).step = v.step ∧ (getConv t n).inj = v.inj ∧ (getConv t n).done = v.done ∧
            (getConv t n).gain = stepGain s n v.inj v.step) ∧
         framed [.time, .regs, .halls, .chans, .convs, .per, .bb] s t ∧ regsOutside (hallRegs h) s t ∧
         convsOutside (· = n.val) s t ∧ hallApart h s t ∧ onlyVstates s t) ∧
     (v.phase ≠ .settling → (∃ t, exec (.settlingEnd n) s = .next t ∧ framed [] s t) ∧
       ∃ t, exec (.tcOpen n high) s = .next t ∧ framed [] s t) ∧
     (v.phase = .settling → v.role = .flight → (getHall s h).rot.onK1 = false →
       (∃ t, exec (.settlingEnd n) s = .next t ∧ t.time.now = max s.time.now (localOfM s v.at16 / 16) ∧
         (let open_ := localOfM s v.at16 / 16
          (∀ e, modeEnd s n open_ = some e → open_ < e → (getConv t n).phase = .boundary ∧
            (getConv t n).at16 = gridAfter (modclkTime s (16 * e)) ∧ (getConv t n).step = v.step ∧ (getConv t n).done = v.done) ∧
          ((∀ e, modeEnd s n open_ = some e → e ≤ open_) →
            if blankOn s h then (getConv t n) = { v with phase := .waiting }
            else (getConv t n).phase = .window ∧ (getConv t n).open16 = v.at16 ∧
              (getConv t n).at16 = v.at16 + tConv (saOdr a))) ∧
         framed [.time, .convs] s t ∧ convsOutside (· = n.val) s t) ∧
       (modeOf s h (saCh a) = 11 → sbInput b = 0 → 308 ≤ saSettle a →
         ∃ t, exec (.tcOpen n high) s = .next t ∧ bit (getChan t h (saCh a)).ain 7 = high ∧ (getConv t n).tcOpen = high ∧
           framed [.regs, .halls, .chans, .convs, .per, .bb] s t ∧ regsOutside (hallRegs h) s t ∧
           convsOutside (· = n.val) s t ∧ hallApart h s t ∧ onlyVstates s t)) ∧
     (¬ (v.phase = .window ∧ s.clk.modclk = true) → ∃ t, exec (.resultComplete n x) s = .next t ∧ framed [] s t) ∧
     (∀ e, v.phase = .window → s.clk.modclk = true → v.role = .flight → noRotation s h → v.owed = false →
       mixedWindow s n (windowOpen v a) v.at16 = some e → ∃ t, exec (.resultComplete n x) s = .next t ∧
         t.time.now = max s.time.now (localOfM s v.at16 / 16) ∧ (getConv t n).phase = .boundary ∧
         (getConv t n).at16 = gridUp (max (nowM t) (modclkTime s (16 * e))) ∧ (getConv t n).disc = (v.disc + 1) % 65536 ∧
         (getConv t n).fifo = v.fifo ∧ (getConv t n).step = v.step ∧ (getConv t n).done = v.done ∧
         framed [.time, .regs, .halls, .chans, .convs, .per, .bb] s t ∧ regsOutside (hallRegs h) s t ∧ hallApart h s t ∧
         convsOutside (· = n.val) s t ∧ onlyVstates s t) ∧
     (v.phase = .window → s.clk.modclk = true → v.role = .flight → noRotation s h → v.owed = false →
       mixedWindow s n (windowOpen v a) v.at16 = none →
       ∃ t r, exec (.resultComplete n x) s = .next t ∧ t.time.now = max s.time.now (localOfM s v.at16 / 16) ∧
         (getConv t n).fifo = v.fifo ++ [r] ∧ r.count = modclkCount v.at16 ∧ r.time = stampOf t r.count ∧
         r.stale = false ∧
         ((sbInput b ≠ 0 ∨ isRtdMode (modeOf s h (saCh a)) = false) →
           r.code = (resultCode x (saOdr a) (saCont a && !v.inj) false).1) ∧
         (if saCont a && !v.inj then
            (if v.newFlight && decide (max (sbRepeat b) 1 ≤ v.cycRes + 1) then (getConv t n).phase = .boundary ∧
               (getConv t n).at16 = v.at16 ∧ (getConv t n).step = 0
             else (getConv t n).phase = .window ∧ (getConv t n).open16 = v.at16 ∧
               (getConv t n).at16 = v.at16 + odrPeriod (saOdr a))
          else if v.done + 1 < sbRepeat b then (getConv t n).phase = .window ∧ (getConv t n).open16 = v.at16 ∧
             (getConv t n).at16 = v.at16 + tConv (saOdr a) ∧ (getConv t n).done = v.done + 1
          else (getConv t n).phase = .boundary ∧ (getConv t n).at16 = v.at16 ∧
            (v.inj = false → (getConv t n).done = 0 ∧
              (getConv t n).step = if flightLen s n ≤ v.step + 1 then 0 else v.step + 1)) ∧
         framed [.time, .regs, .halls, .chans, .convs, .per, .bb, .img, .wd] s t ∧ hallApart h s t ∧
         convsOutside (fun k => k / 2 = h) s t ∧ onlyVstates s t))

/-- R138, R139, R137: the circular buffers of main SRAM. -/
def Obligations.RecordsReachMainSram : Prop :=
  ∀ (n : Conv) (fits : Bool) (s : State), Inv s →
    match (getConv s n).fifo with
    | [] => ∃ t, exec (.resultDmaWrite n fits) s = .next t ∧ framed [] s t
    | r :: rest =>
      (let v := getConv s n
       let base := bufBase s n + 16 * v.widx
       (logicUp s = false → ∃ t, exec (.resultDmaWrite n fits) s = .next t ∧ getConv t n = { v with fifo := rest } ∧
         framed [.convs] s t ∧ convsOutside (· = n.val) s t) ∧
       (logicUp s = true → fits = false → ∃ t, exec (.resultDmaWrite n fits) s = .next t ∧
         getConv t n = { v with fifo := rest } ∧ bit (getReg t rEccEvt) 2 = true ∧
         bits (getReg t 0x2930) 31 28 = 1 ∧ convsOutside (· = n.val) s t ∧ framed [.regs, .convs, .bb] s t ∧
         regsOutside (fun a => a = rEccEvt ∨ a = 0x2930 ∨ a = rBbMissed) s t) ∧
       (logicUp s = true → fits = true → ∃ t, exec (.resultDmaWrite n fits) s = .next t ∧ (getConv t n).fifo = rest ∧
         getReg t (aConv n 0x0A) = r.code ∧ getReg t (aConv n 0x0B) = r.tag ∧ convsOutside (· = n.val) s t ∧
         framed [.regs, .convs, .newest, .older, .bb, .mem, .pair, .tx] s t ∧
         regsOutside (fun a => a = aConv n 0x0A ∨ a = aConv n 0x0B ∨ (isInput r = true ∧ a = aCh (n / 2) (tagCh r.tag) 0x64)) s t ∧
         (r.stale = true → (getConv t n).disc = (v.disc + 1) % 65536 ∧ framed [.regs, .convs, .bb] s t) ∧
         (r.stale = false → bufLen s n = 0 → getConv t n = { v with fifo := rest } ∧ framed [.regs, .convs, .bb] s t) ∧
         (r.stale = false → bufLen s n ≠ 0 →
           (if mirrorSends s = true then pairSent 3 (recSlot n (dmaCount s n)) (recBytes r) s t
            else t.tx = s.tx ∧ t.pair = s.pair) ∧
           (∀ j < 16, mread 0 t.mem.main (base + j) = (recBytes r).getD j 0) ∧
           (∀ a, (a < base ∨ base + 16 ≤ a) → mread 0 t.mem.main a = mread 0 s.mem.main a) ∧
           t.mem.ret = s.mem.ret ∧ t.mem.mirror = s.mem.mirror ∧ t.mem.prog = s.mem.prog ∧
           (if bufLen s n ≤ v.widx + 1 then (getConv t n).widx = 0 ∧ (getConv t n).wrap = (v.wrap + 1) % 2 ^ 32
            else (getConv t n).widx = v.widx + 1 ∧ (getConv t n).wrap = v.wrap) ∧
           (let g := 4 * (n.val / 2) + tagCh r.tag
            if isInput r then t.newest = tput s.newest g { r with buf := n, idx := v.widx, wrote := s.time.now } ∧
                (∀ e, s.newest.find? (fun e => e.1 = g) = some e → e.2.wrote < s.time.now → t.older = tput s.older g e.2)
              else t.newest = s.newest ∧ t.older = s.older))))

/-- R119 to R121: injected sequences. R125, R126: blanking. -/
def Obligations.InjectionAndBlanking : Prop :=
  ∀ (o : Origin) (n : Conv) (h : Hall) (i : Fin 2) (s : State), Inv s →
    (acceptsAct o (aConv n 0x07) 1 s → ∃ t, exec (.injGo o n) s = .next t ∧ audited o (aConv n 0x07) 1 s t ∧
      framedRet [.aud, .convs] s t ∧
      (if trigOn s n 11 = true ∧ ownerOf s (runnerOf s n) = n.val then getConv t (runnerOf s n) = { getConv s (runnerOf s n) with
            trigs := (getConv s (runnerOf s n)).trigs ++ [gridAfter (nowM s)] } ∧ convsOutside (· = runnerOf s n) s t
       else t.convs = s.convs)) ∧
    (let v := getConv s n
     let own := ownerOf s n
     match v.trigs with
     | [] => ∃ t, exec (.injectedSequenceStart n) s = .next t ∧ framed [] s t
     | t16 :: rest => ∃ t, exec (.injectedSequenceStart n) s = .next t ∧ t.time.now = max s.time.now (localOfM s t16 / 16) ∧
         framed [.time, .regs, .halls, .convs, .bb] s t ∧ hallApart (n.val / 2) s t ∧
         convsOutside (fun k => k / 2 = n.val / 2) s t ∧ (getConv t n).trigs = rest ∧
         (if injLen s own = 0 ∨ v.role ≠ .flight then getConv t n = { v with trigs := rest }
          else if v.inj || v.owed || (v.heldTrig && blankOn s (n.val / 2)) then
            (if v.pend then bit (getReg t (rCvEvt own)) 2 = true else getConv t n = { v with trigs := rest, pend := true })
          else if blankOn s (n.val / 2) then getConv t n = { v with trigs := rest, heldTrig := true }
          else (getConv t n).inj = true ∧ (getConv t n).backStep = v.step ∧ (getConv t n).backDone = v.done ∧
            (getConv t n).step = 0 ∧ (getConv t n).done = 0 ∧ (getConv t n).phase = .boundary ∧ (getConv t n).at16 = t16)) ∧
    ((getHall s h).up = false → ∀ c ∈ [Instr.blankAssert h i, .blankRelease h i, .blankStuck h i],
      ∃ t, exec c s = .next t ∧ framed [] s t) ∧
    ((getHall s h).up = true →
      (let x := getHall s h
       let sel := bits (hcfg s h (aHall h 0x42)) 1 0
       let acts := if i = 0 then x.blank0 && !x.stuck0 && (sel = 1 || sel = 3) else x.blank1 && !x.stuck1 && (sel = 2 || sel = 3)
       let quiet : Prop := ∀ k < 2, (getConv s (2 * h.val + k)).heldTrig = false ∧
         trigOn s (ownerOf s (2 * h.val + k)) 8 = false
       let apart (t : State) : Prop := hallApart h s t ∧ convsOutside (fun k => k / 2 = h.val) s t ∧ onlyVstates s t
       let frame (t : State) : Prop := framed [.regs, .halls, .chans, .convs, .per, .bb] s t ∧ apart t
       let ended (t : State) : Prop := (blankOn t h = blankOn s h → t.convs = s.convs) ∧
         (blankOn s h = true → blankOn t h = false → quiet → ∀ k < 2, unblanked (2 * h.val + k) (gridUp (nowM t)) s t)
       (∃ t, exec (.blankAssert h i) s = .next t ∧ frame t ∧
         (if i = 0 then (getHall t h).blank0 = true ∧ (getHall t h).blankAt0 = (if x.blank0 then x.blankAt0 else s.time.now)
          else (getHall t h).blank1 = true ∧ (getHall t h).blankAt1 = (if x.blank1 then x.blankAt1 else s.time.now)) ∧
         (blankOn t h = blankOn s h → t.convs = s.convs) ∧
         (blankOn s h = false → blankOn t h = true → ∀ k < 2, getConv t (2 * h.val + k) =
           { getConv s (2 * h.val + k) with phase := if (getConv s (2 * h.val + k)).phase = .window then .blanked
             else (getConv s (2 * h.val + k)).phase })) ∧
       (∃ t, exec (.blankRelease h i) s = .next t ∧ frame t ∧ ended t ∧
         (if i = 0 then (getHall t h).blank0 = false ∧ (getHall t h).stuck0 = false
          else (getHall t h).blank1 = false ∧ (getHall t h).stuck1 = false)) ∧
       (acts = false → ∃ t, exec (.blankStuck h i) s = .next t ∧ framed [] s t) ∧
       (acts = true → ∃ t, exec (.blankStuck h i) s = .next t ∧
         t.time.now = max s.time.now ((if i = 0 then x.blankAt0 else x.blankAt1) + blankMax s h) ∧
         framed [.time, .regs, .halls, .chans, .convs, .per, .bb] s t ∧ apart t ∧ ended t ∧
         (if i = 0 then (getHall t h).stuck0 = true else (getHall t h).stuck1 = true) ∧
         ∀ k < 2, bit (getReg t (rCvEvt (2 * h.val + k))) 4 = true)))

/-- R150 to R154: synchronised sampling. -/
def Obligations.SynchronisedSampling : Prop :=
  ∀ (o : Origin) (s : State), Inv s →
    (let on : Prop := logicUp s = true ∧ bit (syncCfgW s) 31 = true ∧ s.sync.level = bit (syncCfgW s) 30
     let moved : SyncSt := { s.sync with level := !s.sync.level }
     (¬ on → ∃ t, exec .syncIn s = .next t ∧ framed [.sync] s t ∧ t.sync = moved) ∧
     (on → s.sync.queue.any (·.2) = true → ∃ t, exec .syncIn s = .next t ∧ bit (getReg t rSyncEvt) 1 = true ∧
       framed [.regs, .sync, .bb] s t ∧ t.sync = moved ∧ regsOutside (fun a => a = rSyncEvt ∨ a = rBbMissed) s t) ∧
     (on → s.sync.queue.any (·.2) = false → ∃ t, exec .syncIn s = .next t ∧ framed [.sync, .ml] s t ∧
       t.sync = { moved with queue := s.sync.queue ++ [(s.time.ring / 10 * 10 + syncLead s, true)] } ∧
       t.ml.outs.length = s.ml.outs.length + (if bit (syncCfgW s) 29 then 1 else 0))) ∧
    (acceptsAct o 0x1607 1 s → ∃ t, exec (.syncNow o) s = .next t ∧ audited o 0x1607 1 s t ∧ framedRet [.aud, .sync, .ml] s t ∧
      t.sync = { s.sync with queue := s.sync.queue ++ [(s.time.ring + syncLead s, true)] }) ∧
    ((s.sync.queue = [] ∨ logicUp s = false) → ∃ t, exec .syncExecute s = .next t ∧ framed [] s t) ∧
    (∀ e ∈ s.sync.queue, (∀ f ∈ s.sync.queue, e.1 ≤ f.1) → logicUp s = true →
      (let g := gridInstant e.1
       ∃ t, exec .syncExecute s = .next t ∧ t.time.now = max s.time.now (localOf s ((g + 15) / 16)) ∧
         t.sync.queue = s.sync.queue.filter (fun f => gridInstant f.1 ≠ g) ∧ t.sync.count = (s.sync.count + 1) % 2 ^ 32 ∧
         t.sync.last = g / 16 ∧ bit (getReg t rSyncEvt) 0 = true ∧ (gridLock t = false → bit (getReg t rSyncEvt) 3 = true) ∧
         pinned (s.pins.syncOut || bit (syncCfgW s) 28) s.pins.scan t ∧
         (∀ n < 16, (getConv s n).role = .shadow → saCont (nowA s n) = true → (getConv t n).role = .none ∧
           (getConv t n).phase = .idle) ∧
         (∀ n < 16, ¬ ((getConv s n).role = .shadow ∧ saCont (nowA s n) = true) → (getConv s n).phase = .window →
           (getConv t n).phase = .window ∧
           (getConv t n).disc = ((getConv s n).disc + 1) % 65536 ∧
           (getConv t n).open16 = syncTick t g ∧ (getConv t n).at16 = syncTick t g + tConv (windowOdr s n)) ∧
         (∀ n < 16, ¬ ((getConv s n).role = .shadow ∧ saCont (nowA s n) = true) → (getConv s n).phase ≠ .window →
           (getConv t n).phase = (getConv s n).phase ∧ (getConv t n).at16 = (getConv s n).at16) ∧
         changesOnly [.time, .regs, .halls, .chans, .convs, .sync, .per, .bb, .pins] s t ∧ onlyVstates s t)) ∧
    (s.sync.outEnd = none → ∃ t, exec .syncOutEnd s = .next t ∧ framed [] s t) ∧
    (∀ t0, s.sync.outEnd = some t0 → ∃ t, exec .syncOutEnd s = .next t ∧ pinned false s.pins.scan t ∧
      t.sync = { s.sync with outEnd := none } ∧ t.time.now = max s.time.now t0 ∧
      changesOnly [.time, .sync, .pins] s t) ∧
    (s.clk.modclk = false ∨ gridNear s = true → ∃ t, exec .gridLock s = .next t ∧ framed [] s t) ∧
    (s.clk.modclk = true → gridNear s = false → ∃ t, exec .gridLock s = .next t ∧ t.time.now = max s.time.now (slewEnd s) ∧
      framed [.time] s t ∧
      (s.sync.slewAt ≤ s.time.now → slewEnd s + s.time.ring < 2 ^ 64 →
        (gridErr s - (s.sync.slew - slewDone s (16 * s.time.now))).natAbs ≤ 976 → gridLock t = true))

/-- R160, R170, R172: requests of the landing rotation. -/
def Obligations.RotationRequests : Prop :=
  ∀ (o : Origin) (h : Hall) (s : State), Inv s →
    (let x := getHall s h
     let a := aRot h 0x01
     let recorded (v : Word) (t : State) : Prop := t.aud = { s.aud with
       queue := s.aud.queue ++ [auditRec o 8 a h 0 v.toNat s], next := (s.aud.next + 1) % 2 ^ 48, writes := s.aud.writes + 1 }
     let back (v : Word) (was : Bool) (t : State) : Prop := (if was then recorded v t else audited o a v s t) ∧
       framedRet [.regs, .halls, .chans, .convs, .per, .aud, .bb] s t ∧ regsOutside (hallRegs h) s t ∧ hallApart h s t ∧
       convsOutside (fun k => k / 2 = h.val) s t ∧ onlyVstates s t
     (rotEn s h = false → ∃ t, exec (.rotationDue h) s = .next t ∧ framed [] s t) ∧
     (rotEn s h = true → ∃ t, exec (.rotationDue h) s = .next t ∧ framed [.time, .halls] s t ∧ hallApart h s t ∧
       t.time.now = max s.time.now (localOf s (nextDue s h)) ∧
       getHall t h = { x with rot := { x.rot with due := true, dueSeen := nextDue s h } }) ∧
     (¬ (rotEn s h = true ∧ x.active = true) → ∃ t, exec (.overdue h) s = .next t ∧ framed [] s t) ∧
     (rotEn s h = true → x.active = true → ∃ t, exec (.overdue h) s = .next t ∧
       t.time.now = max s.time.now (x.rot.since + 2 * rotP s h) ∧ (getHall t h).rot = { x.rot with overdue := true } ∧
       framed [.time, .regs, .halls, .chans, .per, .bb] s t ∧ regsOutside (hallRegs h) s t ∧ hallApart h s t ∧
       onlyVstates s t) ∧
     (acceptsAct o a 1 s → ∃ t, exec (.rotNow o h) s = .next t ∧ audited o a 1 s t ∧
       getHall t h = { x with rot := { x.rot with due := x.rot.due || rotEn s h } } ∧
       framedRet [.halls, .aud] s t ∧ hallApart h s t) ∧
     (acceptsAct o a 2 s → ∃ t, exec (.unretireK0 o h) s = .next t ∧ back 2 x.ret0 t ∧
       (getHall t h).ret0 = false ∧ (getHall t h).kept0 = false ∧ (getHall t h).ret1 = x.ret1 ∧ (getHall t h).rot = { x.rot with due := true }) ∧
     (acceptsAct o a 4 s → ∃ t, exec (.unretireK1 o h) s = .next t ∧ back 4 x.ret1 t ∧
       (getHall t h).ret0 = x.ret0 ∧ (getHall t h).ret1 = false ∧ (getHall t h).kept1 = false ∧
       (getHall t h).rot = { x.rot with due := true, unret1 := true }))

/-- R18, R211: when increments join the totals. R201, R202: traps. A halted engine has no slot (R439). -/
def Obligations.RunSlotAddsIncrementsAtItsEnd : Prop :=
  ∀ (m : Run) (cycles : Nat) (trap : Option EngTrap) (s : State), Inv s →
    (let w := match s.eng.late with
       | some l => putWords l.old s
       | none => s
     let u := moveTo (s.eng.start + (m.val + 1) * 125000) w
     let plain : Prop := s.eng.late = none
     let r := getRun s m
     let n := s.eng.set.tick
     let o := compute u m
     let q := quants o.inc
     let alarm := o.alarm || q.2
     let on : Prop := runEn w m = true ∧ r.reconciled = true
     let ends (t : State) : Prop := t.time.now = max s.time.now (s.eng.start + (m.val + 1) * 125000) ∧ t.eng.slot = m.val + 1 ∧
       (plain ∨ m.val ≠ 7 → ∀ k, k ≠ m.val → (getRun t k).accs = (getRun s k).accs ∧ (getRun t k).live = (getRun s k).live) ∧
       (m.val = 7 → t.eng.doneTick = n ∧ t.eng.late = none) ∧ (plain → t.aud = s.aud) ∧
       framed [.time, .regs, .eng, .runs, .per, .bal, .aud, .gal, .bb, .jnl, .img, .nv, .mem, .wd, .pair, .tx, .free] s t ∧
       t.mem = { s.mem with bad := t.mem.bad }
     let totals (i : Nat × Nat × Nat) (al : Bool) (t : State) : Prop := plain ∨ m.val ≠ 7 →
       (getRun t m).accs = accsAdd r.accs i al ∧
       (getRun t m).tick = some n ∧ (getRun t m).live = totBytes m 2 { tick := n, accs := accsAdd r.accs i al }
     let trapped (c cyc : Nat) (t : State) : Prop := totals (quants (r.car.inc.getD (0, 0, 0))).1 true t ∧ t.eng.armed = false ∧
       (plain ∨ m.val ≠ 7 → (getRun t m).fout = r.fout ∧ (getRun t m).iout = r.iout) ∧ (plain → bit (getReg t (rRunStatus m)) 31 = true ∧ bit (getReg t (rRunStatus m)) 30 = true ∧
       (r.car.inc = none → bit (getReg t (rRunStatus m)) 29 = true) ∧ bit (getReg t (rRunEvt m)) 31 = true ∧
       bits (getReg t (aRun m 0x43)) 31 28 = c ∧
       bits (getReg t (aRun m 0x43)) 15 0 = satSucc 0xFFFF (bits (getReg s (aRun m 0x43)) 15 0) ∧
       bits (getReg t (aRun m 0x44)) 31 16 = max (bits (getReg s (aRun m 0x44)) 31 16) (min cyc 31250) ∧
       (∀ j < 17, getReg t (aRun m (0x49 + j)) = getReg s (aRun m (0x49 + j))) ∧
       (s.eng.armed = true → t.bb.frozen = true) ∧
       (s.eng.armed = true → s.bb.frozen = false → c ≠ 3 →
         t.bb.frozen = true ∧ t.bb.hdr.cause = 4 ∧ t.bb.hdr.trap = m.val * 32 + c))
     (slotDue m s = false → (∃ t, exec (.runSlot m cycles trap) s = .next t ∧ framed [] s t) ∧
       ∃ t, exec (.slotOverrun m) s = .next t ∧ framed [] s t) ∧
     (slotDue m s = true → ¬ on → ∃ t, exec (.runSlot m cycles trap) s = .next t ∧ ends t ∧
       (plain ∨ m.val ≠ 7 → (getRun t m).accs = r.accs ∧ (getRun t m).live = r.live)) ∧
     (slotDue m s = true → on → (∃ t, exec (.slotOverrun m) s = .next t ∧ ends t ∧
         trapped (if (slotEcc u m).isSome then 3 else 1) 31250 t) ∧
       (∀ c v, slotTrap m cycles trap u = some (c, v) →
         ∃ t, exec (.runSlot m cycles trap) s = .next t ∧ ends t ∧ trapped c cycles t) ∧
       (slotTrap m cycles trap u = none → (outputsOf u m o = none ∨ soundOut o = false) →
         ∃ t, exec (.runSlot m cycles trap) s = .next t ∧ ends t ∧ trapped 2 cycles t) ∧
       (∀ f, slotTrap m cycles trap u = none → outputsOf u m o = some f → soundOut o = true →
         ∃ t, exec (.runSlot m cycles trap) s = .next t ∧ ends t ∧ totals q.1 alarm t ∧
           (plain → (∃ p, getReg t (rRunStatus m) =
             o.flags ||| fl 30 alarm ||| fl 10 p ||| fl 9 (f.1.any (·.2)) ||| fl 8 (f.2.any (·.2))) ∧
             getReg t (aRun m 0x48) = BitVec.ofNat 32 n ∧
             (∀ j < 17, getReg t (aRun m (0x49 + j)) = x32 (o.live.getD j 0)) ∧
             bits (getReg t (aRun m 0x44)) 15 0 = cycles) ∧
           (plain ∨ m.val ≠ 7 → (∃ a b, (getRun t m).car = { o.car with pacc := a, backlog := b }) ∧
             (getRun t m).fout = f.1.map (·.1) ∧ (getRun t m).iout = f.2.map (·.1) ∧
             (getRun t m).irec = recorded u m (f.2.map (·.1))))))

/-- R15, R17, R18, R177: what happens at a boundary. The boundary after a ring-time step is log 21. -/
def Obligations.TickBoundaryLatchesTheSet : Prop :=
  ∀ (s : State), Inv s →
    (takesBoundaries s = false → ∃ t, exec .tickBoundary s = .next t ∧ framed [] s t) ∧
    (takesBoundaries s = true →
      ∃ t, exec .tickBoundary s = .next t ∧ t.time.now = max s.time.now (nextBoundary s).2 ∧
        t.time.boundary = some t.time.ring ∧ t.time.pairNow = t.time.now ∧ t.time.pairRing = t.time.ring ∧
        t.time.adj = false ∧ t.eng.poutNew = [] ∧ t.eng.running = s.eng.running ∧
        (∀ h < 8, ∀ c < 4, (getChan t h c).deliv = [] ∧
          ((getHall s h).up = true → modeOf s h c = 4 → bit (getChan t h c).stat 0 = (getChan s h c).level)) ∧
        (s.eng.running = true → s.eng.slot = 8 → s.clk.halt = none → ∀ m < 8, ∀ j < 38,
          getReg t (0x4000 + 1088 + 64 * m + j) = runPointNow s m j) ∧
        (s.eng.running = true → s.clk.halt = none → (pairEn s = false ∨ s.pair.active = true) →
          t.eng.set.tick = tickOf t.time.ring ∧ t.eng.set.adj = s.time.adj ∧ t.eng.set.modes = s.modes ∧
            t.eng.slot = 0 ∧ t.eng.start = t.time.now ∧
            t.eng.set.recs = (s.newest.filterMap (latchRec t)).filter (fun e => !s.img.held.contains (e.1 / 4) && recSound s e.2)) ∧
        (s.eng.running = true → s.clk.halt = none → pairEn s = true → s.pair.active = false → t.eng.slot = 8 ∨
          (t.eng.slot = 0 ∧ t.eng.start = t.time.now ∧
            ∃ i, s.eng.this = some i ∧ t.eng.set.tick = i.tick ∧ t.eng.set.adj = i.adj ∧ t.eng.set.modes = i.modes)) ∧
        (s.eng.running = true → s.clk.halt ≠ none → t.eng.slot = 8 ∧ t.eng.set = s.eng.set) ∧
        (s.eng.running = false → t.eng.slot = s.eng.slot ∧ t.eng.set = s.eng.set ∧ t.eng.start = s.eng.start) ∧
        framed [.time, .regs, .halls, .chans, .convs, .eng, .runs, .per, .bal, .aud, .gal, .bb, .jnl, .img, .nv, .mem, .wd, .ml, .pair, .tx]
          s t ∧ t.mem = { s.mem with bad := t.mem.bad })

/-- R230 to R232: the end of WAIT; an incomplete window changes neither persistence counter. R199: the backlog falls by each pulse emitted. -/
def Obligations.BalanceWaitAndPulseReports : Prop :=
  ∀ (b : Fin 64) (h : Hall) (ch : Chan) (s : State), Inv s →
    (match (getBal s b).win with
     | none => ∃ t, exec (.balanceWaitExpiry b) s = .next t ∧ framed [] s t
     | some w => ∃ t, exec (.balanceWaitExpiry b) s = .next t ∧ t.time.now = max s.time.now w.due ∧
         (getBal t b).win = none ∧ (∀ k, k ≠ b.val → getBal t k = getBal s k) ∧
         regsOutside (fun a => a = aBal b 5 ∨ a = aBal b 7 ∨ a = rBalEvt b ∨ a = rBbMissed) s t ∧
         framed [.time, .regs, .bal, .bb] s t ∧
         (let g := bits (getReg s (aBal b 1)) 22 0
          let v (i : Nat) : Word := subValue s (g + i)
          let old := getReg s (aBal b 5)
          let new := getReg t (aBal b 5)
          let read : Prop := v 7 = crc32c (((List.range 7).map v).map fun x => leBytes 4 x.toNat).flatten
          let same : Prop := (v 0).toNat + 2 ^ 32 * (v 1).toNat = w.first
          let differ : Bool := decide (bits (v 6) 1 0 ≠ balQty s b) || decide (bits (v 6) 31 16 ≠ balW s b)
          let marked : Bool := w.gap || w.tstep || bit (v 6) 4 || bit (v 6) 5
          let incomplete : Prop := getBal t b = { getBal s b with win := none, rho := none } ∧ bit new 3 = true ∧
            bits new 31 16 = bits old 31 16 ∧ bit (getReg t (rBalEvt b)) 2 = true
          (¬ read ∨ (¬ same ∧ differ = false) → incomplete ∧ bit new 2 = bit old 2) ∧
          (read → differ = true → incomplete ∧ bit new 2 = true) ∧
          (read → same → differ = false → marked = true → incomplete ∧ bit new 2 = false) ∧
          (read → same → differ = false → marked = false →
            let q : Nat := (v 2).toNat + 2 ^ 32 * (v 3).toNat
            let i := xsub (xsub (xint (q : Int)) (xint w.q)) (linePack s b w (v 4) (v 5)).1
            let out := outOfBand s b i q w.q
            getReg t (aBal b 7) = x32 (xmul i (xrat 1 1000000)) ∧ bit new 0 = out ∧ bit new 2 = false ∧ bit new 3 = false ∧
              bits new 31 24 = (if out then satSucc 255 (bits old 31 24) else 0) ∧
              bits new 23 16 = (if out then 0 else satSucc 255 (bits old 23 16))))) ∧
    (let x := getChan s h ch
     match x.pulseOn, poutRun s (4 * h + ch) with
     | some t0, some m => ∃ t, exec (.pulseEmitted h ch) s = .next t ∧ t.time.now = max s.time.now (t0 + x.pulseW) ∧
         (getChan t h ch).pulseLeft = x.pulseLeft - 1 ∧ (getChan t h ch).pulseRest = t.time.now + x.pulseW ∧
         ((getChan t h ch).pulseOn = none ∨ (getChan t h ch).pulseOn = some (t.time.now + x.pulseW)) ∧
         chansOutside (fun a c => a = h.val ∧ c = ch.val) s t ∧ regsOutside (· = aRun m 0x46) s t ∧
         framed [.time, .regs, .chans, .runs] s t ∧
         (logicUp s = false → t.runs = s.runs ∧ t.regs = s.regs) ∧
         (logicUp s = true →
           let r := getRun s m
           getRun t m = { r with emitted := r.emitted + 1, car := { r.car with backlog := r.car.backlog - 1 } } ∧
           getReg t (aRun m 0x46) = BitVec.ofNat 32 (r.car.backlog - 1) ∧ ∀ k, k ≠ m → getRun t k = getRun s k)
     | _, _ => ∃ t, exec (.pulseEmitted h ch) s = .next t ∧ framed [] s t)

/-- R285: chips fail and recover. R223, R219: what a stored record means. -/
def Obligations.FlashOperationsAndChipRetry : Prop :=
  ∀ (i : Fin 2) (ok : Bool) (found : Option ChipFound) (s : State), Inv s →
    (let c := nvChip s i
     let n := if ok then 0 else c.fails + 1
     let works : Prop := logicUp s = true ∧ chipOk c = true
     (¬ works → ∃ t, exec (.flashOperationComplete i ok) s = .next t ∧ framed [] s t) ∧
     (works → ∃ t, exec (.flashOperationComplete i ok) s = .next t ∧ (nvChip t i).fails = n ∧
       (nvChip t i).failed = decide (2 ≤ n) ∧ (nvChip t i).present = c.present ∧
       nvChip t (1 - i.val) = { nvChip s (1 - i.val) with mem := (nvChip t (1 - i.val)).mem } ∧
       (∀ a, ¬ bookArea a → mread blankByte (nvChip t (1 - i.val)).mem a = mread blankByte (nvChip s (1 - i.val)).mem a) ∧
       (2 ≤ n → bit (getReg t rNvEvt) 0 = true ∧ ((nvChip s (1 - i.val)).failed = true → bit (getReg t rNvEvt) 2 = true)) ∧
       (match jobFor s i with
        | none => ∀ a, ¬ bookArea a → mread blankByte (nvChip t i).mem a = mread blankByte c.mem a
        | some j => ∀ a, ¬ bookArea a → mread blankByte (nvChip t i).mem a =
            if ok = true ∧ j.off ≤ a ∧ a < j.off + j.bytes.length then j.bytes.getD (a - j.off) 0
            else mread blankByte c.mem a) ∧
       (n < 2 → (∀ j ∈ jobMark i ok s.nv.jobs, jobOver j = false) → t.nv.jobs = jobMark i ok s.nv.jobs ∧ t.gal = s.gal ∧
         t.jnl = s.jnl) ∧
       (∀ j, n < 2 → jobMark i ok s.nv.jobs = [j] → jobOver j = true → jobFailed j = false →
         t.nv.jobs = [] ∧
         (∀ m seq kind op, m < 8 → j.kind = .period m kind seq op → t.gal.writeFail = false ∧
           t.gal.cap = s.gal.cap.filter fun x => match x with
             | .period a b d _ _ => !(a == m && b == kind && d == seq)
             | _ => true) ∧
         (∀ m tick op, m < 8 → j.kind = .ckpt m tick false op → t.gal.writeFail = false ∧ t.gal.cap = s.gal.cap ∧
           getReg t (aTot m 0x1D) = BitVec.ofNat 32 tick)) ∧
       framed [.regs, .gal, .bb, .jnl, .img, .nv, .wd] s t)) ∧
    (let occasion : Prop := logicUp s = true ∧ (nvChip s i).failed = true
     (¬ occasion → ∃ t, exec (.chipRetry i found) s = .next t ∧ framed [] s t) ∧
     (occasion → found = none → ∃ t, exec (.chipRetry i found) s = .next t ∧ t.wd.checked.testBit 12 = true ∧
       framed [.regs, .img, .wd] s t ∧ regsOutside (· = rWdCount) s t) ∧
     (∀ f, occasion → found = some f → ∃ t, exec (.chipRetry i found) s = .next t ∧ (nvChip t i).failed = false ∧
       (nvChip t i).known = true ∧ (nvChip t i).quad = f.quad ∧ (nvChip t i).id = f.id.toNat ∧
       (nvChip t i).present = (nvChip s i).present ∧
       (nvChip t i).fails = 0 ∧ bit (getReg t rNvEvt) 1 = true ∧ t.bb.dumping = s.bb.pend ∧
       (∀ k < 4, t.img.copies.getD k 0 =
         if k / 2 = i.val ∧ s.img.copies.getD k 0 ≠ 1 then 7 else s.img.copies.getD k 0) ∧
       (nvLost s = false → t.nv.jobs = s.nv.jobs ∧ flashOutside bookArea s t ∧
         chipOk (nvChip t (1 - i.val)) = chipOk (nvChip s (1 - i.val)) ∧
         framed [.regs, .bb, .img, .nv, .wd] s t ∧ regsOutside (fun a => a = rNvEvt ∨ a = rBbMissed ∨ a = rWdCount) s t) ∧
       framed [.regs, .gal, .bb, .jnl, .img, .nv, .mem, .wd] s t))

/-- R257 cause 6, R258, R259. -/
def Obligations.BlackBoxFreezeDumpRelease : Prop :=
  ∀ (o : Origin) (ok0 ok1 : Bool) (s : State), Inv s →
    (let unfrozen : StrSt := { s.str with ready := if s.str.named % 32 = 23 then 0 else s.str.ready }
     ((acceptsAct o 0x2806 1 s → ∃ t, exec (.freezeNow o) s = .next t ∧ audited o 0x2806 1 s t ∧ framedRet [.regs, .aud, .bb] s t ∧
      regsOutside (fun a => a = rBbEvt ∨ a = rBbMissed) s t ∧
      (s.bb.frozen = true → t.bb = s.bb ∧
        getReg t rBbMissed = BitVec.ofNat 32 (satSucc 0xFFFFFFFF (getReg s rBbMissed).toNat)) ∧
      (s.bb.frozen = false → t.bb.frozen = true ∧ t.bb.pend = true ∧ t.bb.dumping = true ∧ t.bb.hdr.cause = 6 ∧
        t.bb.hdr.time = s.time.ring ∧ t.bb.hdr.seq = s.bb.dumpSeq ∧ t.bb.hdr.tick = s.eng.doneTick ∧
        bit (getReg t rBbEvt) 0 = true ∧ ∃ q, t.bb.events.getLast? =
          some { time := s.time.ring, seq := q, code := 0x51, src := 6, data := s.eng.doneTick % 2 ^ 32 })) ∧
    (let going : Prop := logicUp s = true ∧ s.bb.frozen = true ∧ s.bb.pend = true ∧ s.bb.dumping = true
     let w0 := chipOk s.nv.c0 && ok0
     let w1 := chipOk s.nv.c1 && ok1
     let a := dumpAddr (s.bb.dumpSeq % 16)
     let left := if nvWritable s then s.bb.dumps.filter (fun d => d.2 ≠ s.bb.dumpSeq % 16) else s.bb.dumps
     (¬ going → ∃ t, exec (.dumpDone ok0 ok1) s = .next t ∧ framed [] s t) ∧
     (going → ∃ t, exec (.dumpDone ok0 ok1) s = .next t ∧
       (w0 = true → ∀ k < 65536, mread blankByte t.nv.c0.mem (a + k) = (bbDump s).getD k 0) ∧
       (w1 = true → ∀ k < 65536, mread blankByte t.nv.c1.mem (a + k) = (bbDump s).getD k 0) ∧
       flashOutside (fun x => bookArea x ∨ (a ≤ x ∧ x < a + 65536)) s t ∧
       ((w0 || w1) = true → t.bb.frozen = false ∧ t.bb.pend = false ∧ t.bb.dumpSeq = s.bb.dumpSeq + 1 ∧
         (s.bb.dumpSeq, s.bb.dumpSeq % 16) ∈ t.bb.dumps ∧ bit (getReg t rBbEvt) 1 = true ∧ t.str = unfrozen) ∧
       ((w0 || w1) = false → t.bb = { s.bb with dumping := false, failed := true, dumps := left } ∧ bit (getReg t rBbEvt) 2 = true ∧ t.str = s.str) ∧
       framed [.regs, .str, .bb, .img, .nv, .wd] s t)) ∧
    (acceptsAct o 0x2806 2 s → ∃ t, exec (.release o) s = .next t ∧ audited o 0x2806 2 s t ∧
      framedRet [.str, .aud, .bb] s t ∧ t.str = unfrozen ∧
      t.bb = { s.bb with frozen := false, pend := false, dumping := false, failed := false })))

/-- R328 to R330, R341, R342: ports. R336: link delays; payload layouts are log 24. -/
def Obligations.PortsFaultsAndLinkDelays : Prop :=
  ∀ (p : Port) (f : MlFrame) (rt : Nat) (s : State), Inv s →
    (let x := getPort s p
     let echo (u : State) (q : Nat) : TxFrame := ⟨q, mlFrame 5 0 (ringAddrOf s) s.ml.cyc (leBytes 8 u.time.now), true⟩
     let waits (u : State) : Bool := s.ml.loop.isSome && !inReserve u
     let others (t : State) : Prop := ∀ q, q ≠ p.val → getPort t q = getPort s q
     let down : Prop := (∃ q, q < 3 ∧ portEn s q = true) ∧ ∀ q < 3, q ≠ p.val → ¬ (portEn s q = true ∧ (getPort s q).st = 3)
     let isolatedBy (t : State) : Prop := (t.ml.isolated = true ↔ down) ∧
       (down → s.ml.isolated = false → bit (getReg t rMlEvt) 8 = true)
     let comes : Prop := logicUp s = true ∧ portEn s p = true ∧ x.st ≠ 3
     let forms : Prop := s.ml.loop = none ∧ s.ml.formAt = none ∧ headRole s = 1 ∧ s.ml.stopped = false
     (¬ comes → ∃ t, exec (.portUp p) s = .next t ∧ framed [] s t) ∧
     (comes → ∃ t, exec (.portUp p) s = .next t ∧ (getPort t p).st = 3 ∧ (getPort t p).silent = false ∧
       (getPort t p).inLoop = (x.inLoop && decide (x.st ≠ 4)) ∧ (getPort t p).delay = x.delay ∧ (getPort t p).cnt = 0 ∧
       (getPort t p).echoDue = waits s ∧ t.ml.isolated = false ∧
       (∀ q < 3, q ≠ p.val → (getPort t q).st = (getPort s q).st ∧ (getPort t q).inLoop = (getPort s q).inLoop) ∧
       (¬ forms → t.tx = s.tx ++ (if waits s then [] else [echo s p]) ∧ t.ml.formAt = s.ml.formAt ∧ framed [.ml, .tx] s t) ∧
       (forms → t.ml.formAt = some s.time.now ∧ ∃ q, outPort t true = some q ∧ handed
         ⟨q, mlFrame 3 0 (ringAddrOf s) s.ml.cyc (FormData.bytes ⟨1, 1, 0, 0, 0, 1920 + dataDur s⟩), true⟩
         { s with tx := s.tx ++ [echo s p] } t) ∧ sentOnly [.ml] s t) ∧
     (let fault : Prop := logicUp s = true ∧ (x.st = 3 ∨ (x.inLoop = true ∧ (x.st = 1 ∨ x.st = 2)))
      (¬ fault → ∃ t, exec (.linkFault p) s = .next t ∧ framed [] s t) ∧
      (fault → ∃ t, exec (.linkFault p) s = .next t ∧ getPort t p = { x with st := 4, silent := true, pass := false } ∧ others t ∧
        bit (getReg t rMlEvt) 2 = true ∧ bit (getReg t rMlEvt) 3 = true ∧
        t.ml.topo = (if x.inLoop = true ∧ s.ml.topo = 2 then 3 else s.ml.topo) ∧ isolatedBy t ∧
        regsOutside (fun a => a = rMlEvt ∨ a = rBbMissed) s t ∧ framed [.regs, .bb, .ml] s t)) ∧
     (x.silent = false → ∃ t, exec (.transmitterSilenceEnd p) s = .next t ∧ framed [] s t) ∧
     (x.silent = true → ∃ t, exec (.transmitterSilenceEnd p) s = .next t ∧ getPort t p = { x with silent := false } ∧ others t ∧
       framed [.ml] s t) ∧
     (logicUp s = true → ∃ t, exec (.characterLockLost .pair) s = .next t ∧ t.pair = { s.pair with linkUp := false } ∧
       framed [.pair] s t) ∧
     (¬ (logicUp s = true ∧ (x.st = 2 ∨ x.st = 3)) → ∃ t, exec (.characterLockLost (.ml p)) s = .next t ∧ framed [] s t) ∧
     (logicUp s = true → x.st = 2 ∨ x.st = 3 → ∃ t, exec (.characterLockLost (.ml p)) s = .next t ∧ others t ∧
       getPort t p = { x with st := 1 } ∧ isolatedBy t ∧ regsOutside (fun a => a = rMlEvt ∨ a = rBbMissed) s t ∧
       framed [.regs, .bb, .ml] s t) ∧
     (let quiet : Prop := logicUp s = true ∧ portEn s p = true ∧ x.silent = false
      (¬ quiet → ∃ t, exec (.nullFrame p) s = .next t ∧ framed [] s t) ∧
      (quiet → ∃ t, exec (.nullFrame p) s = .next t ∧ t.tx = s.tx ++ [⟨p, [], true⟩] ∧ framed [.tx] s t)) ∧
     (let works : Prop := takes true p f s = true
      (∀ c ∈ [Instr.echo p f, .echoReply p f rt],
        (¬ works → ∃ t, exec c s = .next t ∧ notTaken true p f s t) ∧
        (works → f.good = false → ∃ t, exec c s = .next t ∧ countedBad p s t ∧
          regsOutside (fun a => a = 0x2A15 ∨ a = rMlEvt ∨ a = rBbMissed) s t ∧ framed [.regs, .bb] s t) ∧
        (works → f.good = true → f.fits = false → ∃ t, exec c s = .next t ∧ queueFull 6 t ∧
          regsOutside (fun a => a = 0x2930 ∨ a = rEccEvt ∨ a = rBbMissed) s t ∧ framed [.regs, .bb] s t)) ∧
      (works → f.good = true → f.fits = true →
        (∃ t v, exec (.echo p f) s = .next t ∧
          t.tx = s.tx ++ [⟨p, mlFrame 6 0 (ringAddrOf s) s.ml.cyc (leBytes 8 v), true⟩] ∧ framed [.tx, .free] s t) ∧
        (let d := (rt * 1000 - leAt f.payload 0 8) / 2
         ∃ t, exec (.echoReply p f rt) s = .next t ∧ others t ∧ framed [.ml, .tx] s t ∧
           (x.cnt + 1 < 16 → getPort t p = { x with sum := x.sum + d, cnt := x.cnt + 1, echoDue := waits s } ∧
             t.tx = s.tx ++ if waits s then [] else [echo s p]) ∧
           (16 ≤ x.cnt + 1 → getPort t p = { x with delay := some ((x.sum + d) / 16), sum := 0, cnt := 0 } ∧ t.tx = s.tx)))) ∧
     (logicUp s = true → ∃ t, exec .echoRefresh s = .next t ∧ t.time = (toReserve s).time ∧ framed [.time, .ml, .tx] s t ∧
       (∀ q < 3, getPort t q = if (getPort s q).st = 3
         then { getPort s q with sum := 0, cnt := 0, echoDue := waits t } else getPort s q) ∧
       t.tx = s.tx ++ if waits t then [] else (List.range 3).filterMap fun q =>
         if (getPort s q).st = 3 then some (echo t q) else none) ∧
     (logicUp s = false → ∃ t, exec .echoRefresh s = .next t ∧ framed [] s t))

/-- R334, R335, R354, R337, R338: formation. The layouts are log 24; which ports process is log 23. -/
def Obligations.FormationOfTheLoop : Prop :=
  ∀ (o : Origin) (p : Port) (f : MlFrame) (s : State), Inv s →
    (let can : Prop := headRole s = 1 ∧ s.ml.stopped = false
     let begun (t : State) : Prop := ∀ q, outPort s true = some q →
       (s.ml.loop ≠ none → t.ml = { s.ml with formReq := true } ∧ t.tx = s.tx) ∧
       (s.ml.loop = none → t.ml.formAt = some s.time.now ∧ handed
         ⟨q, mlFrame 3 0 (ringAddrOf s) s.ml.cyc (FormData.bytes ⟨1, 1, 0, 0, 0, 1920 + dataDur s⟩), true⟩ s t)
     let retry : Prop := logicUp s = true ∧ (s.ml.formed = false ∨ s.ml.needForm = true)
     let d := formOf f.payload
     let works : Prop := takes true p f s = true
     let node : Prop := works ∧ processes s true p = true
     (retry → can → outPort s true ≠ none → ∃ t, exec .formationRetry s = .next t ∧ begun t ∧ sentOnly [.ml] s t) ∧
     (¬ (retry ∧ can ∧ outPort s true ≠ none) → ∃ t, exec .formationRetry s = .next t ∧ framed [] s t) ∧
     (acceptsAct o 0x2A13 1 s → ∃ t, exec (.reform o) s = .next t ∧ audited o 0x2A13 1 s t ∧ sentOnly [.aud, .ml, .mem] s t ∧
       (can → begun t) ∧ (¬ can → t.ml = s.ml ∧ t.tx = s.tx)) ∧
     (¬ works → (∃ t, exec (.form p f) s = .next t ∧ notTaken true p f s t) ∧
       ∃ t, exec (.formDone p f) s = .next t ∧ notTaken true p f s t) ∧
     (works → processes s true p = false → ∀ q, passPort s true p = some q →
       ∀ c ∈ [(Instr.form p f, 3), (Instr.formDone p f, 4)],
         (f.good = true → ∃ t, exec c.1 s = .next t ∧ handed ⟨q, mlFrame c.2 f.hops f.src f.cyc f.payload, true⟩ s t ∧
           (getPort t p).pass = true ∧ sentOnly [.ml] s t) ∧
         (f.good = false → ∃ t, exec c.1 s = .next t ∧ countedBad p s t ∧
           t.tx = s.tx ++ [⟨q, mlFrame c.2 f.hops f.src f.cyc f.payload, false⟩] ∧ sentOnly [.regs, .bb, .ml] s t)) ∧
     (node → f.good = false →
       (let counted (t : State) : Prop := countedBad p s t ∧ t.ml = s.ml ∧ sentOnly [.regs, .bb] s t
        (headRole s = 1 → f.own = true → ∃ t, exec (.form p f) s = .next t ∧ counted t ∧ t.tx = s.tx) ∧
        (headRole s = 1 → ∃ t, exec (.formDone p f) s = .next t ∧ counted t ∧ t.tx = s.tx) ∧
        (∀ q, ¬ (headRole s = 1 ∧ f.own = true) → outPort s true = some q →
          ∃ t, exec (.form p f) s = .next t ∧ counted t ∧ t.tx = s.tx ++ (if 2047 ≤ f.hops then []
            else [⟨q, mlFrame 3 (f.hops + 1) f.src f.cyc f.payload, false⟩])) ∧
        ∀ q, headRole s ≠ 1 → outPort s true = some q → ∃ t, exec (.formDone p f) s = .next t ∧ counted t ∧
          t.tx = s.tx ++ (if f.hops + 1 = loopHops s then []
            else [⟨q, mlFrame 4 (f.hops + 1) f.src f.cyc f.payload, false⟩]))) ∧
     (node → f.good = true → f.fits = false → ∃ t, exec (.form p f) s = .next t ∧ queueFull 6 t ∧ t.ml = s.ml ∧
       (f.own = true ∨ 2047 ≤ f.hops → t.tx = s.tx) ∧ (∀ q, f.own = false → f.hops < 2047 → outPort s true = some q →
         ∃ g, t.tx = s.tx ++ [⟨q, mlFrame 3 (f.hops + 1) f.src f.cyc f.payload, g⟩]) ∧ sentOnly [.regs, .bb] s t) ∧
     (node → f.good = true → f.fits = true → headRole s ≠ 1 → f.hops < 2047 → ∀ q y, outPort s true = some q →
       (getPort s p).delay = some y →
       (let sent (e : FormData) (a : Option Nat) : Prop := ∃ t, exec (.form p f) s = .next t ∧
          handed ⟨q, mlFrame 3 (f.hops + 1) f.src f.cyc e.bytes, true⟩ s t ∧
          t.ml = { s.ml with offered := a, formPorts := upPorts s } ∧ sentOnly [.ml] s t
        (pairEn s = false → d.pair = 0 → d.next < 1023 →
          ((s.ml.loop = none ∨ ∃ l, s.ml.loop = some l ∧ (l.addr = none ∨ l.addr = some d.next)) →
            sent ⟨d.next + 1, d.hops + 1, 0, d.result, d.sumd + y, d.train + dataDur s⟩ (some d.next)) ∧
          (∀ l a, s.ml.loop = some l → l.addr = some a → a ≠ d.next →
            sent ⟨d.next + 1, d.hops + 1, 0, if d.result = 0 then 7 else d.result, d.sumd + y, d.train + dataDur s⟩ none)) ∧
        (pairEn s = true → d.pair = pairId s → d.pair ≠ 0 → s.ml.loop = none →
          sent ⟨d.next, d.hops + 1, 0, d.result, d.sumd + y, d.train⟩ (some (d.next - 1))) ∧
        (d.pair ≠ 0 → ¬ (pairEn s = true ∧ d.pair = pairId s) → s.ml.loop = none →
          sent ⟨d.next, d.hops + 1, d.pair, if d.result = 0 then 4 else d.result, d.sumd + y, d.train⟩ none))) ∧
     (node → f.good = true → f.fits = true → headRole s = 1 → s.ml.formAt ≠ none → f.own = true →
       ∀ q y, outPort s true = some q → (getPort s 0).delay = some y →
       (let e : FormData := if p = 0 then { d with sumd := d.sumd + y } else d
        let r := formVerdict s e
        let start := (s.time.ring / max 1 (mlCycle s) + 2) * mlCycle s
        let l : MlLoop := ⟨d.next, d.hops, some 0, p = 0 && usable s true 1 && !(getPort s 1).pass⟩
        ∃ t, exec (.form p f) s = .next t ∧ t.ml.formAt = none ∧ t.ml.formResult = r ∧ t.ml.lbound = lBound e ∧
          t.ml.formed = decide (r = 1) ∧
          handed ⟨q, mlFrame 4 0 (ringAddrOf s) s.ml.cyc (formDoneBytes r l start), true⟩ s t ∧
          (r = 1 → t.ml.next = some (l, start)) ∧
          (r ≠ 1 → t.ml.next = none ∧ bit (getReg t rMlEvt) 1 = true) ∧ sentOnly [.regs, .bb, .ml] s t)) ∧
     (node → f.good = true → f.fits = true → headRole s = 1 → f.own = true → s.ml.formAt = none →
       ∃ t, exec (.form p f) s = .next t ∧ framed [] s t) ∧
     (node → f.good = true → f.fits = true → headRole s = 1 → f.own = false →
       ∃ t, exec (.form p f) s = .next t ∧ t.ml.stopped = true ∧ t.ml.isHead = false ∧ t.ml.formResult = 5 ∧
         bit (getReg t rMlEvt) 1 = true ∧ t.tx = s.tx ∧ framed [.regs, .bb, .ml] s t) ∧
     (node → f.good = true → headRole s = 1 → ∃ t, exec (.formDone p f) s = .next t ∧ framed [] s t) ∧
     (node → f.good = true → headRole s ≠ 1 → ∀ q, outPort s true = some q →
       (let b := f.payload
        ∃ t, exec (.formDone p f) s = .next t ∧ sentOnly [.regs, .bb, .ml] s t ∧
          (f.hops + 1 ≠ leAt b 4 2 → ∃ g, t.tx = s.tx ++ [⟨q, mlFrame 4 (f.hops + 1) f.src f.cyc b, g⟩] ∧
            (bufferSound s q → g = true)) ∧
          (f.hops + 1 = leAt b 4 2 → t.tx = s.tx) ∧
          (f.fits = false → queueFull 6 t ∧ t.ml = s.ml) ∧
          (f.fits = true → t.ml.formResult = leAt b 0 2 ∧ t.ml.formed = decide (leAt b 0 2 = 1) ∧
            (leAt b 0 2 = 1 → t.ml.next = some (⟨leAt b 2 2, leAt b 4 2, s.ml.offered, leAt b 6 2 = 2⟩, leAt b 8 8)) ∧
            (leAt b 0 2 ≠ 1 → t.ml.next = none ∧ bit (getReg t rMlEvt) 1 = true))))) ∧
    (match s.ml.next with
     | none => ∃ t, exec .loopAdopt s = .next t ∧ framed [] s t
     | some (l, start) =>
       (let wrong : Prop := bit (mlCfg s) 28 = true ∧ l.addr ≠ none ∧ l.addr ≠ some (bits (mlCfg s) 25 16)
        ∃ t, exec .loopAdopt s = .next t ∧ t.ml.loop = some l ∧ t.ml.next = none ∧ t.ml.backup = false ∧ t.ml.needForm = false ∧
          (s.time.ring < start → t.time.now = max s.time.now (localOf s start)) ∧
          (start ≤ s.time.ring → t.time = s.time) ∧
          (∀ q < 3, (getPort t q).inLoop = (decide ((getPort s q).st = 3) && s.ml.formPorts.testBit q)) ∧
          t.ml.isHead = (decide (headRole s = 1) && !s.ml.stopped) ∧ bit (getReg t rMlEvt) 0 = true ∧
          (wrong → t.ml.mismatch = true ∧ t.ml.formResult = 6 ∧ bit (getReg t rMlEvt) 13 = true) ∧
          (¬ wrong → t.ml.mismatch = false ∧ t.ml.formResult = 1) ∧ t.ml.topo = (if l.ring then 2 else 1) ∧
          (s.ml.turned = true → l.ring = true → bit (getReg t rMlEvt) 4 = true) ∧ t.ml.turned = (s.ml.turned && !l.ring) ∧
          framed [.time, .regs, .bb, .ml] s t))

/-- R339, R340, R343, R337, R345. How much of an offset steering takes, and the residence, are free values (log 25). -/
def Obligations.CycleRingTimeAndHead : Prop :=
  ∀ (o : Origin) (p : Port) (f : MlFrame) (s : State), Inv s →
    (let works : Prop := takes false p f s = true
     let node : Prop := works ∧ processes s false p = true
     let b := f.payload
     let flags := BitVec.ofNat 32 (leAt b 28 4)
     let own := (flags ||| (if wrapped s then 8 else 0)) ||| (if newLink s then 16 else 0)
     let onward (y r : Nat) : List Byte :=
       b.take 8 ++ leBytes 8 (leAt b 8 8 + y + r) ++ (b.drop 16).take 12 ++ leBytes 4 own.toNat
     (¬ works → ∃ t, exec (.cycleFrame p f) s = .next t ∧ notTaken false p f s t) ∧
     (works → processes s false p = false → f.good = true → ∀ q y, passPort s false p = some q →
       (getPort s p).delay = some y → ∃ t r, exec (.cycleFrame p f) s = .next t ∧ r ≤ 200000 ∧
         handed ⟨q, mlFrame 1 f.hops f.src f.cyc (onward y r), true⟩ s t ∧ (getPort t p).pass = true ∧
         t.ml.topo = (if bit flags 3 = true ∧ s.ml.topo = 2 then 3 else s.ml.topo) ∧ sentOnly [.ml, .free] s t) ∧
     (works → processes s false p = false → f.good = false → ∀ q, passPort s false p = some q →
       ∃ t, exec (.cycleFrame p f) s = .next t ∧ countedBad p s t ∧ t.time = s.time ∧
         t.tx = s.tx ++ [⟨q, mlFrame 1 f.hops f.src f.cyc b, false⟩] ∧ sentOnly [.regs, .bb, .ml, .free] s t) ∧
     (node → f.good = false →
       ∃ t, exec (.cycleFrame p f) s = .next t ∧ countedBad p s t ∧ t.ml = s.ml ∧ t.time = s.time ∧
         (endsHere s f = true → t.tx = s.tx) ∧
         (∀ q, endsHere s f = false → outPort s false = some q →
           t.tx = s.tx ++ [⟨q, mlFrame 1 (f.hops + 1) f.src f.cyc b, false⟩]) ∧ sentOnly [.regs, .bb] s t) ∧
     (node → f.good = true → f.fits = false → ∃ t, exec (.cycleFrame p f) s = .next t ∧ queueFull 6 t ∧ t.ml = s.ml ∧
       t.time = s.time ∧ (endsHere s f = true → t.tx = s.tx) ∧ sentOnly [.regs, .bb, .free] s t ∧
       ∀ q y, endsHere s f = false → outPort s false = some q → (getPort s p).delay = some y →
         ∃ r g, r ≤ 640000 ∧ t.tx = s.tx ++ [⟨q, mlFrame 1 (f.hops + 1) f.src f.cyc (onward y r), g⟩]) ∧
     (node → f.good = true → f.fits = true → f.own = true →
       ∃ t, exec (.cycleFrame p f) s = .next t ∧ t.ml.needForm = (s.ml.isHead && (bit flags 3 || bit flags 4)) ∧
         t.ml = { s.ml with needForm := t.ml.needForm, topo := t.ml.topo, turned := t.ml.turned } ∧
         t.ml.topo = (if bit flags 3 = true ∧ s.ml.topo = 2 then 3 else s.ml.topo) ∧
         t.wd.checked.testBit 10 = true ∧ framed [.regs, .wd, .img, .ml] s t) ∧
     (node → f.good = true → f.fits = true → f.own = false → headRole s = 1 →
       bit flags 2 = false → ∃ t, exec (.cycleFrame p f) s = .next t ∧ t.ml.stopped = true ∧ t.ml.isHead = false ∧
         t.ml.formResult = 5 ∧ bit (getReg t rMlEvt) 1 = true ∧ t.tx = s.tx ∧ framed [.regs, .bb, .ml] s t) ∧
     (node → f.good = true → f.fits = true → f.own = false → headRole s = 1 →
       bit flags 2 = true → endsHere s f = false → ∀ q y, outPort s false = some q → (getPort s p).delay = some y →
       ∃ t r, exec (.cycleFrame p f) s = .next t ∧ r ≤ 640000 ∧ t.ml = s.ml ∧ t.time = s.time ∧
         handed ⟨q, mlFrame 1 (f.hops + 1) f.src f.cyc (onward y r), true⟩ s t ∧ sentOnly [.free] s t) ∧
     (node → f.good = true → f.fits = true → f.own = false → headRole s ≠ 1 →
       ∀ y, (getPort s p).delay = some y →
       (let at' := leAt b 0 8 + (leAt b 8 8 + y) / 1000
        let off : Int := (at' : Int) - (s.time.ring : Int)
        ∃ t, exec (.cycleFrame p f) s = .next t ∧ t.ml.tofs = off ∧ t.ml.cyc = f.cyc ∧ t.ml.gotCycle = true ∧
          t.ml.appended = false ∧ t.ml.noHead = false ∧ t.ml.backup = false ∧ t.ml.isHead = false ∧
          t.ml.utcValid = bit flags 0 ∧ t.ml.utcOfs = BitVec.ofNat 32 (leAt b 16 4) ∧
          (bit flags 1 = true → t.clk.timeUnset = false) ∧
          (off.natAbs ≤ 1000 → steered off s t) ∧
          (1000 < off.natAbs → t.time.ring = at' % 2 ^ 64 ∧ t.time.now = s.time.now ∧ bit (getReg t rMlEvt) 7 = true) ∧
          (off.natAbs ≤ 100 → t.ml.lockCnt = min 8 (s.ml.lockCnt + 1) ∧
            t.ml.timeLock = (s.ml.timeLock || decide (7 ≤ s.ml.lockCnt))) ∧
          (100 < off.natAbs → t.ml.lockCnt = 0 ∧ t.ml.timeLock = (s.ml.timeLock && decide (off.natAbs ≤ 200))) ∧
          (endsHere s f = true → t.tx = s.tx) ∧
          (∀ q, endsHere s f = false → outPort s false = some q → ∃ r, r ≤ 640000 ∧
            handed ⟨q, mlFrame 1 (f.hops + 1) f.src f.cyc (onward y r), true⟩ s t) ∧
          sentOnly [.time, .regs, .sync, .modes, .bb, .img, .wd, .clk, .ml, .free] s t)) ∧
     (let runs : Prop := logicUp s = true ∧ s.ml.loop ≠ none ∧ mlCycle s ≠ 0
      (¬ runs → ∃ t, exec .cycleBoundary s = .next t ∧ framed [] s t) ∧
      (runs →
        (let u := if s.time.ring < nextCycle s then dueEchoes s else s
         ∃ t, exec .cycleBoundary s = .next t ∧ t.time.now = max u.time.now (localOf u (nextCycle u)) ∧
          ((∀ q < 3, ¬ ((getPort s q).echoDue = true ∧ (getPort s q).st = 3)) → u = s) ∧
          (∀ q < 3, s.time.ring < nextCycle s → (getPort s q).echoDue = true → (getPort s q).st = 3 → inReserve u = true →
            ⟨q, mlFrame 5 0 (ringAddrOf s) s.ml.cyc (leBytes 8 u.time.now), true⟩ ∈ t.tx ∧ (getPort t q).echoDue = false) ∧
          t.ml.cyc = t.time.ring / mlCycle s % 65536 ∧ t.ml.gotCycle = s.ml.isHead ∧ sentOnly [.time, .ml] s t ∧
          (s.ml.isHead = false → t.tx = u.tx ∧ t.ml.appended = false) ∧
          (∀ q, s.ml.isHead = true → s.ml.formReq = false → outPort s false = some q →
            (∃ g, (bufferSound s q → g = true) ∧
              (t.tx.drop u.tx.length).head? = some ⟨q, mlFrame 1 0 (ringAddrOf s) t.ml.cyc (cycleBytes t), g⟩) ∧
            leAt (cycleBytes t) 0 8 = t.time.ring % 2 ^ 64 ∧
            t.tx.length = u.tx.length + (if answers s then 2 else 1) ∧ t.ml.appended = answers s) ∧
          (s.ml.isHead = true → s.ml.formReq = true → t.ml.formReq = false ∧ t.ml.formAt = some t.time.now)))) ∧
     (let due : Prop := logicUp s = true ∧ s.ml.loop ≠ none ∧ s.ml.gotCycle = true ∧ s.ml.appended = false ∧
        s.ml.isHead = false ∧ answers s = true
      (¬ due → ∃ t, exec .dataAppend s = .next t ∧ framed [] s t) ∧
      (due → inReserve s = true → ∃ t, exec .dataAppend s = .next t ∧ t.ml = { s.ml with appended := true } ∧
        bits (getReg t 0x2A16) 15 0 = satSucc 0xFFFF (bits (getReg s 0x2A16) 15 0) ∧ regsOutside (· = 0x2A16) s t ∧
        framed [.regs, .ml] s t) ∧
      (∀ q, due → inReserve s = false → s.ml.mismatch = false → outPort s false = some q →
        (let w := takeOuts s.time.now (acyMax s) s.ml.outs
         let acy := (w.1.map (·.bytes)).flatten
         ∃ t, exec .dataAppend s = .next t ∧ t.ml = { s.ml with outs := w.2, appended := true } ∧ acy.length ≤ acyMax s ∧
           handed ⟨q, mlFrame 2 0 (ringAddrOf s) s.ml.cyc (leBytes 2 (pubRanges s).length ++ leBytes 2 acy.length
             ++ ((pubRanges s).map (rangeBytes s)).flatten ++ acy), true⟩ s t ∧ sentOnly [.ml] s t))) ∧
     (let takes : Prop := logicUp s = true ∧ headRole s = 2 ∧ s.ml.loop ≠ none ∧ s.ml.backup = false
      let loses : Prop := logicUp s = true ∧ headRole s = 0 ∧ s.ml.loop ≠ none ∧ s.ml.noHead = false
      (¬ takes → ∃ t, exec .headTakeover s = .next t ∧ framed [] s t) ∧
      (takes → ∃ t, exec .headTakeover s = .next t ∧ bit (getReg t rMlEvt) 5 = true ∧ framed [.regs, .bb, .ml] s t ∧
        t.ml = { s.ml with backup := true, isHead := true, noHead := false }) ∧
      (¬ loses → ∃ t, exec .noHead s = .next t ∧ framed [] s t) ∧
      (loses → ∃ t, exec .noHead s = .next t ∧ bit (getReg t rMlEvt) 6 = true ∧ framed [.regs, .bb, .ml] s t ∧
        t.ml = { s.ml with noHead := true, timeLock := false, lockCnt := 0 })) ∧
     (let on : Prop := logicUp s = true ∧ timeHead s = true ∧ bit (mlCfg s) 29 = true
      let set := (getReg s 0x2A11).toNat + 2 ^ 32 * (getReg s 0x2A12).toNat
      let edge := s.time.ring / 10 * 10
      let e : Int := (edge : Int) - ((edge + 500000000) / 1000000000 * 1000000000 : Nat)
      (¬ on → (∃ t, exec .ppsIn s = .next t ∧ framed [] s t) ∧ ∃ t, exec .ppsLost s = .next t ∧ framed [] s t) ∧
      (on → (∃ t, exec .ppsLost s = .next t ∧ bit (getReg t rMlEvt) 14 = true ∧ t.ml = { s.ml with ppsBig := 0, timeAt := none } ∧
          framed [.regs, .bb, .ml] s t) ∧
        ∃ t, exec .ppsIn s = .next t ∧ framed [.time, .sync, .modes, .clk, .ml, .free] s t ∧
          t.time.now = s.time.now ∧ (s.ml.tset = true → (s.time.ring ≠ set → t.time.ring = set) ∧ t.ml.tset = false ∧ t.clk.timeUnset = false) ∧
          (s.ml.tset = false → t.ml.ppsErr = e ∧ t.clk = s.clk ∧
            (e.natAbs ≤ 1000000 → t.ml.ppsBig = 0 ∧ steered (-e) s t) ∧
            (1000000 < e.natAbs → s.ml.ppsBig < 2 → t.ml.ppsBig = s.ml.ppsBig + 1 ∧ t.time = s.time) ∧
            (1000000 < e.natAbs → s.ml.ppsBig = 2 → t.ml.ppsBig = 0 ∧
              t.time.ring = ((s.time.ring : Int) - e).toNat % 2 ^ 64))) ∧
      (timeHead s = true →
        (acceptsAct o 0x2A13 2 s → ∃ t, exec (.timeSet o) s = .next t ∧ audited o 0x2A13 2 s t ∧
          framedRet [.time, .sync, .modes, .aud, .clk, .ml, .free] s t ∧
          (bit (mlCfg s) 29 = true → t.ml = { s.ml with tset := true } ∧ t.time = s.time ∧ t.clk = s.clk) ∧
          (bit (mlCfg s) 29 = false → (s.time.ring ≠ set → t.time.ring = set) ∧ t.ml.tset = false ∧
            t.clk.timeUnset = false)) ∧
        (acceptsAct o 0x2A13 4 s → ∃ t, exec (.utcSet o) s = .next t ∧ audited o 0x2A13 4 s t ∧
          t.ml = { s.ml with utcValid := true } ∧ framedRet [.aud, .ml] s t) ∧
        (acceptsAct o 0x2A13 8 s → ∃ t, exec (.utcClear o) s = .next t ∧ audited o 0x2A13 8 s t ∧
          t.ml = { s.ml with utcValid := false } ∧ framedRet [.aud, .ml] s t)) ∧
      (timeHead s = false → ∀ c ∈ [Instr.timeSet o, .utcSet o, .utcClear o],
        ∃ t, exec c s = .next t ∧ t.ml = s.ml ∧ t.time = s.time ∧ t.aud = s.aud ∧ framed [.regs, .hp, .bb] s t)))

/-- R347 to R353: points, acyclic entries, the mailbox and commands of the ring. -/
def Obligations.DataPointsAndAcyclicAccess : Prop :=
  ∀ (o : Origin) (p : Port) (f : MlFrame) (e : Fin 64) (cnt : Fin 64) (cast : Bool) (dst : BitVec 10) (s : State), Inv s →
    (let works : Prop := takes false p f s = true
     let node : Prop := works ∧ processes s false p = true
     let b := f.payload
     let sentOn := goOn 2 f b s
     let sound : Prop := ∀ q < 3, bufferSound s q
     let taken : Prop := node ∧ f.good = true ∧ f.fits = true ∧ endsHere s f = false
     (¬ works → ∃ t, exec (.data p f) s = .next t ∧ notTaken false p f s t) ∧
     (works → processes s false p = false → ∀ q, passPort s false p = some q →
       (f.good = true → ∃ t, exec (.data p f) s = .next t ∧ handed ⟨q, mlFrame 2 f.hops f.src f.cyc b, true⟩ s t ∧
         sentOnly [.ml] s t) ∧
       (f.good = false → ∃ t, exec (.data p f) s = .next t ∧ countedBad p s t ∧
         t.tx = s.tx ++ [⟨q, mlFrame 2 f.hops f.src f.cyc b, false⟩] ∧ sentOnly [.regs, .bb, .ml] s t)) ∧
     (∀ q, endsHere s f = false → outPort s false = some q → f.good = true →
       handed ⟨q, mlFrame 2 (f.hops + 1) f.src f.cyc b, true⟩ s sentOn) ∧
     (node → f.good = true → f.fits = true → endsHere s f = true → ∃ t, exec (.data p f) s = .next t ∧ framed [] s t) ∧
     (node → f.good = false → ∃ t, exec (.data p f) s = .next t ∧ countedBad p s t ∧ (endsHere s f = true → t.tx = s.tx) ∧
       (∀ q, endsHere s f = false → outPort s false = some q →
         t.tx = s.tx ++ [⟨q, mlFrame 2 (f.hops + 1) f.src f.cyc b, false⟩]) ∧
       (sound → regsOutside (fun a => a = 0x2A15 ∨ a = rMlEvt ∨ a = rBbMissed) s t) ∧ sentOnly [.regs, .bb] s t) ∧
     (node → f.good = true → f.fits = false → ∃ t, exec (.data p f) s = .next t ∧ queueFull 6 t ∧ t.tx = sentOn.tx ∧
       sentOnly [.regs, .bb] s t) ∧
     (taken → leAt b 2 2 = 0 → ∃ t, exec (.data p f) s = .next t ∧ t.tx = sentOn.tx ∧
       (sound → regsOutside (fun a => 0x4000 ≤ a ∧ a < 0x4400) s t) ∧ t.ml = { s.ml with subValid := t.ml.subValid } ∧
       (f.src = ringAddrOf s → (sound → t.regs = s.regs) ∧ t.ml = s.ml) ∧ sentOnly [.regs, .ml] s t) ∧
     (taken → exec (.data p f) s = .next (settle
       ((acysOf (leAt b 2 2 / 8 + 1) (((rangesOf (leAt b 0 2) (b.drop 4)).2).take (leAt b 2 2))).foldl
         (fun u x => serveEntry f.src x u)
         (if f.src = ringAddrOf s then sentOn else copyPoints f.src (rangesOf (leAt b 0 2) (b.drop 4)).1 sentOn)))) ∧
     (∀ (src : Nat) (x : AcyIn) (u : State),
       (let v := serveEntry src x u
        let d := x.data
        let here : Prop := u.ml.mismatch = false ∧ (x.cast = true ∨ x.dst = ringAddrOf u)
        let mine : Prop := u.ml.mismatch = false ∧ x.cast = false ∧ x.dst = ringAddrOf u
        let served : Prop := mine ∧ answers u = true ∧ pendingAnswers u < 32
        let answer (t : State) (op : Nat) (l : List Byte) : MlSt := { t.ml with outs := t.ml.outs ++
          [⟨acyEntry (op + 0x80) false src x.tag l, t.time.now + 20000, true⟩] }
        let answered (op : Nat) (l : List Byte) : Prop := changesOnly [.ml] u v ∧ v.ml = answer u op l
        (u.ml.mismatch = true ∨ (x.op ≠ 8 ∧ x.op ≠ 9 ∧ ¬ mine) ∨ ¬ here ∨ (1 ≤ x.op ∧ x.op ≤ 3 ∧ answers u = false) → v = u) ∧
        (here → (x.op = 8 ∨ x.op = 9) → leAt d 0 8 < u.time.ring → changesOnly [.regs, .bb] u v ∧
          bit (getReg v (if x.op = 8 then rSyncEvt else rMlEvt)) (if x.op = 8 then 2 else 11) = true) ∧
        (here → x.op = 8 → u.time.ring ≤ leAt d 0 8 →
          v = { u with sync := { u.sync with queue := u.sync.queue ++ [(leAt d 0 8, false)] } }) ∧
        (here → x.op = 9 → u.time.ring ≤ leAt d 0 8 →
          v = { u with ml := { u.ml with injects := u.ml.injects ++ [leAt d 0 8] } }) ∧
        (mine → 1 ≤ x.op → x.op ≤ 3 → answers u = true → 32 ≤ pendingAnswers u → changesOnly [.ml] u v ∧
          v.ml = { u.ml with outs := u.ml.outs ++ [⟨acyEntry (x.op + 0x80) false src x.tag
            (if x.op = 3 then streamResp 16 false 0 0 0 0 [] else leBytes 4 16), u.time.now + 20000, false⟩] }) ∧
        (let a := leAt d 0 2
         let n := leAt d 2 2
         (served → x.op = 1 → d.length < 4 ∨ n = 0 ∨ 64 < n → answered 1 (leBytes 4 18)) ∧
         (served → x.op = 1 → 4 ≤ d.length → 1 ≤ n → n ≤ 64 → ∃ ws : List Word, changesOnly [.latch, .ml] u v ∧
           ws.length = min n ((acyMax u - 12) / 4) ∧ ws = (ringReads n a u).1.take ws.length ∧
           (∀ i < ws.length, 0x5FFF < a + i → ws.getD i 0 = 0) ∧
           (∀ i < ws.length, a + i ≤ 0x5FFF → (∀ j ≤ i, isSnap (a + j) = false ∧ latchGroup (a + j) = []) →
             ws.getD i 0 = liveWord u (a + i) &&& readMask (a + i)) ∧
           v.ml = answer u 1 (leBytes 4 (if 0x5FFF < a + n - 1 then 11 else 0) ++ (ws.map fun w => leBytes 4 w.toNat).flatten)) ∧
         (served → x.op = 2 → d.length < 8 ∨ n = 0 ∨ d.length < 8 + 4 * n → answered 2 (leBytes 4 18)) ∧
         (served → x.op = 2 → 8 + 4 * n ≤ d.length → 1 ≤ n →
           (let o : Origin := ⟨.ring, src⟩
            let mask : Word := BitVec.ofNat 32 (leAt d 4 4)
            let ws : List Word := (List.range n).map fun i => BitVec.ofNat 32 (leAt d (8 + 4 * i) 4)
            let r := ringWrites o mask a ws u
            v = { r.2 with ml := answer r.2 2 (match r.1 with
              | some y => leBytes 2 y.1 ++ leBytes 2 y.2
              | none => leBytes 4 0) } ∧
            (n = 1 → ∃ t, exec (.registerWrite o (BitVec.ofNat 16 a) mask (ws.getD 0 0)) u = .next t ∧
              ∀ q, q ∉ [Part.ml, .pins, .bb] → q.same t v)))) ∧
        (let n := leAt d 0 1
         let k := strKey 1 n
         let off := leAt d 12 4
         let asked := leAt d 2 2
         let sound : Prop := served ∧ x.op = 3 ∧ 16 ≤ d.length ∧ n < 24
         let c := strCatchUp k u
         let t := nameStream k c.2
         let ready := strReady t 1 n
         (served → x.op = 3 → d.length < 16 ∨ 24 ≤ n ∨ 3 ≤ leAt d 1 1 ∨ (leAt d 1 1 < 2 ∧ (asked < 4 ∨ 1024 < asked)) →
           answered 3 (streamResp 18 false 0 0 0 0 [])) ∧
         (sound → leAt d 1 1 = 2 →
           (let t := nameStream k (seekTo k (leAt d 4 8) u)
            v = { t with ml := answer t 3 (streamResp 0 false (strPos t k) (strReady t 1 n) 0 0 []) })) ∧
         (sound → leAt d 1 1 < 2 → 4 ≤ asked → asked ≤ 1024 → strRec t n (strPos t k) = none →
           v = { t with ml := answer t 3 (streamResp 0 c.1 (strPos t k) ready 0 off []) }) ∧
         (∀ r, sound → leAt d 1 1 < 2 → 4 ≤ asked → asked ≤ 1024 → strRec t n (strPos t k) = some r →
           (ready = 0 → v = { t with ml := answer t 3 (streamResp 17 c.1 r.1 0 r.2.length off []) }) ∧
           (0 < ready →
             (let most := min asked (acyMax t - 32)
              v.ml = answer t 3 (streamResp 0 c.1 r.1 ready r.2.length off ((r.2.drop off).take most)) ∧
              changesOnly [.str, .ml] t v ∧
              strPos v k = (if leAt d 1 1 = 0 ∧ off < r.2.length ∧ r.2.length ≤ off + most then r.1 + 1 else strPos t k))))) ∧
        (x.op = 0 ∨ 4 ≤ x.op → mine → x.op ≠ 8 → x.op ≠ 9 →
          (u.ml.mb = none → v = u) ∧
          (∀ q, u.ml.mb = some q → (x.tag ≠ q.tag ∨ x.op ≠ q.op + 0x80 → v = u) ∧
            (x.tag = q.tag → x.op = q.op + 0x80 →
              (let k := if x.op = 0x81 then min (min q.words 64) ((d.length - 4) / 4) else 0
               v.ml = { u.ml with mb := none } ∧ changesOnly [.regs, .bb, .ml] u v ∧ bit (getReg v rMlEvt) 15 = true ∧
               getReg v 0x2A23 = BitVec.ofNat 32 (leAt d 0 1 * 2 ^ 24 + k * 65536 + 2) ∧
               (∀ i < k, getReg v (0x2B00 + i) = BitVec.ofNat 32 (leAt d (4 + 4 * i) 4)) ∧
               regsOutside (fun a => a = 0x2A23 ∨ a = rMlEvt ∨ a = rBbMissed ∨ (0x2B00 ≤ a ∧ a < 0x2B00 + k)) u v)))))) ∧
     (let valid : Prop := logicUp s = true ∧ s.ml.subValid.testBit e = true
      (¬ valid → ∃ t, exec (.subLost e) s = .next t ∧ framed [] s t) ∧
      (valid → ∃ t, exec (.subLost e) s = .next t ∧ t.ml = { s.ml with subValid := s.ml.subValid - 2 ^ e.val } ∧
        bit (getReg t rMlEvt) 9 = true ∧ regsOutside (fun a => a = rMlEvt ∨ a = rBbMissed) s t ∧
        framed [.regs, .bb, .ml] s t)) ∧
     (let n := cnt.val + 1
      let w := getReg s 0x2A21
      let far := bits w 25 16
      let head := leBytes 2 (bits w 15 0) ++ leBytes 2 n
      let words := leBytes 4 (getReg s 0x2A22).toNat ++ ((List.range n).map fun i => leBytes 4 (getReg s (0x2B00 + i)).toNat).flatten
      let sent (c : Instr) (op : Nat) (data : List Byte) : Prop :=
        ((s.ml.mb ≠ none ∨ acyMax s < 8 + data.length) → ∃ t, exec c s = .next t ∧ t.ml = s.ml ∧
          framed [.regs, .hp, .bb] s t) ∧
        (s.ml.mb = none → 8 + data.length ≤ acyMax s →
          (s.ml.loop ≠ none → far = ringAddrOf s → ∃ t, exec c s = .next t ∧
            getReg t 0x2A23 = BitVec.ofNat 32 (18 * 2 ^ 24 + 2) ∧ bit (getReg t rMlEvt) 15 = true ∧ t.ml = s.ml ∧
            framed [.regs, .bb, .ml] s t) ∧
          ((s.ml.loop = none ∨ far ≠ ringAddrOf s) → ∃ t, exec c s = .next t ∧ getReg t 0x2A23 = 0 ∧
            t.ml = { s.ml with
              mb := some { op := op, tag := s.ml.tag, words := n, sent := s.time.now }
              outs := s.ml.outs ++ [⟨acyEntry op false far s.ml.tag data, s.time.now, false⟩]
              tag := (s.ml.tag + 1) % 65536 } ∧
            regsOutside (· = 0x2A23) s t ∧ framed [.regs, .ml] s t))
      logicUp s = true → sent (.mailboxRead o cnt) 1 head ∧ sent (.mailboxWrite o cnt) 2 (head ++ words)) ∧
     (s.ml.mb = none → ∃ t, exec .acyTimeout s = .next t ∧ framed [] s t) ∧
     (∀ q, s.ml.mb = some q → ∃ t, exec .acyTimeout s = .next t ∧ t.ml = { s.ml with mb := none } ∧
       t.time.now = max s.time.now (q.sent + bits (getReg s 0x2A02) 23 16 * mlCycle s) ∧
       getReg t 0x2A23 = BitVec.ofNat 32 (19 * 2 ^ 24 + 2) ∧
       bits (getReg t 0x2A16) 31 16 = satSucc 0xFFFF (bits (getReg s 0x2A16) 31 16) ∧ bit (getReg t rMlEvt) 10 = true ∧
       bit (getReg t rMlEvt) 15 = true ∧ framed [.time, .regs, .bb, .ml] s t) ∧
     (let at' := cmdTime s
      let v (k : Nat) : Word := BitVec.ofNat 32 (k * 2 ^ 28 + b2n cast * 65536 + dst.toNat)
      let late : List Nat := if cast then [at'] else []
      let queued (op : Nat) : List AcyOut := s.ml.outs ++ [⟨acyEntry op cast dst.toNat s.ml.tag (leBytes 8 at'), s.time.now, false⟩]
      (at' < s.time.ring → ∀ c ∈ [Instr.syncCommandSend o cast dst, .injectCommandSend o cast dst],
        ∃ t, exec c s = .next t ∧ t.ml = s.ml ∧ t.sync = s.sync ∧ framed [.regs, .hp, .bb] s t) ∧
      (s.time.ring ≤ at' → acceptsAct o 0x2A17 (v 1) s → ∃ t, exec (.syncCommandSend o cast dst) s = .next t ∧
        audited o 0x2A17 (v 1) s t ∧ framedRet [.aud, .sync, .ml] s t ∧
        t.ml = { s.ml with outs := queued 8, tag := (s.ml.tag + 1) % 65536 } ∧
        t.sync = { s.sync with queue := s.sync.queue ++ if cast then [(at', false)] else [] }) ∧
      (s.time.ring ≤ at' → acceptsAct o 0x2A17 (v 2) s → ∃ t, exec (.injectCommandSend o cast dst) s = .next t ∧
        audited o 0x2A17 (v 2) s t ∧ framedRet [.aud, .ml] s t ∧
        t.ml = { s.ml with outs := queued 9, tag := (s.ml.tag + 1) % 65536, injects := s.ml.injects ++ late })) ∧
     (s.ml.injects = [] → ∃ t, exec .injectExecute s = .next t ∧ framed [] s t) ∧
     (∀ r ∈ s.ml.injects, (∀ x ∈ s.ml.injects, r ≤ x) →
       (let u := moveTo (localOf s r) s
        ∃ t, exec .injectExecute s = .next t ∧ t.time = u.time ∧
          t.ml = { s.ml with injects := s.ml.injects.filter (· ≠ r) } ∧ framed [.time, .convs, .ml] s t ∧
          ∀ n < 16, (∀ k < 16, runnerOf s k = k) →
            (let add : List Nat := if trigOn s n 10 then [gridAfter (modclkTime u (16 * localOf s r))] else []
             getConv t n = { getConv s n with trigs := (getConv s n).trigs ++ add }))))

/-- R361 to R365: heartbeats, roles and takeover. How much of an offset steering takes is a free value (log 25). -/
def Obligations.HeartbeatsAndTheirJudgement : Prop :=
  ∀ (f : PairFrame) (actIn : Bool) (s : State), Inv s →
    (logicUp s = true → pairEn s = true → ∃ t, exec .pairHeartbeatTick s = .next t ∧
      t.time.now = max s.time.now (s.pair.tickAt + 10000) ∧ t.pair.tickAt = t.time.now ∧ t.pair.waiting = true ∧
      t.pair.act = (s.pair.active && !s.pair.act) ∧ t.pair.active = s.pair.active ∧
      t.pair.actAt = (if s.pair.active then t.time.now else s.pair.actAt) ∧
      t.pair.gap = (s.pair.gap || (s.pair.active && decide (s.pair.actAt + 30000 ≤ t.time.now))) ∧
      t.wd.checked.testBit 11 = true ∧ (s.pair.linkUp = false → t.tx = s.tx) ∧
      (s.pair.linkUp = true → t.tx = s.tx ++ [⟨3, pairFrame 1 ((pairSeq s 1 + 1) % 256) 0 (heartbeatBytes t), true⟩]) ∧
      framed [.time, .regs, .img, .wd, .pair, .tx] s t) ∧
    (let rx : Prop := logicUp s = true ∧ onPairLink s = true ∧ s.pair.linkUp = true
     let ack : TxFrame := ⟨3, pairFrame 2 ((pairSeq s 2 + 1) % 256) 0 (leBytes 4 f.seq), true⟩
     (rx → imageNone s = false → f.good = true → f.seen.fits = true → leAt f.payload 2 2 = pairId s →
      (let v := s.pair
       let b := f.payload
       let flags := BitVec.ofNat 32 (leAt b 0 1)
       let lag := v.active && lags s (leAt b 4 4)
       let n := if lag then satSucc 65535 v.missed else v.missed
       let fences : Prop := v.active = true ∧ v.confirmed = true ∧ bit flags 0 = true ∧
         (v.gap = true ∨ (f.seen.actGap = false ∧ s.clk.roleStrap = false))
       let lost : Prop := v.active = true ∧ v.confirmed = true ∧ lag = true ∧ 3 ≤ n ∧ f.seen.actIn = false
       let drops : Prop := v.active = false ∧ v.hoStep ≠ none ∧ bit flags 0 = true ∧ leAt b 1 1 = 0xFF
       let follows : Prop := v.active = false ∧ v.confirmed = true ∧ s.ml.loop = none ∧ bit flags 0 = true
       let off := f.seen.offset
       ∃ t, exec (.pairHeartbeat f) s = .next t ∧ t.tx = s.tx ++ [ack] ∧
         t.pair.partnerAt = some s.time.now ∧ t.time.now = s.time.now ∧ t.pair.idMismatch = false ∧
         t.pair.inToggling = f.seen.actIn ∧ t.pair.missCnt = (if lag then satSucc 65535 v.missCnt else v.missCnt) ∧
         (¬ fences → t.pair.missed = n ∧ t.pair.actFault = (v.actFault && !f.seen.actIn)) ∧
         (¬ follows → t.time = s.time ∧ t.free = s.free ∧ t.sync = s.sync ∧ t.modes = s.modes ∧ t.ml = s.ml) ∧
         (follows → off.natAbs ≤ 1000 → steered off s t) ∧
         (follows → 1000 < off.natAbs → t.time.ring = ((s.time.ring : Int) + off).toNat % 2 ^ 64 ∧ bit (getReg t rMlEvt) 7 = true) ∧
         (bit flags 1 = true → lag = false → v.joined = false → bit (getReg t rPairEvt) 3 = true ∧
           (¬ fences → t.pair.joined = true ∧ t.pair.single = false)) ∧
         (∀ g, otherGenNow s = some g → t.pair.otherGen = g ∧ t.pair.genDiff = decide (g ≠ s.img.gen)) ∧
         (drops → t.pair.hoStep = none ∧ ∀ e ∈ t.jnl.ring, e.2.op = v.hoOp → e.2.st = 3) ∧
         (fences → t.pair.active = false ∧ t.pair.confirmed = false ∧ t.pair.fenced = true ∧ t.stg.entries = [] ∧
           bit (getReg t rPairEvt) 5 = true) ∧
         (¬ fences → t.pair.active = v.active ∧ t.stg = s.stg) ∧
         (¬ fences → lost → t.pair.single = true ∧ t.pair.away = true ∧ (v.single = false → bit (getReg t rPairEvt) 2 = true)) ∧
         (¬ fences → ¬ lost → t.pair.partnerReady = bit flags 2) ∧ booksOnly s t ∧ onlyVstates s t ∧
         framedRet [.time, .regs, .stg, .halls, .chans, .convs, .sync, .modes, .per, .aud, .bb, .jnl, .nv, .ml, .pair, .tx, .free]
           s t)) ∧
     (rx → imageNone s = false → f.good = true → f.seen.fits = true → leAt f.payload 2 2 ≠ pairId s →
      ∃ t, exec (.pairHeartbeat f) s = .next t ∧ t.tx = s.tx ++ [ack] ∧ framed [.pair, .tx] s t ∧
        t.pair = { s.pair with seqs := t.pair.seqs, idMismatch := true, joined := false, partnerReady := false }) ∧
     (rx → imageNone s = true → f.good = true → f.seen.fits = true → ∃ t, exec (.pairHeartbeat f) s = .next t ∧
       t.tx = s.tx ++ [ack] ∧ t.pair = { s.pair with seqs := t.pair.seqs } ∧ framed [.pair, .tx] s t) ∧
     (let meant : Prop := leAt f.payload 0 1 = pairSeq s 1 ∧ s.pair.waiting = true ∧ s.pair.idMismatch = false
      let d := f.seen.roundTrip / 2
      (rx → f.good = true → f.seen.fits = true → meant → ∃ t, exec (.ack f) s = .next t ∧ framed [.pair] s t ∧
        t.pair.waiting = false ∧ t.pair.linkDown = false ∧ t.pair.partnerAt = some s.time.now ∧
        t.pair.missed = (if s.pair.lagged = 0 then 0 else s.pair.missed) ∧
        (s.pair.delayCnt < 15 → t.pair.delay = s.pair.delay ∧ t.pair.delayCnt = s.pair.delayCnt + 1 ∧
          t.pair.delaySum = s.pair.delaySum + d) ∧
        (15 ≤ s.pair.delayCnt → t.pair.delay = some ((s.pair.delaySum + d) / 16) ∧ t.pair.delayCnt = 0 ∧ t.pair.delaySum = 0) ∧
        t.pair = { s.pair with waiting := t.pair.waiting, missed := t.pair.missed, linkDown := t.pair.linkDown
                               partnerAt := t.pair.partnerAt, delay := t.pair.delay, delaySum := t.pair.delaySum
                               delayCnt := t.pair.delayCnt }) ∧
      (¬ meant → f.good = true → f.seen.fits = true → ∃ t, exec (.ack f) s = .next t ∧ framed [] s t)) ∧
     (rx → f.good = false → ∀ c ∈ [Instr.pairHeartbeat f, .ack f],
      ∃ t, exec c s = .next t ∧ t.pair = { s.pair with crcErr := satSucc 65535 s.pair.crcErr } ∧ framed [.pair] s t) ∧
     (rx → f.good = true → f.seen.fits = false → ∀ c ∈ [Instr.pairHeartbeat f, .ack f], ∃ t, exec c s = .next t ∧ queueFull 7 t ∧
      regsOutside (fun a => a = 0x2930 ∨ a = rEccEvt ∨ a = rBbMissed) s t ∧ framed [.regs, .bb] s t) ∧
     (¬ rx → ∀ c ∈ [Instr.pairHeartbeat f, .ack f], ∃ t, exec c s = .next t ∧ framed [] s t)) ∧
    (logicUp s = true → pairEn s = true → s.pair.waiting = true →
      (let v := s.pair
       let n := satSucc 65535 v.missed
       let w0 : PairSt := { v with waiting := false, missed := n, missCnt := satSucc 65535 v.missCnt }
       let w : PairSt := { w0 with inToggling := actIn, actFault := v.actFault && !actIn }
       let acts : Prop := 3 ≤ n ∧ v.confirmed = true
       let slot := jSlot (hoRollBack s)
       ∃ t, exec (.heartbeatMissed actIn) s = .next t ∧ t.time.now = max s.time.now (v.tickAt + 4440) ∧
         t.pair.missCnt = w.missCnt ∧ t.pair.waiting = false ∧ t.pair.inToggling = actIn ∧
         ((¬ acts ∨ (v.active = true ∧ actIn = true) ∨ (v.active = false ∧ actIn = false ∧ mayTakeOver s = false) ∨
             (v.active = false ∧ actIn = true ∧ v.linkDown = true)) → t.pair = w ∧ framed [.time, .pair] s t) ∧
         (acts → v.active = true → actIn = false → t.pair.active = true ∧ t.pair.single = true ∧ t.pair.hoStep = none ∧
           t.pair.away = true ∧
           (v.single = false → bit (getReg t rPairEvt) 2 = true) ∧ (v.hoStep ≠ none → bit (getReg t rPairEvt) 10 = true) ∧
           (v.hoStep = none → framed [.time, .regs, .bb, .pair] s t ∧
             t.pair = if v.single then { w with away := true }
               else { w with away := true, single := true, partnerReady := false, joined := false }) ∧
           booksOnly s t ∧ onlyVstates s t ∧ framed [.time, .regs, .halls, .chans, .convs, .per, .bb, .jnl, .nv, .pair] s t) ∧
         (acts → v.active = false → actIn = true → v.linkDown = false → t.pair = { w with linkDown := true, joined := false } ∧
           bit (getReg t rPairEvt) 7 = true ∧ framed [.time, .regs, .bb, .pair] s t) ∧
         (acts → v.active = false → actIn = false → mayTakeOver s = true → t.pair.active = true ∧ t.pair.confirmed = true ∧
           t.pair.single = true ∧ t.pair.tkAt = some t.time.now ∧ t.pair.linkDown = false ∧ t.pair.hoStep = none ∧
           t.ml.appended = true ∧ bit (getReg t rPairEvt) 0 = true ∧ bit (getReg t rPairEvt) 1 = true ∧
           (journal t slot).typ = 7 ∧ (journal t slot).st = 2 ∧ (journal t slot).steps = 8 ∧
           (v.linkDown = false → t.eng = s.eng ∧ ∀ m, (getRun t m).accs = (getRun s m).accs) ∧
           (∀ m < 8, runEn s m = true → (roleCh s m 8).isSome = true → 0 < (getRun t m).car.backlog →
             bit (getReg t rPairEvt) 12 = true) ∧
           (∀ h < 8, ∀ c < 4, isShared s h c = true → modeOf s h c ∈ [5, 6, 17] →
             (getChan t h c).mixFrom = t.time.now + 360000 ∧ (getChan t h c).mixed = t.time.now + 520000) ∧
           chansOutside (fun h c => h < 8 ∧ isShared s h c = true ∧ modeOf s h c ∈ [5, 6, 17]) s t ∧ booksOnly s t ∧
           framedRet [.time, .regs, .chans, .eng, .runs, .aud, .bb, .jnl, .nv, .ml, .pair] s t))) ∧
    ((s.pair.waiting = false ∨ logicUp s = false ∨ pairEn s = false) →
      ∃ t, exec (.heartbeatMissed actIn) s = .next t ∧ framed [] s t) ∧
    ((logicUp s = false ∨ pairEn s = false) → ∃ t, exec .pairHeartbeatTick s = .next t ∧ framed [] s t)

/-- R364 to R366, R373, R375: what follows a takeover, PAIR_ACT faults, fencing, and what a link that comes up sends (log 20). -/
def Obligations.TakeoverDriveFencingAndPairLink : Prop :=
  ∀ s : State, Inv s →
    (∀ d, s.pair.tkAt = some d → ∃ t, exec .takeoverInputMode s = .next t ∧ t.time.now = max s.time.now (d + 460000) ∧
      (∀ h < 8, ∀ c < 4, isShared s h c = true → modeOf s h c = 17 →
        (bits (chCfgW s h c) 4 0 = 5 ∨ bits (chCfgW s h c) 4 0 = 6) → modeOf t h c = bits (chCfgW s h c) 4 0 ∧
        (getChan t h c).mixFrom = d + 360000 ∧ (getChan t h c).mixed = d + 520000) ∧
      (∀ h < 8, ∀ c < 4, (isShared s h c = false ∨ modeOf s h c ≠ 17) → getChan t h c = getChan s h c) ∧
      framed [.time, .halls, .chans, .convs] s t) ∧
    (∀ d, s.pair.tkAt = some d → ∃ t, exec .takeoverOutputDrive s = .next t ∧ t.time.now = max s.time.now (d + 520000) ∧
      t.pair = { s.pair with tkAt := none } ∧
      (∀ h < 8, ∀ c < 4, (getHall s h).up = true → isShared s h c = true → isOutMode (modeOf s h c) = true →
        (getChan t h c).idleOut = false) ∧
      (∀ m < 8, ∀ r ∈ [7, 9], ∀ g v, runEn s m = true → roleCh s m r = some g → isShared s (g / 4) (g % 4) = true →
        (getHall s (g / 4)).active = true → (if r = 7 then (getRun s m).fout else (getRun s m).iout) = some v →
        (∀ k < 8, ∀ q ∈ [7, 9], (k, q) ≠ (m, r) → runEn s k = true → roleCh s k q ≠ some g) →
        (getChan t (g / 4) (g % 4)).cmd = min v (cmdLimit s (g / 4) (g % 4))) ∧
      (∀ m < 8, ∀ g, runEn s m = true → roleCh s m 8 = some g → isShared s (g / 4) (g % 4) = true →
        (∀ k < 8, k ≠ m → runEn s k = true → roleCh s k 8 ≠ some g) →
        (getChan t (g / 4) (g % 4)).pulseLeft = (getRun s m).car.backlog) ∧
      t.tx = (sendOutputs s).tx ∧ onlyVstates s t ∧
      framed [.time, .regs, .halls, .chans, .per, .bb, .pair, .tx] s t) ∧
    (s.pair.tkAt = none → ∀ c ∈ [Instr.takeoverInputMode, .takeoverOutputDrive], ∃ t, exec c s = .next t ∧ framed [] s t) ∧
    (let faulty : Prop := logicUp s = true ∧ onPairLink s = true ∧ s.pair.linkUp = true ∧ s.pair.confirmed = true ∧
       s.pair.active = false ∧ s.pair.actFault = false
     (faulty → ∃ t, exec .pairActFault s = .next t ∧ t.pair = { s.pair with actFault := true, inToggling := false } ∧
       bit (getReg t rPairEvt) 8 = true ∧ framed [.regs, .bb, .pair] s t) ∧
     (¬ faulty → ∃ t, exec .pairActFault s = .next t ∧ framed [] s t)) ∧
    (let watched : Prop := logicUp s = true ∧ pairEn s = true ∧ s.pair.active = true ∧ s.pair.confirmed = true
     let now := max s.time.now (s.pair.actAt + 30000)
     let seen : Prop := ∃ a, s.pair.partnerAt = some a ∧ now ≤ a + 1000000000
     (watched → seen → ∃ t, exec .fence s = .next t ∧ t.time.now = now ∧ t.pair.active = false ∧ t.pair.confirmed = false ∧
       t.pair.fenced = true ∧ t.pair.tkAt = none ∧ t.pair.joined = false ∧ t.stg.entries = [] ∧ bit (getReg t rPairEvt) 0 = true ∧
       bit (getReg t rPairEvt) 5 = true ∧
       (s.pair.hoStep = none → ∀ h < 8, ∀ c < 4, (getHall s h).up = true → isShared s h c = true →
         (isOutMode (modeOf s h c) = true → (getChan t h c).idleOut = true) ∧
         ((modeOf s h c = 5 ∨ modeOf s h c = 6) → modeOf t h c = 17)) ∧
       booksOnly s t ∧ onlyVstates s t ∧
       framed [.time, .regs, .stg, .halls, .chans, .convs, .per, .bb, .jnl, .nv, .pair] s t) ∧
     (watched → ¬ seen → ∃ t, exec .fence s = .next t ∧ t.time.now = now ∧ framed [.time] s t) ∧
     (¬ watched → ∃ t, exec .fence s = .next t ∧ framed [] s t)) ∧
    (let comes : Prop := logicUp s = true ∧ onPairLink s = true ∧ s.pair.linkUp = false
     let ans : List Byte := ((List.range 8).map fun m => match ownAnswer s m with
       | some c => totBytes m 0 c
       | none => List.replicate 112 0).flatten
     (comes → ∃ t, exec .pairLinkUp s = .next t ∧
       t.pair = { s.pair with linkUp := true, recAt := [], recNext := [], recBase := [], seqs := t.pair.seqs } ∧
       t.tx = s.tx ++ ⟨3, pairFrame 7 ((pairSeq s 7 + 1) % 256) 0xFC00 (padTo 64 0 (Config.statusBytes (ownStatus s))), true⟩ ::
         ((List.range 14).map fun i => ⟨3, pairFrame 5 ((pairSeq s 5 + 1 + i) % 256) (0xFC40 + 64 * i) ((ans.drop (64 * i)).take 64),
           true⟩) ∧ framed [.pair, .tx] s t) ∧
     (¬ comes → ∃ t, exec .pairLinkUp s = .next t ∧ framed [] s t))

/-- R360, R367 to R373, R375, R376. CONFIG items, message codes and inner layouts are log 20. -/
def Obligations.MirrorForwardingAndHandover : Prop :=
  ∀ (o : Origin) (f : PairFrame) (k : Collision) (m : HoMsg) (s : State), Inv s →
    (let v := s.pair
     let rx : Prop := logicUp s = true ∧ onPairLink s = true ∧ v.linkUp = true
     let a := f.maddr % 65536
     let p := f.payload
     let kept (a : Nat) (bs : List Byte) (t : State) : Prop :=
       (∀ j < bs.length, mread 0 t.mem.mirror (a + j) = bs.getD j 0) ∧
       (∀ x, (x < a ∨ a + bs.length ≤ x) → mread 0 t.mem.mirror x = mread 0 s.mem.mirror x) ∧
       t.mem = { s.mem with mirror := t.mem.mirror, bad := t.mem.bad } ∧ (∀ e ∈ t.mem.bad, e ∈ s.mem.bad) ∧
       ∀ e ∈ s.mem.bad, e.1 = 3 → (e ∈ t.mem.bad ↔ ¬ (a ≤ 4 * e.2 ∧ 4 * e.2 < a + bs.length))
     let stored := kept a (p.take (65536 - a))
     let hit (w : Nat) : Prop := (∃ x, k = some x ∧ x.val = w) ∧ 4 * w < p.length
     let clash (ps : List Part) (t : State) : Prop :=
       ((∀ w, ¬ hit w) → t.pair.wcoll = v.wcoll ∧ framed (.mem :: ps) s t) ∧
       (∀ w, hit w → t.pair.wcoll = (a + 4 * w) % 65536 ∧ bit (getReg t rPairEvt) 6 = true ∧
         framed (.regs :: .bb :: .mem :: .pair :: ps) s t)
     let note (b : List Byte) : TxFrame := ⟨3, pairFrame 8 ((pairSeq s 8 + 1) % 256) 0 b, true⟩
     (let all : List Instr := [.record f k, .tickset f k, .totals f k, .state ⟨f, k⟩, .config ⟨f, k⟩, .handoverMessage f m]
      (¬ rx → ∀ c ∈ all, ∃ t, exec c s = .next t ∧ framed [] s t) ∧
      (rx → f.good = false → ∀ c ∈ all, ∃ t, exec c s = .next t ∧
        t.pair = { v with crcErr := satSucc 65535 v.crcErr } ∧ framed [.pair] s t) ∧
      (rx → f.good = true → f.seen.fits = false → ∀ c ∈ all, ∃ t, exec c s = .next t ∧ queueFull 7 t ∧
        regsOutside (fun a => a = 0x2930 ∨ a = rEccEvt ∨ a = rBbMissed) s t ∧ framed [.regs, .bb] s t)) ∧
     (rx → f.good = true → f.seen.fits = true →
       (∃ t, exec (.record f k) s = .next t ∧ stored t ∧ clash [.pair] t ∧
         t.pair = { v with wcoll := t.pair.wcoll, recAt := t.pair.recAt, recNext := t.pair.recNext } ∧
         (0x7000 ≤ a → t.pair.recAt = v.recAt ∧ t.pair.recNext = v.recNext) ∧
         (a < 0x7000 → p.length = 16 →
           (let n := a / 0x700
            let i := a % 0x700 / 16
            ∃ c, c % 112 = i ∧ (∀ e, v.recNext.find? (fun e => e.1 = n) = some e → e.2 ≤ c ∧ c < e.2 + 112) ∧
              t.pair.recAt = tput v.recAt (slotKey n i) c ∧ t.pair.recNext = tput v.recNext n (c + 1)))) ∧
       (∃ t, exec (.tickset f k) s = .next t ∧ stored t ∧ clash [] t ∧ t.pair = { v with wcoll := t.pair.wcoll }) ∧
       (∃ t, exec (.totals f k) s = .next t ∧ stored t ∧ clash [.pair] t ∧
         (let here : Prop := v.active = false ∧ v.hoStep = some 2 ∧ ∃ b, v.hoSwitch = some b ∧ totBlockAt t (tickOf b - 1) ≠ none
          (here → t.pair = { v with wcoll := t.pair.wcoll, hoStep := some 3 }) ∧
          (¬ here → t.pair = { v with wcoll := t.pair.wcoll }))) ∧
       (p = [] → v.active = false → ∃ t, exec (.state ⟨f, k⟩) s = .next t ∧ framed [] s t) ∧
       (p = [] → v.active = true → ∃ t, exec (.state ⟨f, k⟩) s = .next t ∧ framed [.pair, .tx] s t ∧
         t.pair = { v with seqs := t.pair.seqs } ∧
         t.tx = s.tx ++ ((List.range 8).flatMap fun m =>
             let bs := tagged s.eng.doneTick (Config.carBytes (getRun s m).car)
             (List.range (min 64 ((bs.length + 63) / 64))).map fun i => (0x9000 + 0xC00 * m + 64 * i, (bs.drop (64 * i)).take 64)).mapIdx
           fun i x => ⟨3, pairFrame 6 ((pairSeq s 6 + 1 + i) % 256) x.1 (padTo ((x.2.length + 3) / 4 * 4) 0 x.2), true⟩) ∧
       (p ≠ [] → ∃ t, exec (.state ⟨f, k⟩) s = .next t ∧ stored t ∧ clash [.pair] t ∧
         t.pair = { v with wcoll := t.pair.wcoll, stateHere := v.stateHere || (v.stateAsked && carriedComplete f t) }) ∧
       (0xFC00 ≤ f.maddr → ∃ t, exec (.config ⟨f, k⟩) s = .next t ∧ stored t ∧ clash [] t) ∧
       (let mid := mirrorFrame f k s
        f.maddr < 0xFC00 →
        (∃ t, exec (.config ⟨f, k⟩) s = .next t ∧
          framed [] (forN (p.length / 12) (fun i u => configItem ((p.drop (12 * i)).take 12) u) mid) t) ∧
        (p.length < 12 → ∃ t, exec (.config ⟨f, k⟩) s = .next t ∧ stored t ∧ clash [] t) ∧
        (p.length = 12 →
         (let mask := BitVec.ofNat 32 (leAt p 4 4)
          let val := BitVec.ofNat 32 (leAt p 8 4)
          let kind := leAt p 2 2
          let w := writeReg ⟨.pair, 0xFFFF⟩ (leAt p 0 2) mask val none mid
          let u := { s.stg with phase := .waiting, op := s.jnl.next, tick := some (nearTick s (leAt p 8 4)) }
          (v.active = false → kind = 0 → w.2 = none → ∃ t, exec (.config ⟨f, k⟩) s = .next t ∧
            exec (.registerWrite ⟨.pair, 0xFFFF⟩ (BitVec.ofNat 16 (leAt p 0 2)) mask val) mid = .next t) ∧
          (v.active = false → kind = 1 → w.2 = none → ∃ t u, exec (.config ⟨f, k⟩) s = .next t ∧
            exec (.registerWrite ⟨.pair, 0xFFFF⟩ (BitVec.ofNat 16 (leAt p 0 2)) mask val) mid = .next u ∧
            pairSent 7 0xF000 (cfgItem 0xFFFF 3 0 (BitVec.ofNat 32 u.stg.entries.length)) u t ∧ framed [.pair, .tx] u t) ∧
          (v.active = false → kind ∈ [0, 1] → w.2 ≠ none → ∃ t, exec (.config ⟨f, k⟩) s = .next t ∧
            t.pair.cfgDiverge = true ∧ (v.cfgDiverge = false → bit (getReg t rPairEvt) 13 = true)) ∧
          (v.active = false → kind = 2 → s.stg.entries ≠ [] → ∃ t, exec (.config ⟨f, k⟩) s = .next t ∧ t.stg = u ∧
            journaled (opened 5 s.stg.entries.length 0 s) s t ∧ booksOnly s t ∧ framedRet [.stg, .jnl, .nv] mid t) ∧
          (v.active = false → kind = 4 → ∃ t, exec (.config ⟨f, k⟩) s = .next t ∧ t.stg = { s.stg with entries := [] } ∧
            framed [.stg] mid t) ∧
          (v.active = true → kind = 3 → ∃ t, exec (.config ⟨f, k⟩) s = .next t ∧ framed [.stg] mid t ∧
            t.stg = { s.stg with delivered := s.stg.phase == .checking && decide (leAt p 8 4 = s.stg.entries.length) }) ∧
          ((v.active = false ∧ (kind = 3 ∨ 5 ≤ kind ∨ (kind = 2 ∧ s.stg.entries = []))) ∨ (v.active = true ∧ kind ≠ 3) →
            ∃ t, exec (.config ⟨f, k⟩) s = .next t ∧ stored t ∧ clash [] t))))) ∧
     (acceptsAct o 0x2C05 1 s → v.active = true → hoAllowed s = true → ∃ t, exec (.handover o) s = .next t ∧
       audited o 0x2C05 1 s t ∧ t.pair.hoStep = some 0 ∧ t.pair.hoOp = s.jnl.next ∧ t.pair.active = true ∧
       t.tx = s.tx ++ (if o.src = .pair then [] else
         [⟨3, pairFrame 7 ((pairSeq s 7 + 1) % 256) 0xF000 (cfgItem 0x2C05 0 allBits 1), true⟩]) ++ [note [1, 0, 0, 0]] ∧
       (journal t (jSlot s)).typ = 7 ∧ (journal t (jSlot s)).st = 1 ∧ (journal t (jSlot s)).steps = 1 ∧ booksOnly s t ∧
       framedRet [.aud, .jnl, .nv, .pair, .tx] s t) ∧
     (acceptsAct o 0x2C05 1 s → v.active = false → ∃ t, exec (.handover o) s = .next t ∧ audited o 0x2C05 1 s t ∧
       framedRet [.aud] s t) ∧
     (s.clk.die = .applied → audRoom s 1 = true → (o.src = .pair ∨ o.src = .internal ∨ audFull s = false) → v.active = true →
       hoAllowed s = false → ∃ t, exec (.handover o) s = .next t ∧ (v.partnerReady = false → bit (getReg t rPairEvt) 10 = true) ∧
       (o.src ≠ .host → v.partnerReady = true → framed [] s t) ∧
       regsOutside (fun a => a = rPairEvt ∨ a = rHpEvt ∨ a = rHpRej ∨ a = rBbMissed) s t ∧ framed [.regs, .hp, .bb] s t) ∧
     (rx → f.good = true → f.seen.fits = true →
       (let ready : Prop := v.active = false ∧ pairReady s = true ∧ v.hoStep = none
        let told := kept 0xFFC0 (hoBytes m)
        (m = .request → ¬ ready → ∃ t, exec (.handoverMessage f m) s = .next t ∧ told t ∧ framed [.mem] s t) ∧
        (m = .request → ready → ∃ t, exec (.handoverMessage f m) s = .next t ∧ told t ∧ t.pair.hoStep = some 1 ∧
          t.pair.hoSwitch = some (boundaryIn2ms s) ∧ t.tx = s.tx ++ [note [2, 0, 0, 0]] ∧
          (journal t (jSlot s)).typ = 7 ∧ (journal t (jSlot s)).st = 1 ∧ (journal t (jSlot s)).steps = 3 ∧ booksOnly s t ∧
          framed [.jnl, .nv, .mem, .pair, .tx] s t) ∧
        (m = .ready → ¬ (v.active = true ∧ v.hoStep = some 0) → ∃ t, exec (.handoverMessage f m) s = .next t ∧ told t ∧
          framed [.mem] s t) ∧
        (m = .ready → v.active = true → v.hoStep = some 0 → ∃ t, exec (.handoverMessage f m) s = .next t ∧ told t ∧
          t.pair = { v with hoStep := some 1, hoSwitch := some (boundaryIn2ms s) } ∧ framed [.jnl, .mem, .pair] s t) ∧
        (m = .restart → v.active = true → ∃ t, exec (.handoverMessage f m) s = .next t ∧ told t ∧ framed [.mem] s t) ∧
        (m = .restart → v.active = false → ∃ t, exec (.handoverMessage f m) s = .next t ∧ t.clk.die = .released ∧
          t.clk.cause = 6 ∧ t.stg.entries = [] ∧ t.img = imgReset ∧ t.aud.queue = s.aud.queue ∧ t.nv.c0.mem = s.nv.c0.mem) ∧
        (∀ ch : Fin 32, m = .pulseIdle ch →
          (v.active = false → ∃ t, exec (.handoverMessage f m) s = .next t ∧ told t ∧ framed [.mem] s t) ∧
          (v.active = true → isShared s (ch.val / 4) (ch.val % 4) = true → isOutMode (modeOf s (ch.val / 4) (ch.val % 4)) = true →
           ∃ t, exec (.handoverMessage f m) s = .next t ∧ told t ∧ (getChan t (ch.val / 4) (ch.val % 4)).idleOut = false ∧
             onlyVstates s t ∧ framed [.regs, .halls, .chans, .per, .bb, .mem, .tx] s t ∧ hallApart (ch.val / 4) s t ∧
             (∀ n, ¬ hallRegs (ch.val / 4) n → getReg t n = getReg s n) ∧
             (∀ m < 8, (∀ k < m, ¬ (runEn s k = true ∧ roleCh s k 8 = some ch.val)) → runEn s m = true →
               roleCh s m 8 = some ch.val → t.tx = s.tx ++ [⟨4 + ch.val / 4, leBytes 1 1 ++ leBytes 1 (ch.val % 4) ++
                 leBytes 4 (getRun s m).car.backlog ++ leBytes 4 (getReg s (aRun m 0x33)).toNat, true⟩]))))) ∧
     (match hoRunning s with
      | none => ∀ c ∈ [Instr.handoverRampStart, .handoverInputRelease, .handoverOutputOff, .handoverSwitch],
          ∃ t, exec c s = .next t ∧ framed [] s t
      | some b =>
        (let shared (h c : Nat) : Prop := h < 8 ∧ c < 4 ∧ (getHall s h).up = true ∧ isShared s h c = true
         let from_ := localOf s b - 250000
         let till := localOf s b - 200000
         let commands (t : State) : Prop := ∀ e ∈ (mirrorOut s).cmds, (∀ x ∈ (mirrorOut s).cmds, x.1 = e.1 → x = e) → e.1 < 32 →
           isShared s (e.1 / 4) (e.1 % 4) = true → (getHall s (e.1 / 4)).active = true →
           (getChan t (e.1 / 4) (e.1 % 4)).cmd = min e.2 (cmdLimit s (e.1 / 4) (e.1 % 4))
         let done (t : State) : Prop := t.pair.hoStep = none ∧ t.pair.hoSwitch = none ∧ bit (getReg t rPairEvt) 0 = true ∧
           bit (getReg t rPairEvt) 9 = true
         let closed (t : State) : Prop := ∀ e ∈ t.jnl.ring, e.2.op = v.hoOp → e.2.st = 2 ∧ e.2.steps.testBit 3 = true
         (∃ t, exec .handoverRampStart s = .next t ∧ t.time.now = max s.time.now from_ ∧
           t.pair = { v with hoStep := some 2 } ∧ (∀ e ∈ t.jnl.ring, e.2.op = v.hoOp → e.2.steps.testBit 2 = true) ∧
           (v.active = true → (∀ h c, shared h c → (modeOf s h c = 15 ∨ (modeOf s h c = 16 ∧ isPulseOut s (4 * h + c) = false)) →
             (getChan t h c).idleOut = true) ∧
             ∀ h < 8, ∀ c < 4, isShared s h c = true → modeOf s h c ∈ [5, 6, 17] →
               (getChan t h c).mixFrom = from_ ∧ (getChan t h c).mixed = till) ∧
           (v.active = false → commands t ∧ (∀ h c, shared h c → isOutMode (modeOf s h c) = true →
             isPulseOut s (4 * h + c) = false → (getChan t h c).idleOut = false) ∧
             ∀ h < 8, ∀ c < 4, isShared s h c = true → modeOf s h c = 17 →
               (bits (chCfgW s h c) 4 0 = 5 ∨ bits (chCfgW s h c) 4 0 = 6) → modeOf t h c = bits (chCfgW s h c) 4 0 ∧
                 (getChan t h c).mixFrom = from_ ∧ (getChan t h c).mixed = till) ∧
           onlyVstates s t ∧ framed [.time, .regs, .halls, .chans, .convs, .per, .bb, .jnl, .pair] s t) ∧
         (∃ t, exec .handoverInputRelease s = .next t ∧ t.time.now = max s.time.now till ∧
           (v.active = true → ∀ h < 8, ∀ c < 4, isShared s h c = true → (modeOf s h c = 5 ∨ modeOf s h c = 6) →
             modeOf t h c = 17 ∧ (getChan t h c).mixFrom = from_ ∧ (getChan t h c).mixed = till) ∧
           (v.active = false → framed [.time] s t) ∧ framed [.time, .halls, .chans, .convs] s t) ∧
         (∃ t, exec .handoverOutputOff s = .next t ∧ t.time.now = max s.time.now (localOf s b - 150000) ∧
           (v.active = true → ∀ h c, shared h c → modeOf s h c = 13 → (getChan t h c).idleOut = true) ∧
           (v.active = false → framed [.time] s t) ∧ onlyVstates s t ∧ framed [.time, .regs, .halls, .chans, .per, .bb] s t) ∧
         (v.active = true → v.hoRoll = false → ∃ t, exec .handoverSwitch s = .next t ∧ t.pair.active = false ∧
           t.pair.confirmed = true ∧ t.stg.entries = [] ∧ done t ∧ closed t ∧ t.time.now = max s.time.now (localOf s b) ∧
           t.eng.doneTick = s.eng.doneTick ∧ (∀ i, t.eng.prev = some i → i.tick ≠ s.eng.doneTick) ∧
           (∀ h c, shared h c → isOutMode (modeOf s h c) = true →
             (isPulseOut s (4 * h + c) = false ∨ (getChan s h c).pulseOn = none) → (getChan t h c).idleOut = true) ∧
           (rx → ∀ h c, shared h c → isPulseOut s (4 * h + c) = true → (getChan s h c).pulseOn = none →
             (getChan s h c).pulseRest ≤ t.time.now → ∃ q, ⟨3, pairFrame 8 q 0 (leBytes 1 3 ++ leBytes 1 (4 * h + c) ++ [0, 0]), true⟩ ∈ t.tx) ∧
           (switchTaken b s = true → t.eng.slot = 8) ∧ (switchTaken b s = false → t.runs = s.runs) ∧
           (v.hoHalt = false → t.clk = s.clk) ∧ (v.hoHalt = true → t.clk.halt ≠ none) ∧ booksOnly s t ∧ onlyVstates s t ∧
           framedRet [.time, .regs, .stg, .halls, .chans, .convs, .eng, .runs, .per, .aud, .bb, .jnl, .nv, .clk, .pair, .tx] s t) ∧
         (v.active = true → v.hoRoll = true → ∃ t, exec .handoverSwitch s = .next t ∧ t.clk.die = .released ∧ t.clk.cause = 6) ∧
         (v.active = false → ∃ t, exec .handoverSwitch s = .next t ∧ t.pair.active = true ∧ t.pair.confirmed = true ∧
           t.pair.joined = true ∧ done t ∧ t.time.now = max s.time.now (localOf s b) ∧ t.clk = s.clk ∧ commands t ∧
           (∀ accs, totBlockAt s (tickOf b - 1) = some accs → t.eng.doneTick = tickOf b - 1 ∧
             ∀ n < 8, (getRun t n).accs = accs.getD n []) ∧
           (∀ n < 8, ∀ c, mirrorCar s n = some c → ∃ x y, (getRun t n).car = { c with backlog := x, pacc := y }) ∧
           (∀ e ∈ (mirrorOut s).runs, (∀ x ∈ (mirrorOut s).runs, x.run = e.run → x = e) → e.run < 8 →
             (let r := getRun t e.run
              r.car.backlog = e.backlog ∧ r.car.pacc = e.pacc ∧ r.emitted = e.emitted ∧ r.fout = e.fout ∧ r.iout = e.iout)) ∧
           (∀ n < 8, runEn s n = true →
             (∀ g x, roleCh s n 7 = some g → (getRun t n).fout = some x →
               ⟨4 + g / 4, leBytes 1 0 ++ leBytes 1 (g % 4) ++ leBytes 4 x, true⟩ ∈ t.tx) ∧
             (∀ g x, roleCh s n 9 = some g → (getRun t n).iout = some x →
               ⟨4 + g / 4, leBytes 1 0 ++ leBytes 1 (g % 4) ++ leBytes 4 x, true⟩ ∈ t.tx)) ∧
           (switchTaken b s = false → closed t ∧ booksOnly s t ∧
             framedRet [.time, .regs, .chans, .eng, .runs, .aud, .bb, .jnl, .nv, .ml, .pair, .tx] s t) ∧
           framedRet [.time, .regs, .chans, .eng, .runs, .per, .bal, .aud, .gal, .bb, .jnl, .nv, .ml, .pair, .tx] s t))) ∧
     (let due (g : PairStatus) : Prop := partnerStatus s = some g ∧ pairEn s = true ∧ v.active = true ∧ v.linkUp = true ∧
        s.img.phase = 0 ∧ (g.none_ = true ∨ g.gen < s.img.gen)
      let item (i x : Nat) (w : Word) : TxFrame := ⟨3, pairFrame 7 ((pairSeq s 7 + 1 + i) % 256) 0xF000 (cfgItem x 0 allBits w), true⟩
      let bs := copyBytes s (2 * s.img.chip + s.img.slot)
      let n := (bs.length + 3) / 4
      ((logicUp s = false ∨ ∀ g, ¬ due g) → ∃ t, exec .imageCopyToStandby s = .next t ∧ framed [] s t) ∧
      (∀ g, due g → logicUp s = true → ∃ t, exec .imageCopyToStandby s = .next t ∧ framed [.pair, .tx] s t ∧
        t.pair = { v with seqs := t.pair.seqs } ∧
        t.tx = s.tx ++ [item 0 0x2D0A 1] ++ (List.range n).map (fun i => item (i + 1) 0x2D0C (BitVec.ofNat 32 (leAt bs (4 * i) 4))) ++
          [item (n + 1) 0x2D0A 2] ++ [note [4, 0, 0, 0]])))

/-- R6, R316: a class A write does not change the value in effect; a COMMIT or an image does. -/
def Obligations.ClassARegistersChangeOnlyByCommitOrImage : Prop :=
  (∀ (c : Instr) (s t : State), configures c = false → exec c s = .next t → ∀ a, classA a → getReg t a = getReg s a) ∧
    ∀ (o : Origin) (addr : Addr) (mask v : Word) (s : State), addr.toNat ≠ 0x2D0A →
      ∃ t, exec (.registerWrite o addr mask v) s = .next t ∧ ∀ a, classA a → getReg t a = getReg s a
end

