-- ==== Sys2Proof/Laws/Frame.lean ====
section
/-! SUPPORT. How frames compose: a command changes at most what the operations it is made of change. -/

namespace Sys2Proof.Machine

/-- Every part of `G` is one of `F`. -/
def Part.sub (G F : List Part) : Bool := G.all fun p => F.contains p

theorem Part.sub_mem {G F : List Part} (h : Part.sub G F = true) {p : Part} (hp : p ∈ G) : p ∈ F := by
  have := List.all_eq_true.1 h p hp
  simpa using this

theorem Part.sub_trans {G H F : List Part} (h : Part.sub G H = true) (k : Part.sub H F = true) : Part.sub G F = true :=
  List.all_eq_true.2 fun p hp => by simpa using Part.sub_mem k (Part.sub_mem h hp)

theorem Part.same_refl (p : Part) (s : State) : p.same s s := by cases p <;> rfl

theorem Part.same_trans {p : Part} {s t u : State} (h : p.same s t) (k : p.same t u) : p.same s u := by
  cases p <;> exact Eq.trans k h

theorem changesOnly.refl (F : List Part) (s : State) : changesOnly F s s := fun p _ => p.same_refl s

theorem changesOnly.trans {F : List Part} {s t u : State} (h : changesOnly F s t) (k : changesOnly F t u) :
    changesOnly F s u := fun p hp => Part.same_trans (h p hp) (k p hp)

theorem changesOnly.mono {G F : List Part} {s t : State} (h : changesOnly G s t) (hs : Part.sub G F = true) :
    changesOnly F s t := fun p hp => h p fun hm => hp (Part.sub_mem hs hm)

/-- One more operation, which changes at most `G`. -/
theorem changesOnly.via {G F : List Part} {s t u : State} (h : changesOnly G u t) (hs : Part.sub G F = true)
    (hu : changesOnly F s u) : changesOnly F s t := hu.trans (h.mono hs)

theorem changesOnly.ite {F : List Part} {s t u : State} {c : Prop} [Decidable c] (h : changesOnly F s t)
    (k : changesOnly F s u) : changesOnly F s (if c then t else u) := by split <;> assumption

/-- A conditional operation that otherwise leaves `u` as it is. -/
theorem changesOnly.iteL {F : List Part} {s t u : State} {c : Prop} [Decidable c] (hu : changesOnly F s u)
    (h : changesOnly F s u → changesOnly F s t) : changesOnly F s (if c then t else u) := by
  split
  · exact h hu
  · exact hu

theorem changesOnly.foldl {α : Type} {F : List Part} {f : State → α → State} {s : State}
    (h : ∀ u x, changesOnly F u (f u x)) : ∀ (l : List α) (u : State), changesOnly F s u → changesOnly F s (l.foldl f u)
  | [], _, hu => hu
  | x :: l, u, hu => changesOnly.foldl h l (f u x) (hu.trans (h u x))

/-- A record update of `u`: every field is the one of `u` or belongs to a part of `F`. -/
theorem changesOnly.mk {F : List Part} {s u : State} {a0 a1 a2 a3 a4 a5 a6 a7 a8 a9 a10 a11 a12 a13 a14 a15 a16 a17 a18 a19 a20 a21 a22 a23 a24 a25 a26 a27 a28 a29 a30 a31 a32}
    (h0 : a0 = u.time ∨ Part.time ∈ F)
    (h1 : a1 = u.regs ∨ Part.regs ∈ F)
    (h2 : a2 = u.latch ∨ Part.latch ∈ F)
    (h3 : a3 = u.hp ∨ Part.hp ∈ F)
    (h4 : a4 = u.stg ∨ Part.stg ∈ F)
    (h5 : a5 = u.str ∨ Part.str ∈ F)
    (h6 : a6 = u.halls ∨ Part.halls ∈ F)
    (h7 : a7 = u.chans ∨ Part.chans ∈ F)
    (h8 : a8 = u.convs ∨ Part.convs ∈ F)
    (h9 : a9 = u.sync ∨ Part.sync ∈ F)
    (h10 : a10 = u.newest ∨ Part.newest ∈ F)
    (h11 : a11 = u.older ∨ Part.older ∈ F)
    (h12 : a12 = u.modes ∨ Part.modes ∈ F)
    (h13 : a13 = u.curves ∨ Part.curves ∈ F)
    (h14 : a14 = u.eng ∨ Part.eng ∈ F)
    (h15 : a15 = u.runs ∨ Part.runs ∈ F)
    (h16 : a16 = u.per ∨ Part.per ∈ F)
    (h17 : a17 = u.bal ∨ Part.bal ∈ F)
    (h18 : a18 = u.aud ∨ Part.aud ∈ F)
    (h19 : a19 = u.gal ∨ Part.gal ∈ F)
    (h20 : a20 = u.bb ∨ Part.bb ∈ F)
    (h21 : a21 = u.jnl ∨ Part.jnl ∈ F)
    (h22 : a22 = u.img ∨ Part.img ∈ F)
    (h23 : a23 = u.nv ∨ Part.nv ∈ F)
    (h24 : a24 = u.mem ∨ Part.mem ∈ F)
    (h25 : a25 = u.wd ∨ Part.wd ∈ F)
    (h26 : a26 = u.clk ∨ Part.clk ∈ F)
    (h27 : a27 = u.ml ∨ Part.ml ∈ F)
    (h28 : a28 = u.pair ∨ Part.pair ∈ F)
    (h29 : a29 = u.pins ∨ Part.pins ∈ F)
    (h30 : a30 = u.tx ∨ Part.tx ∈ F)
    (h31 : a31 = u.free ∨ Part.free ∈ F)
    (h32 : a32 = u.pending ∨ Part.pending ∈ F)
    (hu : changesOnly F s u) :
    changesOnly F s (State.mk a0 a1 a2 a3 a4 a5 a6 a7 a8 a9 a10 a11 a12 a13 a14 a15 a16 a17 a18 a19 a20 a21 a22 a23 a24 a25 a26 a27 a28 a29 a30 a31 a32) := by
  refine hu.trans fun p hp => ?_
  cases p
  · exact h0.resolve_right hp
  · exact h1.resolve_right hp
  · exact h2.resolve_right hp
  · exact h3.resolve_right hp
  · exact h4.resolve_right hp
  · exact h5.resolve_right hp
  · exact h6.resolve_right hp
  · exact h7.resolve_right hp
  · exact h8.resolve_right hp
  · exact h9.resolve_right hp
  · exact h10.resolve_right hp
  · exact h11.resolve_right hp
  · exact h12.resolve_right hp
  · exact h13.resolve_right hp
  · exact h14.resolve_right hp
  · exact h15.resolve_right hp
  · exact h16.resolve_right hp
  · exact h17.resolve_right hp
  · exact h18.resolve_right hp
  · exact h19.resolve_right hp
  · exact h20.resolve_right hp
  · exact h21.resolve_right hp
  · exact h22.resolve_right hp
  · exact h23.resolve_right hp
  · exact h24.resolve_right hp
  · exact h25.resolve_right hp
  · exact h26.resolve_right hp
  · exact h27.resolve_right hp
  · exact h28.resolve_right hp
  · exact h29.resolve_right hp
  · exact h30.resolve_right hp
  · exact h31.resolve_right hp
  · exact h32.resolve_right hp

/-! One field updated. -/

theorem changesOnly.set_time {F : List Part} {s u : State} {x} (h : Part.sub [.time] F = true)
    (hu : changesOnly F s u) : changesOnly F s { u with time := x } :=
  hu.trans fun p hp => by cases p <;> first | rfl | exact absurd (Part.sub_mem h (List.mem_singleton.2 rfl)) hp

theorem changesOnly.set_regs {F : List Part} {s u : State} {x} (h : Part.sub [.regs] F = true)
    (hu : changesOnly F s u) : changesOnly F s { u with regs := x } :=
  hu.trans fun p hp => by cases p <;> first | rfl | exact absurd (Part.sub_mem h (List.mem_singleton.2 rfl)) hp

theorem changesOnly.set_latch {F : List Part} {s u : State} {x} (h : Part.sub [.latch] F = true)
    (hu : changesOnly F s u) : changesOnly F s { u with latch := x } :=
  hu.trans fun p hp => by cases p <;> first | rfl | exact absurd (Part.sub_mem h (List.mem_singleton.2 rfl)) hp

theorem changesOnly.set_hp {F : List Part} {s u : State} {x} (h : Part.sub [.hp] F = true)
    (hu : changesOnly F s u) : changesOnly F s { u with hp := x } :=
  hu.trans fun p hp => by cases p <;> first | rfl | exact absurd (Part.sub_mem h (List.mem_singleton.2 rfl)) hp

theorem changesOnly.set_stg {F : List Part} {s u : State} {x} (h : Part.sub [.stg] F = true)
    (hu : changesOnly F s u) : changesOnly F s { u with stg := x } :=
  hu.trans fun p hp => by cases p <;> first | rfl | exact absurd (Part.sub_mem h (List.mem_singleton.2 rfl)) hp

theorem changesOnly.set_str {F : List Part} {s u : State} {x} (h : Part.sub [.str] F = true)
    (hu : changesOnly F s u) : changesOnly F s { u with str := x } :=
  hu.trans fun p hp => by cases p <;> first | rfl | exact absurd (Part.sub_mem h (List.mem_singleton.2 rfl)) hp

theorem changesOnly.set_halls {F : List Part} {s u : State} {x} (h : Part.sub [.halls] F = true)
    (hu : changesOnly F s u) : changesOnly F s { u with halls := x } :=
  hu.trans fun p hp => by cases p <;> first | rfl | exact absurd (Part.sub_mem h (List.mem_singleton.2 rfl)) hp

theorem changesOnly.set_chans {F : List Part} {s u : State} {x} (h : Part.sub [.chans] F = true)
    (hu : changesOnly F s u) : changesOnly F s { u with chans := x } :=
  hu.trans fun p hp => by cases p <;> first | rfl | exact absurd (Part.sub_mem h (List.mem_singleton.2 rfl)) hp

theorem changesOnly.set_convs {F : List Part} {s u : State} {x} (h : Part.sub [.convs] F = true)
    (hu : changesOnly F s u) : changesOnly F s { u with convs := x } :=
  hu.trans fun p hp => by cases p <;> first | rfl | exact absurd (Part.sub_mem h (List.mem_singleton.2 rfl)) hp

theorem changesOnly.set_sync {F : List Part} {s u : State} {x} (h : Part.sub [.sync] F = true)
    (hu : changesOnly F s u) : changesOnly F s { u with sync := x } :=
  hu.trans fun p hp => by cases p <;> first | rfl | exact absurd (Part.sub_mem h (List.mem_singleton.2 rfl)) hp

theorem changesOnly.set_newest {F : List Part} {s u : State} {x} (h : Part.sub [.newest] F = true)
    (hu : changesOnly F s u) : changesOnly F s { u with newest := x } :=
  hu.trans fun p hp => by cases p <;> first | rfl | exact absurd (Part.sub_mem h (List.mem_singleton.2 rfl)) hp

theorem changesOnly.set_older {F : List Part} {s u : State} {x} (h : Part.sub [.older] F = true)
    (hu : changesOnly F s u) : changesOnly F s { u with older := x } :=
  hu.trans fun p hp => by cases p <;> first | rfl | exact absurd (Part.sub_mem h (List.mem_singleton.2 rfl)) hp

theorem changesOnly.set_modes {F : List Part} {s u : State} {x} (h : Part.sub [.modes] F = true)
    (hu : changesOnly F s u) : changesOnly F s { u with modes := x } :=
  hu.trans fun p hp => by cases p <;> first | rfl | exact absurd (Part.sub_mem h (List.mem_singleton.2 rfl)) hp

theorem changesOnly.set_curves {F : List Part} {s u : State} {x} (h : Part.sub [.curves] F = true)
    (hu : changesOnly F s u) : changesOnly F s { u with curves := x } :=
  hu.trans fun p hp => by cases p <;> first | rfl | exact absurd (Part.sub_mem h (List.mem_singleton.2 rfl)) hp

theorem changesOnly.set_eng {F : List Part} {s u : State} {x} (h : Part.sub [.eng] F = true)
    (hu : changesOnly F s u) : changesOnly F s { u with eng := x } :=
  hu.trans fun p hp => by cases p <;> first | rfl | exact absurd (Part.sub_mem h (List.mem_singleton.2 rfl)) hp

theorem changesOnly.set_runs {F : List Part} {s u : State} {x} (h : Part.sub [.runs] F = true)
    (hu : changesOnly F s u) : changesOnly F s { u with runs := x } :=
  hu.trans fun p hp => by cases p <;> first | rfl | exact absurd (Part.sub_mem h (List.mem_singleton.2 rfl)) hp

theorem changesOnly.set_per {F : List Part} {s u : State} {x} (h : Part.sub [.per] F = true)
    (hu : changesOnly F s u) : changesOnly F s { u with per := x } :=
  hu.trans fun p hp => by cases p <;> first | rfl | exact absurd (Part.sub_mem h (List.mem_singleton.2 rfl)) hp

theorem changesOnly.set_bal {F : List Part} {s u : State} {x} (h : Part.sub [.bal] F = true)
    (hu : changesOnly F s u) : changesOnly F s { u with bal := x } :=
  hu.trans fun p hp => by cases p <;> first | rfl | exact absurd (Part.sub_mem h (List.mem_singleton.2 rfl)) hp

theorem changesOnly.set_aud {F : List Part} {s u : State} {x} (h : Part.sub [.aud] F = true)
    (hu : changesOnly F s u) : changesOnly F s { u with aud := x } :=
  hu.trans fun p hp => by cases p <;> first | rfl | exact absurd (Part.sub_mem h (List.mem_singleton.2 rfl)) hp

theorem changesOnly.set_gal {F : List Part} {s u : State} {x} (h : Part.sub [.gal] F = true)
    (hu : changesOnly F s u) : changesOnly F s { u with gal := x } :=
  hu.trans fun p hp => by cases p <;> first | rfl | exact absurd (Part.sub_mem h (List.mem_singleton.2 rfl)) hp

theorem changesOnly.set_bb {F : List Part} {s u : State} {x} (h : Part.sub [.bb] F = true)
    (hu : changesOnly F s u) : changesOnly F s { u with bb := x } :=
  hu.trans fun p hp => by cases p <;> first | rfl | exact absurd (Part.sub_mem h (List.mem_singleton.2 rfl)) hp

theorem changesOnly.set_jnl {F : List Part} {s u : State} {x} (h : Part.sub [.jnl] F = true)
    (hu : changesOnly F s u) : changesOnly F s { u with jnl := x } :=
  hu.trans fun p hp => by cases p <;> first | rfl | exact absurd (Part.sub_mem h (List.mem_singleton.2 rfl)) hp

theorem changesOnly.set_img {F : List Part} {s u : State} {x} (h : Part.sub [.img] F = true)
    (hu : changesOnly F s u) : changesOnly F s { u with img := x } :=
  hu.trans fun p hp => by cases p <;> first | rfl | exact absurd (Part.sub_mem h (List.mem_singleton.2 rfl)) hp

theorem changesOnly.set_nv {F : List Part} {s u : State} {x} (h : Part.sub [.nv] F = true)
    (hu : changesOnly F s u) : changesOnly F s { u with nv := x } :=
  hu.trans fun p hp => by cases p <;> first | rfl | exact absurd (Part.sub_mem h (List.mem_singleton.2 rfl)) hp

theorem changesOnly.set_mem {F : List Part} {s u : State} {x} (h : Part.sub [.mem] F = true)
    (hu : changesOnly F s u) : changesOnly F s { u with mem := x } :=
  hu.trans fun p hp => by cases p <;> first | rfl | exact absurd (Part.sub_mem h (List.mem_singleton.2 rfl)) hp

theorem changesOnly.set_wd {F : List Part} {s u : State} {x} (h : Part.sub [.wd] F = true)
    (hu : changesOnly F s u) : changesOnly F s { u with wd := x } :=
  hu.trans fun p hp => by cases p <;> first | rfl | exact absurd (Part.sub_mem h (List.mem_singleton.2 rfl)) hp

theorem changesOnly.set_clk {F : List Part} {s u : State} {x} (h : Part.sub [.clk] F = true)
    (hu : changesOnly F s u) : changesOnly F s { u with clk := x } :=
  hu.trans fun p hp => by cases p <;> first | rfl | exact absurd (Part.sub_mem h (List.mem_singleton.2 rfl)) hp

theorem changesOnly.set_ml {F : List Part} {s u : State} {x} (h : Part.sub [.ml] F = true)
    (hu : changesOnly F s u) : changesOnly F s { u with ml := x } :=
  hu.trans fun p hp => by cases p <;> first | rfl | exact absurd (Part.sub_mem h (List.mem_singleton.2 rfl)) hp

theorem changesOnly.set_pair {F : List Part} {s u : State} {x} (h : Part.sub [.pair] F = true)
    (hu : changesOnly F s u) : changesOnly F s { u with pair := x } :=
  hu.trans fun p hp => by cases p <;> first | rfl | exact absurd (Part.sub_mem h (List.mem_singleton.2 rfl)) hp

theorem changesOnly.set_pins {F : List Part} {s u : State} {x} (h : Part.sub [.pins] F = true)
    (hu : changesOnly F s u) : changesOnly F s { u with pins := x } :=
  hu.trans fun p hp => by cases p <;> first | rfl | exact absurd (Part.sub_mem h (List.mem_singleton.2 rfl)) hp

theorem changesOnly.set_tx {F : List Part} {s u : State} {x} (h : Part.sub [.tx] F = true)
    (hu : changesOnly F s u) : changesOnly F s { u with tx := x } :=
  hu.trans fun p hp => by cases p <;> first | rfl | exact absurd (Part.sub_mem h (List.mem_singleton.2 rfl)) hp

theorem changesOnly.set_free {F : List Part} {s u : State} {x} (h : Part.sub [.free] F = true)
    (hu : changesOnly F s u) : changesOnly F s { u with free := x } :=
  hu.trans fun p hp => by cases p <;> first | rfl | exact absurd (Part.sub_mem h (List.mem_singleton.2 rfl)) hp

theorem changesOnly.set_pending {F : List Part} {s u : State} {x} (h : Part.sub [.pending] F = true)
    (hu : changesOnly F s u) : changesOnly F s { u with pending := x } :=
  hu.trans fun p hp => by cases p <;> first | rfl | exact absurd (Part.sub_mem h (List.mem_singleton.2 rfl)) hp

theorem forChans_into {F : List Part} {s u : State} {f : Nat → State → State} (h : ∀ c v, changesOnly F v (f c v))
    (hu : changesOnly F s u) : changesOnly F s (forChans f u) :=
  (((hu.trans (h 0 _)).trans (h 1 _)).trans (h 2 _)).trans (h 3 _)

theorem forHalls_into {F : List Part} {s u : State} {f : Nat → State → State} (h : ∀ c v, changesOnly F v (f c v))
    (hu : changesOnly F s u) : changesOnly F s (forHalls f u) :=
  (((((((hu.trans (h 0 _)).trans (h 1 _)).trans (h 2 _)).trans (h 3 _)).trans (h 4 _)).trans (h 5 _)).trans
    (h 6 _)).trans (h 7 _)

theorem forN_into {F : List Part} {s u : State} {n : Nat} {f : Nat → State → State}
    (h : ∀ c v, changesOnly F v (f c v)) (hu : changesOnly F s u) : changesOnly F s (forN n f u) :=
  changesOnly.foldl (fun v i => h i v) _ _ hu

end Sys2Proof.Machine
end

