-- ==== Sys2Proof/Laws/Changes0.lean ====
section
/-! SUPPORT. What each shared operation changes at most: the parts of the state (part 1 of 12). -/

set_option linter.unusedTactic false
set_option linter.unreachableTactic false

namespace Sys2Proof.Machine

theorem setReg_changes {F : List Part} {s0 : State} {a : Nat} {v : Word} {s : State}
    (hF : Part.sub [.regs] F = true) (hs : changesOnly F s0 s) :
    changesOnly F s0 (setReg a v s) := by
  refine hs.trans (changesOnly.mono ?_ hF)
  clear hs hF
  unfold setReg
  with_reducible repeat' first
    | assumption | exact changesOnly.refl _ _ | decide | apply changesOnly.set_regs

theorem modReg_changes {F : List Part} {s0 : State} {a : Nat} {f : Word → Word} {s : State}
    (hF : Part.sub [.regs] F = true) (hs : changesOnly F s0 s) :
    changesOnly F s0 (modReg a f s) := by
  refine hs.trans (changesOnly.mono ?_ hF)
  clear hs hF
  unfold modReg
  with_reducible repeat' first
    | assumption | exact changesOnly.refl _ _ | apply setReg_changes | decide

theorem trimEvents_changes {F : List Part} {s0 : State} {s : State}
    (hF : Part.sub [.bb] F = true) (hs : changesOnly F s0 s) :
    changesOnly F s0 (trimEvents s) := by
  refine hs.trans (changesOnly.mono ?_ hF)
  clear hs hF
  unfold trimEvents
  with_reducible repeat' first
    | assumption | exact changesOnly.refl _ _ | apply changesOnly.iteL | apply changesOnly.ite | decide | split
    | apply changesOnly.set_bb | (intro)

theorem bbEventAt_changes {F : List Part} {s0 : State} {time : Nat} {code : Nat} {src : Nat} {data : Nat} {s : State}
    (hF : Part.sub [.regs, .bb] F = true) (hs : changesOnly F s0 s) :
    changesOnly F s0 (bbEventAt time code src data s) := by
  refine hs.trans (changesOnly.mono ?_ hF)
  clear hs hF
  unfold bbEventAt
  with_reducible repeat' first
    | assumption | exact changesOnly.refl _ _ | apply modReg_changes | apply trimEvents_changes
    | apply changesOnly.iteL | apply changesOnly.ite | decide | split | apply changesOnly.set_bb | (intro)

theorem raiseEvtAt_changes {F : List Part} {s0 : State} {time : Nat} {a : Nat} {m : Word} {s : State}
    (hF : Part.sub [.regs, .bb] F = true) (hs : changesOnly F s0 s) :
    changesOnly F s0 (raiseEvtAt time a m s) := by
  refine hs.trans (changesOnly.mono ?_ hF)
  clear hs hF
  unfold raiseEvtAt
  with_reducible repeat' first
    | assumption | exact changesOnly.refl _ _ | apply setReg_changes | apply bbEventAt_changes
    | apply changesOnly.iteL | apply changesOnly.ite | decide | split | (intro)

theorem raiseEvt_changes {F : List Part} {s0 : State} {a : Nat} {m : Word} {s : State}
    (hF : Part.sub [.regs, .bb] F = true) (hs : changesOnly F s0 s) :
    changesOnly F s0 (raiseEvt a m s) := by
  refine hs.trans (changesOnly.mono ?_ hF)
  clear hs hF
  unfold raiseEvt
  with_reducible repeat' first
    | assumption | exact changesOnly.refl _ _ | apply raiseEvtAt_changes | decide

theorem raiseBit_changes {F : List Part} {s0 : State} {a : Nat} {i : Nat} {s : State}
    (hF : Part.sub [.regs, .bb] F = true) (hs : changesOnly F s0 s) :
    changesOnly F s0 (raiseBit a i s) := by
  refine hs.trans (changesOnly.mono ?_ hF)
  clear hs hF
  unfold raiseBit
  with_reducible repeat' first
    | assumption | exact changesOnly.refl _ _ | apply raiseEvt_changes | decide

theorem updImg_changes {F : List Part} {s0 : State} {f : ImgSt → ImgSt} {s : State}
    (hF : Part.sub [.img] F = true) (hs : changesOnly F s0 s) :
    changesOnly F s0 (updImg f s) := by
  refine hs.trans (changesOnly.mono ?_ hF)
  clear hs hF
  unfold updImg
  with_reducible repeat' first
    | assumption | exact changesOnly.refl _ _ | decide | apply changesOnly.set_img

theorem setCopy_changes {F : List Part} {s0 : State} {i : Nat} {st : Nat} {gen : Nat} {s : State}
    (hF : Part.sub [.img] F = true) (hs : changesOnly F s0 s) :
    changesOnly F s0 (setCopy i st gen s) := by
  refine hs.trans (changesOnly.mono ?_ hF)
  clear hs hF
  unfold setCopy
  with_reducible repeat' first
    | assumption | exact changesOnly.refl _ _ | apply updImg_changes | apply changesOnly.iteL | apply changesOnly.ite
    | decide | split | (intro)

theorem setNewCopies_changes {F : List Part} {s0 : State} {st : Nat} {gen : Nat} {s : State}
    (hF : Part.sub [.img] F = true) (hs : changesOnly F s0 s) :
    changesOnly F s0 (setNewCopies st gen s) := by
  refine hs.trans (changesOnly.mono ?_ hF)
  clear hs hF
  unfold setNewCopies
  with_reducible repeat' first
    | assumption | exact changesOnly.refl _ _ | apply setCopy_changes | apply forN_into | apply changesOnly.iteL
    | apply changesOnly.ite | decide | split | (intro)

theorem nvErase_changes {F : List Part} {s0 : State} {a : Nat} {n : Nat} {s : State}
    (hF : Part.sub [.nv] F = true) (hs : changesOnly F s0 s) :
    changesOnly F s0 (nvErase a n s) := by
  refine hs.trans (changesOnly.mono ?_ hF)
  clear hs hF
  unfold nvErase
  with_reducible repeat' first
    | assumption | exact changesOnly.refl _ _ | apply changesOnly.iteL | apply changesOnly.ite | decide | split
    | apply changesOnly.set_nv | (intro)

theorem abortRefused_changes {F : List Part} {s0 : State} {s : State}
    (hF : Part.sub [.regs, .bb, .img, .nv] F = true) (hs : changesOnly F s0 s) :
    changesOnly F s0 (abortRefused s) := by
  refine hs.trans (changesOnly.mono ?_ hF)
  clear hs hF
  unfold abortRefused
  with_reducible repeat' first
    | assumption | exact changesOnly.refl _ _ | apply raiseBit_changes | apply setNewCopies_changes
    | apply nvErase_changes | decide

theorem updChan_changes {F : List Part} {s0 : State} {h : Nat} {c : Nat} {f : ChanState → ChanState} {s : State}
    (hF : Part.sub [.chans] F = true) (hs : changesOnly F s0 s) :
    changesOnly F s0 (updChan h c f s) := by
  refine hs.trans (changesOnly.mono ?_ hF)
  clear hs hF
  unfold updChan
  with_reducible repeat' first
    | assumption | exact changesOnly.refl _ _ | decide | apply changesOnly.set_chans

theorem chFlag_changes {F : List Part} {s0 : State} {h : Nat} {c : Nat} {i : Nat} {b : Bool} {s : State}
    (hF : Part.sub [.chans] F = true) (hs : changesOnly F s0 s) :
    changesOnly F s0 (chFlag h c i b s) := by
  refine hs.trans (changesOnly.mono ?_ hF)
  clear hs hF
  unfold chFlag
  with_reducible repeat' first
    | assumption | exact changesOnly.refl _ _ | apply updChan_changes | apply changesOnly.iteL
    | apply changesOnly.ite | decide | split | (intro)

theorem ainFlag_changes {F : List Part} {s0 : State} {h : Nat} {c : Nat} {i : Nat} {b : Bool} {s : State}
    (hF : Part.sub [.chans] F = true) (hs : changesOnly F s0 s) :
    changesOnly F s0 (ainFlag h c i b s) := by
  refine hs.trans (changesOnly.mono ?_ hF)
  clear hs hF
  unfold ainFlag
  with_reducible repeat' first
    | assumption | exact changesOnly.refl _ _ | apply updChan_changes | apply changesOnly.iteL
    | apply changesOnly.ite | decide | split | (intro)

theorem ackFlags_changes {F : List Part} {s0 : State} {h : Nat} {c : Nat} {present : Bool} {s : State}
    (hF : Part.sub [.chans] F = true) (hs : changesOnly F s0 s) :
    changesOnly F s0 (ackFlags h c present s) := by
  refine hs.trans (changesOnly.mono ?_ hF)
  clear hs hF
  unfold ackFlags
  with_reducible repeat' first
    | assumption | exact changesOnly.refl _ _ | apply updChan_changes | apply ainFlag_changes | apply chFlag_changes
    | apply changesOnly.iteL | apply changesOnly.ite | decide | split | (intro)

theorem setDrive_changes {F : List Part} {s0 : State} {h : Nat} {c : Nat} {v : Nat} {s : State}
    (hF : Part.sub [.chans] F = true) (hs : changesOnly F s0 s) :
    changesOnly F s0 (setDrive h c v s) := by
  refine hs.trans (changesOnly.mono ?_ hF)
  clear hs hF
  unfold setDrive
  with_reducible repeat' first
    | assumption | exact changesOnly.refl _ _ | apply updChan_changes | apply chFlag_changes | apply changesOnly.iteL
    | apply changesOnly.ite | decide | split | (intro)

theorem pulseGo_changes {F : List Part} {s0 : State} {h : Nat} {c : Nat} {s : State}
    (hF : Part.sub [.chans] F = true) (hs : changesOnly F s0 s) :
    changesOnly F s0 (pulseGo h c s) := by
  refine hs.trans (changesOnly.mono ?_ hF)
  clear hs hF
  unfold pulseGo
  with_reducible repeat' first
    | assumption | exact changesOnly.refl _ _ | apply updChan_changes | apply changesOnly.iteL
    | apply changesOnly.ite | decide | split | (intro)

theorem resolve_changes {F : List Part} {s0 : State} {h : Nat} {c : Nat} {s : State}
    (hF : Part.sub [.chans] F = true) (hs : changesOnly F s0 s) :
    changesOnly F s0 (resolve h c s) := by
  refine hs.trans (changesOnly.mono ?_ hF)
  clear hs hF
  unfold resolve
  with_reducible repeat' first
    | assumption | exact changesOnly.refl _ _ | apply setDrive_changes | apply chFlag_changes | apply pulseGo_changes
    | apply changesOnly.iteL | apply changesOnly.ite | decide | split | (intro)

theorem gangFail_changes {F : List Part} {s0 : State} {h : Nat} {c : Nat} {s : State}
    (hF : Part.sub [.chans] F = true) (hs : changesOnly F s0 s) :
    changesOnly F s0 (gangFail h c s) := by
  refine hs.trans (changesOnly.mono ?_ hF)
  clear hs hF
  unfold gangFail
  with_reducible repeat' first
    | assumption | exact changesOnly.refl _ _ | apply updChan_changes | apply chFlag_changes | apply resolve_changes
    | apply changesOnly.foldl | decide | (intro)

theorem ackChannel_changes {F : List Part} {s0 : State} {h : Nat} {c : Nat} {present : Nat → Bool} {s : State}
    (hF : Part.sub [.chans] F = true) (hs : changesOnly F s0 s) :
    changesOnly F s0 (ackChannel h c present s) := by
  refine hs.trans (changesOnly.mono ?_ hF)
  clear hs hF
  unfold ackChannel
  with_reducible repeat' first
    | assumption | exact changesOnly.refl _ _ | apply updChan_changes | apply chFlag_changes | apply ackFlags_changes
    | apply resolve_changes | apply gangFail_changes | apply changesOnly.foldl | apply changesOnly.iteL
    | apply changesOnly.ite | decide | split | (intro)

theorem updHall_changes {F : List Part} {s0 : State} {h : Nat} {f : HallState → HallState} {s : State}
    (hF : Part.sub [.halls] F = true) (hs : changesOnly F s0 s) :
    changesOnly F s0 (updHall h f s) := by
  refine hs.trans (changesOnly.mono ?_ hF)
  clear hs hF
  unfold updHall
  with_reducible repeat' first
    | assumption | exact changesOnly.refl _ _ | decide | apply changesOnly.set_halls

theorem reportState_changes {F : List Part} {s0 : State} {h : Nat} {c : Nat} {s : State}
    (hF : Part.sub [.regs, .bb] F = true) (hs : changesOnly F s0 s) :
    changesOnly F s0 (reportState h c s) := by
  refine hs.trans (changesOnly.mono ?_ hF)
  clear hs hF
  unfold reportState
  with_reducible repeat' first
    | assumption | exact changesOnly.refl _ _ | apply raiseEvtAt_changes | apply changesOnly.iteL
    | apply changesOnly.ite | decide | split | (intro)

theorem reportChan_changes {F : List Part} {s0 : State} {h : Nat} {c : Nat} {s : State}
    (hF : Part.sub [.regs, .bb, .chans] F = true) (hs : changesOnly F s0 s) :
    changesOnly F s0 (reportChan h c s) := by
  refine hs.trans (changesOnly.mono ?_ hF)
  clear hs hF
  unfold reportChan
  with_reducible repeat' first
    | assumption | exact changesOnly.refl _ _ | apply setReg_changes | apply raiseEvt_changes
    | apply reportState_changes | apply updChan_changes | decide

theorem noteVstate_changes {F : List Part} {s0 : State} {h : Nat} {s : State}
    (hF : Part.sub [.per] F = true) (hs : changesOnly F s0 s) :
    changesOnly F s0 (noteVstate h s) := by
  refine hs.trans (changesOnly.mono ?_ hF)
  clear hs hF
  unfold noteVstate
  with_reducible repeat' first
    | assumption | exact changesOnly.refl _ _ | apply changesOnly.iteL | apply changesOnly.ite | decide | split
    | apply changesOnly.set_per | (intro)

theorem report_changes {F : List Part} {s0 : State} {h : Nat} {s : State}
    (hF : Part.sub [.regs, .bb, .halls, .chans, .per] F = true) (hs : changesOnly F s0 s) :
    changesOnly F s0 (report h s) := by
  refine hs.trans (changesOnly.mono ?_ hF)
  clear hs hF
  unfold report
  with_reducible repeat' first
    | assumption | exact changesOnly.refl _ _ | apply setReg_changes | apply raiseEvt_changes | apply updHall_changes
    | apply reportChan_changes | apply noteVstate_changes | apply forN_into | apply forChans_into
    | apply changesOnly.iteL | apply changesOnly.ite | decide | split | (intro)

theorem forShared_into {F : List Part} {s u : State} {sel : State → Nat → Nat → Bool} {f : Nat → Nat → State → State} (h : ∀ h c v, changesOnly F v (f h c v)) (hF : Part.sub [.regs, .bb, .halls, .chans, .per] F = true)
    (hu : changesOnly F s u) : changesOnly F s (forShared sel f u) := by
  unfold forShared
  apply forHalls_into _ hu
  intro c v
  apply changesOnly.ite _ (changesOnly.refl _ _)
  apply report_changes hF
  refine forChans_into (fun d w => ?_) (changesOnly.refl _ _)
  exact changesOnly.ite (h _ _ _) (changesOnly.refl _ _)

theorem hallAck_changes {F : List Part} {s0 : State} {h : Nat} {acks : Nat} {present : Nat → Bool} {s : State}
    (hF : Part.sub [.regs, .bb, .halls, .chans, .per] F = true) (hs : changesOnly F s0 s) :
    changesOnly F s0 (hallAck h acks present s) := by
  refine hs.trans (changesOnly.mono ?_ hF)
  clear hs hF
  unfold hallAck
  with_reducible repeat' first
    | assumption | exact changesOnly.refl _ _ | apply report_changes | apply ackChannel_changes | apply forChans_into
    | apply changesOnly.iteL | apply changesOnly.ite | decide | split | (intro)

theorem excFlag_changes {F : List Part} {s0 : State} {h : Nat} {i : Nat} {b : Bool} {s : State}
    (hF : Part.sub [.halls] F = true) (hs : changesOnly F s0 s) :
    changesOnly F s0 (excFlag h i b s) := by
  refine hs.trans (changesOnly.mono ?_ hF)
  clear hs hF
  unfold excFlag
  with_reducible repeat' first
    | assumption | exact changesOnly.refl _ _ | apply updHall_changes | apply changesOnly.iteL
    | apply changesOnly.ite | decide | split | (intro)

theorem applyExc_changes {F : List Part} {s0 : State} {h : Nat} {s : State}
    (hF : Part.sub [.halls] F = true) (hs : changesOnly F s0 s) :
    changesOnly F s0 (applyExc h s) := by
  refine hs.trans (changesOnly.mono ?_ hF)
  clear hs hF
  unfold applyExc
  with_reducible repeat' first
    | assumption | exact changesOnly.refl _ _ | apply excFlag_changes | apply updHall_changes | decide | split

theorem updConv_changes {F : List Part} {s0 : State} {n : Nat} {f : ConvState → ConvState} {s : State}
    (hF : Part.sub [.convs] F = true) (hs : changesOnly F s0 s) :
    changesOnly F s0 (updConv n f s) := by
  refine hs.trans (changesOnly.mono ?_ hF)
  clear hs hF
  unfold updConv
  with_reducible repeat' first
    | assumption | exact changesOnly.refl _ _ | decide | apply changesOnly.set_convs

theorem discard_changes {F : List Part} {s0 : State} {n : Nat} {s : State}
    (hF : Part.sub [.convs] F = true) (hs : changesOnly F s0 s) :
    changesOnly F s0 (discard n s) := by
  refine hs.trans (changesOnly.mono ?_ hF)
  clear hs hF
  unfold discard
  with_reducible repeat' first
    | assumption | exact changesOnly.refl _ _ | apply updConv_changes | decide

theorem discardOpen_changes {F : List Part} {s0 : State} {n : Nat} {s : State}
    (hF : Part.sub [.convs] F = true) (hs : changesOnly F s0 s) :
    changesOnly F s0 (discardOpen n s) := by
  refine hs.trans (changesOnly.mono ?_ hF)
  clear hs hF
  unfold discardOpen
  with_reducible repeat' first
    | assumption | exact changesOnly.refl _ _ | apply discard_changes | apply changesOnly.iteL
    | apply changesOnly.ite | decide | split | (intro)

theorem leaveShadow_changes {F : List Part} {s0 : State} {n : Nat} {s : State}
    (hF : Part.sub [.convs] F = true) (hs : changesOnly F s0 s) :
    changesOnly F s0 (leaveShadow n s) := by
  refine hs.trans (changesOnly.mono ?_ hF)
  clear hs hF
  unfold leaveShadow
  with_reducible repeat' first
    | assumption | exact changesOnly.refl _ _ | apply updConv_changes | apply discardOpen_changes
    | apply changesOnly.iteL | apply changesOnly.ite | decide | split | (intro)

theorem dropShadow_changes {F : List Part} {s0 : State} {h : Nat} {s : State}
    (hF : Part.sub [.halls, .convs] F = true) (hs : changesOnly F s0 s) :
    changesOnly F s0 (dropShadow h s) := by
  refine hs.trans (changesOnly.mono ?_ hF)
  clear hs hF
  unfold dropShadow
  with_reducible repeat' first
    | assumption | exact changesOnly.refl _ _ | apply updHall_changes | apply leaveShadow_changes | decide

theorem restartAt_changes {F : List Part} {s0 : State} {n : Nat} {t16 : Nat} {s : State}
    (hF : Part.sub [.convs] F = true) (hs : changesOnly F s0 s) :
    changesOnly F s0 (restartAt n t16 s) := by
  refine hs.trans (changesOnly.mono ?_ hF)
  clear hs hF
  unfold restartAt
  with_reducible repeat' first
    | assumption | exact changesOnly.refl _ _ | apply updConv_changes | decide

theorem restartStep_changes {F : List Part} {s0 : State} {n : Nat} {t16 : Nat} {s : State}
    (hF : Part.sub [.convs] F = true) (hs : changesOnly F s0 s) :
    changesOnly F s0 (restartStep n t16 s) := by
  refine hs.trans (changesOnly.mono ?_ hF)
  clear hs hF
  unfold restartStep
  with_reducible repeat' first
    | assumption | exact changesOnly.refl _ _ | apply restartAt_changes | apply discardOpen_changes
    | apply changesOnly.iteL | apply changesOnly.ite | decide | split | (intro)

theorem forcedShadow_changes {F : List Part} {s0 : State} {h : Nat} {s : State}
    (hF : Part.sub [.halls] F = true) (hs : changesOnly F s0 s) :
    changesOnly F s0 (forcedShadow h s) := by
  refine hs.trans (changesOnly.mono ?_ hF)
  clear hs hF
  unfold forcedShadow
  with_reducible repeat' first
    | assumption | exact changesOnly.refl _ _ | apply updHall_changes | decide

theorem forceExc_changes {F : List Part} {s0 : State} {h : Nat} {s : State}
    (hF : Part.sub [.halls, .convs, .regs, .bb, .chans, .per] F = true) (hs : changesOnly F s0 s) :
    changesOnly F s0 (forceExc h s) := by
  refine hs.trans (changesOnly.mono ?_ hF)
  clear hs hF
  unfold forceExc
  with_reducible repeat' first
    | assumption | exact changesOnly.refl _ _ | apply applyExc_changes | apply dropShadow_changes
    | apply restartStep_changes | apply forcedShadow_changes | apply report_changes | apply updHall_changes
    | apply changesOnly.iteL | apply changesOnly.ite | decide | split | (intro)

theorem addTrigger_changes {F : List Part} {s0 : State} {n : Nat} {t16 : Nat} {s : State}
    (hF : Part.sub [.convs] F = true) (hs : changesOnly F s0 s) :
    changesOnly F s0 (addTrigger n t16 s) := by
  refine hs.trans (changesOnly.mono ?_ hF)
  clear hs hF
  unfold addTrigger
  with_reducible repeat' first
    | assumption | exact changesOnly.refl _ _ | apply updConv_changes | decide

theorem triggerBlock_changes {F : List Part} {s0 : State} {own : Nat} {b : Nat} {t16 : Nat} {s : State}
    (hF : Part.sub [.convs] F = true) (hs : changesOnly F s0 s) :
    changesOnly F s0 (triggerBlock own b t16 s) := by
  refine hs.trans (changesOnly.mono ?_ hF)
  clear hs hF
  unfold triggerBlock
  with_reducible repeat' first
    | assumption | exact changesOnly.refl _ _ | apply addTrigger_changes | apply changesOnly.iteL
    | apply changesOnly.ite | decide | split | (intro)

theorem injGoOp_changes {F : List Part} {s0 : State} {n : Nat} {s : State}
    (hF : Part.sub [.convs] F = true) (hs : changesOnly F s0 s) :
    changesOnly F s0 (injGoOp n s) := by
  refine hs.trans (changesOnly.mono ?_ hF)
  clear hs hF
  unfold injGoOp
  with_reducible repeat' first
    | assumption | exact changesOnly.refl _ _ | apply triggerBlock_changes | decide

theorem updRot_changes {F : List Part} {s0 : State} {h : Nat} {f : RotSt → RotSt} {s : State}
    (hF : Part.sub [.halls] F = true) (hs : changesOnly F s0 s) :
    changesOnly F s0 (updRot h f s) := by
  refine hs.trans (changesOnly.mono ?_ hF)
  clear hs hF
  unfold updRot
  with_reducible repeat' first
    | assumption | exact changesOnly.refl _ _ | apply updHall_changes | decide

theorem rotNowOp_changes {F : List Part} {s0 : State} {h : Nat} {s : State}
    (hF : Part.sub [.halls] F = true) (hs : changesOnly F s0 s) :
    changesOnly F s0 (rotNowOp h s) := by
  refine hs.trans (changesOnly.mono ?_ hF)
  clear hs hF
  unfold rotNowOp
  with_reducible repeat' first
    | assumption | exact changesOnly.refl _ _ | apply updRot_changes | apply changesOnly.iteL | apply changesOnly.ite
    | decide | split | (intro)

theorem startFlight_changes {F : List Part} {s0 : State} {n : Nat} {s : State}
    (hF : Part.sub [.convs] F = true) (hs : changesOnly F s0 s) :
    changesOnly F s0 (startFlight n s) := by
  refine hs.trans (changesOnly.mono ?_ hF)
  clear hs hF
  unfold startFlight
  with_reducible repeat' first
    | assumption | exact changesOnly.refl _ _ | apply updConv_changes | decide

theorem startIdle_changes {F : List Part} {s0 : State} {own : Nat} {s : State}
    (hF : Part.sub [.convs] F = true) (hs : changesOnly F s0 s) :
    changesOnly F s0 (startIdle own s) := by
  refine hs.trans (changesOnly.mono ?_ hF)
  clear hs hF
  unfold startIdle
  with_reducible repeat' first
    | assumption | exact changesOnly.refl _ _ | apply startFlight_changes | apply changesOnly.iteL
    | apply changesOnly.ite | decide | split | (intro)

theorem joinAt_changes {F : List Part} {s0 : State} {n : Nat} {h : Nat} {x : ConvState} {inst : Nat} {s : State}
    (hF : Part.sub [.convs] F = true) (hs : changesOnly F s0 s) :
    changesOnly F s0 (joinAt n h x inst s) := by
  refine hs.trans (changesOnly.mono ?_ hF)
  clear hs hF
  unfold joinAt
  with_reducible repeat' first
    | assumption | exact changesOnly.refl _ _ | apply updConv_changes | apply changesOnly.iteL
    | apply changesOnly.ite | decide | split | (intro)

theorem joinBack_changes {F : List Part} {s0 : State} {h : Nat} {t16 : Nat} {s : State}
    (hF : Part.sub [.convs] F = true) (hs : changesOnly F s0 s) :
    changesOnly F s0 (joinBack h t16 s) := by
  refine hs.trans (changesOnly.mono ?_ hF)
  clear hs hF
  unfold joinBack
  with_reducible repeat' first
    | assumption | exact changesOnly.refl _ _ | apply joinAt_changes | apply changesOnly.iteL | apply changesOnly.ite
    | decide | split | (intro)

theorem unretireOp_changes {F : List Part} {s0 : State} {h : Nat} {k : Nat} {s : State}
    (hF : Part.sub [.halls, .convs, .regs, .bb, .chans, .per] F = true) (hs : changesOnly F s0 s) :
    changesOnly F s0 (unretireOp h k s) := by
  refine hs.trans (changesOnly.mono ?_ hF)
  clear hs hF
  unfold unretireOp
  with_reducible repeat' first
    | assumption | exact changesOnly.refl _ _ | apply updHall_changes | apply startIdle_changes
    | apply report_changes | apply joinBack_changes | apply changesOnly.iteL | apply changesOnly.ite | decide | split
    | (intro)

theorem updStg_changes {F : List Part} {s0 : State} {f : StgSt → StgSt} {s : State}
    (hF : Part.sub [.stg] F = true) (hs : changesOnly F s0 s) :
    changesOnly F s0 (updStg f s) := by
  refine hs.trans (changesOnly.mono ?_ hF)
  clear hs hF
  unfold updStg
  with_reducible repeat' first
    | assumption | exact changesOnly.refl _ _ | decide | apply changesOnly.set_stg

theorem stgAbandon_changes {F : List Part} {s0 : State} {s : State}
    (hF : Part.sub [.stg] F = true) (hs : changesOnly F s0 s) :
    changesOnly F s0 (stgAbandon s) := by
  refine hs.trans (changesOnly.mono ?_ hF)
  clear hs hF
  unfold stgAbandon
  with_reducible repeat' first
    | assumption | exact changesOnly.refl _ _ | apply updStg_changes | decide

end Sys2Proof.Machine
end

