-- ==== Sys2Proof/Laws/Changes1.lean ====
section
/-! SUPPORT. What each shared operation changes at most: the parts of the state (part 2 of 12). -/

set_option linter.unusedTactic false
set_option linter.unreachableTactic false

namespace Sys2Proof.Machine

theorem send_changes {F : List Part} {s0 : State} {line : Nat} {bs : List Byte} {s : State}
    (hF : Part.sub [.tx] F = true) (hs : changesOnly F s0 s) :
    changesOnly F s0 (send line bs s) := by
  refine hs.trans (changesOnly.mono ?_ hF)
  clear hs hF
  unfold send
  with_reducible repeat' first
    | assumption | exact changesOnly.refl _ _ | decide | apply changesOnly.set_tx

theorem updPair_changes {F : List Part} {s0 : State} {f : PairSt → PairSt} {s : State}
    (hF : Part.sub [.pair] F = true) (hs : changesOnly F s0 s) :
    changesOnly F s0 (updPair f s) := by
  refine hs.trans (changesOnly.mono ?_ hF)
  clear hs hF
  unfold updPair
  with_reducible repeat' first
    | assumption | exact changesOnly.refl _ _ | decide | apply changesOnly.set_pair

theorem pairSend_changes {F : List Part} {s0 : State} {typ : Nat} {maddr : Nat} {payload : List Byte} {s : State}
    (hF : Part.sub [.tx, .pair] F = true) (hs : changesOnly F s0 s) :
    changesOnly F s0 (pairSend typ maddr payload s) := by
  refine hs.trans (changesOnly.mono ?_ hF)
  clear hs hF
  unfold pairSend
  with_reducible repeat' first
    | assumption | exact changesOnly.refl _ _ | apply send_changes | apply updPair_changes | apply changesOnly.iteL
    | apply changesOnly.ite | decide | split | (intro)

theorem forward_changes {F : List Part} {s0 : State} {a : Nat} {kind : Nat} {mask : Word} {value : Word} {s : State}
    (hF : Part.sub [.tx, .pair] F = true) (hs : changesOnly F s0 s) :
    changesOnly F s0 (forward a kind mask value s) := by
  refine hs.trans (changesOnly.mono ?_ hF)
  clear hs hF
  unfold forward
  with_reducible repeat' first
    | assumption | exact changesOnly.refl _ _ | apply pairSend_changes | apply changesOnly.iteL
    | apply changesOnly.ite | decide | split | (intro)

theorem stgForward_changes {F : List Part} {s0 : State} {s : State}
    (hF : Part.sub [.tx, .pair] F = true) (hs : changesOnly F s0 s) :
    changesOnly F s0 (stgForward s) := by
  refine hs.trans (changesOnly.mono ?_ hF)
  clear hs hF
  unfold stgForward
  with_reducible repeat' first
    | assumption | exact changesOnly.refl _ _ | apply forward_changes | apply changesOnly.foldl
    | apply changesOnly.iteL | apply changesOnly.ite | decide | split | (intro)

theorem stgCommit_changes {F : List Part} {s0 : State} {s : State}
    (hF : Part.sub [.stg, .tx, .pair] F = true) (hs : changesOnly F s0 s) :
    changesOnly F s0 (stgCommit s) := by
  refine hs.trans (changesOnly.mono ?_ hF)
  clear hs hF
  unfold stgCommit
  with_reducible repeat' first
    | assumption | exact changesOnly.refl _ _ | apply updStg_changes | apply stgForward_changes
    | apply changesOnly.iteL | apply changesOnly.ite | decide | split | (intro)

theorem stgCtrl_changes {F : List Part} {s0 : State} {v : Word} {s : State}
    (hF : Part.sub [.stg, .tx, .pair] F = true) (hs : changesOnly F s0 s) :
    changesOnly F s0 (stgCtrl v s) := by
  refine hs.trans (changesOnly.mono ?_ hF)
  clear hs hF
  unfold stgCtrl
  with_reducible repeat' first
    | assumption | exact changesOnly.refl _ _ | apply stgAbandon_changes | apply stgCommit_changes
    | apply changesOnly.iteL | apply changesOnly.ite | decide | split | (intro)

theorem setStrPos_changes {F : List Part} {s0 : State} {k : Nat} {p : Nat} {s : State}
    (hF : Part.sub [.str] F = true) (hs : changesOnly F s0 s) :
    changesOnly F s0 (setStrPos k p s) := by
  refine hs.trans (changesOnly.mono ?_ hF)
  clear hs hF
  unfold setStrPos
  with_reducible repeat' first
    | assumption | exact changesOnly.refl _ _ | apply changesOnly.iteL | apply changesOnly.ite | decide | split
    | apply changesOnly.set_str | (intro)

theorem schedule_changes {F : List Part} {s0 : State} {t : Nat} {loc : Bool} {s : State}
    (hF : Part.sub [.sync] F = true) (hs : changesOnly F s0 s) :
    changesOnly F s0 (schedule t loc s) := by
  refine hs.trans (changesOnly.mono ?_ hF)
  clear hs hF
  unfold schedule
  with_reducible repeat' first
    | assumption | exact changesOnly.refl _ _ | decide | apply changesOnly.set_sync

theorem acyPush_changes {F : List Part} {s0 : State} {bytes : List Byte} {notBefore : Nat} {answer : Bool} {s : State}
    (hF : Part.sub [.ml] F = true) (hs : changesOnly F s0 s) :
    changesOnly F s0 (acyPush bytes notBefore answer s) := by
  refine hs.trans (changesOnly.mono ?_ hF)
  clear hs hF
  unfold acyPush
  with_reducible repeat' first
    | assumption | exact changesOnly.refl _ _ | decide | apply changesOnly.set_ml

theorem acyRequest_changes {F : List Part} {s0 : State} {op : Nat} {bcast : Bool} {dst : Nat} {data : List Byte} {s : State}
    (hF : Part.sub [.ml] F = true) (hs : changesOnly F s0 s) :
    changesOnly F s0 (acyRequest op bcast dst data s) := by
  refine hs.trans (changesOnly.mono ?_ hF)
  clear hs hF
  unfold acyRequest
  with_reducible repeat' first
    | assumption | exact changesOnly.refl _ _ | apply acyPush_changes | decide | apply changesOnly.set_ml

theorem scheduleLocal_changes {F : List Part} {s0 : State} {t : Nat} {s : State}
    (hF : Part.sub [.sync, .ml] F = true) (hs : changesOnly F s0 s) :
    changesOnly F s0 (scheduleLocal t s) := by
  refine hs.trans (changesOnly.mono ?_ hF)
  clear hs hF
  unfold scheduleLocal
  with_reducible repeat' first
    | assumption | exact changesOnly.refl _ _ | apply schedule_changes | apply acyRequest_changes
    | apply changesOnly.iteL | apply changesOnly.ite | decide | split | (intro)

theorem syncNowOp_changes {F : List Part} {s0 : State} {s : State}
    (hF : Part.sub [.sync, .ml] F = true) (hs : changesOnly F s0 s) :
    changesOnly F s0 (syncNowOp s) := by
  refine hs.trans (changesOnly.mono ?_ hF)
  clear hs hF
  unfold syncNowOp
  with_reducible repeat' first
    | assumption | exact changesOnly.refl _ _ | apply scheduleLocal_changes | decide

theorem bbEvent_changes {F : List Part} {s0 : State} {code : Nat} {src : Nat} {data : Nat} {s : State}
    (hF : Part.sub [.regs, .bb] F = true) (hs : changesOnly F s0 s) :
    changesOnly F s0 (bbEvent code src data s) := by
  refine hs.trans (changesOnly.mono ?_ hF)
  clear hs hF
  unfold bbEvent
  with_reducible repeat' first
    | assumption | exact changesOnly.refl _ _ | apply bbEventAt_changes | decide

theorem freeze_changes {F : List Part} {s0 : State} {cause : Nat} {trap : Nat} {addr : Nat} {s : State}
    (hF : Part.sub [.regs, .bb] F = true) (hs : changesOnly F s0 s) :
    changesOnly F s0 (freeze cause trap addr s) := by
  refine hs.trans (changesOnly.mono ?_ hF)
  clear hs hF
  unfold freeze
  with_reducible repeat' first
    | assumption | exact changesOnly.refl _ _ | apply modReg_changes | apply bbEvent_changes | apply raiseBit_changes
    | apply changesOnly.iteL | apply changesOnly.ite | decide | split | apply changesOnly.set_bb | (intro)

theorem bbResume_changes {F : List Part} {s0 : State} {s : State}
    (hF : Part.sub [.str, .bb] F = true) (hs : changesOnly F s0 s) :
    changesOnly F s0 (bbResume s) := by
  refine hs.trans (changesOnly.mono ?_ hF)
  clear hs hF
  unfold bbResume
  repeat' first
    | exact Or.inr (by decide) | with_reducible exact Or.inl rfl | with_reducible assumption
    | with_reducible exact changesOnly.refl _ _ | with_reducible apply changesOnly.iteL
    | with_reducible apply changesOnly.ite | decide | split | with_reducible (intro)
    | with_reducible apply changesOnly.mk

theorem checkIn_changes {F : List Part} {s0 : State} {i : Nat} {s : State}
    (hF : Part.sub [.regs, .wd, .img] F = true) (hs : changesOnly F s0 s) :
    changesOnly F s0 (checkIn i s) := by
  refine hs.trans (changesOnly.mono ?_ hF)
  clear hs hF
  unfold checkIn
  with_reducible repeat' first
    | assumption | exact changesOnly.refl _ _ | apply modReg_changes | apply changesOnly.iteL | apply changesOnly.ite
    | decide | split | apply changesOnly.set_wd | apply changesOnly.set_img | (intro)

theorem updMl_changes {F : List Part} {s0 : State} {f : MlSt → MlSt} {s : State}
    (hF : Part.sub [.ml] F = true) (hs : changesOnly F s0 s) :
    changesOnly F s0 (updMl f s) := by
  refine hs.trans (changesOnly.mono ?_ hF)
  clear hs hF
  unfold updMl
  with_reducible repeat' first
    | assumption | exact changesOnly.refl _ _ | decide | apply changesOnly.set_ml

theorem rebaseGrid_changes {F : List Part} {s0 : State} {s : State}
    (hF : Part.sub [.sync] F = true) (hs : changesOnly F s0 s) :
    changesOnly F s0 (rebaseGrid s) := by
  refine hs.trans (changesOnly.mono ?_ hF)
  clear hs hF
  unfold rebaseGrid
  with_reducible repeat' first
    | assumption | exact changesOnly.refl _ _ | decide | apply changesOnly.set_sync

theorem takeFree_changes {F : List Part} {s0 : State} {s : State}
    (hF : Part.sub [.free] F = true) (hs : changesOnly F s0 s) :
    changesOnly F s0 (takeFree s) := by
  refine hs.trans (changesOnly.mono ?_ hF)
  clear hs hF
  unfold takeFree
  with_reducible repeat' first
    | assumption | exact changesOnly.refl _ _ | decide | apply changesOnly.set_free

theorem judgeGrid_changes {F : List Part} {s0 : State} {s : State}
    (hF : Part.sub [.sync, .free] F = true) (hs : changesOnly F s0 s) :
    changesOnly F s0 (judgeGrid s) := by
  refine hs.trans (changesOnly.mono ?_ hF)
  clear hs hF
  unfold judgeGrid
  with_reducible repeat' first
    | assumption | exact changesOnly.refl _ _ | apply rebaseGrid_changes | apply takeFree_changes
    | apply changesOnly.iteL | apply changesOnly.ite | decide | split | apply changesOnly.set_sync | (intro)

theorem stepRing_changes {F : List Part} {s0 : State} {t : Nat} {s : State}
    (hF : Part.sub [.sync, .free, .time, .modes] F = true) (hs : changesOnly F s0 s) :
    changesOnly F s0 (stepRing t s) := by
  refine hs.trans (changesOnly.mono ?_ hF)
  clear hs hF
  unfold stepRing
  repeat' first
    | exact Or.inr (by decide) | with_reducible exact Or.inl rfl | with_reducible assumption
    | with_reducible exact changesOnly.refl _ _ | with_reducible apply judgeGrid_changes
    | with_reducible apply changesOnly.iteL | with_reducible apply changesOnly.ite | decide | split
    | with_reducible (intro) | with_reducible apply changesOnly.mk

theorem timeSetNow_changes {F : List Part} {s0 : State} {s : State}
    (hF : Part.sub [.sync, .free, .time, .modes, .clk, .ml] F = true) (hs : changesOnly F s0 s) :
    changesOnly F s0 (timeSetNow s) := by
  refine hs.trans (changesOnly.mono ?_ hF)
  clear hs hF
  unfold timeSetNow
  repeat' first
    | exact Or.inr (by decide) | with_reducible exact Or.inl rfl | with_reducible assumption
    | with_reducible exact changesOnly.refl _ _ | with_reducible apply stepRing_changes | decide
    | with_reducible apply changesOnly.mk

theorem timeSetOp_changes {F : List Part} {s0 : State} {s : State}
    (hF : Part.sub [.ml, .sync, .free, .time, .modes, .clk] F = true) (hs : changesOnly F s0 s) :
    changesOnly F s0 (timeSetOp s) := by
  refine hs.trans (changesOnly.mono ?_ hF)
  clear hs hF
  unfold timeSetOp
  with_reducible repeat' first
    | assumption | exact changesOnly.refl _ _ | apply updMl_changes | apply timeSetNow_changes
    | apply changesOnly.iteL | apply changesOnly.ite | decide | split | (intro)

theorem mlSend_changes {F : List Part} {s0 : State} {p : Nat} {bs : List Byte} {good : Bool} {s : State}
    (hF : Part.sub [.tx] F = true) (hs : changesOnly F s0 s) :
    changesOnly F s0 (mlSend p bs good s) := by
  refine hs.trans (changesOnly.mono ?_ hF)
  clear hs hF
  unfold mlSend
  with_reducible repeat' first
    | assumption | exact changesOnly.refl _ _ | decide | apply changesOnly.set_tx

theorem eccFound_changes {F : List Part} {s0 : State} {mem : Nat} {hall : Nat} {word : Nat} {s : State}
    (hF : Part.sub [.regs, .bb] F = true) (hs : changesOnly F s0 s) :
    changesOnly F s0 (eccFound mem hall word s) := by
  refine hs.trans (changesOnly.mono ?_ hF)
  clear hs hF
  unfold eccFound
  with_reducible repeat' first
    | assumption | exact changesOnly.refl _ _ | apply freeze_changes | apply raiseBit_changes | apply setReg_changes
    | decide

theorem eccRewritten_changes {F : List Part} {s0 : State} {sel : Nat × Nat → Bool} {s : State}
    (hF : Part.sub [.mem] F = true) (hs : changesOnly F s0 s) :
    changesOnly F s0 (eccRewritten sel s) := by
  refine hs.trans (changesOnly.mono ?_ hF)
  clear hs hF
  unfold eccRewritten
  with_reducible repeat' first
    | assumption | exact changesOnly.refl _ _ | decide | apply changesOnly.set_mem

theorem frameSend_changes {F : List Part} {s0 : State} {p : Nat} {bs : List Byte} {good : Bool} {s : State}
    (hF : Part.sub [.tx, .regs, .bb, .mem] F = true) (hs : changesOnly F s0 s) :
    changesOnly F s0 (frameSend p bs good s) := by
  refine hs.trans (changesOnly.mono ?_ hF)
  clear hs hF
  unfold frameSend
  with_reducible repeat' first
    | assumption | exact changesOnly.refl _ _ | apply mlSend_changes | apply eccFound_changes
    | apply eccRewritten_changes | decide | split

theorem mlOriginate_changes {F : List Part} {s0 : State} {form : Bool} {typ : Nat} {payload : List Byte} {s : State}
    (hF : Part.sub [.tx, .regs, .bb, .mem] F = true) (hs : changesOnly F s0 s) :
    changesOnly F s0 (mlOriginate form typ payload s) := by
  refine hs.trans (changesOnly.mono ?_ hF)
  clear hs hF
  unfold mlOriginate
  with_reducible repeat' first
    | assumption | exact changesOnly.refl _ _ | apply frameSend_changes | decide | split

theorem updPort_changes {F : List Part} {s0 : State} {p : Nat} {f : MlPort → MlPort} {s : State}
    (hF : Part.sub [.ml] F = true) (hs : changesOnly F s0 s) :
    changesOnly F s0 (updPort p f s) := by
  refine hs.trans (changesOnly.mono ?_ hF)
  clear hs hF
  unfold updPort
  with_reducible repeat' first
    | assumption | exact changesOnly.refl _ _ | apply updMl_changes | decide

theorem formGo_changes {F : List Part} {s0 : State} {s : State}
    (hF : Part.sub [.ml, .tx, .regs, .bb, .mem] F = true) (hs : changesOnly F s0 s) :
    changesOnly F s0 (formGo s) := by
  refine hs.trans (changesOnly.mono ?_ hF)
  clear hs hF
  unfold formGo
  with_reducible repeat' first
    | assumption | exact changesOnly.refl _ _ | apply updMl_changes | apply mlOriginate_changes
    | apply updPort_changes | apply forN_into | decide | (intro)

theorem formStart_changes {F : List Part} {s0 : State} {s : State}
    (hF : Part.sub [.ml, .tx, .regs, .bb, .mem] F = true) (hs : changesOnly F s0 s) :
    changesOnly F s0 (formStart s) := by
  refine hs.trans (changesOnly.mono ?_ hF)
  clear hs hF
  unfold formStart
  with_reducible repeat' first
    | assumption | exact changesOnly.refl _ _ | apply updMl_changes | apply formGo_changes | apply changesOnly.iteL
    | apply changesOnly.ite | decide | split | (intro)

theorem mlCtrl_changes {F : List Part} {s0 : State} {v : Word} {s : State}
    (hF : Part.sub [.ml, .sync, .free, .time, .modes, .clk, .tx, .regs, .bb, .mem] F = true) (hs : changesOnly F s0 s) :
    changesOnly F s0 (mlCtrl v s) := by
  refine hs.trans (changesOnly.mono ?_ hF)
  clear hs hF
  unfold mlCtrl
  with_reducible repeat' first
    | assumption | exact changesOnly.refl _ _ | apply timeSetOp_changes | apply updMl_changes
    | apply formStart_changes | apply changesOnly.iteL | apply changesOnly.ite | decide | split | (intro)

theorem mlEvent_changes {F : List Part} {s0 : State} {i : Nat} {s : State}
    (hF : Part.sub [.regs, .bb] F = true) (hs : changesOnly F s0 s) :
    changesOnly F s0 (mlEvent i s) := by
  refine hs.trans (changesOnly.mono ?_ hF)
  clear hs hF
  unfold mlEvent
  with_reducible repeat' first
    | assumption | exact changesOnly.refl _ _ | apply raiseBit_changes | decide

theorem injectCommand_changes {F : List Part} {s0 : State} {t : Nat} {s : State}
    (hF : Part.sub [.regs, .bb, .ml] F = true) (hs : changesOnly F s0 s) :
    changesOnly F s0 (injectCommand t s) := by
  refine hs.trans (changesOnly.mono ?_ hF)
  clear hs hF
  unfold injectCommand
  with_reducible repeat' first
    | assumption | exact changesOnly.refl _ _ | apply mlEvent_changes | apply updMl_changes | apply changesOnly.iteL
    | apply changesOnly.ite | decide | split | (intro)

theorem mlCmd_changes {F : List Part} {s0 : State} {v : Word} {s : State}
    (hF : Part.sub [.ml, .sync, .regs, .bb] F = true) (hs : changesOnly F s0 s) :
    changesOnly F s0 (mlCmd v s) := by
  refine hs.trans (changesOnly.mono ?_ hF)
  clear hs hF
  unfold mlCmd
  with_reducible repeat' first
    | assumption | exact changesOnly.refl _ _ | apply acyRequest_changes | apply schedule_changes
    | apply injectCommand_changes | apply changesOnly.iteL | apply changesOnly.ite | decide | split | (intro)

theorem mbDone_changes {F : List Part} {s0 : State} {status : Nat} {words : Nat} {s : State}
    (hF : Part.sub [.regs, .bb, .ml] F = true) (hs : changesOnly F s0 s) :
    changesOnly F s0 (mbDone status words s) := by
  refine hs.trans (changesOnly.mono ?_ hF)
  clear hs hF
  unfold mbDone
  with_reducible repeat' first
    | assumption | exact changesOnly.refl _ _ | apply mlEvent_changes | apply setReg_changes | apply updMl_changes
    | decide

theorem mbStart_changes {F : List Part} {s0 : State} {v : Word} {s : State}
    (hF : Part.sub [.regs, .bb, .ml] F = true) (hs : changesOnly F s0 s) :
    changesOnly F s0 (mbStart v s) := by
  refine hs.trans (changesOnly.mono ?_ hF)
  clear hs hF
  unfold mbStart
  with_reducible repeat' first
    | assumption | exact changesOnly.refl _ _ | apply mbDone_changes | apply updMl_changes | apply acyRequest_changes
    | apply setReg_changes | apply changesOnly.iteL | apply changesOnly.ite | decide | split | (intro)

theorem jMod_changes {F : List Part} {s0 : State} {op : Nat} {f : JEntry → JEntry} {s : State}
    (hF : Part.sub [.jnl] F = true) (hs : changesOnly F s0 s) :
    changesOnly F s0 (jMod op f s) := by
  refine hs.trans (changesOnly.mono ?_ hF)
  clear hs hF
  unfold jMod
  with_reducible repeat' first
    | assumption | exact changesOnly.refl _ _ | apply changesOnly.iteL | apply changesOnly.ite | decide | split
    | apply changesOnly.set_jnl | (intro)

theorem jStep_changes {F : List Part} {s0 : State} {op : Nat} {i : Nat} {s : State}
    (hF : Part.sub [.jnl] F = true) (hs : changesOnly F s0 s) :
    changesOnly F s0 (jStep op i s) := by
  refine hs.trans (changesOnly.mono ?_ hF)
  clear hs hF
  unfold jStep
  with_reducible repeat' first
    | assumption | exact changesOnly.refl _ _ | apply jMod_changes | decide

theorem nvWrite_changes {F : List Part} {s0 : State} {a : Nat} {bs : List Byte} {s : State}
    (hF : Part.sub [.nv] F = true) (hs : changesOnly F s0 s) :
    changesOnly F s0 (nvWrite a bs s) := by
  refine hs.trans (changesOnly.mono ?_ hF)
  clear hs hF
  unfold nvWrite
  with_reducible repeat' first
    | assumption | exact changesOnly.refl _ _ | apply changesOnly.iteL | apply changesOnly.ite | decide | split
    | apply changesOnly.set_nv | (intro)

theorem dirWrite_changes {F : List Part} {s0 : State} {s : State}
    (hF : Part.sub [.nv] F = true) (hs : changesOnly F s0 s) :
    changesOnly F s0 (dirWrite s) := by
  refine hs.trans (changesOnly.mono ?_ hF)
  clear hs hF
  unfold dirWrite
  with_reducible repeat' first
    | assumption | exact changesOnly.refl _ _ | apply nvWrite_changes | apply nvErase_changes | decide

theorem sectorErase_changes {F : List Part} {s0 : State} {a : Nat} {s : State}
    (hF : Part.sub [.nv] F = true) (hs : changesOnly F s0 s) :
    changesOnly F s0 (sectorErase a s) := by
  refine hs.trans (changesOnly.mono ?_ hF)
  clear hs hF
  unfold sectorErase
  with_reducible repeat' first
    | assumption | exact changesOnly.refl _ _ | apply dirWrite_changes | apply nvErase_changes | decide

theorem jCopy_changes {F : List Part} {s0 : State} {e : JEntry} {s : State}
    (hF : Part.sub [.nv, .jnl] F = true) (hs : changesOnly F s0 s) :
    changesOnly F s0 (jCopy e s) := by
  refine hs.trans (changesOnly.mono ?_ hF)
  clear hs hF
  unfold jCopy
  with_reducible repeat' first
    | assumption | exact changesOnly.refl _ _ | apply sectorErase_changes | apply nvWrite_changes
    | apply changesOnly.iteL | apply changesOnly.ite | decide | split | apply changesOnly.set_jnl | (intro)

theorem retWritten_changes {F : List Part} {s0 : State} {x : RetItem} {s : State}
    (hF : Part.sub [.mem] F = true) (hs : changesOnly F s0 s) :
    changesOnly F s0 (retWritten x s) := by
  refine hs.trans (changesOnly.mono ?_ hF)
  clear hs hF
  unfold retWritten
  with_reducible repeat' first
    | assumption | exact changesOnly.refl _ _ | apply eccRewritten_changes | decide

theorem jOpen_changes {F : List Part} {s0 : State} {typ : Nat} {target : Nat} {detail : Nat} {s : State}
    (hF : Part.sub [.nv, .jnl, .mem] F = true) (hs : changesOnly F s0 s) :
    changesOnly F s0 (jOpen typ target detail s) := by
  refine hs.trans (changesOnly.mono ?_ hF)
  clear hs hF
  unfold jOpen
  with_reducible repeat' first
    | assumption | exact changesOnly.refl _ _ | apply jCopy_changes | apply retWritten_changes
    | apply changesOnly.iteL | apply changesOnly.ite | decide | split | apply changesOnly.set_jnl | (intro)

theorem hoSend_changes {F : List Part} {s0 : State} {m : HoMsg} {s : State}
    (hF : Part.sub [.tx, .pair] F = true) (hs : changesOnly F s0 s) :
    changesOnly F s0 (hoSend m s) := by
  refine hs.trans (changesOnly.mono ?_ hF)
  clear hs hF
  unfold hoSend
  with_reducible repeat' first
    | assumption | exact changesOnly.refl _ _ | apply pairSend_changes | decide

theorem hoRequest_changes {F : List Part} {s0 : State} {s : State}
    (hF : Part.sub [.jnl, .nv, .mem, .tx, .pair] F = true) (hs : changesOnly F s0 s) :
    changesOnly F s0 (hoRequest s) := by
  refine hs.trans (changesOnly.mono ?_ hF)
  clear hs hF
  unfold hoRequest
  with_reducible repeat' first
    | assumption | exact changesOnly.refl _ _ | apply jStep_changes | apply jOpen_changes | apply hoSend_changes
    | apply updPair_changes | decide

theorem pairEvent_changes {F : List Part} {s0 : State} {i : Nat} {s : State}
    (hF : Part.sub [.regs, .bb] F = true) (hs : changesOnly F s0 s) :
    changesOnly F s0 (pairEvent i s) := by
  refine hs.trans (changesOnly.mono ?_ hF)
  clear hs hF
  unfold pairEvent
  with_reducible repeat' first
    | assumption | exact changesOnly.refl _ _ | apply raiseBit_changes | decide

theorem hoRefused_changes {F : List Part} {s0 : State} {s : State}
    (hF : Part.sub [.regs, .bb] F = true) (hs : changesOnly F s0 s) :
    changesOnly F s0 (hoRefused s) := by
  refine hs.trans (changesOnly.mono ?_ hF)
  clear hs hF
  unfold hoRefused
  with_reducible repeat' first
    | assumption | exact changesOnly.refl _ _ | apply pairEvent_changes | apply changesOnly.iteL
    | apply changesOnly.ite | decide | split | (intro)

end Sys2Proof.Machine
end

