-- ==== Sys2Proof/Laws/Changes2.lean ====
section
/-! SUPPORT. What each shared operation changes at most: the parts of the state (part 3 of 12). -/

set_option linter.unusedTactic false
set_option linter.unreachableTactic false

namespace Sys2Proof.Machine

theorem handoverOp_changes {F : List Part} {s0 : State} {s : State}
    (hF : Part.sub [.jnl, .nv, .mem, .tx, .pair, .regs, .bb] F = true) (hs : changesOnly F s0 s) :
    changesOnly F s0 (handoverOp s).1 := by
  refine hs.trans (changesOnly.mono ?_ hF)
  clear hs hF
  unfold handoverOp
  with_reducible repeat' first
    | assumption | exact changesOnly.refl _ _ | apply hoRequest_changes | apply hoRefused_changes
    | apply changesOnly.iteL | apply changesOnly.ite | decide | split | (intro)

theorem pageDrop_changes {F : List Part} {s0 : State} {s : State}
    (hF : Part.sub [.img, .nv] F = true) (hs : changesOnly F s0 s) :
    changesOnly F s0 (pageDrop s) := by
  refine hs.trans (changesOnly.mono ?_ hF)
  clear hs hF
  unfold pageDrop
  with_reducible repeat' first
    | assumption | exact changesOnly.refl _ _ | apply updImg_changes | decide | apply changesOnly.set_nv

theorem imgOpen_changes {F : List Part} {s0 : State} {s : State}
    (hF : Part.sub [.nv, .jnl, .mem, .img] F = true) (hs : changesOnly F s0 s) :
    changesOnly F s0 (imgOpen s) := by
  refine hs.trans (changesOnly.mono ?_ hF)
  clear hs hF
  unfold imgOpen
  with_reducible repeat' first
    | assumption | exact changesOnly.refl _ _ | apply nvErase_changes | apply jOpen_changes | apply pageDrop_changes
    | apply updImg_changes | apply setNewCopies_changes | decide

theorem pagesDone_changes {F : List Part} {s0 : State} {s : State}
    (hF : Part.sub [.jnl] F = true) (hs : changesOnly F s0 s) :
    changesOnly F s0 (pagesDone s) := by
  refine hs.trans (changesOnly.mono ?_ hF)
  clear hs hF
  unfold pagesDone
  with_reducible repeat' first
    | assumption | exact changesOnly.refl _ _ | apply jStep_changes | apply changesOnly.iteL | apply changesOnly.ite
    | decide | split | (intro)

theorem galWrote_changes {F : List Part} {s0 : State} {j : FlashJob} {s : State}
    (hF : Part.sub [.gal] F = true) (hs : changesOnly F s0 s) :
    changesOnly F s0 (galWrote j s) := by
  refine hs.trans (changesOnly.mono ?_ hF)
  clear hs hF
  unfold galWrote
  with_reducible repeat' first
    | assumption | exact changesOnly.refl _ _ | decide | apply changesOnly.set_gal

theorem addJob_changes {F : List Part} {s0 : State} {j : FlashJob} {s : State}
    (hF : Part.sub [.nv] F = true) (hs : changesOnly F s0 s) :
    changesOnly F s0 (addJob j s) := by
  refine hs.trans (changesOnly.mono ?_ hF)
  clear hs hF
  unfold addJob
  with_reducible repeat' first
    | assumption | exact changesOnly.refl _ _ | decide | apply changesOnly.set_nv

theorem jClose_changes {F : List Part} {s0 : State} {op : Nat} {st : Nat} {s : State}
    (hF : Part.sub [.jnl, .nv] F = true) (hs : changesOnly F s0 s) :
    changesOnly F s0 (jClose op st s) := by
  refine hs.trans (changesOnly.mono ?_ hF)
  clear hs hF
  unfold jClose
  repeat' first
    | with_reducible assumption | with_reducible exact changesOnly.refl _ _ | with_reducible apply jMod_changes
    | with_reducible apply jCopy_changes | decide | split | dsimp only

theorem flushSteps_changes {F : List Part} {s0 : State} {j : FlashJob} {s : State}
    (hF : Part.sub [.jnl, .nv] F = true) (hs : changesOnly F s0 s) :
    changesOnly F s0 (flushSteps j s) := by
  refine hs.trans (changesOnly.mono ?_ hF)
  clear hs hF
  unfold flushSteps
  with_reducible repeat' first
    | assumption | exact changesOnly.refl _ _ | apply jStep_changes | apply jClose_changes | apply changesOnly.iteL
    | apply changesOnly.ite | decide | split | (intro)

theorem jCommitProgress_changes {F : List Part} {s0 : State} {s : State}
    (hF : Part.sub [.jnl, .nv] F = true) (hs : changesOnly F s0 s) :
    changesOnly F s0 (jCommitProgress s) := by
  refine hs.trans (changesOnly.mono ?_ hF)
  clear hs hF
  unfold jCommitProgress
  with_reducible repeat' first
    | assumption | exact changesOnly.refl _ _ | apply jStep_changes | apply jClose_changes | apply changesOnly.foldl
    | apply changesOnly.iteL | apply changesOnly.ite | decide | split | (intro)

theorem ckptStored_changes {F : List Part} {s0 : State} {op : Nat} {m : Nat} {s : State}
    (hF : Part.sub [.gal] F = true) (hs : changesOnly F s0 s) :
    changesOnly F s0 (ckptStored op m s) := by
  refine hs.trans (changesOnly.mono ?_ hF)
  clear hs hF
  unfold ckptStored
  with_reducible repeat' first
    | assumption | exact changesOnly.refl _ _ | apply changesOnly.iteL | apply changesOnly.ite | decide | split
    | apply changesOnly.set_gal | (intro)

theorem ckptOver_changes {F : List Part} {s0 : State} {j : FlashJob} {m : Nat} {tick : Nat} {commit : Bool} {op : Nat} {s : State}
    (hF : Part.sub [.regs, .nv, .bb, .jnl, .gal] F = true) (hs : changesOnly F s0 s) :
    changesOnly F s0 (ckptOver j m tick commit op s) := by
  refine hs.trans (changesOnly.mono ?_ hF)
  clear hs hF
  unfold ckptOver
  with_reducible repeat' first
    | assumption | exact changesOnly.refl _ _ | apply setReg_changes | apply addJob_changes | apply raiseBit_changes
    | apply flushSteps_changes | apply jCommitProgress_changes | apply ckptStored_changes | apply changesOnly.iteL
    | apply changesOnly.ite | decide | split | (intro)

theorem closeWritten_changes {F : List Part} {s0 : State} {op : Nat} {s : State}
    (hF : Part.sub [.jnl, .nv] F = true) (hs : changesOnly F s0 s) :
    changesOnly F s0 (closeWritten op s) := by
  refine hs.trans (changesOnly.mono ?_ hF)
  clear hs hF
  unfold closeWritten
  with_reducible repeat' first
    | assumption | exact changesOnly.refl _ _ | apply jClose_changes | apply changesOnly.iteL | apply changesOnly.ite
    | decide | split | (intro)

theorem periodOver_changes {F : List Part} {s0 : State} {j : FlashJob} {m : Nat} {kind : Nat} {seq : Nat} {op : Nat} {s : State}
    (hF : Part.sub [.gal, .jnl, .nv, .regs, .bb] F = true) (hs : changesOnly F s0 s) :
    changesOnly F s0 (periodOver j m kind seq op s) := by
  refine hs.trans (changesOnly.mono ?_ hF)
  clear hs hF
  unfold periodOver
  with_reducible repeat' first
    | assumption | exact changesOnly.refl _ _ | apply jStep_changes | apply closeWritten_changes
    | apply raiseBit_changes | apply addJob_changes | apply changesOnly.iteL | apply changesOnly.ite | decide | split
    | apply changesOnly.set_gal | (intro)

theorem galDrop_changes {F : List Part} {s0 : State} {bit_ : Nat} {s : State}
    (hF : Part.sub [.regs, .bb] F = true) (hs : changesOnly F s0 s) :
    changesOnly F s0 (galDrop bit_ s) := by
  refine hs.trans (changesOnly.mono ?_ hF)
  clear hs hF
  unfold galDrop
  with_reducible repeat' first
    | assumption | exact changesOnly.refl _ _ | apply raiseBit_changes | apply modReg_changes | decide

theorem blockOver_changes {F : List Part} {s0 : State} {j : FlashJob} {s : State}
    (hF : Part.sub [.jnl, .nv, .regs, .bb] F = true) (hs : changesOnly F s0 s) :
    changesOnly F s0 (blockOver j s) := by
  refine hs.trans (changesOnly.mono ?_ hF)
  clear hs hF
  unfold blockOver
  with_reducible repeat' first
    | assumption | exact changesOnly.refl _ _ | apply flushSteps_changes | apply galDrop_changes
    | apply changesOnly.iteL | apply changesOnly.ite | decide | split | (intro)

theorem repairOver_changes {F : List Part} {s0 : State} {j : FlashJob} {op : Nat} {s : State}
    (hF : Part.sub [.jnl, .nv, .regs, .bb, .img] F = true) (hs : changesOnly F s0 s) :
    changesOnly F s0 (repairOver j op s) := by
  refine hs.trans (changesOnly.mono ?_ hF)
  clear hs hF
  unfold repairOver
  with_reducible repeat' first
    | assumption | exact changesOnly.refl _ _ | apply jClose_changes | apply jStep_changes | apply raiseBit_changes
    | apply changesOnly.iteL | apply changesOnly.ite | decide | split | apply changesOnly.set_img | (intro)

theorem jobDone_changes {F : List Part} {s0 : State} {j : FlashJob} {s : State}
    (hF : Part.sub [.gal, .regs, .nv, .bb, .jnl, .img] F = true) (hs : changesOnly F s0 s) :
    changesOnly F s0 (jobDone j s) := by
  refine hs.trans (changesOnly.mono ?_ hF)
  clear hs hF
  unfold jobDone
  with_reducible repeat' first
    | assumption | exact changesOnly.refl _ _ | apply galWrote_changes | apply ckptOver_changes
    | apply periodOver_changes | apply blockOver_changes | apply repairOver_changes | apply pagesDone_changes
    | decide | split

theorem jobsSettle_changes {F : List Part} {s0 : State} {n : Nat} {s : State}
    (hF : Part.sub [.gal, .regs, .nv, .bb, .jnl, .img] F = true) (hs : changesOnly F s0 s) :
    changesOnly F s0 (jobsSettle n s) := by
  induction n generalizing s with
  | zero => exact hs
  | succ n ih =>
    simp only [jobsSettle]
    split
    · exact hs
    · exact ih (jobDone_changes (Part.sub_trans rfl hF) (changesOnly.set_nv (Part.sub_trans rfl hF) hs))

theorem jobsLost_changes {F : List Part} {s0 : State} {s : State}
    (hF : Part.sub [.gal, .regs, .nv, .bb, .jnl, .img] F = true) (hs : changesOnly F s0 s) :
    changesOnly F s0 (jobsLost s) := by
  refine hs.trans (changesOnly.mono ?_ hF)
  clear hs hF
  unfold jobsLost
  with_reducible repeat' first
    | assumption | exact changesOnly.refl _ _ | apply jobsSettle_changes | apply changesOnly.iteL
    | apply changesOnly.ite | decide | split | (intro)

theorem pushJob_changes {F : List Part} {s0 : State} {k : JobKind} {addr : Nat} {bs : List Byte} {s : State}
    (hF : Part.sub [.nv] F = true) (hs : changesOnly F s0 s) :
    changesOnly F s0 (pushJob k addr bs s) := by
  refine hs.trans (changesOnly.mono ?_ hF)
  clear hs hF
  unfold pushJob
  with_reducible repeat' first
    | assumption | exact changesOnly.refl _ _ | apply addJob_changes | decide

theorem pageFlush_changes {F : List Part} {s0 : State} {s : State}
    (hF : Part.sub [.gal, .regs, .nv, .bb, .jnl, .img] F = true) (hs : changesOnly F s0 s) :
    changesOnly F s0 (pageFlush s) := by
  refine hs.trans (changesOnly.mono ?_ hF)
  clear hs hF
  unfold pageFlush
  with_reducible repeat' first
    | assumption | exact changesOnly.refl _ _ | apply jobsLost_changes | apply pushJob_changes | apply updImg_changes
    | apply changesOnly.iteL | apply changesOnly.ite | decide | split | (intro)

theorem imgClose_changes {F : List Part} {s0 : State} {s : State}
    (hF : Part.sub [.jnl, .img, .gal, .regs, .nv, .bb] F = true) (hs : changesOnly F s0 s) :
    changesOnly F s0 (imgClose s) := by
  refine hs.trans (changesOnly.mono ?_ hF)
  clear hs hF
  unfold imgClose
  with_reducible repeat' first
    | assumption | exact changesOnly.refl _ _ | apply pagesDone_changes | apply updImg_changes
    | apply pageFlush_changes | decide

theorem loadIdleHalf_changes {F : List Part} {s0 : State} {im : Img} {s : State}
    (hF : Part.sub [.jnl, .nv, .mem, .img] F = true) (hs : changesOnly F s0 s) :
    changesOnly F s0 (loadIdleHalf im s) := by
  refine hs.trans (changesOnly.mono ?_ hF)
  clear hs hF
  unfold loadIdleHalf
  repeat' first
    | exact Or.inr (by decide) | with_reducible exact Or.inl rfl | with_reducible assumption
    | with_reducible exact changesOnly.refl _ _ | with_reducible apply jStep_changes
    | with_reducible apply jOpen_changes | decide | with_reducible apply changesOnly.mk

theorem cfgClamp_changes {F : List Part} {s0 : State} {a : Nat} {s : State}
    (hF : Part.sub [.regs, .bb] F = true) (hs : changesOnly F s0 s) :
    changesOnly F s0 (cfgClamp a s) := by
  refine hs.trans (changesOnly.mono ?_ hF)
  clear hs hF
  unfold cfgClamp
  with_reducible repeat' first
    | assumption | exact changesOnly.refl _ _ | apply raiseBit_changes | apply modReg_changes | decide

theorem loadReg_changes {F : List Part} {s0 : State} {im : Img} {a : Nat} {s : State}
    (hF : Part.sub [.regs, .bb] F = true) (hs : changesOnly F s0 s) :
    changesOnly F s0 (loadReg im a s) := by
  refine hs.trans (changesOnly.mono ?_ hF)
  clear hs hF
  unfold loadReg
  with_reducible repeat' first
    | assumption | exact changesOnly.refl _ _ | apply setReg_changes | apply cfgClamp_changes
    | apply changesOnly.iteL | apply changesOnly.ite | decide | split | (intro)

theorem loadRegs_changes {F : List Part} {s0 : State} {im : Img} {l : List Nat} {s : State}
    (hF : Part.sub [.regs, .bb] F = true) (hs : changesOnly F s0 s) :
    changesOnly F s0 (loadRegs im l s) := by
  refine hs.trans (changesOnly.mono ?_ hF)
  clear hs hF
  unfold loadRegs
  with_reducible repeat' first
    | assumption | exact changesOnly.refl _ _ | apply loadReg_changes | apply changesOnly.foldl | decide | (intro)

theorem loadHallRegs_changes {F : List Part} {s0 : State} {im : Img} {h : Nat} {s : State}
    (hF : Part.sub [.regs, .bb] F = true) (hs : changesOnly F s0 s) :
    changesOnly F s0 (loadHallRegs im h s) := by
  refine hs.trans (changesOnly.mono ?_ hF)
  clear hs hF
  unfold loadHallRegs
  with_reducible repeat' first
    | assumption | exact changesOnly.refl _ _ | apply loadRegs_changes | decide

theorem resetBuffer_changes {F : List Part} {s0 : State} {n : Nat} {s : State}
    (hF : Part.sub [.convs, .newest, .older, .str, .regs, .bb] F = true) (hs : changesOnly F s0 s) :
    changesOnly F s0 (resetBuffer n s) := by
  refine hs.trans (changesOnly.mono ?_ hF)
  clear hs hF
  unfold resetBuffer
  repeat' first
    | exact Or.inr (by decide) | with_reducible exact Or.inl rfl | with_reducible assumption
    | with_reducible exact changesOnly.refl _ _ | with_reducible apply updConv_changes
    | with_reducible apply raiseBit_changes | decide | with_reducible apply changesOnly.set_str
    | with_reducible apply changesOnly.mk

theorem convStop_changes {F : List Part} {s0 : State} {n : Nat} {s : State}
    (hF : Part.sub [.convs] F = true) (hs : changesOnly F s0 s) :
    changesOnly F s0 (convStop n s) := by
  refine hs.trans (changesOnly.mono ?_ hF)
  clear hs hF
  unfold convStop
  with_reducible repeat' first
    | assumption | exact changesOnly.refl _ _ | apply updConv_changes | apply changesOnly.iteL
    | apply changesOnly.ite | decide | split | (intro)

theorem stopHall_changes {F : List Part} {s0 : State} {h : Nat} {s : State}
    (hF : Part.sub [.halls, .convs] F = true) (hs : changesOnly F s0 s) :
    changesOnly F s0 (stopHall h s) := by
  refine hs.trans (changesOnly.mono ?_ hF)
  clear hs hF
  unfold stopHall
  with_reducible repeat' first
    | assumption | exact changesOnly.refl _ _ | apply updHall_changes | apply convStop_changes
    | apply changesOnly.foldl | decide | (intro)

theorem rotAbandon_changes {F : List Part} {s0 : State} {h : Nat} {s : State}
    (hF : Part.sub [.halls] F = true) (hs : changesOnly F s0 s) :
    changesOnly F s0 (rotAbandon h s) := by
  refine hs.trans (changesOnly.mono ?_ hF)
  clear hs hF
  unfold rotAbandon
  with_reducible repeat' first
    | assumption | exact changesOnly.refl _ _ | apply updHall_changes | apply changesOnly.iteL
    | apply changesOnly.ite | decide | split | (intro)

theorem freezeDrive_changes {F : List Part} {s0 : State} {h : Nat} {c : Nat} {s : State}
    (hF : Part.sub [.chans] F = true) (hs : changesOnly F s0 s) :
    changesOnly F s0 (freezeDrive h c s) := by
  refine hs.trans (changesOnly.mono ?_ hF)
  clear hs hF
  unfold freezeDrive
  with_reducible repeat' first
    | assumption | exact changesOnly.refl _ _ | apply updChan_changes | apply changesOnly.iteL
    | apply changesOnly.ite | decide | split | (intro)

theorem pulsReset_changes {F : List Part} {s0 : State} {h : Nat} {c : Nat} {s : State}
    (hF : Part.sub [.chans] F = true) (hs : changesOnly F s0 s) :
    changesOnly F s0 (pulsReset h c s) := by
  refine hs.trans (changesOnly.mono ?_ hF)
  clear hs hF
  unfold pulsReset
  with_reducible repeat' first
    | assumption | exact changesOnly.refl _ _ | apply updChan_changes | decide

theorem chanOff_changes {F : List Part} {s0 : State} {h : Nat} {c : Nat} {s : State}
    (hF : Part.sub [.chans] F = true) (hs : changesOnly F s0 s) :
    changesOnly F s0 (chanOff h c s) := by
  refine hs.trans (changesOnly.mono ?_ hF)
  clear hs hF
  unfold chanOff
  with_reducible repeat' first
    | assumption | exact changesOnly.refl _ _ | apply updChan_changes | decide

theorem holdHall_changes {F : List Part} {s0 : State} {im : Img} {h : Nat} {s : State}
    (hF : Part.sub [.halls, .convs, .chans] F = true) (hs : changesOnly F s0 s) :
    changesOnly F s0 (holdHall im h s) := by
  refine hs.trans (changesOnly.mono ?_ hF)
  clear hs hF
  unfold holdHall
  with_reducible repeat' first
    | assumption | exact changesOnly.refl _ _ | apply updHall_changes | apply stopHall_changes
    | apply rotAbandon_changes | apply freezeDrive_changes | apply pulsReset_changes | apply chanOff_changes
    | apply forChans_into | apply changesOnly.iteL | apply changesOnly.ite | decide | split | (intro)

theorem reloadBegin_changes {F : List Part} {s0 : State} {h : Nat} {fromNew : Bool} {start : Bool} {s : State}
    (hF : Part.sub [.nv, .jnl, .mem, .img, .regs, .bb, .convs, .newest, .older, .str, .halls, .chans] F = true) (hs : changesOnly F s0 s) :
    changesOnly F s0 (reloadBegin h fromNew start s) := by
  refine hs.trans (changesOnly.mono ?_ hF)
  clear hs hF
  unfold reloadBegin
  with_reducible repeat' first
    | assumption | exact changesOnly.refl _ _ | apply jOpen_changes | apply loadHallRegs_changes
    | apply setReg_changes | apply resetBuffer_changes | apply holdHall_changes | apply changesOnly.iteL
    | apply changesOnly.ite | decide | split | apply changesOnly.set_img | (intro)

theorem activateNext_changes {F : List Part} {s0 : State} {s : State}
    (hF : Part.sub [.nv, .jnl, .mem, .img, .regs, .bb, .convs, .newest, .older, .str, .halls, .chans] F = true) (hs : changesOnly F s0 s) :
    changesOnly F s0 (activateNext s) := by
  refine hs.trans (changesOnly.mono ?_ hF)
  clear hs hF
  unfold activateNext
  with_reducible repeat' first
    | assumption | exact changesOnly.refl _ _ | apply reloadBegin_changes | apply changesOnly.iteL
    | apply changesOnly.ite | decide | split | apply changesOnly.set_img | (intro)

theorem imgActivate_changes {F : List Part} {s0 : State} {s : State}
    (hF : Part.sub [.jnl, .nv, .mem, .img, .regs, .bb, .convs, .newest, .older, .str, .halls, .chans] F = true) (hs : changesOnly F s0 s) :
    changesOnly F s0 (imgActivate s) := by
  refine hs.trans (changesOnly.mono ?_ hF)
  clear hs hF
  unfold imgActivate
  with_reducible repeat' first
    | assumption | exact changesOnly.refl _ _ | apply loadIdleHalf_changes | apply activateNext_changes
    | apply updImg_changes | apply changesOnly.iteL | apply changesOnly.ite | decide | split | (intro)

theorem imgRollBack_changes {F : List Part} {s0 : State} {n : Nat} {s : State}
    (hF : Part.sub [.jnl, .nv, .img] F = true) (hs : changesOnly F s0 s) :
    changesOnly F s0 (imgRollBack n s) := by
  refine hs.trans (changesOnly.mono ?_ hF)
  clear hs hF
  unfold imgRollBack
  with_reducible repeat' first
    | assumption | exact changesOnly.refl _ _ | apply jClose_changes | apply nvErase_changes | apply pageDrop_changes
    | apply updImg_changes | apply setNewCopies_changes | decide

theorem imgAbort_changes {F : List Part} {s0 : State} {s : State}
    (hF : Part.sub [.regs, .bb, .jnl, .nv, .img] F = true) (hs : changesOnly F s0 s) :
    changesOnly F s0 (imgAbort s) := by
  refine hs.trans (changesOnly.mono ?_ hF)
  clear hs hF
  unfold imgAbort
  with_reducible repeat' first
    | assumption | exact changesOnly.refl _ _ | apply raiseBit_changes | apply imgRollBack_changes | decide

theorem imgRoll_changes {F : List Part} {s0 : State} {s : State}
    (hF : Part.sub [.tx, .pair, .img] F = true) (hs : changesOnly F s0 s) :
    changesOnly F s0 (imgRoll s) := by
  refine hs.trans (changesOnly.mono ?_ hF)
  clear hs hF
  unfold imgRoll
  with_reducible repeat' first
    | assumption | exact changesOnly.refl _ _ | apply hoSend_changes | apply updPair_changes | apply updImg_changes
    | decide

theorem imgAction_changes {F : List Part} {s0 : State} {act : Nat} {h : Nat} {s : State}
    (hF : Part.sub [.nv, .jnl, .mem, .img, .gal, .regs, .bb, .convs, .newest, .older, .str, .halls, .chans, .tx, .pair] F = true) (hs : changesOnly F s0 s) :
    changesOnly F s0 (imgAction act h s) := by
  refine hs.trans (changesOnly.mono ?_ hF)
  clear hs hF
  unfold imgAction
  with_reducible repeat' first
    | assumption | exact changesOnly.refl _ _ | apply imgOpen_changes | apply imgClose_changes
    | apply imgActivate_changes | apply abortRefused_changes | apply imgAbort_changes | apply reloadBegin_changes
    | apply imgRoll_changes | apply changesOnly.iteL | apply changesOnly.ite | decide | split | (intro)

theorem imgData_changes {F : List Part} {s0 : State} {v : Word} {s : State}
    (hF : Part.sub [.img, .gal, .regs, .nv, .bb, .jnl] F = true) (hs : changesOnly F s0 s) :
    changesOnly F s0 (imgData v s) := by
  refine hs.trans (changesOnly.mono ?_ hF)
  clear hs hF
  unfold imgData
  with_reducible repeat' first
    | assumption | exact changesOnly.refl _ _ | apply updImg_changes | apply pageFlush_changes
    | apply changesOnly.iteL | apply changesOnly.ite | decide | split | (intro)

theorem action_changes {F : List Part} {s0 : State} {a : Nat} {v : Word} {pres : Nat} {s : State}
    (hF : Part.sub [.regs, .bb, .halls, .chans, .per, .convs, .stg, .tx, .pair, .str, .sync, .ml, .wd, .img, .free, .time, .modes, .clk, .mem, .jnl, .nv, .gal, .newest, .older] F = true) (hs : changesOnly F s0 s) :
    changesOnly F s0 (action a v pres s) := by
  refine hs.trans (changesOnly.mono ?_ hF)
  clear hs hF
  unfold action
  with_reducible repeat' first
    | assumption | exact changesOnly.refl _ _ | apply hallAck_changes | apply forceExc_changes
    | apply injGoOp_changes | apply rotNowOp_changes | apply unretireOp_changes | apply stgCtrl_changes
    | apply setStrPos_changes | apply syncNowOp_changes | apply freeze_changes | apply bbResume_changes
    | apply checkIn_changes | apply mlCtrl_changes | apply mlCmd_changes | apply mbStart_changes
    | apply handoverOp_changes | apply imgAction_changes | apply imgData_changes | apply changesOnly.iteL
    | apply changesOnly.ite | decide | split | (intro)

theorem riskOf_changes {F : List Part} {s0 : State} {h : Nat} {c : Nat} {s : State}
    (hF : Part.sub [.chans] F = true) (hs : changesOnly F s0 s) :
    changesOnly F s0 (riskOf h c s) := by
  refine hs.trans (changesOnly.mono ?_ hF)
  clear hs hF
  unfold riskOf
  with_reducible repeat' first
    | assumption | exact changesOnly.refl _ _ | apply chFlag_changes | decide

theorem restartChannel_changes {F : List Part} {s0 : State} {h : Nat} {c : Nat} {before : Nat} {t16 : Nat} {s : State}
    (hF : Part.sub [.convs, .halls] F = true) (hs : changesOnly F s0 s) :
    changesOnly F s0 (restartChannel h c before t16 s) := by
  refine hs.trans (changesOnly.mono ?_ hF)
  clear hs hF
  unfold restartChannel
  with_reducible repeat' first
    | assumption | exact changesOnly.refl _ _ | apply restartAt_changes | apply discardOpen_changes
    | apply dropShadow_changes | apply changesOnly.iteL | apply changesOnly.ite | decide | split | (intro)

theorem inputForm_changes {F : List Part} {s0 : State} {h : Nat} {c : Nat} {m : Nat} {a : Nat} {e : Nat} {s : State}
    (hF : Part.sub [.chans, .convs, .halls] F = true) (hs : changesOnly F s0 s) :
    changesOnly F s0 (inputForm h c m a e s) := by
  refine hs.trans (changesOnly.mono ?_ hF)
  clear hs hF
  unfold inputForm
  with_reducible repeat' first
    | assumption | exact changesOnly.refl _ _ | apply riskOf_changes | apply updChan_changes
    | apply restartChannel_changes | decide

theorem activeForm_changes {F : List Part} {s0 : State} {h : Nat} {c : Nat} {s : State}
    (hF : Part.sub [.chans, .convs, .halls] F = true) (hs : changesOnly F s0 s) :
    changesOnly F s0 (activeForm h c s) := by
  refine hs.trans (changesOnly.mono ?_ hF)
  clear hs hF
  unfold activeForm
  with_reducible repeat' first
    | assumption | exact changesOnly.refl _ _ | apply inputForm_changes | apply resolve_changes
    | apply updChan_changes | apply changesOnly.iteL | apply changesOnly.ite | decide | split | (intro)

theorem updBal_changes {F : List Part} {s0 : State} {b : Nat} {f : BalSt → BalSt} {s : State}
    (hF : Part.sub [.bal] F = true) (hs : changesOnly F s0 s) :
    changesOnly F s0 (updBal b f s) := by
  refine hs.trans (changesOnly.mono ?_ hF)
  clear hs hF
  unfold updBal
  with_reducible repeat' first
    | assumption | exact changesOnly.refl _ _ | decide | apply changesOnly.set_bal

theorem balGap_changes {F : List Part} {s0 : State} {s : State}
    (hF : Part.sub [.bal] F = true) (hs : changesOnly F s0 s) :
    changesOnly F s0 (balGap s) := by
  refine hs.trans (changesOnly.mono ?_ hF)
  clear hs hF
  unfold balGap
  with_reducible repeat' first
    | assumption | exact changesOnly.refl _ _ | apply updBal_changes | apply forN_into | apply changesOnly.iteL
    | apply changesOnly.ite | decide | split | (intro)

end Sys2Proof.Machine
end

