-- ==== Sys2Proof/Laws/Changes3.lean ====
section
/-! SUPPORT. What each shared operation changes at most: the parts of the state (part 4 of 12). -/

set_option linter.unusedTactic false
set_option linter.unreachableTactic false

namespace Sys2Proof.Machine

theorem updRun_changes {F : List Part} {s0 : State} {m : Nat} {f : RunSt → RunSt} {s : State}
    (hF : Part.sub [.runs] F = true) (hs : changesOnly F s0 s) :
    changesOnly F s0 (updRun m f s) := by
  refine hs.trans (changesOnly.mono ?_ hF)
  clear hs hF
  unfold updRun
  with_reducible repeat' first
    | assumption | exact changesOnly.refl _ _ | decide | apply changesOnly.set_runs

theorem addGap_changes {F : List Part} {s0 : State} {kind : Nat} {a : Nat} {b : Nat} {m : Nat} {s : State}
    (hF : Part.sub [.runs] F = true) (hs : changesOnly F s0 s) :
    changesOnly F s0 (addGap kind a b m s) := by
  refine hs.trans (changesOnly.mono ?_ hF)
  clear hs hF
  unfold addGap
  with_reducible repeat' first
    | assumption | exact changesOnly.refl _ _ | apply updRun_changes | apply changesOnly.iteL | apply changesOnly.ite
    | decide | split | (intro)

theorem updKind_changes {F : List Part} {s0 : State} {k : Nat} {f : PerKind → PerKind} {s : State}
    (hF : Part.sub [.per] F = true) (hs : changesOnly F s0 s) :
    changesOnly F s0 (updKind k f s) := by
  refine hs.trans (changesOnly.mono ?_ hF)
  clear hs hF
  unfold updKind
  with_reducible repeat' first
    | assumption | exact changesOnly.refl _ _ | apply changesOnly.iteL | apply changesOnly.ite | decide | split
    | apply changesOnly.set_per | (intro)

theorem openKind_changes {F : List Part} {s0 : State} {k : Nat} {first : Nat} {stop : Int} {s : State}
    (hF : Part.sub [.per] F = true) (hs : changesOnly F s0 s) :
    changesOnly F s0 (openKind k first stop s) := by
  refine hs.trans (changesOnly.mono ?_ hF)
  clear hs hF
  unfold openKind
  with_reducible repeat' first
    | assumption | exact changesOnly.refl _ _ | apply updKind_changes | decide

theorem perRestart_changes {F : List Part} {s0 : State} {m : Nat} {kind : Nat} {base : List Nat} {closed : Bool} {s : State}
    (hF : Part.sub [.runs] F = true) (hs : changesOnly F s0 s) :
    changesOnly F s0 (perRestart m kind base closed s) := by
  refine hs.trans (changesOnly.mono ?_ hF)
  clear hs hF
  unfold perRestart
  with_reducible repeat' first
    | assumption | exact changesOnly.refl _ _ | apply updRun_changes | apply changesOnly.iteL | apply changesOnly.ite
    | decide | split | (intro)

theorem capPut_changes {F : List Part} {s0 : State} {c : CapRec} {s : State}
    (hF : Part.sub [.mem, .gal] F = true) (hs : changesOnly F s0 s) :
    changesOnly F s0 (capPut c s) := by
  refine hs.trans (changesOnly.mono ?_ hF)
  clear hs hF
  unfold capPut
  with_reducible repeat' first
    | assumption | exact changesOnly.refl _ _ | apply retWritten_changes | decide | apply changesOnly.set_gal

theorem capDrop_changes {F : List Part} {s0 : State} {c : CapRec} {s : State}
    (hF : Part.sub [.nv, .jnl, .gal] F = true) (hs : changesOnly F s0 s) :
    changesOnly F s0 (capDrop c s) := by
  refine hs.trans (changesOnly.mono ?_ hF)
  clear hs hF
  unfold capDrop
  with_reducible repeat' first
    | assumption | exact changesOnly.refl _ _ | apply closeWritten_changes | decide | split
    | apply changesOnly.set_nv | apply changesOnly.set_gal

theorem capture_changes {F : List Part} {s0 : State} {c : CapRec} {s : State}
    (hF : Part.sub [.mem, .gal, .nv, .jnl, .regs, .bb] F = true) (hs : changesOnly F s0 s) :
    changesOnly F s0 (capture c s) := by
  refine hs.trans (changesOnly.mono ?_ hF)
  clear hs hF
  unfold capture
  with_reducible repeat' first
    | assumption | exact changesOnly.refl _ _ | apply capPut_changes | apply capDrop_changes | apply galDrop_changes
    | apply changesOnly.iteL | apply changesOnly.ite | decide | split | (intro)

theorem updRing_changes {F : List Part} {s0 : State} {r : Nat} {f : RingSt → RingSt} {s : State}
    (hF : Part.sub [.gal] F = true) (hs : changesOnly F s0 s) :
    changesOnly F s0 (updRing r f s) := by
  refine hs.trans (changesOnly.mono ?_ hF)
  clear hs hF
  unfold updRing
  with_reducible repeat' first
    | assumption | exact changesOnly.refl _ _ | decide | apply changesOnly.set_gal

theorem ringPut_changes {F : List Part} {s0 : State} {r : Nat} {id : Nat} {len : Nat} {s : State}
    (hF : Part.sub [.nv, .gal] F = true) (hs : changesOnly F s0 s) :
    changesOnly F s0 (ringPut r id len s) := by
  refine hs.trans (changesOnly.mono ?_ hF)
  clear hs hF
  unfold ringPut
  with_reducible repeat' first
    | assumption | exact changesOnly.refl _ _ | apply nvErase_changes | apply updRing_changes
    | apply dirWrite_changes | apply changesOnly.foldl | apply changesOnly.iteL | apply changesOnly.ite | decide
    | split | (intro)

theorem periodWrite_changes {F : List Part} {s0 : State} {m : Nat} {kind : Nat} {seq : Nat} {op : Nat} {bs : List Byte} {s : State}
    (hF : Part.sub [.nv, .gal] F = true) (hs : changesOnly F s0 s) :
    changesOnly F s0 (periodWrite m kind seq op bs s) := by
  refine hs.trans (changesOnly.mono ?_ hF)
  clear hs hF
  unfold periodWrite
  with_reducible repeat' first
    | assumption | exact changesOnly.refl _ _ | apply pushJob_changes | apply ringPut_changes
    | apply changesOnly.iteL | apply changesOnly.ite | decide | split | (intro)

theorem closeRun_changes {F : List Part} {s0 : State} {m : Nat} {kind : Nat} {last : Nat} {op : Nat} {s : State}
    (hF : Part.sub [.runs, .mem, .gal, .nv, .jnl, .regs, .bb] F = true) (hs : changesOnly F s0 s) :
    changesOnly F s0 (closeRun m kind last op s) := by
  refine hs.trans (changesOnly.mono ?_ hF)
  clear hs hF
  unfold closeRun
  with_reducible repeat' first
    | assumption | exact changesOnly.refl _ _ | apply perRestart_changes | apply capture_changes
    | apply periodWrite_changes | apply updRun_changes | apply setReg_changes | apply changesOnly.iteL
    | apply changesOnly.ite | decide | split | (intro)

theorem closeKind_changes {F : List Part} {s0 : State} {kind : Nat} {last : Nat} {op : Nat} {s : State}
    (hF : Part.sub [.regs, .bb, .runs, .mem, .gal, .nv, .jnl] F = true) (hs : changesOnly F s0 s) :
    changesOnly F s0 (closeKind kind last op s) := by
  refine hs.trans (changesOnly.mono ?_ hF)
  clear hs hF
  unfold closeKind
  with_reducible repeat' first
    | assumption | exact changesOnly.refl _ _ | apply raiseBit_changes | apply closeRun_changes | apply forN_into
    | decide | (intro)

theorem closeKinds_changes {F : List Part} {s0 : State} {ks : List (Nat × Nat × Nat × Int)} {boundary : Nat} {s : State}
    (hF : Part.sub [.jnl, .nv, .mem, .per, .regs, .bb, .runs, .gal] F = true) (hs : changesOnly F s0 s) :
    changesOnly F s0 (closeKinds ks boundary s) := by
  refine hs.trans (changesOnly.mono ?_ hF)
  clear hs hF
  unfold closeKinds
  with_reducible repeat' first
    | assumption | exact changesOnly.refl _ _ | apply jStep_changes | apply jOpen_changes
    | apply closeWritten_changes | apply openKind_changes | apply closeKind_changes | apply noteVstate_changes
    | apply forHalls_into | apply changesOnly.foldl | apply changesOnly.iteL | apply changesOnly.ite | decide | split
    | (intro)

theorem gapUpTo_changes {F : List Part} {s0 : State} {f : Nat} {s : State}
    (hF : Part.sub [.runs, .jnl, .nv, .mem, .per, .regs, .bb, .gal] F = true) (hs : changesOnly F s0 s) :
    changesOnly F s0 (gapUpTo f s) := by
  refine hs.trans (changesOnly.mono ?_ hF)
  clear hs hF
  unfold gapUpTo
  with_reducible repeat' first
    | assumption | exact changesOnly.refl _ _ | apply addGap_changes | apply closeKinds_changes
    | apply openKind_changes | apply perRestart_changes | apply forN_into | apply changesOnly.foldl
    | apply changesOnly.iteL | apply changesOnly.ite | decide | split | (intro)

theorem activeJoin_changes {F : List Part} {s0 : State} {n : Nat} {s : State}
    (hF : Part.sub [.pair, .bal, .runs, .jnl, .nv, .mem, .per, .regs, .bb, .gal] F = true) (hs : changesOnly F s0 s) :
    changesOnly F s0 (activeJoin n s) := by
  refine hs.trans (changesOnly.mono ?_ hF)
  clear hs hF
  unfold activeJoin
  with_reducible repeat' first
    | assumption | exact changesOnly.refl _ _ | apply updPair_changes | apply balGap_changes | apply gapUpTo_changes
    | apply changesOnly.iteL | apply changesOnly.ite | decide | split | (intro)

theorem balIncomplete_changes {F : List Part} {s0 : State} {b : Nat} {s : State}
    (hF : Part.sub [.bal, .regs, .bb] F = true) (hs : changesOnly F s0 s) :
    changesOnly F s0 (balIncomplete b s) := by
  refine hs.trans (changesOnly.mono ?_ hF)
  clear hs hF
  unfold balIncomplete
  with_reducible repeat' first
    | assumption | exact changesOnly.refl _ _ | apply updBal_changes | apply raiseBit_changes | apply modReg_changes
    | decide

theorem balMismatch_changes {F : List Part} {s0 : State} {b : Nat} {differ : Bool} {s : State}
    (hF : Part.sub [.regs, .bb] F = true) (hs : changesOnly F s0 s) :
    changesOnly F s0 (balMismatch b differ s) := by
  refine hs.trans (changesOnly.mono ?_ hF)
  clear hs hF
  unfold balMismatch
  with_reducible repeat' first
    | assumption | exact changesOnly.refl _ _ | apply modReg_changes | apply raiseBit_changes
    | apply changesOnly.iteL | apply changesOnly.ite | decide | split | (intro)

theorem balEvaluate_changes {F : List Part} {s0 : State} {b : Nat} {w : BalWin} {qs : Nat} {ps : Word} {ts : Word} {s : State}
    (hF : Part.sub [.bal, .regs, .bb] F = true) (hs : changesOnly F s0 s) :
    changesOnly F s0 (balEvaluate b w qs ps ts s) := by
  refine hs.trans (changesOnly.mono ?_ hF)
  clear hs hF
  unfold balEvaluate
  with_reducible repeat' first
    | assumption | exact changesOnly.refl _ _ | apply updBal_changes | apply setReg_changes | apply raiseBit_changes
    | apply changesOnly.iteL | apply changesOnly.ite | decide | split | (intro)

theorem balTry_changes {F : List Part} {s0 : State} {b : Nat} {s : State}
    (hF : Part.sub [.regs, .bb, .bal] F = true) (hs : changesOnly F s0 s) :
    changesOnly F s0 (balTry b s) := by
  refine hs.trans (changesOnly.mono ?_ hF)
  clear hs hF
  unfold balTry
  with_reducible repeat' first
    | assumption | exact changesOnly.refl _ _ | apply balMismatch_changes | apply balIncomplete_changes
    | apply balEvaluate_changes | apply changesOnly.iteL | apply changesOnly.ite | decide | split | (intro)

theorem balClose_changes {F : List Part} {s0 : State} {b : Nat} {n : Nat} {s : State}
    (hF : Part.sub [.bal, .regs, .bb] F = true) (hs : changesOnly F s0 s) :
    changesOnly F s0 (balClose b n s) := by
  refine hs.trans (changesOnly.mono ?_ hF)
  clear hs hF
  unfold balClose
  with_reducible repeat' first
    | assumption | exact changesOnly.refl _ _ | apply updBal_changes | apply balIncomplete_changes
    | apply balTry_changes | apply changesOnly.iteL | apply changesOnly.ite | decide | split | (intro)

theorem balReach_changes {F : List Part} {s0 : State} {b : Nat} {n : Nat} {s : State}
    (hF : Part.sub [.bal, .regs, .bb] F = true) (hs : changesOnly F s0 s) :
    changesOnly F s0 (balReach b n s) := by
  refine hs.trans (changesOnly.mono ?_ hF)
  clear hs hF
  unfold balReach
  with_reducible repeat' first
    | assumption | exact changesOnly.refl _ _ | apply updBal_changes | apply balClose_changes
    | apply changesOnly.iteL | apply changesOnly.ite | decide | split | (intro)

theorem updTier_changes {F : List Part} {s0 : State} {tier : Nat} {f : GalTier → GalTier} {s : State}
    (hF : Part.sub [.gal] F = true) (hs : changesOnly F s0 s) :
    changesOnly F s0 (updTier tier f s) := by
  refine hs.trans (changesOnly.mono ?_ hF)
  clear hs hF
  unfold updTier
  with_reducible repeat' first
    | assumption | exact changesOnly.refl _ _ | apply changesOnly.iteL | apply changesOnly.ite | decide | split
    | apply changesOnly.set_gal | (intro)

theorem galWrite_changes {F : List Part} {s0 : State} {tier : Nat} {seq : Nat} {s : State}
    (hF : Part.sub [.nv, .jnl, .mem, .gal] F = true) (hs : changesOnly F s0 s) :
    changesOnly F s0 (galWrite tier seq s) := by
  refine hs.trans (changesOnly.mono ?_ hF)
  clear hs hF
  unfold galWrite
  with_reducible repeat' first
    | assumption | exact changesOnly.refl _ _ | apply jOpen_changes | apply pushJob_changes | apply ringPut_changes
    | decide

theorem galFlush_changes {F : List Part} {s0 : State} {tier : Nat} {s : State}
    (hF : Part.sub [.nv, .jnl, .mem, .gal, .regs, .bb] F = true) (hs : changesOnly F s0 s) :
    changesOnly F s0 (galFlush tier s) := by
  refine hs.trans (changesOnly.mono ?_ hF)
  clear hs hF
  unfold galFlush
  with_reducible repeat' first
    | assumption | exact changesOnly.refl _ _ | apply galWrite_changes | apply galDrop_changes
    | apply eccFound_changes | apply eccRewritten_changes | apply updRing_changes | apply updTier_changes
    | apply changesOnly.iteL | apply changesOnly.ite | decide | split | (intro)

theorem galReplan_changes {F : List Part} {s0 : State} {tier : Nat} {s : State}
    (hF : Part.sub [.gal, .nv, .jnl, .mem, .regs, .bb] F = true) (hs : changesOnly F s0 s) :
    changesOnly F s0 (galReplan tier s) := by
  refine hs.trans (changesOnly.mono ?_ hF)
  clear hs hF
  unfold galReplan
  with_reducible repeat' first
    | assumption | exact changesOnly.refl _ _ | apply updTier_changes | apply galFlush_changes
    | apply changesOnly.iteL | apply changesOnly.ite | decide | split | (intro)

theorem galIntervalEnd_changes {F : List Part} {s0 : State} {tier : Nat} {s : State}
    (hF : Part.sub [.gal] F = true) (hs : changesOnly F s0 s) :
    changesOnly F s0 (galIntervalEnd tier s) := by
  refine hs.trans (changesOnly.mono ?_ hF)
  clear hs hF
  unfold galIntervalEnd
  with_reducible repeat' first
    | assumption | exact changesOnly.refl _ _ | apply updTier_changes | apply changesOnly.foldl
    | apply changesOnly.iteL | apply changesOnly.ite | decide | split | (intro)

theorem galInterval_changes {F : List Part} {s0 : State} {tier : Nat} {s : State}
    (hF : Part.sub [.gal, .nv, .jnl, .mem, .regs, .bb] F = true) (hs : changesOnly F s0 s) :
    changesOnly F s0 (galInterval tier s) := by
  refine hs.trans (changesOnly.mono ?_ hF)
  clear hs hF
  unfold galInterval
  with_reducible repeat' first
    | assumption | exact changesOnly.refl _ _ | apply galReplan_changes | apply galIntervalEnd_changes | decide

theorem galSkip_changes {F : List Part} {s0 : State} {tier : Nat} {a : Nat} {s : State}
    (hF : Part.sub [.gal] F = true) (hs : changesOnly F s0 s) :
    changesOnly F s0 (galSkip tier a s) := by
  refine hs.trans (changesOnly.mono ?_ hF)
  clear hs hF
  unfold galSkip
  with_reducible repeat' first
    | assumption | exact changesOnly.refl _ _ | apply updTier_changes | apply changesOnly.iteL
    | apply changesOnly.ite | decide | split | (intro)

theorem galReach_changes {F : List Part} {s0 : State} {tier : Nat} {n : Nat} {s : State}
    (hF : Part.sub [.gal, .nv, .jnl, .mem, .regs, .bb] F = true) (hs : changesOnly F s0 s) :
    changesOnly F s0 (galReach tier n s) := by
  refine hs.trans (changesOnly.mono ?_ hF)
  clear hs hF
  unfold galReach
  with_reducible repeat' first
    | assumption | exact changesOnly.refl _ _ | apply updTier_changes | apply galInterval_changes
    | apply galSkip_changes | apply galFlush_changes | apply changesOnly.iteL | apply changesOnly.ite | decide
    | split | (intro)

theorem galStep_changes {F : List Part} {s0 : State} {s : State}
    (hF : Part.sub [.gal] F = true) (hs : changesOnly F s0 s) :
    changesOnly F s0 (galStep s) := by
  refine hs.trans (changesOnly.mono ?_ hF)
  clear hs hF
  unfold galStep
  with_reducible repeat' first
    | assumption | exact changesOnly.refl _ _ | apply updTier_changes | decide

theorem reachTick_changes {F : List Part} {s0 : State} {n : Nat} {s : State}
    (hF : Part.sub [.bal, .regs, .bb, .gal, .nv, .jnl, .mem] F = true) (hs : changesOnly F s0 s) :
    changesOnly F s0 (reachTick n s) := by
  refine hs.trans (changesOnly.mono ?_ hF)
  clear hs hF
  unfold reachTick
  with_reducible repeat' first
    | assumption | exact changesOnly.refl _ _ | apply balReach_changes | apply galReach_changes
    | apply galStep_changes | apply forN_into | apply changesOnly.iteL | apply changesOnly.ite | decide | split
    | (intro)

theorem beginSlots_changes {F : List Part} {s0 : State} {x : TickSet} {mirrored : Bool} {s : State}
    (hF : Part.sub [.bal, .regs, .bb, .gal, .nv, .jnl, .mem, .eng, .pair] F = true) (hs : changesOnly F s0 s) :
    changesOnly F s0 (beginSlots x mirrored s) := by
  refine hs.trans (changesOnly.mono ?_ hF)
  clear hs hF
  unfold beginSlots
  with_reducible repeat' first
    | assumption | exact changesOnly.refl _ _ | apply reachTick_changes | apply updPair_changes | decide
    | apply changesOnly.set_eng

theorem eccSeen_changes {F : List Part} {s0 : State} {sel : Nat × Nat → Bool} {s : State}
    (hF : Part.sub [.regs, .bb] F = true) (hs : changesOnly F s0 s) :
    changesOnly F s0 (eccSeen sel s) := by
  refine hs.trans (changesOnly.mono ?_ hF)
  clear hs hF
  unfold eccSeen
  with_reducible repeat' first
    | assumption | exact changesOnly.refl _ _ | apply eccFound_changes | apply changesOnly.foldl | decide | (intro)

theorem recsRead_changes {F : List Part} {s0 : State} {s : State}
    (hF : Part.sub [.regs, .bb] F = true) (hs : changesOnly F s0 s) :
    changesOnly F s0 (recsRead s) := by
  refine hs.trans (changesOnly.mono ?_ hF)
  clear hs hF
  unfold recsRead
  with_reducible repeat' first
    | assumption | exact changesOnly.refl _ _ | apply eccSeen_changes | decide

theorem resetCarried_changes {F : List Part} {s0 : State} {m : Nat} {s : State}
    (hF : Part.sub [.runs] F = true) (hs : changesOnly F s0 s) :
    changesOnly F s0 (resetCarried m s) := by
  refine hs.trans (changesOnly.mono ?_ hF)
  clear hs hF
  unfold resetCarried
  with_reducible repeat' first
    | assumption | exact changesOnly.refl _ _ | apply updRun_changes | decide

theorem dropBacklog_changes {F : List Part} {s0 : State} {m : Nat} {s : State}
    (hF : Part.sub [.regs, .runs] F = true) (hs : changesOnly F s0 s) :
    changesOnly F s0 (dropBacklog m s) := by
  refine hs.trans (changesOnly.mono ?_ hF)
  clear hs hF
  unfold dropBacklog
  with_reducible repeat' first
    | assumption | exact changesOnly.refl _ _ | apply modReg_changes | apply setReg_changes | apply updRun_changes
    | decide

theorem totalsRead_changes {F : List Part} {s0 : State} {m : Nat} {s : State}
    (hF : Part.sub [.regs, .bb] F = true) (hs : changesOnly F s0 s) :
    changesOnly F s0 (totalsRead m s) := by
  refine hs.trans (changesOnly.mono ?_ hF)
  clear hs hF
  unfold totalsRead
  with_reducible repeat' first
    | assumption | exact changesOnly.refl _ _ | apply eccSeen_changes | decide

theorem audDrop_changes {F : List Part} {s0 : State} {s : State}
    (hF : Part.sub [.regs] F = true) (hs : changesOnly F s0 s) :
    changesOnly F s0 (audDrop s) := by
  refine hs.trans (changesOnly.mono ?_ hF)
  clear hs hF
  unfold audDrop
  with_reducible repeat' first
    | assumption | exact changesOnly.refl _ _ | apply modReg_changes | decide

theorem audit_changes {F : List Part} {s0 : State} {o : Origin} {kind : Nat} {addr : Nat} {width : Nat} {detail : Nat} {old : Nat} {new : Nat} {op : Nat} {s : State}
    (hF : Part.sub [.mem, .aud, .regs, .bb] F = true) (hs : changesOnly F s0 s) :
    changesOnly F s0 (audit o kind addr width detail old new op s) := by
  refine hs.trans (changesOnly.mono ?_ hF)
  clear hs hF
  unfold audit
  with_reducible repeat' first
    | assumption | exact changesOnly.refl _ _ | apply retWritten_changes | apply raiseBit_changes
    | apply audDrop_changes | apply changesOnly.iteL | apply changesOnly.ite | decide | split
    | apply changesOnly.set_aud | (intro)

theorem voteAudit_changes {F : List Part} {s0 : State} {m : Nat} {c : List (Nat × TotCopy)} {w : List Acc} {s : State}
    (hF : Part.sub [.mem, .aud, .regs, .bb] F = true) (hs : changesOnly F s0 s) :
    changesOnly F s0 (voteAudit m c w s) := by
  refine hs.trans (changesOnly.mono ?_ hF)
  clear hs hF
  unfold voteAudit
  with_reducible repeat' first
    | assumption | exact changesOnly.refl _ _ | apply audit_changes | apply changesOnly.foldl
    | apply changesOnly.iteL | apply changesOnly.ite | decide | split | (intro)

theorem liveWrite_changes {F : List Part} {s0 : State} {m : Nat} {c : TotCopy} {s : State}
    (hF : Part.sub [.mem, .runs] F = true) (hs : changesOnly F s0 s) :
    changesOnly F s0 (liveWrite m c s) := by
  refine hs.trans (changesOnly.mono ?_ hF)
  clear hs hF
  unfold liveWrite
  with_reducible repeat' first
    | assumption | exact changesOnly.refl _ _ | apply retWritten_changes | apply updRun_changes | decide

theorem resume_changes {F : List Part} {s0 : State} {m : Nat} {accs : List Acc} {tick : Option Nat} {outcome : Nat} {marks : Nat} {s : State}
    (hF : Part.sub [.runs, .mem, .regs, .bb] F = true) (hs : changesOnly F s0 s) :
    changesOnly F s0 (resume m accs tick outcome marks s) := by
  refine hs.trans (changesOnly.mono ?_ hF)
  clear hs hF
  unfold resume
  with_reducible repeat' first
    | assumption | exact changesOnly.refl _ _ | apply updRun_changes | apply liveWrite_changes
    | apply retWritten_changes | apply setReg_changes | apply raiseEvt_changes | decide | split

theorem reconcileRun_changes {F : List Part} {s0 : State} {m : Nat} {partner : Option TotCopy} {s : State}
    (hF : Part.sub [.regs, .bb, .mem, .aud, .runs] F = true) (hs : changesOnly F s0 s) :
    changesOnly F s0 (reconcileRun m partner s) := by
  refine hs.trans (changesOnly.mono ?_ hF)
  clear hs hF
  unfold reconcileRun
  extract_lets x0
  have hx0 : changesOnly [.regs, .bb, .mem, .aud, .runs] s x0 := by
    unfold x0
    with_reducible repeat' first
      | assumption | exact changesOnly.refl _ _ | apply totalsRead_changes | apply voteAudit_changes
      | apply resume_changes | apply changesOnly.iteL | apply changesOnly.ite | decide | split | (intro)
  clear_value x0
  with_reducible repeat' first
    | assumption | exact changesOnly.refl _ _ | apply totalsRead_changes | apply voteAudit_changes
    | apply resume_changes | apply changesOnly.iteL | apply changesOnly.ite | decide | split | (intro)

theorem applyRun_changes {F : List Part} {s0 : State} {m : Nat} {was : Bool} {pout : Option Nat} {l : List Nat} {s : State}
    (hF : Part.sub [.runs, .regs, .bb, .mem, .aud] F = true) (hs : changesOnly F s0 s) :
    changesOnly F s0 (applyRun m was pout l s) := by
  refine hs.trans (changesOnly.mono ?_ hF)
  clear hs hF
  unfold applyRun
  with_reducible repeat' first
    | assumption | exact changesOnly.refl _ _ | apply resetCarried_changes | apply dropBacklog_changes
    | apply reconcileRun_changes | apply changesOnly.iteL | apply changesOnly.ite | decide | split | (intro)

theorem applyRuns_changes {F : List Part} {s0 : State} {runs : List (Bool × Option Nat)} {l : List Nat} {s : State}
    (hF : Part.sub [.runs, .regs, .bb, .mem, .aud] F = true) (hs : changesOnly F s0 s) :
    changesOnly F s0 (applyRuns runs l s) := by
  refine hs.trans (changesOnly.mono ?_ hF)
  clear hs hF
  unfold applyRuns
  with_reducible repeat' first
    | assumption | exact changesOnly.refl _ _ | apply applyRun_changes | apply forN_into | decide | (intro)

theorem lateRuns_changes {F : List Part} {s0 : State} {s : State}
    (hF : Part.sub [.runs, .regs, .bb, .mem, .aud, .eng] F = true) (hs : changesOnly F s0 s) :
    changesOnly F s0 (lateRuns s) := by
  refine hs.trans (changesOnly.mono ?_ hF)
  clear hs hF
  unfold lateRuns
  with_reducible repeat' first
    | assumption | exact changesOnly.refl _ _ | apply applyRuns_changes | decide | split | apply changesOnly.set_eng

theorem pairBlock_changes {F : List Part} {s0 : State} {typ n maddr : Nat} {bs : List Byte} {s : State}
    (hF : Part.sub [.tx, .pair] F = true) (hs : changesOnly F s0 s) :
    changesOnly F s0 (pairBlock typ n maddr bs s) := by
  induction n generalizing maddr bs s with
  | zero => exact hs
  | succ n ih =>
    simp only [pairBlock]
    exact changesOnly.ite hs (ih (pairSend_changes hF hs))

theorem pairBlockAll_changes {F : List Part} {s0 : State} {typ maddr : Nat} {bs : List Byte} {s : State}
    (hF : Part.sub [.tx, .pair] F = true) (hs : changesOnly F s0 s) :
    changesOnly F s0 (pairBlockAll typ maddr bs s) := by
  exact pairBlock_changes hF hs

theorem sendSet_changes {F : List Part} {s0 : State} {s : State}
    (hF : Part.sub [.tx, .pair] F = true) (hs : changesOnly F s0 s) :
    changesOnly F s0 (sendSet s) := by
  refine hs.trans (changesOnly.mono ?_ hF)
  clear hs hF
  unfold sendSet
  with_reducible repeat' first
    | assumption | exact changesOnly.refl _ _ | apply pairBlockAll_changes | decide

end Sys2Proof.Machine
end

