-- ==== Sys2Proof/Laws/Changes4.lean ====
section
/-! SUPPORT. What each shared operation changes at most: the parts of the state (part 5 of 12). -/

set_option linter.unusedTactic false
set_option linter.unreachableTactic false

namespace Sys2Proof.Machine

theorem activeLatch_changes {F : List Part} {s0 : State} {s : State}
    (hF : Part.sub [.bal, .regs, .bb, .gal, .nv, .jnl, .mem, .eng, .pair, .runs, .per, .aud, .tx] F = true) (hs : changesOnly F s0 s) :
    changesOnly F s0 (activeLatch s) := by
  refine hs.trans (changesOnly.mono ?_ hF)
  clear hs hF
  unfold activeLatch
  with_reducible repeat' first
    | assumption | exact changesOnly.refl _ _ | apply beginSlots_changes | apply recsRead_changes
    | apply activeJoin_changes | apply lateRuns_changes | apply sendSet_changes | apply changesOnly.iteL
    | apply changesOnly.ite | decide | split | (intro)

theorem markRun_changes {F : List Part} {s0 : State} {m : Nat} {mark : Nat} {s : State}
    (hF : Part.sub [.runs] F = true) (hs : changesOnly F s0 s) :
    changesOnly F s0 (markRun m mark s) := by
  refine hs.trans (changesOnly.mono ?_ hF)
  clear hs hF
  unfold markRun
  with_reducible repeat' first
    | assumption | exact changesOnly.refl _ _ | apply updRun_changes | decide

theorem adopt_changes {F : List Part} {s0 : State} {m : Nat} {c : TotCopy} {quiet : Bool} {s : State}
    (hF : Part.sub [.mem, .runs, .aud, .regs, .bb] F = true) (hs : changesOnly F s0 s) :
    changesOnly F s0 (adopt m c quiet s) := by
  refine hs.trans (changesOnly.mono ?_ hF)
  clear hs hF
  unfold adopt
  with_reducible repeat' first
    | assumption | exact changesOnly.refl _ _ | apply liveWrite_changes | apply updRun_changes | apply audit_changes
    | apply raiseBit_changes | apply markRun_changes | apply modReg_changes | apply changesOnly.foldl
    | apply changesOnly.iteL | apply changesOnly.ite | decide | split | (intro)

theorem advance_changes {F : List Part} {s0 : State} {d : Nat} {s : State}
    (hF : Part.sub [.time] F = true) (hs : changesOnly F s0 s) :
    changesOnly F s0 (advance d s) := by
  refine hs.trans (changesOnly.mono ?_ hF)
  clear hs hF
  unfold advance
  with_reducible repeat' first
    | assumption | exact changesOnly.refl _ _ | apply changesOnly.iteL | apply changesOnly.ite | decide | split
    | apply changesOnly.set_time | (intro)

theorem flightCheckIn_changes {F : List Part} {s0 : State} {own : Nat} {s : State}
    (hF : Part.sub [.convs, .regs, .wd, .img] F = true) (hs : changesOnly F s0 s) :
    changesOnly F s0 (flightCheckIn own s) := by
  refine hs.trans (changesOnly.mono ?_ hF)
  clear hs hF
  unfold flightCheckIn
  with_reducible repeat' first
    | assumption | exact changesOnly.refl _ _ | apply updConv_changes | apply checkIn_changes
    | apply changesOnly.iteL | apply changesOnly.ite | decide | split | (intro)

theorem startInjected_changes {F : List Part} {s0 : State} {n : Nat} {t16 : Nat} {s : State}
    (hF : Part.sub [.convs, .halls] F = true) (hs : changesOnly F s0 s) :
    changesOnly F s0 (startInjected n t16 s) := by
  refine hs.trans (changesOnly.mono ?_ hF)
  clear hs hF
  unfold startInjected
  with_reducible repeat' first
    | assumption | exact changesOnly.refl _ _ | apply discardOpen_changes | apply forcedShadow_changes
    | apply updConv_changes | apply dropShadow_changes | decide

theorem stepPaid_changes {F : List Part} {s0 : State} {n : Nat} {t16 : Nat} {s : State}
    (hF : Part.sub [.convs, .halls] F = true) (hs : changesOnly F s0 s) :
    changesOnly F s0 (stepPaid n t16 s) := by
  refine hs.trans (changesOnly.mono ?_ hF)
  clear hs hF
  unfold stepPaid
  with_reducible repeat' first
    | assumption | exact changesOnly.refl _ _ | apply updConv_changes | apply startInjected_changes
    | apply changesOnly.iteL | apply changesOnly.ite | decide | split | (intro)

theorem contDone_changes {F : List Part} {s0 : State} {n : Nat} {t16 : Nat} {s : State}
    (hF : Part.sub [.convs, .regs, .wd, .img, .halls] F = true) (hs : changesOnly F s0 s) :
    changesOnly F s0 (contDone n t16 s) := by
  refine hs.trans (changesOnly.mono ?_ hF)
  clear hs hF
  unfold contDone
  with_reducible repeat' first
    | assumption | exact changesOnly.refl _ _ | apply updConv_changes | apply flightCheckIn_changes
    | apply stepPaid_changes | apply changesOnly.iteL | apply changesOnly.ite | decide | split | (intro)

theorem setHcfg_changes {F : List Part} {s0 : State} {h : Nat} {a : Nat} {v : Word} {s : State}
    (hF : Part.sub [.halls] F = true) (hs : changesOnly F s0 s) :
    changesOnly F s0 (setHcfg h a v s) := by
  refine hs.trans (changesOnly.mono ?_ hF)
  clear hs hF
  unfold setHcfg
  with_reducible repeat' first
    | assumption | exact changesOnly.refl _ _ | apply updHall_changes | decide

theorem takeNext_changes {F : List Part} {s0 : State} {h : Nat} {l : List Nat} {s : State}
    (hF : Part.sub [.halls] F = true) (hs : changesOnly F s0 s) :
    changesOnly F s0 (takeNext h l s) := by
  refine hs.trans (changesOnly.mono ?_ hF)
  clear hs hF
  unfold takeNext
  with_reducible repeat' first
    | assumption | exact changesOnly.refl _ _ | apply updHall_changes | apply setHcfg_changes
    | apply changesOnly.foldl | decide | split | (intro)

theorem injStepDone_changes {F : List Part} {s0 : State} {n : Nat} {t16 : Nat} {s : State}
    (hF : Part.sub [.convs, .halls, .regs, .wd, .img] F = true) (hs : changesOnly F s0 s) :
    changesOnly F s0 (injStepDone n t16 s) := by
  refine hs.trans (changesOnly.mono ?_ hF)
  clear hs hF
  unfold injStepDone
  with_reducible repeat' first
    | assumption | exact changesOnly.refl _ _ | apply updConv_changes | apply takeNext_changes
    | apply flightCheckIn_changes | apply changesOnly.iteL | apply changesOnly.ite | decide | split | (intro)

theorem shadowCycle_changes {F : List Part} {s0 : State} {own : Nat} {s : State}
    (hF : Part.sub [.halls] F = true) (hs : changesOnly F s0 s) :
    changesOnly F s0 (shadowCycle own s) := by
  refine hs.trans (changesOnly.mono ?_ hF)
  clear hs hF
  unfold shadowCycle
  with_reducible repeat' first
    | assumption | exact changesOnly.refl _ _ | apply updHall_changes | apply changesOnly.iteL
    | apply changesOnly.ite | decide | split | (intro)

theorem flightStepDone_changes {F : List Part} {s0 : State} {n : Nat} {t16 : Nat} {s : State}
    (hF : Part.sub [.convs, .halls, .regs, .wd, .img] F = true) (hs : changesOnly F s0 s) :
    changesOnly F s0 (flightStepDone n t16 s) := by
  refine hs.trans (changesOnly.mono ?_ hF)
  clear hs hF
  unfold flightStepDone
  with_reducible repeat' first
    | assumption | exact changesOnly.refl _ _ | apply updConv_changes | apply stepPaid_changes
    | apply flightCheckIn_changes | apply shadowCycle_changes | apply changesOnly.iteL | apply changesOnly.ite
    | decide | split | (intro)

theorem advanceStep_changes {F : List Part} {s0 : State} {n : Nat} {t16 : Nat} {s : State}
    (hF : Part.sub [.convs, .regs, .wd, .img, .halls] F = true) (hs : changesOnly F s0 s) :
    changesOnly F s0 (advanceStep n t16 s) := by
  refine hs.trans (changesOnly.mono ?_ hF)
  clear hs hF
  unfold advanceStep
  with_reducible repeat' first
    | assumption | exact changesOnly.refl _ _ | apply contDone_changes | apply updConv_changes
    | apply injStepDone_changes | apply flightStepDone_changes | apply changesOnly.iteL | apply changesOnly.ite
    | decide | split | (intro)

theorem blankConv_changes {F : List Part} {s0 : State} {n : Nat} {s : State}
    (hF : Part.sub [.convs] F = true) (hs : changesOnly F s0 s) :
    changesOnly F s0 (blankConv n s) := by
  refine hs.trans (changesOnly.mono ?_ hF)
  clear hs hF
  unfold blankConv
  with_reducible repeat' first
    | assumption | exact changesOnly.refl _ _ | apply updConv_changes | apply changesOnly.iteL
    | apply changesOnly.ite | decide | split | (intro)

theorem openWindow_changes {F : List Part} {s0 : State} {n : Nat} {t16 : Nat} {len : Nat} {s : State}
    (hF : Part.sub [.convs] F = true) (hs : changesOnly F s0 s) :
    changesOnly F s0 (openWindow n t16 len s) := by
  refine hs.trans (changesOnly.mono ?_ hF)
  clear hs hF
  unfold openWindow
  with_reducible repeat' first
    | assumption | exact changesOnly.refl _ _ | apply updConv_changes | decide

theorem releaseStep_changes {F : List Part} {s0 : State} {n : Nat} {t16 : Nat} {s : State}
    (hF : Part.sub [.convs] F = true) (hs : changesOnly F s0 s) :
    changesOnly F s0 (releaseStep n t16 s) := by
  refine hs.trans (changesOnly.mono ?_ hF)
  clear hs hF
  unfold releaseStep
  repeat' first
    | with_reducible assumption | with_reducible exact changesOnly.refl _ _ | with_reducible apply updConv_changes
    | with_reducible apply discard_changes | with_reducible apply restartAt_changes
    | with_reducible apply leaveShadow_changes | with_reducible apply openWindow_changes
    | with_reducible apply changesOnly.iteL | with_reducible apply changesOnly.ite | decide | split
    | with_reducible (intro) | dsimp only

theorem takeTrigger_changes {F : List Part} {s0 : State} {n : Nat} {t16 : Nat} {s : State}
    (hF : Part.sub [.regs, .bb, .convs, .halls] F = true) (hs : changesOnly F s0 s) :
    changesOnly F s0 (takeTrigger n t16 s) := by
  refine hs.trans (changesOnly.mono ?_ hF)
  clear hs hF
  unfold takeTrigger
  with_reducible repeat' first
    | assumption | exact changesOnly.refl _ _ | apply raiseBit_changes | apply updConv_changes
    | apply startInjected_changes | apply changesOnly.iteL | apply changesOnly.ite | decide | split | (intro)

theorem unblankConv_changes {F : List Part} {s0 : State} {n : Nat} {t16 : Nat} {s : State}
    (hF : Part.sub [.convs, .regs, .bb, .halls] F = true) (hs : changesOnly F s0 s) :
    changesOnly F s0 (unblankConv n t16 s) := by
  refine hs.trans (changesOnly.mono ?_ hF)
  clear hs hF
  unfold unblankConv
  with_reducible repeat' first
    | assumption | exact changesOnly.refl _ _ | apply updConv_changes | apply releaseStep_changes
    | apply takeTrigger_changes | apply changesOnly.iteL | apply changesOnly.ite | decide | split | (intro)

theorem afterBlank_changes {F : List Part} {s0 : State} {h : Nat} {before : Bool} {s : State}
    (hF : Part.sub [.convs, .regs, .bb, .halls] F = true) (hs : changesOnly F s0 s) :
    changesOnly F s0 (afterBlank h before s) := by
  refine hs.trans (changesOnly.mono ?_ hF)
  clear hs hF
  unfold afterBlank
  with_reducible repeat' first
    | assumption | exact changesOnly.refl _ _ | apply blankConv_changes | apply unblankConv_changes
    | apply changesOnly.iteL | apply changesOnly.ite | decide | split | (intro)

theorem moveFlight_changes {F : List Part} {s0 : State} {a : Nat} {b : Nat} {s : State}
    (hF : Part.sub [.convs] F = true) (hs : changesOnly F s0 s) :
    changesOnly F s0 (moveFlight a b s) := by
  refine hs.trans (changesOnly.mono ?_ hF)
  clear hs hF
  unfold moveFlight
  with_reducible repeat' first
    | assumption | exact changesOnly.refl _ _ | apply updConv_changes | decide

theorem startLadder_changes {F : List Part} {s0 : State} {n : Nat} {t16 : Nat} {s : State}
    (hF : Part.sub [.halls, .convs] F = true) (hs : changesOnly F s0 s) :
    changesOnly F s0 (startLadder n t16 s) := by
  refine hs.trans (changesOnly.mono ?_ hF)
  clear hs hF
  unfold startLadder
  with_reducible repeat' first
    | assumption | exact changesOnly.refl _ _ | apply updRot_changes | apply updConv_changes | decide

theorem swapToK1_changes {F : List Part} {s0 : State} {h : Nat} {t16 : Nat} {s : State}
    (hF : Part.sub [.convs, .halls] F = true) (hs : changesOnly F s0 s) :
    changesOnly F s0 (swapToK1 h t16 s) := by
  refine hs.trans (changesOnly.mono ?_ hF)
  clear hs hF
  unfold swapToK1
  with_reducible repeat' first
    | assumption | exact changesOnly.refl _ _ | apply moveFlight_changes | apply updRot_changes
    | apply startLadder_changes | apply changesOnly.iteL | apply changesOnly.ite | decide | split | (intro)

theorem swapContinuous_changes {F : List Part} {s0 : State} {h : Nat} {t16 : Nat} {s : State}
    (hF : Part.sub [.convs, .halls] F = true) (hs : changesOnly F s0 s) :
    changesOnly F s0 (swapContinuous h t16 s) := by
  refine hs.trans (changesOnly.mono ?_ hF)
  clear hs hF
  unfold swapContinuous
  with_reducible repeat' first
    | assumption | exact changesOnly.refl _ _ | apply swapToK1_changes | apply openWindow_changes
    | apply changesOnly.iteL | apply changesOnly.ite | decide | split | (intro)

theorem rotEvent_changes {F : List Part} {s0 : State} {h : Nat} {i : Nat} {s : State}
    (hF : Part.sub [.halls] F = true) (hs : changesOnly F s0 s) :
    changesOnly F s0 (rotEvent h i s) := by
  refine hs.trans (changesOnly.mono ?_ hF)
  clear hs hF
  unfold rotEvent
  with_reducible repeat' first
    | assumption | exact changesOnly.refl _ _ | apply updHall_changes | decide

theorem retire_changes {F : List Part} {s0 : State} {n : Nat} {s : State}
    (hF : Part.sub [.halls, .convs] F = true) (hs : changesOnly F s0 s) :
    changesOnly F s0 (retire n s) := by
  refine hs.trans (changesOnly.mono ?_ hF)
  clear hs hF
  unfold retire
  with_reducible repeat' first
    | assumption | exact changesOnly.refl _ _ | apply updHall_changes | apply updRot_changes | apply updConv_changes
    | apply rotEvent_changes | apply changesOnly.iteL | apply changesOnly.ite | decide | split | (intro)

theorem swapBack_changes {F : List Part} {s0 : State} {h : Nat} {t16 : Nat} {s : State}
    (hF : Part.sub [.convs, .halls] F = true) (hs : changesOnly F s0 s) :
    changesOnly F s0 (swapBack h t16 s) := by
  refine hs.trans (changesOnly.mono ?_ hF)
  clear hs hF
  unfold swapBack
  with_reducible repeat' first
    | assumption | exact changesOnly.refl _ _ | apply moveFlight_changes | apply updRot_changes
    | apply rotEvent_changes | apply retire_changes | apply changesOnly.iteL | apply changesOnly.ite | decide | split
    | (intro)

theorem takeBack_changes {F : List Part} {s0 : State} {h : Nat} {s : State}
    (hF : Part.sub [.convs, .halls] F = true) (hs : changesOnly F s0 s) :
    changesOnly F s0 (takeBack h s) := by
  refine hs.trans (changesOnly.mono ?_ hF)
  clear hs hF
  unfold takeBack
  with_reducible repeat' first
    | assumption | exact changesOnly.refl _ _ | apply startIdle_changes | apply updRot_changes
    | apply moveFlight_changes | decide

theorem joinContinuous_changes {F : List Part} {s0 : State} {h : Nat} {t16 : Nat} {s : State}
    (hF : Part.sub [.convs] F = true) (hs : changesOnly F s0 s) :
    changesOnly F s0 (joinContinuous h t16 s) := by
  refine hs.trans (changesOnly.mono ?_ hF)
  clear hs hF
  unfold joinContinuous
  with_reducible repeat' first
    | assumption | exact changesOnly.refl _ _ | apply joinAt_changes | apply changesOnly.iteL | apply changesOnly.ite
    | decide | split | (intro)

theorem beginShadow_changes {F : List Part} {s0 : State} {h : Nat} {phase : Nat} {s : State}
    (hF : Part.sub [.halls] F = true) (hs : changesOnly F s0 s) :
    changesOnly F s0 (beginShadow h phase s) := by
  refine hs.trans (changesOnly.mono ?_ hF)
  clear hs hF
  unfold beginShadow
  with_reducible repeat' first
    | assumption | exact changesOnly.refl _ _ | apply updRot_changes | decide

theorem startRotation_changes {F : List Part} {s0 : State} {h : Nat} {s : State}
    (hF : Part.sub [.halls] F = true) (hs : changesOnly F s0 s) :
    changesOnly F s0 (startRotation h s) := by
  refine hs.trans (changesOnly.mono ?_ hF)
  clear hs hF
  unfold startRotation
  with_reducible repeat' first
    | assumption | exact changesOnly.refl _ _ | apply beginShadow_changes | apply updRot_changes | decide

theorem shadowContinuous_changes {F : List Part} {s0 : State} {h : Nat} {t16 : Nat} {s : State}
    (hF : Part.sub [.halls, .convs] F = true) (hs : changesOnly F s0 s) :
    changesOnly F s0 (shadowContinuous h t16 s) := by
  refine hs.trans (changesOnly.mono ?_ hF)
  clear hs hF
  unfold shadowContinuous
  with_reducible repeat' first
    | assumption | exact changesOnly.refl _ _ | apply rotAbandon_changes | apply dropShadow_changes
    | apply joinContinuous_changes | apply changesOnly.iteL | apply changesOnly.ite | decide | split | (intro)

theorem afterContinuous_changes {F : List Part} {s0 : State} {h : Nat} {t16 : Nat} {s : State}
    (hF : Part.sub [.convs, .halls] F = true) (hs : changesOnly F s0 s) :
    changesOnly F s0 (afterContinuous h t16 s) := by
  refine hs.trans (changesOnly.mono ?_ hF)
  clear hs hF
  unfold afterContinuous
  with_reducible repeat' first
    | assumption | exact changesOnly.refl _ _ | apply swapContinuous_changes | apply swapBack_changes
    | apply updRot_changes | apply takeBack_changes | apply joinBack_changes | apply joinContinuous_changes
    | apply startRotation_changes | apply shadowContinuous_changes | apply changesOnly.iteL | apply changesOnly.ite
    | decide | split | (intro)

theorem shadowVerdict_changes {F : List Part} {s0 : State} {h : Nat} {t16 : Nat} {s : State}
    (hF : Part.sub [.halls, .convs] F = true) (hs : changesOnly F s0 s) :
    changesOnly F s0 (shadowVerdict h t16 s) := by
  refine hs.trans (changesOnly.mono ?_ hF)
  clear hs hF
  unfold shadowVerdict
  with_reducible repeat' first
    | assumption | exact changesOnly.refl _ _ | apply updRot_changes | apply updConv_changes | apply rotEvent_changes
    | apply startLadder_changes | apply beginShadow_changes | apply changesOnly.iteL | apply changesOnly.ite | decide
    | split | (intro)

theorem pairCheck_changes {F : List Part} {s0 : State} {h : Nat} {s : State}
    (hF : Part.sub [.halls, .convs] F = true) (hs : changesOnly F s0 s) :
    changesOnly F s0 (pairCheck h s) := by
  refine hs.trans (changesOnly.mono ?_ hF)
  clear hs hF
  unfold pairCheck
  extract_lets x0
  with_reducible repeat' first
    | assumption | exact changesOnly.refl _ _ | apply updRot_changes | apply shadowVerdict_changes
    | apply changesOnly.iteL | apply changesOnly.ite | decide | split | (intro)

theorem afterResult_changes {F : List Part} {s0 : State} {h : Nat} {t16 : Nat} {s : State}
    (hF : Part.sub [.halls, .convs] F = true) (hs : changesOnly F s0 s) :
    changesOnly F s0 (afterResult h t16 s) := by
  refine hs.trans (changesOnly.mono ?_ hF)
  clear hs hF
  unfold afterResult
  with_reducible repeat' first
    | assumption | exact changesOnly.refl _ _ | apply pairCheck_changes | apply afterContinuous_changes
    | apply changesOnly.iteL | apply changesOnly.ite | decide | split | (intro)

theorem balTick_changes {F : List Part} {s0 : State} {m : Nat} {n : Nat} {alarm : Bool} {adj : Bool} {s : State}
    (hF : Part.sub [.bal, .regs, .bb] F = true) (hs : changesOnly F s0 s) :
    changesOnly F s0 (balTick m n alarm adj s) := by
  refine hs.trans (changesOnly.mono ?_ hF)
  clear hs hF
  unfold balTick
  with_reducible repeat' first
    | assumption | exact changesOnly.refl _ _ | apply updBal_changes | apply balClose_changes | apply forN_into
    | apply changesOnly.iteL | apply changesOnly.ite | decide | split | (intro)

theorem galTick_changes {F : List Part} {s0 : State} {m : Nat} {alarm : Bool} {status : Word} {vs : List (Option Ext)} {s : State}
    (hF : Part.sub [.gal] F = true) (hs : changesOnly F s0 s) :
    changesOnly F s0 (galTick m alarm status vs s) := by
  refine hs.trans (changesOnly.mono ?_ hF)
  clear hs hF
  unfold galTick
  with_reducible repeat' first
    | assumption | exact changesOnly.refl _ _ | apply updTier_changes | decide | split

theorem periodTick_changes {F : List Part} {s0 : State} {m : Nat} {alarm : Bool} {status : Word} {q : Nat} {vs : List (Option Ext)} {s : State}
    (hF : Part.sub [.runs] F = true) (hs : changesOnly F s0 s) :
    changesOnly F s0 (periodTick m alarm status q vs s) := by
  refine hs.trans (changesOnly.mono ?_ hF)
  clear hs hF
  unfold periodTick
  with_reducible repeat' first
    | assumption | exact changesOnly.refl _ _ | apply updRun_changes | decide

theorem afterRun_changes {F : List Part} {s0 : State} {m : Nat} {alarm : Bool} {status : Word} {q : Nat} {vals : List (Option Ext)} {gal : List (Option Ext)} {s : State}
    (hF : Part.sub [.bal, .regs, .bb, .gal, .runs] F = true) (hs : changesOnly F s0 s) :
    changesOnly F s0 (afterRun m alarm status q vals gal s) := by
  refine hs.trans (changesOnly.mono ?_ hF)
  clear hs hF
  unfold afterRun
  with_reducible repeat' first
    | assumption | exact changesOnly.refl _ _ | apply balTick_changes | apply galTick_changes
    | apply periodTick_changes | decide

theorem ageDiverge_changes {F : List Part} {s0 : State} {s : State}
    (hF : Part.sub [.pair] F = true) (hs : changesOnly F s0 s) :
    changesOnly F s0 (ageDiverge s) := by
  refine hs.trans (changesOnly.mono ?_ hF)
  clear hs hF
  unfold ageDiverge
  with_reducible repeat' first
    | assumption | exact changesOnly.refl _ _ | apply updPair_changes | decide

theorem alignRing_changes {F : List Part} {s0 : State} {n : Nat} {p : Nat} {s : State}
    (hF : Part.sub [.pair] F = true) (hs : changesOnly F s0 s) :
    changesOnly F s0 (alignRing n p s) := by
  refine hs.trans (changesOnly.mono ?_ hF)
  clear hs hF
  unfold alignRing
  with_reducible repeat' first
    | assumption | exact changesOnly.refl _ _ | apply changesOnly.iteL | apply changesOnly.ite | decide | split
    | apply changesOnly.set_pair | (intro)

theorem mirrorSeen_changes {F : List Part} {s0 : State} {a : Nat} {n : Nat} {s : State}
    (hF : Part.sub [.regs, .bb] F = true) (hs : changesOnly F s0 s) :
    changesOnly F s0 (mirrorSeen a n s) := by
  refine hs.trans (changesOnly.mono ?_ hF)
  clear hs hF
  unfold mirrorSeen
  with_reducible repeat' first
    | assumption | exact changesOnly.refl _ _ | apply eccSeen_changes | decide

theorem alignRings_changes {F : List Part} {s0 : State} {n : Nat} {s : State}
    (hF : Part.sub [.regs, .bb, .pair] F = true) (hs : changesOnly F s0 s) :
    changesOnly F s0 (alignRings n s) := by
  refine hs.trans (changesOnly.mono ?_ hF)
  clear hs hF
  unfold alignRings
  with_reducible repeat' first
    | assumption | exact changesOnly.refl _ _ | apply mirrorSeen_changes | apply alignRing_changes
    | apply changesOnly.foldl | decide | split | (intro)

theorem allActive_changes {F : List Part} {s0 : State} {s : State}
    (hF : Part.sub [.regs, .bb, .halls, .chans, .per, .convs] F = true) (hs : changesOnly F s0 s) :
    changesOnly F s0 (allActive s) := by
  refine hs.trans (changesOnly.mono ?_ hF)
  clear hs hF
  unfold allActive
  with_reducible repeat' first
    | assumption | exact changesOnly.refl _ _ | apply report_changes | apply activeForm_changes | apply forHalls_into
    | apply forChans_into | apply changesOnly.iteL | apply changesOnly.ite | decide | split | (intro)

theorem standbyForm_changes {F : List Part} {s0 : State} {h : Nat} {c : Nat} {s : State}
    (hF : Part.sub [.chans, .convs, .halls] F = true) (hs : changesOnly F s0 s) :
    changesOnly F s0 (standbyForm h c s) := by
  refine hs.trans (changesOnly.mono ?_ hF)
  clear hs hF
  unfold standbyForm
  with_reducible repeat' first
    | assumption | exact changesOnly.refl _ _ | apply inputForm_changes | apply resolve_changes
    | apply updChan_changes | apply changesOnly.iteL | apply changesOnly.ite | decide | split | (intro)

theorem allStandby_changes {F : List Part} {s0 : State} {s : State}
    (hF : Part.sub [.regs, .bb, .halls, .chans, .per, .convs] F = true) (hs : changesOnly F s0 s) :
    changesOnly F s0 (allStandby s) := by
  refine hs.trans (changesOnly.mono ?_ hF)
  clear hs hF
  unfold allStandby
  with_reducible repeat' first
    | assumption | exact changesOnly.refl _ _ | apply report_changes | apply standbyForm_changes
    | apply forHalls_into | apply forChans_into | apply changesOnly.iteL | apply changesOnly.ite | decide | split
    | (intro)

theorem sendData_changes {F : List Part} {s0 : State} {s : State}
    (hF : Part.sub [.tx, .regs, .bb, .mem, .ml] F = true) (hs : changesOnly F s0 s) :
    changesOnly F s0 (sendData s) := by
  refine hs.trans (changesOnly.mono ?_ hF)
  clear hs hF
  unfold sendData
  with_reducible repeat' first
    | assumption | exact changesOnly.refl _ _ | apply mlOriginate_changes | apply updMl_changes
    | apply changesOnly.iteL | apply changesOnly.ite | decide | split | (intro)

theorem appendData_changes {F : List Part} {s0 : State} {s : State}
    (hF : Part.sub [.regs, .ml, .tx, .bb, .mem] F = true) (hs : changesOnly F s0 s) :
    changesOnly F s0 (appendData s) := by
  refine hs.trans (changesOnly.mono ?_ hF)
  clear hs hF
  unfold appendData
  with_reducible repeat' first
    | assumption | exact changesOnly.refl _ _ | apply modReg_changes | apply updMl_changes | apply sendData_changes
    | apply changesOnly.iteL | apply changesOnly.ite | decide | split | (intro)

theorem applyCommand_changes {F : List Part} {s0 : State} {h : Nat} {c : Nat} {v : Nat} {s : State}
    (hF : Part.sub [.chans] F = true) (hs : changesOnly F s0 s) :
    changesOnly F s0 (applyCommand h c v s) := by
  refine hs.trans (changesOnly.mono ?_ hF)
  clear hs hF
  unfold applyCommand
  with_reducible repeat' first
    | assumption | exact changesOnly.refl _ _ | apply updChan_changes | apply resolve_changes
    | apply changesOnly.foldl | apply changesOnly.iteL | apply changesOnly.ite | decide | split | (intro)

end Sys2Proof.Machine
end

