-- ==== Sys2Proof/Laws/Changes5.lean ====
section
/-! SUPPORT. What each shared operation changes at most: the parts of the state (part 6 of 12). -/

set_option linter.unusedTactic false
set_option linter.unreachableTactic false

namespace Sys2Proof.Machine

theorem copyWord_changes {F : List Part} {s0 : State} {h : Nat} {a : Nat} {s : State}
    (hF : Part.sub [.halls] F = true) (hs : changesOnly F s0 s) :
    changesOnly F s0 (copyWord h a s) := by
  refine hs.trans (changesOnly.mono ?_ hF)
  clear hs hF
  unfold copyWord
  with_reducible repeat' first
    | assumption | exact changesOnly.refl _ _ | apply setHcfg_changes | decide

theorem takeBuffer_changes {F : List Part} {s0 : State} {h : Nat} {s : State}
    (hF : Part.sub [.halls] F = true) (hs : changesOnly F s0 s) :
    changesOnly F s0 (takeBuffer h s) := by
  refine hs.trans (changesOnly.mono ?_ hF)
  clear hs hF
  unfold takeBuffer
  with_reducible repeat' first
    | assumption | exact changesOnly.refl _ _ | apply updHall_changes | apply changesOnly.iteL
    | apply changesOnly.ite | decide | split | (intro)

theorem hallFlag_changes {F : List Part} {s0 : State} {h : Nat} {i : Nat} {b : Bool} {s : State}
    (hF : Part.sub [.halls] F = true) (hs : changesOnly F s0 s) :
    changesOnly F s0 (hallFlag h i b s) := by
  refine hs.trans (changesOnly.mono ?_ hF)
  clear hs hF
  unfold hallFlag
  with_reducible repeat' first
    | assumption | exact changesOnly.refl _ _ | apply updHall_changes | apply changesOnly.iteL
    | apply changesOnly.ite | decide | split | (intro)

theorem hallConfigured_changes {F : List Part} {s0 : State} {h : Nat} {s : State}
    (hF : Part.sub [.halls, .convs, .chans] F = true) (hs : changesOnly F s0 s) :
    changesOnly F s0 (hallConfigured h s) := by
  refine hs.trans (changesOnly.mono ?_ hF)
  clear hs hF
  unfold hallConfigured
  with_reducible repeat' first
    | assumption | exact changesOnly.refl _ _ | apply updHall_changes | apply updConv_changes | apply setHcfg_changes
    | apply pulsReset_changes | apply hallFlag_changes | apply forN_into | apply forChans_into | decide | (intro)

theorem startFlights_changes {F : List Part} {s0 : State} {h : Nat} {first : Bool} {s : State}
    (hF : Part.sub [.halls, .convs] F = true) (hs : changesOnly F s0 s) :
    changesOnly F s0 (startFlights h first s) := by
  refine hs.trans (changesOnly.mono ?_ hF)
  clear hs hF
  unfold startFlights
  with_reducible repeat' first
    | assumption | exact changesOnly.refl _ _ | apply updHall_changes | apply startIdle_changes
    | apply changesOnly.iteL | apply changesOnly.ite | decide | split | (intro)

theorem commitEnable_changes {F : List Part} {s0 : State} {h : Nat} {s : State}
    (hF : Part.sub [.halls, .convs, .chans] F = true) (hs : changesOnly F s0 s) :
    changesOnly F s0 (commitEnable h s) := by
  refine hs.trans (changesOnly.mono ?_ hF)
  clear hs hF
  unfold commitEnable
  with_reducible repeat' first
    | assumption | exact changesOnly.refl _ _ | apply copyWord_changes | apply updHall_changes
    | apply setHcfg_changes | apply takeBuffer_changes | apply hallConfigured_changes | apply updChan_changes
    | apply startFlights_changes | apply forChans_into | apply changesOnly.foldl | apply changesOnly.iteL
    | apply changesOnly.ite | decide | split | (intro)

theorem hallOff_changes {F : List Part} {s0 : State} {h : Nat} {s : State}
    (hF : Part.sub [.halls, .convs, .chans] F = true) (hs : changesOnly F s0 s) :
    changesOnly F s0 (hallOff h s) := by
  refine hs.trans (changesOnly.mono ?_ hF)
  clear hs hF
  unfold hallOff
  with_reducible repeat' first
    | assumption | exact changesOnly.refl _ _ | apply stopHall_changes | apply updHall_changes
    | apply resolve_changes | apply chanOff_changes | apply forChans_into | decide | (intro)

theorem commitChan_changes {F : List Part} {s0 : State} {h : Nat} {c : Nat} {s : State}
    (hF : Part.sub [.halls, .chans, .convs] F = true) (hs : changesOnly F s0 s) :
    changesOnly F s0 (commitChan h c s) := by
  refine hs.trans (changesOnly.mono ?_ hF)
  clear hs hF
  unfold commitChan
  with_reducible repeat' first
    | assumption | exact changesOnly.refl _ _ | apply copyWord_changes | apply resolve_changes
    | apply restartChannel_changes | apply chanOff_changes | apply updChan_changes | apply changesOnly.iteL
    | apply changesOnly.ite | decide | split | (intro)

theorem freeLadder_changes {F : List Part} {s0 : State} {n : Nat} {s : State}
    (hF : Part.sub [.convs] F = true) (hs : changesOnly F s0 s) :
    changesOnly F s0 (freeLadder n s) := by
  refine hs.trans (changesOnly.mono ?_ hF)
  clear hs hF
  unfold freeLadder
  with_reducible repeat' first
    | assumption | exact changesOnly.refl _ _ | apply updConv_changes | apply discardOpen_changes
    | apply changesOnly.iteL | apply changesOnly.ite | decide | split | (intro)

theorem rotDisabled_changes {F : List Part} {s0 : State} {h : Nat} {s : State}
    (hF : Part.sub [.convs, .halls] F = true) (hs : changesOnly F s0 s) :
    changesOnly F s0 (rotDisabled h s) := by
  refine hs.trans (changesOnly.mono ?_ hF)
  clear hs hF
  unfold rotDisabled
  with_reducible repeat' first
    | assumption | exact changesOnly.refl _ _ | apply freeLadder_changes | apply dropShadow_changes
    | apply updConv_changes | apply moveFlight_changes | apply restartStep_changes | apply updRot_changes
    | apply rotAbandon_changes | apply changesOnly.iteL | apply changesOnly.ite | decide | split | (intro)

theorem newFlightWords_changes {F : List Part} {s0 : State} {own : Nat} {s : State}
    (hF : Part.sub [.halls, .convs, .chans] F = true) (hs : changesOnly F s0 s) :
    changesOnly F s0 (newFlightWords own s) := by
  refine hs.trans (changesOnly.mono ?_ hF)
  clear hs hF
  unfold newFlightWords
  with_reducible repeat' first
    | assumption | exact changesOnly.refl _ _ | apply takeNext_changes | apply updConv_changes
    | apply pulsReset_changes | apply forChans_into | apply changesOnly.iteL | apply changesOnly.ite | decide | split
    | (intro)

theorem commitRotation_changes {F : List Part} {s0 : State} {h : Nat} {was : Bool} {s : State}
    (hF : Part.sub [.convs, .halls, .chans] F = true) (hs : changesOnly F s0 s) :
    changesOnly F s0 (commitRotation h was s) := by
  refine hs.trans (changesOnly.mono ?_ hF)
  clear hs hF
  unfold commitRotation
  with_reducible repeat' first
    | assumption | exact changesOnly.refl _ _ | apply rotDisabled_changes | apply newFlightWords_changes
    | apply convStop_changes | apply updRot_changes | apply changesOnly.iteL | apply changesOnly.ite | decide | split
    | (intro)

theorem waitWords_changes {F : List Part} {s0 : State} {h : Nat} {l : List Nat} {s : State}
    (hF : Part.sub [.halls] F = true) (hs : changesOnly F s0 s) :
    changesOnly F s0 (waitWords h l s) := by
  refine hs.trans (changesOnly.mono ?_ hF)
  clear hs hF
  unfold waitWords
  with_reducible repeat' first
    | assumption | exact changesOnly.refl _ _ | apply updHall_changes | apply changesOnly.foldl | decide | (intro)

theorem commitFlight_changes {F : List Part} {s0 : State} {n : Nat} {l : List Nat} {s : State}
    (hF : Part.sub [.halls, .convs, .chans] F = true) (hs : changesOnly F s0 s) :
    changesOnly F s0 (commitFlight n l s) := by
  refine hs.trans (changesOnly.mono ?_ hF)
  clear hs hF
  unfold commitFlight
  with_reducible repeat' first
    | assumption | exact changesOnly.refl _ _ | apply waitWords_changes | apply updConv_changes
    | apply newFlightWords_changes | apply changesOnly.iteL | apply changesOnly.ite | decide | split | (intro)

theorem commitInjected_changes {F : List Part} {s0 : State} {n : Nat} {l : List Nat} {s : State}
    (hF : Part.sub [.halls] F = true) (hs : changesOnly F s0 s) :
    changesOnly F s0 (commitInjected n l s) := by
  refine hs.trans (changesOnly.mono ?_ hF)
  clear hs hF
  unfold commitInjected
  with_reducible repeat' first
    | assumption | exact changesOnly.refl _ _ | apply waitWords_changes | apply takeNext_changes
    | apply changesOnly.iteL | apply changesOnly.ite | decide | split | (intro)

theorem resolveAll_changes {F : List Part} {s0 : State} {h : Nat} {s : State}
    (hF : Part.sub [.chans] F = true) (hs : changesOnly F s0 s) :
    changesOnly F s0 (resolveAll h s) := by
  refine hs.trans (changesOnly.mono ?_ hF)
  clear hs hF
  unfold resolveAll
  with_reducible repeat' first
    | assumption | exact changesOnly.refl _ _ | apply resolve_changes | apply forChans_into | decide | (intro)

theorem commitHall_changes {F : List Part} {s0 : State} {h : Nat} {l : List Nat} {s : State}
    (hF : Part.sub [.halls, .chans, .convs, .regs, .bb] F = true) (hs : changesOnly F s0 s) :
    changesOnly F s0 (commitHall h l s) := by
  refine hs.trans (changesOnly.mono ?_ hF)
  clear hs hF
  unfold commitHall
  with_reducible repeat' first
    | assumption | exact changesOnly.refl _ _ | apply copyWord_changes | apply commitChan_changes
    | apply takeBuffer_changes | apply excFlag_changes | apply updHall_changes | apply pulsReset_changes
    | apply commitRotation_changes | apply commitFlight_changes | apply commitInjected_changes
    | apply startFlights_changes | apply resolveAll_changes | apply afterBlank_changes | apply forChans_into
    | apply forN_into | apply changesOnly.foldl | apply changesOnly.iteL | apply changesOnly.ite | decide | split
    | (intro)

theorem applyHall_changes {F : List Part} {s0 : State} {h : Nat} {was : Bool} {l : List Nat} {s : State}
    (hF : Part.sub [.halls, .convs, .chans, .regs, .bb, .per] F = true) (hs : changesOnly F s0 s) :
    changesOnly F s0 (applyHall h was l s) := by
  refine hs.trans (changesOnly.mono ?_ hF)
  clear hs hF
  unfold applyHall
  with_reducible repeat' first
    | assumption | exact changesOnly.refl _ _ | apply commitEnable_changes | apply hallOff_changes
    | apply copyWord_changes | apply commitHall_changes | apply updHall_changes | apply setReg_changes
    | apply report_changes | apply changesOnly.iteL | apply changesOnly.ite | decide | split | (intro)

theorem takeCopy_changes {F : List Part} {s0 : State} {i : Nat} {s : State}
    (hF : Part.sub [.regs, .img] F = true) (hs : changesOnly F s0 s) :
    changesOnly F s0 (takeCopy i s) := by
  refine hs.trans (changesOnly.mono ?_ hF)
  clear hs hF
  unfold takeCopy
  with_reducible repeat' first
    | assumption | exact changesOnly.refl _ _ | apply setReg_changes | apply setCopy_changes | apply updImg_changes
    | decide

theorem soloRole_changes {F : List Part} {s0 : State} {s : State}
    (hF : Part.sub [.pair, .regs, .bb, .halls, .chans, .per, .convs] F = true) (hs : changesOnly F s0 s) :
    changesOnly F s0 (soloRole s) := by
  refine hs.trans (changesOnly.mono ?_ hF)
  clear hs hF
  unfold soloRole
  with_reducible repeat' first
    | assumption | exact changesOnly.refl _ _ | apply updPair_changes | apply allActive_changes
    | apply changesOnly.iteL | apply changesOnly.ite | decide | split | (intro)

theorem isolate_changes {F : List Part} {s0 : State} {s : State}
    (hF : Part.sub [.ml, .regs, .bb] F = true) (hs : changesOnly F s0 s) :
    changesOnly F s0 (isolate s) := by
  refine hs.trans (changesOnly.mono ?_ hF)
  clear hs hF
  unfold isolate
  with_reducible repeat' first
    | assumption | exact changesOnly.refl _ _ | apply updMl_changes | apply mlEvent_changes | apply changesOnly.iteL
    | apply changesOnly.ite | decide | split | (intro)

theorem portWord_changes {F : List Part} {s0 : State} {p : Nat} {s : State}
    (hF : Part.sub [.ml] F = true) (hs : changesOnly F s0 s) :
    changesOnly F s0 (portWord p s) := by
  refine hs.trans (changesOnly.mono ?_ hF)
  clear hs hF
  unfold portWord
  with_reducible repeat' first
    | assumption | exact changesOnly.refl _ _ | apply updPort_changes | apply changesOnly.iteL
    | apply changesOnly.ite | decide | split | (intro)

theorem startPorts_changes {F : List Part} {s0 : State} {s : State}
    (hF : Part.sub [.ml, .regs, .bb] F = true) (hs : changesOnly F s0 s) :
    changesOnly F s0 (startPorts s) := by
  refine hs.trans (changesOnly.mono ?_ hF)
  clear hs hF
  unfold startPorts
  with_reducible repeat' first
    | assumption | exact changesOnly.refl _ _ | apply isolate_changes | apply portWord_changes | apply forN_into
    | decide | (intro)

theorem quietHalls_changes {F : List Part} {s0 : State} {s : State}
    (hF : Part.sub [.regs] F = true) (hs : changesOnly F s0 s) :
    changesOnly F s0 (quietHalls s) := by
  refine hs.trans (changesOnly.mono ?_ hF)
  clear hs hF
  unfold quietHalls
  with_reducible repeat' first
    | assumption | exact changesOnly.refl _ _ | apply modReg_changes | apply forHalls_into | apply changesOnly.iteL
    | apply changesOnly.ite | decide | split | (intro)

theorem takeImage_changes {F : List Part} {s0 : State} {im : Img} {s : State}
    (hF : Part.sub [.regs, .bb, .curves, .eng, .mem, .ml] F = true) (hs : changesOnly F s0 s) :
    changesOnly F s0 (takeImage im s) := by
  refine hs.trans (changesOnly.mono ?_ hF)
  clear hs hF
  unfold takeImage
  repeat' first
    | exact Or.inr (by decide) | with_reducible exact Or.inl rfl | with_reducible assumption
    | with_reducible exact changesOnly.refl _ _ | with_reducible apply loadRegs_changes
    | with_reducible apply quietHalls_changes | with_reducible apply setReg_changes
    | with_reducible apply forHalls_into | with_reducible apply forN_into | decide | with_reducible (intro)
    | with_reducible apply changesOnly.mk

theorem listedOutputs_changes {F : List Part} {s0 : State} {im : Img} {h : Nat} {s : State}
    (hF : Part.sub [.regs, .bb] F = true) (hs : changesOnly F s0 s) :
    changesOnly F s0 (listedOutputs im h s) := by
  refine hs.trans (changesOnly.mono ?_ hF)
  clear hs hF
  unfold listedOutputs
  with_reducible repeat' first
    | assumption | exact changesOnly.refl _ _ | apply setReg_changes | apply cfgClamp_changes | apply forChans_into
    | apply changesOnly.iteL | apply changesOnly.ite | decide | split | (intro)

theorem keepHall_changes {F : List Part} {s0 : State} {h : Nat} {s : State}
    (hF : Part.sub [.halls, .regs, .clk] F = true) (hs : changesOnly F s0 s) :
    changesOnly F s0 (keepHall h s) := by
  refine hs.trans (changesOnly.mono ?_ hF)
  clear hs hF
  unfold keepHall
  with_reducible repeat' first
    | assumption | exact changesOnly.refl _ _ | apply updHall_changes | apply setReg_changes | apply forChans_into
    | decide | apply changesOnly.set_clk | (intro)

theorem startHall_changes {F : List Part} {s0 : State} {im : Img} {h : Nat} {s : State}
    (hF : Part.sub [.regs, .bb, .halls, .convs, .chans, .clk, .nv, .jnl, .mem, .img, .newest, .older, .str] F = true) (hs : changesOnly F s0 s) :
    changesOnly F s0 (startHall im h s) := by
  refine hs.trans (changesOnly.mono ?_ hF)
  clear hs hF
  unfold startHall
  with_reducible repeat' first
    | assumption | exact changesOnly.refl _ _ | apply listedOutputs_changes | apply hallOff_changes
    | apply keepHall_changes | apply reloadBegin_changes | apply changesOnly.iteL | apply changesOnly.ite | decide
    | split | (intro)

theorem auditApplied_changes {F : List Part} {s0 : State} {s : State}
    (hF : Part.sub [.mem, .aud, .regs, .bb] F = true) (hs : changesOnly F s0 s) :
    changesOnly F s0 (auditApplied s) := by
  refine hs.trans (changesOnly.mono ?_ hF)
  clear hs hF
  unfold auditApplied
  with_reducible repeat' first
    | assumption | exact changesOnly.refl _ _ | apply audit_changes | apply changesOnly.iteL | apply changesOnly.ite
    | decide | split | apply changesOnly.set_aud | (intro)

theorem settleReport_changes {F : List Part} {s0 : State} {last : Nat} {e : JEntry} {s : State}
    (hF : Part.sub [.jnl, .regs, .bb] F = true) (hs : changesOnly F s0 s) :
    changesOnly F s0 (settleReport last e s) := by
  refine hs.trans (changesOnly.mono ?_ hF)
  clear hs hF
  unfold settleReport
  with_reducible repeat' first
    | assumption | exact changesOnly.refl _ _ | apply raiseBit_changes | apply changesOnly.iteL
    | apply changesOnly.ite | decide | split | apply changesOnly.set_jnl | (intro)

theorem settleSwaps_changes {F : List Part} {s0 : State} {s : State}
    (hF : Part.sub [.jnl, .regs, .bb, .nv] F = true) (hs : changesOnly F s0 s) :
    changesOnly F s0 (settleSwaps s) := by
  refine hs.trans (changesOnly.mono ?_ hF)
  clear hs hF
  unfold settleSwaps
  with_reducible repeat' first
    | assumption | exact changesOnly.refl _ _ | apply settleReport_changes | apply jClose_changes
    | apply changesOnly.foldl | apply changesOnly.iteL | apply changesOnly.ite | decide | split | (intro)

theorem applyImage_changes {F : List Part} {s0 : State} {i : Nat} {s : State}
    (hF : Part.sub [.regs, .img, .pair, .bb, .halls, .chans, .per, .convs, .ml, .curves, .eng, .mem, .clk, .nv, .jnl, .newest, .older, .str, .aud] F = true) (hs : changesOnly F s0 s) :
    changesOnly F s0 (applyImage i s) := by
  refine hs.trans (changesOnly.mono ?_ hF)
  clear hs hF
  unfold applyImage
  with_reducible repeat' first
    | assumption | exact changesOnly.refl _ _ | apply takeCopy_changes | apply soloRole_changes
    | apply startPorts_changes | apply takeImage_changes | apply startHall_changes | apply auditApplied_changes
    | apply settleSwaps_changes | apply forHalls_into | decide | apply changesOnly.set_clk | (intro)

theorem applyMlCfg_changes {F : List Part} {s0 : State} {w : Word} {s : State}
    (hF : Part.sub [.ml, .regs, .bb] F = true) (hs : changesOnly F s0 s) :
    changesOnly F s0 (applyMlCfg w s) := by
  refine hs.trans (changesOnly.mono ?_ hF)
  clear hs hF
  unfold applyMlCfg
  with_reducible repeat' first
    | assumption | exact changesOnly.refl _ _ | apply startPorts_changes | apply updMl_changes
    | apply changesOnly.iteL | apply changesOnly.ite | decide | split | (intro)

theorem periodReplan_changes {F : List Part} {s0 : State} {n : Nat} {s : State}
    (hF : Part.sub [.per] F = true) (hs : changesOnly F s0 s) :
    changesOnly F s0 (periodReplan n s) := by
  refine hs.trans (changesOnly.mono ?_ hF)
  clear hs hF
  unfold periodReplan
  with_reducible repeat' first
    | assumption | exact changesOnly.refl _ _ | apply updKind_changes | apply forN_into | decide | (intro)

theorem balOpen_changes {F : List Part} {s0 : State} {b : Nat} {s : State}
    (hF : Part.sub [.bal] F = true) (hs : changesOnly F s0 s) :
    changesOnly F s0 (balOpen b s) := by
  refine hs.trans (changesOnly.mono ?_ hF)
  clear hs hF
  unfold balOpen
  with_reducible repeat' first
    | assumption | exact changesOnly.refl _ _ | apply updBal_changes | decide

theorem wdPlan_changes {F : List Part} {s0 : State} {s : State}
    (hF : Part.sub [.wd] F = true) (hs : changesOnly F s0 s) :
    changesOnly F s0 (wdPlan s) := by
  refine hs.trans (changesOnly.mono ?_ hF)
  clear hs hF
  unfold wdPlan
  with_reducible repeat' first
    | assumption | exact changesOnly.refl _ _ | decide | apply changesOnly.set_wd

theorem applyRecords_changes {F : List Part} {s0 : State} {l : List Nat} {s : State}
    (hF : Part.sub [.per, .bal, .pair, .regs, .bb, .halls, .chans, .convs, .wd] F = true) (hs : changesOnly F s0 s) :
    changesOnly F s0 (applyRecords l s) := by
  refine hs.trans (changesOnly.mono ?_ hF)
  clear hs hF
  unfold applyRecords
  with_reducible repeat' first
    | assumption | exact changesOnly.refl _ _ | apply periodReplan_changes | apply updBal_changes
    | apply balOpen_changes | apply soloRole_changes | apply wdPlan_changes | apply forN_into
    | apply changesOnly.iteL | apply changesOnly.ite | decide | split | (intro)

theorem putSub_changes {F : List Part} {s0 : State} {slot : Nat} {v : Word} {s : State}
    (hF : Part.sub [.regs] F = true) (hs : changesOnly F s0 s) :
    changesOnly F s0 (putSub slot v s) := by
  refine hs.trans (changesOnly.mono ?_ hF)
  clear hs hF
  unfold putSub
  with_reducible repeat' first
    | assumption | exact changesOnly.refl _ _ | apply setReg_changes | apply changesOnly.iteL | apply changesOnly.ite
    | decide | split | (intro)

theorem moveSub_changes {F : List Part} {s0 : State} {old : State} {e : Nat} {s : State}
    (hF : Part.sub [.regs, .ml, .bb] F = true) (hs : changesOnly F s0 s) :
    changesOnly F s0 (moveSub old e s) := by
  refine hs.trans (changesOnly.mono ?_ hF)
  clear hs hF
  unfold moveSub
  with_reducible repeat' first
    | assumption | exact changesOnly.refl _ _ | apply putSub_changes | apply updMl_changes | apply mlEvent_changes
    | apply forN_into | apply changesOnly.iteL | apply changesOnly.ite | decide | split | (intro)

theorem applyRing_changes {F : List Part} {s0 : State} {old : State} {l : List Nat} {s : State}
    (hF : Part.sub [.ml, .regs, .bb] F = true) (hs : changesOnly F s0 s) :
    changesOnly F s0 (applyRing old l s) := by
  refine hs.trans (changesOnly.mono ?_ hF)
  clear hs hF
  unfold applyRing
  with_reducible repeat' first
    | assumption | exact changesOnly.refl _ _ | apply applyMlCfg_changes | apply moveSub_changes | apply forN_into
    | apply changesOnly.iteL | apply changesOnly.ite | decide | split | (intro)

theorem galCommit_changes {F : List Part} {s0 : State} {s : State}
    (hF : Part.sub [.nv, .jnl, .mem, .gal, .regs, .bb] F = true) (hs : changesOnly F s0 s) :
    changesOnly F s0 (galCommit s) := by
  refine hs.trans (changesOnly.mono ?_ hF)
  clear hs hF
  unfold galCommit
  with_reducible repeat' first
    | assumption | exact changesOnly.refl _ _ | apply galFlush_changes | apply updTier_changes | decide

theorem putWords_changes {F : List Part} {s0 : State} {ws : List (Nat × Word)} {s : State}
    (hF : Part.sub [.regs] F = true) (hs : changesOnly F s0 s) :
    changesOnly F s0 (putWords ws s) := by
  refine hs.trans (changesOnly.mono ?_ hF)
  clear hs hF
  unfold putWords
  with_reducible repeat' first
    | assumption | exact changesOnly.refl _ _ | apply setReg_changes | apply changesOnly.foldl | decide | (intro)

theorem oldModes_changes {F : List Part} {s0 : State} {ws : List (Nat × Word)} {s : State}
    (hF : Part.sub [.modes] F = true) (hs : changesOnly F s0 s) :
    changesOnly F s0 (oldModes ws s) := by
  refine hs.trans (changesOnly.mono ?_ hF)
  clear hs hF
  unfold oldModes
  with_reducible repeat' first
    | assumption | exact changesOnly.refl _ _ | apply forN_into | apply changesOnly.iteL | apply changesOnly.ite
    | decide | split | apply changesOnly.set_modes | (intro)

theorem applyWords_changes {F : List Part} {s0 : State} {ws : List (Nat × Word)} {held : List Nat} {s : State}
    (hF : Part.sub [.nv, .jnl, .mem, .gal, .regs, .bb, .runs, .aud, .eng, .modes, .convs, .newest, .older, .str, .halls, .chans, .per, .ml, .bal, .pair, .wd] F = true) (hs : changesOnly F s0 s) :
    changesOnly F s0 (applyWords ws held s) := by
  refine hs.trans (changesOnly.mono ?_ hF)
  clear hs hF
  unfold applyWords
  with_reducible repeat' first
    | assumption | exact changesOnly.refl _ _ | apply galCommit_changes | apply lateRuns_changes
    | apply putWords_changes | apply oldModes_changes | apply resetBuffer_changes | apply applyHall_changes
    | apply applyRuns_changes | apply applyRing_changes | apply applyRecords_changes | apply forN_into
    | apply forHalls_into | apply changesOnly.iteL | apply changesOnly.ite | decide | split
    | apply changesOnly.set_eng | (intro)

theorem askCarried_changes {F : List Part} {s0 : State} {s : State}
    (hF : Part.sub [.tx, .pair] F = true) (hs : changesOnly F s0 s) :
    changesOnly F s0 (askCarried s) := by
  refine hs.trans (changesOnly.mono ?_ hF)
  clear hs hF
  unfold askCarried
  with_reducible repeat' first
    | assumption | exact changesOnly.refl _ _ | apply pairSend_changes | apply updPair_changes
    | apply changesOnly.iteL | apply changesOnly.ite | decide | split | (intro)

theorem audRelease_changes {F : List Part} {s0 : State} {o : Origin} {n : Nat} {s : State}
    (hF : Part.sub [.regs, .bb, .mem, .aud] F = true) (hs : changesOnly F s0 s) :
    changesOnly F s0 (audRelease o n s) := by
  refine hs.trans (changesOnly.mono ?_ hF)
  clear hs hF
  unfold audRelease
  with_reducible repeat' first
    | assumption | exact changesOnly.refl _ _ | apply cfgClamp_changes | apply raiseBit_changes
    | apply audDrop_changes | apply audit_changes | apply changesOnly.iteL | apply changesOnly.ite | decide | split
    | apply changesOnly.set_aud | (intro)

theorem audUnread_changes {F : List Part} {s0 : State} {r : AudRec} {rest : List AudRec} {s : State}
    (hF : Part.sub [.mem, .regs, .bb, .aud] F = true) (hs : changesOnly F s0 s) :
    changesOnly F s0 (audUnread r rest s) := by
  refine hs.trans (changesOnly.mono ?_ hF)
  clear hs hF
  unfold audUnread
  with_reducible repeat' first
    | assumption | exact changesOnly.refl _ _ | apply retWritten_changes | apply eccSeen_changes
    | apply raiseBit_changes | apply audDrop_changes | decide | apply changesOnly.set_aud

theorem auditB_changes {F : List Part} {s0 : State} {o : Origin} {a : Nat} {d : RegDesc} {w : Word} {v : Word} {s : State}
    (hF : Part.sub [.mem, .aud, .regs, .bb] F = true) (hs : changesOnly F s0 s) :
    changesOnly F s0 (auditB o a d w v s) := by
  refine hs.trans (changesOnly.mono ?_ hF)
  clear hs hF
  unfold auditB
  with_reducible repeat' first
    | assumption | exact changesOnly.refl _ _ | apply audit_changes | apply changesOnly.iteL | apply changesOnly.ite
    | decide | split | (intro)

theorem backWords_changes {F : List Part} {s0 : State} {ws : List (Nat × Word)} {old : State} {s : State}
    (hF : Part.sub [.regs] F = true) (hs : changesOnly F s0 s) :
    changesOnly F s0 (backWords ws old s) := by
  refine hs.trans (changesOnly.mono ?_ hF)
  clear hs hF
  unfold backWords
  with_reducible repeat' first
    | assumption | exact changesOnly.refl _ _ | apply setReg_changes | apply changesOnly.foldl | decide | (intro)

theorem balOpenAll_changes {F : List Part} {s0 : State} {s : State}
    (hF : Part.sub [.bal] F = true) (hs : changesOnly F s0 s) :
    changesOnly F s0 (balOpenAll s) := by
  refine hs.trans (changesOnly.mono ?_ hF)
  clear hs hF
  unfold balOpenAll
  with_reducible repeat' first
    | assumption | exact changesOnly.refl _ _ | apply balOpen_changes | apply forN_into | apply changesOnly.iteL
    | apply changesOnly.ite | decide | split | (intro)

end Sys2Proof.Machine
end

