-- ==== Sys2Proof/Laws/Changes6.lean ====
section
/-! SUPPORT. What each shared operation changes at most: the parts of the state (part 7 of 12). -/

set_option linter.unusedTactic false
set_option linter.unreachableTactic false

namespace Sys2Proof.Machine

theorem balPublish_changes {F : List Part} {s0 : State} {s : State}
    (hF : Part.sub [.bal, .regs] F = true) (hs : changesOnly F s0 s) :
    changesOnly F s0 (balPublish s) := by
  refine hs.trans (changesOnly.mono ?_ hF)
  clear hs hF
  unfold balPublish
  with_reducible repeat' first
    | assumption | exact changesOnly.refl _ _ | apply updBal_changes | apply setReg_changes | apply forN_into
    | decide | split | (intro)

theorem balTryAll_changes {F : List Part} {s0 : State} {s : State}
    (hF : Part.sub [.regs, .bb, .bal] F = true) (hs : changesOnly F s0 s) :
    changesOnly F s0 (balTryAll s) := by
  refine hs.trans (changesOnly.mono ?_ hF)
  clear hs hF
  unfold balTryAll
  with_reducible repeat' first
    | assumption | exact changesOnly.refl _ _ | apply balTry_changes | apply forN_into | decide | (intro)

theorem beginFrame_changes {F : List Part} {s0 : State} {mode3 : Bool} {s : State}
    (hF : Part.sub [.regs, .hp] F = true) (hs : changesOnly F s0 s) :
    changesOnly F s0 (beginFrame mode3 s) := by
  refine hs.trans (changesOnly.mono ?_ hF)
  clear hs hF
  unfold beginFrame
  with_reducible repeat' first
    | assumption | exact changesOnly.refl _ _ | apply modReg_changes | decide | apply changesOnly.set_hp

theorem tcChecked_changes {F : List Part} {s0 : State} {s : State} {n : Nat} {a : Word} {b : Word}
    (hF : Part.sub [.chans] F = true) (hs : changesOnly F s0 s) :
    changesOnly F s0 (tcChecked s n a b) := by
  refine hs.trans (changesOnly.mono ?_ hF)
  clear hs hF
  unfold tcChecked
  with_reducible repeat' first
    | assumption | exact changesOnly.refl _ _ | apply ainFlag_changes | apply changesOnly.iteL
    | apply changesOnly.ite | decide | split | (intro)

theorem beginStep_changes {F : List Part} {s0 : State} {n : Nat} {inj : Bool} {i : Nat} {done : Nat} {t16 : Nat} {s : State}
    (hF : Part.sub [.halls, .convs, .chans] F = true) (hs : changesOnly F s0 s) :
    changesOnly F s0 (beginStep n inj i done t16 s) := by
  refine hs.trans (changesOnly.mono ?_ hF)
  clear hs hF
  unfold beginStep
  with_reducible repeat' first
    | assumption | exact changesOnly.refl _ _ | apply updHall_changes | apply applyExc_changes
    | apply updConv_changes | apply tcChecked_changes | apply changesOnly.iteL | apply changesOnly.ite | decide
    | split | (intro)

theorem bothRun_changes {F : List Part} {s0 : State} {old : Nat} {s : State}
    (hF : Part.sub [.regs, .bb, .mem, .aud] F = true) (hs : changesOnly F s0 s) :
    changesOnly F s0 (bothRun old s) := by
  refine hs.trans (changesOnly.mono ?_ hF)
  clear hs hF
  unfold bothRun
  with_reducible repeat' first
    | assumption | exact changesOnly.refl _ _ | apply raiseBit_changes | apply audit_changes | decide

theorem busyAnswer_changes {F : List Part} {s0 : State} {src : Nat} {e : AcyIn} {s : State}
    (hF : Part.sub [.ml] F = true) (hs : changesOnly F s0 s) :
    changesOnly F s0 (busyAnswer src e s) := by
  refine hs.trans (changesOnly.mono ?_ hF)
  clear hs hF
  unfold busyAnswer
  with_reducible repeat' first
    | assumption | exact changesOnly.refl _ _ | apply acyPush_changes | apply changesOnly.iteL
    | apply changesOnly.ite | decide | split | (intro)

theorem capUnread_changes {F : List Part} {s0 : State} {c : CapRec} {s : State}
    (hF : Part.sub [.regs, .bb, .mem, .nv, .jnl, .gal] F = true) (hs : changesOnly F s0 s) :
    changesOnly F s0 (capUnread c s) := by
  refine hs.trans (changesOnly.mono ?_ hF)
  clear hs hF
  unfold capUnread
  with_reducible repeat' first
    | assumption | exact changesOnly.refl _ _ | apply galDrop_changes | apply retWritten_changes
    | apply eccSeen_changes | apply capDrop_changes | decide | split | apply changesOnly.set_gal

theorem capSound_changes {F : List Part} {s0 : State} {s : State}
    (hF : Part.sub [.regs, .bb, .mem, .nv, .jnl, .gal] F = true) (hs : changesOnly F s0 s) :
    changesOnly F s0 (capSound s) := by
  refine hs.trans (changesOnly.mono ?_ hF)
  clear hs hF
  unfold capSound
  with_reducible repeat' first
    | assumption | exact changesOnly.refl _ _ | apply capUnread_changes | apply changesOnly.foldl
    | apply changesOnly.iteL | apply changesOnly.ite | decide | split | (intro)

theorem cfgDiverged_changes {F : List Part} {s0 : State} {s : State}
    (hF : Part.sub [.regs, .bb, .pair] F = true) (hs : changesOnly F s0 s) :
    changesOnly F s0 (cfgDiverged s) := by
  refine hs.trans (changesOnly.mono ?_ hF)
  clear hs hF
  unfold cfgDiverged
  with_reducible repeat' first
    | assumption | exact changesOnly.refl _ _ | apply pairEvent_changes | apply updPair_changes
    | apply changesOnly.iteL | apply changesOnly.ite | decide | split | (intro)

theorem chOutWrite_changes {F : List Part} {s0 : State} {h : Nat} {c : Nat} {s : State}
    (hF : Part.sub [.regs, .bb, .halls, .chans, .per] F = true) (hs : changesOnly F s0 s) :
    changesOnly F s0 (chOutWrite h c s) := by
  refine hs.trans (changesOnly.mono ?_ hF)
  clear hs hF
  unfold chOutWrite
  with_reducible repeat' first
    | assumption | exact changesOnly.refl _ _ | apply report_changes | apply applyCommand_changes
    | apply changesOnly.iteL | apply changesOnly.ite | decide | split | (intro)

theorem chStateAt_changes {F : List Part} {s0 : State} {time : Nat} {h : Nat} {c : Nat} {b : Bool} {s : State}
    (hF : Part.sub [.chans] F = true) (hs : changesOnly F s0 s) :
    changesOnly F s0 (chStateAt time h c b s) := by
  refine hs.trans (changesOnly.mono ?_ hF)
  clear hs hF
  unfold chStateAt
  with_reducible repeat' first
    | assumption | exact changesOnly.refl _ _ | apply updChan_changes | apply changesOnly.iteL
    | apply changesOnly.ite | decide | split | (intro)

theorem chState_changes {F : List Part} {s0 : State} {h : Nat} {c : Nat} {b : Bool} {s : State}
    (hF : Part.sub [.chans] F = true) (hs : changesOnly F s0 s) :
    changesOnly F s0 (chState h c b s) := by
  refine hs.trans (changesOnly.mono ?_ hF)
  clear hs hF
  unfold chState
  with_reducible repeat' first
    | assumption | exact changesOnly.refl _ _ | apply chStateAt_changes | decide

theorem updChip_changes {F : List Part} {s0 : State} {i : Nat} {f : NvChip → NvChip} {s : State}
    (hF : Part.sub [.nv] F = true) (hs : changesOnly F s0 s) :
    changesOnly F s0 (updChip i f s) := by
  refine hs.trans (changesOnly.mono ?_ hF)
  clear hs hF
  unfold updChip
  with_reducible repeat' first
    | assumption | exact changesOnly.refl _ _ | apply changesOnly.iteL | apply changesOnly.ite | decide | split
    | apply changesOnly.set_nv | (intro)

theorem failChip_changes {F : List Part} {s0 : State} {i : Nat} {s : State}
    (hF : Part.sub [.regs, .bb, .nv] F = true) (hs : changesOnly F s0 s) :
    changesOnly F s0 (failChip i s) := by
  refine hs.trans (changesOnly.mono ?_ hF)
  clear hs hF
  unfold failChip
  with_reducible repeat' first
    | assumption | exact changesOnly.refl _ _ | apply raiseBit_changes | apply updChip_changes
    | apply changesOnly.iteL | apply changesOnly.ite | decide | split | apply changesOnly.set_nv | (intro)

theorem chipResult_changes {F : List Part} {s0 : State} {i : Nat} {ok : Bool} {s : State}
    (hF : Part.sub [.nv, .regs, .bb] F = true) (hs : changesOnly F s0 s) :
    changesOnly F s0 (chipResult i ok s) := by
  refine hs.trans (changesOnly.mono ?_ hF)
  clear hs hF
  unfold chipResult
  with_reducible repeat' first
    | assumption | exact changesOnly.refl _ _ | apply updChip_changes | apply failChip_changes
    | apply changesOnly.iteL | apply changesOnly.ite | decide | split | (intro)

theorem ckptBegin_changes {F : List Part} {s0 : State} {m : Nat} {c : TotCopy} {commit : Bool} {op : Nat} {s : State}
    (hF : Part.sub [.nv, .jnl, .mem, .gal] F = true) (hs : changesOnly F s0 s) :
    changesOnly F s0 (ckptBegin m c commit op s) := by
  refine hs.trans (changesOnly.mono ?_ hF)
  clear hs hF
  unfold ckptBegin
  with_reducible repeat' first
    | assumption | exact changesOnly.refl _ _ | apply jOpen_changes | apply ringPut_changes | apply pushJob_changes
    | apply changesOnly.iteL | apply changesOnly.ite | decide | split | (intro)

theorem shadowWrite_changes {F : List Part} {s0 : State} {m : Nat} {s : State}
    (hF : Part.sub [.mem, .runs] F = true) (hs : changesOnly F s0 s) :
    changesOnly F s0 (shadowWrite m s) := by
  refine hs.trans (changesOnly.mono ?_ hF)
  clear hs hF
  unfold shadowWrite
  with_reducible repeat' first
    | assumption | exact changesOnly.refl _ _ | apply retWritten_changes | apply updRun_changes | decide | split

theorem ckptTick_changes {F : List Part} {s0 : State} {n : Nat} {s : State}
    (hF : Part.sub [.mem, .runs, .nv, .jnl, .gal] F = true) (hs : changesOnly F s0 s) :
    changesOnly F s0 (ckptTick n s) := by
  refine hs.trans (changesOnly.mono ?_ hF)
  clear hs hF
  unfold ckptTick
  with_reducible repeat' first
    | assumption | exact changesOnly.refl _ _ | apply shadowWrite_changes | apply ckptBegin_changes | apply forN_into
    | apply changesOnly.iteL | apply changesOnly.ite | decide | split | (intro)

theorem ckptsBegin_changes {F : List Part} {s0 : State} {op : Nat} {recs : List (List Byte)} {s : State}
    (hF : Part.sub [.nv, .jnl, .mem, .gal] F = true) (hs : changesOnly F s0 s) :
    changesOnly F s0 (ckptsBegin op recs s) := by
  refine hs.trans (changesOnly.mono ?_ hF)
  clear hs hF
  unfold ckptsBegin
  with_reducible repeat' first
    | assumption | exact changesOnly.refl _ _ | apply ckptBegin_changes | apply changesOnly.foldl | decide | split
    | (intro)

theorem clampNote_changes {F : List Part} {s0 : State} {a : Nat} {before : Word} {after : Word} {s : State}
    (hF : Part.sub [.regs, .bb] F = true) (hs : changesOnly F s0 s) :
    changesOnly F s0 (clampNote a before after s) := by
  refine hs.trans (changesOnly.mono ?_ hF)
  clear hs hF
  unfold clampNote
  with_reducible repeat' first
    | assumption | exact changesOnly.refl _ _ | apply cfgClamp_changes | apply changesOnly.iteL
    | apply changesOnly.ite | decide | split | (intro)

theorem startRamp_changes {F : List Part} {s0 : State} {h : Nat} {c : Nat} {v : Nat} {rank : Nat} {s : State}
    (hF : Part.sub [.chans] F = true) (hs : changesOnly F s0 s) :
    changesOnly F s0 (startRamp h c v rank s) := by
  refine hs.trans (changesOnly.mono ?_ hF)
  clear hs hF
  unfold startRamp
  with_reducible repeat' first
    | assumption | exact changesOnly.refl _ _ | apply updChan_changes | apply chFlag_changes | apply changesOnly.iteL
    | apply changesOnly.ite | decide | split | (intro)

theorem leaveSafe_changes {F : List Part} {s0 : State} {l : Latch} {h : Nat} {c : Nat} {s : State}
    (hF : Part.sub [.chans] F = true) (hs : changesOnly F s0 s) :
    changesOnly F s0 (leaveSafe l h c s) := by
  refine hs.trans (changesOnly.mono ?_ hF)
  clear hs hF
  unfold leaveSafe
  with_reducible repeat' first
    | assumption | exact changesOnly.refl _ _ | apply resolve_changes | apply chFlag_changes | apply updChan_changes
    | apply startRamp_changes | apply changesOnly.iteL | apply changesOnly.ite | decide | split | (intro)

theorem leaveAll_changes {F : List Part} {s0 : State} {l : Latch} {h : Nat} {s : State}
    (hF : Part.sub [.halls, .chans] F = true) (hs : changesOnly F s0 s) :
    changesOnly F s0 (leaveAll l h s) := by
  refine hs.trans (changesOnly.mono ?_ hF)
  clear hs hF
  unfold leaveAll
  with_reducible repeat' first
    | assumption | exact changesOnly.refl _ _ | apply updHall_changes | apply updChan_changes | apply resolve_changes
    | apply leaveSafe_changes | apply forChans_into | decide | (intro)

theorem forceSafe_changes {F : List Part} {s0 : State} {h : Nat} {b : Bool} {s : State}
    (hF : Part.sub [.regs, .bb, .halls, .chans, .per] F = true) (hs : changesOnly F s0 s) :
    changesOnly F s0 (forceSafe h b s) := by
  refine hs.trans (changesOnly.mono ?_ hF)
  clear hs hF
  unfold forceSafe
  with_reducible repeat' first
    | assumption | exact changesOnly.refl _ _ | apply report_changes | apply resolveAll_changes
    | apply hallFlag_changes | apply leaveAll_changes | apply changesOnly.iteL | apply changesOnly.ite | decide
    | split | (intro)

theorem poutWrite_changes {F : List Part} {s0 : State} {m : Nat} {j : Nat} {before : Word × Word} {s : State}
    (hF : Part.sub [.eng, .regs, .bb] F = true) (hs : changesOnly F s0 s) :
    changesOnly F s0 (poutWrite m j before s) := by
  refine hs.trans (changesOnly.mono ?_ hF)
  clear hs hF
  unfold poutWrite
  with_reducible repeat' first
    | assumption | exact changesOnly.refl _ _ | apply cfgClamp_changes | apply setReg_changes
    | apply changesOnly.iteL | apply changesOnly.ite | decide | split | apply changesOnly.set_eng | (intro)

theorem syncOutOff_changes {F : List Part} {s0 : State} {s : State}
    (hF : Part.sub [.sync, .pins] F = true) (hs : changesOnly F s0 s) :
    changesOnly F s0 (syncOutOff s) := by
  refine hs.trans (changesOnly.mono ?_ hF)
  clear hs hF
  unfold syncOutOff
  repeat' first
    | exact Or.inr (by decide) | with_reducible exact Or.inl rfl | with_reducible assumption
    | with_reducible exact changesOnly.refl _ _ | with_reducible apply changesOnly.iteL
    | with_reducible apply changesOnly.ite | decide | split | with_reducible (intro)
    | with_reducible apply changesOnly.mk

theorem classB_changes {F : List Part} {s0 : State} {a : Nat} {before : Word × Word} {s : State}
    (hF : Part.sub [.regs, .bb, .halls, .chans, .per, .eng, .sync, .pins, .ml] F = true) (hs : changesOnly F s0 s) :
    changesOnly F s0 (classB a before s) := by
  refine hs.trans (changesOnly.mono ?_ hF)
  clear hs hF
  unfold classB
  with_reducible repeat' first
    | assumption | exact changesOnly.refl _ _ | apply chOutWrite_changes | apply forceSafe_changes
    | apply report_changes | apply resolveAll_changes | apply copyWord_changes | apply poutWrite_changes
    | apply syncOutOff_changes | apply updMl_changes | apply changesOnly.iteL | apply changesOnly.ite | decide
    | split | (intro)

theorem nameStream_changes {F : List Part} {s0 : State} {k : Nat} {s : State}
    (hF : Part.sub [.str] F = true) (hs : changesOnly F s0 s) :
    changesOnly F s0 (nameStream k s) := by
  refine hs.trans (changesOnly.mono ?_ hF)
  clear hs hF
  unfold nameStream
  with_reducible repeat' first
    | assumption | exact changesOnly.refl _ _ | apply changesOnly.iteL | apply changesOnly.ite | decide | split
    | apply changesOnly.set_str | (intro)

theorem seekTo_changes {F : List Part} {s0 : State} {k : Nat} {p : Nat} {s : State}
    (hF : Part.sub [.str, .regs, .bb] F = true) (hs : changesOnly F s0 s) :
    changesOnly F s0 (seekTo k p s) := by
  refine hs.trans (changesOnly.mono ?_ hF)
  clear hs hF
  unfold seekTo
  with_reducible repeat' first
    | assumption | exact changesOnly.refl _ _ | apply setStrPos_changes | apply cfgClamp_changes
    | apply changesOnly.iteL | apply changesOnly.ite | decide | split | (intro)

theorem imgSeek_changes {F : List Part} {s0 : State} {v : Nat} {s : State}
    (hF : Part.sub [.img, .gal, .regs, .nv, .bb, .jnl] F = true) (hs : changesOnly F s0 s) :
    changesOnly F s0 (imgSeek v s) := by
  refine hs.trans (changesOnly.mono ?_ hF)
  clear hs hF
  unfold imgSeek
  with_reducible repeat' first
    | assumption | exact changesOnly.refl _ _ | apply updImg_changes | apply pageFlush_changes
    | apply changesOnly.iteL | apply changesOnly.ite | decide | split | (intro)

theorem classC_changes {F : List Part} {s0 : State} {o : Origin} {a : Nat} {w : Word} {s : State}
    (hF : Part.sub [.str, .regs, .bb, .mem, .aud, .img, .gal, .nv, .jnl] F = true) (hs : changesOnly F s0 s) :
    changesOnly F s0 (classC o a w s) := by
  refine hs.trans (changesOnly.mono ?_ hF)
  clear hs hF
  unfold classC
  with_reducible repeat' first
    | assumption | exact changesOnly.refl _ _ | apply nameStream_changes | apply setReg_changes
    | apply seekTo_changes | apply audRelease_changes | apply imgSeek_changes | decide | split
    | apply changesOnly.set_str

theorem clearDeliveries_changes {F : List Part} {s0 : State} {s : State}
    (hF : Part.sub [.chans] F = true) (hs : changesOnly F s0 s) :
    changesOnly F s0 (clearDeliveries s) := by
  refine hs.trans (changesOnly.mono ?_ hF)
  clear hs hF
  unfold clearDeliveries
  with_reducible repeat' first
    | assumption | exact changesOnly.refl _ _ | apply updChan_changes | apply forHalls_into | apply forChans_into
    | apply changesOnly.iteL | apply changesOnly.ite | decide | split | (intro)

theorem countWrite_changes {F : List Part} {s0 : State} {s : State}
    (hF : Part.sub [.aud] F = true) (hs : changesOnly F s0 s) :
    changesOnly F s0 (countWrite s) := by
  refine hs.trans (changesOnly.mono ?_ hF)
  clear hs hF
  unfold countWrite
  with_reducible repeat' first
    | assumption | exact changesOnly.refl _ _ | decide | apply changesOnly.set_aud

theorem forwardWrite_changes {F : List Part} {s0 : State} {o : Origin} {d : RegDesc} {a : Nat} {mask : Word} {v : Word} {s : State}
    (hF : Part.sub [.tx, .pair] F = true) (hs : changesOnly F s0 s) :
    changesOnly F s0 (forwardWrite o d a mask v s) := by
  refine hs.trans (changesOnly.mono ?_ hF)
  clear hs hF
  unfold forwardWrite
  with_reducible repeat' first
    | assumption | exact changesOnly.refl _ _ | apply forward_changes | apply changesOnly.iteL
    | apply changesOnly.ite | decide | split | (intro)

theorem writeReg_changes {F : List Part} {s0 : State} {o : Origin} {a : Nat} {mask : Word} {v : Word} {pres : Option Nat} {s : State}
    (hF : Part.sub [.regs, .bb, .stg, .aud, .mem, .tx, .pair, .halls, .chans, .per, .convs, .str, .sync, .ml, .wd, .img, .free, .time, .modes, .clk, .jnl, .nv, .gal, .newest, .older, .eng, .pins] F = true) (hs : changesOnly F s0 s) :
    changesOnly F s0 (writeReg o a mask v pres s).1 := by
  refine hs.trans (changesOnly.mono ?_ hF)
  clear hs hF
  unfold writeReg
  repeat' first
    | with_reducible assumption | with_reducible exact changesOnly.refl _ _ | with_reducible apply hoRefused_changes
    | with_reducible apply updStg_changes | with_reducible apply clampNote_changes
    | with_reducible apply countWrite_changes | with_reducible apply auditB_changes
    | with_reducible apply forwardWrite_changes | with_reducible apply action_changes
    | with_reducible apply classB_changes | with_reducible apply setReg_changes | with_reducible apply classC_changes
    | with_reducible apply modReg_changes | with_reducible apply takeFree_changes
    | with_reducible apply changesOnly.iteL | with_reducible apply changesOnly.ite | decide | split
    | with_reducible (intro) | dsimp only

theorem hostRefused_changes {F : List Part} {s0 : State} {reason : Nat} {a : Nat} {s : State}
    (hF : Part.sub [.regs, .bb, .hp] F = true) (hs : changesOnly F s0 s) :
    changesOnly F s0 (hostRefused reason a s) := by
  refine hs.trans (changesOnly.mono ?_ hF)
  clear hs hF
  unfold hostRefused
  with_reducible repeat' first
    | assumption | exact changesOnly.refl _ _ | apply setReg_changes | apply raiseBit_changes
    | apply changesOnly.iteL | apply changesOnly.ite | decide | split | apply changesOnly.set_hp | (intro)

theorem cmdWrite_changes {F : List Part} {s0 : State} {o : Origin} {a : Nat} {mask : Word} {v : Word} {pres : Option Nat} {s : State}
    (hF : Part.sub [.regs, .bb, .stg, .aud, .mem, .tx, .pair, .halls, .chans, .per, .convs, .str, .sync, .ml, .wd, .img, .free, .time, .modes, .clk, .jnl, .nv, .gal, .newest, .older, .eng, .pins, .hp] F = true) (hs : changesOnly F s0 s) :
    changesOnly F s0 (cmdWrite o a mask v pres s) := by
  refine hs.trans (changesOnly.mono ?_ hF)
  clear hs hF
  unfold cmdWrite
  extract_lets x0
  with_reducible repeat' first
    | assumption | exact changesOnly.refl _ _ | apply writeReg_changes | apply hostRefused_changes
    | apply changesOnly.iteL | apply changesOnly.ite | decide | split | (intro)

theorem codeFlags_changes {F : List Part} {s0 : State} {h : Nat} {c : Nat} {code : Word} {gain : Nat} {s : State}
    (hF : Part.sub [.chans] F = true) (hs : changesOnly F s0 s) :
    changesOnly F s0 (codeFlags h c code gain s) := by
  refine hs.trans (changesOnly.mono ?_ hF)
  clear hs hF
  unfold codeFlags
  with_reducible repeat' first
    | assumption | exact changesOnly.refl _ _ | apply ainFlag_changes | apply changesOnly.iteL
    | apply changesOnly.ite | decide | split | (intro)

theorem coldJunctions_changes {F : List Part} {s0 : State} {s : State}
    (hF : Part.sub [.regs, .bb, .halls, .chans, .per] F = true) (hs : changesOnly F s0 s) :
    changesOnly F s0 (coldJunctions s) := by
  refine hs.trans (changesOnly.mono ?_ hF)
  clear hs hF
  unfold coldJunctions
  with_reducible repeat' first
    | assumption | exact changesOnly.refl _ _ | apply report_changes | apply ainFlag_changes | apply forHalls_into
    | apply forChans_into | apply changesOnly.iteL | apply changesOnly.ite | decide | split | (intro)

theorem commitAudit_changes {F : List Part} {s0 : State} {s : State}
    (hF : Part.sub [.mem, .aud, .regs, .bb] F = true) (hs : changesOnly F s0 s) :
    changesOnly F s0 (commitAudit s) := by
  refine hs.trans (changesOnly.mono ?_ hF)
  clear hs hF
  unfold commitAudit
  with_reducible repeat' first
    | assumption | exact changesOnly.refl _ _ | apply audit_changes | apply changesOnly.foldl | decide | (intro)

theorem commitCapture_changes {F : List Part} {s0 : State} {s : State}
    (hF : Part.sub [.mem, .gal, .regs, .bb, .nv, .jnl] F = true) (hs : changesOnly F s0 s) :
    changesOnly F s0 (commitCapture s) := by
  refine hs.trans (changesOnly.mono ?_ hF)
  clear hs hF
  unfold commitCapture
  with_reducible repeat' first
    | assumption | exact changesOnly.refl _ _ | apply capPut_changes | apply eccSeen_changes
    | apply ckptBegin_changes | apply changesOnly.foldl | apply changesOnly.iteL | apply changesOnly.ite | decide
    | split | (intro)

theorem commitApply_changes {F : List Part} {s0 : State} {s : State}
    (hF : Part.sub [.mem, .aud, .regs, .bb, .jnl, .nv, .gal, .runs, .eng, .modes, .convs, .newest, .older, .str, .halls, .chans, .per, .ml, .bal, .pair, .wd, .stg] F = true) (hs : changesOnly F s0 s) :
    changesOnly F s0 (commitApply s) := by
  refine hs.trans (changesOnly.mono ?_ hF)
  clear hs hF
  unfold commitApply
  with_reducible repeat' first
    | assumption | exact changesOnly.refl _ _ | apply commitAudit_changes | apply bbEvent_changes
    | apply jStep_changes | apply jMod_changes | apply applyWords_changes | apply commitCapture_changes
    | apply updStg_changes | apply raiseBit_changes | decide | apply changesOnly.set_aud

theorem commitForward_changes {F : List Part} {s0 : State} {s : State}
    (hF : Part.sub [.tx, .pair] F = true) (hs : changesOnly F s0 s) :
    changesOnly F s0 (commitForward s) := by
  refine hs.trans (changesOnly.mono ?_ hF)
  clear hs hF
  unfold commitForward
  with_reducible repeat' first
    | assumption | exact changesOnly.refl _ _ | apply forward_changes | apply changesOnly.iteL
    | apply changesOnly.ite | decide | split | (intro)

theorem commitRefused_changes {F : List Part} {s0 : State} {r : Nat × Nat} {s : State}
    (hF : Part.sub [.regs, .bb, .stg] F = true) (hs : changesOnly F s0 s) :
    changesOnly F s0 (commitRefused r s) := by
  refine hs.trans (changesOnly.mono ?_ hF)
  clear hs hF
  unfold commitRefused
  with_reducible repeat' first
    | assumption | exact changesOnly.refl _ _ | apply raiseBit_changes | apply updStg_changes | decide

theorem commitLate_changes {F : List Part} {s0 : State} {s : State}
    (hF : Part.sub [.regs, .bb, .stg, .jnl, .nv, .pair] F = true) (hs : changesOnly F s0 s) :
    changesOnly F s0 (commitLate s) := by
  refine hs.trans (changesOnly.mono ?_ hF)
  clear hs hF
  unfold commitLate
  with_reducible repeat' first
    | assumption | exact changesOnly.refl _ _ | apply commitRefused_changes | apply jClose_changes
    | apply cfgDiverged_changes | apply changesOnly.iteL | apply changesOnly.ite | decide | split | (intro)

theorem commitOpen_changes {F : List Part} {s0 : State} {s : State}
    (hF : Part.sub [.tx, .pair, .stg, .nv, .jnl, .mem] F = true) (hs : changesOnly F s0 s) :
    changesOnly F s0 (commitOpen s) := by
  refine hs.trans (changesOnly.mono ?_ hF)
  clear hs hF
  unfold commitOpen
  with_reducible repeat' first
    | assumption | exact changesOnly.refl _ _ | apply commitForward_changes | apply updStg_changes
    | apply jOpen_changes | decide

theorem complFlags_changes {F : List Part} {s0 : State} {h : Nat} {x : Sample} {s : State}
    (hF : Part.sub [.halls] F = true) (hs : changesOnly F s0 s) :
    changesOnly F s0 (complFlags h x s) := by
  refine hs.trans (changesOnly.mono ?_ hF)
  clear hs hF
  unfold complFlags
  with_reducible repeat' first
    | assumption | exact changesOnly.refl _ _ | apply excFlag_changes | decide

theorem pulseOut_changes {F : List Part} {s0 : State} {m : Nat} {q : Nat × Nat × Nat} {alarm : Bool} {s : State}
    (hF : Part.sub [.runs, .regs] F = true) (hs : changesOnly F s0 s) :
    changesOnly F s0 (pulseOut m q alarm s).1 := by
  refine hs.trans (changesOnly.mono ?_ hF)
  clear hs hF
  unfold pulseOut
  with_reducible repeat' first
    | assumption | exact changesOnly.refl _ _ | apply updRun_changes | apply setReg_changes | apply modReg_changes
    | apply changesOnly.iteL | apply changesOnly.ite | decide | split | (intro)

theorem totalize_changes {F : List Part} {s0 : State} {m : Nat} {tick : Nat} {q : (Nat × Nat × Nat) × Bool} {alarm : Bool} {s : State}
    (hF : Part.sub [.mem, .runs, .regs, .bb] F = true) (hs : changesOnly F s0 s) :
    changesOnly F s0 (totalize m tick q alarm s) := by
  refine hs.trans (changesOnly.mono ?_ hF)
  clear hs hF
  unfold totalize
  with_reducible repeat' first
    | assumption | exact changesOnly.refl _ _ | apply liveWrite_changes | apply updRun_changes
    | apply raiseBit_changes | apply markRun_changes | apply changesOnly.iteL | apply changesOnly.ite | decide
    | split | (intro)

end Sys2Proof.Machine
end

