-- ==== Sys2Proof/Laws/Changes7.lean ====
section
/-! SUPPORT. What each shared operation changes at most: the parts of the state (part 8 of 12). -/

set_option linter.unusedTactic false
set_option linter.unreachableTactic false

namespace Sys2Proof.Machine

theorem runStatus_changes {F : List Part} {s0 : State} {m : Nat} {w : Word} {again : Word} {s : State}
    (hF : Part.sub [.regs, .bb] F = true) (hs : changesOnly F s0 s) :
    changesOnly F s0 (runStatus m w again s) := by
  refine hs.trans (changesOnly.mono ?_ hF)
  clear hs hF
  unfold runStatus
  with_reducible repeat' first
    | assumption | exact changesOnly.refl _ _ | apply raiseEvt_changes | apply setReg_changes | decide

theorem runCycles_changes {F : List Part} {s0 : State} {m : Nat} {cycles : Nat} {completed : Bool} {s : State}
    (hF : Part.sub [.regs] F = true) (hs : changesOnly F s0 s) :
    changesOnly F s0 (runCycles m cycles completed s) := by
  refine hs.trans (changesOnly.mono ?_ hF)
  clear hs hF
  unfold runCycles
  with_reducible repeat' first
    | assumption | exact changesOnly.refl _ _ | apply modReg_changes | apply changesOnly.iteL | apply changesOnly.ite
    | decide | split | (intro)

theorem completeRun_changes {F : List Part} {s0 : State} {m : Nat} {cycles : Nat} {o : RunOut} {f : Option (Nat × Bool)} {i : Option (Nat × Bool)} {s : State}
    (hF : Part.sub [.runs, .regs, .mem, .bb, .bal, .gal] F = true) (hs : changesOnly F s0 s) :
    changesOnly F s0 (completeRun m cycles o f i s) := by
  refine hs.trans (changesOnly.mono ?_ hF)
  clear hs hF
  unfold completeRun
  with_reducible repeat' first
    | assumption | exact changesOnly.refl _ _ | apply updRun_changes | apply pulseOut_changes
    | apply totalize_changes | apply runStatus_changes | apply runCycles_changes | apply setReg_changes
    | apply afterRun_changes | apply forN_into | apply changesOnly.iteL | apply changesOnly.ite | decide | split
    | (intro)

theorem configCommit_changes {F : List Part} {s0 : State} {v : Nat} {s : State}
    (hF : Part.sub [.stg, .nv, .jnl, .mem] F = true) (hs : changesOnly F s0 s) :
    changesOnly F s0 (configCommit v s) := by
  refine hs.trans (changesOnly.mono ?_ hF)
  clear hs hF
  unfold configCommit
  with_reducible repeat' first
    | assumption | exact changesOnly.refl _ _ | apply updStg_changes | apply jOpen_changes | apply changesOnly.iteL
    | apply changesOnly.ite | decide | split | (intro)

theorem configWrite_changes {F : List Part} {s0 : State} {a : Nat} {mask : Word} {value : Word} {s : State}
    (hF : Part.sub [.regs, .bb, .stg, .aud, .mem, .tx, .pair, .halls, .chans, .per, .convs, .str, .sync, .ml, .wd, .img, .free, .time, .modes, .clk, .jnl, .nv, .gal, .newest, .older, .eng, .pins] F = true) (hs : changesOnly F s0 s) :
    changesOnly F s0 (configWrite a mask value s) := by
  refine hs.trans (changesOnly.mono ?_ hF)
  clear hs hF
  unfold configWrite
  repeat' first
    | with_reducible assumption | with_reducible exact changesOnly.refl _ _ | with_reducible apply writeReg_changes
    | with_reducible apply cfgDiverged_changes | decide | split | dsimp only

theorem tellStaged_changes {F : List Part} {s0 : State} {s : State}
    (hF : Part.sub [.tx, .pair] F = true) (hs : changesOnly F s0 s) :
    changesOnly F s0 (tellStaged s) := by
  refine hs.trans (changesOnly.mono ?_ hF)
  clear hs hF
  unfold tellStaged
  with_reducible repeat' first
    | assumption | exact changesOnly.refl _ _ | apply pairSend_changes | decide

theorem configItem_changes {F : List Part} {s0 : State} {b : List Byte} {s : State}
    (hF : Part.sub [.regs, .bb, .stg, .aud, .mem, .tx, .pair, .halls, .chans, .per, .convs, .str, .sync, .ml, .wd, .img, .free, .time, .modes, .clk, .jnl, .nv, .gal, .newest, .older, .eng, .pins] F = true) (hs : changesOnly F s0 s) :
    changesOnly F s0 (configItem b s) := by
  refine hs.trans (changesOnly.mono ?_ hF)
  clear hs hF
  unfold configItem
  extract_lets x0 x1
  with_reducible repeat' first
    | assumption | exact changesOnly.refl _ _ | apply configWrite_changes | apply tellStaged_changes
    | apply configCommit_changes | apply stgAbandon_changes | apply updStg_changes | decide | split

theorem configItems_changes {F : List Part} {s0 : State} {b : List Byte} {s : State}
    (hF : Part.sub [.regs, .bb, .stg, .aud, .mem, .tx, .pair, .halls, .chans, .per, .convs, .str, .sync, .ml, .wd, .img, .free, .time, .modes, .clk, .jnl, .nv, .gal, .newest, .older, .eng, .pins] F = true) (hs : changesOnly F s0 s) :
    changesOnly F s0 (configItems b s) := by
  refine hs.trans (changesOnly.mono ?_ hF)
  clear hs hF
  unfold configItems
  with_reducible repeat' first
    | assumption | exact changesOnly.refl _ _ | apply configItem_changes | apply forN_into | decide | (intro)

theorem confirmRing_changes {F : List Part} {s0 : State} {r : Nat} {s : State}
    (hF : Part.sub [.gal] F = true) (hs : changesOnly F s0 s) :
    changesOnly F s0 (confirmRing r s) := by
  refine hs.trans (changesOnly.mono ?_ hF)
  clear hs hF
  unfold confirmRing
  with_reducible repeat' first
    | assumption | exact changesOnly.refl _ _ | apply updRing_changes | apply changesOnly.iteL
    | apply changesOnly.ite | decide | split | (intro)

theorem confirmRings_changes {F : List Part} {s0 : State} {s : State}
    (hF : Part.sub [.gal] F = true) (hs : changesOnly F s0 s) :
    changesOnly F s0 (confirmRings s) := by
  refine hs.trans (changesOnly.mono ?_ hF)
  clear hs hF
  unfold confirmRings
  with_reducible repeat' first
    | assumption | exact changesOnly.refl _ _ | apply confirmRing_changes | apply forN_into | apply changesOnly.iteL
    | apply changesOnly.ite | decide | split | (intro)

theorem copyPoints_changes {F : List Part} {s0 : State} {src : Nat} {l : List (Nat × List Word)} {s : State}
    (hF : Part.sub [.regs, .ml] F = true) (hs : changesOnly F s0 s) :
    changesOnly F s0 (copyPoints src l s) := by
  refine hs.trans (changesOnly.mono ?_ hF)
  clear hs hF
  unfold copyPoints
  with_reducible repeat' first
    | assumption | exact changesOnly.refl _ _ | apply putSub_changes | apply updMl_changes | apply forN_into
    | apply changesOnly.iteL | apply changesOnly.ite | decide | split | (intro)

theorem countEdge_changes {F : List Part} {s0 : State} {h : Nat} {c : Nat} {n : Nat} {k : Nat} {time : Nat} {s : State}
    (hF : Part.sub [.chans] F = true) (hs : changesOnly F s0 s) :
    changesOnly F s0 (countEdge h c n k time s) := by
  refine hs.trans (changesOnly.mono ?_ hF)
  clear hs hF
  unfold countEdge
  with_reducible repeat' first
    | assumption | exact changesOnly.refl _ _ | apply updChan_changes | apply changesOnly.iteL
    | apply changesOnly.ite | decide | split | (intro)

theorem crossingFull_changes {F : List Part} {s0 : State} {row : Nat} {s : State}
    (hF : Part.sub [.regs, .bb] F = true) (hs : changesOnly F s0 s) :
    changesOnly F s0 (crossingFull row s) := by
  refine hs.trans (changesOnly.mono ?_ hF)
  clear hs hF
  unfold crossingFull
  with_reducible repeat' first
    | assumption | exact changesOnly.refl _ _ | apply raiseBit_changes | apply modReg_changes | decide

theorem latchOff_changes {F : List Part} {s0 : State} {l : Latch} {h : Nat} {c : Nat} {s : State}
    (hF : Part.sub [.chans] F = true) (hs : changesOnly F s0 s) :
    changesOnly F s0 (latchOff l h c s) := by
  refine hs.trans (changesOnly.mono ?_ hF)
  clear hs hF
  unfold latchOff
  with_reducible repeat' first
    | assumption | exact changesOnly.refl _ _ | apply chFlag_changes | apply updChan_changes | decide

theorem cutLatch_changes {F : List Part} {s0 : State} {h : Nat} {c : Nat} {s : State}
    (hF : Part.sub [.chans] F = true) (hs : changesOnly F s0 s) :
    changesOnly F s0 (cutLatch h c s) := by
  refine hs.trans (changesOnly.mono ?_ hF)
  clear hs hF
  unfold cutLatch
  with_reducible repeat' first
    | assumption | exact changesOnly.refl _ _ | apply resolve_changes | apply latchOff_changes
    | apply updChan_changes | decide

theorem cutRetry_changes {F : List Part} {s0 : State} {h : Nat} {c : Nat} {s : State}
    (hF : Part.sub [.chans] F = true) (hs : changesOnly F s0 s) :
    changesOnly F s0 (cutRetry h c s) := by
  refine hs.trans (changesOnly.mono ?_ hF)
  clear hs hF
  unfold cutRetry
  with_reducible repeat' first
    | assumption | exact changesOnly.refl _ _ | apply updChan_changes | apply chFlag_changes | apply latchOff_changes
    | apply resolve_changes | apply changesOnly.iteL | apply changesOnly.ite | decide | split | (intro)

theorem takeTotals_changes {F : List Part} {s0 : State} {n : Nat} {accs : List (List Acc)} {quiet : Bool} {s : State}
    (hF : Part.sub [.mem, .runs, .aud, .regs, .bb] F = true) (hs : changesOnly F s0 s) :
    changesOnly F s0 (takeTotals n accs quiet s) := by
  refine hs.trans (changesOnly.mono ?_ hF)
  clear hs hF
  unfold takeTotals
  with_reducible repeat' first
    | assumption | exact changesOnly.refl _ _ | apply adopt_changes | apply forN_into | apply changesOnly.iteL
    | apply changesOnly.ite | decide | split | (intro)

theorem diverge_changes {F : List Part} {s0 : State} {n : Nat} {accs : Option (List (List Acc))} {s : State}
    (hF : Part.sub [.pair, .mem, .runs, .aud, .regs, .bb, .tx] F = true) (hs : changesOnly F s0 s) :
    changesOnly F s0 (diverge n accs s) := by
  refine hs.trans (changesOnly.mono ?_ hF)
  clear hs hF
  unfold diverge
  with_reducible repeat' first
    | assumption | exact changesOnly.refl _ _ | apply updPair_changes | apply takeTotals_changes
    | apply askCarried_changes | apply pairEvent_changes | decide | split

theorem dropReload_changes {F : List Part} {s0 : State} {h : Nat} {s : State}
    (hF : Part.sub [.img] F = true) (hs : changesOnly F s0 s) :
    changesOnly F s0 (dropReload h s) := by
  refine hs.trans (changesOnly.mono ?_ hF)
  clear hs hF
  unfold dropReload
  with_reducible repeat' first
    | assumption | exact changesOnly.refl _ _ | decide | apply changesOnly.set_img

theorem sendEcho_changes {F : List Part} {s0 : State} {p : Nat} {s : State}
    (hF : Part.sub [.ml, .tx] F = true) (hs : changesOnly F s0 s) :
    changesOnly F s0 (sendEcho p s) := by
  refine hs.trans (changesOnly.mono ?_ hF)
  clear hs hF
  unfold sendEcho
  with_reducible repeat' first
    | assumption | exact changesOnly.refl _ _ | apply updPort_changes | apply mlSend_changes | apply changesOnly.iteL
    | apply changesOnly.ite | decide | split | (intro)

theorem moveTo_changes {F : List Part} {s0 : State} {t : Nat} {s : State}
    (hF : Part.sub [.time] F = true) (hs : changesOnly F s0 s) :
    changesOnly F s0 (moveTo t s) := by
  refine hs.trans (changesOnly.mono ?_ hF)
  clear hs hF
  unfold moveTo
  with_reducible repeat' first
    | assumption | exact changesOnly.refl _ _ | apply advance_changes | apply changesOnly.iteL
    | apply changesOnly.ite | decide | split | (intro)

theorem toReserve_changes {F : List Part} {s0 : State} {s : State}
    (hF : Part.sub [.time] F = true) (hs : changesOnly F s0 s) :
    changesOnly F s0 (toReserve s) := by
  refine hs.trans (changesOnly.mono ?_ hF)
  clear hs hF
  unfold toReserve
  with_reducible repeat' first
    | assumption | exact changesOnly.refl _ _ | apply moveTo_changes | apply changesOnly.iteL | apply changesOnly.ite
    | decide | split | (intro)

theorem dueEchoes_changes {F : List Part} {s0 : State} {s : State}
    (hF : Part.sub [.ml, .tx, .time] F = true) (hs : changesOnly F s0 s) :
    changesOnly F s0 (dueEchoes s) := by
  refine hs.trans (changesOnly.mono ?_ hF)
  clear hs hF
  unfold dueEchoes
  with_reducible repeat' first
    | assumption | exact changesOnly.refl _ _ | apply sendEcho_changes | apply toReserve_changes | apply forN_into
    | apply changesOnly.iteL | apply changesOnly.ite | decide | split | (intro)

theorem eccCorrected_changes {F : List Part} {s0 : State} {m : MemId} {s : State}
    (hF : Part.sub [.regs, .bb] F = true) (hs : changesOnly F s0 s) :
    changesOnly F s0 (eccCorrected m s) := by
  refine hs.trans (changesOnly.mono ?_ hF)
  clear hs hF
  unfold eccCorrected
  with_reducible repeat' first
    | assumption | exact changesOnly.refl _ _ | apply modReg_changes | apply raiseBit_changes | decide | split

theorem eccEvent_changes {F : List Part} {s0 : State} {i : Nat} {s : State}
    (hF : Part.sub [.regs, .bb] F = true) (hs : changesOnly F s0 s) :
    changesOnly F s0 (eccEvent i s) := by
  refine hs.trans (changesOnly.mono ?_ hF)
  clear hs hF
  unfold eccEvent
  with_reducible repeat' first
    | assumption | exact changesOnly.refl _ _ | apply raiseBit_changes | apply changesOnly.iteL
    | apply changesOnly.ite | decide | split | (intro)

theorem eccHall_changes {F : List Part} {s0 : State} {h : Nat} {s : State}
    (hF : Part.sub [.chans, .halls, .nv, .jnl, .mem, .img, .regs, .bb, .convs, .newest, .older, .str] F = true) (hs : changesOnly F s0 s) :
    changesOnly F s0 (eccHall h s) := by
  refine hs.trans (changesOnly.mono ?_ hF)
  clear hs hF
  unfold eccHall
  with_reducible repeat' first
    | assumption | exact changesOnly.refl _ _ | apply resolveAll_changes | apply updHall_changes
    | apply reloadBegin_changes | apply changesOnly.iteL | apply changesOnly.ite | decide | split | (intro)

theorem eccMark_changes {F : List Part} {s0 : State} {mem : Nat} {word : Nat} {s : State}
    (hF : Part.sub [.mem] F = true) (hs : changesOnly F s0 s) :
    changesOnly F s0 (eccMark mem word s) := by
  refine hs.trans (changesOnly.mono ?_ hF)
  clear hs hF
  unfold eccMark
  with_reducible repeat' first
    | assumption | exact changesOnly.refl _ _ | decide | apply changesOnly.set_mem

theorem reloadIdle_changes {F : List Part} {s0 : State} {s : State}
    (hF : Part.sub [.mem] F = true) (hs : changesOnly F s0 s) :
    changesOnly F s0 (reloadIdle s) := by
  refine hs.trans (changesOnly.mono ?_ hF)
  clear hs hF
  unfold reloadIdle
  with_reducible repeat' first
    | assumption | exact changesOnly.refl _ _ | decide | apply changesOnly.set_mem

theorem eccFatal_changes {F : List Part} {s0 : State} {m : MemId} {word : Nat} {s : State}
    (hF : Part.sub [.regs, .bb, .chans, .halls, .nv, .jnl, .mem, .img, .convs, .newest, .older, .str] F = true) (hs : changesOnly F s0 s) :
    changesOnly F s0 (eccFatal m word s) := by
  refine hs.trans (changesOnly.mono ?_ hF)
  clear hs hF
  unfold eccFatal
  with_reducible repeat' first
    | assumption | exact changesOnly.refl _ _ | apply eccFound_changes | apply eccHall_changes
    | apply eccMark_changes | apply reloadIdle_changes | apply changesOnly.iteL | apply changesOnly.ite | decide
    | split | (intro)

theorem galIntervals_changes {F : List Part} {s0 : State} {n : Nat} {s : State}
    (hF : Part.sub [.gal, .nv, .jnl, .mem, .regs, .bb] F = true) (hs : changesOnly F s0 s) :
    changesOnly F s0 (galIntervals n s) := by
  refine hs.trans (changesOnly.mono ?_ hF)
  clear hs hF
  unfold galIntervals
  with_reducible repeat' first
    | assumption | exact changesOnly.refl _ _ | apply galInterval_changes | apply changesOnly.iteL
    | apply changesOnly.ite | decide | split | (intro)

theorem periodEnd_changes {F : List Part} {s0 : State} {n : Nat} {s : State}
    (hF : Part.sub [.jnl, .nv, .mem, .per, .regs, .bb, .runs, .gal] F = true) (hs : changesOnly F s0 s) :
    changesOnly F s0 (periodEnd n s) := by
  refine hs.trans (changesOnly.mono ?_ hF)
  clear hs hF
  unfold periodEnd
  with_reducible repeat' first
    | assumption | exact changesOnly.refl _ _ | apply closeKinds_changes | apply changesOnly.iteL
    | apply changesOnly.ite | decide | split | (intro)

theorem galBlocks_changes {F : List Part} {s0 : State} {n : Nat} {s : State}
    (hF : Part.sub [.nv, .jnl, .mem, .gal, .regs, .bb] F = true) (hs : changesOnly F s0 s) :
    changesOnly F s0 (galBlocks n s) := by
  refine hs.trans (changesOnly.mono ?_ hF)
  clear hs hF
  unfold galBlocks
  with_reducible repeat' first
    | assumption | exact changesOnly.refl _ _ | apply galFlush_changes | apply changesOnly.iteL
    | apply changesOnly.ite | decide | split | (intro)

theorem endTick_changes {F : List Part} {s0 : State} {s : State}
    (hF : Part.sub [.gal, .nv, .jnl, .mem, .regs, .bb, .runs, .per, .img, .eng] F = true) (hs : changesOnly F s0 s) :
    changesOnly F s0 (endTick s) := by
  refine hs.trans (changesOnly.mono ?_ hF)
  clear hs hF
  unfold endTick
  with_reducible repeat' first
    | assumption | exact changesOnly.refl _ _ | apply galIntervals_changes | apply ckptTick_changes
    | apply periodEnd_changes | apply jobsLost_changes | apply galBlocks_changes | decide | apply changesOnly.set_eng

theorem eraseDamaged_changes {F : List Part} {s0 : State} {slot : Nat} {s : State}
    (hF : Part.sub [.nv] F = true) (hs : changesOnly F s0 s) :
    changesOnly F s0 (eraseDamaged slot s) := by
  refine hs.trans (changesOnly.mono ?_ hF)
  clear hs hF
  unfold eraseDamaged
  with_reducible repeat' first
    | assumption | exact changesOnly.refl _ _ | apply updChip_changes | apply forN_into | apply changesOnly.iteL
    | apply changesOnly.ite | decide | split | (intro)

theorem expiredEvt_changes {F : List Part} {s0 : State} {s : State}
    (hF : Part.sub [.regs, .bb] F = true) (hs : changesOnly F s0 s) :
    changesOnly F s0 (expiredEvt s) := by
  refine hs.trans (changesOnly.mono ?_ hF)
  clear hs hF
  unfold expiredEvt
  with_reducible repeat' first
    | assumption | exact changesOnly.refl _ _ | apply raiseBit_changes | apply changesOnly.iteL
    | apply changesOnly.ite | decide | split | (intro)

theorem extDetected_changes {F : List Part} {s0 : State} {h : Nat} {c : Nat} {s : State}
    (hF : Part.sub [.chans] F = true) (hs : changesOnly F s0 s) :
    changesOnly F s0 (extDetected h c s) := by
  refine hs.trans (changesOnly.mono ?_ hF)
  clear hs hF
  unfold extDetected
  with_reducible repeat' first
    | assumption | exact changesOnly.refl _ _ | apply latchOff_changes | apply updChan_changes
    | apply resolve_changes | apply chFlag_changes | apply changesOnly.iteL | apply changesOnly.ite | decide | split
    | (intro)

theorem stgEmpty_changes {F : List Part} {s0 : State} {s : State}
    (hF : Part.sub [.stg, .jnl, .nv] F = true) (hs : changesOnly F s0 s) :
    changesOnly F s0 (stgEmpty s) := by
  refine hs.trans (changesOnly.mono ?_ hF)
  clear hs hF
  unfold stgEmpty
  with_reducible repeat' first
    | assumption | exact changesOnly.refl _ _ | apply updStg_changes | apply jClose_changes | decide | split

theorem roleChange_changes {F : List Part} {s0 : State} {active : Bool} {s : State}
    (hF : Part.sub [.pair, .regs, .bb, .ml, .stg, .jnl, .nv] F = true) (hs : changesOnly F s0 s) :
    changesOnly F s0 (roleChange active s) := by
  refine hs.trans (changesOnly.mono ?_ hF)
  clear hs hF
  unfold roleChange
  with_reducible repeat' first
    | assumption | exact changesOnly.refl _ _ | apply updPair_changes | apply pairEvent_changes
    | apply bbEvent_changes | apply stgEmpty_changes | apply changesOnly.iteL | apply changesOnly.ite | decide
    | split | apply changesOnly.set_ml | (intro)

theorem outputActive_changes {F : List Part} {s0 : State} {h : Nat} {c : Nat} {s : State}
    (hF : Part.sub [.chans] F = true) (hs : changesOnly F s0 s) :
    changesOnly F s0 (outputActive h c s) := by
  refine hs.trans (changesOnly.mono ?_ hF)
  clear hs hF
  unfold outputActive
  with_reducible repeat' first
    | assumption | exact changesOnly.refl _ _ | apply updChan_changes | apply startRamp_changes
    | apply resolve_changes | apply changesOnly.iteL | apply changesOnly.ite | decide | split | (intro)

theorem outputsActive_changes {F : List Part} {s0 : State} {s : State}
    (hF : Part.sub [.regs, .bb, .halls, .chans, .per] F = true) (hs : changesOnly F s0 s) :
    changesOnly F s0 (outputsActive s) := by
  refine hs.trans (changesOnly.mono ?_ hF)
  clear hs hF
  unfold outputsActive
  with_reducible repeat' first
    | assumption | exact changesOnly.refl _ _ | apply report_changes | apply outputActive_changes
    | apply forHalls_into | apply forChans_into | apply changesOnly.iteL | apply changesOnly.ite | decide | split
    | (intro)

theorem inputsActive_changes {F : List Part} {s0 : State} {a : Nat} {e : Nat} {s : State}
    (hF : Part.sub [.chans, .convs, .halls] F = true) (hs : changesOnly F s0 s) :
    changesOnly F s0 (inputsActive a e s) := by
  refine hs.trans (changesOnly.mono ?_ hF)
  clear hs hF
  unfold inputsActive
  with_reducible repeat' first
    | assumption | exact changesOnly.refl _ _ | apply inputForm_changes | apply forHalls_into | apply forChans_into
    | apply changesOnly.iteL | apply changesOnly.ite | decide | split | (intro)

theorem hoRollBack_changes {F : List Part} {s0 : State} {s : State}
    (hF : Part.sub [.jnl, .nv, .pair, .regs, .bb, .halls, .chans, .per, .convs] F = true) (hs : changesOnly F s0 s) :
    changesOnly F s0 (hoRollBack s) := by
  refine hs.trans (changesOnly.mono ?_ hF)
  clear hs hF
  unfold hoRollBack
  with_reducible repeat' first
    | assumption | exact changesOnly.refl _ _ | apply jClose_changes | apply updPair_changes
    | apply pairEvent_changes | apply outputsActive_changes | apply inputsActive_changes | apply changesOnly.iteL
    | apply changesOnly.ite | decide | split | (intro)

theorem fenceNow_changes {F : List Part} {s0 : State} {s : State}
    (hF : Part.sub [.regs, .bb, .halls, .chans, .per, .convs, .pair, .ml, .stg, .jnl, .nv] F = true) (hs : changesOnly F s0 s) :
    changesOnly F s0 (fenceNow s) := by
  refine hs.trans (changesOnly.mono ?_ hF)
  clear hs hF
  unfold fenceNow
  with_reducible repeat' first
    | assumption | exact changesOnly.refl _ _ | apply allStandby_changes | apply roleChange_changes
    | apply hoRollBack_changes | apply pairEvent_changes | apply updPair_changes | decide

theorem openFlags_changes {F : List Part} {s0 : State} {h : Nat} {c : Nat} {x : Sample} {s : State}
    (hF : Part.sub [.chans] F = true) (hs : changesOnly F s0 s) :
    changesOnly F s0 (openFlags h c x s) := by
  refine hs.trans (changesOnly.mono ?_ hF)
  clear hs hF
  unfold openFlags
  with_reducible repeat' first
    | assumption | exact changesOnly.refl _ _ | apply ainFlag_changes | apply changesOnly.iteL
    | apply changesOnly.ite | decide | split | (intro)

theorem resultEvents_changes {F : List Part} {s0 : State} {n : Nat} {ovr : Bool} {recov : Bool} {s : State}
    (hF : Part.sub [.regs, .bb] F = true) (hs : changesOnly F s0 s) :
    changesOnly F s0 (resultEvents n ovr recov s) := by
  refine hs.trans (changesOnly.mono ?_ hF)
  clear hs hF
  unfold resultEvents
  with_reducible repeat' first
    | assumption | exact changesOnly.refl _ _ | apply raiseBit_changes | apply changesOnly.iteL
    | apply changesOnly.ite | decide | split | (intro)

theorem gainDone_changes {F : List Part} {s0 : State} {own : Nat} {k : Nat} {gain : Nat} {limit : Nat} {auto : Bool} {ovr : Bool} {code : Word} {s : State}
    (hF : Part.sub [.convs] F = true) (hs : changesOnly F s0 s) :
    changesOnly F s0 (gainDone own k gain limit auto ovr code s) := by
  refine hs.trans (changesOnly.mono ?_ hF)
  clear hs hF
  unfold gainDone
  with_reducible repeat' first
    | assumption | exact changesOnly.refl _ _ | apply updConv_changes | apply changesOnly.iteL
    | apply changesOnly.ite | decide | split | (intro)

theorem setClass_changes {F : List Part} {s0 : State} {h : Nat} {c : Nat} {k : Nat} {s : State}
    (hF : Part.sub [.chans] F = true) (hs : changesOnly F s0 s) :
    changesOnly F s0 (setClass h c k s) := by
  refine hs.trans (changesOnly.mono ?_ hF)
  clear hs hF
  unfold setClass
  with_reducible repeat' first
    | assumption | exact changesOnly.refl _ _ | apply updChan_changes | decide

theorem pulsTake_changes {F : List Part} {s0 : State} {s : State} {own : Nat} {h : Nat} {c : Nat} {a : Word} {code : Word}
    (hF : Part.sub [.chans] F = true) (hs : changesOnly F s0 s) :
    changesOnly F s0 (pulsTake s own h c a code) := by
  refine hs.trans (changesOnly.mono ?_ hF)
  clear hs hF
  unfold pulsTake
  with_reducible repeat' first
    | assumption | exact changesOnly.refl _ _ | apply updChan_changes | apply changesOnly.iteL
    | apply changesOnly.ite | decide | split | (intro)

theorem pulsResult_changes {F : List Part} {s0 : State} {s : State} {own : Nat} {h : Nat} {c : Nat} {a : Word} {tag : Word} {code : Word}
    (hF : Part.sub [.chans] F = true) (hs : changesOnly F s0 s) :
    changesOnly F s0 (pulsResult s own h c a tag code) := by
  refine hs.trans (changesOnly.mono ?_ hF)
  clear hs hF
  unfold pulsResult
  with_reducible repeat' first
    | assumption | exact changesOnly.refl _ _ | apply updChan_changes | apply pulsTake_changes
    | apply changesOnly.iteL | apply changesOnly.ite | decide | split | (intro)

theorem sendRec_changes {F : List Part} {s0 : State} {own : Nat} {r : Rec} {s : State}
    (hF : Part.sub [.convs] F = true) (hs : changesOnly F s0 s) :
    changesOnly F s0 (sendRec own r s) := by
  refine hs.trans (changesOnly.mono ?_ hF)
  clear hs hF
  unfold sendRec
  with_reducible repeat' first
    | assumption | exact changesOnly.refl _ _ | apply updConv_changes | decide

end Sys2Proof.Machine
end

