-- ==== Sys2Proof/Laws/Changes8.lean ====
section
/-! SUPPORT. What each shared operation changes at most: the parts of the state (part 9 of 12). -/

set_option linter.unusedTactic false
set_option linter.unreachableTactic false

namespace Sys2Proof.Machine

theorem setWin_changes {F : List Part} {s0 : State} {h : Nat} {w : Nat} {v : Word} {s : State}
    (hF : Part.sub [.halls] F = true) (hs : changesOnly F s0 s) :
    changesOnly F s0 (setWin h w v s) := by
  refine hs.trans (changesOnly.mono ?_ hF)
  clear hs hF
  unfold setWin
  with_reducible repeat' first
    | assumption | exact changesOnly.refl _ _ | apply updHall_changes | decide

theorem winExit_changes {F : List Part} {s0 : State} {h : Nat} {w : Nat} {high : Bool} {code : Word} {n : Nat} {t16 : Nat} {s : State}
    (hF : Part.sub [.halls, .regs, .bb, .convs] F = true) (hs : changesOnly F s0 s) :
    changesOnly F s0 (winExit h w high code n t16 s) := by
  refine hs.trans (changesOnly.mono ?_ hF)
  clear hs hF
  unfold winExit
  with_reducible repeat' first
    | assumption | exact changesOnly.refl _ _ | apply setWin_changes | apply raiseBit_changes | apply bbEvent_changes
    | apply addTrigger_changes | apply changesOnly.iteL | apply changesOnly.ite | decide | split | (intro)

theorem winEval_changes {F : List Part} {s0 : State} {h : Nat} {w : Nat} {code : Word} {n : Nat} {t16 : Nat} {s : State}
    (hF : Part.sub [.halls, .regs, .bb, .convs] F = true) (hs : changesOnly F s0 s) :
    changesOnly F s0 (winEval h w code n t16 s) := by
  refine hs.trans (changesOnly.mono ?_ hF)
  clear hs hF
  unfold winEval
  with_reducible repeat' first
    | assumption | exact changesOnly.refl _ _ | apply winExit_changes | apply raiseBit_changes | apply setWin_changes
    | apply bbEvent_changes | apply changesOnly.iteL | apply changesOnly.ite | decide | split | (intro)

theorem pairSide_changes {F : List Part} {s0 : State} {h : Nat} {k : Nat} {t16 : Nat} {code : Word} {tag : Word} {s : State}
    (hF : Part.sub [.halls] F = true) (hs : changesOnly F s0 s) :
    changesOnly F s0 (pairSide h k t16 code tag s) := by
  refine hs.trans (changesOnly.mono ?_ hF)
  clear hs hF
  unfold pairSide
  with_reducible repeat' first
    | assumption | exact changesOnly.refl _ _ | apply updRot_changes | apply changesOnly.iteL | apply changesOnly.ite
    | decide | split | (intro)

theorem flightResult_changes {F : List Part} {s0 : State} {n : Nat} {t16 : Nat} {x : Sample} {s : State}
    (hF : Part.sub [.halls, .chans, .convs, .regs, .bb, .wd, .img] F = true) (hs : changesOnly F s0 s) :
    changesOnly F s0 (flightResult n t16 x s) := by
  refine hs.trans (changesOnly.mono ?_ hF)
  clear hs hF
  unfold flightResult
  with_reducible repeat' first
    | assumption | exact changesOnly.refl _ _ | apply complFlags_changes | apply openFlags_changes
    | apply codeFlags_changes | apply updConv_changes | apply resultEvents_changes | apply gainDone_changes
    | apply setClass_changes | apply pulsResult_changes | apply sendRec_changes | apply winEval_changes
    | apply pairSide_changes | apply updRot_changes | apply advanceStep_changes | apply changesOnly.iteL
    | apply changesOnly.ite | decide | split | (intro)

theorem takeDelay_changes {F : List Part} {s0 : State} {p : Nat} {s : State}
    (hF : Part.sub [.free] F = true) (hs : changesOnly F s0 s) :
    changesOnly F s0 (takeDelay p s) := by
  refine hs.trans (changesOnly.mono ?_ hF)
  clear hs hF
  unfold takeDelay
  with_reducible repeat' first
    | assumption | exact changesOnly.refl _ _ | apply takeFree_changes | apply changesOnly.iteL
    | apply changesOnly.ite | decide | split | (intro)

theorem formEnd_changes {F : List Part} {s0 : State} {r : Nat} {l : MlLoop} {start : Nat} {s : State}
    (hF : Part.sub [.ml, .regs, .bb] F = true) (hs : changesOnly F s0 s) :
    changesOnly F s0 (formEnd r l start s) := by
  refine hs.trans (changesOnly.mono ?_ hF)
  clear hs hF
  unfold formEnd
  with_reducible repeat' first
    | assumption | exact changesOnly.refl _ _ | apply updMl_changes | apply mlEvent_changes | apply changesOnly.iteL
    | apply changesOnly.ite | decide | split | (intro)

theorem formBack_changes {F : List Part} {s0 : State} {p : Nat} {d : FormData} {s : State}
    (hF : Part.sub [.ml, .free, .regs, .bb, .tx, .mem] F = true) (hs : changesOnly F s0 s) :
    changesOnly F s0 (formBack p d s) := by
  refine hs.trans (changesOnly.mono ?_ hF)
  clear hs hF
  unfold formBack
  with_reducible repeat' first
    | assumption | exact changesOnly.refl _ _ | apply updMl_changes | apply takeDelay_changes | apply formEnd_changes
    | apply mlOriginate_changes | apply changesOnly.iteL | apply changesOnly.ite | decide | split | (intro)

theorem relay_changes {F : List Part} {s0 : State} {q : Option Nat} {typ : Nat} {hops : Nat} {f : MlFrame} {payload : List Byte} {s : State}
    (hF : Part.sub [.tx, .regs, .bb, .mem] F = true) (hs : changesOnly F s0 s) :
    changesOnly F s0 (relay q typ hops f payload s) := by
  refine hs.trans (changesOnly.mono ?_ hF)
  clear hs hF
  unfold relay
  with_reducible repeat' first
    | assumption | exact changesOnly.refl _ _ | apply frameSend_changes | decide | split

theorem formDoneOn_changes {F : List Part} {s0 : State} {f : MlFrame} {s : State}
    (hF : Part.sub [.tx, .regs, .bb, .mem] F = true) (hs : changesOnly F s0 s) :
    changesOnly F s0 (formDoneOn f s) := by
  refine hs.trans (changesOnly.mono ?_ hF)
  clear hs hF
  unfold formDoneOn
  with_reducible repeat' first
    | assumption | exact changesOnly.refl _ _ | apply relay_changes | apply changesOnly.iteL | apply changesOnly.ite
    | decide | split | (intro)

theorem formOn_changes {F : List Part} {s0 : State} {f : MlFrame} {payload : List Byte} {s : State}
    (hF : Part.sub [.tx, .regs, .bb, .mem] F = true) (hs : changesOnly F s0 s) :
    changesOnly F s0 (formOn f payload s) := by
  refine hs.trans (changesOnly.mono ?_ hF)
  clear hs hF
  unfold formOn
  with_reducible repeat' first
    | assumption | exact changesOnly.refl _ _ | apply relay_changes | apply changesOnly.iteL | apply changesOnly.ite
    | decide | split | (intro)

theorem galReset_changes {F : List Part} {s0 : State} {s : State}
    (hF : Part.sub [.gal] F = true) (hs : changesOnly F s0 s) :
    changesOnly F s0 (galReset s) := by
  refine hs.trans (changesOnly.mono ?_ hF)
  clear hs hF
  unfold galReset
  with_reducible repeat' first
    | assumption | exact changesOnly.refl _ _ | decide | apply changesOnly.set_gal

theorem genCheck_changes {F : List Part} {s0 : State} {s : State}
    (hF : Part.sub [.pair, .regs, .bb, .mem, .aud] F = true) (hs : changesOnly F s0 s) :
    changesOnly F s0 (genCheck s) := by
  refine hs.trans (changesOnly.mono ?_ hF)
  clear hs hF
  unfold genCheck
  with_reducible repeat' first
    | assumption | exact changesOnly.refl _ _ | apply updPair_changes | apply raiseBit_changes
    | apply bothRun_changes | apply changesOnly.iteL | apply changesOnly.ite | decide | split | (intro)

theorem takeBacklog_changes {F : List Part} {s0 : State} {h : Nat} {c : Nat} {m : Nat} {v : Nat} {s : State}
    (hF : Part.sub [.chans] F = true) (hs : changesOnly F s0 s) :
    changesOnly F s0 (takeBacklog h c m v s) := by
  refine hs.trans (changesOnly.mono ?_ hF)
  clear hs hF
  unfold takeBacklog
  with_reducible repeat' first
    | assumption | exact changesOnly.refl _ _ | apply pulseGo_changes | apply updChan_changes | decide

theorem giveBacklogs_changes {F : List Part} {s0 : State} {s : State}
    (hF : Part.sub [.chans] F = true) (hs : changesOnly F s0 s) :
    changesOnly F s0 (giveBacklogs s) := by
  refine hs.trans (changesOnly.mono ?_ hF)
  clear hs hF
  unfold giveBacklogs
  with_reducible repeat' first
    | assumption | exact changesOnly.refl _ _ | apply takeBacklog_changes | apply forN_into | apply changesOnly.iteL
    | apply changesOnly.ite | decide | split | (intro)

theorem giveCommand_changes {F : List Part} {s0 : State} {g : Nat} {v : Nat} {s : State}
    (hF : Part.sub [.chans, .regs] F = true) (hs : changesOnly F s0 s) :
    changesOnly F s0 (giveCommand g v s) := by
  refine hs.trans (changesOnly.mono ?_ hF)
  clear hs hF
  unfold giveCommand
  with_reducible repeat' first
    | assumption | exact changesOnly.refl _ _ | apply updChan_changes | apply setReg_changes | apply changesOnly.iteL
    | apply changesOnly.ite | decide | split | (intro)

theorem giveValue_changes {F : List Part} {s0 : State} {g : Option Nat} {v : Option Nat} {s : State}
    (hF : Part.sub [.chans, .regs] F = true) (hs : changesOnly F s0 s) :
    changesOnly F s0 (giveValue g v s) := by
  refine hs.trans (changesOnly.mono ?_ hF)
  clear hs hF
  unfold giveValue
  with_reducible repeat' first
    | assumption | exact changesOnly.refl _ _ | apply giveCommand_changes | apply changesOnly.iteL
    | apply changesOnly.ite | decide | split | (intro)

theorem giveOutputs_changes {F : List Part} {s0 : State} {s : State}
    (hF : Part.sub [.chans, .regs] F = true) (hs : changesOnly F s0 s) :
    changesOnly F s0 (giveOutputs s) := by
  refine hs.trans (changesOnly.mono ?_ hF)
  clear hs hF
  unfold giveOutputs
  with_reducible repeat' first
    | assumption | exact changesOnly.refl _ _ | apply giveValue_changes | apply forN_into | apply changesOnly.iteL
    | apply changesOnly.ite | decide | split | (intro)

theorem goOn_changes {F : List Part} {s0 : State} {typ : Nat} {f : MlFrame} {payload : List Byte} {s : State}
    (hF : Part.sub [.tx, .regs, .bb, .mem] F = true) (hs : changesOnly F s0 s) :
    changesOnly F s0 (goOn typ f payload s) := by
  refine hs.trans (changesOnly.mono ?_ hF)
  clear hs hF
  unfold goOn
  with_reducible repeat' first
    | assumption | exact changesOnly.refl _ _ | apply relay_changes | apply changesOnly.iteL | apply changesOnly.ite
    | decide | split | (intro)

theorem hallEvent_changes {F : List Part} {s0 : State} {h : Nat} {i : Nat} {s : State}
    (hF : Part.sub [.halls] F = true) (hs : changesOnly F s0 s) :
    changesOnly F s0 (hallEvent h i s) := by
  refine hs.trans (changesOnly.mono ?_ hF)
  clear hs hF
  unfold hallEvent
  with_reducible repeat' first
    | assumption | exact changesOnly.refl _ _ | apply updHall_changes | decide

theorem hallReset1_changes {F : List Part} {s0 : State} {h : Nat} {s : State}
    (hF : Part.sub [.halls, .convs, .chans] F = true) (hs : changesOnly F s0 s) :
    changesOnly F s0 (hallReset1 h s) := by
  refine hs.trans (changesOnly.mono ?_ hF)
  clear hs hF
  unfold hallReset1
  with_reducible repeat' first
    | assumption | exact changesOnly.refl _ _ | apply rotAbandon_changes | apply stopHall_changes
    | apply updConv_changes | apply updChan_changes | apply updHall_changes | apply forChans_into | decide | (intro)

theorem hallsUnclocked_changes {F : List Part} {s0 : State} {s : State}
    (hF : Part.sub [.convs, .halls, .chans] F = true) (hs : changesOnly F s0 s) :
    changesOnly F s0 (hallsUnclocked s) := by
  refine hs.trans (changesOnly.mono ?_ hF)
  clear hs hF
  unfold hallsUnclocked
  with_reducible repeat' first
    | assumption | exact changesOnly.refl _ _ | apply updConv_changes | apply rotAbandon_changes
    | apply stopHall_changes | apply updHall_changes | apply updChan_changes | apply forN_into | apply forHalls_into
    | apply forChans_into | decide | (intro)

theorem haltNow_changes {F : List Part} {s0 : State} {s : State}
    (hF : Part.sub [.mem, .aud, .regs, .bb, .clk] F = true) (hs : changesOnly F s0 s) :
    changesOnly F s0 (haltNow s) := by
  refine hs.trans (changesOnly.mono ?_ hF)
  clear hs hF
  unfold haltNow
  with_reducible repeat' first
    | assumption | exact changesOnly.refl _ _ | apply audit_changes | apply bbEvent_changes | decide
    | apply changesOnly.set_clk

theorem sendCarried_changes {F : List Part} {s0 : State} {s : State}
    (hF : Part.sub [.tx, .pair] F = true) (hs : changesOnly F s0 s) :
    changesOnly F s0 (sendCarried s) := by
  refine hs.trans (changesOnly.mono ?_ hF)
  clear hs hF
  unfold sendCarried
  with_reducible repeat' first
    | assumption | exact changesOnly.refl _ _ | apply pairBlockAll_changes | apply forN_into | decide | (intro)

theorem sendTotals_changes {F : List Part} {s0 : State} {n : Nat} {s : State}
    (hF : Part.sub [.tx, .pair] F = true) (hs : changesOnly F s0 s) :
    changesOnly F s0 (sendTotals n s) := by
  refine hs.trans (changesOnly.mono ?_ hF)
  clear hs hF
  unfold sendTotals
  with_reducible repeat' first
    | assumption | exact changesOnly.refl _ _ | apply pairBlockAll_changes | decide

theorem handoverSend_changes {F : List Part} {s0 : State} {s : State}
    (hF : Part.sub [.tx, .pair] F = true) (hs : changesOnly F s0 s) :
    changesOnly F s0 (handoverSend s) := by
  refine hs.trans (changesOnly.mono ?_ hF)
  clear hs hF
  unfold handoverSend
  with_reducible repeat' first
    | assumption | exact changesOnly.refl _ _ | apply sendCarried_changes | apply sendTotals_changes
    | apply updPair_changes | apply changesOnly.iteL | apply changesOnly.ite | decide | split | (intro)

theorem steer_changes {F : List Part} {s0 : State} {off : Int} {s : State}
    (hF : Part.sub [.sync, .free, .time] F = true) (hs : changesOnly F s0 s) :
    changesOnly F s0 (steer off s) := by
  refine hs.trans (changesOnly.mono ?_ hF)
  clear hs hF
  unfold steer
  repeat' first
    | exact Or.inr (by decide) | with_reducible exact Or.inl rfl | with_reducible assumption
    | with_reducible exact changesOnly.refl _ _ | with_reducible apply rebaseGrid_changes
    | with_reducible apply takeFree_changes | with_reducible apply changesOnly.iteL
    | with_reducible apply changesOnly.ite | decide | split | with_reducible (intro)
    | with_reducible apply changesOnly.mk

theorem takeOffset_changes {F : List Part} {s0 : State} {large : Bool} {v : Nat} {off : Int} {s : State}
    (hF : Part.sub [.sync, .free, .time, .modes, .ml] F = true) (hs : changesOnly F s0 s) :
    changesOnly F s0 (takeOffset large v off s) := by
  refine hs.trans (changesOnly.mono ?_ hF)
  clear hs hF
  unfold takeOffset
  with_reducible repeat' first
    | assumption | exact changesOnly.refl _ _ | apply stepRing_changes | apply steer_changes | apply changesOnly.iteL
    | apply changesOnly.ite | decide | split | apply changesOnly.set_ml | (intro)

theorem heartbeatTime_changes {F : List Part} {s0 : State} {f : PairFrame} {s : State}
    (hF : Part.sub [.sync, .free, .time, .modes, .ml, .regs, .bb] F = true) (hs : changesOnly F s0 s) :
    changesOnly F s0 (heartbeatTime f s) := by
  refine hs.trans (changesOnly.mono ?_ hF)
  clear hs hF
  unfold heartbeatTime
  with_reducible repeat' first
    | assumption | exact changesOnly.refl _ _ | apply takeOffset_changes | apply mlEvent_changes
    | apply changesOnly.iteL | apply changesOnly.ite | decide | split | (intro)

theorem hoAccept_changes {F : List Part} {s0 : State} {s : State}
    (hF : Part.sub [.jnl, .nv, .mem, .tx, .pair] F = true) (hs : changesOnly F s0 s) :
    changesOnly F s0 (hoAccept s) := by
  refine hs.trans (changesOnly.mono ?_ hF)
  clear hs hF
  unfold hoAccept
  with_reducible repeat' first
    | assumption | exact changesOnly.refl _ _ | apply jStep_changes | apply jOpen_changes | apply hoSend_changes
    | apply updPair_changes | apply changesOnly.iteL | apply changesOnly.ite | decide | split | (intro)

theorem hoComplete_changes {F : List Part} {s0 : State} {s : State}
    (hF : Part.sub [.regs, .bb, .jnl, .nv, .pair] F = true) (hs : changesOnly F s0 s) :
    changesOnly F s0 (hoComplete s) := by
  refine hs.trans (changesOnly.mono ?_ hF)
  clear hs hF
  unfold hoComplete
  with_reducible repeat' first
    | assumption | exact changesOnly.refl _ _ | apply pairEvent_changes | apply jClose_changes | apply jStep_changes
    | apply updPair_changes | decide

theorem hoDropped_changes {F : List Part} {s0 : State} {step : Nat} {otherActive : Bool} {s : State}
    (hF : Part.sub [.regs, .bb, .halls, .chans, .per, .convs, .jnl, .nv, .pair] F = true) (hs : changesOnly F s0 s) :
    changesOnly F s0 (hoDropped step otherActive s) := by
  refine hs.trans (changesOnly.mono ?_ hF)
  clear hs hF
  unfold hoDropped
  with_reducible repeat' first
    | assumption | exact changesOnly.refl _ _ | apply allStandby_changes | apply hoRollBack_changes
    | apply changesOnly.iteL | apply changesOnly.ite | decide | split | (intro)

theorem tickHeld_changes {F : List Part} {s0 : State} {n : Nat} {s : State}
    (hF : Part.sub [.eng] F = true) (hs : changesOnly F s0 s) :
    changesOnly F s0 (tickHeld n s) := by
  refine hs.trans (changesOnly.mono ?_ hF)
  clear hs hF
  unfold tickHeld
  with_reducible repeat' first
    | assumption | exact changesOnly.refl _ _ | apply changesOnly.iteL | apply changesOnly.ite | decide | split
    | apply changesOnly.set_eng | (intro)

theorem takeOutputs_changes {F : List Part} {s0 : State} {s : State}
    (hF : Part.sub [.regs, .bb, .runs] F = true) (hs : changesOnly F s0 s) :
    changesOnly F s0 (takeOutputs s) := by
  refine hs.trans (changesOnly.mono ?_ hF)
  clear hs hF
  unfold takeOutputs
  with_reducible repeat' first
    | assumption | exact changesOnly.refl _ _ | apply mirrorSeen_changes | apply setReg_changes
    | apply updRun_changes | apply changesOnly.foldl | apply changesOnly.iteL | apply changesOnly.ite | decide
    | split | (intro)

theorem takeCarried_changes {F : List Part} {s0 : State} {s : State}
    (hF : Part.sub [.regs, .bb, .runs] F = true) (hs : changesOnly F s0 s) :
    changesOnly F s0 (takeCarried s) := by
  refine hs.trans (changesOnly.mono ?_ hF)
  clear hs hF
  unfold takeCarried
  with_reducible repeat' first
    | assumption | exact changesOnly.refl _ _ | apply mirrorSeen_changes | apply updRun_changes | apply forN_into
    | decide | split | (intro)

theorem takeCommands_changes {F : List Part} {s0 : State} {s : State}
    (hF : Part.sub [.chans, .regs] F = true) (hs : changesOnly F s0 s) :
    changesOnly F s0 (takeCommands s) := by
  refine hs.trans (changesOnly.mono ?_ hF)
  clear hs hF
  unfold takeCommands
  with_reducible repeat' first
    | assumption | exact changesOnly.refl _ _ | apply giveCommand_changes | apply changesOnly.foldl
    | apply changesOnly.iteL | apply changesOnly.ite | decide | split | (intro)

theorem sendOutput_changes {F : List Part} {s0 : State} {g : Nat} {v : Nat} {s : State}
    (hF : Part.sub [.tx] F = true) (hs : changesOnly F s0 s) :
    changesOnly F s0 (sendOutput g v s) := by
  refine hs.trans (changesOnly.mono ?_ hF)
  clear hs hF
  unfold sendOutput
  with_reducible repeat' first
    | assumption | exact changesOnly.refl _ _ | apply send_changes | decide

theorem sendValue_changes {F : List Part} {s0 : State} {g : Option Nat} {v : Option Nat} {s : State}
    (hF : Part.sub [.tx, .regs] F = true) (hs : changesOnly F s0 s) :
    changesOnly F s0 (sendValue g v s) := by
  refine hs.trans (changesOnly.mono ?_ hF)
  clear hs hF
  unfold sendValue
  with_reducible repeat' first
    | assumption | exact changesOnly.refl _ _ | apply sendOutput_changes | apply setReg_changes | decide | split

theorem sendBacklog_changes {F : List Part} {s0 : State} {g : Nat} {m : Nat} {s : State}
    (hF : Part.sub [.tx] F = true) (hs : changesOnly F s0 s) :
    changesOnly F s0 (sendBacklog g m s) := by
  refine hs.trans (changesOnly.mono ?_ hF)
  clear hs hF
  unfold sendBacklog
  with_reducible repeat' first
    | assumption | exact changesOnly.refl _ _ | apply send_changes | decide

theorem sendOutputs_changes {F : List Part} {s0 : State} {s : State}
    (hF : Part.sub [.tx, .regs] F = true) (hs : changesOnly F s0 s) :
    changesOnly F s0 (sendOutputs s) := by
  refine hs.trans (changesOnly.mono ?_ hF)
  clear hs hF
  unfold sendOutputs
  repeat' first
    | with_reducible assumption | with_reducible exact changesOnly.refl _ _ | with_reducible apply sendValue_changes
    | with_reducible apply sendBacklog_changes | with_reducible apply forN_into
    | with_reducible apply changesOnly.iteL | with_reducible apply changesOnly.ite | decide | split
    | with_reducible (intro) | dsimp only

theorem hoEnter_changes {F : List Part} {s0 : State} {h : Nat} {s : State}
    (hF : Part.sub [.pair, .regs, .bb, .ml, .stg, .jnl, .nv, .runs, .mem, .aud, .eng, .chans, .tx] F = true) (hs : changesOnly F s0 s) :
    changesOnly F s0 (hoEnter h s) := by
  refine hs.trans (changesOnly.mono ?_ hF)
  clear hs hF
  unfold hoEnter
  with_reducible repeat' first
    | assumption | exact changesOnly.refl _ _ | apply roleChange_changes | apply lateRuns_changes
    | apply tickHeld_changes | apply updPair_changes | apply takeTotals_changes | apply takeOutputs_changes
    | apply takeCarried_changes | apply takeCommands_changes | apply hoComplete_changes | apply sendOutputs_changes
    | decide | split

theorem idleReports_changes {F : List Part} {s0 : State} {s : State}
    (hF : Part.sub [.pair, .tx, .regs, .bb, .halls, .chans, .per, .convs] F = true) (hs : changesOnly F s0 s) :
    changesOnly F s0 (idleReports s) := by
  refine hs.trans (changesOnly.mono ?_ hF)
  clear hs hF
  unfold idleReports
  with_reducible repeat' first
    | assumption | exact changesOnly.refl _ _ | apply updPair_changes | apply hoSend_changes | apply report_changes
    | apply standbyForm_changes | apply changesOnly.foldl | apply changesOnly.iteL | apply changesOnly.ite | decide
    | split | (intro)

theorem releaseDie_changes {F : List Part} {s0 : State} {s : State}
    (hF : Part.sub [.regs, .bb, .wd, .clk] F = true) (hs : changesOnly F s0 s) :
    changesOnly F s0 (releaseDie s) := by
  refine hs.trans (changesOnly.mono ?_ hF)
  clear hs hF
  unfold releaseDie
  repeat' first
    | exact Or.inr (by decide) | with_reducible exact Or.inl rfl | with_reducible assumption
    | with_reducible exact changesOnly.refl _ _ | with_reducible apply bbEvent_changes | decide
    | with_reducible apply changesOnly.mk

theorem logicReset_changes {F : List Part} {s0 : State} {cause : Nat} {die : DieSt} {s : State}
    (hF : Part.sub [.gal, .convs, .halls, .chans, .time, .regs, .latch, .hp, .stg, .str, .sync, .newest, .older, .modes, .curves, .eng, .runs, .bal, .aud, .bb, .jnl, .img, .nv, .mem, .wd, .clk, .ml, .pair, .pins, .tx] F = true) (hs : changesOnly F s0 s) :
    changesOnly F s0 (logicReset cause die s) := by
  refine hs.trans (changesOnly.mono ?_ hF)
  clear hs hF
  unfold logicReset
  repeat' first
    | exact Or.inr (by decide) | with_reducible exact Or.inl rfl | with_reducible assumption
    | with_reducible exact changesOnly.refl _ _ | with_reducible apply galReset_changes
    | with_reducible apply hallsUnclocked_changes | decide | with_reducible apply changesOnly.mk

theorem restart_changes {F : List Part} {s0 : State} {cause : Nat} {s : State}
    (hF : Part.sub [.regs, .bb, .wd, .clk, .gal, .convs, .halls, .chans, .time, .latch, .hp, .stg, .str, .sync, .newest, .older, .modes, .curves, .eng, .runs, .bal, .aud, .jnl, .img, .nv, .mem, .ml, .pair, .pins, .tx] F = true) (hs : changesOnly F s0 s) :
    changesOnly F s0 (restart cause s) := by
  refine hs.trans (changesOnly.mono ?_ hF)
  clear hs hF
  unfold restart
  with_reducible repeat' first
    | assumption | exact changesOnly.refl _ _ | apply releaseDie_changes | apply logicReset_changes | decide

theorem hoLeave_changes {F : List Part} {s0 : State} {s : State}
    (hF : Part.sub [.pair, .regs, .bb, .ml, .stg, .jnl, .nv, .tx, .halls, .chans, .per, .convs, .eng, .wd, .clk, .gal, .time, .latch, .hp, .str, .sync, .newest, .older, .modes, .curves, .runs, .bal, .aud, .img, .mem, .pins] F = true) (hs : changesOnly F s0 s) :
    changesOnly F s0 (hoLeave s) := by
  refine hs.trans (changesOnly.mono ?_ hF)
  clear hs hF
  unfold hoLeave
  with_reducible repeat' first
    | assumption | exact changesOnly.refl _ _ | apply updPair_changes | apply roleChange_changes
    | apply idleReports_changes | apply hoComplete_changes | apply allStandby_changes | apply tickHeld_changes
    | apply restart_changes | apply haltNow_changes | apply changesOnly.iteL | apply changesOnly.ite | decide | split
    | (intro)

theorem hoReady_changes {F : List Part} {s0 : State} {s : State}
    (hF : Part.sub [.jnl, .pair] F = true) (hs : changesOnly F s0 s) :
    changesOnly F s0 (hoReady s) := by
  refine hs.trans (changesOnly.mono ?_ hF)
  clear hs hF
  unfold hoReady
  with_reducible repeat' first
    | assumption | exact changesOnly.refl _ _ | apply jStep_changes | apply updPair_changes | apply changesOnly.iteL
    | apply changesOnly.ite | decide | split | (intro)

theorem hoTotals_changes {F : List Part} {s0 : State} {s : State}
    (hF : Part.sub [.pair] F = true) (hs : changesOnly F s0 s) :
    changesOnly F s0 (hoTotals s) := by
  refine hs.trans (changesOnly.mono ?_ hF)
  clear hs hF
  unfold hoTotals
  with_reducible repeat' first
    | assumption | exact changesOnly.refl _ _ | apply updPair_changes | apply changesOnly.iteL
    | apply changesOnly.ite | decide | split | (intro)

theorem identifyChips_changes {F : List Part} {s0 : State} {f : StartFacts} {s : State}
    (hF : Part.sub [.nv, .regs, .bb] F = true) (hs : changesOnly F s0 s) :
    changesOnly F s0 (identifyChips f s) := by
  refine hs.trans (changesOnly.mono ?_ hF)
  clear hs hF
  unfold identifyChips
  with_reducible repeat' first
    | assumption | exact changesOnly.refl _ _ | apply failChip_changes | apply changesOnly.iteL
    | apply changesOnly.ite | decide | split | apply changesOnly.set_nv | (intro)

theorem idleSlots_changes {F : List Part} {s0 : State} {s : State}
    (hF : Part.sub [.pair, .runs, .regs, .bb, .mem, .aud, .eng] F = true) (hs : changesOnly F s0 s) :
    changesOnly F s0 (idleSlots s) := by
  refine hs.trans (changesOnly.mono ?_ hF)
  clear hs hF
  unfold idleSlots
  with_reducible repeat' first
    | assumption | exact changesOnly.refl _ _ | apply updPair_changes | apply lateRuns_changes | decide
    | apply changesOnly.set_eng

end Sys2Proof.Machine
end

