-- ==== Sys2Proof/Laws/Changes9.lean ====
section
/-! SUPPORT. What each shared operation changes at most: the parts of the state (part 10 of 12). -/

set_option linter.unusedTactic false
set_option linter.unreachableTactic false

namespace Sys2Proof.Machine

theorem idleTick_changes {F : List Part} {s0 : State} {s : State}
    (hF : Part.sub [.time] F = true) (hs : changesOnly F s0 s) :
    changesOnly F s0 (idleTick s) := by
  refine hs.trans (changesOnly.mono ?_ hF)
  clear hs hF
  unfold idleTick
  with_reducible repeat' first
    | assumption | exact changesOnly.refl _ _ | apply advance_changes | decide

theorem imagePlan_changes {F : List Part} {s0 : State} {s : State}
    (hF : Part.sub [.regs, .wd, .bb] F = true) (hs : changesOnly F s0 s) :
    changesOnly F s0 (imagePlan s) := by
  refine hs.trans (changesOnly.mono ?_ hF)
  clear hs hF
  unfold imagePlan
  with_reducible repeat' first
    | assumption | exact changesOnly.refl _ _ | apply setReg_changes | apply wdPlan_changes | apply cfgClamp_changes
    | apply changesOnly.iteL | apply changesOnly.ite | decide | split | (intro)

theorem imgChOut_changes {F : List Part} {s0 : State} {im : Img} {h : Nat} {c : Nat} {s : State}
    (hF : Part.sub [.regs, .chans] F = true) (hs : changesOnly F s0 s) :
    changesOnly F s0 (imgChOut im h c s) := by
  refine hs.trans (changesOnly.mono ?_ hF)
  clear hs hF
  unfold imgChOut
  with_reducible repeat' first
    | assumption | exact changesOnly.refl _ _ | apply setReg_changes | apply applyCommand_changes
    | apply changesOnly.iteL | apply changesOnly.ite | decide | split | (intro)

theorem imgClamps_changes {F : List Part} {s0 : State} {im : Img} {s : State}
    (hF : Part.sub [.regs, .bb] F = true) (hs : changesOnly F s0 s) :
    changesOnly F s0 (imgClamps im s) := by
  refine hs.trans (changesOnly.mono ?_ hF)
  clear hs hF
  unfold imgClamps
  with_reducible repeat' first
    | assumption | exact changesOnly.refl _ _ | apply cfgClamp_changes | apply changesOnly.foldl
    | apply changesOnly.iteL | apply changesOnly.ite | decide | split | (intro)

theorem imgHeldB_changes {F : List Part} {s0 : State} {im : Img} {h : Nat} {s : State}
    (hF : Part.sub [.regs, .chans, .halls] F = true) (hs : changesOnly F s0 s) :
    changesOnly F s0 (imgHeldB im h s) := by
  refine hs.trans (changesOnly.mono ?_ hF)
  clear hs hF
  unfold imgHeldB
  with_reducible repeat' first
    | assumption | exact changesOnly.refl _ _ | apply setReg_changes | apply resolveAll_changes
    | apply copyWord_changes | apply changesOnly.foldl | apply changesOnly.iteL | apply changesOnly.ite | decide
    | split | (intro)

theorem imgRefused_changes {F : List Part} {s0 : State} {r : ImgRefusal} {copy : Nat} {s : State}
    (hF : Part.sub [.regs, .bb] F = true) (hs : changesOnly F s0 s) :
    changesOnly F s0 (imgRefused r copy s) := by
  refine hs.trans (changesOnly.mono ?_ hF)
  clear hs hF
  unfold imgRefused
  with_reducible repeat' first
    | assumption | exact changesOnly.refl _ _ | apply raiseBit_changes | apply setReg_changes | decide

theorem inputsMixed_changes {F : List Part} {s0 : State} {a : Nat} {e : Nat} {s : State}
    (hF : Part.sub [.chans] F = true) (hs : changesOnly F s0 s) :
    changesOnly F s0 (inputsMixed a e s) := by
  refine hs.trans (changesOnly.mono ?_ hF)
  clear hs hF
  unfold inputsMixed
  with_reducible repeat' first
    | assumption | exact changesOnly.refl _ _ | apply updChan_changes | apply forHalls_into | apply forChans_into
    | apply changesOnly.iteL | apply changesOnly.ite | decide | split | (intro)

theorem inputsStandby_changes {F : List Part} {s0 : State} {a : Nat} {e : Nat} {s : State}
    (hF : Part.sub [.chans, .convs, .halls] F = true) (hs : changesOnly F s0 s) :
    changesOnly F s0 (inputsStandby a e s) := by
  refine hs.trans (changesOnly.mono ?_ hF)
  clear hs hF
  unfold inputsStandby
  with_reducible repeat' first
    | assumption | exact changesOnly.refl _ _ | apply inputForm_changes | apply forHalls_into | apply forChans_into
    | apply changesOnly.iteL | apply changesOnly.ite | decide | split | (intro)

theorem jRecover_changes {F : List Part} {s0 : State} {s : State}
    (hF : Part.sub [.regs, .bb, .mem, .jnl] F = true) (hs : changesOnly F s0 s) :
    changesOnly F s0 (jRecover s) := by
  refine hs.trans (changesOnly.mono ?_ hF)
  clear hs hF
  unfold jRecover
  with_reducible repeat' first
    | assumption | exact changesOnly.refl _ _ | apply eccSeen_changes | apply retWritten_changes
    | apply changesOnly.foldl | apply changesOnly.iteL | apply changesOnly.ite | decide | split
    | apply changesOnly.set_jnl | (intro)

theorem joinShadow_changes {F : List Part} {s0 : State} {h : Nat} {s : State}
    (hF : Part.sub [.halls, .convs] F = true) (hs : changesOnly F s0 s) :
    changesOnly F s0 (joinShadow h s) := by
  refine hs.trans (changesOnly.mono ?_ hF)
  clear hs hF
  unfold joinShadow
  with_reducible repeat' first
    | assumption | exact changesOnly.refl _ _ | apply rotAbandon_changes | apply dropShadow_changes
    | apply updRot_changes | apply updConv_changes | apply changesOnly.iteL | apply changesOnly.ite | decide | split
    | (intro)

theorem partnerLost_changes {F : List Part} {s0 : State} {s : State}
    (hF : Part.sub [.pair, .jnl, .nv, .regs, .bb, .halls, .chans, .per, .convs] F = true) (hs : changesOnly F s0 s) :
    changesOnly F s0 (partnerLost s) := by
  refine hs.trans (changesOnly.mono ?_ hF)
  clear hs hF
  unfold partnerLost
  with_reducible repeat' first
    | assumption | exact changesOnly.refl _ _ | apply updPair_changes | apply hoRollBack_changes
    | apply pairEvent_changes | apply changesOnly.iteL | apply changesOnly.ite | decide | split | (intro)

theorem takeBacklogs_changes {F : List Part} {s0 : State} {s : State}
    (hF : Part.sub [.regs, .runs] F = true) (hs : changesOnly F s0 s) :
    changesOnly F s0 (takeBacklogs s) := by
  refine hs.trans (changesOnly.mono ?_ hF)
  clear hs hF
  unfold takeBacklogs
  with_reducible repeat' first
    | assumption | exact changesOnly.refl _ _ | apply setReg_changes | apply updRun_changes | apply changesOnly.foldl
    | apply changesOnly.iteL | apply changesOnly.ite | decide | split | (intro)

theorem lostTicks_changes {F : List Part} {s0 : State} {f : Nat} {s : State}
    (hF : Part.sub [.regs] F = true) (hs : changesOnly F s0 s) :
    changesOnly F s0 (lostTicks f s) := by
  refine hs.trans (changesOnly.mono ?_ hF)
  clear hs hF
  unfold lostTicks
  repeat' first
    | with_reducible assumption | with_reducible exact changesOnly.refl _ _ | with_reducible apply modReg_changes
    | with_reducible apply forN_into | with_reducible apply changesOnly.iteL | with_reducible apply changesOnly.ite
    | decide | split | with_reducible (intro) | dsimp only

theorem takeoverTotals_changes {F : List Part} {s0 : State} {s : State}
    (hF : Part.sub [.mem, .runs, .aud, .regs, .bb, .eng] F = true) (hs : changesOnly F s0 s) :
    changesOnly F s0 (takeoverTotals s) := by
  refine hs.trans (changesOnly.mono ?_ hF)
  clear hs hF
  unfold takeoverTotals
  with_reducible repeat' first
    | assumption | exact changesOnly.refl _ _ | apply takeTotals_changes | apply raiseBit_changes
    | apply updRun_changes | apply lostTicks_changes | apply tickHeld_changes | apply forN_into
    | apply changesOnly.iteL | apply changesOnly.ite | decide | split | (intro)

theorem takeover_changes {F : List Part} {s0 : State} {s : State}
    (hF : Part.sub [.pair, .regs, .bb, .ml, .stg, .jnl, .nv, .halls, .chans, .per, .convs, .mem, .runs, .aud, .eng] F = true) (hs : changesOnly F s0 s) :
    changesOnly F s0 (takeover s) := by
  refine hs.trans (changesOnly.mono ?_ hF)
  clear hs hF
  unfold takeover
  with_reducible repeat' first
    | assumption | exact changesOnly.refl _ _ | apply roleChange_changes | apply updPair_changes
    | apply hoRollBack_changes | apply jClose_changes | apply jStep_changes | apply jOpen_changes
    | apply takeBacklogs_changes | apply takeoverTotals_changes | apply inputsMixed_changes | apply pairEvent_changes
    | apply changesOnly.iteL | apply changesOnly.ite | decide | split | (intro)

theorem judge_changes {F : List Part} {s0 : State} {actIn : Bool} {s : State}
    (hF : Part.sub [.pair, .jnl, .nv, .regs, .bb, .halls, .chans, .per, .convs, .ml, .stg, .mem, .runs, .aud, .eng] F = true) (hs : changesOnly F s0 s) :
    changesOnly F s0 (judge actIn s) := by
  refine hs.trans (changesOnly.mono ?_ hF)
  clear hs hF
  unfold judge
  with_reducible repeat' first
    | assumption | exact changesOnly.refl _ _ | apply partnerLost_changes | apply pairEvent_changes
    | apply updPair_changes | apply takeover_changes | apply changesOnly.iteL | apply changesOnly.ite | decide
    | split | (intro)

theorem judgePoint_changes {F : List Part} {s0 : State} {n : Nat} {vsrc : Nat} {gain : Nat} {code : Int} {s : State}
    (hF : Part.sub [.halls] F = true) (hs : changesOnly F s0 s) :
    changesOnly F s0 (judgePoint n vsrc gain code s) := by
  refine hs.trans (changesOnly.mono ?_ hF)
  clear hs hF
  unfold judgePoint
  with_reducible repeat' first
    | assumption | exact changesOnly.refl _ _ | apply updRot_changes | apply changesOnly.iteL | apply changesOnly.ite
    | decide | split | (intro)

theorem judgeRatio_changes {F : List Part} {s0 : State} {n : Nat} {code : Int} {s : State}
    (hF : Part.sub [.halls] F = true) (hs : changesOnly F s0 s) :
    changesOnly F s0 (judgeRatio n code s) := by
  refine hs.trans (changesOnly.mono ?_ hF)
  clear hs hF
  unfold judgeRatio
  with_reducible repeat' first
    | assumption | exact changesOnly.refl _ _ | apply updRot_changes | apply rotEvent_changes
    | apply changesOnly.iteL | apply changesOnly.ite | decide | split | (intro)

theorem ladderFailed_changes {F : List Part} {s0 : State} {h : Nat} {s : State}
    (hF : Part.sub [.halls] F = true) (hs : changesOnly F s0 s) :
    changesOnly F s0 (ladderFailed h s) := by
  refine hs.trans (changesOnly.mono ?_ hF)
  clear hs hF
  unfold ladderFailed
  with_reducible repeat' first
    | assumption | exact changesOnly.refl _ _ | apply rotEvent_changes | apply updRot_changes | decide

theorem wantBack_changes {F : List Part} {s0 : State} {h : Nat} {t16 : Nat} {s : State}
    (hF : Part.sub [.halls, .convs] F = true) (hs : changesOnly F s0 s) :
    changesOnly F s0 (wantBack h t16 s) := by
  refine hs.trans (changesOnly.mono ?_ hF)
  clear hs hF
  unfold wantBack
  with_reducible repeat' first
    | assumption | exact changesOnly.refl _ _ | apply updRot_changes | apply joinBack_changes | apply updConv_changes
    | decide

theorem ladderVerdict_changes {F : List Part} {s0 : State} {n : Nat} {t16 : Nat} {s : State}
    (hF : Part.sub [.halls, .convs] F = true) (hs : changesOnly F s0 s) :
    changesOnly F s0 (ladderVerdict n t16 s) := by
  refine hs.trans (changesOnly.mono ?_ hF)
  clear hs hF
  unfold ladderVerdict
  with_reducible repeat' first
    | assumption | exact changesOnly.refl _ _ | apply ladderFailed_changes | apply retire_changes
    | apply startLadder_changes | apply updRot_changes | apply updConv_changes | apply wantBack_changes
    | apply changesOnly.iteL | apply changesOnly.ite | decide | split | (intro)

theorem ladderResult_changes {F : List Part} {s0 : State} {n : Nat} {code : Int} {t16 : Nat} {s : State}
    (hF : Part.sub [.halls, .convs] F = true) (hs : changesOnly F s0 s) :
    changesOnly F s0 (ladderResult n code t16 s) := by
  refine hs.trans (changesOnly.mono ?_ hF)
  clear hs hF
  unfold ladderResult
  extract_lets x0
  with_reducible repeat' first
    | assumption | exact changesOnly.refl _ _ | apply judgeRatio_changes | apply judgePoint_changes
    | apply updRot_changes | apply ladderVerdict_changes | apply updConv_changes | apply changesOnly.iteL
    | apply changesOnly.ite | decide | split | (intro)

theorem ladderPoint_changes {F : List Part} {s0 : State} {n : Nat} {t16 : Nat} {x : Sample} {s : State}
    (hF : Part.sub [.convs, .regs, .bb, .halls] F = true) (hs : changesOnly F s0 s) :
    changesOnly F s0 (ladderPoint n t16 x s) := by
  refine hs.trans (changesOnly.mono ?_ hF)
  clear hs hF
  unfold ladderPoint
  with_reducible repeat' first
    | assumption | exact changesOnly.refl _ _ | apply updConv_changes | apply resultEvents_changes
    | apply ladderResult_changes | apply sendRec_changes | decide

theorem latchPoutQ_changes {F : List Part} {s0 : State} {s : State}
    (hF : Part.sub [.eng] F = true) (hs : changesOnly F s0 s) :
    changesOnly F s0 (latchPoutQ s) := by
  refine hs.trans (changesOnly.mono ?_ hF)
  clear hs hF
  unfold latchPoutQ
  with_reducible repeat' first
    | assumption | exact changesOnly.refl _ _ | apply changesOnly.foldl | decide | apply changesOnly.set_eng
    | (intro)

theorem standbyLatch_changes {F : List Part} {s0 : State} {s : State}
    (hF : Part.sub [.regs, .bb, .pair, .bal, .gal, .nv, .jnl, .mem, .eng, .runs, .aud] F = true) (hs : changesOnly F s0 s) :
    changesOnly F s0 (standbyLatch s) := by
  refine hs.trans (changesOnly.mono ?_ hF)
  clear hs hF
  unfold standbyLatch
  with_reducible repeat' first
    | assumption | exact changesOnly.refl _ _ | apply alignRings_changes | apply mirrorSeen_changes
    | apply beginSlots_changes | apply idleSlots_changes | decide | split

theorem standbyCompare_changes {F : List Part} {s0 : State} {s : State}
    (hF : Part.sub [.pair, .mem, .runs, .aud, .regs, .bb, .tx] F = true) (hs : changesOnly F s0 s) :
    changesOnly F s0 (standbyCompare s) := by
  refine hs.trans (changesOnly.mono ?_ hF)
  clear hs hF
  unfold standbyCompare
  with_reducible repeat' first
    | assumption | exact changesOnly.refl _ _ | apply updPair_changes | apply takeTotals_changes
    | apply diverge_changes | apply changesOnly.iteL | apply changesOnly.ite | decide | split | (intro)

theorem standbyJoin_changes {F : List Part} {s0 : State} {s : State}
    (hF : Part.sub [.mem, .runs, .aud, .regs, .bb, .bal, .jnl, .nv, .per, .gal, .tx, .pair, .eng] F = true) (hs : changesOnly F s0 s) :
    changesOnly F s0 (standbyJoin s) := by
  refine hs.trans (changesOnly.mono ?_ hF)
  clear hs hF
  unfold standbyJoin
  with_reducible repeat' first
    | assumption | exact changesOnly.refl _ _ | apply takeTotals_changes | apply balGap_changes
    | apply gapUpTo_changes | apply askCarried_changes | apply tickHeld_changes | apply updPair_changes | decide
    | split

theorem standbyTake_changes {F : List Part} {s0 : State} {s : State}
    (hF : Part.sub [.eng, .mem, .runs, .aud, .regs, .bb, .pair] F = true) (hs : changesOnly F s0 s) :
    changesOnly F s0 (standbyTake s) := by
  refine hs.trans (changesOnly.mono ?_ hF)
  clear hs hF
  unfold standbyTake
  with_reducible repeat' first
    | assumption | exact changesOnly.refl _ _ | apply tickHeld_changes | apply takeTotals_changes
    | apply updPair_changes | apply takeCarried_changes | decide | split

theorem standbyBoundary_changes {F : List Part} {s0 : State} {s : State}
    (hF : Part.sub [.pair, .mem, .runs, .aud, .regs, .bb, .tx, .bal, .jnl, .nv, .per, .gal, .eng] F = true) (hs : changesOnly F s0 s) :
    changesOnly F s0 (standbyBoundary s) := by
  refine hs.trans (changesOnly.mono ?_ hF)
  clear hs hF
  unfold standbyBoundary
  with_reducible repeat' first
    | assumption | exact changesOnly.refl _ _ | apply standbyCompare_changes | apply mirrorSeen_changes
    | apply standbyJoin_changes | apply standbyTake_changes | apply changesOnly.iteL | apply changesOnly.ite | decide
    | split | (intro)

theorem latchTick_changes {F : List Part} {s0 : State} {s : State}
    (hF : Part.sub [.bal, .pair, .runs, .regs, .bb, .mem, .aud, .eng, .gal, .nv, .jnl, .tx, .per, .chans] F = true) (hs : changesOnly F s0 s) :
    changesOnly F s0 (latchTick s) := by
  refine hs.trans (changesOnly.mono ?_ hF)
  clear hs hF
  unfold latchTick
  with_reducible repeat' first
    | assumption | exact changesOnly.refl _ _ | apply balGap_changes | apply idleSlots_changes
    | apply updPair_changes | apply standbyLatch_changes | apply standbyBoundary_changes | apply activeLatch_changes
    | apply clearDeliveries_changes | apply changesOnly.iteL | apply changesOnly.ite | decide | split | (intro)

theorem portError_changes {F : List Part} {s0 : State} {p : Nat} {s : State}
    (hF : Part.sub [.regs, .bb] F = true) (hs : changesOnly F s0 s) :
    changesOnly F s0 (portError p s) := by
  refine hs.trans (changesOnly.mono ?_ hF)
  clear hs hF
  unfold portError
  with_reducible repeat' first
    | assumption | exact changesOnly.refl _ _ | apply mlEvent_changes | apply modReg_changes | decide

theorem leaves_changes {F : List Part} {s0 : State} {form : Bool} {p : Nat} {f : MlFrame} {s : State}
    (hF : Part.sub [.regs, .bb, .ml] F = true) (hs : changesOnly F s0 s) :
    changesOnly F s0 (leaves form p f s) := by
  refine hs.trans (changesOnly.mono ?_ hF)
  clear hs hF
  unfold leaves
  with_reducible repeat' first
    | assumption | exact changesOnly.refl _ _ | apply portError_changes | apply updPort_changes
    | apply changesOnly.iteL | apply changesOnly.ite | decide | split | (intro)

theorem loadTime_changes {F : List Part} {s0 : State} {s : State}
    (hF : Part.sub [.time, .clk] F = true) (hs : changesOnly F s0 s) :
    changesOnly F s0 (loadTime s) := by
  refine hs.trans (changesOnly.mono ?_ hF)
  clear hs hF
  unfold loadTime
  repeat' first
    | exact Or.inr (by decide) | with_reducible exact Or.inl rfl | with_reducible assumption
    | with_reducible exact changesOnly.refl _ _ | with_reducible apply changesOnly.iteL
    | with_reducible apply changesOnly.ite | decide | split | with_reducible (intro)
    | with_reducible apply changesOnly.mk

theorem lockClocks_changes {F : List Part} {s0 : State} {f : StartFacts} {s : State}
    (hF : Part.sub [.free, .sync, .clk] F = true) (hs : changesOnly F s0 s) :
    changesOnly F s0 (lockClocks f s) := by
  refine hs.trans (changesOnly.mono ?_ hF)
  clear hs hF
  unfold lockClocks
  repeat' first
    | exact Or.inr (by decide) | with_reducible exact Or.inl rfl | with_reducible assumption
    | with_reducible exact changesOnly.refl _ _ | with_reducible apply takeFree_changes | decide
    | with_reducible apply changesOnly.mk

theorem mailboxResponse_changes {F : List Part} {s0 : State} {e : AcyIn} {s : State}
    (hF : Part.sub [.regs, .bb, .ml] F = true) (hs : changesOnly F s0 s) :
    changesOnly F s0 (mailboxResponse e s) := by
  refine hs.trans (changesOnly.mono ?_ hF)
  clear hs hF
  unfold mailboxResponse
  with_reducible repeat' first
    | assumption | exact changesOnly.refl _ _ | apply setReg_changes | apply mbDone_changes | apply forN_into
    | apply changesOnly.iteL | apply changesOnly.ite | decide | split | (intro)

theorem markShort_changes {F : List Part} {s0 : State} {s : State}
    (hF : Part.sub [.hp] F = true) (hs : changesOnly F s0 s) :
    changesOnly F s0 (markShort s) := by
  refine hs.trans (changesOnly.mono ?_ hF)
  clear hs hF
  unfold markShort
  with_reducible repeat' first
    | assumption | exact changesOnly.refl _ _ | decide | apply changesOnly.set_hp

theorem writeMirror_changes {F : List Part} {s0 : State} {a : Nat} {bs : List Byte} {s : State}
    (hF : Part.sub [.mem] F = true) (hs : changesOnly F s0 s) :
    changesOnly F s0 (writeMirror a bs s) := by
  refine hs.trans (changesOnly.mono ?_ hF)
  clear hs hF
  unfold writeMirror
  with_reducible repeat' first
    | assumption | exact changesOnly.refl _ _ | decide | apply changesOnly.set_mem

theorem mirrorFrame_changes {F : List Part} {s0 : State} {f : PairFrame} {collide : Collision} {s : State}
    (hF : Part.sub [.mem, .regs, .bb, .pair] F = true) (hs : changesOnly F s0 s) :
    changesOnly F s0 (mirrorFrame f collide s) := by
  refine hs.trans (changesOnly.mono ?_ hF)
  clear hs hF
  unfold mirrorFrame
  with_reducible repeat' first
    | assumption | exact changesOnly.refl _ _ | apply writeMirror_changes | apply pairEvent_changes
    | apply updPair_changes | apply changesOnly.iteL | apply changesOnly.ite | decide | split | (intro)

theorem mixedResult_changes {F : List Part} {s0 : State} {n : Nat} {e : Nat} {s : State}
    (hF : Part.sub [.convs, .halls] F = true) (hs : changesOnly F s0 s) :
    changesOnly F s0 (mixedResult n e s) := by
  refine hs.trans (changesOnly.mono ?_ hF)
  clear hs hF
  unfold mixedResult
  with_reducible repeat' first
    | assumption | exact changesOnly.refl _ _ | apply restartAt_changes | apply discardOpen_changes
    | apply dropShadow_changes | apply changesOnly.iteL | apply changesOnly.ite | decide | split | (intro)

theorem monitorFlags_changes {F : List Part} {s0 : State} {h : Nat} {c : Nat} {i : Int} {hr : Int} {ref : Int} {s : State}
    (hF : Part.sub [.chans] F = true) (hs : changesOnly F s0 s) :
    changesOnly F s0 (monitorFlags h c i hr ref s) := by
  refine hs.trans (changesOnly.mono ?_ hF)
  clear hs hF
  unfold monitorFlags
  with_reducible repeat' first
    | assumption | exact changesOnly.refl _ _ | apply updChan_changes | apply chFlag_changes | apply cutLatch_changes
    | apply extDetected_changes | apply changesOnly.iteL | apply changesOnly.ite | decide | split | (intro)

theorem monitorRec_changes {F : List Part} {s0 : State} {h : Nat} {r : Rec} {s : State}
    (hF : Part.sub [.regs] F = true) (hs : changesOnly F s0 s) :
    changesOnly F s0 (monitorRec h r s) := by
  refine hs.trans (changesOnly.mono ?_ hF)
  clear hs hF
  unfold monitorRec
  with_reducible repeat' first
    | assumption | exact changesOnly.refl _ _ | apply setReg_changes | decide

theorem noteSlot_changes {F : List Part} {s0 : State} {n : Nat} {k : Nat} {s : State}
    (hF : Part.sub [.pair] F = true) (hs : changesOnly F s0 s) :
    changesOnly F s0 (noteSlot n k s) := by
  refine hs.trans (changesOnly.mono ?_ hF)
  clear hs hF
  unfold noteSlot
  with_reducible repeat' first
    | assumption | exact changesOnly.refl _ _ | decide | split | apply changesOnly.set_pair

theorem noteRecords_changes {F : List Part} {s0 : State} {a : Nat} {len : Nat} {s : State}
    (hF : Part.sub [.pair] F = true) (hs : changesOnly F s0 s) :
    changesOnly F s0 (noteRecords a len s) := by
  refine hs.trans (changesOnly.mono ?_ hF)
  clear hs hF
  unfold noteRecords
  with_reducible repeat' first
    | assumption | exact changesOnly.refl _ _ | apply noteSlot_changes | apply changesOnly.foldl
    | apply changesOnly.iteL | apply changesOnly.ite | decide | split | (intro)

theorem noteStall_changes {F : List Part} {s0 : State} {s : State}
    (hF : Part.sub [.free, .regs] F = true) (hs : changesOnly F s0 s) :
    changesOnly F s0 (noteStall s) := by
  refine hs.trans (changesOnly.mono ?_ hF)
  clear hs hF
  unfold noteStall
  with_reducible repeat' first
    | assumption | exact changesOnly.refl _ _ | apply takeFree_changes | apply modReg_changes | decide

theorem noteWait_changes {F : List Part} {s0 : State} {s : State}
    (hF : Part.sub [.free, .regs] F = true) (hs : changesOnly F s0 s) :
    changesOnly F s0 (noteWait s) := by
  refine hs.trans (changesOnly.mono ?_ hF)
  clear hs hF
  unfold noteWait
  with_reducible repeat' first
    | assumption | exact changesOnly.refl _ _ | apply takeFree_changes | apply modReg_changes | decide

theorem nvProgram_changes {F : List Part} {s0 : State} {i : Nat} {a : Nat} {bs : List Byte} {s : State}
    (hF : Part.sub [.nv] F = true) (hs : changesOnly F s0 s) :
    changesOnly F s0 (nvProgram i a bs s) := by
  refine hs.trans (changesOnly.mono ?_ hF)
  clear hs hF
  unfold nvProgram
  with_reducible repeat' first
    | assumption | exact changesOnly.refl _ _ | apply updChip_changes | decide

theorem outputIdle_changes {F : List Part} {s0 : State} {h : Nat} {c : Nat} {s : State}
    (hF : Part.sub [.chans] F = true) (hs : changesOnly F s0 s) :
    changesOnly F s0 (outputIdle h c s) := by
  refine hs.trans (changesOnly.mono ?_ hF)
  clear hs hF
  unfold outputIdle
  with_reducible repeat' first
    | assumption | exact changesOnly.refl _ _ | apply updChan_changes | apply startRamp_changes
    | apply resolve_changes | apply changesOnly.iteL | apply changesOnly.ite | decide | split | (intro)

theorem ownSubs_changes {F : List Part} {s0 : State} {s : State}
    (hF : Part.sub [.regs, .ml] F = true) (hs : changesOnly F s0 s) :
    changesOnly F s0 (ownSubs s) := by
  refine hs.trans (changesOnly.mono ?_ hF)
  clear hs hF
  unfold ownSubs
  with_reducible repeat' first
    | assumption | exact changesOnly.refl _ _ | apply putSub_changes | apply forN_into | apply changesOnly.iteL
    | apply changesOnly.ite | decide | split | apply changesOnly.set_ml | (intro)

theorem pairBad_changes {F : List Part} {s0 : State} {s : State}
    (hF : Part.sub [.pair] F = true) (hs : changesOnly F s0 s) :
    changesOnly F s0 (pairBad s) := by
  refine hs.trans (changesOnly.mono ?_ hF)
  clear hs hF
  unfold pairBad
  with_reducible repeat' first
    | assumption | exact changesOnly.refl _ _ | apply updPair_changes | decide

theorem partnerJoin_changes {F : List Part} {s0 : State} {confirmed : Bool} {lag : Bool} {s : State}
    (hF : Part.sub [.regs, .bb, .pair] F = true) (hs : changesOnly F s0 s) :
    changesOnly F s0 (partnerJoin confirmed lag s) := by
  refine hs.trans (changesOnly.mono ?_ hF)
  clear hs hF
  unfold partnerJoin
  with_reducible repeat' first
    | assumption | exact changesOnly.refl _ _ | apply pairEvent_changes | apply updPair_changes
    | apply changesOnly.iteL | apply changesOnly.ite | decide | split | (intro)

end Sys2Proof.Machine
end

