-- ==== Sys2Proof/Laws/Changes10.lean ====
section
/-! SUPPORT. What each shared operation changes at most: the parts of the state (part 11 of 12). -/

set_option linter.unusedTactic false
set_option linter.unreachableTactic false

namespace Sys2Proof.Machine

theorem passOn_changes {F : List Part} {s0 : State} {form : Bool} {typ : Nat} {p : Nat} {f : MlFrame} {payload : List Byte} {s : State}
    (hF : Part.sub [.tx, .regs, .bb, .mem, .ml] F = true) (hs : changesOnly F s0 s) :
    changesOnly F s0 (passOn form typ p f payload s) := by
  refine hs.trans (changesOnly.mono ?_ hF)
  clear hs hF
  unfold passOn
  with_reducible repeat' first
    | assumption | exact changesOnly.refl _ _ | apply relay_changes | apply updPort_changes | apply portError_changes
    | apply changesOnly.iteL | apply changesOnly.ite | decide | split | (intro)

theorem pastEnd_changes {F : List Part} {s0 : State} {a : Nat} {s : State}
    (hF : Part.sub [.hp] F = true) (hs : changesOnly F s0 s) :
    changesOnly F s0 (pastEnd a s) := by
  refine hs.trans (changesOnly.mono ?_ hF)
  clear hs hF
  unfold pastEnd
  with_reducible repeat' first
    | assumption | exact changesOnly.refl _ _ | apply changesOnly.iteL | apply changesOnly.ite | decide | split
    | apply changesOnly.set_hp | (intro)

theorem periodStep_changes {F : List Part} {s0 : State} {s : State}
    (hF : Part.sub [.regs, .bb, .per] F = true) (hs : changesOnly F s0 s) :
    changesOnly F s0 (periodStep s) := by
  refine hs.trans (changesOnly.mono ?_ hF)
  clear hs hF
  unfold periodStep
  with_reducible repeat' first
    | assumption | exact changesOnly.refl _ _ | apply raiseBit_changes | apply updKind_changes | decide

theorem writeMain_changes {F : List Part} {s0 : State} {a : Nat} {bs : List Byte} {s : State}
    (hF : Part.sub [.mem] F = true) (hs : changesOnly F s0 s) :
    changesOnly F s0 (writeMain a bs s) := by
  refine hs.trans (changesOnly.mono ?_ hF)
  clear hs hF
  unfold writeMain
  with_reducible repeat' first
    | assumption | exact changesOnly.refl _ _ | decide | apply changesOnly.set_mem

theorem placeRec_changes {F : List Part} {s0 : State} {n : Nat} {r : Rec} {s : State}
    (hF : Part.sub [.mem, .convs, .newest, .older] F = true) (hs : changesOnly F s0 s) :
    changesOnly F s0 (placeRec n r s) := by
  refine hs.trans (changesOnly.mono ?_ hF)
  clear hs hF
  unfold placeRec
  repeat' first
    | exact Or.inr (by decide) | with_reducible exact Or.inl rfl | with_reducible assumption
    | with_reducible exact changesOnly.refl _ _ | with_reducible apply writeMain_changes
    | with_reducible apply updConv_changes | with_reducible apply changesOnly.iteL
    | with_reducible apply changesOnly.ite | decide | split | with_reducible (intro)
    | with_reducible apply changesOnly.mk

theorem publishRuns_changes {F : List Part} {s0 : State} {s : State}
    (hF : Part.sub [.regs] F = true) (hs : changesOnly F s0 s) :
    changesOnly F s0 (publishRuns s) := by
  refine hs.trans (changesOnly.mono ?_ hF)
  clear hs hF
  unfold publishRuns
  with_reducible repeat' first
    | assumption | exact changesOnly.refl _ _ | apply setReg_changes | apply forN_into | decide | (intro)

theorem pulseReported_changes {F : List Part} {s0 : State} {m : Nat} {s : State}
    (hF : Part.sub [.runs, .regs] F = true) (hs : changesOnly F s0 s) :
    changesOnly F s0 (pulseReported m s) := by
  refine hs.trans (changesOnly.mono ?_ hF)
  clear hs hF
  unfold pulseReported
  with_reducible repeat' first
    | assumption | exact changesOnly.refl _ _ | apply updRun_changes | apply setReg_changes | apply changesOnly.iteL
    | apply changesOnly.ite | decide | split | (intro)

theorem pulseStart_changes {F : List Part} {s0 : State} {g : Nat} {s : State}
    (hF : Part.sub [.regs, .bb, .halls, .chans, .per, .tx] F = true) (hs : changesOnly F s0 s) :
    changesOnly F s0 (pulseStart g s) := by
  refine hs.trans (changesOnly.mono ?_ hF)
  clear hs hF
  unfold pulseStart
  extract_lets x0
  have hx0 : changesOnly [.regs, .bb, .halls, .chans, .per, .tx] s x0 := by
    unfold x0
    with_reducible repeat' first
      | assumption | exact changesOnly.refl _ _ | apply report_changes | apply outputActive_changes
      | apply sendBacklog_changes | apply changesOnly.iteL | apply changesOnly.ite | decide | split | (intro)
  clear_value x0
  with_reducible repeat' first
    | assumption | exact changesOnly.refl _ _ | apply report_changes | apply outputActive_changes
    | apply sendBacklog_changes | apply changesOnly.iteL | apply changesOnly.ite | decide | split | (intro)

theorem unitWidth_changes {F : List Part} {s0 : State} {wext : Nat} {s : State}
    (hF : Part.sub [.regs, .bb] F = true) (hs : changesOnly F s0 s) :
    changesOnly F s0 (unitWidth wext s).2 := by
  refine hs.trans (changesOnly.mono ?_ hF)
  clear hs hF
  unfold unitWidth
  with_reducible repeat' first
    | assumption | exact changesOnly.refl _ _ | apply cfgClamp_changes | apply changesOnly.iteL
    | apply changesOnly.ite | decide | split | (intro)

theorem readWord_changes {F : List Part} {s0 : State} {ifc : Nat} {a : Nat} {s : State}
    (hF : Part.sub [.latch] F = true) (hs : changesOnly F s0 s) :
    changesOnly F s0 (readWord ifc a s).2 := by
  refine hs.trans (changesOnly.mono ?_ hF)
  clear hs hF
  unfold readWord
  with_reducible repeat' first
    | assumption | exact changesOnly.refl _ _ | apply changesOnly.foldl | apply changesOnly.iteL
    | apply changesOnly.ite | decide | split | apply changesOnly.set_latch | (intro)

theorem readUnit_changes {F : List Part} {s0 : State} {fixed : Bool} {w : Nat} {a : Nat} {underrun : List Nat} {changed : Bool} {i : Nat} {s : State}
    (hF : Part.sub [.latch, .regs, .bb, .free, .hp] F = true) (hs : changesOnly F s0 s) :
    changesOnly F s0 (readUnit fixed w a underrun changed i s) := by
  refine hs.trans (changesOnly.mono ?_ hF)
  clear hs hF
  unfold readUnit
  with_reducible repeat' first
    | assumption | exact changesOnly.refl _ _ | apply readWord_changes | apply raiseBit_changes
    | apply takeFree_changes | apply pastEnd_changes | apply changesOnly.iteL | apply changesOnly.ite | decide
    | split | apply changesOnly.set_hp | (intro)

theorem readFrame_changes {F : List Part} {s0 : State} {fixed : Bool} {wext : Nat} {a : Nat} {n : Nat} {underrun : List Nat} {changed : Bool} {s : State}
    (hF : Part.sub [.regs, .bb, .hp, .latch, .free] F = true) (hs : changesOnly F s0 s) :
    changesOnly F s0 (readFrame fixed wext a n underrun changed s) := by
  refine hs.trans (changesOnly.mono ?_ hF)
  clear hs hF
  unfold readFrame
  with_reducible repeat' first
    | assumption | exact changesOnly.refl _ _ | apply unitWidth_changes | apply readUnit_changes | apply forN_into
    | decide | apply changesOnly.set_hp | (intro)

theorem readbackState_changes {F : List Part} {s0 : State} {h : Nat} {frc : BitVec 4} {s : State}
    (hF : Part.sub [.chans] F = true) (hs : changesOnly F s0 s) :
    changesOnly F s0 (readbackState h frc s) := by
  refine hs.trans (changesOnly.mono ?_ hF)
  clear hs hF
  unfold readbackState
  with_reducible repeat' first
    | assumption | exact changesOnly.refl _ _ | apply chState_changes | apply forChans_into | apply changesOnly.iteL
    | apply changesOnly.ite | decide | split | (intro)

theorem recapturePeriods_changes {F : List Part} {s0 : State} {s : State}
    (hF : Part.sub [.nv, .gal, .regs, .bb, .mem, .jnl] F = true) (hs : changesOnly F s0 s) :
    changesOnly F s0 (recapturePeriods s) := by
  refine hs.trans (changesOnly.mono ?_ hF)
  clear hs hF
  unfold recapturePeriods
  with_reducible repeat' first
    | assumption | exact changesOnly.refl _ _ | apply periodWrite_changes | apply capSound_changes
    | apply changesOnly.foldl | decide | split | (intro)

theorem recapture_changes {F : List Part} {s0 : State} {s : State}
    (hF : Part.sub [.nv, .jnl, .mem, .gal, .regs, .bb] F = true) (hs : changesOnly F s0 s) :
    changesOnly F s0 (recapture s) := by
  refine hs.trans (changesOnly.mono ?_ hF)
  clear hs hF
  unfold recapture
  with_reducible repeat' first
    | assumption | exact changesOnly.refl _ _ | apply ckptsBegin_changes | apply recapturePeriods_changes
    | apply capSound_changes | apply changesOnly.foldl | decide | split | (intro)

theorem takeMode_changes {F : List Part} {s0 : State} {h : Nat} {c : Nat} {m : Nat} {s : State}
    (hF : Part.sub [.chans] F = true) (hs : changesOnly F s0 s) :
    changesOnly F s0 (takeMode h c m s) := by
  refine hs.trans (changesOnly.mono ?_ hF)
  clear hs hF
  unfold takeMode
  with_reducible repeat' first
    | assumption | exact changesOnly.refl _ _ | apply updChan_changes | apply resolve_changes | apply riskOf_changes
    | apply changesOnly.iteL | apply changesOnly.ite | decide | split | (intro)

theorem restoreLate_changes {F : List Part} {s0 : State} {h : Nat} {c : Nat} {s : State}
    (hF : Part.sub [.chans] F = true) (hs : changesOnly F s0 s) :
    changesOnly F s0 (restoreLate h c s) := by
  refine hs.trans (changesOnly.mono ?_ hF)
  clear hs hF
  unfold restoreLate
  with_reducible repeat' first
    | assumption | exact changesOnly.refl _ _ | apply leaveSafe_changes | apply updChan_changes | decide

theorem releaseChannels_changes {F : List Part} {s0 : State} {h : Nat} {s : State}
    (hF : Part.sub [.chans, .convs, .halls] F = true) (hs : changesOnly F s0 s) :
    changesOnly F s0 (releaseChannels h s) := by
  refine hs.trans (changesOnly.mono ?_ hF)
  clear hs hF
  unfold releaseChannels
  with_reducible repeat' first
    | assumption | exact changesOnly.refl _ _ | apply takeMode_changes | apply standbyForm_changes
    | apply updHall_changes | apply restoreLate_changes | apply resolve_changes | apply leaveAll_changes
    | apply forChans_into | apply changesOnly.iteL | apply changesOnly.ite | decide | split | (intro)

theorem roleForm_changes {F : List Part} {s0 : State} {h : Nat} {c : Nat} {s : State}
    (hF : Part.sub [.chans, .convs, .halls] F = true) (hs : changesOnly F s0 s) :
    changesOnly F s0 (roleForm h c s) := by
  refine hs.trans (changesOnly.mono ?_ hF)
  clear hs hF
  unfold roleForm
  with_reducible repeat' first
    | assumption | exact changesOnly.refl _ _ | apply activeForm_changes | apply updChan_changes
    | apply changesOnly.iteL | apply changesOnly.ite | decide | split | (intro)

theorem releaseHall_changes {F : List Part} {s0 : State} {h : Nat} {s : State}
    (hF : Part.sub [.halls, .chans, .convs] F = true) (hs : changesOnly F s0 s) :
    changesOnly F s0 (releaseHall h s) := by
  refine hs.trans (changesOnly.mono ?_ hF)
  clear hs hF
  unfold releaseHall
  with_reducible repeat' first
    | assumption | exact changesOnly.refl _ _ | apply leaveAll_changes | apply roleForm_changes
    | apply hallFlag_changes | apply forChans_into | apply changesOnly.iteL | apply changesOnly.ite | decide | split
    | (intro)

theorem reloadClose_changes {F : List Part} {s0 : State} {h : Nat} {s : State}
    (hF : Part.sub [.regs, .bb, .img, .jnl, .nv] F = true) (hs : changesOnly F s0 s) :
    changesOnly F s0 (reloadClose h s) := by
  refine hs.trans (changesOnly.mono ?_ hF)
  clear hs hF
  unfold reloadClose
  with_reducible repeat' first
    | assumption | exact changesOnly.refl _ _ | apply raiseBit_changes | apply dropReload_changes
    | apply jClose_changes | apply changesOnly.iteL | apply changesOnly.ite | decide | split | (intro)

theorem updReload_changes {F : List Part} {s0 : State} {h : Nat} {f : Reload → Reload} {s : State}
    (hF : Part.sub [.img] F = true) (hs : changesOnly F s0 s) :
    changesOnly F s0 (updReload h f s) := by
  refine hs.trans (changesOnly.mono ?_ hF)
  clear hs hF
  unfold updReload
  with_reducible repeat' first
    | assumption | exact changesOnly.refl _ _ | apply changesOnly.iteL | apply changesOnly.ite | decide | split
    | apply changesOnly.set_img | (intro)

theorem takeSection_changes {F : List Part} {s0 : State} {im : Img} {h : Nat} {s : State}
    (hF : Part.sub [.halls, .convs, .chans] F = true) (hs : changesOnly F s0 s) :
    changesOnly F s0 (takeSection im h s) := by
  refine hs.trans (changesOnly.mono ?_ hF)
  clear hs hF
  unfold takeSection
  with_reducible repeat' first
    | assumption | exact changesOnly.refl _ _ | apply updHall_changes | apply takeBuffer_changes
    | apply hallConfigured_changes | apply updChan_changes | apply forChans_into | decide | (intro)

theorem reloadFlights_changes {F : List Part} {s0 : State} {h : Nat} {s : State}
    (hF : Part.sub [.regs, .bb, .img, .jnl, .nv] F = true) (hs : changesOnly F s0 s) :
    changesOnly F s0 (reloadFlights h s) := by
  refine hs.trans (changesOnly.mono ?_ hF)
  clear hs hF
  unfold reloadFlights
  with_reducible repeat' first
    | assumption | exact changesOnly.refl _ _ | apply reloadClose_changes | apply updReload_changes
    | apply jStep_changes | apply changesOnly.iteL | apply changesOnly.ite | decide | split | (intro)

theorem reloadConfirm_changes {F : List Part} {s0 : State} {r : Reload} {s : State}
    (hF : Part.sub [.img, .jnl, .halls, .convs, .chans, .regs, .bb, .per, .nv] F = true) (hs : changesOnly F s0 s) :
    changesOnly F s0 (reloadConfirm r s) := by
  refine hs.trans (changesOnly.mono ?_ hF)
  clear hs hF
  unfold reloadConfirm
  with_reducible repeat' first
    | assumption | exact changesOnly.refl _ _ | apply updReload_changes | apply jStep_changes
    | apply takeSection_changes | apply report_changes | apply reloadFlights_changes | apply startFlights_changes
    | decide

theorem reloadDrop_changes {F : List Part} {s0 : State} {h : Nat} {s : State}
    (hF : Part.sub [.jnl, .nv, .img] F = true) (hs : changesOnly F s0 s) :
    changesOnly F s0 (reloadDrop h s) := by
  refine hs.trans (changesOnly.mono ?_ hF)
  clear hs hF
  unfold reloadDrop
  with_reducible repeat' first
    | assumption | exact changesOnly.refl _ _ | apply jClose_changes | apply dropReload_changes | decide | split

theorem unlink_changes {F : List Part} {s0 : State} {h : Nat} {s : State}
    (hF : Part.sub [.halls, .regs] F = true) (hs : changesOnly F s0 s) :
    changesOnly F s0 (unlink h s) := by
  refine hs.trans (changesOnly.mono ?_ hF)
  clear hs hF
  unfold unlink
  with_reducible repeat' first
    | assumption | exact changesOnly.refl _ _ | apply updHall_changes | apply setReg_changes
    | apply changesOnly.foldl | apply changesOnly.iteL | apply changesOnly.ite | decide | split | (intro)

theorem reloadFail_changes {F : List Part} {s0 : State} {r : Reload} {s : State}
    (hF : Part.sub [.jnl, .nv, .img, .regs, .chans, .halls, .bb, .mem, .convs, .newest, .older, .str] F = true) (hs : changesOnly F s0 s) :
    changesOnly F s0 (reloadFail r s) := by
  refine hs.trans (changesOnly.mono ?_ hF)
  clear hs hF
  unfold reloadFail
  with_reducible repeat' first
    | assumption | exact changesOnly.refl _ _ | apply jClose_changes | apply dropReload_changes
    | apply modReg_changes | apply chanOff_changes | apply unlink_changes | apply updHall_changes
    | apply setReg_changes | apply raiseBit_changes | apply activateNext_changes | apply forChans_into
    | apply changesOnly.iteL | apply changesOnly.ite | decide | split | apply changesOnly.set_img | (intro)

theorem repairCopy_changes {F : List Part} {s0 : State} {s : State}
    (hF : Part.sub [.jnl, .nv, .mem, .img] F = true) (hs : changesOnly F s0 s) :
    changesOnly F s0 (repairCopy s) := by
  refine hs.trans (changesOnly.mono ?_ hF)
  clear hs hF
  unfold repairCopy
  with_reducible repeat' first
    | assumption | exact changesOnly.refl _ _ | apply jStep_changes | apply jOpen_changes | apply updChip_changes
    | apply setCopy_changes | apply addJob_changes | apply changesOnly.iteL | apply changesOnly.ite | decide | split
    | (intro)

theorem respond_changes {F : List Part} {s0 : State} {dst : Nat} {tag : Nat} {op : Nat} {data : List Byte} {s : State}
    (hF : Part.sub [.ml] F = true) (hs : changesOnly F s0 s) :
    changesOnly F s0 (respond dst tag op data s) := by
  refine hs.trans (changesOnly.mono ?_ hF)
  clear hs hF
  unfold respond
  with_reducible repeat' first
    | assumption | exact changesOnly.refl _ _ | apply acyPush_changes | decide

theorem shadowResult_changes {F : List Part} {s0 : State} {n : Nat} {t16 : Nat} {x : Sample} {s : State}
    (hF : Part.sub [.convs, .regs, .bb, .halls] F = true) (hs : changesOnly F s0 s) :
    changesOnly F s0 (shadowResult n t16 x s) := by
  refine hs.trans (changesOnly.mono ?_ hF)
  clear hs hF
  unfold shadowResult
  with_reducible repeat' first
    | assumption | exact changesOnly.refl _ _ | apply updConv_changes | apply resultEvents_changes
    | apply sendRec_changes | apply pairSide_changes | apply changesOnly.iteL | apply changesOnly.ite | decide
    | split | (intro)

theorem resultOf_changes {F : List Part} {s0 : State} {n : Nat} {v : ConvState} {x : Sample} {s : State}
    (hF : Part.sub [.halls, .chans, .convs, .regs, .bb, .wd, .img] F = true) (hs : changesOnly F s0 s) :
    changesOnly F s0 (resultOf n v x s) := by
  refine hs.trans (changesOnly.mono ?_ hF)
  clear hs hF
  unfold resultOf
  with_reducible repeat' first
    | assumption | exact changesOnly.refl _ _ | apply flightResult_changes | apply shadowResult_changes
    | apply ladderPoint_changes | decide | split

theorem retentionLost_changes {F : List Part} {s0 : State} {s : State}
    (hF : Part.sub [.halls, .runs, .per, .aud, .gal, .bb, .jnl, .mem, .wd, .clk] F = true) (hs : changesOnly F s0 s) :
    changesOnly F s0 (retentionLost s) := by
  refine hs.trans (changesOnly.mono ?_ hF)
  clear hs hF
  unfold retentionLost
  repeat' first
    | exact Or.inr (by decide) | with_reducible exact Or.inl rfl | with_reducible assumption
    | with_reducible exact changesOnly.refl _ _ | with_reducible apply updHall_changes
    | with_reducible apply forHalls_into | with_reducible apply changesOnly.foldl | decide | split
    | with_reducible (intro) | with_reducible apply changesOnly.mk

theorem ringReads_changes {F : List Part} {s0 : State} {n a : Nat} {s : State}
    (hF : Part.sub [.latch] F = true) (hs : changesOnly F s0 s) :
    changesOnly F s0 (ringReads n a s).2 := by
  induction n generalizing a s with
  | zero => exact hs
  | succ n ih => exact ih (readWord_changes hF hs)

theorem ringWrites_changes {F : List Part} {s0 : State} {o : Origin} {mask : Word} {a : Nat} {l : List Word} {s : State}
    (hF : Part.sub [.regs, .bb, .stg, .aud, .mem, .tx, .pair, .halls, .chans, .per, .convs, .str, .sync, .ml, .wd, .img, .free, .time, .modes, .clk, .jnl, .nv, .gal, .newest, .older, .eng, .pins] F = true) (hs : changesOnly F s0 s) :
    changesOnly F s0 (ringWrites o mask a l s).2 := by
  induction l generalizing a s with
  | nil => exact hs
  | cons w l ih =>
    simp only [ringWrites]
    split
    · exact writeReg_changes (Part.sub_trans rfl hF) hs
    · exact ih (writeReg_changes (Part.sub_trans rfl hF) hs)

theorem sagRamps_changes {F : List Part} {s0 : State} {h : Nat} {s : State}
    (hF : Part.sub [.chans] F = true) (hs : changesOnly F s0 s) :
    changesOnly F s0 (sagRamps h s) := by
  refine hs.trans (changesOnly.mono ?_ hF)
  clear hs hF
  unfold sagRamps
  with_reducible repeat' first
    | assumption | exact changesOnly.refl _ _ | apply startRamp_changes | apply forChans_into
    | apply changesOnly.iteL | apply changesOnly.ite | decide | split | (intro)

theorem samplePulse_changes {F : List Part} {s0 : State} {h : Nat} {c : Nat} {s : State}
    (hF : Part.sub [.chans] F = true) (hs : changesOnly F s0 s) :
    changesOnly F s0 (samplePulse h c s) := by
  refine hs.trans (changesOnly.mono ?_ hF)
  clear hs hF
  unfold samplePulse
  with_reducible repeat' first
    | assumption | exact changesOnly.refl _ _ | apply chState_changes | apply changesOnly.iteL
    | apply changesOnly.ite | decide | split | (intro)

theorem samplePulses_changes {F : List Part} {s0 : State} {s : State}
    (hF : Part.sub [.regs, .bb, .halls, .chans, .per] F = true) (hs : changesOnly F s0 s) :
    changesOnly F s0 (samplePulses s) := by
  refine hs.trans (changesOnly.mono ?_ hF)
  clear hs hF
  unfold samplePulses
  with_reducible repeat' first
    | assumption | exact changesOnly.refl _ _ | apply report_changes | apply samplePulse_changes
    | apply forHalls_into | apply forChans_into | apply changesOnly.iteL | apply changesOnly.ite | decide | split
    | (intro)

theorem sampleTake_changes {F : List Part} {s0 : State} {g : Nat} {r : Rec} {s : State}
    (hF : Part.sub [.bb] F = true) (hs : changesOnly F s0 s) :
    changesOnly F s0 (sampleTake g r s) := by
  refine hs.trans (changesOnly.mono ?_ hF)
  clear hs hF
  unfold sampleTake
  with_reducible repeat' first
    | assumption | exact changesOnly.refl _ _ | apply changesOnly.iteL | apply changesOnly.ite | decide | split
    | apply changesOnly.set_bb | (intro)

theorem sendAnswer_changes {F : List Part} {s0 : State} {s : State}
    (hF : Part.sub [.tx, .pair] F = true) (hs : changesOnly F s0 s) :
    changesOnly F s0 (sendAnswer s) := by
  refine hs.trans (changesOnly.mono ?_ hF)
  clear hs hF
  unfold sendAnswer
  with_reducible repeat' first
    | assumption | exact changesOnly.refl _ _ | apply pairBlockAll_changes | decide | split

theorem sendHeartbeat_changes {F : List Part} {s0 : State} {h : Nat} {s : State}
    (hF : Part.sub [.halls, .tx] F = true) (hs : changesOnly F s0 s) :
    changesOnly F s0 (sendHeartbeat h s) := by
  refine hs.trans (changesOnly.mono ?_ hF)
  clear hs hF
  unfold sendHeartbeat
  with_reducible repeat' first
    | assumption | exact changesOnly.refl _ _ | apply updHall_changes | apply send_changes | decide

theorem sendImageWord_changes {F : List Part} {s0 : State} {bs : List Byte} {i : Nat} {s : State}
    (hF : Part.sub [.tx, .pair] F = true) (hs : changesOnly F s0 s) :
    changesOnly F s0 (sendImageWord bs i s) := by
  refine hs.trans (changesOnly.mono ?_ hF)
  clear hs hF
  unfold sendImageWord
  with_reducible repeat' first
    | assumption | exact changesOnly.refl _ _ | apply forward_changes | decide

theorem sendStatus_changes {F : List Part} {s0 : State} {s : State}
    (hF : Part.sub [.tx, .pair] F = true) (hs : changesOnly F s0 s) :
    changesOnly F s0 (sendStatus s) := by
  refine hs.trans (changesOnly.mono ?_ hF)
  clear hs hF
  unfold sendStatus
  with_reducible repeat' first
    | assumption | exact changesOnly.refl _ _ | apply pairSend_changes | decide

theorem syncCommand_changes {F : List Part} {s0 : State} {t : Nat} {s : State}
    (hF : Part.sub [.regs, .bb, .sync] F = true) (hs : changesOnly F s0 s) :
    changesOnly F s0 (syncCommand t s) := by
  refine hs.trans (changesOnly.mono ?_ hF)
  clear hs hF
  unfold syncCommand
  with_reducible repeat' first
    | assumption | exact changesOnly.refl _ _ | apply raiseBit_changes | apply schedule_changes
    | apply changesOnly.iteL | apply changesOnly.ite | decide | split | (intro)

theorem serveRead_changes {F : List Part} {s0 : State} {src : Nat} {e : AcyIn} {s : State}
    (hF : Part.sub [.ml, .latch] F = true) (hs : changesOnly F s0 s) :
    changesOnly F s0 (serveRead src e s) := by
  refine hs.trans (changesOnly.mono ?_ hF)
  clear hs hF
  unfold serveRead
  with_reducible repeat' first
    | assumption | exact changesOnly.refl _ _ | apply respond_changes | apply ringReads_changes
    | apply changesOnly.iteL | apply changesOnly.ite | decide | split | (intro)

theorem serveWrite_changes {F : List Part} {s0 : State} {src : Nat} {e : AcyIn} {s : State}
    (hF : Part.sub [.ml, .regs, .bb, .stg, .aud, .mem, .tx, .pair, .halls, .chans, .per, .convs, .str, .sync, .wd, .img, .free, .time, .modes, .clk, .jnl, .nv, .gal, .newest, .older, .eng, .pins] F = true) (hs : changesOnly F s0 s) :
    changesOnly F s0 (serveWrite src e s) := by
  refine hs.trans (changesOnly.mono ?_ hF)
  clear hs hF
  unfold serveWrite
  extract_lets x0 x1 x2
  with_reducible repeat' first
    | assumption | exact changesOnly.refl _ _ | apply respond_changes | apply ringWrites_changes
    | apply changesOnly.iteL | apply changesOnly.ite | decide | split | (intro)

theorem strCatchUp_changes {F : List Part} {s0 : State} {k : Nat} {s : State}
    (hF : Part.sub [.regs, .str, .bb] F = true) (hs : changesOnly F s0 s) :
    changesOnly F s0 (strCatchUp k s).2 := by
  refine hs.trans (changesOnly.mono ?_ hF)
  clear hs hF
  unfold strCatchUp
  extract_lets x0 x1 x2 x3 x4
  have hx2 : changesOnly [.regs, .str, .bb] s x2 := by
    unfold x2
    with_reducible repeat' first
      | assumption | exact changesOnly.refl _ _ | apply modReg_changes | apply setStrPos_changes
      | apply raiseBit_changes | apply changesOnly.iteL | apply changesOnly.ite | decide | split
      | apply changesOnly.set_str | (intro)
  clear_value x2
  with_reducible repeat' first
    | assumption | exact changesOnly.refl _ _ | apply modReg_changes | apply setStrPos_changes
    | apply raiseBit_changes | apply changesOnly.iteL | apply changesOnly.ite | decide | split
    | apply changesOnly.set_str | (intro)

theorem serveStream_changes {F : List Part} {s0 : State} {src : Nat} {e : AcyIn} {s : State}
    (hF : Part.sub [.ml, .str, .regs, .bb] F = true) (hs : changesOnly F s0 s) :
    changesOnly F s0 (serveStream src e s) := by
  refine hs.trans (changesOnly.mono ?_ hF)
  clear hs hF
  unfold serveStream
  extract_lets x0 x1 x2 x3 x4 x5 x6 x7 x8 x9
  have hx5 : changesOnly [.ml, .str, .regs, .bb] s x5 := by
    unfold x5
    with_reducible repeat' first
      | assumption | exact changesOnly.refl _ _ | apply respond_changes | apply nameStream_changes
      | apply seekTo_changes | apply strCatchUp_changes | apply setStrPos_changes | apply changesOnly.iteL
      | apply changesOnly.ite | decide | split | apply changesOnly.set_str | (intro)
  clear_value x5
  have hx7 : changesOnly [.ml, .str, .regs, .bb] s x7 := by
    unfold x7
    with_reducible repeat' first
      | assumption | exact changesOnly.refl _ _ | apply respond_changes | apply nameStream_changes
      | apply seekTo_changes | apply strCatchUp_changes | apply setStrPos_changes | apply changesOnly.iteL
      | apply changesOnly.ite | decide | split | apply changesOnly.set_str | (intro)
  clear_value x7
  with_reducible repeat' first
    | assumption | exact changesOnly.refl _ _ | apply respond_changes | apply nameStream_changes
    | apply seekTo_changes | apply strCatchUp_changes | apply setStrPos_changes | apply changesOnly.iteL
    | apply changesOnly.ite | decide | split | apply changesOnly.set_str | (intro)

theorem serveRequest_changes {F : List Part} {s0 : State} {src : Nat} {e : AcyIn} {s : State}
    (hF : Part.sub [.ml, .latch, .regs, .bb, .stg, .aud, .mem, .tx, .pair, .halls, .chans, .per, .convs, .str, .sync, .wd, .img, .free, .time, .modes, .clk, .jnl, .nv, .gal, .newest, .older, .eng, .pins] F = true) (hs : changesOnly F s0 s) :
    changesOnly F s0 (serveRequest src e s) := by
  refine hs.trans (changesOnly.mono ?_ hF)
  clear hs hF
  unfold serveRequest
  with_reducible repeat' first
    | assumption | exact changesOnly.refl _ _ | apply busyAnswer_changes | apply serveRead_changes
    | apply serveWrite_changes | apply serveStream_changes | apply changesOnly.iteL | apply changesOnly.ite | decide
    | split | (intro)

theorem serveEntry_changes {F : List Part} {s0 : State} {src : Nat} {e : AcyIn} {s : State}
    (hF : Part.sub [.regs, .bb, .sync, .ml, .latch, .stg, .aud, .mem, .tx, .pair, .halls, .chans, .per, .convs, .str, .wd, .img, .free, .time, .modes, .clk, .jnl, .nv, .gal, .newest, .older, .eng, .pins] F = true) (hs : changesOnly F s0 s) :
    changesOnly F s0 (serveEntry src e s) := by
  refine hs.trans (changesOnly.mono ?_ hF)
  clear hs hF
  unfold serveEntry
  with_reducible repeat' first
    | assumption | exact changesOnly.refl _ _ | apply syncCommand_changes | apply injectCommand_changes
    | apply serveRequest_changes | apply mailboxResponse_changes | apply changesOnly.iteL | apply changesOnly.ite
    | decide | split | (intro)

end Sys2Proof.Machine
end

