-- ==== Sys2Proof/Laws/Changes11.lean ====
section
/-! SUPPORT. What each shared operation changes at most: the parts of the state (part 12 of 12). -/

set_option linter.unusedTactic false
set_option linter.unreachableTactic false

namespace Sys2Proof.Machine

theorem settle_changes {F : List Part} {s0 : State} {s : State}
    (hF : Part.sub [.bb, .pins] F = true) (hs : changesOnly F s0 s) :
    changesOnly F s0 (settle s) := by
  refine hs.trans (changesOnly.mono ?_ hF)
  clear hs hF
  unfold settle
  with_reducible repeat' first
    | assumption | exact changesOnly.refl _ _ | apply trimEvents_changes | decide | apply changesOnly.set_pins

theorem settleActive_changes {F : List Part} {s0 : State} {single : Bool} {s : State}
    (hF : Part.sub [.regs, .bb, .halls, .chans, .per, .convs, .pair, .ml, .stg, .jnl, .nv] F = true) (hs : changesOnly F s0 s) :
    changesOnly F s0 (settleActive single s) := by
  refine hs.trans (changesOnly.mono ?_ hF)
  clear hs hF
  unfold settleActive
  with_reducible repeat' first
    | assumption | exact changesOnly.refl _ _ | apply allActive_changes | apply roleChange_changes
    | apply updPair_changes | decide

theorem settleImage_changes {F : List Part} {s0 : State} {lost : Bool} {e : JEntry} {s : State}
    (hF : Part.sub [.jnl, .nv] F = true) (hs : changesOnly F s0 s) :
    changesOnly F s0 (settleImage lost e s) := by
  refine hs.trans (changesOnly.mono ?_ hF)
  clear hs hF
  unfold settleImage
  with_reducible repeat' first
    | assumption | exact changesOnly.refl _ _ | apply jClose_changes | apply eraseDamaged_changes
    | apply nvErase_changes | apply changesOnly.iteL | apply changesOnly.ite | decide | split | (intro)

theorem settleStaged_changes {F : List Part} {s0 : State} {lost : Bool} {e : JEntry} {s : State}
    (hF : Part.sub [.jnl, .nv, .regs, .bb, .mem, .gal, .aud] F = true) (hs : changesOnly F s0 s) :
    changesOnly F s0 (settleStaged lost e s) := by
  refine hs.trans (changesOnly.mono ?_ hF)
  clear hs hF
  unfold settleStaged
  repeat' first
    | exact Or.inr (by decide) | with_reducible exact Or.inl rfl | with_reducible assumption
    | with_reducible exact changesOnly.refl _ _ | with_reducible apply jClose_changes
    | with_reducible apply capSound_changes | with_reducible apply ckptsBegin_changes
    | with_reducible apply audit_changes | with_reducible apply changesOnly.foldl
    | with_reducible apply changesOnly.iteL | with_reducible apply changesOnly.ite | decide | split
    | with_reducible (intro) | with_reducible apply changesOnly.mk

theorem settleFlush_changes {F : List Part} {s0 : State} {e : JEntry} {s : State}
    (hF : Part.sub [.regs, .bb, .jnl, .nv, .gal] F = true) (hs : changesOnly F s0 s) :
    changesOnly F s0 (settleFlush e s) := by
  refine hs.trans (changesOnly.mono ?_ hF)
  clear hs hF
  unfold settleFlush
  extract_lets x0 x1 x2 x3 x4
  have hx0 : changesOnly [.regs, .bb, .jnl, .nv, .gal] s x0 := by
    unfold x0
    with_reducible repeat' first
      | assumption | exact changesOnly.refl _ _ | apply eccSeen_changes | apply jClose_changes
      | apply pushJob_changes | apply ringPut_changes | apply changesOnly.iteL | apply changesOnly.ite | decide
      | split | (intro)
  clear_value x0
  have hx3 : changesOnly [.regs, .bb, .jnl, .nv, .gal] s x3 := by
    unfold x3
    with_reducible repeat' first
      | assumption | exact changesOnly.refl _ _ | apply eccSeen_changes | apply jClose_changes
      | apply pushJob_changes | apply ringPut_changes | apply changesOnly.iteL | apply changesOnly.ite | decide
      | split | (intro)
  clear_value x3
  with_reducible repeat' first
    | assumption | exact changesOnly.refl _ _ | apply eccSeen_changes | apply jClose_changes | apply pushJob_changes
    | apply ringPut_changes | apply changesOnly.iteL | apply changesOnly.ite | decide | split | (intro)

theorem settleEntry_changes {F : List Part} {s0 : State} {f : StartFacts} {lost : Bool} {e : JEntry} {s : State}
    (hF : Part.sub [.jnl, .nv, .regs, .bb, .mem, .gal, .aud] F = true) (hs : changesOnly F s0 s) :
    changesOnly F s0 (settleEntry f lost e s) := by
  refine hs.trans (changesOnly.mono ?_ hF)
  clear hs hF
  unfold settleEntry
  with_reducible repeat' first
    | assumption | exact changesOnly.refl _ _ | apply settleImage_changes | apply jClose_changes
    | apply settleStaged_changes | apply settleFlush_changes | apply changesOnly.iteL | apply changesOnly.ite
    | decide | split | (intro)

theorem settleJournal_changes {F : List Part} {s0 : State} {f : StartFacts} {lost : Bool} {s : State}
    (hF : Part.sub [.regs, .bb, .mem, .jnl, .nv, .gal, .aud] F = true) (hs : changesOnly F s0 s) :
    changesOnly F s0 (settleJournal f lost s) := by
  refine hs.trans (changesOnly.mono ?_ hF)
  clear hs hF
  unfold settleJournal
  with_reducible repeat' first
    | assumption | exact changesOnly.refl _ _ | apply jRecover_changes | apply settleReport_changes
    | apply settleEntry_changes | apply recapturePeriods_changes | apply changesOnly.foldl | apply changesOnly.iteL
    | apply changesOnly.ite | decide | split | (intro)

theorem settleStandby_changes {F : List Part} {s0 : State} {s : State}
    (hF : Part.sub [.regs, .bb, .halls, .chans, .per, .convs, .pair, .ml, .stg, .jnl, .nv] F = true) (hs : changesOnly F s0 s) :
    changesOnly F s0 (settleStandby s) := by
  refine hs.trans (changesOnly.mono ?_ hF)
  clear hs hF
  unfold settleStandby
  with_reducible repeat' first
    | assumption | exact changesOnly.refl _ _ | apply allStandby_changes | apply roleChange_changes
    | apply pairEvent_changes | apply updPair_changes | apply changesOnly.iteL | apply changesOnly.ite | decide
    | split | (intro)

theorem settleRole_changes {F : List Part} {s0 : State} {ans : PartnerAnswer} {actIn : Bool} {s : State}
    (hF : Part.sub [.pair, .regs, .bb, .halls, .chans, .per, .convs, .ml, .stg, .jnl, .nv] F = true) (hs : changesOnly F s0 s) :
    changesOnly F s0 (settleRole ans actIn s) := by
  refine hs.trans (changesOnly.mono ?_ hF)
  clear hs hF
  unfold settleRole
  with_reducible repeat' first
    | assumption | exact changesOnly.refl _ _ | apply updPair_changes | apply settleStandby_changes
    | apply settleActive_changes | apply pairEvent_changes | apply changesOnly.iteL | apply changesOnly.ite | decide
    | split | (intro)

theorem writeUnit_changes {F : List Part} {s0 : State} {k : Nat} {a : Nat} {v : Word} {s : State}
    (hF : Part.sub [.hp, .regs, .bb, .stg, .aud, .mem, .tx, .pair, .halls, .chans, .per, .convs, .str, .sync, .ml, .wd, .img, .free, .time, .modes, .clk, .jnl, .nv, .gal, .newest, .older, .eng, .pins] F = true) (hs : changesOnly F s0 s) :
    changesOnly F s0 (writeUnit k a v s) := by
  refine hs.trans (changesOnly.mono ?_ hF)
  clear hs hF
  unfold writeUnit
  with_reducible repeat' first
    | assumption | exact changesOnly.refl _ _ | apply pastEnd_changes | apply cmdWrite_changes | decide

theorem writeUnits_changes {F : List Part} {s0 : State} {fixed : Bool} {w a : Nat} {l : List Word} {s : State}
    (hF : Part.sub [.hp, .regs, .bb, .stg, .aud, .mem, .tx, .pair, .halls, .chans, .per, .convs, .str, .sync, .ml, .wd, .img, .free, .time, .modes, .clk, .jnl, .nv, .gal, .newest, .older, .eng, .pins] F = true) (hs : changesOnly F s0 s) :
    changesOnly F s0 (writeUnits fixed w a l s) := by
  induction l generalizing a s with
  | nil => exact hs
  | cons v l ih => exact ih (writeUnit_changes (Part.sub_trans rfl hF) hs)

theorem writeFrame_changes {F : List Part} {s0 : State} {fixed : Bool} {wext a : Nat} {units : List Word} {s : State}
    (hF : Part.sub [.regs, .bb, .hp, .stg, .aud, .mem, .tx, .pair, .halls, .chans, .per, .convs, .str, .sync, .ml, .wd, .img, .free, .time, .modes, .clk, .jnl, .nv, .gal, .newest, .older, .eng, .pins] F = true) (hs : changesOnly F s0 s) :
    changesOnly F s0 (writeFrame fixed wext a units s) := by
  exact writeUnits_changes (Part.sub_trans rfl hF) (unitWidth_changes (Part.sub_trans rfl hF) hs)

theorem shortFrame_changes {F : List Part} {s0 : State} {f : ShortFrame} {s : State}
    (hF : Part.sub [.hp, .regs, .bb, .stg, .aud, .mem, .tx, .pair, .halls, .chans, .per, .convs, .str, .sync, .ml, .wd, .img, .free, .time, .modes, .clk, .jnl, .nv, .gal, .newest, .older, .eng, .pins, .latch] F = true) (hs : changesOnly F s0 s) :
    changesOnly F s0 (shortFrame f s) := by
  refine hs.trans (changesOnly.mono ?_ hF)
  clear hs hF
  unfold shortFrame
  with_reducible repeat' first
    | assumption | exact changesOnly.refl _ _ | apply markShort_changes | apply writeFrame_changes
    | apply writeUnit_changes | apply readFrame_changes | apply changesOnly.iteL | apply changesOnly.ite | decide
    | split | (intro)

theorem slotTrap_changes {F : List Part} {s0 : State} {m cycles : Nat} {trap : Option EngTrap} {s : State} {x : Nat × State}
    (hF : Part.sub [.regs, .bb, .mem] F = true) (hs : changesOnly F s0 s)
    (h : slotTrap m cycles trap s = some x) : changesOnly F s0 x.2 := by
  unfold slotTrap at h
  split at h
  · cases h; exact eccFound_changes (Part.sub_trans rfl hF) hs
  · cases h; exact eccMark_changes (Part.sub_trans rfl hF) (eccFound_changes (Part.sub_trans rfl hF) hs)
  · cases h; exact hs
  · cases h; exact hs
  · split at h
    · cases h; exact hs
    · cases h

theorem trapFreeze_changes {F : List Part} {s0 : State} {m : Nat} {cause : Nat} {s : State}
    (hF : Part.sub [.regs, .bb, .eng] F = true) (hs : changesOnly F s0 s) :
    changesOnly F s0 (trapFreeze m cause s) := by
  refine hs.trans (changesOnly.mono ?_ hF)
  clear hs hF
  unfold trapFreeze
  with_reducible repeat' first
    | assumption | exact changesOnly.refl _ _ | apply freeze_changes | apply changesOnly.iteL | apply changesOnly.ite
    | decide | split | apply changesOnly.set_eng | (intro)

theorem trapRun_changes {F : List Part} {s0 : State} {m : Nat} {cause : Nat} {cycles : Nat} {s : State}
    (hF : Part.sub [.mem, .runs, .regs, .bb, .bal, .gal, .eng] F = true) (hs : changesOnly F s0 s) :
    changesOnly F s0 (trapRun m cause cycles s) := by
  refine hs.trans (changesOnly.mono ?_ hF)
  clear hs hF
  unfold trapRun
  with_reducible repeat' first
    | assumption | exact changesOnly.refl _ _ | apply totalize_changes | apply updRun_changes
    | apply pulseOut_changes | apply runCycles_changes | apply runStatus_changes | apply modReg_changes
    | apply afterRun_changes | apply trapFreeze_changes | decide

theorem slotRun_changes {F : List Part} {s0 : State} {m cycles : Nat} {trap : Option EngTrap} {s : State}
    (hF : Part.sub [.regs, .bb, .mem, .runs, .bal, .gal, .eng] F = true) (hs : changesOnly F s0 s) :
    changesOnly F s0 (slotRun m cycles trap s) := by
  unfold slotRun
  split
  · exact hs
  · split
    · next x hx => exact trapRun_changes (Part.sub_trans rfl hF) (slotTrap_changes (Part.sub_trans rfl hF) hs hx)
    · dsimp only
      split
      · split
        · exact completeRun_changes (Part.sub_trans rfl hF) hs
        · exact trapRun_changes (Part.sub_trans rfl hF) hs
      · exact trapRun_changes (Part.sub_trans rfl hF) hs

theorem slotEnd_changes {F : List Part} {s0 : State} {m : Nat} {cycles : Nat} {trap : Option EngTrap} {s : State}
    (hF : Part.sub [.time, .free, .regs, .bb, .mem, .runs, .bal, .gal, .eng, .nv, .jnl, .per, .img, .wd] F = true) (hs : changesOnly F s0 s) :
    changesOnly F s0 (slotEnd m cycles trap s) := by
  refine hs.trans (changesOnly.mono ?_ hF)
  clear hs hF
  unfold slotEnd
  with_reducible repeat' first
    | assumption | exact changesOnly.refl _ _ | apply moveTo_changes | apply noteStall_changes
    | apply slotRun_changes | apply endTick_changes | apply checkIn_changes | apply changesOnly.iteL
    | apply changesOnly.ite | decide | split | apply changesOnly.set_eng | (intro)

theorem slotDone_changes {F : List Part} {s0 : State} {m : Nat} {cycles : Nat} {trap : Option EngTrap} {s : State}
    (hF : Part.sub [.regs, .time, .free, .bb, .mem, .runs, .bal, .gal, .eng, .nv, .jnl, .per, .img, .wd, .tx, .pair, .aud] F = true) (hs : changesOnly F s0 s) :
    changesOnly F s0 (slotDone m cycles trap s) := by
  refine hs.trans (changesOnly.mono ?_ hF)
  clear hs hF
  unfold slotDone
  with_reducible repeat' first
    | assumption | exact changesOnly.refl _ _ | apply backWords_changes | apply slotEnd_changes
    | apply putWords_changes | apply handoverSend_changes | apply lateRuns_changes | apply changesOnly.iteL
    | apply changesOnly.ite | decide | split | (intro)

theorem stageDrop_changes {F : List Part} {s0 : State} {s : State}
    (hF : Part.sub [.stg, .regs, .bb] F = true) (hs : changesOnly F s0 s) :
    changesOnly F s0 (stageDrop s) := by
  refine hs.trans (changesOnly.mono ?_ hF)
  clear hs hF
  unfold stageDrop
  with_reducible repeat' first
    | assumption | exact changesOnly.refl _ _ | apply raiseBit_changes | apply changesOnly.iteL
    | apply changesOnly.ite | decide | split | apply changesOnly.set_stg | (intro)

theorem startApplied_changes {F : List Part} {s0 : State} {s : State}
    (hF : Part.sub [.clk] F = true) (hs : changesOnly F s0 s) :
    changesOnly F s0 (startApplied s) := by
  refine hs.trans (changesOnly.mono ?_ hF)
  clear hs hF
  unfold startApplied
  with_reducible repeat' first
    | assumption | exact changesOnly.refl _ _ | apply changesOnly.iteL | apply changesOnly.ite | decide | split
    | apply changesOnly.set_clk | (intro)

theorem startEcho_changes {F : List Part} {s0 : State} {p : Nat} {s : State}
    (hF : Part.sub [.ml, .tx] F = true) (hs : changesOnly F s0 s) :
    changesOnly F s0 (startEcho p s) := by
  refine hs.trans (changesOnly.mono ?_ hF)
  clear hs hF
  unfold startEcho
  with_reducible repeat' first
    | assumption | exact changesOnly.refl _ _ | apply sendEcho_changes | apply updPort_changes
    | apply changesOnly.iteL | apply changesOnly.ite | decide | split | (intro)

theorem streamFrame_changes {F : List Part} {s0 : State} {k : Nat} {peek : Bool} {nbytes : Nat} {s : State}
    (hF : Part.sub [.regs, .str, .bb] F = true) (hs : changesOnly F s0 s) :
    changesOnly F s0 (streamFrame k peek nbytes s).2.2.2 := by
  refine hs.trans (changesOnly.mono ?_ hF)
  clear hs hF
  unfold streamFrame
  extract_lets x0 x1 x2 x3 x4 x5 x6 x7 x8 x9 x10 x11 x12 x13
  have hx1 : changesOnly [.regs, .str, .bb] s x1 := by
    unfold x1
    with_reducible repeat' first
      | assumption | exact changesOnly.refl _ _ | apply strCatchUp_changes | apply setStrPos_changes
      | apply nameStream_changes | apply changesOnly.iteL | apply changesOnly.ite | decide | split
      | apply changesOnly.set_str | (intro)
  clear_value x1
  have hx11 : changesOnly [.regs, .str, .bb] s x11 := by
    unfold x11
    with_reducible repeat' first
      | assumption | exact changesOnly.refl _ _ | apply strCatchUp_changes | apply setStrPos_changes
      | apply nameStream_changes | apply changesOnly.iteL | apply changesOnly.ite | decide | split
      | apply changesOnly.set_str | (intro)
  clear_value x11
  have hx13 : changesOnly [.regs, .str, .bb] s x13 := by
    unfold x13
    with_reducible repeat' first
      | assumption | exact changesOnly.refl _ _ | apply strCatchUp_changes | apply setStrPos_changes
      | apply nameStream_changes | apply changesOnly.iteL | apply changesOnly.ite | decide | split
      | apply changesOnly.set_str | (intro)
  clear_value x13
  with_reducible repeat' first
    | assumption | exact changesOnly.refl _ _ | apply strCatchUp_changes | apply setStrPos_changes
    | apply nameStream_changes | apply changesOnly.iteL | apply changesOnly.ite | decide | split
    | apply changesOnly.set_str | (intro)

theorem streamDeliver_changes {F : List Part} {s0 : State} {stream : Nat} {peek : Bool} {nbytes : Nat} {s : State}
    (hF : Part.sub [.regs, .str, .bb, .free, .hp] F = true) (hs : changesOnly F s0 s) :
    changesOnly F s0 (streamDeliver stream peek nbytes s) := by
  refine hs.trans (changesOnly.mono ?_ hF)
  clear hs hF
  unfold streamDeliver
  with_reducible repeat' first
    | assumption | exact changesOnly.refl _ _ | apply streamFrame_changes | apply noteWait_changes | decide
    | apply changesOnly.set_hp

theorem swapAt_changes {F : List Part} {s0 : State} {n : Nat} {t16 : Nat} {s : State}
    (hF : Part.sub [.convs, .halls] F = true) (hs : changesOnly F s0 s) :
    changesOnly F s0 (swapAt n t16 s).2 := by
  refine hs.trans (changesOnly.mono ?_ hF)
  clear hs hF
  unfold swapAt
  extract_lets x0 x1 x2
  with_reducible repeat' first
    | assumption | exact changesOnly.refl _ _ | apply swapToK1_changes | apply swapBack_changes
    | apply takeBack_changes | apply changesOnly.iteL | apply changesOnly.ite | decide | split | (intro)

theorem swapEngine_changes {F : List Part} {s0 : State} {im : Img} {s : State}
    (hF : Part.sub [.runs, .eng, .img, .mem, .jnl, .nv] F = true) (hs : changesOnly F s0 s) :
    changesOnly F s0 (swapEngine im s) := by
  refine hs.trans (changesOnly.mono ?_ hF)
  clear hs hF
  unfold swapEngine
  repeat' first
    | exact Or.inr (by decide) | with_reducible exact Or.inl rfl | with_reducible assumption
    | with_reducible exact changesOnly.refl _ _ | with_reducible apply resetCarried_changes
    | with_reducible apply jClose_changes | with_reducible apply jStep_changes | with_reducible apply forN_into
    | with_reducible apply changesOnly.iteL | with_reducible apply changesOnly.ite | decide | split
    | with_reducible (intro) | with_reducible apply changesOnly.mk

theorem switchIdle_changes {F : List Part} {s0 : State} {b : Nat} {s : State}
    (hF : Part.sub [.pair, .runs, .regs, .bb, .mem, .aud, .eng] F = true) (hs : changesOnly F s0 s) :
    changesOnly F s0 (switchIdle b s) := by
  refine hs.trans (changesOnly.mono ?_ hF)
  clear hs hF
  unfold switchIdle
  with_reducible repeat' first
    | assumption | exact changesOnly.refl _ _ | apply idleSlots_changes | apply changesOnly.iteL
    | apply changesOnly.ite | decide | split | (intro)

theorem switchImage_changes {F : List Part} {s0 : State} {s : State}
    (hF : Part.sub [.runs, .eng, .img, .mem, .jnl, .nv, .curves, .regs, .bb, .gal, .aud, .modes, .convs, .newest, .older, .str, .halls, .chans, .per, .ml, .bal, .pair, .wd, .sync, .pins, .stg, .clk] F = true) (hs : changesOnly F s0 s) :
    changesOnly F s0 (switchImage s) := by
  refine hs.trans (changesOnly.mono ?_ hF)
  clear hs hF
  unfold switchImage
  repeat' first
    | exact Or.inr (by decide) | with_reducible exact Or.inl rfl | with_reducible assumption
    | with_reducible exact changesOnly.refl _ _ | with_reducible apply swapEngine_changes
    | with_reducible apply imgClamps_changes | with_reducible apply applyWords_changes
    | with_reducible apply imgChOut_changes | with_reducible apply imgHeldB_changes
    | with_reducible apply report_changes | with_reducible apply updHall_changes
    | with_reducible apply syncOutOff_changes | with_reducible apply audit_changes
    | with_reducible apply stageDrop_changes | with_reducible apply setNewCopies_changes
    | with_reducible apply updImg_changes | with_reducible apply setReg_changes
    | with_reducible apply raiseBit_changes | with_reducible apply jClose_changes
    | with_reducible apply jStep_changes | with_reducible apply soloRole_changes | with_reducible apply forHalls_into
    | with_reducible apply forChans_into | with_reducible apply changesOnly.iteL
    | with_reducible apply changesOnly.ite | decide | split | with_reducible apply changesOnly.set_ml
    | with_reducible (intro) | with_reducible apply changesOnly.mk

theorem switchLatch_changes {F : List Part} {s0 : State} {b : Nat} {s : State}
    (hF : Part.sub [.bal, .regs, .bb, .gal, .nv, .jnl, .mem, .eng, .pair, .runs, .per, .aud, .tx] F = true) (hs : changesOnly F s0 s) :
    changesOnly F s0 (switchLatch b s) := by
  refine hs.trans (changesOnly.mono ?_ hF)
  clear hs hF
  unfold switchLatch
  with_reducible repeat' first
    | assumption | exact changesOnly.refl _ _ | apply activeLatch_changes | apply changesOnly.iteL
    | apply changesOnly.ite | decide | split | (intro)

theorem syncConv_changes {F : List Part} {s0 : State} {n : Nat} {t16 : Nat} {s : State}
    (hF : Part.sub [.convs] F = true) (hs : changesOnly F s0 s) :
    changesOnly F s0 (syncConv n t16 s) := by
  refine hs.trans (changesOnly.mono ?_ hF)
  clear hs hF
  unfold syncConv
  with_reducible repeat' first
    | assumption | exact changesOnly.refl _ _ | apply leaveShadow_changes | apply openWindow_changes
    | apply discard_changes | apply changesOnly.iteL | apply changesOnly.ite | decide | split | (intro)

theorem syncDone_changes {F : List Part} {s0 : State} {g : Nat} {s : State}
    (hF : Part.sub [.sync, .pins, .regs, .bb] F = true) (hs : changesOnly F s0 s) :
    changesOnly F s0 (syncDone g s) := by
  refine hs.trans (changesOnly.mono ?_ hF)
  clear hs hF
  unfold syncDone
  repeat' first
    | exact Or.inr (by decide) | with_reducible exact Or.inl rfl | with_reducible assumption
    | with_reducible exact changesOnly.refl _ _ | with_reducible apply raiseBit_changes
    | with_reducible apply changesOnly.iteL | with_reducible apply changesOnly.ite | decide | split
    | with_reducible (intro) | with_reducible apply changesOnly.mk

theorem syncPuls_changes {F : List Part} {s0 : State} {own : Nat} {s : State}
    (hF : Part.sub [.chans] F = true) (hs : changesOnly F s0 s) :
    changesOnly F s0 (syncPuls own s) := by
  refine hs.trans (changesOnly.mono ?_ hF)
  clear hs hF
  unfold syncPuls
  with_reducible repeat' first
    | assumption | exact changesOnly.refl _ _ | apply pulsReset_changes | apply changesOnly.iteL
    | apply changesOnly.ite | decide | split | (intro)

theorem takeBoundary_changes {F : List Part} {s0 : State} {s : State}
    (hF : Part.sub [.eng, .regs, .bb, .per, .gal, .time] F = true) (hs : changesOnly F s0 s) :
    changesOnly F s0 (takeBoundary s) := by
  refine hs.trans (changesOnly.mono ?_ hF)
  clear hs hF
  unfold takeBoundary
  with_reducible repeat' first
    | assumption | exact changesOnly.refl _ _ | apply periodStep_changes | apply galStep_changes
    | apply changesOnly.iteL | apply changesOnly.ite | decide | split | apply changesOnly.set_eng
    | apply changesOnly.set_time | (intro)

theorem takeCycleOut_changes {F : List Part} {s0 : State} {p : Nat} {s : State}
    (hF : Part.sub [.free] F = true) (hs : changesOnly F s0 s) :
    changesOnly F s0 (takeCycleOut p s) := by
  refine hs.trans (changesOnly.mono ?_ hF)
  clear hs hF
  unfold takeCycleOut
  with_reducible repeat' first
    | assumption | exact changesOnly.refl _ _ | apply takeFree_changes | apply takeDelay_changes | decide

theorem takeTime_changes {F : List Part} {s0 : State} {p : Nat} {b : List Byte} {s : State}
    (hF : Part.sub [.ml, .sync, .free, .time, .modes, .regs, .bb] F = true) (hs : changesOnly F s0 s) :
    changesOnly F s0 (takeTime p b s) := by
  refine hs.trans (changesOnly.mono ?_ hF)
  clear hs hF
  unfold takeTime
  with_reducible repeat' first
    | assumption | exact changesOnly.refl _ _ | apply updMl_changes | apply takeOffset_changes
    | apply takeCycleOut_changes | apply mlEvent_changes | apply changesOnly.iteL | apply changesOnly.ite | decide
    | split | (intro)

theorem takeCycle_changes {F : List Part} {s0 : State} {p : Nat} {f : MlFrame} {s : State}
    (hF : Part.sub [.ml, .sync, .free, .time, .modes, .regs, .bb, .wd, .img, .clk] F = true) (hs : changesOnly F s0 s) :
    changesOnly F s0 (takeCycle p f s) := by
  refine hs.trans (changesOnly.mono ?_ hF)
  clear hs hF
  unfold takeCycle
  with_reducible repeat' first
    | assumption | exact changesOnly.refl _ _ | apply takeTime_changes | apply updMl_changes | apply checkIn_changes
    | decide | apply changesOnly.set_clk

theorem takeData_changes {F : List Part} {s0 : State} {f : MlFrame} {s : State}
    (hF : Part.sub [.regs, .ml, .bb, .sync, .latch, .stg, .aud, .mem, .tx, .pair, .halls, .chans, .per, .convs, .str, .wd, .img, .free, .time, .modes, .clk, .jnl, .nv, .gal, .newest, .older, .eng, .pins] F = true) (hs : changesOnly F s0 s) :
    changesOnly F s0 (takeData f s) := by
  refine hs.trans (changesOnly.mono ?_ hF)
  clear hs hF
  unfold takeData
  with_reducible repeat' first
    | assumption | exact changesOnly.refl _ _ | apply copyPoints_changes | apply serveEntry_changes
    | apply changesOnly.foldl | apply changesOnly.iteL | apply changesOnly.ite | decide | split | (intro)

theorem takeHeartbeat_changes {F : List Part} {s0 : State} {f : PairFrame} {s : State}
    (hF : Part.sub [.sync, .free, .time, .modes, .ml, .regs, .bb, .pair, .mem, .aud, .halls, .chans, .per, .convs, .jnl, .nv, .stg, .runs, .eng] F = true) (hs : changesOnly F s0 s) :
    changesOnly F s0 (takeHeartbeat f s) := by
  refine hs.trans (changesOnly.mono ?_ hF)
  clear hs hF
  unfold takeHeartbeat
  with_reducible repeat' first
    | assumption | exact changesOnly.refl _ _ | apply heartbeatTime_changes | apply updPair_changes
    | apply genCheck_changes | apply partnerJoin_changes | apply hoDropped_changes | apply fenceNow_changes
    | apply judge_changes | apply changesOnly.iteL | apply changesOnly.ite | decide | split | (intro)

theorem takeNewFlight_changes {F : List Part} {s0 : State} {own : Nat} {s : State}
    (hF : Part.sub [.halls, .convs, .chans] F = true) (hs : changesOnly F s0 s) :
    changesOnly F s0 (takeNewFlight own s) := by
  refine hs.trans (changesOnly.mono ?_ hF)
  clear hs hF
  unfold takeNewFlight
  with_reducible repeat' first
    | assumption | exact changesOnly.refl _ _ | apply newFlightWords_changes | apply rotAbandon_changes
    | apply freeLadder_changes | apply dropShadow_changes | apply changesOnly.iteL | apply changesOnly.ite | decide
    | split | (intro)

theorem tickEnded_changes {F : List Part} {s0 : State} {s : State}
    (hF : Part.sub [.tx, .regs, .wd, .img, .pair] F = true) (hs : changesOnly F s0 s) :
    changesOnly F s0 (tickEnded s) := by
  refine hs.trans (changesOnly.mono ?_ hF)
  clear hs hF
  unfold tickEnded
  with_reducible repeat' first
    | assumption | exact changesOnly.refl _ _ | apply sendOutputs_changes | apply publishRuns_changes
    | apply checkIn_changes | apply sendTotals_changes | apply changesOnly.iteL | apply changesOnly.ite | decide
    | split | (intro)

theorem triggerAll_changes {F : List Part} {s0 : State} {b : Nat} {t16 : Nat} {s : State}
    (hF : Part.sub [.convs] F = true) (hs : changesOnly F s0 s) :
    changesOnly F s0 (triggerAll b t16 s) := by
  refine hs.trans (changesOnly.mono ?_ hF)
  clear hs hF
  unfold triggerAll
  with_reducible repeat' first
    | assumption | exact changesOnly.refl _ _ | apply triggerBlock_changes | apply forN_into | decide | (intro)

theorem tryCopies_changes {F : List Part} {s0 : State} {l : List Nat} {s : State}
    (hF : Part.sub [.clk, .img, .regs, .bb] F = true) (hs : changesOnly F s0 s) :
    changesOnly F s0 (tryCopies l s).2 := by
  induction l generalizing s with
  | nil => exact hs
  | cons i l ih =>
    simp only [tryCopies]
    have ht : changesOnly F s0 { s with clk := { s.clk with tried := s.clk.tried + 1 } } :=
      changesOnly.set_clk (Part.sub_trans rfl hF) hs
    split
    · exact ht
    · exact ih (setCopy_changes (Part.sub_trans rfl hF) (imgRefused_changes (Part.sub_trans rfl hF) ht))

theorem twoHeads_changes {F : List Part} {s0 : State} {s : State}
    (hF : Part.sub [.regs, .bb, .ml] F = true) (hs : changesOnly F s0 s) :
    changesOnly F s0 (twoHeads s) := by
  refine hs.trans (changesOnly.mono ?_ hF)
  clear hs hF
  unfold twoHeads
  with_reducible repeat' first
    | assumption | exact changesOnly.refl _ _ | apply mlEvent_changes | apply updMl_changes | decide

theorem wbEffect_changes {F : List Part} {s0 : State} {h : Nat} {c : Nat} {band : Nat} {s : State}
    (hF : Part.sub [.chans] F = true) (hs : changesOnly F s0 s) :
    changesOnly F s0 (wbEffect h c band s) := by
  refine hs.trans (changesOnly.mono ?_ hF)
  clear hs hF
  unfold wbEffect
  with_reducible repeat' first
    | assumption | exact changesOnly.refl _ _ | apply updChan_changes | apply chFlag_changes | apply chState_changes
    | apply changesOnly.iteL | apply changesOnly.ite | decide | split | (intro)

theorem wdExpire_changes {F : List Part} {s0 : State} {missing : Nat} {s : State}
    (hF : Part.sub [.regs, .bb, .gal, .convs, .halls, .chans, .time, .latch, .hp, .stg, .str, .sync, .newest, .older, .modes, .curves, .eng, .runs, .bal, .aud, .jnl, .img, .nv, .mem, .wd, .clk, .ml, .pair, .pins, .tx] F = true) (hs : changesOnly F s0 s) :
    changesOnly F s0 (wdExpire missing s) := by
  refine hs.trans (changesOnly.mono ?_ hF)
  clear hs hF
  unfold wdExpire
  with_reducible repeat' first
    | assumption | exact changesOnly.refl _ _ | apply freeze_changes | apply logicReset_changes | decide
    | apply changesOnly.set_wd

theorem wdRestart_changes {F : List Part} {s0 : State} {late : Nat} {s : State}
    (hF : Part.sub [.wd, .regs, .img] F = true) (hs : changesOnly F s0 s) :
    changesOnly F s0 (wdRestart late s) := by
  refine hs.trans (changesOnly.mono ?_ hF)
  clear hs hF
  unfold wdRestart
  with_reducible repeat' first
    | assumption | exact changesOnly.refl _ _ | apply checkIn_changes | apply forN_into | apply changesOnly.iteL
    | apply changesOnly.ite | decide | split | apply changesOnly.set_wd | (intro)

theorem windowEnd_changes {F : List Part} {s0 : State} {n : Nat} {v : ConvState} {x : Sample} {s : State}
    (hF : Part.sub [.convs, .halls, .chans, .regs, .bb, .wd, .img] F = true) (hs : changesOnly F s0 s) :
    changesOnly F s0 (windowEnd n v x s) := by
  refine hs.trans (changesOnly.mono ?_ hF)
  clear hs hF
  unfold windowEnd
  with_reducible repeat' first
    | assumption | exact changesOnly.refl _ _ | apply mixedResult_changes | apply afterResult_changes
    | apply resultOf_changes | decide | split

end Sys2Proof.Machine
end

