-- ==== Sys2Proof/Laws/Table.lean ====
section
/-! SUPPORT. Laws of the sparse tables and of the byte memories: a read after a write, and the canonical form kept. -/

namespace Sys2Proof.Machine

section
variable {α : Type}

theorem tget_tdel_self (d : Nat → α) (t : Table α) (i : Nat) : tget d (tdel t i) i = d i := by
  induction t with
  | nil => rfl
  | cons e t ih =>
    obtain ⟨k, v⟩ := e
    simp only [tdel]
    split
    · exact ih
    · next h => simp only [tget, if_neg h, ih]

theorem tget_tdel_other (d : Nat → α) (t : Table α) {i j : Nat} (h : j ≠ i) : tget d (tdel t i) j = tget d t j := by
  induction t with
  | nil => rfl
  | cons e t ih =>
    obtain ⟨k, v⟩ := e
    simp only [tdel]
    split
    · next hk => simp only [tget, ih, if_neg (hk ▸ h.symm : k ≠ j)]
    · simp only [tget, ih]

/-- Key `i` is not listed. -/
def tfree (t : Table α) (i : Nat) : Prop := ∀ e ∈ t, e.1 ≠ i

theorem tdel_tfree (t : Table α) (i : Nat) : tfree (tdel t i) i := by
  induction t with
  | nil => intro e he; cases he
  | cons e t ih =>
    obtain ⟨k, v⟩ := e
    simp only [tdel]
    split
    · exact ih
    · next h =>
      intro e he
      rcases List.mem_cons.1 he with rfl | he
      · exact h
      · exact ih e he

theorem tget_tins_self (d : Nat → α) {t : Table α} {i : Nat} (h : tfree t i) (x : α) : tget d (tins t i x) i = x := by
  induction t with
  | nil => simp [tins, tget]
  | cons e t ih =>
    obtain ⟨k, v⟩ := e
    simp only [tins]
    split
    · simp [tget]
    · have hk : k ≠ i := h (k, v) (List.mem_cons_self ..)
      simp only [tget, if_neg hk]
      exact ih fun e he => h e (List.mem_cons_of_mem _ he)

theorem tget_tins_other (d : Nat → α) (t : Table α) {i j : Nat} (h : j ≠ i) (x : α) :
    tget d (tins t i x) j = tget d t j := by
  induction t with
  | nil => simp [tins, tget, h.symm]
  | cons e t ih =>
    obtain ⟨k, v⟩ := e
    simp only [tins]
    split
    · simp [tget, h.symm]
    · simp only [tget, ih]

variable [DecidableEq α]

/-- A key reads as what was put there. -/
theorem tget_tset_self (d : Nat → α) (t : Table α) (i : Nat) (x : α) : tget d (tset d t i x) i = x := by
  unfold tset
  split
  · next h => rw [tget_tdel_self, h]
  · exact tget_tins_self d (tdel_tfree t i) x

/-- Every other key reads as before. -/
theorem tget_tset_other (d : Nat → α) (t : Table α) {i j : Nat} (h : j ≠ i) (x : α) :
    tget d (tset d t i x) j = tget d t j := by
  unfold tset
  split
  · exact tget_tdel_other d t h
  · rw [tput, tget_tins_other d _ h, tget_tdel_other d t h]

/-! The canonical form. -/

/-- The canonical form above a bound. -/
theorem twfFrom_weaken {d : Nat → α} {t : Table α} {l m : Nat} (hlm : m ≤ l) (h : twfFrom d t (some l) = true) :
    twfFrom d t (some m) = true := by
  cases t with
  | nil => rfl
  | cons e t =>
    obtain ⟨k, v⟩ := e
    simp only [twfFrom, Bool.and_eq_true, decide_eq_true_eq] at h ⊢
    exact ⟨⟨by omega, h.1.2⟩, h.2⟩

theorem twfFrom_none {d : Nat → α} {t : Table α} {l : Nat} (h : twfFrom d t (some l) = true) : twfFrom d t none = true := by
  cases t with
  | nil => rfl
  | cons e t =>
    obtain ⟨k, v⟩ := e
    simp only [twfFrom, Bool.and_eq_true, decide_eq_true_eq, Bool.true_and] at h ⊢
    exact ⟨h.1.2, h.2⟩

theorem tdel_wf {d : Nat → α} {t : Table α} {lo : Option Nat} (i : Nat) (h : twfFrom d t lo = true) :
    twfFrom d (tdel t i) lo = true := by
  induction t generalizing lo with
  | nil => rfl
  | cons e t ih =>
    obtain ⟨k, v⟩ := e
    simp only [twfFrom, Bool.and_eq_true] at h
    simp only [tdel]
    split
    · have := ih h.2
      cases lo with
      | none => exact twfFrom_none this
      | some l => exact twfFrom_weaken (by have := h.1.1; simp at this; omega) this
    · simp only [twfFrom, Bool.and_eq_true]
      exact ⟨h.1, ih h.2⟩

theorem tins_wf {d : Nat → α} {t : Table α} {lo : Option Nat} {i : Nat} {x : α} (hx : x ≠ d i)
    (hb : (match lo with | none => true | some l => decide (l < i)) = true)
    (hf : tfree t i) (h : twfFrom d t lo = true) : twfFrom d (tins t i x) lo = true := by
  induction t generalizing lo with
  | nil => simp only [tins, twfFrom, Bool.and_eq_true]; exact ⟨⟨hb, by simpa using hx⟩, trivial⟩
  | cons e t ih =>
    obtain ⟨k, v⟩ := e
    simp only [twfFrom, Bool.and_eq_true] at h
    have hk : k ≠ i := hf (k, v) (List.mem_cons_self ..)
    simp only [tins]
    split
    · next hik =>
      simp only [twfFrom, Bool.and_eq_true, decide_eq_true_eq]
      exact ⟨⟨hb, by simpa using hx⟩, ⟨hik, h.1.2⟩, h.2⟩
    · have hki : k < i := by omega
      simp only [twfFrom, Bool.and_eq_true]
      exact ⟨h.1, ih (by simpa using hki) (fun e he => hf e (List.mem_cons_of_mem _ he)) h.2⟩

/-- A write keeps the canonical form. -/
theorem tset_wf {d : Nat → α} {t : Table α} (i : Nat) (x : α) (h : Table.wf d t = true) :
    Table.wf d (tset d t i x) = true := by
  unfold tset
  split
  · exact tdel_wf i h
  · next hx => exact tins_wf hx rfl (tdel_tfree t i) (tdel_wf i h)

/-- Erasing keys keeps the canonical form. -/
theorem filter_wf {d : Nat → α} {t : Table α} {lo : Option Nat} (p : Nat × α → Bool) (h : twfFrom d t lo = true) :
    twfFrom d (t.filter p) lo = true := by
  induction t generalizing lo with
  | nil => rfl
  | cons e t ih =>
    obtain ⟨k, v⟩ := e
    simp only [twfFrom, Bool.and_eq_true] at h
    simp only [List.filter]
    split
    · simp only [twfFrom, Bool.and_eq_true]
      exact ⟨h.1, ih h.2⟩
    · have := ih h.2
      cases lo with
      | none => exact twfFrom_none this
      | some l => exact twfFrom_weaken (by have := h.1.1; simp at this; omega) this

end

/-! Byte memories. -/

@[simp] theorem mread_mwrite_self (b : Byte) (m : Memory) (a : Nat) (x : Byte) : mread b (mwrite b m a x) a = x :=
  tget_tset_self _ m a x

theorem mread_mwrite_other (b : Byte) (m : Memory) {a c : Nat} (h : c ≠ a) (x : Byte) :
    mread b (mwrite b m a x) c = mread b m c := tget_tset_other _ m h x

/-- A byte outside the bytes written reads as before. -/
theorem mread_mwrites_other (b : Byte) (l : List Byte) (m : Memory) {a c : Nat} (h : c < a ∨ a + l.length ≤ c) :
    mread b (mwrites b m a l) c = mread b m c := by
  induction l generalizing m a with
  | nil => rfl
  | cons x l ih =>
    simp only [mwrites, List.length_cons] at h ⊢
    rw [ih (mwrite b m a x) (by omega), mread_mwrite_other b m (by omega)]

/-- A byte written reads as written. -/
theorem mread_mwrites_self (b : Byte) (l : List Byte) (m : Memory) (a : Nat) {i : Nat} (h : i < l.length) :
    mread b (mwrites b m a l) (a + i) = l[i] := by
  induction l generalizing m a i with
  | nil => cases h
  | cons x l ih =>
    simp only [mwrites]
    cases i with
    | zero =>
      rw [mread_mwrites_other b l _ (by omega), Nat.add_zero]
      exact mread_mwrite_self b m a x
    | succ i =>
      have h' : i < l.length := by simpa using h
      have := ih (mwrite b m a x) (a + 1) h'
      rw [show a + (i + 1) = a + 1 + i by omega, this]; rfl

theorem mwrite_wf {b : Byte} {m : Memory} (a : Nat) (x : Byte) (h : Table.wf (fun _ => b) m = true) :
    Table.wf (fun _ => b) (mwrite b m a x) = true := tset_wf a x h

/-- Writing bytes keeps the canonical form. -/
theorem mwrites_wf {b : Byte} (l : List Byte) {m : Memory} (a : Nat) (h : Table.wf (fun _ => b) m = true) :
    Table.wf (fun _ => b) (mwrites b m a l) = true := by
  induction l generalizing m a with
  | nil => exact h
  | cons x l ih => exact ih (a + 1) (mwrite_wf a x h)

/-- Erasing bytes keeps the canonical form. -/
theorem merase_wf {b : Byte} {m : Memory} (a n : Nat) (h : Table.wf (fun _ => b) m = true) :
    Table.wf (fun _ => b) (merase m a n) = true := filter_wf _ h

end Sys2Proof.Machine
end

