-- ==== Sys2Proof/Laws/Keeps.lean ====
section
/-! SUPPORT. How the canonical form and the order of local time pass through the operations a command is made of. -/

namespace Sys2Proof.Machine

/-- From `s` to `t` the canonical form is kept and local time does not fall. -/
def keeps (s t : State) : Prop := (Canon s → Canon t) ∧ s.time.now ≤ t.time.now

theorem keeps.refl (s : State) : keeps s s := ⟨id, Nat.le_refl _⟩

theorem keeps.trans {s t u : State} (h : keeps s t) (k : keeps t u) : keeps s u :=
  ⟨fun c => k.1 (h.1 c), Nat.le_trans h.2 k.2⟩

/-- An operation that leaves the stores and time alone. -/
theorem keeps.skip {G : List Part} {s0 s t : State} (h : changesOnly G s t)
    (hn : ∀ p ∈ [Part.time, .regs, .halls, .chans, .convs, .nv, .mem], p ∉ G) (hs : keeps s0 s) : keeps s0 t := by
  have e0 : t.time = s.time := h .time (hn _ (by decide))
  have e1 : t.regs = s.regs := h .regs (hn _ (by decide))
  have e2 : t.halls = s.halls := h .halls (hn _ (by decide))
  have e3 : t.chans = s.chans := h .chans (hn _ (by decide))
  have e4 : t.convs = s.convs := h .convs (hn _ (by decide))
  have e5 : t.nv = s.nv := h .nv (hn _ (by decide))
  have e6 : t.mem = s.mem := h .mem (hn _ (by decide))
  refine hs.trans ⟨fun c => ⟨?_, ?_, ?_, ?_, ?_, ?_⟩, ?_⟩
  · rw [e1]; exact c.regs
  · rw [e2]; exact c.halls
  · rw [e3]; exact c.chans
  · rw [e4]; exact c.convs
  · rw [e5]; exact c.nv
  · rw [e6]; exact c.mem
  · rw [e0]

/-- A record update whose stores stay in form. -/
theorem keeps.mk {s u : State} {a0 a1 a2 a3 a4 a5 a6 a7 a8 a9 a10 a11 a12 a13 a14 a15 a16 a17 a18 a19 a20 a21 a22 a23 a24 a25 a26 a27 a28 a29 a30 a31 a32}
    (h0 : u.time.now ≤ a0.now) (h1 : Table.wf resetWord u.regs = true → Table.wf resetWord a1 = true)
    (h6 : Table.wf (fun _ => hallReset) u.halls = true → Table.wf (fun _ => hallReset) a6 = true)
    (h7 : Table.wf (fun _ => chanReset) u.chans = true → Table.wf (fun _ => chanReset) a7 = true)
    (h8 : Table.wf (fun _ => convReset) u.convs = true → Table.wf (fun _ => convReset) a8 = true)
    (h23 : Canon.flash u.nv = true → Canon.flash a23 = true) (h24 : Canon.rams u.mem = true → Canon.rams a24 = true)
    (hu : keeps s u) :
    keeps s (State.mk a0 a1 a2 a3 a4 a5 a6 a7 a8 a9 a10 a11 a12 a13 a14 a15 a16 a17 a18 a19 a20 a21 a22 a23 a24 a25 a26 a27 a28 a29 a30 a31 a32) :=
  hu.trans ⟨fun c => ⟨h1 c.regs, h6 c.halls, h7 c.chans, h8 c.convs, h23 c.nv, h24 c.mem⟩, h0⟩

/-- A record update that keeps the stores and time. -/
theorem keeps.set {s u : State} {a2 a3 a4 a5 a9 a10 a11 a12 a13 a14 a15 a16 a17 a18 a19 a20 a21 a22 a25 a26 a27 a28 a29 a30 a31 a32}
    (hu : keeps s u) :
    keeps s (State.mk u.time u.regs a2 a3 a4 a5 u.halls u.chans u.convs a9 a10 a11 a12 a13 a14 a15 a16 a17 a18 a19 a20 a21 a22 u.nv u.mem a25 a26 a27 a28 a29 a30 a31 a32) :=
  hu.trans ⟨fun c => ⟨c.regs, c.halls, c.chans, c.convs, c.nv, c.mem⟩, Nat.le_refl _⟩

/-- New jobs or a new read clock: the chips' bytes stay. -/
theorem Canon.flash_mk {n : NvSt} {x y} : Canon.flash n = true → Canon.flash ⟨n.c0, n.c1, x, y⟩ = true := id

/-- Another active half or other bad words: the RAM's bytes stay. -/
theorem Canon.rams_mk {m : MemSt} {x y} : Canon.rams m = true → Canon.rams ⟨m.main, m.mirror, m.ret, m.prog, x, y⟩ = true := id

theorem Canon.rams_prog {m : MemSt} {a : Nat} {l : List Byte} {x y} :
    Canon.rams m = true → Canon.rams ⟨m.main, m.mirror, m.ret, mwrites 0 m.prog a l, x, y⟩ = true := by
  simp only [Canon.rams, Bool.and_eq_true]
  rintro ⟨h, k⟩
  exact ⟨h, mwrites_wf _ _ k⟩

theorem keeps.ite {s t u : State} {c : Prop} [Decidable c] (h : keeps s t) (k : keeps s u) :
    keeps s (if c then t else u) := by split <;> assumption

theorem keeps.iteL {s t u : State} {c : Prop} [Decidable c] (hu : keeps s u) (h : keeps s u → keeps s t) :
    keeps s (if c then t else u) := by
  split
  · exact h hu
  · exact hu

theorem keeps.foldl {α : Type} {f : State → α → State} {s : State} (h : ∀ u x, keeps u (f u x)) :
    ∀ (l : List α) (u : State), keeps s u → keeps s (l.foldl f u)
  | [], _, hu => hu
  | x :: l, u, hu => keeps.foldl h l (f u x) (hu.trans (h u x))

theorem forChans_keeps {s u : State} {f : Nat → State → State} (h : ∀ c v, keeps v (f c v)) (hu : keeps s u) :
    keeps s (forChans f u) := (((hu.trans (h 0 _)).trans (h 1 _)).trans (h 2 _)).trans (h 3 _)

theorem forHalls_keeps {s u : State} {f : Nat → State → State} (h : ∀ c v, keeps v (f c v)) (hu : keeps s u) :
    keeps s (forHalls f u) :=
  (((((((hu.trans (h 0 _)).trans (h 1 _)).trans (h 2 _)).trans (h 3 _)).trans (h 4 _)).trans (h 5 _)).trans
    (h 6 _)).trans (h 7 _)

theorem forN_keeps {n : Nat} {s u : State} {f : Nat → State → State} (h : ∀ c v, keeps v (f c v)) (hu : keeps s u) :
    keeps s (forN n f u) := keeps.foldl (fun v c => h c v) _ _ hu

/-! The operations that write a store or time. -/

theorem setReg_keeps {s0 s : State} {a : Nat} {v : Word} (hs : keeps s0 s) : keeps s0 (setReg a v s) :=
  hs.trans ⟨fun c => { c with regs := tset_wf a v c.regs }, Nat.le_refl _⟩

theorem updHall_keeps {s0 s : State} {h : Nat} {f : HallState → HallState} (hs : keeps s0 s) : keeps s0 (updHall h f s) :=
  hs.trans ⟨fun c => { c with halls := tset_wf h _ c.halls }, Nat.le_refl _⟩

theorem updChan_keeps {s0 s : State} {h k : Nat} {f : ChanState → ChanState} (hs : keeps s0 s) :
    keeps s0 (updChan h k f s) :=
  hs.trans ⟨fun c => { c with chans := tset_wf _ _ c.chans }, Nat.le_refl _⟩

theorem updConv_keeps {s0 s : State} {n : Nat} {f : ConvState → ConvState} (hs : keeps s0 s) : keeps s0 (updConv n f s) :=
  hs.trans ⟨fun c => { c with convs := tset_wf n _ c.convs }, Nat.le_refl _⟩

theorem advance_keeps {s0 s : State} {d : Nat} (hs : keeps s0 s) : keeps s0 (advance d s) :=
  hs.trans ⟨fun c => { c with regs := c.regs }, Nat.le_add_right _ _⟩

/-- A chip's change that keeps its bytes in form. -/
theorem updChip_keeps {s0 s : State} {i : Nat} {f : NvChip → NvChip}
    (hf : ∀ c, Table.wf (fun _ => blankByte) c.mem = true → Table.wf (fun _ => blankByte) (f c).mem = true)
    (hs : keeps s0 s) : keeps s0 (updChip i f s) := by
  refine hs.trans ?_
  unfold updChip
  split
  · refine ⟨fun c => { c with nv := ?_ }, Nat.le_refl _⟩
    have := c.nv
    simp only [Canon.flash, Bool.and_eq_true] at this ⊢
    exact ⟨hf _ this.1, this.2⟩
  · refine ⟨fun c => { c with nv := ?_ }, Nat.le_refl _⟩
    have := c.nv
    simp only [Canon.flash, Bool.and_eq_true] at this ⊢
    exact ⟨this.1, hf _ this.2⟩

theorem nvProgram_keeps {s0 s : State} {i a : Nat} {bs : List Byte} (hs : keeps s0 s) : keeps s0 (nvProgram i a bs s) :=
  updChip_keeps (fun _ h => mwrites_wf _ _ h) hs

theorem nvErase_keeps {s0 s : State} {a n : Nat} (hs : keeps s0 s) : keeps s0 (nvErase a n s) := by
  refine hs.trans ⟨fun c => { c with nv := ?_ }, Nat.le_refl _⟩
  have := c.nv
  simp only [Canon.flash, Bool.and_eq_true, nvErase] at this ⊢
  refine ⟨?_, ?_⟩
  · split
    · exact merase_wf _ _ this.1
    · exact this.1
  · split
    · exact merase_wf _ _ this.2
    · exact this.2

theorem nvWrite_keeps {s0 s : State} {a : Nat} {bs : List Byte} (hs : keeps s0 s) : keeps s0 (nvWrite a bs s) := by
  refine hs.trans ⟨fun c => { c with nv := ?_ }, Nat.le_refl _⟩
  have := c.nv
  simp only [Canon.flash, Bool.and_eq_true, nvWrite] at this ⊢
  refine ⟨?_, ?_⟩
  · split
    · exact mwrites_wf _ _ this.1
    · exact this.1
  · split
    · exact mwrites_wf _ _ this.2
    · exact this.2

theorem writeMain_keeps {s0 s : State} {a : Nat} {bs : List Byte} (hs : keeps s0 s) : keeps s0 (writeMain a bs s) := by
  refine hs.trans ⟨fun c => { c with mem := ?_ }, Nat.le_refl _⟩
  have := c.mem
  simp only [Canon.rams, Bool.and_eq_true, writeMain] at this ⊢
  exact ⟨⟨⟨mwrites_wf _ _ this.1.1.1, this.1.1.2⟩, this.1.2⟩, this.2⟩

theorem writeMirror_keeps {s0 s : State} {a : Nat} {bs : List Byte} (hs : keeps s0 s) : keeps s0 (writeMirror a bs s) := by
  refine hs.trans ⟨fun c => { c with mem := ?_ }, Nat.le_refl _⟩
  have := c.mem
  simp only [Canon.rams, Bool.and_eq_true, writeMirror] at this ⊢
  exact ⟨⟨⟨this.1.1.1, mwrites_wf _ _ this.1.1.2⟩, this.1.2⟩, this.2⟩

end Sys2Proof.Machine
end

