-- ==== Sys2Proof/Laws/Keeps0.lean ====
section
/-! SUPPORT. Every shared operation keeps the canonical form and the order of local time (part 1 of 12). -/

set_option linter.unusedTactic false
set_option linter.unreachableTactic false

namespace Sys2Proof.Machine

theorem modReg_keeps {s0 : State} {a : Nat} {f : Word → Word} {s : State} (hs : keeps s0 s) : keeps s0 (modReg a f s) := by
  refine hs.trans ?_
  clear hs
  unfold modReg
  with_reducible repeat' first
    | assumption | exact keeps.refl _ | apply setReg_keeps | (intro)

theorem trimEvents_keeps {s0 : State} {s : State} (hs : keeps s0 s) : keeps s0 (trimEvents s) :=
  hs.skip (trimEvents_changes (F := [.bb]) rfl (changesOnly.refl _ _)) (by decide)

theorem bbEventAt_keeps {s0 : State} {time : Nat} {code : Nat} {src : Nat} {data : Nat} {s : State} (hs : keeps s0 s) : keeps s0 (bbEventAt time code src data s) := by
  refine hs.trans ?_
  clear hs
  unfold bbEventAt
  with_reducible repeat' first
    | assumption | exact keeps.refl _ | apply modReg_keeps | apply trimEvents_keeps | apply keeps.iteL
    | apply keeps.ite | split | apply keeps.set | (intro)

theorem raiseEvtAt_keeps {s0 : State} {time : Nat} {a : Nat} {m : Word} {s : State} (hs : keeps s0 s) : keeps s0 (raiseEvtAt time a m s) := by
  refine hs.trans ?_
  clear hs
  unfold raiseEvtAt
  with_reducible repeat' first
    | assumption | exact keeps.refl _ | apply setReg_keeps | apply bbEventAt_keeps | apply keeps.iteL
    | apply keeps.ite | split | (intro)

theorem raiseEvt_keeps {s0 : State} {a : Nat} {m : Word} {s : State} (hs : keeps s0 s) : keeps s0 (raiseEvt a m s) := by
  refine hs.trans ?_
  clear hs
  unfold raiseEvt
  with_reducible repeat' first
    | assumption | exact keeps.refl _ | apply raiseEvtAt_keeps | (intro)

theorem raiseBit_keeps {s0 : State} {a : Nat} {i : Nat} {s : State} (hs : keeps s0 s) : keeps s0 (raiseBit a i s) := by
  refine hs.trans ?_
  clear hs
  unfold raiseBit
  with_reducible repeat' first
    | assumption | exact keeps.refl _ | apply raiseEvt_keeps | (intro)

theorem updImg_keeps {s0 : State} {f : ImgSt → ImgSt} {s : State} (hs : keeps s0 s) : keeps s0 (updImg f s) :=
  hs.skip (updImg_changes (F := [.img]) rfl (changesOnly.refl _ _)) (by decide)

theorem setCopy_keeps {s0 : State} {i : Nat} {st : Nat} {gen : Nat} {s : State} (hs : keeps s0 s) : keeps s0 (setCopy i st gen s) :=
  hs.skip (setCopy_changes (F := [.img]) rfl (changesOnly.refl _ _)) (by decide)

theorem setNewCopies_keeps {s0 : State} {st : Nat} {gen : Nat} {s : State} (hs : keeps s0 s) : keeps s0 (setNewCopies st gen s) :=
  hs.skip (setNewCopies_changes (F := [.img]) rfl (changesOnly.refl _ _)) (by decide)

theorem abortRefused_keeps {s0 : State} {s : State} (hs : keeps s0 s) : keeps s0 (abortRefused s) := by
  refine hs.trans ?_
  clear hs
  unfold abortRefused
  with_reducible repeat' first
    | assumption | exact keeps.refl _ | apply raiseBit_keeps | apply setNewCopies_keeps | apply nvErase_keeps
    | (intro)

theorem chFlag_keeps {s0 : State} {h : Nat} {c : Nat} {i : Nat} {b : Bool} {s : State} (hs : keeps s0 s) : keeps s0 (chFlag h c i b s) := by
  refine hs.trans ?_
  clear hs
  unfold chFlag
  with_reducible repeat' first
    | assumption | exact keeps.refl _ | apply updChan_keeps | apply keeps.iteL | apply keeps.ite | split | (intro)

theorem ainFlag_keeps {s0 : State} {h : Nat} {c : Nat} {i : Nat} {b : Bool} {s : State} (hs : keeps s0 s) : keeps s0 (ainFlag h c i b s) := by
  refine hs.trans ?_
  clear hs
  unfold ainFlag
  with_reducible repeat' first
    | assumption | exact keeps.refl _ | apply updChan_keeps | apply keeps.iteL | apply keeps.ite | split | (intro)

theorem ackFlags_keeps {s0 : State} {h : Nat} {c : Nat} {present : Bool} {s : State} (hs : keeps s0 s) : keeps s0 (ackFlags h c present s) := by
  refine hs.trans ?_
  clear hs
  unfold ackFlags
  with_reducible repeat' first
    | assumption | exact keeps.refl _ | apply updChan_keeps | apply ainFlag_keeps | apply chFlag_keeps
    | apply keeps.iteL | apply keeps.ite | split | (intro)

theorem setDrive_keeps {s0 : State} {h : Nat} {c : Nat} {v : Nat} {s : State} (hs : keeps s0 s) : keeps s0 (setDrive h c v s) := by
  refine hs.trans ?_
  clear hs
  unfold setDrive
  with_reducible repeat' first
    | assumption | exact keeps.refl _ | apply updChan_keeps | apply chFlag_keeps | apply keeps.iteL | apply keeps.ite
    | split | (intro)

theorem pulseGo_keeps {s0 : State} {h : Nat} {c : Nat} {s : State} (hs : keeps s0 s) : keeps s0 (pulseGo h c s) := by
  refine hs.trans ?_
  clear hs
  unfold pulseGo
  with_reducible repeat' first
    | assumption | exact keeps.refl _ | apply updChan_keeps | apply keeps.iteL | apply keeps.ite | split | (intro)

theorem resolve_keeps {s0 : State} {h : Nat} {c : Nat} {s : State} (hs : keeps s0 s) : keeps s0 (resolve h c s) := by
  refine hs.trans ?_
  clear hs
  unfold resolve
  with_reducible repeat' first
    | assumption | exact keeps.refl _ | apply setDrive_keeps | apply chFlag_keeps | apply pulseGo_keeps
    | apply keeps.iteL | apply keeps.ite | split | (intro)

theorem gangFail_keeps {s0 : State} {h : Nat} {c : Nat} {s : State} (hs : keeps s0 s) : keeps s0 (gangFail h c s) := by
  refine hs.trans ?_
  clear hs
  unfold gangFail
  with_reducible repeat' first
    | assumption | exact keeps.refl _ | apply updChan_keeps | apply chFlag_keeps | apply resolve_keeps
    | apply keeps.foldl | (intro)

theorem ackChannel_keeps {s0 : State} {h : Nat} {c : Nat} {present : Nat → Bool} {s : State} (hs : keeps s0 s) : keeps s0 (ackChannel h c present s) := by
  refine hs.trans ?_
  clear hs
  unfold ackChannel
  with_reducible repeat' first
    | assumption | exact keeps.refl _ | apply updChan_keeps | apply chFlag_keeps | apply ackFlags_keeps
    | apply resolve_keeps | apply gangFail_keeps | apply keeps.foldl | apply keeps.iteL | apply keeps.ite | split
    | (intro)

theorem reportState_keeps {s0 : State} {h : Nat} {c : Nat} {s : State} (hs : keeps s0 s) : keeps s0 (reportState h c s) := by
  refine hs.trans ?_
  clear hs
  unfold reportState
  with_reducible repeat' first
    | assumption | exact keeps.refl _ | apply raiseEvtAt_keeps | apply keeps.iteL | apply keeps.ite | split | (intro)

theorem reportChan_keeps {s0 : State} {h : Nat} {c : Nat} {s : State} (hs : keeps s0 s) : keeps s0 (reportChan h c s) := by
  refine hs.trans ?_
  clear hs
  unfold reportChan
  with_reducible repeat' first
    | assumption | exact keeps.refl _ | apply setReg_keeps | apply raiseEvt_keeps | apply reportState_keeps
    | apply updChan_keeps | (intro)

theorem noteVstate_keeps {s0 : State} {h : Nat} {s : State} (hs : keeps s0 s) : keeps s0 (noteVstate h s) :=
  hs.skip (noteVstate_changes (F := [.per]) rfl (changesOnly.refl _ _)) (by decide)

theorem report_keeps {s0 : State} {h : Nat} {s : State} (hs : keeps s0 s) : keeps s0 (report h s) := by
  refine hs.trans ?_
  clear hs
  unfold report
  with_reducible repeat' first
    | assumption | exact keeps.refl _ | apply setReg_keeps | apply raiseEvt_keeps | apply updHall_keeps
    | apply reportChan_keeps | apply noteVstate_keeps | apply forN_keeps | apply forChans_keeps | apply keeps.iteL
    | apply keeps.ite | split | (intro)

theorem forShared_keeps {s0 s : State} {sel : State → Nat → Nat → Bool} {f : Nat → Nat → State → State}
    (h : ∀ h c v, keeps v (f h c v)) (hs : keeps s0 s) : keeps s0 (forShared sel f s) := by
  unfold forShared
  apply forHalls_keeps _ hs
  intro c v
  apply keeps.ite _ (keeps.refl _)
  apply report_keeps
  refine forChans_keeps (fun d w => ?_) (keeps.refl _)
  exact keeps.ite (h _ _ _) (keeps.refl _)

theorem hallAck_keeps {s0 : State} {h : Nat} {acks : Nat} {present : Nat → Bool} {s : State} (hs : keeps s0 s) : keeps s0 (hallAck h acks present s) := by
  refine hs.trans ?_
  clear hs
  unfold hallAck
  with_reducible repeat' first
    | assumption | exact keeps.refl _ | apply report_keeps | apply ackChannel_keeps | apply forChans_keeps
    | apply keeps.iteL | apply keeps.ite | split | (intro)

theorem excFlag_keeps {s0 : State} {h : Nat} {i : Nat} {b : Bool} {s : State} (hs : keeps s0 s) : keeps s0 (excFlag h i b s) := by
  refine hs.trans ?_
  clear hs
  unfold excFlag
  with_reducible repeat' first
    | assumption | exact keeps.refl _ | apply updHall_keeps | apply keeps.iteL | apply keeps.ite | split | (intro)

theorem applyExc_keeps {s0 : State} {h : Nat} {s : State} (hs : keeps s0 s) : keeps s0 (applyExc h s) := by
  refine hs.trans ?_
  clear hs
  unfold applyExc
  with_reducible repeat' first
    | assumption | exact keeps.refl _ | apply excFlag_keeps | apply updHall_keeps | split | (intro)

theorem discard_keeps {s0 : State} {n : Nat} {s : State} (hs : keeps s0 s) : keeps s0 (discard n s) := by
  refine hs.trans ?_
  clear hs
  unfold discard
  with_reducible repeat' first
    | assumption | exact keeps.refl _ | apply updConv_keeps | (intro)

theorem discardOpen_keeps {s0 : State} {n : Nat} {s : State} (hs : keeps s0 s) : keeps s0 (discardOpen n s) := by
  refine hs.trans ?_
  clear hs
  unfold discardOpen
  with_reducible repeat' first
    | assumption | exact keeps.refl _ | apply discard_keeps | apply keeps.iteL | apply keeps.ite | split | (intro)

theorem leaveShadow_keeps {s0 : State} {n : Nat} {s : State} (hs : keeps s0 s) : keeps s0 (leaveShadow n s) := by
  refine hs.trans ?_
  clear hs
  unfold leaveShadow
  with_reducible repeat' first
    | assumption | exact keeps.refl _ | apply updConv_keeps | apply discardOpen_keeps | apply keeps.iteL
    | apply keeps.ite | split | (intro)

theorem dropShadow_keeps {s0 : State} {h : Nat} {s : State} (hs : keeps s0 s) : keeps s0 (dropShadow h s) := by
  refine hs.trans ?_
  clear hs
  unfold dropShadow
  with_reducible repeat' first
    | assumption | exact keeps.refl _ | apply updHall_keeps | apply leaveShadow_keeps | (intro)

theorem restartAt_keeps {s0 : State} {n : Nat} {t16 : Nat} {s : State} (hs : keeps s0 s) : keeps s0 (restartAt n t16 s) := by
  refine hs.trans ?_
  clear hs
  unfold restartAt
  with_reducible repeat' first
    | assumption | exact keeps.refl _ | apply updConv_keeps | (intro)

theorem restartStep_keeps {s0 : State} {n : Nat} {t16 : Nat} {s : State} (hs : keeps s0 s) : keeps s0 (restartStep n t16 s) := by
  refine hs.trans ?_
  clear hs
  unfold restartStep
  with_reducible repeat' first
    | assumption | exact keeps.refl _ | apply restartAt_keeps | apply discardOpen_keeps | apply keeps.iteL
    | apply keeps.ite | split | (intro)

theorem forcedShadow_keeps {s0 : State} {h : Nat} {s : State} (hs : keeps s0 s) : keeps s0 (forcedShadow h s) := by
  refine hs.trans ?_
  clear hs
  unfold forcedShadow
  with_reducible repeat' first
    | assumption | exact keeps.refl _ | apply updHall_keeps | (intro)

theorem forceExc_keeps {s0 : State} {h : Nat} {s : State} (hs : keeps s0 s) : keeps s0 (forceExc h s) := by
  refine hs.trans ?_
  clear hs
  unfold forceExc
  with_reducible repeat' first
    | assumption | exact keeps.refl _ | apply applyExc_keeps | apply dropShadow_keeps | apply restartStep_keeps
    | apply forcedShadow_keeps | apply report_keeps | apply updHall_keeps | apply keeps.iteL | apply keeps.ite
    | split | (intro)

theorem addTrigger_keeps {s0 : State} {n : Nat} {t16 : Nat} {s : State} (hs : keeps s0 s) : keeps s0 (addTrigger n t16 s) := by
  refine hs.trans ?_
  clear hs
  unfold addTrigger
  with_reducible repeat' first
    | assumption | exact keeps.refl _ | apply updConv_keeps | (intro)

theorem triggerBlock_keeps {s0 : State} {own : Nat} {b : Nat} {t16 : Nat} {s : State} (hs : keeps s0 s) : keeps s0 (triggerBlock own b t16 s) := by
  refine hs.trans ?_
  clear hs
  unfold triggerBlock
  with_reducible repeat' first
    | assumption | exact keeps.refl _ | apply addTrigger_keeps | apply keeps.iteL | apply keeps.ite | split | (intro)

theorem injGoOp_keeps {s0 : State} {n : Nat} {s : State} (hs : keeps s0 s) : keeps s0 (injGoOp n s) := by
  refine hs.trans ?_
  clear hs
  unfold injGoOp
  with_reducible repeat' first
    | assumption | exact keeps.refl _ | apply triggerBlock_keeps | (intro)

theorem updRot_keeps {s0 : State} {h : Nat} {f : RotSt → RotSt} {s : State} (hs : keeps s0 s) : keeps s0 (updRot h f s) := by
  refine hs.trans ?_
  clear hs
  unfold updRot
  with_reducible repeat' first
    | assumption | exact keeps.refl _ | apply updHall_keeps | (intro)

theorem rotNowOp_keeps {s0 : State} {h : Nat} {s : State} (hs : keeps s0 s) : keeps s0 (rotNowOp h s) := by
  refine hs.trans ?_
  clear hs
  unfold rotNowOp
  with_reducible repeat' first
    | assumption | exact keeps.refl _ | apply updRot_keeps | apply keeps.iteL | apply keeps.ite | split | (intro)

theorem startFlight_keeps {s0 : State} {n : Nat} {s : State} (hs : keeps s0 s) : keeps s0 (startFlight n s) := by
  refine hs.trans ?_
  clear hs
  unfold startFlight
  with_reducible repeat' first
    | assumption | exact keeps.refl _ | apply updConv_keeps | (intro)

theorem startIdle_keeps {s0 : State} {own : Nat} {s : State} (hs : keeps s0 s) : keeps s0 (startIdle own s) := by
  refine hs.trans ?_
  clear hs
  unfold startIdle
  with_reducible repeat' first
    | assumption | exact keeps.refl _ | apply startFlight_keeps | apply keeps.iteL | apply keeps.ite | split
    | (intro)

theorem joinAt_keeps {s0 : State} {n : Nat} {h : Nat} {x : ConvState} {inst : Nat} {s : State} (hs : keeps s0 s) : keeps s0 (joinAt n h x inst s) := by
  refine hs.trans ?_
  clear hs
  unfold joinAt
  with_reducible repeat' first
    | assumption | exact keeps.refl _ | apply updConv_keeps | apply keeps.iteL | apply keeps.ite | split | (intro)

theorem joinBack_keeps {s0 : State} {h : Nat} {t16 : Nat} {s : State} (hs : keeps s0 s) : keeps s0 (joinBack h t16 s) := by
  refine hs.trans ?_
  clear hs
  unfold joinBack
  with_reducible repeat' first
    | assumption | exact keeps.refl _ | apply joinAt_keeps | apply keeps.iteL | apply keeps.ite | split | (intro)

theorem unretireOp_keeps {s0 : State} {h : Nat} {k : Nat} {s : State} (hs : keeps s0 s) : keeps s0 (unretireOp h k s) := by
  refine hs.trans ?_
  clear hs
  unfold unretireOp
  with_reducible repeat' first
    | assumption | exact keeps.refl _ | apply updHall_keeps | apply startIdle_keeps | apply report_keeps
    | apply joinBack_keeps | apply keeps.iteL | apply keeps.ite | split | (intro)

theorem updStg_keeps {s0 : State} {f : StgSt → StgSt} {s : State} (hs : keeps s0 s) : keeps s0 (updStg f s) :=
  hs.skip (updStg_changes (F := [.stg]) rfl (changesOnly.refl _ _)) (by decide)

theorem stgAbandon_keeps {s0 : State} {s : State} (hs : keeps s0 s) : keeps s0 (stgAbandon s) :=
  hs.skip (stgAbandon_changes (F := [.stg]) rfl (changesOnly.refl _ _)) (by decide)

theorem send_keeps {s0 : State} {line : Nat} {bs : List Byte} {s : State} (hs : keeps s0 s) : keeps s0 (send line bs s) :=
  hs.skip (send_changes (F := [.tx]) rfl (changesOnly.refl _ _)) (by decide)

theorem updPair_keeps {s0 : State} {f : PairSt → PairSt} {s : State} (hs : keeps s0 s) : keeps s0 (updPair f s) :=
  hs.skip (updPair_changes (F := [.pair]) rfl (changesOnly.refl _ _)) (by decide)

theorem pairSend_keeps {s0 : State} {typ : Nat} {maddr : Nat} {payload : List Byte} {s : State} (hs : keeps s0 s) : keeps s0 (pairSend typ maddr payload s) :=
  hs.skip (pairSend_changes (F := [.tx, .pair]) rfl (changesOnly.refl _ _)) (by decide)

theorem forward_keeps {s0 : State} {a : Nat} {kind : Nat} {mask : Word} {value : Word} {s : State} (hs : keeps s0 s) : keeps s0 (forward a kind mask value s) :=
  hs.skip (forward_changes (F := [.tx, .pair]) rfl (changesOnly.refl _ _)) (by decide)

theorem stgForward_keeps {s0 : State} {s : State} (hs : keeps s0 s) : keeps s0 (stgForward s) :=
  hs.skip (stgForward_changes (F := [.tx, .pair]) rfl (changesOnly.refl _ _)) (by decide)

end Sys2Proof.Machine
end

