-- ==== Sys2Proof/Laws/Keeps1.lean ====
section
/-! SUPPORT. Every shared operation keeps the canonical form and the order of local time (part 2 of 12). -/

set_option linter.unusedTactic false
set_option linter.unreachableTactic false

namespace Sys2Proof.Machine

theorem stgCommit_keeps {s0 : State} {s : State} (hs : keeps s0 s) : keeps s0 (stgCommit s) :=
  hs.skip (stgCommit_changes (F := [.stg, .tx, .pair]) rfl (changesOnly.refl _ _)) (by decide)

theorem stgCtrl_keeps {s0 : State} {v : Word} {s : State} (hs : keeps s0 s) : keeps s0 (stgCtrl v s) :=
  hs.skip (stgCtrl_changes (F := [.stg, .tx, .pair]) rfl (changesOnly.refl _ _)) (by decide)

theorem setStrPos_keeps {s0 : State} {k : Nat} {p : Nat} {s : State} (hs : keeps s0 s) : keeps s0 (setStrPos k p s) :=
  hs.skip (setStrPos_changes (F := [.str]) rfl (changesOnly.refl _ _)) (by decide)

theorem schedule_keeps {s0 : State} {t : Nat} {loc : Bool} {s : State} (hs : keeps s0 s) : keeps s0 (schedule t loc s) :=
  hs.skip (schedule_changes (F := [.sync]) rfl (changesOnly.refl _ _)) (by decide)

theorem acyPush_keeps {s0 : State} {bytes : List Byte} {notBefore : Nat} {answer : Bool} {s : State} (hs : keeps s0 s) : keeps s0 (acyPush bytes notBefore answer s) :=
  hs.skip (acyPush_changes (F := [.ml]) rfl (changesOnly.refl _ _)) (by decide)

theorem acyRequest_keeps {s0 : State} {op : Nat} {bcast : Bool} {dst : Nat} {data : List Byte} {s : State} (hs : keeps s0 s) : keeps s0 (acyRequest op bcast dst data s) :=
  hs.skip (acyRequest_changes (F := [.ml]) rfl (changesOnly.refl _ _)) (by decide)

theorem scheduleLocal_keeps {s0 : State} {t : Nat} {s : State} (hs : keeps s0 s) : keeps s0 (scheduleLocal t s) :=
  hs.skip (scheduleLocal_changes (F := [.sync, .ml]) rfl (changesOnly.refl _ _)) (by decide)

theorem syncNowOp_keeps {s0 : State} {s : State} (hs : keeps s0 s) : keeps s0 (syncNowOp s) :=
  hs.skip (syncNowOp_changes (F := [.sync, .ml]) rfl (changesOnly.refl _ _)) (by decide)

theorem bbEvent_keeps {s0 : State} {code : Nat} {src : Nat} {data : Nat} {s : State} (hs : keeps s0 s) : keeps s0 (bbEvent code src data s) := by
  refine hs.trans ?_
  clear hs
  unfold bbEvent
  with_reducible repeat' first
    | assumption | exact keeps.refl _ | apply bbEventAt_keeps | (intro)

theorem freeze_keeps {s0 : State} {cause : Nat} {trap : Nat} {addr : Nat} {s : State} (hs : keeps s0 s) : keeps s0 (freeze cause trap addr s) := by
  refine hs.trans ?_
  clear hs
  unfold freeze
  with_reducible repeat' first
    | assumption | exact keeps.refl _ | apply modReg_keeps | apply bbEvent_keeps | apply raiseBit_keeps
    | apply keeps.iteL | apply keeps.ite | split | apply keeps.set | (intro)

theorem bbResume_keeps {s0 : State} {s : State} (hs : keeps s0 s) : keeps s0 (bbResume s) :=
  hs.skip (bbResume_changes (F := [.str, .bb]) rfl (changesOnly.refl _ _)) (by decide)

theorem checkIn_keeps {s0 : State} {i : Nat} {s : State} (hs : keeps s0 s) : keeps s0 (checkIn i s) := by
  refine hs.trans ?_
  clear hs
  unfold checkIn
  with_reducible repeat' first
    | assumption | exact keeps.refl _ | apply modReg_keeps | apply keeps.iteL | apply keeps.ite | split
    | apply keeps.set | (intro)

theorem updMl_keeps {s0 : State} {f : MlSt → MlSt} {s : State} (hs : keeps s0 s) : keeps s0 (updMl f s) :=
  hs.skip (updMl_changes (F := [.ml]) rfl (changesOnly.refl _ _)) (by decide)

theorem rebaseGrid_keeps {s0 : State} {s : State} (hs : keeps s0 s) : keeps s0 (rebaseGrid s) :=
  hs.skip (rebaseGrid_changes (F := [.sync]) rfl (changesOnly.refl _ _)) (by decide)

theorem takeFree_keeps {s0 : State} {s : State} (hs : keeps s0 s) : keeps s0 (takeFree s) :=
  hs.skip (takeFree_changes (F := [.free]) rfl (changesOnly.refl _ _)) (by decide)

theorem judgeGrid_keeps {s0 : State} {s : State} (hs : keeps s0 s) : keeps s0 (judgeGrid s) :=
  hs.skip (judgeGrid_changes (F := [.sync, .free]) rfl (changesOnly.refl _ _)) (by decide)

theorem stepRing_keeps {s0 : State} {t : Nat} {s : State} (hs : keeps s0 s) : keeps s0 (stepRing t s) := by
  unfold stepRing
  split
  · exact hs
  · exact judgeGrid_keeps (keeps.mk (Nat.le_refl _) id id id id id id hs)

theorem timeSetNow_keeps {s0 : State} {s : State} (hs : keeps s0 s) : keeps s0 (timeSetNow s) := by
  refine hs.trans ?_
  clear hs
  unfold timeSetNow
  with_reducible repeat' first
    | assumption | exact keeps.refl _ | apply stepRing_keeps | apply keeps.set | (intro)

theorem timeSetOp_keeps {s0 : State} {s : State} (hs : keeps s0 s) : keeps s0 (timeSetOp s) := by
  refine hs.trans ?_
  clear hs
  unfold timeSetOp
  with_reducible repeat' first
    | assumption | exact keeps.refl _ | apply updMl_keeps | apply timeSetNow_keeps | apply keeps.iteL
    | apply keeps.ite | split | (intro)

theorem mlSend_keeps {s0 : State} {p : Nat} {bs : List Byte} {good : Bool} {s : State} (hs : keeps s0 s) : keeps s0 (mlSend p bs good s) :=
  hs.skip (mlSend_changes (F := [.tx]) rfl (changesOnly.refl _ _)) (by decide)

theorem eccFound_keeps {s0 : State} {mem : Nat} {hall : Nat} {word : Nat} {s : State} (hs : keeps s0 s) : keeps s0 (eccFound mem hall word s) := by
  refine hs.trans ?_
  clear hs
  unfold eccFound
  with_reducible repeat' first
    | assumption | exact keeps.refl _ | apply freeze_keeps | apply raiseBit_keeps | apply setReg_keeps | (intro)

theorem eccRewritten_keeps {s0 : State} {sel : Nat × Nat → Bool} {s : State} (hs : keeps s0 s) : keeps s0 (eccRewritten sel s) := by
  refine hs.trans ?_
  clear hs
  unfold eccRewritten
  with_reducible repeat' first
    | exact Nat.le_refl _ | exact id | assumption | exact keeps.refl _ | apply keeps.set | exact Canon.flash_mk
    | exact Canon.rams_mk | exact Canon.rams_prog | apply keeps.mk | (intro)

theorem frameSend_keeps {s0 : State} {p : Nat} {bs : List Byte} {good : Bool} {s : State} (hs : keeps s0 s) : keeps s0 (frameSend p bs good s) := by
  refine hs.trans ?_
  clear hs
  unfold frameSend
  with_reducible repeat' first
    | assumption | exact keeps.refl _ | apply mlSend_keeps | apply eccFound_keeps | apply eccRewritten_keeps | split
    | (intro)

theorem mlOriginate_keeps {s0 : State} {form : Bool} {typ : Nat} {payload : List Byte} {s : State} (hs : keeps s0 s) : keeps s0 (mlOriginate form typ payload s) := by
  refine hs.trans ?_
  clear hs
  unfold mlOriginate
  with_reducible repeat' first
    | assumption | exact keeps.refl _ | apply frameSend_keeps | split | (intro)

theorem updPort_keeps {s0 : State} {p : Nat} {f : MlPort → MlPort} {s : State} (hs : keeps s0 s) : keeps s0 (updPort p f s) :=
  hs.skip (updPort_changes (F := [.ml]) rfl (changesOnly.refl _ _)) (by decide)

theorem formGo_keeps {s0 : State} {s : State} (hs : keeps s0 s) : keeps s0 (formGo s) := by
  refine hs.trans ?_
  clear hs
  unfold formGo
  with_reducible repeat' first
    | assumption | exact keeps.refl _ | apply updMl_keeps | apply mlOriginate_keeps | apply updPort_keeps
    | apply forN_keeps | (intro)

theorem formStart_keeps {s0 : State} {s : State} (hs : keeps s0 s) : keeps s0 (formStart s) := by
  refine hs.trans ?_
  clear hs
  unfold formStart
  with_reducible repeat' first
    | assumption | exact keeps.refl _ | apply updMl_keeps | apply formGo_keeps | apply keeps.iteL | apply keeps.ite
    | split | (intro)

theorem mlCtrl_keeps {s0 : State} {v : Word} {s : State} (hs : keeps s0 s) : keeps s0 (mlCtrl v s) := by
  refine hs.trans ?_
  clear hs
  unfold mlCtrl
  with_reducible repeat' first
    | assumption | exact keeps.refl _ | apply timeSetOp_keeps | apply updMl_keeps | apply formStart_keeps
    | apply keeps.iteL | apply keeps.ite | split | (intro)

theorem mlEvent_keeps {s0 : State} {i : Nat} {s : State} (hs : keeps s0 s) : keeps s0 (mlEvent i s) := by
  refine hs.trans ?_
  clear hs
  unfold mlEvent
  with_reducible repeat' first
    | assumption | exact keeps.refl _ | apply raiseBit_keeps | (intro)

theorem injectCommand_keeps {s0 : State} {t : Nat} {s : State} (hs : keeps s0 s) : keeps s0 (injectCommand t s) := by
  refine hs.trans ?_
  clear hs
  unfold injectCommand
  with_reducible repeat' first
    | assumption | exact keeps.refl _ | apply mlEvent_keeps | apply updMl_keeps | apply keeps.iteL | apply keeps.ite
    | split | (intro)

theorem mlCmd_keeps {s0 : State} {v : Word} {s : State} (hs : keeps s0 s) : keeps s0 (mlCmd v s) := by
  refine hs.trans ?_
  clear hs
  unfold mlCmd
  with_reducible repeat' first
    | assumption | exact keeps.refl _ | apply acyRequest_keeps | apply schedule_keeps | apply injectCommand_keeps
    | apply keeps.iteL | apply keeps.ite | split | (intro)

theorem mbDone_keeps {s0 : State} {status : Nat} {words : Nat} {s : State} (hs : keeps s0 s) : keeps s0 (mbDone status words s) := by
  refine hs.trans ?_
  clear hs
  unfold mbDone
  with_reducible repeat' first
    | assumption | exact keeps.refl _ | apply mlEvent_keeps | apply setReg_keeps | apply updMl_keeps | (intro)

theorem mbStart_keeps {s0 : State} {v : Word} {s : State} (hs : keeps s0 s) : keeps s0 (mbStart v s) := by
  refine hs.trans ?_
  clear hs
  unfold mbStart
  with_reducible repeat' first
    | assumption | exact keeps.refl _ | apply mbDone_keeps | apply updMl_keeps | apply acyRequest_keeps
    | apply setReg_keeps | apply keeps.iteL | apply keeps.ite | split | (intro)

theorem jMod_keeps {s0 : State} {op : Nat} {f : JEntry → JEntry} {s : State} (hs : keeps s0 s) : keeps s0 (jMod op f s) :=
  hs.skip (jMod_changes (F := [.jnl]) rfl (changesOnly.refl _ _)) (by decide)

theorem jStep_keeps {s0 : State} {op : Nat} {i : Nat} {s : State} (hs : keeps s0 s) : keeps s0 (jStep op i s) :=
  hs.skip (jStep_changes (F := [.jnl]) rfl (changesOnly.refl _ _)) (by decide)

theorem dirWrite_keeps {s0 : State} {s : State} (hs : keeps s0 s) : keeps s0 (dirWrite s) := by
  refine hs.trans ?_
  clear hs
  unfold dirWrite
  with_reducible repeat' first
    | assumption | exact keeps.refl _ | apply nvWrite_keeps | apply nvErase_keeps | (intro)

theorem sectorErase_keeps {s0 : State} {a : Nat} {s : State} (hs : keeps s0 s) : keeps s0 (sectorErase a s) := by
  refine hs.trans ?_
  clear hs
  unfold sectorErase
  with_reducible repeat' first
    | assumption | exact keeps.refl _ | apply dirWrite_keeps | apply nvErase_keeps | (intro)

theorem jCopy_keeps {s0 : State} {e : JEntry} {s : State} (hs : keeps s0 s) : keeps s0 (jCopy e s) := by
  refine hs.trans ?_
  clear hs
  unfold jCopy
  with_reducible repeat' first
    | assumption | exact keeps.refl _ | apply sectorErase_keeps | apply nvWrite_keeps | apply keeps.iteL
    | apply keeps.ite | split | apply keeps.set | (intro)

theorem retWritten_keeps {s0 : State} {x : RetItem} {s : State} (hs : keeps s0 s) : keeps s0 (retWritten x s) := by
  refine hs.trans ?_
  clear hs
  unfold retWritten
  with_reducible repeat' first
    | assumption | exact keeps.refl _ | apply eccRewritten_keeps | (intro)

theorem jOpen_keeps {s0 : State} {typ : Nat} {target : Nat} {detail : Nat} {s : State} (hs : keeps s0 s) : keeps s0 (jOpen typ target detail s) := by
  refine hs.trans ?_
  clear hs
  unfold jOpen
  with_reducible repeat' first
    | assumption | exact keeps.refl _ | apply jCopy_keeps | apply retWritten_keeps | apply keeps.iteL
    | apply keeps.ite | split | apply keeps.set | (intro)

theorem hoSend_keeps {s0 : State} {m : HoMsg} {s : State} (hs : keeps s0 s) : keeps s0 (hoSend m s) :=
  hs.skip (hoSend_changes (F := [.tx, .pair]) rfl (changesOnly.refl _ _)) (by decide)

theorem hoRequest_keeps {s0 : State} {s : State} (hs : keeps s0 s) : keeps s0 (hoRequest s) := by
  refine hs.trans ?_
  clear hs
  unfold hoRequest
  with_reducible repeat' first
    | assumption | exact keeps.refl _ | apply jStep_keeps | apply jOpen_keeps | apply hoSend_keeps
    | apply updPair_keeps | (intro)

theorem pairEvent_keeps {s0 : State} {i : Nat} {s : State} (hs : keeps s0 s) : keeps s0 (pairEvent i s) := by
  refine hs.trans ?_
  clear hs
  unfold pairEvent
  with_reducible repeat' first
    | assumption | exact keeps.refl _ | apply raiseBit_keeps | (intro)

theorem hoRefused_keeps {s0 : State} {s : State} (hs : keeps s0 s) : keeps s0 (hoRefused s) := by
  refine hs.trans ?_
  clear hs
  unfold hoRefused
  with_reducible repeat' first
    | assumption | exact keeps.refl _ | apply pairEvent_keeps | apply keeps.iteL | apply keeps.ite | split | (intro)

theorem handoverOp_keeps {s0 : State} {s : State} (hs : keeps s0 s) : keeps s0 (handoverOp s).1 := by
  refine hs.trans ?_
  clear hs
  unfold handoverOp
  with_reducible repeat' first
    | assumption | exact keeps.refl _ | apply hoRequest_keeps | apply hoRefused_keeps | apply keeps.iteL
    | apply keeps.ite | split | (intro)

theorem pageDrop_keeps {s0 : State} {s : State} (hs : keeps s0 s) : keeps s0 (pageDrop s) := by
  refine hs.trans ?_
  clear hs
  unfold pageDrop
  with_reducible repeat' first
    | exact Nat.le_refl _ | exact id | assumption | exact keeps.refl _ | apply updImg_keeps | apply keeps.set
    | exact Canon.flash_mk | exact Canon.rams_mk | exact Canon.rams_prog | apply keeps.mk | (intro)

theorem imgOpen_keeps {s0 : State} {s : State} (hs : keeps s0 s) : keeps s0 (imgOpen s) := by
  refine hs.trans ?_
  clear hs
  unfold imgOpen
  with_reducible repeat' first
    | assumption | exact keeps.refl _ | apply nvErase_keeps | apply jOpen_keeps | apply pageDrop_keeps
    | apply updImg_keeps | apply setNewCopies_keeps | (intro)

theorem pagesDone_keeps {s0 : State} {s : State} (hs : keeps s0 s) : keeps s0 (pagesDone s) :=
  hs.skip (pagesDone_changes (F := [.jnl]) rfl (changesOnly.refl _ _)) (by decide)

theorem galWrote_keeps {s0 : State} {j : FlashJob} {s : State} (hs : keeps s0 s) : keeps s0 (galWrote j s) :=
  hs.skip (galWrote_changes (F := [.gal]) rfl (changesOnly.refl _ _)) (by decide)

theorem addJob_keeps {s0 : State} {j : FlashJob} {s : State} (hs : keeps s0 s) : keeps s0 (addJob j s) := by
  refine hs.trans ?_
  clear hs
  unfold addJob
  with_reducible repeat' first
    | exact Nat.le_refl _ | exact id | assumption | exact keeps.refl _ | apply keeps.set | exact Canon.flash_mk
    | exact Canon.rams_mk | exact Canon.rams_prog | apply keeps.mk | (intro)

end Sys2Proof.Machine
end

