-- ==== Sys2Proof/Laws/Keeps2.lean ====
section
/-! SUPPORT. Every shared operation keeps the canonical form and the order of local time (part 3 of 12). -/

set_option linter.unusedTactic false
set_option linter.unreachableTactic false

namespace Sys2Proof.Machine

theorem jClose_keeps {s0 : State} {op : Nat} {st : Nat} {s : State} (hs : keeps s0 s) : keeps s0 (jClose op st s) := by
  refine hs.trans ?_
  clear hs
  unfold jClose
  repeat' first
    | with_reducible assumption | with_reducible exact keeps.refl _ | with_reducible apply jMod_keeps
    | with_reducible apply jCopy_keeps | split | dsimp only | with_reducible (intro)

theorem flushSteps_keeps {s0 : State} {j : FlashJob} {s : State} (hs : keeps s0 s) : keeps s0 (flushSteps j s) := by
  refine hs.trans ?_
  clear hs
  unfold flushSteps
  with_reducible repeat' first
    | assumption | exact keeps.refl _ | apply jStep_keeps | apply jClose_keeps | apply keeps.iteL | apply keeps.ite
    | split | (intro)

theorem jCommitProgress_keeps {s0 : State} {s : State} (hs : keeps s0 s) : keeps s0 (jCommitProgress s) := by
  refine hs.trans ?_
  clear hs
  unfold jCommitProgress
  with_reducible repeat' first
    | assumption | exact keeps.refl _ | apply jStep_keeps | apply jClose_keeps | apply keeps.foldl | apply keeps.iteL
    | apply keeps.ite | split | (intro)

theorem ckptStored_keeps {s0 : State} {op : Nat} {m : Nat} {s : State} (hs : keeps s0 s) : keeps s0 (ckptStored op m s) :=
  hs.skip (ckptStored_changes (F := [.gal]) rfl (changesOnly.refl _ _)) (by decide)

theorem ckptOver_keeps {s0 : State} {j : FlashJob} {m : Nat} {tick : Nat} {commit : Bool} {op : Nat} {s : State} (hs : keeps s0 s) : keeps s0 (ckptOver j m tick commit op s) := by
  refine hs.trans ?_
  clear hs
  unfold ckptOver
  with_reducible repeat' first
    | assumption | exact keeps.refl _ | apply setReg_keeps | apply addJob_keeps | apply raiseBit_keeps
    | apply flushSteps_keeps | apply jCommitProgress_keeps | apply ckptStored_keeps | apply keeps.iteL
    | apply keeps.ite | split | (intro)

theorem closeWritten_keeps {s0 : State} {op : Nat} {s : State} (hs : keeps s0 s) : keeps s0 (closeWritten op s) := by
  refine hs.trans ?_
  clear hs
  unfold closeWritten
  with_reducible repeat' first
    | assumption | exact keeps.refl _ | apply jClose_keeps | apply keeps.iteL | apply keeps.ite | split | (intro)

theorem periodOver_keeps {s0 : State} {j : FlashJob} {m : Nat} {kind : Nat} {seq : Nat} {op : Nat} {s : State} (hs : keeps s0 s) : keeps s0 (periodOver j m kind seq op s) := by
  refine hs.trans ?_
  clear hs
  unfold periodOver
  with_reducible repeat' first
    | assumption | exact keeps.refl _ | apply jStep_keeps | apply closeWritten_keeps | apply raiseBit_keeps
    | apply addJob_keeps | apply keeps.iteL | apply keeps.ite | split | apply keeps.set | (intro)

theorem galDrop_keeps {s0 : State} {bit_ : Nat} {s : State} (hs : keeps s0 s) : keeps s0 (galDrop bit_ s) := by
  refine hs.trans ?_
  clear hs
  unfold galDrop
  with_reducible repeat' first
    | assumption | exact keeps.refl _ | apply raiseBit_keeps | apply modReg_keeps | (intro)

theorem blockOver_keeps {s0 : State} {j : FlashJob} {s : State} (hs : keeps s0 s) : keeps s0 (blockOver j s) := by
  refine hs.trans ?_
  clear hs
  unfold blockOver
  with_reducible repeat' first
    | assumption | exact keeps.refl _ | apply flushSteps_keeps | apply galDrop_keeps | apply keeps.iteL
    | apply keeps.ite | split | (intro)

theorem repairOver_keeps {s0 : State} {j : FlashJob} {op : Nat} {s : State} (hs : keeps s0 s) : keeps s0 (repairOver j op s) := by
  refine hs.trans ?_
  clear hs
  unfold repairOver
  with_reducible repeat' first
    | assumption | exact keeps.refl _ | apply jClose_keeps | apply jStep_keeps | apply raiseBit_keeps
    | apply keeps.iteL | apply keeps.ite | split | apply keeps.set | (intro)

theorem jobDone_keeps {s0 : State} {j : FlashJob} {s : State} (hs : keeps s0 s) : keeps s0 (jobDone j s) := by
  refine hs.trans ?_
  clear hs
  unfold jobDone
  with_reducible repeat' first
    | assumption | exact keeps.refl _ | apply galWrote_keeps | apply ckptOver_keeps | apply periodOver_keeps
    | apply blockOver_keeps | apply repairOver_keeps | apply pagesDone_keeps | split | (intro)

theorem jobsSettle_keeps {s0 : State} {n : Nat} {s : State} (hs : keeps s0 s) : keeps s0 (jobsSettle n s) := by
  induction n generalizing s with
  | zero => exact hs
  | succ n ih =>
    simp only [jobsSettle]
    split
    · exact hs
    · exact ih (jobDone_keeps (keeps.mk (Nat.le_refl _) id id id id Canon.flash_mk id hs))

theorem jobsLost_keeps {s0 : State} {s : State} (hs : keeps s0 s) : keeps s0 (jobsLost s) := by
  refine hs.trans ?_
  clear hs
  unfold jobsLost
  with_reducible repeat' first
    | assumption | exact keeps.refl _ | apply jobsSettle_keeps | apply keeps.iteL | apply keeps.ite | split | (intro)

theorem pushJob_keeps {s0 : State} {k : JobKind} {addr : Nat} {bs : List Byte} {s : State} (hs : keeps s0 s) : keeps s0 (pushJob k addr bs s) := by
  refine hs.trans ?_
  clear hs
  unfold pushJob
  with_reducible repeat' first
    | assumption | exact keeps.refl _ | apply addJob_keeps | (intro)

theorem pageFlush_keeps {s0 : State} {s : State} (hs : keeps s0 s) : keeps s0 (pageFlush s) := by
  refine hs.trans ?_
  clear hs
  unfold pageFlush
  with_reducible repeat' first
    | assumption | exact keeps.refl _ | apply jobsLost_keeps | apply pushJob_keeps | apply updImg_keeps
    | apply keeps.iteL | apply keeps.ite | split | (intro)

theorem imgClose_keeps {s0 : State} {s : State} (hs : keeps s0 s) : keeps s0 (imgClose s) := by
  refine hs.trans ?_
  clear hs
  unfold imgClose
  with_reducible repeat' first
    | assumption | exact keeps.refl _ | apply pagesDone_keeps | apply updImg_keeps | apply pageFlush_keeps | (intro)

theorem loadIdleHalf_keeps {s0 : State} {im : Img} {s : State} (hs : keeps s0 s) : keeps s0 (loadIdleHalf im s) := by
  refine hs.trans ?_
  clear hs
  unfold loadIdleHalf
  with_reducible repeat' first
    | exact Nat.le_refl _ | exact id | assumption | exact keeps.refl _ | apply jStep_keeps | apply jOpen_keeps
    | apply keeps.set | exact Canon.flash_mk | exact Canon.rams_mk | exact Canon.rams_prog | apply keeps.mk | (intro)

theorem cfgClamp_keeps {s0 : State} {a : Nat} {s : State} (hs : keeps s0 s) : keeps s0 (cfgClamp a s) := by
  refine hs.trans ?_
  clear hs
  unfold cfgClamp
  with_reducible repeat' first
    | assumption | exact keeps.refl _ | apply raiseBit_keeps | apply modReg_keeps | (intro)

theorem loadReg_keeps {s0 : State} {im : Img} {a : Nat} {s : State} (hs : keeps s0 s) : keeps s0 (loadReg im a s) := by
  refine hs.trans ?_
  clear hs
  unfold loadReg
  with_reducible repeat' first
    | assumption | exact keeps.refl _ | apply setReg_keeps | apply cfgClamp_keeps | apply keeps.iteL
    | apply keeps.ite | split | (intro)

theorem loadRegs_keeps {s0 : State} {im : Img} {l : List Nat} {s : State} (hs : keeps s0 s) : keeps s0 (loadRegs im l s) := by
  refine hs.trans ?_
  clear hs
  unfold loadRegs
  with_reducible repeat' first
    | assumption | exact keeps.refl _ | apply loadReg_keeps | apply keeps.foldl | (intro)

theorem loadHallRegs_keeps {s0 : State} {im : Img} {h : Nat} {s : State} (hs : keeps s0 s) : keeps s0 (loadHallRegs im h s) := by
  refine hs.trans ?_
  clear hs
  unfold loadHallRegs
  with_reducible repeat' first
    | assumption | exact keeps.refl _ | apply loadRegs_keeps | (intro)

theorem resetBuffer_keeps {s0 : State} {n : Nat} {s : State} (hs : keeps s0 s) : keeps s0 (resetBuffer n s) := by
  refine hs.trans ?_
  clear hs
  unfold resetBuffer
  with_reducible repeat' first
    | assumption | exact keeps.refl _ | apply updConv_keeps | apply raiseBit_keeps | apply keeps.set | (intro)

theorem convStop_keeps {s0 : State} {n : Nat} {s : State} (hs : keeps s0 s) : keeps s0 (convStop n s) := by
  refine hs.trans ?_
  clear hs
  unfold convStop
  with_reducible repeat' first
    | assumption | exact keeps.refl _ | apply updConv_keeps | apply keeps.iteL | apply keeps.ite | split | (intro)

theorem stopHall_keeps {s0 : State} {h : Nat} {s : State} (hs : keeps s0 s) : keeps s0 (stopHall h s) := by
  refine hs.trans ?_
  clear hs
  unfold stopHall
  with_reducible repeat' first
    | assumption | exact keeps.refl _ | apply updHall_keeps | apply convStop_keeps | apply keeps.foldl | (intro)

theorem rotAbandon_keeps {s0 : State} {h : Nat} {s : State} (hs : keeps s0 s) : keeps s0 (rotAbandon h s) := by
  refine hs.trans ?_
  clear hs
  unfold rotAbandon
  with_reducible repeat' first
    | assumption | exact keeps.refl _ | apply updHall_keeps | apply keeps.iteL | apply keeps.ite | split | (intro)

theorem freezeDrive_keeps {s0 : State} {h : Nat} {c : Nat} {s : State} (hs : keeps s0 s) : keeps s0 (freezeDrive h c s) := by
  refine hs.trans ?_
  clear hs
  unfold freezeDrive
  with_reducible repeat' first
    | assumption | exact keeps.refl _ | apply updChan_keeps | apply keeps.iteL | apply keeps.ite | split | (intro)

theorem pulsReset_keeps {s0 : State} {h : Nat} {c : Nat} {s : State} (hs : keeps s0 s) : keeps s0 (pulsReset h c s) := by
  refine hs.trans ?_
  clear hs
  unfold pulsReset
  with_reducible repeat' first
    | assumption | exact keeps.refl _ | apply updChan_keeps | (intro)

theorem chanOff_keeps {s0 : State} {h : Nat} {c : Nat} {s : State} (hs : keeps s0 s) : keeps s0 (chanOff h c s) := by
  refine hs.trans ?_
  clear hs
  unfold chanOff
  with_reducible repeat' first
    | assumption | exact keeps.refl _ | apply updChan_keeps | (intro)

theorem holdHall_keeps {s0 : State} {im : Img} {h : Nat} {s : State} (hs : keeps s0 s) : keeps s0 (holdHall im h s) := by
  refine hs.trans ?_
  clear hs
  unfold holdHall
  with_reducible repeat' first
    | assumption | exact keeps.refl _ | apply updHall_keeps | apply stopHall_keeps | apply rotAbandon_keeps
    | apply freezeDrive_keeps | apply pulsReset_keeps | apply chanOff_keeps | apply forChans_keeps | apply keeps.iteL
    | apply keeps.ite | split | (intro)

theorem reloadBegin_keeps {s0 : State} {h : Nat} {fromNew : Bool} {start : Bool} {s : State} (hs : keeps s0 s) : keeps s0 (reloadBegin h fromNew start s) := by
  refine hs.trans ?_
  clear hs
  unfold reloadBegin
  with_reducible repeat' first
    | assumption | exact keeps.refl _ | apply jOpen_keeps | apply loadHallRegs_keeps | apply setReg_keeps
    | apply resetBuffer_keeps | apply holdHall_keeps | apply keeps.iteL | apply keeps.ite | split | apply keeps.set
    | (intro)

theorem activateNext_keeps {s0 : State} {s : State} (hs : keeps s0 s) : keeps s0 (activateNext s) := by
  refine hs.trans ?_
  clear hs
  unfold activateNext
  with_reducible repeat' first
    | assumption | exact keeps.refl _ | apply reloadBegin_keeps | apply keeps.iteL | apply keeps.ite | split
    | apply keeps.set | (intro)

theorem imgActivate_keeps {s0 : State} {s : State} (hs : keeps s0 s) : keeps s0 (imgActivate s) := by
  refine hs.trans ?_
  clear hs
  unfold imgActivate
  with_reducible repeat' first
    | assumption | exact keeps.refl _ | apply loadIdleHalf_keeps | apply activateNext_keeps | apply updImg_keeps
    | apply keeps.iteL | apply keeps.ite | split | (intro)

theorem imgRollBack_keeps {s0 : State} {n : Nat} {s : State} (hs : keeps s0 s) : keeps s0 (imgRollBack n s) := by
  refine hs.trans ?_
  clear hs
  unfold imgRollBack
  with_reducible repeat' first
    | assumption | exact keeps.refl _ | apply jClose_keeps | apply nvErase_keeps | apply pageDrop_keeps
    | apply updImg_keeps | apply setNewCopies_keeps | (intro)

theorem imgAbort_keeps {s0 : State} {s : State} (hs : keeps s0 s) : keeps s0 (imgAbort s) := by
  refine hs.trans ?_
  clear hs
  unfold imgAbort
  with_reducible repeat' first
    | assumption | exact keeps.refl _ | apply raiseBit_keeps | apply imgRollBack_keeps | (intro)

theorem imgRoll_keeps {s0 : State} {s : State} (hs : keeps s0 s) : keeps s0 (imgRoll s) :=
  hs.skip (imgRoll_changes (F := [.tx, .pair, .img]) rfl (changesOnly.refl _ _)) (by decide)

theorem imgAction_keeps {s0 : State} {act : Nat} {h : Nat} {s : State} (hs : keeps s0 s) : keeps s0 (imgAction act h s) := by
  refine hs.trans ?_
  clear hs
  unfold imgAction
  with_reducible repeat' first
    | assumption | exact keeps.refl _ | apply imgOpen_keeps | apply imgClose_keeps | apply imgActivate_keeps
    | apply abortRefused_keeps | apply imgAbort_keeps | apply reloadBegin_keeps | apply imgRoll_keeps
    | apply keeps.iteL | apply keeps.ite | split | (intro)

theorem imgData_keeps {s0 : State} {v : Word} {s : State} (hs : keeps s0 s) : keeps s0 (imgData v s) := by
  refine hs.trans ?_
  clear hs
  unfold imgData
  with_reducible repeat' first
    | assumption | exact keeps.refl _ | apply updImg_keeps | apply pageFlush_keeps | apply keeps.iteL
    | apply keeps.ite | split | (intro)

theorem action_keeps {s0 : State} {a : Nat} {v : Word} {pres : Nat} {s : State} (hs : keeps s0 s) : keeps s0 (action a v pres s) := by
  refine hs.trans ?_
  clear hs
  unfold action
  with_reducible repeat' first
    | assumption | exact keeps.refl _ | apply hallAck_keeps | apply forceExc_keeps | apply injGoOp_keeps
    | apply rotNowOp_keeps | apply unretireOp_keeps | apply stgCtrl_keeps | apply setStrPos_keeps
    | apply syncNowOp_keeps | apply freeze_keeps | apply bbResume_keeps | apply checkIn_keeps | apply mlCtrl_keeps
    | apply mlCmd_keeps | apply mbStart_keeps | apply handoverOp_keeps | apply imgAction_keeps | apply imgData_keeps
    | apply keeps.iteL | apply keeps.ite | split | (intro)

theorem riskOf_keeps {s0 : State} {h : Nat} {c : Nat} {s : State} (hs : keeps s0 s) : keeps s0 (riskOf h c s) := by
  refine hs.trans ?_
  clear hs
  unfold riskOf
  with_reducible repeat' first
    | assumption | exact keeps.refl _ | apply chFlag_keeps | (intro)

theorem restartChannel_keeps {s0 : State} {h : Nat} {c : Nat} {before : Nat} {t16 : Nat} {s : State} (hs : keeps s0 s) : keeps s0 (restartChannel h c before t16 s) := by
  refine hs.trans ?_
  clear hs
  unfold restartChannel
  with_reducible repeat' first
    | assumption | exact keeps.refl _ | apply restartAt_keeps | apply discardOpen_keeps | apply dropShadow_keeps
    | apply keeps.iteL | apply keeps.ite | split | (intro)

theorem inputForm_keeps {s0 : State} {h : Nat} {c : Nat} {m : Nat} {a : Nat} {e : Nat} {s : State} (hs : keeps s0 s) : keeps s0 (inputForm h c m a e s) := by
  refine hs.trans ?_
  clear hs
  unfold inputForm
  with_reducible repeat' first
    | assumption | exact keeps.refl _ | apply riskOf_keeps | apply updChan_keeps | apply restartChannel_keeps
    | (intro)

theorem activeForm_keeps {s0 : State} {h : Nat} {c : Nat} {s : State} (hs : keeps s0 s) : keeps s0 (activeForm h c s) := by
  refine hs.trans ?_
  clear hs
  unfold activeForm
  with_reducible repeat' first
    | assumption | exact keeps.refl _ | apply inputForm_keeps | apply resolve_keeps | apply updChan_keeps
    | apply keeps.iteL | apply keeps.ite | split | (intro)

theorem updBal_keeps {s0 : State} {b : Nat} {f : BalSt → BalSt} {s : State} (hs : keeps s0 s) : keeps s0 (updBal b f s) :=
  hs.skip (updBal_changes (F := [.bal]) rfl (changesOnly.refl _ _)) (by decide)

theorem balGap_keeps {s0 : State} {s : State} (hs : keeps s0 s) : keeps s0 (balGap s) :=
  hs.skip (balGap_changes (F := [.bal]) rfl (changesOnly.refl _ _)) (by decide)

theorem updRun_keeps {s0 : State} {m : Nat} {f : RunSt → RunSt} {s : State} (hs : keeps s0 s) : keeps s0 (updRun m f s) :=
  hs.skip (updRun_changes (F := [.runs]) rfl (changesOnly.refl _ _)) (by decide)

theorem addGap_keeps {s0 : State} {kind : Nat} {a : Nat} {b : Nat} {m : Nat} {s : State} (hs : keeps s0 s) : keeps s0 (addGap kind a b m s) :=
  hs.skip (addGap_changes (F := [.runs]) rfl (changesOnly.refl _ _)) (by decide)

theorem updKind_keeps {s0 : State} {k : Nat} {f : PerKind → PerKind} {s : State} (hs : keeps s0 s) : keeps s0 (updKind k f s) :=
  hs.skip (updKind_changes (F := [.per]) rfl (changesOnly.refl _ _)) (by decide)

theorem openKind_keeps {s0 : State} {k : Nat} {first : Nat} {stop : Int} {s : State} (hs : keeps s0 s) : keeps s0 (openKind k first stop s) :=
  hs.skip (openKind_changes (F := [.per]) rfl (changesOnly.refl _ _)) (by decide)

theorem perRestart_keeps {s0 : State} {m : Nat} {kind : Nat} {base : List Nat} {closed : Bool} {s : State} (hs : keeps s0 s) : keeps s0 (perRestart m kind base closed s) :=
  hs.skip (perRestart_changes (F := [.runs]) rfl (changesOnly.refl _ _)) (by decide)

theorem capPut_keeps {s0 : State} {c : CapRec} {s : State} (hs : keeps s0 s) : keeps s0 (capPut c s) := by
  refine hs.trans ?_
  clear hs
  unfold capPut
  with_reducible repeat' first
    | assumption | exact keeps.refl _ | apply retWritten_keeps | apply keeps.set | (intro)

end Sys2Proof.Machine
end

