-- ==== Sys2Proof/Laws/Keeps3.lean ====
section
/-! SUPPORT. Every shared operation keeps the canonical form and the order of local time (part 4 of 12). -/

set_option linter.unusedTactic false
set_option linter.unreachableTactic false

namespace Sys2Proof.Machine

theorem capDrop_keeps {s0 : State} {c : CapRec} {s : State} (hs : keeps s0 s) : keeps s0 (capDrop c s) := by
  refine hs.trans ?_
  clear hs
  unfold capDrop
  with_reducible repeat' first
    | exact Nat.le_refl _ | exact id | assumption | exact keeps.refl _ | apply closeWritten_keeps | split
    | apply keeps.set | exact Canon.flash_mk | exact Canon.rams_mk | exact Canon.rams_prog | apply keeps.mk | (intro)

theorem capture_keeps {s0 : State} {c : CapRec} {s : State} (hs : keeps s0 s) : keeps s0 (capture c s) := by
  refine hs.trans ?_
  clear hs
  unfold capture
  with_reducible repeat' first
    | assumption | exact keeps.refl _ | apply capPut_keeps | apply capDrop_keeps | apply galDrop_keeps
    | apply keeps.iteL | apply keeps.ite | split | (intro)

theorem updRing_keeps {s0 : State} {r : Nat} {f : RingSt → RingSt} {s : State} (hs : keeps s0 s) : keeps s0 (updRing r f s) :=
  hs.skip (updRing_changes (F := [.gal]) rfl (changesOnly.refl _ _)) (by decide)

theorem ringPut_keeps {s0 : State} {r : Nat} {id : Nat} {len : Nat} {s : State} (hs : keeps s0 s) : keeps s0 (ringPut r id len s) := by
  refine hs.trans ?_
  clear hs
  unfold ringPut
  with_reducible repeat' first
    | assumption | exact keeps.refl _ | apply nvErase_keeps | apply updRing_keeps | apply dirWrite_keeps
    | apply keeps.foldl | apply keeps.iteL | apply keeps.ite | split | (intro)

theorem periodWrite_keeps {s0 : State} {m : Nat} {kind : Nat} {seq : Nat} {op : Nat} {bs : List Byte} {s : State} (hs : keeps s0 s) : keeps s0 (periodWrite m kind seq op bs s) := by
  refine hs.trans ?_
  clear hs
  unfold periodWrite
  with_reducible repeat' first
    | assumption | exact keeps.refl _ | apply pushJob_keeps | apply ringPut_keeps | apply keeps.iteL
    | apply keeps.ite | split | (intro)

theorem closeRun_keeps {s0 : State} {m : Nat} {kind : Nat} {last : Nat} {op : Nat} {s : State} (hs : keeps s0 s) : keeps s0 (closeRun m kind last op s) := by
  refine hs.trans ?_
  clear hs
  unfold closeRun
  with_reducible repeat' first
    | assumption | exact keeps.refl _ | apply perRestart_keeps | apply capture_keeps | apply periodWrite_keeps
    | apply updRun_keeps | apply setReg_keeps | apply keeps.iteL | apply keeps.ite | split | (intro)

theorem closeKind_keeps {s0 : State} {kind : Nat} {last : Nat} {op : Nat} {s : State} (hs : keeps s0 s) : keeps s0 (closeKind kind last op s) := by
  refine hs.trans ?_
  clear hs
  unfold closeKind
  with_reducible repeat' first
    | assumption | exact keeps.refl _ | apply raiseBit_keeps | apply closeRun_keeps | apply forN_keeps | (intro)

theorem closeKinds_keeps {s0 : State} {ks : List (Nat × Nat × Nat × Int)} {boundary : Nat} {s : State} (hs : keeps s0 s) : keeps s0 (closeKinds ks boundary s) := by
  refine hs.trans ?_
  clear hs
  unfold closeKinds
  with_reducible repeat' first
    | assumption | exact keeps.refl _ | apply jStep_keeps | apply jOpen_keeps | apply closeWritten_keeps
    | apply openKind_keeps | apply closeKind_keeps | apply noteVstate_keeps | apply forHalls_keeps
    | apply keeps.foldl | apply keeps.iteL | apply keeps.ite | split | (intro)

theorem gapUpTo_keeps {s0 : State} {f : Nat} {s : State} (hs : keeps s0 s) : keeps s0 (gapUpTo f s) := by
  refine hs.trans ?_
  clear hs
  unfold gapUpTo
  with_reducible repeat' first
    | assumption | exact keeps.refl _ | apply addGap_keeps | apply closeKinds_keeps | apply openKind_keeps
    | apply perRestart_keeps | apply forN_keeps | apply keeps.foldl | apply keeps.iteL | apply keeps.ite | split
    | (intro)

theorem activeJoin_keeps {s0 : State} {n : Nat} {s : State} (hs : keeps s0 s) : keeps s0 (activeJoin n s) := by
  refine hs.trans ?_
  clear hs
  unfold activeJoin
  with_reducible repeat' first
    | assumption | exact keeps.refl _ | apply updPair_keeps | apply balGap_keeps | apply gapUpTo_keeps
    | apply keeps.iteL | apply keeps.ite | split | (intro)

theorem balIncomplete_keeps {s0 : State} {b : Nat} {s : State} (hs : keeps s0 s) : keeps s0 (balIncomplete b s) := by
  refine hs.trans ?_
  clear hs
  unfold balIncomplete
  with_reducible repeat' first
    | assumption | exact keeps.refl _ | apply updBal_keeps | apply raiseBit_keeps | apply modReg_keeps | (intro)

theorem balMismatch_keeps {s0 : State} {b : Nat} {differ : Bool} {s : State} (hs : keeps s0 s) : keeps s0 (balMismatch b differ s) := by
  refine hs.trans ?_
  clear hs
  unfold balMismatch
  with_reducible repeat' first
    | assumption | exact keeps.refl _ | apply modReg_keeps | apply raiseBit_keeps | apply keeps.iteL
    | apply keeps.ite | split | (intro)

theorem balEvaluate_keeps {s0 : State} {b : Nat} {w : BalWin} {qs : Nat} {ps : Word} {ts : Word} {s : State} (hs : keeps s0 s) : keeps s0 (balEvaluate b w qs ps ts s) := by
  refine hs.trans ?_
  clear hs
  unfold balEvaluate
  with_reducible repeat' first
    | assumption | exact keeps.refl _ | apply updBal_keeps | apply setReg_keeps | apply raiseBit_keeps
    | apply keeps.iteL | apply keeps.ite | split | (intro)

theorem balTry_keeps {s0 : State} {b : Nat} {s : State} (hs : keeps s0 s) : keeps s0 (balTry b s) := by
  refine hs.trans ?_
  clear hs
  unfold balTry
  with_reducible repeat' first
    | assumption | exact keeps.refl _ | apply balMismatch_keeps | apply balIncomplete_keeps | apply balEvaluate_keeps
    | apply keeps.iteL | apply keeps.ite | split | (intro)

theorem balClose_keeps {s0 : State} {b : Nat} {n : Nat} {s : State} (hs : keeps s0 s) : keeps s0 (balClose b n s) := by
  refine hs.trans ?_
  clear hs
  unfold balClose
  with_reducible repeat' first
    | assumption | exact keeps.refl _ | apply updBal_keeps | apply balIncomplete_keeps | apply balTry_keeps
    | apply keeps.iteL | apply keeps.ite | split | (intro)

theorem balReach_keeps {s0 : State} {b : Nat} {n : Nat} {s : State} (hs : keeps s0 s) : keeps s0 (balReach b n s) := by
  refine hs.trans ?_
  clear hs
  unfold balReach
  with_reducible repeat' first
    | assumption | exact keeps.refl _ | apply updBal_keeps | apply balClose_keeps | apply keeps.iteL
    | apply keeps.ite | split | (intro)

theorem updTier_keeps {s0 : State} {tier : Nat} {f : GalTier → GalTier} {s : State} (hs : keeps s0 s) : keeps s0 (updTier tier f s) :=
  hs.skip (updTier_changes (F := [.gal]) rfl (changesOnly.refl _ _)) (by decide)

theorem galWrite_keeps {s0 : State} {tier : Nat} {seq : Nat} {s : State} (hs : keeps s0 s) : keeps s0 (galWrite tier seq s) := by
  refine hs.trans ?_
  clear hs
  unfold galWrite
  with_reducible repeat' first
    | assumption | exact keeps.refl _ | apply jOpen_keeps | apply pushJob_keeps | apply ringPut_keeps | (intro)

theorem galFlush_keeps {s0 : State} {tier : Nat} {s : State} (hs : keeps s0 s) : keeps s0 (galFlush tier s) := by
  refine hs.trans ?_
  clear hs
  unfold galFlush
  with_reducible repeat' first
    | assumption | exact keeps.refl _ | apply galWrite_keeps | apply galDrop_keeps | apply eccFound_keeps
    | apply eccRewritten_keeps | apply updRing_keeps | apply updTier_keeps | apply keeps.iteL | apply keeps.ite
    | split | (intro)

theorem galReplan_keeps {s0 : State} {tier : Nat} {s : State} (hs : keeps s0 s) : keeps s0 (galReplan tier s) := by
  refine hs.trans ?_
  clear hs
  unfold galReplan
  with_reducible repeat' first
    | assumption | exact keeps.refl _ | apply updTier_keeps | apply galFlush_keeps | apply keeps.iteL
    | apply keeps.ite | split | (intro)

theorem galIntervalEnd_keeps {s0 : State} {tier : Nat} {s : State} (hs : keeps s0 s) : keeps s0 (galIntervalEnd tier s) :=
  hs.skip (galIntervalEnd_changes (F := [.gal]) rfl (changesOnly.refl _ _)) (by decide)

theorem galInterval_keeps {s0 : State} {tier : Nat} {s : State} (hs : keeps s0 s) : keeps s0 (galInterval tier s) := by
  refine hs.trans ?_
  clear hs
  unfold galInterval
  with_reducible repeat' first
    | assumption | exact keeps.refl _ | apply galReplan_keeps | apply galIntervalEnd_keeps | (intro)

theorem galSkip_keeps {s0 : State} {tier : Nat} {a : Nat} {s : State} (hs : keeps s0 s) : keeps s0 (galSkip tier a s) :=
  hs.skip (galSkip_changes (F := [.gal]) rfl (changesOnly.refl _ _)) (by decide)

theorem galReach_keeps {s0 : State} {tier : Nat} {n : Nat} {s : State} (hs : keeps s0 s) : keeps s0 (galReach tier n s) := by
  refine hs.trans ?_
  clear hs
  unfold galReach
  with_reducible repeat' first
    | assumption | exact keeps.refl _ | apply updTier_keeps | apply galInterval_keeps | apply galSkip_keeps
    | apply galFlush_keeps | apply keeps.iteL | apply keeps.ite | split | (intro)

theorem galStep_keeps {s0 : State} {s : State} (hs : keeps s0 s) : keeps s0 (galStep s) :=
  hs.skip (galStep_changes (F := [.gal]) rfl (changesOnly.refl _ _)) (by decide)

theorem reachTick_keeps {s0 : State} {n : Nat} {s : State} (hs : keeps s0 s) : keeps s0 (reachTick n s) := by
  refine hs.trans ?_
  clear hs
  unfold reachTick
  with_reducible repeat' first
    | assumption | exact keeps.refl _ | apply balReach_keeps | apply galReach_keeps | apply galStep_keeps
    | apply forN_keeps | apply keeps.iteL | apply keeps.ite | split | (intro)

theorem beginSlots_keeps {s0 : State} {x : TickSet} {mirrored : Bool} {s : State} (hs : keeps s0 s) : keeps s0 (beginSlots x mirrored s) := by
  refine hs.trans ?_
  clear hs
  unfold beginSlots
  with_reducible repeat' first
    | assumption | exact keeps.refl _ | apply reachTick_keeps | apply updPair_keeps | apply keeps.set | (intro)

theorem eccSeen_keeps {s0 : State} {sel : Nat × Nat → Bool} {s : State} (hs : keeps s0 s) : keeps s0 (eccSeen sel s) := by
  refine hs.trans ?_
  clear hs
  unfold eccSeen
  with_reducible repeat' first
    | assumption | exact keeps.refl _ | apply eccFound_keeps | apply keeps.foldl | (intro)

theorem recsRead_keeps {s0 : State} {s : State} (hs : keeps s0 s) : keeps s0 (recsRead s) := by
  refine hs.trans ?_
  clear hs
  unfold recsRead
  with_reducible repeat' first
    | assumption | exact keeps.refl _ | apply eccSeen_keeps | (intro)

theorem resetCarried_keeps {s0 : State} {m : Nat} {s : State} (hs : keeps s0 s) : keeps s0 (resetCarried m s) :=
  hs.skip (resetCarried_changes (F := [.runs]) rfl (changesOnly.refl _ _)) (by decide)

theorem dropBacklog_keeps {s0 : State} {m : Nat} {s : State} (hs : keeps s0 s) : keeps s0 (dropBacklog m s) := by
  refine hs.trans ?_
  clear hs
  unfold dropBacklog
  with_reducible repeat' first
    | assumption | exact keeps.refl _ | apply modReg_keeps | apply setReg_keeps | apply updRun_keeps | (intro)

theorem totalsRead_keeps {s0 : State} {m : Nat} {s : State} (hs : keeps s0 s) : keeps s0 (totalsRead m s) := by
  refine hs.trans ?_
  clear hs
  unfold totalsRead
  with_reducible repeat' first
    | assumption | exact keeps.refl _ | apply eccSeen_keeps | (intro)

theorem audDrop_keeps {s0 : State} {s : State} (hs : keeps s0 s) : keeps s0 (audDrop s) := by
  refine hs.trans ?_
  clear hs
  unfold audDrop
  with_reducible repeat' first
    | assumption | exact keeps.refl _ | apply modReg_keeps | (intro)

theorem audit_keeps {s0 : State} {o : Origin} {kind : Nat} {addr : Nat} {width : Nat} {detail : Nat} {old : Nat} {new : Nat} {op : Nat} {s : State} (hs : keeps s0 s) : keeps s0 (audit o kind addr width detail old new op s) := by
  refine hs.trans ?_
  clear hs
  unfold audit
  with_reducible repeat' first
    | assumption | exact keeps.refl _ | apply retWritten_keeps | apply raiseBit_keeps | apply audDrop_keeps
    | apply keeps.iteL | apply keeps.ite | split | apply keeps.set | (intro)

theorem voteAudit_keeps {s0 : State} {m : Nat} {c : List (Nat × TotCopy)} {w : List Acc} {s : State} (hs : keeps s0 s) : keeps s0 (voteAudit m c w s) := by
  refine hs.trans ?_
  clear hs
  unfold voteAudit
  with_reducible repeat' first
    | assumption | exact keeps.refl _ | apply audit_keeps | apply keeps.foldl | apply keeps.iteL | apply keeps.ite
    | split | (intro)

theorem liveWrite_keeps {s0 : State} {m : Nat} {c : TotCopy} {s : State} (hs : keeps s0 s) : keeps s0 (liveWrite m c s) := by
  refine hs.trans ?_
  clear hs
  unfold liveWrite
  with_reducible repeat' first
    | assumption | exact keeps.refl _ | apply retWritten_keeps | apply updRun_keeps | (intro)

theorem resume_keeps {s0 : State} {m : Nat} {accs : List Acc} {tick : Option Nat} {outcome : Nat} {marks : Nat} {s : State} (hs : keeps s0 s) : keeps s0 (resume m accs tick outcome marks s) := by
  refine hs.trans ?_
  clear hs
  unfold resume
  with_reducible repeat' first
    | assumption | exact keeps.refl _ | apply updRun_keeps | apply liveWrite_keeps | apply retWritten_keeps
    | apply setReg_keeps | apply raiseEvt_keeps | split | (intro)

theorem reconcileRun_keeps {s0 : State} {m : Nat} {partner : Option TotCopy} {s : State} (hs : keeps s0 s) : keeps s0 (reconcileRun m partner s) := by
  refine hs.trans ?_
  clear hs
  unfold reconcileRun
  extract_lets x0
  have hx0 : keeps s x0 := by
    unfold x0
    with_reducible repeat' first
      | assumption | exact keeps.refl _ | apply totalsRead_keeps | apply voteAudit_keeps | apply resume_keeps
      | apply keeps.iteL | apply keeps.ite | split | (intro)
  clear_value x0
  with_reducible repeat' first
    | assumption | exact keeps.refl _ | apply totalsRead_keeps | apply voteAudit_keeps | apply resume_keeps
    | apply keeps.iteL | apply keeps.ite | split | (intro)

theorem applyRun_keeps {s0 : State} {m : Nat} {was : Bool} {pout : Option Nat} {l : List Nat} {s : State} (hs : keeps s0 s) : keeps s0 (applyRun m was pout l s) := by
  refine hs.trans ?_
  clear hs
  unfold applyRun
  with_reducible repeat' first
    | assumption | exact keeps.refl _ | apply resetCarried_keeps | apply dropBacklog_keeps | apply reconcileRun_keeps
    | apply keeps.iteL | apply keeps.ite | split | (intro)

theorem applyRuns_keeps {s0 : State} {runs : List (Bool × Option Nat)} {l : List Nat} {s : State} (hs : keeps s0 s) : keeps s0 (applyRuns runs l s) := by
  refine hs.trans ?_
  clear hs
  unfold applyRuns
  with_reducible repeat' first
    | assumption | exact keeps.refl _ | apply applyRun_keeps | apply forN_keeps | (intro)

theorem lateRuns_keeps {s0 : State} {s : State} (hs : keeps s0 s) : keeps s0 (lateRuns s) := by
  refine hs.trans ?_
  clear hs
  unfold lateRuns
  with_reducible repeat' first
    | assumption | exact keeps.refl _ | apply applyRuns_keeps | split | apply keeps.set | (intro)

theorem pairBlock_keeps {s0 : State} {typ n maddr : Nat} {bs : List Byte} {s : State} (hs : keeps s0 s) : keeps s0 (pairBlock typ n maddr bs s) := by
  exact hs.skip (pairBlock_changes (F := [.tx, .pair]) rfl (changesOnly.refl _ _)) (by decide)

theorem pairBlockAll_keeps {s0 : State} {typ maddr : Nat} {bs : List Byte} {s : State} (hs : keeps s0 s) : keeps s0 (pairBlockAll typ maddr bs s) := by
  exact pairBlock_keeps hs

theorem sendSet_keeps {s0 : State} {s : State} (hs : keeps s0 s) : keeps s0 (sendSet s) :=
  hs.skip (sendSet_changes (F := [.tx, .pair]) rfl (changesOnly.refl _ _)) (by decide)

theorem activeLatch_keeps {s0 : State} {s : State} (hs : keeps s0 s) : keeps s0 (activeLatch s) := by
  refine hs.trans ?_
  clear hs
  unfold activeLatch
  with_reducible repeat' first
    | assumption | exact keeps.refl _ | apply beginSlots_keeps | apply recsRead_keeps | apply activeJoin_keeps
    | apply lateRuns_keeps | apply sendSet_keeps | apply keeps.iteL | apply keeps.ite | split | (intro)

theorem markRun_keeps {s0 : State} {m : Nat} {mark : Nat} {s : State} (hs : keeps s0 s) : keeps s0 (markRun m mark s) :=
  hs.skip (markRun_changes (F := [.runs]) rfl (changesOnly.refl _ _)) (by decide)

theorem adopt_keeps {s0 : State} {m : Nat} {c : TotCopy} {quiet : Bool} {s : State} (hs : keeps s0 s) : keeps s0 (adopt m c quiet s) := by
  refine hs.trans ?_
  clear hs
  unfold adopt
  with_reducible repeat' first
    | assumption | exact keeps.refl _ | apply liveWrite_keeps | apply updRun_keeps | apply audit_keeps
    | apply raiseBit_keeps | apply markRun_keeps | apply modReg_keeps | apply keeps.foldl | apply keeps.iteL
    | apply keeps.ite | split | (intro)

theorem flightCheckIn_keeps {s0 : State} {own : Nat} {s : State} (hs : keeps s0 s) : keeps s0 (flightCheckIn own s) := by
  refine hs.trans ?_
  clear hs
  unfold flightCheckIn
  with_reducible repeat' first
    | assumption | exact keeps.refl _ | apply updConv_keeps | apply checkIn_keeps | apply keeps.iteL
    | apply keeps.ite | split | (intro)

theorem startInjected_keeps {s0 : State} {n : Nat} {t16 : Nat} {s : State} (hs : keeps s0 s) : keeps s0 (startInjected n t16 s) := by
  refine hs.trans ?_
  clear hs
  unfold startInjected
  with_reducible repeat' first
    | assumption | exact keeps.refl _ | apply discardOpen_keeps | apply forcedShadow_keeps | apply updConv_keeps
    | apply dropShadow_keeps | (intro)

theorem stepPaid_keeps {s0 : State} {n : Nat} {t16 : Nat} {s : State} (hs : keeps s0 s) : keeps s0 (stepPaid n t16 s) := by
  refine hs.trans ?_
  clear hs
  unfold stepPaid
  with_reducible repeat' first
    | assumption | exact keeps.refl _ | apply updConv_keeps | apply startInjected_keeps | apply keeps.iteL
    | apply keeps.ite | split | (intro)

end Sys2Proof.Machine
end

