-- ==== Sys2Proof/Laws/Keeps4.lean ====
section
/-! SUPPORT. Every shared operation keeps the canonical form and the order of local time (part 5 of 12). -/

set_option linter.unusedTactic false
set_option linter.unreachableTactic false

namespace Sys2Proof.Machine

theorem contDone_keeps {s0 : State} {n : Nat} {t16 : Nat} {s : State} (hs : keeps s0 s) : keeps s0 (contDone n t16 s) := by
  refine hs.trans ?_
  clear hs
  unfold contDone
  with_reducible repeat' first
    | assumption | exact keeps.refl _ | apply updConv_keeps | apply flightCheckIn_keeps | apply stepPaid_keeps
    | apply keeps.iteL | apply keeps.ite | split | (intro)

theorem setHcfg_keeps {s0 : State} {h : Nat} {a : Nat} {v : Word} {s : State} (hs : keeps s0 s) : keeps s0 (setHcfg h a v s) := by
  refine hs.trans ?_
  clear hs
  unfold setHcfg
  with_reducible repeat' first
    | assumption | exact keeps.refl _ | apply updHall_keeps | (intro)

theorem takeNext_keeps {s0 : State} {h : Nat} {l : List Nat} {s : State} (hs : keeps s0 s) : keeps s0 (takeNext h l s) := by
  refine hs.trans ?_
  clear hs
  unfold takeNext
  with_reducible repeat' first
    | assumption | exact keeps.refl _ | apply updHall_keeps | apply setHcfg_keeps | apply keeps.foldl | split
    | (intro)

theorem injStepDone_keeps {s0 : State} {n : Nat} {t16 : Nat} {s : State} (hs : keeps s0 s) : keeps s0 (injStepDone n t16 s) := by
  refine hs.trans ?_
  clear hs
  unfold injStepDone
  with_reducible repeat' first
    | assumption | exact keeps.refl _ | apply updConv_keeps | apply takeNext_keeps | apply flightCheckIn_keeps
    | apply keeps.iteL | apply keeps.ite | split | (intro)

theorem shadowCycle_keeps {s0 : State} {own : Nat} {s : State} (hs : keeps s0 s) : keeps s0 (shadowCycle own s) := by
  refine hs.trans ?_
  clear hs
  unfold shadowCycle
  with_reducible repeat' first
    | assumption | exact keeps.refl _ | apply updHall_keeps | apply keeps.iteL | apply keeps.ite | split | (intro)

theorem flightStepDone_keeps {s0 : State} {n : Nat} {t16 : Nat} {s : State} (hs : keeps s0 s) : keeps s0 (flightStepDone n t16 s) := by
  refine hs.trans ?_
  clear hs
  unfold flightStepDone
  with_reducible repeat' first
    | assumption | exact keeps.refl _ | apply updConv_keeps | apply stepPaid_keeps | apply flightCheckIn_keeps
    | apply shadowCycle_keeps | apply keeps.iteL | apply keeps.ite | split | (intro)

theorem advanceStep_keeps {s0 : State} {n : Nat} {t16 : Nat} {s : State} (hs : keeps s0 s) : keeps s0 (advanceStep n t16 s) := by
  refine hs.trans ?_
  clear hs
  unfold advanceStep
  with_reducible repeat' first
    | assumption | exact keeps.refl _ | apply contDone_keeps | apply updConv_keeps | apply injStepDone_keeps
    | apply flightStepDone_keeps | apply keeps.iteL | apply keeps.ite | split | (intro)

theorem blankConv_keeps {s0 : State} {n : Nat} {s : State} (hs : keeps s0 s) : keeps s0 (blankConv n s) := by
  refine hs.trans ?_
  clear hs
  unfold blankConv
  with_reducible repeat' first
    | assumption | exact keeps.refl _ | apply updConv_keeps | apply keeps.iteL | apply keeps.ite | split | (intro)

theorem openWindow_keeps {s0 : State} {n : Nat} {t16 : Nat} {len : Nat} {s : State} (hs : keeps s0 s) : keeps s0 (openWindow n t16 len s) := by
  refine hs.trans ?_
  clear hs
  unfold openWindow
  with_reducible repeat' first
    | assumption | exact keeps.refl _ | apply updConv_keeps | (intro)

theorem releaseStep_keeps {s0 : State} {n : Nat} {t16 : Nat} {s : State} (hs : keeps s0 s) : keeps s0 (releaseStep n t16 s) := by
  refine hs.trans ?_
  clear hs
  unfold releaseStep
  repeat' first
    | with_reducible assumption | with_reducible exact keeps.refl _ | with_reducible apply updConv_keeps
    | with_reducible apply discard_keeps | with_reducible apply restartAt_keeps
    | with_reducible apply leaveShadow_keeps | with_reducible apply openWindow_keeps
    | with_reducible apply keeps.iteL | with_reducible apply keeps.ite | split | dsimp only | with_reducible (intro)

theorem takeTrigger_keeps {s0 : State} {n : Nat} {t16 : Nat} {s : State} (hs : keeps s0 s) : keeps s0 (takeTrigger n t16 s) := by
  refine hs.trans ?_
  clear hs
  unfold takeTrigger
  with_reducible repeat' first
    | assumption | exact keeps.refl _ | apply raiseBit_keeps | apply updConv_keeps | apply startInjected_keeps
    | apply keeps.iteL | apply keeps.ite | split | (intro)

theorem unblankConv_keeps {s0 : State} {n : Nat} {t16 : Nat} {s : State} (hs : keeps s0 s) : keeps s0 (unblankConv n t16 s) := by
  refine hs.trans ?_
  clear hs
  unfold unblankConv
  with_reducible repeat' first
    | assumption | exact keeps.refl _ | apply updConv_keeps | apply releaseStep_keeps | apply takeTrigger_keeps
    | apply keeps.iteL | apply keeps.ite | split | (intro)

theorem afterBlank_keeps {s0 : State} {h : Nat} {before : Bool} {s : State} (hs : keeps s0 s) : keeps s0 (afterBlank h before s) := by
  refine hs.trans ?_
  clear hs
  unfold afterBlank
  with_reducible repeat' first
    | assumption | exact keeps.refl _ | apply blankConv_keeps | apply unblankConv_keeps | apply keeps.iteL
    | apply keeps.ite | split | (intro)

theorem moveFlight_keeps {s0 : State} {a : Nat} {b : Nat} {s : State} (hs : keeps s0 s) : keeps s0 (moveFlight a b s) := by
  refine hs.trans ?_
  clear hs
  unfold moveFlight
  with_reducible repeat' first
    | assumption | exact keeps.refl _ | apply updConv_keeps | (intro)

theorem startLadder_keeps {s0 : State} {n : Nat} {t16 : Nat} {s : State} (hs : keeps s0 s) : keeps s0 (startLadder n t16 s) := by
  refine hs.trans ?_
  clear hs
  unfold startLadder
  with_reducible repeat' first
    | assumption | exact keeps.refl _ | apply updRot_keeps | apply updConv_keeps | (intro)

theorem swapToK1_keeps {s0 : State} {h : Nat} {t16 : Nat} {s : State} (hs : keeps s0 s) : keeps s0 (swapToK1 h t16 s) := by
  refine hs.trans ?_
  clear hs
  unfold swapToK1
  with_reducible repeat' first
    | assumption | exact keeps.refl _ | apply moveFlight_keeps | apply updRot_keeps | apply startLadder_keeps
    | apply keeps.iteL | apply keeps.ite | split | (intro)

theorem swapContinuous_keeps {s0 : State} {h : Nat} {t16 : Nat} {s : State} (hs : keeps s0 s) : keeps s0 (swapContinuous h t16 s) := by
  refine hs.trans ?_
  clear hs
  unfold swapContinuous
  with_reducible repeat' first
    | assumption | exact keeps.refl _ | apply swapToK1_keeps | apply openWindow_keeps | apply keeps.iteL
    | apply keeps.ite | split | (intro)

theorem rotEvent_keeps {s0 : State} {h : Nat} {i : Nat} {s : State} (hs : keeps s0 s) : keeps s0 (rotEvent h i s) := by
  refine hs.trans ?_
  clear hs
  unfold rotEvent
  with_reducible repeat' first
    | assumption | exact keeps.refl _ | apply updHall_keeps | (intro)

theorem retire_keeps {s0 : State} {n : Nat} {s : State} (hs : keeps s0 s) : keeps s0 (retire n s) := by
  refine hs.trans ?_
  clear hs
  unfold retire
  with_reducible repeat' first
    | assumption | exact keeps.refl _ | apply updHall_keeps | apply updRot_keeps | apply updConv_keeps
    | apply rotEvent_keeps | apply keeps.iteL | apply keeps.ite | split | (intro)

theorem swapBack_keeps {s0 : State} {h : Nat} {t16 : Nat} {s : State} (hs : keeps s0 s) : keeps s0 (swapBack h t16 s) := by
  refine hs.trans ?_
  clear hs
  unfold swapBack
  with_reducible repeat' first
    | assumption | exact keeps.refl _ | apply moveFlight_keeps | apply updRot_keeps | apply rotEvent_keeps
    | apply retire_keeps | apply keeps.iteL | apply keeps.ite | split | (intro)

theorem takeBack_keeps {s0 : State} {h : Nat} {s : State} (hs : keeps s0 s) : keeps s0 (takeBack h s) := by
  refine hs.trans ?_
  clear hs
  unfold takeBack
  with_reducible repeat' first
    | assumption | exact keeps.refl _ | apply startIdle_keeps | apply updRot_keeps | apply moveFlight_keeps | (intro)

theorem joinContinuous_keeps {s0 : State} {h : Nat} {t16 : Nat} {s : State} (hs : keeps s0 s) : keeps s0 (joinContinuous h t16 s) := by
  refine hs.trans ?_
  clear hs
  unfold joinContinuous
  with_reducible repeat' first
    | assumption | exact keeps.refl _ | apply joinAt_keeps | apply keeps.iteL | apply keeps.ite | split | (intro)

theorem beginShadow_keeps {s0 : State} {h : Nat} {phase : Nat} {s : State} (hs : keeps s0 s) : keeps s0 (beginShadow h phase s) := by
  refine hs.trans ?_
  clear hs
  unfold beginShadow
  with_reducible repeat' first
    | assumption | exact keeps.refl _ | apply updRot_keeps | (intro)

theorem startRotation_keeps {s0 : State} {h : Nat} {s : State} (hs : keeps s0 s) : keeps s0 (startRotation h s) := by
  refine hs.trans ?_
  clear hs
  unfold startRotation
  with_reducible repeat' first
    | assumption | exact keeps.refl _ | apply beginShadow_keeps | apply updRot_keeps | (intro)

theorem shadowContinuous_keeps {s0 : State} {h : Nat} {t16 : Nat} {s : State} (hs : keeps s0 s) : keeps s0 (shadowContinuous h t16 s) := by
  refine hs.trans ?_
  clear hs
  unfold shadowContinuous
  with_reducible repeat' first
    | assumption | exact keeps.refl _ | apply rotAbandon_keeps | apply dropShadow_keeps | apply joinContinuous_keeps
    | apply keeps.iteL | apply keeps.ite | split | (intro)

theorem afterContinuous_keeps {s0 : State} {h : Nat} {t16 : Nat} {s : State} (hs : keeps s0 s) : keeps s0 (afterContinuous h t16 s) := by
  refine hs.trans ?_
  clear hs
  unfold afterContinuous
  with_reducible repeat' first
    | assumption | exact keeps.refl _ | apply swapContinuous_keeps | apply swapBack_keeps | apply updRot_keeps
    | apply takeBack_keeps | apply joinBack_keeps | apply joinContinuous_keeps | apply startRotation_keeps
    | apply shadowContinuous_keeps | apply keeps.iteL | apply keeps.ite | split | (intro)

theorem shadowVerdict_keeps {s0 : State} {h : Nat} {t16 : Nat} {s : State} (hs : keeps s0 s) : keeps s0 (shadowVerdict h t16 s) := by
  refine hs.trans ?_
  clear hs
  unfold shadowVerdict
  with_reducible repeat' first
    | assumption | exact keeps.refl _ | apply updRot_keeps | apply updConv_keeps | apply rotEvent_keeps
    | apply startLadder_keeps | apply beginShadow_keeps | apply keeps.iteL | apply keeps.ite | split | (intro)

theorem pairCheck_keeps {s0 : State} {h : Nat} {s : State} (hs : keeps s0 s) : keeps s0 (pairCheck h s) := by
  refine hs.trans ?_
  clear hs
  unfold pairCheck
  extract_lets x0
  with_reducible repeat' first
    | assumption | exact keeps.refl _ | apply updRot_keeps | apply shadowVerdict_keeps | apply keeps.iteL
    | apply keeps.ite | split | (intro)

theorem afterResult_keeps {s0 : State} {h : Nat} {t16 : Nat} {s : State} (hs : keeps s0 s) : keeps s0 (afterResult h t16 s) := by
  refine hs.trans ?_
  clear hs
  unfold afterResult
  with_reducible repeat' first
    | assumption | exact keeps.refl _ | apply pairCheck_keeps | apply afterContinuous_keeps | apply keeps.iteL
    | apply keeps.ite | split | (intro)

theorem balTick_keeps {s0 : State} {m : Nat} {n : Nat} {alarm : Bool} {adj : Bool} {s : State} (hs : keeps s0 s) : keeps s0 (balTick m n alarm adj s) := by
  refine hs.trans ?_
  clear hs
  unfold balTick
  with_reducible repeat' first
    | assumption | exact keeps.refl _ | apply updBal_keeps | apply balClose_keeps | apply forN_keeps
    | apply keeps.iteL | apply keeps.ite | split | (intro)

theorem galTick_keeps {s0 : State} {m : Nat} {alarm : Bool} {status : Word} {vs : List (Option Ext)} {s : State} (hs : keeps s0 s) : keeps s0 (galTick m alarm status vs s) :=
  hs.skip (galTick_changes (F := [.gal]) rfl (changesOnly.refl _ _)) (by decide)

theorem periodTick_keeps {s0 : State} {m : Nat} {alarm : Bool} {status : Word} {q : Nat} {vs : List (Option Ext)} {s : State} (hs : keeps s0 s) : keeps s0 (periodTick m alarm status q vs s) :=
  hs.skip (periodTick_changes (F := [.runs]) rfl (changesOnly.refl _ _)) (by decide)

theorem afterRun_keeps {s0 : State} {m : Nat} {alarm : Bool} {status : Word} {q : Nat} {vals : List (Option Ext)} {gal : List (Option Ext)} {s : State} (hs : keeps s0 s) : keeps s0 (afterRun m alarm status q vals gal s) := by
  refine hs.trans ?_
  clear hs
  unfold afterRun
  with_reducible repeat' first
    | assumption | exact keeps.refl _ | apply balTick_keeps | apply galTick_keeps | apply periodTick_keeps | (intro)

theorem ageDiverge_keeps {s0 : State} {s : State} (hs : keeps s0 s) : keeps s0 (ageDiverge s) :=
  hs.skip (ageDiverge_changes (F := [.pair]) rfl (changesOnly.refl _ _)) (by decide)

theorem alignRing_keeps {s0 : State} {n : Nat} {p : Nat} {s : State} (hs : keeps s0 s) : keeps s0 (alignRing n p s) :=
  hs.skip (alignRing_changes (F := [.pair]) rfl (changesOnly.refl _ _)) (by decide)

theorem mirrorSeen_keeps {s0 : State} {a : Nat} {n : Nat} {s : State} (hs : keeps s0 s) : keeps s0 (mirrorSeen a n s) := by
  refine hs.trans ?_
  clear hs
  unfold mirrorSeen
  with_reducible repeat' first
    | assumption | exact keeps.refl _ | apply eccSeen_keeps | (intro)

theorem alignRings_keeps {s0 : State} {n : Nat} {s : State} (hs : keeps s0 s) : keeps s0 (alignRings n s) := by
  refine hs.trans ?_
  clear hs
  unfold alignRings
  with_reducible repeat' first
    | assumption | exact keeps.refl _ | apply mirrorSeen_keeps | apply alignRing_keeps | apply keeps.foldl | split
    | (intro)

theorem allActive_keeps {s0 : State} {s : State} (hs : keeps s0 s) : keeps s0 (allActive s) := by
  refine hs.trans ?_
  clear hs
  unfold allActive
  with_reducible repeat' first
    | assumption | exact keeps.refl _ | apply report_keeps | apply activeForm_keeps | apply forHalls_keeps
    | apply forChans_keeps | apply keeps.iteL | apply keeps.ite | split | (intro)

theorem standbyForm_keeps {s0 : State} {h : Nat} {c : Nat} {s : State} (hs : keeps s0 s) : keeps s0 (standbyForm h c s) := by
  refine hs.trans ?_
  clear hs
  unfold standbyForm
  with_reducible repeat' first
    | assumption | exact keeps.refl _ | apply inputForm_keeps | apply resolve_keeps | apply updChan_keeps
    | apply keeps.iteL | apply keeps.ite | split | (intro)

theorem allStandby_keeps {s0 : State} {s : State} (hs : keeps s0 s) : keeps s0 (allStandby s) := by
  refine hs.trans ?_
  clear hs
  unfold allStandby
  with_reducible repeat' first
    | assumption | exact keeps.refl _ | apply report_keeps | apply standbyForm_keeps | apply forHalls_keeps
    | apply forChans_keeps | apply keeps.iteL | apply keeps.ite | split | (intro)

theorem sendData_keeps {s0 : State} {s : State} (hs : keeps s0 s) : keeps s0 (sendData s) := by
  refine hs.trans ?_
  clear hs
  unfold sendData
  with_reducible repeat' first
    | assumption | exact keeps.refl _ | apply mlOriginate_keeps | apply updMl_keeps | apply keeps.iteL
    | apply keeps.ite | split | (intro)

theorem appendData_keeps {s0 : State} {s : State} (hs : keeps s0 s) : keeps s0 (appendData s) := by
  refine hs.trans ?_
  clear hs
  unfold appendData
  with_reducible repeat' first
    | assumption | exact keeps.refl _ | apply modReg_keeps | apply updMl_keeps | apply sendData_keeps
    | apply keeps.iteL | apply keeps.ite | split | (intro)

theorem applyCommand_keeps {s0 : State} {h : Nat} {c : Nat} {v : Nat} {s : State} (hs : keeps s0 s) : keeps s0 (applyCommand h c v s) := by
  refine hs.trans ?_
  clear hs
  unfold applyCommand
  with_reducible repeat' first
    | assumption | exact keeps.refl _ | apply updChan_keeps | apply resolve_keeps | apply keeps.foldl
    | apply keeps.iteL | apply keeps.ite | split | (intro)

theorem copyWord_keeps {s0 : State} {h : Nat} {a : Nat} {s : State} (hs : keeps s0 s) : keeps s0 (copyWord h a s) := by
  refine hs.trans ?_
  clear hs
  unfold copyWord
  with_reducible repeat' first
    | assumption | exact keeps.refl _ | apply setHcfg_keeps | (intro)

theorem takeBuffer_keeps {s0 : State} {h : Nat} {s : State} (hs : keeps s0 s) : keeps s0 (takeBuffer h s) := by
  refine hs.trans ?_
  clear hs
  unfold takeBuffer
  with_reducible repeat' first
    | assumption | exact keeps.refl _ | apply updHall_keeps | apply keeps.iteL | apply keeps.ite | split | (intro)

theorem hallFlag_keeps {s0 : State} {h : Nat} {i : Nat} {b : Bool} {s : State} (hs : keeps s0 s) : keeps s0 (hallFlag h i b s) := by
  refine hs.trans ?_
  clear hs
  unfold hallFlag
  with_reducible repeat' first
    | assumption | exact keeps.refl _ | apply updHall_keeps | apply keeps.iteL | apply keeps.ite | split | (intro)

theorem hallConfigured_keeps {s0 : State} {h : Nat} {s : State} (hs : keeps s0 s) : keeps s0 (hallConfigured h s) := by
  refine hs.trans ?_
  clear hs
  unfold hallConfigured
  with_reducible repeat' first
    | assumption | exact keeps.refl _ | apply updHall_keeps | apply updConv_keeps | apply setHcfg_keeps
    | apply pulsReset_keeps | apply hallFlag_keeps | apply forN_keeps | apply forChans_keeps | (intro)

theorem startFlights_keeps {s0 : State} {h : Nat} {first : Bool} {s : State} (hs : keeps s0 s) : keeps s0 (startFlights h first s) := by
  refine hs.trans ?_
  clear hs
  unfold startFlights
  with_reducible repeat' first
    | assumption | exact keeps.refl _ | apply updHall_keeps | apply startIdle_keeps | apply keeps.iteL
    | apply keeps.ite | split | (intro)

theorem commitEnable_keeps {s0 : State} {h : Nat} {s : State} (hs : keeps s0 s) : keeps s0 (commitEnable h s) := by
  refine hs.trans ?_
  clear hs
  unfold commitEnable
  with_reducible repeat' first
    | assumption | exact keeps.refl _ | apply copyWord_keeps | apply updHall_keeps | apply setHcfg_keeps
    | apply takeBuffer_keeps | apply hallConfigured_keeps | apply updChan_keeps | apply startFlights_keeps
    | apply forChans_keeps | apply keeps.foldl | apply keeps.iteL | apply keeps.ite | split | (intro)

theorem hallOff_keeps {s0 : State} {h : Nat} {s : State} (hs : keeps s0 s) : keeps s0 (hallOff h s) := by
  refine hs.trans ?_
  clear hs
  unfold hallOff
  with_reducible repeat' first
    | assumption | exact keeps.refl _ | apply stopHall_keeps | apply updHall_keeps | apply resolve_keeps
    | apply chanOff_keeps | apply forChans_keeps | (intro)

end Sys2Proof.Machine
end

