-- ==== Sys2Proof/Laws/Keeps5.lean ====
section
/-! SUPPORT. Every shared operation keeps the canonical form and the order of local time (part 6 of 12). -/

set_option linter.unusedTactic false
set_option linter.unreachableTactic false

namespace Sys2Proof.Machine

theorem commitChan_keeps {s0 : State} {h : Nat} {c : Nat} {s : State} (hs : keeps s0 s) : keeps s0 (commitChan h c s) := by
  refine hs.trans ?_
  clear hs
  unfold commitChan
  with_reducible repeat' first
    | assumption | exact keeps.refl _ | apply copyWord_keeps | apply resolve_keeps | apply restartChannel_keeps
    | apply chanOff_keeps | apply updChan_keeps | apply keeps.iteL | apply keeps.ite | split | (intro)

theorem freeLadder_keeps {s0 : State} {n : Nat} {s : State} (hs : keeps s0 s) : keeps s0 (freeLadder n s) := by
  refine hs.trans ?_
  clear hs
  unfold freeLadder
  with_reducible repeat' first
    | assumption | exact keeps.refl _ | apply updConv_keeps | apply discardOpen_keeps | apply keeps.iteL
    | apply keeps.ite | split | (intro)

theorem rotDisabled_keeps {s0 : State} {h : Nat} {s : State} (hs : keeps s0 s) : keeps s0 (rotDisabled h s) := by
  refine hs.trans ?_
  clear hs
  unfold rotDisabled
  with_reducible repeat' first
    | assumption | exact keeps.refl _ | apply freeLadder_keeps | apply dropShadow_keeps | apply updConv_keeps
    | apply moveFlight_keeps | apply restartStep_keeps | apply updRot_keeps | apply rotAbandon_keeps
    | apply keeps.iteL | apply keeps.ite | split | (intro)

theorem newFlightWords_keeps {s0 : State} {own : Nat} {s : State} (hs : keeps s0 s) : keeps s0 (newFlightWords own s) := by
  refine hs.trans ?_
  clear hs
  unfold newFlightWords
  with_reducible repeat' first
    | assumption | exact keeps.refl _ | apply takeNext_keeps | apply updConv_keeps | apply pulsReset_keeps
    | apply forChans_keeps | apply keeps.iteL | apply keeps.ite | split | (intro)

theorem commitRotation_keeps {s0 : State} {h : Nat} {was : Bool} {s : State} (hs : keeps s0 s) : keeps s0 (commitRotation h was s) := by
  refine hs.trans ?_
  clear hs
  unfold commitRotation
  with_reducible repeat' first
    | assumption | exact keeps.refl _ | apply rotDisabled_keeps | apply newFlightWords_keeps | apply convStop_keeps
    | apply updRot_keeps | apply keeps.iteL | apply keeps.ite | split | (intro)

theorem waitWords_keeps {s0 : State} {h : Nat} {l : List Nat} {s : State} (hs : keeps s0 s) : keeps s0 (waitWords h l s) := by
  refine hs.trans ?_
  clear hs
  unfold waitWords
  with_reducible repeat' first
    | assumption | exact keeps.refl _ | apply updHall_keeps | apply keeps.foldl | (intro)

theorem commitFlight_keeps {s0 : State} {n : Nat} {l : List Nat} {s : State} (hs : keeps s0 s) : keeps s0 (commitFlight n l s) := by
  refine hs.trans ?_
  clear hs
  unfold commitFlight
  with_reducible repeat' first
    | assumption | exact keeps.refl _ | apply waitWords_keeps | apply updConv_keeps | apply newFlightWords_keeps
    | apply keeps.iteL | apply keeps.ite | split | (intro)

theorem commitInjected_keeps {s0 : State} {n : Nat} {l : List Nat} {s : State} (hs : keeps s0 s) : keeps s0 (commitInjected n l s) := by
  refine hs.trans ?_
  clear hs
  unfold commitInjected
  with_reducible repeat' first
    | assumption | exact keeps.refl _ | apply waitWords_keeps | apply takeNext_keeps | apply keeps.iteL
    | apply keeps.ite | split | (intro)

theorem resolveAll_keeps {s0 : State} {h : Nat} {s : State} (hs : keeps s0 s) : keeps s0 (resolveAll h s) := by
  refine hs.trans ?_
  clear hs
  unfold resolveAll
  with_reducible repeat' first
    | assumption | exact keeps.refl _ | apply resolve_keeps | apply forChans_keeps | (intro)

theorem commitHall_keeps {s0 : State} {h : Nat} {l : List Nat} {s : State} (hs : keeps s0 s) : keeps s0 (commitHall h l s) := by
  refine hs.trans ?_
  clear hs
  unfold commitHall
  with_reducible repeat' first
    | assumption | exact keeps.refl _ | apply copyWord_keeps | apply commitChan_keeps | apply takeBuffer_keeps
    | apply excFlag_keeps | apply updHall_keeps | apply pulsReset_keeps | apply commitRotation_keeps
    | apply commitFlight_keeps | apply commitInjected_keeps | apply startFlights_keeps | apply resolveAll_keeps
    | apply afterBlank_keeps | apply forChans_keeps | apply forN_keeps | apply keeps.foldl | apply keeps.iteL
    | apply keeps.ite | split | (intro)

theorem applyHall_keeps {s0 : State} {h : Nat} {was : Bool} {l : List Nat} {s : State} (hs : keeps s0 s) : keeps s0 (applyHall h was l s) := by
  refine hs.trans ?_
  clear hs
  unfold applyHall
  with_reducible repeat' first
    | assumption | exact keeps.refl _ | apply commitEnable_keeps | apply hallOff_keeps | apply copyWord_keeps
    | apply commitHall_keeps | apply updHall_keeps | apply setReg_keeps | apply report_keeps | apply keeps.iteL
    | apply keeps.ite | split | (intro)

theorem takeCopy_keeps {s0 : State} {i : Nat} {s : State} (hs : keeps s0 s) : keeps s0 (takeCopy i s) := by
  refine hs.trans ?_
  clear hs
  unfold takeCopy
  with_reducible repeat' first
    | assumption | exact keeps.refl _ | apply setReg_keeps | apply setCopy_keeps | apply updImg_keeps | (intro)

theorem soloRole_keeps {s0 : State} {s : State} (hs : keeps s0 s) : keeps s0 (soloRole s) := by
  refine hs.trans ?_
  clear hs
  unfold soloRole
  with_reducible repeat' first
    | assumption | exact keeps.refl _ | apply updPair_keeps | apply allActive_keeps | apply keeps.iteL
    | apply keeps.ite | split | (intro)

theorem isolate_keeps {s0 : State} {s : State} (hs : keeps s0 s) : keeps s0 (isolate s) := by
  refine hs.trans ?_
  clear hs
  unfold isolate
  with_reducible repeat' first
    | assumption | exact keeps.refl _ | apply updMl_keeps | apply mlEvent_keeps | apply keeps.iteL | apply keeps.ite
    | split | (intro)

theorem portWord_keeps {s0 : State} {p : Nat} {s : State} (hs : keeps s0 s) : keeps s0 (portWord p s) :=
  hs.skip (portWord_changes (F := [.ml]) rfl (changesOnly.refl _ _)) (by decide)

theorem startPorts_keeps {s0 : State} {s : State} (hs : keeps s0 s) : keeps s0 (startPorts s) := by
  refine hs.trans ?_
  clear hs
  unfold startPorts
  with_reducible repeat' first
    | assumption | exact keeps.refl _ | apply isolate_keeps | apply portWord_keeps | apply forN_keeps | (intro)

theorem quietHalls_keeps {s0 : State} {s : State} (hs : keeps s0 s) : keeps s0 (quietHalls s) := by
  refine hs.trans ?_
  clear hs
  unfold quietHalls
  with_reducible repeat' first
    | assumption | exact keeps.refl _ | apply modReg_keeps | apply forHalls_keeps | apply keeps.iteL
    | apply keeps.ite | split | (intro)

theorem takeImage_keeps {s0 : State} {im : Img} {s : State} (hs : keeps s0 s) : keeps s0 (takeImage im s) := by
  refine hs.trans ?_
  clear hs
  unfold takeImage
  with_reducible repeat' first
    | exact Nat.le_refl _ | exact id | assumption | exact keeps.refl _ | apply loadRegs_keeps
    | apply quietHalls_keeps | apply setReg_keeps | apply forHalls_keeps | apply forN_keeps | apply keeps.set
    | exact Canon.flash_mk | exact Canon.rams_mk | exact Canon.rams_prog | apply keeps.mk | (intro)

theorem listedOutputs_keeps {s0 : State} {im : Img} {h : Nat} {s : State} (hs : keeps s0 s) : keeps s0 (listedOutputs im h s) := by
  refine hs.trans ?_
  clear hs
  unfold listedOutputs
  with_reducible repeat' first
    | assumption | exact keeps.refl _ | apply setReg_keeps | apply cfgClamp_keeps | apply forChans_keeps
    | apply keeps.iteL | apply keeps.ite | split | (intro)

theorem keepHall_keeps {s0 : State} {h : Nat} {s : State} (hs : keeps s0 s) : keeps s0 (keepHall h s) := by
  refine hs.trans ?_
  clear hs
  unfold keepHall
  with_reducible repeat' first
    | assumption | exact keeps.refl _ | apply updHall_keeps | apply setReg_keeps | apply forChans_keeps
    | apply keeps.set | (intro)

theorem startHall_keeps {s0 : State} {im : Img} {h : Nat} {s : State} (hs : keeps s0 s) : keeps s0 (startHall im h s) := by
  refine hs.trans ?_
  clear hs
  unfold startHall
  with_reducible repeat' first
    | assumption | exact keeps.refl _ | apply listedOutputs_keeps | apply hallOff_keeps | apply keepHall_keeps
    | apply reloadBegin_keeps | apply keeps.iteL | apply keeps.ite | split | (intro)

theorem auditApplied_keeps {s0 : State} {s : State} (hs : keeps s0 s) : keeps s0 (auditApplied s) := by
  refine hs.trans ?_
  clear hs
  unfold auditApplied
  with_reducible repeat' first
    | assumption | exact keeps.refl _ | apply audit_keeps | apply keeps.iteL | apply keeps.ite | split
    | apply keeps.set | (intro)

theorem settleReport_keeps {s0 : State} {last : Nat} {e : JEntry} {s : State} (hs : keeps s0 s) : keeps s0 (settleReport last e s) := by
  refine hs.trans ?_
  clear hs
  unfold settleReport
  with_reducible repeat' first
    | assumption | exact keeps.refl _ | apply raiseBit_keeps | apply keeps.iteL | apply keeps.ite | split
    | apply keeps.set | (intro)

theorem settleSwaps_keeps {s0 : State} {s : State} (hs : keeps s0 s) : keeps s0 (settleSwaps s) := by
  refine hs.trans ?_
  clear hs
  unfold settleSwaps
  with_reducible repeat' first
    | assumption | exact keeps.refl _ | apply settleReport_keeps | apply jClose_keeps | apply keeps.foldl
    | apply keeps.iteL | apply keeps.ite | split | (intro)

theorem applyImage_keeps {s0 : State} {i : Nat} {s : State} (hs : keeps s0 s) : keeps s0 (applyImage i s) := by
  refine hs.trans ?_
  clear hs
  unfold applyImage
  with_reducible repeat' first
    | assumption | exact keeps.refl _ | apply takeCopy_keeps | apply soloRole_keeps | apply startPorts_keeps
    | apply takeImage_keeps | apply startHall_keeps | apply auditApplied_keeps | apply settleSwaps_keeps
    | apply forHalls_keeps | apply keeps.set | (intro)

theorem applyMlCfg_keeps {s0 : State} {w : Word} {s : State} (hs : keeps s0 s) : keeps s0 (applyMlCfg w s) := by
  refine hs.trans ?_
  clear hs
  unfold applyMlCfg
  with_reducible repeat' first
    | assumption | exact keeps.refl _ | apply startPorts_keeps | apply updMl_keeps | apply keeps.iteL
    | apply keeps.ite | split | (intro)

theorem periodReplan_keeps {s0 : State} {n : Nat} {s : State} (hs : keeps s0 s) : keeps s0 (periodReplan n s) :=
  hs.skip (periodReplan_changes (F := [.per]) rfl (changesOnly.refl _ _)) (by decide)

theorem balOpen_keeps {s0 : State} {b : Nat} {s : State} (hs : keeps s0 s) : keeps s0 (balOpen b s) :=
  hs.skip (balOpen_changes (F := [.bal]) rfl (changesOnly.refl _ _)) (by decide)

theorem wdPlan_keeps {s0 : State} {s : State} (hs : keeps s0 s) : keeps s0 (wdPlan s) :=
  hs.skip (wdPlan_changes (F := [.wd]) rfl (changesOnly.refl _ _)) (by decide)

theorem applyRecords_keeps {s0 : State} {l : List Nat} {s : State} (hs : keeps s0 s) : keeps s0 (applyRecords l s) := by
  refine hs.trans ?_
  clear hs
  unfold applyRecords
  with_reducible repeat' first
    | assumption | exact keeps.refl _ | apply periodReplan_keeps | apply updBal_keeps | apply balOpen_keeps
    | apply soloRole_keeps | apply wdPlan_keeps | apply forN_keeps | apply keeps.iteL | apply keeps.ite | split
    | (intro)

theorem putSub_keeps {s0 : State} {slot : Nat} {v : Word} {s : State} (hs : keeps s0 s) : keeps s0 (putSub slot v s) := by
  refine hs.trans ?_
  clear hs
  unfold putSub
  with_reducible repeat' first
    | assumption | exact keeps.refl _ | apply setReg_keeps | apply keeps.iteL | apply keeps.ite | split | (intro)

theorem moveSub_keeps {s0 : State} {old : State} {e : Nat} {s : State} (hs : keeps s0 s) : keeps s0 (moveSub old e s) := by
  refine hs.trans ?_
  clear hs
  unfold moveSub
  with_reducible repeat' first
    | assumption | exact keeps.refl _ | apply putSub_keeps | apply updMl_keeps | apply mlEvent_keeps
    | apply forN_keeps | apply keeps.iteL | apply keeps.ite | split | (intro)

theorem applyRing_keeps {s0 : State} {old : State} {l : List Nat} {s : State} (hs : keeps s0 s) : keeps s0 (applyRing old l s) := by
  refine hs.trans ?_
  clear hs
  unfold applyRing
  with_reducible repeat' first
    | assumption | exact keeps.refl _ | apply applyMlCfg_keeps | apply moveSub_keeps | apply forN_keeps
    | apply keeps.iteL | apply keeps.ite | split | (intro)

theorem galCommit_keeps {s0 : State} {s : State} (hs : keeps s0 s) : keeps s0 (galCommit s) := by
  refine hs.trans ?_
  clear hs
  unfold galCommit
  with_reducible repeat' first
    | assumption | exact keeps.refl _ | apply galFlush_keeps | apply updTier_keeps | (intro)

theorem putWords_keeps {s0 : State} {ws : List (Nat × Word)} {s : State} (hs : keeps s0 s) : keeps s0 (putWords ws s) := by
  refine hs.trans ?_
  clear hs
  unfold putWords
  with_reducible repeat' first
    | assumption | exact keeps.refl _ | apply setReg_keeps | apply keeps.foldl | (intro)

theorem oldModes_keeps {s0 : State} {ws : List (Nat × Word)} {s : State} (hs : keeps s0 s) : keeps s0 (oldModes ws s) :=
  hs.skip (oldModes_changes (F := [.modes]) rfl (changesOnly.refl _ _)) (by decide)

theorem applyWords_keeps {s0 : State} {ws : List (Nat × Word)} {held : List Nat} {s : State} (hs : keeps s0 s) : keeps s0 (applyWords ws held s) := by
  refine hs.trans ?_
  clear hs
  unfold applyWords
  with_reducible repeat' first
    | assumption | exact keeps.refl _ | apply galCommit_keeps | apply lateRuns_keeps | apply putWords_keeps
    | apply oldModes_keeps | apply resetBuffer_keeps | apply applyHall_keeps | apply applyRuns_keeps
    | apply applyRing_keeps | apply applyRecords_keeps | apply forN_keeps | apply forHalls_keeps | apply keeps.iteL
    | apply keeps.ite | split | apply keeps.set | (intro)

theorem askCarried_keeps {s0 : State} {s : State} (hs : keeps s0 s) : keeps s0 (askCarried s) :=
  hs.skip (askCarried_changes (F := [.tx, .pair]) rfl (changesOnly.refl _ _)) (by decide)

theorem audRelease_keeps {s0 : State} {o : Origin} {n : Nat} {s : State} (hs : keeps s0 s) : keeps s0 (audRelease o n s) := by
  refine hs.trans ?_
  clear hs
  unfold audRelease
  with_reducible repeat' first
    | assumption | exact keeps.refl _ | apply cfgClamp_keeps | apply raiseBit_keeps | apply audDrop_keeps
    | apply audit_keeps | apply keeps.iteL | apply keeps.ite | split | apply keeps.set | (intro)

theorem audUnread_keeps {s0 : State} {r : AudRec} {rest : List AudRec} {s : State} (hs : keeps s0 s) : keeps s0 (audUnread r rest s) := by
  refine hs.trans ?_
  clear hs
  unfold audUnread
  with_reducible repeat' first
    | assumption | exact keeps.refl _ | apply retWritten_keeps | apply eccSeen_keeps | apply raiseBit_keeps
    | apply audDrop_keeps | apply keeps.set | (intro)

theorem auditB_keeps {s0 : State} {o : Origin} {a : Nat} {d : RegDesc} {w : Word} {v : Word} {s : State} (hs : keeps s0 s) : keeps s0 (auditB o a d w v s) := by
  refine hs.trans ?_
  clear hs
  unfold auditB
  with_reducible repeat' first
    | assumption | exact keeps.refl _ | apply audit_keeps | apply keeps.iteL | apply keeps.ite | split | (intro)

theorem backWords_keeps {s0 : State} {ws : List (Nat × Word)} {old : State} {s : State} (hs : keeps s0 s) : keeps s0 (backWords ws old s) := by
  refine hs.trans ?_
  clear hs
  unfold backWords
  with_reducible repeat' first
    | assumption | exact keeps.refl _ | apply setReg_keeps | apply keeps.foldl | (intro)

theorem balOpenAll_keeps {s0 : State} {s : State} (hs : keeps s0 s) : keeps s0 (balOpenAll s) :=
  hs.skip (balOpenAll_changes (F := [.bal]) rfl (changesOnly.refl _ _)) (by decide)

theorem balPublish_keeps {s0 : State} {s : State} (hs : keeps s0 s) : keeps s0 (balPublish s) := by
  refine hs.trans ?_
  clear hs
  unfold balPublish
  with_reducible repeat' first
    | assumption | exact keeps.refl _ | apply updBal_keeps | apply setReg_keeps | apply forN_keeps | split | (intro)

theorem balTryAll_keeps {s0 : State} {s : State} (hs : keeps s0 s) : keeps s0 (balTryAll s) := by
  refine hs.trans ?_
  clear hs
  unfold balTryAll
  with_reducible repeat' first
    | assumption | exact keeps.refl _ | apply balTry_keeps | apply forN_keeps | (intro)

theorem beginFrame_keeps {s0 : State} {mode3 : Bool} {s : State} (hs : keeps s0 s) : keeps s0 (beginFrame mode3 s) := by
  refine hs.trans ?_
  clear hs
  unfold beginFrame
  with_reducible repeat' first
    | assumption | exact keeps.refl _ | apply modReg_keeps | apply keeps.set | (intro)

theorem tcChecked_keeps {s0 : State} {s : State} {n : Nat} {a : Word} {b : Word} (hs : keeps s0 s) : keeps s0 (tcChecked s n a b) := by
  refine hs.trans ?_
  clear hs
  unfold tcChecked
  with_reducible repeat' first
    | assumption | exact keeps.refl _ | apply ainFlag_keeps | apply keeps.iteL | apply keeps.ite | split | (intro)

theorem beginStep_keeps {s0 : State} {n : Nat} {inj : Bool} {i : Nat} {done : Nat} {t16 : Nat} {s : State} (hs : keeps s0 s) : keeps s0 (beginStep n inj i done t16 s) := by
  refine hs.trans ?_
  clear hs
  unfold beginStep
  with_reducible repeat' first
    | assumption | exact keeps.refl _ | apply updHall_keeps | apply applyExc_keeps | apply updConv_keeps
    | apply tcChecked_keeps | apply keeps.iteL | apply keeps.ite | split | (intro)

theorem bothRun_keeps {s0 : State} {old : Nat} {s : State} (hs : keeps s0 s) : keeps s0 (bothRun old s) := by
  refine hs.trans ?_
  clear hs
  unfold bothRun
  with_reducible repeat' first
    | assumption | exact keeps.refl _ | apply raiseBit_keeps | apply audit_keeps | (intro)

theorem busyAnswer_keeps {s0 : State} {src : Nat} {e : AcyIn} {s : State} (hs : keeps s0 s) : keeps s0 (busyAnswer src e s) :=
  hs.skip (busyAnswer_changes (F := [.ml]) rfl (changesOnly.refl _ _)) (by decide)

end Sys2Proof.Machine
end

