-- ==== Sys2Proof/Laws/Keeps6.lean ====
section
/-! SUPPORT. Every shared operation keeps the canonical form and the order of local time (part 7 of 12). -/

set_option linter.unusedTactic false
set_option linter.unreachableTactic false

namespace Sys2Proof.Machine

theorem capUnread_keeps {s0 : State} {c : CapRec} {s : State} (hs : keeps s0 s) : keeps s0 (capUnread c s) := by
  refine hs.trans ?_
  clear hs
  unfold capUnread
  with_reducible repeat' first
    | assumption | exact keeps.refl _ | apply galDrop_keeps | apply retWritten_keeps | apply eccSeen_keeps
    | apply capDrop_keeps | split | apply keeps.set | (intro)

theorem capSound_keeps {s0 : State} {s : State} (hs : keeps s0 s) : keeps s0 (capSound s) := by
  refine hs.trans ?_
  clear hs
  unfold capSound
  with_reducible repeat' first
    | assumption | exact keeps.refl _ | apply capUnread_keeps | apply keeps.foldl | apply keeps.iteL
    | apply keeps.ite | split | (intro)

theorem cfgDiverged_keeps {s0 : State} {s : State} (hs : keeps s0 s) : keeps s0 (cfgDiverged s) := by
  refine hs.trans ?_
  clear hs
  unfold cfgDiverged
  with_reducible repeat' first
    | assumption | exact keeps.refl _ | apply pairEvent_keeps | apply updPair_keeps | apply keeps.iteL
    | apply keeps.ite | split | (intro)

theorem chOutWrite_keeps {s0 : State} {h : Nat} {c : Nat} {s : State} (hs : keeps s0 s) : keeps s0 (chOutWrite h c s) := by
  refine hs.trans ?_
  clear hs
  unfold chOutWrite
  with_reducible repeat' first
    | assumption | exact keeps.refl _ | apply report_keeps | apply applyCommand_keeps | apply keeps.iteL
    | apply keeps.ite | split | (intro)

theorem chStateAt_keeps {s0 : State} {time : Nat} {h : Nat} {c : Nat} {b : Bool} {s : State} (hs : keeps s0 s) : keeps s0 (chStateAt time h c b s) := by
  refine hs.trans ?_
  clear hs
  unfold chStateAt
  with_reducible repeat' first
    | assumption | exact keeps.refl _ | apply updChan_keeps | apply keeps.iteL | apply keeps.ite | split | (intro)

theorem chState_keeps {s0 : State} {h : Nat} {c : Nat} {b : Bool} {s : State} (hs : keeps s0 s) : keeps s0 (chState h c b s) := by
  refine hs.trans ?_
  clear hs
  unfold chState
  with_reducible repeat' first
    | assumption | exact keeps.refl _ | apply chStateAt_keeps | (intro)

theorem failChip_keeps {s0 : State} {i : Nat} {s : State} (hs : keeps s0 s) : keeps s0 (failChip i s) := by
  refine hs.trans ?_
  clear hs
  unfold failChip
  with_reducible repeat' first
    | exact Nat.le_refl _ | exact id | assumption | exact keeps.refl _ | apply raiseBit_keeps | apply updChip_keeps
    | apply keeps.iteL | apply keeps.ite | split | apply keeps.set | exact Canon.flash_mk | exact Canon.rams_mk
    | exact Canon.rams_prog | apply keeps.mk | (intro) | exact merase_wf _ _ (by assumption)
    | exact mwrites_wf _ _ (by assumption)

theorem chipResult_keeps {s0 : State} {i : Nat} {ok : Bool} {s : State} (hs : keeps s0 s) : keeps s0 (chipResult i ok s) := by
  refine hs.trans ?_
  clear hs
  unfold chipResult
  with_reducible repeat' first
    | assumption | exact keeps.refl _ | apply updChip_keeps | apply failChip_keeps | apply keeps.iteL
    | apply keeps.ite | split | (intro) | exact merase_wf _ _ (by assumption) | exact mwrites_wf _ _ (by assumption)

theorem ckptBegin_keeps {s0 : State} {m : Nat} {c : TotCopy} {commit : Bool} {op : Nat} {s : State} (hs : keeps s0 s) : keeps s0 (ckptBegin m c commit op s) := by
  refine hs.trans ?_
  clear hs
  unfold ckptBegin
  with_reducible repeat' first
    | assumption | exact keeps.refl _ | apply jOpen_keeps | apply ringPut_keeps | apply pushJob_keeps
    | apply keeps.iteL | apply keeps.ite | split | (intro)

theorem shadowWrite_keeps {s0 : State} {m : Nat} {s : State} (hs : keeps s0 s) : keeps s0 (shadowWrite m s) := by
  refine hs.trans ?_
  clear hs
  unfold shadowWrite
  with_reducible repeat' first
    | assumption | exact keeps.refl _ | apply retWritten_keeps | apply updRun_keeps | split | (intro)

theorem ckptTick_keeps {s0 : State} {n : Nat} {s : State} (hs : keeps s0 s) : keeps s0 (ckptTick n s) := by
  refine hs.trans ?_
  clear hs
  unfold ckptTick
  with_reducible repeat' first
    | assumption | exact keeps.refl _ | apply shadowWrite_keeps | apply ckptBegin_keeps | apply forN_keeps
    | apply keeps.iteL | apply keeps.ite | split | (intro)

theorem ckptsBegin_keeps {s0 : State} {op : Nat} {recs : List (List Byte)} {s : State} (hs : keeps s0 s) : keeps s0 (ckptsBegin op recs s) := by
  refine hs.trans ?_
  clear hs
  unfold ckptsBegin
  with_reducible repeat' first
    | assumption | exact keeps.refl _ | apply ckptBegin_keeps | apply keeps.foldl | split | (intro)

theorem clampNote_keeps {s0 : State} {a : Nat} {before : Word} {after : Word} {s : State} (hs : keeps s0 s) : keeps s0 (clampNote a before after s) := by
  refine hs.trans ?_
  clear hs
  unfold clampNote
  with_reducible repeat' first
    | assumption | exact keeps.refl _ | apply cfgClamp_keeps | apply keeps.iteL | apply keeps.ite | split | (intro)

theorem startRamp_keeps {s0 : State} {h : Nat} {c : Nat} {v : Nat} {rank : Nat} {s : State} (hs : keeps s0 s) : keeps s0 (startRamp h c v rank s) := by
  refine hs.trans ?_
  clear hs
  unfold startRamp
  with_reducible repeat' first
    | assumption | exact keeps.refl _ | apply updChan_keeps | apply chFlag_keeps | apply keeps.iteL | apply keeps.ite
    | split | (intro)

theorem leaveSafe_keeps {s0 : State} {l : Latch} {h : Nat} {c : Nat} {s : State} (hs : keeps s0 s) : keeps s0 (leaveSafe l h c s) := by
  refine hs.trans ?_
  clear hs
  unfold leaveSafe
  with_reducible repeat' first
    | assumption | exact keeps.refl _ | apply resolve_keeps | apply chFlag_keeps | apply updChan_keeps
    | apply startRamp_keeps | apply keeps.iteL | apply keeps.ite | split | (intro)

theorem leaveAll_keeps {s0 : State} {l : Latch} {h : Nat} {s : State} (hs : keeps s0 s) : keeps s0 (leaveAll l h s) := by
  refine hs.trans ?_
  clear hs
  unfold leaveAll
  with_reducible repeat' first
    | assumption | exact keeps.refl _ | apply updHall_keeps | apply updChan_keeps | apply resolve_keeps
    | apply leaveSafe_keeps | apply forChans_keeps | (intro)

theorem forceSafe_keeps {s0 : State} {h : Nat} {b : Bool} {s : State} (hs : keeps s0 s) : keeps s0 (forceSafe h b s) := by
  refine hs.trans ?_
  clear hs
  unfold forceSafe
  with_reducible repeat' first
    | assumption | exact keeps.refl _ | apply report_keeps | apply resolveAll_keeps | apply hallFlag_keeps
    | apply leaveAll_keeps | apply keeps.iteL | apply keeps.ite | split | (intro)

theorem poutWrite_keeps {s0 : State} {m : Nat} {j : Nat} {before : Word × Word} {s : State} (hs : keeps s0 s) : keeps s0 (poutWrite m j before s) := by
  refine hs.trans ?_
  clear hs
  unfold poutWrite
  with_reducible repeat' first
    | assumption | exact keeps.refl _ | apply cfgClamp_keeps | apply setReg_keeps | apply keeps.iteL
    | apply keeps.ite | split | apply keeps.set | (intro)

theorem syncOutOff_keeps {s0 : State} {s : State} (hs : keeps s0 s) : keeps s0 (syncOutOff s) :=
  hs.skip (syncOutOff_changes (F := [.sync, .pins]) rfl (changesOnly.refl _ _)) (by decide)

theorem classB_keeps {s0 : State} {a : Nat} {before : Word × Word} {s : State} (hs : keeps s0 s) : keeps s0 (classB a before s) := by
  refine hs.trans ?_
  clear hs
  unfold classB
  with_reducible repeat' first
    | assumption | exact keeps.refl _ | apply chOutWrite_keeps | apply forceSafe_keeps | apply report_keeps
    | apply resolveAll_keeps | apply copyWord_keeps | apply poutWrite_keeps | apply syncOutOff_keeps
    | apply updMl_keeps | apply keeps.iteL | apply keeps.ite | split | (intro)

theorem nameStream_keeps {s0 : State} {k : Nat} {s : State} (hs : keeps s0 s) : keeps s0 (nameStream k s) :=
  hs.skip (nameStream_changes (F := [.str]) rfl (changesOnly.refl _ _)) (by decide)

theorem seekTo_keeps {s0 : State} {k : Nat} {p : Nat} {s : State} (hs : keeps s0 s) : keeps s0 (seekTo k p s) := by
  refine hs.trans ?_
  clear hs
  unfold seekTo
  with_reducible repeat' first
    | assumption | exact keeps.refl _ | apply setStrPos_keeps | apply cfgClamp_keeps | apply keeps.iteL
    | apply keeps.ite | split | (intro)

theorem imgSeek_keeps {s0 : State} {v : Nat} {s : State} (hs : keeps s0 s) : keeps s0 (imgSeek v s) := by
  refine hs.trans ?_
  clear hs
  unfold imgSeek
  with_reducible repeat' first
    | assumption | exact keeps.refl _ | apply updImg_keeps | apply pageFlush_keeps | apply keeps.iteL
    | apply keeps.ite | split | (intro)

theorem classC_keeps {s0 : State} {o : Origin} {a : Nat} {w : Word} {s : State} (hs : keeps s0 s) : keeps s0 (classC o a w s) := by
  refine hs.trans ?_
  clear hs
  unfold classC
  with_reducible repeat' first
    | assumption | exact keeps.refl _ | apply nameStream_keeps | apply setReg_keeps | apply seekTo_keeps
    | apply audRelease_keeps | apply imgSeek_keeps | split | apply keeps.set | (intro)

theorem clearDeliveries_keeps {s0 : State} {s : State} (hs : keeps s0 s) : keeps s0 (clearDeliveries s) := by
  refine hs.trans ?_
  clear hs
  unfold clearDeliveries
  with_reducible repeat' first
    | assumption | exact keeps.refl _ | apply updChan_keeps | apply forHalls_keeps | apply forChans_keeps
    | apply keeps.iteL | apply keeps.ite | split | (intro)

theorem countWrite_keeps {s0 : State} {s : State} (hs : keeps s0 s) : keeps s0 (countWrite s) :=
  hs.skip (countWrite_changes (F := [.aud]) rfl (changesOnly.refl _ _)) (by decide)

theorem forwardWrite_keeps {s0 : State} {o : Origin} {d : RegDesc} {a : Nat} {mask : Word} {v : Word} {s : State} (hs : keeps s0 s) : keeps s0 (forwardWrite o d a mask v s) :=
  hs.skip (forwardWrite_changes (F := [.tx, .pair]) rfl (changesOnly.refl _ _)) (by decide)

theorem writeReg_keeps {s0 : State} {o : Origin} {a : Nat} {mask : Word} {v : Word} {pres : Option Nat} {s : State} (hs : keeps s0 s) : keeps s0 (writeReg o a mask v pres s).1 := by
  refine hs.trans ?_
  clear hs
  unfold writeReg
  repeat' first
    | with_reducible assumption | with_reducible exact keeps.refl _ | with_reducible apply hoRefused_keeps
    | with_reducible apply updStg_keeps | with_reducible apply clampNote_keeps
    | with_reducible apply countWrite_keeps | with_reducible apply auditB_keeps
    | with_reducible apply forwardWrite_keeps | with_reducible apply action_keeps | with_reducible apply classB_keeps
    | with_reducible apply setReg_keeps | with_reducible apply classC_keeps | with_reducible apply modReg_keeps
    | with_reducible apply takeFree_keeps | with_reducible apply keeps.iteL | with_reducible apply keeps.ite | split
    | dsimp only | with_reducible (intro)

theorem hostRefused_keeps {s0 : State} {reason : Nat} {a : Nat} {s : State} (hs : keeps s0 s) : keeps s0 (hostRefused reason a s) := by
  refine hs.trans ?_
  clear hs
  unfold hostRefused
  with_reducible repeat' first
    | assumption | exact keeps.refl _ | apply setReg_keeps | apply raiseBit_keeps | apply keeps.iteL
    | apply keeps.ite | split | apply keeps.set | (intro)

theorem cmdWrite_keeps {s0 : State} {o : Origin} {a : Nat} {mask : Word} {v : Word} {pres : Option Nat} {s : State} (hs : keeps s0 s) : keeps s0 (cmdWrite o a mask v pres s) := by
  refine hs.trans ?_
  clear hs
  unfold cmdWrite
  extract_lets x0
  with_reducible repeat' first
    | assumption | exact keeps.refl _ | apply writeReg_keeps | apply hostRefused_keeps | apply keeps.iteL
    | apply keeps.ite | split | (intro)

theorem codeFlags_keeps {s0 : State} {h : Nat} {c : Nat} {code : Word} {gain : Nat} {s : State} (hs : keeps s0 s) : keeps s0 (codeFlags h c code gain s) := by
  refine hs.trans ?_
  clear hs
  unfold codeFlags
  with_reducible repeat' first
    | assumption | exact keeps.refl _ | apply ainFlag_keeps | apply keeps.iteL | apply keeps.ite | split | (intro)

theorem coldJunctions_keeps {s0 : State} {s : State} (hs : keeps s0 s) : keeps s0 (coldJunctions s) := by
  refine hs.trans ?_
  clear hs
  unfold coldJunctions
  with_reducible repeat' first
    | assumption | exact keeps.refl _ | apply report_keeps | apply ainFlag_keeps | apply forHalls_keeps
    | apply forChans_keeps | apply keeps.iteL | apply keeps.ite | split | (intro)

theorem commitAudit_keeps {s0 : State} {s : State} (hs : keeps s0 s) : keeps s0 (commitAudit s) := by
  refine hs.trans ?_
  clear hs
  unfold commitAudit
  with_reducible repeat' first
    | assumption | exact keeps.refl _ | apply audit_keeps | apply keeps.foldl | (intro)

theorem commitCapture_keeps {s0 : State} {s : State} (hs : keeps s0 s) : keeps s0 (commitCapture s) := by
  refine hs.trans ?_
  clear hs
  unfold commitCapture
  with_reducible repeat' first
    | assumption | exact keeps.refl _ | apply capPut_keeps | apply eccSeen_keeps | apply ckptBegin_keeps
    | apply keeps.foldl | apply keeps.iteL | apply keeps.ite | split | (intro)

theorem commitApply_keeps {s0 : State} {s : State} (hs : keeps s0 s) : keeps s0 (commitApply s) := by
  refine hs.trans ?_
  clear hs
  unfold commitApply
  with_reducible repeat' first
    | assumption | exact keeps.refl _ | apply commitAudit_keeps | apply bbEvent_keeps | apply jStep_keeps
    | apply jMod_keeps | apply applyWords_keeps | apply commitCapture_keeps | apply updStg_keeps
    | apply raiseBit_keeps | apply keeps.set | (intro)

theorem commitForward_keeps {s0 : State} {s : State} (hs : keeps s0 s) : keeps s0 (commitForward s) :=
  hs.skip (commitForward_changes (F := [.tx, .pair]) rfl (changesOnly.refl _ _)) (by decide)

theorem commitRefused_keeps {s0 : State} {r : Nat × Nat} {s : State} (hs : keeps s0 s) : keeps s0 (commitRefused r s) := by
  refine hs.trans ?_
  clear hs
  unfold commitRefused
  with_reducible repeat' first
    | assumption | exact keeps.refl _ | apply raiseBit_keeps | apply updStg_keeps | (intro)

theorem commitLate_keeps {s0 : State} {s : State} (hs : keeps s0 s) : keeps s0 (commitLate s) := by
  refine hs.trans ?_
  clear hs
  unfold commitLate
  with_reducible repeat' first
    | assumption | exact keeps.refl _ | apply commitRefused_keeps | apply jClose_keeps | apply cfgDiverged_keeps
    | apply keeps.iteL | apply keeps.ite | split | (intro)

theorem commitOpen_keeps {s0 : State} {s : State} (hs : keeps s0 s) : keeps s0 (commitOpen s) := by
  refine hs.trans ?_
  clear hs
  unfold commitOpen
  with_reducible repeat' first
    | assumption | exact keeps.refl _ | apply commitForward_keeps | apply updStg_keeps | apply jOpen_keeps | (intro)

theorem complFlags_keeps {s0 : State} {h : Nat} {x : Sample} {s : State} (hs : keeps s0 s) : keeps s0 (complFlags h x s) := by
  refine hs.trans ?_
  clear hs
  unfold complFlags
  with_reducible repeat' first
    | assumption | exact keeps.refl _ | apply excFlag_keeps | (intro)

theorem pulseOut_keeps {s0 : State} {m : Nat} {q : Nat × Nat × Nat} {alarm : Bool} {s : State} (hs : keeps s0 s) : keeps s0 (pulseOut m q alarm s).1 := by
  refine hs.trans ?_
  clear hs
  unfold pulseOut
  with_reducible repeat' first
    | assumption | exact keeps.refl _ | apply updRun_keeps | apply setReg_keeps | apply modReg_keeps
    | apply keeps.iteL | apply keeps.ite | split | (intro)

theorem totalize_keeps {s0 : State} {m : Nat} {tick : Nat} {q : (Nat × Nat × Nat) × Bool} {alarm : Bool} {s : State} (hs : keeps s0 s) : keeps s0 (totalize m tick q alarm s) := by
  refine hs.trans ?_
  clear hs
  unfold totalize
  with_reducible repeat' first
    | assumption | exact keeps.refl _ | apply liveWrite_keeps | apply updRun_keeps | apply raiseBit_keeps
    | apply markRun_keeps | apply keeps.iteL | apply keeps.ite | split | (intro)

theorem runStatus_keeps {s0 : State} {m : Nat} {w : Word} {again : Word} {s : State} (hs : keeps s0 s) : keeps s0 (runStatus m w again s) := by
  refine hs.trans ?_
  clear hs
  unfold runStatus
  with_reducible repeat' first
    | assumption | exact keeps.refl _ | apply raiseEvt_keeps | apply setReg_keeps | (intro)

theorem runCycles_keeps {s0 : State} {m : Nat} {cycles : Nat} {completed : Bool} {s : State} (hs : keeps s0 s) : keeps s0 (runCycles m cycles completed s) := by
  refine hs.trans ?_
  clear hs
  unfold runCycles
  with_reducible repeat' first
    | assumption | exact keeps.refl _ | apply modReg_keeps | apply keeps.iteL | apply keeps.ite | split | (intro)

theorem completeRun_keeps {s0 : State} {m : Nat} {cycles : Nat} {o : RunOut} {f : Option (Nat × Bool)} {i : Option (Nat × Bool)} {s : State} (hs : keeps s0 s) : keeps s0 (completeRun m cycles o f i s) := by
  refine hs.trans ?_
  clear hs
  unfold completeRun
  with_reducible repeat' first
    | assumption | exact keeps.refl _ | apply updRun_keeps | apply pulseOut_keeps | apply totalize_keeps
    | apply runStatus_keeps | apply runCycles_keeps | apply setReg_keeps | apply afterRun_keeps | apply forN_keeps
    | apply keeps.iteL | apply keeps.ite | split | (intro)

theorem configCommit_keeps {s0 : State} {v : Nat} {s : State} (hs : keeps s0 s) : keeps s0 (configCommit v s) := by
  refine hs.trans ?_
  clear hs
  unfold configCommit
  with_reducible repeat' first
    | assumption | exact keeps.refl _ | apply updStg_keeps | apply jOpen_keeps | apply keeps.iteL | apply keeps.ite
    | split | (intro)

theorem configWrite_keeps {s0 : State} {a : Nat} {mask : Word} {value : Word} {s : State} (hs : keeps s0 s) : keeps s0 (configWrite a mask value s) := by
  refine hs.trans ?_
  clear hs
  unfold configWrite
  repeat' first
    | with_reducible assumption | with_reducible exact keeps.refl _ | with_reducible apply writeReg_keeps
    | with_reducible apply cfgDiverged_keeps | split | dsimp only | with_reducible (intro)

theorem tellStaged_keeps {s0 : State} {s : State} (hs : keeps s0 s) : keeps s0 (tellStaged s) :=
  hs.skip (tellStaged_changes (F := [.tx, .pair]) rfl (changesOnly.refl _ _)) (by decide)

theorem configItem_keeps {s0 : State} {b : List Byte} {s : State} (hs : keeps s0 s) : keeps s0 (configItem b s) := by
  refine hs.trans ?_
  clear hs
  unfold configItem
  extract_lets x0 x1
  with_reducible repeat' first
    | assumption | exact keeps.refl _ | apply configWrite_keeps | apply tellStaged_keeps | apply configCommit_keeps
    | apply stgAbandon_keeps | apply updStg_keeps | split | (intro)

theorem configItems_keeps {s0 : State} {b : List Byte} {s : State} (hs : keeps s0 s) : keeps s0 (configItems b s) := by
  refine hs.trans ?_
  clear hs
  unfold configItems
  with_reducible repeat' first
    | assumption | exact keeps.refl _ | apply configItem_keeps | apply forN_keeps | (intro)

end Sys2Proof.Machine
end

