-- ==== Sys2Proof/Laws/Keeps7.lean ====
section
/-! SUPPORT. Every shared operation keeps the canonical form and the order of local time (part 8 of 12). -/

set_option linter.unusedTactic false
set_option linter.unreachableTactic false

namespace Sys2Proof.Machine

theorem confirmRing_keeps {s0 : State} {r : Nat} {s : State} (hs : keeps s0 s) : keeps s0 (confirmRing r s) :=
  hs.skip (confirmRing_changes (F := [.gal]) rfl (changesOnly.refl _ _)) (by decide)

theorem confirmRings_keeps {s0 : State} {s : State} (hs : keeps s0 s) : keeps s0 (confirmRings s) :=
  hs.skip (confirmRings_changes (F := [.gal]) rfl (changesOnly.refl _ _)) (by decide)

theorem copyPoints_keeps {s0 : State} {src : Nat} {l : List (Nat × List Word)} {s : State} (hs : keeps s0 s) : keeps s0 (copyPoints src l s) := by
  refine hs.trans ?_
  clear hs
  unfold copyPoints
  with_reducible repeat' first
    | assumption | exact keeps.refl _ | apply putSub_keeps | apply updMl_keeps | apply forN_keeps | apply keeps.iteL
    | apply keeps.ite | split | (intro)

theorem countEdge_keeps {s0 : State} {h : Nat} {c : Nat} {n : Nat} {k : Nat} {time : Nat} {s : State} (hs : keeps s0 s) : keeps s0 (countEdge h c n k time s) := by
  refine hs.trans ?_
  clear hs
  unfold countEdge
  with_reducible repeat' first
    | assumption | exact keeps.refl _ | apply updChan_keeps | apply keeps.iteL | apply keeps.ite | split | (intro)

theorem crossingFull_keeps {s0 : State} {row : Nat} {s : State} (hs : keeps s0 s) : keeps s0 (crossingFull row s) := by
  refine hs.trans ?_
  clear hs
  unfold crossingFull
  with_reducible repeat' first
    | assumption | exact keeps.refl _ | apply raiseBit_keeps | apply modReg_keeps | (intro)

theorem latchOff_keeps {s0 : State} {l : Latch} {h : Nat} {c : Nat} {s : State} (hs : keeps s0 s) : keeps s0 (latchOff l h c s) := by
  refine hs.trans ?_
  clear hs
  unfold latchOff
  with_reducible repeat' first
    | assumption | exact keeps.refl _ | apply chFlag_keeps | apply updChan_keeps | (intro)

theorem cutLatch_keeps {s0 : State} {h : Nat} {c : Nat} {s : State} (hs : keeps s0 s) : keeps s0 (cutLatch h c s) := by
  refine hs.trans ?_
  clear hs
  unfold cutLatch
  with_reducible repeat' first
    | assumption | exact keeps.refl _ | apply resolve_keeps | apply latchOff_keeps | apply updChan_keeps | (intro)

theorem cutRetry_keeps {s0 : State} {h : Nat} {c : Nat} {s : State} (hs : keeps s0 s) : keeps s0 (cutRetry h c s) := by
  refine hs.trans ?_
  clear hs
  unfold cutRetry
  with_reducible repeat' first
    | assumption | exact keeps.refl _ | apply updChan_keeps | apply chFlag_keeps | apply latchOff_keeps
    | apply resolve_keeps | apply keeps.iteL | apply keeps.ite | split | (intro)

theorem takeTotals_keeps {s0 : State} {n : Nat} {accs : List (List Acc)} {quiet : Bool} {s : State} (hs : keeps s0 s) : keeps s0 (takeTotals n accs quiet s) := by
  refine hs.trans ?_
  clear hs
  unfold takeTotals
  with_reducible repeat' first
    | assumption | exact keeps.refl _ | apply adopt_keeps | apply forN_keeps | apply keeps.iteL | apply keeps.ite
    | split | (intro)

theorem diverge_keeps {s0 : State} {n : Nat} {accs : Option (List (List Acc))} {s : State} (hs : keeps s0 s) : keeps s0 (diverge n accs s) := by
  refine hs.trans ?_
  clear hs
  unfold diverge
  with_reducible repeat' first
    | assumption | exact keeps.refl _ | apply updPair_keeps | apply takeTotals_keeps | apply askCarried_keeps
    | apply pairEvent_keeps | split | (intro)

theorem dropReload_keeps {s0 : State} {h : Nat} {s : State} (hs : keeps s0 s) : keeps s0 (dropReload h s) :=
  hs.skip (dropReload_changes (F := [.img]) rfl (changesOnly.refl _ _)) (by decide)

theorem sendEcho_keeps {s0 : State} {p : Nat} {s : State} (hs : keeps s0 s) : keeps s0 (sendEcho p s) :=
  hs.skip (sendEcho_changes (F := [.ml, .tx]) rfl (changesOnly.refl _ _)) (by decide)

theorem moveTo_keeps {s0 : State} {t : Nat} {s : State} (hs : keeps s0 s) : keeps s0 (moveTo t s) := by
  unfold moveTo
  split
  · exact advance_keeps hs
  · exact hs

theorem toReserve_keeps {s0 : State} {s : State} (hs : keeps s0 s) : keeps s0 (toReserve s) := by
  refine hs.trans ?_
  clear hs
  unfold toReserve
  with_reducible repeat' first
    | assumption | exact keeps.refl _ | apply moveTo_keeps | apply keeps.iteL | apply keeps.ite | split | (intro)

theorem dueEchoes_keeps {s0 : State} {s : State} (hs : keeps s0 s) : keeps s0 (dueEchoes s) := by
  refine hs.trans ?_
  clear hs
  unfold dueEchoes
  with_reducible repeat' first
    | assumption | exact keeps.refl _ | apply sendEcho_keeps | apply toReserve_keeps | apply forN_keeps
    | apply keeps.iteL | apply keeps.ite | split | (intro)

theorem eccCorrected_keeps {s0 : State} {m : MemId} {s : State} (hs : keeps s0 s) : keeps s0 (eccCorrected m s) := by
  refine hs.trans ?_
  clear hs
  unfold eccCorrected
  with_reducible repeat' first
    | assumption | exact keeps.refl _ | apply modReg_keeps | apply raiseBit_keeps | split | (intro)

theorem eccEvent_keeps {s0 : State} {i : Nat} {s : State} (hs : keeps s0 s) : keeps s0 (eccEvent i s) := by
  refine hs.trans ?_
  clear hs
  unfold eccEvent
  with_reducible repeat' first
    | assumption | exact keeps.refl _ | apply raiseBit_keeps | apply keeps.iteL | apply keeps.ite | split | (intro)

theorem eccHall_keeps {s0 : State} {h : Nat} {s : State} (hs : keeps s0 s) : keeps s0 (eccHall h s) := by
  refine hs.trans ?_
  clear hs
  unfold eccHall
  with_reducible repeat' first
    | assumption | exact keeps.refl _ | apply resolveAll_keeps | apply updHall_keeps | apply reloadBegin_keeps
    | apply keeps.iteL | apply keeps.ite | split | (intro)

theorem eccMark_keeps {s0 : State} {mem : Nat} {word : Nat} {s : State} (hs : keeps s0 s) : keeps s0 (eccMark mem word s) := by
  refine hs.trans ?_
  clear hs
  unfold eccMark
  with_reducible repeat' first
    | exact Nat.le_refl _ | exact id | assumption | exact keeps.refl _ | apply keeps.set | exact Canon.flash_mk
    | exact Canon.rams_mk | exact Canon.rams_prog | apply keeps.mk | (intro)

theorem reloadIdle_keeps {s0 : State} {s : State} (hs : keeps s0 s) : keeps s0 (reloadIdle s) := by
  refine hs.trans ?_
  clear hs
  unfold reloadIdle
  with_reducible repeat' first
    | exact Nat.le_refl _ | exact id | assumption | exact keeps.refl _ | apply keeps.set | exact Canon.flash_mk
    | exact Canon.rams_mk | exact Canon.rams_prog | apply keeps.mk | (intro)

theorem eccFatal_keeps {s0 : State} {m : MemId} {word : Nat} {s : State} (hs : keeps s0 s) : keeps s0 (eccFatal m word s) := by
  refine hs.trans ?_
  clear hs
  unfold eccFatal
  with_reducible repeat' first
    | assumption | exact keeps.refl _ | apply eccFound_keeps | apply eccHall_keeps | apply eccMark_keeps
    | apply reloadIdle_keeps | apply keeps.iteL | apply keeps.ite | split | (intro)

theorem galIntervals_keeps {s0 : State} {n : Nat} {s : State} (hs : keeps s0 s) : keeps s0 (galIntervals n s) := by
  refine hs.trans ?_
  clear hs
  unfold galIntervals
  with_reducible repeat' first
    | assumption | exact keeps.refl _ | apply galInterval_keeps | apply keeps.iteL | apply keeps.ite | split
    | (intro)

theorem periodEnd_keeps {s0 : State} {n : Nat} {s : State} (hs : keeps s0 s) : keeps s0 (periodEnd n s) := by
  refine hs.trans ?_
  clear hs
  unfold periodEnd
  with_reducible repeat' first
    | assumption | exact keeps.refl _ | apply closeKinds_keeps | apply keeps.iteL | apply keeps.ite | split | (intro)

theorem galBlocks_keeps {s0 : State} {n : Nat} {s : State} (hs : keeps s0 s) : keeps s0 (galBlocks n s) := by
  refine hs.trans ?_
  clear hs
  unfold galBlocks
  with_reducible repeat' first
    | assumption | exact keeps.refl _ | apply galFlush_keeps | apply keeps.iteL | apply keeps.ite | split | (intro)

theorem endTick_keeps {s0 : State} {s : State} (hs : keeps s0 s) : keeps s0 (endTick s) := by
  refine hs.trans ?_
  clear hs
  unfold endTick
  with_reducible repeat' first
    | assumption | exact keeps.refl _ | apply galIntervals_keeps | apply ckptTick_keeps | apply periodEnd_keeps
    | apply jobsLost_keeps | apply galBlocks_keeps | apply keeps.set | (intro)

theorem eraseDamaged_keeps {s0 : State} {slot : Nat} {s : State} (hs : keeps s0 s) : keeps s0 (eraseDamaged slot s) := by
  refine hs.trans ?_
  clear hs
  unfold eraseDamaged
  with_reducible repeat' first
    | assumption | exact keeps.refl _ | apply updChip_keeps | apply forN_keeps | apply keeps.iteL | apply keeps.ite
    | split | (intro) | exact merase_wf _ _ (by assumption) | exact mwrites_wf _ _ (by assumption)

theorem expiredEvt_keeps {s0 : State} {s : State} (hs : keeps s0 s) : keeps s0 (expiredEvt s) := by
  refine hs.trans ?_
  clear hs
  unfold expiredEvt
  with_reducible repeat' first
    | assumption | exact keeps.refl _ | apply raiseBit_keeps | apply keeps.iteL | apply keeps.ite | split | (intro)

theorem extDetected_keeps {s0 : State} {h : Nat} {c : Nat} {s : State} (hs : keeps s0 s) : keeps s0 (extDetected h c s) := by
  refine hs.trans ?_
  clear hs
  unfold extDetected
  with_reducible repeat' first
    | assumption | exact keeps.refl _ | apply latchOff_keeps | apply updChan_keeps | apply resolve_keeps
    | apply chFlag_keeps | apply keeps.iteL | apply keeps.ite | split | (intro)

theorem stgEmpty_keeps {s0 : State} {s : State} (hs : keeps s0 s) : keeps s0 (stgEmpty s) := by
  refine hs.trans ?_
  clear hs
  unfold stgEmpty
  with_reducible repeat' first
    | assumption | exact keeps.refl _ | apply updStg_keeps | apply jClose_keeps | split | (intro)

theorem roleChange_keeps {s0 : State} {active : Bool} {s : State} (hs : keeps s0 s) : keeps s0 (roleChange active s) := by
  refine hs.trans ?_
  clear hs
  unfold roleChange
  with_reducible repeat' first
    | assumption | exact keeps.refl _ | apply updPair_keeps | apply pairEvent_keeps | apply bbEvent_keeps
    | apply stgEmpty_keeps | apply keeps.iteL | apply keeps.ite | split | apply keeps.set | (intro)

theorem outputActive_keeps {s0 : State} {h : Nat} {c : Nat} {s : State} (hs : keeps s0 s) : keeps s0 (outputActive h c s) := by
  refine hs.trans ?_
  clear hs
  unfold outputActive
  with_reducible repeat' first
    | assumption | exact keeps.refl _ | apply updChan_keeps | apply startRamp_keeps | apply resolve_keeps
    | apply keeps.iteL | apply keeps.ite | split | (intro)

theorem outputsActive_keeps {s0 : State} {s : State} (hs : keeps s0 s) : keeps s0 (outputsActive s) := by
  refine hs.trans ?_
  clear hs
  unfold outputsActive
  with_reducible repeat' first
    | assumption | exact keeps.refl _ | apply report_keeps | apply outputActive_keeps | apply forHalls_keeps
    | apply forChans_keeps | apply keeps.iteL | apply keeps.ite | split | (intro)

theorem inputsActive_keeps {s0 : State} {a : Nat} {e : Nat} {s : State} (hs : keeps s0 s) : keeps s0 (inputsActive a e s) := by
  refine hs.trans ?_
  clear hs
  unfold inputsActive
  with_reducible repeat' first
    | assumption | exact keeps.refl _ | apply inputForm_keeps | apply forHalls_keeps | apply forChans_keeps
    | apply keeps.iteL | apply keeps.ite | split | (intro)

theorem hoRollBack_keeps {s0 : State} {s : State} (hs : keeps s0 s) : keeps s0 (hoRollBack s) := by
  refine hs.trans ?_
  clear hs
  unfold hoRollBack
  with_reducible repeat' first
    | assumption | exact keeps.refl _ | apply jClose_keeps | apply updPair_keeps | apply pairEvent_keeps
    | apply outputsActive_keeps | apply inputsActive_keeps | apply keeps.iteL | apply keeps.ite | split | (intro)

theorem fenceNow_keeps {s0 : State} {s : State} (hs : keeps s0 s) : keeps s0 (fenceNow s) := by
  refine hs.trans ?_
  clear hs
  unfold fenceNow
  with_reducible repeat' first
    | assumption | exact keeps.refl _ | apply allStandby_keeps | apply roleChange_keeps | apply hoRollBack_keeps
    | apply pairEvent_keeps | apply updPair_keeps | (intro)

theorem openFlags_keeps {s0 : State} {h : Nat} {c : Nat} {x : Sample} {s : State} (hs : keeps s0 s) : keeps s0 (openFlags h c x s) := by
  refine hs.trans ?_
  clear hs
  unfold openFlags
  with_reducible repeat' first
    | assumption | exact keeps.refl _ | apply ainFlag_keeps | apply keeps.iteL | apply keeps.ite | split | (intro)

theorem resultEvents_keeps {s0 : State} {n : Nat} {ovr : Bool} {recov : Bool} {s : State} (hs : keeps s0 s) : keeps s0 (resultEvents n ovr recov s) := by
  refine hs.trans ?_
  clear hs
  unfold resultEvents
  with_reducible repeat' first
    | assumption | exact keeps.refl _ | apply raiseBit_keeps | apply keeps.iteL | apply keeps.ite | split | (intro)

theorem gainDone_keeps {s0 : State} {own : Nat} {k : Nat} {gain : Nat} {limit : Nat} {auto : Bool} {ovr : Bool} {code : Word} {s : State} (hs : keeps s0 s) : keeps s0 (gainDone own k gain limit auto ovr code s) := by
  refine hs.trans ?_
  clear hs
  unfold gainDone
  with_reducible repeat' first
    | assumption | exact keeps.refl _ | apply updConv_keeps | apply keeps.iteL | apply keeps.ite | split | (intro)

theorem setClass_keeps {s0 : State} {h : Nat} {c : Nat} {k : Nat} {s : State} (hs : keeps s0 s) : keeps s0 (setClass h c k s) := by
  refine hs.trans ?_
  clear hs
  unfold setClass
  with_reducible repeat' first
    | assumption | exact keeps.refl _ | apply updChan_keeps | (intro)

theorem pulsTake_keeps {s0 : State} {s : State} {own : Nat} {h : Nat} {c : Nat} {a : Word} {code : Word} (hs : keeps s0 s) : keeps s0 (pulsTake s own h c a code) := by
  refine hs.trans ?_
  clear hs
  unfold pulsTake
  with_reducible repeat' first
    | assumption | exact keeps.refl _ | apply updChan_keeps | apply keeps.iteL | apply keeps.ite | split | (intro)

theorem pulsResult_keeps {s0 : State} {s : State} {own : Nat} {h : Nat} {c : Nat} {a : Word} {tag : Word} {code : Word} (hs : keeps s0 s) : keeps s0 (pulsResult s own h c a tag code) := by
  refine hs.trans ?_
  clear hs
  unfold pulsResult
  with_reducible repeat' first
    | assumption | exact keeps.refl _ | apply updChan_keeps | apply pulsTake_keeps | apply keeps.iteL
    | apply keeps.ite | split | (intro)

theorem sendRec_keeps {s0 : State} {own : Nat} {r : Rec} {s : State} (hs : keeps s0 s) : keeps s0 (sendRec own r s) := by
  refine hs.trans ?_
  clear hs
  unfold sendRec
  with_reducible repeat' first
    | assumption | exact keeps.refl _ | apply updConv_keeps | (intro)

theorem setWin_keeps {s0 : State} {h : Nat} {w : Nat} {v : Word} {s : State} (hs : keeps s0 s) : keeps s0 (setWin h w v s) := by
  refine hs.trans ?_
  clear hs
  unfold setWin
  with_reducible repeat' first
    | assumption | exact keeps.refl _ | apply updHall_keeps | (intro)

theorem winExit_keeps {s0 : State} {h : Nat} {w : Nat} {high : Bool} {code : Word} {n : Nat} {t16 : Nat} {s : State} (hs : keeps s0 s) : keeps s0 (winExit h w high code n t16 s) := by
  refine hs.trans ?_
  clear hs
  unfold winExit
  with_reducible repeat' first
    | assumption | exact keeps.refl _ | apply setWin_keeps | apply raiseBit_keeps | apply bbEvent_keeps
    | apply addTrigger_keeps | apply keeps.iteL | apply keeps.ite | split | (intro)

theorem winEval_keeps {s0 : State} {h : Nat} {w : Nat} {code : Word} {n : Nat} {t16 : Nat} {s : State} (hs : keeps s0 s) : keeps s0 (winEval h w code n t16 s) := by
  refine hs.trans ?_
  clear hs
  unfold winEval
  with_reducible repeat' first
    | assumption | exact keeps.refl _ | apply winExit_keeps | apply raiseBit_keeps | apply setWin_keeps
    | apply bbEvent_keeps | apply keeps.iteL | apply keeps.ite | split | (intro)

theorem pairSide_keeps {s0 : State} {h : Nat} {k : Nat} {t16 : Nat} {code : Word} {tag : Word} {s : State} (hs : keeps s0 s) : keeps s0 (pairSide h k t16 code tag s) := by
  refine hs.trans ?_
  clear hs
  unfold pairSide
  with_reducible repeat' first
    | assumption | exact keeps.refl _ | apply updRot_keeps | apply keeps.iteL | apply keeps.ite | split | (intro)

theorem flightResult_keeps {s0 : State} {n : Nat} {t16 : Nat} {x : Sample} {s : State} (hs : keeps s0 s) : keeps s0 (flightResult n t16 x s) := by
  refine hs.trans ?_
  clear hs
  unfold flightResult
  with_reducible repeat' first
    | assumption | exact keeps.refl _ | apply complFlags_keeps | apply openFlags_keeps | apply codeFlags_keeps
    | apply updConv_keeps | apply resultEvents_keeps | apply gainDone_keeps | apply setClass_keeps
    | apply pulsResult_keeps | apply sendRec_keeps | apply winEval_keeps | apply pairSide_keeps | apply updRot_keeps
    | apply advanceStep_keeps | apply keeps.iteL | apply keeps.ite | split | (intro)

theorem takeDelay_keeps {s0 : State} {p : Nat} {s : State} (hs : keeps s0 s) : keeps s0 (takeDelay p s) :=
  hs.skip (takeDelay_changes (F := [.free]) rfl (changesOnly.refl _ _)) (by decide)

theorem formEnd_keeps {s0 : State} {r : Nat} {l : MlLoop} {start : Nat} {s : State} (hs : keeps s0 s) : keeps s0 (formEnd r l start s) := by
  refine hs.trans ?_
  clear hs
  unfold formEnd
  with_reducible repeat' first
    | assumption | exact keeps.refl _ | apply updMl_keeps | apply mlEvent_keeps | apply keeps.iteL | apply keeps.ite
    | split | (intro)

theorem formBack_keeps {s0 : State} {p : Nat} {d : FormData} {s : State} (hs : keeps s0 s) : keeps s0 (formBack p d s) := by
  refine hs.trans ?_
  clear hs
  unfold formBack
  with_reducible repeat' first
    | assumption | exact keeps.refl _ | apply updMl_keeps | apply takeDelay_keeps | apply formEnd_keeps
    | apply mlOriginate_keeps | apply keeps.iteL | apply keeps.ite | split | (intro)

end Sys2Proof.Machine
end

