-- ==== Sys2Proof/Laws/Keeps8.lean ====
section
/-! SUPPORT. Every shared operation keeps the canonical form and the order of local time (part 9 of 12). -/

set_option linter.unusedTactic false
set_option linter.unreachableTactic false

namespace Sys2Proof.Machine

theorem relay_keeps {s0 : State} {q : Option Nat} {typ : Nat} {hops : Nat} {f : MlFrame} {payload : List Byte} {s : State} (hs : keeps s0 s) : keeps s0 (relay q typ hops f payload s) := by
  refine hs.trans ?_
  clear hs
  unfold relay
  with_reducible repeat' first
    | assumption | exact keeps.refl _ | apply frameSend_keeps | split | (intro)

theorem formDoneOn_keeps {s0 : State} {f : MlFrame} {s : State} (hs : keeps s0 s) : keeps s0 (formDoneOn f s) := by
  refine hs.trans ?_
  clear hs
  unfold formDoneOn
  with_reducible repeat' first
    | assumption | exact keeps.refl _ | apply relay_keeps | apply keeps.iteL | apply keeps.ite | split | (intro)

theorem formOn_keeps {s0 : State} {f : MlFrame} {payload : List Byte} {s : State} (hs : keeps s0 s) : keeps s0 (formOn f payload s) := by
  refine hs.trans ?_
  clear hs
  unfold formOn
  with_reducible repeat' first
    | assumption | exact keeps.refl _ | apply relay_keeps | apply keeps.iteL | apply keeps.ite | split | (intro)

theorem galReset_keeps {s0 : State} {s : State} (hs : keeps s0 s) : keeps s0 (galReset s) :=
  hs.skip (galReset_changes (F := [.gal]) rfl (changesOnly.refl _ _)) (by decide)

theorem genCheck_keeps {s0 : State} {s : State} (hs : keeps s0 s) : keeps s0 (genCheck s) := by
  refine hs.trans ?_
  clear hs
  unfold genCheck
  with_reducible repeat' first
    | assumption | exact keeps.refl _ | apply updPair_keeps | apply raiseBit_keeps | apply bothRun_keeps
    | apply keeps.iteL | apply keeps.ite | split | (intro)

theorem takeBacklog_keeps {s0 : State} {h : Nat} {c : Nat} {m : Nat} {v : Nat} {s : State} (hs : keeps s0 s) : keeps s0 (takeBacklog h c m v s) := by
  refine hs.trans ?_
  clear hs
  unfold takeBacklog
  with_reducible repeat' first
    | assumption | exact keeps.refl _ | apply pulseGo_keeps | apply updChan_keeps | (intro)

theorem giveBacklogs_keeps {s0 : State} {s : State} (hs : keeps s0 s) : keeps s0 (giveBacklogs s) := by
  refine hs.trans ?_
  clear hs
  unfold giveBacklogs
  with_reducible repeat' first
    | assumption | exact keeps.refl _ | apply takeBacklog_keeps | apply forN_keeps | apply keeps.iteL
    | apply keeps.ite | split | (intro)

theorem giveCommand_keeps {s0 : State} {g : Nat} {v : Nat} {s : State} (hs : keeps s0 s) : keeps s0 (giveCommand g v s) := by
  refine hs.trans ?_
  clear hs
  unfold giveCommand
  with_reducible repeat' first
    | assumption | exact keeps.refl _ | apply updChan_keeps | apply setReg_keeps | apply keeps.iteL | apply keeps.ite
    | split | (intro)

theorem giveValue_keeps {s0 : State} {g : Option Nat} {v : Option Nat} {s : State} (hs : keeps s0 s) : keeps s0 (giveValue g v s) := by
  refine hs.trans ?_
  clear hs
  unfold giveValue
  with_reducible repeat' first
    | assumption | exact keeps.refl _ | apply giveCommand_keeps | apply keeps.iteL | apply keeps.ite | split
    | (intro)

theorem giveOutputs_keeps {s0 : State} {s : State} (hs : keeps s0 s) : keeps s0 (giveOutputs s) := by
  refine hs.trans ?_
  clear hs
  unfold giveOutputs
  with_reducible repeat' first
    | assumption | exact keeps.refl _ | apply giveValue_keeps | apply forN_keeps | apply keeps.iteL | apply keeps.ite
    | split | (intro)

theorem goOn_keeps {s0 : State} {typ : Nat} {f : MlFrame} {payload : List Byte} {s : State} (hs : keeps s0 s) : keeps s0 (goOn typ f payload s) := by
  refine hs.trans ?_
  clear hs
  unfold goOn
  with_reducible repeat' first
    | assumption | exact keeps.refl _ | apply relay_keeps | apply keeps.iteL | apply keeps.ite | split | (intro)

theorem hallEvent_keeps {s0 : State} {h : Nat} {i : Nat} {s : State} (hs : keeps s0 s) : keeps s0 (hallEvent h i s) := by
  refine hs.trans ?_
  clear hs
  unfold hallEvent
  with_reducible repeat' first
    | assumption | exact keeps.refl _ | apply updHall_keeps | (intro)

theorem hallReset1_keeps {s0 : State} {h : Nat} {s : State} (hs : keeps s0 s) : keeps s0 (hallReset1 h s) := by
  refine hs.trans ?_
  clear hs
  unfold hallReset1
  with_reducible repeat' first
    | assumption | exact keeps.refl _ | apply rotAbandon_keeps | apply stopHall_keeps | apply updConv_keeps
    | apply updChan_keeps | apply updHall_keeps | apply forChans_keeps | (intro)

theorem hallsUnclocked_keeps {s0 : State} {s : State} (hs : keeps s0 s) : keeps s0 (hallsUnclocked s) := by
  refine hs.trans ?_
  clear hs
  unfold hallsUnclocked
  with_reducible repeat' first
    | assumption | exact keeps.refl _ | apply updConv_keeps | apply rotAbandon_keeps | apply stopHall_keeps
    | apply updHall_keeps | apply updChan_keeps | apply forN_keeps | apply forHalls_keeps | apply forChans_keeps
    | (intro)

theorem haltNow_keeps {s0 : State} {s : State} (hs : keeps s0 s) : keeps s0 (haltNow s) := by
  refine hs.trans ?_
  clear hs
  unfold haltNow
  with_reducible repeat' first
    | assumption | exact keeps.refl _ | apply audit_keeps | apply bbEvent_keeps | apply keeps.set | (intro)

theorem sendCarried_keeps {s0 : State} {s : State} (hs : keeps s0 s) : keeps s0 (sendCarried s) :=
  hs.skip (sendCarried_changes (F := [.tx, .pair]) rfl (changesOnly.refl _ _)) (by decide)

theorem sendTotals_keeps {s0 : State} {n : Nat} {s : State} (hs : keeps s0 s) : keeps s0 (sendTotals n s) :=
  hs.skip (sendTotals_changes (F := [.tx, .pair]) rfl (changesOnly.refl _ _)) (by decide)

theorem handoverSend_keeps {s0 : State} {s : State} (hs : keeps s0 s) : keeps s0 (handoverSend s) :=
  hs.skip (handoverSend_changes (F := [.tx, .pair]) rfl (changesOnly.refl _ _)) (by decide)

theorem steer_keeps {s0 : State} {off : Int} {s : State} (hs : keeps s0 s) : keeps s0 (steer off s) := by
  refine hs.trans ?_
  clear hs
  unfold steer
  with_reducible repeat' first
    | exact Nat.le_refl _ | exact id | assumption | exact keeps.refl _ | apply rebaseGrid_keeps
    | apply takeFree_keeps | apply keeps.iteL | apply keeps.ite | split | apply keeps.set | exact Canon.flash_mk
    | exact Canon.rams_mk | exact Canon.rams_prog | apply keeps.mk | (intro)

theorem takeOffset_keeps {s0 : State} {large : Bool} {v : Nat} {off : Int} {s : State} (hs : keeps s0 s) : keeps s0 (takeOffset large v off s) := by
  refine hs.trans ?_
  clear hs
  unfold takeOffset
  with_reducible repeat' first
    | assumption | exact keeps.refl _ | apply stepRing_keeps | apply steer_keeps | apply keeps.iteL | apply keeps.ite
    | split | apply keeps.set | (intro)

theorem heartbeatTime_keeps {s0 : State} {f : PairFrame} {s : State} (hs : keeps s0 s) : keeps s0 (heartbeatTime f s) := by
  refine hs.trans ?_
  clear hs
  unfold heartbeatTime
  with_reducible repeat' first
    | assumption | exact keeps.refl _ | apply takeOffset_keeps | apply mlEvent_keeps | apply keeps.iteL
    | apply keeps.ite | split | (intro)

theorem hoAccept_keeps {s0 : State} {s : State} (hs : keeps s0 s) : keeps s0 (hoAccept s) := by
  refine hs.trans ?_
  clear hs
  unfold hoAccept
  with_reducible repeat' first
    | assumption | exact keeps.refl _ | apply jStep_keeps | apply jOpen_keeps | apply hoSend_keeps
    | apply updPair_keeps | apply keeps.iteL | apply keeps.ite | split | (intro)

theorem hoComplete_keeps {s0 : State} {s : State} (hs : keeps s0 s) : keeps s0 (hoComplete s) := by
  refine hs.trans ?_
  clear hs
  unfold hoComplete
  with_reducible repeat' first
    | assumption | exact keeps.refl _ | apply pairEvent_keeps | apply jClose_keeps | apply jStep_keeps
    | apply updPair_keeps | (intro)

theorem hoDropped_keeps {s0 : State} {step : Nat} {otherActive : Bool} {s : State} (hs : keeps s0 s) : keeps s0 (hoDropped step otherActive s) := by
  refine hs.trans ?_
  clear hs
  unfold hoDropped
  with_reducible repeat' first
    | assumption | exact keeps.refl _ | apply allStandby_keeps | apply hoRollBack_keeps | apply keeps.iteL
    | apply keeps.ite | split | (intro)

theorem tickHeld_keeps {s0 : State} {n : Nat} {s : State} (hs : keeps s0 s) : keeps s0 (tickHeld n s) :=
  hs.skip (tickHeld_changes (F := [.eng]) rfl (changesOnly.refl _ _)) (by decide)

theorem takeOutputs_keeps {s0 : State} {s : State} (hs : keeps s0 s) : keeps s0 (takeOutputs s) := by
  refine hs.trans ?_
  clear hs
  unfold takeOutputs
  with_reducible repeat' first
    | assumption | exact keeps.refl _ | apply mirrorSeen_keeps | apply setReg_keeps | apply updRun_keeps
    | apply keeps.foldl | apply keeps.iteL | apply keeps.ite | split | (intro)

theorem takeCarried_keeps {s0 : State} {s : State} (hs : keeps s0 s) : keeps s0 (takeCarried s) := by
  refine hs.trans ?_
  clear hs
  unfold takeCarried
  with_reducible repeat' first
    | assumption | exact keeps.refl _ | apply mirrorSeen_keeps | apply updRun_keeps | apply forN_keeps | split
    | (intro)

theorem takeCommands_keeps {s0 : State} {s : State} (hs : keeps s0 s) : keeps s0 (takeCommands s) := by
  refine hs.trans ?_
  clear hs
  unfold takeCommands
  with_reducible repeat' first
    | assumption | exact keeps.refl _ | apply giveCommand_keeps | apply keeps.foldl | apply keeps.iteL
    | apply keeps.ite | split | (intro)

theorem sendOutput_keeps {s0 : State} {g : Nat} {v : Nat} {s : State} (hs : keeps s0 s) : keeps s0 (sendOutput g v s) :=
  hs.skip (sendOutput_changes (F := [.tx]) rfl (changesOnly.refl _ _)) (by decide)

theorem sendValue_keeps {s0 : State} {g : Option Nat} {v : Option Nat} {s : State} (hs : keeps s0 s) : keeps s0 (sendValue g v s) := by
  refine hs.trans ?_
  clear hs
  unfold sendValue
  with_reducible repeat' first
    | assumption | exact keeps.refl _ | apply sendOutput_keeps | apply setReg_keeps | split | (intro)

theorem sendBacklog_keeps {s0 : State} {g : Nat} {m : Nat} {s : State} (hs : keeps s0 s) : keeps s0 (sendBacklog g m s) :=
  hs.skip (sendBacklog_changes (F := [.tx]) rfl (changesOnly.refl _ _)) (by decide)

theorem sendOutputs_keeps {s0 : State} {s : State} (hs : keeps s0 s) : keeps s0 (sendOutputs s) := by
  refine hs.trans ?_
  clear hs
  unfold sendOutputs
  repeat' first
    | with_reducible assumption | with_reducible exact keeps.refl _ | with_reducible apply sendValue_keeps
    | with_reducible apply sendBacklog_keeps | with_reducible apply forN_keeps | with_reducible apply keeps.iteL
    | with_reducible apply keeps.ite | split | dsimp only | with_reducible (intro)

theorem hoEnter_keeps {s0 : State} {h : Nat} {s : State} (hs : keeps s0 s) : keeps s0 (hoEnter h s) := by
  refine hs.trans ?_
  clear hs
  unfold hoEnter
  with_reducible repeat' first
    | assumption | exact keeps.refl _ | apply roleChange_keeps | apply lateRuns_keeps | apply tickHeld_keeps
    | apply updPair_keeps | apply takeTotals_keeps | apply takeOutputs_keeps | apply takeCarried_keeps
    | apply takeCommands_keeps | apply hoComplete_keeps | apply sendOutputs_keeps | split | (intro)

theorem idleReports_keeps {s0 : State} {s : State} (hs : keeps s0 s) : keeps s0 (idleReports s) := by
  refine hs.trans ?_
  clear hs
  unfold idleReports
  with_reducible repeat' first
    | assumption | exact keeps.refl _ | apply updPair_keeps | apply hoSend_keeps | apply report_keeps
    | apply standbyForm_keeps | apply keeps.foldl | apply keeps.iteL | apply keeps.ite | split | (intro)

theorem releaseDie_keeps {s0 : State} {s : State} (hs : keeps s0 s) : keeps s0 (releaseDie s) := by
  refine hs.trans ?_
  clear hs
  unfold releaseDie
  with_reducible repeat' first
    | assumption | exact keeps.refl _ | apply bbEvent_keeps | apply keeps.set | (intro)

theorem logicReset_keeps {s0 : State} {cause : Nat} {die : DieSt} {s : State} (hs : keeps s0 s) : keeps s0 (logicReset cause die s) := by
  have k : keeps s0 (galReset (hallsUnclocked s)) := galReset_keeps (hallsUnclocked_keeps hs)
  unfold logicReset
  generalize galReset (hallsUnclocked s) = t at k ⊢
  refine keeps.mk (Nat.le_refl _) (fun _ => rfl) id id id id (fun this => ?_) k
  simp only [Canon.rams, Bool.and_eq_true] at this
  simp only [Canon.rams, Bool.and_eq_true]
  exact ⟨⟨⟨rfl, rfl⟩, this.1.2⟩, rfl⟩

theorem restart_keeps {s0 : State} {cause : Nat} {s : State} (hs : keeps s0 s) : keeps s0 (restart cause s) := by
  refine hs.trans ?_
  clear hs
  unfold restart
  with_reducible repeat' first
    | assumption | exact keeps.refl _ | apply releaseDie_keeps | apply logicReset_keeps | (intro)

theorem hoLeave_keeps {s0 : State} {s : State} (hs : keeps s0 s) : keeps s0 (hoLeave s) := by
  refine hs.trans ?_
  clear hs
  unfold hoLeave
  with_reducible repeat' first
    | assumption | exact keeps.refl _ | apply updPair_keeps | apply roleChange_keeps | apply idleReports_keeps
    | apply hoComplete_keeps | apply allStandby_keeps | apply tickHeld_keeps | apply restart_keeps
    | apply haltNow_keeps | apply keeps.iteL | apply keeps.ite | split | (intro)

theorem hoReady_keeps {s0 : State} {s : State} (hs : keeps s0 s) : keeps s0 (hoReady s) :=
  hs.skip (hoReady_changes (F := [.jnl, .pair]) rfl (changesOnly.refl _ _)) (by decide)

theorem hoTotals_keeps {s0 : State} {s : State} (hs : keeps s0 s) : keeps s0 (hoTotals s) :=
  hs.skip (hoTotals_changes (F := [.pair]) rfl (changesOnly.refl _ _)) (by decide)

theorem identifyChips_keeps {s0 : State} {f : StartFacts} {s : State} (hs : keeps s0 s) : keeps s0 (identifyChips f s) := by
  refine hs.trans ?_
  clear hs
  have e : keeps s { s with nv := { s.nv with
      c0 := { s.nv.c0 with known := f.chip0, present := f.chip0, failed := false, quad := f.quad0 && f.chip0, id := f.id0.toNat }
      c1 := { s.nv.c1 with known := f.chip1, present := f.chip1, failed := false, quad := f.quad1 && f.chip1, id := f.id1.toNat }
      mhz := f.mhz } } := keeps.mk (Nat.le_refl _) id id id id id id (keeps.refl s)
  unfold identifyChips
  exact keeps.ite (keeps.ite e (failChip_keeps e)) (failChip_keeps (keeps.ite e (failChip_keeps e)))

theorem idleSlots_keeps {s0 : State} {s : State} (hs : keeps s0 s) : keeps s0 (idleSlots s) := by
  refine hs.trans ?_
  clear hs
  unfold idleSlots
  with_reducible repeat' first
    | assumption | exact keeps.refl _ | apply updPair_keeps | apply lateRuns_keeps | apply keeps.set | (intro)

theorem idleTick_keeps {s0 : State} {s : State} (hs : keeps s0 s) : keeps s0 (idleTick s) := by
  refine hs.trans ?_
  clear hs
  unfold idleTick
  with_reducible repeat' first
    | assumption | exact keeps.refl _ | apply advance_keeps | (intro)

theorem imagePlan_keeps {s0 : State} {s : State} (hs : keeps s0 s) : keeps s0 (imagePlan s) := by
  refine hs.trans ?_
  clear hs
  unfold imagePlan
  with_reducible repeat' first
    | assumption | exact keeps.refl _ | apply setReg_keeps | apply wdPlan_keeps | apply cfgClamp_keeps
    | apply keeps.iteL | apply keeps.ite | split | (intro)

theorem imgChOut_keeps {s0 : State} {im : Img} {h : Nat} {c : Nat} {s : State} (hs : keeps s0 s) : keeps s0 (imgChOut im h c s) := by
  refine hs.trans ?_
  clear hs
  unfold imgChOut
  with_reducible repeat' first
    | assumption | exact keeps.refl _ | apply setReg_keeps | apply applyCommand_keeps | apply keeps.iteL
    | apply keeps.ite | split | (intro)

theorem imgClamps_keeps {s0 : State} {im : Img} {s : State} (hs : keeps s0 s) : keeps s0 (imgClamps im s) := by
  refine hs.trans ?_
  clear hs
  unfold imgClamps
  with_reducible repeat' first
    | assumption | exact keeps.refl _ | apply cfgClamp_keeps | apply keeps.foldl | apply keeps.iteL | apply keeps.ite
    | split | (intro)

theorem imgHeldB_keeps {s0 : State} {im : Img} {h : Nat} {s : State} (hs : keeps s0 s) : keeps s0 (imgHeldB im h s) := by
  refine hs.trans ?_
  clear hs
  unfold imgHeldB
  with_reducible repeat' first
    | assumption | exact keeps.refl _ | apply setReg_keeps | apply resolveAll_keeps | apply copyWord_keeps
    | apply keeps.foldl | apply keeps.iteL | apply keeps.ite | split | (intro)

theorem imgRefused_keeps {s0 : State} {r : ImgRefusal} {copy : Nat} {s : State} (hs : keeps s0 s) : keeps s0 (imgRefused r copy s) := by
  refine hs.trans ?_
  clear hs
  unfold imgRefused
  with_reducible repeat' first
    | assumption | exact keeps.refl _ | apply raiseBit_keeps | apply setReg_keeps | (intro)

theorem inputsMixed_keeps {s0 : State} {a : Nat} {e : Nat} {s : State} (hs : keeps s0 s) : keeps s0 (inputsMixed a e s) := by
  refine hs.trans ?_
  clear hs
  unfold inputsMixed
  with_reducible repeat' first
    | assumption | exact keeps.refl _ | apply updChan_keeps | apply forHalls_keeps | apply forChans_keeps
    | apply keeps.iteL | apply keeps.ite | split | (intro)

theorem inputsStandby_keeps {s0 : State} {a : Nat} {e : Nat} {s : State} (hs : keeps s0 s) : keeps s0 (inputsStandby a e s) := by
  refine hs.trans ?_
  clear hs
  unfold inputsStandby
  with_reducible repeat' first
    | assumption | exact keeps.refl _ | apply inputForm_keeps | apply forHalls_keeps | apply forChans_keeps
    | apply keeps.iteL | apply keeps.ite | split | (intro)

end Sys2Proof.Machine
end

