-- ==== Sys2Proof/Laws/Keeps9.lean ====
section
/-! SUPPORT. Every shared operation keeps the canonical form and the order of local time (part 10 of 12). -/

set_option linter.unusedTactic false
set_option linter.unreachableTactic false

namespace Sys2Proof.Machine

theorem jRecover_keeps {s0 : State} {s : State} (hs : keeps s0 s) : keeps s0 (jRecover s) := by
  refine hs.trans ?_
  clear hs
  unfold jRecover
  with_reducible repeat' first
    | assumption | exact keeps.refl _ | apply eccSeen_keeps | apply retWritten_keeps | apply keeps.foldl
    | apply keeps.iteL | apply keeps.ite | split | apply keeps.set | (intro)

theorem joinShadow_keeps {s0 : State} {h : Nat} {s : State} (hs : keeps s0 s) : keeps s0 (joinShadow h s) := by
  refine hs.trans ?_
  clear hs
  unfold joinShadow
  with_reducible repeat' first
    | assumption | exact keeps.refl _ | apply rotAbandon_keeps | apply dropShadow_keeps | apply updRot_keeps
    | apply updConv_keeps | apply keeps.iteL | apply keeps.ite | split | (intro)

theorem partnerLost_keeps {s0 : State} {s : State} (hs : keeps s0 s) : keeps s0 (partnerLost s) := by
  refine hs.trans ?_
  clear hs
  unfold partnerLost
  with_reducible repeat' first
    | assumption | exact keeps.refl _ | apply updPair_keeps | apply hoRollBack_keeps | apply pairEvent_keeps
    | apply keeps.iteL | apply keeps.ite | split | (intro)

theorem takeBacklogs_keeps {s0 : State} {s : State} (hs : keeps s0 s) : keeps s0 (takeBacklogs s) := by
  refine hs.trans ?_
  clear hs
  unfold takeBacklogs
  with_reducible repeat' first
    | assumption | exact keeps.refl _ | apply setReg_keeps | apply updRun_keeps | apply keeps.foldl
    | apply keeps.iteL | apply keeps.ite | split | (intro)

theorem lostTicks_keeps {s0 : State} {f : Nat} {s : State} (hs : keeps s0 s) : keeps s0 (lostTicks f s) := by
  refine hs.trans ?_
  clear hs
  unfold lostTicks
  repeat' first
    | with_reducible assumption | with_reducible exact keeps.refl _ | with_reducible apply modReg_keeps
    | with_reducible apply forN_keeps | with_reducible apply keeps.iteL | with_reducible apply keeps.ite | split
    | dsimp only | with_reducible (intro)

theorem takeoverTotals_keeps {s0 : State} {s : State} (hs : keeps s0 s) : keeps s0 (takeoverTotals s) := by
  refine hs.trans ?_
  clear hs
  unfold takeoverTotals
  with_reducible repeat' first
    | assumption | exact keeps.refl _ | apply takeTotals_keeps | apply raiseBit_keeps | apply updRun_keeps
    | apply lostTicks_keeps | apply tickHeld_keeps | apply forN_keeps | apply keeps.iteL | apply keeps.ite | split
    | (intro)

theorem takeover_keeps {s0 : State} {s : State} (hs : keeps s0 s) : keeps s0 (takeover s) := by
  refine hs.trans ?_
  clear hs
  unfold takeover
  with_reducible repeat' first
    | assumption | exact keeps.refl _ | apply roleChange_keeps | apply updPair_keeps | apply hoRollBack_keeps
    | apply jClose_keeps | apply jStep_keeps | apply jOpen_keeps | apply takeBacklogs_keeps
    | apply takeoverTotals_keeps | apply inputsMixed_keeps | apply pairEvent_keeps | apply keeps.iteL
    | apply keeps.ite | split | (intro)

theorem judge_keeps {s0 : State} {actIn : Bool} {s : State} (hs : keeps s0 s) : keeps s0 (judge actIn s) := by
  refine hs.trans ?_
  clear hs
  unfold judge
  with_reducible repeat' first
    | assumption | exact keeps.refl _ | apply partnerLost_keeps | apply pairEvent_keeps | apply updPair_keeps
    | apply takeover_keeps | apply keeps.iteL | apply keeps.ite | split | (intro)

theorem judgePoint_keeps {s0 : State} {n : Nat} {vsrc : Nat} {gain : Nat} {code : Int} {s : State} (hs : keeps s0 s) : keeps s0 (judgePoint n vsrc gain code s) := by
  refine hs.trans ?_
  clear hs
  unfold judgePoint
  with_reducible repeat' first
    | assumption | exact keeps.refl _ | apply updRot_keeps | apply keeps.iteL | apply keeps.ite | split | (intro)

theorem judgeRatio_keeps {s0 : State} {n : Nat} {code : Int} {s : State} (hs : keeps s0 s) : keeps s0 (judgeRatio n code s) := by
  refine hs.trans ?_
  clear hs
  unfold judgeRatio
  with_reducible repeat' first
    | assumption | exact keeps.refl _ | apply updRot_keeps | apply rotEvent_keeps | apply keeps.iteL
    | apply keeps.ite | split | (intro)

theorem ladderFailed_keeps {s0 : State} {h : Nat} {s : State} (hs : keeps s0 s) : keeps s0 (ladderFailed h s) := by
  refine hs.trans ?_
  clear hs
  unfold ladderFailed
  with_reducible repeat' first
    | assumption | exact keeps.refl _ | apply rotEvent_keeps | apply updRot_keeps | (intro)

theorem wantBack_keeps {s0 : State} {h : Nat} {t16 : Nat} {s : State} (hs : keeps s0 s) : keeps s0 (wantBack h t16 s) := by
  refine hs.trans ?_
  clear hs
  unfold wantBack
  with_reducible repeat' first
    | assumption | exact keeps.refl _ | apply updRot_keeps | apply joinBack_keeps | apply updConv_keeps | (intro)

theorem ladderVerdict_keeps {s0 : State} {n : Nat} {t16 : Nat} {s : State} (hs : keeps s0 s) : keeps s0 (ladderVerdict n t16 s) := by
  refine hs.trans ?_
  clear hs
  unfold ladderVerdict
  with_reducible repeat' first
    | assumption | exact keeps.refl _ | apply ladderFailed_keeps | apply retire_keeps | apply startLadder_keeps
    | apply updRot_keeps | apply updConv_keeps | apply wantBack_keeps | apply keeps.iteL | apply keeps.ite | split
    | (intro)

theorem ladderResult_keeps {s0 : State} {n : Nat} {code : Int} {t16 : Nat} {s : State} (hs : keeps s0 s) : keeps s0 (ladderResult n code t16 s) := by
  refine hs.trans ?_
  clear hs
  unfold ladderResult
  extract_lets x0
  with_reducible repeat' first
    | assumption | exact keeps.refl _ | apply judgeRatio_keeps | apply judgePoint_keeps | apply updRot_keeps
    | apply ladderVerdict_keeps | apply updConv_keeps | apply keeps.iteL | apply keeps.ite | split | (intro)

theorem ladderPoint_keeps {s0 : State} {n : Nat} {t16 : Nat} {x : Sample} {s : State} (hs : keeps s0 s) : keeps s0 (ladderPoint n t16 x s) := by
  refine hs.trans ?_
  clear hs
  unfold ladderPoint
  with_reducible repeat' first
    | assumption | exact keeps.refl _ | apply updConv_keeps | apply resultEvents_keeps | apply ladderResult_keeps
    | apply sendRec_keeps | (intro)

theorem latchPoutQ_keeps {s0 : State} {s : State} (hs : keeps s0 s) : keeps s0 (latchPoutQ s) :=
  hs.skip (latchPoutQ_changes (F := [.eng]) rfl (changesOnly.refl _ _)) (by decide)

theorem standbyLatch_keeps {s0 : State} {s : State} (hs : keeps s0 s) : keeps s0 (standbyLatch s) := by
  refine hs.trans ?_
  clear hs
  unfold standbyLatch
  with_reducible repeat' first
    | assumption | exact keeps.refl _ | apply alignRings_keeps | apply mirrorSeen_keeps | apply beginSlots_keeps
    | apply idleSlots_keeps | split | (intro)

theorem standbyCompare_keeps {s0 : State} {s : State} (hs : keeps s0 s) : keeps s0 (standbyCompare s) := by
  refine hs.trans ?_
  clear hs
  unfold standbyCompare
  with_reducible repeat' first
    | assumption | exact keeps.refl _ | apply updPair_keeps | apply takeTotals_keeps | apply diverge_keeps
    | apply keeps.iteL | apply keeps.ite | split | (intro)

theorem standbyJoin_keeps {s0 : State} {s : State} (hs : keeps s0 s) : keeps s0 (standbyJoin s) := by
  refine hs.trans ?_
  clear hs
  unfold standbyJoin
  with_reducible repeat' first
    | assumption | exact keeps.refl _ | apply takeTotals_keeps | apply balGap_keeps | apply gapUpTo_keeps
    | apply askCarried_keeps | apply tickHeld_keeps | apply updPair_keeps | split | (intro)

theorem standbyTake_keeps {s0 : State} {s : State} (hs : keeps s0 s) : keeps s0 (standbyTake s) := by
  refine hs.trans ?_
  clear hs
  unfold standbyTake
  with_reducible repeat' first
    | assumption | exact keeps.refl _ | apply tickHeld_keeps | apply takeTotals_keeps | apply updPair_keeps
    | apply takeCarried_keeps | split | (intro)

theorem standbyBoundary_keeps {s0 : State} {s : State} (hs : keeps s0 s) : keeps s0 (standbyBoundary s) := by
  refine hs.trans ?_
  clear hs
  unfold standbyBoundary
  with_reducible repeat' first
    | assumption | exact keeps.refl _ | apply standbyCompare_keeps | apply mirrorSeen_keeps | apply standbyJoin_keeps
    | apply standbyTake_keeps | apply keeps.iteL | apply keeps.ite | split | (intro)

theorem latchTick_keeps {s0 : State} {s : State} (hs : keeps s0 s) : keeps s0 (latchTick s) := by
  refine hs.trans ?_
  clear hs
  unfold latchTick
  with_reducible repeat' first
    | assumption | exact keeps.refl _ | apply balGap_keeps | apply idleSlots_keeps | apply updPair_keeps
    | apply standbyLatch_keeps | apply standbyBoundary_keeps | apply activeLatch_keeps | apply clearDeliveries_keeps
    | apply keeps.iteL | apply keeps.ite | split | (intro)

theorem portError_keeps {s0 : State} {p : Nat} {s : State} (hs : keeps s0 s) : keeps s0 (portError p s) := by
  refine hs.trans ?_
  clear hs
  unfold portError
  with_reducible repeat' first
    | assumption | exact keeps.refl _ | apply mlEvent_keeps | apply modReg_keeps | (intro)

theorem leaves_keeps {s0 : State} {form : Bool} {p : Nat} {f : MlFrame} {s : State} (hs : keeps s0 s) : keeps s0 (leaves form p f s) := by
  refine hs.trans ?_
  clear hs
  unfold leaves
  with_reducible repeat' first
    | assumption | exact keeps.refl _ | apply portError_keeps | apply updPort_keeps | apply keeps.iteL
    | apply keeps.ite | split | (intro)

theorem loadTime_keeps {s0 : State} {s : State} (hs : keeps s0 s) : keeps s0 (loadTime s) := by
  refine hs.trans ?_
  clear hs
  unfold loadTime
  with_reducible repeat' first
    | exact Nat.le_refl _ | exact id | assumption | exact keeps.refl _ | apply keeps.iteL | apply keeps.ite | split
    | apply keeps.set | exact Canon.flash_mk | exact Canon.rams_mk | exact Canon.rams_prog | apply keeps.mk | (intro)

theorem lockClocks_keeps {s0 : State} {f : StartFacts} {s : State} (hs : keeps s0 s) : keeps s0 (lockClocks f s) :=
  hs.skip (lockClocks_changes (F := [.free, .sync, .clk]) rfl (changesOnly.refl _ _)) (by decide)

theorem mailboxResponse_keeps {s0 : State} {e : AcyIn} {s : State} (hs : keeps s0 s) : keeps s0 (mailboxResponse e s) := by
  refine hs.trans ?_
  clear hs
  unfold mailboxResponse
  with_reducible repeat' first
    | assumption | exact keeps.refl _ | apply setReg_keeps | apply mbDone_keeps | apply forN_keeps | apply keeps.iteL
    | apply keeps.ite | split | (intro)

theorem markShort_keeps {s0 : State} {s : State} (hs : keeps s0 s) : keeps s0 (markShort s) :=
  hs.skip (markShort_changes (F := [.hp]) rfl (changesOnly.refl _ _)) (by decide)

theorem mirrorFrame_keeps {s0 : State} {f : PairFrame} {collide : Collision} {s : State} (hs : keeps s0 s) : keeps s0 (mirrorFrame f collide s) := by
  refine hs.trans ?_
  clear hs
  unfold mirrorFrame
  with_reducible repeat' first
    | assumption | exact keeps.refl _ | apply writeMirror_keeps | apply pairEvent_keeps | apply updPair_keeps
    | apply keeps.iteL | apply keeps.ite | split | (intro)

theorem mixedResult_keeps {s0 : State} {n : Nat} {e : Nat} {s : State} (hs : keeps s0 s) : keeps s0 (mixedResult n e s) := by
  refine hs.trans ?_
  clear hs
  unfold mixedResult
  with_reducible repeat' first
    | assumption | exact keeps.refl _ | apply restartAt_keeps | apply discardOpen_keeps | apply dropShadow_keeps
    | apply keeps.iteL | apply keeps.ite | split | (intro)

theorem monitorFlags_keeps {s0 : State} {h : Nat} {c : Nat} {i : Int} {hr : Int} {ref : Int} {s : State} (hs : keeps s0 s) : keeps s0 (monitorFlags h c i hr ref s) := by
  refine hs.trans ?_
  clear hs
  unfold monitorFlags
  with_reducible repeat' first
    | assumption | exact keeps.refl _ | apply updChan_keeps | apply chFlag_keeps | apply cutLatch_keeps
    | apply extDetected_keeps | apply keeps.iteL | apply keeps.ite | split | (intro)

theorem monitorRec_keeps {s0 : State} {h : Nat} {r : Rec} {s : State} (hs : keeps s0 s) : keeps s0 (monitorRec h r s) := by
  refine hs.trans ?_
  clear hs
  unfold monitorRec
  with_reducible repeat' first
    | assumption | exact keeps.refl _ | apply setReg_keeps | (intro)

theorem noteSlot_keeps {s0 : State} {n : Nat} {k : Nat} {s : State} (hs : keeps s0 s) : keeps s0 (noteSlot n k s) :=
  hs.skip (noteSlot_changes (F := [.pair]) rfl (changesOnly.refl _ _)) (by decide)

theorem noteRecords_keeps {s0 : State} {a : Nat} {len : Nat} {s : State} (hs : keeps s0 s) : keeps s0 (noteRecords a len s) :=
  hs.skip (noteRecords_changes (F := [.pair]) rfl (changesOnly.refl _ _)) (by decide)

theorem noteStall_keeps {s0 : State} {s : State} (hs : keeps s0 s) : keeps s0 (noteStall s) := by
  refine hs.trans ?_
  clear hs
  unfold noteStall
  with_reducible repeat' first
    | assumption | exact keeps.refl _ | apply takeFree_keeps | apply modReg_keeps | (intro)

theorem noteWait_keeps {s0 : State} {s : State} (hs : keeps s0 s) : keeps s0 (noteWait s) := by
  refine hs.trans ?_
  clear hs
  unfold noteWait
  with_reducible repeat' first
    | assumption | exact keeps.refl _ | apply takeFree_keeps | apply modReg_keeps | (intro)

theorem outputIdle_keeps {s0 : State} {h : Nat} {c : Nat} {s : State} (hs : keeps s0 s) : keeps s0 (outputIdle h c s) := by
  refine hs.trans ?_
  clear hs
  unfold outputIdle
  with_reducible repeat' first
    | assumption | exact keeps.refl _ | apply updChan_keeps | apply startRamp_keeps | apply resolve_keeps
    | apply keeps.iteL | apply keeps.ite | split | (intro)

theorem ownSubs_keeps {s0 : State} {s : State} (hs : keeps s0 s) : keeps s0 (ownSubs s) := by
  refine hs.trans ?_
  clear hs
  unfold ownSubs
  with_reducible repeat' first
    | assumption | exact keeps.refl _ | apply putSub_keeps | apply forN_keeps | apply keeps.iteL | apply keeps.ite
    | split | apply keeps.set | (intro)

theorem pairBad_keeps {s0 : State} {s : State} (hs : keeps s0 s) : keeps s0 (pairBad s) :=
  hs.skip (pairBad_changes (F := [.pair]) rfl (changesOnly.refl _ _)) (by decide)

theorem partnerJoin_keeps {s0 : State} {confirmed : Bool} {lag : Bool} {s : State} (hs : keeps s0 s) : keeps s0 (partnerJoin confirmed lag s) := by
  refine hs.trans ?_
  clear hs
  unfold partnerJoin
  with_reducible repeat' first
    | assumption | exact keeps.refl _ | apply pairEvent_keeps | apply updPair_keeps | apply keeps.iteL
    | apply keeps.ite | split | (intro)

theorem passOn_keeps {s0 : State} {form : Bool} {typ : Nat} {p : Nat} {f : MlFrame} {payload : List Byte} {s : State} (hs : keeps s0 s) : keeps s0 (passOn form typ p f payload s) := by
  refine hs.trans ?_
  clear hs
  unfold passOn
  with_reducible repeat' first
    | assumption | exact keeps.refl _ | apply relay_keeps | apply updPort_keeps | apply portError_keeps
    | apply keeps.iteL | apply keeps.ite | split | (intro)

theorem pastEnd_keeps {s0 : State} {a : Nat} {s : State} (hs : keeps s0 s) : keeps s0 (pastEnd a s) :=
  hs.skip (pastEnd_changes (F := [.hp]) rfl (changesOnly.refl _ _)) (by decide)

theorem periodStep_keeps {s0 : State} {s : State} (hs : keeps s0 s) : keeps s0 (periodStep s) := by
  refine hs.trans ?_
  clear hs
  unfold periodStep
  with_reducible repeat' first
    | assumption | exact keeps.refl _ | apply raiseBit_keeps | apply updKind_keeps | (intro)

theorem placeRec_keeps {s0 : State} {n : Nat} {r : Rec} {s : State} (hs : keeps s0 s) : keeps s0 (placeRec n r s) := by
  refine hs.trans ?_
  clear hs
  unfold placeRec
  with_reducible repeat' first
    | assumption | exact keeps.refl _ | apply writeMain_keeps | apply updConv_keeps | apply keeps.iteL
    | apply keeps.ite | split | apply keeps.set | (intro)

theorem publishRuns_keeps {s0 : State} {s : State} (hs : keeps s0 s) : keeps s0 (publishRuns s) := by
  refine hs.trans ?_
  clear hs
  unfold publishRuns
  with_reducible repeat' first
    | assumption | exact keeps.refl _ | apply setReg_keeps | apply forN_keeps | (intro)

theorem pulseReported_keeps {s0 : State} {m : Nat} {s : State} (hs : keeps s0 s) : keeps s0 (pulseReported m s) := by
  refine hs.trans ?_
  clear hs
  unfold pulseReported
  with_reducible repeat' first
    | assumption | exact keeps.refl _ | apply updRun_keeps | apply setReg_keeps | apply keeps.iteL | apply keeps.ite
    | split | (intro)

theorem pulseStart_keeps {s0 : State} {g : Nat} {s : State} (hs : keeps s0 s) : keeps s0 (pulseStart g s) := by
  refine hs.trans ?_
  clear hs
  unfold pulseStart
  extract_lets x0
  have hx0 : keeps s x0 := by
    unfold x0
    with_reducible repeat' first
      | assumption | exact keeps.refl _ | apply report_keeps | apply outputActive_keeps | apply sendBacklog_keeps
      | apply keeps.iteL | apply keeps.ite | split | (intro)
  clear_value x0
  with_reducible repeat' first
    | assumption | exact keeps.refl _ | apply report_keeps | apply outputActive_keeps | apply sendBacklog_keeps
    | apply keeps.iteL | apply keeps.ite | split | (intro)

theorem unitWidth_keeps {s0 : State} {wext : Nat} {s : State} (hs : keeps s0 s) : keeps s0 (unitWidth wext s).2 := by
  refine hs.trans ?_
  clear hs
  unfold unitWidth
  with_reducible repeat' first
    | assumption | exact keeps.refl _ | apply cfgClamp_keeps | apply keeps.iteL | apply keeps.ite | split | (intro)

theorem readWord_keeps {s0 : State} {ifc : Nat} {a : Nat} {s : State} (hs : keeps s0 s) : keeps s0 (readWord ifc a s).2 :=
  hs.skip (readWord_changes (F := [.latch]) rfl (changesOnly.refl _ _)) (by decide)

theorem readUnit_keeps {s0 : State} {fixed : Bool} {w : Nat} {a : Nat} {underrun : List Nat} {changed : Bool} {i : Nat} {s : State} (hs : keeps s0 s) : keeps s0 (readUnit fixed w a underrun changed i s) := by
  refine hs.trans ?_
  clear hs
  unfold readUnit
  with_reducible repeat' first
    | assumption | exact keeps.refl _ | apply readWord_keeps | apply raiseBit_keeps | apply takeFree_keeps
    | apply pastEnd_keeps | apply keeps.iteL | apply keeps.ite | split | apply keeps.set | (intro)

end Sys2Proof.Machine
end

