-- ==== Sys2Proof/Laws/Keeps10.lean ====
section
/-! SUPPORT. Every shared operation keeps the canonical form and the order of local time (part 11 of 12). -/

set_option linter.unusedTactic false
set_option linter.unreachableTactic false

namespace Sys2Proof.Machine

theorem readFrame_keeps {s0 : State} {fixed : Bool} {wext : Nat} {a : Nat} {n : Nat} {underrun : List Nat} {changed : Bool} {s : State} (hs : keeps s0 s) : keeps s0 (readFrame fixed wext a n underrun changed s) := by
  refine hs.trans ?_
  clear hs
  unfold readFrame
  with_reducible repeat' first
    | assumption | exact keeps.refl _ | apply unitWidth_keeps | apply readUnit_keeps | apply forN_keeps
    | apply keeps.set | (intro)

theorem readbackState_keeps {s0 : State} {h : Nat} {frc : BitVec 4} {s : State} (hs : keeps s0 s) : keeps s0 (readbackState h frc s) := by
  refine hs.trans ?_
  clear hs
  unfold readbackState
  with_reducible repeat' first
    | assumption | exact keeps.refl _ | apply chState_keeps | apply forChans_keeps | apply keeps.iteL
    | apply keeps.ite | split | (intro)

theorem recapturePeriods_keeps {s0 : State} {s : State} (hs : keeps s0 s) : keeps s0 (recapturePeriods s) := by
  refine hs.trans ?_
  clear hs
  unfold recapturePeriods
  with_reducible repeat' first
    | assumption | exact keeps.refl _ | apply periodWrite_keeps | apply capSound_keeps | apply keeps.foldl | split
    | (intro)

theorem recapture_keeps {s0 : State} {s : State} (hs : keeps s0 s) : keeps s0 (recapture s) := by
  refine hs.trans ?_
  clear hs
  unfold recapture
  with_reducible repeat' first
    | assumption | exact keeps.refl _ | apply ckptsBegin_keeps | apply recapturePeriods_keeps | apply capSound_keeps
    | apply keeps.foldl | split | (intro)

theorem takeMode_keeps {s0 : State} {h : Nat} {c : Nat} {m : Nat} {s : State} (hs : keeps s0 s) : keeps s0 (takeMode h c m s) := by
  refine hs.trans ?_
  clear hs
  unfold takeMode
  with_reducible repeat' first
    | assumption | exact keeps.refl _ | apply updChan_keeps | apply resolve_keeps | apply riskOf_keeps
    | apply keeps.iteL | apply keeps.ite | split | (intro)

theorem restoreLate_keeps {s0 : State} {h : Nat} {c : Nat} {s : State} (hs : keeps s0 s) : keeps s0 (restoreLate h c s) := by
  refine hs.trans ?_
  clear hs
  unfold restoreLate
  with_reducible repeat' first
    | assumption | exact keeps.refl _ | apply leaveSafe_keeps | apply updChan_keeps | (intro)

theorem releaseChannels_keeps {s0 : State} {h : Nat} {s : State} (hs : keeps s0 s) : keeps s0 (releaseChannels h s) := by
  refine hs.trans ?_
  clear hs
  unfold releaseChannels
  with_reducible repeat' first
    | assumption | exact keeps.refl _ | apply takeMode_keeps | apply standbyForm_keeps | apply updHall_keeps
    | apply restoreLate_keeps | apply resolve_keeps | apply leaveAll_keeps | apply forChans_keeps | apply keeps.iteL
    | apply keeps.ite | split | (intro)

theorem roleForm_keeps {s0 : State} {h : Nat} {c : Nat} {s : State} (hs : keeps s0 s) : keeps s0 (roleForm h c s) := by
  refine hs.trans ?_
  clear hs
  unfold roleForm
  with_reducible repeat' first
    | assumption | exact keeps.refl _ | apply activeForm_keeps | apply updChan_keeps | apply keeps.iteL
    | apply keeps.ite | split | (intro)

theorem releaseHall_keeps {s0 : State} {h : Nat} {s : State} (hs : keeps s0 s) : keeps s0 (releaseHall h s) := by
  refine hs.trans ?_
  clear hs
  unfold releaseHall
  with_reducible repeat' first
    | assumption | exact keeps.refl _ | apply leaveAll_keeps | apply roleForm_keeps | apply hallFlag_keeps
    | apply forChans_keeps | apply keeps.iteL | apply keeps.ite | split | (intro)

theorem reloadClose_keeps {s0 : State} {h : Nat} {s : State} (hs : keeps s0 s) : keeps s0 (reloadClose h s) := by
  refine hs.trans ?_
  clear hs
  unfold reloadClose
  with_reducible repeat' first
    | assumption | exact keeps.refl _ | apply raiseBit_keeps | apply dropReload_keeps | apply jClose_keeps
    | apply keeps.iteL | apply keeps.ite | split | (intro)

theorem updReload_keeps {s0 : State} {h : Nat} {f : Reload → Reload} {s : State} (hs : keeps s0 s) : keeps s0 (updReload h f s) :=
  hs.skip (updReload_changes (F := [.img]) rfl (changesOnly.refl _ _)) (by decide)

theorem takeSection_keeps {s0 : State} {im : Img} {h : Nat} {s : State} (hs : keeps s0 s) : keeps s0 (takeSection im h s) := by
  refine hs.trans ?_
  clear hs
  unfold takeSection
  with_reducible repeat' first
    | assumption | exact keeps.refl _ | apply updHall_keeps | apply takeBuffer_keeps | apply hallConfigured_keeps
    | apply updChan_keeps | apply forChans_keeps | (intro)

theorem reloadFlights_keeps {s0 : State} {h : Nat} {s : State} (hs : keeps s0 s) : keeps s0 (reloadFlights h s) := by
  refine hs.trans ?_
  clear hs
  unfold reloadFlights
  with_reducible repeat' first
    | assumption | exact keeps.refl _ | apply reloadClose_keeps | apply updReload_keeps | apply jStep_keeps
    | apply keeps.iteL | apply keeps.ite | split | (intro)

theorem reloadConfirm_keeps {s0 : State} {r : Reload} {s : State} (hs : keeps s0 s) : keeps s0 (reloadConfirm r s) := by
  refine hs.trans ?_
  clear hs
  unfold reloadConfirm
  with_reducible repeat' first
    | assumption | exact keeps.refl _ | apply updReload_keeps | apply jStep_keeps | apply takeSection_keeps
    | apply report_keeps | apply reloadFlights_keeps | apply startFlights_keeps | (intro)

theorem reloadDrop_keeps {s0 : State} {h : Nat} {s : State} (hs : keeps s0 s) : keeps s0 (reloadDrop h s) := by
  refine hs.trans ?_
  clear hs
  unfold reloadDrop
  with_reducible repeat' first
    | assumption | exact keeps.refl _ | apply jClose_keeps | apply dropReload_keeps | split | (intro)

theorem unlink_keeps {s0 : State} {h : Nat} {s : State} (hs : keeps s0 s) : keeps s0 (unlink h s) := by
  refine hs.trans ?_
  clear hs
  unfold unlink
  with_reducible repeat' first
    | assumption | exact keeps.refl _ | apply updHall_keeps | apply setReg_keeps | apply keeps.foldl
    | apply keeps.iteL | apply keeps.ite | split | (intro)

theorem reloadFail_keeps {s0 : State} {r : Reload} {s : State} (hs : keeps s0 s) : keeps s0 (reloadFail r s) := by
  refine hs.trans ?_
  clear hs
  unfold reloadFail
  with_reducible repeat' first
    | assumption | exact keeps.refl _ | apply jClose_keeps | apply dropReload_keeps | apply modReg_keeps
    | apply chanOff_keeps | apply unlink_keeps | apply updHall_keeps | apply setReg_keeps | apply raiseBit_keeps
    | apply activateNext_keeps | apply forChans_keeps | apply keeps.iteL | apply keeps.ite | split | apply keeps.set
    | (intro)

theorem repairCopy_keeps {s0 : State} {s : State} (hs : keeps s0 s) : keeps s0 (repairCopy s) := by
  refine hs.trans ?_
  clear hs
  unfold repairCopy
  with_reducible repeat' first
    | assumption | exact keeps.refl _ | apply jStep_keeps | apply jOpen_keeps | apply updChip_keeps
    | apply setCopy_keeps | apply addJob_keeps | apply keeps.iteL | apply keeps.ite | split | (intro)
    | exact merase_wf _ _ (by assumption) | exact mwrites_wf _ _ (by assumption)

theorem respond_keeps {s0 : State} {dst : Nat} {tag : Nat} {op : Nat} {data : List Byte} {s : State} (hs : keeps s0 s) : keeps s0 (respond dst tag op data s) :=
  hs.skip (respond_changes (F := [.ml]) rfl (changesOnly.refl _ _)) (by decide)

theorem shadowResult_keeps {s0 : State} {n : Nat} {t16 : Nat} {x : Sample} {s : State} (hs : keeps s0 s) : keeps s0 (shadowResult n t16 x s) := by
  refine hs.trans ?_
  clear hs
  unfold shadowResult
  with_reducible repeat' first
    | assumption | exact keeps.refl _ | apply updConv_keeps | apply resultEvents_keeps | apply sendRec_keeps
    | apply pairSide_keeps | apply keeps.iteL | apply keeps.ite | split | (intro)

theorem resultOf_keeps {s0 : State} {n : Nat} {v : ConvState} {x : Sample} {s : State} (hs : keeps s0 s) : keeps s0 (resultOf n v x s) := by
  refine hs.trans ?_
  clear hs
  unfold resultOf
  with_reducible repeat' first
    | assumption | exact keeps.refl _ | apply flightResult_keeps | apply shadowResult_keeps | apply ladderPoint_keeps
    | split | (intro)

theorem retentionLost_keeps {s0 : State} {s : State} (hs : keeps s0 s) : keeps s0 (retentionLost s) := by
  unfold retentionLost
  refine forHalls_keeps (fun h u => updHall_keeps (keeps.refl u))
    (hs.trans ⟨fun c => ⟨c.regs, c.halls, c.chans, c.convs, c.nv, ?_⟩, Nat.le_refl _⟩)
  have := c.mem
  simp only [Canon.rams, Bool.and_eq_true] at this
  simp only [Canon.rams, Bool.and_eq_true]
  exact ⟨⟨this.1.1, rfl⟩, this.2⟩

theorem ringReads_keeps {s0 : State} {n a : Nat} {s : State} (hs : keeps s0 s) : keeps s0 (ringReads n a s).2 := by
  exact hs.skip (ringReads_changes (F := [.latch]) rfl (changesOnly.refl _ _)) (by decide)

theorem ringWrites_keeps {s0 : State} {o : Origin} {mask : Word} {a : Nat} {l : List Word} {s : State} (hs : keeps s0 s) : keeps s0 (ringWrites o mask a l s).2 := by
  induction l generalizing a s with
  | nil => exact hs
  | cons w l ih =>
    simp only [ringWrites]
    split
    · exact writeReg_keeps hs
    · exact ih (writeReg_keeps hs)

theorem sagRamps_keeps {s0 : State} {h : Nat} {s : State} (hs : keeps s0 s) : keeps s0 (sagRamps h s) := by
  refine hs.trans ?_
  clear hs
  unfold sagRamps
  with_reducible repeat' first
    | assumption | exact keeps.refl _ | apply startRamp_keeps | apply forChans_keeps | apply keeps.iteL
    | apply keeps.ite | split | (intro)

theorem samplePulse_keeps {s0 : State} {h : Nat} {c : Nat} {s : State} (hs : keeps s0 s) : keeps s0 (samplePulse h c s) := by
  refine hs.trans ?_
  clear hs
  unfold samplePulse
  with_reducible repeat' first
    | assumption | exact keeps.refl _ | apply chState_keeps | apply keeps.iteL | apply keeps.ite | split | (intro)

theorem samplePulses_keeps {s0 : State} {s : State} (hs : keeps s0 s) : keeps s0 (samplePulses s) := by
  refine hs.trans ?_
  clear hs
  unfold samplePulses
  with_reducible repeat' first
    | assumption | exact keeps.refl _ | apply report_keeps | apply samplePulse_keeps | apply forHalls_keeps
    | apply forChans_keeps | apply keeps.iteL | apply keeps.ite | split | (intro)

theorem sampleTake_keeps {s0 : State} {g : Nat} {r : Rec} {s : State} (hs : keeps s0 s) : keeps s0 (sampleTake g r s) :=
  hs.skip (sampleTake_changes (F := [.bb]) rfl (changesOnly.refl _ _)) (by decide)

theorem sendAnswer_keeps {s0 : State} {s : State} (hs : keeps s0 s) : keeps s0 (sendAnswer s) :=
  hs.skip (sendAnswer_changes (F := [.tx, .pair]) rfl (changesOnly.refl _ _)) (by decide)

theorem sendHeartbeat_keeps {s0 : State} {h : Nat} {s : State} (hs : keeps s0 s) : keeps s0 (sendHeartbeat h s) := by
  refine hs.trans ?_
  clear hs
  unfold sendHeartbeat
  with_reducible repeat' first
    | assumption | exact keeps.refl _ | apply updHall_keeps | apply send_keeps | (intro)

theorem sendImageWord_keeps {s0 : State} {bs : List Byte} {i : Nat} {s : State} (hs : keeps s0 s) : keeps s0 (sendImageWord bs i s) :=
  hs.skip (sendImageWord_changes (F := [.tx, .pair]) rfl (changesOnly.refl _ _)) (by decide)

theorem sendStatus_keeps {s0 : State} {s : State} (hs : keeps s0 s) : keeps s0 (sendStatus s) :=
  hs.skip (sendStatus_changes (F := [.tx, .pair]) rfl (changesOnly.refl _ _)) (by decide)

theorem syncCommand_keeps {s0 : State} {t : Nat} {s : State} (hs : keeps s0 s) : keeps s0 (syncCommand t s) := by
  refine hs.trans ?_
  clear hs
  unfold syncCommand
  with_reducible repeat' first
    | assumption | exact keeps.refl _ | apply raiseBit_keeps | apply schedule_keeps | apply keeps.iteL
    | apply keeps.ite | split | (intro)

theorem serveRead_keeps {s0 : State} {src : Nat} {e : AcyIn} {s : State} (hs : keeps s0 s) : keeps s0 (serveRead src e s) :=
  hs.skip (serveRead_changes (F := [.ml, .latch]) rfl (changesOnly.refl _ _)) (by decide)

theorem serveWrite_keeps {s0 : State} {src : Nat} {e : AcyIn} {s : State} (hs : keeps s0 s) : keeps s0 (serveWrite src e s) := by
  refine hs.trans ?_
  clear hs
  unfold serveWrite
  extract_lets x0 x1 x2
  with_reducible repeat' first
    | assumption | exact keeps.refl _ | apply respond_keeps | apply ringWrites_keeps | apply keeps.iteL
    | apply keeps.ite | split | (intro)

theorem strCatchUp_keeps {s0 : State} {k : Nat} {s : State} (hs : keeps s0 s) : keeps s0 (strCatchUp k s).2 := by
  refine hs.trans ?_
  clear hs
  unfold strCatchUp
  extract_lets x0 x1 x2 x3 x4
  have hx2 : keeps s x2 := by
    unfold x2
    with_reducible repeat' first
      | assumption | exact keeps.refl _ | apply modReg_keeps | apply setStrPos_keeps | apply raiseBit_keeps
      | apply keeps.iteL | apply keeps.ite | split | apply keeps.set | (intro)
  clear_value x2
  with_reducible repeat' first
    | assumption | exact keeps.refl _ | apply modReg_keeps | apply setStrPos_keeps | apply raiseBit_keeps
    | apply keeps.iteL | apply keeps.ite | split | apply keeps.set | (intro)

theorem serveStream_keeps {s0 : State} {src : Nat} {e : AcyIn} {s : State} (hs : keeps s0 s) : keeps s0 (serveStream src e s) := by
  refine hs.trans ?_
  clear hs
  unfold serveStream
  extract_lets x0 x1 x2 x3 x4 x5 x6 x7 x8 x9
  have hx5 : keeps s x5 := by
    unfold x5
    with_reducible repeat' first
      | assumption | exact keeps.refl _ | apply respond_keeps | apply nameStream_keeps | apply seekTo_keeps
      | apply strCatchUp_keeps | apply setStrPos_keeps | apply keeps.iteL | apply keeps.ite | split | apply keeps.set
      | (intro)
  clear_value x5
  have hx7 : keeps s x7 := by
    unfold x7
    with_reducible repeat' first
      | assumption | exact keeps.refl _ | apply respond_keeps | apply nameStream_keeps | apply seekTo_keeps
      | apply strCatchUp_keeps | apply setStrPos_keeps | apply keeps.iteL | apply keeps.ite | split | apply keeps.set
      | (intro)
  clear_value x7
  with_reducible repeat' first
    | assumption | exact keeps.refl _ | apply respond_keeps | apply nameStream_keeps | apply seekTo_keeps
    | apply strCatchUp_keeps | apply setStrPos_keeps | apply keeps.iteL | apply keeps.ite | split | apply keeps.set
    | (intro)

theorem serveRequest_keeps {s0 : State} {src : Nat} {e : AcyIn} {s : State} (hs : keeps s0 s) : keeps s0 (serveRequest src e s) := by
  refine hs.trans ?_
  clear hs
  unfold serveRequest
  with_reducible repeat' first
    | assumption | exact keeps.refl _ | apply busyAnswer_keeps | apply serveRead_keeps | apply serveWrite_keeps
    | apply serveStream_keeps | apply keeps.iteL | apply keeps.ite | split | (intro)

theorem serveEntry_keeps {s0 : State} {src : Nat} {e : AcyIn} {s : State} (hs : keeps s0 s) : keeps s0 (serveEntry src e s) := by
  refine hs.trans ?_
  clear hs
  unfold serveEntry
  with_reducible repeat' first
    | assumption | exact keeps.refl _ | apply syncCommand_keeps | apply injectCommand_keeps
    | apply serveRequest_keeps | apply mailboxResponse_keeps | apply keeps.iteL | apply keeps.ite | split | (intro)

theorem settle_keeps {s0 : State} {s : State} (hs : keeps s0 s) : keeps s0 (settle s) :=
  hs.skip (settle_changes (F := [.bb, .pins]) rfl (changesOnly.refl _ _)) (by decide)

theorem settleActive_keeps {s0 : State} {single : Bool} {s : State} (hs : keeps s0 s) : keeps s0 (settleActive single s) := by
  refine hs.trans ?_
  clear hs
  unfold settleActive
  with_reducible repeat' first
    | assumption | exact keeps.refl _ | apply allActive_keeps | apply roleChange_keeps | apply updPair_keeps
    | (intro)

theorem settleImage_keeps {s0 : State} {lost : Bool} {e : JEntry} {s : State} (hs : keeps s0 s) : keeps s0 (settleImage lost e s) := by
  refine hs.trans ?_
  clear hs
  unfold settleImage
  with_reducible repeat' first
    | assumption | exact keeps.refl _ | apply jClose_keeps | apply eraseDamaged_keeps | apply nvErase_keeps
    | apply keeps.iteL | apply keeps.ite | split | (intro)

theorem settleStaged_keeps {s0 : State} {lost : Bool} {e : JEntry} {s : State} (hs : keeps s0 s) : keeps s0 (settleStaged lost e s) := by
  refine hs.trans ?_
  clear hs
  unfold settleStaged
  with_reducible repeat' first
    | assumption | exact keeps.refl _ | apply jClose_keeps | apply capSound_keeps | apply ckptsBegin_keeps
    | apply audit_keeps | apply keeps.foldl | apply keeps.iteL | apply keeps.ite | split | apply keeps.set | (intro)

theorem settleFlush_keeps {s0 : State} {e : JEntry} {s : State} (hs : keeps s0 s) : keeps s0 (settleFlush e s) := by
  refine hs.trans ?_
  clear hs
  unfold settleFlush
  extract_lets x0 x1 x2 x3 x4
  have hx0 : keeps s x0 := by
    unfold x0
    with_reducible repeat' first
      | assumption | exact keeps.refl _ | apply eccSeen_keeps | apply jClose_keeps | apply pushJob_keeps
      | apply ringPut_keeps | apply keeps.iteL | apply keeps.ite | split | (intro)
  clear_value x0
  have hx3 : keeps s x3 := by
    unfold x3
    with_reducible repeat' first
      | assumption | exact keeps.refl _ | apply eccSeen_keeps | apply jClose_keeps | apply pushJob_keeps
      | apply ringPut_keeps | apply keeps.iteL | apply keeps.ite | split | (intro)
  clear_value x3
  with_reducible repeat' first
    | assumption | exact keeps.refl _ | apply eccSeen_keeps | apply jClose_keeps | apply pushJob_keeps
    | apply ringPut_keeps | apply keeps.iteL | apply keeps.ite | split | (intro)

theorem settleEntry_keeps {s0 : State} {f : StartFacts} {lost : Bool} {e : JEntry} {s : State} (hs : keeps s0 s) : keeps s0 (settleEntry f lost e s) := by
  refine hs.trans ?_
  clear hs
  unfold settleEntry
  with_reducible repeat' first
    | assumption | exact keeps.refl _ | apply settleImage_keeps | apply jClose_keeps | apply settleStaged_keeps
    | apply settleFlush_keeps | apply keeps.iteL | apply keeps.ite | split | (intro)

theorem settleJournal_keeps {s0 : State} {f : StartFacts} {lost : Bool} {s : State} (hs : keeps s0 s) : keeps s0 (settleJournal f lost s) := by
  refine hs.trans ?_
  clear hs
  unfold settleJournal
  with_reducible repeat' first
    | assumption | exact keeps.refl _ | apply jRecover_keeps | apply settleReport_keeps | apply settleEntry_keeps
    | apply recapturePeriods_keeps | apply keeps.foldl | apply keeps.iteL | apply keeps.ite | split | (intro)

theorem settleStandby_keeps {s0 : State} {s : State} (hs : keeps s0 s) : keeps s0 (settleStandby s) := by
  refine hs.trans ?_
  clear hs
  unfold settleStandby
  with_reducible repeat' first
    | assumption | exact keeps.refl _ | apply allStandby_keeps | apply roleChange_keeps | apply pairEvent_keeps
    | apply updPair_keeps | apply keeps.iteL | apply keeps.ite | split | (intro)

theorem settleRole_keeps {s0 : State} {ans : PartnerAnswer} {actIn : Bool} {s : State} (hs : keeps s0 s) : keeps s0 (settleRole ans actIn s) := by
  refine hs.trans ?_
  clear hs
  unfold settleRole
  with_reducible repeat' first
    | assumption | exact keeps.refl _ | apply updPair_keeps | apply settleStandby_keeps | apply settleActive_keeps
    | apply pairEvent_keeps | apply keeps.iteL | apply keeps.ite | split | (intro)

theorem writeUnit_keeps {s0 : State} {k : Nat} {a : Nat} {v : Word} {s : State} (hs : keeps s0 s) : keeps s0 (writeUnit k a v s) := by
  refine hs.trans ?_
  clear hs
  unfold writeUnit
  with_reducible repeat' first
    | assumption | exact keeps.refl _ | apply pastEnd_keeps | apply cmdWrite_keeps | (intro)

theorem writeUnits_keeps {s0 : State} {fixed : Bool} {w a : Nat} {l : List Word} {s : State} (hs : keeps s0 s) : keeps s0 (writeUnits fixed w a l s) := by
  induction l generalizing a s with
  | nil => exact hs
  | cons v l ih => exact ih (writeUnit_keeps hs)

end Sys2Proof.Machine
end

