-- ==== Sys2Proof/Laws/Keeps11.lean ====
section
/-! SUPPORT. Every shared operation keeps the canonical form and the order of local time (part 12 of 12). -/

set_option linter.unusedTactic false
set_option linter.unreachableTactic false

namespace Sys2Proof.Machine

theorem writeFrame_keeps {s0 : State} {fixed : Bool} {wext a : Nat} {units : List Word} {s : State} (hs : keeps s0 s) : keeps s0 (writeFrame fixed wext a units s) := by
  exact writeUnits_keeps (unitWidth_keeps hs)

theorem shortFrame_keeps {s0 : State} {f : ShortFrame} {s : State} (hs : keeps s0 s) : keeps s0 (shortFrame f s) := by
  refine hs.trans ?_
  clear hs
  unfold shortFrame
  with_reducible repeat' first
    | assumption | exact keeps.refl _ | apply markShort_keeps | apply writeFrame_keeps | apply writeUnit_keeps
    | apply readFrame_keeps | apply keeps.iteL | apply keeps.ite | split | (intro)

theorem slotTrap_keeps {s0 : State} {m cycles : Nat} {trap : Option EngTrap} {s : State} {x : Nat × State}
    (hs : keeps s0 s) (h : slotTrap m cycles trap s = some x) : keeps s0 x.2 := by
  unfold slotTrap at h
  split at h
  · cases h; exact eccFound_keeps hs
  · cases h; exact eccMark_keeps (eccFound_keeps hs)
  · cases h; exact hs
  · cases h; exact hs
  · split at h
    · cases h; exact hs
    · cases h

theorem trapFreeze_keeps {s0 : State} {m : Nat} {cause : Nat} {s : State} (hs : keeps s0 s) : keeps s0 (trapFreeze m cause s) := by
  refine hs.trans ?_
  clear hs
  unfold trapFreeze
  with_reducible repeat' first
    | assumption | exact keeps.refl _ | apply freeze_keeps | apply keeps.iteL | apply keeps.ite | split
    | apply keeps.set | (intro)

theorem trapRun_keeps {s0 : State} {m : Nat} {cause : Nat} {cycles : Nat} {s : State} (hs : keeps s0 s) : keeps s0 (trapRun m cause cycles s) := by
  refine hs.trans ?_
  clear hs
  unfold trapRun
  with_reducible repeat' first
    | assumption | exact keeps.refl _ | apply totalize_keeps | apply updRun_keeps | apply pulseOut_keeps
    | apply runCycles_keeps | apply runStatus_keeps | apply modReg_keeps | apply afterRun_keeps
    | apply trapFreeze_keeps | (intro)

theorem slotRun_keeps {s0 : State} {m cycles : Nat} {trap : Option EngTrap} {s : State} (hs : keeps s0 s) : keeps s0 (slotRun m cycles trap s) := by
  unfold slotRun
  split
  · exact hs
  · split
    · next x hx => exact trapRun_keeps (slotTrap_keeps hs hx)
    · dsimp only
      split
      · split
        · exact completeRun_keeps hs
        · exact trapRun_keeps hs
      · exact trapRun_keeps hs

theorem slotEnd_keeps {s0 : State} {m : Nat} {cycles : Nat} {trap : Option EngTrap} {s : State} (hs : keeps s0 s) : keeps s0 (slotEnd m cycles trap s) := by
  refine hs.trans ?_
  clear hs
  unfold slotEnd
  with_reducible repeat' first
    | assumption | exact keeps.refl _ | apply moveTo_keeps | apply noteStall_keeps | apply slotRun_keeps
    | apply endTick_keeps | apply checkIn_keeps | apply keeps.iteL | apply keeps.ite | split | apply keeps.set
    | (intro)

theorem slotDone_keeps {s0 : State} {m : Nat} {cycles : Nat} {trap : Option EngTrap} {s : State} (hs : keeps s0 s) : keeps s0 (slotDone m cycles trap s) := by
  refine hs.trans ?_
  clear hs
  unfold slotDone
  with_reducible repeat' first
    | assumption | exact keeps.refl _ | apply backWords_keeps | apply slotEnd_keeps | apply putWords_keeps
    | apply handoverSend_keeps | apply lateRuns_keeps | apply keeps.iteL | apply keeps.ite | split | (intro)

theorem stageDrop_keeps {s0 : State} {s : State} (hs : keeps s0 s) : keeps s0 (stageDrop s) := by
  refine hs.trans ?_
  clear hs
  unfold stageDrop
  with_reducible repeat' first
    | assumption | exact keeps.refl _ | apply raiseBit_keeps | apply keeps.iteL | apply keeps.ite | split
    | apply keeps.set | (intro)

theorem startApplied_keeps {s0 : State} {s : State} (hs : keeps s0 s) : keeps s0 (startApplied s) :=
  hs.skip (startApplied_changes (F := [.clk]) rfl (changesOnly.refl _ _)) (by decide)

theorem startEcho_keeps {s0 : State} {p : Nat} {s : State} (hs : keeps s0 s) : keeps s0 (startEcho p s) :=
  hs.skip (startEcho_changes (F := [.ml, .tx]) rfl (changesOnly.refl _ _)) (by decide)

theorem streamFrame_keeps {s0 : State} {k : Nat} {peek : Bool} {nbytes : Nat} {s : State} (hs : keeps s0 s) : keeps s0 (streamFrame k peek nbytes s).2.2.2 := by
  refine hs.trans ?_
  clear hs
  unfold streamFrame
  extract_lets x0 x1 x2 x3 x4 x5 x6 x7 x8 x9 x10 x11 x12 x13
  have hx1 : keeps s x1 := by
    unfold x1
    with_reducible repeat' first
      | assumption | exact keeps.refl _ | apply strCatchUp_keeps | apply setStrPos_keeps | apply nameStream_keeps
      | apply keeps.iteL | apply keeps.ite | split | apply keeps.set | (intro)
  clear_value x1
  have hx11 : keeps s x11 := by
    unfold x11
    with_reducible repeat' first
      | assumption | exact keeps.refl _ | apply strCatchUp_keeps | apply setStrPos_keeps | apply nameStream_keeps
      | apply keeps.iteL | apply keeps.ite | split | apply keeps.set | (intro)
  clear_value x11
  have hx13 : keeps s x13 := by
    unfold x13
    with_reducible repeat' first
      | assumption | exact keeps.refl _ | apply strCatchUp_keeps | apply setStrPos_keeps | apply nameStream_keeps
      | apply keeps.iteL | apply keeps.ite | split | apply keeps.set | (intro)
  clear_value x13
  with_reducible repeat' first
    | assumption | exact keeps.refl _ | apply strCatchUp_keeps | apply setStrPos_keeps | apply nameStream_keeps
    | apply keeps.iteL | apply keeps.ite | split | apply keeps.set | (intro)

theorem streamDeliver_keeps {s0 : State} {stream : Nat} {peek : Bool} {nbytes : Nat} {s : State} (hs : keeps s0 s) : keeps s0 (streamDeliver stream peek nbytes s) := by
  refine hs.trans ?_
  clear hs
  unfold streamDeliver
  with_reducible repeat' first
    | assumption | exact keeps.refl _ | apply streamFrame_keeps | apply noteWait_keeps | apply keeps.set | (intro)

theorem swapAt_keeps {s0 : State} {n : Nat} {t16 : Nat} {s : State} (hs : keeps s0 s) : keeps s0 (swapAt n t16 s).2 := by
  refine hs.trans ?_
  clear hs
  unfold swapAt
  extract_lets x0 x1 x2
  with_reducible repeat' first
    | assumption | exact keeps.refl _ | apply swapToK1_keeps | apply swapBack_keeps | apply takeBack_keeps
    | apply keeps.iteL | apply keeps.ite | split | (intro)

theorem swapEngine_keeps {s0 : State} {im : Img} {s : State} (hs : keeps s0 s) : keeps s0 (swapEngine im s) := by
  refine hs.trans ?_
  clear hs
  unfold swapEngine
  with_reducible repeat' first
    | exact Nat.le_refl _ | exact id | assumption | exact keeps.refl _ | apply resetCarried_keeps
    | apply jClose_keeps | apply jStep_keeps | apply forN_keeps | apply keeps.iteL | apply keeps.ite | split
    | apply keeps.set | exact Canon.flash_mk | exact Canon.rams_mk | exact Canon.rams_prog | apply keeps.mk | (intro)

theorem switchIdle_keeps {s0 : State} {b : Nat} {s : State} (hs : keeps s0 s) : keeps s0 (switchIdle b s) := by
  refine hs.trans ?_
  clear hs
  unfold switchIdle
  with_reducible repeat' first
    | assumption | exact keeps.refl _ | apply idleSlots_keeps | apply keeps.iteL | apply keeps.ite | split | (intro)

theorem switchImage_keeps {s0 : State} {s : State} (hs : keeps s0 s) : keeps s0 (switchImage s) := by
  refine hs.trans ?_
  clear hs
  unfold switchImage
  with_reducible repeat' first
    | assumption | exact keeps.refl _ | apply swapEngine_keeps | apply imgClamps_keeps | apply applyWords_keeps
    | apply imgChOut_keeps | apply imgHeldB_keeps | apply report_keeps | apply updHall_keeps | apply syncOutOff_keeps
    | apply audit_keeps | apply stageDrop_keeps | apply setNewCopies_keeps | apply updImg_keeps | apply setReg_keeps
    | apply raiseBit_keeps | apply jClose_keeps | apply jStep_keeps | apply soloRole_keeps | apply forHalls_keeps
    | apply forChans_keeps | apply keeps.iteL | apply keeps.ite | split | apply keeps.set | (intro)

theorem switchLatch_keeps {s0 : State} {b : Nat} {s : State} (hs : keeps s0 s) : keeps s0 (switchLatch b s) := by
  refine hs.trans ?_
  clear hs
  unfold switchLatch
  with_reducible repeat' first
    | assumption | exact keeps.refl _ | apply activeLatch_keeps | apply keeps.iteL | apply keeps.ite | split
    | (intro)

theorem syncConv_keeps {s0 : State} {n : Nat} {t16 : Nat} {s : State} (hs : keeps s0 s) : keeps s0 (syncConv n t16 s) := by
  refine hs.trans ?_
  clear hs
  unfold syncConv
  with_reducible repeat' first
    | assumption | exact keeps.refl _ | apply leaveShadow_keeps | apply openWindow_keeps | apply discard_keeps
    | apply keeps.iteL | apply keeps.ite | split | (intro)

theorem syncDone_keeps {s0 : State} {g : Nat} {s : State} (hs : keeps s0 s) : keeps s0 (syncDone g s) := by
  refine hs.trans ?_
  clear hs
  unfold syncDone
  with_reducible repeat' first
    | assumption | exact keeps.refl _ | apply raiseBit_keeps | apply keeps.iteL | apply keeps.ite | split
    | apply keeps.set | (intro)

theorem syncPuls_keeps {s0 : State} {own : Nat} {s : State} (hs : keeps s0 s) : keeps s0 (syncPuls own s) := by
  refine hs.trans ?_
  clear hs
  unfold syncPuls
  with_reducible repeat' first
    | assumption | exact keeps.refl _ | apply pulsReset_keeps | apply keeps.iteL | apply keeps.ite | split | (intro)

theorem takeBoundary_keeps {s0 : State} {s : State} (hs : keeps s0 s) : keeps s0 (takeBoundary s) := by
  refine hs.trans ?_
  clear hs
  unfold takeBoundary
  with_reducible repeat' first
    | exact Nat.le_refl _ | exact id | assumption | exact keeps.refl _ | apply periodStep_keeps | apply galStep_keeps
    | apply keeps.iteL | apply keeps.ite | split | apply keeps.set | exact Canon.flash_mk | exact Canon.rams_mk
    | exact Canon.rams_prog | apply keeps.mk | (intro)

theorem takeCycleOut_keeps {s0 : State} {p : Nat} {s : State} (hs : keeps s0 s) : keeps s0 (takeCycleOut p s) :=
  hs.skip (takeCycleOut_changes (F := [.free]) rfl (changesOnly.refl _ _)) (by decide)

theorem takeTime_keeps {s0 : State} {p : Nat} {b : List Byte} {s : State} (hs : keeps s0 s) : keeps s0 (takeTime p b s) := by
  refine hs.trans ?_
  clear hs
  unfold takeTime
  with_reducible repeat' first
    | assumption | exact keeps.refl _ | apply updMl_keeps | apply takeOffset_keeps | apply takeCycleOut_keeps
    | apply mlEvent_keeps | apply keeps.iteL | apply keeps.ite | split | (intro)

theorem takeCycle_keeps {s0 : State} {p : Nat} {f : MlFrame} {s : State} (hs : keeps s0 s) : keeps s0 (takeCycle p f s) := by
  refine hs.trans ?_
  clear hs
  unfold takeCycle
  with_reducible repeat' first
    | assumption | exact keeps.refl _ | apply takeTime_keeps | apply updMl_keeps | apply checkIn_keeps
    | apply keeps.set | (intro)

theorem takeData_keeps {s0 : State} {f : MlFrame} {s : State} (hs : keeps s0 s) : keeps s0 (takeData f s) := by
  refine hs.trans ?_
  clear hs
  unfold takeData
  with_reducible repeat' first
    | assumption | exact keeps.refl _ | apply copyPoints_keeps | apply serveEntry_keeps | apply keeps.foldl
    | apply keeps.iteL | apply keeps.ite | split | (intro)

theorem takeHeartbeat_keeps {s0 : State} {f : PairFrame} {s : State} (hs : keeps s0 s) : keeps s0 (takeHeartbeat f s) := by
  refine hs.trans ?_
  clear hs
  unfold takeHeartbeat
  with_reducible repeat' first
    | assumption | exact keeps.refl _ | apply heartbeatTime_keeps | apply updPair_keeps | apply genCheck_keeps
    | apply partnerJoin_keeps | apply hoDropped_keeps | apply fenceNow_keeps | apply judge_keeps | apply keeps.iteL
    | apply keeps.ite | split | (intro)

theorem takeNewFlight_keeps {s0 : State} {own : Nat} {s : State} (hs : keeps s0 s) : keeps s0 (takeNewFlight own s) := by
  refine hs.trans ?_
  clear hs
  unfold takeNewFlight
  with_reducible repeat' first
    | assumption | exact keeps.refl _ | apply newFlightWords_keeps | apply rotAbandon_keeps | apply freeLadder_keeps
    | apply dropShadow_keeps | apply keeps.iteL | apply keeps.ite | split | (intro)

theorem tickEnded_keeps {s0 : State} {s : State} (hs : keeps s0 s) : keeps s0 (tickEnded s) := by
  refine hs.trans ?_
  clear hs
  unfold tickEnded
  with_reducible repeat' first
    | assumption | exact keeps.refl _ | apply sendOutputs_keeps | apply publishRuns_keeps | apply checkIn_keeps
    | apply sendTotals_keeps | apply keeps.iteL | apply keeps.ite | split | (intro)

theorem triggerAll_keeps {s0 : State} {b : Nat} {t16 : Nat} {s : State} (hs : keeps s0 s) : keeps s0 (triggerAll b t16 s) := by
  refine hs.trans ?_
  clear hs
  unfold triggerAll
  with_reducible repeat' first
    | assumption | exact keeps.refl _ | apply triggerBlock_keeps | apply forN_keeps | (intro)

theorem tryCopies_keeps {s0 : State} {l : List Nat} {s : State} (hs : keeps s0 s) : keeps s0 (tryCopies l s).2 := by
  induction l generalizing s with
  | nil => exact hs
  | cons i l ih =>
    simp only [tryCopies]
    split
    · exact keeps.set hs
    · exact ih (setCopy_keeps (imgRefused_keeps (keeps.set hs)))

theorem twoHeads_keeps {s0 : State} {s : State} (hs : keeps s0 s) : keeps s0 (twoHeads s) := by
  refine hs.trans ?_
  clear hs
  unfold twoHeads
  with_reducible repeat' first
    | assumption | exact keeps.refl _ | apply mlEvent_keeps | apply updMl_keeps | (intro)

theorem wbEffect_keeps {s0 : State} {h : Nat} {c : Nat} {band : Nat} {s : State} (hs : keeps s0 s) : keeps s0 (wbEffect h c band s) := by
  refine hs.trans ?_
  clear hs
  unfold wbEffect
  with_reducible repeat' first
    | assumption | exact keeps.refl _ | apply updChan_keeps | apply chFlag_keeps | apply chState_keeps
    | apply keeps.iteL | apply keeps.ite | split | (intro)

theorem wdExpire_keeps {s0 : State} {missing : Nat} {s : State} (hs : keeps s0 s) : keeps s0 (wdExpire missing s) := by
  refine hs.trans ?_
  clear hs
  unfold wdExpire
  with_reducible repeat' first
    | assumption | exact keeps.refl _ | apply freeze_keeps | apply logicReset_keeps | apply keeps.set | (intro)

theorem wdRestart_keeps {s0 : State} {late : Nat} {s : State} (hs : keeps s0 s) : keeps s0 (wdRestart late s) := by
  refine hs.trans ?_
  clear hs
  unfold wdRestart
  with_reducible repeat' first
    | assumption | exact keeps.refl _ | apply checkIn_keeps | apply forN_keeps | apply keeps.iteL | apply keeps.ite
    | split | apply keeps.set | (intro)

theorem windowEnd_keeps {s0 : State} {n : Nat} {v : ConvState} {x : Sample} {s : State} (hs : keeps s0 s) : keeps s0 (windowEnd n v x s) := by
  refine hs.trans ?_
  clear hs
  unfold windowEnd
  with_reducible repeat' first
    | assumption | exact keeps.refl _ | apply mixedResult_keeps | apply afterResult_keeps | apply resultOf_keeps
    | split | (intro)

end Sys2Proof.Machine
end

