-- ==== Sys2Proof/Laws/Regs.lean ====
section
/-! SUPPORT. Register frames: which registers an operation can write. -/

namespace Sys2Proof.Machine

theorem getReg_setReg_self (a : Nat) (v : Word) (s : State) : getReg (setReg a v s) a = v :=
  tget_tset_self _ _ a v

theorem getReg_setReg_other {a b : Nat} (h : b ≠ a) (v : Word) (s : State) : getReg (setReg a v s) b = getReg s b :=
  tget_tset_other _ _ h v

theorem getReg_congr {s t : State} (h : t.regs = s.regs) (a : Nat) : getReg t a = getReg s a := by
  unfold getReg; rw [h]

theorem regsOutside.refl (P : Nat → Prop) (s : State) : regsOutside P s s := fun _ _ => rfl

theorem regsOutside.trans {P : Nat → Prop} {s t u : State} (h : regsOutside P s t) (k : regsOutside P t u) :
    regsOutside P s u := fun a ha => (k a ha).trans (h a ha)

theorem regsOutside.mono {P Q : Nat → Prop} {s t : State} (h : regsOutside P s t) (hpq : ∀ a, P a → Q a) :
    regsOutside Q s t := fun a ha => h a fun hp => ha (hpq a hp)

theorem setReg_regs {P : Nat → Prop} {s0 s : State} {a : Nat} {v : Word} (hp : P a) (hs : regsOutside P s0 s) :
    regsOutside P s0 (setReg a v s) := fun b hb =>
  (getReg_setReg_other (fun e => hb (by rw [e]; exact hp)) v s).trans (hs b hb)

/-- An operation that leaves the register words alone. -/
theorem regsOutside.skip {P : Nat → Prop} {G : List Part} {s0 s t : State} (h : changesOnly G s t)
    (hn : Part.regs ∉ G) (hs : regsOutside P s0 s) : regsOutside P s0 t := fun a ha =>
  (getReg_congr (h .regs hn) a).trans (hs a ha)

/-- A record update that keeps the register words. -/
theorem regsOutside.set {P : Nat → Prop} {s u : State} {a0 a2 a3 a4 a5 a6 a7 a8 a9 a10 a11 a12 a13 a14 a15 a16 a17 a18 a19 a20 a21 a22 a23 a24 a25 a26 a27 a28 a29 a30 a31 a32}
    (hu : regsOutside P s u) :
    regsOutside P s (State.mk a0 u.regs a2 a3 a4 a5 a6 a7 a8 a9 a10 a11 a12 a13 a14 a15 a16 a17 a18 a19 a20 a21 a22 a23 a24 a25 a26 a27 a28 a29 a30 a31 a32) := hu

theorem regsOutside.ite {P : Nat → Prop} {s t u : State} {c : Prop} [Decidable c] (h : regsOutside P s t)
    (k : regsOutside P s u) : regsOutside P s (if c then t else u) := by split <;> assumption

theorem regsOutside.iteL {P : Nat → Prop} {s t u : State} {c : Prop} [Decidable c] (hu : regsOutside P s u)
    (h : regsOutside P s u → regsOutside P s t) : regsOutside P s (if c then t else u) := by
  split
  · exact h hu
  · exact hu

theorem regsOutside.foldl {α : Type} {P : Nat → Prop} {f : State → α → State} {s : State} {l : List α}
    (h : ∀ u x, x ∈ l → regsOutside P u (f u x)) {u : State} (hu : regsOutside P s u) : regsOutside P s (l.foldl f u) := by
  induction l generalizing u with
  | nil => exact hu
  | cons x l ih =>
    exact ih (fun u y hy => h u y (List.mem_cons_of_mem _ hy)) (hu.trans (h u x (List.mem_cons_self ..)))

theorem forChans_regs {P : Nat → Prop} {s u : State} {f : Nat → State → State}
    (h : ∀ c v, c < 4 → regsOutside P v (f c v)) (hu : regsOutside P s u) : regsOutside P s (forChans f u) :=
  (((hu.trans (h 0 _ (by omega))).trans (h 1 _ (by omega))).trans (h 2 _ (by omega))).trans (h 3 _ (by omega))

theorem forHalls_regs {P : Nat → Prop} {s u : State} {f : Nat → State → State}
    (h : ∀ c v, c < 8 → regsOutside P v (f c v)) (hu : regsOutside P s u) : regsOutside P s (forHalls f u) :=
  (((((((hu.trans (h 0 _ (by omega))).trans (h 1 _ (by omega))).trans (h 2 _ (by omega))).trans
    (h 3 _ (by omega))).trans (h 4 _ (by omega))).trans (h 5 _ (by omega))).trans (h 6 _ (by omega))).trans
    (h 7 _ (by omega))

theorem forN_regs {P : Nat → Prop} {s u : State} {n : Nat} {f : Nat → State → State}
    (h : ∀ c v, c < n → regsOutside P v (f c v)) (hu : regsOutside P s u) : regsOutside P s (forN n f u) :=
  regsOutside.foldl (fun v i hi => h i v (List.mem_range.1 hi)) hu

end Sys2Proof.Machine
end

