-- ==== Sys2Proof/Laws/State.lean ====
section
/-! SUPPORT. What the operations on one part of the state leave as it was, field by field, and what they put there. -/

namespace Sys2Proof.Machine

/-! setReg. -/

@[simp] theorem time_setReg (a : Nat) (v : Word) (s : State) : (setReg a v s).time = s.time := rfl
@[simp] theorem latch_setReg (a : Nat) (v : Word) (s : State) : (setReg a v s).latch = s.latch := rfl
@[simp] theorem hp_setReg (a : Nat) (v : Word) (s : State) : (setReg a v s).hp = s.hp := rfl
@[simp] theorem stg_setReg (a : Nat) (v : Word) (s : State) : (setReg a v s).stg = s.stg := rfl
@[simp] theorem str_setReg (a : Nat) (v : Word) (s : State) : (setReg a v s).str = s.str := rfl
@[simp] theorem halls_setReg (a : Nat) (v : Word) (s : State) : (setReg a v s).halls = s.halls := rfl
@[simp] theorem chans_setReg (a : Nat) (v : Word) (s : State) : (setReg a v s).chans = s.chans := rfl
@[simp] theorem convs_setReg (a : Nat) (v : Word) (s : State) : (setReg a v s).convs = s.convs := rfl
@[simp] theorem sync_setReg (a : Nat) (v : Word) (s : State) : (setReg a v s).sync = s.sync := rfl
@[simp] theorem newest_setReg (a : Nat) (v : Word) (s : State) : (setReg a v s).newest = s.newest := rfl
@[simp] theorem older_setReg (a : Nat) (v : Word) (s : State) : (setReg a v s).older = s.older := rfl
@[simp] theorem modes_setReg (a : Nat) (v : Word) (s : State) : (setReg a v s).modes = s.modes := rfl
@[simp] theorem curves_setReg (a : Nat) (v : Word) (s : State) : (setReg a v s).curves = s.curves := rfl
@[simp] theorem eng_setReg (a : Nat) (v : Word) (s : State) : (setReg a v s).eng = s.eng := rfl
@[simp] theorem runs_setReg (a : Nat) (v : Word) (s : State) : (setReg a v s).runs = s.runs := rfl
@[simp] theorem per_setReg (a : Nat) (v : Word) (s : State) : (setReg a v s).per = s.per := rfl
@[simp] theorem bal_setReg (a : Nat) (v : Word) (s : State) : (setReg a v s).bal = s.bal := rfl
@[simp] theorem aud_setReg (a : Nat) (v : Word) (s : State) : (setReg a v s).aud = s.aud := rfl
@[simp] theorem gal_setReg (a : Nat) (v : Word) (s : State) : (setReg a v s).gal = s.gal := rfl
@[simp] theorem bb_setReg (a : Nat) (v : Word) (s : State) : (setReg a v s).bb = s.bb := rfl
@[simp] theorem jnl_setReg (a : Nat) (v : Word) (s : State) : (setReg a v s).jnl = s.jnl := rfl
@[simp] theorem img_setReg (a : Nat) (v : Word) (s : State) : (setReg a v s).img = s.img := rfl
@[simp] theorem nv_setReg (a : Nat) (v : Word) (s : State) : (setReg a v s).nv = s.nv := rfl
@[simp] theorem mem_setReg (a : Nat) (v : Word) (s : State) : (setReg a v s).mem = s.mem := rfl
@[simp] theorem wd_setReg (a : Nat) (v : Word) (s : State) : (setReg a v s).wd = s.wd := rfl
@[simp] theorem clk_setReg (a : Nat) (v : Word) (s : State) : (setReg a v s).clk = s.clk := rfl
@[simp] theorem ml_setReg (a : Nat) (v : Word) (s : State) : (setReg a v s).ml = s.ml := rfl
@[simp] theorem pair_setReg (a : Nat) (v : Word) (s : State) : (setReg a v s).pair = s.pair := rfl
@[simp] theorem pins_setReg (a : Nat) (v : Word) (s : State) : (setReg a v s).pins = s.pins := rfl
@[simp] theorem tx_setReg (a : Nat) (v : Word) (s : State) : (setReg a v s).tx = s.tx := rfl
@[simp] theorem free_setReg (a : Nat) (v : Word) (s : State) : (setReg a v s).free = s.free := rfl
@[simp] theorem pending_setReg (a : Nat) (v : Word) (s : State) : (setReg a v s).pending = s.pending := rfl
@[simp] theorem getHall_setReg (a : Nat) (v : Word) (s : State) (k : Nat) : getHall (setReg a v s) k = getHall s k := rfl
@[simp] theorem getChan_setReg (a : Nat) (v : Word) (s : State) (k d : Nat) : getChan (setReg a v s) k d = getChan s k d := rfl
@[simp] theorem getConv_setReg (a : Nat) (v : Word) (s : State) (k : Nat) : getConv (setReg a v s) k = getConv s k := rfl
@[simp] theorem getRun_setReg (a : Nat) (v : Word) (s : State) (k : Nat) : getRun (setReg a v s) k = getRun s k := rfl

/-! modReg. -/

@[simp] theorem time_modReg (a : Nat) (f : Word → Word) (s : State) : (modReg a f s).time = s.time := rfl
@[simp] theorem latch_modReg (a : Nat) (f : Word → Word) (s : State) : (modReg a f s).latch = s.latch := rfl
@[simp] theorem hp_modReg (a : Nat) (f : Word → Word) (s : State) : (modReg a f s).hp = s.hp := rfl
@[simp] theorem stg_modReg (a : Nat) (f : Word → Word) (s : State) : (modReg a f s).stg = s.stg := rfl
@[simp] theorem str_modReg (a : Nat) (f : Word → Word) (s : State) : (modReg a f s).str = s.str := rfl
@[simp] theorem halls_modReg (a : Nat) (f : Word → Word) (s : State) : (modReg a f s).halls = s.halls := rfl
@[simp] theorem chans_modReg (a : Nat) (f : Word → Word) (s : State) : (modReg a f s).chans = s.chans := rfl
@[simp] theorem convs_modReg (a : Nat) (f : Word → Word) (s : State) : (modReg a f s).convs = s.convs := rfl
@[simp] theorem sync_modReg (a : Nat) (f : Word → Word) (s : State) : (modReg a f s).sync = s.sync := rfl
@[simp] theorem newest_modReg (a : Nat) (f : Word → Word) (s : State) : (modReg a f s).newest = s.newest := rfl
@[simp] theorem older_modReg (a : Nat) (f : Word → Word) (s : State) : (modReg a f s).older = s.older := rfl
@[simp] theorem modes_modReg (a : Nat) (f : Word → Word) (s : State) : (modReg a f s).modes = s.modes := rfl
@[simp] theorem curves_modReg (a : Nat) (f : Word → Word) (s : State) : (modReg a f s).curves = s.curves := rfl
@[simp] theorem eng_modReg (a : Nat) (f : Word → Word) (s : State) : (modReg a f s).eng = s.eng := rfl
@[simp] theorem runs_modReg (a : Nat) (f : Word → Word) (s : State) : (modReg a f s).runs = s.runs := rfl
@[simp] theorem per_modReg (a : Nat) (f : Word → Word) (s : State) : (modReg a f s).per = s.per := rfl
@[simp] theorem bal_modReg (a : Nat) (f : Word → Word) (s : State) : (modReg a f s).bal = s.bal := rfl
@[simp] theorem aud_modReg (a : Nat) (f : Word → Word) (s : State) : (modReg a f s).aud = s.aud := rfl
@[simp] theorem gal_modReg (a : Nat) (f : Word → Word) (s : State) : (modReg a f s).gal = s.gal := rfl
@[simp] theorem bb_modReg (a : Nat) (f : Word → Word) (s : State) : (modReg a f s).bb = s.bb := rfl
@[simp] theorem jnl_modReg (a : Nat) (f : Word → Word) (s : State) : (modReg a f s).jnl = s.jnl := rfl
@[simp] theorem img_modReg (a : Nat) (f : Word → Word) (s : State) : (modReg a f s).img = s.img := rfl
@[simp] theorem nv_modReg (a : Nat) (f : Word → Word) (s : State) : (modReg a f s).nv = s.nv := rfl
@[simp] theorem mem_modReg (a : Nat) (f : Word → Word) (s : State) : (modReg a f s).mem = s.mem := rfl
@[simp] theorem wd_modReg (a : Nat) (f : Word → Word) (s : State) : (modReg a f s).wd = s.wd := rfl
@[simp] theorem clk_modReg (a : Nat) (f : Word → Word) (s : State) : (modReg a f s).clk = s.clk := rfl
@[simp] theorem ml_modReg (a : Nat) (f : Word → Word) (s : State) : (modReg a f s).ml = s.ml := rfl
@[simp] theorem pair_modReg (a : Nat) (f : Word → Word) (s : State) : (modReg a f s).pair = s.pair := rfl
@[simp] theorem pins_modReg (a : Nat) (f : Word → Word) (s : State) : (modReg a f s).pins = s.pins := rfl
@[simp] theorem tx_modReg (a : Nat) (f : Word → Word) (s : State) : (modReg a f s).tx = s.tx := rfl
@[simp] theorem free_modReg (a : Nat) (f : Word → Word) (s : State) : (modReg a f s).free = s.free := rfl
@[simp] theorem pending_modReg (a : Nat) (f : Word → Word) (s : State) : (modReg a f s).pending = s.pending := rfl
@[simp] theorem getHall_modReg (a : Nat) (f : Word → Word) (s : State) (k : Nat) : getHall (modReg a f s) k = getHall s k := rfl
@[simp] theorem getChan_modReg (a : Nat) (f : Word → Word) (s : State) (k d : Nat) : getChan (modReg a f s) k d = getChan s k d := rfl
@[simp] theorem getConv_modReg (a : Nat) (f : Word → Word) (s : State) (k : Nat) : getConv (modReg a f s) k = getConv s k := rfl
@[simp] theorem getRun_modReg (a : Nat) (f : Word → Word) (s : State) (k : Nat) : getRun (modReg a f s) k = getRun s k := rfl

/-! updHall. -/

@[simp] theorem time_updHall (h : Nat) (f : HallState → HallState) (s : State) : (updHall h f s).time = s.time := rfl
@[simp] theorem regs_updHall (h : Nat) (f : HallState → HallState) (s : State) : (updHall h f s).regs = s.regs := rfl
@[simp] theorem latch_updHall (h : Nat) (f : HallState → HallState) (s : State) : (updHall h f s).latch = s.latch := rfl
@[simp] theorem hp_updHall (h : Nat) (f : HallState → HallState) (s : State) : (updHall h f s).hp = s.hp := rfl
@[simp] theorem stg_updHall (h : Nat) (f : HallState → HallState) (s : State) : (updHall h f s).stg = s.stg := rfl
@[simp] theorem str_updHall (h : Nat) (f : HallState → HallState) (s : State) : (updHall h f s).str = s.str := rfl
@[simp] theorem chans_updHall (h : Nat) (f : HallState → HallState) (s : State) : (updHall h f s).chans = s.chans := rfl
@[simp] theorem convs_updHall (h : Nat) (f : HallState → HallState) (s : State) : (updHall h f s).convs = s.convs := rfl
@[simp] theorem sync_updHall (h : Nat) (f : HallState → HallState) (s : State) : (updHall h f s).sync = s.sync := rfl
@[simp] theorem newest_updHall (h : Nat) (f : HallState → HallState) (s : State) : (updHall h f s).newest = s.newest := rfl
@[simp] theorem older_updHall (h : Nat) (f : HallState → HallState) (s : State) : (updHall h f s).older = s.older := rfl
@[simp] theorem modes_updHall (h : Nat) (f : HallState → HallState) (s : State) : (updHall h f s).modes = s.modes := rfl
@[simp] theorem curves_updHall (h : Nat) (f : HallState → HallState) (s : State) : (updHall h f s).curves = s.curves := rfl
@[simp] theorem eng_updHall (h : Nat) (f : HallState → HallState) (s : State) : (updHall h f s).eng = s.eng := rfl
@[simp] theorem runs_updHall (h : Nat) (f : HallState → HallState) (s : State) : (updHall h f s).runs = s.runs := rfl
@[simp] theorem per_updHall (h : Nat) (f : HallState → HallState) (s : State) : (updHall h f s).per = s.per := rfl
@[simp] theorem bal_updHall (h : Nat) (f : HallState → HallState) (s : State) : (updHall h f s).bal = s.bal := rfl
@[simp] theorem aud_updHall (h : Nat) (f : HallState → HallState) (s : State) : (updHall h f s).aud = s.aud := rfl
@[simp] theorem gal_updHall (h : Nat) (f : HallState → HallState) (s : State) : (updHall h f s).gal = s.gal := rfl
@[simp] theorem bb_updHall (h : Nat) (f : HallState → HallState) (s : State) : (updHall h f s).bb = s.bb := rfl
@[simp] theorem jnl_updHall (h : Nat) (f : HallState → HallState) (s : State) : (updHall h f s).jnl = s.jnl := rfl
@[simp] theorem img_updHall (h : Nat) (f : HallState → HallState) (s : State) : (updHall h f s).img = s.img := rfl
@[simp] theorem nv_updHall (h : Nat) (f : HallState → HallState) (s : State) : (updHall h f s).nv = s.nv := rfl
@[simp] theorem mem_updHall (h : Nat) (f : HallState → HallState) (s : State) : (updHall h f s).mem = s.mem := rfl
@[simp] theorem wd_updHall (h : Nat) (f : HallState → HallState) (s : State) : (updHall h f s).wd = s.wd := rfl
@[simp] theorem clk_updHall (h : Nat) (f : HallState → HallState) (s : State) : (updHall h f s).clk = s.clk := rfl
@[simp] theorem ml_updHall (h : Nat) (f : HallState → HallState) (s : State) : (updHall h f s).ml = s.ml := rfl
@[simp] theorem pair_updHall (h : Nat) (f : HallState → HallState) (s : State) : (updHall h f s).pair = s.pair := rfl
@[simp] theorem pins_updHall (h : Nat) (f : HallState → HallState) (s : State) : (updHall h f s).pins = s.pins := rfl
@[simp] theorem tx_updHall (h : Nat) (f : HallState → HallState) (s : State) : (updHall h f s).tx = s.tx := rfl
@[simp] theorem free_updHall (h : Nat) (f : HallState → HallState) (s : State) : (updHall h f s).free = s.free := rfl
@[simp] theorem pending_updHall (h : Nat) (f : HallState → HallState) (s : State) : (updHall h f s).pending = s.pending := rfl
@[simp] theorem getReg_updHall (h : Nat) (f : HallState → HallState) (s : State) (b : Nat) : getReg (updHall h f s) b = getReg s b := rfl
@[simp] theorem getChan_updHall (h : Nat) (f : HallState → HallState) (s : State) (k d : Nat) : getChan (updHall h f s) k d = getChan s k d := rfl
@[simp] theorem getConv_updHall (h : Nat) (f : HallState → HallState) (s : State) (k : Nat) : getConv (updHall h f s) k = getConv s k := rfl
@[simp] theorem getRun_updHall (h : Nat) (f : HallState → HallState) (s : State) (k : Nat) : getRun (updHall h f s) k = getRun s k := rfl

/-! setHcfg. -/

@[simp] theorem time_setHcfg (h a : Nat) (v : Word) (s : State) : (setHcfg h a v s).time = s.time := rfl
@[simp] theorem regs_setHcfg (h a : Nat) (v : Word) (s : State) : (setHcfg h a v s).regs = s.regs := rfl
@[simp] theorem latch_setHcfg (h a : Nat) (v : Word) (s : State) : (setHcfg h a v s).latch = s.latch := rfl
@[simp] theorem hp_setHcfg (h a : Nat) (v : Word) (s : State) : (setHcfg h a v s).hp = s.hp := rfl
@[simp] theorem stg_setHcfg (h a : Nat) (v : Word) (s : State) : (setHcfg h a v s).stg = s.stg := rfl
@[simp] theorem str_setHcfg (h a : Nat) (v : Word) (s : State) : (setHcfg h a v s).str = s.str := rfl
@[simp] theorem chans_setHcfg (h a : Nat) (v : Word) (s : State) : (setHcfg h a v s).chans = s.chans := rfl
@[simp] theorem convs_setHcfg (h a : Nat) (v : Word) (s : State) : (setHcfg h a v s).convs = s.convs := rfl
@[simp] theorem sync_setHcfg (h a : Nat) (v : Word) (s : State) : (setHcfg h a v s).sync = s.sync := rfl
@[simp] theorem newest_setHcfg (h a : Nat) (v : Word) (s : State) : (setHcfg h a v s).newest = s.newest := rfl
@[simp] theorem older_setHcfg (h a : Nat) (v : Word) (s : State) : (setHcfg h a v s).older = s.older := rfl
@[simp] theorem modes_setHcfg (h a : Nat) (v : Word) (s : State) : (setHcfg h a v s).modes = s.modes := rfl
@[simp] theorem curves_setHcfg (h a : Nat) (v : Word) (s : State) : (setHcfg h a v s).curves = s.curves := rfl
@[simp] theorem eng_setHcfg (h a : Nat) (v : Word) (s : State) : (setHcfg h a v s).eng = s.eng := rfl
@[simp] theorem runs_setHcfg (h a : Nat) (v : Word) (s : State) : (setHcfg h a v s).runs = s.runs := rfl
@[simp] theorem per_setHcfg (h a : Nat) (v : Word) (s : State) : (setHcfg h a v s).per = s.per := rfl
@[simp] theorem bal_setHcfg (h a : Nat) (v : Word) (s : State) : (setHcfg h a v s).bal = s.bal := rfl
@[simp] theorem aud_setHcfg (h a : Nat) (v : Word) (s : State) : (setHcfg h a v s).aud = s.aud := rfl
@[simp] theorem gal_setHcfg (h a : Nat) (v : Word) (s : State) : (setHcfg h a v s).gal = s.gal := rfl
@[simp] theorem bb_setHcfg (h a : Nat) (v : Word) (s : State) : (setHcfg h a v s).bb = s.bb := rfl
@[simp] theorem jnl_setHcfg (h a : Nat) (v : Word) (s : State) : (setHcfg h a v s).jnl = s.jnl := rfl
@[simp] theorem img_setHcfg (h a : Nat) (v : Word) (s : State) : (setHcfg h a v s).img = s.img := rfl
@[simp] theorem nv_setHcfg (h a : Nat) (v : Word) (s : State) : (setHcfg h a v s).nv = s.nv := rfl
@[simp] theorem mem_setHcfg (h a : Nat) (v : Word) (s : State) : (setHcfg h a v s).mem = s.mem := rfl
@[simp] theorem wd_setHcfg (h a : Nat) (v : Word) (s : State) : (setHcfg h a v s).wd = s.wd := rfl
@[simp] theorem clk_setHcfg (h a : Nat) (v : Word) (s : State) : (setHcfg h a v s).clk = s.clk := rfl
@[simp] theorem ml_setHcfg (h a : Nat) (v : Word) (s : State) : (setHcfg h a v s).ml = s.ml := rfl
@[simp] theorem pair_setHcfg (h a : Nat) (v : Word) (s : State) : (setHcfg h a v s).pair = s.pair := rfl
@[simp] theorem pins_setHcfg (h a : Nat) (v : Word) (s : State) : (setHcfg h a v s).pins = s.pins := rfl
@[simp] theorem tx_setHcfg (h a : Nat) (v : Word) (s : State) : (setHcfg h a v s).tx = s.tx := rfl
@[simp] theorem free_setHcfg (h a : Nat) (v : Word) (s : State) : (setHcfg h a v s).free = s.free := rfl
@[simp] theorem pending_setHcfg (h a : Nat) (v : Word) (s : State) : (setHcfg h a v s).pending = s.pending := rfl
@[simp] theorem getReg_setHcfg (h a : Nat) (v : Word) (s : State) (b : Nat) : getReg (setHcfg h a v s) b = getReg s b := rfl
@[simp] theorem getChan_setHcfg (h a : Nat) (v : Word) (s : State) (k d : Nat) : getChan (setHcfg h a v s) k d = getChan s k d := rfl
@[simp] theorem getConv_setHcfg (h a : Nat) (v : Word) (s : State) (k : Nat) : getConv (setHcfg h a v s) k = getConv s k := rfl
@[simp] theorem getRun_setHcfg (h a : Nat) (v : Word) (s : State) (k : Nat) : getRun (setHcfg h a v s) k = getRun s k := rfl

/-! updChan. -/

@[simp] theorem time_updChan (h c : Nat) (f : ChanState → ChanState) (s : State) : (updChan h c f s).time = s.time := rfl
@[simp] theorem regs_updChan (h c : Nat) (f : ChanState → ChanState) (s : State) : (updChan h c f s).regs = s.regs := rfl
@[simp] theorem latch_updChan (h c : Nat) (f : ChanState → ChanState) (s : State) : (updChan h c f s).latch = s.latch := rfl
@[simp] theorem hp_updChan (h c : Nat) (f : ChanState → ChanState) (s : State) : (updChan h c f s).hp = s.hp := rfl
@[simp] theorem stg_updChan (h c : Nat) (f : ChanState → ChanState) (s : State) : (updChan h c f s).stg = s.stg := rfl
@[simp] theorem str_updChan (h c : Nat) (f : ChanState → ChanState) (s : State) : (updChan h c f s).str = s.str := rfl
@[simp] theorem halls_updChan (h c : Nat) (f : ChanState → ChanState) (s : State) : (updChan h c f s).halls = s.halls := rfl
@[simp] theorem convs_updChan (h c : Nat) (f : ChanState → ChanState) (s : State) : (updChan h c f s).convs = s.convs := rfl
@[simp] theorem sync_updChan (h c : Nat) (f : ChanState → ChanState) (s : State) : (updChan h c f s).sync = s.sync := rfl
@[simp] theorem newest_updChan (h c : Nat) (f : ChanState → ChanState) (s : State) : (updChan h c f s).newest = s.newest := rfl
@[simp] theorem older_updChan (h c : Nat) (f : ChanState → ChanState) (s : State) : (updChan h c f s).older = s.older := rfl
@[simp] theorem modes_updChan (h c : Nat) (f : ChanState → ChanState) (s : State) : (updChan h c f s).modes = s.modes := rfl
@[simp] theorem curves_updChan (h c : Nat) (f : ChanState → ChanState) (s : State) : (updChan h c f s).curves = s.curves := rfl
@[simp] theorem eng_updChan (h c : Nat) (f : ChanState → ChanState) (s : State) : (updChan h c f s).eng = s.eng := rfl
@[simp] theorem runs_updChan (h c : Nat) (f : ChanState → ChanState) (s : State) : (updChan h c f s).runs = s.runs := rfl
@[simp] theorem per_updChan (h c : Nat) (f : ChanState → ChanState) (s : State) : (updChan h c f s).per = s.per := rfl
@[simp] theorem bal_updChan (h c : Nat) (f : ChanState → ChanState) (s : State) : (updChan h c f s).bal = s.bal := rfl
@[simp] theorem aud_updChan (h c : Nat) (f : ChanState → ChanState) (s : State) : (updChan h c f s).aud = s.aud := rfl
@[simp] theorem gal_updChan (h c : Nat) (f : ChanState → ChanState) (s : State) : (updChan h c f s).gal = s.gal := rfl
@[simp] theorem bb_updChan (h c : Nat) (f : ChanState → ChanState) (s : State) : (updChan h c f s).bb = s.bb := rfl
@[simp] theorem jnl_updChan (h c : Nat) (f : ChanState → ChanState) (s : State) : (updChan h c f s).jnl = s.jnl := rfl
@[simp] theorem img_updChan (h c : Nat) (f : ChanState → ChanState) (s : State) : (updChan h c f s).img = s.img := rfl
@[simp] theorem nv_updChan (h c : Nat) (f : ChanState → ChanState) (s : State) : (updChan h c f s).nv = s.nv := rfl
@[simp] theorem mem_updChan (h c : Nat) (f : ChanState → ChanState) (s : State) : (updChan h c f s).mem = s.mem := rfl
@[simp] theorem wd_updChan (h c : Nat) (f : ChanState → ChanState) (s : State) : (updChan h c f s).wd = s.wd := rfl
@[simp] theorem clk_updChan (h c : Nat) (f : ChanState → ChanState) (s : State) : (updChan h c f s).clk = s.clk := rfl
@[simp] theorem ml_updChan (h c : Nat) (f : ChanState → ChanState) (s : State) : (updChan h c f s).ml = s.ml := rfl
@[simp] theorem pair_updChan (h c : Nat) (f : ChanState → ChanState) (s : State) : (updChan h c f s).pair = s.pair := rfl
@[simp] theorem pins_updChan (h c : Nat) (f : ChanState → ChanState) (s : State) : (updChan h c f s).pins = s.pins := rfl
@[simp] theorem tx_updChan (h c : Nat) (f : ChanState → ChanState) (s : State) : (updChan h c f s).tx = s.tx := rfl
@[simp] theorem free_updChan (h c : Nat) (f : ChanState → ChanState) (s : State) : (updChan h c f s).free = s.free := rfl
@[simp] theorem pending_updChan (h c : Nat) (f : ChanState → ChanState) (s : State) : (updChan h c f s).pending = s.pending := rfl
@[simp] theorem getReg_updChan (h c : Nat) (f : ChanState → ChanState) (s : State) (b : Nat) : getReg (updChan h c f s) b = getReg s b := rfl
@[simp] theorem getHall_updChan (h c : Nat) (f : ChanState → ChanState) (s : State) (k : Nat) : getHall (updChan h c f s) k = getHall s k := rfl
@[simp] theorem getConv_updChan (h c : Nat) (f : ChanState → ChanState) (s : State) (k : Nat) : getConv (updChan h c f s) k = getConv s k := rfl
@[simp] theorem getRun_updChan (h c : Nat) (f : ChanState → ChanState) (s : State) (k : Nat) : getRun (updChan h c f s) k = getRun s k := rfl

/-! updConv. -/

@[simp] theorem time_updConv (n : Nat) (f : ConvState → ConvState) (s : State) : (updConv n f s).time = s.time := rfl
@[simp] theorem regs_updConv (n : Nat) (f : ConvState → ConvState) (s : State) : (updConv n f s).regs = s.regs := rfl
@[simp] theorem latch_updConv (n : Nat) (f : ConvState → ConvState) (s : State) : (updConv n f s).latch = s.latch := rfl
@[simp] theorem hp_updConv (n : Nat) (f : ConvState → ConvState) (s : State) : (updConv n f s).hp = s.hp := rfl
@[simp] theorem stg_updConv (n : Nat) (f : ConvState → ConvState) (s : State) : (updConv n f s).stg = s.stg := rfl
@[simp] theorem str_updConv (n : Nat) (f : ConvState → ConvState) (s : State) : (updConv n f s).str = s.str := rfl
@[simp] theorem halls_updConv (n : Nat) (f : ConvState → ConvState) (s : State) : (updConv n f s).halls = s.halls := rfl
@[simp] theorem chans_updConv (n : Nat) (f : ConvState → ConvState) (s : State) : (updConv n f s).chans = s.chans := rfl
@[simp] theorem sync_updConv (n : Nat) (f : ConvState → ConvState) (s : State) : (updConv n f s).sync = s.sync := rfl
@[simp] theorem newest_updConv (n : Nat) (f : ConvState → ConvState) (s : State) : (updConv n f s).newest = s.newest := rfl
@[simp] theorem older_updConv (n : Nat) (f : ConvState → ConvState) (s : State) : (updConv n f s).older = s.older := rfl
@[simp] theorem modes_updConv (n : Nat) (f : ConvState → ConvState) (s : State) : (updConv n f s).modes = s.modes := rfl
@[simp] theorem curves_updConv (n : Nat) (f : ConvState → ConvState) (s : State) : (updConv n f s).curves = s.curves := rfl
@[simp] theorem eng_updConv (n : Nat) (f : ConvState → ConvState) (s : State) : (updConv n f s).eng = s.eng := rfl
@[simp] theorem runs_updConv (n : Nat) (f : ConvState → ConvState) (s : State) : (updConv n f s).runs = s.runs := rfl
@[simp] theorem per_updConv (n : Nat) (f : ConvState → ConvState) (s : State) : (updConv n f s).per = s.per := rfl
@[simp] theorem bal_updConv (n : Nat) (f : ConvState → ConvState) (s : State) : (updConv n f s).bal = s.bal := rfl
@[simp] theorem aud_updConv (n : Nat) (f : ConvState → ConvState) (s : State) : (updConv n f s).aud = s.aud := rfl
@[simp] theorem gal_updConv (n : Nat) (f : ConvState → ConvState) (s : State) : (updConv n f s).gal = s.gal := rfl
@[simp] theorem bb_updConv (n : Nat) (f : ConvState → ConvState) (s : State) : (updConv n f s).bb = s.bb := rfl
@[simp] theorem jnl_updConv (n : Nat) (f : ConvState → ConvState) (s : State) : (updConv n f s).jnl = s.jnl := rfl
@[simp] theorem img_updConv (n : Nat) (f : ConvState → ConvState) (s : State) : (updConv n f s).img = s.img := rfl
@[simp] theorem nv_updConv (n : Nat) (f : ConvState → ConvState) (s : State) : (updConv n f s).nv = s.nv := rfl
@[simp] theorem mem_updConv (n : Nat) (f : ConvState → ConvState) (s : State) : (updConv n f s).mem = s.mem := rfl
@[simp] theorem wd_updConv (n : Nat) (f : ConvState → ConvState) (s : State) : (updConv n f s).wd = s.wd := rfl
@[simp] theorem clk_updConv (n : Nat) (f : ConvState → ConvState) (s : State) : (updConv n f s).clk = s.clk := rfl
@[simp] theorem ml_updConv (n : Nat) (f : ConvState → ConvState) (s : State) : (updConv n f s).ml = s.ml := rfl
@[simp] theorem pair_updConv (n : Nat) (f : ConvState → ConvState) (s : State) : (updConv n f s).pair = s.pair := rfl
@[simp] theorem pins_updConv (n : Nat) (f : ConvState → ConvState) (s : State) : (updConv n f s).pins = s.pins := rfl
@[simp] theorem tx_updConv (n : Nat) (f : ConvState → ConvState) (s : State) : (updConv n f s).tx = s.tx := rfl
@[simp] theorem free_updConv (n : Nat) (f : ConvState → ConvState) (s : State) : (updConv n f s).free = s.free := rfl
@[simp] theorem pending_updConv (n : Nat) (f : ConvState → ConvState) (s : State) : (updConv n f s).pending = s.pending := rfl
@[simp] theorem getReg_updConv (n : Nat) (f : ConvState → ConvState) (s : State) (b : Nat) : getReg (updConv n f s) b = getReg s b := rfl
@[simp] theorem getHall_updConv (n : Nat) (f : ConvState → ConvState) (s : State) (k : Nat) : getHall (updConv n f s) k = getHall s k := rfl
@[simp] theorem getChan_updConv (n : Nat) (f : ConvState → ConvState) (s : State) (k d : Nat) : getChan (updConv n f s) k d = getChan s k d := rfl
@[simp] theorem getRun_updConv (n : Nat) (f : ConvState → ConvState) (s : State) (k : Nat) : getRun (updConv n f s) k = getRun s k := rfl

/-! updRun. -/

@[simp] theorem time_updRun (m : Nat) (f : RunSt → RunSt) (s : State) : (updRun m f s).time = s.time := rfl
@[simp] theorem regs_updRun (m : Nat) (f : RunSt → RunSt) (s : State) : (updRun m f s).regs = s.regs := rfl
@[simp] theorem latch_updRun (m : Nat) (f : RunSt → RunSt) (s : State) : (updRun m f s).latch = s.latch := rfl
@[simp] theorem hp_updRun (m : Nat) (f : RunSt → RunSt) (s : State) : (updRun m f s).hp = s.hp := rfl
@[simp] theorem stg_updRun (m : Nat) (f : RunSt → RunSt) (s : State) : (updRun m f s).stg = s.stg := rfl
@[simp] theorem str_updRun (m : Nat) (f : RunSt → RunSt) (s : State) : (updRun m f s).str = s.str := rfl
@[simp] theorem halls_updRun (m : Nat) (f : RunSt → RunSt) (s : State) : (updRun m f s).halls = s.halls := rfl
@[simp] theorem chans_updRun (m : Nat) (f : RunSt → RunSt) (s : State) : (updRun m f s).chans = s.chans := rfl
@[simp] theorem convs_updRun (m : Nat) (f : RunSt → RunSt) (s : State) : (updRun m f s).convs = s.convs := rfl
@[simp] theorem sync_updRun (m : Nat) (f : RunSt → RunSt) (s : State) : (updRun m f s).sync = s.sync := rfl
@[simp] theorem newest_updRun (m : Nat) (f : RunSt → RunSt) (s : State) : (updRun m f s).newest = s.newest := rfl
@[simp] theorem older_updRun (m : Nat) (f : RunSt → RunSt) (s : State) : (updRun m f s).older = s.older := rfl
@[simp] theorem modes_updRun (m : Nat) (f : RunSt → RunSt) (s : State) : (updRun m f s).modes = s.modes := rfl
@[simp] theorem curves_updRun (m : Nat) (f : RunSt → RunSt) (s : State) : (updRun m f s).curves = s.curves := rfl
@[simp] theorem eng_updRun (m : Nat) (f : RunSt → RunSt) (s : State) : (updRun m f s).eng = s.eng := rfl
@[simp] theorem per_updRun (m : Nat) (f : RunSt → RunSt) (s : State) : (updRun m f s).per = s.per := rfl
@[simp] theorem bal_updRun (m : Nat) (f : RunSt → RunSt) (s : State) : (updRun m f s).bal = s.bal := rfl
@[simp] theorem aud_updRun (m : Nat) (f : RunSt → RunSt) (s : State) : (updRun m f s).aud = s.aud := rfl
@[simp] theorem gal_updRun (m : Nat) (f : RunSt → RunSt) (s : State) : (updRun m f s).gal = s.gal := rfl
@[simp] theorem bb_updRun (m : Nat) (f : RunSt → RunSt) (s : State) : (updRun m f s).bb = s.bb := rfl
@[simp] theorem jnl_updRun (m : Nat) (f : RunSt → RunSt) (s : State) : (updRun m f s).jnl = s.jnl := rfl
@[simp] theorem img_updRun (m : Nat) (f : RunSt → RunSt) (s : State) : (updRun m f s).img = s.img := rfl
@[simp] theorem nv_updRun (m : Nat) (f : RunSt → RunSt) (s : State) : (updRun m f s).nv = s.nv := rfl
@[simp] theorem mem_updRun (m : Nat) (f : RunSt → RunSt) (s : State) : (updRun m f s).mem = s.mem := rfl
@[simp] theorem wd_updRun (m : Nat) (f : RunSt → RunSt) (s : State) : (updRun m f s).wd = s.wd := rfl
@[simp] theorem clk_updRun (m : Nat) (f : RunSt → RunSt) (s : State) : (updRun m f s).clk = s.clk := rfl
@[simp] theorem ml_updRun (m : Nat) (f : RunSt → RunSt) (s : State) : (updRun m f s).ml = s.ml := rfl
@[simp] theorem pair_updRun (m : Nat) (f : RunSt → RunSt) (s : State) : (updRun m f s).pair = s.pair := rfl
@[simp] theorem pins_updRun (m : Nat) (f : RunSt → RunSt) (s : State) : (updRun m f s).pins = s.pins := rfl
@[simp] theorem tx_updRun (m : Nat) (f : RunSt → RunSt) (s : State) : (updRun m f s).tx = s.tx := rfl
@[simp] theorem free_updRun (m : Nat) (f : RunSt → RunSt) (s : State) : (updRun m f s).free = s.free := rfl
@[simp] theorem pending_updRun (m : Nat) (f : RunSt → RunSt) (s : State) : (updRun m f s).pending = s.pending := rfl
@[simp] theorem getReg_updRun (m : Nat) (f : RunSt → RunSt) (s : State) (b : Nat) : getReg (updRun m f s) b = getReg s b := rfl
@[simp] theorem getHall_updRun (m : Nat) (f : RunSt → RunSt) (s : State) (k : Nat) : getHall (updRun m f s) k = getHall s k := rfl
@[simp] theorem getChan_updRun (m : Nat) (f : RunSt → RunSt) (s : State) (k d : Nat) : getChan (updRun m f s) k d = getChan s k d := rfl
@[simp] theorem getConv_updRun (m : Nat) (f : RunSt → RunSt) (s : State) (k : Nat) : getConv (updRun m f s) k = getConv s k := rfl

/-! updImg. -/

@[simp] theorem time_updImg (f : ImgSt → ImgSt) (s : State) : (updImg f s).time = s.time := rfl
@[simp] theorem regs_updImg (f : ImgSt → ImgSt) (s : State) : (updImg f s).regs = s.regs := rfl
@[simp] theorem latch_updImg (f : ImgSt → ImgSt) (s : State) : (updImg f s).latch = s.latch := rfl
@[simp] theorem hp_updImg (f : ImgSt → ImgSt) (s : State) : (updImg f s).hp = s.hp := rfl
@[simp] theorem stg_updImg (f : ImgSt → ImgSt) (s : State) : (updImg f s).stg = s.stg := rfl
@[simp] theorem str_updImg (f : ImgSt → ImgSt) (s : State) : (updImg f s).str = s.str := rfl
@[simp] theorem halls_updImg (f : ImgSt → ImgSt) (s : State) : (updImg f s).halls = s.halls := rfl
@[simp] theorem chans_updImg (f : ImgSt → ImgSt) (s : State) : (updImg f s).chans = s.chans := rfl
@[simp] theorem convs_updImg (f : ImgSt → ImgSt) (s : State) : (updImg f s).convs = s.convs := rfl
@[simp] theorem sync_updImg (f : ImgSt → ImgSt) (s : State) : (updImg f s).sync = s.sync := rfl
@[simp] theorem newest_updImg (f : ImgSt → ImgSt) (s : State) : (updImg f s).newest = s.newest := rfl
@[simp] theorem older_updImg (f : ImgSt → ImgSt) (s : State) : (updImg f s).older = s.older := rfl
@[simp] theorem modes_updImg (f : ImgSt → ImgSt) (s : State) : (updImg f s).modes = s.modes := rfl
@[simp] theorem curves_updImg (f : ImgSt → ImgSt) (s : State) : (updImg f s).curves = s.curves := rfl
@[simp] theorem eng_updImg (f : ImgSt → ImgSt) (s : State) : (updImg f s).eng = s.eng := rfl
@[simp] theorem runs_updImg (f : ImgSt → ImgSt) (s : State) : (updImg f s).runs = s.runs := rfl
@[simp] theorem per_updImg (f : ImgSt → ImgSt) (s : State) : (updImg f s).per = s.per := rfl
@[simp] theorem bal_updImg (f : ImgSt → ImgSt) (s : State) : (updImg f s).bal = s.bal := rfl
@[simp] theorem aud_updImg (f : ImgSt → ImgSt) (s : State) : (updImg f s).aud = s.aud := rfl
@[simp] theorem gal_updImg (f : ImgSt → ImgSt) (s : State) : (updImg f s).gal = s.gal := rfl
@[simp] theorem bb_updImg (f : ImgSt → ImgSt) (s : State) : (updImg f s).bb = s.bb := rfl
@[simp] theorem jnl_updImg (f : ImgSt → ImgSt) (s : State) : (updImg f s).jnl = s.jnl := rfl
@[simp] theorem nv_updImg (f : ImgSt → ImgSt) (s : State) : (updImg f s).nv = s.nv := rfl
@[simp] theorem mem_updImg (f : ImgSt → ImgSt) (s : State) : (updImg f s).mem = s.mem := rfl
@[simp] theorem wd_updImg (f : ImgSt → ImgSt) (s : State) : (updImg f s).wd = s.wd := rfl
@[simp] theorem clk_updImg (f : ImgSt → ImgSt) (s : State) : (updImg f s).clk = s.clk := rfl
@[simp] theorem ml_updImg (f : ImgSt → ImgSt) (s : State) : (updImg f s).ml = s.ml := rfl
@[simp] theorem pair_updImg (f : ImgSt → ImgSt) (s : State) : (updImg f s).pair = s.pair := rfl
@[simp] theorem pins_updImg (f : ImgSt → ImgSt) (s : State) : (updImg f s).pins = s.pins := rfl
@[simp] theorem tx_updImg (f : ImgSt → ImgSt) (s : State) : (updImg f s).tx = s.tx := rfl
@[simp] theorem free_updImg (f : ImgSt → ImgSt) (s : State) : (updImg f s).free = s.free := rfl
@[simp] theorem pending_updImg (f : ImgSt → ImgSt) (s : State) : (updImg f s).pending = s.pending := rfl
@[simp] theorem getReg_updImg (f : ImgSt → ImgSt) (s : State) (b : Nat) : getReg (updImg f s) b = getReg s b := rfl
@[simp] theorem getHall_updImg (f : ImgSt → ImgSt) (s : State) (k : Nat) : getHall (updImg f s) k = getHall s k := rfl
@[simp] theorem getChan_updImg (f : ImgSt → ImgSt) (s : State) (k d : Nat) : getChan (updImg f s) k d = getChan s k d := rfl
@[simp] theorem getConv_updImg (f : ImgSt → ImgSt) (s : State) (k : Nat) : getConv (updImg f s) k = getConv s k := rfl
@[simp] theorem getRun_updImg (f : ImgSt → ImgSt) (s : State) (k : Nat) : getRun (updImg f s) k = getRun s k := rfl

/-! updMl. -/

@[simp] theorem time_updMl (f : MlSt → MlSt) (s : State) : (updMl f s).time = s.time := rfl
@[simp] theorem regs_updMl (f : MlSt → MlSt) (s : State) : (updMl f s).regs = s.regs := rfl
@[simp] theorem latch_updMl (f : MlSt → MlSt) (s : State) : (updMl f s).latch = s.latch := rfl
@[simp] theorem hp_updMl (f : MlSt → MlSt) (s : State) : (updMl f s).hp = s.hp := rfl
@[simp] theorem stg_updMl (f : MlSt → MlSt) (s : State) : (updMl f s).stg = s.stg := rfl
@[simp] theorem str_updMl (f : MlSt → MlSt) (s : State) : (updMl f s).str = s.str := rfl
@[simp] theorem halls_updMl (f : MlSt → MlSt) (s : State) : (updMl f s).halls = s.halls := rfl
@[simp] theorem chans_updMl (f : MlSt → MlSt) (s : State) : (updMl f s).chans = s.chans := rfl
@[simp] theorem convs_updMl (f : MlSt → MlSt) (s : State) : (updMl f s).convs = s.convs := rfl
@[simp] theorem sync_updMl (f : MlSt → MlSt) (s : State) : (updMl f s).sync = s.sync := rfl
@[simp] theorem newest_updMl (f : MlSt → MlSt) (s : State) : (updMl f s).newest = s.newest := rfl
@[simp] theorem older_updMl (f : MlSt → MlSt) (s : State) : (updMl f s).older = s.older := rfl
@[simp] theorem modes_updMl (f : MlSt → MlSt) (s : State) : (updMl f s).modes = s.modes := rfl
@[simp] theorem curves_updMl (f : MlSt → MlSt) (s : State) : (updMl f s).curves = s.curves := rfl
@[simp] theorem eng_updMl (f : MlSt → MlSt) (s : State) : (updMl f s).eng = s.eng := rfl
@[simp] theorem runs_updMl (f : MlSt → MlSt) (s : State) : (updMl f s).runs = s.runs := rfl
@[simp] theorem per_updMl (f : MlSt → MlSt) (s : State) : (updMl f s).per = s.per := rfl
@[simp] theorem bal_updMl (f : MlSt → MlSt) (s : State) : (updMl f s).bal = s.bal := rfl
@[simp] theorem aud_updMl (f : MlSt → MlSt) (s : State) : (updMl f s).aud = s.aud := rfl
@[simp] theorem gal_updMl (f : MlSt → MlSt) (s : State) : (updMl f s).gal = s.gal := rfl
@[simp] theorem bb_updMl (f : MlSt → MlSt) (s : State) : (updMl f s).bb = s.bb := rfl
@[simp] theorem jnl_updMl (f : MlSt → MlSt) (s : State) : (updMl f s).jnl = s.jnl := rfl
@[simp] theorem img_updMl (f : MlSt → MlSt) (s : State) : (updMl f s).img = s.img := rfl
@[simp] theorem nv_updMl (f : MlSt → MlSt) (s : State) : (updMl f s).nv = s.nv := rfl
@[simp] theorem mem_updMl (f : MlSt → MlSt) (s : State) : (updMl f s).mem = s.mem := rfl
@[simp] theorem wd_updMl (f : MlSt → MlSt) (s : State) : (updMl f s).wd = s.wd := rfl
@[simp] theorem clk_updMl (f : MlSt → MlSt) (s : State) : (updMl f s).clk = s.clk := rfl
@[simp] theorem pair_updMl (f : MlSt → MlSt) (s : State) : (updMl f s).pair = s.pair := rfl
@[simp] theorem pins_updMl (f : MlSt → MlSt) (s : State) : (updMl f s).pins = s.pins := rfl
@[simp] theorem tx_updMl (f : MlSt → MlSt) (s : State) : (updMl f s).tx = s.tx := rfl
@[simp] theorem free_updMl (f : MlSt → MlSt) (s : State) : (updMl f s).free = s.free := rfl
@[simp] theorem pending_updMl (f : MlSt → MlSt) (s : State) : (updMl f s).pending = s.pending := rfl
@[simp] theorem getReg_updMl (f : MlSt → MlSt) (s : State) (b : Nat) : getReg (updMl f s) b = getReg s b := rfl
@[simp] theorem getHall_updMl (f : MlSt → MlSt) (s : State) (k : Nat) : getHall (updMl f s) k = getHall s k := rfl
@[simp] theorem getChan_updMl (f : MlSt → MlSt) (s : State) (k d : Nat) : getChan (updMl f s) k d = getChan s k d := rfl
@[simp] theorem getConv_updMl (f : MlSt → MlSt) (s : State) (k : Nat) : getConv (updMl f s) k = getConv s k := rfl
@[simp] theorem getRun_updMl (f : MlSt → MlSt) (s : State) (k : Nat) : getRun (updMl f s) k = getRun s k := rfl

/-! updPair. -/

@[simp] theorem time_updPair (f : PairSt → PairSt) (s : State) : (updPair f s).time = s.time := rfl
@[simp] theorem regs_updPair (f : PairSt → PairSt) (s : State) : (updPair f s).regs = s.regs := rfl
@[simp] theorem latch_updPair (f : PairSt → PairSt) (s : State) : (updPair f s).latch = s.latch := rfl
@[simp] theorem hp_updPair (f : PairSt → PairSt) (s : State) : (updPair f s).hp = s.hp := rfl
@[simp] theorem stg_updPair (f : PairSt → PairSt) (s : State) : (updPair f s).stg = s.stg := rfl
@[simp] theorem str_updPair (f : PairSt → PairSt) (s : State) : (updPair f s).str = s.str := rfl
@[simp] theorem halls_updPair (f : PairSt → PairSt) (s : State) : (updPair f s).halls = s.halls := rfl
@[simp] theorem chans_updPair (f : PairSt → PairSt) (s : State) : (updPair f s).chans = s.chans := rfl
@[simp] theorem convs_updPair (f : PairSt → PairSt) (s : State) : (updPair f s).convs = s.convs := rfl
@[simp] theorem sync_updPair (f : PairSt → PairSt) (s : State) : (updPair f s).sync = s.sync := rfl
@[simp] theorem newest_updPair (f : PairSt → PairSt) (s : State) : (updPair f s).newest = s.newest := rfl
@[simp] theorem older_updPair (f : PairSt → PairSt) (s : State) : (updPair f s).older = s.older := rfl
@[simp] theorem modes_updPair (f : PairSt → PairSt) (s : State) : (updPair f s).modes = s.modes := rfl
@[simp] theorem curves_updPair (f : PairSt → PairSt) (s : State) : (updPair f s).curves = s.curves := rfl
@[simp] theorem eng_updPair (f : PairSt → PairSt) (s : State) : (updPair f s).eng = s.eng := rfl
@[simp] theorem runs_updPair (f : PairSt → PairSt) (s : State) : (updPair f s).runs = s.runs := rfl
@[simp] theorem per_updPair (f : PairSt → PairSt) (s : State) : (updPair f s).per = s.per := rfl
@[simp] theorem bal_updPair (f : PairSt → PairSt) (s : State) : (updPair f s).bal = s.bal := rfl
@[simp] theorem aud_updPair (f : PairSt → PairSt) (s : State) : (updPair f s).aud = s.aud := rfl
@[simp] theorem gal_updPair (f : PairSt → PairSt) (s : State) : (updPair f s).gal = s.gal := rfl
@[simp] theorem bb_updPair (f : PairSt → PairSt) (s : State) : (updPair f s).bb = s.bb := rfl
@[simp] theorem jnl_updPair (f : PairSt → PairSt) (s : State) : (updPair f s).jnl = s.jnl := rfl
@[simp] theorem img_updPair (f : PairSt → PairSt) (s : State) : (updPair f s).img = s.img := rfl
@[simp] theorem nv_updPair (f : PairSt → PairSt) (s : State) : (updPair f s).nv = s.nv := rfl
@[simp] theorem mem_updPair (f : PairSt → PairSt) (s : State) : (updPair f s).mem = s.mem := rfl
@[simp] theorem wd_updPair (f : PairSt → PairSt) (s : State) : (updPair f s).wd = s.wd := rfl
@[simp] theorem clk_updPair (f : PairSt → PairSt) (s : State) : (updPair f s).clk = s.clk := rfl
@[simp] theorem ml_updPair (f : PairSt → PairSt) (s : State) : (updPair f s).ml = s.ml := rfl
@[simp] theorem pins_updPair (f : PairSt → PairSt) (s : State) : (updPair f s).pins = s.pins := rfl
@[simp] theorem tx_updPair (f : PairSt → PairSt) (s : State) : (updPair f s).tx = s.tx := rfl
@[simp] theorem free_updPair (f : PairSt → PairSt) (s : State) : (updPair f s).free = s.free := rfl
@[simp] theorem pending_updPair (f : PairSt → PairSt) (s : State) : (updPair f s).pending = s.pending := rfl
@[simp] theorem getReg_updPair (f : PairSt → PairSt) (s : State) (b : Nat) : getReg (updPair f s) b = getReg s b := rfl
@[simp] theorem getHall_updPair (f : PairSt → PairSt) (s : State) (k : Nat) : getHall (updPair f s) k = getHall s k := rfl
@[simp] theorem getChan_updPair (f : PairSt → PairSt) (s : State) (k d : Nat) : getChan (updPair f s) k d = getChan s k d := rfl
@[simp] theorem getConv_updPair (f : PairSt → PairSt) (s : State) (k : Nat) : getConv (updPair f s) k = getConv s k := rfl
@[simp] theorem getRun_updPair (f : PairSt → PairSt) (s : State) (k : Nat) : getRun (updPair f s) k = getRun s k := rfl

/-! updStg. -/

@[simp] theorem time_updStg (f : StgSt → StgSt) (s : State) : (updStg f s).time = s.time := rfl
@[simp] theorem regs_updStg (f : StgSt → StgSt) (s : State) : (updStg f s).regs = s.regs := rfl
@[simp] theorem latch_updStg (f : StgSt → StgSt) (s : State) : (updStg f s).latch = s.latch := rfl
@[simp] theorem hp_updStg (f : StgSt → StgSt) (s : State) : (updStg f s).hp = s.hp := rfl
@[simp] theorem str_updStg (f : StgSt → StgSt) (s : State) : (updStg f s).str = s.str := rfl
@[simp] theorem halls_updStg (f : StgSt → StgSt) (s : State) : (updStg f s).halls = s.halls := rfl
@[simp] theorem chans_updStg (f : StgSt → StgSt) (s : State) : (updStg f s).chans = s.chans := rfl
@[simp] theorem convs_updStg (f : StgSt → StgSt) (s : State) : (updStg f s).convs = s.convs := rfl
@[simp] theorem sync_updStg (f : StgSt → StgSt) (s : State) : (updStg f s).sync = s.sync := rfl
@[simp] theorem newest_updStg (f : StgSt → StgSt) (s : State) : (updStg f s).newest = s.newest := rfl
@[simp] theorem older_updStg (f : StgSt → StgSt) (s : State) : (updStg f s).older = s.older := rfl
@[simp] theorem modes_updStg (f : StgSt → StgSt) (s : State) : (updStg f s).modes = s.modes := rfl
@[simp] theorem curves_updStg (f : StgSt → StgSt) (s : State) : (updStg f s).curves = s.curves := rfl
@[simp] theorem eng_updStg (f : StgSt → StgSt) (s : State) : (updStg f s).eng = s.eng := rfl
@[simp] theorem runs_updStg (f : StgSt → StgSt) (s : State) : (updStg f s).runs = s.runs := rfl
@[simp] theorem per_updStg (f : StgSt → StgSt) (s : State) : (updStg f s).per = s.per := rfl
@[simp] theorem bal_updStg (f : StgSt → StgSt) (s : State) : (updStg f s).bal = s.bal := rfl
@[simp] theorem aud_updStg (f : StgSt → StgSt) (s : State) : (updStg f s).aud = s.aud := rfl
@[simp] theorem gal_updStg (f : StgSt → StgSt) (s : State) : (updStg f s).gal = s.gal := rfl
@[simp] theorem bb_updStg (f : StgSt → StgSt) (s : State) : (updStg f s).bb = s.bb := rfl
@[simp] theorem jnl_updStg (f : StgSt → StgSt) (s : State) : (updStg f s).jnl = s.jnl := rfl
@[simp] theorem img_updStg (f : StgSt → StgSt) (s : State) : (updStg f s).img = s.img := rfl
@[simp] theorem nv_updStg (f : StgSt → StgSt) (s : State) : (updStg f s).nv = s.nv := rfl
@[simp] theorem mem_updStg (f : StgSt → StgSt) (s : State) : (updStg f s).mem = s.mem := rfl
@[simp] theorem wd_updStg (f : StgSt → StgSt) (s : State) : (updStg f s).wd = s.wd := rfl
@[simp] theorem clk_updStg (f : StgSt → StgSt) (s : State) : (updStg f s).clk = s.clk := rfl
@[simp] theorem ml_updStg (f : StgSt → StgSt) (s : State) : (updStg f s).ml = s.ml := rfl
@[simp] theorem pair_updStg (f : StgSt → StgSt) (s : State) : (updStg f s).pair = s.pair := rfl
@[simp] theorem pins_updStg (f : StgSt → StgSt) (s : State) : (updStg f s).pins = s.pins := rfl
@[simp] theorem tx_updStg (f : StgSt → StgSt) (s : State) : (updStg f s).tx = s.tx := rfl
@[simp] theorem free_updStg (f : StgSt → StgSt) (s : State) : (updStg f s).free = s.free := rfl
@[simp] theorem pending_updStg (f : StgSt → StgSt) (s : State) : (updStg f s).pending = s.pending := rfl
@[simp] theorem getReg_updStg (f : StgSt → StgSt) (s : State) (b : Nat) : getReg (updStg f s) b = getReg s b := rfl
@[simp] theorem getHall_updStg (f : StgSt → StgSt) (s : State) (k : Nat) : getHall (updStg f s) k = getHall s k := rfl
@[simp] theorem getChan_updStg (f : StgSt → StgSt) (s : State) (k d : Nat) : getChan (updStg f s) k d = getChan s k d := rfl
@[simp] theorem getConv_updStg (f : StgSt → StgSt) (s : State) (k : Nat) : getConv (updStg f s) k = getConv s k := rfl
@[simp] theorem getRun_updStg (f : StgSt → StgSt) (s : State) (k : Nat) : getRun (updStg f s) k = getRun s k := rfl

/-! takeFree. -/

@[simp] theorem time_takeFree (s : State) : (takeFree s).time = s.time := rfl
@[simp] theorem regs_takeFree (s : State) : (takeFree s).regs = s.regs := rfl
@[simp] theorem latch_takeFree (s : State) : (takeFree s).latch = s.latch := rfl
@[simp] theorem hp_takeFree (s : State) : (takeFree s).hp = s.hp := rfl
@[simp] theorem stg_takeFree (s : State) : (takeFree s).stg = s.stg := rfl
@[simp] theorem str_takeFree (s : State) : (takeFree s).str = s.str := rfl
@[simp] theorem halls_takeFree (s : State) : (takeFree s).halls = s.halls := rfl
@[simp] theorem chans_takeFree (s : State) : (takeFree s).chans = s.chans := rfl
@[simp] theorem convs_takeFree (s : State) : (takeFree s).convs = s.convs := rfl
@[simp] theorem sync_takeFree (s : State) : (takeFree s).sync = s.sync := rfl
@[simp] theorem newest_takeFree (s : State) : (takeFree s).newest = s.newest := rfl
@[simp] theorem older_takeFree (s : State) : (takeFree s).older = s.older := rfl
@[simp] theorem modes_takeFree (s : State) : (takeFree s).modes = s.modes := rfl
@[simp] theorem curves_takeFree (s : State) : (takeFree s).curves = s.curves := rfl
@[simp] theorem eng_takeFree (s : State) : (takeFree s).eng = s.eng := rfl
@[simp] theorem runs_takeFree (s : State) : (takeFree s).runs = s.runs := rfl
@[simp] theorem per_takeFree (s : State) : (takeFree s).per = s.per := rfl
@[simp] theorem bal_takeFree (s : State) : (takeFree s).bal = s.bal := rfl
@[simp] theorem aud_takeFree (s : State) : (takeFree s).aud = s.aud := rfl
@[simp] theorem gal_takeFree (s : State) : (takeFree s).gal = s.gal := rfl
@[simp] theorem bb_takeFree (s : State) : (takeFree s).bb = s.bb := rfl
@[simp] theorem jnl_takeFree (s : State) : (takeFree s).jnl = s.jnl := rfl
@[simp] theorem img_takeFree (s : State) : (takeFree s).img = s.img := rfl
@[simp] theorem nv_takeFree (s : State) : (takeFree s).nv = s.nv := rfl
@[simp] theorem mem_takeFree (s : State) : (takeFree s).mem = s.mem := rfl
@[simp] theorem wd_takeFree (s : State) : (takeFree s).wd = s.wd := rfl
@[simp] theorem clk_takeFree (s : State) : (takeFree s).clk = s.clk := rfl
@[simp] theorem ml_takeFree (s : State) : (takeFree s).ml = s.ml := rfl
@[simp] theorem pair_takeFree (s : State) : (takeFree s).pair = s.pair := rfl
@[simp] theorem pins_takeFree (s : State) : (takeFree s).pins = s.pins := rfl
@[simp] theorem tx_takeFree (s : State) : (takeFree s).tx = s.tx := rfl
@[simp] theorem pending_takeFree (s : State) : (takeFree s).pending = s.pending := rfl
@[simp] theorem getReg_takeFree (s : State) (b : Nat) : getReg (takeFree s) b = getReg s b := rfl
@[simp] theorem getHall_takeFree (s : State) (k : Nat) : getHall (takeFree s) k = getHall s k := rfl
@[simp] theorem getChan_takeFree (s : State) (k d : Nat) : getChan (takeFree s) k d = getChan s k d := rfl
@[simp] theorem getConv_takeFree (s : State) (k : Nat) : getConv (takeFree s) k = getConv s k := rfl
@[simp] theorem getRun_takeFree (s : State) (k : Nat) : getRun (takeFree s) k = getRun s k := rfl

/-! advance. -/

@[simp] theorem regs_advance (n : Nat) (s : State) : (advance n s).regs = s.regs := rfl
@[simp] theorem latch_advance (n : Nat) (s : State) : (advance n s).latch = s.latch := rfl
@[simp] theorem hp_advance (n : Nat) (s : State) : (advance n s).hp = s.hp := rfl
@[simp] theorem stg_advance (n : Nat) (s : State) : (advance n s).stg = s.stg := rfl
@[simp] theorem str_advance (n : Nat) (s : State) : (advance n s).str = s.str := rfl
@[simp] theorem halls_advance (n : Nat) (s : State) : (advance n s).halls = s.halls := rfl
@[simp] theorem chans_advance (n : Nat) (s : State) : (advance n s).chans = s.chans := rfl
@[simp] theorem convs_advance (n : Nat) (s : State) : (advance n s).convs = s.convs := rfl
@[simp] theorem sync_advance (n : Nat) (s : State) : (advance n s).sync = s.sync := rfl
@[simp] theorem newest_advance (n : Nat) (s : State) : (advance n s).newest = s.newest := rfl
@[simp] theorem older_advance (n : Nat) (s : State) : (advance n s).older = s.older := rfl
@[simp] theorem modes_advance (n : Nat) (s : State) : (advance n s).modes = s.modes := rfl
@[simp] theorem curves_advance (n : Nat) (s : State) : (advance n s).curves = s.curves := rfl
@[simp] theorem eng_advance (n : Nat) (s : State) : (advance n s).eng = s.eng := rfl
@[simp] theorem runs_advance (n : Nat) (s : State) : (advance n s).runs = s.runs := rfl
@[simp] theorem per_advance (n : Nat) (s : State) : (advance n s).per = s.per := rfl
@[simp] theorem bal_advance (n : Nat) (s : State) : (advance n s).bal = s.bal := rfl
@[simp] theorem aud_advance (n : Nat) (s : State) : (advance n s).aud = s.aud := rfl
@[simp] theorem gal_advance (n : Nat) (s : State) : (advance n s).gal = s.gal := rfl
@[simp] theorem bb_advance (n : Nat) (s : State) : (advance n s).bb = s.bb := rfl
@[simp] theorem jnl_advance (n : Nat) (s : State) : (advance n s).jnl = s.jnl := rfl
@[simp] theorem img_advance (n : Nat) (s : State) : (advance n s).img = s.img := rfl
@[simp] theorem nv_advance (n : Nat) (s : State) : (advance n s).nv = s.nv := rfl
@[simp] theorem mem_advance (n : Nat) (s : State) : (advance n s).mem = s.mem := rfl
@[simp] theorem wd_advance (n : Nat) (s : State) : (advance n s).wd = s.wd := rfl
@[simp] theorem clk_advance (n : Nat) (s : State) : (advance n s).clk = s.clk := rfl
@[simp] theorem ml_advance (n : Nat) (s : State) : (advance n s).ml = s.ml := rfl
@[simp] theorem pair_advance (n : Nat) (s : State) : (advance n s).pair = s.pair := rfl
@[simp] theorem pins_advance (n : Nat) (s : State) : (advance n s).pins = s.pins := rfl
@[simp] theorem tx_advance (n : Nat) (s : State) : (advance n s).tx = s.tx := rfl
@[simp] theorem free_advance (n : Nat) (s : State) : (advance n s).free = s.free := rfl
@[simp] theorem pending_advance (n : Nat) (s : State) : (advance n s).pending = s.pending := rfl
@[simp] theorem getReg_advance (n : Nat) (s : State) (b : Nat) : getReg (advance n s) b = getReg s b := rfl
@[simp] theorem getHall_advance (n : Nat) (s : State) (k : Nat) : getHall (advance n s) k = getHall s k := rfl
@[simp] theorem getChan_advance (n : Nat) (s : State) (k d : Nat) : getChan (advance n s) k d = getChan s k d := rfl
@[simp] theorem getConv_advance (n : Nat) (s : State) (k : Nat) : getConv (advance n s) k = getConv s k := rfl
@[simp] theorem getRun_advance (n : Nat) (s : State) (k : Nat) : getRun (advance n s) k = getRun s k := rfl

/-! send. -/

@[simp] theorem time_send (l : Nat) (bs : List Byte) (s : State) : (send l bs s).time = s.time := rfl
@[simp] theorem regs_send (l : Nat) (bs : List Byte) (s : State) : (send l bs s).regs = s.regs := rfl
@[simp] theorem latch_send (l : Nat) (bs : List Byte) (s : State) : (send l bs s).latch = s.latch := rfl
@[simp] theorem hp_send (l : Nat) (bs : List Byte) (s : State) : (send l bs s).hp = s.hp := rfl
@[simp] theorem stg_send (l : Nat) (bs : List Byte) (s : State) : (send l bs s).stg = s.stg := rfl
@[simp] theorem str_send (l : Nat) (bs : List Byte) (s : State) : (send l bs s).str = s.str := rfl
@[simp] theorem halls_send (l : Nat) (bs : List Byte) (s : State) : (send l bs s).halls = s.halls := rfl
@[simp] theorem chans_send (l : Nat) (bs : List Byte) (s : State) : (send l bs s).chans = s.chans := rfl
@[simp] theorem convs_send (l : Nat) (bs : List Byte) (s : State) : (send l bs s).convs = s.convs := rfl
@[simp] theorem sync_send (l : Nat) (bs : List Byte) (s : State) : (send l bs s).sync = s.sync := rfl
@[simp] theorem newest_send (l : Nat) (bs : List Byte) (s : State) : (send l bs s).newest = s.newest := rfl
@[simp] theorem older_send (l : Nat) (bs : List Byte) (s : State) : (send l bs s).older = s.older := rfl
@[simp] theorem modes_send (l : Nat) (bs : List Byte) (s : State) : (send l bs s).modes = s.modes := rfl
@[simp] theorem curves_send (l : Nat) (bs : List Byte) (s : State) : (send l bs s).curves = s.curves := rfl
@[simp] theorem eng_send (l : Nat) (bs : List Byte) (s : State) : (send l bs s).eng = s.eng := rfl
@[simp] theorem runs_send (l : Nat) (bs : List Byte) (s : State) : (send l bs s).runs = s.runs := rfl
@[simp] theorem per_send (l : Nat) (bs : List Byte) (s : State) : (send l bs s).per = s.per := rfl
@[simp] theorem bal_send (l : Nat) (bs : List Byte) (s : State) : (send l bs s).bal = s.bal := rfl
@[simp] theorem aud_send (l : Nat) (bs : List Byte) (s : State) : (send l bs s).aud = s.aud := rfl
@[simp] theorem gal_send (l : Nat) (bs : List Byte) (s : State) : (send l bs s).gal = s.gal := rfl
@[simp] theorem bb_send (l : Nat) (bs : List Byte) (s : State) : (send l bs s).bb = s.bb := rfl
@[simp] theorem jnl_send (l : Nat) (bs : List Byte) (s : State) : (send l bs s).jnl = s.jnl := rfl
@[simp] theorem img_send (l : Nat) (bs : List Byte) (s : State) : (send l bs s).img = s.img := rfl
@[simp] theorem nv_send (l : Nat) (bs : List Byte) (s : State) : (send l bs s).nv = s.nv := rfl
@[simp] theorem mem_send (l : Nat) (bs : List Byte) (s : State) : (send l bs s).mem = s.mem := rfl
@[simp] theorem wd_send (l : Nat) (bs : List Byte) (s : State) : (send l bs s).wd = s.wd := rfl
@[simp] theorem clk_send (l : Nat) (bs : List Byte) (s : State) : (send l bs s).clk = s.clk := rfl
@[simp] theorem ml_send (l : Nat) (bs : List Byte) (s : State) : (send l bs s).ml = s.ml := rfl
@[simp] theorem pair_send (l : Nat) (bs : List Byte) (s : State) : (send l bs s).pair = s.pair := rfl
@[simp] theorem pins_send (l : Nat) (bs : List Byte) (s : State) : (send l bs s).pins = s.pins := rfl
@[simp] theorem free_send (l : Nat) (bs : List Byte) (s : State) : (send l bs s).free = s.free := rfl
@[simp] theorem pending_send (l : Nat) (bs : List Byte) (s : State) : (send l bs s).pending = s.pending := rfl
@[simp] theorem getReg_send (l : Nat) (bs : List Byte) (s : State) (b : Nat) : getReg (send l bs s) b = getReg s b := rfl
@[simp] theorem getHall_send (l : Nat) (bs : List Byte) (s : State) (k : Nat) : getHall (send l bs s) k = getHall s k := rfl
@[simp] theorem getChan_send (l : Nat) (bs : List Byte) (s : State) (k d : Nat) : getChan (send l bs s) k d = getChan s k d := rfl
@[simp] theorem getConv_send (l : Nat) (bs : List Byte) (s : State) (k : Nat) : getConv (send l bs s) k = getConv s k := rfl
@[simp] theorem getRun_send (l : Nat) (bs : List Byte) (s : State) (k : Nat) : getRun (send l bs s) k = getRun s k := rfl

/-! The answer of a command. -/

@[simp] theorem time_trimEvents (s : State) : (trimEvents s).time = s.time := by unfold trimEvents; split <;> rfl
@[simp] theorem regs_trimEvents (s : State) : (trimEvents s).regs = s.regs := by unfold trimEvents; split <;> rfl
@[simp] theorem latch_trimEvents (s : State) : (trimEvents s).latch = s.latch := by unfold trimEvents; split <;> rfl
@[simp] theorem hp_trimEvents (s : State) : (trimEvents s).hp = s.hp := by unfold trimEvents; split <;> rfl
@[simp] theorem stg_trimEvents (s : State) : (trimEvents s).stg = s.stg := by unfold trimEvents; split <;> rfl
@[simp] theorem str_trimEvents (s : State) : (trimEvents s).str = s.str := by unfold trimEvents; split <;> rfl
@[simp] theorem halls_trimEvents (s : State) : (trimEvents s).halls = s.halls := by unfold trimEvents; split <;> rfl
@[simp] theorem chans_trimEvents (s : State) : (trimEvents s).chans = s.chans := by unfold trimEvents; split <;> rfl
@[simp] theorem convs_trimEvents (s : State) : (trimEvents s).convs = s.convs := by unfold trimEvents; split <;> rfl
@[simp] theorem sync_trimEvents (s : State) : (trimEvents s).sync = s.sync := by unfold trimEvents; split <;> rfl
@[simp] theorem newest_trimEvents (s : State) : (trimEvents s).newest = s.newest := by unfold trimEvents; split <;> rfl
@[simp] theorem older_trimEvents (s : State) : (trimEvents s).older = s.older := by unfold trimEvents; split <;> rfl
@[simp] theorem modes_trimEvents (s : State) : (trimEvents s).modes = s.modes := by unfold trimEvents; split <;> rfl
@[simp] theorem curves_trimEvents (s : State) : (trimEvents s).curves = s.curves := by unfold trimEvents; split <;> rfl
@[simp] theorem eng_trimEvents (s : State) : (trimEvents s).eng = s.eng := by unfold trimEvents; split <;> rfl
@[simp] theorem runs_trimEvents (s : State) : (trimEvents s).runs = s.runs := by unfold trimEvents; split <;> rfl
@[simp] theorem per_trimEvents (s : State) : (trimEvents s).per = s.per := by unfold trimEvents; split <;> rfl
@[simp] theorem bal_trimEvents (s : State) : (trimEvents s).bal = s.bal := by unfold trimEvents; split <;> rfl
@[simp] theorem aud_trimEvents (s : State) : (trimEvents s).aud = s.aud := by unfold trimEvents; split <;> rfl
@[simp] theorem gal_trimEvents (s : State) : (trimEvents s).gal = s.gal := by unfold trimEvents; split <;> rfl
@[simp] theorem jnl_trimEvents (s : State) : (trimEvents s).jnl = s.jnl := by unfold trimEvents; split <;> rfl
@[simp] theorem img_trimEvents (s : State) : (trimEvents s).img = s.img := by unfold trimEvents; split <;> rfl
@[simp] theorem nv_trimEvents (s : State) : (trimEvents s).nv = s.nv := by unfold trimEvents; split <;> rfl
@[simp] theorem mem_trimEvents (s : State) : (trimEvents s).mem = s.mem := by unfold trimEvents; split <;> rfl
@[simp] theorem wd_trimEvents (s : State) : (trimEvents s).wd = s.wd := by unfold trimEvents; split <;> rfl
@[simp] theorem clk_trimEvents (s : State) : (trimEvents s).clk = s.clk := by unfold trimEvents; split <;> rfl
@[simp] theorem ml_trimEvents (s : State) : (trimEvents s).ml = s.ml := by unfold trimEvents; split <;> rfl
@[simp] theorem pair_trimEvents (s : State) : (trimEvents s).pair = s.pair := by unfold trimEvents; split <;> rfl
@[simp] theorem tx_trimEvents (s : State) : (trimEvents s).tx = s.tx := by unfold trimEvents; split <;> rfl
@[simp] theorem free_trimEvents (s : State) : (trimEvents s).free = s.free := by unfold trimEvents; split <;> rfl
@[simp] theorem pending_trimEvents (s : State) : (trimEvents s).pending = s.pending := by unfold trimEvents; split <;> rfl
@[simp] theorem pins_trimEvents (s : State) : (trimEvents s).pins = s.pins := by unfold trimEvents; split <;> rfl
@[simp] theorem time_settle (s : State) : (settle s).time = s.time := by simp [settle]
@[simp] theorem regs_settle (s : State) : (settle s).regs = s.regs := by simp [settle]
@[simp] theorem latch_settle (s : State) : (settle s).latch = s.latch := by simp [settle]
@[simp] theorem hp_settle (s : State) : (settle s).hp = s.hp := by simp [settle]
@[simp] theorem stg_settle (s : State) : (settle s).stg = s.stg := by simp [settle]
@[simp] theorem str_settle (s : State) : (settle s).str = s.str := by simp [settle]
@[simp] theorem halls_settle (s : State) : (settle s).halls = s.halls := by simp [settle]
@[simp] theorem chans_settle (s : State) : (settle s).chans = s.chans := by simp [settle]
@[simp] theorem convs_settle (s : State) : (settle s).convs = s.convs := by simp [settle]
@[simp] theorem sync_settle (s : State) : (settle s).sync = s.sync := by simp [settle]
@[simp] theorem newest_settle (s : State) : (settle s).newest = s.newest := by simp [settle]
@[simp] theorem older_settle (s : State) : (settle s).older = s.older := by simp [settle]
@[simp] theorem modes_settle (s : State) : (settle s).modes = s.modes := by simp [settle]
@[simp] theorem curves_settle (s : State) : (settle s).curves = s.curves := by simp [settle]
@[simp] theorem eng_settle (s : State) : (settle s).eng = s.eng := by simp [settle]
@[simp] theorem runs_settle (s : State) : (settle s).runs = s.runs := by simp [settle]
@[simp] theorem per_settle (s : State) : (settle s).per = s.per := by simp [settle]
@[simp] theorem bal_settle (s : State) : (settle s).bal = s.bal := by simp [settle]
@[simp] theorem aud_settle (s : State) : (settle s).aud = s.aud := by simp [settle]
@[simp] theorem gal_settle (s : State) : (settle s).gal = s.gal := by simp [settle]
@[simp] theorem jnl_settle (s : State) : (settle s).jnl = s.jnl := by simp [settle]
@[simp] theorem img_settle (s : State) : (settle s).img = s.img := by simp [settle]
@[simp] theorem nv_settle (s : State) : (settle s).nv = s.nv := by simp [settle]
@[simp] theorem mem_settle (s : State) : (settle s).mem = s.mem := by simp [settle]
@[simp] theorem wd_settle (s : State) : (settle s).wd = s.wd := by simp [settle]
@[simp] theorem clk_settle (s : State) : (settle s).clk = s.clk := by simp [settle]
@[simp] theorem ml_settle (s : State) : (settle s).ml = s.ml := by simp [settle]
@[simp] theorem pair_settle (s : State) : (settle s).pair = s.pair := by simp [settle]
@[simp] theorem tx_settle (s : State) : (settle s).tx = s.tx := by simp [settle]
@[simp] theorem free_settle (s : State) : (settle s).free = s.free := by simp [settle]
@[simp] theorem pending_settle (s : State) : (settle s).pending = s.pending := by simp [settle]
@[simp] theorem getReg_settle (s : State) (b : Nat) : getReg (settle s) b = getReg s b := by simp [getReg]
@[simp] theorem getHall_settle (s : State) (k : Nat) : getHall (settle s) k = getHall s k := by simp [getHall]
@[simp] theorem getChan_settle (s : State) (k d : Nat) : getChan (settle s) k d = getChan s k d := by simp [getChan]
@[simp] theorem getConv_settle (s : State) (k : Nat) : getConv (settle s) k = getConv s k := by simp [getConv]
@[simp] theorem getRun_settle (s : State) (k : Nat) : getRun (settle s) k = getRun s k := by simp [getRun]
@[simp] theorem syncOut_settle (s : State) : (settle s).pins.syncOut = s.pins.syncOut := by simp [settle, pinLevels]
@[simp] theorem scan_settle (s : State) : (settle s).pins.scan = s.pins.scan := by simp [settle, pinLevels]

theorem trimEvents_of_le {s : State} (h : s.bb.events.length ≤ 2048) : trimEvents s = s := by
  unfold trimEvents; rw [if_pos h]

theorem trimEvents_length (s : State) : (trimEvents s).bb.events.length ≤ 2048 := by
  unfold trimEvents
  split
  · assumption
  · simp only [List.length_drop]; omega

theorem settle_bb_of_le {s : State} (h : s.bb.events.length ≤ 2048) : (settle s).bb = s.bb := by
  unfold settle; rw [trimEvents_of_le h]

theorem faultNLevel_congr {s t : State} (h1 : t.regs = s.regs) (h2 : t.clk = s.clk) (h3 : t.nv = s.nv)
    (h4 : t.pair = s.pair) : faultNLevel t = faultNLevel s := by
  simp only [faultNLevel, devFault, imageNone, nvLost, anyTrapped, getReg, h1, h2, h3, h4]

theorem heldDie_congr {s t : State} (h : t.clk = s.clk) : heldDie t = heldDie s := by unfold heldDie; rw [h]

theorem pinLevels_congr {s t : State} (h1 : t.regs = s.regs) (h2 : t.clk = s.clk) (h3 : t.nv = s.nv)
    (h4 : t.pair = s.pair) (h5 : t.pins = s.pins) : pinLevels t = pinLevels s := by
  simp only [pinLevels, heldDie_congr h2, faultNLevel_congr h1 h2 h3 h4, h5]

theorem settle_pins (s : State) : (settle s).pins = pinLevels s := by
  simp only [settle]
  exact pinLevels_congr (by simp) (by simp) (by simp) (by simp) (by simp)

/-- The pins of a settled state follow it. -/
theorem pinLevels_settle (s : State) : pinLevels (settle s) = pinLevels s := by
  simp only [pinLevels, heldDie_congr (clk_settle s), settle_pins s,
    faultNLevel_congr (regs_settle s) (clk_settle s) (nv_settle s) (pair_settle s)]

/-- Every answer has the invariant. -/
theorem settle_inv (s : State) : Inv (settle s) :=
  ⟨(settle_pins s).trans (pinLevels_settle s).symm, trimEvents_length s⟩

/-- A state with the invariant is settled. -/
theorem settle_of_inv {s : State} (h : Inv s) : settle s = s := by
  have e : trimEvents s = s := trimEvents_of_le h.2
  simp only [settle, e, ← h.1]

/-- The frame of an answer: nothing outside the parts the command's operations change, SYNC_OUT and the scan register as they
leave them. -/
theorem settle_frame {F : List Part} {s t : State} (hs : Inv s) (h : changesOnly (.pins :: F) s t)
    (hp : t.pins.syncOut = s.pins.syncOut) (hc : t.pins.scan = s.pins.scan) : framed F s (settle t) := by
  refine ⟨fun p hp' => ?_, ?_⟩
  · have k := h p hp'
    cases p
    case bb =>
      have k' : t.bb = s.bb := k
      show (settle t).bb = s.bb
      rw [settle_bb_of_le (by rw [k']; exact hs.2), k']
    case pins => exact absurd (by simp) hp'
    all_goals first | exact (time_settle t).trans k | (simpa [Part.same] using k)
  · rw [pinned, pinLevels_settle, settle_pins, ← hp, ← hc]
    rfl

/-- The frame of an answer whose operations leave the pins alone. -/
theorem framed_settle {F : List Part} {s t : State} (hs : Inv s) (h : changesOnly F s t) (hp : Part.pins ∉ F) :
    framed F s (settle t) :=
  settle_frame hs (fun p hn => h p fun hm => hn (List.mem_cons_of_mem _ hm)) (congrArg PinSt.syncOut (h .pins hp))
    (congrArg PinSt.scan (h .pins hp))

theorem settle_regsOutside {P : Nat → Prop} {s t : State} (h : regsOutside P s t) : regsOutside P s (settle t) :=
  fun a ha => (getReg_settle t a).trans (h a ha)

theorem done_eq (s : State) : done s = .next (settle s) := rfl

/-! What an operation puts in its own part. -/

@[simp] theorem getReg_setReg_eq (a : Nat) (v : Word) (s : State) : getReg (setReg a v s) a = v := getReg_setReg_self a v s

theorem getReg_modReg_self (a : Nat) (f : Word → Word) (s : State) : getReg (modReg a f s) a = f (getReg s a) :=
  getReg_setReg_self ..

theorem getReg_modReg_other {a b : Nat} (h : b ≠ a) (f : Word → Word) (s : State) :
    getReg (modReg a f s) b = getReg s b := getReg_setReg_other h ..

@[simp] theorem getHall_updHall_self (h : Nat) (f : HallState → HallState) (s : State) :
    getHall (updHall h f s) h = f (getHall s h) := tget_tset_self ..

theorem getHall_updHall_other {h k : Nat} (e : k ≠ h) (f : HallState → HallState) (s : State) :
    getHall (updHall h f s) k = getHall s k := tget_tset_other _ _ e _

@[simp] theorem getChan_updChan_self (h c : Nat) (f : ChanState → ChanState) (s : State) :
    getChan (updChan h c f s) h c = f (getChan s h c) := tget_tset_self ..

theorem getChan_updChan_other {h c k d : Nat} (e : 4 * k + d ≠ 4 * h + c) (f : ChanState → ChanState) (s : State) :
    getChan (updChan h c f s) k d = getChan s k d := tget_tset_other _ _ e _

@[simp] theorem getConv_updConv_self (n : Nat) (f : ConvState → ConvState) (s : State) :
    getConv (updConv n f s) n = f (getConv s n) := tget_tset_self ..

theorem getConv_updConv_other {n k : Nat} (e : k ≠ n) (f : ConvState → ConvState) (s : State) :
    getConv (updConv n f s) k = getConv s k := tget_tset_other _ _ e _

@[simp] theorem getRun_updRun_self (m : Nat) (f : RunSt → RunSt) (s : State) :
    getRun (updRun m f s) m = f (getRun s m) := tget_tset_self ..

theorem getRun_updRun_other {m k : Nat} (e : k ≠ m) (f : RunSt → RunSt) (s : State) :
    getRun (updRun m f s) k = getRun s k := tget_tset_other _ _ e _

end Sys2Proof.Machine
end

