-- ==== Sys2Proof/Laws/Answers.lean ====
section
/-! SUPPORT. What an answer is: a settled state that differs from the one before at most in some parts, keeps the canonical
form and does not run local time back. -/

namespace Sys2Proof.Machine

/-- The outcome is the settled state of some `u` that changes at most the parts `F` of `s` and keeps form and time. -/
def replies (F : List Part) (s : State) (o : Host.Outcome State Fault Refusal) : Prop :=
  ∃ u, o = done u ∧ changesOnly F s u ∧ keeps s u

theorem replies_done {F : List Part} {s u : State} (h : changesOnly F s u) (k : keeps s u) : replies F s (done u) :=
  ⟨u, rfl, h, k⟩

theorem replies_ite {F : List Part} {s : State} {c : Prop} [Decidable c] {o p : Host.Outcome State Fault Refusal}
    (h : replies F s o) (k : replies F s p) : replies F s (if c then o else p) := by split <;> assumption

theorem replies.mono {F G : List Part} {s : State} {o : Host.Outcome State Fault Refusal} (h : replies G s o)
    (hs : Part.sub G F = true) : replies F s o := by
  obtain ⟨u, e, c, k⟩ := h
  exact ⟨u, e, c.mono hs, k⟩

/-- An answer is a next state with the invariant. -/
theorem replies.next {F : List Part} {s : State} {o : Host.Outcome State Fault Refusal} (h : replies F s o)
    (hp : Part.pending ∉ F) : ∃ t, o = .next t ∧ t.pending = s.pending ∧ Inv t ∧ s.time.now ≤ t.time.now := by
  obtain ⟨u, e, c, k⟩ := h
  refine ⟨settle u, by rw [e, done_eq], ?_, settle_inv u, ?_⟩
  · rw [pending_settle]; exact c .pending hp
  · rw [time_settle]; exact k.2

theorem frame_replies {F : List Part} {m : Bool} {f : State → State} {s : State} (hF : Part.sub [.regs, .hp] F = true)
    (h : ∀ u, changesOnly F u (f u)) (k : ∀ u, keeps u (f u)) : replies F s (frame m f s) := by
  unfold frame
  have c : changesOnly F s (beginFrame m s) := beginFrame_changes hF (changesOnly.refl _ _)
  have d : keeps s (beginFrame m s) := beginFrame_keeps (keeps.refl s)
  refine replies_ite (replies_done (c.trans (h _)) (d.trans (k _))) (replies_done ?_ (keeps.set (keeps.refl _)))
  exact changesOnly.set_hp (Part.sub_trans rfl hF) (changesOnly.refl _ _)

theorem hallDo_replies {F : List Part} {h : Nat} {f : State → State} {s : State}
    (hF : Part.sub [.regs, .bb, .halls, .chans, .per] F = true)
    (c : changesOnly F s (f s)) (k : keeps s (f s)) : replies F s (hallDo h f s) := by
  unfold hallDo
  exact replies_ite (replies_done (report_changes hF c) (report_keeps k))
    (replies_done (changesOnly.refl _ _) (keeps.refl _))

theorem pairReceive_replies {F : List Part} {f : PairFrame} {use : State → State} {s : State}
    (hF : Part.sub [.pair, .regs, .bb] F = true)
    (c : changesOnly F s (use s)) (k : keeps s (use s)) : replies F s (pairReceive f use s) := by
  unfold pairReceive
  exact replies_ite (replies_done (changesOnly.refl _ _) (keeps.refl _))
    (replies_ite (replies_done (pairBad_changes (Part.sub_trans rfl hF) (changesOnly.refl _ _)) (pairBad_keeps (keeps.refl _)))
      (replies_ite (replies_done (crossingFull_changes (Part.sub_trans rfl hF) (changesOnly.refl _ _))
        (crossingFull_keeps (keeps.refl _))) (replies_done c k)))

end Sys2Proof.Machine
end

