-- ==== Sys2Proof/Laws/Execs0.lean ====
section
/-! SUPPORT. What each command changes at most, in parts of the state (part 1 of 4). -/

set_option linter.unusedTactic false
set_option linter.unreachableTactic false

namespace Sys2Proof.Machine

theorem actWrite_replies {o : Origin} {a : Nat} {v : Word} {s : State} :
    replies [.time, .regs, .hp, .stg, .str, .halls, .chans, .convs, .sync, .newest, .older, .modes, .eng, .per, .aud, .gal, .bb, .jnl, .img, .nv, .mem, .wd, .clk, .ml, .pair, .pins, .tx, .free] s (actWrite o a v s) :=
  replies_done (cmdWrite_changes (by decide) (changesOnly.refl _ _)) (cmdWrite_keeps (keeps.refl _))

theorem execRead_replies {mode3 : Bool} {wext : Fin 32} {addr : Addr} {n : Nat} {underrun : List Nat} {changed : Bool} {s : State} :
    replies [.regs, .latch, .hp, .bb, .free] s (execRead mode3 wext addr n underrun changed s) := by
  unfold execRead
  with_reducible repeat' first
    | assumption | exact changesOnly.refl _ _ | exact keeps.refl _ | apply frame_replies | apply replies_ite
    | apply readFrame_changes | apply readFrame_keeps | apply changesOnly.iteL | apply keeps.iteL
    | apply changesOnly.ite | apply keeps.ite | decide | split | (intro)

theorem execWrite_replies {mode3 : Bool} {wext : Fin 32} {addr : Addr} {units : List Word} {s : State} :
    replies [.time, .regs, .hp, .stg, .str, .halls, .chans, .convs, .sync, .newest, .older, .modes, .eng, .per, .aud, .gal, .bb, .jnl, .img, .nv, .mem, .wd, .clk, .ml, .pair, .pins, .tx, .free] s (execWrite mode3 wext addr units s) := by
  unfold execWrite
  with_reducible repeat' first
    | assumption | exact changesOnly.refl _ _ | exact keeps.refl _ | apply frame_replies | apply replies_ite
    | apply writeFrame_changes | apply writeFrame_keeps | apply changesOnly.iteL | apply keeps.iteL
    | apply changesOnly.ite | apply keeps.ite | decide | split | (intro)

theorem execReadFixed_replies {mode3 : Bool} {wext : Fin 32} {addr : Addr} {n : Nat} {underrun : List Nat} {changed : Bool} {s : State} :
    replies [.regs, .latch, .hp, .bb, .free] s (execReadFixed mode3 wext addr n underrun changed s) := by
  unfold execReadFixed
  with_reducible repeat' first
    | assumption | exact changesOnly.refl _ _ | exact keeps.refl _ | apply frame_replies | apply replies_ite
    | apply readFrame_changes | apply readFrame_keeps | apply changesOnly.iteL | apply keeps.iteL
    | apply changesOnly.ite | apply keeps.ite | decide | split | (intro)

theorem execWriteFixed_replies {mode3 : Bool} {wext : Fin 32} {addr : Addr} {units : List Word} {s : State} :
    replies [.time, .regs, .hp, .stg, .str, .halls, .chans, .convs, .sync, .newest, .older, .modes, .eng, .per, .aud, .gal, .bb, .jnl, .img, .nv, .mem, .wd, .clk, .ml, .pair, .pins, .tx, .free] s (execWriteFixed mode3 wext addr units s) := by
  unfold execWriteFixed
  with_reducible repeat' first
    | assumption | exact changesOnly.refl _ _ | exact keeps.refl _ | apply frame_replies | apply replies_ite
    | apply writeFrame_changes | apply writeFrame_keeps | apply changesOnly.iteL | apply keeps.iteL
    | apply changesOnly.ite | apply keeps.ite | decide | split | (intro)

theorem execNop_replies {mode3 : Bool} {s : State} :
    replies [.regs, .hp] s (execNop mode3 s) := by
  unfold execNop
  with_reducible repeat' first
    | assumption | exact changesOnly.refl _ _ | exact keeps.refl _ | apply frame_replies | apply replies_ite
    | apply changesOnly.iteL | apply keeps.iteL | apply changesOnly.ite | apply keeps.ite | decide | split | (intro)

theorem execReservedOp_replies {mode3 : Bool} {_op : Fin 3} {s : State} :
    replies [.regs, .hp, .bb] s (execReservedOp mode3 _op s) := by
  unfold execReservedOp
  with_reducible repeat' first
    | assumption | exact changesOnly.refl _ _ | exact keeps.refl _ | apply frame_replies | apply replies_ite
    | apply hostRefused_changes | apply hostRefused_keeps | apply changesOnly.iteL | apply keeps.iteL
    | apply changesOnly.ite | apply keeps.ite | decide | split | (intro)

theorem execStreamRead_replies {mode3 : Bool} {stream : Fin 24} {nbytes : Nat} {s : State} :
    replies [.regs, .hp, .str, .bb, .free] s (execStreamRead mode3 stream nbytes s) := by
  unfold execStreamRead
  with_reducible repeat' first
    | assumption | exact changesOnly.refl _ _ | exact keeps.refl _ | apply frame_replies | apply replies_ite
    | apply streamDeliver_changes | apply streamDeliver_keeps | apply changesOnly.iteL | apply keeps.iteL
    | apply changesOnly.ite | apply keeps.ite | decide | split | (intro)

theorem execStreamPeek_replies {mode3 : Bool} {stream : Fin 24} {nbytes : Nat} {s : State} :
    replies [.regs, .hp, .str, .bb, .free] s (execStreamPeek mode3 stream nbytes s) := by
  unfold execStreamPeek
  with_reducible repeat' first
    | assumption | exact changesOnly.refl _ _ | exact keeps.refl _ | apply frame_replies | apply replies_ite
    | apply streamDeliver_changes | apply streamDeliver_keeps | apply changesOnly.iteL | apply keeps.iteL
    | apply changesOnly.ite | apply keeps.ite | decide | split | (intro)

theorem execReservedStreamOp_replies {mode3 : Bool} {sop : Fin 4} {stream : Fin 64} {s : State} :
    replies [.regs, .hp, .bb] s (execReservedStreamOp mode3 sop stream s) := by
  unfold execReservedStreamOp
  with_reducible repeat' first
    | assumption | exact changesOnly.refl _ _ | exact keeps.refl _ | apply frame_replies | apply replies_ite
    | apply hostRefused_changes | apply hostRefused_keeps | apply changesOnly.iteL | apply keeps.iteL
    | apply changesOnly.ite | apply keeps.ite | decide | split | (intro)

theorem execSelConflict_replies {s : State} :
    replies [.regs, .bb] s (execSelConflict s) := by
  unfold execSelConflict
  with_reducible repeat' first
    | assumption | exact changesOnly.refl _ _ | exact keeps.refl _ | apply replies_done | apply replies_ite
    | apply raiseBit_changes | apply raiseBit_keeps | apply changesOnly.iteL | apply keeps.iteL
    | apply changesOnly.ite | apply keeps.ite | decide | split | (intro)

theorem execShort_replies {mode3 : Bool} {f : ShortFrame} {s : State} :
    replies [.time, .regs, .latch, .hp, .stg, .str, .halls, .chans, .convs, .sync, .newest, .older, .modes, .eng, .per, .aud, .gal, .bb, .jnl, .img, .nv, .mem, .wd, .clk, .ml, .pair, .pins, .tx, .free] s (execShort mode3 f s) := by
  unfold execShort
  with_reducible repeat' first
    | assumption | exact changesOnly.refl _ _ | exact keeps.refl _ | apply frame_replies | apply replies_ite
    | apply shortFrame_changes | apply shortFrame_keeps | apply changesOnly.iteL | apply keeps.iteL
    | apply changesOnly.ite | apply keeps.ite | decide | split | (intro)

theorem execFrameEndsInStatusByte_replies {_mode3 : Bool} {s : State} :
    replies [] s (execFrameEndsInStatusByte _mode3 s) := by
  unfold execFrameEndsInStatusByte
  with_reducible repeat' first
    | assumption | exact changesOnly.refl _ _ | exact keeps.refl _ | apply replies_done | apply replies_ite
    | apply changesOnly.iteL | apply keeps.iteL | apply changesOnly.ite | apply keeps.ite | decide | split | (intro)

theorem execRegisterWrite_replies {o : Origin} {addr : Addr} {mask : Word} {value : Word} {s : State} :
    replies [.time, .regs, .hp, .stg, .str, .halls, .chans, .convs, .sync, .newest, .older, .modes, .eng, .per, .aud, .gal, .bb, .jnl, .img, .nv, .mem, .wd, .clk, .ml, .pair, .pins, .tx, .free] s (execRegisterWrite o addr mask value s) := by
  unfold execRegisterWrite
  with_reducible repeat' first
    | assumption | exact changesOnly.refl _ _ | exact keeps.refl _ | apply replies_done | apply replies_ite
    | apply cmdWrite_changes | apply cmdWrite_keeps | apply changesOnly.iteL | apply keeps.iteL
    | apply changesOnly.ite | apply keeps.ite | decide | split | (intro)

theorem execCommit_replies {o : Origin} {s : State} :
    replies [.time, .regs, .hp, .stg, .str, .halls, .chans, .convs, .sync, .newest, .older, .modes, .eng, .per, .aud, .gal, .bb, .jnl, .img, .nv, .mem, .wd, .clk, .ml, .pair, .pins, .tx, .free] s (execCommit o s) := by
  unfold execCommit
  with_reducible repeat' first
    | assumption | exact changesOnly.refl _ _ | exact keeps.refl _ | exact actWrite_replies | apply replies_ite
    | apply changesOnly.iteL | apply keeps.iteL | apply changesOnly.ite | apply keeps.ite | decide | split | (intro)

theorem execCommitCheckDone_replies {s : State} :
    replies [.regs, .stg, .bb, .jnl, .nv, .mem, .pair, .tx] s (execCommitCheckDone s) := by
  unfold execCommitCheckDone
  with_reducible repeat' first
    | assumption | exact changesOnly.refl _ _ | exact keeps.refl _ | apply replies_done | apply replies_ite
    | apply commitRefused_changes | apply commitRefused_keeps | apply commitOpen_changes | apply commitOpen_keeps
    | apply changesOnly.iteL | apply keeps.iteL | apply changesOnly.ite | apply keeps.ite | decide | split | (intro)

theorem execCommitDone_replies {s : State} :
    replies [.time, .regs, .stg, .str, .halls, .chans, .convs, .newest, .older, .modes, .eng, .runs, .per, .bal, .aud, .gal, .bb, .jnl, .nv, .mem, .wd, .ml, .pair] s (execCommitDone s) := by
  unfold execCommitDone
  with_reducible repeat' first
    | assumption | exact changesOnly.refl _ _ | exact keeps.refl _ | apply replies_done | apply replies_ite
    | apply moveTo_changes | apply moveTo_keeps | apply jCommitProgress_changes | apply jCommitProgress_keeps
    | apply commitApply_changes | apply commitApply_keeps | apply commitLate_changes | apply commitLate_keeps
    | apply changesOnly.iteL | apply keeps.iteL | apply changesOnly.ite | apply keeps.ite | decide | split | (intro)

theorem execAbandon_replies {o : Origin} {s : State} :
    replies [.time, .regs, .hp, .stg, .str, .halls, .chans, .convs, .sync, .newest, .older, .modes, .eng, .per, .aud, .gal, .bb, .jnl, .img, .nv, .mem, .wd, .clk, .ml, .pair, .pins, .tx, .free] s (execAbandon o s) := by
  unfold execAbandon
  with_reducible repeat' first
    | assumption | exact changesOnly.refl _ _ | exact keeps.refl _ | exact actWrite_replies | apply replies_ite
    | apply changesOnly.iteL | apply keeps.iteL | apply changesOnly.ite | apply keeps.ite | decide | split | (intro)

theorem execSeek_replies {o : Origin} {hi : Word} {s : State} :
    replies [.time, .regs, .hp, .stg, .str, .halls, .chans, .convs, .sync, .newest, .older, .modes, .eng, .per, .aud, .gal, .bb, .jnl, .img, .nv, .mem, .wd, .clk, .ml, .pair, .pins, .tx, .free] s (execSeek o hi s) := by
  unfold execSeek
  with_reducible repeat' first
    | assumption | exact changesOnly.refl _ _ | exact keeps.refl _ | exact actWrite_replies | apply replies_ite
    | apply changesOnly.iteL | apply keeps.iteL | apply changesOnly.ite | apply keeps.ite | decide | split | (intro)

theorem execSeekOldest_replies {o : Origin} {s : State} :
    replies [.time, .regs, .hp, .stg, .str, .halls, .chans, .convs, .sync, .newest, .older, .modes, .eng, .per, .aud, .gal, .bb, .jnl, .img, .nv, .mem, .wd, .clk, .ml, .pair, .pins, .tx, .free] s (execSeekOldest o s) := by
  unfold execSeekOldest
  with_reducible repeat' first
    | assumption | exact changesOnly.refl _ _ | exact keeps.refl _ | exact actWrite_replies | apply replies_ite
    | apply changesOnly.iteL | apply keeps.iteL | apply changesOnly.ite | apply keeps.ite | decide | split | (intro)

theorem execSeekNewest_replies {o : Origin} {s : State} :
    replies [.time, .regs, .hp, .stg, .str, .halls, .chans, .convs, .sync, .newest, .older, .modes, .eng, .per, .aud, .gal, .bb, .jnl, .img, .nv, .mem, .wd, .clk, .ml, .pair, .pins, .tx, .free] s (execSeekNewest o s) := by
  unfold execSeekNewest
  with_reducible repeat' first
    | assumption | exact changesOnly.refl _ _ | exact keeps.refl _ | exact actWrite_replies | apply replies_ite
    | apply changesOnly.iteL | apply keeps.iteL | apply changesOnly.ite | apply keeps.ite | decide | split | (intro)

theorem execStreamBufferFilled_replies {s : State} :
    replies [.str] s (execStreamBufferFilled s) := by
  unfold execStreamBufferFilled
  with_reducible repeat' first
    | assumption | exact changesOnly.refl _ _ | exact keeps.refl _ | apply replies_done | apply replies_ite
    | apply changesOnly.iteL | apply keeps.iteL | apply changesOnly.ite | apply keeps.ite | decide | split
    | apply changesOnly.set_str | apply keeps.set | (intro)

theorem execAuditRelease_replies {o : Origin} {hi : Word} {s : State} :
    replies [.time, .regs, .hp, .stg, .str, .halls, .chans, .convs, .sync, .newest, .older, .modes, .eng, .per, .aud, .gal, .bb, .jnl, .img, .nv, .mem, .wd, .clk, .ml, .pair, .pins, .tx, .free] s (execAuditRelease o hi s) := by
  unfold execAuditRelease
  with_reducible repeat' first
    | assumption | exact changesOnly.refl _ _ | exact keeps.refl _ | exact actWrite_replies | apply replies_ite
    | apply changesOnly.iteL | apply keeps.iteL | apply changesOnly.ite | apply keeps.ite | decide | split | (intro)

theorem execAuditSectorErased_replies {s : State} :
    replies [.regs, .aud, .img, .nv, .wd] s (execAuditSectorErased s) := by
  unfold execAuditSectorErased
  with_reducible repeat' first
    | assumption | exact changesOnly.refl _ _ | exact keeps.refl _ | apply replies_done | apply replies_ite
    | apply nvErase_changes | apply nvErase_keeps | apply dirWrite_changes | apply dirWrite_keeps
    | apply checkIn_changes | apply checkIn_keeps | apply changesOnly.iteL | apply keeps.iteL | apply changesOnly.ite
    | apply keeps.ite | decide | split | apply changesOnly.set_aud | apply keeps.set | (intro)

theorem execAuditRecordFlashWrite_replies {ok0 : Bool} {ok1 : Bool} {s : State} :
    replies [.regs, .aud, .bb, .jnl, .img, .nv, .mem, .wd] s (execAuditRecordFlashWrite ok0 ok1 s) := by
  unfold execAuditRecordFlashWrite
  with_reducible repeat' first
    | assumption | exact changesOnly.refl _ _ | exact keeps.refl _ | apply replies_done | apply replies_ite
    | apply jCommitProgress_changes | apply jCommitProgress_keeps | apply checkIn_changes | apply checkIn_keeps
    | apply audUnread_changes | apply audUnread_keeps | apply audDrop_changes | apply audDrop_keeps
    | apply raiseBit_changes | apply raiseBit_keeps | apply chipResult_changes | apply chipResult_keeps
    | apply nvProgram_changes | apply nvProgram_keeps | apply changesOnly.iteL | apply keeps.iteL
    | apply changesOnly.ite | apply keeps.ite | decide | split | apply changesOnly.set_aud | apply keeps.set
    | (intro)

theorem execOpenImage_replies {o : Origin} {s : State} :
    replies [.time, .regs, .hp, .stg, .str, .halls, .chans, .convs, .sync, .newest, .older, .modes, .eng, .per, .aud, .gal, .bb, .jnl, .img, .nv, .mem, .wd, .clk, .ml, .pair, .pins, .tx, .free] s (execOpenImage o s) := by
  unfold execOpenImage
  with_reducible repeat' first
    | assumption | exact changesOnly.refl _ _ | exact keeps.refl _ | exact actWrite_replies | apply replies_ite
    | apply changesOnly.iteL | apply keeps.iteL | apply changesOnly.ite | apply keeps.ite | decide | split | (intro)

theorem execImageData_replies {o : Origin} {value : Word} {s : State} :
    replies [.time, .regs, .hp, .stg, .str, .halls, .chans, .convs, .sync, .newest, .older, .modes, .eng, .per, .aud, .gal, .bb, .jnl, .img, .nv, .mem, .wd, .clk, .ml, .pair, .pins, .tx, .free] s (execImageData o value s) := by
  unfold execImageData
  with_reducible repeat' first
    | assumption | exact changesOnly.refl _ _ | exact keeps.refl _ | exact actWrite_replies | apply replies_ite
    | apply changesOnly.iteL | apply keeps.iteL | apply changesOnly.ite | apply keeps.ite | decide | split | (intro)

theorem execImgWoffWrite_replies {o : Origin} {value : Word} {s : State} :
    replies [.time, .regs, .hp, .stg, .str, .halls, .chans, .convs, .sync, .newest, .older, .modes, .eng, .per, .aud, .gal, .bb, .jnl, .img, .nv, .mem, .wd, .clk, .ml, .pair, .pins, .tx, .free] s (execImgWoffWrite o value s) := by
  unfold execImgWoffWrite
  with_reducible repeat' first
    | assumption | exact changesOnly.refl _ _ | exact keeps.refl _ | exact actWrite_replies | apply replies_ite
    | apply changesOnly.iteL | apply keeps.iteL | apply changesOnly.ite | apply keeps.ite | decide | split | (intro)

theorem execClose_replies {o : Origin} {s : State} :
    replies [.time, .regs, .hp, .stg, .str, .halls, .chans, .convs, .sync, .newest, .older, .modes, .eng, .per, .aud, .gal, .bb, .jnl, .img, .nv, .mem, .wd, .clk, .ml, .pair, .pins, .tx, .free] s (execClose o s) := by
  unfold execClose
  with_reducible repeat' first
    | assumption | exact changesOnly.refl _ _ | exact keeps.refl _ | exact actWrite_replies | apply replies_ite
    | apply changesOnly.iteL | apply keeps.iteL | apply changesOnly.ite | apply keeps.ite | decide | split | (intro)

theorem execImageVerifyDone_replies {s : State} :
    replies [.regs, .bb, .jnl, .img, .nv] s (execImageVerifyDone s) := by
  unfold execImageVerifyDone
  with_reducible repeat' first
    | assumption | exact changesOnly.refl _ _ | exact keeps.refl _ | apply replies_done | apply replies_ite
    | apply imgRefused_changes | apply imgRefused_keeps | apply imgRollBack_changes | apply imgRollBack_keeps
    | apply jStep_changes | apply jStep_keeps | apply jMod_changes | apply jMod_keeps | apply raiseBit_changes
    | apply raiseBit_keeps | apply updImg_changes | apply updImg_keeps | apply setNewCopies_changes
    | apply setNewCopies_keeps | apply changesOnly.iteL | apply keeps.iteL | apply changesOnly.ite | apply keeps.ite
    | decide | split | (intro)

theorem execActivate_replies {o : Origin} {s : State} :
    replies [.time, .regs, .hp, .stg, .str, .halls, .chans, .convs, .sync, .newest, .older, .modes, .eng, .per, .aud, .gal, .bb, .jnl, .img, .nv, .mem, .wd, .clk, .ml, .pair, .pins, .tx, .free] s (execActivate o s) := by
  unfold execActivate
  with_reducible repeat' first
    | assumption | exact changesOnly.refl _ _ | exact keeps.refl _ | exact actWrite_replies | apply replies_ite
    | apply changesOnly.iteL | apply keeps.iteL | apply changesOnly.ite | apply keeps.ite | decide | split | (intro)

theorem execAbort_replies {o : Origin} {s : State} :
    replies [.time, .regs, .hp, .stg, .str, .halls, .chans, .convs, .sync, .newest, .older, .modes, .eng, .per, .aud, .gal, .bb, .jnl, .img, .nv, .mem, .wd, .clk, .ml, .pair, .pins, .tx, .free] s (execAbort o s) := by
  unfold execAbort
  with_reducible repeat' first
    | assumption | exact changesOnly.refl _ _ | exact keeps.refl _ | exact actWrite_replies | apply replies_ite
    | apply changesOnly.iteL | apply keeps.iteL | apply changesOnly.ite | apply keeps.ite | decide | split | (intro)

theorem execReload_replies {o : Origin} {h : Hall} {s : State} :
    replies [.time, .regs, .hp, .stg, .str, .halls, .chans, .convs, .sync, .newest, .older, .modes, .eng, .per, .aud, .gal, .bb, .jnl, .img, .nv, .mem, .wd, .clk, .ml, .pair, .pins, .tx, .free] s (execReload o h s) := by
  unfold execReload
  with_reducible repeat' first
    | assumption | exact changesOnly.refl _ _ | exact keeps.refl _ | exact actWrite_replies | apply replies_ite
    | apply changesOnly.iteL | apply keeps.iteL | apply changesOnly.ite | apply keeps.ite | decide | split | (intro)

theorem execRoll_replies {o : Origin} {s : State} :
    replies [.time, .regs, .hp, .stg, .str, .halls, .chans, .convs, .sync, .newest, .older, .modes, .eng, .per, .aud, .gal, .bb, .jnl, .img, .nv, .mem, .wd, .clk, .ml, .pair, .pins, .tx, .free] s (execRoll o s) := by
  unfold execRoll
  with_reducible repeat' first
    | assumption | exact changesOnly.refl _ _ | exact keeps.refl _ | exact actWrite_replies | apply replies_ite
    | apply changesOnly.iteL | apply keeps.iteL | apply changesOnly.ite | apply keeps.ite | decide | split | (intro)

theorem execRollAbandon_replies {s : State} :
    replies [.time, .regs, .bb, .jnl, .img, .nv] s (execRollAbandon s) := by
  unfold execRollAbandon
  with_reducible repeat' first
    | assumption | exact changesOnly.refl _ _ | exact keeps.refl _ | apply replies_done | apply replies_ite
    | apply imgAbort_changes | apply imgAbort_keeps | apply moveTo_changes | apply moveTo_keeps
    | apply changesOnly.iteL | apply keeps.iteL | apply changesOnly.ite | apply keeps.ite | decide | split | (intro)

theorem execRollStandbyCountDone_replies {s : State} :
    replies [.jnl, .nv, .mem, .pair, .tx] s (execRollStandbyCountDone s) := by
  unfold execRollStandbyCountDone
  with_reducible repeat' first
    | assumption | exact changesOnly.refl _ _ | exact keeps.refl _ | apply replies_done | apply replies_ite
    | apply hoRequest_changes | apply hoRequest_keeps | apply updPair_changes | apply updPair_keeps
    | apply changesOnly.iteL | apply keeps.iteL | apply changesOnly.ite | apply keeps.ite | decide | split | (intro)

theorem execHallSectionConfirmed_replies {ok : Bool} {s : State} :
    replies [.regs, .str, .halls, .chans, .convs, .newest, .older, .per, .bb, .jnl, .img, .nv, .mem, .clk] s (execHallSectionConfirmed ok s) := by
  unfold execHallSectionConfirmed
  with_reducible repeat' first
    | assumption | exact changesOnly.refl _ _ | exact keeps.refl _ | apply replies_done | apply replies_ite
    | apply startApplied_changes | apply startApplied_keeps | apply reloadConfirm_changes | apply reloadConfirm_keeps
    | apply updReload_changes | apply updReload_keeps | apply reloadFail_changes | apply reloadFail_keeps
    | apply changesOnly.iteL | apply keeps.iteL | apply changesOnly.ite | apply keeps.ite | decide | split | (intro)

theorem execReloadOutputsReleased_replies {s : State} :
    replies [.regs, .str, .halls, .chans, .convs, .newest, .older, .per, .bb, .jnl, .img, .nv, .mem] s (execReloadOutputsReleased s) := by
  unfold execReloadOutputsReleased
  with_reducible repeat' first
    | assumption | exact changesOnly.refl _ _ | exact keeps.refl _ | apply replies_done | apply replies_ite
    | apply releaseChannels_changes | apply releaseChannels_keeps | apply updReload_changes | apply updReload_keeps
    | apply jStep_changes | apply jStep_keeps | apply reloadClose_changes | apply reloadClose_keeps
    | apply report_changes | apply report_keeps | apply activateNext_changes | apply activateNext_keeps
    | apply changesOnly.iteL | apply keeps.iteL | apply changesOnly.ite | apply keeps.ite | decide | split
    | apply changesOnly.set_img | apply keeps.set | (intro)

theorem execSwitchBoundary_replies {s : State} :
    replies [.time, .regs, .stg, .str, .halls, .chans, .convs, .sync, .newest, .older, .modes, .curves, .eng, .runs, .per, .bal, .aud, .gal, .bb, .jnl, .img, .nv, .mem, .wd, .clk, .ml, .pair, .pins] s (execSwitchBoundary s) := by
  unfold execSwitchBoundary
  with_reducible repeat' first
    | assumption | exact changesOnly.refl _ _ | exact keeps.refl _ | apply replies_done | apply replies_ite
    | apply switchImage_changes | apply switchImage_keeps | apply moveTo_changes | apply moveTo_keeps
    | apply changesOnly.iteL | apply keeps.iteL | apply changesOnly.ite | apply keeps.ite | decide | split | (intro)

theorem execImageCopyCheck_replies {s : State} :
    replies [.regs, .aud, .bb, .jnl, .img, .nv, .mem] s (execImageCopyCheck s) := by
  unfold execImageCopyCheck
  with_reducible repeat' first
    | assumption | exact changesOnly.refl _ _ | exact keeps.refl _ | apply replies_done | apply replies_ite
    | apply setCopy_changes | apply setCopy_keeps | apply raiseBit_changes | apply raiseBit_keeps
    | apply audit_changes | apply audit_keeps | apply repairCopy_changes | apply repairCopy_keeps | apply forN_into
    | apply forN_keeps | apply changesOnly.iteL | apply keeps.iteL | apply changesOnly.ite | apply keeps.ite | decide
    | split | (intro)

theorem execResetNLow_replies {s : State} :
    replies [.time, .regs, .latch, .hp, .stg, .str, .halls, .chans, .convs, .sync, .newest, .older, .modes, .curves, .eng, .runs, .bal, .aud, .gal, .bb, .jnl, .img, .nv, .mem, .wd, .clk, .ml, .pair, .pins, .tx] s (execResetNLow s) := by
  unfold execResetNLow
  with_reducible repeat' first
    | assumption | exact changesOnly.refl _ _ | exact keeps.refl _ | apply replies_done | apply replies_ite
    | apply logicReset_changes | apply logicReset_keeps | apply changesOnly.iteL | apply keeps.iteL
    | apply changesOnly.ite | apply keeps.ite | decide | split | (intro)

theorem execResetNRelease_replies {straps : BitVec 2} {x : ReleasePins} {s : State} :
    replies [.regs, .bb, .wd, .clk] s (execResetNRelease straps x s) := by
  unfold execResetNRelease
  with_reducible repeat' first
    | assumption | exact changesOnly.refl _ _ | exact keeps.refl _ | apply replies_done | apply replies_ite
    | apply releaseDie_changes | apply releaseDie_keeps | apply changesOnly.iteL | apply keeps.iteL
    | apply changesOnly.ite | apply keeps.ite | decide | split | apply changesOnly.set_clk | apply keeps.set
    | (intro)

theorem execLogicSupplyFailure_replies {vddc : Bool} {s : State} :
    replies [.time, .regs, .latch, .hp, .stg, .str, .halls, .chans, .convs, .sync, .newest, .older, .modes, .curves, .eng, .runs, .bal, .aud, .gal, .bb, .jnl, .img, .nv, .mem, .wd, .clk, .ml, .pair, .pins, .tx] s (execLogicSupplyFailure vddc s) := by
  unfold execLogicSupplyFailure
  with_reducible repeat' first
    | assumption | exact changesOnly.refl _ _ | exact keeps.refl _ | apply replies_done | apply replies_ite
    | apply logicReset_changes | apply logicReset_keeps | apply freeze_changes | apply freeze_keeps
    | apply changesOnly.iteL | apply keeps.iteL | apply changesOnly.ite | apply keeps.ite | decide | split
    | apply changesOnly.set_clk | apply keeps.set | (intro)

theorem execThermalTrip_replies {s : State} :
    replies [.time, .regs, .latch, .hp, .stg, .str, .halls, .chans, .convs, .sync, .newest, .older, .modes, .curves, .eng, .runs, .bal, .aud, .gal, .bb, .jnl, .img, .nv, .mem, .wd, .clk, .ml, .pair, .pins, .tx] s (execThermalTrip s) := by
  unfold execThermalTrip
  with_reducible repeat' first
    | assumption | exact changesOnly.refl _ _ | exact keeps.refl _ | apply replies_done | apply replies_ite
    | apply logicReset_changes | apply logicReset_keeps | apply freeze_changes | apply freeze_keeps
    | apply changesOnly.iteL | apply keeps.iteL | apply changesOnly.ite | apply keeps.ite | decide | split | (intro)

theorem execPllLock_replies {f : StartFacts} {s : State} :
    replies [.time, .regs, .halls, .convs, .sync, .runs, .per, .aud, .gal, .bb, .jnl, .img, .nv, .mem, .wd, .clk, .free] s (execPllLock f s) := by
  unfold execPllLock
  with_reducible repeat' first
    | assumption | exact changesOnly.refl _ _ | exact keeps.refl _ | apply replies_done | apply replies_ite
    | apply confirmRings_changes | apply confirmRings_keeps | apply identifyChips_changes | apply identifyChips_keeps
    | apply lockClocks_changes | apply lockClocks_keeps | apply retentionLost_changes | apply retentionLost_keeps
    | apply judgeGrid_changes | apply judgeGrid_keeps | apply loadTime_changes | apply loadTime_keeps
    | apply jobsLost_changes | apply jobsLost_keeps | apply settleJournal_changes | apply settleJournal_keeps
    | apply checkIn_changes | apply checkIn_keeps | apply startFlights_changes | apply startFlights_keeps
    | apply forHalls_into | apply forHalls_keeps | apply changesOnly.iteL | apply keeps.iteL | apply changesOnly.ite
    | apply keeps.ite | decide | split | (intro)

theorem execImageChoice_replies {s : State} :
    replies [.regs, .str, .halls, .chans, .convs, .newest, .older, .curves, .eng, .per, .aud, .bb, .jnl, .img, .nv, .mem, .wd, .clk, .ml, .pair] s (execImageChoice s) := by
  unfold execImageChoice
  with_reducible repeat' first
    | assumption | exact changesOnly.refl _ _ | exact keeps.refl _ | apply replies_done | apply replies_ite
    | apply setCopy_changes | apply setCopy_keeps | apply tryCopies_changes | apply tryCopies_keeps
    | apply startApplied_changes | apply startApplied_keeps | apply applyImage_changes | apply applyImage_keeps
    | apply expiredEvt_changes | apply expiredEvt_keeps | apply settleSwaps_changes | apply settleSwaps_keeps
    | apply hallOff_changes | apply hallOff_keeps | apply checkIn_changes | apply checkIn_keeps | apply forN_into
    | apply forN_keeps | apply forHalls_into | apply forHalls_keeps | apply changesOnly.iteL | apply keeps.iteL
    | apply changesOnly.ite | apply keeps.ite | decide | split | apply changesOnly.set_clk | apply changesOnly.set_bb
    | apply keeps.set | (intro)

theorem execTotalsReconcile_replies {partner : List (Run × TotCopy)} {s : State} :
    replies [.regs, .runs, .aud, .bb, .img, .mem, .wd, .clk, .pair] s (execTotalsReconcile partner s) := by
  unfold execTotalsReconcile
  with_reducible repeat' first
    | assumption | exact changesOnly.refl _ _ | exact keeps.refl _ | apply replies_done | apply replies_ite
    | apply reconcileRun_changes | apply reconcileRun_keeps | apply updPair_changes | apply updPair_keeps
    | apply checkIn_changes | apply checkIn_keeps | apply forN_into | apply forN_keeps | apply changesOnly.iteL
    | apply keeps.iteL | apply changesOnly.ite | apply keeps.ite | decide | split | apply changesOnly.set_clk
    | apply keeps.set | (intro)

theorem execRoleSettle_replies {ans : PartnerAnswer} {actIn : Bool} {s : State} :
    replies [.regs, .stg, .halls, .chans, .convs, .per, .bb, .jnl, .img, .nv, .wd, .ml, .pair] s (execRoleSettle ans actIn s) := by
  unfold execRoleSettle
  with_reducible repeat' first
    | assumption | exact changesOnly.refl _ _ | exact keeps.refl _ | apply replies_done | apply replies_ite
    | apply checkIn_changes | apply checkIn_keeps | apply settleRole_changes | apply settleRole_keeps
    | apply changesOnly.iteL | apply keeps.iteL | apply changesOnly.ite | apply keeps.ite | decide | split | (intro)

theorem execFirstValidRunTick_replies {s : State} :
    replies [.time, .regs, .halls, .chans, .convs, .eng, .runs, .per, .bal, .aud, .gal, .bb, .jnl, .img, .nv, .mem, .wd, .clk, .pair, .tx] s (execFirstValidRunTick s) := by
  unfold execFirstValidRunTick
  with_reducible repeat' first
    | assumption | exact changesOnly.refl _ _ | exact keeps.refl _ | apply replies_done | apply replies_ite
    | apply takeBoundary_changes | apply takeBoundary_keeps | apply moveTo_changes | apply moveTo_keeps
    | apply lostTicks_changes | apply lostTicks_keeps | apply gapUpTo_changes | apply gapUpTo_keeps
    | apply balOpenAll_changes | apply balOpenAll_keeps | apply imagePlan_changes | apply imagePlan_keeps
    | apply updPair_changes | apply updPair_keeps | apply latchTick_changes | apply latchTick_keeps
    | apply samplePulses_changes | apply samplePulses_keeps | apply report_changes | apply report_keeps
    | apply releaseHall_changes | apply releaseHall_keeps | apply checkIn_changes | apply checkIn_keeps
    | apply expiredEvt_changes | apply expiredEvt_keeps | apply forHalls_into | apply forHalls_keeps
    | apply changesOnly.iteL | apply keeps.iteL | apply changesOnly.ite | apply keeps.ite | decide | split
    | apply changesOnly.set_eng | apply changesOnly.set_clk | apply keeps.set | (intro)

theorem execSpareCheckin_replies {s : State} :
    replies [.time, .regs, .hp, .stg, .str, .halls, .chans, .convs, .sync, .newest, .older, .modes, .eng, .per, .aud, .gal, .bb, .jnl, .img, .nv, .mem, .wd, .clk, .ml, .pair, .pins, .tx, .free] s (execSpareCheckin s) := by
  unfold execSpareCheckin
  with_reducible repeat' first
    | assumption | exact changesOnly.refl _ _ | exact keeps.refl _ | exact actWrite_replies | apply replies_ite
    | apply changesOnly.iteL | apply keeps.iteL | apply changesOnly.ite | apply keeps.ite | decide | split | (intro)

theorem execWatchdogPeriodEnd_replies {late : BitVec 16} {s : State} :
    replies [.time, .regs, .latch, .hp, .stg, .str, .halls, .chans, .convs, .sync, .newest, .older, .modes, .curves, .eng, .runs, .bal, .aud, .gal, .bb, .jnl, .img, .nv, .mem, .wd, .clk, .ml, .pair, .pins, .tx] s (execWatchdogPeriodEnd late s) := by
  unfold execWatchdogPeriodEnd
  with_reducible repeat' first
    | assumption | exact changesOnly.refl _ _ | exact keeps.refl _ | apply replies_done | apply replies_ite
    | apply moveTo_changes | apply moveTo_keeps | apply wdRestart_changes | apply wdRestart_keeps
    | apply wdExpire_changes | apply wdExpire_keeps | apply changesOnly.iteL | apply keeps.iteL
    | apply changesOnly.ite | apply keeps.ite | decide | split | (intro)

end Sys2Proof.Machine
end

