-- ==== Sys2Proof/Laws/Execs1.lean ====
section
/-! SUPPORT. What each command changes at most, in parts of the state (part 2 of 4). -/

set_option linter.unusedTactic false
set_option linter.unreachableTactic false

namespace Sys2Proof.Machine

theorem execWatchdogResetRelease_replies {s : State} :
    replies [.time, .regs, .bb, .wd, .clk] s (execWatchdogResetRelease s) := by
  unfold execWatchdogResetRelease
  with_reducible repeat' first
    | assumption | exact changesOnly.refl _ _ | exact keeps.refl _ | apply replies_done | apply replies_ite
    | apply releaseDie_changes | apply releaseDie_keeps | apply moveTo_changes | apply moveTo_keeps
    | apply changesOnly.iteL | apply keeps.iteL | apply changesOnly.ite | apply keeps.ite | decide | split | (intro)

theorem execWdWarn_replies {s : State} :
    replies [.time, .regs, .bb, .wd] s (execWdWarn s) := by
  unfold execWdWarn
  with_reducible repeat' first
    | assumption | exact changesOnly.refl _ _ | exact keeps.refl _ | apply replies_done | apply replies_ite
    | apply moveTo_changes | apply moveTo_keeps | apply raiseBit_changes | apply raiseBit_keeps
    | apply changesOnly.iteL | apply keeps.iteL | apply changesOnly.ite | apply keeps.ite | decide | split
    | apply changesOnly.set_wd | apply keeps.set | (intro)

theorem execDebugHalt_replies {s : State} :
    replies [.regs, .aud, .bb, .jnl, .nv, .mem, .clk, .pair, .tx] s (execDebugHalt s) := by
  unfold execDebugHalt
  with_reducible repeat' first
    | assumption | exact changesOnly.refl _ _ | exact keeps.refl _ | apply replies_done | apply replies_ite
    | apply hoRequest_changes | apply hoRequest_keeps | apply updPair_changes | apply updPair_keeps
    | apply pairEvent_changes | apply pairEvent_keeps | apply haltNow_changes | apply haltNow_keeps
    | apply changesOnly.iteL | apply keeps.iteL | apply changesOnly.ite | apply keeps.ite | decide | split | (intro)

theorem execDebugResume_replies {s : State} :
    replies [.regs, .eng, .runs, .aud, .bb, .img, .mem, .wd, .clk, .pair] s (execDebugResume s) := by
  unfold execDebugResume
  repeat' first
    | exact Or.inr (by decide) | with_reducible exact Or.inl rfl | with_reducible assumption
    | with_reducible exact changesOnly.refl _ _ | with_reducible exact keeps.refl _
    | with_reducible apply replies_done | with_reducible apply replies_ite | with_reducible apply audit_changes
    | with_reducible apply audit_keeps | with_reducible apply bbEvent_changes | with_reducible apply bbEvent_keeps
    | with_reducible apply idleSlots_changes | with_reducible apply idleSlots_keeps
    | with_reducible apply updPair_changes | with_reducible apply updPair_keeps
    | with_reducible apply changesOnly.iteL | with_reducible apply keeps.iteL | with_reducible apply changesOnly.ite
    | with_reducible apply keeps.ite | decide | split | with_reducible apply changesOnly.set_eng
    | with_reducible apply keeps.set | with_reducible (intro) | with_reducible apply changesOnly.mk

theorem execDebugReset_replies {s : State} :
    replies [.time, .regs, .latch, .hp, .stg, .str, .halls, .chans, .convs, .sync, .newest, .older, .modes, .curves, .eng, .runs, .bal, .aud, .gal, .bb, .jnl, .img, .nv, .mem, .wd, .clk, .ml, .pair, .pins, .tx] s (execDebugReset s) := by
  unfold execDebugReset
  with_reducible repeat' first
    | assumption | exact changesOnly.refl _ _ | exact keeps.refl _ | apply replies_done | apply replies_ite
    | apply restart_changes | apply restart_keeps | apply changesOnly.iteL | apply keeps.iteL | apply changesOnly.ite
    | apply keeps.ite | decide | split | (intro)

theorem execXinLost_replies {s : State} :
    replies [.regs, .bb, .clk] s (execXinLost s) := by
  unfold execXinLost
  with_reducible repeat' first
    | assumption | exact changesOnly.refl _ _ | exact keeps.refl _ | apply replies_done | apply replies_ite
    | apply eccEvent_changes | apply eccEvent_keeps | apply changesOnly.iteL | apply keeps.iteL
    | apply changesOnly.ite | apply keeps.ite | decide | split | apply changesOnly.set_clk | apply keeps.set
    | (intro)

theorem execPllUnlock_replies {i : Fin 4} {s : State} :
    replies [.regs, .bb, .clk] s (execPllUnlock i s) := by
  unfold execPllUnlock
  with_reducible repeat' first
    | assumption | exact changesOnly.refl _ _ | exact keeps.refl _ | apply replies_done | apply replies_ite
    | apply eccEvent_changes | apply eccEvent_keeps | apply changesOnly.iteL | apply keeps.iteL
    | apply changesOnly.ite | apply keeps.ite | decide | split | apply changesOnly.set_clk | apply keeps.set
    | (intro)

theorem execRef10Lost_replies {s : State} :
    replies [.regs, .bb, .clk] s (execRef10Lost s) := by
  unfold execRef10Lost
  with_reducible repeat' first
    | assumption | exact changesOnly.refl _ _ | exact keeps.refl _ | apply replies_done | apply replies_ite
    | apply eccEvent_changes | apply eccEvent_keeps | apply changesOnly.iteL | apply keeps.iteL
    | apply changesOnly.ite | apply keeps.ite | decide | split | apply changesOnly.set_clk | apply keeps.set
    | (intro)

theorem execRtcStop_replies {s : State} :
    replies [.regs, .bb, .clk] s (execRtcStop s) := by
  unfold execRtcStop
  with_reducible repeat' first
    | assumption | exact changesOnly.refl _ _ | exact keeps.refl _ | apply replies_done | apply replies_ite
    | apply eccEvent_changes | apply eccEvent_keeps | apply changesOnly.iteL | apply keeps.iteL
    | apply changesOnly.ite | apply keeps.ite | decide | split | apply changesOnly.set_clk | apply keeps.set
    | (intro)

theorem execClockConditionClear_replies {cond : ClockCond} {s : State} :
    replies [.clk] s (execClockConditionClear cond s) := by
  unfold execClockConditionClear
  with_reducible repeat' first
    | assumption | exact changesOnly.refl _ _ | exact keeps.refl _ | apply replies_done | apply replies_ite
    | apply changesOnly.iteL | apply keeps.iteL | apply changesOnly.ite | apply keeps.ite | decide | split
    | apply changesOnly.set_clk | apply keeps.set | (intro)

theorem execVbatLow_replies {s : State} :
    replies [.regs, .bb, .clk] s (execVbatLow s) := by
  unfold execVbatLow
  with_reducible repeat' first
    | assumption | exact changesOnly.refl _ _ | exact keeps.refl _ | apply replies_done | apply replies_ite
    | apply eccEvent_changes | apply eccEvent_keeps | apply changesOnly.iteL | apply keeps.iteL
    | apply changesOnly.ite | apply keeps.ite | decide | split | apply changesOnly.set_clk | apply keeps.set
    | (intro)

theorem execVbatDrop_replies {s : State} :
    replies [.clk] s (execVbatDrop s) := by
  unfold execVbatDrop
  with_reducible repeat' first
    | assumption | exact changesOnly.refl _ _ | exact keeps.refl _ | apply replies_done | apply replies_ite
    | apply changesOnly.iteL | apply keeps.iteL | apply changesOnly.ite | apply keeps.ite | decide | split
    | apply changesOnly.set_clk | apply keeps.set | (intro)

theorem execScrub_replies {mem : MemId} {word : Nat} {find : EccFind} {s : State} :
    replies [.regs, .str, .halls, .chans, .convs, .newest, .older, .bb, .jnl, .img, .nv, .mem] s (execScrub mem word find s) := by
  unfold execScrub
  with_reducible repeat' first
    | assumption | exact changesOnly.refl _ _ | exact keeps.refl _ | apply replies_done | apply replies_ite
    | apply eccCorrected_changes | apply eccCorrected_keeps | apply eccFatal_changes | apply eccFatal_keeps
    | apply changesOnly.iteL | apply keeps.iteL | apply changesOnly.ite | apply keeps.ite | decide | split | (intro)

theorem execProgramRamRewrite_replies {s : State} :
    replies [.mem] s (execProgramRamRewrite s) := by
  unfold execProgramRamRewrite
  with_reducible repeat' first
    | exact Nat.le_refl _ | exact Canon.flash_mk (by assumption) | exact Canon.rams_prog (by assumption) | exact id
    | assumption | exact changesOnly.refl _ _ | exact keeps.refl _ | apply replies_done | apply replies_ite
    | apply changesOnly.iteL | apply keeps.iteL | apply changesOnly.ite | apply keeps.ite | decide | split
    | apply changesOnly.set_mem | apply keeps.set | (intro) | dsimp only | exact Canon.flash_mk | exact Canon.rams_mk
    | exact Canon.rams_prog | apply keeps.mk

theorem execHallHeartbeatSend_replies {s : State} :
    replies [.regs, .halls, .img, .wd, .tx] s (execHallHeartbeatSend s) := by
  unfold execHallHeartbeatSend
  with_reducible repeat' first
    | assumption | exact changesOnly.refl _ _ | exact keeps.refl _ | apply replies_done | apply replies_ite
    | apply checkIn_changes | apply checkIn_keeps | apply sendHeartbeat_changes | apply sendHeartbeat_keeps
    | apply forHalls_into | apply forHalls_keeps | apply changesOnly.iteL | apply keeps.iteL | apply changesOnly.ite
    | apply keeps.ite | decide | split | (intro)

theorem execHeartbeat_replies {h : Hall} {good : Bool} {seq : BitVec 16} {s : State} :
    replies [.regs, .halls, .chans, .convs, .per, .bb] s (execHeartbeat h good seq s) := by
  unfold execHeartbeat
  with_reducible repeat' first
    | assumption | exact changesOnly.refl _ _ | exact keeps.refl _ | apply replies_done | apply replies_ite
    | apply updHall_changes | apply updHall_keeps | apply releaseHall_changes | apply releaseHall_keeps
    | apply report_changes | apply report_keeps | apply changesOnly.iteL | apply keeps.iteL | apply changesOnly.ite
    | apply keeps.ite | decide | split | (intro)

theorem execHbLoss_replies {h : Hall} {s : State} :
    replies [.regs, .halls, .chans, .convs, .per, .bb] s (execHbLoss h s) := by
  unfold execHbLoss
  with_reducible repeat' first
    | assumption | exact changesOnly.refl _ _ | exact keeps.refl _ | apply replies_done | apply replies_ite
    | apply hallEvent_changes | apply hallEvent_keeps | apply hallFlag_changes | apply hallFlag_keeps
    | apply report_changes | apply report_keeps | apply resolveAll_changes | apply resolveAll_keeps
    | apply standbyForm_changes | apply standbyForm_keeps | apply forChans_into | apply forChans_keeps
    | apply changesOnly.iteL | apply keeps.iteL | apply changesOnly.ite | apply keeps.ite | decide | split | (intro)

theorem execStatusFrame_replies {h : Hall} {m : HallMeas} {s : State} :
    replies [.regs, .halls, .chans, .per, .bb] s (execStatusFrame h m s) := by
  unfold execStatusFrame
  with_reducible repeat' first
    | assumption | exact changesOnly.refl _ _ | exact keeps.refl _ | apply replies_done | apply replies_ite
    | apply crossingFull_changes | apply crossingFull_keeps | apply updHall_changes | apply updHall_keeps
    | apply modReg_changes | apply modReg_keeps | apply setReg_changes | apply setReg_keeps | apply report_changes
    | apply report_keeps | apply readbackState_changes | apply readbackState_keeps | apply changesOnly.iteL
    | apply keeps.iteL | apply changesOnly.ite | apply keeps.ite | decide | split | (intro)

theorem execHallDown_replies {h : Hall} {s : State} :
    replies [.regs, .halls, .bb] s (execHallDown h s) := by
  unfold execHallDown
  with_reducible repeat' first
    | assumption | exact changesOnly.refl _ _ | exact keeps.refl _ | apply replies_done | apply replies_ite
    | apply setReg_changes | apply setReg_keeps | apply unlink_changes | apply unlink_keeps | apply raiseBit_changes
    | apply raiseBit_keeps | apply changesOnly.iteL | apply keeps.iteL | apply changesOnly.ite | apply keeps.ite
    | decide | split | (intro)

theorem execUnderVoltageReset_replies {h : Hall} {s : State} :
    replies [.regs, .halls, .chans, .convs] s (execUnderVoltageReset h s) := by
  unfold execUnderVoltageReset
  with_reducible repeat' first
    | assumption | exact changesOnly.refl _ _ | exact keeps.refl _ | apply replies_done | apply replies_ite
    | apply hallReset1_changes | apply hallReset1_keeps | apply unlink_changes | apply unlink_keeps
    | apply changesOnly.iteL | apply keeps.iteL | apply changesOnly.ite | apply keeps.ite | decide | split | (intro)

theorem execHallUvrExit_replies {h : Hall} {s : State} :
    replies [.halls] s (execHallUvrExit h s) := by
  unfold execHallUvrExit
  with_reducible repeat' first
    | assumption | exact changesOnly.refl _ _ | exact keeps.refl _ | apply replies_done | apply replies_ite
    | apply updHall_changes | apply updHall_keeps | apply changesOnly.iteL | apply keeps.iteL | apply changesOnly.ite
    | apply keeps.ite | decide | split | (intro)

theorem execHallAnnounce_replies {h : Hall} {s : State} :
    replies [.regs, .str, .halls, .chans, .convs, .newest, .older, .bb, .jnl, .img, .nv, .mem] s (execHallAnnounce h s) := by
  unfold execHallAnnounce
  with_reducible repeat' first
    | assumption | exact changesOnly.refl _ _ | exact keeps.refl _ | apply replies_done | apply replies_ite
    | apply raiseBit_changes | apply raiseBit_keeps | apply updHall_changes | apply updHall_keeps
    | apply reloadBegin_changes | apply reloadBegin_keeps | apply reloadDrop_changes | apply reloadDrop_keeps
    | apply changesOnly.iteL | apply keeps.iteL | apply changesOnly.ite | apply keeps.ite | decide | split | (intro)

theorem execSag1_replies {h : Hall} {s : State} :
    replies [.regs, .halls, .chans, .per, .bb] s (execSag1 h s) := by
  unfold execSag1
  with_reducible repeat' first
    | assumption | exact changesOnly.refl _ _ | exact keeps.refl _ | apply hallDo_replies | apply replies_ite
    | apply hallFlag_changes | apply hallFlag_keeps | apply changesOnly.iteL | apply keeps.iteL
    | apply changesOnly.ite | apply keeps.ite | decide | split | (intro)

theorem execSag2_replies {h : Hall} {s : State} :
    replies [.regs, .halls, .chans, .per, .bb] s (execSag2 h s) := by
  unfold execSag2
  with_reducible repeat' first
    | assumption | exact changesOnly.refl _ _ | exact keeps.refl _ | apply hallDo_replies | apply replies_ite
    | apply riskOf_changes | apply riskOf_keeps | apply hallFlag_changes | apply hallFlag_keeps | apply forChans_into
    | apply forChans_keeps | apply changesOnly.iteL | apply keeps.iteL | apply changesOnly.ite | apply keeps.ite
    | decide | split | (intro)

theorem execSag3_replies {h : Hall} {s : State} :
    replies [.regs, .halls, .chans, .per, .bb] s (execSag3 h s) := by
  unfold execSag3
  with_reducible repeat' first
    | assumption | exact changesOnly.refl _ _ | exact keeps.refl _ | apply hallDo_replies | apply replies_ite
    | apply updHall_changes | apply updHall_keeps | apply hallFlag_changes | apply hallFlag_keeps
    | apply updChan_changes | apply updChan_keeps | apply resolveAll_changes | apply resolveAll_keeps
    | apply sagRamps_changes | apply sagRamps_keeps | apply forChans_into | apply forChans_keeps
    | apply changesOnly.iteL | apply keeps.iteL | apply changesOnly.ite | apply keeps.ite | decide | split | (intro)

theorem execSag1Clear_replies {h : Hall} {s : State} :
    replies [.regs, .halls, .chans, .per, .bb] s (execSag1Clear h s) := by
  unfold execSag1Clear
  with_reducible repeat' first
    | assumption | exact changesOnly.refl _ _ | exact keeps.refl _ | apply hallDo_replies | apply replies_ite
    | apply hallFlag_changes | apply hallFlag_keeps | apply changesOnly.iteL | apply keeps.iteL
    | apply changesOnly.ite | apply keeps.ite | decide | split | (intro)

theorem execSag2Clear_replies {h : Hall} {s : State} :
    replies [.regs, .halls, .chans, .per, .bb] s (execSag2Clear h s) := by
  unfold execSag2Clear
  with_reducible repeat' first
    | assumption | exact changesOnly.refl _ _ | exact keeps.refl _ | apply hallDo_replies | apply replies_ite
    | apply riskOf_changes | apply riskOf_keeps | apply hallFlag_changes | apply hallFlag_keeps | apply forChans_into
    | apply forChans_keeps | apply changesOnly.iteL | apply keeps.iteL | apply changesOnly.ite | apply keeps.ite
    | decide | split | (intro)

theorem execRecovering_replies {h : Hall} {above : Bool} {s : State} :
    replies [.regs, .halls, .chans, .per, .bb] s (execRecovering h above s) := by
  unfold execRecovering
  with_reducible repeat' first
    | assumption | exact changesOnly.refl _ _ | exact keeps.refl _ | apply hallDo_replies | apply replies_ite
    | apply hallFlag_changes | apply hallFlag_keeps | apply changesOnly.iteL | apply keeps.iteL
    | apply changesOnly.ite | apply keeps.ite | decide | split | (intro)

theorem execRecoveryEnd_replies {h : Hall} {s : State} :
    replies [.regs, .halls, .chans, .per, .bb] s (execRecoveryEnd h s) := by
  unfold execRecoveryEnd
  with_reducible repeat' first
    | assumption | exact changesOnly.refl _ _ | exact keeps.refl _ | apply hallDo_replies | apply replies_ite
    | apply hallFlag_changes | apply hallFlag_keeps | apply updHall_changes | apply updHall_keeps
    | apply leaveAll_changes | apply leaveAll_keeps | apply changesOnly.iteL | apply keeps.iteL
    | apply changesOnly.ite | apply keeps.ite | decide | split | (intro)

theorem execRestoreSwitchOn_replies {h : Hall} {s : State} :
    replies [.time, .regs, .halls, .chans, .per, .bb] s (execRestoreSwitchOn h s) := by
  unfold execRestoreSwitchOn
  with_reducible repeat' first
    | assumption | exact changesOnly.refl _ _ | exact keeps.refl _ | apply hallDo_replies | apply replies_ite
    | apply moveTo_changes | apply moveTo_keeps | apply updHall_changes | apply updHall_keeps | apply updChan_changes
    | apply updChan_keeps | apply resolve_changes | apply resolve_keeps | apply changesOnly.foldl | apply keeps.foldl
    | apply changesOnly.iteL | apply keeps.iteL | apply changesOnly.ite | apply keeps.ite | decide | split | (intro)

theorem execDieTempMeasure_replies {h : Hall} {deciC : Int} {s : State} :
    replies [.regs, .halls, .chans, .per, .bb] s (execDieTempMeasure h deciC s) := by
  unfold execDieTempMeasure
  with_reducible repeat' first
    | assumption | exact changesOnly.refl _ _ | exact keeps.refl _ | apply hallDo_replies | apply replies_ite
    | apply updHall_changes | apply updHall_keeps | apply hallFlag_changes | apply hallFlag_keeps
    | apply resolveAll_changes | apply resolveAll_keeps | apply changesOnly.iteL | apply keeps.iteL
    | apply changesOnly.ite | apply keeps.ite | decide | split | (intro)

theorem execHallOvertempEnd_replies {h : Hall} {s : State} :
    replies [.regs, .halls, .chans, .per, .bb] s (execHallOvertempEnd h s) := by
  unfold execHallOvertempEnd
  with_reducible repeat' first
    | assumption | exact changesOnly.refl _ _ | exact keeps.refl _ | apply hallDo_replies | apply replies_ite
    | apply leaveAll_changes | apply leaveAll_keeps | apply hallFlag_changes | apply hallFlag_keeps
    | apply changesOnly.iteL | apply keeps.iteL | apply changesOnly.ite | apply keeps.ite | decide | split | (intro)

theorem execLpOverDecl_replies {h : Hall} {on : Bool} {s : State} :
    replies [.regs, .halls, .chans, .per, .bb] s (execLpOverDecl h on s) := by
  unfold execLpOverDecl
  with_reducible repeat' first
    | assumption | exact changesOnly.refl _ _ | exact keeps.refl _ | apply hallDo_replies | apply replies_ite
    | apply hallFlag_changes | apply hallFlag_keeps | apply changesOnly.iteL | apply keeps.iteL
    | apply changesOnly.ite | apply keeps.ite | decide | split | (intro)

theorem execStateEvt_replies {h : Hall} {ch : Chan} {level : Bool} {s : State} :
    replies [.regs, .halls, .chans, .per, .bb] s (execStateEvt h ch level s) := by
  unfold execStateEvt
  with_reducible repeat' first
    | assumption | exact changesOnly.refl _ _ | exact keeps.refl _ | apply hallDo_replies | apply replies_ite
    | apply chStateAt_changes | apply chStateAt_keeps | apply changesOnly.iteL | apply keeps.iteL
    | apply changesOnly.ite | apply keeps.ite | decide | split | (intro)

theorem execWireBreakMeasure_replies {h : Hall} {ch : Chan} {i : MicroAmp} {s : State} :
    replies [.regs, .halls, .chans, .per, .bb] s (execWireBreakMeasure h ch i s) := by
  unfold execWireBreakMeasure
  with_reducible repeat' first
    | assumption | exact changesOnly.refl _ _ | exact keeps.refl _ | apply hallDo_replies | apply replies_ite
    | apply updChan_changes | apply updChan_keeps | apply wbEffect_changes | apply wbEffect_keeps
    | apply changesOnly.iteL | apply keeps.iteL | apply changesOnly.ite | apply keeps.ite | decide | split | (intro)

theorem execPulseEdge_replies {h : Hall} {ch : Chan} {rising : Bool} {phaseNs : Nat} {s : State} :
    replies [.regs, .halls, .chans, .per, .bb, .free] s (execPulseEdge h ch rising phaseNs s) := by
  unfold execPulseEdge
  with_reducible repeat' first
    | assumption | exact changesOnly.refl _ _ | exact keeps.refl _ | apply hallDo_replies | apply replies_ite
    | apply chFlag_changes | apply chFlag_keeps | apply takeFree_changes | apply takeFree_keeps
    | apply countEdge_changes | apply countEdge_keeps | apply changesOnly.iteL | apply keeps.iteL
    | apply changesOnly.ite | apply keeps.ite | decide | split | (intro)

theorem execFreqHighClear_replies {h : Hall} {ch : Chan} {s : State} :
    replies [.regs, .halls, .chans, .per, .bb] s (execFreqHighClear h ch s) := by
  unfold execFreqHighClear
  with_reducible repeat' first
    | assumption | exact changesOnly.refl _ _ | exact keeps.refl _ | apply hallDo_replies | apply replies_ite
    | apply chFlag_changes | apply chFlag_keeps | apply changesOnly.iteL | apply keeps.iteL | apply changesOnly.ite
    | apply keeps.ite | decide | split | (intro)

theorem execPulseDelivery_replies {h : Hall} {ch : Chan} {r : PulseReport} {s : State} :
    replies [.regs, .halls, .chans, .per, .bb, .pair, .tx] s (execPulseDelivery h ch r s) := by
  unfold execPulseDelivery
  with_reducible repeat' first
    | assumption | exact changesOnly.refl _ _ | exact keeps.refl _ | apply hallDo_replies | apply replies_ite
    | apply updChan_changes | apply updChan_keeps | apply crossingFull_changes | apply crossingFull_keeps
    | apply pairSend_changes | apply pairSend_keeps | apply changesOnly.iteL | apply keeps.iteL
    | apply changesOnly.ite | apply keeps.ite | decide | split | (intro)

theorem execOutputCommand_replies {h : Hall} {ch : Chan} {value : BitVec 32} {s : State} :
    replies [.regs, .halls, .chans, .per, .bb] s (execOutputCommand h ch value s) := by
  unfold execOutputCommand
  with_reducible repeat' first
    | assumption | exact changesOnly.refl _ _ | exact keeps.refl _ | apply hallDo_replies | apply replies_ite
    | apply takeBacklog_changes | apply takeBacklog_keeps | apply applyCommand_changes | apply applyCommand_keeps
    | apply changesOnly.iteL | apply keeps.iteL | apply changesOnly.ite | apply keeps.ite | decide | split | (intro)

theorem execModeChangeApply_replies {h : Hall} {ch : Chan} {s : State} :
    replies [.time, .regs, .halls, .chans, .convs, .per, .bb] s (execModeChangeApply h ch s) := by
  unfold execModeChangeApply
  with_reducible repeat' first
    | assumption | exact changesOnly.refl _ _ | exact keeps.refl _ | apply replies_done | apply replies_ite
    | apply takeMode_changes | apply takeMode_keeps | apply moveTo_changes | apply moveTo_keeps
    | apply report_changes | apply report_keeps | apply restartChannel_changes | apply restartChannel_keeps
    | apply changesOnly.iteL | apply keeps.iteL | apply changesOnly.ite | apply keeps.ite | decide | split | (intro)

theorem execOverload_replies {h : Hall} {x : Overload} {s : State} :
    replies [.regs, .halls, .chans, .per, .bb] s (execOverload h x s) := by
  unfold execOverload
  with_reducible repeat' first
    | assumption | exact changesOnly.refl _ _ | exact keeps.refl _ | apply hallDo_replies | apply replies_ite
    | apply chFlag_changes | apply chFlag_keeps | apply gangFail_changes | apply gangFail_keeps
    | apply cutRetry_changes | apply cutRetry_keeps | apply changesOnly.iteL | apply keeps.iteL
    | apply changesOnly.ite | apply keeps.ite | decide | split | (intro)

theorem execExtDrive_replies {h : Hall} {x : OutsideDrive} {s : State} :
    replies [.regs, .halls, .chans, .per, .bb] s (execExtDrive h x s) := by
  unfold execExtDrive
  with_reducible repeat' first
    | assumption | exact changesOnly.refl _ _ | exact keeps.refl _ | apply hallDo_replies | apply replies_ite
    | apply chFlag_changes | apply chFlag_keeps | apply gangFail_changes | apply gangFail_keeps
    | apply changesOnly.iteL | apply keeps.iteL | apply changesOnly.ite | apply keeps.ite | decide | split | (intro)

theorem execReverseCurrent_replies {h : Hall} {ch : Chan} {s : State} :
    replies [.regs, .halls, .chans, .per, .bb] s (execReverseCurrent h ch s) := by
  unfold execReverseCurrent
  with_reducible repeat' first
    | assumption | exact changesOnly.refl _ _ | exact keeps.refl _ | apply hallDo_replies | apply replies_ite
    | apply chFlag_changes | apply chFlag_keeps | apply updChan_changes | apply updChan_keeps
    | apply gangFail_changes | apply gangFail_keeps | apply cutLatch_changes | apply cutLatch_keeps
    | apply changesOnly.iteL | apply keeps.iteL | apply changesOnly.ite | apply keeps.ite | decide | split | (intro)

theorem execReadback_replies {h : Hall} {ch : Chan} {s : State} :
    replies [.regs, .halls, .chans, .per, .bb] s (execReadback h ch s) := by
  unfold execReadback
  with_reducible repeat' first
    | assumption | exact changesOnly.refl _ _ | exact keeps.refl _ | apply hallDo_replies | apply replies_ite
    | apply chFlag_changes | apply chFlag_keeps | apply gangFail_changes | apply gangFail_keeps
    | apply cutLatch_changes | apply cutLatch_keeps | apply changesOnly.iteL | apply keeps.iteL
    | apply changesOnly.ite | apply keeps.ite | decide | split | (intro)

theorem execLoopShort_replies {h : Hall} {ch : Chan} {s : State} :
    replies [.regs, .halls, .chans, .per, .bb] s (execLoopShort h ch s) := by
  unfold execLoopShort
  with_reducible repeat' first
    | assumption | exact changesOnly.refl _ _ | exact keeps.refl _ | apply hallDo_replies | apply replies_ite
    | apply cutRetry_changes | apply cutRetry_keeps | apply chFlag_changes | apply chFlag_keeps
    | apply changesOnly.iteL | apply keeps.iteL | apply changesOnly.ite | apply keeps.ite | decide | split | (intro)

theorem execBurdenOver_replies {h : Hall} {ch : Chan} {s : State} :
    replies [.regs, .halls, .chans, .per, .bb] s (execBurdenOver h ch s) := by
  unfold execBurdenOver
  with_reducible repeat' first
    | assumption | exact changesOnly.refl _ _ | exact keeps.refl _ | apply hallDo_replies | apply replies_ite
    | apply cutRetry_changes | apply cutRetry_keeps | apply ainFlag_changes | apply ainFlag_keeps
    | apply changesOnly.iteL | apply keeps.iteL | apply changesOnly.ite | apply keeps.ite | decide | split | (intro)

theorem execRetry_replies {h : Hall} {ch : Chan} {again : Bool} {s : State} :
    replies [.regs, .halls, .chans, .per, .bb] s (execRetry h ch again s) := by
  unfold execRetry
  with_reducible repeat' first
    | assumption | exact changesOnly.refl _ _ | exact keeps.refl _ | apply hallDo_replies | apply replies_ite
    | apply cutRetry_changes | apply cutRetry_keeps | apply updChan_changes | apply updChan_keeps
    | apply ainFlag_changes | apply ainFlag_keeps | apply chFlag_changes | apply chFlag_keeps | apply resolve_changes
    | apply resolve_keeps | apply changesOnly.iteL | apply keeps.iteL | apply changesOnly.ite | apply keeps.ite
    | decide | split | (intro)

theorem execRetryClear_replies {h : Hall} {ch : Chan} {s : State} :
    replies [.regs, .halls, .chans, .per, .bb] s (execRetryClear h ch s) := by
  unfold execRetryClear
  with_reducible repeat' first
    | assumption | exact changesOnly.refl _ _ | exact keeps.refl _ | apply hallDo_replies | apply replies_ite
    | apply chFlag_changes | apply chFlag_keeps | apply updChan_changes | apply updChan_keeps
    | apply changesOnly.iteL | apply keeps.iteL | apply changesOnly.ite | apply keeps.ite | decide | split | (intro)

theorem execHallAck_replies {o : Origin} {h : Hall} {acks : BitVec 4} {present : BitVec 4} {s : State} :
    replies [.time, .regs, .hp, .stg, .str, .halls, .chans, .convs, .sync, .newest, .older, .modes, .eng, .per, .aud, .gal, .bb, .jnl, .img, .nv, .mem, .wd, .clk, .ml, .pair, .pins, .tx, .free] s (execHallAck o h acks present s) := by
  unfold execHallAck
  with_reducible repeat' first
    | assumption | exact changesOnly.refl _ _ | exact keeps.refl _ | apply replies_done | apply replies_ite
    | apply cmdWrite_changes | apply cmdWrite_keeps | apply changesOnly.iteL | apply keeps.iteL
    | apply changesOnly.ite | apply keeps.ite | decide | split | (intro)

theorem execForceSafe_replies {o : Origin} {h : Hall} {s : State} :
    replies [.time, .regs, .hp, .stg, .str, .halls, .chans, .convs, .sync, .newest, .older, .modes, .eng, .per, .aud, .gal, .bb, .jnl, .img, .nv, .mem, .wd, .clk, .ml, .pair, .pins, .tx, .free] s (execForceSafe o h s) := by
  unfold execForceSafe
  with_reducible repeat' first
    | assumption | exact changesOnly.refl _ _ | exact keeps.refl _ | exact actWrite_replies | apply replies_ite
    | apply changesOnly.iteL | apply keeps.iteL | apply changesOnly.ite | apply keeps.ite | decide | split | (intro)

end Sys2Proof.Machine
end

