-- ==== Sys2Proof/Laws/Execs2.lean ====
section
/-! SUPPORT. What each command changes at most, in parts of the state (part 3 of 4). -/

set_option linter.unusedTactic false
set_option linter.unreachableTactic false

namespace Sys2Proof.Machine

theorem execForceSafeRelease_replies {o : Origin} {h : Hall} {s : State} :
    replies [.time, .regs, .hp, .stg, .str, .halls, .chans, .convs, .sync, .newest, .older, .modes, .eng, .per, .aud, .gal, .bb, .jnl, .img, .nv, .mem, .wd, .clk, .ml, .pair, .pins, .tx, .free] s (execForceSafeRelease o h s) := by
  unfold execForceSafeRelease
  with_reducible repeat' first
    | assumption | exact changesOnly.refl _ _ | exact keeps.refl _ | exact actWrite_replies | apply replies_ite
    | apply changesOnly.iteL | apply keeps.iteL | apply changesOnly.ite | apply keeps.ite | decide | split | (intro)

theorem execCurrentMonitorSample_replies {h : Hall} {ch : Chan} {iMeas : MicroAmp} {vFrc : Int} {vLp : Int} {s : State} :
    replies [.regs, .halls, .chans, .per, .bb] s (execCurrentMonitorSample h ch iMeas vFrc vLp s) := by
  unfold execCurrentMonitorSample
  with_reducible repeat' first
    | assumption | exact changesOnly.refl _ _ | exact keeps.refl _ | apply hallDo_replies | apply replies_ite
    | apply updChan_changes | apply updChan_keeps | apply monitorFlags_changes | apply monitorFlags_keeps
    | apply changesOnly.iteL | apply keeps.iteL | apply changesOnly.ite | apply keeps.ite | decide | split | (intro)

theorem execExtOvercurrentReclose_replies {h : Hall} {ch : Chan} {again : Bool} {s : State} :
    replies [.regs, .halls, .chans, .per, .bb] s (execExtOvercurrentReclose h ch again s) := by
  unfold execExtOvercurrentReclose
  with_reducible repeat' first
    | assumption | exact changesOnly.refl _ _ | exact keeps.refl _ | apply hallDo_replies | apply replies_ite
    | apply resolve_changes | apply resolve_keeps | apply updChan_changes | apply updChan_keeps
    | apply extDetected_changes | apply extDetected_keeps | apply changesOnly.iteL | apply keeps.iteL
    | apply changesOnly.ite | apply keeps.ite | decide | split | (intro)

theorem execExtOvercurrentClear_replies {h : Hall} {ch : Chan} {s : State} :
    replies [.regs, .halls, .chans, .per, .bb] s (execExtOvercurrentClear h ch s) := by
  unfold execExtOvercurrentClear
  with_reducible repeat' first
    | assumption | exact changesOnly.refl _ _ | exact keeps.refl _ | apply hallDo_replies | apply replies_ite
    | apply updChan_changes | apply updChan_keeps | apply leaveSafe_changes | apply leaveSafe_keeps
    | apply chFlag_changes | apply chFlag_keeps | apply changesOnly.iteL | apply keeps.iteL | apply changesOnly.ite
    | apply keeps.ite | decide | split | (intro)

theorem execVexcLimit_replies {h : Hall} {on : Bool} {s : State} :
    replies [.regs, .halls, .chans, .per, .bb] s (execVexcLimit h on s) := by
  unfold execVexcLimit
  with_reducible repeat' first
    | assumption | exact changesOnly.refl _ _ | exact keeps.refl _ | apply hallDo_replies | apply replies_ite
    | apply excFlag_changes | apply excFlag_keeps | apply changesOnly.iteL | apply keeps.iteL | apply changesOnly.ite
    | apply keeps.ite | decide | split | (intro)

theorem execVexcSenseOpen_replies {h : Hall} {on : Bool} {s : State} :
    replies [.regs, .halls, .chans, .per, .bb] s (execVexcSenseOpen h on s) := by
  unfold execVexcSenseOpen
  with_reducible repeat' first
    | assumption | exact changesOnly.refl _ _ | exact keeps.refl _ | apply hallDo_replies | apply replies_ite
    | apply excFlag_changes | apply excFlag_keeps | apply changesOnly.iteL | apply keeps.iteL | apply changesOnly.ite
    | apply keeps.ite | decide | split | (intro)

theorem execForce_replies {o : Origin} {h : Hall} {s : State} :
    replies [.time, .regs, .hp, .stg, .str, .halls, .chans, .convs, .sync, .newest, .older, .modes, .eng, .per, .aud, .gal, .bb, .jnl, .img, .nv, .mem, .wd, .clk, .ml, .pair, .pins, .tx, .free] s (execForce o h s) := by
  unfold execForce
  with_reducible repeat' first
    | assumption | exact changesOnly.refl _ _ | exact keeps.refl _ | exact actWrite_replies | apply replies_ite
    | apply changesOnly.iteL | apply keeps.iteL | apply changesOnly.ite | apply keeps.ite | decide | split | (intro)

theorem execStepBoundary_replies {n : Conv} {s : State} :
    replies [.time, .regs, .halls, .chans, .convs, .per, .bb] s (execStepBoundary n s) := by
  unfold execStepBoundary
  with_reducible repeat' first
    | assumption | exact changesOnly.refl _ _ | exact keeps.refl _ | apply replies_done | apply replies_ite
    | apply moveTo_changes | apply moveTo_keeps | apply swapAt_changes | apply swapAt_keeps
    | apply takeNewFlight_changes | apply takeNewFlight_keeps | apply moveFlight_changes | apply moveFlight_keeps
    | apply report_changes | apply report_keeps | apply updConv_changes | apply updConv_keeps
    | apply startRotation_changes | apply startRotation_keeps | apply beginStep_changes | apply beginStep_keeps
    | apply joinShadow_changes | apply joinShadow_keeps | apply changesOnly.iteL | apply keeps.iteL
    | apply changesOnly.ite | apply keeps.ite | decide | split | (intro) | dsimp only

theorem execTcOpen_replies {n : Conv} {high : Bool} {s : State} :
    replies [.regs, .halls, .chans, .convs, .per, .bb] s (execTcOpen n high s) := by
  unfold execTcOpen
  with_reducible repeat' first
    | assumption | exact changesOnly.refl _ _ | exact keeps.refl _ | apply replies_done | apply replies_ite
    | apply report_changes | apply report_keeps | apply ainFlag_changes | apply ainFlag_keeps | apply updConv_changes
    | apply updConv_keeps | apply changesOnly.iteL | apply keeps.iteL | apply changesOnly.ite | apply keeps.ite
    | decide | split | (intro)

theorem execSettlingEnd_replies {n : Conv} {s : State} :
    replies [.time, .convs] s (execSettlingEnd n s) := by
  unfold execSettlingEnd
  with_reducible repeat' first
    | assumption | exact changesOnly.refl _ _ | exact keeps.refl _ | apply replies_done | apply replies_ite
    | apply moveTo_changes | apply moveTo_keeps | apply restartAt_changes | apply restartAt_keeps
    | apply leaveShadow_changes | apply leaveShadow_keeps | apply updConv_changes | apply updConv_keeps
    | apply openWindow_changes | apply openWindow_keeps | apply changesOnly.iteL | apply keeps.iteL
    | apply changesOnly.ite | apply keeps.ite | decide | split | (intro) | dsimp only

theorem execResultComplete_replies {n : Conv} {x : Sample} {s : State} :
    replies [.time, .regs, .halls, .chans, .convs, .per, .bb, .img, .wd] s (execResultComplete n x s) := by
  unfold execResultComplete
  with_reducible repeat' first
    | assumption | exact changesOnly.refl _ _ | exact keeps.refl _ | apply replies_done | apply replies_ite
    | apply report_changes | apply report_keeps | apply windowEnd_changes | apply windowEnd_keeps
    | apply moveTo_changes | apply moveTo_keeps | apply changesOnly.iteL | apply keeps.iteL | apply changesOnly.ite
    | apply keeps.ite | decide | split | (intro)

theorem execResultDmaWrite_replies {n : Conv} {fits : Bool} {s : State} :
    replies [.regs, .convs, .newest, .older, .bb, .mem, .pair, .tx] s (execResultDmaWrite n fits s) := by
  unfold execResultDmaWrite
  with_reducible repeat' first
    | assumption | exact changesOnly.refl _ _ | exact keeps.refl _ | apply replies_done | apply replies_ite
    | apply updConv_changes | apply updConv_keeps | apply crossingFull_changes | apply crossingFull_keeps
    | apply setReg_changes | apply setReg_keeps | apply discard_changes | apply discard_keeps
    | apply placeRec_changes | apply placeRec_keeps | apply pairSend_changes | apply pairSend_keeps
    | apply monitorRec_changes | apply monitorRec_keeps | apply sampleTake_changes | apply sampleTake_keeps
    | apply changesOnly.iteL | apply keeps.iteL | apply changesOnly.ite | apply keeps.ite | decide | split | (intro)

theorem execInjGo_replies {o : Origin} {n : Conv} {s : State} :
    replies [.time, .regs, .hp, .stg, .str, .halls, .chans, .convs, .sync, .newest, .older, .modes, .eng, .per, .aud, .gal, .bb, .jnl, .img, .nv, .mem, .wd, .clk, .ml, .pair, .pins, .tx, .free] s (execInjGo o n s) := by
  unfold execInjGo
  with_reducible repeat' first
    | assumption | exact changesOnly.refl _ _ | exact keeps.refl _ | exact actWrite_replies | apply replies_ite
    | apply changesOnly.iteL | apply keeps.iteL | apply changesOnly.ite | apply keeps.ite | decide | split | (intro)

theorem execInjectedSequenceStart_replies {n : Conv} {s : State} :
    replies [.time, .regs, .halls, .convs, .bb] s (execInjectedSequenceStart n s) := by
  unfold execInjectedSequenceStart
  with_reducible repeat' first
    | assumption | exact changesOnly.refl _ _ | exact keeps.refl _ | apply replies_done | apply replies_ite
    | apply takeTrigger_changes | apply takeTrigger_keeps | apply moveTo_changes | apply moveTo_keeps
    | apply updConv_changes | apply updConv_keeps | apply changesOnly.iteL | apply keeps.iteL | apply changesOnly.ite
    | apply keeps.ite | decide | split | (intro)

theorem execBlankAssert_replies {h : Hall} {input : Fin 2} {s : State} :
    replies [.regs, .halls, .chans, .convs, .per, .bb] s (execBlankAssert h input s) := by
  unfold execBlankAssert
  with_reducible repeat' first
    | assumption | exact changesOnly.refl _ _ | exact keeps.refl _ | apply replies_done | apply replies_ite
    | apply updHall_changes | apply updHall_keeps | apply report_changes | apply report_keeps
    | apply afterBlank_changes | apply afterBlank_keeps | apply changesOnly.iteL | apply keeps.iteL
    | apply changesOnly.ite | apply keeps.ite | decide | split | (intro)

theorem execBlankRelease_replies {h : Hall} {input : Fin 2} {s : State} :
    replies [.regs, .halls, .chans, .convs, .per, .bb] s (execBlankRelease h input s) := by
  unfold execBlankRelease
  with_reducible repeat' first
    | assumption | exact changesOnly.refl _ _ | exact keeps.refl _ | apply replies_done | apply replies_ite
    | apply updHall_changes | apply updHall_keeps | apply report_changes | apply report_keeps
    | apply afterBlank_changes | apply afterBlank_keeps | apply changesOnly.iteL | apply keeps.iteL
    | apply changesOnly.ite | apply keeps.ite | decide | split | (intro)

theorem execBlankStuck_replies {h : Hall} {input : Fin 2} {s : State} :
    replies [.time, .regs, .halls, .chans, .convs, .per, .bb] s (execBlankStuck h input s) := by
  unfold execBlankStuck
  with_reducible repeat' first
    | assumption | exact changesOnly.refl _ _ | exact keeps.refl _ | apply replies_done | apply replies_ite
    | apply moveTo_changes | apply moveTo_keeps | apply updHall_changes | apply updHall_keeps
    | apply raiseBit_changes | apply raiseBit_keeps | apply report_changes | apply report_keeps
    | apply afterBlank_changes | apply afterBlank_keeps | apply changesOnly.iteL | apply keeps.iteL
    | apply changesOnly.ite | apply keeps.ite | decide | split | (intro)

theorem execWarmUpEnd_replies {h : Hall} {s : State} :
    replies [.time, .regs, .halls, .chans, .convs, .per, .bb, .jnl, .img, .nv] s (execWarmUpEnd h s) := by
  unfold execWarmUpEnd
  with_reducible repeat' first
    | assumption | exact changesOnly.refl _ _ | exact keeps.refl _ | apply replies_done | apply replies_ite
    | apply moveTo_changes | apply moveTo_keeps | apply updHall_changes | apply updHall_keeps | apply report_changes
    | apply report_keeps | apply reloadFlights_changes | apply reloadFlights_keeps | apply startFlights_changes
    | apply startFlights_keeps | apply changesOnly.iteL | apply keeps.iteL | apply changesOnly.ite | apply keeps.ite
    | decide | split | (intro)

theorem execSyncIn_replies {s : State} :
    replies [.regs, .sync, .bb, .ml] s (execSyncIn s) := by
  unfold execSyncIn
  with_reducible repeat' first
    | assumption | exact changesOnly.refl _ _ | exact keeps.refl _ | apply replies_done | apply replies_ite
    | apply raiseBit_changes | apply raiseBit_keeps | apply scheduleLocal_changes | apply scheduleLocal_keeps
    | apply changesOnly.iteL | apply keeps.iteL | apply changesOnly.ite | apply keeps.ite | decide | split
    | apply changesOnly.set_sync | apply keeps.set | (intro)

theorem execSyncNow_replies {o : Origin} {s : State} :
    replies [.time, .regs, .hp, .stg, .str, .halls, .chans, .convs, .sync, .newest, .older, .modes, .eng, .per, .aud, .gal, .bb, .jnl, .img, .nv, .mem, .wd, .clk, .ml, .pair, .pins, .tx, .free] s (execSyncNow o s) := by
  unfold execSyncNow
  with_reducible repeat' first
    | assumption | exact changesOnly.refl _ _ | exact keeps.refl _ | exact actWrite_replies | apply replies_ite
    | apply changesOnly.iteL | apply keeps.iteL | apply changesOnly.ite | apply keeps.ite | decide | split | (intro)

theorem execSyncExecute_replies {s : State} :
    replies [.time, .regs, .halls, .chans, .convs, .sync, .per, .bb, .pins] s (execSyncExecute s) := by
  unfold execSyncExecute
  with_reducible repeat' first
    | assumption | exact changesOnly.refl _ _ | exact keeps.refl _ | apply replies_done | apply replies_ite
    | apply moveTo_changes | apply moveTo_keeps | apply triggerAll_changes | apply triggerAll_keeps
    | apply syncPuls_changes | apply syncPuls_keeps | apply syncConv_changes | apply syncConv_keeps
    | apply report_changes | apply report_keeps | apply syncDone_changes | apply syncDone_keeps | apply forN_into
    | apply forN_keeps | apply forHalls_into | apply forHalls_keeps | apply changesOnly.foldl | apply keeps.foldl
    | apply changesOnly.iteL | apply keeps.iteL | apply changesOnly.ite | apply keeps.ite | decide | split
    | apply changesOnly.set_sync | apply keeps.set | (intro)

theorem execSyncOutEnd_replies {s : State} :
    replies [.time, .sync, .pins] s (execSyncOutEnd s) := by
  unfold execSyncOutEnd
  repeat' first
    | exact Or.inr (by decide) | with_reducible exact Or.inl rfl | with_reducible assumption
    | with_reducible exact changesOnly.refl _ _ | with_reducible exact keeps.refl _
    | with_reducible apply replies_done | with_reducible apply replies_ite | with_reducible apply moveTo_changes
    | with_reducible apply moveTo_keeps | with_reducible apply changesOnly.iteL | with_reducible apply keeps.iteL
    | with_reducible apply changesOnly.ite | with_reducible apply keeps.ite | decide | split
    | with_reducible apply keeps.set | with_reducible (intro) | with_reducible apply changesOnly.mk

theorem execRotationDue_replies {h : Hall} {s : State} :
    replies [.time, .halls] s (execRotationDue h s) := by
  unfold execRotationDue
  with_reducible repeat' first
    | assumption | exact changesOnly.refl _ _ | exact keeps.refl _ | apply replies_done | apply replies_ite
    | apply updRot_changes | apply updRot_keeps | apply moveTo_changes | apply moveTo_keeps | apply changesOnly.iteL
    | apply keeps.iteL | apply changesOnly.ite | apply keeps.ite | decide | split | (intro)

theorem execRotNow_replies {o : Origin} {h : Hall} {s : State} :
    replies [.time, .regs, .hp, .stg, .str, .halls, .chans, .convs, .sync, .newest, .older, .modes, .eng, .per, .aud, .gal, .bb, .jnl, .img, .nv, .mem, .wd, .clk, .ml, .pair, .pins, .tx, .free] s (execRotNow o h s) := by
  unfold execRotNow
  with_reducible repeat' first
    | assumption | exact changesOnly.refl _ _ | exact keeps.refl _ | exact actWrite_replies | apply replies_ite
    | apply changesOnly.iteL | apply keeps.iteL | apply changesOnly.ite | apply keeps.ite | decide | split | (intro)

theorem execUnretireK0_replies {o : Origin} {h : Hall} {s : State} :
    replies [.time, .regs, .hp, .stg, .str, .halls, .chans, .convs, .sync, .newest, .older, .modes, .eng, .per, .aud, .gal, .bb, .jnl, .img, .nv, .mem, .wd, .clk, .ml, .pair, .pins, .tx, .free] s (execUnretireK0 o h s) := by
  unfold execUnretireK0
  with_reducible repeat' first
    | assumption | exact changesOnly.refl _ _ | exact keeps.refl _ | exact actWrite_replies | apply replies_ite
    | apply changesOnly.iteL | apply keeps.iteL | apply changesOnly.ite | apply keeps.ite | decide | split | (intro)

theorem execUnretireK1_replies {o : Origin} {h : Hall} {s : State} :
    replies [.time, .regs, .hp, .stg, .str, .halls, .chans, .convs, .sync, .newest, .older, .modes, .eng, .per, .aud, .gal, .bb, .jnl, .img, .nv, .mem, .wd, .clk, .ml, .pair, .pins, .tx, .free] s (execUnretireK1 o h s) := by
  unfold execUnretireK1
  with_reducible repeat' first
    | assumption | exact changesOnly.refl _ _ | exact keeps.refl _ | exact actWrite_replies | apply replies_ite
    | apply changesOnly.iteL | apply keeps.iteL | apply changesOnly.ite | apply keeps.ite | decide | split | (intro)

theorem execOverdue_replies {h : Hall} {s : State} :
    replies [.time, .regs, .halls, .chans, .per, .bb] s (execOverdue h s) := by
  unfold execOverdue
  with_reducible repeat' first
    | assumption | exact changesOnly.refl _ _ | exact keeps.refl _ | apply replies_done | apply replies_ite
    | apply report_changes | apply report_keeps | apply updRot_changes | apply updRot_keeps | apply moveTo_changes
    | apply moveTo_keeps | apply changesOnly.iteL | apply keeps.iteL | apply changesOnly.ite | apply keeps.ite
    | decide | split | (intro)

theorem execTickBoundary_replies {s : State} :
    replies [.time, .regs, .halls, .chans, .convs, .eng, .runs, .per, .bal, .aud, .gal, .bb, .jnl, .img, .nv, .mem, .wd, .ml, .pair, .tx] s (execTickBoundary s) := by
  unfold execTickBoundary
  with_reducible repeat' first
    | assumption | exact changesOnly.refl _ _ | exact keeps.refl _ | apply replies_done | apply replies_ite
    | apply ageDiverge_changes | apply ageDiverge_keeps | apply idleReports_changes | apply idleReports_keeps
    | apply takeBoundary_changes | apply takeBoundary_keeps | apply moveTo_changes | apply moveTo_keeps
    | apply samplePulses_changes | apply samplePulses_keeps | apply latchPoutQ_changes | apply latchPoutQ_keeps
    | apply tickEnded_changes | apply tickEnded_keeps | apply coldJunctions_changes | apply coldJunctions_keeps
    | apply sendStatus_changes | apply sendStatus_keeps | apply balTryAll_changes | apply balTryAll_keeps
    | apply ownSubs_changes | apply ownSubs_keeps | apply balPublish_changes | apply balPublish_keeps
    | apply noteVstate_changes | apply noteVstate_keeps | apply latchTick_changes | apply latchTick_keeps
    | apply clearDeliveries_changes | apply clearDeliveries_keeps | apply forHalls_into | apply forHalls_keeps
    | apply changesOnly.iteL | apply keeps.iteL | apply changesOnly.ite | apply keeps.ite | decide | split | (intro)

theorem execRunSlot_replies {m : Run} {cycles : Nat} {trap : Option EngTrap} {s : State} :
    replies [.time, .regs, .eng, .runs, .per, .bal, .aud, .gal, .bb, .jnl, .img, .nv, .mem, .wd, .pair, .tx, .free] s (execRunSlot m cycles trap s) := by
  unfold execRunSlot
  with_reducible repeat' first
    | assumption | exact changesOnly.refl _ _ | exact keeps.refl _ | apply replies_done | apply replies_ite
    | apply slotDone_changes | apply slotDone_keeps | apply changesOnly.iteL | apply keeps.iteL
    | apply changesOnly.ite | apply keeps.ite | decide | split | (intro)

theorem execSlotOverrun_replies {m : Run} {s : State} :
    replies [.time, .regs, .eng, .runs, .per, .bal, .aud, .gal, .bb, .jnl, .img, .nv, .mem, .wd, .pair, .tx, .free] s (execSlotOverrun m s) := by
  unfold execSlotOverrun
  with_reducible repeat' first
    | assumption | exact changesOnly.refl _ _ | exact keeps.refl _ | apply replies_done | apply replies_ite
    | apply slotDone_changes | apply slotDone_keeps | apply changesOnly.iteL | apply keeps.iteL
    | apply changesOnly.ite | apply keeps.ite | decide | split | (intro)

theorem execBalanceWaitExpiry_replies {b : Fin 64} {s : State} :
    replies [.time, .regs, .bal, .bb] s (execBalanceWaitExpiry b s) := by
  unfold execBalanceWaitExpiry
  with_reducible repeat' first
    | assumption | exact changesOnly.refl _ _ | exact keeps.refl _ | apply replies_done | apply replies_ite
    | apply balTry_changes | apply balTry_keeps | apply moveTo_changes | apply moveTo_keeps
    | apply balIncomplete_changes | apply balIncomplete_keeps | apply changesOnly.iteL | apply keeps.iteL
    | apply changesOnly.ite | apply keeps.ite | decide | split | (intro)

theorem execPulseEmitted_replies {h : Hall} {ch : Chan} {s : State} :
    replies [.time, .regs, .chans, .runs] s (execPulseEmitted h ch s) := by
  unfold execPulseEmitted
  with_reducible repeat' first
    | assumption | exact changesOnly.refl _ _ | exact keeps.refl _ | apply replies_done | apply replies_ite
    | apply moveTo_changes | apply moveTo_keeps | apply updChan_changes | apply updChan_keeps
    | apply pulseReported_changes | apply pulseReported_keeps | apply pulseGo_changes | apply pulseGo_keeps
    | apply changesOnly.iteL | apply keeps.iteL | apply changesOnly.ite | apply keeps.ite | decide | split | (intro)

theorem execFlashOperationComplete_replies {chip : Fin 2} {ok : Bool} {s : State} :
    replies [.regs, .gal, .bb, .jnl, .img, .nv, .wd] s (execFlashOperationComplete chip ok s) := by
  unfold execFlashOperationComplete
  with_reducible repeat' first
    | exact Nat.le_refl _ | exact Canon.flash_mk (by assumption) | exact Canon.rams_prog (by assumption) | exact id
    | assumption | exact changesOnly.refl _ _ | exact keeps.refl _ | apply replies_done | apply replies_ite
    | apply nvProgram_changes | apply nvProgram_keeps | apply checkIn_changes | apply checkIn_keeps
    | apply jobsSettle_changes | apply jobsSettle_keeps | apply chipResult_changes | apply chipResult_keeps
    | apply changesOnly.iteL | apply keeps.iteL | apply changesOnly.ite | apply keeps.ite | decide | split
    | apply changesOnly.set_nv | apply keeps.set | (intro) | dsimp only | exact Canon.flash_mk | exact Canon.rams_mk
    | exact Canon.rams_prog | apply keeps.mk

theorem execChipRetry_replies {chip : Fin 2} {ok : Option ChipFound} {s : State} :
    replies [.regs, .gal, .bb, .jnl, .img, .nv, .mem, .wd] s (execChipRetry chip ok s) := by
  unfold execChipRetry
  repeat' first
    | exact Or.inr (by decide) | with_reducible exact Or.inl rfl | with_reducible assumption
    | with_reducible exact changesOnly.refl _ _ | with_reducible exact keeps.refl _
    | with_reducible apply replies_done | with_reducible apply replies_ite | with_reducible apply checkIn_changes
    | with_reducible apply checkIn_keeps | with_reducible apply updChip_changes | with_reducible apply updChip_keeps
    | with_reducible apply raiseBit_changes | with_reducible apply raiseBit_keeps
    | with_reducible apply dirWrite_changes | with_reducible apply dirWrite_keeps
    | with_reducible apply recapture_changes | with_reducible apply recapture_keeps
    | with_reducible apply changesOnly.iteL | with_reducible apply keeps.iteL | with_reducible apply changesOnly.ite
    | with_reducible apply keeps.ite | decide | split | with_reducible apply keeps.set | with_reducible (intro)
    | with_reducible apply changesOnly.mk

theorem execFreezeNow_replies {o : Origin} {s : State} :
    replies [.time, .regs, .hp, .stg, .str, .halls, .chans, .convs, .sync, .newest, .older, .modes, .eng, .per, .aud, .gal, .bb, .jnl, .img, .nv, .mem, .wd, .clk, .ml, .pair, .pins, .tx, .free] s (execFreezeNow o s) := by
  unfold execFreezeNow
  with_reducible repeat' first
    | assumption | exact changesOnly.refl _ _ | exact keeps.refl _ | exact actWrite_replies | apply replies_ite
    | apply changesOnly.iteL | apply keeps.iteL | apply changesOnly.ite | apply keeps.ite | decide | split | (intro)

theorem execDumpDone_replies {ok0 : Bool} {ok1 : Bool} {s : State} :
    replies [.regs, .str, .bb, .img, .nv, .wd] s (execDumpDone ok0 ok1 s) := by
  unfold execDumpDone
  with_reducible repeat' first
    | assumption | exact changesOnly.refl _ _ | exact keeps.refl _ | apply replies_done | apply replies_ite
    | apply nvErase_changes | apply nvErase_keeps | apply dirWrite_changes | apply dirWrite_keeps
    | apply chipResult_changes | apply chipResult_keeps | apply nvProgram_changes | apply nvProgram_keeps
    | apply checkIn_changes | apply checkIn_keeps | apply raiseBit_changes | apply raiseBit_keeps
    | apply bbResume_changes | apply bbResume_keeps | apply changesOnly.iteL | apply keeps.iteL
    | apply changesOnly.ite | apply keeps.ite | decide | split | apply changesOnly.set_bb | apply keeps.set | (intro)

theorem execRelease_replies {o : Origin} {s : State} :
    replies [.time, .regs, .hp, .stg, .str, .halls, .chans, .convs, .sync, .newest, .older, .modes, .eng, .per, .aud, .gal, .bb, .jnl, .img, .nv, .mem, .wd, .clk, .ml, .pair, .pins, .tx, .free] s (execRelease o s) := by
  unfold execRelease
  with_reducible repeat' first
    | assumption | exact changesOnly.refl _ _ | exact keeps.refl _ | exact actWrite_replies | apply replies_ite
    | apply changesOnly.iteL | apply keeps.iteL | apply changesOnly.ite | apply keeps.ite | decide | split | (intro)

theorem execPortUp_replies {p : Port} {s : State} :
    replies [.regs, .bb, .mem, .ml, .tx] s (execPortUp p s) := by
  unfold execPortUp
  with_reducible repeat' first
    | assumption | exact changesOnly.refl _ _ | exact keeps.refl _ | apply replies_done | apply replies_ite
    | apply updPort_changes | apply updPort_keeps | apply startEcho_changes | apply startEcho_keeps
    | apply isolate_changes | apply isolate_keeps | apply formStart_changes | apply formStart_keeps
    | apply changesOnly.iteL | apply keeps.iteL | apply changesOnly.ite | apply keeps.ite | decide | split | (intro)

theorem execLinkFault_replies {p : Port} {s : State} :
    replies [.regs, .bb, .ml] s (execLinkFault p s) := by
  unfold execLinkFault
  with_reducible repeat' first
    | assumption | exact changesOnly.refl _ _ | exact keeps.refl _ | apply replies_done | apply replies_ite
    | apply mlEvent_changes | apply mlEvent_keeps | apply updPort_changes | apply updPort_keeps
    | apply isolate_changes | apply isolate_keeps | apply updMl_changes | apply updMl_keeps | apply changesOnly.iteL
    | apply keeps.iteL | apply changesOnly.ite | apply keeps.ite | decide | split | (intro)

theorem execTransmitterSilenceEnd_replies {p : Port} {s : State} :
    replies [.ml] s (execTransmitterSilenceEnd p s) := by
  unfold execTransmitterSilenceEnd
  with_reducible repeat' first
    | assumption | exact changesOnly.refl _ _ | exact keeps.refl _ | apply replies_done | apply replies_ite
    | apply updPort_changes | apply updPort_keeps | apply changesOnly.iteL | apply keeps.iteL | apply changesOnly.ite
    | apply keeps.ite | decide | split | (intro)

theorem execNullFrame_replies {p : Port} {s : State} :
    replies [.tx] s (execNullFrame p s) := by
  unfold execNullFrame
  with_reducible repeat' first
    | assumption | exact changesOnly.refl _ _ | exact keeps.refl _ | apply replies_done | apply replies_ite
    | apply mlSend_changes | apply mlSend_keeps | apply changesOnly.iteL | apply keeps.iteL | apply changesOnly.ite
    | apply keeps.ite | decide | split | (intro)

theorem execCycleFrame_replies {p : Port} {f : MlFrame} {s : State} :
    replies [.time, .regs, .sync, .modes, .bb, .img, .mem, .wd, .clk, .ml, .tx, .free] s (execCycleFrame p f s) := by
  unfold execCycleFrame
  with_reducible repeat' first
    | assumption | exact changesOnly.refl _ _ | exact keeps.refl _ | apply replies_done | apply replies_ite
    | apply leaves_changes | apply leaves_keeps | apply takeCycleOut_changes | apply takeCycleOut_keeps
    | apply passOn_changes | apply passOn_keeps | apply updMl_changes | apply updMl_keeps | apply goOn_changes
    | apply goOn_keeps | apply portError_changes | apply portError_keeps | apply crossingFull_changes
    | apply crossingFull_keeps | apply checkIn_changes | apply checkIn_keeps | apply twoHeads_changes
    | apply twoHeads_keeps | apply takeCycle_changes | apply takeCycle_keeps | apply changesOnly.iteL
    | apply keeps.iteL | apply changesOnly.ite | apply keeps.ite | decide | split | (intro)

theorem execData_replies {p : Port} {f : MlFrame} {s : State} :
    replies [.time, .regs, .latch, .stg, .str, .halls, .chans, .convs, .sync, .newest, .older, .modes, .eng, .per, .aud, .gal, .bb, .jnl, .img, .nv, .mem, .wd, .clk, .ml, .pair, .pins, .tx, .free] s (execData p f s) := by
  unfold execData
  with_reducible repeat' first
    | assumption | exact changesOnly.refl _ _ | exact keeps.refl _ | apply replies_done | apply replies_ite
    | apply leaves_changes | apply leaves_keeps | apply passOn_changes | apply passOn_keeps | apply goOn_changes
    | apply goOn_keeps | apply portError_changes | apply portError_keeps | apply crossingFull_changes
    | apply crossingFull_keeps | apply takeData_changes | apply takeData_keeps | apply changesOnly.iteL
    | apply keeps.iteL | apply changesOnly.ite | apply keeps.ite | decide | split | (intro)

theorem execForm_replies {p : Port} {f : MlFrame} {s : State} :
    replies [.regs, .bb, .mem, .ml, .tx, .free] s (execForm p f s) := by
  unfold execForm
  with_reducible repeat' first
    | assumption | exact changesOnly.refl _ _ | exact keeps.refl _ | apply replies_done | apply replies_ite
    | apply leaves_changes | apply leaves_keeps | apply passOn_changes | apply passOn_keeps | apply portError_changes
    | apply portError_keeps | apply formOn_changes | apply formOn_keeps | apply crossingFull_changes
    | apply crossingFull_keeps | apply twoHeads_changes | apply twoHeads_keeps | apply formBack_changes
    | apply formBack_keeps | apply takeDelay_changes | apply takeDelay_keeps | apply updMl_changes
    | apply updMl_keeps | apply changesOnly.iteL | apply keeps.iteL | apply changesOnly.ite | apply keeps.ite
    | decide | split | (intro)

theorem execFormDone_replies {p : Port} {f : MlFrame} {s : State} :
    replies [.regs, .bb, .mem, .ml, .tx] s (execFormDone p f s) := by
  unfold execFormDone
  with_reducible repeat' first
    | assumption | exact changesOnly.refl _ _ | exact keeps.refl _ | apply replies_done | apply replies_ite
    | apply leaves_changes | apply leaves_keeps | apply passOn_changes | apply passOn_keeps | apply portError_changes
    | apply portError_keeps | apply formDoneOn_changes | apply formDoneOn_keeps | apply crossingFull_changes
    | apply crossingFull_keeps | apply formEnd_changes | apply formEnd_keeps | apply changesOnly.iteL
    | apply keeps.iteL | apply changesOnly.ite | apply keeps.ite | decide | split | (intro)

theorem execEcho_replies {p : Port} {f : MlFrame} {s : State} :
    replies [.regs, .bb, .ml, .tx, .free] s (execEcho p f s) := by
  unfold execEcho
  with_reducible repeat' first
    | assumption | exact changesOnly.refl _ _ | exact keeps.refl _ | apply replies_done | apply replies_ite
    | apply leaves_changes | apply leaves_keeps | apply portError_changes | apply portError_keeps
    | apply crossingFull_changes | apply crossingFull_keeps | apply mlSend_changes | apply mlSend_keeps
    | apply takeFree_changes | apply takeFree_keeps | apply changesOnly.iteL | apply keeps.iteL
    | apply changesOnly.ite | apply keeps.ite | decide | split | (intro)

theorem execEchoReply_replies {p : Port} {f : MlFrame} {roundTrip : Nat} {s : State} :
    replies [.regs, .bb, .ml, .tx] s (execEchoReply p f roundTrip s) := by
  unfold execEchoReply
  with_reducible repeat' first
    | assumption | exact changesOnly.refl _ _ | exact keeps.refl _ | apply replies_done | apply replies_ite
    | apply leaves_changes | apply leaves_keeps | apply portError_changes | apply portError_keeps
    | apply crossingFull_changes | apply crossingFull_keeps | apply updPort_changes | apply updPort_keeps
    | apply sendEcho_changes | apply sendEcho_keeps | apply changesOnly.iteL | apply keeps.iteL
    | apply changesOnly.ite | apply keeps.ite | decide | split | (intro)

theorem execEchoRefresh_replies {s : State} :
    replies [.time, .ml, .tx] s (execEchoRefresh s) := by
  unfold execEchoRefresh
  with_reducible repeat' first
    | assumption | exact changesOnly.refl _ _ | exact keeps.refl _ | apply replies_done | apply replies_ite
    | apply startEcho_changes | apply startEcho_keeps | apply toReserve_changes | apply toReserve_keeps
    | apply forN_into | apply forN_keeps | apply changesOnly.iteL | apply keeps.iteL | apply changesOnly.ite
    | apply keeps.ite | decide | split | (intro)

theorem execReform_replies {o : Origin} {s : State} :
    replies [.time, .regs, .hp, .stg, .str, .halls, .chans, .convs, .sync, .newest, .older, .modes, .eng, .per, .aud, .gal, .bb, .jnl, .img, .nv, .mem, .wd, .clk, .ml, .pair, .pins, .tx, .free] s (execReform o s) := by
  unfold execReform
  with_reducible repeat' first
    | assumption | exact changesOnly.refl _ _ | exact keeps.refl _ | exact actWrite_replies | apply replies_ite
    | apply changesOnly.iteL | apply keeps.iteL | apply changesOnly.ite | apply keeps.ite | decide | split | (intro)

theorem execFormationRetry_replies {s : State} :
    replies [.regs, .bb, .mem, .ml, .tx] s (execFormationRetry s) := by
  unfold execFormationRetry
  with_reducible repeat' first
    | assumption | exact changesOnly.refl _ _ | exact keeps.refl _ | apply replies_done | apply replies_ite
    | apply formStart_changes | apply formStart_keeps | apply changesOnly.iteL | apply keeps.iteL
    | apply changesOnly.ite | apply keeps.ite | decide | split | (intro)

end Sys2Proof.Machine
end

