-- ==== Sys2Proof/Laws/Execs3.lean ====
section
/-! SUPPORT. What each command changes at most, in parts of the state (part 4 of 4). -/

set_option linter.unusedTactic false
set_option linter.unreachableTactic false

namespace Sys2Proof.Machine

theorem execLoopAdopt_replies {s : State} :
    replies [.time, .regs, .bb, .ml] s (execLoopAdopt s) := by
  unfold execLoopAdopt
  with_reducible repeat' first
    | assumption | exact changesOnly.refl _ _ | exact keeps.refl _ | apply replies_done | apply replies_ite
    | apply moveTo_changes | apply moveTo_keeps | apply updPort_changes | apply updPort_keeps | apply updMl_changes
    | apply updMl_keeps | apply mlEvent_changes | apply mlEvent_keeps | apply forN_into | apply forN_keeps
    | apply changesOnly.iteL | apply keeps.iteL | apply changesOnly.ite | apply keeps.ite | decide | split | (intro)

theorem execCycleBoundary_replies {s : State} :
    replies [.time, .regs, .bb, .mem, .ml, .tx] s (execCycleBoundary s) := by
  unfold execCycleBoundary
  with_reducible repeat' first
    | assumption | exact changesOnly.refl _ _ | exact keeps.refl _ | apply replies_done | apply replies_ite
    | apply dueEchoes_changes | apply dueEchoes_keeps | apply moveTo_changes | apply moveTo_keeps
    | apply updMl_changes | apply updMl_keeps | apply formGo_changes | apply formGo_keeps | apply mlOriginate_changes
    | apply mlOriginate_keeps | apply sendData_changes | apply sendData_keeps | apply changesOnly.iteL
    | apply keeps.iteL | apply changesOnly.ite | apply keeps.ite | decide | split | (intro)

theorem execDataAppend_replies {s : State} :
    replies [.regs, .bb, .mem, .ml, .tx] s (execDataAppend s) := by
  unfold execDataAppend
  with_reducible repeat' first
    | assumption | exact changesOnly.refl _ _ | exact keeps.refl _ | apply replies_done | apply replies_ite
    | apply appendData_changes | apply appendData_keeps | apply changesOnly.iteL | apply keeps.iteL
    | apply changesOnly.ite | apply keeps.ite | decide | split | (intro)

theorem execHeadTakeover_replies {s : State} :
    replies [.regs, .bb, .ml] s (execHeadTakeover s) := by
  unfold execHeadTakeover
  with_reducible repeat' first
    | assumption | exact changesOnly.refl _ _ | exact keeps.refl _ | apply replies_done | apply replies_ite
    | apply mlEvent_changes | apply mlEvent_keeps | apply updMl_changes | apply updMl_keeps | apply changesOnly.iteL
    | apply keeps.iteL | apply changesOnly.ite | apply keeps.ite | decide | split | (intro)

theorem execNoHead_replies {s : State} :
    replies [.regs, .bb, .ml] s (execNoHead s) := by
  unfold execNoHead
  with_reducible repeat' first
    | assumption | exact changesOnly.refl _ _ | exact keeps.refl _ | apply replies_done | apply replies_ite
    | apply mlEvent_changes | apply mlEvent_keeps | apply updMl_changes | apply updMl_keeps | apply changesOnly.iteL
    | apply keeps.iteL | apply changesOnly.ite | apply keeps.ite | decide | split | (intro)

theorem execSubLost_replies {e : Fin 64} {s : State} :
    replies [.regs, .bb, .ml] s (execSubLost e s) := by
  unfold execSubLost
  with_reducible repeat' first
    | assumption | exact changesOnly.refl _ _ | exact keeps.refl _ | apply replies_done | apply replies_ite
    | apply mlEvent_changes | apply mlEvent_keeps | apply updMl_changes | apply updMl_keeps | apply changesOnly.iteL
    | apply keeps.iteL | apply changesOnly.ite | apply keeps.ite | decide | split | (intro)

theorem execInjectExecute_replies {s : State} :
    replies [.time, .convs, .ml] s (execInjectExecute s) := by
  unfold execInjectExecute
  with_reducible repeat' first
    | assumption | exact changesOnly.refl _ _ | exact keeps.refl _ | apply replies_done | apply replies_ite
    | apply moveTo_changes | apply moveTo_keeps | apply triggerAll_changes | apply triggerAll_keeps
    | apply updMl_changes | apply updMl_keeps | apply changesOnly.foldl | apply keeps.foldl | apply changesOnly.iteL
    | apply keeps.iteL | apply changesOnly.ite | apply keeps.ite | decide | split | (intro)

theorem execAcyTimeout_replies {s : State} :
    replies [.time, .regs, .bb, .ml] s (execAcyTimeout s) := by
  unfold execAcyTimeout
  with_reducible repeat' first
    | assumption | exact changesOnly.refl _ _ | exact keeps.refl _ | apply replies_done | apply replies_ite
    | apply moveTo_changes | apply moveTo_keeps | apply modReg_changes | apply modReg_keeps | apply mlEvent_changes
    | apply mlEvent_keeps | apply mbDone_changes | apply mbDone_keeps | apply changesOnly.iteL | apply keeps.iteL
    | apply changesOnly.ite | apply keeps.ite | decide | split | (intro)

theorem execMailboxRead_replies {o : Origin} {count : Fin 64} {s : State} :
    replies [.time, .regs, .hp, .stg, .str, .halls, .chans, .convs, .sync, .newest, .older, .modes, .eng, .per, .aud, .gal, .bb, .jnl, .img, .nv, .mem, .wd, .clk, .ml, .pair, .pins, .tx, .free] s (execMailboxRead o count s) := by
  unfold execMailboxRead
  with_reducible repeat' first
    | assumption | exact changesOnly.refl _ _ | exact keeps.refl _ | exact actWrite_replies | apply replies_ite
    | apply changesOnly.iteL | apply keeps.iteL | apply changesOnly.ite | apply keeps.ite | decide | split | (intro)

theorem execMailboxWrite_replies {o : Origin} {count : Fin 64} {s : State} :
    replies [.time, .regs, .hp, .stg, .str, .halls, .chans, .convs, .sync, .newest, .older, .modes, .eng, .per, .aud, .gal, .bb, .jnl, .img, .nv, .mem, .wd, .clk, .ml, .pair, .pins, .tx, .free] s (execMailboxWrite o count s) := by
  unfold execMailboxWrite
  with_reducible repeat' first
    | assumption | exact changesOnly.refl _ _ | exact keeps.refl _ | exact actWrite_replies | apply replies_ite
    | apply changesOnly.iteL | apply keeps.iteL | apply changesOnly.ite | apply keeps.ite | decide | split | (intro)

theorem execSyncCommandSend_replies {o : Origin} {bcast : Bool} {dst : BitVec 10} {s : State} :
    replies [.time, .regs, .hp, .stg, .str, .halls, .chans, .convs, .sync, .newest, .older, .modes, .eng, .per, .aud, .gal, .bb, .jnl, .img, .nv, .mem, .wd, .clk, .ml, .pair, .pins, .tx, .free] s (execSyncCommandSend o bcast dst s) := by
  unfold execSyncCommandSend
  with_reducible repeat' first
    | assumption | exact changesOnly.refl _ _ | exact keeps.refl _ | exact actWrite_replies | apply replies_ite
    | apply changesOnly.iteL | apply keeps.iteL | apply changesOnly.ite | apply keeps.ite | decide | split | (intro)

theorem execInjectCommandSend_replies {o : Origin} {bcast : Bool} {dst : BitVec 10} {s : State} :
    replies [.time, .regs, .hp, .stg, .str, .halls, .chans, .convs, .sync, .newest, .older, .modes, .eng, .per, .aud, .gal, .bb, .jnl, .img, .nv, .mem, .wd, .clk, .ml, .pair, .pins, .tx, .free] s (execInjectCommandSend o bcast dst s) := by
  unfold execInjectCommandSend
  with_reducible repeat' first
    | assumption | exact changesOnly.refl _ _ | exact keeps.refl _ | exact actWrite_replies | apply replies_ite
    | apply changesOnly.iteL | apply keeps.iteL | apply changesOnly.ite | apply keeps.ite | decide | split | (intro)

theorem execPpsIn_replies {s : State} :
    replies [.time, .sync, .modes, .clk, .ml, .free] s (execPpsIn s) := by
  unfold execPpsIn
  with_reducible repeat' first
    | assumption | exact changesOnly.refl _ _ | exact keeps.refl _ | apply replies_done | apply replies_ite
    | apply timeSetNow_changes | apply timeSetNow_keeps | apply updMl_changes | apply updMl_keeps
    | apply takeOffset_changes | apply takeOffset_keeps | apply changesOnly.iteL | apply keeps.iteL
    | apply changesOnly.ite | apply keeps.ite | decide | split | (intro)

theorem execPpsLost_replies {s : State} :
    replies [.regs, .bb, .ml] s (execPpsLost s) := by
  unfold execPpsLost
  with_reducible repeat' first
    | assumption | exact changesOnly.refl _ _ | exact keeps.refl _ | apply replies_done | apply replies_ite
    | apply mlEvent_changes | apply mlEvent_keeps | apply updMl_changes | apply updMl_keeps | apply changesOnly.iteL
    | apply keeps.iteL | apply changesOnly.ite | apply keeps.ite | decide | split | (intro)

theorem execTimeSet_replies {o : Origin} {s : State} :
    replies [.time, .regs, .hp, .stg, .str, .halls, .chans, .convs, .sync, .newest, .older, .modes, .eng, .per, .aud, .gal, .bb, .jnl, .img, .nv, .mem, .wd, .clk, .ml, .pair, .pins, .tx, .free] s (execTimeSet o s) := by
  unfold execTimeSet
  with_reducible repeat' first
    | assumption | exact changesOnly.refl _ _ | exact keeps.refl _ | exact actWrite_replies | apply replies_ite
    | apply changesOnly.iteL | apply keeps.iteL | apply changesOnly.ite | apply keeps.ite | decide | split | (intro)

theorem execUtcSet_replies {o : Origin} {s : State} :
    replies [.time, .regs, .hp, .stg, .str, .halls, .chans, .convs, .sync, .newest, .older, .modes, .eng, .per, .aud, .gal, .bb, .jnl, .img, .nv, .mem, .wd, .clk, .ml, .pair, .pins, .tx, .free] s (execUtcSet o s) := by
  unfold execUtcSet
  with_reducible repeat' first
    | assumption | exact changesOnly.refl _ _ | exact keeps.refl _ | exact actWrite_replies | apply replies_ite
    | apply changesOnly.iteL | apply keeps.iteL | apply changesOnly.ite | apply keeps.ite | decide | split | (intro)

theorem execUtcClear_replies {o : Origin} {s : State} :
    replies [.time, .regs, .hp, .stg, .str, .halls, .chans, .convs, .sync, .newest, .older, .modes, .eng, .per, .aud, .gal, .bb, .jnl, .img, .nv, .mem, .wd, .clk, .ml, .pair, .pins, .tx, .free] s (execUtcClear o s) := by
  unfold execUtcClear
  with_reducible repeat' first
    | assumption | exact changesOnly.refl _ _ | exact keeps.refl _ | exact actWrite_replies | apply replies_ite
    | apply changesOnly.iteL | apply keeps.iteL | apply changesOnly.ite | apply keeps.ite | decide | split | (intro)

theorem execPairHeartbeatTick_replies {s : State} :
    replies [.time, .regs, .img, .wd, .pair, .tx] s (execPairHeartbeatTick s) := by
  unfold execPairHeartbeatTick
  with_reducible repeat' first
    | assumption | exact changesOnly.refl _ _ | exact keeps.refl _ | apply replies_done | apply replies_ite
    | apply moveTo_changes | apply moveTo_keeps | apply updPair_changes | apply updPair_keeps | apply checkIn_changes
    | apply checkIn_keeps | apply pairSend_changes | apply pairSend_keeps | apply changesOnly.iteL | apply keeps.iteL
    | apply changesOnly.ite | apply keeps.ite | decide | split | (intro)

theorem execPairHeartbeat_replies {f : PairFrame} {s : State} :
    replies [.time, .regs, .stg, .halls, .chans, .convs, .sync, .modes, .eng, .runs, .per, .aud, .bb, .jnl, .nv, .mem, .ml, .pair, .tx, .free] s (execPairHeartbeat f s) := by
  unfold execPairHeartbeat
  with_reducible repeat' first
    | assumption | exact changesOnly.refl _ _ | exact keeps.refl _ | apply replies_done | apply replies_ite
    | apply pairBad_changes | apply pairBad_keeps | apply crossingFull_changes | apply crossingFull_keeps
    | apply pairSend_changes | apply pairSend_keeps | apply takeHeartbeat_changes | apply takeHeartbeat_keeps
    | apply updPair_changes | apply updPair_keeps | apply changesOnly.iteL | apply keeps.iteL | apply changesOnly.ite
    | apply keeps.ite | decide | split | (intro)

theorem execAck_replies {f : PairFrame} {s : State} :
    replies [.regs, .bb, .pair] s (execAck f s) := by
  unfold execAck
  with_reducible repeat' first
    | assumption | exact changesOnly.refl _ _ | exact keeps.refl _ | apply replies_done | apply replies_ite
    | apply pairBad_changes | apply pairBad_keeps | apply crossingFull_changes | apply crossingFull_keeps
    | apply updPair_changes | apply updPair_keeps | apply changesOnly.iteL | apply keeps.iteL | apply changesOnly.ite
    | apply keeps.ite | decide | split | (intro)

theorem execHeartbeatMissed_replies {actIn : Bool} {s : State} :
    replies [.time, .regs, .stg, .halls, .chans, .convs, .eng, .runs, .per, .aud, .bb, .jnl, .nv, .mem, .ml, .pair] s (execHeartbeatMissed actIn s) := by
  unfold execHeartbeatMissed
  with_reducible repeat' first
    | assumption | exact changesOnly.refl _ _ | exact keeps.refl _ | apply replies_done | apply replies_ite
    | apply moveTo_changes | apply moveTo_keeps | apply updPair_changes | apply updPair_keeps | apply judge_changes
    | apply judge_keeps | apply changesOnly.iteL | apply keeps.iteL | apply changesOnly.ite | apply keeps.ite
    | decide | split | (intro)

theorem execTakeoverInputMode_replies {s : State} :
    replies [.time, .halls, .chans, .convs] s (execTakeoverInputMode s) := by
  unfold execTakeoverInputMode
  with_reducible repeat' first
    | assumption | exact changesOnly.refl _ _ | exact keeps.refl _ | apply replies_done | apply replies_ite
    | apply inputsActive_changes | apply inputsActive_keeps | apply moveTo_changes | apply moveTo_keeps
    | apply changesOnly.iteL | apply keeps.iteL | apply changesOnly.ite | apply keeps.ite | decide | split | (intro)

theorem execTakeoverOutputDrive_replies {s : State} :
    replies [.time, .regs, .halls, .chans, .per, .bb, .pair, .tx] s (execTakeoverOutputDrive s) := by
  unfold execTakeoverOutputDrive
  with_reducible repeat' first
    | assumption | exact changesOnly.refl _ _ | exact keeps.refl _ | apply replies_done | apply replies_ite
    | apply updPair_changes | apply updPair_keeps | apply moveTo_changes | apply moveTo_keeps
    | apply sendOutputs_changes | apply sendOutputs_keeps | apply giveBacklogs_changes | apply giveBacklogs_keeps
    | apply outputsActive_changes | apply outputsActive_keeps | apply giveOutputs_changes | apply giveOutputs_keeps
    | apply changesOnly.iteL | apply keeps.iteL | apply changesOnly.ite | apply keeps.ite | decide | split | (intro)

theorem execPairActFault_replies {s : State} :
    replies [.regs, .bb, .pair] s (execPairActFault s) := by
  unfold execPairActFault
  with_reducible repeat' first
    | assumption | exact changesOnly.refl _ _ | exact keeps.refl _ | apply replies_done | apply replies_ite
    | apply pairEvent_changes | apply pairEvent_keeps | apply updPair_changes | apply updPair_keeps
    | apply changesOnly.iteL | apply keeps.iteL | apply changesOnly.ite | apply keeps.ite | decide | split | (intro)

theorem execFence_replies {s : State} :
    replies [.time, .regs, .stg, .halls, .chans, .convs, .per, .bb, .jnl, .nv, .ml, .pair] s (execFence s) := by
  unfold execFence
  with_reducible repeat' first
    | assumption | exact changesOnly.refl _ _ | exact keeps.refl _ | apply replies_done | apply replies_ite
    | apply moveTo_changes | apply moveTo_keeps | apply fenceNow_changes | apply fenceNow_keeps
    | apply changesOnly.iteL | apply keeps.iteL | apply changesOnly.ite | apply keeps.ite | decide | split | (intro)
    | dsimp only

theorem execRecord_replies {f : PairFrame} {collide : Collision} {s : State} :
    replies [.regs, .bb, .mem, .pair] s (execRecord f collide s) := by
  unfold execRecord
  with_reducible repeat' first
    | assumption | exact changesOnly.refl _ _ | exact keeps.refl _ | apply pairReceive_replies | apply replies_ite
    | apply noteRecords_changes | apply noteRecords_keeps | apply mirrorFrame_changes | apply mirrorFrame_keeps
    | apply changesOnly.iteL | apply keeps.iteL | apply changesOnly.ite | apply keeps.ite | decide | split | (intro)

theorem execTickset_replies {f : PairFrame} {collide : Collision} {s : State} :
    replies [.regs, .bb, .mem, .pair] s (execTickset f collide s) := by
  unfold execTickset
  with_reducible repeat' first
    | assumption | exact changesOnly.refl _ _ | exact keeps.refl _ | apply pairReceive_replies | apply replies_ite
    | apply mirrorFrame_changes | apply mirrorFrame_keeps | apply changesOnly.iteL | apply keeps.iteL
    | apply changesOnly.ite | apply keeps.ite | decide | split | (intro)

theorem execTotals_replies {f : PairFrame} {collide : Collision} {s : State} :
    replies [.regs, .bb, .mem, .pair] s (execTotals f collide s) := by
  unfold execTotals
  with_reducible repeat' first
    | assumption | exact changesOnly.refl _ _ | exact keeps.refl _ | apply pairReceive_replies | apply replies_ite
    | apply hoTotals_changes | apply hoTotals_keeps | apply mirrorFrame_changes | apply mirrorFrame_keeps
    | apply changesOnly.iteL | apply keeps.iteL | apply changesOnly.ite | apply keeps.ite | decide | split | (intro)

theorem execState_replies {x : StoredFrame} {s : State} :
    replies [.regs, .bb, .mem, .pair, .tx] s (execState x s) := by
  unfold execState
  with_reducible repeat' first
    | assumption | exact changesOnly.refl _ _ | exact keeps.refl _ | apply pairReceive_replies | apply replies_ite
    | apply sendCarried_changes | apply sendCarried_keeps | apply mirrorFrame_changes | apply mirrorFrame_keeps
    | apply updPair_changes | apply updPair_keeps | apply changesOnly.iteL | apply keeps.iteL | apply changesOnly.ite
    | apply keeps.ite | decide | split | (intro)

theorem execConfig_replies {x : StoredFrame} {s : State} :
    replies [.time, .regs, .stg, .str, .halls, .chans, .convs, .sync, .newest, .older, .modes, .eng, .per, .aud, .gal, .bb, .jnl, .img, .nv, .mem, .wd, .clk, .ml, .pair, .pins, .tx, .free] s (execConfig x s) := by
  unfold execConfig
  with_reducible repeat' first
    | assumption | exact changesOnly.refl _ _ | exact keeps.refl _ | apply pairReceive_replies | apply replies_ite
    | apply mirrorFrame_changes | apply mirrorFrame_keeps | apply configItems_changes | apply configItems_keeps
    | apply changesOnly.iteL | apply keeps.iteL | apply changesOnly.ite | apply keeps.ite | decide | split | (intro)

theorem execHandover_replies {o : Origin} {s : State} :
    replies [.time, .regs, .hp, .stg, .str, .halls, .chans, .convs, .sync, .newest, .older, .modes, .eng, .per, .aud, .gal, .bb, .jnl, .img, .nv, .mem, .wd, .clk, .ml, .pair, .pins, .tx, .free] s (execHandover o s) := by
  unfold execHandover
  with_reducible repeat' first
    | assumption | exact changesOnly.refl _ _ | exact keeps.refl _ | exact actWrite_replies | apply replies_ite
    | apply changesOnly.iteL | apply keeps.iteL | apply changesOnly.ite | apply keeps.ite | decide | split | (intro)

theorem execHandoverMessage_replies {f : PairFrame} {m : HoMsg} {s : State} :
    replies [.time, .regs, .latch, .hp, .stg, .str, .halls, .chans, .convs, .sync, .newest, .older, .modes, .curves, .eng, .runs, .per, .bal, .aud, .gal, .bb, .jnl, .img, .nv, .mem, .wd, .clk, .ml, .pair, .pins, .tx] s (execHandoverMessage f m s) := by
  unfold execHandoverMessage
  with_reducible repeat' first
    | assumption | exact changesOnly.refl _ _ | exact keeps.refl _ | apply pairReceive_replies | apply replies_ite
    | apply writeMirror_changes | apply writeMirror_keeps | apply hoAccept_changes | apply hoAccept_keeps
    | apply hoReady_changes | apply hoReady_keeps | apply pulseStart_changes | apply pulseStart_keeps
    | apply restart_changes | apply restart_keeps | apply changesOnly.iteL | apply keeps.iteL | apply changesOnly.ite
    | apply keeps.ite | decide | split | (intro)

theorem execHandoverRampStart_replies {s : State} :
    replies [.time, .regs, .halls, .chans, .convs, .per, .bb, .jnl, .pair] s (execHandoverRampStart s) := by
  unfold execHandoverRampStart
  with_reducible repeat' first
    | assumption | exact changesOnly.refl _ _ | exact keeps.refl _ | apply replies_done | apply replies_ite
    | apply moveTo_changes | apply moveTo_keeps | apply jStep_changes | apply jStep_keeps | apply updPair_changes
    | apply updPair_keeps | apply inputsMixed_changes | apply inputsMixed_keeps | apply outputIdle_changes
    | apply outputIdle_keeps | apply inputsActive_changes | apply inputsActive_keeps | apply outputActive_changes
    | apply outputActive_keeps | apply takeCommands_changes | apply takeCommands_keeps | apply forShared_into
    | apply forShared_keeps | apply changesOnly.iteL | apply keeps.iteL | apply changesOnly.ite | apply keeps.ite
    | decide | split | (intro)

theorem execHandoverInputRelease_replies {s : State} :
    replies [.time, .halls, .chans, .convs] s (execHandoverInputRelease s) := by
  unfold execHandoverInputRelease
  with_reducible repeat' first
    | assumption | exact changesOnly.refl _ _ | exact keeps.refl _ | apply replies_done | apply replies_ite
    | apply moveTo_changes | apply moveTo_keeps | apply inputsStandby_changes | apply inputsStandby_keeps
    | apply changesOnly.iteL | apply keeps.iteL | apply changesOnly.ite | apply keeps.ite | decide | split | (intro)

theorem execHandoverOutputOff_replies {s : State} :
    replies [.time, .regs, .halls, .chans, .per, .bb] s (execHandoverOutputOff s) := by
  unfold execHandoverOutputOff
  with_reducible repeat' first
    | assumption | exact changesOnly.refl _ _ | exact keeps.refl _ | apply replies_done | apply replies_ite
    | apply moveTo_changes | apply moveTo_keeps | apply outputIdle_changes | apply outputIdle_keeps
    | apply forShared_into | apply forShared_keeps | apply changesOnly.iteL | apply keeps.iteL
    | apply changesOnly.ite | apply keeps.ite | decide | split | (intro)

theorem execHandoverSwitch_replies {s : State} :
    replies [.time, .regs, .latch, .hp, .stg, .str, .halls, .chans, .convs, .sync, .newest, .older, .modes, .curves, .eng, .runs, .per, .bal, .aud, .gal, .bb, .jnl, .img, .nv, .mem, .wd, .clk, .ml, .pair, .pins, .tx] s (execHandoverSwitch s) := by
  unfold execHandoverSwitch
  with_reducible repeat' first
    | assumption | exact changesOnly.refl _ _ | exact keeps.refl _ | apply replies_done | apply replies_ite
    | apply moveTo_changes | apply moveTo_keeps | apply hoLeave_changes | apply hoLeave_keeps
    | apply switchIdle_changes | apply switchIdle_keeps | apply switchLatch_changes | apply switchLatch_keeps
    | apply hoEnter_changes | apply hoEnter_keeps | apply changesOnly.iteL | apply keeps.iteL | apply changesOnly.ite
    | apply keeps.ite | decide | split | (intro)

theorem execImageCopyToStandby_replies {s : State} :
    replies [.pair, .tx] s (execImageCopyToStandby s) := by
  unfold execImageCopyToStandby
  with_reducible repeat' first
    | assumption | exact changesOnly.refl _ _ | exact keeps.refl _ | apply replies_done | apply replies_ite
    | apply forward_changes | apply forward_keeps | apply sendImageWord_changes | apply sendImageWord_keeps
    | apply hoSend_changes | apply hoSend_keeps | apply forN_into | apply forN_keeps | apply changesOnly.iteL
    | apply keeps.iteL | apply changesOnly.ite | apply keeps.ite | decide | split | (intro)

theorem execGridLock_replies {s : State} :
    replies [.time] s (execGridLock s) := by
  unfold execGridLock
  with_reducible repeat' first
    | assumption | exact changesOnly.refl _ _ | exact keeps.refl _ | apply replies_done | apply replies_ite
    | apply moveTo_changes | apply moveTo_keeps | apply changesOnly.iteL | apply keeps.iteL | apply changesOnly.ite
    | apply keeps.ite | decide | split | (intro)

theorem execCharacterLockLost_replies {l : Link} {s : State} :
    replies [.regs, .bb, .ml, .pair] s (execCharacterLockLost l s) := by
  unfold execCharacterLockLost
  with_reducible repeat' first
    | assumption | exact changesOnly.refl _ _ | exact keeps.refl _ | apply replies_done | apply replies_ite
    | apply isolate_changes | apply isolate_keeps | apply updPort_changes | apply updPort_keeps
    | apply updPair_changes | apply updPair_keeps | apply changesOnly.iteL | apply keeps.iteL | apply changesOnly.ite
    | apply keeps.ite | decide | split | (intro)

theorem execPairLinkUp_replies {s : State} :
    replies [.pair, .tx] s (execPairLinkUp s) := by
  unfold execPairLinkUp
  with_reducible repeat' first
    | assumption | exact changesOnly.refl _ _ | exact keeps.refl _ | apply replies_done | apply replies_ite
    | apply sendAnswer_changes | apply sendAnswer_keeps | apply sendStatus_changes | apply sendStatus_keeps
    | apply updPair_changes | apply updPair_keeps | apply changesOnly.iteL | apply keeps.iteL | apply changesOnly.ite
    | apply keeps.ite | decide | split | (intro)

theorem execVbatLowClear_replies {s : State} :
    replies [.clk] s (execVbatLowClear s) := by
  unfold execVbatLowClear
  with_reducible repeat' first
    | assumption | exact changesOnly.refl _ _ | exact keeps.refl _ | apply replies_done | apply replies_ite
    | apply changesOnly.iteL | apply keeps.iteL | apply changesOnly.ite | apply keeps.ite | decide | split
    | apply changesOnly.set_clk | apply keeps.set | (intro)

theorem execCheckIn_replies {slot : Fin 16} {s : State} :
    replies [.regs, .img, .wd] s (execCheckIn slot s) := by
  unfold execCheckIn
  with_reducible repeat' first
    | assumption | exact changesOnly.refl _ _ | exact keeps.refl _ | apply replies_done | apply replies_ite
    | apply checkIn_changes | apply checkIn_keeps | apply changesOnly.iteL | apply keeps.iteL | apply changesOnly.ite
    | apply keeps.ite | decide | split | (intro)

theorem execRampEnd_replies {h : Hall} {ch : Chan} {s : State} :
    replies [.time, .regs, .halls, .chans, .per, .bb] s (execRampEnd h ch s) := by
  unfold execRampEnd
  with_reducible repeat' first
    | assumption | exact changesOnly.refl _ _ | exact keeps.refl _ | apply hallDo_replies | apply replies_ite
    | apply moveTo_changes | apply moveTo_keeps | apply updChan_changes | apply updChan_keeps
    | apply resolveAll_changes | apply resolveAll_keeps | apply resolve_changes | apply resolve_keeps
    | apply changesOnly.iteL | apply keeps.iteL | apply changesOnly.ite | apply keeps.ite | decide | split | (intro)

end Sys2Proof.Machine
end

