-- ==== Sys2Proof/Laws/RegFrames0.lean ====
section
/-! SUPPORT. Which registers each shared operation changes at most (part 1 of 11). -/

set_option linter.unusedTactic false
set_option linter.unreachableTactic false

namespace Sys2Proof.Machine

theorem modReg_regs {P : Nat → Prop} {s0 : State} {a : Nat} {f : Word → Word} {s : State}
    (p0 : P (a))
    (hs : regsOutside P s0 s) : regsOutside P s0 (modReg a f s) := by
  refine hs.trans ?_
  clear hs
  unfold modReg
  with_reducible repeat' first
    | assumption | exact regsOutside.refl _ _ | apply setReg_regs | (intro) | solve_by_elim

theorem trimEvents_regs {P : Nat → Prop} {s0 : State} {s : State} (hs : regsOutside P s0 s) :
    regsOutside P s0 (trimEvents s) :=
  hs.skip (trimEvents_changes (F := [.bb]) rfl (changesOnly.refl _ _)) (by decide)

theorem bbEventAt_regs {P : Nat → Prop} {s0 : State} {time : Nat} {code : Nat} {src : Nat} {data : Nat} {s : State}
    (p0 : P (rBbMissed))
    (hs : regsOutside P s0 s) : regsOutside P s0 (bbEventAt time code src data s) := by
  refine hs.trans ?_
  clear hs
  unfold bbEventAt
  with_reducible repeat' first
    | assumption | exact regsOutside.refl _ _ | apply modReg_regs | apply trimEvents_regs | apply regsOutside.iteL
    | apply regsOutside.ite | split | (intro) | apply regsOutside.set | solve_by_elim

theorem raiseEvtAt_regs {P : Nat → Prop} {s0 : State} {time : Nat} {a : Nat} {m : Word} {s : State}
    (p0 : P (a)) (p1 : P (rBbMissed))
    (hs : regsOutside P s0 s) : regsOutside P s0 (raiseEvtAt time a m s) := by
  refine hs.trans ?_
  clear hs
  unfold raiseEvtAt
  with_reducible repeat' first
    | assumption | exact regsOutside.refl _ _ | apply setReg_regs | apply bbEventAt_regs | apply regsOutside.iteL
    | apply regsOutside.ite | split | (intro) | solve_by_elim

theorem raiseEvt_regs {P : Nat → Prop} {s0 : State} {a : Nat} {m : Word} {s : State}
    (p0 : P (a)) (p1 : P (rBbMissed))
    (hs : regsOutside P s0 s) : regsOutside P s0 (raiseEvt a m s) := by
  refine hs.trans ?_
  clear hs
  unfold raiseEvt
  with_reducible repeat' first
    | assumption | exact regsOutside.refl _ _ | apply raiseEvtAt_regs | (intro) | solve_by_elim

theorem raiseBit_regs {P : Nat → Prop} {s0 : State} {a : Nat} {i : Nat} {s : State}
    (p0 : P (a)) (p1 : P (rBbMissed))
    (hs : regsOutside P s0 s) : regsOutside P s0 (raiseBit a i s) := by
  refine hs.trans ?_
  clear hs
  unfold raiseBit
  with_reducible repeat' first
    | assumption | exact regsOutside.refl _ _ | apply raiseEvt_regs | (intro) | solve_by_elim

theorem updImg_regs {P : Nat → Prop} {s0 : State} {f : ImgSt → ImgSt} {s : State} (hs : regsOutside P s0 s) :
    regsOutside P s0 (updImg f s) :=
  hs.skip (updImg_changes (F := [.img]) rfl (changesOnly.refl _ _)) (by decide)

theorem setCopy_regs {P : Nat → Prop} {s0 : State} {i : Nat} {st : Nat} {gen : Nat} {s : State} (hs : regsOutside P s0 s) :
    regsOutside P s0 (setCopy i st gen s) :=
  hs.skip (setCopy_changes (F := [.img]) rfl (changesOnly.refl _ _)) (by decide)

theorem setNewCopies_regs {P : Nat → Prop} {s0 : State} {st : Nat} {gen : Nat} {s : State} (hs : regsOutside P s0 s) :
    regsOutside P s0 (setNewCopies st gen s) :=
  hs.skip (setNewCopies_changes (F := [.img]) rfl (changesOnly.refl _ _)) (by decide)

theorem nvErase_regs {P : Nat → Prop} {s0 : State} {a : Nat} {n : Nat} {s : State} (hs : regsOutside P s0 s) :
    regsOutside P s0 (nvErase a n s) :=
  hs.skip (nvErase_changes (F := [.nv]) rfl (changesOnly.refl _ _)) (by decide)

theorem abortRefused_regs {P : Nat → Prop} {s0 : State} {s : State}
    (p0 : P (rImgEvt)) (p1 : P (rBbMissed))
    (hs : regsOutside P s0 s) : regsOutside P s0 (abortRefused s) := by
  refine hs.trans ?_
  clear hs
  unfold abortRefused
  with_reducible repeat' first
    | assumption | exact regsOutside.refl _ _ | apply raiseBit_regs | apply setNewCopies_regs | apply nvErase_regs
    | (intro) | solve_by_elim

theorem updChan_regs {P : Nat → Prop} {s0 : State} {h : Nat} {c : Nat} {f : ChanState → ChanState} {s : State} (hs : regsOutside P s0 s) :
    regsOutside P s0 (updChan h c f s) :=
  hs.skip (updChan_changes (F := [.chans]) rfl (changesOnly.refl _ _)) (by decide)

theorem chFlag_regs {P : Nat → Prop} {s0 : State} {h : Nat} {c : Nat} {i : Nat} {b : Bool} {s : State} (hs : regsOutside P s0 s) :
    regsOutside P s0 (chFlag h c i b s) :=
  hs.skip (chFlag_changes (F := [.chans]) rfl (changesOnly.refl _ _)) (by decide)

theorem ainFlag_regs {P : Nat → Prop} {s0 : State} {h : Nat} {c : Nat} {i : Nat} {b : Bool} {s : State} (hs : regsOutside P s0 s) :
    regsOutside P s0 (ainFlag h c i b s) :=
  hs.skip (ainFlag_changes (F := [.chans]) rfl (changesOnly.refl _ _)) (by decide)

theorem ackFlags_regs {P : Nat → Prop} {s0 : State} {h : Nat} {c : Nat} {present : Bool} {s : State} (hs : regsOutside P s0 s) :
    regsOutside P s0 (ackFlags h c present s) :=
  hs.skip (ackFlags_changes (F := [.chans]) rfl (changesOnly.refl _ _)) (by decide)

theorem setDrive_regs {P : Nat → Prop} {s0 : State} {h : Nat} {c : Nat} {v : Nat} {s : State} (hs : regsOutside P s0 s) :
    regsOutside P s0 (setDrive h c v s) :=
  hs.skip (setDrive_changes (F := [.chans]) rfl (changesOnly.refl _ _)) (by decide)

theorem pulseGo_regs {P : Nat → Prop} {s0 : State} {h : Nat} {c : Nat} {s : State} (hs : regsOutside P s0 s) :
    regsOutside P s0 (pulseGo h c s) :=
  hs.skip (pulseGo_changes (F := [.chans]) rfl (changesOnly.refl _ _)) (by decide)

theorem resolve_regs {P : Nat → Prop} {s0 : State} {h : Nat} {c : Nat} {s : State} (hs : regsOutside P s0 s) :
    regsOutside P s0 (resolve h c s) :=
  hs.skip (resolve_changes (F := [.chans]) rfl (changesOnly.refl _ _)) (by decide)

theorem gangFail_regs {P : Nat → Prop} {s0 : State} {h : Nat} {c : Nat} {s : State} (hs : regsOutside P s0 s) :
    regsOutside P s0 (gangFail h c s) :=
  hs.skip (gangFail_changes (F := [.chans]) rfl (changesOnly.refl _ _)) (by decide)

theorem ackChannel_regs {P : Nat → Prop} {s0 : State} {h : Nat} {c : Nat} {present : Nat → Bool} {s : State} (hs : regsOutside P s0 s) :
    regsOutside P s0 (ackChannel h c present s) :=
  hs.skip (ackChannel_changes (F := [.chans]) rfl (changesOnly.refl _ _)) (by decide)

theorem updHall_regs {P : Nat → Prop} {s0 : State} {h : Nat} {f : HallState → HallState} {s : State} (hs : regsOutside P s0 s) :
    regsOutside P s0 (updHall h f s) :=
  hs.skip (updHall_changes (F := [.halls]) rfl (changesOnly.refl _ _)) (by decide)

theorem reportState_regs {P : Nat → Prop} {s0 : State} {h : Nat} {c : Nat} {s : State}
    (p0 : P (aCh h c 36)) (p1 : P (rBbMissed))
    (hs : regsOutside P s0 s) : regsOutside P s0 (reportState h c s) := by
  refine hs.trans ?_
  clear hs
  unfold reportState
  with_reducible repeat' first
    | assumption | exact regsOutside.refl _ _ | apply raiseEvtAt_regs | apply regsOutside.iteL
    | apply regsOutside.ite | split | (intro) | solve_by_elim

theorem reportChan_regs {P : Nat → Prop} {s0 : State} {h : Nat} {c : Nat} {s : State}
    (p0 : P (aCh h c 32)) (p1 : P (aCh h c 88)) (p2 : P (aCh h c 96)) (p3 : P (aHall h (40 + 4 * c))) (p4 : P (aHall h (41 + 4 * c))) (p5 : P (aHall h (42 + 4 * c))) (p6 : P (aHall h (43 + 4 * c))) (p7 : P (aRot h (24 + 2 * c))) (p8 : P (aRot h (25 + 2 * c))) (p9 : P (aCh h c 36)) (p10 : P (rBbMissed)) (p11 : P (aCh h c 92))
    (hs : regsOutside P s0 s) : regsOutside P s0 (reportChan h c s) := by
  refine hs.trans ?_
  clear hs
  unfold reportChan
  with_reducible repeat' first
    | assumption | exact regsOutside.refl _ _ | apply setReg_regs | apply raiseEvt_regs | apply reportState_regs
    | apply updChan_regs | (intro) | solve_by_elim

theorem noteVstate_regs {P : Nat → Prop} {s0 : State} {h : Nat} {s : State} (hs : regsOutside P s0 s) :
    regsOutside P s0 (noteVstate h s) :=
  hs.skip (noteVstate_changes (F := [.per]) rfl (changesOnly.refl _ _)) (by decide)

theorem report_regs {P : Nat → Prop} {s0 s : State} {h : Nat}
    (p0 : ∀ a, hallRegs h a → P a) (p1 : P rBbMissed)
    (hs : regsOutside P s0 s) : regsOutside P s0 (report h s) := by
  have k0 : P (aHall h 3) := p0 _ (by simp [hallRegs])
  have k1 : P (aHall h 7) := p0 _ (by simp [hallRegs])
  have k2 : P (aHall h 109) := p0 _ (by simp [hallRegs])
  have k3 : P (aHall h 67) := p0 _ (by simp [hallRegs])
  have k4 : P (aRot h 21) := p0 _ (by simp [hallRegs])
  have k5 : P (rHallEvt h) := p0 _ (by simp [hallRegs])
  have k6 : P (rExcEvt h) := p0 _ (by simp [hallRegs])
  have k7 : P (rRotEvt h) := p0 _ (by simp [hallRegs])
  have c0 : ∀ c, c < 4 → P (aCh h c 32) := fun c hc =>
    p0 _ (Or.inr <| Or.inr <| Or.inr <| Or.inr <| Or.inr <| Or.inr <| Or.inr <| Or.inr <| Or.inr <| Or.inr ⟨c, hc, by simp⟩)
  have c1 : ∀ c, c < 4 → P (aCh h c 88) := fun c hc =>
    p0 _ (Or.inr <| Or.inr <| Or.inr <| Or.inr <| Or.inr <| Or.inr <| Or.inr <| Or.inr <| Or.inr <| Or.inr ⟨c, hc, by simp⟩)
  have c2 : ∀ c, c < 4 → P (aCh h c 96) := fun c hc =>
    p0 _ (Or.inr <| Or.inr <| Or.inr <| Or.inr <| Or.inr <| Or.inr <| Or.inr <| Or.inr <| Or.inr <| Or.inr ⟨c, hc, by simp⟩)
  have c3 : ∀ c, c < 4 → P (aHall h (40 + 4 * c)) := fun c hc =>
    p0 _ (Or.inr <| Or.inr <| Or.inr <| Or.inr <| Or.inr <| Or.inr <| Or.inr <| Or.inr <| Or.inr <| Or.inr ⟨c, hc, by simp⟩)
  have c4 : ∀ c, c < 4 → P (aHall h (41 + 4 * c)) := fun c hc =>
    p0 _ (Or.inr <| Or.inr <| Or.inr <| Or.inr <| Or.inr <| Or.inr <| Or.inr <| Or.inr <| Or.inr <| Or.inr ⟨c, hc, by simp⟩)
  have c5 : ∀ c, c < 4 → P (aHall h (42 + 4 * c)) := fun c hc =>
    p0 _ (Or.inr <| Or.inr <| Or.inr <| Or.inr <| Or.inr <| Or.inr <| Or.inr <| Or.inr <| Or.inr <| Or.inr ⟨c, hc, by simp⟩)
  have c6 : ∀ c, c < 4 → P (aHall h (43 + 4 * c)) := fun c hc =>
    p0 _ (Or.inr <| Or.inr <| Or.inr <| Or.inr <| Or.inr <| Or.inr <| Or.inr <| Or.inr <| Or.inr <| Or.inr ⟨c, hc, by simp⟩)
  have c7 : ∀ c, c < 4 → P (aRot h (24 + 2 * c)) := fun c hc =>
    p0 _ (Or.inr <| Or.inr <| Or.inr <| Or.inr <| Or.inr <| Or.inr <| Or.inr <| Or.inr <| Or.inr <| Or.inr ⟨c, hc, by simp⟩)
  have c8 : ∀ c, c < 4 → P (aRot h (25 + 2 * c)) := fun c hc =>
    p0 _ (Or.inr <| Or.inr <| Or.inr <| Or.inr <| Or.inr <| Or.inr <| Or.inr <| Or.inr <| Or.inr <| Or.inr ⟨c, hc, by simp⟩)
  have c9 : ∀ c, c < 4 → P (aCh h c 36) := fun c hc =>
    p0 _ (Or.inr <| Or.inr <| Or.inr <| Or.inr <| Or.inr <| Or.inr <| Or.inr <| Or.inr <| Or.inr <| Or.inr ⟨c, hc, by simp⟩)
  have c10 : ∀ c, c < 4 → P (aCh h c 92) := fun c hc =>
    p0 _ (Or.inr <| Or.inr <| Or.inr <| Or.inr <| Or.inr <| Or.inr <| Or.inr <| Or.inr <| Or.inr <| Or.inr ⟨c, hc, by simp⟩)
  have w0 : ∀ w, w < 4 → P (aConv (2 * h) (59 + 4 * w)) := fun w hw =>
    p0 _ (Or.inr <| Or.inr <| Or.inr <| Or.inr <| Or.inr <| Or.inr <| Or.inr <| Or.inr <| Or.inr <| Or.inl ⟨w, hw, rfl⟩)
  clear p0
  refine hs.trans ?_
  clear hs
  unfold report
  with_reducible repeat' first
    | assumption | exact regsOutside.refl _ _ | apply setReg_regs | apply raiseEvt_regs | apply updHall_regs
    | apply reportChan_regs | apply forChans_regs | apply forN_regs | apply noteVstate_regs | apply regsOutside.iteL | apply regsOutside.ite | (intro)
    | solve_by_elim

theorem forShared_regs {P : Nat → Prop} {s0 s : State} {sel : State → Nat → Nat → Bool} {f : Nat → Nat → State → State}
    (h : ∀ h c v, regsOutside P v (f h c v)) (p0 : ∀ h, h < 8 → ∀ a, hallRegs h a → P a)
    (hs : regsOutside P s0 s) : regsOutside P s0 (forShared sel f s) := by
  unfold forShared
  apply forHalls_regs _ hs
  intro c v hc
  apply regsOutside.ite _ (regsOutside.refl _ _)
  apply report_regs (p0 c hc) (p0 c hc _ (Or.inl rfl))
  refine forChans_regs (fun d w _ => ?_) (regsOutside.refl _ _)
  exact regsOutside.ite (h _ _ _) (regsOutside.refl _ _)

theorem hallAck_regs {P : Nat → Prop} {s0 : State} {h : Nat} {acks : Nat} {present : Nat → Bool} {s : State}
    (p0 : ∀ a, hallRegs h a → P a) (p1 : P (rBbMissed))
    (hs : regsOutside P s0 s) : regsOutside P s0 (hallAck h acks present s) := by
  refine hs.trans ?_
  clear hs
  unfold hallAck
  with_reducible repeat' first
    | assumption | exact regsOutside.refl _ _ | apply report_regs | apply ackChannel_regs | apply forChans_regs
    | apply regsOutside.iteL | apply regsOutside.ite | split | (intro) | solve_by_elim

theorem excFlag_regs {P : Nat → Prop} {s0 : State} {h : Nat} {i : Nat} {b : Bool} {s : State} (hs : regsOutside P s0 s) :
    regsOutside P s0 (excFlag h i b s) :=
  hs.skip (excFlag_changes (F := [.halls]) rfl (changesOnly.refl _ _)) (by decide)

theorem applyExc_regs {P : Nat → Prop} {s0 : State} {h : Nat} {s : State} (hs : regsOutside P s0 s) :
    regsOutside P s0 (applyExc h s) :=
  hs.skip (applyExc_changes (F := [.halls]) rfl (changesOnly.refl _ _)) (by decide)

theorem updConv_regs {P : Nat → Prop} {s0 : State} {n : Nat} {f : ConvState → ConvState} {s : State} (hs : regsOutside P s0 s) :
    regsOutside P s0 (updConv n f s) :=
  hs.skip (updConv_changes (F := [.convs]) rfl (changesOnly.refl _ _)) (by decide)

theorem discard_regs {P : Nat → Prop} {s0 : State} {n : Nat} {s : State} (hs : regsOutside P s0 s) :
    regsOutside P s0 (discard n s) :=
  hs.skip (discard_changes (F := [.convs]) rfl (changesOnly.refl _ _)) (by decide)

theorem discardOpen_regs {P : Nat → Prop} {s0 : State} {n : Nat} {s : State} (hs : regsOutside P s0 s) :
    regsOutside P s0 (discardOpen n s) :=
  hs.skip (discardOpen_changes (F := [.convs]) rfl (changesOnly.refl _ _)) (by decide)

theorem leaveShadow_regs {P : Nat → Prop} {s0 : State} {n : Nat} {s : State} (hs : regsOutside P s0 s) :
    regsOutside P s0 (leaveShadow n s) :=
  hs.skip (leaveShadow_changes (F := [.convs]) rfl (changesOnly.refl _ _)) (by decide)

theorem dropShadow_regs {P : Nat → Prop} {s0 : State} {h : Nat} {s : State} (hs : regsOutside P s0 s) :
    regsOutside P s0 (dropShadow h s) :=
  hs.skip (dropShadow_changes (F := [.halls, .convs]) rfl (changesOnly.refl _ _)) (by decide)

theorem restartAt_regs {P : Nat → Prop} {s0 : State} {n : Nat} {t16 : Nat} {s : State} (hs : regsOutside P s0 s) :
    regsOutside P s0 (restartAt n t16 s) :=
  hs.skip (restartAt_changes (F := [.convs]) rfl (changesOnly.refl _ _)) (by decide)

theorem restartStep_regs {P : Nat → Prop} {s0 : State} {n : Nat} {t16 : Nat} {s : State} (hs : regsOutside P s0 s) :
    regsOutside P s0 (restartStep n t16 s) :=
  hs.skip (restartStep_changes (F := [.convs]) rfl (changesOnly.refl _ _)) (by decide)

theorem forcedShadow_regs {P : Nat → Prop} {s0 : State} {h : Nat} {s : State} (hs : regsOutside P s0 s) :
    regsOutside P s0 (forcedShadow h s) :=
  hs.skip (forcedShadow_changes (F := [.halls]) rfl (changesOnly.refl _ _)) (by decide)

theorem forceExc_regs {P : Nat → Prop} {s0 : State} {h : Nat} {s : State}
    (p0 : ∀ a, hallRegs h a → P a) (p1 : P (rBbMissed))
    (hs : regsOutside P s0 s) : regsOutside P s0 (forceExc h s) := by
  refine hs.trans ?_
  clear hs
  unfold forceExc
  with_reducible repeat' first
    | assumption | exact regsOutside.refl _ _ | apply applyExc_regs | apply dropShadow_regs | apply restartStep_regs
    | apply forcedShadow_regs | apply report_regs | apply updHall_regs | apply regsOutside.iteL
    | apply regsOutside.ite | split | (intro) | solve_by_elim

theorem addTrigger_regs {P : Nat → Prop} {s0 : State} {n : Nat} {t16 : Nat} {s : State} (hs : regsOutside P s0 s) :
    regsOutside P s0 (addTrigger n t16 s) :=
  hs.skip (addTrigger_changes (F := [.convs]) rfl (changesOnly.refl _ _)) (by decide)

theorem triggerBlock_regs {P : Nat → Prop} {s0 : State} {own : Nat} {b : Nat} {t16 : Nat} {s : State} (hs : regsOutside P s0 s) :
    regsOutside P s0 (triggerBlock own b t16 s) :=
  hs.skip (triggerBlock_changes (F := [.convs]) rfl (changesOnly.refl _ _)) (by decide)

theorem injGoOp_regs {P : Nat → Prop} {s0 : State} {n : Nat} {s : State} (hs : regsOutside P s0 s) :
    regsOutside P s0 (injGoOp n s) :=
  hs.skip (injGoOp_changes (F := [.convs]) rfl (changesOnly.refl _ _)) (by decide)

theorem updRot_regs {P : Nat → Prop} {s0 : State} {h : Nat} {f : RotSt → RotSt} {s : State} (hs : regsOutside P s0 s) :
    regsOutside P s0 (updRot h f s) :=
  hs.skip (updRot_changes (F := [.halls]) rfl (changesOnly.refl _ _)) (by decide)

theorem rotNowOp_regs {P : Nat → Prop} {s0 : State} {h : Nat} {s : State} (hs : regsOutside P s0 s) :
    regsOutside P s0 (rotNowOp h s) :=
  hs.skip (rotNowOp_changes (F := [.halls]) rfl (changesOnly.refl _ _)) (by decide)

theorem startFlight_regs {P : Nat → Prop} {s0 : State} {n : Nat} {s : State} (hs : regsOutside P s0 s) :
    regsOutside P s0 (startFlight n s) :=
  hs.skip (startFlight_changes (F := [.convs]) rfl (changesOnly.refl _ _)) (by decide)

theorem startIdle_regs {P : Nat → Prop} {s0 : State} {own : Nat} {s : State} (hs : regsOutside P s0 s) :
    regsOutside P s0 (startIdle own s) :=
  hs.skip (startIdle_changes (F := [.convs]) rfl (changesOnly.refl _ _)) (by decide)

theorem joinAt_regs {P : Nat → Prop} {s0 : State} {n : Nat} {h : Nat} {x : ConvState} {inst : Nat} {s : State} (hs : regsOutside P s0 s) :
    regsOutside P s0 (joinAt n h x inst s) :=
  hs.skip (joinAt_changes (F := [.convs]) rfl (changesOnly.refl _ _)) (by decide)

theorem joinBack_regs {P : Nat → Prop} {s0 : State} {h : Nat} {t16 : Nat} {s : State} (hs : regsOutside P s0 s) :
    regsOutside P s0 (joinBack h t16 s) :=
  hs.skip (joinBack_changes (F := [.convs]) rfl (changesOnly.refl _ _)) (by decide)

theorem unretireOp_regs {P : Nat → Prop} {s0 : State} {h : Nat} {k : Nat} {s : State}
    (p0 : ∀ a, hallRegs h a → P a) (p1 : P (rBbMissed))
    (hs : regsOutside P s0 s) : regsOutside P s0 (unretireOp h k s) := by
  refine hs.trans ?_
  clear hs
  unfold unretireOp
  with_reducible repeat' first
    | assumption | exact regsOutside.refl _ _ | apply updHall_regs | apply startIdle_regs | apply report_regs
    | apply joinBack_regs | apply regsOutside.iteL | apply regsOutside.ite | split | (intro) | solve_by_elim

theorem updStg_regs {P : Nat → Prop} {s0 : State} {f : StgSt → StgSt} {s : State} (hs : regsOutside P s0 s) :
    regsOutside P s0 (updStg f s) :=
  hs.skip (updStg_changes (F := [.stg]) rfl (changesOnly.refl _ _)) (by decide)

theorem stgAbandon_regs {P : Nat → Prop} {s0 : State} {s : State} (hs : regsOutside P s0 s) :
    regsOutside P s0 (stgAbandon s) :=
  hs.skip (stgAbandon_changes (F := [.stg]) rfl (changesOnly.refl _ _)) (by decide)

theorem send_regs {P : Nat → Prop} {s0 : State} {line : Nat} {bs : List Byte} {s : State} (hs : regsOutside P s0 s) :
    regsOutside P s0 (send line bs s) :=
  hs.skip (send_changes (F := [.tx]) rfl (changesOnly.refl _ _)) (by decide)

end Sys2Proof.Machine
end

