-- ==== Sys2Proof/Laws/RegFrames1.lean ====
section
/-! SUPPORT. Which registers each shared operation changes at most (part 2 of 11). -/

set_option linter.unusedTactic false
set_option linter.unreachableTactic false

namespace Sys2Proof.Machine

theorem updPair_regs {P : Nat → Prop} {s0 : State} {f : PairSt → PairSt} {s : State} (hs : regsOutside P s0 s) :
    regsOutside P s0 (updPair f s) :=
  hs.skip (updPair_changes (F := [.pair]) rfl (changesOnly.refl _ _)) (by decide)

theorem pairSend_regs {P : Nat → Prop} {s0 : State} {typ : Nat} {maddr : Nat} {payload : List Byte} {s : State} (hs : regsOutside P s0 s) :
    regsOutside P s0 (pairSend typ maddr payload s) :=
  hs.skip (pairSend_changes (F := [.tx, .pair]) rfl (changesOnly.refl _ _)) (by decide)

theorem forward_regs {P : Nat → Prop} {s0 : State} {a : Nat} {kind : Nat} {mask : Word} {value : Word} {s : State} (hs : regsOutside P s0 s) :
    regsOutside P s0 (forward a kind mask value s) :=
  hs.skip (forward_changes (F := [.tx, .pair]) rfl (changesOnly.refl _ _)) (by decide)

theorem stgForward_regs {P : Nat → Prop} {s0 : State} {s : State} (hs : regsOutside P s0 s) :
    regsOutside P s0 (stgForward s) :=
  hs.skip (stgForward_changes (F := [.tx, .pair]) rfl (changesOnly.refl _ _)) (by decide)

theorem stgCommit_regs {P : Nat → Prop} {s0 : State} {s : State} (hs : regsOutside P s0 s) :
    regsOutside P s0 (stgCommit s) :=
  hs.skip (stgCommit_changes (F := [.stg, .tx, .pair]) rfl (changesOnly.refl _ _)) (by decide)

theorem stgCtrl_regs {P : Nat → Prop} {s0 : State} {v : Word} {s : State} (hs : regsOutside P s0 s) :
    regsOutside P s0 (stgCtrl v s) :=
  hs.skip (stgCtrl_changes (F := [.stg, .tx, .pair]) rfl (changesOnly.refl _ _)) (by decide)

theorem setStrPos_regs {P : Nat → Prop} {s0 : State} {k : Nat} {p : Nat} {s : State} (hs : regsOutside P s0 s) :
    regsOutside P s0 (setStrPos k p s) :=
  hs.skip (setStrPos_changes (F := [.str]) rfl (changesOnly.refl _ _)) (by decide)

theorem schedule_regs {P : Nat → Prop} {s0 : State} {t : Nat} {loc : Bool} {s : State} (hs : regsOutside P s0 s) :
    regsOutside P s0 (schedule t loc s) :=
  hs.skip (schedule_changes (F := [.sync]) rfl (changesOnly.refl _ _)) (by decide)

theorem acyPush_regs {P : Nat → Prop} {s0 : State} {bytes : List Byte} {notBefore : Nat} {answer : Bool} {s : State} (hs : regsOutside P s0 s) :
    regsOutside P s0 (acyPush bytes notBefore answer s) :=
  hs.skip (acyPush_changes (F := [.ml]) rfl (changesOnly.refl _ _)) (by decide)

theorem acyRequest_regs {P : Nat → Prop} {s0 : State} {op : Nat} {bcast : Bool} {dst : Nat} {data : List Byte} {s : State} (hs : regsOutside P s0 s) :
    regsOutside P s0 (acyRequest op bcast dst data s) :=
  hs.skip (acyRequest_changes (F := [.ml]) rfl (changesOnly.refl _ _)) (by decide)

theorem scheduleLocal_regs {P : Nat → Prop} {s0 : State} {t : Nat} {s : State} (hs : regsOutside P s0 s) :
    regsOutside P s0 (scheduleLocal t s) :=
  hs.skip (scheduleLocal_changes (F := [.sync, .ml]) rfl (changesOnly.refl _ _)) (by decide)

theorem syncNowOp_regs {P : Nat → Prop} {s0 : State} {s : State} (hs : regsOutside P s0 s) :
    regsOutside P s0 (syncNowOp s) :=
  hs.skip (syncNowOp_changes (F := [.sync, .ml]) rfl (changesOnly.refl _ _)) (by decide)

theorem bbEvent_regs {P : Nat → Prop} {s0 : State} {code : Nat} {src : Nat} {data : Nat} {s : State}
    (p0 : P (rBbMissed))
    (hs : regsOutside P s0 s) : regsOutside P s0 (bbEvent code src data s) := by
  refine hs.trans ?_
  clear hs
  unfold bbEvent
  with_reducible repeat' first
    | assumption | exact regsOutside.refl _ _ | apply bbEventAt_regs | (intro) | solve_by_elim

theorem freeze_regs {P : Nat → Prop} {s0 : State} {cause : Nat} {trap : Nat} {addr : Nat} {s : State}
    (p0 : P (rBbMissed)) (p1 : P (rBbEvt))
    (hs : regsOutside P s0 s) : regsOutside P s0 (freeze cause trap addr s) := by
  refine hs.trans ?_
  clear hs
  unfold freeze
  with_reducible repeat' first
    | assumption | exact regsOutside.refl _ _ | apply modReg_regs | apply bbEvent_regs | apply raiseBit_regs
    | apply regsOutside.iteL | apply regsOutside.ite | split | (intro) | apply regsOutside.set | solve_by_elim

theorem bbResume_regs {P : Nat → Prop} {s0 : State} {s : State} (hs : regsOutside P s0 s) :
    regsOutside P s0 (bbResume s) :=
  hs.skip (bbResume_changes (F := [.str, .bb]) rfl (changesOnly.refl _ _)) (by decide)

theorem checkIn_regs {P : Nat → Prop} {s0 : State} {i : Nat} {s : State}
    (p0 : P (rWdCount))
    (hs : regsOutside P s0 s) : regsOutside P s0 (checkIn i s) := by
  refine hs.trans ?_
  clear hs
  unfold checkIn
  with_reducible repeat' first
    | assumption | exact regsOutside.refl _ _ | apply modReg_regs | apply regsOutside.iteL | apply regsOutside.ite
    | split | (intro) | apply regsOutside.set | solve_by_elim

theorem updMl_regs {P : Nat → Prop} {s0 : State} {f : MlSt → MlSt} {s : State} (hs : regsOutside P s0 s) :
    regsOutside P s0 (updMl f s) :=
  hs.skip (updMl_changes (F := [.ml]) rfl (changesOnly.refl _ _)) (by decide)

theorem rebaseGrid_regs {P : Nat → Prop} {s0 : State} {s : State} (hs : regsOutside P s0 s) :
    regsOutside P s0 (rebaseGrid s) :=
  hs.skip (rebaseGrid_changes (F := [.sync]) rfl (changesOnly.refl _ _)) (by decide)

theorem takeFree_regs {P : Nat → Prop} {s0 : State} {s : State} (hs : regsOutside P s0 s) :
    regsOutside P s0 (takeFree s) :=
  hs.skip (takeFree_changes (F := [.free]) rfl (changesOnly.refl _ _)) (by decide)

theorem judgeGrid_regs {P : Nat → Prop} {s0 : State} {s : State} (hs : regsOutside P s0 s) :
    regsOutside P s0 (judgeGrid s) :=
  hs.skip (judgeGrid_changes (F := [.sync, .free]) rfl (changesOnly.refl _ _)) (by decide)

theorem stepRing_regs {P : Nat → Prop} {s0 : State} {t : Nat} {s : State} (hs : regsOutside P s0 s) :
    regsOutside P s0 (stepRing t s) :=
  hs.skip (stepRing_changes (F := [.sync, .free, .time, .modes]) rfl (changesOnly.refl _ _)) (by decide)

theorem timeSetNow_regs {P : Nat → Prop} {s0 : State} {s : State} (hs : regsOutside P s0 s) :
    regsOutside P s0 (timeSetNow s) :=
  hs.skip (timeSetNow_changes (F := [.sync, .free, .time, .modes, .clk, .ml]) rfl (changesOnly.refl _ _)) (by decide)

theorem timeSetOp_regs {P : Nat → Prop} {s0 : State} {s : State} (hs : regsOutside P s0 s) :
    regsOutside P s0 (timeSetOp s) :=
  hs.skip (timeSetOp_changes (F := [.ml, .sync, .free, .time, .modes, .clk]) rfl (changesOnly.refl _ _)) (by decide)

theorem mlSend_regs {P : Nat → Prop} {s0 : State} {p : Nat} {bs : List Byte} {good : Bool} {s : State} (hs : regsOutside P s0 s) :
    regsOutside P s0 (mlSend p bs good s) :=
  hs.skip (mlSend_changes (F := [.tx]) rfl (changesOnly.refl _ _)) (by decide)

theorem eccFound_regs {P : Nat → Prop} {s0 : State} {mem : Nat} {hall : Nat} {word : Nat} {s : State}
    (p0 : P (rBbMissed)) (p1 : P (rBbEvt)) (p2 : P (rEccEvt)) (p3 : P (10532))
    (hs : regsOutside P s0 s) : regsOutside P s0 (eccFound mem hall word s) := by
  refine hs.trans ?_
  clear hs
  unfold eccFound
  with_reducible repeat' first
    | assumption | exact regsOutside.refl _ _ | apply freeze_regs | apply raiseBit_regs | apply setReg_regs | (intro)
    | solve_by_elim

theorem eccRewritten_regs {P : Nat → Prop} {s0 : State} {sel : Nat × Nat → Bool} {s : State} (hs : regsOutside P s0 s) :
    regsOutside P s0 (eccRewritten sel s) :=
  hs.skip (eccRewritten_changes (F := [.mem]) rfl (changesOnly.refl _ _)) (by decide)

theorem frameSend_regs {P : Nat → Prop} {s0 : State} {p : Nat} {bs : List Byte} {good : Bool} {s : State}
    (p0 : P (rBbMissed)) (p1 : P (rBbEvt)) (p2 : P (rEccEvt)) (p3 : P (10532))
    (hs : regsOutside P s0 s) : regsOutside P s0 (frameSend p bs good s) := by
  refine hs.trans ?_
  clear hs
  unfold frameSend
  with_reducible repeat' first
    | assumption | exact regsOutside.refl _ _ | apply mlSend_regs | apply eccFound_regs | apply eccRewritten_regs
    | split | (intro) | solve_by_elim

theorem mlOriginate_regs {P : Nat → Prop} {s0 : State} {form : Bool} {typ : Nat} {payload : List Byte} {s : State}
    (p0 : P (rBbMissed)) (p1 : P (rBbEvt)) (p2 : P (rEccEvt)) (p3 : P (10532))
    (hs : regsOutside P s0 s) : regsOutside P s0 (mlOriginate form typ payload s) := by
  refine hs.trans ?_
  clear hs
  unfold mlOriginate
  with_reducible repeat' first
    | assumption | exact regsOutside.refl _ _ | apply frameSend_regs | split | (intro) | solve_by_elim

theorem updPort_regs {P : Nat → Prop} {s0 : State} {p : Nat} {f : MlPort → MlPort} {s : State} (hs : regsOutside P s0 s) :
    regsOutside P s0 (updPort p f s) :=
  hs.skip (updPort_changes (F := [.ml]) rfl (changesOnly.refl _ _)) (by decide)

theorem formGo_regs {P : Nat → Prop} {s0 : State} {s : State}
    (p0 : P (rBbMissed)) (p1 : P (rBbEvt)) (p2 : P (rEccEvt)) (p3 : P (10532))
    (hs : regsOutside P s0 s) : regsOutside P s0 (formGo s) := by
  refine hs.trans ?_
  clear hs
  unfold formGo
  with_reducible repeat' first
    | assumption | exact regsOutside.refl _ _ | apply updMl_regs | apply mlOriginate_regs | apply updPort_regs
    | apply forN_regs | (intro) | solve_by_elim

theorem formStart_regs {P : Nat → Prop} {s0 : State} {s : State}
    (p0 : P (rBbMissed)) (p1 : P (rBbEvt)) (p2 : P (rEccEvt)) (p3 : P (10532))
    (hs : regsOutside P s0 s) : regsOutside P s0 (formStart s) := by
  refine hs.trans ?_
  clear hs
  unfold formStart
  with_reducible repeat' first
    | assumption | exact regsOutside.refl _ _ | apply updMl_regs | apply formGo_regs | apply regsOutside.iteL
    | apply regsOutside.ite | split | (intro) | solve_by_elim

theorem mlCtrl_regs {P : Nat → Prop} {s0 : State} {v : Word} {s : State}
    (p0 : P (rBbMissed)) (p1 : P (rBbEvt)) (p2 : P (rEccEvt)) (p3 : P (10532))
    (hs : regsOutside P s0 s) : regsOutside P s0 (mlCtrl v s) := by
  refine hs.trans ?_
  clear hs
  unfold mlCtrl
  with_reducible repeat' first
    | assumption | exact regsOutside.refl _ _ | apply timeSetOp_regs | apply updMl_regs | apply formStart_regs
    | apply regsOutside.iteL | apply regsOutside.ite | split | (intro) | solve_by_elim

theorem mlEvent_regs {P : Nat → Prop} {s0 : State} {i : Nat} {s : State}
    (p0 : P (rMlEvt)) (p1 : P (rBbMissed))
    (hs : regsOutside P s0 s) : regsOutside P s0 (mlEvent i s) := by
  refine hs.trans ?_
  clear hs
  unfold mlEvent
  with_reducible repeat' first
    | assumption | exact regsOutside.refl _ _ | apply raiseBit_regs | (intro) | solve_by_elim

theorem injectCommand_regs {P : Nat → Prop} {s0 : State} {t : Nat} {s : State}
    (p0 : P (rMlEvt)) (p1 : P (rBbMissed))
    (hs : regsOutside P s0 s) : regsOutside P s0 (injectCommand t s) := by
  refine hs.trans ?_
  clear hs
  unfold injectCommand
  with_reducible repeat' first
    | assumption | exact regsOutside.refl _ _ | apply mlEvent_regs | apply updMl_regs | apply regsOutside.iteL
    | apply regsOutside.ite | split | (intro) | solve_by_elim

theorem mlCmd_regs {P : Nat → Prop} {s0 : State} {v : Word} {s : State}
    (p0 : P (rMlEvt)) (p1 : P (rBbMissed))
    (hs : regsOutside P s0 s) : regsOutside P s0 (mlCmd v s) := by
  refine hs.trans ?_
  clear hs
  unfold mlCmd
  with_reducible repeat' first
    | assumption | exact regsOutside.refl _ _ | apply acyRequest_regs | apply schedule_regs
    | apply injectCommand_regs | apply regsOutside.iteL | apply regsOutside.ite | split | (intro) | solve_by_elim

theorem mbDone_regs {P : Nat → Prop} {s0 : State} {status : Nat} {words : Nat} {s : State}
    (p0 : P (rMlEvt)) (p1 : P (rBbMissed)) (p2 : P (10787))
    (hs : regsOutside P s0 s) : regsOutside P s0 (mbDone status words s) := by
  refine hs.trans ?_
  clear hs
  unfold mbDone
  with_reducible repeat' first
    | assumption | exact regsOutside.refl _ _ | apply mlEvent_regs | apply setReg_regs | apply updMl_regs | (intro)
    | solve_by_elim

theorem mbStart_regs {P : Nat → Prop} {s0 : State} {v : Word} {s : State}
    (p0 : P (rMlEvt)) (p1 : P (rBbMissed)) (p2 : P (10787))
    (hs : regsOutside P s0 s) : regsOutside P s0 (mbStart v s) := by
  refine hs.trans ?_
  clear hs
  unfold mbStart
  with_reducible repeat' first
    | assumption | exact regsOutside.refl _ _ | apply mbDone_regs | apply updMl_regs | apply acyRequest_regs
    | apply setReg_regs | apply regsOutside.iteL | apply regsOutside.ite | split | (intro) | solve_by_elim

theorem jMod_regs {P : Nat → Prop} {s0 : State} {op : Nat} {f : JEntry → JEntry} {s : State} (hs : regsOutside P s0 s) :
    regsOutside P s0 (jMod op f s) :=
  hs.skip (jMod_changes (F := [.jnl]) rfl (changesOnly.refl _ _)) (by decide)

theorem jStep_regs {P : Nat → Prop} {s0 : State} {op : Nat} {i : Nat} {s : State} (hs : regsOutside P s0 s) :
    regsOutside P s0 (jStep op i s) :=
  hs.skip (jStep_changes (F := [.jnl]) rfl (changesOnly.refl _ _)) (by decide)

theorem nvWrite_regs {P : Nat → Prop} {s0 : State} {a : Nat} {bs : List Byte} {s : State} (hs : regsOutside P s0 s) :
    regsOutside P s0 (nvWrite a bs s) :=
  hs.skip (nvWrite_changes (F := [.nv]) rfl (changesOnly.refl _ _)) (by decide)

theorem dirWrite_regs {P : Nat → Prop} {s0 : State} {s : State} (hs : regsOutside P s0 s) :
    regsOutside P s0 (dirWrite s) :=
  hs.skip (dirWrite_changes (F := [.nv]) rfl (changesOnly.refl _ _)) (by decide)

theorem sectorErase_regs {P : Nat → Prop} {s0 : State} {a : Nat} {s : State} (hs : regsOutside P s0 s) :
    regsOutside P s0 (sectorErase a s) :=
  hs.skip (sectorErase_changes (F := [.nv]) rfl (changesOnly.refl _ _)) (by decide)

theorem jCopy_regs {P : Nat → Prop} {s0 : State} {e : JEntry} {s : State} (hs : regsOutside P s0 s) :
    regsOutside P s0 (jCopy e s) :=
  hs.skip (jCopy_changes (F := [.nv, .jnl]) rfl (changesOnly.refl _ _)) (by decide)

theorem retWritten_regs {P : Nat → Prop} {s0 : State} {x : RetItem} {s : State} (hs : regsOutside P s0 s) :
    regsOutside P s0 (retWritten x s) :=
  hs.skip (retWritten_changes (F := [.mem]) rfl (changesOnly.refl _ _)) (by decide)

theorem jOpen_regs {P : Nat → Prop} {s0 : State} {typ : Nat} {target : Nat} {detail : Nat} {s : State} (hs : regsOutside P s0 s) :
    regsOutside P s0 (jOpen typ target detail s) :=
  hs.skip (jOpen_changes (F := [.nv, .jnl, .mem]) rfl (changesOnly.refl _ _)) (by decide)

theorem hoSend_regs {P : Nat → Prop} {s0 : State} {m : HoMsg} {s : State} (hs : regsOutside P s0 s) :
    regsOutside P s0 (hoSend m s) :=
  hs.skip (hoSend_changes (F := [.tx, .pair]) rfl (changesOnly.refl _ _)) (by decide)

theorem hoRequest_regs {P : Nat → Prop} {s0 : State} {s : State} (hs : regsOutside P s0 s) :
    regsOutside P s0 (hoRequest s) :=
  hs.skip (hoRequest_changes (F := [.jnl, .nv, .mem, .tx, .pair]) rfl (changesOnly.refl _ _)) (by decide)

theorem pairEvent_regs {P : Nat → Prop} {s0 : State} {i : Nat} {s : State}
    (p0 : P (rPairEvt)) (p1 : P (rBbMissed))
    (hs : regsOutside P s0 s) : regsOutside P s0 (pairEvent i s) := by
  refine hs.trans ?_
  clear hs
  unfold pairEvent
  with_reducible repeat' first
    | assumption | exact regsOutside.refl _ _ | apply raiseBit_regs | (intro) | solve_by_elim

theorem hoRefused_regs {P : Nat → Prop} {s0 : State} {s : State}
    (p0 : P (rPairEvt)) (p1 : P (rBbMissed))
    (hs : regsOutside P s0 s) : regsOutside P s0 (hoRefused s) := by
  refine hs.trans ?_
  clear hs
  unfold hoRefused
  with_reducible repeat' first
    | assumption | exact regsOutside.refl _ _ | apply pairEvent_regs | apply regsOutside.iteL | apply regsOutside.ite
    | split | (intro) | solve_by_elim

theorem handoverOp_regs {P : Nat → Prop} {s0 : State} {s : State}
    (p0 : P (rPairEvt)) (p1 : P (rBbMissed))
    (hs : regsOutside P s0 s) : regsOutside P s0 (handoverOp s).1 := by
  refine hs.trans ?_
  clear hs
  unfold handoverOp
  with_reducible repeat' first
    | assumption | exact regsOutside.refl _ _ | apply hoRequest_regs | apply hoRefused_regs | apply regsOutside.iteL
    | apply regsOutside.ite | split | (intro) | solve_by_elim

end Sys2Proof.Machine
end

