-- ==== Sys2Proof/Laws/RegFrames2.lean ====
section
/-! SUPPORT. Which registers each shared operation changes at most (part 3 of 11). -/

set_option linter.unusedTactic false
set_option linter.unreachableTactic false

namespace Sys2Proof.Machine

theorem pageDrop_regs {P : Nat → Prop} {s0 : State} {s : State} (hs : regsOutside P s0 s) :
    regsOutside P s0 (pageDrop s) :=
  hs.skip (pageDrop_changes (F := [.img, .nv]) rfl (changesOnly.refl _ _)) (by decide)

theorem imgOpen_regs {P : Nat → Prop} {s0 : State} {s : State} (hs : regsOutside P s0 s) :
    regsOutside P s0 (imgOpen s) :=
  hs.skip (imgOpen_changes (F := [.nv, .jnl, .mem, .img]) rfl (changesOnly.refl _ _)) (by decide)

theorem pagesDone_regs {P : Nat → Prop} {s0 : State} {s : State} (hs : regsOutside P s0 s) :
    regsOutside P s0 (pagesDone s) :=
  hs.skip (pagesDone_changes (F := [.jnl]) rfl (changesOnly.refl _ _)) (by decide)

theorem galWrote_regs {P : Nat → Prop} {s0 : State} {j : FlashJob} {s : State} (hs : regsOutside P s0 s) :
    regsOutside P s0 (galWrote j s) :=
  hs.skip (galWrote_changes (F := [.gal]) rfl (changesOnly.refl _ _)) (by decide)

theorem addJob_regs {P : Nat → Prop} {s0 : State} {j : FlashJob} {s : State} (hs : regsOutside P s0 s) :
    regsOutside P s0 (addJob j s) :=
  hs.skip (addJob_changes (F := [.nv]) rfl (changesOnly.refl _ _)) (by decide)

theorem jClose_regs {P : Nat → Prop} {s0 : State} {op : Nat} {st : Nat} {s : State} (hs : regsOutside P s0 s) :
    regsOutside P s0 (jClose op st s) :=
  hs.skip (jClose_changes (F := [.jnl, .nv]) rfl (changesOnly.refl _ _)) (by decide)

theorem flushSteps_regs {P : Nat → Prop} {s0 : State} {j : FlashJob} {s : State} (hs : regsOutside P s0 s) :
    regsOutside P s0 (flushSteps j s) :=
  hs.skip (flushSteps_changes (F := [.jnl, .nv]) rfl (changesOnly.refl _ _)) (by decide)

theorem jCommitProgress_regs {P : Nat → Prop} {s0 : State} {s : State} (hs : regsOutside P s0 s) :
    regsOutside P s0 (jCommitProgress s) :=
  hs.skip (jCommitProgress_changes (F := [.jnl, .nv]) rfl (changesOnly.refl _ _)) (by decide)

theorem ckptStored_regs {P : Nat → Prop} {s0 : State} {op : Nat} {m : Nat} {s : State} (hs : regsOutside P s0 s) :
    regsOutside P s0 (ckptStored op m s) :=
  hs.skip (ckptStored_changes (F := [.gal]) rfl (changesOnly.refl _ _)) (by decide)

theorem ckptOver_regs {P : Nat → Prop} {s0 : State} {j : FlashJob} {m : Nat} {tick : Nat} {commit : Bool} {op : Nat} {s : State}
    (p0 : P (aTot m 29)) (p1 : P (rTotEvt m)) (p2 : P (rBbMissed))
    (hs : regsOutside P s0 s) : regsOutside P s0 (ckptOver j m tick commit op s) := by
  refine hs.trans ?_
  clear hs
  unfold ckptOver
  with_reducible repeat' first
    | assumption | exact regsOutside.refl _ _ | apply setReg_regs | apply addJob_regs | apply raiseBit_regs
    | apply flushSteps_regs | apply jCommitProgress_regs | apply ckptStored_regs | apply regsOutside.iteL
    | apply regsOutside.ite | split | (intro) | solve_by_elim

theorem closeWritten_regs {P : Nat → Prop} {s0 : State} {op : Nat} {s : State} (hs : regsOutside P s0 s) :
    regsOutside P s0 (closeWritten op s) :=
  hs.skip (closeWritten_changes (F := [.jnl, .nv]) rfl (changesOnly.refl _ _)) (by decide)

theorem periodOver_regs {P : Nat → Prop} {s0 : State} {j : FlashJob} {m : Nat} {kind : Nat} {seq : Nat} {op : Nat} {s : State}
    (p0 : P (rPerEvt)) (p1 : P (rBbMissed))
    (hs : regsOutside P s0 s) : regsOutside P s0 (periodOver j m kind seq op s) := by
  refine hs.trans ?_
  clear hs
  unfold periodOver
  with_reducible repeat' first
    | assumption | exact regsOutside.refl _ _ | apply jStep_regs | apply closeWritten_regs | apply raiseBit_regs
    | apply addJob_regs | apply regsOutside.iteL | apply regsOutside.ite | split | (intro) | apply regsOutside.set
    | solve_by_elim

theorem galDrop_regs {P : Nat → Prop} {s0 : State} {bit_ : Nat} {s : State}
    (p0 : P (rGalEvt)) (p1 : P (rBbMissed)) (p2 : P (rGalDropped))
    (hs : regsOutside P s0 s) : regsOutside P s0 (galDrop bit_ s) := by
  refine hs.trans ?_
  clear hs
  unfold galDrop
  with_reducible repeat' first
    | assumption | exact regsOutside.refl _ _ | apply raiseBit_regs | apply modReg_regs | (intro) | solve_by_elim

theorem blockOver_regs {P : Nat → Prop} {s0 : State} {j : FlashJob} {s : State}
    (p0 : P (rGalEvt)) (p1 : P (rBbMissed)) (p2 : P (rGalDropped))
    (hs : regsOutside P s0 s) : regsOutside P s0 (blockOver j s) := by
  refine hs.trans ?_
  clear hs
  unfold blockOver
  with_reducible repeat' first
    | assumption | exact regsOutside.refl _ _ | apply flushSteps_regs | apply galDrop_regs | apply regsOutside.iteL
    | apply regsOutside.ite | split | (intro) | solve_by_elim

theorem repairOver_regs {P : Nat → Prop} {s0 : State} {j : FlashJob} {op : Nat} {s : State}
    (p0 : P (rImgEvt)) (p1 : P (rBbMissed))
    (hs : regsOutside P s0 s) : regsOutside P s0 (repairOver j op s) := by
  refine hs.trans ?_
  clear hs
  unfold repairOver
  with_reducible repeat' first
    | assumption | exact regsOutside.refl _ _ | apply jClose_regs | apply jStep_regs | apply raiseBit_regs
    | apply regsOutside.iteL | apply regsOutside.ite | split | (intro) | apply regsOutside.set | solve_by_elim

theorem jobDone_regs {P : Nat → Prop} {s0 : State} {j : FlashJob} {s : State}
    (p0 : ∀ (m : Nat), P (aTot (m % 8) 29)) (p1 : ∀ (m : Nat), P (rTotEvt (m % 8))) (p2 : P (rBbMissed)) (p3 : P (rPerEvt)) (p4 : P (rGalEvt)) (p5 : P (rGalDropped)) (p6 : P (rImgEvt))
    (hs : regsOutside P s0 s) : regsOutside P s0 (jobDone j s) := by
  refine hs.trans ?_
  clear hs
  unfold jobDone
  with_reducible repeat' first
    | assumption | exact regsOutside.refl _ _ | apply galWrote_regs | apply ckptOver_regs | apply periodOver_regs
    | apply blockOver_regs | apply repairOver_regs | apply pagesDone_regs | split | (intro) | solve_by_elim

theorem jobsSettle_regs {P : Nat → Prop} {s0 s : State} {n : Nat} (p0 : ∀ (m : Nat), P (aTot (m % 8) 29)) (p1 : ∀ (m : Nat), P (rTotEvt (m % 8))) (p2 : P (rBbMissed)) (p3 : P (rPerEvt)) (p4 : P (rGalEvt)) (p5 : P (rGalDropped)) (p6 : P (rImgEvt))
    (hs : regsOutside P s0 s) : regsOutside P s0 (jobsSettle n s) := by
  induction n generalizing s with
  | zero => exact hs
  | succ n ih =>
    simp only [jobsSettle]
    split
    · exact hs
    · exact ih (jobDone_regs p0 p1 p2 p3 p4 p5 p6 (regsOutside.set hs))

theorem jobsLost_regs {P : Nat → Prop} {s0 : State} {s : State}
    (p0 : ∀ (m : Nat), P (aTot (m % 8) 29)) (p1 : ∀ (m : Nat), P (rTotEvt (m % 8))) (p2 : P (rBbMissed)) (p3 : P (rPerEvt)) (p4 : P (rGalEvt)) (p5 : P (rGalDropped)) (p6 : P (rImgEvt))
    (hs : regsOutside P s0 s) : regsOutside P s0 (jobsLost s) := by
  refine hs.trans ?_
  clear hs
  unfold jobsLost
  with_reducible repeat' first
    | assumption | exact regsOutside.refl _ _ | apply jobsSettle_regs | apply regsOutside.iteL
    | apply regsOutside.ite | split | (intro) | solve_by_elim

theorem pushJob_regs {P : Nat → Prop} {s0 : State} {k : JobKind} {addr : Nat} {bs : List Byte} {s : State} (hs : regsOutside P s0 s) :
    regsOutside P s0 (pushJob k addr bs s) :=
  hs.skip (pushJob_changes (F := [.nv]) rfl (changesOnly.refl _ _)) (by decide)

theorem pageFlush_regs {P : Nat → Prop} {s0 : State} {s : State}
    (p0 : ∀ (m : Nat), P (aTot (m % 8) 29)) (p1 : ∀ (m : Nat), P (rTotEvt (m % 8))) (p2 : P (rBbMissed)) (p3 : P (rPerEvt)) (p4 : P (rGalEvt)) (p5 : P (rGalDropped)) (p6 : P (rImgEvt))
    (hs : regsOutside P s0 s) : regsOutside P s0 (pageFlush s) := by
  refine hs.trans ?_
  clear hs
  unfold pageFlush
  with_reducible repeat' first
    | assumption | exact regsOutside.refl _ _ | apply jobsLost_regs | apply pushJob_regs | apply updImg_regs
    | apply regsOutside.iteL | apply regsOutside.ite | split | (intro) | solve_by_elim

theorem imgClose_regs {P : Nat → Prop} {s0 : State} {s : State}
    (p0 : ∀ (m : Nat), P (aTot (m % 8) 29)) (p1 : ∀ (m : Nat), P (rTotEvt (m % 8))) (p2 : P (rBbMissed)) (p3 : P (rPerEvt)) (p4 : P (rGalEvt)) (p5 : P (rGalDropped)) (p6 : P (rImgEvt))
    (hs : regsOutside P s0 s) : regsOutside P s0 (imgClose s) := by
  refine hs.trans ?_
  clear hs
  unfold imgClose
  with_reducible repeat' first
    | assumption | exact regsOutside.refl _ _ | apply pagesDone_regs | apply updImg_regs | apply pageFlush_regs
    | (intro) | solve_by_elim

theorem loadIdleHalf_regs {P : Nat → Prop} {s0 : State} {im : Img} {s : State} (hs : regsOutside P s0 s) :
    regsOutside P s0 (loadIdleHalf im s) :=
  hs.skip (loadIdleHalf_changes (F := [.jnl, .nv, .mem, .img]) rfl (changesOnly.refl _ _)) (by decide)

theorem cfgClamp_regs {P : Nat → Prop} {s0 : State} {a : Nat} {s : State}
    (p0 : P (rHpEvt)) (p1 : P (rBbMissed)) (p2 : P (rHpClamp))
    (hs : regsOutside P s0 s) : regsOutside P s0 (cfgClamp a s) := by
  refine hs.trans ?_
  clear hs
  unfold cfgClamp
  with_reducible repeat' first
    | assumption | exact regsOutside.refl _ _ | apply raiseBit_regs | apply modReg_regs | (intro) | solve_by_elim

theorem resetBuffer_regs {P : Nat → Prop} {s0 : State} {n : Nat} {s : State}
    (p0 : P (rCvEvt n)) (p1 : P (rBbMissed))
    (hs : regsOutside P s0 s) : regsOutside P s0 (resetBuffer n s) := by
  refine hs.trans ?_
  clear hs
  unfold resetBuffer
  with_reducible repeat' first
    | assumption | exact regsOutside.refl _ _ | apply updConv_regs | apply raiseBit_regs | (intro)
    | apply regsOutside.set | solve_by_elim

theorem convStop_regs {P : Nat → Prop} {s0 : State} {n : Nat} {s : State} (hs : regsOutside P s0 s) :
    regsOutside P s0 (convStop n s) :=
  hs.skip (convStop_changes (F := [.convs]) rfl (changesOnly.refl _ _)) (by decide)

theorem stopHall_regs {P : Nat → Prop} {s0 : State} {h : Nat} {s : State} (hs : regsOutside P s0 s) :
    regsOutside P s0 (stopHall h s) :=
  hs.skip (stopHall_changes (F := [.halls, .convs]) rfl (changesOnly.refl _ _)) (by decide)

theorem rotAbandon_regs {P : Nat → Prop} {s0 : State} {h : Nat} {s : State} (hs : regsOutside P s0 s) :
    regsOutside P s0 (rotAbandon h s) :=
  hs.skip (rotAbandon_changes (F := [.halls]) rfl (changesOnly.refl _ _)) (by decide)

theorem freezeDrive_regs {P : Nat → Prop} {s0 : State} {h : Nat} {c : Nat} {s : State} (hs : regsOutside P s0 s) :
    regsOutside P s0 (freezeDrive h c s) :=
  hs.skip (freezeDrive_changes (F := [.chans]) rfl (changesOnly.refl _ _)) (by decide)

theorem pulsReset_regs {P : Nat → Prop} {s0 : State} {h : Nat} {c : Nat} {s : State} (hs : regsOutside P s0 s) :
    regsOutside P s0 (pulsReset h c s) :=
  hs.skip (pulsReset_changes (F := [.chans]) rfl (changesOnly.refl _ _)) (by decide)

theorem chanOff_regs {P : Nat → Prop} {s0 : State} {h : Nat} {c : Nat} {s : State} (hs : regsOutside P s0 s) :
    regsOutside P s0 (chanOff h c s) :=
  hs.skip (chanOff_changes (F := [.chans]) rfl (changesOnly.refl _ _)) (by decide)

theorem holdHall_regs {P : Nat → Prop} {s0 : State} {im : Img} {h : Nat} {s : State} (hs : regsOutside P s0 s) :
    regsOutside P s0 (holdHall im h s) :=
  hs.skip (holdHall_changes (F := [.halls, .convs, .chans]) rfl (changesOnly.refl _ _)) (by decide)

theorem imgRollBack_regs {P : Nat → Prop} {s0 : State} {n : Nat} {s : State} (hs : regsOutside P s0 s) :
    regsOutside P s0 (imgRollBack n s) :=
  hs.skip (imgRollBack_changes (F := [.jnl, .nv, .img]) rfl (changesOnly.refl _ _)) (by decide)

theorem imgAbort_regs {P : Nat → Prop} {s0 : State} {s : State}
    (p0 : P (rImgEvt)) (p1 : P (rBbMissed))
    (hs : regsOutside P s0 s) : regsOutside P s0 (imgAbort s) := by
  refine hs.trans ?_
  clear hs
  unfold imgAbort
  with_reducible repeat' first
    | assumption | exact regsOutside.refl _ _ | apply raiseBit_regs | apply imgRollBack_regs | (intro)
    | solve_by_elim

theorem imgRoll_regs {P : Nat → Prop} {s0 : State} {s : State} (hs : regsOutside P s0 s) :
    regsOutside P s0 (imgRoll s) :=
  hs.skip (imgRoll_changes (F := [.tx, .pair, .img]) rfl (changesOnly.refl _ _)) (by decide)

theorem imgData_regs {P : Nat → Prop} {s0 : State} {v : Word} {s : State}
    (p0 : ∀ (m : Nat), P (aTot (m % 8) 29)) (p1 : ∀ (m : Nat), P (rTotEvt (m % 8))) (p2 : P (rBbMissed)) (p3 : P (rPerEvt)) (p4 : P (rGalEvt)) (p5 : P (rGalDropped)) (p6 : P (rImgEvt))
    (hs : regsOutside P s0 s) : regsOutside P s0 (imgData v s) := by
  refine hs.trans ?_
  clear hs
  unfold imgData
  with_reducible repeat' first
    | assumption | exact regsOutside.refl _ _ | apply updImg_regs | apply pageFlush_regs | apply regsOutside.iteL
    | apply regsOutside.ite | split | (intro) | solve_by_elim

theorem riskOf_regs {P : Nat → Prop} {s0 : State} {h : Nat} {c : Nat} {s : State} (hs : regsOutside P s0 s) :
    regsOutside P s0 (riskOf h c s) :=
  hs.skip (riskOf_changes (F := [.chans]) rfl (changesOnly.refl _ _)) (by decide)

theorem restartChannel_regs {P : Nat → Prop} {s0 : State} {h : Nat} {c : Nat} {before : Nat} {t16 : Nat} {s : State} (hs : regsOutside P s0 s) :
    regsOutside P s0 (restartChannel h c before t16 s) :=
  hs.skip (restartChannel_changes (F := [.convs, .halls]) rfl (changesOnly.refl _ _)) (by decide)

theorem inputForm_regs {P : Nat → Prop} {s0 : State} {h : Nat} {c : Nat} {m : Nat} {a : Nat} {e : Nat} {s : State} (hs : regsOutside P s0 s) :
    regsOutside P s0 (inputForm h c m a e s) :=
  hs.skip (inputForm_changes (F := [.chans, .convs, .halls]) rfl (changesOnly.refl _ _)) (by decide)

theorem activeForm_regs {P : Nat → Prop} {s0 : State} {h : Nat} {c : Nat} {s : State} (hs : regsOutside P s0 s) :
    regsOutside P s0 (activeForm h c s) :=
  hs.skip (activeForm_changes (F := [.chans, .convs, .halls]) rfl (changesOnly.refl _ _)) (by decide)

theorem updBal_regs {P : Nat → Prop} {s0 : State} {b : Nat} {f : BalSt → BalSt} {s : State} (hs : regsOutside P s0 s) :
    regsOutside P s0 (updBal b f s) :=
  hs.skip (updBal_changes (F := [.bal]) rfl (changesOnly.refl _ _)) (by decide)

theorem balGap_regs {P : Nat → Prop} {s0 : State} {s : State} (hs : regsOutside P s0 s) :
    regsOutside P s0 (balGap s) :=
  hs.skip (balGap_changes (F := [.bal]) rfl (changesOnly.refl _ _)) (by decide)

theorem updRun_regs {P : Nat → Prop} {s0 : State} {m : Nat} {f : RunSt → RunSt} {s : State} (hs : regsOutside P s0 s) :
    regsOutside P s0 (updRun m f s) :=
  hs.skip (updRun_changes (F := [.runs]) rfl (changesOnly.refl _ _)) (by decide)

theorem addGap_regs {P : Nat → Prop} {s0 : State} {kind : Nat} {a : Nat} {b : Nat} {m : Nat} {s : State} (hs : regsOutside P s0 s) :
    regsOutside P s0 (addGap kind a b m s) :=
  hs.skip (addGap_changes (F := [.runs]) rfl (changesOnly.refl _ _)) (by decide)

theorem updKind_regs {P : Nat → Prop} {s0 : State} {k : Nat} {f : PerKind → PerKind} {s : State} (hs : regsOutside P s0 s) :
    regsOutside P s0 (updKind k f s) :=
  hs.skip (updKind_changes (F := [.per]) rfl (changesOnly.refl _ _)) (by decide)

theorem openKind_regs {P : Nat → Prop} {s0 : State} {k : Nat} {first : Nat} {stop : Int} {s : State} (hs : regsOutside P s0 s) :
    regsOutside P s0 (openKind k first stop s) :=
  hs.skip (openKind_changes (F := [.per]) rfl (changesOnly.refl _ _)) (by decide)

theorem perRestart_regs {P : Nat → Prop} {s0 : State} {m : Nat} {kind : Nat} {base : List Nat} {closed : Bool} {s : State} (hs : regsOutside P s0 s) :
    regsOutside P s0 (perRestart m kind base closed s) :=
  hs.skip (perRestart_changes (F := [.runs]) rfl (changesOnly.refl _ _)) (by decide)

theorem capPut_regs {P : Nat → Prop} {s0 : State} {c : CapRec} {s : State} (hs : regsOutside P s0 s) :
    regsOutside P s0 (capPut c s) :=
  hs.skip (capPut_changes (F := [.mem, .gal]) rfl (changesOnly.refl _ _)) (by decide)

theorem capDrop_regs {P : Nat → Prop} {s0 : State} {c : CapRec} {s : State} (hs : regsOutside P s0 s) :
    regsOutside P s0 (capDrop c s) :=
  hs.skip (capDrop_changes (F := [.nv, .jnl, .gal]) rfl (changesOnly.refl _ _)) (by decide)

theorem capture_regs {P : Nat → Prop} {s0 : State} {c : CapRec} {s : State}
    (p0 : P (rGalEvt)) (p1 : P (rBbMissed)) (p2 : P (rGalDropped))
    (hs : regsOutside P s0 s) : regsOutside P s0 (capture c s) := by
  refine hs.trans ?_
  clear hs
  unfold capture
  with_reducible repeat' first
    | assumption | exact regsOutside.refl _ _ | apply capPut_regs | apply capDrop_regs | apply galDrop_regs
    | apply regsOutside.iteL | apply regsOutside.ite | split | (intro) | solve_by_elim

theorem updRing_regs {P : Nat → Prop} {s0 : State} {r : Nat} {f : RingSt → RingSt} {s : State} (hs : regsOutside P s0 s) :
    regsOutside P s0 (updRing r f s) :=
  hs.skip (updRing_changes (F := [.gal]) rfl (changesOnly.refl _ _)) (by decide)

end Sys2Proof.Machine
end

