-- ==== Sys2Proof/Laws/RegFrames3.lean ====
section
/-! SUPPORT. Which registers each shared operation changes at most (part 4 of 11). -/

set_option linter.unusedTactic false
set_option linter.unreachableTactic false

namespace Sys2Proof.Machine

theorem ringPut_regs {P : Nat → Prop} {s0 : State} {r : Nat} {id : Nat} {len : Nat} {s : State} (hs : regsOutside P s0 s) :
    regsOutside P s0 (ringPut r id len s) :=
  hs.skip (ringPut_changes (F := [.nv, .gal]) rfl (changesOnly.refl _ _)) (by decide)

theorem periodWrite_regs {P : Nat → Prop} {s0 : State} {m : Nat} {kind : Nat} {seq : Nat} {op : Nat} {bs : List Byte} {s : State} (hs : regsOutside P s0 s) :
    regsOutside P s0 (periodWrite m kind seq op bs s) :=
  hs.skip (periodWrite_changes (F := [.nv, .gal]) rfl (changesOnly.refl _ _)) (by decide)

theorem closeRun_regs {P : Nat → Prop} {s0 : State} {m : Nat} {kind : Nat} {last : Nat} {op : Nat} {s : State}
    (p0 : P (rGalEvt)) (p1 : P (rBbMissed)) (p2 : P (rGalDropped)) (p3 : P (8708)) (p4 : P (8709)) (p5 : P (8710))
    (hs : regsOutside P s0 s) : regsOutside P s0 (closeRun m kind last op s) := by
  refine hs.trans ?_
  clear hs
  unfold closeRun
  with_reducible repeat' first
    | assumption | exact regsOutside.refl _ _ | apply perRestart_regs | apply capture_regs | apply periodWrite_regs
    | apply updRun_regs | apply setReg_regs | apply regsOutside.iteL | apply regsOutside.ite | split | (intro)
    | solve_by_elim

theorem closeKind_regs {P : Nat → Prop} {s0 : State} {kind : Nat} {last : Nat} {op : Nat} {s : State}
    (p0 : P (rPerEvt)) (p1 : P (rBbMissed)) (p2 : P (rGalEvt)) (p3 : P (rGalDropped)) (p4 : P (8708)) (p5 : P (8709)) (p6 : P (8710))
    (hs : regsOutside P s0 s) : regsOutside P s0 (closeKind kind last op s) := by
  refine hs.trans ?_
  clear hs
  unfold closeKind
  with_reducible repeat' first
    | assumption | exact regsOutside.refl _ _ | apply raiseBit_regs | apply closeRun_regs | apply forN_regs | (intro)
    | solve_by_elim

theorem closeKinds_regs {P : Nat → Prop} {s0 : State} {ks : List (Nat × Nat × Nat × Int)} {boundary : Nat} {s : State}
    (p0 : P (rPerEvt)) (p1 : P (rBbMissed)) (p2 : P (rGalEvt)) (p3 : P (rGalDropped)) (p4 : P (8708)) (p5 : P (8709)) (p6 : P (8710))
    (hs : regsOutside P s0 s) : regsOutside P s0 (closeKinds ks boundary s) := by
  refine hs.trans ?_
  clear hs
  unfold closeKinds
  with_reducible repeat' first
    | assumption | exact regsOutside.refl _ _ | apply jStep_regs | apply jOpen_regs | apply closeWritten_regs
    | apply openKind_regs | apply closeKind_regs | apply noteVstate_regs | apply forHalls_regs
    | apply regsOutside.foldl | apply regsOutside.iteL | apply regsOutside.ite | split | (intro) | solve_by_elim

theorem gapUpTo_regs {P : Nat → Prop} {s0 : State} {f : Nat} {s : State}
    (p0 : P (rPerEvt)) (p1 : P (rBbMissed)) (p2 : P (rGalEvt)) (p3 : P (rGalDropped)) (p4 : P (8708)) (p5 : P (8709)) (p6 : P (8710))
    (hs : regsOutside P s0 s) : regsOutside P s0 (gapUpTo f s) := by
  refine hs.trans ?_
  clear hs
  unfold gapUpTo
  with_reducible repeat' first
    | assumption | exact regsOutside.refl _ _ | apply addGap_regs | apply closeKinds_regs | apply openKind_regs
    | apply perRestart_regs | apply forN_regs | apply regsOutside.foldl | apply regsOutside.iteL
    | apply regsOutside.ite | split | (intro) | solve_by_elim

theorem activeJoin_regs {P : Nat → Prop} {s0 : State} {n : Nat} {s : State}
    (p0 : P (rPerEvt)) (p1 : P (rBbMissed)) (p2 : P (rGalEvt)) (p3 : P (rGalDropped)) (p4 : P (8708)) (p5 : P (8709)) (p6 : P (8710))
    (hs : regsOutside P s0 s) : regsOutside P s0 (activeJoin n s) := by
  refine hs.trans ?_
  clear hs
  unfold activeJoin
  with_reducible repeat' first
    | assumption | exact regsOutside.refl _ _ | apply updPair_regs | apply balGap_regs | apply gapUpTo_regs
    | apply regsOutside.iteL | apply regsOutside.ite | split | (intro) | solve_by_elim

theorem balIncomplete_regs {P : Nat → Prop} {s0 : State} {b : Nat} {s : State}
    (p0 : P (rBalEvt b)) (p1 : P (rBbMissed)) (p2 : P (aBal b 5))
    (hs : regsOutside P s0 s) : regsOutside P s0 (balIncomplete b s) := by
  refine hs.trans ?_
  clear hs
  unfold balIncomplete
  with_reducible repeat' first
    | assumption | exact regsOutside.refl _ _ | apply updBal_regs | apply raiseBit_regs | apply modReg_regs | (intro)
    | solve_by_elim

theorem balMismatch_regs {P : Nat → Prop} {s0 : State} {b : Nat} {differ : Bool} {s : State}
    (p0 : P (aBal b 5)) (p1 : P (rBalEvt b)) (p2 : P (rBbMissed))
    (hs : regsOutside P s0 s) : regsOutside P s0 (balMismatch b differ s) := by
  refine hs.trans ?_
  clear hs
  unfold balMismatch
  with_reducible repeat' first
    | assumption | exact regsOutside.refl _ _ | apply modReg_regs | apply raiseBit_regs | apply regsOutside.iteL
    | apply regsOutside.ite | split | (intro) | solve_by_elim

theorem balEvaluate_regs {P : Nat → Prop} {s0 : State} {b : Nat} {w : BalWin} {qs : Nat} {ps : Word} {ts : Word} {s : State}
    (p0 : P (aBal b 5)) (p1 : P (aBal b 7)) (p2 : P (rBalEvt b)) (p3 : P (rBbMissed))
    (hs : regsOutside P s0 s) : regsOutside P s0 (balEvaluate b w qs ps ts s) := by
  refine hs.trans ?_
  clear hs
  unfold balEvaluate
  with_reducible repeat' first
    | assumption | exact regsOutside.refl _ _ | apply updBal_regs | apply setReg_regs | apply raiseBit_regs
    | apply regsOutside.iteL | apply regsOutside.ite | split | (intro) | solve_by_elim

theorem balTry_regs {P : Nat → Prop} {s0 : State} {b : Nat} {s : State}
    (p0 : P (aBal b 5)) (p1 : P (rBalEvt b)) (p2 : P (rBbMissed)) (p3 : P (aBal b 7))
    (hs : regsOutside P s0 s) : regsOutside P s0 (balTry b s) := by
  refine hs.trans ?_
  clear hs
  unfold balTry
  with_reducible repeat' first
    | assumption | exact regsOutside.refl _ _ | apply balMismatch_regs | apply balIncomplete_regs
    | apply balEvaluate_regs | apply regsOutside.iteL | apply regsOutside.ite | split | (intro) | solve_by_elim

theorem balClose_regs {P : Nat → Prop} {s0 : State} {b : Nat} {n : Nat} {s : State}
    (p0 : P (rBalEvt b)) (p1 : P (rBbMissed)) (p2 : P (aBal b 5)) (p3 : P (aBal b 7))
    (hs : regsOutside P s0 s) : regsOutside P s0 (balClose b n s) := by
  refine hs.trans ?_
  clear hs
  unfold balClose
  with_reducible repeat' first
    | assumption | exact regsOutside.refl _ _ | apply updBal_regs | apply balIncomplete_regs | apply balTry_regs
    | apply regsOutside.iteL | apply regsOutside.ite | split | (intro) | solve_by_elim

theorem balReach_regs {P : Nat → Prop} {s0 : State} {b : Nat} {n : Nat} {s : State}
    (p0 : P (rBalEvt b)) (p1 : P (rBbMissed)) (p2 : P (aBal b 5)) (p3 : P (aBal b 7))
    (hs : regsOutside P s0 s) : regsOutside P s0 (balReach b n s) := by
  refine hs.trans ?_
  clear hs
  unfold balReach
  with_reducible repeat' first
    | assumption | exact regsOutside.refl _ _ | apply updBal_regs | apply balClose_regs | apply regsOutside.iteL
    | apply regsOutside.ite | split | (intro) | solve_by_elim

theorem updTier_regs {P : Nat → Prop} {s0 : State} {tier : Nat} {f : GalTier → GalTier} {s : State} (hs : regsOutside P s0 s) :
    regsOutside P s0 (updTier tier f s) :=
  hs.skip (updTier_changes (F := [.gal]) rfl (changesOnly.refl _ _)) (by decide)

theorem galWrite_regs {P : Nat → Prop} {s0 : State} {tier : Nat} {seq : Nat} {s : State} (hs : regsOutside P s0 s) :
    regsOutside P s0 (galWrite tier seq s) :=
  hs.skip (galWrite_changes (F := [.nv, .jnl, .mem, .gal]) rfl (changesOnly.refl _ _)) (by decide)

theorem galFlush_regs {P : Nat → Prop} {s0 : State} {tier : Nat} {s : State}
    (p0 : P (rGalEvt)) (p1 : P (rBbMissed)) (p2 : P (rGalDropped)) (p3 : P (rBbEvt)) (p4 : P (rEccEvt)) (p5 : P (10532))
    (hs : regsOutside P s0 s) : regsOutside P s0 (galFlush tier s) := by
  refine hs.trans ?_
  clear hs
  unfold galFlush
  with_reducible repeat' first
    | assumption | exact regsOutside.refl _ _ | apply galWrite_regs | apply galDrop_regs | apply eccFound_regs
    | apply eccRewritten_regs | apply updRing_regs | apply updTier_regs | apply regsOutside.iteL
    | apply regsOutside.ite | split | (intro) | solve_by_elim

theorem galReplan_regs {P : Nat → Prop} {s0 : State} {tier : Nat} {s : State}
    (p0 : P (rGalEvt)) (p1 : P (rBbMissed)) (p2 : P (rGalDropped)) (p3 : P (rBbEvt)) (p4 : P (rEccEvt)) (p5 : P (10532))
    (hs : regsOutside P s0 s) : regsOutside P s0 (galReplan tier s) := by
  refine hs.trans ?_
  clear hs
  unfold galReplan
  with_reducible repeat' first
    | assumption | exact regsOutside.refl _ _ | apply updTier_regs | apply galFlush_regs | apply regsOutside.iteL
    | apply regsOutside.ite | split | (intro) | solve_by_elim

theorem galIntervalEnd_regs {P : Nat → Prop} {s0 : State} {tier : Nat} {s : State} (hs : regsOutside P s0 s) :
    regsOutside P s0 (galIntervalEnd tier s) :=
  hs.skip (galIntervalEnd_changes (F := [.gal]) rfl (changesOnly.refl _ _)) (by decide)

theorem galInterval_regs {P : Nat → Prop} {s0 : State} {tier : Nat} {s : State}
    (p0 : P (rGalEvt)) (p1 : P (rBbMissed)) (p2 : P (rGalDropped)) (p3 : P (rBbEvt)) (p4 : P (rEccEvt)) (p5 : P (10532))
    (hs : regsOutside P s0 s) : regsOutside P s0 (galInterval tier s) := by
  refine hs.trans ?_
  clear hs
  unfold galInterval
  with_reducible repeat' first
    | assumption | exact regsOutside.refl _ _ | apply galReplan_regs | apply galIntervalEnd_regs | (intro)
    | solve_by_elim

theorem galSkip_regs {P : Nat → Prop} {s0 : State} {tier : Nat} {a : Nat} {s : State} (hs : regsOutside P s0 s) :
    regsOutside P s0 (galSkip tier a s) :=
  hs.skip (galSkip_changes (F := [.gal]) rfl (changesOnly.refl _ _)) (by decide)

theorem galReach_regs {P : Nat → Prop} {s0 : State} {tier : Nat} {n : Nat} {s : State}
    (p0 : P (rGalEvt)) (p1 : P (rBbMissed)) (p2 : P (rGalDropped)) (p3 : P (rBbEvt)) (p4 : P (rEccEvt)) (p5 : P (10532))
    (hs : regsOutside P s0 s) : regsOutside P s0 (galReach tier n s) := by
  refine hs.trans ?_
  clear hs
  unfold galReach
  with_reducible repeat' first
    | assumption | exact regsOutside.refl _ _ | apply updTier_regs | apply galInterval_regs | apply galSkip_regs
    | apply galFlush_regs | apply regsOutside.iteL | apply regsOutside.ite | split | (intro) | solve_by_elim

theorem galStep_regs {P : Nat → Prop} {s0 : State} {s : State} (hs : regsOutside P s0 s) :
    regsOutside P s0 (galStep s) :=
  hs.skip (galStep_changes (F := [.gal]) rfl (changesOnly.refl _ _)) (by decide)

theorem reachTick_regs {P : Nat → Prop} {s0 : State} {n : Nat} {s : State}
    (p0 : ∀ (b : Nat), b < 64 → P (rBalEvt b)) (p1 : P (rBbMissed)) (p2 : ∀ (b : Nat), b < 64 → P (aBal b 5)) (p3 : ∀ (b : Nat), b < 64 → P (aBal b 7)) (p4 : P (rGalEvt)) (p5 : P (rGalDropped)) (p6 : P (rBbEvt)) (p7 : P (rEccEvt)) (p8 : P (10532))
    (hs : regsOutside P s0 s) : regsOutside P s0 (reachTick n s) := by
  refine hs.trans ?_
  clear hs
  unfold reachTick
  with_reducible repeat' first
    | assumption | exact regsOutside.refl _ _ | apply balReach_regs | apply galReach_regs | apply galStep_regs
    | apply forN_regs | apply regsOutside.iteL | apply regsOutside.ite | split | (intro) | solve_by_elim

theorem beginSlots_regs {P : Nat → Prop} {s0 : State} {x : TickSet} {mirrored : Bool} {s : State}
    (p0 : ∀ (b : Nat), b < 64 → P (rBalEvt b)) (p1 : P (rBbMissed)) (p2 : ∀ (b : Nat), b < 64 → P (aBal b 5)) (p3 : ∀ (b : Nat), b < 64 → P (aBal b 7)) (p4 : P (rGalEvt)) (p5 : P (rGalDropped)) (p6 : P (rBbEvt)) (p7 : P (rEccEvt)) (p8 : P (10532))
    (hs : regsOutside P s0 s) : regsOutside P s0 (beginSlots x mirrored s) := by
  refine hs.trans ?_
  clear hs
  unfold beginSlots
  with_reducible repeat' first
    | assumption | exact regsOutside.refl _ _ | apply reachTick_regs | apply updPair_regs | (intro)
    | apply regsOutside.set | solve_by_elim

theorem eccSeen_regs {P : Nat → Prop} {s0 : State} {sel : Nat × Nat → Bool} {s : State}
    (p0 : P (rBbMissed)) (p1 : P (rBbEvt)) (p2 : P (rEccEvt)) (p3 : P (10532))
    (hs : regsOutside P s0 s) : regsOutside P s0 (eccSeen sel s) := by
  refine hs.trans ?_
  clear hs
  unfold eccSeen
  with_reducible repeat' first
    | assumption | exact regsOutside.refl _ _ | apply eccFound_regs | apply regsOutside.foldl | (intro)
    | solve_by_elim

theorem recsRead_regs {P : Nat → Prop} {s0 : State} {s : State}
    (p0 : P (rBbMissed)) (p1 : P (rBbEvt)) (p2 : P (rEccEvt)) (p3 : P (10532))
    (hs : regsOutside P s0 s) : regsOutside P s0 (recsRead s) := by
  refine hs.trans ?_
  clear hs
  unfold recsRead
  with_reducible repeat' first
    | assumption | exact regsOutside.refl _ _ | apply eccSeen_regs | (intro) | solve_by_elim

theorem resetCarried_regs {P : Nat → Prop} {s0 : State} {m : Nat} {s : State} (hs : regsOutside P s0 s) :
    regsOutside P s0 (resetCarried m s) :=
  hs.skip (resetCarried_changes (F := [.runs]) rfl (changesOnly.refl _ _)) (by decide)

theorem dropBacklog_regs {P : Nat → Prop} {s0 : State} {m : Nat} {s : State}
    (p0 : P (aRun m 71)) (p1 : P (aRun m 70))
    (hs : regsOutside P s0 s) : regsOutside P s0 (dropBacklog m s) := by
  refine hs.trans ?_
  clear hs
  unfold dropBacklog
  with_reducible repeat' first
    | assumption | exact regsOutside.refl _ _ | apply modReg_regs | apply setReg_regs | apply updRun_regs | (intro)
    | solve_by_elim

theorem totalsRead_regs {P : Nat → Prop} {s0 : State} {m : Nat} {s : State}
    (p0 : P (rBbMissed)) (p1 : P (rBbEvt)) (p2 : P (rEccEvt)) (p3 : P (10532))
    (hs : regsOutside P s0 s) : regsOutside P s0 (totalsRead m s) := by
  refine hs.trans ?_
  clear hs
  unfold totalsRead
  with_reducible repeat' first
    | assumption | exact regsOutside.refl _ _ | apply eccSeen_regs | (intro) | solve_by_elim

theorem audDrop_regs {P : Nat → Prop} {s0 : State} {s : State}
    (p0 : P (rAudDropped))
    (hs : regsOutside P s0 s) : regsOutside P s0 (audDrop s) := by
  refine hs.trans ?_
  clear hs
  unfold audDrop
  with_reducible repeat' first
    | assumption | exact regsOutside.refl _ _ | apply modReg_regs | (intro) | solve_by_elim

theorem audit_regs {P : Nat → Prop} {s0 : State} {o : Origin} {kind : Nat} {addr : Nat} {width : Nat} {detail : Nat} {old : Nat} {new : Nat} {op : Nat} {s : State}
    (p0 : P (rAudEvt)) (p1 : P (rBbMissed)) (p2 : P (rAudDropped))
    (hs : regsOutside P s0 s) : regsOutside P s0 (audit o kind addr width detail old new op s) := by
  refine hs.trans ?_
  clear hs
  unfold audit
  with_reducible repeat' first
    | assumption | exact regsOutside.refl _ _ | apply retWritten_regs | apply raiseBit_regs | apply audDrop_regs
    | apply regsOutside.iteL | apply regsOutside.ite | split | (intro) | apply regsOutside.set | solve_by_elim

theorem voteAudit_regs {P : Nat → Prop} {s0 : State} {m : Nat} {c : List (Nat × TotCopy)} {w : List Acc} {s : State}
    (p0 : P (rAudEvt)) (p1 : P (rBbMissed)) (p2 : P (rAudDropped))
    (hs : regsOutside P s0 s) : regsOutside P s0 (voteAudit m c w s) := by
  refine hs.trans ?_
  clear hs
  unfold voteAudit
  with_reducible repeat' first
    | assumption | exact regsOutside.refl _ _ | apply audit_regs | apply regsOutside.foldl | apply regsOutside.iteL
    | apply regsOutside.ite | split | (intro) | solve_by_elim

theorem liveWrite_regs {P : Nat → Prop} {s0 : State} {m : Nat} {c : TotCopy} {s : State} (hs : regsOutside P s0 s) :
    regsOutside P s0 (liveWrite m c s) :=
  hs.skip (liveWrite_changes (F := [.mem, .runs]) rfl (changesOnly.refl _ _)) (by decide)

theorem resume_regs {P : Nat → Prop} {s0 : State} {m : Nat} {accs : List Acc} {tick : Option Nat} {outcome : Nat} {marks : Nat} {s : State}
    (p0 : P (aTot m 26)) (p1 : P (rTotEvt m)) (p2 : P (rBbMissed))
    (hs : regsOutside P s0 s) : regsOutside P s0 (resume m accs tick outcome marks s) := by
  refine hs.trans ?_
  clear hs
  unfold resume
  with_reducible repeat' first
    | assumption | exact regsOutside.refl _ _ | apply updRun_regs | apply liveWrite_regs | apply retWritten_regs
    | apply setReg_regs | apply raiseEvt_regs | split | (intro) | solve_by_elim

theorem reconcileRun_regs {P : Nat → Prop} {s0 : State} {m : Nat} {partner : Option TotCopy} {s : State}
    (p0 : P (rBbMissed)) (p1 : P (rBbEvt)) (p2 : P (rEccEvt)) (p3 : P (10532)) (p4 : P (rAudEvt)) (p5 : P (rAudDropped)) (p6 : P (aTot m 26)) (p7 : P (rTotEvt m))
    (hs : regsOutside P s0 s) : regsOutside P s0 (reconcileRun m partner s) := by
  refine hs.trans ?_
  clear hs
  unfold reconcileRun
  extract_lets x0
  have hx0 : regsOutside P s x0 := by
    unfold x0
    with_reducible repeat' first
      | assumption | exact regsOutside.refl _ _ | apply totalsRead_regs | apply voteAudit_regs | apply resume_regs
      | apply regsOutside.iteL | apply regsOutside.ite | split | (intro) | solve_by_elim
  clear_value x0
  with_reducible repeat' first
    | assumption | exact regsOutside.refl _ _ | apply totalsRead_regs | apply voteAudit_regs | apply resume_regs
    | apply regsOutside.iteL | apply regsOutside.ite | split | (intro) | solve_by_elim

theorem applyRun_regs {P : Nat → Prop} {s0 : State} {m : Nat} {was : Bool} {pout : Option Nat} {l : List Nat} {s : State}
    (p0 : P (aRun m 71)) (p1 : P (aRun m 70)) (p2 : P (rBbMissed)) (p3 : P (rBbEvt)) (p4 : P (rEccEvt)) (p5 : P (10532)) (p6 : P (rAudEvt)) (p7 : P (rAudDropped)) (p8 : P (aTot m 26)) (p9 : P (rTotEvt m))
    (hs : regsOutside P s0 s) : regsOutside P s0 (applyRun m was pout l s) := by
  refine hs.trans ?_
  clear hs
  unfold applyRun
  with_reducible repeat' first
    | assumption | exact regsOutside.refl _ _ | apply resetCarried_regs | apply dropBacklog_regs
    | apply reconcileRun_regs | apply regsOutside.iteL | apply regsOutside.ite | split | (intro) | solve_by_elim

theorem applyRuns_regs {P : Nat → Prop} {s0 : State} {runs : List (Bool × Option Nat)} {l : List Nat} {s : State}
    (p0 : ∀ (m : Nat), m < 8 → P (aRun m 71)) (p1 : ∀ (m : Nat), m < 8 → P (aRun m 70)) (p2 : P (rBbMissed)) (p3 : P (rBbEvt)) (p4 : P (rEccEvt)) (p5 : P (10532)) (p6 : P (rAudEvt)) (p7 : P (rAudDropped)) (p8 : ∀ (m : Nat), m < 8 → P (aTot m 26)) (p9 : ∀ (m : Nat), m < 8 → P (rTotEvt m))
    (hs : regsOutside P s0 s) : regsOutside P s0 (applyRuns runs l s) := by
  refine hs.trans ?_
  clear hs
  unfold applyRuns
  with_reducible repeat' first
    | assumption | exact regsOutside.refl _ _ | apply applyRun_regs | apply forN_regs | (intro) | solve_by_elim

theorem lateRuns_regs {P : Nat → Prop} {s0 : State} {s : State}
    (p0 : ∀ (m : Nat), m < 8 → P (aRun m 71)) (p1 : ∀ (m : Nat), m < 8 → P (aRun m 70)) (p2 : P (rBbMissed)) (p3 : P (rBbEvt)) (p4 : P (rEccEvt)) (p5 : P (10532)) (p6 : P (rAudEvt)) (p7 : P (rAudDropped)) (p8 : ∀ (m : Nat), m < 8 → P (aTot m 26)) (p9 : ∀ (m : Nat), m < 8 → P (rTotEvt m))
    (hs : regsOutside P s0 s) : regsOutside P s0 (lateRuns s) := by
  refine hs.trans ?_
  clear hs
  unfold lateRuns
  with_reducible repeat' first
    | assumption | exact regsOutside.refl _ _ | apply applyRuns_regs | split | (intro) | apply regsOutside.set
    | solve_by_elim

theorem pairBlock_regs {P : Nat → Prop} {s0 s : State} {typ n maddr : Nat} {bs : List Byte} (hs : regsOutside P s0 s) :
    regsOutside P s0 (pairBlock typ n maddr bs s) :=
  hs.skip (pairBlock_changes (F := [.tx, .pair]) rfl (changesOnly.refl _ _)) (by decide)

theorem pairBlockAll_regs {P : Nat → Prop} {s0 : State} {typ : Nat} {maddr : Nat} {bs : List Byte} {s : State} (hs : regsOutside P s0 s) :
    regsOutside P s0 (pairBlockAll typ maddr bs s) :=
  hs.skip (pairBlockAll_changes (F := [.tx, .pair]) rfl (changesOnly.refl _ _)) (by decide)

theorem sendSet_regs {P : Nat → Prop} {s0 : State} {s : State} (hs : regsOutside P s0 s) :
    regsOutside P s0 (sendSet s) :=
  hs.skip (sendSet_changes (F := [.tx, .pair]) rfl (changesOnly.refl _ _)) (by decide)

theorem activeLatch_regs {P : Nat → Prop} {s0 : State} {s : State}
    (p0 : ∀ (b : Nat), b < 64 → P (rBalEvt b)) (p1 : P (rBbMissed)) (p2 : ∀ (b : Nat), b < 64 → P (aBal b 5)) (p3 : ∀ (b : Nat), b < 64 → P (aBal b 7)) (p4 : P (rGalEvt)) (p5 : P (rGalDropped)) (p6 : P (rBbEvt)) (p7 : P (rEccEvt)) (p8 : P (10532)) (p9 : P (rPerEvt)) (p10 : P (8708)) (p11 : P (8709)) (p12 : P (8710)) (p13 : ∀ (m : Nat), m < 8 → P (aRun m 71)) (p14 : ∀ (m : Nat), m < 8 → P (aRun m 70)) (p15 : P (rAudEvt)) (p16 : P (rAudDropped)) (p17 : ∀ (m : Nat), m < 8 → P (aTot m 26)) (p18 : ∀ (m : Nat), m < 8 → P (rTotEvt m))
    (hs : regsOutside P s0 s) : regsOutside P s0 (activeLatch s) := by
  refine hs.trans ?_
  clear hs
  unfold activeLatch
  with_reducible repeat' first
    | assumption | exact regsOutside.refl _ _ | apply beginSlots_regs | apply recsRead_regs | apply activeJoin_regs
    | apply lateRuns_regs | apply sendSet_regs | apply regsOutside.iteL | apply regsOutside.ite | split | (intro)
    | solve_by_elim

theorem markRun_regs {P : Nat → Prop} {s0 : State} {m : Nat} {mark : Nat} {s : State} (hs : regsOutside P s0 s) :
    regsOutside P s0 (markRun m mark s) :=
  hs.skip (markRun_changes (F := [.runs]) rfl (changesOnly.refl _ _)) (by decide)

theorem adopt_regs {P : Nat → Prop} {s0 : State} {m : Nat} {c : TotCopy} {quiet : Bool} {s : State}
    (p0 : P (rAudEvt)) (p1 : P (rBbMissed)) (p2 : P (rAudDropped)) (p3 : P (rTotEvt m)) (p4 : P (aTot m 26))
    (hs : regsOutside P s0 s) : regsOutside P s0 (adopt m c quiet s) := by
  refine hs.trans ?_
  clear hs
  unfold adopt
  with_reducible repeat' first
    | assumption | exact regsOutside.refl _ _ | apply liveWrite_regs | apply updRun_regs | apply audit_regs
    | apply raiseBit_regs | apply markRun_regs | apply modReg_regs | apply regsOutside.foldl | apply regsOutside.iteL
    | apply regsOutside.ite | split | (intro) | solve_by_elim

theorem advance_regs {P : Nat → Prop} {s0 : State} {d : Nat} {s : State} (hs : regsOutside P s0 s) :
    regsOutside P s0 (advance d s) :=
  hs.skip (advance_changes (F := [.time]) rfl (changesOnly.refl _ _)) (by decide)

theorem flightCheckIn_regs {P : Nat → Prop} {s0 : State} {own : Nat} {s : State}
    (p0 : P (rWdCount))
    (hs : regsOutside P s0 s) : regsOutside P s0 (flightCheckIn own s) := by
  refine hs.trans ?_
  clear hs
  unfold flightCheckIn
  with_reducible repeat' first
    | assumption | exact regsOutside.refl _ _ | apply updConv_regs | apply checkIn_regs | apply regsOutside.iteL
    | apply regsOutside.ite | split | (intro) | solve_by_elim

theorem startInjected_regs {P : Nat → Prop} {s0 : State} {n : Nat} {t16 : Nat} {s : State} (hs : regsOutside P s0 s) :
    regsOutside P s0 (startInjected n t16 s) :=
  hs.skip (startInjected_changes (F := [.convs, .halls]) rfl (changesOnly.refl _ _)) (by decide)

theorem stepPaid_regs {P : Nat → Prop} {s0 : State} {n : Nat} {t16 : Nat} {s : State} (hs : regsOutside P s0 s) :
    regsOutside P s0 (stepPaid n t16 s) :=
  hs.skip (stepPaid_changes (F := [.convs, .halls]) rfl (changesOnly.refl _ _)) (by decide)

theorem contDone_regs {P : Nat → Prop} {s0 : State} {n : Nat} {t16 : Nat} {s : State}
    (p0 : P (rWdCount))
    (hs : regsOutside P s0 s) : regsOutside P s0 (contDone n t16 s) := by
  refine hs.trans ?_
  clear hs
  unfold contDone
  with_reducible repeat' first
    | assumption | exact regsOutside.refl _ _ | apply updConv_regs | apply flightCheckIn_regs | apply stepPaid_regs
    | apply regsOutside.iteL | apply regsOutside.ite | split | (intro) | solve_by_elim

theorem setHcfg_regs {P : Nat → Prop} {s0 : State} {h : Nat} {a : Nat} {v : Word} {s : State} (hs : regsOutside P s0 s) :
    regsOutside P s0 (setHcfg h a v s) :=
  hs.skip (setHcfg_changes (F := [.halls]) rfl (changesOnly.refl _ _)) (by decide)

end Sys2Proof.Machine
end

