-- ==== Sys2Proof/Laws/RegFrames4.lean ====
section
/-! SUPPORT. Which registers each shared operation changes at most (part 5 of 11). -/

set_option linter.unusedTactic false
set_option linter.unreachableTactic false

namespace Sys2Proof.Machine

theorem takeNext_regs {P : Nat → Prop} {s0 : State} {h : Nat} {l : List Nat} {s : State} (hs : regsOutside P s0 s) :
    regsOutside P s0 (takeNext h l s) :=
  hs.skip (takeNext_changes (F := [.halls]) rfl (changesOnly.refl _ _)) (by decide)

theorem injStepDone_regs {P : Nat → Prop} {s0 : State} {n : Nat} {t16 : Nat} {s : State}
    (p0 : P (rWdCount))
    (hs : regsOutside P s0 s) : regsOutside P s0 (injStepDone n t16 s) := by
  refine hs.trans ?_
  clear hs
  unfold injStepDone
  with_reducible repeat' first
    | assumption | exact regsOutside.refl _ _ | apply updConv_regs | apply takeNext_regs | apply flightCheckIn_regs
    | apply regsOutside.iteL | apply regsOutside.ite | split | (intro) | solve_by_elim

theorem shadowCycle_regs {P : Nat → Prop} {s0 : State} {own : Nat} {s : State} (hs : regsOutside P s0 s) :
    regsOutside P s0 (shadowCycle own s) :=
  hs.skip (shadowCycle_changes (F := [.halls]) rfl (changesOnly.refl _ _)) (by decide)

theorem flightStepDone_regs {P : Nat → Prop} {s0 : State} {n : Nat} {t16 : Nat} {s : State}
    (p0 : P (rWdCount))
    (hs : regsOutside P s0 s) : regsOutside P s0 (flightStepDone n t16 s) := by
  refine hs.trans ?_
  clear hs
  unfold flightStepDone
  with_reducible repeat' first
    | assumption | exact regsOutside.refl _ _ | apply updConv_regs | apply stepPaid_regs | apply flightCheckIn_regs
    | apply shadowCycle_regs | apply regsOutside.iteL | apply regsOutside.ite | split | (intro) | solve_by_elim

theorem advanceStep_regs {P : Nat → Prop} {s0 : State} {n : Nat} {t16 : Nat} {s : State}
    (p0 : P (rWdCount))
    (hs : regsOutside P s0 s) : regsOutside P s0 (advanceStep n t16 s) := by
  refine hs.trans ?_
  clear hs
  unfold advanceStep
  with_reducible repeat' first
    | assumption | exact regsOutside.refl _ _ | apply contDone_regs | apply updConv_regs | apply injStepDone_regs
    | apply flightStepDone_regs | apply regsOutside.iteL | apply regsOutside.ite | split | (intro) | solve_by_elim

theorem blankConv_regs {P : Nat → Prop} {s0 : State} {n : Nat} {s : State} (hs : regsOutside P s0 s) :
    regsOutside P s0 (blankConv n s) :=
  hs.skip (blankConv_changes (F := [.convs]) rfl (changesOnly.refl _ _)) (by decide)

theorem openWindow_regs {P : Nat → Prop} {s0 : State} {n : Nat} {t16 : Nat} {len : Nat} {s : State} (hs : regsOutside P s0 s) :
    regsOutside P s0 (openWindow n t16 len s) :=
  hs.skip (openWindow_changes (F := [.convs]) rfl (changesOnly.refl _ _)) (by decide)

theorem releaseStep_regs {P : Nat → Prop} {s0 : State} {n : Nat} {t16 : Nat} {s : State} (hs : regsOutside P s0 s) :
    regsOutside P s0 (releaseStep n t16 s) :=
  hs.skip (releaseStep_changes (F := [.convs]) rfl (changesOnly.refl _ _)) (by decide)

theorem takeTrigger_regs {P : Nat → Prop} {s0 : State} {n : Nat} {t16 : Nat} {s : State}
    (p0 : P (rCvEvt (ownerOf s n))) (p1 : P (rBbMissed))
    (hs : regsOutside P s0 s) : regsOutside P s0 (takeTrigger n t16 s) := by
  refine hs.trans ?_
  clear hs
  unfold takeTrigger
  with_reducible repeat' first
    | assumption | exact regsOutside.refl _ _ | apply raiseBit_regs | apply updConv_regs | apply startInjected_regs
    | apply regsOutside.iteL | apply regsOutside.ite | split | (intro) | solve_by_elim

theorem unblankConv_regs {P : Nat → Prop} {s0 : State} {n : Nat} {t16 : Nat} {s : State}
    (p0 : ∀ (s : State), P (rCvEvt (ownerOf s n))) (p1 : P (rBbMissed))
    (hs : regsOutside P s0 s) : regsOutside P s0 (unblankConv n t16 s) := by
  refine hs.trans ?_
  clear hs
  unfold unblankConv
  with_reducible repeat' first
    | assumption | exact regsOutside.refl _ _ | apply updConv_regs | apply releaseStep_regs | apply takeTrigger_regs
    | apply regsOutside.iteL | apply regsOutside.ite | split | (intro) | solve_by_elim

theorem afterBlank_regs {P : Nat → Prop} {s0 : State} {h : Nat} {before : Bool} {s : State}
    (p0 : ∀ (s : State), P (rCvEvt (ownerOf s (2 * h + 1)))) (p1 : P (rBbMissed)) (p2 : ∀ (s : State), P (rCvEvt (ownerOf s (2 * h))))
    (hs : regsOutside P s0 s) : regsOutside P s0 (afterBlank h before s) := by
  refine hs.trans ?_
  clear hs
  unfold afterBlank
  with_reducible repeat' first
    | assumption | exact regsOutside.refl _ _ | apply blankConv_regs | apply unblankConv_regs
    | apply regsOutside.iteL | apply regsOutside.ite | split | (intro) | solve_by_elim

theorem moveFlight_regs {P : Nat → Prop} {s0 : State} {a : Nat} {b : Nat} {s : State} (hs : regsOutside P s0 s) :
    regsOutside P s0 (moveFlight a b s) :=
  hs.skip (moveFlight_changes (F := [.convs]) rfl (changesOnly.refl _ _)) (by decide)

theorem startLadder_regs {P : Nat → Prop} {s0 : State} {n : Nat} {t16 : Nat} {s : State} (hs : regsOutside P s0 s) :
    regsOutside P s0 (startLadder n t16 s) :=
  hs.skip (startLadder_changes (F := [.halls, .convs]) rfl (changesOnly.refl _ _)) (by decide)

theorem swapToK1_regs {P : Nat → Prop} {s0 : State} {h : Nat} {t16 : Nat} {s : State} (hs : regsOutside P s0 s) :
    regsOutside P s0 (swapToK1 h t16 s) :=
  hs.skip (swapToK1_changes (F := [.convs, .halls]) rfl (changesOnly.refl _ _)) (by decide)

theorem swapContinuous_regs {P : Nat → Prop} {s0 : State} {h : Nat} {t16 : Nat} {s : State} (hs : regsOutside P s0 s) :
    regsOutside P s0 (swapContinuous h t16 s) :=
  hs.skip (swapContinuous_changes (F := [.convs, .halls]) rfl (changesOnly.refl _ _)) (by decide)

theorem rotEvent_regs {P : Nat → Prop} {s0 : State} {h : Nat} {i : Nat} {s : State} (hs : regsOutside P s0 s) :
    regsOutside P s0 (rotEvent h i s) :=
  hs.skip (rotEvent_changes (F := [.halls]) rfl (changesOnly.refl _ _)) (by decide)

theorem retire_regs {P : Nat → Prop} {s0 : State} {n : Nat} {s : State} (hs : regsOutside P s0 s) :
    regsOutside P s0 (retire n s) :=
  hs.skip (retire_changes (F := [.halls, .convs]) rfl (changesOnly.refl _ _)) (by decide)

theorem swapBack_regs {P : Nat → Prop} {s0 : State} {h : Nat} {t16 : Nat} {s : State} (hs : regsOutside P s0 s) :
    regsOutside P s0 (swapBack h t16 s) :=
  hs.skip (swapBack_changes (F := [.convs, .halls]) rfl (changesOnly.refl _ _)) (by decide)

theorem takeBack_regs {P : Nat → Prop} {s0 : State} {h : Nat} {s : State} (hs : regsOutside P s0 s) :
    regsOutside P s0 (takeBack h s) :=
  hs.skip (takeBack_changes (F := [.convs, .halls]) rfl (changesOnly.refl _ _)) (by decide)

theorem joinContinuous_regs {P : Nat → Prop} {s0 : State} {h : Nat} {t16 : Nat} {s : State} (hs : regsOutside P s0 s) :
    regsOutside P s0 (joinContinuous h t16 s) :=
  hs.skip (joinContinuous_changes (F := [.convs]) rfl (changesOnly.refl _ _)) (by decide)

theorem beginShadow_regs {P : Nat → Prop} {s0 : State} {h : Nat} {phase : Nat} {s : State} (hs : regsOutside P s0 s) :
    regsOutside P s0 (beginShadow h phase s) :=
  hs.skip (beginShadow_changes (F := [.halls]) rfl (changesOnly.refl _ _)) (by decide)

theorem startRotation_regs {P : Nat → Prop} {s0 : State} {h : Nat} {s : State} (hs : regsOutside P s0 s) :
    regsOutside P s0 (startRotation h s) :=
  hs.skip (startRotation_changes (F := [.halls]) rfl (changesOnly.refl _ _)) (by decide)

theorem shadowContinuous_regs {P : Nat → Prop} {s0 : State} {h : Nat} {t16 : Nat} {s : State} (hs : regsOutside P s0 s) :
    regsOutside P s0 (shadowContinuous h t16 s) :=
  hs.skip (shadowContinuous_changes (F := [.halls, .convs]) rfl (changesOnly.refl _ _)) (by decide)

theorem afterContinuous_regs {P : Nat → Prop} {s0 : State} {h : Nat} {t16 : Nat} {s : State} (hs : regsOutside P s0 s) :
    regsOutside P s0 (afterContinuous h t16 s) :=
  hs.skip (afterContinuous_changes (F := [.convs, .halls]) rfl (changesOnly.refl _ _)) (by decide)

theorem shadowVerdict_regs {P : Nat → Prop} {s0 : State} {h : Nat} {t16 : Nat} {s : State} (hs : regsOutside P s0 s) :
    regsOutside P s0 (shadowVerdict h t16 s) :=
  hs.skip (shadowVerdict_changes (F := [.halls, .convs]) rfl (changesOnly.refl _ _)) (by decide)

theorem pairCheck_regs {P : Nat → Prop} {s0 : State} {h : Nat} {s : State} (hs : regsOutside P s0 s) :
    regsOutside P s0 (pairCheck h s) :=
  hs.skip (pairCheck_changes (F := [.halls, .convs]) rfl (changesOnly.refl _ _)) (by decide)

theorem afterResult_regs {P : Nat → Prop} {s0 : State} {h : Nat} {t16 : Nat} {s : State} (hs : regsOutside P s0 s) :
    regsOutside P s0 (afterResult h t16 s) :=
  hs.skip (afterResult_changes (F := [.halls, .convs]) rfl (changesOnly.refl _ _)) (by decide)

theorem balTick_regs {P : Nat → Prop} {s0 : State} {m : Nat} {n : Nat} {alarm : Bool} {adj : Bool} {s : State}
    (p0 : ∀ (b : Nat), b < 64 → P (rBalEvt b)) (p1 : P (rBbMissed)) (p2 : ∀ (b : Nat), b < 64 → P (aBal b 5)) (p3 : ∀ (b : Nat), b < 64 → P (aBal b 7))
    (hs : regsOutside P s0 s) : regsOutside P s0 (balTick m n alarm adj s) := by
  refine hs.trans ?_
  clear hs
  unfold balTick
  with_reducible repeat' first
    | assumption | exact regsOutside.refl _ _ | apply updBal_regs | apply balClose_regs | apply forN_regs
    | apply regsOutside.iteL | apply regsOutside.ite | split | (intro) | solve_by_elim

theorem galTick_regs {P : Nat → Prop} {s0 : State} {m : Nat} {alarm : Bool} {status : Word} {vs : List (Option Ext)} {s : State} (hs : regsOutside P s0 s) :
    regsOutside P s0 (galTick m alarm status vs s) :=
  hs.skip (galTick_changes (F := [.gal]) rfl (changesOnly.refl _ _)) (by decide)

theorem periodTick_regs {P : Nat → Prop} {s0 : State} {m : Nat} {alarm : Bool} {status : Word} {q : Nat} {vs : List (Option Ext)} {s : State} (hs : regsOutside P s0 s) :
    regsOutside P s0 (periodTick m alarm status q vs s) :=
  hs.skip (periodTick_changes (F := [.runs]) rfl (changesOnly.refl _ _)) (by decide)

theorem afterRun_regs {P : Nat → Prop} {s0 : State} {m : Nat} {alarm : Bool} {status : Word} {q : Nat} {vals : List (Option Ext)} {gal : List (Option Ext)} {s : State}
    (p0 : ∀ (b : Nat), b < 64 → P (rBalEvt b)) (p1 : P (rBbMissed)) (p2 : ∀ (b : Nat), b < 64 → P (aBal b 5)) (p3 : ∀ (b : Nat), b < 64 → P (aBal b 7))
    (hs : regsOutside P s0 s) : regsOutside P s0 (afterRun m alarm status q vals gal s) := by
  refine hs.trans ?_
  clear hs
  unfold afterRun
  with_reducible repeat' first
    | assumption | exact regsOutside.refl _ _ | apply balTick_regs | apply galTick_regs | apply periodTick_regs
    | (intro) | solve_by_elim

theorem ageDiverge_regs {P : Nat → Prop} {s0 : State} {s : State} (hs : regsOutside P s0 s) :
    regsOutside P s0 (ageDiverge s) :=
  hs.skip (ageDiverge_changes (F := [.pair]) rfl (changesOnly.refl _ _)) (by decide)

theorem alignRing_regs {P : Nat → Prop} {s0 : State} {n : Nat} {p : Nat} {s : State} (hs : regsOutside P s0 s) :
    regsOutside P s0 (alignRing n p s) :=
  hs.skip (alignRing_changes (F := [.pair]) rfl (changesOnly.refl _ _)) (by decide)

theorem mirrorSeen_regs {P : Nat → Prop} {s0 : State} {a : Nat} {n : Nat} {s : State}
    (p0 : P (rBbMissed)) (p1 : P (rBbEvt)) (p2 : P (rEccEvt)) (p3 : P (10532))
    (hs : regsOutside P s0 s) : regsOutside P s0 (mirrorSeen a n s) := by
  refine hs.trans ?_
  clear hs
  unfold mirrorSeen
  with_reducible repeat' first
    | assumption | exact regsOutside.refl _ _ | apply eccSeen_regs | (intro) | solve_by_elim

theorem alignRings_regs {P : Nat → Prop} {s0 : State} {n : Nat} {s : State}
    (p0 : P (rBbMissed)) (p1 : P (rBbEvt)) (p2 : P (rEccEvt)) (p3 : P (10532))
    (hs : regsOutside P s0 s) : regsOutside P s0 (alignRings n s) := by
  refine hs.trans ?_
  clear hs
  unfold alignRings
  with_reducible repeat' first
    | assumption | exact regsOutside.refl _ _ | apply mirrorSeen_regs | apply alignRing_regs
    | apply regsOutside.foldl | split | (intro) | solve_by_elim

theorem allActive_regs {P : Nat → Prop} {s0 : State} {s : State}
    (p0 : ∀ (h : Nat), h < 8 → ∀ a, hallRegs h a → P a) (p1 : P (rBbMissed))
    (hs : regsOutside P s0 s) : regsOutside P s0 (allActive s) := by
  refine hs.trans ?_
  clear hs
  unfold allActive
  with_reducible repeat' first
    | assumption | exact regsOutside.refl _ _ | apply report_regs | apply activeForm_regs | apply forHalls_regs
    | apply forChans_regs | apply regsOutside.iteL | apply regsOutside.ite | split | (intro) | solve_by_elim

theorem standbyForm_regs {P : Nat → Prop} {s0 : State} {h : Nat} {c : Nat} {s : State} (hs : regsOutside P s0 s) :
    regsOutside P s0 (standbyForm h c s) :=
  hs.skip (standbyForm_changes (F := [.chans, .convs, .halls]) rfl (changesOnly.refl _ _)) (by decide)

theorem allStandby_regs {P : Nat → Prop} {s0 : State} {s : State}
    (p0 : ∀ (h : Nat), h < 8 → ∀ a, hallRegs h a → P a) (p1 : P (rBbMissed))
    (hs : regsOutside P s0 s) : regsOutside P s0 (allStandby s) := by
  refine hs.trans ?_
  clear hs
  unfold allStandby
  with_reducible repeat' first
    | assumption | exact regsOutside.refl _ _ | apply report_regs | apply standbyForm_regs | apply forHalls_regs
    | apply forChans_regs | apply regsOutside.iteL | apply regsOutside.ite | split | (intro) | solve_by_elim

theorem sendData_regs {P : Nat → Prop} {s0 : State} {s : State}
    (p0 : P (rBbMissed)) (p1 : P (rBbEvt)) (p2 : P (rEccEvt)) (p3 : P (10532))
    (hs : regsOutside P s0 s) : regsOutside P s0 (sendData s) := by
  refine hs.trans ?_
  clear hs
  unfold sendData
  with_reducible repeat' first
    | assumption | exact regsOutside.refl _ _ | apply mlOriginate_regs | apply updMl_regs | apply regsOutside.iteL
    | apply regsOutside.ite | split | (intro) | solve_by_elim

theorem appendData_regs {P : Nat → Prop} {s0 : State} {s : State}
    (p0 : P (10774)) (p1 : P (rBbMissed)) (p2 : P (rBbEvt)) (p3 : P (rEccEvt)) (p4 : P (10532))
    (hs : regsOutside P s0 s) : regsOutside P s0 (appendData s) := by
  refine hs.trans ?_
  clear hs
  unfold appendData
  with_reducible repeat' first
    | assumption | exact regsOutside.refl _ _ | apply modReg_regs | apply updMl_regs | apply sendData_regs
    | apply regsOutside.iteL | apply regsOutside.ite | split | (intro) | solve_by_elim

theorem applyCommand_regs {P : Nat → Prop} {s0 : State} {h : Nat} {c : Nat} {v : Nat} {s : State} (hs : regsOutside P s0 s) :
    regsOutside P s0 (applyCommand h c v s) :=
  hs.skip (applyCommand_changes (F := [.chans]) rfl (changesOnly.refl _ _)) (by decide)

theorem copyWord_regs {P : Nat → Prop} {s0 : State} {h : Nat} {a : Nat} {s : State} (hs : regsOutside P s0 s) :
    regsOutside P s0 (copyWord h a s) :=
  hs.skip (copyWord_changes (F := [.halls]) rfl (changesOnly.refl _ _)) (by decide)

theorem takeBuffer_regs {P : Nat → Prop} {s0 : State} {h : Nat} {s : State} (hs : regsOutside P s0 s) :
    regsOutside P s0 (takeBuffer h s) :=
  hs.skip (takeBuffer_changes (F := [.halls]) rfl (changesOnly.refl _ _)) (by decide)

theorem hallFlag_regs {P : Nat → Prop} {s0 : State} {h : Nat} {i : Nat} {b : Bool} {s : State} (hs : regsOutside P s0 s) :
    regsOutside P s0 (hallFlag h i b s) :=
  hs.skip (hallFlag_changes (F := [.halls]) rfl (changesOnly.refl _ _)) (by decide)

theorem hallConfigured_regs {P : Nat → Prop} {s0 : State} {h : Nat} {s : State} (hs : regsOutside P s0 s) :
    regsOutside P s0 (hallConfigured h s) :=
  hs.skip (hallConfigured_changes (F := [.halls, .convs, .chans]) rfl (changesOnly.refl _ _)) (by decide)

theorem startFlights_regs {P : Nat → Prop} {s0 : State} {h : Nat} {first : Bool} {s : State} (hs : regsOutside P s0 s) :
    regsOutside P s0 (startFlights h first s) :=
  hs.skip (startFlights_changes (F := [.halls, .convs]) rfl (changesOnly.refl _ _)) (by decide)

theorem commitEnable_regs {P : Nat → Prop} {s0 : State} {h : Nat} {s : State} (hs : regsOutside P s0 s) :
    regsOutside P s0 (commitEnable h s) :=
  hs.skip (commitEnable_changes (F := [.halls, .convs, .chans]) rfl (changesOnly.refl _ _)) (by decide)

theorem hallOff_regs {P : Nat → Prop} {s0 : State} {h : Nat} {s : State} (hs : regsOutside P s0 s) :
    regsOutside P s0 (hallOff h s) :=
  hs.skip (hallOff_changes (F := [.halls, .convs, .chans]) rfl (changesOnly.refl _ _)) (by decide)

theorem commitChan_regs {P : Nat → Prop} {s0 : State} {h : Nat} {c : Nat} {s : State} (hs : regsOutside P s0 s) :
    regsOutside P s0 (commitChan h c s) :=
  hs.skip (commitChan_changes (F := [.halls, .chans, .convs]) rfl (changesOnly.refl _ _)) (by decide)

theorem freeLadder_regs {P : Nat → Prop} {s0 : State} {n : Nat} {s : State} (hs : regsOutside P s0 s) :
    regsOutside P s0 (freeLadder n s) :=
  hs.skip (freeLadder_changes (F := [.convs]) rfl (changesOnly.refl _ _)) (by decide)

end Sys2Proof.Machine
end

