-- ==== Sys2Proof/Laws/RegFrames5.lean ====
section
/-! SUPPORT. Which registers each shared operation changes at most (part 6 of 11). -/

set_option linter.unusedTactic false
set_option linter.unreachableTactic false

namespace Sys2Proof.Machine

theorem rotDisabled_regs {P : Nat → Prop} {s0 : State} {h : Nat} {s : State} (hs : regsOutside P s0 s) :
    regsOutside P s0 (rotDisabled h s) :=
  hs.skip (rotDisabled_changes (F := [.convs, .halls]) rfl (changesOnly.refl _ _)) (by decide)

theorem newFlightWords_regs {P : Nat → Prop} {s0 : State} {own : Nat} {s : State} (hs : regsOutside P s0 s) :
    regsOutside P s0 (newFlightWords own s) :=
  hs.skip (newFlightWords_changes (F := [.halls, .convs, .chans]) rfl (changesOnly.refl _ _)) (by decide)

theorem commitRotation_regs {P : Nat → Prop} {s0 : State} {h : Nat} {was : Bool} {s : State} (hs : regsOutside P s0 s) :
    regsOutside P s0 (commitRotation h was s) :=
  hs.skip (commitRotation_changes (F := [.convs, .halls, .chans]) rfl (changesOnly.refl _ _)) (by decide)

theorem waitWords_regs {P : Nat → Prop} {s0 : State} {h : Nat} {l : List Nat} {s : State} (hs : regsOutside P s0 s) :
    regsOutside P s0 (waitWords h l s) :=
  hs.skip (waitWords_changes (F := [.halls]) rfl (changesOnly.refl _ _)) (by decide)

theorem commitFlight_regs {P : Nat → Prop} {s0 : State} {n : Nat} {l : List Nat} {s : State} (hs : regsOutside P s0 s) :
    regsOutside P s0 (commitFlight n l s) :=
  hs.skip (commitFlight_changes (F := [.halls, .convs, .chans]) rfl (changesOnly.refl _ _)) (by decide)

theorem commitInjected_regs {P : Nat → Prop} {s0 : State} {n : Nat} {l : List Nat} {s : State} (hs : regsOutside P s0 s) :
    regsOutside P s0 (commitInjected n l s) :=
  hs.skip (commitInjected_changes (F := [.halls]) rfl (changesOnly.refl _ _)) (by decide)

theorem resolveAll_regs {P : Nat → Prop} {s0 : State} {h : Nat} {s : State} (hs : regsOutside P s0 s) :
    regsOutside P s0 (resolveAll h s) :=
  hs.skip (resolveAll_changes (F := [.chans]) rfl (changesOnly.refl _ _)) (by decide)

theorem commitHall_regs {P : Nat → Prop} {s0 : State} {h : Nat} {l : List Nat} {s : State}
    (p0 : ∀ (s : State), P (rCvEvt (ownerOf s (2 * h + 1)))) (p1 : P (rBbMissed)) (p2 : ∀ (s : State), P (rCvEvt (ownerOf s (2 * h))))
    (hs : regsOutside P s0 s) : regsOutside P s0 (commitHall h l s) := by
  refine hs.trans ?_
  clear hs
  unfold commitHall
  with_reducible repeat' first
    | assumption | exact regsOutside.refl _ _ | apply copyWord_regs | apply commitChan_regs | apply takeBuffer_regs
    | apply excFlag_regs | apply updHall_regs | apply pulsReset_regs | apply commitRotation_regs
    | apply commitFlight_regs | apply commitInjected_regs | apply startFlights_regs | apply resolveAll_regs
    | apply afterBlank_regs | apply forChans_regs | apply forN_regs | apply regsOutside.foldl
    | apply regsOutside.iteL | apply regsOutside.ite | split | (intro) | solve_by_elim

theorem applyHall_regs {P : Nat → Prop} {s0 : State} {h : Nat} {was : Bool} {l : List Nat} {s : State}
    (p0 : ∀ a, hallRegs h a → P a) (p1 : ∀ (s : State), P (rCvEvt (ownerOf s (2 * h + 1)))) (p2 : P (rBbMissed)) (p3 : ∀ (s : State), P (rCvEvt (ownerOf s (2 * h)))) (p4 : P (aHall h 8))
    (hs : regsOutside P s0 s) : regsOutside P s0 (applyHall h was l s) := by
  refine hs.trans ?_
  clear hs
  unfold applyHall
  with_reducible repeat' first
    | assumption | exact regsOutside.refl _ _ | apply commitEnable_regs | apply hallOff_regs | apply copyWord_regs
    | apply commitHall_regs | apply updHall_regs | apply setReg_regs | apply report_regs | apply regsOutside.iteL
    | apply regsOutside.ite | split | (intro) | solve_by_elim

theorem takeCopy_regs {P : Nat → Prop} {s0 : State} {i : Nat} {s : State}
    (p0 : P (11523))
    (hs : regsOutside P s0 s) : regsOutside P s0 (takeCopy i s) := by
  refine hs.trans ?_
  clear hs
  unfold takeCopy
  with_reducible repeat' first
    | assumption | exact regsOutside.refl _ _ | apply setReg_regs | apply setCopy_regs | apply updImg_regs | (intro)
    | solve_by_elim

theorem soloRole_regs {P : Nat → Prop} {s0 : State} {s : State}
    (p0 : ∀ (h : Nat), h < 8 → ∀ a, hallRegs h a → P a) (p1 : P (rBbMissed))
    (hs : regsOutside P s0 s) : regsOutside P s0 (soloRole s) := by
  refine hs.trans ?_
  clear hs
  unfold soloRole
  with_reducible repeat' first
    | assumption | exact regsOutside.refl _ _ | apply updPair_regs | apply allActive_regs | apply regsOutside.iteL
    | apply regsOutside.ite | split | (intro) | solve_by_elim

theorem isolate_regs {P : Nat → Prop} {s0 : State} {s : State}
    (p0 : P (rMlEvt)) (p1 : P (rBbMissed))
    (hs : regsOutside P s0 s) : regsOutside P s0 (isolate s) := by
  refine hs.trans ?_
  clear hs
  unfold isolate
  with_reducible repeat' first
    | assumption | exact regsOutside.refl _ _ | apply updMl_regs | apply mlEvent_regs | apply regsOutside.iteL
    | apply regsOutside.ite | split | (intro) | solve_by_elim

theorem portWord_regs {P : Nat → Prop} {s0 : State} {p : Nat} {s : State} (hs : regsOutside P s0 s) :
    regsOutside P s0 (portWord p s) :=
  hs.skip (portWord_changes (F := [.ml]) rfl (changesOnly.refl _ _)) (by decide)

theorem startPorts_regs {P : Nat → Prop} {s0 : State} {s : State}
    (p0 : P (rMlEvt)) (p1 : P (rBbMissed))
    (hs : regsOutside P s0 s) : regsOutside P s0 (startPorts s) := by
  refine hs.trans ?_
  clear hs
  unfold startPorts
  with_reducible repeat' first
    | assumption | exact regsOutside.refl _ _ | apply isolate_regs | apply portWord_regs | apply forN_regs | (intro)
    | solve_by_elim

theorem quietHalls_regs {P : Nat → Prop} {s0 : State} {s : State}
    (p0 : ∀ (h : Nat), h < 8 → P (aHall h 1))
    (hs : regsOutside P s0 s) : regsOutside P s0 (quietHalls s) := by
  refine hs.trans ?_
  clear hs
  unfold quietHalls
  with_reducible repeat' first
    | assumption | exact regsOutside.refl _ _ | apply modReg_regs | apply forHalls_regs | apply regsOutside.iteL
    | apply regsOutside.ite | split | (intro) | solve_by_elim

theorem listedOutputs_regs {P : Nat → Prop} {s0 : State} {im : Img} {h : Nat} {s : State}
    (p0 : ∀ (c : Nat), c < 4 → P (aCh h c 28)) (p1 : P (rHpEvt)) (p2 : P (rBbMissed)) (p3 : P (rHpClamp))
    (hs : regsOutside P s0 s) : regsOutside P s0 (listedOutputs im h s) := by
  refine hs.trans ?_
  clear hs
  unfold listedOutputs
  with_reducible repeat' first
    | assumption | exact regsOutside.refl _ _ | apply setReg_regs | apply cfgClamp_regs | apply forChans_regs
    | apply regsOutside.iteL | apply regsOutside.ite | split | (intro) | solve_by_elim

theorem keepHall_regs {P : Nat → Prop} {s0 : State} {h : Nat} {s : State}
    (p0 : ∀ (c : Nat), c < 4 → P (aCh h c 28))
    (hs : regsOutside P s0 s) : regsOutside P s0 (keepHall h s) := by
  refine hs.trans ?_
  clear hs
  unfold keepHall
  with_reducible repeat' first
    | assumption | exact regsOutside.refl _ _ | apply updHall_regs | apply setReg_regs | apply forChans_regs
    | (intro) | apply regsOutside.set | solve_by_elim

theorem auditApplied_regs {P : Nat → Prop} {s0 : State} {s : State}
    (p0 : P (rAudEvt)) (p1 : P (rBbMissed)) (p2 : P (rAudDropped))
    (hs : regsOutside P s0 s) : regsOutside P s0 (auditApplied s) := by
  refine hs.trans ?_
  clear hs
  unfold auditApplied
  with_reducible repeat' first
    | assumption | exact regsOutside.refl _ _ | apply audit_regs | apply regsOutside.iteL | apply regsOutside.ite
    | split | (intro) | apply regsOutside.set | solve_by_elim

theorem settleReport_regs {P : Nat → Prop} {s0 : State} {last : Nat} {e : JEntry} {s : State}
    (p0 : P (rJnlEvt)) (p1 : P (rBbMissed))
    (hs : regsOutside P s0 s) : regsOutside P s0 (settleReport last e s) := by
  refine hs.trans ?_
  clear hs
  unfold settleReport
  with_reducible repeat' first
    | assumption | exact regsOutside.refl _ _ | apply raiseBit_regs | apply regsOutside.iteL | apply regsOutside.ite
    | split | (intro) | apply regsOutside.set | solve_by_elim

theorem settleSwaps_regs {P : Nat → Prop} {s0 : State} {s : State}
    (p0 : P (rJnlEvt)) (p1 : P (rBbMissed))
    (hs : regsOutside P s0 s) : regsOutside P s0 (settleSwaps s) := by
  refine hs.trans ?_
  clear hs
  unfold settleSwaps
  with_reducible repeat' first
    | assumption | exact regsOutside.refl _ _ | apply settleReport_regs | apply jClose_regs | apply regsOutside.foldl
    | apply regsOutside.iteL | apply regsOutside.ite | split | (intro) | solve_by_elim

theorem applyMlCfg_regs {P : Nat → Prop} {s0 : State} {w : Word} {s : State}
    (p0 : P (rMlEvt)) (p1 : P (rBbMissed))
    (hs : regsOutside P s0 s) : regsOutside P s0 (applyMlCfg w s) := by
  refine hs.trans ?_
  clear hs
  unfold applyMlCfg
  with_reducible repeat' first
    | assumption | exact regsOutside.refl _ _ | apply startPorts_regs | apply updMl_regs | apply regsOutside.iteL
    | apply regsOutside.ite | split | (intro) | solve_by_elim

theorem periodReplan_regs {P : Nat → Prop} {s0 : State} {n : Nat} {s : State} (hs : regsOutside P s0 s) :
    regsOutside P s0 (periodReplan n s) :=
  hs.skip (periodReplan_changes (F := [.per]) rfl (changesOnly.refl _ _)) (by decide)

theorem balOpen_regs {P : Nat → Prop} {s0 : State} {b : Nat} {s : State} (hs : regsOutside P s0 s) :
    regsOutside P s0 (balOpen b s) :=
  hs.skip (balOpen_changes (F := [.bal]) rfl (changesOnly.refl _ _)) (by decide)

theorem wdPlan_regs {P : Nat → Prop} {s0 : State} {s : State} (hs : regsOutside P s0 s) :
    regsOutside P s0 (wdPlan s) :=
  hs.skip (wdPlan_changes (F := [.wd]) rfl (changesOnly.refl _ _)) (by decide)

theorem applyRecords_regs {P : Nat → Prop} {s0 : State} {l : List Nat} {s : State}
    (p0 : ∀ (h : Nat), h < 8 → ∀ a, hallRegs h a → P a) (p1 : P (rBbMissed))
    (hs : regsOutside P s0 s) : regsOutside P s0 (applyRecords l s) := by
  refine hs.trans ?_
  clear hs
  unfold applyRecords
  with_reducible repeat' first
    | assumption | exact regsOutside.refl _ _ | apply periodReplan_regs | apply updBal_regs | apply balOpen_regs
    | apply soloRole_regs | apply wdPlan_regs | apply forN_regs | apply regsOutside.iteL | apply regsOutside.ite
    | split | (intro) | solve_by_elim

theorem putSub_regs {P : Nat → Prop} {s0 s : State} {slot : Nat} {v : Word} (p0 : ∀ i, i < 1024 → P (0x4000 + i))
    (hs : regsOutside P s0 s) : regsOutside P s0 (putSub slot v s) := by
  unfold putSub
  split
  · next h => exact setReg_regs (p0 slot h) hs
  · exact hs

theorem galCommit_regs {P : Nat → Prop} {s0 : State} {s : State}
    (p0 : P (rGalEvt)) (p1 : P (rBbMissed)) (p2 : P (rGalDropped)) (p3 : P (rBbEvt)) (p4 : P (rEccEvt)) (p5 : P (10532))
    (hs : regsOutside P s0 s) : regsOutside P s0 (galCommit s) := by
  refine hs.trans ?_
  clear hs
  unfold galCommit
  with_reducible repeat' first
    | assumption | exact regsOutside.refl _ _ | apply galFlush_regs | apply updTier_regs | (intro) | solve_by_elim

theorem putWords_regs {P : Nat → Prop} {s0 : State} {ws : List (Nat × Word)} {s : State}
    (p0 : ∀ (e : Nat × Word), P (e.1))
    (hs : regsOutside P s0 s) : regsOutside P s0 (putWords ws s) := by
  refine hs.trans ?_
  clear hs
  unfold putWords
  with_reducible repeat' first
    | assumption | exact regsOutside.refl _ _ | apply setReg_regs | apply regsOutside.foldl | (intro) | solve_by_elim

theorem oldModes_regs {P : Nat → Prop} {s0 : State} {ws : List (Nat × Word)} {s : State} (hs : regsOutside P s0 s) :
    regsOutside P s0 (oldModes ws s) :=
  hs.skip (oldModes_changes (F := [.modes]) rfl (changesOnly.refl _ _)) (by decide)

theorem askCarried_regs {P : Nat → Prop} {s0 : State} {s : State} (hs : regsOutside P s0 s) :
    regsOutside P s0 (askCarried s) :=
  hs.skip (askCarried_changes (F := [.tx, .pair]) rfl (changesOnly.refl _ _)) (by decide)

theorem audRelease_regs {P : Nat → Prop} {s0 : State} {o : Origin} {n : Nat} {s : State}
    (p0 : P (rHpEvt)) (p1 : P (rBbMissed)) (p2 : P (rHpClamp)) (p3 : P (rAudEvt)) (p4 : P (rAudDropped))
    (hs : regsOutside P s0 s) : regsOutside P s0 (audRelease o n s) := by
  refine hs.trans ?_
  clear hs
  unfold audRelease
  with_reducible repeat' first
    | assumption | exact regsOutside.refl _ _ | apply cfgClamp_regs | apply raiseBit_regs | apply audDrop_regs
    | apply audit_regs | apply regsOutside.iteL | apply regsOutside.ite | split | (intro) | apply regsOutside.set
    | solve_by_elim

theorem audUnread_regs {P : Nat → Prop} {s0 : State} {r : AudRec} {rest : List AudRec} {s : State}
    (p0 : P (rBbMissed)) (p1 : P (rBbEvt)) (p2 : P (rEccEvt)) (p3 : P (10532)) (p4 : P (rAudEvt)) (p5 : P (rAudDropped))
    (hs : regsOutside P s0 s) : regsOutside P s0 (audUnread r rest s) := by
  refine hs.trans ?_
  clear hs
  unfold audUnread
  with_reducible repeat' first
    | assumption | exact regsOutside.refl _ _ | apply retWritten_regs | apply eccSeen_regs | apply raiseBit_regs
    | apply audDrop_regs | (intro) | apply regsOutside.set | solve_by_elim

theorem auditB_regs {P : Nat → Prop} {s0 : State} {o : Origin} {a : Nat} {d : RegDesc} {w : Word} {v : Word} {s : State}
    (p0 : P (rAudEvt)) (p1 : P (rBbMissed)) (p2 : P (rAudDropped))
    (hs : regsOutside P s0 s) : regsOutside P s0 (auditB o a d w v s) := by
  refine hs.trans ?_
  clear hs
  unfold auditB
  with_reducible repeat' first
    | assumption | exact regsOutside.refl _ _ | apply audit_regs | apply regsOutside.iteL | apply regsOutside.ite
    | split | (intro) | solve_by_elim

theorem backWords_regs {P : Nat → Prop} {s0 : State} {ws : List (Nat × Word)} {old : State} {s : State}
    (p0 : ∀ (e : Nat × Word), P (e.1))
    (hs : regsOutside P s0 s) : regsOutside P s0 (backWords ws old s) := by
  refine hs.trans ?_
  clear hs
  unfold backWords
  with_reducible repeat' first
    | assumption | exact regsOutside.refl _ _ | apply setReg_regs | apply regsOutside.foldl | (intro) | solve_by_elim

theorem balOpenAll_regs {P : Nat → Prop} {s0 : State} {s : State} (hs : regsOutside P s0 s) :
    regsOutside P s0 (balOpenAll s) :=
  hs.skip (balOpenAll_changes (F := [.bal]) rfl (changesOnly.refl _ _)) (by decide)

theorem balPublish_regs {P : Nat → Prop} {s0 : State} {s : State}
    (p0 : ∀ (b : Nat) (i : Nat), b < 64 → i < 8 → P (16384 + 7680 + 8 * b + i))
    (hs : regsOutside P s0 s) : regsOutside P s0 (balPublish s) := by
  refine hs.trans ?_
  clear hs
  unfold balPublish
  with_reducible repeat' first
    | assumption | exact regsOutside.refl _ _ | apply updBal_regs | apply setReg_regs | apply forN_regs | split
    | (intro) | solve_by_elim

theorem balTryAll_regs {P : Nat → Prop} {s0 : State} {s : State}
    (p0 : ∀ (b : Nat), b < 64 → P (aBal b 5)) (p1 : ∀ (b : Nat), b < 64 → P (rBalEvt b)) (p2 : P (rBbMissed)) (p3 : ∀ (b : Nat), b < 64 → P (aBal b 7))
    (hs : regsOutside P s0 s) : regsOutside P s0 (balTryAll s) := by
  refine hs.trans ?_
  clear hs
  unfold balTryAll
  with_reducible repeat' first
    | assumption | exact regsOutside.refl _ _ | apply balTry_regs | apply forN_regs | (intro) | solve_by_elim

theorem beginFrame_regs {P : Nat → Prop} {s0 : State} {mode3 : Bool} {s : State}
    (p0 : P (rHpFrames))
    (hs : regsOutside P s0 s) : regsOutside P s0 (beginFrame mode3 s) := by
  refine hs.trans ?_
  clear hs
  unfold beginFrame
  with_reducible repeat' first
    | assumption | exact regsOutside.refl _ _ | apply modReg_regs | (intro) | apply regsOutside.set | solve_by_elim

theorem tcChecked_regs {P : Nat → Prop} {s0 : State} {s : State} {n : Nat} {a : Word} {b : Word} (hs : regsOutside P s0 s) :
    regsOutside P s0 (tcChecked s n a b) :=
  hs.skip (tcChecked_changes (F := [.chans]) rfl (changesOnly.refl _ _)) (by decide)

theorem beginStep_regs {P : Nat → Prop} {s0 : State} {n : Nat} {inj : Bool} {i : Nat} {done : Nat} {t16 : Nat} {s : State} (hs : regsOutside P s0 s) :
    regsOutside P s0 (beginStep n inj i done t16 s) :=
  hs.skip (beginStep_changes (F := [.halls, .convs, .chans]) rfl (changesOnly.refl _ _)) (by decide)

theorem bothRun_regs {P : Nat → Prop} {s0 : State} {old : Nat} {s : State}
    (p0 : P (rImgEvt)) (p1 : P (rBbMissed)) (p2 : P (rAudEvt)) (p3 : P (rAudDropped))
    (hs : regsOutside P s0 s) : regsOutside P s0 (bothRun old s) := by
  refine hs.trans ?_
  clear hs
  unfold bothRun
  with_reducible repeat' first
    | assumption | exact regsOutside.refl _ _ | apply raiseBit_regs | apply audit_regs | (intro) | solve_by_elim

theorem busyAnswer_regs {P : Nat → Prop} {s0 : State} {src : Nat} {e : AcyIn} {s : State} (hs : regsOutside P s0 s) :
    regsOutside P s0 (busyAnswer src e s) :=
  hs.skip (busyAnswer_changes (F := [.ml]) rfl (changesOnly.refl _ _)) (by decide)

theorem capUnread_regs {P : Nat → Prop} {s0 : State} {c : CapRec} {s : State}
    (p0 : P (rGalEvt)) (p1 : P (rBbMissed)) (p2 : P (rGalDropped)) (p3 : P (rBbEvt)) (p4 : P (rEccEvt)) (p5 : P (10532))
    (hs : regsOutside P s0 s) : regsOutside P s0 (capUnread c s) := by
  refine hs.trans ?_
  clear hs
  unfold capUnread
  with_reducible repeat' first
    | assumption | exact regsOutside.refl _ _ | apply galDrop_regs | apply retWritten_regs | apply eccSeen_regs
    | apply capDrop_regs | split | (intro) | apply regsOutside.set | solve_by_elim

theorem capSound_regs {P : Nat → Prop} {s0 : State} {s : State}
    (p0 : P (rGalEvt)) (p1 : P (rBbMissed)) (p2 : P (rGalDropped)) (p3 : P (rBbEvt)) (p4 : P (rEccEvt)) (p5 : P (10532))
    (hs : regsOutside P s0 s) : regsOutside P s0 (capSound s) := by
  refine hs.trans ?_
  clear hs
  unfold capSound
  with_reducible repeat' first
    | assumption | exact regsOutside.refl _ _ | apply capUnread_regs | apply regsOutside.foldl
    | apply regsOutside.iteL | apply regsOutside.ite | split | (intro) | solve_by_elim

theorem cfgDiverged_regs {P : Nat → Prop} {s0 : State} {s : State}
    (p0 : P (rPairEvt)) (p1 : P (rBbMissed))
    (hs : regsOutside P s0 s) : regsOutside P s0 (cfgDiverged s) := by
  refine hs.trans ?_
  clear hs
  unfold cfgDiverged
  with_reducible repeat' first
    | assumption | exact regsOutside.refl _ _ | apply pairEvent_regs | apply updPair_regs | apply regsOutside.iteL
    | apply regsOutside.ite | split | (intro) | solve_by_elim

theorem chOutWrite_regs {P : Nat → Prop} {s0 : State} {h : Nat} {c : Nat} {s : State}
    (p0 : ∀ a, hallRegs h a → P a) (p1 : P (rBbMissed))
    (hs : regsOutside P s0 s) : regsOutside P s0 (chOutWrite h c s) := by
  refine hs.trans ?_
  clear hs
  unfold chOutWrite
  with_reducible repeat' first
    | assumption | exact regsOutside.refl _ _ | apply report_regs | apply applyCommand_regs | apply regsOutside.iteL
    | apply regsOutside.ite | split | (intro) | solve_by_elim

theorem chStateAt_regs {P : Nat → Prop} {s0 : State} {time : Nat} {h : Nat} {c : Nat} {b : Bool} {s : State} (hs : regsOutside P s0 s) :
    regsOutside P s0 (chStateAt time h c b s) :=
  hs.skip (chStateAt_changes (F := [.chans]) rfl (changesOnly.refl _ _)) (by decide)

theorem chState_regs {P : Nat → Prop} {s0 : State} {h : Nat} {c : Nat} {b : Bool} {s : State} (hs : regsOutside P s0 s) :
    regsOutside P s0 (chState h c b s) :=
  hs.skip (chState_changes (F := [.chans]) rfl (changesOnly.refl _ _)) (by decide)

theorem updChip_regs {P : Nat → Prop} {s0 : State} {i : Nat} {f : NvChip → NvChip} {s : State} (hs : regsOutside P s0 s) :
    regsOutside P s0 (updChip i f s) :=
  hs.skip (updChip_changes (F := [.nv]) rfl (changesOnly.refl _ _)) (by decide)

theorem failChip_regs {P : Nat → Prop} {s0 : State} {i : Nat} {s : State}
    (p0 : P (rNvEvt)) (p1 : P (rBbMissed))
    (hs : regsOutside P s0 s) : regsOutside P s0 (failChip i s) := by
  refine hs.trans ?_
  clear hs
  unfold failChip
  with_reducible repeat' first
    | assumption | exact regsOutside.refl _ _ | apply raiseBit_regs | apply updChip_regs | apply regsOutside.iteL
    | apply regsOutside.ite | split | (intro) | apply regsOutside.set | solve_by_elim

end Sys2Proof.Machine
end

