-- ==== Sys2Proof/Laws/RegFrames6.lean ====
section
/-! SUPPORT. Which registers each shared operation changes at most (part 7 of 11). -/

set_option linter.unusedTactic false
set_option linter.unreachableTactic false

namespace Sys2Proof.Machine

theorem chipResult_regs {P : Nat → Prop} {s0 : State} {i : Nat} {ok : Bool} {s : State}
    (p0 : P (rNvEvt)) (p1 : P (rBbMissed))
    (hs : regsOutside P s0 s) : regsOutside P s0 (chipResult i ok s) := by
  refine hs.trans ?_
  clear hs
  unfold chipResult
  with_reducible repeat' first
    | assumption | exact regsOutside.refl _ _ | apply updChip_regs | apply failChip_regs | apply regsOutside.iteL
    | apply regsOutside.ite | split | (intro) | solve_by_elim

theorem ckptBegin_regs {P : Nat → Prop} {s0 : State} {m : Nat} {c : TotCopy} {commit : Bool} {op : Nat} {s : State} (hs : regsOutside P s0 s) :
    regsOutside P s0 (ckptBegin m c commit op s) :=
  hs.skip (ckptBegin_changes (F := [.nv, .jnl, .mem, .gal]) rfl (changesOnly.refl _ _)) (by decide)

theorem shadowWrite_regs {P : Nat → Prop} {s0 : State} {m : Nat} {s : State} (hs : regsOutside P s0 s) :
    regsOutside P s0 (shadowWrite m s) :=
  hs.skip (shadowWrite_changes (F := [.mem, .runs]) rfl (changesOnly.refl _ _)) (by decide)

theorem ckptTick_regs {P : Nat → Prop} {s0 : State} {n : Nat} {s : State} (hs : regsOutside P s0 s) :
    regsOutside P s0 (ckptTick n s) :=
  hs.skip (ckptTick_changes (F := [.mem, .runs, .nv, .jnl, .gal]) rfl (changesOnly.refl _ _)) (by decide)

theorem ckptsBegin_regs {P : Nat → Prop} {s0 : State} {op : Nat} {recs : List (List Byte)} {s : State} (hs : regsOutside P s0 s) :
    regsOutside P s0 (ckptsBegin op recs s) :=
  hs.skip (ckptsBegin_changes (F := [.nv, .jnl, .mem, .gal]) rfl (changesOnly.refl _ _)) (by decide)

theorem clampNote_regs {P : Nat → Prop} {s0 : State} {a : Nat} {before : Word} {after : Word} {s : State}
    (p0 : P (rHpEvt)) (p1 : P (rBbMissed)) (p2 : P (rHpClamp))
    (hs : regsOutside P s0 s) : regsOutside P s0 (clampNote a before after s) := by
  refine hs.trans ?_
  clear hs
  unfold clampNote
  with_reducible repeat' first
    | assumption | exact regsOutside.refl _ _ | apply cfgClamp_regs | apply regsOutside.iteL | apply regsOutside.ite
    | split | (intro) | solve_by_elim

theorem startRamp_regs {P : Nat → Prop} {s0 : State} {h : Nat} {c : Nat} {v : Nat} {rank : Nat} {s : State} (hs : regsOutside P s0 s) :
    regsOutside P s0 (startRamp h c v rank s) :=
  hs.skip (startRamp_changes (F := [.chans]) rfl (changesOnly.refl _ _)) (by decide)

theorem leaveSafe_regs {P : Nat → Prop} {s0 : State} {l : Latch} {h : Nat} {c : Nat} {s : State} (hs : regsOutside P s0 s) :
    regsOutside P s0 (leaveSafe l h c s) :=
  hs.skip (leaveSafe_changes (F := [.chans]) rfl (changesOnly.refl _ _)) (by decide)

theorem leaveAll_regs {P : Nat → Prop} {s0 : State} {l : Latch} {h : Nat} {s : State} (hs : regsOutside P s0 s) :
    regsOutside P s0 (leaveAll l h s) :=
  hs.skip (leaveAll_changes (F := [.halls, .chans]) rfl (changesOnly.refl _ _)) (by decide)

theorem forceSafe_regs {P : Nat → Prop} {s0 : State} {h : Nat} {b : Bool} {s : State}
    (p0 : ∀ a, hallRegs h a → P a) (p1 : P (rBbMissed))
    (hs : regsOutside P s0 s) : regsOutside P s0 (forceSafe h b s) := by
  refine hs.trans ?_
  clear hs
  unfold forceSafe
  with_reducible repeat' first
    | assumption | exact regsOutside.refl _ _ | apply report_regs | apply resolveAll_regs | apply hallFlag_regs
    | apply leaveAll_regs | apply regsOutside.iteL | apply regsOutside.ite | split | (intro) | solve_by_elim

theorem poutWrite_regs {P : Nat → Prop} {s0 : State} {m : Nat} {j : Nat} {before : Word × Word} {s : State}
    (p0 : P (rHpEvt)) (p1 : P (rBbMissed)) (p2 : P (rHpClamp)) (p3 : P (aRun m 49))
    (hs : regsOutside P s0 s) : regsOutside P s0 (poutWrite m j before s) := by
  refine hs.trans ?_
  clear hs
  unfold poutWrite
  with_reducible repeat' first
    | assumption | exact regsOutside.refl _ _ | apply cfgClamp_regs | apply setReg_regs | apply regsOutside.iteL
    | apply regsOutside.ite | split | (intro) | apply regsOutside.set | solve_by_elim

theorem syncOutOff_regs {P : Nat → Prop} {s0 : State} {s : State} (hs : regsOutside P s0 s) :
    regsOutside P s0 (syncOutOff s) :=
  hs.skip (syncOutOff_changes (F := [.sync, .pins]) rfl (changesOnly.refl _ _)) (by decide)

theorem nameStream_regs {P : Nat → Prop} {s0 : State} {k : Nat} {s : State} (hs : regsOutside P s0 s) :
    regsOutside P s0 (nameStream k s) :=
  hs.skip (nameStream_changes (F := [.str]) rfl (changesOnly.refl _ _)) (by decide)

theorem seekTo_regs {P : Nat → Prop} {s0 : State} {k : Nat} {p : Nat} {s : State}
    (p0 : P (rHpEvt)) (p1 : P (rBbMissed)) (p2 : P (rHpClamp))
    (hs : regsOutside P s0 s) : regsOutside P s0 (seekTo k p s) := by
  refine hs.trans ?_
  clear hs
  unfold seekTo
  with_reducible repeat' first
    | assumption | exact regsOutside.refl _ _ | apply setStrPos_regs | apply cfgClamp_regs | apply regsOutside.iteL
    | apply regsOutside.ite | split | (intro) | solve_by_elim

theorem imgSeek_regs {P : Nat → Prop} {s0 : State} {v : Nat} {s : State}
    (p0 : ∀ (m : Nat), P (aTot (m % 8) 29)) (p1 : ∀ (m : Nat), P (rTotEvt (m % 8))) (p2 : P (rBbMissed)) (p3 : P (rPerEvt)) (p4 : P (rGalEvt)) (p5 : P (rGalDropped)) (p6 : P (rImgEvt))
    (hs : regsOutside P s0 s) : regsOutside P s0 (imgSeek v s) := by
  refine hs.trans ?_
  clear hs
  unfold imgSeek
  with_reducible repeat' first
    | assumption | exact regsOutside.refl _ _ | apply updImg_regs | apply pageFlush_regs | apply regsOutside.iteL
    | apply regsOutside.ite | split | (intro) | solve_by_elim

theorem clearDeliveries_regs {P : Nat → Prop} {s0 : State} {s : State} (hs : regsOutside P s0 s) :
    regsOutside P s0 (clearDeliveries s) :=
  hs.skip (clearDeliveries_changes (F := [.chans]) rfl (changesOnly.refl _ _)) (by decide)

theorem countWrite_regs {P : Nat → Prop} {s0 : State} {s : State} (hs : regsOutside P s0 s) :
    regsOutside P s0 (countWrite s) :=
  hs.skip (countWrite_changes (F := [.aud]) rfl (changesOnly.refl _ _)) (by decide)

theorem forwardWrite_regs {P : Nat → Prop} {s0 : State} {o : Origin} {d : RegDesc} {a : Nat} {mask : Word} {v : Word} {s : State} (hs : regsOutside P s0 s) :
    regsOutside P s0 (forwardWrite o d a mask v s) :=
  hs.skip (forwardWrite_changes (F := [.tx, .pair]) rfl (changesOnly.refl _ _)) (by decide)

theorem hostRefused_regs {P : Nat → Prop} {s0 : State} {reason : Nat} {a : Nat} {s : State}
    (p0 : P (rHpRej)) (p1 : P (rHpEvt)) (p2 : P (rBbMissed))
    (hs : regsOutside P s0 s) : regsOutside P s0 (hostRefused reason a s) := by
  refine hs.trans ?_
  clear hs
  unfold hostRefused
  with_reducible repeat' first
    | assumption | exact regsOutside.refl _ _ | apply setReg_regs | apply raiseBit_regs | apply regsOutside.iteL
    | apply regsOutside.ite | split | (intro) | apply regsOutside.set | solve_by_elim

theorem codeFlags_regs {P : Nat → Prop} {s0 : State} {h : Nat} {c : Nat} {code : Word} {gain : Nat} {s : State} (hs : regsOutside P s0 s) :
    regsOutside P s0 (codeFlags h c code gain s) :=
  hs.skip (codeFlags_changes (F := [.chans]) rfl (changesOnly.refl _ _)) (by decide)

theorem coldJunctions_regs {P : Nat → Prop} {s0 : State} {s : State}
    (p0 : ∀ (h : Nat), h < 8 → ∀ a, hallRegs h a → P a) (p1 : P (rBbMissed))
    (hs : regsOutside P s0 s) : regsOutside P s0 (coldJunctions s) := by
  refine hs.trans ?_
  clear hs
  unfold coldJunctions
  with_reducible repeat' first
    | assumption | exact regsOutside.refl _ _ | apply report_regs | apply ainFlag_regs | apply forHalls_regs
    | apply forChans_regs | apply regsOutside.iteL | apply regsOutside.ite | split | (intro) | solve_by_elim

theorem commitAudit_regs {P : Nat → Prop} {s0 : State} {s : State}
    (p0 : P (rAudEvt)) (p1 : P (rBbMissed)) (p2 : P (rAudDropped))
    (hs : regsOutside P s0 s) : regsOutside P s0 (commitAudit s) := by
  refine hs.trans ?_
  clear hs
  unfold commitAudit
  with_reducible repeat' first
    | assumption | exact regsOutside.refl _ _ | apply audit_regs | apply regsOutside.foldl | (intro) | solve_by_elim

theorem commitCapture_regs {P : Nat → Prop} {s0 : State} {s : State}
    (p0 : P (rBbMissed)) (p1 : P (rBbEvt)) (p2 : P (rEccEvt)) (p3 : P (10532))
    (hs : regsOutside P s0 s) : regsOutside P s0 (commitCapture s) := by
  refine hs.trans ?_
  clear hs
  unfold commitCapture
  with_reducible repeat' first
    | assumption | exact regsOutside.refl _ _ | apply capPut_regs | apply eccSeen_regs | apply ckptBegin_regs
    | apply regsOutside.foldl | apply regsOutside.iteL | apply regsOutside.ite | split | (intro) | solve_by_elim

theorem commitForward_regs {P : Nat → Prop} {s0 : State} {s : State} (hs : regsOutside P s0 s) :
    regsOutside P s0 (commitForward s) :=
  hs.skip (commitForward_changes (F := [.tx, .pair]) rfl (changesOnly.refl _ _)) (by decide)

theorem commitRefused_regs {P : Nat → Prop} {s0 : State} {r : Nat × Nat} {s : State}
    (p0 : P (rHpEvt)) (p1 : P (rBbMissed))
    (hs : regsOutside P s0 s) : regsOutside P s0 (commitRefused r s) := by
  refine hs.trans ?_
  clear hs
  unfold commitRefused
  with_reducible repeat' first
    | assumption | exact regsOutside.refl _ _ | apply raiseBit_regs | apply updStg_regs | (intro) | solve_by_elim

theorem commitLate_regs {P : Nat → Prop} {s0 : State} {s : State}
    (p0 : P (rHpEvt)) (p1 : P (rBbMissed)) (p2 : P (rPairEvt))
    (hs : regsOutside P s0 s) : regsOutside P s0 (commitLate s) := by
  refine hs.trans ?_
  clear hs
  unfold commitLate
  with_reducible repeat' first
    | assumption | exact regsOutside.refl _ _ | apply commitRefused_regs | apply jClose_regs | apply cfgDiverged_regs
    | apply regsOutside.iteL | apply regsOutside.ite | split | (intro) | solve_by_elim

theorem commitOpen_regs {P : Nat → Prop} {s0 : State} {s : State} (hs : regsOutside P s0 s) :
    regsOutside P s0 (commitOpen s) :=
  hs.skip (commitOpen_changes (F := [.tx, .pair, .stg, .nv, .jnl, .mem]) rfl (changesOnly.refl _ _)) (by decide)

theorem complFlags_regs {P : Nat → Prop} {s0 : State} {h : Nat} {x : Sample} {s : State} (hs : regsOutside P s0 s) :
    regsOutside P s0 (complFlags h x s) :=
  hs.skip (complFlags_changes (F := [.halls]) rfl (changesOnly.refl _ _)) (by decide)

theorem pulseOut_regs {P : Nat → Prop} {s0 : State} {m : Nat} {q : Nat × Nat × Nat} {alarm : Bool} {s : State}
    (p0 : P (aRun m 70)) (p1 : P (aRun m 71))
    (hs : regsOutside P s0 s) : regsOutside P s0 (pulseOut m q alarm s).1 := by
  refine hs.trans ?_
  clear hs
  unfold pulseOut
  with_reducible repeat' first
    | assumption | exact regsOutside.refl _ _ | apply updRun_regs | apply setReg_regs | apply modReg_regs
    | apply regsOutside.iteL | apply regsOutside.ite | split | (intro) | solve_by_elim

theorem totalize_regs {P : Nat → Prop} {s0 : State} {m : Nat} {tick : Nat} {q : (Nat × Nat × Nat) × Bool} {alarm : Bool} {s : State}
    (p0 : P (rTotEvt m)) (p1 : P (rBbMissed))
    (hs : regsOutside P s0 s) : regsOutside P s0 (totalize m tick q alarm s) := by
  refine hs.trans ?_
  clear hs
  unfold totalize
  with_reducible repeat' first
    | assumption | exact regsOutside.refl _ _ | apply liveWrite_regs | apply updRun_regs | apply raiseBit_regs
    | apply markRun_regs | apply regsOutside.iteL | apply regsOutside.ite | split | (intro) | solve_by_elim

theorem runStatus_regs {P : Nat → Prop} {s0 : State} {m : Nat} {w : Word} {again : Word} {s : State}
    (p0 : P (rRunEvt m)) (p1 : P (rBbMissed)) (p2 : P (rRunStatus m))
    (hs : regsOutside P s0 s) : regsOutside P s0 (runStatus m w again s) := by
  refine hs.trans ?_
  clear hs
  unfold runStatus
  with_reducible repeat' first
    | assumption | exact regsOutside.refl _ _ | apply raiseEvt_regs | apply setReg_regs | (intro) | solve_by_elim

theorem runCycles_regs {P : Nat → Prop} {s0 : State} {m : Nat} {cycles : Nat} {completed : Bool} {s : State}
    (p0 : P (aRun m 68))
    (hs : regsOutside P s0 s) : regsOutside P s0 (runCycles m cycles completed s) := by
  refine hs.trans ?_
  clear hs
  unfold runCycles
  with_reducible repeat' first
    | assumption | exact regsOutside.refl _ _ | apply modReg_regs | apply regsOutside.iteL | apply regsOutside.ite
    | split | (intro) | solve_by_elim

theorem completeRun_regs {P : Nat → Prop} {s0 : State} {m : Nat} {cycles : Nat} {o : RunOut} {f : Option (Nat × Bool)} {i : Option (Nat × Bool)} {s : State}
    (p0 : P (aRun m 70)) (p1 : P (aRun m 71)) (p2 : P (rTotEvt m)) (p3 : P (rBbMissed)) (p4 : P (rRunEvt m)) (p5 : P (rRunStatus m)) (p6 : P (aRun m 68)) (p7 : P (aRun m 72)) (p8 : ∀ (j : Nat), j < 17 → P (aRun m (73 + j))) (p9 : ∀ (b : Nat), b < 64 → P (rBalEvt b)) (p10 : ∀ (b : Nat), b < 64 → P (aBal b 5)) (p11 : ∀ (b : Nat), b < 64 → P (aBal b 7))
    (hs : regsOutside P s0 s) : regsOutside P s0 (completeRun m cycles o f i s) := by
  refine hs.trans ?_
  clear hs
  unfold completeRun
  with_reducible repeat' first
    | assumption | exact regsOutside.refl _ _ | apply updRun_regs | apply pulseOut_regs | apply totalize_regs
    | apply runStatus_regs | apply runCycles_regs | apply setReg_regs | apply afterRun_regs | apply forN_regs
    | apply regsOutside.iteL | apply regsOutside.ite | split | (intro) | solve_by_elim

theorem configCommit_regs {P : Nat → Prop} {s0 : State} {v : Nat} {s : State} (hs : regsOutside P s0 s) :
    regsOutside P s0 (configCommit v s) :=
  hs.skip (configCommit_changes (F := [.stg, .nv, .jnl, .mem]) rfl (changesOnly.refl _ _)) (by decide)

theorem tellStaged_regs {P : Nat → Prop} {s0 : State} {s : State} (hs : regsOutside P s0 s) :
    regsOutside P s0 (tellStaged s) :=
  hs.skip (tellStaged_changes (F := [.tx, .pair]) rfl (changesOnly.refl _ _)) (by decide)

theorem confirmRing_regs {P : Nat → Prop} {s0 : State} {r : Nat} {s : State} (hs : regsOutside P s0 s) :
    regsOutside P s0 (confirmRing r s) :=
  hs.skip (confirmRing_changes (F := [.gal]) rfl (changesOnly.refl _ _)) (by decide)

theorem confirmRings_regs {P : Nat → Prop} {s0 : State} {s : State} (hs : regsOutside P s0 s) :
    regsOutside P s0 (confirmRings s) :=
  hs.skip (confirmRings_changes (F := [.gal]) rfl (changesOnly.refl _ _)) (by decide)

theorem copyPoints_regs {P : Nat → Prop} {s0 s : State} {src : Nat} {l : List (Nat × List Word)} (p0 : ∀ i, i < 1024 → P (0x4000 + i))
    (hs : regsOutside P s0 s) : regsOutside P s0 (copyPoints src l s) := by
  unfold copyPoints
  refine forN_regs (fun e t _ => ?_) hs
  dsimp only
  split
  · have hu : ∀ vals : List (Option Word), regsOutside P t (forN (subEntry t e).2.1 (fun i u =>
        match vals.getD i none with
        | some v => putSub (subBase t e + i) v u
        | none => u) t) := fun vals => forN_regs (fun i u _ => by
      split
      · exact putSub_regs p0 (regsOutside.refl _ _)
      · exact regsOutside.refl _ _) (regsOutside.refl _ _)
    split
    · exact updMl_regs (hu _)
    · exact hu _
  · exact regsOutside.refl _ _

theorem countEdge_regs {P : Nat → Prop} {s0 : State} {h : Nat} {c : Nat} {n : Nat} {k : Nat} {time : Nat} {s : State} (hs : regsOutside P s0 s) :
    regsOutside P s0 (countEdge h c n k time s) :=
  hs.skip (countEdge_changes (F := [.chans]) rfl (changesOnly.refl _ _)) (by decide)

theorem crossingFull_regs {P : Nat → Prop} {s0 : State} {row : Nat} {s : State}
    (p0 : P (rEccEvt)) (p1 : P (rBbMissed)) (p2 : P (10544))
    (hs : regsOutside P s0 s) : regsOutside P s0 (crossingFull row s) := by
  refine hs.trans ?_
  clear hs
  unfold crossingFull
  with_reducible repeat' first
    | assumption | exact regsOutside.refl _ _ | apply raiseBit_regs | apply modReg_regs | (intro) | solve_by_elim

theorem latchOff_regs {P : Nat → Prop} {s0 : State} {l : Latch} {h : Nat} {c : Nat} {s : State} (hs : regsOutside P s0 s) :
    regsOutside P s0 (latchOff l h c s) :=
  hs.skip (latchOff_changes (F := [.chans]) rfl (changesOnly.refl _ _)) (by decide)

theorem cutLatch_regs {P : Nat → Prop} {s0 : State} {h : Nat} {c : Nat} {s : State} (hs : regsOutside P s0 s) :
    regsOutside P s0 (cutLatch h c s) :=
  hs.skip (cutLatch_changes (F := [.chans]) rfl (changesOnly.refl _ _)) (by decide)

theorem cutRetry_regs {P : Nat → Prop} {s0 : State} {h : Nat} {c : Nat} {s : State} (hs : regsOutside P s0 s) :
    regsOutside P s0 (cutRetry h c s) :=
  hs.skip (cutRetry_changes (F := [.chans]) rfl (changesOnly.refl _ _)) (by decide)

theorem takeTotals_regs {P : Nat → Prop} {s0 : State} {n : Nat} {accs : List (List Acc)} {quiet : Bool} {s : State}
    (p0 : P (rAudEvt)) (p1 : P (rBbMissed)) (p2 : P (rAudDropped)) (p3 : ∀ (m : Nat), m < 8 → P (rTotEvt m)) (p4 : ∀ (m : Nat), m < 8 → P (aTot m 26))
    (hs : regsOutside P s0 s) : regsOutside P s0 (takeTotals n accs quiet s) := by
  refine hs.trans ?_
  clear hs
  unfold takeTotals
  with_reducible repeat' first
    | assumption | exact regsOutside.refl _ _ | apply adopt_regs | apply forN_regs | apply regsOutside.iteL
    | apply regsOutside.ite | split | (intro) | solve_by_elim

theorem diverge_regs {P : Nat → Prop} {s0 : State} {n : Nat} {accs : Option (List (List Acc))} {s : State}
    (p0 : P (rAudEvt)) (p1 : P (rBbMissed)) (p2 : P (rAudDropped)) (p3 : ∀ (m : Nat), m < 8 → P (rTotEvt m)) (p4 : ∀ (m : Nat), m < 8 → P (aTot m 26)) (p5 : P (rPairEvt))
    (hs : regsOutside P s0 s) : regsOutside P s0 (diverge n accs s) := by
  refine hs.trans ?_
  clear hs
  unfold diverge
  with_reducible repeat' first
    | assumption | exact regsOutside.refl _ _ | apply updPair_regs | apply takeTotals_regs | apply askCarried_regs
    | apply pairEvent_regs | split | (intro) | solve_by_elim

theorem dropReload_regs {P : Nat → Prop} {s0 : State} {h : Nat} {s : State} (hs : regsOutside P s0 s) :
    regsOutside P s0 (dropReload h s) :=
  hs.skip (dropReload_changes (F := [.img]) rfl (changesOnly.refl _ _)) (by decide)

theorem sendEcho_regs {P : Nat → Prop} {s0 : State} {p : Nat} {s : State} (hs : regsOutside P s0 s) :
    regsOutside P s0 (sendEcho p s) :=
  hs.skip (sendEcho_changes (F := [.ml, .tx]) rfl (changesOnly.refl _ _)) (by decide)

theorem moveTo_regs {P : Nat → Prop} {s0 : State} {t : Nat} {s : State} (hs : regsOutside P s0 s) :
    regsOutside P s0 (moveTo t s) :=
  hs.skip (moveTo_changes (F := [.time]) rfl (changesOnly.refl _ _)) (by decide)

theorem toReserve_regs {P : Nat → Prop} {s0 : State} {s : State} (hs : regsOutside P s0 s) :
    regsOutside P s0 (toReserve s) :=
  hs.skip (toReserve_changes (F := [.time]) rfl (changesOnly.refl _ _)) (by decide)

theorem dueEchoes_regs {P : Nat → Prop} {s0 : State} {s : State} (hs : regsOutside P s0 s) :
    regsOutside P s0 (dueEchoes s) :=
  hs.skip (dueEchoes_changes (F := [.ml, .tx, .time]) rfl (changesOnly.refl _ _)) (by decide)

end Sys2Proof.Machine
end

