-- ==== Sys2Proof/Laws/RegFrames7.lean ====
section
/-! SUPPORT. Which registers each shared operation changes at most (part 8 of 11). -/

set_option linter.unusedTactic false
set_option linter.unreachableTactic false

namespace Sys2Proof.Machine

theorem eccCorrected_regs {P : Nat → Prop} {s0 s : State} {m : MemId} (p0 : P 0x2922) (p1 : P 0x2923) (p2 : P rEccEvt) (p3 : P rBbMissed)
    (hs : regsOutside P s0 s) : regsOutside P s0 (eccCorrected m s) := by
  unfold eccCorrected
  refine raiseBit_regs p2 p3 ?_
  cases m <;> exact modReg_regs (by assumption) hs

theorem eccEvent_regs {P : Nat → Prop} {s0 : State} {i : Nat} {s : State}
    (p0 : P (rEccEvt)) (p1 : P (rBbMissed))
    (hs : regsOutside P s0 s) : regsOutside P s0 (eccEvent i s) := by
  refine hs.trans ?_
  clear hs
  unfold eccEvent
  with_reducible repeat' first
    | assumption | exact regsOutside.refl _ _ | apply raiseBit_regs | apply regsOutside.iteL | apply regsOutside.ite
    | split | (intro) | solve_by_elim

theorem eccMark_regs {P : Nat → Prop} {s0 : State} {mem : Nat} {word : Nat} {s : State} (hs : regsOutside P s0 s) :
    regsOutside P s0 (eccMark mem word s) :=
  hs.skip (eccMark_changes (F := [.mem]) rfl (changesOnly.refl _ _)) (by decide)

theorem reloadIdle_regs {P : Nat → Prop} {s0 : State} {s : State} (hs : regsOutside P s0 s) :
    regsOutside P s0 (reloadIdle s) :=
  hs.skip (reloadIdle_changes (F := [.mem]) rfl (changesOnly.refl _ _)) (by decide)

theorem galIntervals_regs {P : Nat → Prop} {s0 : State} {n : Nat} {s : State}
    (p0 : P (rGalEvt)) (p1 : P (rBbMissed)) (p2 : P (rGalDropped)) (p3 : P (rBbEvt)) (p4 : P (rEccEvt)) (p5 : P (10532))
    (hs : regsOutside P s0 s) : regsOutside P s0 (galIntervals n s) := by
  refine hs.trans ?_
  clear hs
  unfold galIntervals
  with_reducible repeat' first
    | assumption | exact regsOutside.refl _ _ | apply galInterval_regs | apply regsOutside.iteL
    | apply regsOutside.ite | split | (intro) | solve_by_elim

theorem periodEnd_regs {P : Nat → Prop} {s0 : State} {n : Nat} {s : State}
    (p0 : P (rPerEvt)) (p1 : P (rBbMissed)) (p2 : P (rGalEvt)) (p3 : P (rGalDropped)) (p4 : P (8708)) (p5 : P (8709)) (p6 : P (8710))
    (hs : regsOutside P s0 s) : regsOutside P s0 (periodEnd n s) := by
  refine hs.trans ?_
  clear hs
  unfold periodEnd
  with_reducible repeat' first
    | assumption | exact regsOutside.refl _ _ | apply closeKinds_regs | apply regsOutside.iteL
    | apply regsOutside.ite | split | (intro) | solve_by_elim

theorem galBlocks_regs {P : Nat → Prop} {s0 : State} {n : Nat} {s : State}
    (p0 : P (rGalEvt)) (p1 : P (rBbMissed)) (p2 : P (rGalDropped)) (p3 : P (rBbEvt)) (p4 : P (rEccEvt)) (p5 : P (10532))
    (hs : regsOutside P s0 s) : regsOutside P s0 (galBlocks n s) := by
  refine hs.trans ?_
  clear hs
  unfold galBlocks
  with_reducible repeat' first
    | assumption | exact regsOutside.refl _ _ | apply galFlush_regs | apply regsOutside.iteL | apply regsOutside.ite
    | split | (intro) | solve_by_elim

theorem endTick_regs {P : Nat → Prop} {s0 : State} {s : State}
    (p0 : P (rGalEvt)) (p1 : P (rBbMissed)) (p2 : P (rGalDropped)) (p3 : P (rBbEvt)) (p4 : P (rEccEvt)) (p5 : P (10532)) (p6 : P (rPerEvt)) (p7 : P (8708)) (p8 : P (8709)) (p9 : P (8710)) (p10 : ∀ (m : Nat), P (aTot (m % 8) 29)) (p11 : ∀ (m : Nat), P (rTotEvt (m % 8))) (p12 : P (rImgEvt))
    (hs : regsOutside P s0 s) : regsOutside P s0 (endTick s) := by
  refine hs.trans ?_
  clear hs
  unfold endTick
  with_reducible repeat' first
    | assumption | exact regsOutside.refl _ _ | apply galIntervals_regs | apply ckptTick_regs | apply periodEnd_regs
    | apply jobsLost_regs | apply galBlocks_regs | (intro) | apply regsOutside.set | solve_by_elim

theorem eraseDamaged_regs {P : Nat → Prop} {s0 : State} {slot : Nat} {s : State} (hs : regsOutside P s0 s) :
    regsOutside P s0 (eraseDamaged slot s) :=
  hs.skip (eraseDamaged_changes (F := [.nv]) rfl (changesOnly.refl _ _)) (by decide)

theorem expiredEvt_regs {P : Nat → Prop} {s0 : State} {s : State}
    (p0 : P (rWdEvt)) (p1 : P (rBbMissed))
    (hs : regsOutside P s0 s) : regsOutside P s0 (expiredEvt s) := by
  refine hs.trans ?_
  clear hs
  unfold expiredEvt
  with_reducible repeat' first
    | assumption | exact regsOutside.refl _ _ | apply raiseBit_regs | apply regsOutside.iteL | apply regsOutside.ite
    | split | (intro) | solve_by_elim

theorem extDetected_regs {P : Nat → Prop} {s0 : State} {h : Nat} {c : Nat} {s : State} (hs : regsOutside P s0 s) :
    regsOutside P s0 (extDetected h c s) :=
  hs.skip (extDetected_changes (F := [.chans]) rfl (changesOnly.refl _ _)) (by decide)

theorem stgEmpty_regs {P : Nat → Prop} {s0 : State} {s : State} (hs : regsOutside P s0 s) :
    regsOutside P s0 (stgEmpty s) :=
  hs.skip (stgEmpty_changes (F := [.stg, .jnl, .nv]) rfl (changesOnly.refl _ _)) (by decide)

theorem roleChange_regs {P : Nat → Prop} {s0 : State} {active : Bool} {s : State}
    (p0 : P (rPairEvt)) (p1 : P (rBbMissed))
    (hs : regsOutside P s0 s) : regsOutside P s0 (roleChange active s) := by
  refine hs.trans ?_
  clear hs
  unfold roleChange
  with_reducible repeat' first
    | assumption | exact regsOutside.refl _ _ | apply updPair_regs | apply pairEvent_regs | apply bbEvent_regs
    | apply stgEmpty_regs | apply regsOutside.iteL | apply regsOutside.ite | split | (intro) | apply regsOutside.set
    | solve_by_elim

theorem outputActive_regs {P : Nat → Prop} {s0 : State} {h : Nat} {c : Nat} {s : State} (hs : regsOutside P s0 s) :
    regsOutside P s0 (outputActive h c s) :=
  hs.skip (outputActive_changes (F := [.chans]) rfl (changesOnly.refl _ _)) (by decide)

theorem outputsActive_regs {P : Nat → Prop} {s0 : State} {s : State}
    (p0 : ∀ (h : Nat), h < 8 → ∀ a, hallRegs h a → P a) (p1 : P (rBbMissed))
    (hs : regsOutside P s0 s) : regsOutside P s0 (outputsActive s) := by
  refine hs.trans ?_
  clear hs
  unfold outputsActive
  with_reducible repeat' first
    | assumption | exact regsOutside.refl _ _ | apply report_regs | apply outputActive_regs | apply forHalls_regs
    | apply forChans_regs | apply regsOutside.iteL | apply regsOutside.ite | split | (intro) | solve_by_elim

theorem inputsActive_regs {P : Nat → Prop} {s0 : State} {a : Nat} {e : Nat} {s : State} (hs : regsOutside P s0 s) :
    regsOutside P s0 (inputsActive a e s) :=
  hs.skip (inputsActive_changes (F := [.chans, .convs, .halls]) rfl (changesOnly.refl _ _)) (by decide)

theorem hoRollBack_regs {P : Nat → Prop} {s0 : State} {s : State}
    (p0 : ∀ (h : Nat), h < 8 → ∀ a, hallRegs h a → P a) (p1 : P (rPairEvt)) (p2 : P (rBbMissed))
    (hs : regsOutside P s0 s) : regsOutside P s0 (hoRollBack s) := by
  refine hs.trans ?_
  clear hs
  unfold hoRollBack
  with_reducible repeat' first
    | assumption | exact regsOutside.refl _ _ | apply jClose_regs | apply updPair_regs | apply pairEvent_regs
    | apply outputsActive_regs | apply inputsActive_regs | apply regsOutside.iteL | apply regsOutside.ite | split
    | (intro) | solve_by_elim

theorem fenceNow_regs {P : Nat → Prop} {s0 : State} {s : State}
    (p0 : ∀ (h : Nat), h < 8 → ∀ a, hallRegs h a → P a) (p1 : P (rBbMissed)) (p2 : P (rPairEvt))
    (hs : regsOutside P s0 s) : regsOutside P s0 (fenceNow s) := by
  refine hs.trans ?_
  clear hs
  unfold fenceNow
  with_reducible repeat' first
    | assumption | exact regsOutside.refl _ _ | apply allStandby_regs | apply roleChange_regs | apply hoRollBack_regs
    | apply pairEvent_regs | apply updPair_regs | (intro) | solve_by_elim

theorem openFlags_regs {P : Nat → Prop} {s0 : State} {h : Nat} {c : Nat} {x : Sample} {s : State} (hs : regsOutside P s0 s) :
    regsOutside P s0 (openFlags h c x s) :=
  hs.skip (openFlags_changes (F := [.chans]) rfl (changesOnly.refl _ _)) (by decide)

theorem resultEvents_regs {P : Nat → Prop} {s0 : State} {n : Nat} {ovr : Bool} {recov : Bool} {s : State}
    (p0 : P (rCvEvt n)) (p1 : P (rBbMissed))
    (hs : regsOutside P s0 s) : regsOutside P s0 (resultEvents n ovr recov s) := by
  refine hs.trans ?_
  clear hs
  unfold resultEvents
  with_reducible repeat' first
    | assumption | exact regsOutside.refl _ _ | apply raiseBit_regs | apply regsOutside.iteL | apply regsOutside.ite
    | split | (intro) | solve_by_elim

theorem gainDone_regs {P : Nat → Prop} {s0 : State} {own : Nat} {k : Nat} {gain : Nat} {limit : Nat} {auto : Bool} {ovr : Bool} {code : Word} {s : State} (hs : regsOutside P s0 s) :
    regsOutside P s0 (gainDone own k gain limit auto ovr code s) :=
  hs.skip (gainDone_changes (F := [.convs]) rfl (changesOnly.refl _ _)) (by decide)

theorem setClass_regs {P : Nat → Prop} {s0 : State} {h : Nat} {c : Nat} {k : Nat} {s : State} (hs : regsOutside P s0 s) :
    regsOutside P s0 (setClass h c k s) :=
  hs.skip (setClass_changes (F := [.chans]) rfl (changesOnly.refl _ _)) (by decide)

theorem pulsTake_regs {P : Nat → Prop} {s0 : State} {s : State} {own : Nat} {h : Nat} {c : Nat} {a : Word} {code : Word} (hs : regsOutside P s0 s) :
    regsOutside P s0 (pulsTake s own h c a code) :=
  hs.skip (pulsTake_changes (F := [.chans]) rfl (changesOnly.refl _ _)) (by decide)

theorem pulsResult_regs {P : Nat → Prop} {s0 : State} {s : State} {own : Nat} {h : Nat} {c : Nat} {a : Word} {tag : Word} {code : Word} (hs : regsOutside P s0 s) :
    regsOutside P s0 (pulsResult s own h c a tag code) :=
  hs.skip (pulsResult_changes (F := [.chans]) rfl (changesOnly.refl _ _)) (by decide)

theorem sendRec_regs {P : Nat → Prop} {s0 : State} {own : Nat} {r : Rec} {s : State} (hs : regsOutside P s0 s) :
    regsOutside P s0 (sendRec own r s) :=
  hs.skip (sendRec_changes (F := [.convs]) rfl (changesOnly.refl _ _)) (by decide)

theorem setWin_regs {P : Nat → Prop} {s0 : State} {h : Nat} {w : Nat} {v : Word} {s : State} (hs : regsOutside P s0 s) :
    regsOutside P s0 (setWin h w v s) :=
  hs.skip (setWin_changes (F := [.halls]) rfl (changesOnly.refl _ _)) (by decide)

theorem winExit_regs {P : Nat → Prop} {s0 : State} {h : Nat} {w : Nat} {high : Bool} {code : Word} {n : Nat} {t16 : Nat} {s : State}
    (p0 : P (rCvEvt (2 * h))) (p1 : P (rBbMissed))
    (hs : regsOutside P s0 s) : regsOutside P s0 (winExit h w high code n t16 s) := by
  refine hs.trans ?_
  clear hs
  unfold winExit
  with_reducible repeat' first
    | assumption | exact regsOutside.refl _ _ | apply setWin_regs | apply raiseBit_regs | apply bbEvent_regs
    | apply addTrigger_regs | apply regsOutside.iteL | apply regsOutside.ite | split | (intro) | solve_by_elim

theorem winEval_regs {P : Nat → Prop} {s0 : State} {h : Nat} {w : Nat} {code : Word} {n : Nat} {t16 : Nat} {s : State}
    (p0 : P (rCvEvt (2 * h))) (p1 : P (rBbMissed))
    (hs : regsOutside P s0 s) : regsOutside P s0 (winEval h w code n t16 s) := by
  refine hs.trans ?_
  clear hs
  unfold winEval
  with_reducible repeat' first
    | assumption | exact regsOutside.refl _ _ | apply winExit_regs | apply raiseBit_regs | apply setWin_regs
    | apply bbEvent_regs | apply regsOutside.iteL | apply regsOutside.ite | split | (intro) | solve_by_elim

theorem pairSide_regs {P : Nat → Prop} {s0 : State} {h : Nat} {k : Nat} {t16 : Nat} {code : Word} {tag : Word} {s : State} (hs : regsOutside P s0 s) :
    regsOutside P s0 (pairSide h k t16 code tag s) :=
  hs.skip (pairSide_changes (F := [.halls]) rfl (changesOnly.refl _ _)) (by decide)

theorem flightResult_regs {P : Nat → Prop} {s0 : State} {n : Nat} {t16 : Nat} {x : Sample} {s : State}
    (p0 : P (rCvEvt n)) (p1 : P (rBbMissed)) (p2 : P (rCvEvt (2 * (n / 2)))) (p3 : P (rWdCount))
    (hs : regsOutside P s0 s) : regsOutside P s0 (flightResult n t16 x s) := by
  refine hs.trans ?_
  clear hs
  unfold flightResult
  with_reducible repeat' first
    | assumption | exact regsOutside.refl _ _ | apply complFlags_regs | apply openFlags_regs | apply codeFlags_regs
    | apply updConv_regs | apply resultEvents_regs | apply gainDone_regs | apply setClass_regs
    | apply pulsResult_regs | apply sendRec_regs | apply winEval_regs | apply pairSide_regs | apply updRot_regs
    | apply advanceStep_regs | apply regsOutside.iteL | apply regsOutside.ite | split | (intro) | solve_by_elim

theorem takeDelay_regs {P : Nat → Prop} {s0 : State} {p : Nat} {s : State} (hs : regsOutside P s0 s) :
    regsOutside P s0 (takeDelay p s) :=
  hs.skip (takeDelay_changes (F := [.free]) rfl (changesOnly.refl _ _)) (by decide)

theorem formEnd_regs {P : Nat → Prop} {s0 : State} {r : Nat} {l : MlLoop} {start : Nat} {s : State}
    (p0 : P (rMlEvt)) (p1 : P (rBbMissed))
    (hs : regsOutside P s0 s) : regsOutside P s0 (formEnd r l start s) := by
  refine hs.trans ?_
  clear hs
  unfold formEnd
  with_reducible repeat' first
    | assumption | exact regsOutside.refl _ _ | apply updMl_regs | apply mlEvent_regs | apply regsOutside.iteL
    | apply regsOutside.ite | split | (intro) | solve_by_elim

theorem formBack_regs {P : Nat → Prop} {s0 : State} {p : Nat} {d : FormData} {s : State}
    (p0 : P (rMlEvt)) (p1 : P (rBbMissed)) (p2 : P (rBbEvt)) (p3 : P (rEccEvt)) (p4 : P (10532))
    (hs : regsOutside P s0 s) : regsOutside P s0 (formBack p d s) := by
  refine hs.trans ?_
  clear hs
  unfold formBack
  with_reducible repeat' first
    | assumption | exact regsOutside.refl _ _ | apply updMl_regs | apply takeDelay_regs | apply formEnd_regs
    | apply mlOriginate_regs | apply regsOutside.iteL | apply regsOutside.ite | split | (intro) | solve_by_elim

theorem relay_regs {P : Nat → Prop} {s0 : State} {q : Option Nat} {typ : Nat} {hops : Nat} {f : MlFrame} {payload : List Byte} {s : State}
    (p0 : P (rBbMissed)) (p1 : P (rBbEvt)) (p2 : P (rEccEvt)) (p3 : P (10532))
    (hs : regsOutside P s0 s) : regsOutside P s0 (relay q typ hops f payload s) := by
  refine hs.trans ?_
  clear hs
  unfold relay
  with_reducible repeat' first
    | assumption | exact regsOutside.refl _ _ | apply frameSend_regs | split | (intro) | solve_by_elim

theorem formDoneOn_regs {P : Nat → Prop} {s0 : State} {f : MlFrame} {s : State}
    (p0 : P (rBbMissed)) (p1 : P (rBbEvt)) (p2 : P (rEccEvt)) (p3 : P (10532))
    (hs : regsOutside P s0 s) : regsOutside P s0 (formDoneOn f s) := by
  refine hs.trans ?_
  clear hs
  unfold formDoneOn
  with_reducible repeat' first
    | assumption | exact regsOutside.refl _ _ | apply relay_regs | apply regsOutside.iteL | apply regsOutside.ite
    | split | (intro) | solve_by_elim

theorem formOn_regs {P : Nat → Prop} {s0 : State} {f : MlFrame} {payload : List Byte} {s : State}
    (p0 : P (rBbMissed)) (p1 : P (rBbEvt)) (p2 : P (rEccEvt)) (p3 : P (10532))
    (hs : regsOutside P s0 s) : regsOutside P s0 (formOn f payload s) := by
  refine hs.trans ?_
  clear hs
  unfold formOn
  with_reducible repeat' first
    | assumption | exact regsOutside.refl _ _ | apply relay_regs | apply regsOutside.iteL | apply regsOutside.ite
    | split | (intro) | solve_by_elim

theorem galReset_regs {P : Nat → Prop} {s0 : State} {s : State} (hs : regsOutside P s0 s) :
    regsOutside P s0 (galReset s) :=
  hs.skip (galReset_changes (F := [.gal]) rfl (changesOnly.refl _ _)) (by decide)

theorem genCheck_regs {P : Nat → Prop} {s0 : State} {s : State}
    (p0 : P (rImgEvt)) (p1 : P (rBbMissed)) (p2 : P (rAudEvt)) (p3 : P (rAudDropped))
    (hs : regsOutside P s0 s) : regsOutside P s0 (genCheck s) := by
  refine hs.trans ?_
  clear hs
  unfold genCheck
  with_reducible repeat' first
    | assumption | exact regsOutside.refl _ _ | apply updPair_regs | apply raiseBit_regs | apply bothRun_regs
    | apply regsOutside.iteL | apply regsOutside.ite | split | (intro) | solve_by_elim

theorem takeBacklog_regs {P : Nat → Prop} {s0 : State} {h : Nat} {c : Nat} {m : Nat} {v : Nat} {s : State} (hs : regsOutside P s0 s) :
    regsOutside P s0 (takeBacklog h c m v s) :=
  hs.skip (takeBacklog_changes (F := [.chans]) rfl (changesOnly.refl _ _)) (by decide)

theorem giveBacklogs_regs {P : Nat → Prop} {s0 : State} {s : State} (hs : regsOutside P s0 s) :
    regsOutside P s0 (giveBacklogs s) :=
  hs.skip (giveBacklogs_changes (F := [.chans]) rfl (changesOnly.refl _ _)) (by decide)

theorem giveCommand_regs {P : Nat → Prop} {s0 : State} {g : Nat} {v : Nat} {s : State}
    (p0 : P (aCh (g / 4) (g % 4) 28))
    (hs : regsOutside P s0 s) : regsOutside P s0 (giveCommand g v s) := by
  refine hs.trans ?_
  clear hs
  unfold giveCommand
  with_reducible repeat' first
    | assumption | exact regsOutside.refl _ _ | apply updChan_regs | apply setReg_regs | apply regsOutside.iteL
    | apply regsOutside.ite | split | (intro) | solve_by_elim

theorem goOn_regs {P : Nat → Prop} {s0 : State} {typ : Nat} {f : MlFrame} {payload : List Byte} {s : State}
    (p0 : P (rBbMissed)) (p1 : P (rBbEvt)) (p2 : P (rEccEvt)) (p3 : P (10532))
    (hs : regsOutside P s0 s) : regsOutside P s0 (goOn typ f payload s) := by
  refine hs.trans ?_
  clear hs
  unfold goOn
  with_reducible repeat' first
    | assumption | exact regsOutside.refl _ _ | apply relay_regs | apply regsOutside.iteL | apply regsOutside.ite
    | split | (intro) | solve_by_elim

theorem hallEvent_regs {P : Nat → Prop} {s0 : State} {h : Nat} {i : Nat} {s : State} (hs : regsOutside P s0 s) :
    regsOutside P s0 (hallEvent h i s) :=
  hs.skip (hallEvent_changes (F := [.halls]) rfl (changesOnly.refl _ _)) (by decide)

theorem hallReset1_regs {P : Nat → Prop} {s0 : State} {h : Nat} {s : State} (hs : regsOutside P s0 s) :
    regsOutside P s0 (hallReset1 h s) :=
  hs.skip (hallReset1_changes (F := [.halls, .convs, .chans]) rfl (changesOnly.refl _ _)) (by decide)

theorem hallsUnclocked_regs {P : Nat → Prop} {s0 : State} {s : State} (hs : regsOutside P s0 s) :
    regsOutside P s0 (hallsUnclocked s) :=
  hs.skip (hallsUnclocked_changes (F := [.convs, .halls, .chans]) rfl (changesOnly.refl _ _)) (by decide)

theorem haltNow_regs {P : Nat → Prop} {s0 : State} {s : State}
    (p0 : P (rAudEvt)) (p1 : P (rBbMissed)) (p2 : P (rAudDropped))
    (hs : regsOutside P s0 s) : regsOutside P s0 (haltNow s) := by
  refine hs.trans ?_
  clear hs
  unfold haltNow
  with_reducible repeat' first
    | assumption | exact regsOutside.refl _ _ | apply audit_regs | apply bbEvent_regs | (intro)
    | apply regsOutside.set | solve_by_elim

theorem sendCarried_regs {P : Nat → Prop} {s0 : State} {s : State} (hs : regsOutside P s0 s) :
    regsOutside P s0 (sendCarried s) :=
  hs.skip (sendCarried_changes (F := [.tx, .pair]) rfl (changesOnly.refl _ _)) (by decide)

theorem sendTotals_regs {P : Nat → Prop} {s0 : State} {n : Nat} {s : State} (hs : regsOutside P s0 s) :
    regsOutside P s0 (sendTotals n s) :=
  hs.skip (sendTotals_changes (F := [.tx, .pair]) rfl (changesOnly.refl _ _)) (by decide)

theorem handoverSend_regs {P : Nat → Prop} {s0 : State} {s : State} (hs : regsOutside P s0 s) :
    regsOutside P s0 (handoverSend s) :=
  hs.skip (handoverSend_changes (F := [.tx, .pair]) rfl (changesOnly.refl _ _)) (by decide)

theorem steer_regs {P : Nat → Prop} {s0 : State} {off : Int} {s : State} (hs : regsOutside P s0 s) :
    regsOutside P s0 (steer off s) :=
  hs.skip (steer_changes (F := [.sync, .free, .time]) rfl (changesOnly.refl _ _)) (by decide)

end Sys2Proof.Machine
end

