-- ==== Sys2Proof/Laws/RegFrames8.lean ====
section
/-! SUPPORT. Which registers each shared operation changes at most (part 9 of 11). -/

set_option linter.unusedTactic false
set_option linter.unreachableTactic false

namespace Sys2Proof.Machine

theorem takeOffset_regs {P : Nat → Prop} {s0 : State} {large : Bool} {v : Nat} {off : Int} {s : State} (hs : regsOutside P s0 s) :
    regsOutside P s0 (takeOffset large v off s) :=
  hs.skip (takeOffset_changes (F := [.sync, .free, .time, .modes, .ml]) rfl (changesOnly.refl _ _)) (by decide)

theorem heartbeatTime_regs {P : Nat → Prop} {s0 : State} {f : PairFrame} {s : State}
    (p0 : P (rMlEvt)) (p1 : P (rBbMissed))
    (hs : regsOutside P s0 s) : regsOutside P s0 (heartbeatTime f s) := by
  refine hs.trans ?_
  clear hs
  unfold heartbeatTime
  with_reducible repeat' first
    | assumption | exact regsOutside.refl _ _ | apply takeOffset_regs | apply mlEvent_regs | apply regsOutside.iteL
    | apply regsOutside.ite | split | (intro) | solve_by_elim

theorem hoAccept_regs {P : Nat → Prop} {s0 : State} {s : State} (hs : regsOutside P s0 s) :
    regsOutside P s0 (hoAccept s) :=
  hs.skip (hoAccept_changes (F := [.jnl, .nv, .mem, .tx, .pair]) rfl (changesOnly.refl _ _)) (by decide)

theorem hoComplete_regs {P : Nat → Prop} {s0 : State} {s : State}
    (p0 : P (rPairEvt)) (p1 : P (rBbMissed))
    (hs : regsOutside P s0 s) : regsOutside P s0 (hoComplete s) := by
  refine hs.trans ?_
  clear hs
  unfold hoComplete
  with_reducible repeat' first
    | assumption | exact regsOutside.refl _ _ | apply pairEvent_regs | apply jClose_regs | apply jStep_regs
    | apply updPair_regs | (intro) | solve_by_elim

theorem hoDropped_regs {P : Nat → Prop} {s0 : State} {step : Nat} {otherActive : Bool} {s : State}
    (p0 : ∀ (h : Nat), h < 8 → ∀ a, hallRegs h a → P a) (p1 : P (rBbMissed)) (p2 : P (rPairEvt))
    (hs : regsOutside P s0 s) : regsOutside P s0 (hoDropped step otherActive s) := by
  refine hs.trans ?_
  clear hs
  unfold hoDropped
  with_reducible repeat' first
    | assumption | exact regsOutside.refl _ _ | apply allStandby_regs | apply hoRollBack_regs
    | apply regsOutside.iteL | apply regsOutside.ite | split | (intro) | solve_by_elim

theorem tickHeld_regs {P : Nat → Prop} {s0 : State} {n : Nat} {s : State} (hs : regsOutside P s0 s) :
    regsOutside P s0 (tickHeld n s) :=
  hs.skip (tickHeld_changes (F := [.eng]) rfl (changesOnly.refl _ _)) (by decide)

theorem takeCarried_regs {P : Nat → Prop} {s0 : State} {s : State}
    (p0 : P (rBbMissed)) (p1 : P (rBbEvt)) (p2 : P (rEccEvt)) (p3 : P (10532))
    (hs : regsOutside P s0 s) : regsOutside P s0 (takeCarried s) := by
  refine hs.trans ?_
  clear hs
  unfold takeCarried
  with_reducible repeat' first
    | assumption | exact regsOutside.refl _ _ | apply mirrorSeen_regs | apply updRun_regs | apply forN_regs | split
    | (intro) | solve_by_elim

theorem takeCommands_regs {P : Nat → Prop} {s0 : State} {s : State}
    (p0 : ∀ (e : Nat × Nat), P (aCh (e.1 / 4) (e.1 % 4) 28))
    (hs : regsOutside P s0 s) : regsOutside P s0 (takeCommands s) := by
  refine hs.trans ?_
  clear hs
  unfold takeCommands
  with_reducible repeat' first
    | assumption | exact regsOutside.refl _ _ | apply giveCommand_regs | apply regsOutside.foldl
    | apply regsOutside.iteL | apply regsOutside.ite | split | (intro) | solve_by_elim

theorem sendOutput_regs {P : Nat → Prop} {s0 : State} {g : Nat} {v : Nat} {s : State} (hs : regsOutside P s0 s) :
    regsOutside P s0 (sendOutput g v s) :=
  hs.skip (sendOutput_changes (F := [.tx]) rfl (changesOnly.refl _ _)) (by decide)

theorem sendValue_regs {P : Nat → Prop} {s0 s : State} {g v : Option Nat} (hg : ∀ c, g = some c → c < 32)
    (p0 : ∀ c, c < 32 → P (aCh (c / 4) (c % 4) 28))
    (hs : regsOutside P s0 s) : regsOutside P s0 (sendValue g v s) := by
  unfold sendValue
  split
  · exact sendOutput_regs (setReg_regs (p0 _ (hg _ rfl)) hs)
  · exact hs

theorem sendBacklog_regs {P : Nat → Prop} {s0 : State} {g : Nat} {m : Nat} {s : State} (hs : regsOutside P s0 s) :
    regsOutside P s0 (sendBacklog g m s) :=
  hs.skip (sendBacklog_changes (F := [.tx]) rfl (changesOnly.refl _ _)) (by decide)

/-- A role names a channel below 32. -/
theorem roleCh_lt {s : State} {m role c : Nat} (h : roleCh s m role = some c) : c < 32 := by
  have key : ∀ w : Nat, (if w.testBit 5 then some (w % 32) else none) = some c → c < 32 := by
    intro w hw
    split at hw
    · simp only [Option.some.injEq] at hw; omega
    · cases hw
  exact key _ h

theorem sendOutputs_regs {P : Nat → Prop} {s0 s : State} (p0 : ∀ c, c < 32 → P (aCh (c / 4) (c % 4) 28))
    (hs : regsOutside P s0 s) : regsOutside P s0 (sendOutputs s) := by
  unfold sendOutputs
  refine regsOutside.ite hs (forN_regs (fun m t _ => ?_) hs)
  dsimp only
  have hr := regsOutside.refl P t
  have hv : regsOutside P t (sendValue (roleCh (sendValue (roleCh t m 7) (getRun t m).fout t) m 9) (getRun t m).iout
      (sendValue (roleCh t m 7) (getRun t m).fout t)) := by
    apply sendValue_regs (fun c hc => roleCh_lt hc) p0
    exact sendValue_regs (fun c hc => roleCh_lt hc) p0 hr
  split
  · exact hr
  · split
    · exact sendBacklog_regs hv
    · exact hv

theorem idleReports_regs {P : Nat → Prop} {s0 : State} {s : State}
    (p0 : ∀ (g : Fin 32), ∀ a, hallRegs ((↑g / 4)) a → P a) (p1 : P (rBbMissed))
    (hs : regsOutside P s0 s) : regsOutside P s0 (idleReports s) := by
  refine hs.trans ?_
  clear hs
  unfold idleReports
  with_reducible repeat' first
    | assumption | exact regsOutside.refl _ _ | apply updPair_regs | apply hoSend_regs | apply report_regs
    | apply standbyForm_regs | apply regsOutside.foldl | apply regsOutside.iteL | apply regsOutside.ite | split
    | (intro) | solve_by_elim

theorem releaseDie_regs {P : Nat → Prop} {s0 : State} {s : State}
    (p0 : P (rBbMissed))
    (hs : regsOutside P s0 s) : regsOutside P s0 (releaseDie s) := by
  refine hs.trans ?_
  clear hs
  unfold releaseDie
  with_reducible repeat' first
    | assumption | exact regsOutside.refl _ _ | apply bbEvent_regs | (intro) | apply regsOutside.set | solve_by_elim

theorem hoReady_regs {P : Nat → Prop} {s0 : State} {s : State} (hs : regsOutside P s0 s) :
    regsOutside P s0 (hoReady s) :=
  hs.skip (hoReady_changes (F := [.jnl, .pair]) rfl (changesOnly.refl _ _)) (by decide)

theorem hoTotals_regs {P : Nat → Prop} {s0 : State} {s : State} (hs : regsOutside P s0 s) :
    regsOutside P s0 (hoTotals s) :=
  hs.skip (hoTotals_changes (F := [.pair]) rfl (changesOnly.refl _ _)) (by decide)

theorem identifyChips_regs {P : Nat → Prop} {s0 : State} {f : StartFacts} {s : State}
    (p0 : P (rNvEvt)) (p1 : P (rBbMissed))
    (hs : regsOutside P s0 s) : regsOutside P s0 (identifyChips f s) := by
  refine hs.trans ?_
  clear hs
  unfold identifyChips
  with_reducible repeat' first
    | assumption | exact regsOutside.refl _ _ | apply failChip_regs | apply regsOutside.iteL | apply regsOutside.ite
    | split | (intro) | apply regsOutside.set | solve_by_elim

theorem idleSlots_regs {P : Nat → Prop} {s0 : State} {s : State}
    (p0 : ∀ (m : Nat), m < 8 → P (aRun m 71)) (p1 : ∀ (m : Nat), m < 8 → P (aRun m 70)) (p2 : P (rBbMissed)) (p3 : P (rBbEvt)) (p4 : P (rEccEvt)) (p5 : P (10532)) (p6 : P (rAudEvt)) (p7 : P (rAudDropped)) (p8 : ∀ (m : Nat), m < 8 → P (aTot m 26)) (p9 : ∀ (m : Nat), m < 8 → P (rTotEvt m))
    (hs : regsOutside P s0 s) : regsOutside P s0 (idleSlots s) := by
  refine hs.trans ?_
  clear hs
  unfold idleSlots
  with_reducible repeat' first
    | assumption | exact regsOutside.refl _ _ | apply updPair_regs | apply lateRuns_regs | (intro)
    | apply regsOutside.set | solve_by_elim

theorem idleTick_regs {P : Nat → Prop} {s0 : State} {s : State} (hs : regsOutside P s0 s) :
    regsOutside P s0 (idleTick s) :=
  hs.skip (idleTick_changes (F := [.time]) rfl (changesOnly.refl _ _)) (by decide)

theorem imagePlan_regs {P : Nat → Prop} {s0 : State} {s : State}
    (p0 : P (rWdCfg)) (p1 : P (rHpEvt)) (p2 : P (rBbMissed)) (p3 : P (rHpClamp))
    (hs : regsOutside P s0 s) : regsOutside P s0 (imagePlan s) := by
  refine hs.trans ?_
  clear hs
  unfold imagePlan
  with_reducible repeat' first
    | assumption | exact regsOutside.refl _ _ | apply setReg_regs | apply wdPlan_regs | apply cfgClamp_regs
    | apply regsOutside.iteL | apply regsOutside.ite | split | (intro) | solve_by_elim

theorem imgChOut_regs {P : Nat → Prop} {s0 : State} {im : Img} {h : Nat} {c : Nat} {s : State}
    (p0 : P (aCh h c 28))
    (hs : regsOutside P s0 s) : regsOutside P s0 (imgChOut im h c s) := by
  refine hs.trans ?_
  clear hs
  unfold imgChOut
  with_reducible repeat' first
    | assumption | exact regsOutside.refl _ _ | apply setReg_regs | apply applyCommand_regs | apply regsOutside.iteL
    | apply regsOutside.ite | split | (intro) | solve_by_elim

theorem imgClamps_regs {P : Nat → Prop} {s0 : State} {im : Img} {s : State}
    (p0 : P (rHpEvt)) (p1 : P (rBbMissed)) (p2 : P (rHpClamp))
    (hs : regsOutside P s0 s) : regsOutside P s0 (imgClamps im s) := by
  refine hs.trans ?_
  clear hs
  unfold imgClamps
  with_reducible repeat' first
    | assumption | exact regsOutside.refl _ _ | apply cfgClamp_regs | apply regsOutside.foldl
    | apply regsOutside.iteL | apply regsOutside.ite | split | (intro) | solve_by_elim

theorem imgHeldB_regs {P : Nat → Prop} {s0 : State} {im : Img} {h : Nat} {s : State}
    (p0 : ∀ (e : Nat × Word), P (e.1))
    (hs : regsOutside P s0 s) : regsOutside P s0 (imgHeldB im h s) := by
  refine hs.trans ?_
  clear hs
  unfold imgHeldB
  with_reducible repeat' first
    | assumption | exact regsOutside.refl _ _ | apply setReg_regs | apply resolveAll_regs | apply copyWord_regs
    | apply regsOutside.foldl | apply regsOutside.iteL | apply regsOutside.ite | split | (intro) | solve_by_elim

theorem imgRefused_regs {P : Nat → Prop} {s0 : State} {r : ImgRefusal} {copy : Nat} {s : State}
    (p0 : P (rImgEvt)) (p1 : P (rBbMissed)) (p2 : P (11524))
    (hs : regsOutside P s0 s) : regsOutside P s0 (imgRefused r copy s) := by
  refine hs.trans ?_
  clear hs
  unfold imgRefused
  with_reducible repeat' first
    | assumption | exact regsOutside.refl _ _ | apply raiseBit_regs | apply setReg_regs | (intro) | solve_by_elim

theorem inputsMixed_regs {P : Nat → Prop} {s0 : State} {a : Nat} {e : Nat} {s : State} (hs : regsOutside P s0 s) :
    regsOutside P s0 (inputsMixed a e s) :=
  hs.skip (inputsMixed_changes (F := [.chans]) rfl (changesOnly.refl _ _)) (by decide)

theorem inputsStandby_regs {P : Nat → Prop} {s0 : State} {a : Nat} {e : Nat} {s : State} (hs : regsOutside P s0 s) :
    regsOutside P s0 (inputsStandby a e s) :=
  hs.skip (inputsStandby_changes (F := [.chans, .convs, .halls]) rfl (changesOnly.refl _ _)) (by decide)

theorem jRecover_regs {P : Nat → Prop} {s0 : State} {s : State}
    (p0 : P (rBbMissed)) (p1 : P (rBbEvt)) (p2 : P (rEccEvt)) (p3 : P (10532))
    (hs : regsOutside P s0 s) : regsOutside P s0 (jRecover s) := by
  refine hs.trans ?_
  clear hs
  unfold jRecover
  with_reducible repeat' first
    | assumption | exact regsOutside.refl _ _ | apply eccSeen_regs | apply retWritten_regs | apply regsOutside.foldl
    | apply regsOutside.iteL | apply regsOutside.ite | split | (intro) | apply regsOutside.set | solve_by_elim

theorem joinShadow_regs {P : Nat → Prop} {s0 : State} {h : Nat} {s : State} (hs : regsOutside P s0 s) :
    regsOutside P s0 (joinShadow h s) :=
  hs.skip (joinShadow_changes (F := [.halls, .convs]) rfl (changesOnly.refl _ _)) (by decide)

theorem partnerLost_regs {P : Nat → Prop} {s0 : State} {s : State}
    (p0 : ∀ (h : Nat), h < 8 → ∀ a, hallRegs h a → P a) (p1 : P (rPairEvt)) (p2 : P (rBbMissed))
    (hs : regsOutside P s0 s) : regsOutside P s0 (partnerLost s) := by
  refine hs.trans ?_
  clear hs
  unfold partnerLost
  with_reducible repeat' first
    | assumption | exact regsOutside.refl _ _ | apply updPair_regs | apply hoRollBack_regs | apply pairEvent_regs
    | apply regsOutside.iteL | apply regsOutside.ite | split | (intro) | solve_by_elim

theorem takeBacklogs_regs {P : Nat → Prop} {s0 s : State} (p0 : ∀ m, m < 8 → P (aRun m 70))
    (hs : regsOutside P s0 s) : regsOutside P s0 (takeBacklogs s) := by
  unfold takeBacklogs
  refine regsOutside.foldl (fun t o _ => ?_) hs
  split
  · next h => exact setReg_regs (p0 _ h) (updRun_regs (regsOutside.refl _ _))
  · exact regsOutside.refl _ _

theorem lostTicks_regs {P : Nat → Prop} {s0 : State} {f : Nat} {s : State}
    (p0 : ∀ (m : Nat), m < 8 → P (aTot m 26))
    (hs : regsOutside P s0 s) : regsOutside P s0 (lostTicks f s) := by
  refine hs.trans ?_
  clear hs
  unfold lostTicks
  repeat' first
    | with_reducible assumption | with_reducible exact regsOutside.refl _ _ | with_reducible apply modReg_regs
    | with_reducible apply forN_regs | with_reducible apply regsOutside.iteL | with_reducible apply regsOutside.ite
    | split | with_reducible (intro) | dsimp only | solve_by_elim

theorem takeoverTotals_regs {P : Nat → Prop} {s0 : State} {s : State}
    (p0 : P (rAudEvt)) (p1 : P (rBbMissed)) (p2 : P (rAudDropped)) (p3 : ∀ (m : Nat), m < 8 → P (rTotEvt m)) (p4 : ∀ (m : Nat), m < 8 → P (aTot m 26))
    (hs : regsOutside P s0 s) : regsOutside P s0 (takeoverTotals s) := by
  refine hs.trans ?_
  clear hs
  unfold takeoverTotals
  with_reducible repeat' first
    | assumption | exact regsOutside.refl _ _ | apply takeTotals_regs | apply raiseBit_regs | apply updRun_regs
    | apply lostTicks_regs | apply tickHeld_regs | apply forN_regs | apply regsOutside.iteL | apply regsOutside.ite
    | split | (intro) | solve_by_elim

theorem judgePoint_regs {P : Nat → Prop} {s0 : State} {n : Nat} {vsrc : Nat} {gain : Nat} {code : Int} {s : State} (hs : regsOutside P s0 s) :
    regsOutside P s0 (judgePoint n vsrc gain code s) :=
  hs.skip (judgePoint_changes (F := [.halls]) rfl (changesOnly.refl _ _)) (by decide)

theorem judgeRatio_regs {P : Nat → Prop} {s0 : State} {n : Nat} {code : Int} {s : State} (hs : regsOutside P s0 s) :
    regsOutside P s0 (judgeRatio n code s) :=
  hs.skip (judgeRatio_changes (F := [.halls]) rfl (changesOnly.refl _ _)) (by decide)

theorem ladderFailed_regs {P : Nat → Prop} {s0 : State} {h : Nat} {s : State} (hs : regsOutside P s0 s) :
    regsOutside P s0 (ladderFailed h s) :=
  hs.skip (ladderFailed_changes (F := [.halls]) rfl (changesOnly.refl _ _)) (by decide)

theorem wantBack_regs {P : Nat → Prop} {s0 : State} {h : Nat} {t16 : Nat} {s : State} (hs : regsOutside P s0 s) :
    regsOutside P s0 (wantBack h t16 s) :=
  hs.skip (wantBack_changes (F := [.halls, .convs]) rfl (changesOnly.refl _ _)) (by decide)

theorem ladderVerdict_regs {P : Nat → Prop} {s0 : State} {n : Nat} {t16 : Nat} {s : State} (hs : regsOutside P s0 s) :
    regsOutside P s0 (ladderVerdict n t16 s) :=
  hs.skip (ladderVerdict_changes (F := [.halls, .convs]) rfl (changesOnly.refl _ _)) (by decide)

theorem ladderResult_regs {P : Nat → Prop} {s0 : State} {n : Nat} {code : Int} {t16 : Nat} {s : State} (hs : regsOutside P s0 s) :
    regsOutside P s0 (ladderResult n code t16 s) :=
  hs.skip (ladderResult_changes (F := [.halls, .convs]) rfl (changesOnly.refl _ _)) (by decide)

theorem ladderPoint_regs {P : Nat → Prop} {s0 : State} {n : Nat} {t16 : Nat} {x : Sample} {s : State}
    (p0 : P (rCvEvt n)) (p1 : P (rBbMissed))
    (hs : regsOutside P s0 s) : regsOutside P s0 (ladderPoint n t16 x s) := by
  refine hs.trans ?_
  clear hs
  unfold ladderPoint
  with_reducible repeat' first
    | assumption | exact regsOutside.refl _ _ | apply updConv_regs | apply resultEvents_regs
    | apply ladderResult_regs | apply sendRec_regs | (intro) | solve_by_elim

theorem latchPoutQ_regs {P : Nat → Prop} {s0 : State} {s : State} (hs : regsOutside P s0 s) :
    regsOutside P s0 (latchPoutQ s) :=
  hs.skip (latchPoutQ_changes (F := [.eng]) rfl (changesOnly.refl _ _)) (by decide)

theorem standbyLatch_regs {P : Nat → Prop} {s0 : State} {s : State}
    (p0 : P (rBbMissed)) (p1 : P (rBbEvt)) (p2 : P (rEccEvt)) (p3 : P (10532)) (p4 : ∀ (b : Nat), b < 64 → P (rBalEvt b)) (p5 : ∀ (b : Nat), b < 64 → P (aBal b 5)) (p6 : ∀ (b : Nat), b < 64 → P (aBal b 7)) (p7 : P (rGalEvt)) (p8 : P (rGalDropped)) (p9 : ∀ (m : Nat), m < 8 → P (aRun m 71)) (p10 : ∀ (m : Nat), m < 8 → P (aRun m 70)) (p11 : P (rAudEvt)) (p12 : P (rAudDropped)) (p13 : ∀ (m : Nat), m < 8 → P (aTot m 26)) (p14 : ∀ (m : Nat), m < 8 → P (rTotEvt m))
    (hs : regsOutside P s0 s) : regsOutside P s0 (standbyLatch s) := by
  refine hs.trans ?_
  clear hs
  unfold standbyLatch
  with_reducible repeat' first
    | assumption | exact regsOutside.refl _ _ | apply alignRings_regs | apply mirrorSeen_regs | apply beginSlots_regs
    | apply idleSlots_regs | split | (intro) | solve_by_elim

theorem standbyCompare_regs {P : Nat → Prop} {s0 : State} {s : State}
    (p0 : P (rAudEvt)) (p1 : P (rBbMissed)) (p2 : P (rAudDropped)) (p3 : ∀ (m : Nat), m < 8 → P (rTotEvt m)) (p4 : ∀ (m : Nat), m < 8 → P (aTot m 26)) (p5 : P (rPairEvt))
    (hs : regsOutside P s0 s) : regsOutside P s0 (standbyCompare s) := by
  refine hs.trans ?_
  clear hs
  unfold standbyCompare
  with_reducible repeat' first
    | assumption | exact regsOutside.refl _ _ | apply updPair_regs | apply takeTotals_regs | apply diverge_regs
    | apply regsOutside.iteL | apply regsOutside.ite | split | (intro) | solve_by_elim

theorem standbyJoin_regs {P : Nat → Prop} {s0 : State} {s : State}
    (p0 : P (rAudEvt)) (p1 : P (rBbMissed)) (p2 : P (rAudDropped)) (p3 : ∀ (m : Nat), m < 8 → P (rTotEvt m)) (p4 : ∀ (m : Nat), m < 8 → P (aTot m 26)) (p5 : P (rPerEvt)) (p6 : P (rGalEvt)) (p7 : P (rGalDropped)) (p8 : P (8708)) (p9 : P (8709)) (p10 : P (8710))
    (hs : regsOutside P s0 s) : regsOutside P s0 (standbyJoin s) := by
  refine hs.trans ?_
  clear hs
  unfold standbyJoin
  with_reducible repeat' first
    | assumption | exact regsOutside.refl _ _ | apply takeTotals_regs | apply balGap_regs | apply gapUpTo_regs
    | apply askCarried_regs | apply tickHeld_regs | apply updPair_regs | split | (intro) | solve_by_elim

theorem standbyTake_regs {P : Nat → Prop} {s0 : State} {s : State}
    (p0 : P (rAudEvt)) (p1 : P (rBbMissed)) (p2 : P (rAudDropped)) (p3 : ∀ (m : Nat), m < 8 → P (rTotEvt m)) (p4 : ∀ (m : Nat), m < 8 → P (aTot m 26)) (p5 : P (rBbEvt)) (p6 : P (rEccEvt)) (p7 : P (10532))
    (hs : regsOutside P s0 s) : regsOutside P s0 (standbyTake s) := by
  refine hs.trans ?_
  clear hs
  unfold standbyTake
  with_reducible repeat' first
    | assumption | exact regsOutside.refl _ _ | apply tickHeld_regs | apply takeTotals_regs | apply updPair_regs
    | apply takeCarried_regs | split | (intro) | solve_by_elim

theorem standbyBoundary_regs {P : Nat → Prop} {s0 : State} {s : State}
    (p0 : P (rAudEvt)) (p1 : P (rBbMissed)) (p2 : P (rAudDropped)) (p3 : ∀ (m : Nat), m < 8 → P (rTotEvt m)) (p4 : ∀ (m : Nat), m < 8 → P (aTot m 26)) (p5 : P (rPairEvt)) (p6 : P (rBbEvt)) (p7 : P (rEccEvt)) (p8 : P (10532)) (p9 : P (rPerEvt)) (p10 : P (rGalEvt)) (p11 : P (rGalDropped)) (p12 : P (8708)) (p13 : P (8709)) (p14 : P (8710))
    (hs : regsOutside P s0 s) : regsOutside P s0 (standbyBoundary s) := by
  refine hs.trans ?_
  clear hs
  unfold standbyBoundary
  with_reducible repeat' first
    | assumption | exact regsOutside.refl _ _ | apply standbyCompare_regs | apply mirrorSeen_regs
    | apply standbyJoin_regs | apply standbyTake_regs | apply regsOutside.iteL | apply regsOutside.ite | split
    | (intro) | solve_by_elim

theorem latchTick_regs {P : Nat → Prop} {s0 : State} {s : State}
    (p0 : ∀ (m : Nat), m < 8 → P (aRun m 71)) (p1 : ∀ (m : Nat), m < 8 → P (aRun m 70)) (p2 : P (rBbMissed)) (p3 : P (rBbEvt)) (p4 : P (rEccEvt)) (p5 : P (10532)) (p6 : P (rAudEvt)) (p7 : P (rAudDropped)) (p8 : ∀ (m : Nat), m < 8 → P (aTot m 26)) (p9 : ∀ (m : Nat), m < 8 → P (rTotEvt m)) (p10 : ∀ (b : Nat), b < 64 → P (rBalEvt b)) (p11 : ∀ (b : Nat), b < 64 → P (aBal b 5)) (p12 : ∀ (b : Nat), b < 64 → P (aBal b 7)) (p13 : P (rGalEvt)) (p14 : P (rGalDropped)) (p15 : P (rPairEvt)) (p16 : P (rPerEvt)) (p17 : P (8708)) (p18 : P (8709)) (p19 : P (8710))
    (hs : regsOutside P s0 s) : regsOutside P s0 (latchTick s) := by
  refine hs.trans ?_
  clear hs
  unfold latchTick
  with_reducible repeat' first
    | assumption | exact regsOutside.refl _ _ | apply balGap_regs | apply idleSlots_regs | apply updPair_regs
    | apply standbyLatch_regs | apply standbyBoundary_regs | apply activeLatch_regs | apply clearDeliveries_regs
    | apply regsOutside.iteL | apply regsOutside.ite | split | (intro) | solve_by_elim

theorem portError_regs {P : Nat → Prop} {s0 : State} {p : Nat} {s : State}
    (p0 : P (rMlEvt)) (p1 : P (rBbMissed)) (p2 : P (10773))
    (hs : regsOutside P s0 s) : regsOutside P s0 (portError p s) := by
  refine hs.trans ?_
  clear hs
  unfold portError
  with_reducible repeat' first
    | assumption | exact regsOutside.refl _ _ | apply mlEvent_regs | apply modReg_regs | (intro) | solve_by_elim

theorem leaves_regs {P : Nat → Prop} {s0 : State} {form : Bool} {p : Nat} {f : MlFrame} {s : State}
    (p0 : P (rMlEvt)) (p1 : P (rBbMissed)) (p2 : P (10773))
    (hs : regsOutside P s0 s) : regsOutside P s0 (leaves form p f s) := by
  refine hs.trans ?_
  clear hs
  unfold leaves
  with_reducible repeat' first
    | assumption | exact regsOutside.refl _ _ | apply portError_regs | apply updPort_regs | apply regsOutside.iteL
    | apply regsOutside.ite | split | (intro) | solve_by_elim

theorem loadTime_regs {P : Nat → Prop} {s0 : State} {s : State} (hs : regsOutside P s0 s) :
    regsOutside P s0 (loadTime s) :=
  hs.skip (loadTime_changes (F := [.time, .clk]) rfl (changesOnly.refl _ _)) (by decide)

theorem lockClocks_regs {P : Nat → Prop} {s0 : State} {f : StartFacts} {s : State} (hs : regsOutside P s0 s) :
    regsOutside P s0 (lockClocks f s) :=
  hs.skip (lockClocks_changes (F := [.free, .sync, .clk]) rfl (changesOnly.refl _ _)) (by decide)

end Sys2Proof.Machine
end

