-- ==== Sys2Proof/Laws/RegFrames9.lean ====
section
/-! SUPPORT. Which registers each shared operation changes at most (part 10 of 11). -/

set_option linter.unusedTactic false
set_option linter.unreachableTactic false

namespace Sys2Proof.Machine

theorem mailboxResponse_regs {P : Nat → Prop} {s0 : State} {e : AcyIn} {s : State}
    (p0 : ∀ (i : Nat), P (11008 + i)) (p1 : P (rMlEvt)) (p2 : P (rBbMissed)) (p3 : P (10787))
    (hs : regsOutside P s0 s) : regsOutside P s0 (mailboxResponse e s) := by
  refine hs.trans ?_
  clear hs
  unfold mailboxResponse
  with_reducible repeat' first
    | assumption | exact regsOutside.refl _ _ | apply setReg_regs | apply mbDone_regs | apply forN_regs
    | apply regsOutside.iteL | apply regsOutside.ite | split | (intro) | solve_by_elim

theorem markShort_regs {P : Nat → Prop} {s0 : State} {s : State} (hs : regsOutside P s0 s) :
    regsOutside P s0 (markShort s) :=
  hs.skip (markShort_changes (F := [.hp]) rfl (changesOnly.refl _ _)) (by decide)

theorem writeMirror_regs {P : Nat → Prop} {s0 : State} {a : Nat} {bs : List Byte} {s : State} (hs : regsOutside P s0 s) :
    regsOutside P s0 (writeMirror a bs s) :=
  hs.skip (writeMirror_changes (F := [.mem]) rfl (changesOnly.refl _ _)) (by decide)

theorem mirrorFrame_regs {P : Nat → Prop} {s0 : State} {f : PairFrame} {collide : Collision} {s : State}
    (p0 : P (rPairEvt)) (p1 : P (rBbMissed))
    (hs : regsOutside P s0 s) : regsOutside P s0 (mirrorFrame f collide s) := by
  refine hs.trans ?_
  clear hs
  unfold mirrorFrame
  with_reducible repeat' first
    | assumption | exact regsOutside.refl _ _ | apply writeMirror_regs | apply pairEvent_regs | apply updPair_regs
    | apply regsOutside.iteL | apply regsOutside.ite | split | (intro) | solve_by_elim

theorem mixedResult_regs {P : Nat → Prop} {s0 : State} {n : Nat} {e : Nat} {s : State} (hs : regsOutside P s0 s) :
    regsOutside P s0 (mixedResult n e s) :=
  hs.skip (mixedResult_changes (F := [.convs, .halls]) rfl (changesOnly.refl _ _)) (by decide)

theorem monitorFlags_regs {P : Nat → Prop} {s0 : State} {h : Nat} {c : Nat} {i : Int} {hr : Int} {ref : Int} {s : State} (hs : regsOutside P s0 s) :
    regsOutside P s0 (monitorFlags h c i hr ref s) :=
  hs.skip (monitorFlags_changes (F := [.chans]) rfl (changesOnly.refl _ _)) (by decide)

theorem monitorRec_regs {P : Nat → Prop} {s0 : State} {h : Nat} {r : Rec} {s : State}
    (p0 : P (aCh h (tagCh r.tag) 100))
    (hs : regsOutside P s0 s) : regsOutside P s0 (monitorRec h r s) := by
  refine hs.trans ?_
  clear hs
  unfold monitorRec
  with_reducible repeat' first
    | assumption | exact regsOutside.refl _ _ | apply setReg_regs | (intro) | solve_by_elim

theorem noteSlot_regs {P : Nat → Prop} {s0 : State} {n : Nat} {k : Nat} {s : State} (hs : regsOutside P s0 s) :
    regsOutside P s0 (noteSlot n k s) :=
  hs.skip (noteSlot_changes (F := [.pair]) rfl (changesOnly.refl _ _)) (by decide)

theorem noteRecords_regs {P : Nat → Prop} {s0 : State} {a : Nat} {len : Nat} {s : State} (hs : regsOutside P s0 s) :
    regsOutside P s0 (noteRecords a len s) :=
  hs.skip (noteRecords_changes (F := [.pair]) rfl (changesOnly.refl _ _)) (by decide)

theorem noteStall_regs {P : Nat → Prop} {s0 : State} {s : State}
    (p0 : P (rArbWait))
    (hs : regsOutside P s0 s) : regsOutside P s0 (noteStall s) := by
  refine hs.trans ?_
  clear hs
  unfold noteStall
  with_reducible repeat' first
    | assumption | exact regsOutside.refl _ _ | apply takeFree_regs | apply modReg_regs | (intro) | solve_by_elim

theorem noteWait_regs {P : Nat → Prop} {s0 : State} {s : State}
    (p0 : P (rArbWait))
    (hs : regsOutside P s0 s) : regsOutside P s0 (noteWait s) := by
  refine hs.trans ?_
  clear hs
  unfold noteWait
  with_reducible repeat' first
    | assumption | exact regsOutside.refl _ _ | apply takeFree_regs | apply modReg_regs | (intro) | solve_by_elim

theorem nvProgram_regs {P : Nat → Prop} {s0 : State} {i : Nat} {a : Nat} {bs : List Byte} {s : State} (hs : regsOutside P s0 s) :
    regsOutside P s0 (nvProgram i a bs s) :=
  hs.skip (nvProgram_changes (F := [.nv]) rfl (changesOnly.refl _ _)) (by decide)

theorem outputIdle_regs {P : Nat → Prop} {s0 : State} {h : Nat} {c : Nat} {s : State} (hs : regsOutside P s0 s) :
    regsOutside P s0 (outputIdle h c s) :=
  hs.skip (outputIdle_changes (F := [.chans]) rfl (changesOnly.refl _ _)) (by decide)

theorem ownSubs_regs {P : Nat → Prop} {s0 s : State} (p0 : ∀ i, i < 1024 → P (0x4000 + i))
    (hs : regsOutside P s0 s) : regsOutside P s0 (ownSubs s) := by
  unfold ownSubs
  refine forN_regs (fun e t _ => ?_) hs
  dsimp only
  split
  · exact regsOutside.set (forN_regs (fun i u _ => putSub_regs p0 (regsOutside.refl _ _)) (regsOutside.refl _ _))
  · exact regsOutside.refl _ _

theorem pairBad_regs {P : Nat → Prop} {s0 : State} {s : State} (hs : regsOutside P s0 s) :
    regsOutside P s0 (pairBad s) :=
  hs.skip (pairBad_changes (F := [.pair]) rfl (changesOnly.refl _ _)) (by decide)

theorem partnerJoin_regs {P : Nat → Prop} {s0 : State} {confirmed : Bool} {lag : Bool} {s : State}
    (p0 : P (rPairEvt)) (p1 : P (rBbMissed))
    (hs : regsOutside P s0 s) : regsOutside P s0 (partnerJoin confirmed lag s) := by
  refine hs.trans ?_
  clear hs
  unfold partnerJoin
  with_reducible repeat' first
    | assumption | exact regsOutside.refl _ _ | apply pairEvent_regs | apply updPair_regs | apply regsOutside.iteL
    | apply regsOutside.ite | split | (intro) | solve_by_elim

theorem passOn_regs {P : Nat → Prop} {s0 : State} {form : Bool} {typ : Nat} {p : Nat} {f : MlFrame} {payload : List Byte} {s : State}
    (p0 : P (rBbMissed)) (p1 : P (rBbEvt)) (p2 : P (rEccEvt)) (p3 : P (10532)) (p4 : P (rMlEvt)) (p5 : P (10773))
    (hs : regsOutside P s0 s) : regsOutside P s0 (passOn form typ p f payload s) := by
  refine hs.trans ?_
  clear hs
  unfold passOn
  with_reducible repeat' first
    | assumption | exact regsOutside.refl _ _ | apply relay_regs | apply updPort_regs | apply portError_regs
    | apply regsOutside.iteL | apply regsOutside.ite | split | (intro) | solve_by_elim

theorem pastEnd_regs {P : Nat → Prop} {s0 : State} {a : Nat} {s : State} (hs : regsOutside P s0 s) :
    regsOutside P s0 (pastEnd a s) :=
  hs.skip (pastEnd_changes (F := [.hp]) rfl (changesOnly.refl _ _)) (by decide)

theorem periodStep_regs {P : Nat → Prop} {s0 : State} {s : State}
    (p0 : P (rPerEvt)) (p1 : P (rBbMissed))
    (hs : regsOutside P s0 s) : regsOutside P s0 (periodStep s) := by
  refine hs.trans ?_
  clear hs
  unfold periodStep
  with_reducible repeat' first
    | assumption | exact regsOutside.refl _ _ | apply raiseBit_regs | apply updKind_regs | (intro) | solve_by_elim

theorem writeMain_regs {P : Nat → Prop} {s0 : State} {a : Nat} {bs : List Byte} {s : State} (hs : regsOutside P s0 s) :
    regsOutside P s0 (writeMain a bs s) :=
  hs.skip (writeMain_changes (F := [.mem]) rfl (changesOnly.refl _ _)) (by decide)

theorem placeRec_regs {P : Nat → Prop} {s0 : State} {n : Nat} {r : Rec} {s : State} (hs : regsOutside P s0 s) :
    regsOutside P s0 (placeRec n r s) :=
  hs.skip (placeRec_changes (F := [.mem, .convs, .newest, .older]) rfl (changesOnly.refl _ _)) (by decide)

theorem publishRuns_regs {P : Nat → Prop} {s0 : State} {s : State}
    (p0 : ∀ (m : Nat) (j : Nat), m < 8 → j < 38 → P (16384 + 1088 + 64 * m + j))
    (hs : regsOutside P s0 s) : regsOutside P s0 (publishRuns s) := by
  refine hs.trans ?_
  clear hs
  unfold publishRuns
  with_reducible repeat' first
    | assumption | exact regsOutside.refl _ _ | apply setReg_regs | apply forN_regs | (intro) | solve_by_elim

theorem pulseReported_regs {P : Nat → Prop} {s0 : State} {m : Nat} {s : State}
    (p0 : P (aRun m 70))
    (hs : regsOutside P s0 s) : regsOutside P s0 (pulseReported m s) := by
  refine hs.trans ?_
  clear hs
  unfold pulseReported
  with_reducible repeat' first
    | assumption | exact regsOutside.refl _ _ | apply updRun_regs | apply setReg_regs | apply regsOutside.iteL
    | apply regsOutside.ite | split | (intro) | solve_by_elim

theorem pulseStart_regs {P : Nat → Prop} {s0 : State} {g : Nat} {s : State}
    (p0 : ∀ a, hallRegs ((g / 4)) a → P a) (p1 : P (rBbMissed))
    (hs : regsOutside P s0 s) : regsOutside P s0 (pulseStart g s) := by
  refine hs.trans ?_
  clear hs
  unfold pulseStart
  extract_lets x0
  have hx0 : regsOutside P s x0 := by
    unfold x0
    with_reducible repeat' first
      | assumption | exact regsOutside.refl _ _ | apply report_regs | apply outputActive_regs
      | apply sendBacklog_regs | apply regsOutside.iteL | apply regsOutside.ite | split | (intro) | solve_by_elim
  clear_value x0
  with_reducible repeat' first
    | assumption | exact regsOutside.refl _ _ | apply report_regs | apply outputActive_regs | apply sendBacklog_regs
    | apply regsOutside.iteL | apply regsOutside.ite | split | (intro) | solve_by_elim

theorem unitWidth_regs {P : Nat → Prop} {s0 : State} {wext : Nat} {s : State}
    (p0 : P (rHpEvt)) (p1 : P (rBbMissed)) (p2 : P (rHpClamp))
    (hs : regsOutside P s0 s) : regsOutside P s0 (unitWidth wext s).2 := by
  refine hs.trans ?_
  clear hs
  unfold unitWidth
  with_reducible repeat' first
    | assumption | exact regsOutside.refl _ _ | apply cfgClamp_regs | apply regsOutside.iteL | apply regsOutside.ite
    | split | (intro) | solve_by_elim

theorem readWord_regs {P : Nat → Prop} {s0 : State} {ifc : Nat} {a : Nat} {s : State} (hs : regsOutside P s0 s) :
    regsOutside P s0 (readWord ifc a s).2 :=
  hs.skip (readWord_changes (F := [.latch]) rfl (changesOnly.refl _ _)) (by decide)

theorem readUnit_regs {P : Nat → Prop} {s0 : State} {fixed : Bool} {w : Nat} {a : Nat} {underrun : List Nat} {changed : Bool} {i : Nat} {s : State}
    (p0 : P (rHpEvt)) (p1 : P (rBbMissed))
    (hs : regsOutside P s0 s) : regsOutside P s0 (readUnit fixed w a underrun changed i s) := by
  refine hs.trans ?_
  clear hs
  unfold readUnit
  with_reducible repeat' first
    | assumption | exact regsOutside.refl _ _ | apply readWord_regs | apply raiseBit_regs | apply takeFree_regs
    | apply pastEnd_regs | apply regsOutside.iteL | apply regsOutside.ite | split | (intro) | apply regsOutside.set
    | solve_by_elim

theorem readFrame_regs {P : Nat → Prop} {s0 : State} {fixed : Bool} {wext : Nat} {a : Nat} {n : Nat} {underrun : List Nat} {changed : Bool} {s : State}
    (p0 : P (rHpEvt)) (p1 : P (rBbMissed)) (p2 : P (rHpClamp))
    (hs : regsOutside P s0 s) : regsOutside P s0 (readFrame fixed wext a n underrun changed s) := by
  refine hs.trans ?_
  clear hs
  unfold readFrame
  with_reducible repeat' first
    | assumption | exact regsOutside.refl _ _ | apply unitWidth_regs | apply readUnit_regs | apply forN_regs
    | (intro) | apply regsOutside.set | solve_by_elim

theorem readbackState_regs {P : Nat → Prop} {s0 : State} {h : Nat} {frc : BitVec 4} {s : State} (hs : regsOutside P s0 s) :
    regsOutside P s0 (readbackState h frc s) :=
  hs.skip (readbackState_changes (F := [.chans]) rfl (changesOnly.refl _ _)) (by decide)

theorem recapturePeriods_regs {P : Nat → Prop} {s0 : State} {s : State}
    (p0 : P (rGalEvt)) (p1 : P (rBbMissed)) (p2 : P (rGalDropped)) (p3 : P (rBbEvt)) (p4 : P (rEccEvt)) (p5 : P (10532))
    (hs : regsOutside P s0 s) : regsOutside P s0 (recapturePeriods s) := by
  refine hs.trans ?_
  clear hs
  unfold recapturePeriods
  with_reducible repeat' first
    | assumption | exact regsOutside.refl _ _ | apply periodWrite_regs | apply capSound_regs
    | apply regsOutside.foldl | split | (intro) | solve_by_elim

theorem recapture_regs {P : Nat → Prop} {s0 : State} {s : State}
    (p0 : P (rGalEvt)) (p1 : P (rBbMissed)) (p2 : P (rGalDropped)) (p3 : P (rBbEvt)) (p4 : P (rEccEvt)) (p5 : P (10532))
    (hs : regsOutside P s0 s) : regsOutside P s0 (recapture s) := by
  refine hs.trans ?_
  clear hs
  unfold recapture
  with_reducible repeat' first
    | assumption | exact regsOutside.refl _ _ | apply ckptsBegin_regs | apply recapturePeriods_regs
    | apply capSound_regs | apply regsOutside.foldl | split | (intro) | solve_by_elim

theorem takeMode_regs {P : Nat → Prop} {s0 : State} {h : Nat} {c : Nat} {m : Nat} {s : State} (hs : regsOutside P s0 s) :
    regsOutside P s0 (takeMode h c m s) :=
  hs.skip (takeMode_changes (F := [.chans]) rfl (changesOnly.refl _ _)) (by decide)

theorem restoreLate_regs {P : Nat → Prop} {s0 : State} {h : Nat} {c : Nat} {s : State} (hs : regsOutside P s0 s) :
    regsOutside P s0 (restoreLate h c s) :=
  hs.skip (restoreLate_changes (F := [.chans]) rfl (changesOnly.refl _ _)) (by decide)

theorem releaseChannels_regs {P : Nat → Prop} {s0 : State} {h : Nat} {s : State} (hs : regsOutside P s0 s) :
    regsOutside P s0 (releaseChannels h s) :=
  hs.skip (releaseChannels_changes (F := [.chans, .convs, .halls]) rfl (changesOnly.refl _ _)) (by decide)

theorem roleForm_regs {P : Nat → Prop} {s0 : State} {h : Nat} {c : Nat} {s : State} (hs : regsOutside P s0 s) :
    regsOutside P s0 (roleForm h c s) :=
  hs.skip (roleForm_changes (F := [.chans, .convs, .halls]) rfl (changesOnly.refl _ _)) (by decide)

theorem releaseHall_regs {P : Nat → Prop} {s0 : State} {h : Nat} {s : State} (hs : regsOutside P s0 s) :
    regsOutside P s0 (releaseHall h s) :=
  hs.skip (releaseHall_changes (F := [.halls, .chans, .convs]) rfl (changesOnly.refl _ _)) (by decide)

theorem reloadClose_regs {P : Nat → Prop} {s0 : State} {h : Nat} {s : State}
    (p0 : P (rImgEvt)) (p1 : P (rBbMissed))
    (hs : regsOutside P s0 s) : regsOutside P s0 (reloadClose h s) := by
  refine hs.trans ?_
  clear hs
  unfold reloadClose
  with_reducible repeat' first
    | assumption | exact regsOutside.refl _ _ | apply raiseBit_regs | apply dropReload_regs | apply jClose_regs
    | apply regsOutside.iteL | apply regsOutside.ite | split | (intro) | solve_by_elim

theorem updReload_regs {P : Nat → Prop} {s0 : State} {h : Nat} {f : Reload → Reload} {s : State} (hs : regsOutside P s0 s) :
    regsOutside P s0 (updReload h f s) :=
  hs.skip (updReload_changes (F := [.img]) rfl (changesOnly.refl _ _)) (by decide)

theorem takeSection_regs {P : Nat → Prop} {s0 : State} {im : Img} {h : Nat} {s : State} (hs : regsOutside P s0 s) :
    regsOutside P s0 (takeSection im h s) :=
  hs.skip (takeSection_changes (F := [.halls, .convs, .chans]) rfl (changesOnly.refl _ _)) (by decide)

theorem reloadFlights_regs {P : Nat → Prop} {s0 : State} {h : Nat} {s : State}
    (p0 : P (rImgEvt)) (p1 : P (rBbMissed))
    (hs : regsOutside P s0 s) : regsOutside P s0 (reloadFlights h s) := by
  refine hs.trans ?_
  clear hs
  unfold reloadFlights
  with_reducible repeat' first
    | assumption | exact regsOutside.refl _ _ | apply reloadClose_regs | apply updReload_regs | apply jStep_regs
    | apply regsOutside.iteL | apply regsOutside.ite | split | (intro) | solve_by_elim

theorem reloadConfirm_regs {P : Nat → Prop} {s0 : State} {r : Reload} {s : State}
    (p0 : ∀ a, hallRegs r.hall a → P a) (p1 : P (rBbMissed)) (p2 : P (rImgEvt))
    (hs : regsOutside P s0 s) : regsOutside P s0 (reloadConfirm r s) := by
  refine hs.trans ?_
  clear hs
  unfold reloadConfirm
  with_reducible repeat' first
    | assumption | exact regsOutside.refl _ _ | apply updReload_regs | apply jStep_regs | apply takeSection_regs
    | apply report_regs | apply reloadFlights_regs | apply startFlights_regs | (intro) | solve_by_elim

theorem reloadDrop_regs {P : Nat → Prop} {s0 : State} {h : Nat} {s : State} (hs : regsOutside P s0 s) :
    regsOutside P s0 (reloadDrop h s) :=
  hs.skip (reloadDrop_changes (F := [.jnl, .nv, .img]) rfl (changesOnly.refl _ _)) (by decide)

theorem unlink_regs {P : Nat → Prop} {s0 : State} {h : Nat} {s : State}
    (p0 : ∀ (a : Nat), P (a))
    (hs : regsOutside P s0 s) : regsOutside P s0 (unlink h s) := by
  refine hs.trans ?_
  clear hs
  unfold unlink
  with_reducible repeat' first
    | assumption | exact regsOutside.refl _ _ | apply updHall_regs | apply setReg_regs | apply regsOutside.foldl
    | apply regsOutside.iteL | apply regsOutside.ite | split | (intro) | solve_by_elim

theorem repairCopy_regs {P : Nat → Prop} {s0 : State} {s : State} (hs : regsOutside P s0 s) :
    regsOutside P s0 (repairCopy s) :=
  hs.skip (repairCopy_changes (F := [.jnl, .nv, .mem, .img]) rfl (changesOnly.refl _ _)) (by decide)

theorem respond_regs {P : Nat → Prop} {s0 : State} {dst : Nat} {tag : Nat} {op : Nat} {data : List Byte} {s : State} (hs : regsOutside P s0 s) :
    regsOutside P s0 (respond dst tag op data s) :=
  hs.skip (respond_changes (F := [.ml]) rfl (changesOnly.refl _ _)) (by decide)

theorem shadowResult_regs {P : Nat → Prop} {s0 : State} {n : Nat} {t16 : Nat} {x : Sample} {s : State}
    (p0 : P (rCvEvt n)) (p1 : P (rBbMissed))
    (hs : regsOutside P s0 s) : regsOutside P s0 (shadowResult n t16 x s) := by
  refine hs.trans ?_
  clear hs
  unfold shadowResult
  with_reducible repeat' first
    | assumption | exact regsOutside.refl _ _ | apply updConv_regs | apply resultEvents_regs | apply sendRec_regs
    | apply pairSide_regs | apply regsOutside.iteL | apply regsOutside.ite | split | (intro) | solve_by_elim

theorem resultOf_regs {P : Nat → Prop} {s0 : State} {n : Nat} {v : ConvState} {x : Sample} {s : State}
    (p0 : P (rCvEvt n)) (p1 : P (rBbMissed)) (p2 : P (rCvEvt (2 * (n / 2)))) (p3 : P (rWdCount))
    (hs : regsOutside P s0 s) : regsOutside P s0 (resultOf n v x s) := by
  refine hs.trans ?_
  clear hs
  unfold resultOf
  with_reducible repeat' first
    | assumption | exact regsOutside.refl _ _ | apply flightResult_regs | apply shadowResult_regs
    | apply ladderPoint_regs | split | (intro) | solve_by_elim

theorem retentionLost_regs {P : Nat → Prop} {s0 : State} {s : State} (hs : regsOutside P s0 s) :
    regsOutside P s0 (retentionLost s) :=
  hs.skip (retentionLost_changes (F := [.halls, .runs, .per, .aud, .gal, .bb, .jnl, .mem, .wd, .clk]) rfl (changesOnly.refl _ _)) (by decide)

theorem ringReads_regs {P : Nat → Prop} {s0 s : State} {n a : Nat} (hs : regsOutside P s0 s) :
    regsOutside P s0 (ringReads n a s).2 :=
  hs.skip (ringReads_changes (F := [.latch]) rfl (changesOnly.refl _ _)) (by decide)

theorem sagRamps_regs {P : Nat → Prop} {s0 : State} {h : Nat} {s : State} (hs : regsOutside P s0 s) :
    regsOutside P s0 (sagRamps h s) :=
  hs.skip (sagRamps_changes (F := [.chans]) rfl (changesOnly.refl _ _)) (by decide)

end Sys2Proof.Machine
end

