-- ==== Sys2Proof/Laws/RegFrames10.lean ====
section
/-! SUPPORT. Which registers each shared operation changes at most (part 11 of 11). -/

set_option linter.unusedTactic false
set_option linter.unreachableTactic false

namespace Sys2Proof.Machine

theorem samplePulse_regs {P : Nat → Prop} {s0 : State} {h : Nat} {c : Nat} {s : State} (hs : regsOutside P s0 s) :
    regsOutside P s0 (samplePulse h c s) :=
  hs.skip (samplePulse_changes (F := [.chans]) rfl (changesOnly.refl _ _)) (by decide)

theorem samplePulses_regs {P : Nat → Prop} {s0 : State} {s : State}
    (p0 : ∀ (h : Nat), h < 8 → ∀ a, hallRegs h a → P a) (p1 : P (rBbMissed))
    (hs : regsOutside P s0 s) : regsOutside P s0 (samplePulses s) := by
  refine hs.trans ?_
  clear hs
  unfold samplePulses
  with_reducible repeat' first
    | assumption | exact regsOutside.refl _ _ | apply report_regs | apply samplePulse_regs | apply forHalls_regs
    | apply forChans_regs | apply regsOutside.iteL | apply regsOutside.ite | split | (intro) | solve_by_elim

theorem sampleTake_regs {P : Nat → Prop} {s0 : State} {g : Nat} {r : Rec} {s : State} (hs : regsOutside P s0 s) :
    regsOutside P s0 (sampleTake g r s) :=
  hs.skip (sampleTake_changes (F := [.bb]) rfl (changesOnly.refl _ _)) (by decide)

theorem sendAnswer_regs {P : Nat → Prop} {s0 : State} {s : State} (hs : regsOutside P s0 s) :
    regsOutside P s0 (sendAnswer s) :=
  hs.skip (sendAnswer_changes (F := [.tx, .pair]) rfl (changesOnly.refl _ _)) (by decide)

theorem sendHeartbeat_regs {P : Nat → Prop} {s0 : State} {h : Nat} {s : State} (hs : regsOutside P s0 s) :
    regsOutside P s0 (sendHeartbeat h s) :=
  hs.skip (sendHeartbeat_changes (F := [.halls, .tx]) rfl (changesOnly.refl _ _)) (by decide)

theorem sendImageWord_regs {P : Nat → Prop} {s0 : State} {bs : List Byte} {i : Nat} {s : State} (hs : regsOutside P s0 s) :
    regsOutside P s0 (sendImageWord bs i s) :=
  hs.skip (sendImageWord_changes (F := [.tx, .pair]) rfl (changesOnly.refl _ _)) (by decide)

theorem sendStatus_regs {P : Nat → Prop} {s0 : State} {s : State} (hs : regsOutside P s0 s) :
    regsOutside P s0 (sendStatus s) :=
  hs.skip (sendStatus_changes (F := [.tx, .pair]) rfl (changesOnly.refl _ _)) (by decide)

theorem syncCommand_regs {P : Nat → Prop} {s0 : State} {t : Nat} {s : State}
    (p0 : P (rSyncEvt)) (p1 : P (rBbMissed))
    (hs : regsOutside P s0 s) : regsOutside P s0 (syncCommand t s) := by
  refine hs.trans ?_
  clear hs
  unfold syncCommand
  with_reducible repeat' first
    | assumption | exact regsOutside.refl _ _ | apply raiseBit_regs | apply schedule_regs | apply regsOutside.iteL
    | apply regsOutside.ite | split | (intro) | solve_by_elim

theorem serveRead_regs {P : Nat → Prop} {s0 : State} {src : Nat} {e : AcyIn} {s : State} (hs : regsOutside P s0 s) :
    regsOutside P s0 (serveRead src e s) :=
  hs.skip (serveRead_changes (F := [.ml, .latch]) rfl (changesOnly.refl _ _)) (by decide)

theorem strCatchUp_regs {P : Nat → Prop} {s0 : State} {k : Nat} {s : State}
    (p0 : P (549)) (p1 : P (rHpEvt)) (p2 : P (rBbMissed))
    (hs : regsOutside P s0 s) : regsOutside P s0 (strCatchUp k s).2 := by
  refine hs.trans ?_
  clear hs
  unfold strCatchUp
  extract_lets x0 x1 x2 x3 x4
  have hx2 : regsOutside P s x2 := by
    unfold x2
    with_reducible repeat' first
      | assumption | exact regsOutside.refl _ _ | apply modReg_regs | apply setStrPos_regs | apply raiseBit_regs
      | apply regsOutside.iteL | apply regsOutside.ite | split | (intro) | apply regsOutside.set | solve_by_elim
  clear_value x2
  with_reducible repeat' first
    | assumption | exact regsOutside.refl _ _ | apply modReg_regs | apply setStrPos_regs | apply raiseBit_regs
    | apply regsOutside.iteL | apply regsOutside.ite | split | (intro) | apply regsOutside.set | solve_by_elim

theorem serveStream_regs {P : Nat → Prop} {s0 : State} {src : Nat} {e : AcyIn} {s : State}
    (p0 : P (rHpEvt)) (p1 : P (rBbMissed)) (p2 : P (rHpClamp)) (p3 : P (549))
    (hs : regsOutside P s0 s) : regsOutside P s0 (serveStream src e s) := by
  refine hs.trans ?_
  clear hs
  unfold serveStream
  extract_lets x0 x1 x2 x3 x4 x5 x6 x7 x8 x9
  have hx5 : regsOutside P s x5 := by
    unfold x5
    with_reducible repeat' first
      | assumption | exact regsOutside.refl _ _ | apply respond_regs | apply nameStream_regs | apply seekTo_regs
      | apply strCatchUp_regs | apply setStrPos_regs | apply regsOutside.iteL | apply regsOutside.ite | split
      | (intro) | apply regsOutside.set | solve_by_elim
  clear_value x5
  have hx7 : regsOutside P s x7 := by
    unfold x7
    with_reducible repeat' first
      | assumption | exact regsOutside.refl _ _ | apply respond_regs | apply nameStream_regs | apply seekTo_regs
      | apply strCatchUp_regs | apply setStrPos_regs | apply regsOutside.iteL | apply regsOutside.ite | split
      | (intro) | apply regsOutside.set | solve_by_elim
  clear_value x7
  with_reducible repeat' first
    | assumption | exact regsOutside.refl _ _ | apply respond_regs | apply nameStream_regs | apply seekTo_regs
    | apply strCatchUp_regs | apply setStrPos_regs | apply regsOutside.iteL | apply regsOutside.ite | split | (intro)
    | apply regsOutside.set | solve_by_elim

theorem settle_regs {P : Nat → Prop} {s0 : State} {s : State} (hs : regsOutside P s0 s) :
    regsOutside P s0 (settle s) :=
  hs.skip (settle_changes (F := [.bb, .pins]) rfl (changesOnly.refl _ _)) (by decide)

theorem settleActive_regs {P : Nat → Prop} {s0 : State} {single : Bool} {s : State}
    (p0 : ∀ (h : Nat), h < 8 → ∀ a, hallRegs h a → P a) (p1 : P (rBbMissed)) (p2 : P (rPairEvt))
    (hs : regsOutside P s0 s) : regsOutside P s0 (settleActive single s) := by
  refine hs.trans ?_
  clear hs
  unfold settleActive
  with_reducible repeat' first
    | assumption | exact regsOutside.refl _ _ | apply allActive_regs | apply roleChange_regs | apply updPair_regs
    | (intro) | solve_by_elim

theorem settleImage_regs {P : Nat → Prop} {s0 : State} {lost : Bool} {e : JEntry} {s : State} (hs : regsOutside P s0 s) :
    regsOutside P s0 (settleImage lost e s) :=
  hs.skip (settleImage_changes (F := [.jnl, .nv]) rfl (changesOnly.refl _ _)) (by decide)

theorem settleStaged_regs {P : Nat → Prop} {s0 : State} {lost : Bool} {e : JEntry} {s : State}
    (p0 : P (rGalEvt)) (p1 : P (rBbMissed)) (p2 : P (rGalDropped)) (p3 : P (rBbEvt)) (p4 : P (rEccEvt)) (p5 : P (10532)) (p6 : P (rAudEvt)) (p7 : P (rAudDropped))
    (hs : regsOutside P s0 s) : regsOutside P s0 (settleStaged lost e s) := by
  refine hs.trans ?_
  clear hs
  unfold settleStaged
  with_reducible repeat' first
    | assumption | exact regsOutside.refl _ _ | apply jClose_regs | apply capSound_regs | apply ckptsBegin_regs
    | apply audit_regs | apply regsOutside.foldl | apply regsOutside.iteL | apply regsOutside.ite | split | (intro)
    | apply regsOutside.set | solve_by_elim

theorem settleFlush_regs {P : Nat → Prop} {s0 : State} {e : JEntry} {s : State}
    (p0 : P (rBbMissed)) (p1 : P (rBbEvt)) (p2 : P (rEccEvt)) (p3 : P (10532))
    (hs : regsOutside P s0 s) : regsOutside P s0 (settleFlush e s) := by
  refine hs.trans ?_
  clear hs
  unfold settleFlush
  extract_lets x0 x1 x2 x3 x4
  have hx0 : regsOutside P s x0 := by
    unfold x0
    with_reducible repeat' first
      | assumption | exact regsOutside.refl _ _ | apply eccSeen_regs | apply jClose_regs | apply pushJob_regs
      | apply ringPut_regs | apply regsOutside.iteL | apply regsOutside.ite | split | (intro) | solve_by_elim
  clear_value x0
  have hx3 : regsOutside P s x3 := by
    unfold x3
    with_reducible repeat' first
      | assumption | exact regsOutside.refl _ _ | apply eccSeen_regs | apply jClose_regs | apply pushJob_regs
      | apply ringPut_regs | apply regsOutside.iteL | apply regsOutside.ite | split | (intro) | solve_by_elim
  clear_value x3
  with_reducible repeat' first
    | assumption | exact regsOutside.refl _ _ | apply eccSeen_regs | apply jClose_regs | apply pushJob_regs
    | apply ringPut_regs | apply regsOutside.iteL | apply regsOutside.ite | split | (intro) | solve_by_elim

theorem settleEntry_regs {P : Nat → Prop} {s0 : State} {f : StartFacts} {lost : Bool} {e : JEntry} {s : State}
    (p0 : P (rGalEvt)) (p1 : P (rBbMissed)) (p2 : P (rGalDropped)) (p3 : P (rBbEvt)) (p4 : P (rEccEvt)) (p5 : P (10532)) (p6 : P (rAudEvt)) (p7 : P (rAudDropped))
    (hs : regsOutside P s0 s) : regsOutside P s0 (settleEntry f lost e s) := by
  refine hs.trans ?_
  clear hs
  unfold settleEntry
  with_reducible repeat' first
    | assumption | exact regsOutside.refl _ _ | apply settleImage_regs | apply jClose_regs | apply settleStaged_regs
    | apply settleFlush_regs | apply regsOutside.iteL | apply regsOutside.ite | split | (intro) | solve_by_elim

theorem settleJournal_regs {P : Nat → Prop} {s0 : State} {f : StartFacts} {lost : Bool} {s : State}
    (p0 : P (rBbMissed)) (p1 : P (rBbEvt)) (p2 : P (rEccEvt)) (p3 : P (10532)) (p4 : P (rJnlEvt)) (p5 : P (rGalEvt)) (p6 : P (rGalDropped)) (p7 : P (rAudEvt)) (p8 : P (rAudDropped))
    (hs : regsOutside P s0 s) : regsOutside P s0 (settleJournal f lost s) := by
  refine hs.trans ?_
  clear hs
  unfold settleJournal
  with_reducible repeat' first
    | assumption | exact regsOutside.refl _ _ | apply jRecover_regs | apply settleReport_regs
    | apply settleEntry_regs | apply recapturePeriods_regs | apply regsOutside.foldl | apply regsOutside.iteL
    | apply regsOutside.ite | split | (intro) | solve_by_elim

theorem settleStandby_regs {P : Nat → Prop} {s0 : State} {s : State}
    (p0 : ∀ (h : Nat), h < 8 → ∀ a, hallRegs h a → P a) (p1 : P (rBbMissed)) (p2 : P (rPairEvt))
    (hs : regsOutside P s0 s) : regsOutside P s0 (settleStandby s) := by
  refine hs.trans ?_
  clear hs
  unfold settleStandby
  with_reducible repeat' first
    | assumption | exact regsOutside.refl _ _ | apply allStandby_regs | apply roleChange_regs | apply pairEvent_regs
    | apply updPair_regs | apply regsOutside.iteL | apply regsOutside.ite | split | (intro) | solve_by_elim

theorem settleRole_regs {P : Nat → Prop} {s0 : State} {ans : PartnerAnswer} {actIn : Bool} {s : State}
    (p0 : ∀ (h : Nat), h < 8 → ∀ a, hallRegs h a → P a) (p1 : P (rBbMissed)) (p2 : P (rPairEvt))
    (hs : regsOutside P s0 s) : regsOutside P s0 (settleRole ans actIn s) := by
  refine hs.trans ?_
  clear hs
  unfold settleRole
  with_reducible repeat' first
    | assumption | exact regsOutside.refl _ _ | apply updPair_regs | apply settleStandby_regs
    | apply settleActive_regs | apply pairEvent_regs | apply regsOutside.iteL | apply regsOutside.ite | split
    | (intro) | solve_by_elim

theorem slotTrap_regs {P : Nat → Prop} {s0 s : State} {m cycles : Nat} {trap : Option EngTrap} {x : Nat × State}
    (p0 : P (rBbMissed)) (p1 : P (rBbEvt)) (p2 : P (rEccEvt)) (p3 : P (10532))
    (hs : regsOutside P s0 s) (h : slotTrap m cycles trap s = some x) : regsOutside P s0 x.2 := by
  unfold slotTrap at h
  split at h
  · cases h; apply eccFound_regs <;> assumption
  · cases h; apply eccMark_regs; apply eccFound_regs <;> assumption
  · cases h; exact hs
  · cases h; exact hs
  · split at h
    · cases h; exact hs
    · cases h

theorem trapFreeze_regs {P : Nat → Prop} {s0 : State} {m : Nat} {cause : Nat} {s : State}
    (p0 : P (rBbMissed)) (p1 : P (rBbEvt))
    (hs : regsOutside P s0 s) : regsOutside P s0 (trapFreeze m cause s) := by
  refine hs.trans ?_
  clear hs
  unfold trapFreeze
  with_reducible repeat' first
    | assumption | exact regsOutside.refl _ _ | apply freeze_regs | apply regsOutside.iteL | apply regsOutside.ite
    | split | (intro) | apply regsOutside.set | solve_by_elim

theorem trapRun_regs {P : Nat → Prop} {s0 : State} {m : Nat} {cause : Nat} {cycles : Nat} {s : State}
    (p0 : P (rTotEvt m)) (p1 : P (rBbMissed)) (p2 : P (aRun m 70)) (p3 : P (aRun m 71)) (p4 : P (aRun m 68)) (p5 : P (rRunEvt m)) (p6 : P (rRunStatus m)) (p7 : P (aRun m 67)) (p8 : ∀ (b : Nat), b < 64 → P (rBalEvt b)) (p9 : ∀ (b : Nat), b < 64 → P (aBal b 5)) (p10 : ∀ (b : Nat), b < 64 → P (aBal b 7)) (p11 : P (rBbEvt))
    (hs : regsOutside P s0 s) : regsOutside P s0 (trapRun m cause cycles s) := by
  refine hs.trans ?_
  clear hs
  unfold trapRun
  with_reducible repeat' first
    | assumption | exact regsOutside.refl _ _ | apply totalize_regs | apply updRun_regs | apply pulseOut_regs
    | apply runCycles_regs | apply runStatus_regs | apply modReg_regs | apply afterRun_regs | apply trapFreeze_regs
    | (intro) | solve_by_elim

theorem slotRun_regs {P : Nat → Prop} {s0 s : State} {m cycles : Nat} {trap : Option EngTrap}
    (p0 : P (rBbMissed)) (p1 : P (rBbEvt)) (p2 : P (rEccEvt)) (p3 : P (10532)) (p4 : P (rTotEvt m)) (p5 : P (aRun m 70)) (p6 : P (aRun m 71)) (p7 : P (aRun m 68)) (p8 : P (rRunEvt m)) (p9 : P (rRunStatus m)) (p10 : P (aRun m 67)) (p11 : ∀ (b : Nat), b < 64 → P (rBalEvt b)) (p12 : ∀ (b : Nat), b < 64 → P (aBal b 5)) (p13 : ∀ (b : Nat), b < 64 → P (aBal b 7)) (p14 : P (aRun m 72)) (p15 : ∀ (j : Nat), j < 17 → P (aRun m (73 + j)))
    (hs : regsOutside P s0 s) : regsOutside P s0 (slotRun m cycles trap s) := by
  unfold slotRun
  split
  · exact hs
  · split
    · next x hx =>
      have hx' : regsOutside P s0 x.2 := by apply slotTrap_regs <;> assumption
      apply trapRun_regs <;> assumption
    · dsimp only
      split
      · split
        · apply completeRun_regs <;> assumption
        · apply trapRun_regs <;> assumption
      · apply trapRun_regs <;> assumption

theorem slotEnd_regs {P : Nat → Prop} {s0 : State} {m : Nat} {cycles : Nat} {trap : Option EngTrap} {s : State}
    (p0 : P (rArbWait)) (p1 : P (rBbMissed)) (p2 : P (rBbEvt)) (p3 : P (rEccEvt)) (p4 : P (10532)) (p5 : P (rTotEvt m)) (p6 : P (aRun m 70)) (p7 : P (aRun m 71)) (p8 : P (aRun m 68)) (p9 : P (rRunEvt m)) (p10 : P (rRunStatus m)) (p11 : P (aRun m 67)) (p12 : ∀ (b : Nat), b < 64 → P (rBalEvt b)) (p13 : ∀ (b : Nat), b < 64 → P (aBal b 5)) (p14 : ∀ (b : Nat), b < 64 → P (aBal b 7)) (p15 : P (aRun m 72)) (p16 : ∀ (j : Nat), j < 17 → P (aRun m (73 + j))) (p17 : P (rGalEvt)) (p18 : P (rGalDropped)) (p19 : P (rPerEvt)) (p20 : P (8708)) (p21 : P (8709)) (p22 : P (8710)) (p23 : ∀ (m : Nat), P (aTot (m % 8) 29)) (p24 : ∀ (m : Nat), P (rTotEvt (m % 8))) (p25 : P (rImgEvt)) (p26 : P (rWdCount))
    (hs : regsOutside P s0 s) : regsOutside P s0 (slotEnd m cycles trap s) := by
  refine hs.trans ?_
  clear hs
  unfold slotEnd
  with_reducible repeat' first
    | assumption | exact regsOutside.refl _ _ | apply moveTo_regs | apply noteStall_regs | apply slotRun_regs
    | apply endTick_regs | apply checkIn_regs | apply regsOutside.iteL | apply regsOutside.ite | split | (intro)
    | apply regsOutside.set | solve_by_elim

theorem slotDone_regs {P : Nat → Prop} {s0 : State} {m : Nat} {cycles : Nat} {trap : Option EngTrap} {s : State}
    (p0 : ∀ (e : Nat × Word), P (e.1)) (p1 : P (rArbWait)) (p2 : P (rBbMissed)) (p3 : P (rBbEvt)) (p4 : P (rEccEvt)) (p5 : P (10532)) (p6 : P (rTotEvt m)) (p7 : P (aRun m 70)) (p8 : P (aRun m 71)) (p9 : P (aRun m 68)) (p10 : P (rRunEvt m)) (p11 : P (rRunStatus m)) (p12 : P (aRun m 67)) (p13 : ∀ (b : Nat), b < 64 → P (rBalEvt b)) (p14 : ∀ (b : Nat), b < 64 → P (aBal b 5)) (p15 : ∀ (b : Nat), b < 64 → P (aBal b 7)) (p16 : P (aRun m 72)) (p17 : ∀ (j : Nat), j < 17 → P (aRun m (73 + j))) (p18 : P (rGalEvt)) (p19 : P (rGalDropped)) (p20 : P (rPerEvt)) (p21 : P (8708)) (p22 : P (8709)) (p23 : P (8710)) (p24 : ∀ (m : Nat), P (aTot (m % 8) 29)) (p25 : ∀ (m : Nat), P (rTotEvt (m % 8))) (p26 : P (rImgEvt)) (p27 : P (rWdCount)) (p28 : ∀ (m : Nat), m < 8 → P (aRun m 71)) (p29 : ∀ (m : Nat), m < 8 → P (aRun m 70)) (p30 : P (rAudEvt)) (p31 : P (rAudDropped)) (p32 : ∀ (m : Nat), m < 8 → P (aTot m 26)) (p33 : ∀ (m : Nat), m < 8 → P (rTotEvt m))
    (hs : regsOutside P s0 s) : regsOutside P s0 (slotDone m cycles trap s) := by
  refine hs.trans ?_
  clear hs
  unfold slotDone
  with_reducible repeat' first
    | assumption | exact regsOutside.refl _ _ | apply backWords_regs | apply slotEnd_regs | apply putWords_regs
    | apply handoverSend_regs | apply lateRuns_regs | apply regsOutside.iteL | apply regsOutside.ite | split
    | (intro) | solve_by_elim

theorem stageDrop_regs {P : Nat → Prop} {s0 : State} {s : State}
    (p0 : P (rImgEvt)) (p1 : P (rBbMissed))
    (hs : regsOutside P s0 s) : regsOutside P s0 (stageDrop s) := by
  refine hs.trans ?_
  clear hs
  unfold stageDrop
  with_reducible repeat' first
    | assumption | exact regsOutside.refl _ _ | apply raiseBit_regs | apply regsOutside.iteL | apply regsOutside.ite
    | split | (intro) | apply regsOutside.set | solve_by_elim

theorem startApplied_regs {P : Nat → Prop} {s0 : State} {s : State} (hs : regsOutside P s0 s) :
    regsOutside P s0 (startApplied s) :=
  hs.skip (startApplied_changes (F := [.clk]) rfl (changesOnly.refl _ _)) (by decide)

theorem startEcho_regs {P : Nat → Prop} {s0 : State} {p : Nat} {s : State} (hs : regsOutside P s0 s) :
    regsOutside P s0 (startEcho p s) :=
  hs.skip (startEcho_changes (F := [.ml, .tx]) rfl (changesOnly.refl _ _)) (by decide)

theorem streamFrame_regs {P : Nat → Prop} {s0 : State} {k : Nat} {peek : Bool} {nbytes : Nat} {s : State}
    (p0 : P (549)) (p1 : P (rHpEvt)) (p2 : P (rBbMissed))
    (hs : regsOutside P s0 s) : regsOutside P s0 (streamFrame k peek nbytes s).2.2.2 := by
  refine hs.trans ?_
  clear hs
  unfold streamFrame
  extract_lets x0 x1 x2 x3 x4 x5 x6 x7 x8 x9 x10 x11 x12 x13
  have hx1 : regsOutside P s x1 := by
    unfold x1
    with_reducible repeat' first
      | assumption | exact regsOutside.refl _ _ | apply strCatchUp_regs | apply setStrPos_regs
      | apply nameStream_regs | apply regsOutside.iteL | apply regsOutside.ite | split | (intro)
      | apply regsOutside.set | solve_by_elim
  clear_value x1
  have hx11 : regsOutside P s x11 := by
    unfold x11
    with_reducible repeat' first
      | assumption | exact regsOutside.refl _ _ | apply strCatchUp_regs | apply setStrPos_regs
      | apply nameStream_regs | apply regsOutside.iteL | apply regsOutside.ite | split | (intro)
      | apply regsOutside.set | solve_by_elim
  clear_value x11
  have hx13 : regsOutside P s x13 := by
    unfold x13
    with_reducible repeat' first
      | assumption | exact regsOutside.refl _ _ | apply strCatchUp_regs | apply setStrPos_regs
      | apply nameStream_regs | apply regsOutside.iteL | apply regsOutside.ite | split | (intro)
      | apply regsOutside.set | solve_by_elim
  clear_value x13
  with_reducible repeat' first
    | assumption | exact regsOutside.refl _ _ | apply strCatchUp_regs | apply setStrPos_regs | apply nameStream_regs
    | apply regsOutside.iteL | apply regsOutside.ite | split | (intro) | apply regsOutside.set | solve_by_elim

theorem streamDeliver_regs {P : Nat → Prop} {s0 : State} {stream : Nat} {peek : Bool} {nbytes : Nat} {s : State}
    (p0 : P (549)) (p1 : P (rHpEvt)) (p2 : P (rBbMissed)) (p3 : P (rArbWait))
    (hs : regsOutside P s0 s) : regsOutside P s0 (streamDeliver stream peek nbytes s) := by
  refine hs.trans ?_
  clear hs
  unfold streamDeliver
  with_reducible repeat' first
    | assumption | exact regsOutside.refl _ _ | apply streamFrame_regs | apply noteWait_regs | (intro)
    | apply regsOutside.set | solve_by_elim

theorem swapAt_regs {P : Nat → Prop} {s0 : State} {n : Nat} {t16 : Nat} {s : State} (hs : regsOutside P s0 s) :
    regsOutside P s0 (swapAt n t16 s).2 :=
  hs.skip (swapAt_changes (F := [.convs, .halls]) rfl (changesOnly.refl _ _)) (by decide)

theorem swapEngine_regs {P : Nat → Prop} {s0 : State} {im : Img} {s : State} (hs : regsOutside P s0 s) :
    regsOutside P s0 (swapEngine im s) :=
  hs.skip (swapEngine_changes (F := [.runs, .eng, .img, .mem, .jnl, .nv]) rfl (changesOnly.refl _ _)) (by decide)

theorem switchIdle_regs {P : Nat → Prop} {s0 : State} {b : Nat} {s : State}
    (p0 : ∀ (m : Nat), m < 8 → P (aRun m 71)) (p1 : ∀ (m : Nat), m < 8 → P (aRun m 70)) (p2 : P (rBbMissed)) (p3 : P (rBbEvt)) (p4 : P (rEccEvt)) (p5 : P (10532)) (p6 : P (rAudEvt)) (p7 : P (rAudDropped)) (p8 : ∀ (m : Nat), m < 8 → P (aTot m 26)) (p9 : ∀ (m : Nat), m < 8 → P (rTotEvt m))
    (hs : regsOutside P s0 s) : regsOutside P s0 (switchIdle b s) := by
  refine hs.trans ?_
  clear hs
  unfold switchIdle
  with_reducible repeat' first
    | assumption | exact regsOutside.refl _ _ | apply idleSlots_regs | apply regsOutside.iteL | apply regsOutside.ite
    | split | (intro) | solve_by_elim

theorem switchLatch_regs {P : Nat → Prop} {s0 : State} {b : Nat} {s : State}
    (p0 : ∀ (b : Nat), b < 64 → P (rBalEvt b)) (p1 : P (rBbMissed)) (p2 : ∀ (b : Nat), b < 64 → P (aBal b 5)) (p3 : ∀ (b : Nat), b < 64 → P (aBal b 7)) (p4 : P (rGalEvt)) (p5 : P (rGalDropped)) (p6 : P (rBbEvt)) (p7 : P (rEccEvt)) (p8 : P (10532)) (p9 : P (rPerEvt)) (p10 : P (8708)) (p11 : P (8709)) (p12 : P (8710)) (p13 : ∀ (m : Nat), m < 8 → P (aRun m 71)) (p14 : ∀ (m : Nat), m < 8 → P (aRun m 70)) (p15 : P (rAudEvt)) (p16 : P (rAudDropped)) (p17 : ∀ (m : Nat), m < 8 → P (aTot m 26)) (p18 : ∀ (m : Nat), m < 8 → P (rTotEvt m))
    (hs : regsOutside P s0 s) : regsOutside P s0 (switchLatch b s) := by
  refine hs.trans ?_
  clear hs
  unfold switchLatch
  with_reducible repeat' first
    | assumption | exact regsOutside.refl _ _ | apply activeLatch_regs | apply regsOutside.iteL
    | apply regsOutside.ite | split | (intro) | solve_by_elim

theorem syncConv_regs {P : Nat → Prop} {s0 : State} {n : Nat} {t16 : Nat} {s : State} (hs : regsOutside P s0 s) :
    regsOutside P s0 (syncConv n t16 s) :=
  hs.skip (syncConv_changes (F := [.convs]) rfl (changesOnly.refl _ _)) (by decide)

theorem syncDone_regs {P : Nat → Prop} {s0 : State} {g : Nat} {s : State}
    (p0 : P (rSyncEvt)) (p1 : P (rBbMissed))
    (hs : regsOutside P s0 s) : regsOutside P s0 (syncDone g s) := by
  refine hs.trans ?_
  clear hs
  unfold syncDone
  with_reducible repeat' first
    | assumption | exact regsOutside.refl _ _ | apply raiseBit_regs | apply regsOutside.iteL | apply regsOutside.ite
    | split | (intro) | apply regsOutside.set | solve_by_elim

theorem syncPuls_regs {P : Nat → Prop} {s0 : State} {own : Nat} {s : State} (hs : regsOutside P s0 s) :
    regsOutside P s0 (syncPuls own s) :=
  hs.skip (syncPuls_changes (F := [.chans]) rfl (changesOnly.refl _ _)) (by decide)

theorem takeBoundary_regs {P : Nat → Prop} {s0 : State} {s : State}
    (p0 : P (rPerEvt)) (p1 : P (rBbMissed))
    (hs : regsOutside P s0 s) : regsOutside P s0 (takeBoundary s) := by
  refine hs.trans ?_
  clear hs
  unfold takeBoundary
  with_reducible repeat' first
    | assumption | exact regsOutside.refl _ _ | apply periodStep_regs | apply galStep_regs | apply regsOutside.iteL
    | apply regsOutside.ite | split | (intro) | apply regsOutside.set | solve_by_elim

theorem takeCycleOut_regs {P : Nat → Prop} {s0 : State} {p : Nat} {s : State} (hs : regsOutside P s0 s) :
    regsOutside P s0 (takeCycleOut p s) :=
  hs.skip (takeCycleOut_changes (F := [.free]) rfl (changesOnly.refl _ _)) (by decide)

theorem takeTime_regs {P : Nat → Prop} {s0 : State} {p : Nat} {b : List Byte} {s : State}
    (p0 : P (rMlEvt)) (p1 : P (rBbMissed))
    (hs : regsOutside P s0 s) : regsOutside P s0 (takeTime p b s) := by
  refine hs.trans ?_
  clear hs
  unfold takeTime
  with_reducible repeat' first
    | assumption | exact regsOutside.refl _ _ | apply updMl_regs | apply takeOffset_regs | apply takeCycleOut_regs
    | apply mlEvent_regs | apply regsOutside.iteL | apply regsOutside.ite | split | (intro) | solve_by_elim

theorem takeCycle_regs {P : Nat → Prop} {s0 : State} {p : Nat} {f : MlFrame} {s : State}
    (p0 : P (rMlEvt)) (p1 : P (rBbMissed)) (p2 : P (rWdCount))
    (hs : regsOutside P s0 s) : regsOutside P s0 (takeCycle p f s) := by
  refine hs.trans ?_
  clear hs
  unfold takeCycle
  with_reducible repeat' first
    | assumption | exact regsOutside.refl _ _ | apply takeTime_regs | apply updMl_regs | apply checkIn_regs | (intro)
    | apply regsOutside.set | solve_by_elim

theorem takeNewFlight_regs {P : Nat → Prop} {s0 : State} {own : Nat} {s : State} (hs : regsOutside P s0 s) :
    regsOutside P s0 (takeNewFlight own s) :=
  hs.skip (takeNewFlight_changes (F := [.halls, .convs, .chans]) rfl (changesOnly.refl _ _)) (by decide)

theorem triggerAll_regs {P : Nat → Prop} {s0 : State} {b : Nat} {t16 : Nat} {s : State} (hs : regsOutside P s0 s) :
    regsOutside P s0 (triggerAll b t16 s) :=
  hs.skip (triggerAll_changes (F := [.convs]) rfl (changesOnly.refl _ _)) (by decide)

theorem tryCopies_regs {P : Nat → Prop} {s0 s : State} {l : List Nat} (p0 : P (rImgEvt)) (p1 : P (rBbMissed)) (p2 : P (11524))
    (hs : regsOutside P s0 s) : regsOutside P s0 (tryCopies l s).2 := by
  induction l generalizing s with
  | nil => exact hs
  | cons i l ih =>
    simp only [tryCopies]
    split
    · exact regsOutside.set hs
    · exact ih (setCopy_regs (imgRefused_regs p0 p1 p2 (regsOutside.set hs)))

theorem twoHeads_regs {P : Nat → Prop} {s0 : State} {s : State}
    (p0 : P (rMlEvt)) (p1 : P (rBbMissed))
    (hs : regsOutside P s0 s) : regsOutside P s0 (twoHeads s) := by
  refine hs.trans ?_
  clear hs
  unfold twoHeads
  with_reducible repeat' first
    | assumption | exact regsOutside.refl _ _ | apply mlEvent_regs | apply updMl_regs | (intro) | solve_by_elim

theorem wbEffect_regs {P : Nat → Prop} {s0 : State} {h : Nat} {c : Nat} {band : Nat} {s : State} (hs : regsOutside P s0 s) :
    regsOutside P s0 (wbEffect h c band s) :=
  hs.skip (wbEffect_changes (F := [.chans]) rfl (changesOnly.refl _ _)) (by decide)

theorem wdRestart_regs {P : Nat → Prop} {s0 : State} {late : Nat} {s : State}
    (p0 : P (rWdCount))
    (hs : regsOutside P s0 s) : regsOutside P s0 (wdRestart late s) := by
  refine hs.trans ?_
  clear hs
  unfold wdRestart
  with_reducible repeat' first
    | assumption | exact regsOutside.refl _ _ | apply checkIn_regs | apply forN_regs | apply regsOutside.iteL
    | apply regsOutside.ite | split | (intro) | apply regsOutside.set | solve_by_elim

theorem windowEnd_regs {P : Nat → Prop} {s0 : State} {n : Nat} {v : ConvState} {x : Sample} {s : State}
    (p0 : P (rCvEvt n)) (p1 : P (rBbMissed)) (p2 : P (rCvEvt (2 * (n / 2)))) (p3 : P (rWdCount))
    (hs : regsOutside P s0 s) : regsOutside P s0 (windowEnd n v x s) := by
  refine hs.trans ?_
  clear hs
  unfold windowEnd
  with_reducible repeat' first
    | assumption | exact regsOutside.refl _ _ | apply mixedResult_regs | apply afterResult_regs | apply resultOf_regs
    | split | (intro) | solve_by_elim

end Sys2Proof.Machine
end

