-- ==== Sys2Proof/Laws/Writes.lean ====
section
/-! SUPPORT. What a register write does once it is accepted, by class. -/

namespace Sys2Proof.Machine

theorem logicUp_of_applied {s : State} (h : s.clk.die = .applied) : logicUp s = true := by
  simp [logicUp, h]

/-- A class B write passes where nothing general and no rule of its register refuses it. -/
theorem refusal_b {o : Origin} {a : Nat} {w v : Word} {s : State} (h : accepts o s) (hb : homeBad s a w v = none) :
    refusal o .b a w v s = none := by
  obtain ⟨h1, h2, h3, h4⟩ := h
  have e1 : (RegClass.b == RegClass.a) = false := rfl
  have e2 : (RegClass.b == RegClass.b) = true := rfl
  unfold refusal
  rcases h4 with h4 | h4 | ⟨h4, h5⟩
  · simp [h1, h2, h3, h4, hb, e1]
  · have e3 : (Source.internal == Source.pair) = false := rfl
    simp [h1, h2, h3, h4, hb, e1, e3]
  · simp [h1, h2, h3, h4, h5, hb, e1]

/-- A class C write is refused by the rules of its register only. -/
theorem refusal_c {o : Origin} {a : Nat} {w v : Word} {s : State} (hb : homeBad s a w v = none) :
    refusal o .c a w v s = none := by
  have e1 : (RegClass.c == RegClass.a) = false := rfl
  have e2 : (RegClass.c == RegClass.b) = false := rfl
  unfold refusal
  simp [hb, e1, e2]

/-- A class A write passes where a staging slot is free besides. -/
theorem refusal_a {o : Origin} {a : Nat} {w v : Word} {s : State} (h : accepts o s) (hb : homeBad s a w v = none)
    (hp : s.stg.phase = .idle) (hr : stagedAt s a ≠ none ∨ s.stg.entries.length < 64) :
    refusal o .a a w v s = none := by
  obtain ⟨h1, h2, h3, h4⟩ := h
  have e1 : (RegClass.a == RegClass.a) = true := rfl
  have hr' : ((stagedAt s a).isNone && decide (64 ≤ s.stg.entries.length)) = false := by
    rcases hr with hr | hr
    · cases e : stagedAt s a <;> simp_all
    · simp [hr]
  unfold refusal
  rcases h4 with h4 | h4 | ⟨h4, h5⟩
  · simp [h1, h2, h3, h4, hb, hp, hr']
  · have e3 : (Source.internal == Source.pair) = false := rfl
    simp [h1, h2, h3, h4, hb, e3, hp, hr']
  · simp [h1, h2, h3, h4, h5, hb, hp, hr']

/-- An accepted write as a command of its own. -/
theorem cmdWrite_accepted {o : Origin} {a : Nat} {mask v : Word} {pres : Option Nat} {s : State}
    (h : (writeReg o a mask v pres s).2 = none) : cmdWrite o a mask v pres s = (writeReg o a mask v pres s).1 := by
  simp only [cmdWrite, h]

/-- With room, a record goes into the queue. -/
theorem audit_room {o : Origin} {kind a detail old new : Nat} {s : State} (h : audRoom s 1 = true) :
    audit o kind a 1 detail old new 0 s = retWritten (.audit s.aud.next) { s with aud := { s.aud with
      queue := s.aud.queue ++ [auditRec o kind a detail old new s], next := (s.aud.next + 1) % 2 ^ 48 } } := by
  simp only [audit, h, if_true, auditRec]

theorem and_allBits (v : Word) : v &&& allBits = v := BitVec.and_allOnes

/-- An accepted write of action bits of class B: its audit record, its forwarding, and the action. -/
theorem cmdWrite_actB {o : Origin} {a : Nat} {v m : Word} {pres : Option Nat} {s : State}
    (hd : regDesc a = some (woReg .b m)) (hm : m ≠ 0) (ha : accepts o s)
    (hb : ∀ w, homeBad s a w (v &&& m) = none) :
    cmdWrite o a allBits v pres s =
      action a (v &&& m) 0 (forwardWrite o (woReg .b m) a allBits v
        (countWrite (auditB o a (woReg .b m) (clampValue (modeAt s a) a (mergedWord s (woReg .b m) a allBits v)) (v &&& m) s))) := by
  have hl := logicUp_of_applied ha.1
  have e : v &&& allBits &&& m = v &&& m := by rw [and_allBits]
  have e2 : ¬ (0 ||| 0 ||| m) &&& allBits = (0 : Word) := by rw [and_allBits]; simpa using hm
  have hw : writeReg o a allBits v pres s = (action a (v &&& m) 0 (forwardWrite o (woReg .b m) a allBits v
        (countWrite (auditB o a (woReg .b m) (clampValue (modeAt s a) a (mergedWord s (woReg .b m) a allBits v)) (v &&& m) s))), none) := by
    have hr := refusal_b ha (hb (clampValue (modeAt s a) a (mergedWord s (woReg .b m) a allBits v)))
    unfold writeReg
    simp only [hd, hl, Bool.not_true, Bool.false_or]
    rw [if_neg (by simpa [woReg] using e2)]
    simp only [woReg, e] at hr ⊢
    simp only [hr, if_true]
  rw [cmdWrite_accepted (by rw [hw]), hw]

/-- An accepted write of action bits of class C. -/
theorem cmdWrite_actC {o : Origin} {a : Nat} {v m : Word} {pres : Nat} {s : State}
    (hd : regDesc a = some (woReg .c m)) (hm : m ≠ 0) (hl : logicUp s = true)
    (hb : ∀ w, homeBad s a w (v &&& m) = none) :
    cmdWrite o a allBits v (some pres) s = action a (v &&& m) pres (forwardWrite o (woReg .c m) a allBits v s) := by
  have e : v &&& allBits &&& m = v &&& m := by rw [and_allBits]
  have e2 : ¬ (0 ||| 0 ||| m) &&& allBits = (0 : Word) := by rw [and_allBits]; simpa using hm
  have hw : writeReg o a allBits v (some pres) s =
      (action a (v &&& m) pres (forwardWrite o (woReg .c m) a allBits v s), none) := by
    have hr := refusal_c (o := o) (hb (clampValue (modeAt s a) a (mergedWord s (woReg .c m) a allBits v)))
    unfold writeReg
    simp only [hd, hl, Bool.not_true, Bool.false_or]
    rw [if_neg (by simpa [woReg] using e2)]
    simp only [woReg, e] at hr ⊢
    simp only [hr, ne_eq, not_true_eq_false, if_false]
  rw [cmdWrite_accepted (by rw [hw]), hw]

/-- The same outside the halls, where no free value is taken. -/
theorem cmdWrite_actC_none {o : Origin} {a : Nat} {v m : Word} {s : State}
    (hd : regDesc a = some (woReg .c m)) (hm : m ≠ 0) (hl : logicUp s = true) (ha : ¬ (0x0400 ≤ a ∧ a < 0x0C00))
    (hb : ∀ w, homeBad s a w (v &&& m) = none) :
    ∃ p, cmdWrite o a allBits v none s = action a (v &&& m) p (forwardWrite o (woReg .c m) a allBits v s) := by
  have e : v &&& allBits &&& m = v &&& m := by rw [and_allBits]
  have e2 : ¬ (0 ||| 0 ||| m) &&& allBits = (0 : Word) := by rw [and_allBits]; simpa using hm
  refine ⟨(freeValue (forwardWrite o (woReg .c m) a allBits v s)).toNat, ?_⟩
  have hw : writeReg o a allBits v none s =
      (action a (v &&& m) (freeValue (forwardWrite o (woReg .c m) a allBits v s)).toNat
        (forwardWrite o (woReg .c m) a allBits v s), none) := by
    have hr := refusal_c (o := o) (hb (clampValue (modeAt s a) a (mergedWord s (woReg .c m) a allBits v)))
    unfold writeReg
    simp only [hd, hl, Bool.not_true, Bool.false_or]
    rw [if_neg (by simpa [woReg] using e2)]
    simp only [woReg, e] at hr ⊢
    simp only [hr, ne_eq, not_true_eq_false, if_false, if_neg ha]
  rw [cmdWrite_accepted (by rw [hw]), hw]

/-- A command of the device itself is never passed on. -/
theorem forwardWrite_c {o : Origin} {a : Nat} {d : RegDesc} {mask v : Word} {s : State} (hd : d.cls = .c)
    (h1 : a ≠ 0x2D0B) (h2 : a ≠ 0x2D0C) : forwardWrite o d a mask v s = s := by
  have e : (RegClass.c == RegClass.b) = false := rfl
  simp [forwardWrite, hd, h1, h2, e]

/-- A class B write that the standby is not told of (R371). -/
theorem forwardWrite_local {o : Origin} {a : Nat} {d : RegDesc} {mask v : Word} {s : State} (hd : notForwarded a = true)
    (h1 : a ≠ 0x2D0B) (h2 : a ≠ 0x2D0C) : forwardWrite o d a mask v s = s := by
  simp [forwardWrite, hd, h1, h2]

end Sys2Proof.Machine
end

