-- ==== Sys2Proof/Machine/Scan.lean ====
section
/-! DEFINITION. The debug port's IDCODE and boundary-scan register (R411, R430). No command of the block drives the port, so
nothing but reset writes the register. -/

namespace Sys2Proof.Machine

/-- The LVCMOS balls of R411 in the order of its table: the cells of the boundary-scan register. -/
def scanBalls : List String :=
  ["SCK", "SDI", "SDO", "SEL0", "SEL1", "NV_CLK", "NV_CS0", "NV_CS1", "NV_IO0", "NV_IO1", "NV_IO2", "NV_IO3", "PAIR_ACT",
   "PAIR_ACT_IN", "PAIR_ROLE", "BOOT0", "BOOT1", "TCK", "TMS", "TDI", "TDO", "TRST_N", "REF10", "PPS_IN", "SYNC_IN",
   "SYNC_OUT", "BLANK0", "BLANK1", "RESET_N", "TEST_N"]

/-- IDCODE: version 0x3 of issue C in [31:28] (R430); the rest is the implementation's (log 36). -/
def idcode : Word := 0x3#4 ++ Config.idcode

/-- The cell of a ball; none where no scan cell covers it. -/
def scanCell (s : State) (ball : String) : Option Bool :=
  match scanBalls.findIdx? (· == ball) with
  | some i => s.pins.scan[i]?
  | none => none

end Sys2Proof.Machine
end

