-- ==== Sys2Proof/WellFormed.lean ====
section
/-! DEFINITION. Which commands can arise: the ranges the spec gives their operands. The meanings take any command; these
checks say which ones the outside can send. -/

namespace Sys2Proof

/-- A writer: ring addresses have 10 bits (R332, R239). -/
def Origin.wf (o : Origin) : Bool :=
  match o.src with
  | .ring => o.writer < 1024
  | _ => o.writer == 0xFFFF

/-- Units of a read frame that underran: units the frame had, but never the first one, whose fetch the gap covers (R304). -/
def underrunWf (n : Nat) (l : List Nat) : Bool := l.all fun i => 0 < i && i < n

/-- Width of a unit in bits: at least 4 (R303). -/
def unitBits (wext : Fin 32) : Nat := max (wext.val + 1) 4

/-- A frame that ends part-way: between 1 and W - 1 bits of a write unit (R307). -/
def ShortFrame.wf : ShortFrame → Bool
  | .header => true
  | .write _ wext _ _ _ n => 0 < n.val && n.val < unitBits wext
  | .read _ _ _ n underrun _ => underrunWf n underrun

/-- A Miethlink frame's header fields: HOPS 11 bits, SRC 10 bits, CYC 16 bits, LEN a multiple of 4 below 2^16 (R332). -/
def MlFrame.wf (f : MlFrame) : Bool :=
  f.hops < 2048 && f.src < 1024 && f.cyc < 65536 && f.payload.length % 4 == 0 && f.payload.length < 65536

/-- A frame of the command's own TYPE, or of one that R332 does not list; only the sender of CYCLE, FORM and FORM_DONE frames meets
its own. -/
def MlFrame.wfAs (t : BitVec 4) (f : MlFrame) : Bool := f.wf && (f.typ = t || f.typ = 0 || decide (7 ≤ f.typ.toNat))

/-- A pair-link frame: SEQ a byte, LEN a multiple of 4 up to 64, the payload inside the 64 KiB of mirror RAM (R360, R392). -/
def PairFrame.wf (f : PairFrame) : Bool :=
  f.seq < 256 && f.payload.length % 4 == 0 && f.payload.length ≤ 64 && f.maddr + f.payload.length ≤ 65536

/-- Words of a memory (R392). -/
def MemId.words : MemId → Nat
  | .main => 131072
  | .ret => 16384
  | .prog => 16384
  | .mirror => 16384
  | .hall _ => 1024

/-- A totals copy: six accumulators (R214). -/
def TotCopy.wf (c : TotCopy) : Bool := c.accs.length == 6 && c.tick < 2 ^ 64

/-- An uncorrectable word that a run's computation meets: of program RAM, or of run m's data area (R201, R393). -/
def EngTrap.wf (m : Run) : EngTrap → Bool
  | .ecc true w => w < 16384
  | .ecc false w => 0x12000 + 3072 * m.val ≤ w && w < 0x12000 + 3072 * (m.val + 1)
  | _ => true

/-- The frame types whose MADDR is 0 (R360). -/
def plainPairWf (f : PairFrame) : Bool := f.wf && f.maddr == 0

/-- A command the outside can send. -/
def Instr.wf : Instr → Bool
  | .read _ _ _ n u _ => underrunWf n u
  | .readFixed _ _ _ n u _ => underrunWf n u
  | .reservedStreamOp _ sop stream => 2 ≤ sop.val || 24 ≤ stream.val
  | .short _ f => f.wf
  | .registerWrite o _ _ _ => o.wf
  | .totalsReconcile ps => ps.all (fun e => e.2.wf) && (ps.map (·.1)).Nodup
  | .scrub m w _ => w < m.words
  | .pllLock f => f.mhz == 50 || f.mhz == 100
  | .runSlot m _ trap => trap.all (·.wf m)
  | .cycleFrame _ f => f.wfAs 1
  | .data _ f => f.wfAs 2
  | .form _ f => f.wfAs 3
  | .formDone _ f => f.wfAs 4
  | .echo _ f => f.wfAs 5
  | .echoReply _ f _ => f.wfAs 6
  | .pairHeartbeat f => plainPairWf f
  | .ack f => plainPairWf f
  | .handoverMessage f _ => plainPairWf f
  | .record f _ => f.wf
  | .tickset f _ => f.wf
  | .totals f _ => f.wf
  | .state f => f.frame.wf
  | .config f => f.frame.wf
  | _ => true

end Sys2Proof
end

