-- ==== Sys2Proof/Tests/Slice0.lean ====
section
/-! SUPPORT. Tests: ill-formed commands are refused, every hypothesis of a statement is met by some state, and small
one-step runs with results worked out from the spec. -/

open Sys2Proof Sys2Proof.Machine

namespace Sys2Proof.Tests

set_option maxRecDepth 20000

/-- The host as the sender of a write. -/
def host : Origin := ⟨.host, 0xFFFF⟩

/-- `s` with its pins as the rest of the state asks. -/
def fit (s : State) : State := { s with pins := pinLevels s }

theorem inv_fit (s : State) (h : s.bb.events.length ≤ 2048) : Inv (fit s) := ⟨rfl, h⟩

/-- A state that meets `P` and the invariant. -/
theorem met {P : State → Prop} (s : State) (h : s.bb.events.length ≤ 2048) (p : P (fit s)) : ∃ t, Inv t ∧ P t :=
  ⟨fit s, inv_fit s h, p⟩

/-- The block with its image applied, alone and active. -/
def live : State :=
  { State.reset with
    clk := { State.reset.clk with die := .applied, lock := 15, modclk := true }
    pair := { State.reset.pair with active := true, confirmed := true } }

/-- A hall that runs. -/
def hallUp (x : HallState) : HallState := { x with up := true, active := true }

/-- `s` with its clock state changed. -/
def updClk (f : ClkSt → ClkSt) (s : State) : State := { s with clk := f s.clk }

/-- The block with hall 7 up. -/
def hall7 : State := updHall 7 hallUp live

/-- The block with flash chip 0 working. -/
def chip0 : State := { live with nv := { live.nv with c0 := { chipReset with known := true, present := true } } }

/-- One of a pair of devices, active, its partner in view. -/
def paired : State :=
  setReg rPairCfg 0x80000055 (updPair (fun p => { p with linkUp := true, partnerReady := true, partnerAt := some 0 }) live)

/-- A standby of a pair whose partner answers, with a loop of its own state left out. -/
def standby : State := updPair (fun p => { p with active := false }) paired

/-! Hypotheses of the statements. -/

theorem wit_IdleStepPassesOneCycle : ∃ s, Inv s ∧ s.pending = [] :=
  met State.reset (by decide) (by decide)

theorem wit_StepKeepsCanonicalForm : ∃ s t, Inv s ∧ Canon s ∧ step s = .next t :=
  ⟨fit State.reset, _, inv_fit _ (by decide), ⟨by decide, by decide, by decide, by decide, by decide, by decide⟩, rfl⟩

theorem wit_CountedFrameDeliversStatus :
    frameMode (.nop true) = some true ∧ (∃ s, Inv s ∧ logicUp s = true) ∧ ∃ s, Inv s ∧ logicUp s = false :=
  ⟨rfl, met live (by decide) (by decide), met State.reset (by decide) (by decide)⟩

theorem wit_NopAndReservedFrames :
    (∃ s, Inv s ∧ logicUp s = true) ∧ (2 ≤ (2 : Fin 4).val ∧ 24 ≤ (24 : Fin 64).val ∧ 24 ≤ (63 : Fin 64).val) :=
  ⟨met live (by decide) (by decide), by decide⟩

theorem wit_ReadFramesDeliverWords :
    (∃ s, Inv s ∧ logicUp s = true) ∧ 3 ≤ (3 : Fin 32).val ∧ 3 ≤ (31 : Fin 32).val ∧
      (∃ i, i < 2 ∧ 0x5FFF < unitAddr false 0x5FFF i) ∧ ∀ w ∈ [(3 : Fin 32), 4], 3 ≤ w.val ∧ w.val < 5 :=
  ⟨met live (by decide) (by decide), by decide, by decide, ⟨1, by decide⟩, by decide⟩

theorem wit_WriteFrameWritesUnitsInTurn :
    logicUp live = true ∧ 3 ≤ (31 : Fin 32).val ∧ ∀ n ∈ [(1 : Fin 32), 31], 0 < n.val ∧ n.val < (31 : Fin 32).val + 1 := by
  decide

theorem wit_ShortFramesWithoutAccess : ∃ s, Inv s ∧ logicUp s = true :=
  met live (by decide) (by decide)

/-- The shadow with 63 registers staged; the next one fills it. -/
def stagedLive : State :=
  { live with stg := { live.stg with entries := (List.range 63).map fun i => ⟨0x4000 + i, 0, .host, 0xFFFF⟩ } }

theorem wit_ClassAWriteIsStaged :
    (∃ s, Inv s ∧ accepts host s ∧ s.stg.phase = .idle ∧ s.stg.entries.length < 64 ∧
      ∃ d, regDesc 0x0401 = some d ∧ d.cls = .a ∧ (d.rw ||| d.w1c ||| d.wo) &&& 1 ≠ 0 ∧
        homeBad s 0x0401 (clampValue (modeAt s 0x0401) 0x0401 (merge (d.rw &&& 1) (baseWord s 0x0401) 1))
          (1 &&& 1 &&& d.wo) = none) ∧
    ∃ s, Inv s ∧ accepts host s ∧ s.stg.phase = .idle ∧ stagedAt s 0x0401 ≠ none :=
  ⟨met stagedLive (by decide) ⟨by unfold accepts; decide, by decide, by decide, _, rfl, by decide, by decide, by decide⟩,
    met { live with stg := { live.stg with entries := [⟨0x0401, 1, .ring, 3⟩] } } (by decide)
      ⟨by unfold accepts; decide, by decide, by decide⟩⟩

theorem wit_ClassBWriteActsAtOnce :
    ∃ s, Inv s ∧ accepts host s ∧ (getHall s 7).up = true ∧ (getHall s 7).active = true ∧ hallAt 0x0205 = none ∧
      (∀ c < 4, hallAt (aCh 7 c 0x1C) = some 7) ∧ ∀ a ∈ [0x0205, 0x1600, 0x2A10, aHall 7 0x05, aCh 7 3 0x1C, aCh 7 3 0x18],
        ∃ d, regDesc a = some d ∧ d.cls = .b ∧ d.rw ≠ 0 ∧ (d.rw ||| d.w1c ||| d.wo) &&& 1 ≠ 0 ∧
          homeBad s a (clampValue (modeAt s a) a (merge (d.rw &&& 1) (baseWord s a) 1)) (1 &&& 1 &&& d.wo) = none := by
  refine met hall7 (by decide) ⟨by unfold accepts; decide, by decide, by decide, by decide, by decide, fun a h => ?_⟩
  simp only [List.mem_cons, List.not_mem_nil, or_false] at h
  obtain rfl | rfl | rfl | rfl | rfl | rfl := h <;> exact ⟨_, rfl, by decide, by decide, by decide, by decide⟩

theorem wit_ClassCWriteActsAtOnce :
    ∃ s, Inv s ∧ logicUp s = true ∧
      (∃ d, regDesc 0x0201 = some d ∧ d.cls = .c ∧ d.rw = 0 ∧ d.w1c &&& 0x7F ≠ 0 ∧
        homeBad s 0x0201 (clampValue (modeAt s 0x0201) 0x0201 (merge (d.rw &&& 0x7F) (baseWord s 0x0201) 0x40))
          (0x40 &&& 0x7F &&& d.wo) = none) ∧
      ∃ d, regDesc 0x0214 = some d ∧ d.cls = .c ∧ d.rw &&& 0x20 ≠ 0 ∧
        homeBad s 0x0214 (clampValue (modeAt s 0x0214) 0x0214 (merge (d.rw &&& 0x20) (baseWord s 0x0214) 0x3F))
          (0x3F &&& 0x20 &&& d.wo) = none :=
  met live (by decide) ⟨by decide, ⟨_, rfl, by decide, by decide, by decide, by decide⟩, _, rfl, by decide, by decide, by decide⟩

theorem wit_RefusedWriteChangesNothing :
    regDesc 0x6000 = none ∧ (∃ d, regDesc 0x0000 = some d ∧ (d.rw ||| d.w1c ||| d.wo) &&& 1 = 0) ∧
    ∃ s, Inv s ∧ logicUp s = true ∧ ∃ d r, regDesc 0x0205 = some d ∧ (d.rw ||| d.w1c ||| d.wo) &&& 1 ≠ 0 ∧
      refusal host d.cls 0x0205 (clampValue (modeAt s 0x0205) 0x0205 (merge (d.rw &&& 1) (baseWord s 0x0205) 1))
        (1 &&& 1 &&& d.wo) s = some r :=
  ⟨by decide, ⟨_, rfl, by decide⟩,
    met (updClk (fun c => { c with die := .noImage }) live) (by decide) ⟨by decide, _, _, rfl, by decide, rfl⟩⟩

theorem wit_StreamFramesDeliverRecords :
    (∃ s, Inv s ∧ logicUp s = true ∧ (strRange s 23).1 ≤ strPos s 23 ∧ 23 ∉ s.str.reset ∧ s.bb.frozen = true) ∧
    (∃ s, Inv s ∧ logicUp s = true ∧ (strRange s 21).1 ≤ strPos s 21 ∧ 21 ∈ s.str.reset) ∧
    ∃ s, Inv s ∧ logicUp s = true ∧ strPos s 15 < (strRange s 15).1 :=
  ⟨met { live with bb := { live.bb with frozen := true } } (by decide) (by decide),
    met { live with str := { live.str with reset := [21] } } (by decide) (by decide),
    met (setReg (aConv 15 3) 1 (updConv 15 (fun x => { x with wrap := 2 }) live)) (by decide) (by decide)⟩

theorem wit_SeeksMoveThePosition :
    (∃ s, Inv s ∧ logicUp s = true ∧ 16 ≤ s.str.named % 32) ∧ (∃ s, Inv s ∧ logicUp s = true ∧ 16 ≤ s.str.named % 32) :=
  ⟨met { live with str := { live.str with named := 16 } } (by decide) (by decide),
    met { live with str := { live.str with named := 31 } } (by decide) (by decide)⟩

/-- The block with two audit records in flash, at slots 0 and 1. -/
def audited2 : State := { live with aud := { live.aud with next := 3, index := [(1, 0), (2, 1)], slots := 2 } }

theorem wit_AuditReleaseRule :
    (let newest (s : State) : Nat := match s.aud.index.getLast? with | some e => e.1 | none => s.aud.rel
     let n (s : State) (hi : Word) : Nat := (getReg s 0x2607).toNat + (merge 0xFFFF (baseWord s 0x2608) hi).toNat * 2 ^ 32
     (∃ s, Inv s ∧ logicUp s = true ∧ s.aud.index ≠ [] ∧ min (n s 0) (newest s) ≤ s.aud.rel) ∧
     (∃ s, Inv s ∧ logicUp s = true ∧ s.aud.index ≠ [] ∧ s.aud.rel < min (n s 0) (newest s) ∧ audRoom s 1 = true ∧
       audExhausted s = false) ∧
     ∃ s, Inv s ∧ logicUp s = true ∧ s.aud.index ≠ [] ∧ s.aud.rel < min (n s 0) (newest s) ∧ audExhausted s = true) :=
  ⟨met audited2 (by decide) (by decide), met (setReg 0x2607 7 audited2) (by decide) (by decide),
    met (setReg 0x2607 7 { audited2 with aud := { audited2.aud with slots := 262144 } }) (by decide) (by decide)⟩

/-- An audit record. -/
def rec1 : AudRec := { seq := 1, src := .host, kind := 0, time := 5, op := 0, writer := 0xFFFF, addr := 0x0205, width := 1
                       detail := 0, old := 0, new := 1 }

theorem wit_AuditRecordsReachFlash :
    (∃ s, Inv s ∧ logicUp s = true ∧ nvWritable s = true ∧ s.aud.queue = rec1 :: [] ∧ retBad s (.audit rec1.seq) = false ∧
      audExhausted s = false) ∧
    (∃ s, Inv s ∧ logicUp s = true ∧ nvWritable s = true ∧ s.aud.queue = rec1 :: [] ∧ retBad s (.audit rec1.seq) = false ∧
      audExhausted s = true) ∧
    (∀ w, Config.retHolds (.audit rec1.seq) w = true → ∃ s, Inv s ∧ logicUp s = true ∧ nvWritable s = true ∧
      s.aud.queue = rec1 :: [] ∧ retBad s (.audit rec1.seq) = true) ∧
    ∃ s, Inv s ∧ logicUp s = true ∧ nvWritable s = true ∧ ∃ top, oldestSectorTop s = some top ∧ top ≤ s.aud.rel :=
  ⟨met { chip0 with aud := { chip0.aud with queue := [rec1] } } (by decide) (by decide),
    met { chip0 with aud := { chip0.aud with queue := [rec1], slots := 262144 } } (by decide) (by decide),
    fun w hw => met { chip0 with aud := { chip0.aud with queue := [rec1] }, mem := { chip0.mem with bad := [(1, w)] } } (by exact Nat.zero_le _)
      ⟨rfl, rfl, rfl, by
        show ([(1, w)] : List (Nat × Nat)).any (inRet (.audit rec1.seq)) = true
        simp [inRet, hw]⟩,
    met { chip0 with aud := { chip0.aud with index := [(9, 1023)], slots := 1024, rel := 9 } } (by decide)
      ⟨by decide, by decide, 9, by decide, by decide⟩⟩

/-- Every hall with the fields whose reset value a COMMIT refuses set: wire-break and NE 43 bands, warm-up, blanking, ladder. -/
def configured (s : State) : State :=
  (List.range 8).foldl (fun t h =>
    [(aHall h 0x14, 0x04030201), (aHall h 0x15, 0x04030201), (aHall h 0x16, 0x04030201), (aHall h 0x17, 0x04030201),
     (aHall h 0x40, 0x0C00), (aHall h 0x42, 0x10000), (aHall h 0x54, 0x04030201), (aHall h 0x55, 0x04030201),
     (aHall h 0x56, 0x04030201), (aHall h 0x57, 0x04030201), (aRot h 0, 5)].foldl (fun u e => setReg e.1 e.2 u) t) s

theorem wit_CommitStartsAndAbandonDrops :
    (∃ s, Inv s ∧ logicUp s = true ∧ s.stg.phase = .idle) ∧ (∃ s, Inv s ∧ s.stg.phase ≠ .checking) ∧
    (∃ s, Inv s ∧ logicUp s = true ∧ s.stg.phase = .idle ∧ s.stg.entries ≠ [] ∧ partnerPresent s = true ∧ s.pair.active = true) ∧
    (∃ s r, Inv s ∧ s.stg.phase = .checking ∧ commitRefusal s = some r) ∧
    (∃ s, Inv s ∧ s.stg.phase = .checking ∧ commitRefusal s = none) ∧
    ∃ s, Inv s ∧ s.stg.phase = .checking ∧ commitRefusal s = none ∧ partnerPresent s = true ∧ s.pair.active = true :=
  ⟨met live (by decide) (by decide), met live (by decide) (by decide),
    met { paired with stg := { live.stg with entries := [⟨0x0401, 0, .host, 0xFFFF⟩] } } (by decide) (by decide),
    ⟨fit { live with stg := { live.stg with phase := .checking, entries := [⟨0x0410, 31, .host, 0xFFFF⟩] } }, _,
      inv_fit _ (by decide), rfl, rfl⟩,
    met { configured live with stg := { live.stg with phase := .checking, entries := [⟨0x0401, 0, .host, 0xFFFF⟩] } } (by decide)
      (by decide),
    met { configured paired with stg := { live.stg with phase := .checking, delivered := true, entries := [⟨0x0401, 0, .host, 0xFFFF⟩] } }
      (by decide) (by decide)⟩

theorem wit_CommitAppliesTheShadow :
    (∃ s, Inv s ∧ s.stg.phase ≠ .waiting) ∧
    (∃ s, Inv s ∧ s.stg.phase = .waiting ∧ commitRoom s = false ∧ pairEn s = false) ∧
    (∃ s, Inv s ∧ s.stg.phase = .waiting ∧ commitRoom s = false ∧ pairEn s = true ∧ s.pair.active = false) ∧
    ∃ s, Inv s ∧ s.stg.phase = .waiting ∧ commitRoom s = true ∧
      ∀ e ∈ s.stg.entries, ∀ f ∈ s.stg.entries, f.addr = e.addr → f = e :=
  ⟨met live (by decide) (by decide),
    met { live with
      aud := { live.aud with slots := 261120 }, stg := { live.stg with phase := .waiting, entries := [⟨0x0401, 1, .host, 0xFFFF⟩] } }
      (by decide) (by decide),
    met { standby with
      aud := { live.aud with slots := 261120 }, stg := { live.stg with phase := .waiting, entries := [⟨0x0401, 1, .host, 0xFFFF⟩] } }
      (by decide) (by decide),
    met { live with stg := { live.stg with phase := .waiting, entries := [⟨0x0401, 1, .host, 0xFFFF⟩] } } (by decide) (by decide)⟩

theorem wit_ImageWritingCommands :
    (∃ s, Inv s ∧ acceptsAct host 0x2D0A 1 s ∧ s.img.phase = 0) ∧
    (∃ s, Inv s ∧ logicUp s = true ∧ s.img.phase = 2 ∧ s.img.woff < 1048576 ∧ pageHeld s < 16384 ∧ (s.img.woff + 4) % 256 ≠ 0) ∧
    (∃ s, Inv s ∧ logicUp s = true ∧ s.img.phase = 2 ∧ s.img.woff < 1048576 ∧ pageHeld s < 16384 ∧ (s.img.woff + 4) % 256 = 0 ∧
      nvWritable s = true) ∧
    (∃ s, Inv s ∧ logicUp s = true ∧ s.img.woff ≤ (0x000FFFFC : Word).toNat ∧
      (0x000FFFFC : Word) &&& 0x000FFFFC = 0x000FFFFC ∧ (0x000FFFFC : Word).toNat = s.img.woff) ∧
    (∃ s, Inv s ∧ logicUp s = true ∧ s.img.woff ≤ (0x000FFFFC : Word).toNat ∧ (0x000FFFFC : Word).toNat ≠ s.img.woff ∧
      s.img.page ≠ [] ∧ nvWritable s = true) ∧
    (∃ s, Inv s ∧ acceptsAct host 0x2D0A 2 s ∧ s.img.phase = 2 ∧ s.img.page = []) ∧
    ∃ s, Inv s ∧ acceptsAct host 0x2D0A 2 s ∧ s.img.phase = 2 ∧ s.img.page ≠ [] ∧ nvWritable s = true :=
  ⟨met chip0 (by decide) (by unfold acceptsAct; decide),
    met (updImg (fun x => { x with phase := 2 }) chip0) (by decide) (by decide),
    met (updImg (fun x => { x with phase := 2, woff := 1048572 }) chip0) (by decide) (by decide),
    met (updImg (fun x => { x with phase := 2, woff := 0xFFFFC }) chip0) (by decide) (by decide),
    met (updImg (fun x => { x with phase := 2, woff := 4, page := [1, 2, 3, 4] }) chip0) (by decide) (by decide),
    met (updImg (fun x => { x with phase := 2 }) chip0) (by decide) (by unfold acceptsAct; decide),
    met (updImg (fun x => { x with phase := 2, woff := 4, page := [1, 2, 3, 4] }) chip0) (by decide) (by unfold acceptsAct; decide)⟩

/-- A page on its way to chip 0, chip 1 absent. -/
def pageJob : FlashJob := { kind := .page 1, off := 0x100000, bytes := [1, 2, 3, 4], use0 := true, use1 := false, r0 := none
                            r1 := some false, tries := 0 }

theorem wit_VerificationAbortAndAbandon :
    (∃ s, Inv s ∧ s.img.phase ≠ 3) ∧ (∃ s, Inv s ∧ s.img.phase = 3 ∧ s.nv.jobs.any isPageJob = true) ∧
    (∃ s r, Inv s ∧ s.img.phase = 3 ∧ s.nv.jobs.any isPageJob = false ∧
      (if nvWritable s then newCopyBad s else some (refuseWhole 1)) = some r) ∧
    (∃ s, Inv s ∧ acceptsAct host 0x2D0A 4 s ∧ 1 ≤ s.img.phase ∧ s.img.phase ≤ 4) ∧
    (∃ s, Inv s ∧ acceptsAct host 0x2D0A 4 s ∧ s.img.phase = 0 ∧ s.img.copies.getD (2 * 0 + idleSlot s) 0 = 6) ∧
    (∃ s, Inv s ∧ s.img.rollAt = some 7 ∧ s.img.phase = 6 ∧ s.pair.hoRoll = false ∧ rejoined s = false) ∧
    (∃ s, Inv s ∧ s.img.rollAt = some 7 ∧ s.img.phase = 6 ∧ s.pair.hoRoll = false ∧ rejoined s = true ∧ s.pair.otherGen ≠ newGen s) ∧
    (∃ s, Inv s ∧ s.img.rollAt = some 7 ∧ s.img.phase = 6 ∧ s.pair.hoRoll = false ∧ rejoined s = true ∧ s.pair.otherGen = newGen s) ∧
    ∃ s, Inv s ∧ (s.img.rollAt = none ∨ s.img.phase ≠ 6 ∨ s.pair.hoRoll = true) :=
  ⟨met live (by decide) (by decide),
    met { updImg (fun x => { x with phase := 3 }) live with nv := { chip0.nv with jobs := [pageJob] } } (by decide) (by decide),
    ⟨fit (updImg (fun x => { x with phase := 3 }) live), _, inv_fit _ (by decide), rfl, by decide, rfl⟩,
    met (updImg (fun x => { x with phase := 4 }) live) (by decide) (by unfold acceptsAct; decide),
    met (updImg (fun x => { x with copies := [1, 6, 1, 6] }) live) (by decide) (by unfold acceptsAct; decide),
    met (updImg (fun x => { x with phase := 6, rollAt := some 7 }) live) (by decide) (by decide),
    met (updPair (fun p => { p with away := true, joined := true, otherGen := 8 })
      (updImg (fun x => { x with phase := 6, rollAt := some 7, gens := [9, 9, 9, 9] }) live)) (by decide) (by decide),
    met (updPair (fun p => { p with away := true, joined := true, otherGen := 9 })
      (updImg (fun x => { x with phase := 6, rollAt := some 7, gens := [9, 9, 9, 9] }) live)) (by decide) (by decide),
    met live (by decide) (by decide)⟩

/-- A reload of hall 7 at work. -/
def rel7 : Reload :=
  { hall := 7, op := 1, start := 0, tries := 0, confirmed := false, flights := true, released := false, fromNew := false }

theorem wit_HallReloadSteps :
    (∃ s, Inv s ∧ acceptsAct host 0x2D0A (BitVec.ofNat 32 (7 * 256 + 5)) s ∧ s.clk.die = .applied ∧ reloadAllowed s = true ∧
      s.clk.straps ≠ 2 ∧ hallEn s 7 = true ∧ (getHall s 7).up = true) ∧
    (∃ s, Inv s ∧ (s.img.reloads.find? fun r => !r.confirmed) = none) ∧
    (∃ s, Inv s ∧ (s.img.reloads.find? fun r => !r.confirmed) = some rel7 ∧ (getHall s rel7.hall).up = true) ∧
    (∃ s, Inv s ∧ (s.img.reloads.find? fun r => !r.confirmed) = some rel7 ∧ (getHall s rel7.hall).up = false ∧ rel7.tries = 0) ∧
    (∃ s, Inv s ∧ (s.img.reloads.find? fun r => !r.confirmed) = some { rel7 with tries := 1 } ∧ s.img.phase ≠ 5) ∧
    ∃ s, Inv s ∧ (s.img.reloads.find? fun r => !r.confirmed) = some { rel7 with tries := 1 } ∧ s.img.phase = 5 :=
  ⟨met (setReg (aHall 7 1) 1 hall7) (by decide) (by unfold acceptsAct; decide),
    met live (by decide) (by decide),
    met (updImg (fun x => { x with reloads := [rel7] }) hall7) (by decide) (by decide),
    met (updImg (fun x => { x with reloads := [rel7] }) live) (by decide) (by decide),
    met (updImg (fun x => { x with reloads := [{ rel7 with tries := 1 }] }) live) (by decide) (by decide),
    met (updImg (fun x => { x with phase := 5, reloads := [{ rel7 with tries := 1 }] }) live) (by decide) (by decide)⟩

theorem wit_ReloadReleaseAnnounceAndWarmUp :
    (∃ s, Inv s ∧ (s.img.reloads.find? fun r => r.confirmed && !r.released) = none) ∧
    (∃ s, Inv s ∧ (s.img.reloads.find? fun r => r.confirmed && !r.released) = some { rel7 with confirmed := true } ∧
      s.img.phase ≠ 5 ∧ reloadOf s 7 = some { rel7 with confirmed := true }) ∧
    (∃ s, Inv s ∧ ¬ ((getHall s 7).up = true ∧ (getHall s 7).active = false ∧ (s.clk.die = .chosen ∨ s.clk.die = .applied))) ∧
    (∃ s, Inv s ∧ (getHall s 7).up = true ∧ (getHall s 7).active = false ∧ s.clk.die = .chosen ∧ (getHall s 7).since = true ∧
      reloadOf s 7 = some rel7 ∧ rel7.op ≠ s.jnl.next ∧ hallEn s 7 = true ∧ s.clk.straps ≠ 2) ∧
    (∃ s, Inv s ∧ (getHall s 7).up = true ∧ (getHall s 7).active = false ∧ s.clk.die = .applied ∧ hallEn s 7 = false) ∧
    (∃ s, Inv s ∧ ¬ ((getHall s 7).up = true ∧ (getHall s 7).warming = true)) ∧
    ∃ s, Inv s ∧ (getHall s 7).up = true ∧ (getHall s 7).warming = true ∧ (getHall s 7).active = true ∧ s.clk.modclk = true :=
  ⟨met live (by decide) (by decide),
    met (updImg (fun x => { x with reloads := [{ rel7 with confirmed := true }] }) hall7) (by decide) (by decide),
    met live (by decide) (by decide),
    met (updImg (fun x => { x with reloads := [rel7] }) (setReg (aHall 7 1) 1 (updHall 7 (fun x => { x with up := true, since := true })
      { updClk (fun c => { c with die := .chosen }) live with jnl := { live.jnl with next := 5 } }))) (by decide) (by decide),
    met (updHall 7 (fun x => { x with up := true }) live) (by decide) (by decide),
    met hall7 (by decide) (by decide),
    met (updHall 7 (fun x => { x with warming := true }) hall7) (by decide) (by decide)⟩

theorem wit_ActivationAndSwitch :
    (∃ s, Inv s ∧ acceptsAct host 0x2D0A 3 s ∧ s.img.phase = 4 ∧ partnerPresent s = false ∧
      (s.img.reloads.any fun r => !r.released) = false ∧ (hallsToReload s (newImg s)).head? = some 7) ∧
    (∃ s, Inv s ∧ acceptsAct host 0x2D0A 3 s ∧ s.img.phase = 4 ∧ partnerPresent s = false ∧
      (s.img.reloads.any fun r => !r.released) = true) ∧
    (∃ s, Inv s ∧ ¬ (s.img.phase = 5 ∧ s.img.queue = [] ∧ (∀ r ∈ s.img.reloads, r.released = true) ∧ s.clk.halt = none)) ∧
    (∃ s, Inv s ∧ s.img.phase = 5 ∧ s.img.queue = [] ∧ (∀ r ∈ s.img.reloads, r.released = true) ∧ s.clk.halt = none) ∧
    (∃ s, Inv s ∧ acceptsAct host 0x2D0A 3 s ∧ s.img.phase = 4 ∧ partnerPresent s = false ∧ imageNone s = true ∧
      hallsToReload s (newImg s) = []) :=
  ⟨met (updImg (fun x => { x with phase := 4 }) { hall7 with nv := chip0.nv }) (by decide) (by unfold acceptsAct; decide),
    met (updImg (fun x => { x with phase := 4, reloads := [rel7] }) { hall7 with nv := chip0.nv }) (by decide)
      (by unfold acceptsAct; decide),
    met live (by decide) (by decide),
    met (updImg (fun x => { x with phase := 5, reloads := [{ rel7 with released := true }] }) live) (by decide) (by decide),
    met (updImg (fun x => { x with phase := 4 }) (updClk (fun c => { c with die := .noImage }) chip0)) (by decide)
      (by unfold acceptsAct; decide)⟩

theorem wit_RollAndOtherCopies :
    (∀ p, Config.statusOf (mreads 0 [(0xFC00, 1)] 0xFC00 64) = p → p.phase = 4 → p.newGen = 9 →
      ∃ s, Inv s ∧ acceptsAct host 0x2D0A 6 s ∧ s.img.phase = 4 ∧ s.pair.active = true ∧ partnerPresent s = true ∧
        partnerVerified s = true) ∧
    (∃ s, Inv s ∧ s.img.phase = 6 ∧ hoAllowed s = true ∧ logicUp s = true) ∧
    (∃ s, Inv s ∧ s.img.phase ≠ 6) ∧ (∃ s, Inv s ∧ s.img.phase = 6 ∧ hoAllowed s = false) ∧
    (∃ s, Inv s ∧ ¬ (logicUp s = true ∧ imageNone s = false ∧ s.eng.running = true)) ∧
    ∃ s, Inv s ∧ logicUp s = true ∧ imageNone s = false ∧ s.eng.running = true ∧ imgDiverged s = false ∧
      (0 < 4 ∧ 0 ≠ 2 * s.img.chip + s.img.slot ∧ 0 ≠ 2 * (1 - s.img.chip) + s.img.slot) :=
  ⟨fun p hp h1 h2 => met (updImg (fun x => { x with phase := 4, gens := [9, 9, 9, 9] })
        { paired with mem := { paired.mem with mirror := [(0xFC00, 1)] } }) (by decide)
      ⟨by unfold acceptsAct; decide, by decide, by decide, by decide, by
        subst hp
        show (decide ((Config.statusOf (mreads 0 [(0xFC00, 1)] 0xFC00 64)).phase = 4) &&
          decide ((Config.statusOf (mreads 0 [(0xFC00, 1)] 0xFC00 64)).newGen = 9)) = true
        simp only [h1, h2, decide_true, Bool.and_self]⟩,
    met (updImg (fun x => { x with phase := 6 }) paired) (by decide) (by decide),
    met live (by decide) (by decide), met (updImg (fun x => { x with phase := 6 }) live) (by decide) (by decide),
    met live (by decide) (by decide),
    met (updImg (fun x => { x with slot := 1 }) { live with eng := { engReset with running := true } }) (by decide) (by decide)⟩

theorem wit_ResetsOfTheLogicDie :
    (∃ s, Inv s ∧ heldInReset s = true ∧ mayRelease ⟨true, true, false⟩ s = true ∧ s.bb.frozen = false) ∧
    (∃ s, Inv s ∧ s.clk.die = .hot ∧ mayRelease ⟨true, true, true⟩ s = true ∧ mayRelease ⟨true, true, false⟩ s = false) ∧
    (∃ s, Inv s ∧ heldInReset s = false ∧ s.bb.frozen = false ∧ logicUp s = true) ∧
    (∃ s, Inv s ∧ s.clk.die = .released) ∧
    ∃ s, Inv s ∧ logicUp s = false ∧ s.clk.die ≠ .released :=
  ⟨met State.reset (by decide) (by decide), met (updClk (fun c => { c with die := .hot }) live) (by decide) (by decide),
    met live (by decide) (by decide),
    met (updClk (fun c => { c with die := .released }) live) (by decide) (by decide),
    met (updClk (fun c => { c with die := .hot }) live) (by decide) (by decide)⟩

/-- The block with its engine running. -/
def running : State := { live with eng := { engReset with running := true } }

theorem wit_WatchdogPeriodAndExpiry :
    (∃ s, Inv s ∧ wdRuns s = false) ∧
    (∃ s, Inv s ∧ wdRuns s = true ∧ wdMissing (moveTo (wdQuarter s 3) s) = 0 ∧ wdMissing (moveTo (wdQuarter s 4) s) = 0) ∧
    (∃ s, Inv s ∧ wdRuns s = true ∧ wdMissing (moveTo (wdQuarter s 3) s) ≠ 0 ∧ wdMissing (moveTo (wdQuarter s 4) s) ≠ 0 ∧
      s.bb.frozen = false) ∧
    (∃ s, Inv s ∧ s.clk.die = .wdReset) ∧ (∃ s, Inv s ∧ s.clk.die ≠ .wdReset) ∧
    (∃ s, Inv s ∧ (logicUp s = true ∧ s.ml.loop = none) ∧ logicUp s = true ∧ takesBoundaries s = true) ∧
    ¬ (((9 : Fin 16) = 10 ∧ logicUp live = true ∧ live.ml.loop = none) ∨ ((9 : Fin 16) = 12 ∧ logicUp live = true) ∨
      ((9 : Fin 16) = 14 ∧ (takesBoundaries live = true ∨ imageNone live = true))) :=
  ⟨met State.reset (by decide) (by decide),
    met { running with wd := { running.wd with checked := 0x4000 } } (by decide) (by decide),
    met running (by decide) (by decide),
    met (updClk (fun c => { c with die := .wdReset }) live) (by decide) (by decide),
    met live (by decide) (by decide), met live (by decide) (by decide), by decide⟩

theorem wit_StartSequenceSteps :
    (∃ s, Inv s ∧ s.clk.die ≠ .released ∧ s.clk.die ≠ .locked) ∧
    (∃ s, Inv s ∧ s.clk.die = .released ∧ s.clk.vbatDropLatch = false) ∧
    (∃ s, Inv s ∧ s.clk.die = .locked) ∧
    (∃ s, Inv s ∧ takesBoundaries s = true ∧ s.clk.straps ≠ 2 ∧ s.clk.reconciled = false ∧ runEn s 7 = true) ∧
    (∃ s, Inv s ∧ ¬ ((takesBoundaries s = true ∧ s.clk.straps ≠ 2) ∧ s.clk.reconciled = false)) ∧
    (∃ s, Inv s ∧ ¬ ((takesBoundaries s = true ∧ s.clk.straps ≠ 2) ∧ pairEn s = true ∧ s.clk.reconciled = true ∧
      s.pair.confirmed = false)) ∧
    ∃ s, Inv s ∧ (takesBoundaries s = true ∧ s.clk.straps ≠ 2) ∧ pairEn s = true ∧ s.clk.reconciled = true ∧
      s.pair.confirmed = false ∧ PartnerAnswer.answers 0x55 false = .answers (pairId s) s.clk.roleStrap :=
  ⟨met live (by decide) (by decide),
    met (updClk (fun c => { c with die := .released }) State.reset) (by decide) (by decide),
    met (updClk (fun c => { c with die := .locked }) State.reset) (by decide) (by decide),
    met (setReg (aRun 7 0) 0x80000000 live) (by decide) (by decide),
    met State.reset (by decide) (by decide), met live (by decide) (by decide),
    met (updPair (fun p => { p with confirmed := false }) (updClk (fun c => { c with reconciled := true }) paired)) (by decide) (by decide)⟩

theorem wit_FirstValidRunTickReleases :
    (∃ s, Inv s ∧ mayRun s = false) ∧
    ∃ s, Inv s ∧ mayRun s = true ∧ s.clk.cause = 2 ∧ (getHall s 7).up = true :=
  ⟨met live (by decide) (by decide),
    met (updClk (fun c => { c with reconciled := true, cause := 2 }) hall7) (by decide) (by decide)⟩

theorem wit_DebugHaltAndResume :
    (∃ s, Inv s ∧ ¬ (logicUp s = true ∧ s.clk.halt = none)) ∧
    (∃ s, Inv s ∧ logicUp s = true ∧ s.clk.halt = none ∧ (s.pair.active = false ∨ partnerPresent s = false) ∧ audRoom s 1 = true) ∧
    (∃ s, Inv s ∧ logicUp s = true ∧ s.clk.halt = none ∧ s.pair.active = true ∧ partnerPresent s = true ∧ hoAllowed s = true) ∧
    (∃ s, Inv s ∧ logicUp s = true ∧ s.clk.halt = none ∧ s.pair.active = true ∧ partnerPresent s = true ∧ hoAllowed s = false) ∧
    (∃ s, Inv s ∧ s.clk.halt = none) ∧ ∃ s, Inv s ∧ s.clk.halt = some 9 ∧ audRoom s 1 = true ∧ s.eng.late = none :=
  ⟨met State.reset (by decide) (by decide), met live (by decide) (by decide), met paired (by decide) (by decide),
    met (updPair (fun p => { p with partnerReady := false }) paired) (by decide) (by decide),
    met live (by decide) (by decide), met (updClk (fun c => { c with halt := some 9 }) live) (by decide) (by decide)⟩

theorem wit_ClockSupplyAndMemoryMonitors :
    (∃ s, Inv s ∧ logicUp s = true ∧ s.clk.tclkXin = false ∧ s.clk.lock.testBit (3 : Fin 4).val = true ∧ s.bb.frozen = false) ∧
    (∃ s, Inv s ∧ logicUp s = true ∧ s.clk.tclkXin = true ∧ s.clk.lock.testBit (3 : Fin 4).val = false) ∧
    (∃ s, Inv s ∧ logicUp s = false) ∧
    (∃ s, Inv s ∧ (s.mem.bad.find? fun e => e.1 = 2 && 8192 * s.mem.half ≤ e.2 && e.2 < 8192 * s.mem.half + 8192) = none) ∧
    (∃ s, Inv s ∧ (s.mem.bad.find? fun e => e.1 = 2 && 8192 * s.mem.half ≤ e.2 && e.2 < 8192 * s.mem.half + 8192) =
      some (2, 16383) ∧ takesBoundaries s = true) ∧
    ∃ s, Inv s ∧ (s.mem.bad.find? fun e => e.1 = 2 && 8192 * s.mem.half ≤ e.2 && e.2 < 8192 * s.mem.half + 8192) =
      some (2, 0) ∧ takesBoundaries s = false :=
  ⟨met live (by decide) (by decide),
    met (updClk (fun c => { c with tclkXin := true, lock := 7 }) live) (by decide) (by decide),
    met State.reset (by decide) (by decide), met live (by decide) (by decide),
    met { live with mem := { live.mem with half := 1, bad := [(2, 8191), (2, 16383)] } } (by decide) (by decide),
    met { State.reset with mem := { State.reset.mem with bad := [(2, 0)] } } (by decide) (by decide)⟩

theorem wit_HallStatusFlagsFollowMeasures :
    (∃ s, Inv s ∧ (getHall s 7).up = false) ∧
    (∃ s, Inv s ∧ (getHall s 7).up = true ∧ bit (getHall s 7).stat 1 = false ∧ bit (getHall s 7).stat 2 = false ∧
      bit (getHall s 7).stat 9 = false ∧ modeOf s 7 3 = 15 ∧ modeOf s 7 2 = 5 ∧ isOutMode (modeOf s 7 3) = true ∧
      (getChan s 7 3).ramp = none) ∧ (1200 : Int) < 1201 ∧ (1149 : Int) < 1150 ∧ (1400 : Int) < 1401 :=
  ⟨met live (by decide) (by decide),
    met (updChan 7 3 (fun x => { x with mode := 15 }) (updChan 7 2 (fun x => { x with mode := 5 }) hall7)) (by decide) (by decide),
    by decide⟩

theorem wit_Sag3AndItsRecovery :
    (∃ s, Inv s ∧ (getHall s 7).up = true ∧ bit (getHall s 7).stat 3 = false ∧ modeOf s 7 3 = 15) ∧
    (∃ s, Inv s ∧ (getHall s 7).up = true ∧ bit (getHall s 7).stat 3 = false ∧
      (∀ c < 4, modeOf s 7 c ≠ 15 ∧ (getChan s 7 c).ramp = none) ∧ isOutMode (modeOf s 7 3) = true) ∧
    (∃ s, Inv s ∧ (getHall s 7).up = true ∧ bit (getHall s 7).stat 3 = true ∧ bit (getHall s 7).stat 4 = false) ∧
    (∃ s, Inv s ∧ (getHall s 7).up = true ∧ bit (getHall s 7).stat 3 = true ∧ bit (getHall s 7).stat 4 = true ∧
      isOutMode (modeOf s 7 3) = true ∧ leadOf s 7 3 = 3 ∧ bit (chSafeW s 7 3) 3 = true ∧ (getHall s 7).uvrSag = false ∧
      (getChan s 7 3).latch = .none) ∧
    (∃ s, Inv s ∧ (getHall s 7).up = true ∧ bit (getHall s 7).stat 3 = true ∧ bit (getHall s 7).stat 4 = true ∧
      (getHall s 7).hold = true) ∧
    (∃ s, Inv s ∧ (getHall s 7).up = true ∧ bit (getHall s 7).stat 3 = true ∧ bit (getHall s 7).stat 4 = true ∧
      modeOf s 7 3 = 15 ∧ bit (chSafeW s 7 3) 3 = false ∧ (getHall s 7).hold = false ∧
      ∃ t, exec (.recoveryEnd 7) s = .next t ∧ outRank t 7 3 = 5) ∧
    (∃ s, Inv s ∧ (getHall s 7).up = true ∧ ((List.range 4).find? fun c => (getChan s 7 c).queued) = none) ∧
    ∃ s, Inv s ∧ (getHall s 7).up = true ∧ ((List.range 4).find? fun c => (getChan s 7 c).queued) = some 3 :=
  ⟨met (updChan 7 3 (fun x => { x with mode := 15 }) hall7) (by decide) (by decide),
    met (updChan 7 3 (fun x => { x with mode := 13 }) hall7) (by decide) (by decide),
    met (updHall 7 (fun x => { x with stat := 8 }) hall7) (by decide) (by decide),
    met (updHall 7 (fun x => { x with stat := 24 }) (updChan 7 3 (fun x => { x with mode := 13 }) (setHcfg 7 (aCh 7 3 0x18) 8 hall7)))
      (by decide) (by decide),
    met (updHall 7 (fun x => { x with stat := 24, hold := true }) hall7) (by decide) (by decide),
    met (updHall 7 (fun x => { x with stat := 24 }) (updChan 7 3 (fun x => { x with mode := 15 }) hall7)) (by decide)
      ⟨by decide, by decide, by decide, by decide, by decide, by decide, _, rfl, by decide⟩,
    met hall7 (by decide) (by decide),
    met (updChan 7 3 (fun x => { x with queued := true }) hall7) (by decide) (by decide)⟩

theorem wit_HeartbeatsAndStatusFrames :
    (∃ s, Inv s ∧ heartbeatAllowed s = false) ∧ (∃ s, Inv s ∧ heartbeatAllowed s = true) ∧
    (∃ s, Inv s ∧ (getHall s 7).up = true ∧ (getHall s 7).hbSeq ≠ some (5 : BitVec 16).toNat ∧ bit (getHall s 7).stat 5 = true ∧
      s.clk.phase = 1) ∧
    (∃ s, Inv s ∧ ¬ ((getHall s 7).up = true ∧ (getHall s 7).hbSeq ≠ some (5 : BitVec 16).toNat)) ∧
    (∃ s, Inv s ∧ (getHall s 7).up = false ∧ logicUp s = false) ∧
    (∃ s, Inv s ∧ (getHall s 7).up = true ∧ logicUp s = true ∧ bit (getReg s (aHall 7 0x03)) 0 = false) ∧
    (∃ s, Inv s ∧ (getHall s 7).up = true ∧ isOutMode (modeOf s 7 3) = true ∧ (getChan s 7 3).ramp = none ∧
      ∃ t, exec (.hbLoss 7) s = .next t ∧ outRank t 7 3 = 4) :=
  ⟨met State.reset (by decide) (by decide), met live (by decide) (by decide),
    met (updClk (fun c => { c with phase := 1 }) (updHall 7 (fun x => { x with stat := 32 }) hall7)) (by decide) (by decide),
    met (updHall 7 (fun x => { x with hbSeq := some 5 }) hall7) (by decide) (by decide),
    met State.reset (by decide) (by decide), met (setReg (aHall 7 3) 0 hall7) (by decide) (by decide),
    met (updChan 7 3 (fun x => { x with mode := 13 }) hall7) (by decide) ⟨by decide, by decide, by decide, _, rfl, by decide⟩⟩

theorem wit_UnderVoltageResetAndExit :
    (∃ s, Inv s ∧ (getHall s 7).up = false) ∧ ∃ s, Inv s ∧ (getHall s 7).up = true :=
  ⟨met live (by decide) (by decide), met hall7 (by decide) (by decide)⟩

theorem wit_ChannelInputsFollowTheirTerminals :
    (∃ s, Inv s ∧ (getHall s 7).up = false) ∧
    (∃ s, Inv s ∧ (getHall s 7).up = true ∧ ((getChan s 7 3).mode = 1 ∨ (getChan s 7 3).mode = 2) ∧ s.clk.modclk = true ∧
      true ≠ bit (getChan s 7 3).stat 0) ∧
    (∃ s, Inv s ∧ (getHall s 7).up = true ∧ (getChan s 7 3).mode = 3 ∧ wbNeeded (chCfgW s 7 3) ≤ min ((getChan s 7 3).wbCount + 1) 1000 ∧
      (getChan s 7 3).wbBand = wbBand (hcfg s 7 (aHall 7 (0x14 + 3))) 8000 ∧ wbBand (hcfg s 7 (aHall 7 (0x14 + 3))) 8000 ≠ 4) ∧
    (∃ s, Inv s ∧ (getHall s 7).up = true ∧ ¬ ((getChan s 7 3).mode ≠ 4 ∨ s.clk.modclk = false ∨
        10000 < 1000 * bits (chCfgW s 7 3) 16 14) ∧ edgeSelected (chCfgW s 7 3) true = true ∧
      edgeSelected (chCfgW s 7 3) false = false ∧ bit (getChan s 7 3).stat 10 = false ∧ ¬ 10000 < 10000 ∧
      (getChan s 7 3).pstep = some 0 ∧ 0 ≤ edgeStep s ∧ (edgeStep s - 0) * 15625 / 4096 ≤ 0xFFFFFFFF) ∧
    (∃ s, Inv s ∧ (getHall s 7).up = true ∧ (getChan s 7 3).mode = 4 ∧ bit (getChan s 7 3).stat 10 = true ∧ s.clk.modclk = true ∧
      edgeSelected (chCfgW s 7 3) true = true) ∧
    (∃ s, Inv s ∧ (getHall s 7).up = true ∧ (getChan s 7 3).mode = 4 ∧ mirrorSends s = true) ∧
    ∃ s, Inv s ∧ (getHall s 7).up = true ∧ (getChan s 7 3).mode = 4 ∧ logicUp s = true :=
  ⟨met live (by decide) (by decide),
    met (updChan 7 3 (fun x => { x with mode := 2 }) hall7) (by decide) (by decide),
    met (updChan 7 3 (fun x => { x with mode := 3, wbCount := 999, wbBand := wbBand 0 8000 }) hall7) (by decide) (by decide),
    met (updChan 7 3 (fun x => { x with mode := 4, pstep := some 0 }) hall7) (by decide) (by decide),
    met (updChan 7 3 (fun x => { x with mode := 4, stat := 0x400 }) hall7) (by decide) (by decide),
    met (updChan 7 3 (fun x => { x with mode := 4 }) (updHall 7 hallUp paired)) (by decide) (by decide),
    met (updChan 7 3 (fun x => { x with mode := 4 }) hall7) (by decide) (by decide)⟩


/-- Hall 7 with channel 3 in mode `m`, changed by `f`. -/
def chan73 (m : Nat) (f : ChanState → ChanState) : State := updChan 7 3 (fun x => f { x with mode := m }) hall7

theorem wit_OutputCommandsModesAndRamps :
    (∃ s, Inv s ∧ (getHall s 7).up = false) ∧
    (∃ s, Inv s ∧ (getHall s 7).up = true ∧ poutRun s 31 = some 7) ∧
    (∃ s, Inv s ∧ (getHall s 7).up = true ∧ poutRun s 31 = none ∧ (getChan s 7 3).mode = 15 ∧ (getChan s 7 3).ramp = none ∧
      (getHall s 7).hold = false ∧ (getChan s 7 3).queued = false ∧ outRank s 7 3 = 5) ∧
    (∃ s, Inv s ∧ (getHall s 7).up = true ∧ (getChan s 7 3).newMode = none) ∧
    (∃ s, Inv s ∧ (getHall s 7).up = true ∧ (getChan s 7 3).newMode = some (16, 100000)) ∧
    (∃ s, Inv s ∧ (getHall s 7).up = true ∧ (getChan s 7 3).ramp = some ⟨0, 4000, 5, 200000, 5⟩ ∧ (getChan s 7 3).mode = 15 ∧
      (getHall s 7).hold = false ∧ (getChan s 7 3).queued = false ∧ outRank s 7 3 = 5) ∧
    ∃ s, Inv s ∧ (getHall s 7).up = true ∧ (getChan s 7 3).ramp = some ⟨0, 4000, 5, 200000, 5⟩ ∧
      isOutMode (getChan s 7 3).mode = false :=
  ⟨met live (by decide) (by decide),
    met (setReg (aRun 7 0) 0x80000000 (setReg (aRun 7 3) 0xFC0 hall7)) (by decide) (by decide),
    met (chan73 15 id) (by decide) (by decide), met hall7 (by decide) (by decide),
    met (chan73 0 (fun x => { x with newMode := some (16, 100000) })) (by decide) (by decide),
    met (chan73 15 (fun x => { x with ramp := some ⟨0, 4000, 5, 200000, 5⟩ })) (by decide) (by decide),
    met (chan73 0 (fun x => { x with ramp := some ⟨0, 4000, 5, 200000, 5⟩ })) (by decide) (by decide)⟩

theorem wit_SwitchOffsAndRetries :
    (∃ s, Inv s ∧ (getHall s 7).up = false) ∧
    (∃ s, Inv s ∧ (getHall s 7).up = true ∧ (getChan s 7 3).mode = 13 ∧ stageOn s 7 3 = true ∧ sharedStandby s 7 3 = false ∧
      handoverOverlap s 7 3 = false ∧ (getChan s 7 3).attempts < retryCount s 7 ∧ (getChan s 7 3).ramp = none ∧ sagRamping s 7 = false) ∧
    (∃ s, Inv s ∧ (getHall s 7).up = true ∧ (getChan s 7 3).mode = 13 ∧ stageOn s 7 3 = true ∧
      retryCount s 7 ≤ (if bit (getChan s 7 3).stat 9 then (getChan s 7 3).attempts + 1 else (getChan s 7 3).attempts)) ∧
    (∃ s, Inv s ∧ (getHall s 7).up = true ∧ (getChan s 7 3).mode = 16 ∧ offLong s 7 3 = true ∧ sharedStandby s 7 3 = false) ∧
    (∃ s, Inv s ∧ (getHall s 7).up = true ∧ (getChan s 7 3).mode = 5) ∧
    (∃ s, Inv s ∧ (getHall s 7).up = true ∧ (getChan s 7 3).mode = 6) ∧
    (∃ s, Inv s ∧ (getHall s 7).up = true ∧ (getChan s 7 3).cut = true ∧ bit (getChan s 7 3).stat 9 = true ∧
      bit (getHall s 7).stat 3 = false) ∧
    (∃ s, Inv s ∧ (getHall s 7).up = true ∧ (getChan s 7 3).cut = false ∧ bit (getChan s 7 3).stat 9 = true) ∧
    (∃ s, Inv s ∧ (getHall s 7).up = true ∧ (getChan s 7 3).mode = 14 ∧ stageOn s 7 3 = true ∧ sharedStandby s 7 3 = false ∧
      handoverOverlap s 7 3 = false) ∧
    ∃ s, Inv s ∧ (getHall s 7).up = true ∧ (getChan s 7 3).mode = 14 ∧ offLong s 7 3 = true ∧ sharedStandby s 7 3 = false ∧
      handoverOverlap s 7 3 = false :=
  ⟨met live (by decide) (by decide),
    met (setHcfg 7 (aHall 7 1) 0x30 (chan73 13 (fun x => { x with drive := 1 }))) (by decide) (by decide),
    met (chan73 13 (fun x => { x with drive := 1 })) (by decide) (by decide),
    met (chan73 16 (fun x => { x with drive := 500000 })) (by decide) (by decide),
    met (chan73 5 id) (by decide) (by decide), met (chan73 6 id) (by decide) (by decide),
    met (chan73 13 (fun x => { x with cut := true, stat := 0x200 })) (by decide) (by decide),
    met (chan73 13 (fun x => { x with stat := 0x200 })) (by decide) (by decide),
    met (chan73 14 (fun x => { x with drive := 1 })) (by decide) (by decide),
    met (chan73 14 id) (by decide) (by decide)⟩

/-- Hall 7 with a working chip to take audit records. -/
def hall7nv : State := { hall7 with nv := chip0.nv }

theorem wit_HallAckForceSafeAndForce :
    (∃ s, Inv s ∧ (getHall s 7).up = true ∧ logicUp s = true ∧ modeOf s 7 3 = 13 ∧ bit (getChan s 7 3).stat 7 = true ∧
      (8 : BitVec 4).getLsbD 3 = true) ∧
    (∃ s, Inv s ∧ (getHall s 7).up = true ∧ acceptsAct host (aHall 7 0x05) 1 s ∧ baseWord s (aHall 7 0x05) &&& 0xFFFFFFFE = 0) ∧
    (∃ s, Inv s ∧ (getHall s 7).up = true ∧ acceptsAct host (aHall 7 0x6C) 1 s ∧ (getHall s 7).excNew = none) ∧
    ∃ s, Inv s ∧ (getHall s 7).up = true ∧ acceptsAct host (aHall 7 0x6C) 1 s ∧ (getHall s 7).excNew ≠ none :=
  ⟨met (chan73 13 (fun x => { x with stat := 0x80 })) (by decide) (by decide),
    met hall7nv (by decide) (by unfold acceptsAct; decide), met hall7nv (by decide) (by unfold acceptsAct; decide),
    met (updHall 7 (fun x => { x with excNew := some x.exc }) hall7nv) (by decide) (by unfold acceptsAct; decide)⟩

theorem wit_CurrentOutputMonitorAndExcitation :
    (∃ s, Inv s ∧ (getHall s 7).up = false) ∧
    (∃ s, Inv s ∧ (getHall s 7).up = true ∧ (getChan s 7 3).mode = 15 ∧ bit (getHall s 7).stat 3 = true) ∧
    (∃ s, Inv s ∧ (getHall s 7).up = true ∧ (getChan s 7 3).mode = 15 ∧ bit (getHall s 7).stat 3 = false ∧
      4 ≤ monStep (getChan s 7 3).mon 7 true ∧ (getChan s 7 3).ext = .none) ∧
    (∃ s, Inv s ∧ (getHall s 7).up = true ∧ (getChan s 7 3).mode = 15 ∧ (getChan s 7 3).ext = .opened) ∧
    ∃ s, Inv s ∧ (getHall s 7).up = true ∧ (getChan s 7 3).mode = 15 ∧ (getChan s 7 3).ext = .driving :=
  ⟨met live (by decide) (by decide), met (updHall 7 (fun x => { x with stat := 8 }) (chan73 15 id)) (by decide) (by decide),
    met (chan73 15 (fun x => { x with mon := [0, 0, 0, 0, 0, 0, 0, 3] })) (by decide) (by decide),
    met (chan73 15 (fun x => { x with ext := .opened })) (by decide) (by decide),
    met (chan73 15 (fun x => { x with ext := .driving })) (by decide) (by decide)⟩

/-- Converter 15 at work on its own flight, in phase `p`. -/
def conv15 (p : ConvPhase) (f : ConvState → ConvState) (s : State) : State :=
  updConv 15 (fun x => f { x with role := .flight, phase := p }) s

theorem wit_StepsRunSettleConvertAndAdvance :
    (∃ s, Inv s ∧ (getConv s 15).phase = .idle) ∧
    (∃ s, Inv s ∧ (getConv s 15).phase = .boundary ∧ (getConv s 15).role = .flight ∧ s.clk.modclk = true ∧ noRotation s 7 ∧
      (getConv s 15).newFlight = false ∧ flightLen s 15 = 0) ∧
    (∃ s, Inv s ∧ (getConv s 15).phase = .boundary ∧ (getConv s 15).role = .flight ∧ s.clk.modclk = true ∧ noRotation s 7 ∧
      (getConv s 15).newFlight = false ∧ flightLen s 15 = 16) ∧
    (∃ s e, Inv s ∧ (getConv s 15).phase = .settling ∧ (getConv s 15).role = .flight ∧ (getHall s 7).rot.onK1 = false ∧
      modeEnd s 15 (localOfM s (getConv s 15).at16 / 16) = some e ∧ localOfM s (getConv s 15).at16 / 16 < e) ∧
    (∃ s, Inv s ∧ (getConv s 15).phase = .settling ∧ (getConv s 15).role = .flight ∧ (getHall s 7).rot.onK1 = false ∧
      modeEnd s 15 (localOfM s (getConv s 15).at16 / 16) = none ∧ modeOf s 7 (saCh (stepA s 15 false 0)) = 11 ∧ sbInput (stepB s 15 false 0) = 0 ∧ 308 ≤ saSettle (stepA s 15 false 0)) ∧
    (∃ s e, Inv s ∧ (getConv s 15).phase = .window ∧ s.clk.modclk = true ∧ (getConv s 15).role = .flight ∧ noRotation s 7 ∧
      (getConv s 15).owed = false ∧
      mixedWindow s 15 (windowOpen (getConv s 15) (stepA s 15 false 0)) (getConv s 15).at16 = some e) ∧
    (∃ s, Inv s ∧ (getConv s 15).phase = .window ∧ s.clk.modclk = true ∧ (getConv s 15).role = .flight ∧ noRotation s 7 ∧
      (getConv s 15).owed = false ∧ saCont (stepA s 15 false 0) = false ∧
      mixedWindow s 15 (windowOpen (getConv s 15) (stepA s 15 false 0)) (getConv s 15).at16 = none) ∧
    ∃ s, Inv s ∧ (getConv s 15).phase = .window ∧ s.clk.modclk = true ∧ (getConv s 15).role = .flight ∧ noRotation s 7 ∧
      (getConv s 15).owed = false ∧ saCont (stepA s 15 false 0) = true ∧ (getConv s 15).newFlight = true ∧
      mixedWindow s 15 (windowOpen (getConv s 15) (stepA s 15 false 0)) (getConv s 15).at16 = none :=
  ⟨met live (by decide) (by decide),
    met (conv15 .boundary id hall7) (by decide) (by unfold noRotation; decide),
    met (conv15 .boundary id (setHcfg 7 (aConv 15 0) 16 hall7)) (by decide) (by unfold noRotation; decide),
    ⟨fit (conv15 .settling id (updChan 7 0 (fun x => { x with newMode := some (9, 5000) }) hall7)), _, inv_fit _ (by decide), rfl, rfl, rfl,
      rfl, by decide⟩,
    met (conv15 .settling id (setHcfg 7 (aConv 15 0x10) 308 (updChan 7 0 (fun x => { x with mode := 11 }) hall7))) (by decide) (by decide),
    ⟨fit (conv15 .window (fun x => { x with at16 := 9000000 }) (updChan 7 0 (fun x => { x with mixed := 600000, mixFrom := 500000 }) hall7)),
      _, inv_fit _ (by decide), rfl, rfl, rfl, by unfold noRotation; decide, rfl, rfl⟩,
    met (conv15 .window id hall7) (by decide) (by unfold noRotation; decide),
    met (conv15 .window (fun x => { x with newFlight := true }) (setHcfg 7 (aConv 15 0x10) 0x800000 hall7)) (by decide)
      (by unfold noRotation; decide)⟩

/-- A record on its way. -/
def rec0 : Rec := { code := 5, tag := 0, count := 7, time := 9, puls := none, stale := false, buf := 15, idx := 0, wrote := 0 }

theorem wit_RecordsReachMainSram :
    (∃ s, Inv s ∧ (getConv s 15).fifo = []) ∧
    (∃ s, Inv s ∧ (getConv s 15).fifo = [rec0] ∧ logicUp s = false) ∧
    (∃ s, Inv s ∧ (getConv s 15).fifo = [rec0] ∧ logicUp s = true ∧ bufLen s 15 = 0) ∧
    (∃ s, Inv s ∧ (getConv s 15).fifo = [{ rec0 with stale := true }] ∧ logicUp s = true) ∧
    (∃ s, Inv s ∧ (getConv s 15).fifo = [rec0] ∧ logicUp s = true ∧ bufLen s 15 ≠ 0 ∧ mirrorSends s = true) ∧
    ∃ s, Inv s ∧ (getConv s 15).fifo = [rec0] ∧ logicUp s = true ∧ bufLen s 15 ≠ 0 ∧ bufLen s 15 ≤ (getConv s 15).widx + 1 ∧
      isInput rec0 = true ∧ (s.newest.find? fun e => e.1 = 4 * 7 + tagCh rec0.tag) = some (28, rec0) ∧ rec0.wrote < s.time.now :=
  ⟨met live (by decide) (by decide), met (conv15 .idle (fun x => { x with fifo := [rec0] }) State.reset) (by decide) (by decide),
    met (conv15 .idle (fun x => { x with fifo := [rec0] }) live) (by decide) (by decide),
    met (conv15 .idle (fun x => { x with fifo := [{ rec0 with stale := true }] }) live) (by decide) (by decide),
    met (setReg (aConv 15 3) 1 (conv15 .idle (fun x => { x with fifo := [rec0] }) paired)) (by decide) (by decide),
    met { setReg (aConv 15 3) 1 (conv15 .idle (fun x => { x with fifo := [rec0], widx := 15 }) live) with
        newest := [(28, rec0)], time := { live.time with now := 1 } } (by decide) (by decide)⟩

theorem wit_InjectionAndBlanking :
    (∃ s, Inv s ∧ acceptsAct host (aConv 15 0x07) 1 s ∧ trigOn s 15 11 = true ∧ ownerOf s (runnerOf s 15) = 15) ∧
    (∃ s, Inv s ∧ (getConv s 15).trigs = []) ∧
    (∃ s, Inv s ∧ (getConv s 15).trigs = [16] ∧ injLen s 15 = 4 ∧ (getConv s 15).role = .flight ∧ (getConv s 15).inj = true ∧
      (getConv s 15).pend = true) ∧
    (∃ s, Inv s ∧ (getConv s 15).trigs = [16] ∧ injLen s 15 = 4 ∧ (getConv s 15).role = .flight ∧ (getConv s 15).inj = false ∧
      (getConv s 15).owed = false ∧ blankOn s 7 = true ∧ (getConv s 15).heldTrig = false) ∧
    (∃ s, Inv s ∧ (getConv s 15).trigs = [16] ∧ injLen s 15 = 4 ∧ (getConv s 15).role = .flight ∧ (getConv s 15).inj = false ∧
      (getConv s 15).owed = false ∧ blankOn s 7 = false) ∧
    (∃ s, Inv s ∧ (getHall s 7).up = false) ∧
    (∃ s, Inv s ∧ (getHall s 7).up = true ∧ blankOn s 7 = false ∧ (∃ t, exec (.blankAssert 7 0) s = .next t ∧ blankOn t 7 = true)) ∧
    (∃ s, Inv s ∧ (getHall s 7).up = true ∧ blankOn s 7 = true ∧ (∃ t, exec (.blankRelease 7 0) s = .next t ∧ blankOn t 7 = false) ∧
      ∀ k < 2, (getConv s (14 + k)).heldTrig = false ∧ trigOn s (ownerOf s (14 + k)) 8 = false) ∧
    (∃ s, Inv s ∧ (getHall s 7).up = true ∧ (getHall s 7).blank0 = true ∧ (getHall s 7).stuck0 = false ∧
      bits (hcfg s 7 (aHall 7 0x42)) 1 0 = 3 ∧ blankOn s 7 = true ∧ ∃ t, exec (.blankStuck 7 0) s = .next t ∧ blankOn t 7 = false) ∧
    (∃ s, Inv s ∧ (getHall s 7).up = true ∧ (getHall s 7).blank1 = true ∧ (getHall s 7).stuck1 = false ∧
      bits (hcfg s 7 (aHall 7 0x42)) 1 0 = 3) ∧
    ∃ s, Inv s ∧ (getHall s 7).up = true ∧ (getHall s 7).blank0 = true ∧ bits (hcfg s 7 (aHall 7 0x42)) 1 0 = 2 :=
  ⟨met (setHcfg 7 (aConv 15 1) 0x800 hall7nv) (by decide) (by unfold acceptsAct; decide),
    met live (by decide) (by decide),
    met (conv15 .window (fun x => { x with trigs := [16], inj := true, pend := true }) (setHcfg 7 (aConv 15 1) 4 hall7)) (by decide) (by decide),
    met (conv15 .waiting (fun x => { x with trigs := [16] }) (updHall 7 (fun x => { x with blank0 := true })
      (setHcfg 7 (aHall 7 0x42) 1 (setHcfg 7 (aConv 15 1) 4 hall7)))) (by decide) (by decide),
    met (conv15 .window (fun x => { x with trigs := [16] }) (setHcfg 7 (aConv 15 1) 4 hall7)) (by decide) (by decide),
    met live (by decide) (by decide),
    met (conv15 .window id (setHcfg 7 (aHall 7 0x42) 1 hall7)) (by decide) ⟨by decide, by decide, _, rfl, by decide⟩,
    met (conv15 .blanked id (updHall 7 (fun x => { x with blank0 := true }) (setHcfg 7 (aHall 7 0x42) 1 hall7))) (by decide)
      ⟨by decide, by decide, ⟨_, rfl, by decide⟩, by decide⟩,
    met (updHall 7 (fun x => { x with blank0 := true }) (setHcfg 7 (aHall 7 0x42) 3 hall7)) (by decide)
      ⟨by decide, by decide, by decide, by decide, by decide, _, rfl, by decide⟩,
    met (updHall 7 (fun x => { x with blank1 := true }) (setHcfg 7 (aHall 7 0x42) 3 hall7)) (by decide) (by decide),
    met (updHall 7 (fun x => { x with blank0 := true }) (setHcfg 7 (aHall 7 0x42) 2 hall7)) (by decide) (by decide)⟩

/-- The block with SYNC_IN enabled. -/
def synced : State := setReg 0x1600 0x80000000 chip0

theorem wit_SynchronisedSampling :
    (∃ s, Inv s ∧ ¬ (logicUp s = true ∧ bit (syncCfgW s) 31 = true ∧ s.sync.level = bit (syncCfgW s) 30)) ∧
    (∃ s, Inv s ∧ (logicUp s = true ∧ bit (syncCfgW s) 31 = true ∧ s.sync.level = bit (syncCfgW s) 30) ∧ s.sync.queue.any (·.2) = true) ∧
    (∃ s, Inv s ∧ (logicUp s = true ∧ bit (syncCfgW s) 31 = true ∧ s.sync.level = bit (syncCfgW s) 30) ∧ s.sync.queue.any (·.2) = false) ∧
    (∃ s, Inv s ∧ acceptsAct host 0x1607 1 s) ∧ (∃ s, Inv s ∧ s.sync.queue = []) ∧
    (∃ s, Inv s ∧ ((100, false) ∈ s.sync.queue ∧ ∀ f ∈ s.sync.queue, ((100, false) : Nat × Bool).1 ≤ f.1) ∧ logicUp s = true ∧
      gridLock s = false ∧ (getConv s 15).phase = .window) ∧
    (∃ s, Inv s ∧ s.sync.queue ≠ [] ∧ logicUp s = true ∧ (getConv s 15).role = .shadow ∧ saCont (nowA s 15) = true) ∧
    (∃ s, Inv s ∧ s.sync.outEnd = none) ∧ (∃ s, Inv s ∧ s.sync.outEnd = some 1000) ∧
    (∃ s, Inv s ∧ s.clk.modclk = true ∧ gridNear s = false ∧ s.sync.slewAt ≤ s.time.now ∧ slewEnd s + s.time.ring < 2 ^ 64 ∧
      (gridErr s - (s.sync.slew - slewDone s (16 * s.time.now))).natAbs ≤ 976) ∧ ∃ s, Inv s ∧ gridNear s = true :=
  ⟨met live (by decide) (by decide),
    met { synced with sync := { synced.sync with queue := [(100, true)] } } (by decide) (by decide),
    met synced (by decide) (by decide), met synced (by decide) (by unfold acceptsAct; decide), met live (by decide) (by decide),
    met (conv15 .window id { synced with
        sync := { synced.sync with queue := [(100, false)] }, time := { live.time with ring := 3000 } }) (by decide) (by decide),
    met (updConv 15 (fun x => { x with role := .shadow }) (setHcfg 7 (aConv 15 0x10) 0x800000 (setHcfg 7 (aConv 14 0x10) 0x800000
      { synced with sync := { synced.sync with queue := [(100, false)] } }))) (by decide) (by decide),
    met live (by decide) (by decide), met { live with sync := { live.sync with outEnd := some 1000 } } (by decide) (by decide),
    met { live with sync := { live.sync with slew := 1125 }, time := { live.time with ring := 3000 } } (by decide) (by decide),
    met live (by decide) (by decide)⟩

theorem wit_RotationRequests :
    (∃ s, Inv s ∧ rotEn s 7 = false) ∧ (∃ s, Inv s ∧ rotEn s 7 = true) ∧
    (∃ s, Inv s ∧ rotEn s 7 = true ∧ (getHall s 7).active = true) ∧
    (∃ s, Inv s ∧ ¬ (rotEn s 7 = true ∧ (getHall s 7).active = true)) ∧
    (∃ s, Inv s ∧ acceptsAct host (aRot 7 1) 1 s) ∧ (∃ s, Inv s ∧ acceptsAct host (aRot 7 1) 2 s ∧ (getHall s 7).ret0 = true) ∧
    (∃ s, Inv s ∧ acceptsAct host (aRot 7 1) 4 s ∧ (getHall s 7).ret1 = true) ∧
    ∃ s, Inv s ∧ acceptsAct host (aRot 7 1) 4 s ∧ (getHall s 7).ret1 = false :=
  ⟨met live (by decide) (by decide), met (setHcfg 7 (aRot 7 0) 0x80000000 hall7) (by decide) (by decide),
    met (setHcfg 7 (aRot 7 0) 0x80000000 hall7) (by decide) (by decide), met live (by decide) (by decide),
    met hall7nv (by decide) (by unfold acceptsAct; decide),
    met (updHall 7 (fun x => { x with ret0 := true }) hall7nv) (by decide) (by unfold acceptsAct; decide),
    met (updHall 7 (fun x => { x with ret1 := true }) hall7nv) (by decide) (by unfold acceptsAct; decide),
    met hall7nv (by decide) (by unfold acceptsAct; decide)⟩

/-- Run 7 enabled and reconciled, its slot next. -/
def slot7 : State := setReg (aRun 7 0) 0x80000000 (updRun 7 (fun r => { r with reconciled := true })
  { live with eng := { engReset with running := true, slot := 7 } })

theorem wit_RunSlotAddsIncrementsAtItsEnd :
    (∃ s, Inv s ∧ slotDue 7 s = false) ∧ (∃ s, Inv s ∧ slotDue 0 s = true ∧ ¬ (runEn s 0 = true ∧ (getRun s 0).reconciled = true)) ∧
    (∃ s, Inv s ∧ s.eng.late ≠ none ∧ slotDue 6 s = true ∧ ¬ (runEn s 6 = true ∧ (getRun s 6).reconciled = true)) ∧
    (∃ s, Inv s ∧ slotDue 7 s = true ∧ (runEn s 7 = true ∧ (getRun s 7).reconciled = true) ∧
      (slotTrap 7 31250 (some .stack) (moveTo (s.eng.start + 8 * 125000) s)).isSome = true) ∧
    (∃ s, Inv s ∧ slotDue 7 s = true ∧ (runEn s 7 = true ∧ (getRun s 7).reconciled = true) ∧
      (slotTrap 7 31251 none (moveTo (s.eng.start + 8 * 125000) s)).isSome = true) ∧
    ∃ s, Inv s ∧ slotDue 7 s = true ∧ (runEn s 7 = true ∧ (getRun s 7).reconciled = true) ∧
      (let u := moveTo (s.eng.start + 8 * 125000) s
       (slotTrap 7 31250 none u).isNone = true ∧ (outputsOf u 7 (compute u 7)).isSome = true ∧ soundOut (compute u 7) = true) :=
  ⟨met live (by decide) (by decide),
    met { live with eng := { engReset with running := true, slot := 0 } } (by decide) (by decide),
    met { live with eng := { engReset with running := true, slot := 6, late := some ⟨[], []⟩ } } (by decide) (by decide),
    met slot7 (by decide) (by decide), met slot7 (by decide) (by decide), met slot7 (by decide) (by decide)⟩

theorem wit_TickBoundaryLatchesTheSet :
    (∃ s, Inv s ∧ takesBoundaries s = false) ∧
    (∃ s, Inv s ∧ takesBoundaries s = true ∧ s.eng.running = true ∧ s.eng.slot = 8 ∧ s.clk.halt = none ∧ pairEn s = false) ∧
    (∃ s, Inv s ∧ takesBoundaries s = true ∧ s.eng.running = true ∧ s.clk.halt = none ∧ pairEn s = true ∧ s.pair.active = false ∧
      (∃ t, exec .tickBoundary s = .next t ∧ t.eng.slot = 8)) ∧
    (∃ s, Inv s ∧ takesBoundaries s = true ∧ s.eng.running = true ∧ s.clk.halt = none ∧ pairEn s = true ∧ s.pair.active = false ∧
      (∃ t, exec .tickBoundary s = .next t ∧ t.eng.slot = 0)) ∧
    (∃ s, Inv s ∧ takesBoundaries s = true ∧ s.eng.running = true ∧ s.clk.halt = some 5) ∧
    ∃ s, Inv s ∧ takesBoundaries s = true ∧ s.eng.running = false :=
  ⟨met State.reset (by decide) (by decide), met { live with eng := { engReset with running := true, slot := 8 } } (by decide) (by decide),
    met { standby with eng := { engReset with running := true } } (by decide)
      ⟨by decide, by decide, by decide, by decide, by decide, _, rfl, by decide⟩,
    met { standby with eng := { engReset with running := true, this := some ⟨4, false, []⟩ } } (by decide)
      ⟨by decide, by decide, by decide, by decide, by decide, _, rfl, by decide⟩,
    met (updClk (fun c => { c with halt := some 5 }) running) (by decide) (by decide), met live (by decide) (by decide)⟩

/-- A balance window that ended and waits. -/
def win63 : BalWin := { first := 1000, q := 5, p := 0, t := 0, aux := 0, gap := false, tstep := false, due := 20 }

/-- The words of a sender block: first tick, quantity 5, flags. -/
def block63 (first flags : Nat) : List Nat := [first, 0, 5, 0, 0, 0, flags]

/-- Entry 63 waits, and such a block stands in the first eight points, subscribed. -/
def blockAt63 (first flags : Nat) : State :=
  ((block63 first flags ++ [(crc32c ((block63 first flags).map (leBytes 4)).flatten).toNat]).mapIdx fun i w => (0x4000 + i, w)).foldl
    (fun t e => setReg e.1 (BitVec.ofNat 32 e.2) t)
    (setReg 0x2A80 0x83800000 (updBal 63 (fun b => { b with win := some win63 }) live))

/-- The block's CRC passes. -/
def blockRead (s : State) : Prop :=
  subValue s 7 = crc32c (((List.range 7).map fun i => subValue s i).map fun x => leBytes 4 x.toNat).flatten

theorem wit_BalanceWaitAndPulseReports :
    (∃ s, Inv s ∧ (getBal s 63).win = none) ∧
    (∃ s, Inv s ∧ (getBal s 63).win = some win63 ∧ ¬ blockRead s) ∧
    (∃ s, Inv s ∧ (getBal s 63).win = some win63 ∧ blockRead s ∧ bits (subValue s 6) 1 0 ≠ balQty s 63) ∧
    (∃ s, Inv s ∧ (getBal s 63).win = some win63 ∧ blockRead s ∧
      (subValue s 0).toNat + 2 ^ 32 * (subValue s 1).toNat ≠ win63.first ∧ bits (subValue s 6) 1 0 = balQty s 63 ∧
      bits (subValue s 6) 31 16 = balW s 63) ∧
    (∃ s, Inv s ∧ (getBal s 63).win = some win63 ∧ blockRead s ∧
      (subValue s 0).toNat + 2 ^ 32 * (subValue s 1).toNat = win63.first ∧ bits (subValue s 6) 1 0 = balQty s 63 ∧
      bits (subValue s 6) 31 16 = balW s 63 ∧ bit (subValue s 6) 4 = true) ∧
    (∃ s, Inv s ∧ (getBal s 63).win = some win63 ∧ blockRead s ∧
      (subValue s 0).toNat + 2 ^ 32 * (subValue s 1).toNat = win63.first ∧ bits (subValue s 6) 1 0 = balQty s 63 ∧
      bits (subValue s 6) 31 16 = balW s 63 ∧ bit (subValue s 6) 4 = false ∧ bit (subValue s 6) 5 = false) ∧
    (∃ s, Inv s ∧ (getChan s 7 3).pulseOn = some 9 ∧ poutRun s 31 = some 7 ∧ logicUp s = true) ∧
    (∃ s, Inv s ∧ (getChan s 7 3).pulseOn = none) :=
  ⟨met live (by decide) (by decide), met (updBal 63 (fun b => { b with win := some win63 }) live) (by decide) (by unfold blockRead; decide),
    met (blockAt63 1000 1) (by decide) (by unfold blockRead; decide), met (blockAt63 7 0) (by decide) (by unfold blockRead; decide),
    met (blockAt63 1000 16) (by decide) (by unfold blockRead; decide), met (blockAt63 1000 0) (by decide) (by unfold blockRead; decide),
    met (chan73 16 (fun x => { x with pulseOn := some 9 }) |> setReg (aRun 7 0) 0x80000000 |> setReg (aRun 7 3) 0xFC0) (by decide) (by decide),
    met live (by decide) (by decide)⟩

/-- A checkpoint of run 7 on its way to chip 0, chip 1 absent. -/
def job7 : FlashJob := { kind := .ckpt 7 59 false 0, off := 0x03540000, bytes := [1], use0 := true, use1 := false, r0 := none
                         r1 := some false, tries := 0 }

theorem wit_FlashOperationsAndChipRetry :
    (∃ s, Inv s ∧ ¬ (logicUp s = true ∧ chipOk (nvChip s 0) = true)) ∧
    (∃ s, Inv s ∧ (logicUp s = true ∧ chipOk (nvChip s 0) = true) ∧ s.nv.jobs = []) ∧
    (∃ s, Inv s ∧ (logicUp s = true ∧ chipOk (nvChip s 0) = true) ∧ s.nv.jobs = [job7] ∧
      jobMark 0 true s.nv.jobs = [{ job7 with r0 := some true }] ∧ jobOver { job7 with r0 := some true } = true ∧
      jobFailed { job7 with r0 := some true } = false) ∧
    (∃ s, Inv s ∧ (logicUp s = true ∧ chipOk (nvChip s 0) = true) ∧ (nvChip s 0).fails = 1 ∧ (nvChip s 1).failed = true) ∧
    (∃ s, Inv s ∧ ¬ (logicUp s = true ∧ (nvChip s 1).failed = true)) ∧
    (∃ s, Inv s ∧ logicUp s = true ∧ (nvChip s 1).failed = true ∧ nvLost s = false) ∧
    ∃ s, Inv s ∧ logicUp s = true ∧ (nvChip s 1).failed = true ∧ nvLost s = true :=
  ⟨met State.reset (by decide) (by decide), met chip0 (by decide) (by decide),
    met { chip0 with nv := { chip0.nv with jobs := [job7] } } (by decide) (by decide),
    met { chip0 with nv := { chip0.nv with c0 := { chipReset with known := true, present := true, fails := 1 }, c1 := { chipReset with failed := true } } }
      (by decide) (by decide),
    met chip0 (by decide) (by decide),
    met { chip0 with nv := { chip0.nv with c1 := { chipReset with failed := true } } } (by decide) (by decide),
    met { chip0 with nv := { chip0.nv with c0 := { chipReset with failed := true }, c1 := { chipReset with failed := true } } }
      (by decide) (by decide)⟩

/-- The black box frozen, its dump going on. -/
def dumping : State := { chip0 with bb := { chip0.bb with frozen := true, pend := true, dumping := true } }

theorem wit_BlackBoxFreezeDumpRelease :
    (∃ s, Inv s ∧ acceptsAct host 0x2806 1 s ∧ s.bb.frozen = false) ∧ (∃ s, Inv s ∧ acceptsAct host 0x2806 1 s ∧ s.bb.frozen = true) ∧
    (∃ s, Inv s ∧ acceptsAct host 0x2806 2 s ∧ s.str.named % 32 = 23) ∧
    (∃ s, Inv s ∧ (logicUp s = true ∧ s.bb.frozen = true ∧ s.bb.pend = true ∧ s.bb.dumping = true) ∧ chipOk s.nv.c0 = true) ∧
    ∃ s, Inv s ∧ ¬ (logicUp s = true ∧ s.bb.frozen = true ∧ s.bb.pend = true ∧ s.bb.dumping = true) :=
  ⟨met chip0 (by decide) (by unfold acceptsAct; decide), met dumping (by decide) (by unfold acceptsAct; decide),
    met { dumping with str := { live.str with named := 23 } } (by decide) (by unfold acceptsAct; decide),
    met dumping (by decide) (by decide), met live (by decide) (by decide)⟩

/-- A port up and in the loop, its link measured. -/
def port : MlPort := { portReset with st := 3, inLoop := true, delay := some 1000 }

/-- A node whose three ports carry the loop. -/
def node : State := setReg 0x2A01 1000 (setReg 0x2A00 7 (updMl (fun m => { m with loop := some ⟨3, 3, some 2, false⟩ })
  (updPort 0 (fun _ => port) (updPort 1 (fun _ => port) (updPort 2 (fun _ => port) chip0)))))

/-- A node that is the head. -/
def head : State := setReg 0x2A00 0x40000007 node

/-- A frame. -/
def frame : MlFrame := { typ := 2, hops := 0, src := 9, cyc := 0, payload := [], good := true, own := false, fits := true }

theorem wit_PortsFaultsAndLinkDelays :
    (∃ s, Inv s ∧ ¬ (logicUp s = true ∧ portEn s 2 = true ∧ (getPort s 2).st ≠ 3)) ∧
    (∃ s, Inv s ∧ (logicUp s = true ∧ portEn s 2 = true ∧ (getPort s 2).st ≠ 3) ∧ s.ml.loop = none ∧ s.ml.formAt = none ∧
      headRole s = 1 ∧ s.ml.stopped = false) ∧
    (∃ s, Inv s ∧ (logicUp s = true ∧ portEn s 2 = true ∧ (getPort s 2).st ≠ 3) ∧ s.ml.loop ≠ none) ∧
    (∃ s, Inv s ∧ (logicUp s = true ∧ (getPort s 2).st = 3) ∧ ∃ q < 3, q ≠ 2 ∧ (getPort s q).st = 3) ∧
    (∃ s, Inv s ∧ (logicUp s = true ∧ (getPort s 2).st = 3) ∧ ∀ q < 3, q ≠ 2 → (getPort s q).st ≠ 3) ∧
    (∃ s, Inv s ∧ (getPort s 2).silent = false) ∧ (∃ s, Inv s ∧ (getPort s 2).silent = true) ∧
    (∃ s, Inv s ∧ logicUp s = true ∧ portEn s 2 = true ∧ (getPort s 2).silent = false) ∧
    (∃ s, Inv s ∧ takes true 2 frame s = true ∧ (getPort s 2).cnt + 1 < 16) ∧
    (∃ s, Inv s ∧ takes true 2 frame s = true ∧ 16 ≤ (getPort s 2).cnt + 1) ∧
    (∃ s, Inv s ∧ takes true 2 { frame with typ := 7 } s = false ∧ logicUp s = true ∧ usable s true 2 = true) ∧
    (∃ s, Inv s ∧ logicUp s = true ∧ usable s true 2 = false ∧ portEn s 2 = true ∧ (getPort s 2).st = 1) ∧
    (∃ s, Inv s ∧ logicUp s = true ∧ (getPort s 2).st = 1 ∧ (getPort s 2).inLoop = true) ∧
    ∃ s, Inv s ∧ logicUp s = true ∧ (getPort s 2).st = 2 :=
  ⟨met node (by decide) (by decide),
    met (updMl (fun m => { m with loop := none }) (updPort 2 (fun x => { x with st := 1 }) head)) (by decide) (by decide),
    met (updPort 2 (fun x => { x with st := 1 }) node) (by decide) (by decide), met node (by decide) ⟨by decide, 0, by decide⟩,
    met (updPort 2 (fun _ => port) live) (by decide) (by decide), met node (by decide) (by decide),
    met (updPort 2 (fun x => { x with silent := true }) node) (by decide) (by decide), met node (by decide) (by decide),
    met node (by decide) (by decide), met (updPort 2 (fun x => { x with cnt := 15 }) node) (by decide) (by decide),
    met node (by decide) (by decide), met (updPort 2 (fun x => { x with st := 1 }) node) (by decide) (by decide),
    met (updPort 2 (fun x => { x with st := 1 }) node) (by decide) (by decide),
    met (updPort 2 (fun x => { x with st := 2 }) node) (by decide) (by decide)⟩

theorem wit_FormationOfTheLoop :
    (∃ s, Inv s ∧ (logicUp s = true ∧ (s.ml.formed = false ∨ s.ml.needForm = true)) ∧ (headRole s = 1 ∧ s.ml.stopped = false) ∧
      outPort s true ≠ none ∧ s.ml.loop = none) ∧
    (∃ s, Inv s ∧ (logicUp s = true ∧ (s.ml.formed = false ∨ s.ml.needForm = true)) ∧ (headRole s = 1 ∧ s.ml.stopped = false) ∧
      outPort s true ≠ none ∧ s.ml.loop ≠ none) ∧
    (∃ s, Inv s ∧ acceptsAct host 0x2A13 1 s ∧ headRole s = 1) ∧ (∃ s, Inv s ∧ acceptsAct host 0x2A13 1 s ∧ headRole s ≠ 1) ∧
    (∃ s, Inv s ∧ takes true 2 frame s = false) ∧
    (∃ s, Inv s ∧ takes true 2 frame s = true ∧ processes s true 2 = false ∧ passPort s true 2 = some 1) ∧
    (∃ s, Inv s ∧ takes true 0 frame s = true ∧ processes s true 0 = true ∧ headRole s = 1 ∧ outPort s true = some 2 ∧
      s.ml.formAt ≠ none ∧ (getPort s 0).delay = some 1000) ∧
    (∃ s, Inv s ∧ takes true 0 frame s = true ∧ processes s true 0 = true ∧ headRole s = 1 ∧ s.ml.formAt = none) ∧
    (∃ s, Inv s ∧ takes true 0 frame s = true ∧ processes s true 0 = true ∧ headRole s ≠ 1 ∧ outPort s true = some 2 ∧
      (getPort s 0).delay = some 1000 ∧ pairEn s = false ∧ s.ml.loop = some ⟨3, 3, some 2, false⟩ ∧
      (∀ next ∈ [2, 3], (formOf (FormData.bytes ⟨next, 1, 0, 0, 0, 0⟩)).next = next ∧
        (formOf (FormData.bytes ⟨next, 1, 0, 0, 0, 0⟩)).pair = 0 ∧ next < 1023)) ∧
    (∃ s, Inv s ∧ takes true 0 frame s = true ∧ processes s true 0 = true ∧ headRole s ≠ 1 ∧ outPort s true = some 2 ∧
      (getPort s 0).delay = some 1000 ∧ pairEn s = true ∧ pairId s = 0x55 ∧ s.ml.loop = none) ∧
    (∃ s, Inv s ∧ s.ml.next = none) ∧ (∃ s, Inv s ∧ s.ml.next = some (⟨3, 3, some 2, false⟩, 1000000) ∧ s.time.ring < 1000000 ∧
      ¬ (bit (mlCfg s) 28 = true ∧ some 2 ≠ some (bits (mlCfg s) 25 16))) ∧
    ∃ s, Inv s ∧ s.ml.next = some (⟨3, 3, some 2, true⟩, 0) ∧ 0 ≤ s.time.ring ∧ bit (mlCfg s) 28 = true ∧
      some 2 ≠ some (bits (mlCfg s) 25 16) ∧ s.ml.turned = true :=
  ⟨met (updMl (fun m => { m with loop := none }) head) (by decide) (by decide), met head (by decide) (by decide),
    met head (by decide) (by unfold acceptsAct; decide), met node (by decide) (by unfold acceptsAct; decide),
    met live (by decide) (by decide), met node (by decide) (by decide),
    met (updMl (fun m => { m with formAt := some 0 }) head) (by decide) (by decide), met head (by decide) (by decide),
    met node (by decide) (by decide),
    met (setReg rPairCfg 0x80000055 (updMl (fun m => { m with loop := none }) node)) (by decide) (by decide),
    met node (by decide) (by decide), met (updMl (fun m => { m with next := some (⟨3, 3, some 2, false⟩, 1000000) }) node) (by decide) (by decide),
    met (setReg 0x2A00 0x10000007 (updMl (fun m => { m with turned := true, next := some (⟨3, 3, some 2, true⟩, 0) }) node)) (by decide) (by decide)⟩

theorem wit_CycleRingTimeAndHead :
    (∃ s, Inv s ∧ takes false 2 frame s = false) ∧
    (∃ s, Inv s ∧ takes false 2 frame s = true ∧ processes s false 2 = false ∧ passPort s false 2 = some 1 ∧
      (getPort s 2).delay = some 1000) ∧
    (∃ s, Inv s ∧ takes false 0 frame s = true ∧ processes s false 0 = true ∧ s.ml.isHead = true) ∧
    (∃ s, Inv s ∧ takes false 0 frame s = true ∧ processes s false 0 = true ∧ headRole s = 1 ∧ endsHere s frame = false ∧ outPort s false = some 2 ∧ (getPort s 0).delay = some 1000) ∧
    (∃ s, Inv s ∧ takes false 0 frame s = true ∧ processes s false 0 = true ∧ headRole s ≠ 1 ∧ (getPort s 0).delay = some 1000 ∧ endsHere s frame = false ∧ endsHere s { frame with hops := 2 } = true) ∧
    (∃ s, Inv s ∧ ¬ (logicUp s = true ∧ s.ml.loop ≠ none ∧ mlCycle s ≠ 0)) ∧
    (∃ s, Inv s ∧ (logicUp s = true ∧ s.ml.loop ≠ none ∧ mlCycle s ≠ 0) ∧ s.ml.isHead = true ∧ s.ml.formReq = false ∧
      outPort s false = some 2) ∧
    (∃ s, Inv s ∧ (logicUp s = true ∧ s.ml.loop ≠ none ∧ mlCycle s ≠ 0) ∧ s.time.ring < nextCycle s ∧ (getPort s 2).echoDue = true ∧
      (getPort s 2).st = 3 ∧ inReserve (dueEchoes s) = true) ∧
    (∃ s, Inv s ∧ (logicUp s = true ∧ s.ml.loop ≠ none ∧ mlCycle s ≠ 0) ∧ s.ml.isHead = true ∧ s.ml.formReq = true) ∧
    (∃ s, Inv s ∧ (logicUp s = true ∧ s.ml.loop ≠ none ∧ mlCycle s ≠ 0) ∧ s.ml.isHead = false) ∧
    (∃ s, Inv s ∧ (logicUp s = true ∧ s.ml.loop ≠ none ∧ s.ml.gotCycle = true ∧ s.ml.appended = false ∧ s.ml.isHead = false ∧
      answers s = true) ∧ inReserve s = false ∧ s.ml.mismatch = false ∧ outPort s false = some 2) ∧
    (∃ s, Inv s ∧ (logicUp s = true ∧ s.ml.loop ≠ none ∧ s.ml.gotCycle = true ∧ s.ml.appended = false ∧ s.ml.isHead = false ∧
      answers s = true) ∧ inReserve s = true) ∧
    (∃ s, Inv s ∧ logicUp s = true ∧ headRole s = 2 ∧ s.ml.loop ≠ none ∧ s.ml.backup = false) ∧
    (∃ s, Inv s ∧ logicUp s = true ∧ headRole s = 0 ∧ s.ml.loop ≠ none ∧ s.ml.noHead = false) ∧
    (∃ s, Inv s ∧ ¬ (logicUp s = true ∧ timeHead s = true ∧ bit (mlCfg s) 29 = true) ∧ timeHead s = false) ∧
    (∃ s, Inv s ∧ (logicUp s = true ∧ timeHead s = true ∧ bit (mlCfg s) 29 = true) ∧ s.ml.tset = true) ∧
    (∃ s, Inv s ∧ (logicUp s = true ∧ timeHead s = true ∧ bit (mlCfg s) 29 = true) ∧ s.ml.tset = false ∧ s.ml.ppsBig = 2) ∧
    ∃ s, Inv s ∧ timeHead s = true ∧ acceptsAct host 0x2A13 2 s ∧ acceptsAct host 0x2A13 4 s ∧ acceptsAct host 0x2A13 8 s :=
  ⟨met live (by decide) (by decide), met node (by decide) (by decide),
    met (updMl (fun m => { m with isHead := true }) head) (by decide) (by decide), met head (by decide) (by decide),
    met node (by decide) (by decide), met live (by decide) (by decide),
    met (updMl (fun m => { m with isHead := true }) head) (by decide) (by decide),
    met (updPort 2 (fun x => { x with echoDue := true }) node) (by decide) (by decide),
    met (updMl (fun m => { m with isHead := true, formReq := true }) head) (by decide) (by decide), met node (by decide) (by decide),
    met (updMl (fun m => { m with gotCycle := true }) node) (by decide) (by decide),
    met (updMl (fun m => { m with gotCycle := true }) { node with time := { node.time with ring := 990000 } }) (by decide) (by decide),
    met (setReg 0x2A00 0x80000007 node) (by decide) (by decide), met node (by decide) (by decide),
    met node (by decide) (by decide), met (setReg 0x2A00 0x60000007 (updMl (fun m => { m with tset := true }) node)) (by decide) (by decide),
    met (setReg 0x2A00 0x60000007 (updMl (fun m => { m with ppsBig := 2 }) node)) (by decide) (by decide),
    met head (by decide) (by unfold acceptsAct; decide)⟩

/-- The bytes of a DATA frame with one acyclic entry. -/
def acyData (op : Nat) (cast : Bool) (dst : Nat) (data : List Byte) : List Byte :=
  leBytes 2 0 ++ leBytes 2 (acyEntry op cast dst 5 data).length ++ acyEntry op cast dst 5 data

theorem wit_DataPointsAndAcyclicAccess :
    (∃ s, Inv s ∧ takes false 2 frame s = false) ∧
    (∃ s, Inv s ∧ takes false 2 frame s = true ∧ processes s false 2 = false ∧ passPort s false 2 = some 1) ∧
    (∃ s, Inv s ∧ takes false 0 frame s = true ∧ processes s false 0 = true ∧ endsHere s { frame with hops := 2 } = true) ∧
    (∃ s, Inv s ∧ takes false 0 frame s = true ∧ processes s false 0 = true ∧ endsHere s frame = false ∧
      leAt ([] : List Byte) 2 2 = 0) ∧
    (∃ s, Inv s ∧ takes false 0 frame s = true ∧ processes s false 0 = true ∧ endsHere s frame = false ∧
      frame.src ≠ ringAddrOf s ∧ s.ml.mismatch = false ∧ answers s = true ∧ pendingAnswers s < 32 ∧ s.time.ring ≤ 77 ∧
      ∀ b ∈ [acyData 8 true 0 (leBytes 8 77), acyData 9 false 2 (leBytes 8 77), acyData 1 false 2 (leBytes 2 0x5FC0 ++ leBytes 2 64),
          acyData 1 true 0 (leBytes 4 0)],
        leAt b 0 2 = 0 ∧ ∃ x, acysOf (leAt b 2 2 / 8 + 1) ((b.drop 4).take (leAt b 2 2)) = [x] ∧ (x.cast = true ∨ x.dst = ringAddrOf s)) ∧
    (∃ s, Inv s ∧ answers s = true ∧ 32 ≤ pendingAnswers s) ∧
    (∃ s, Inv s ∧ logicUp s = true ∧ s.ml.subValid.testBit 63 = true) ∧
    (∃ s, Inv s ∧ logicUp s = true ∧ s.ml.mb = none ∧ 8 + 260 ≤ acyMax s ∧ s.ml.loop ≠ none ∧ bits (getReg s 0x2A21) 25 16 ≠ ringAddrOf s) ∧
    (∃ s, Inv s ∧ logicUp s = true ∧ s.ml.mb = none ∧ 8 + 260 ≤ acyMax s ∧ s.ml.loop ≠ none ∧ bits (getReg s 0x2A21) 25 16 = ringAddrOf s) ∧
    (∃ s, Inv s ∧ s.ml.mb = some ⟨1, 5, 64, 0⟩) ∧
    (∃ s, Inv s ∧ cmdTime s < s.time.ring) ∧
    (∃ s, Inv s ∧ s.time.ring ≤ cmdTime s ∧ acceptsAct host 0x2A17 (BitVec.ofNat 32 (2 ^ 28 + 65536 + 1023)) s ∧
      acceptsAct host 0x2A17 (BitVec.ofNat 32 (2 * 2 ^ 28 + 65536 + 1023)) s) ∧
    (∃ s, Inv s ∧ s.ml.injects = []) ∧
    ∃ s, Inv s ∧ (7 ∈ s.ml.injects ∧ ∀ x ∈ s.ml.injects, 7 ≤ x) ∧ ∀ k < 16, runnerOf s k = k :=
  ⟨met live (by decide) (by decide), met node (by decide) (by decide), met node (by decide) (by decide), met node (by decide) (by decide),
    met node (by decide) ⟨by decide, by decide, by decide, by decide, by decide, by decide, by decide, by decide, fun b h => by
      simp only [List.mem_cons, List.not_mem_nil, or_false] at h
      obtain rfl | rfl | rfl | rfl := h <;> exact ⟨by decide, _, rfl, by decide⟩⟩,
    met (updMl (fun m => { m with outs := List.replicate 32 ⟨[], 0, true⟩ }) node) (by decide) (by decide),
    met (updMl (fun m => { m with subValid := 2 ^ 63 }) node) (by decide) (by decide),
    met (setReg 0x2A02 0x10C node) (by decide) (by decide), met (setReg 0x2A02 0x10C (setReg 0x2A21 0x20000 node)) (by decide) (by decide),
    met (updMl (fun m => { m with mb := some ⟨1, 5, 64, 0⟩ }) node) (by decide) (by decide),
    met { node with time := { node.time with ring := 1 } } (by decide) (by decide),
    met node (by decide) (by unfold acceptsAct; decide), met node (by decide) (by decide),
    met (updMl (fun m => { m with injects := [9, 7] }) node) (by decide) (by decide)⟩

/-- HEARTBEAT's payload with flags `fl`, the PAIR_ID of `paired` and the partner's tick. -/
def hbData (fl tick : Nat) : List Byte := leBytes 1 fl ++ leBytes 1 0xFF ++ leBytes 2 0x55 ++ leBytes 4 tick

/-- Hall 7 of a member with its channels 2 and 3 shared, in modes `m` and `k`. -/
def shared7 (m k : Nat) (s : State) : State :=
  setHcfg 7 0x2C01 0xC0000000 (setHcfg 7 (aCh 7 2 0x10) 5 (updHall 7 hallUp (updChan 7 2 (fun x => { x with mode := m })
    (updChan 7 3 (fun x => { x with mode := k }) s))))

/-- What a receiver sees beside a pair frame. -/
def seen0 : PairSeen := { roundTrip := 2000, offset := 5, actIn := false, actGap := false, fits := true }

/-- A sound pair frame at a mirror address. -/
def pf (maddr : Nat) (b : List Byte) : PairFrame := { seq := 0, maddr := maddr, payload := b, good := true, seen := seen0 }

theorem wit_HeartbeatsAndTheirJudgement :
    (∃ s, Inv s ∧ logicUp s = true ∧ pairEn s = true ∧ s.pair.linkUp = true) ∧ (∃ s, Inv s ∧ logicUp s = true ∧ pairEn s = false) ∧
    (∃ s, Inv s ∧ (logicUp s = true ∧ onPairLink s = true ∧ s.pair.linkUp = true) ∧ imageNone s = false ∧
      leAt (hbData 3 0) 2 2 = pairId s ∧ s.pair.active = true ∧ s.pair.confirmed = true ∧ bit (BitVec.ofNat 32 3) 0 = true ∧
      s.pair.gap = true) ∧
    (∃ s, Inv s ∧ (logicUp s = true ∧ onPairLink s = true ∧ s.pair.linkUp = true) ∧ imageNone s = false ∧ s.pair.active = true ∧
      s.pair.confirmed = true ∧ s.pair.gap = false ∧ s.clk.roleStrap = true ∧ lags s (2 ^ 32 - 3) = true ∧
      lags s (2 ^ 32 - 2) = false ∧ 3 ≤ satSucc 65535 s.pair.missed ∧ seen0.actIn = false ∧ s.pair.joined = false) ∧
    (∃ s, Inv s ∧ (logicUp s = true ∧ onPairLink s = true ∧ s.pair.linkUp = true) ∧ imageNone s = false ∧ s.pair.active = false ∧
      s.pair.confirmed = true ∧ s.ml.loop = none ∧ seen0.offset.natAbs ≤ 1000 ∧ 1000 < (1001 : Int).natAbs) ∧
    (∃ s, Inv s ∧ (logicUp s = true ∧ onPairLink s = true ∧ s.pair.linkUp = true) ∧ imageNone s = false ∧ s.pair.active = false ∧
      s.pair.hoStep = some 1 ∧ leAt (hbData 1 0) 1 1 = 0xFF) ∧
    (∀ p, Config.statusOf (mreads 0 [(0xFC00, 1)] 0xFC00 64) = p → p.none_ = false →
      ∃ s, Inv s ∧ (logicUp s = true ∧ onPairLink s = true ∧ s.pair.linkUp = true) ∧ otherGenNow s = some p.gen) ∧
    (∃ s, Inv s ∧ (logicUp s = true ∧ onPairLink s = true ∧ s.pair.linkUp = true) ∧ imageNone s = false ∧
      leAt (hbData 3 0) 2 2 ≠ pairId s) ∧
    (∃ s, Inv s ∧ (logicUp s = true ∧ onPairLink s = true ∧ s.pair.linkUp = true) ∧ imageNone s = true) ∧
    (∃ s, Inv s ∧ (logicUp s = true ∧ onPairLink s = true ∧ s.pair.linkUp = true) ∧ leAt (leBytes 4 9) 0 1 = pairSeq s 1 ∧
      s.pair.waiting = true ∧ s.pair.idMismatch = false ∧ s.pair.delayCnt = 15) ∧
    (∃ s, Inv s ∧ logicUp s = true ∧ pairEn s = true ∧ s.pair.waiting = true ∧ satSucc 65535 s.pair.missed = 2) ∧
    (∃ s, Inv s ∧ logicUp s = true ∧ pairEn s = true ∧ s.pair.waiting = true ∧ satSucc 65535 s.pair.missed = 3 ∧
      s.pair.confirmed = true ∧ s.pair.active = true ∧ s.pair.single = false ∧ s.pair.hoStep = some 1) ∧
    (∃ s, Inv s ∧ logicUp s = true ∧ pairEn s = true ∧ s.pair.waiting = true ∧ satSucc 65535 s.pair.missed = 3 ∧
      s.pair.confirmed = true ∧ s.pair.active = false ∧ s.pair.linkDown = false ∧ mayTakeOver s = true ∧ runEn s 7 = true ∧
      (roleCh s 7 8).isSome = true ∧ 0 < (getRun s 7).car.backlog ∧ isShared s 7 2 = true ∧ modeOf s 7 2 ∈ [5, 6, 17]) ∧
    (∃ s, Inv s ∧ logicUp s = true ∧ pairEn s = true ∧ s.pair.waiting = true ∧ satSucc 65535 s.pair.missed = 3 ∧
      s.pair.confirmed = true ∧ s.pair.active = false ∧ mayTakeOver s = false) ∧
    (∃ s, Inv s ∧ s.pair.waiting = false ∧ pairEn s = false ∧ s.pair.linkUp = false) :=
  ⟨met paired (by decide) (by decide), met live (by decide) (by decide),
    met (updPair (fun p => { p with gap := true }) paired) (by decide) (by decide),
    met (updClk (fun c => { c with roleStrap := true }) (updPair (fun p => { p with missed := 2 }) paired)) (by decide) (by decide),
    met standby (by decide) (by decide), met (updPair (fun p => { p with hoStep := some 1 }) standby) (by decide) (by decide),
    fun p hp h0 => met { paired with mem := { paired.mem with mirror := [(0xFC00, 1)] } } (by decide) ⟨by decide, by
      subst hp
      show (if (Config.statusOf (mreads 0 [(0xFC00, 1)] 0xFC00 64)).none_ then none
        else some (Config.statusOf (mreads 0 [(0xFC00, 1)] 0xFC00 64)).gen) = _
      simp only [h0, Bool.false_eq_true, if_false]⟩,
    met (setReg rPairCfg 0x80000056 paired) (by decide) (by decide),
    met (updClk (fun c => { c with die := .noImage }) (updPair (fun p => { p with linkUp := true }) live)) (by decide) (by decide),
    met (updPair (fun p => { p with seqs := [(1, 9)], waiting := true, delayCnt := 15 }) paired) (by decide) (by decide),
    met (updPair (fun p => { p with waiting := true, missed := 1 }) paired) (by decide) (by decide),
    met (updPair (fun p => { p with waiting := true, missed := 2, hoStep := some 1 }) paired) (by decide) (by decide),
    met (shared7 17 16 (setReg (aRun 7 0) 0x80000000 (setReg (aRun 7 3) 0xFC0 (updRun 7 (fun r => { r with car := { r.car with backlog := 5 } })
      (updPair (fun p => { p with waiting := true, missed := 2 }) standby))))) (by decide) (by decide),
    met (updClk (fun c => { c with halt := some 4 }) (updPair (fun p => { p with waiting := true, missed := 2 }) standby)) (by decide)
      (by decide),
    met live (by decide) (by decide)⟩

theorem wit_TakeoverDriveFencingAndPairLink :
    (∃ s, Inv s ∧ s.pair.tkAt = some 9 ∧ isShared s 7 2 = true ∧ modeOf s 7 2 = 17 ∧ bits (chCfgW s 7 2) 4 0 = 5 ∧
      (getHall s 7).up = true ∧ isShared s 7 3 = true ∧ isOutMode (modeOf s 7 3) = true) ∧
    (∃ s, Inv s ∧ s.pair.tkAt = some 9 ∧ runEn s 7 = true ∧ roleCh s 7 7 = some 31 ∧ isShared s 7 3 = true ∧
      (getHall s 7).active = true ∧ (getRun s 7).fout = some 5 ∧
      ∀ k < 8, ∀ q ∈ [7, 9], (k, q) ≠ (7, 7) → runEn s k = true → roleCh s k q ≠ some 31) ∧
    (∃ s, Inv s ∧ s.pair.tkAt = some 9 ∧ runEn s 7 = true ∧ roleCh s 7 8 = some 31 ∧ isShared s 7 3 = true ∧
      ∀ k < 8, k ≠ 7 → runEn s k = true → roleCh s k 8 ≠ some 31) ∧
    (∃ s, Inv s ∧ s.pair.tkAt = none) ∧
    (∃ s, Inv s ∧ logicUp s = true ∧ onPairLink s = true ∧ s.pair.linkUp = true ∧ s.pair.confirmed = true ∧ s.pair.active = false ∧
      s.pair.actFault = false) ∧
    (∃ s, Inv s ∧ (logicUp s = true ∧ pairEn s = true ∧ s.pair.active = true ∧ s.pair.confirmed = true) ∧
      s.pair.partnerAt = some 0 ∧ max s.time.now (s.pair.actAt + 30000) ≤ 0 + 1000000000 ∧ s.pair.hoStep = none ∧
      (getHall s 7).up = true ∧ isShared s 7 2 = true ∧ modeOf s 7 2 = 6 ∧ isShared s 7 3 = true ∧ isOutMode (modeOf s 7 3) = true) ∧
    (∃ s, Inv s ∧ (logicUp s = true ∧ pairEn s = true ∧ s.pair.active = true ∧ s.pair.confirmed = true) ∧ s.pair.partnerAt = none) ∧
    (∃ s, Inv s ∧ logicUp s = true ∧ onPairLink s = true ∧ s.pair.linkUp = false) ∧
    ∃ s, Inv s ∧ ¬ (logicUp s = true ∧ onPairLink s = true ∧ s.pair.linkUp = false) :=
  ⟨met (shared7 17 16 (updPair (fun p => { p with tkAt := some 9 }) paired)) (by decide) (by decide),
    met (setReg (aRun 7 0) 0x80000000 (setReg (aRun 7 3) 0x3F (updRun 7 (fun r => { r with fout := some 5 })
      (shared7 17 15 (updPair (fun p => { p with tkAt := some 9 }) paired))))) (by decide) (by decide),
    met (setReg (aRun 7 0) 0x80000000 (setReg (aRun 7 3) 0xFC0
      (shared7 17 16 (updPair (fun p => { p with tkAt := some 9 }) paired)))) (by decide) (by decide),
    met live (by decide) (by decide), met standby (by decide) (by decide), met (shared7 6 15 paired) (by decide) (by decide),
    met (updPair (fun p => { p with partnerAt := none }) paired) (by decide) (by decide),
    met (updPair (fun p => { p with linkUp := false }) paired) (by decide) (by decide), met paired (by decide) (by decide)⟩

/-- A member in a handover whose switch is due at ring time 5 ms. -/
def handing (act : Bool) : State :=
  shared7 6 13 (updPair (fun p => { p with active := act, hoStep := some 1, hoOp := 4, hoSwitch := some 5000000 }) paired)

/-- Run 7 with its pulse output at channel 31. -/
def pulsing (s : State) : State := setReg (aRun 7 0) 0x80000000 (setReg (aRun 7 3) 0xFC0 s)

/-- Mirror RAM holds the totals of tick 4, all zero, with their CRC. -/
theorem wit_totals_block : totBlockAt { handing false with mem := { paired.mem with
    mirror := [(0x8000, 4), (0x8308, 239), (0x8309, 67), (0x830A, 192), (0x830B, 7)] } } (tickOf 5000000 - 1) ≠ none := by decide +kernel

theorem wit_MirrorForwardingAndHandover :
    (let rx (s : State) : Prop := logicUp s = true ∧ onPairLink s = true ∧ s.pair.linkUp = true
     let refused (s : State) : Prop :=
       (writeReg ⟨.pair, 0xFFFF⟩ 0x0205 1 1 none (mirrorFrame (pf 0xF000 (cfgItem 0x0205 0 1 1)) none s)).2 ≠ none
     (∃ s, Inv s ∧ ¬ rx s) ∧ (∃ s, Inv s ∧ rx s ∧ s.pair.active = true) ∧ (∃ s, Inv s ∧ rx s ∧ s.pair.active = false) ∧
     ((0x6FF0 < 0x7000 ∧ (recBytes rec0).length = 16) ∧ 4 * (15 : Fin 16).val < (List.replicate 64 (0 : Byte)).length) ∧
     (∃ s, Inv s ∧ rx s ∧ s.pair.active = false ∧ s.stg.entries ≠ []) ∧
     (∃ s, Inv s ∧ rx s ∧ s.pair.active = false ∧ ¬ refused s) ∧ (∃ s, Inv s ∧ rx s ∧ s.pair.active = false ∧ refused s) ∧
     (∀ k < 6, (cfgItem 0x0205 k 1 1).length = 12 ∧ leAt (cfgItem 0x0205 k 1 1) 2 2 = k) ∧
     (∃ s, Inv s ∧ acceptsAct host 0x2C05 1 s ∧ s.pair.active = true ∧ hoAllowed s = true) ∧
     (∃ s, Inv s ∧ acceptsAct ⟨.pair, 0xFFFF⟩ 0x2C05 1 s ∧ s.pair.active = false) ∧
     (∃ s, Inv s ∧ s.clk.die = .applied ∧ audRoom s 1 = true ∧ audFull s = false ∧ s.pair.active = true ∧ hoAllowed s = false ∧
       s.pair.partnerReady = false) ∧
     (∃ s, Inv s ∧ s.clk.die = .applied ∧ audRoom s 1 = true ∧ audFull s = false ∧ s.pair.active = true ∧ hoAllowed s = false ∧
       s.pair.partnerReady = true) ∧
     (∃ s, Inv s ∧ rx s ∧ s.pair.active = false ∧ pairReady s = true ∧ s.pair.hoStep = none) ∧
     (∃ s, Inv s ∧ rx s ∧ s.pair.active = true ∧ s.pair.hoStep = some 0) ∧
     (∃ s, Inv s ∧ rx s ∧ s.pair.active = true ∧ isShared s 7 3 = true ∧ isOutMode (modeOf s 7 3) = true ∧ runEn s 7 = true ∧
       roleCh s 7 8 = some 31 ∧ ∀ k < 7, ¬ (runEn s k = true ∧ roleCh s k 8 = some 31)) ∧
     (∃ s, Inv s ∧ hoRunning s = none) ∧
     (∃ s, Inv s ∧ hoRunning s = some 5000000 ∧ s.pair.active = true ∧ s.pair.hoRoll = false ∧ (getHall s 7).up = true ∧
       isShared s 7 3 = true ∧ modeOf s 7 3 = 13 ∧ isPulseOut s 31 = false ∧ modeOf s 7 2 = 6 ∧ switchTaken 5000000 s = false) ∧
     (∃ s, Inv s ∧ rx s ∧ hoRunning s = some 5000000 ∧ s.pair.active = true ∧ s.pair.hoRoll = false ∧ (getHall s 7).up = true ∧
       isShared s 7 3 = true ∧ isPulseOut s 31 = true ∧ (getChan s 7 3).pulseOn = none ∧ (getChan s 7 3).pulseRest ≤ s.time.now ∧
       switchTaken 5000000 s = true) ∧
     (∃ s, Inv s ∧ hoRunning s = some 5000000 ∧ s.pair.active = true ∧ s.pair.hoRoll = true) ∧
     (∃ s c, Inv s ∧ hoRunning s = some 5000000 ∧ s.pair.active = false ∧ (getHall s 7).active = true ∧ mirrorCar s 7 = some c ∧
       runEn s 7 = true ∧ roleCh s 7 7 = some 31 ∧ switchTaken 5000000 s = false) ∧
     (∀ e ∈ (Config.outOf ((mreads 0 [(0x8808, 1)] 0x8814 1))).cmds, ∃ s, Inv s ∧ hoRunning s = some 5000000 ∧
       s.pair.active = false ∧ e ∈ (mirrorOut s).cmds) ∧
     (∀ p, Config.statusOf (mreads 0 [(0xFC00, 1)] 0xFC00 64) = p → p.none_ = true → ∃ s, Inv s ∧ partnerStatus s = some p ∧
       pairEn s = true ∧ s.pair.active = true ∧ s.pair.linkUp = true ∧ s.img.phase = 0 ∧ logicUp s = true) ∧
     ∃ s, Inv s ∧ ∀ g, partnerStatus s ≠ some g) :=
  ⟨met live (by decide) (by decide), met paired (by decide) (by decide), met standby (by decide) (by decide), by decide,
    met { standby with stg := { standby.stg with entries := [⟨0x0401, 1, .pair, 0xFFFF⟩] } } (by decide) (by decide),
    met { standby with nv := chip0.nv } (by decide) (by decide),
    met (updClk (fun c => { c with die := .chosen }) standby) (by decide) (by decide), by decide,
    met { paired with nv := chip0.nv } (by decide) (by unfold acceptsAct; decide),
    met { standby with nv := chip0.nv } (by decide) (by unfold acceptsAct; decide),
    met (updPair (fun p => { p with partnerReady := false }) { paired with nv := chip0.nv }) (by decide) (by decide),
    met (updPair (fun p => { p with hoStep := some 0 }) { paired with nv := chip0.nv }) (by decide) (by decide),
    met { standby with
        eng := { engReset with running := true }, clk := { standby.clk with reconciled := true }
        pair := { standby.pair with joined := true, standbyTicks := 1000 } } (by decide) (by decide),
    met (updPair (fun p => { p with hoStep := some 0 }) paired) (by decide) (by decide),
    met (pulsing (handing true)) (by decide) (by decide), met paired (by decide) (by decide),
    met (handing true) (by decide) (by decide),
    met { pulsing (handing true) with
        eng := { engReset with running := true }, time := { live.time with ring := 5000000, boundary := some 5000000 } }
      (by decide) (by decide),
    met (updPair (fun p => { p with hoRoll := true }) (handing true)) (by decide) (by decide),
    ⟨fit (setReg (aRun 7 0) 0x80000000 (setReg (aRun 7 3) 0x3F { handing false with
        mem := { paired.mem with mirror := [(0xE408, 1)] } })), _, inv_fit _ (by decide), by decide, by decide, by decide, rfl,
      by decide, by decide, by decide⟩,
    fun e h => met { handing false with mem := { paired.mem with mirror := [(0x8808, 1)] } } (by decide) ⟨by decide, by decide, h⟩,
    fun p hp _ => met { paired with mem := { paired.mem with mirror := [(0xFC00, 1)] } } (by decide) ⟨by
      subst hp
      rfl, by decide⟩,
    met paired (by decide) (fun g h => by rw [show partnerStatus (fit paired) = none by decide] at h; cases h)⟩

theorem wit_ClassARegistersChangeOnlyByCommitOrImage :
    (∃ s t, configures (.nop true) = false ∧ exec (.nop true) s = .next t ∧ classA 0x0401) ∧ (0x0401 : Addr).toNat ≠ 0x2D0A :=
  ⟨⟨live, _, rfl, rfl, _, rfl, rfl⟩, by decide⟩

/-! Ill-formed commands are refused by the check (R304, R307, R332, R360, R392, R239, R214, R284). -/

theorem test_wf_underrun : (Instr.read true 31 0 2 [2] false).wf = false ∧ (Instr.readFixed true 31 0 2 [1] false).wf = true ∧
    (Instr.read true 3 0 2 [0] false).wf = false := by decide

theorem test_wf_short : (Instr.short true (.write false 31 0 [] 0 32)).wf = false ∧
    (Instr.short true (.write false 31 0 [] 0 31)).wf = true ∧ (Instr.short true (.read false 31 0 1 [1] false)).wf = false := by decide

theorem test_wf_reserved : (Instr.reservedStreamOp true 1 23).wf = false ∧ (Instr.reservedStreamOp true 1 24).wf = true := by decide

theorem test_wf_origin : (Instr.registerWrite ⟨.ring, 1024⟩ 0 0 0).wf = false ∧ (Instr.registerWrite ⟨.host, 0⟩ 0 0 0).wf = false := by
  decide

theorem test_wf_miethlink : (Instr.data 0 { frame with hops := 2048 }).wf = false ∧ (Instr.form 0 { frame with src := 1024 }).wf = false ∧
    (Instr.formDone 0 { frame with cyc := 65536 }).wf = false ∧ (Instr.cycleFrame 0 { frame with payload := [0] }).wf = false ∧
    (Instr.echo 0 { frame with payload := [0] }).wf = false ∧ (Instr.echoReply 0 { frame with hops := 2048 } 0).wf = false := by decide

theorem test_wf_pair : (Instr.record { pf 0 [] with seq := 256 } none).wf = false ∧ (Instr.tickset (pf 0xFFFF [0, 0, 0, 0]) none).wf = false ∧
    (Instr.totals (pf 0 [0]) none).wf = false ∧ (Instr.state ⟨pf 0 (List.replicate 68 0), none⟩).wf = false ∧
    (Instr.config ⟨pf 65536 [0, 0, 0, 0], none⟩).wf = false ∧ (Instr.pairHeartbeat (pf 4 [])).wf = false ∧
    (Instr.ack (pf 4 [])).wf = false ∧ (Instr.handoverMessage (pf 4 []) .ready).wf = false := by decide

theorem test_wf_operands : (Instr.scrub (.hall 0) 1024 .clean).wf = false ∧ (Instr.totalsReconcile [(0, ⟨0, []⟩)]).wf = false ∧
    (Instr.pllLock ⟨true, true, true, true, true, 0, 0, 80, false, false, false⟩).wf = false := by decide

/-- No row of the table has bits, so no word spells a command and the queue stays as it is. -/
theorem test_no_word : decodeTableWord 32 5 = none ∧ (State.reset.withFetchWord 32 5).pending = [] := by decide

/-! One step each, results by hand from the rules. -/

/-- The state after a command; the state before where there is none. -/
def after (c : Instr) (s : State) : State := match exec c s with
  | .next t => t
  | _ => s

/-- The check value of CRC-32C: the CRC of the nine bytes of "123456789". -/
theorem test_crc : crc32c [0x31, 0x32, 0x33, 0x34, 0x35, 0x36, 0x37, 0x38, 0x39] = 0xE3069283 := by decide

/-- The standard's digest of "abc". -/
theorem test_sha : leNat ((sha256 [0x61, 0x62, 0x63]).take 4).reverse = 0xBA7816BF := by decide

/-- R303: a unit of 4 bits carries the low 4 bits of DEV_ID, 0x0832_0003, and the next one of DEV_FAULT. -/
theorem test_read_low_bits : ((after (.read true 3 0 1 [] false) live).hp.units) = [3] := by decide

/-- R315, reason 3: no image applied. -/
theorem test_refuse_no_image :
    getReg (after (.registerWrite host 0x0205 0xFFFFFFFF 1) (updClk (fun c => { c with die := .chosen }) live)) rHpRej = 0x03000205 := by
  decide

/-- R318: COMMIT with an empty shadow answers RESULT 2. -/
theorem test_commit_empty : (after (.commit host) live).stg.result = 2 := by decide

/-- R70: 140.1 °C sets HALL_OVERTEMP and HALL_HOT. -/
theorem test_overtemp : (getHall (after (.dieTempMeasure 7 1401) hall7) 7).stat = 0x180 := by decide

/-- R61: SAG2 puts COMPL_RISK on a current output. -/
theorem test_sag2_risk : bit (getChan (after (.sag2 7) (chan73 15 id)) 7 3).stat 12 = true := by decide

/-- R71: a current output takes at most 24,000 µA. -/
theorem test_command_limit : (getChan (after (.outputCommand 7 3 30000) (chan73 15 id)) 7 3).cmd = 24000 := by decide

/-- R44: two counted edges make a delivery of two. -/
theorem test_delivery : ((getChan (after (.pulseDelivery 7 3 ⟨true, true⟩) (after (.pulseEdge 7 3 true 20000)
    (after (.pulseEdge 7 3 true 20000) (chan73 4 id)))) 7 3).deliv.map (·.edges)) = [2] := by decide

/-- R38: a state report sets STATE and STATE_EVT. -/
theorem test_state_evt : bit (getChan (after (.stateEvt 7 3 true) (chan73 1 id)) 7 3).stat 0 = true := by decide

/-- R49, R50: an overload with no retries allowed latches the output off. -/
theorem test_overload_latches : (getChan (after (.overload 7 ⟨3, .switchedOff⟩) (chan73 13 (fun x => { x with drive := 1 }))) 7 3).latch = .off := by
  decide

/-- R199: a pulse reported lowers the run's backlog by one. -/
theorem test_pulse : (getRun (after (.pulseEmitted 7 3) (updRun 7 (fun r => { r with car := { r.car with backlog := 5 } })
    (chan73 16 (fun x => { x with pulseOn := some 9, pulseLeft := 5 }) |> setReg (aRun 7 0) 0x80000000 |> setReg (aRun 7 3) 0xFC0))) 7).car.backlog =
    4 := by decide

/-- R113: the window of a step opens at its settling end. -/
theorem test_window_opens : (getConv (after (.settlingEnd 15) (conv15 .settling id hall7)) 15).phase = .window := by decide

/-- R138: a buffer of 16 records wraps. -/
theorem test_buffer_wraps : (getConv (after (.resultDmaWrite 15 true)
    (setReg (aConv 15 3) 1 (conv15 .idle (fun x => { x with fifo := [rec0], widx := 15 }) live))) 15).widx = 0 := by decide

/-- R151: an edge of SYNC_IN schedules one sync, its own. -/
theorem test_sync_in : (after .syncIn { synced with time := { synced.time with ring := 7 } }).sync.queue.map (·.2) = [true] := by decide

/-- R257: FREEZE_NOW freezes with cause 6. -/
theorem test_freeze : (after (.freezeNow host) chip0).bb.hdr.cause = 6 := by decide

/-- R285: a chip fails at its second failure in a row. -/
theorem test_chip_fails : (nvChip (after (.flashOperationComplete 0 false) (after (.flashOperationComplete 0 false) chip0)) 0).failed = true := by
  decide

/-- R330: a faulty port falls silent. -/
theorem test_link_fault : ((getPort (after (.linkFault 2) node) 2).st, (getPort (after (.linkFault 2) node) 2).silent) = (4, true) := by decide

/-- R337, R338: FORM_DONE with RESULT 1 makes the loop of 3 nodes and 4 hops start at 5 ms. -/
theorem test_form_done : (after (.formDone 0 { frame with payload := formDoneBytes 1 ⟨3, 4, some 0, false⟩ 5000000 }) node).ml.next.map (·.2) =
    some 5000000 := by decide

/-- R352: a SYNC command to all, with T not in the past, waits in the queue of syncs too. -/
theorem test_sync_command : (after (.syncCommandSend host true 0) (setReg 0x2A18 500 node)).sync.queue = [(500, false)] := by decide

/-- R353: the mailbox takes a request to another node. -/
theorem test_mailbox : (after (.mailboxRead host 63) (setReg 0x2A02 0x10C node)).ml.mb.map (·.words) = some 64 := by decide

/-- R361: a heartbeat tick comes 10 µs after the one before. -/
theorem test_heartbeat_tick : (after .pairHeartbeatTick paired).time.now = 10000 := by decide

/-- R364: an active member with a silent partner goes on alone after three missed heartbeats. -/
theorem test_partner_lost : (after (.heartbeatMissed false) (updPair (fun p => { p with waiting := true, missed := 2 }) paired)).pair.single =
    true := by decide

/-- R365: a standby takes over after three missed heartbeats with PAIR_ACT_IN silent. -/
theorem test_takeover : (after (.heartbeatMissed false) (updPair (fun p => { p with waiting := true, missed := 2 }) standby)).pair.active =
    true := by decide

/-- R373: a shared input of a fenced member listens. -/
theorem test_fence : modeOf (after .fence (shared7 6 15 paired)) 7 2 = 17 := by decide

/-- R376: HANDOVER_SWITCH makes the active the standby. -/
theorem test_switch : (after .handoverSwitch (handing true)).pair.active = false := by decide

/-- R102: the tables of IEC 60584-1 give 5.269, 4.096, 2.774, 4.279 and 6.319 mV at 100 °C for types J, K, N, T and E, and 10.506,
9.587 and 4.834 mV at 1000 °C for R, S and B. -/
theorem test_thermocouples : [(9, 100), (10, 100), (11, 100), (15, 100), (16, 100), (12, 1000), (13, 1000), (14, 1000)].map
    (fun p => (tcRef p.1 (p.2 * 2 ^ 20) + 500000) / 1000000) = [5269, 4096, 2774, 4279, 6319, 10506, 9587, 4834] := by decide

/-- Log 1: an idle cycle lasts 10 ns. -/
theorem test_idle : (match step live with
    | .next t => t.time.now
    | _ => 0) = 10 := by decide
end Sys2Proof.Tests
end

namespace Sys2Proof.Machine

/-! Event bits. -/

theorem getReg_bbEventAt {time code src data b : Nat} {s : State} (hb : b ≠ rBbMissed) :
    getReg (bbEventAt time code src data s) b = getReg s b :=
  bbEventAt_regs (P := (· = rBbMissed)) rfl (regsOutside.refl _ s) b hb

theorem getReg_raiseEvtAt_self {time a : Nat} {m : Word} {s : State} (ha : a ≠ rBbMissed) :
    getReg (raiseEvtAt time a m s) a = getReg s a ||| m := by
  have h := getReg_setReg_self a (getReg s a ||| m) s
  unfold raiseEvtAt
  dsimp only
  generalize (if (evtCode a).1 = 6 then _ else _ : Word) = shown
  split
  · exact h
  · rw [getReg_bbEventAt ha, h]

theorem getReg_raiseBit_other {a b i : Nat} {s : State} (ha : b ≠ a) (hb : b ≠ rBbMissed) :
    getReg (raiseBit a i s) b = getReg s b :=
  raiseBit_regs (P := fun x => x = a ∨ x = rBbMissed) (.inl rfl) (.inr rfl) (regsOutside.refl _ s) b (by simp [ha, hb])

theorem bit_or_bitMask (w : Word) {i : Nat} (hi : i < 32) : bit (w ||| bitMask i) i = true := by
  simp [bit, bitMask, hi, BitVec.getLsbD_ofNat, Nat.testBit_shiftLeft]

theorem bit_raiseBit {a i : Nat} {s : State} (ha : a ≠ rBbMissed) (hi : i < 32) :
    bit (getReg (raiseBit a i s) a) i = true := by
  have h : getReg (raiseBit a i s) a = getReg s a ||| bitMask i := getReg_raiseEvtAt_self ha
  rw [h]
  exact bit_or_bitMask _ hi

/-! The staging shadow (R316). -/

/-- The word `w` staged by `o` for register `a`. -/
def stage (o : Origin) (a : Nat) (w : Word) (s : State) : State :=
  updStg (fun g => { g with entries := stageIns { addr := a, value := w, src := o.src, writer := o.writer } g.entries }) s

theorem stagedAt_congr {s t : State} (h : t.stg = s.stg) (a : Nat) : stagedAt t a = stagedAt s a := by
  unfold stagedAt; rw [h]

theorem find_stageIns_self (e : StgEntry) : ∀ l, (stageIns e l).find? (fun x => x.addr = e.addr) = some e
  | [] => by simp [stageIns]
  | x :: l => by
    unfold stageIns
    split
    · simp
    · split
      · simp
      next h => rw [List.find?_cons_of_neg (by simpa using Ne.symm h), find_stageIns_self e l]

theorem find_stageIns_other (e : StgEntry) {b : Nat} (hb : b ≠ e.addr) :
    ∀ l, (stageIns e l).find? (fun x => x.addr = b) = l.find? (fun x => x.addr = b)
  | [] => by simp [stageIns, hb.symm]
  | x :: l => by
    unfold stageIns
    split
    · rw [List.find?_cons_of_neg (by simpa using hb.symm)]
    · split
      next h => rw [List.find?_cons_of_neg (by simpa using hb.symm), List.find?_cons_of_neg (by simpa [← h] using hb.symm)]
      · simp only [List.find?_cons, find_stageIns_other e hb l]

theorem stagedAt_stage_self (o : Origin) (a : Nat) (w : Word) (s : State) :
    stagedAt (stage o a w s) a = some ⟨a, w, o.src, o.writer⟩ :=
  find_stageIns_self ⟨a, w, o.src, o.writer⟩ _

theorem stagedAt_stage_other (o : Origin) {a b : Nat} (hb : b ≠ a) (w : Word) (s : State) :
    stagedAt (stage o a w s) b = stagedAt s b :=
  find_stageIns_other ⟨a, w, o.src, o.writer⟩ hb _

/-! What a register write comes to, by class and by what R315 says of it. -/

theorem exec_registerWrite (o : Origin) (addr : Addr) (mask v : Word) (s : State) :
    exec (.registerWrite o addr mask v) s = .next (settle (cmdWrite o addr.toNat mask v none s)) := rfl

theorem access_eq {d : RegDesc} {mask : Word} {s : State} (hl : logicUp s = true)
    (hm : (d.rw ||| d.w1c ||| d.wo) &&& mask ≠ 0) :
    ((!logicUp s) || decide ((d.rw ||| d.w1c ||| d.wo) &&& mask = 0)) = false := by
  rw [hl, decide_eq_false hm]; rfl

theorem writable_ne {d : RegDesc} {mask : Word} (h : d.rw &&& mask ≠ 0 ∨ d.w1c &&& mask ≠ 0) :
    (d.rw ||| d.w1c ||| d.wo) &&& mask ≠ 0 := by
  intro e
  have hi (i : Nat) (hi : i < 32) : (d.rw[i] = false ∧ d.w1c[i] = false) ∨ mask[i] = false := by
    have := congrArg (·[i]) e
    simp at this
    grind
  refine h.elim (fun k => k ?_) (fun k => k ?_) <;> ext i hb <;> have := hi i hb <;> simp <;> grind

/-- A write that names no register, or no writable bit of one (R5, R9). -/
theorem cmdWrite_noBits {o : Origin} {a : Nat} {mask v : Word} {s : State}
    (h : regDesc a = none ∨ ∃ d, regDesc a = some d ∧ (d.rw ||| d.w1c ||| d.wo) &&& mask = 0) :
    cmdWrite o a mask v none s = s := by
  have hw : writeReg o a mask v none s = (s, none) := by
    unfold writeReg
    obtain hd | ⟨d, hd, hm⟩ := h
    · simp only [hd]
    · simp only [hd, hm, decide_true, Bool.or_true, if_true]
  rw [cmdWrite_accepted (by rw [hw]), hw]

section
variable {o : Origin} {a : Nat} {mask v u w : Word} {d : RegDesc} {s : State}

/-- A write that R315 refuses, HO_CTRL apart: nothing happens but what the host is told. -/
theorem cmdWrite_refused {r : Nat} (hl : logicUp s = true) (hd : regDesc a = some d)
    (hm : (d.rw ||| d.w1c ||| d.wo) &&& mask ≠ 0) (ha : a ≠ 0x2C05)
    (hr : refusal o d.cls a (clampValue (modeAt s a) a (mergedWord s d a mask v)) (v &&& mask &&& d.wo) s = some r) :
    cmdWrite o a mask v none s = if o.src == .host then hostRefused r a s else s := by
  have hw : writeReg o a mask v none s = (s, some r) := by
    unfold writeReg
    simp only [hd, access_eq hl hm, hr, ha, decide_false, Bool.false_and, if_false, Bool.false_eq_true]
  simp only [cmdWrite, hw]

/-- A class A write that R315 accepts (R316). -/
theorem cmdWrite_classA (hl : logicUp s = true) (hd : regDesc a = some d) (hc : d.cls = .a)
    (hm : (d.rw ||| d.w1c ||| d.wo) &&& mask ≠ 0) (hu : u = mergedWord s d a mask v) (hw : w = clampValue (modeAt s a) a u)
    (hr : refusal o .a a w (v &&& mask &&& d.wo) s = none) :
    cmdWrite o a mask v none s = clampNote a u w (stage o a w s) := by
  have hw : writeReg o a mask v none s = (clampNote a u w (stage o a w s), none) := by
    unfold writeReg
    simp only [hd, access_eq hl hm, ← hu, ← hw, hc, hr, if_false, Bool.false_eq_true]
    rfl
  rw [cmdWrite_accepted (by rw [hw]), hw]

/-- A write of the W1C bits of a register without RW fields (R5). -/
theorem cmdWrite_w1c (hl : logicUp s = true) (hd : regDesc a = some d) (hc : d.cls = .c) (hrw : d.rw = 0)
    (hm : d.w1c &&& mask ≠ 0) (h1 : a ≠ 0x2D0B) (h2 : a ≠ 0x2D0C)
    (hb : homeBad s a (clampValue (modeAt s a) a (mergedWord s d a mask v)) (v &&& mask &&& d.wo) = none) :
    cmdWrite o a mask v none s = modReg a (fun x => x &&& ~~~(v &&& mask &&& d.w1c)) s := by
  have hm' := writable_ne (d := d) (.inr hm)
  have hw1 : d.w1c ≠ 0 := fun e => hm (by simp [e])
  have hw : writeReg o a mask v none s = (modReg a (fun x => x &&& ~~~(v &&& mask &&& d.w1c)) s, none) := by
    unfold writeReg
    simp only [hd, access_eq hl hm', hc, refusal_c hb, Bool.false_eq_true, if_false]
    simp only [hrw, hw1, forwardWrite_c hc h1 h2, ne_eq, not_true_eq_false, not_false_eq_true, if_false, if_true]
  rw [cmdWrite_accepted (by rw [hw]), hw]

/-- A write of RW bits of a class C register. -/
theorem cmdWrite_classC (hl : logicUp s = true) (hd : regDesc a = some d) (hc : d.cls = .c) (hm : d.rw &&& mask ≠ 0)
    (h1 : a ≠ 0x2D0B) (h2 : a ≠ 0x2D0C) (hu : u = mergedWord s d a mask v) (hw : w = clampValue (modeAt s a) a u)
    (hb : homeBad s a w (v &&& mask &&& d.wo) = none) :
    cmdWrite o a mask v none s = classC o a w (clampNote a u w s) := by
  have hm' := writable_ne (d := d) (.inl hm)
  have hrw : d.rw ≠ 0 := fun e => hm (by simp [e])
  have hw : writeReg o a mask v none s = (classC o a w (clampNote a u w s), none) := by
    unfold writeReg
    simp only [hd, access_eq hl hm', ← hu, ← hw, hc, refusal_c hb, hrw, forwardWrite_c hc h1 h2, ne_eq, not_false_eq_true, if_false,
      if_true, Bool.false_eq_true]
  rw [cmdWrite_accepted (by rw [hw]), hw]

end

/-- Class C registers of no rule of their own just take the word. -/
theorem classC_plain {o : Origin} {a : Nat} {w : Word} {s : State} (h0 : a ≠ 0x0220) (h1 : a ≠ 0x0222) (h2 : a ≠ 0x0223)
    (h3 : a ≠ 0x2608) (h4 : a ≠ 0x2D0B) : classC o a w s = setReg a w s := by
  unfold classC
  split <;> first | contradiction | rfl

theorem stg_clampNote (a : Nat) (b c : Word) (s : State) : (clampNote a b c s).stg = s.stg :=
  clampNote_changes (F := [.regs, .bb]) rfl (changesOnly.refl _ s) .stg (by decide)

end Sys2Proof.Machine

namespace Sys2Proof.Machine
/-- Settles O12: the word goes to its place in the shadow, and only CFG_CLAMP may be noted beside it. -/
theorem classAWriteIsStaged : Obligations.ClassAWriteIsStaged := by
  intro o addr mask v d s hs hd hc hm ha hp hroom a w hb
  have hcmd : cmdWrite o a mask v none s = clampNote a (mergedWord s d a mask v) w (stage o a w s) :=
    cmdWrite_classA (logicUp_of_applied ha.1) hd hc hm rfl rfl (refusal_a ha hb hp hroom)
  have hstg : (settle (clampNote a (mergedWord s d a mask v) w (stage o a w s))).stg = (stage o a w s).stg :=
    (stg_settle _).trans (stg_clampNote ..)
  refine ⟨_, (exec_registerWrite ..).trans (by rw [hcmd]), ?_, fun b hne => ?_, ?_, ?_, ?_, ?_, ?_, ?_⟩
  · rw [stagedAt_congr hstg, stagedAt_stage_self]
  · rw [stagedAt_congr hstg, stagedAt_stage_other o hne]
  · rw [hstg]; exact hp
  · rw [hstg]; rfl
  · rw [hstg]; rfl
  · rw [hstg]; rfl
  · exact framed_settle hs (clampNote_changes (by decide) (updStg_changes (by decide) (changesOnly.refl _ _))) (by decide)
  · exact settle_regsOutside
      (clampNote_regs (.inl rfl) (.inr (.inr rfl)) (.inr (.inl rfl)) (updStg_regs (regsOutside.refl _ _)))

/-! What a refusal shows the host (R8, R315). -/

theorem hp_raiseBit (a i : Nat) (s : State) : (raiseBit a i s).hp = s.hp :=
  raiseBit_changes (F := [.regs, .bb]) rfl (changesOnly.refl _ s) .hp (by decide)

/-- REJECT in the next status byte, and the word `w` in HP_REJ where no refusal of the frame stands there yet. -/
def noteReject (w : Word) (s : State) : State :=
  let t := if s.hp.reject then s else setReg rHpRej w s
  { t with hp := { t.hp with reject := true } }

theorem hostRefused_eq (r a : Nat) (s : State) :
    hostRefused r a s = raiseBit rHpEvt 1 (noteReject (BitVec.ofNat 32 (r * 2 ^ 24 + a)) s) := by
  delta hostRefused noteReject; exact rfl

theorem noteReject_hp (w : Word) (s : State) : (noteReject w s).hp = { s.hp with reject := true } := by
  unfold noteReject
  cases s.hp.reject <;> rfl

theorem getReg_noteReject (w : Word) (s : State) :
    getReg (noteReject w s) rHpRej = if s.hp.reject then getReg s rHpRej else w := by
  unfold noteReject
  split
  · rfl
  · exact getReg_setReg_self ..

theorem hostRefused_hp (r a : Nat) (s : State) : (hostRefused r a s).hp = { s.hp with reject := true } := by
  rw [hostRefused_eq, hp_raiseBit, noteReject_hp]

theorem getReg_hostRefused (r a : Nat) (s : State) : getReg (hostRefused r a s) rHpRej =
    if s.hp.reject then getReg s rHpRej else BitVec.ofNat 32 (r * 2 ^ 24 + a) := by
  rw [hostRefused_eq, getReg_raiseBit_other (by decide) (by decide), getReg_noteReject]

theorem bit_hostRefused (r a : Nat) (s : State) : bit (getReg (hostRefused r a s) rHpEvt) 1 = true := by
  rw [hostRefused_eq]
  exact bit_raiseBit (by decide) (by decide)

/-- Settles O15. -/
theorem refusedWriteChangesNothing : Obligations.RefusedWriteChangesNothing := by
  constructor
  · intro o addr mask v s hs h
    exact ⟨_, (exec_registerWrite ..).trans (by rw [cmdWrite_noBits h]), framed_settle hs (changesOnly.refl _ _) (by decide)⟩
  · intro o addr mask v d r s hs hl hd hm ha hr
    have hcmd := cmdWrite_refused hl hd hm ha hr
    by_cases hh : o.src = .host
    · rw [if_pos (by simpa using hh)] at hcmd
      refine ⟨_, (exec_registerWrite ..).trans (by rw [hcmd]), ?_⟩
      rw [if_pos hh, hp_settle, getReg_settle, getReg_settle]
      exact ⟨hostRefused_hp .., bit_hostRefused .., getReg_hostRefused ..,
        framed_settle hs (hostRefused_changes (by decide) (changesOnly.refl _ _)) (by decide),
        settle_regsOutside (hostRefused_regs (.inl rfl) (.inr (.inl rfl)) (.inr (.inr rfl)) (regsOutside.refl _ _))⟩
    · rw [if_neg (by simpa using hh)] at hcmd
      refine ⟨_, (exec_registerWrite ..).trans (by rw [hcmd]), ?_⟩
      rw [if_neg hh]
      exact framed_settle hs (changesOnly.refl _ _) (by decide)

/-- Settles O14. -/
theorem classCWriteActsAtOnce : Obligations.ClassCWriteActsAtOnce := by
  intro o addr mask v d s hs hl hd hc h1 h2 a w hb
  constructor
  · intro hrw hm
    refine ⟨_, (exec_registerWrite ..).trans (by rw [cmdWrite_w1c hl hd hc hrw hm h1 h2 hb]), ?_, ?_, ?_⟩
    · rw [getReg_settle]; exact getReg_modReg_self ..
    · exact framed_settle hs (modReg_changes (by decide) (changesOnly.refl _ _)) (by decide)
    · exact settle_regsOutside (modReg_regs rfl (regsOutside.refl _ _))
  · intro hm h3 h4 h5 h6
    have hcmd : cmdWrite o a mask v none s = setReg a w (clampNote a (mergedWord s d a mask v) w s) :=
      (cmdWrite_classC hl hd hc hm h1 h2 rfl rfl hb).trans (classC_plain h3 h4 h5 h6 h1)
    refine ⟨_, (exec_registerWrite ..).trans (by rw [hcmd]), ?_, ?_, ?_⟩
    · rw [getReg_settle]; exact getReg_setReg_self ..
    · exact framed_settle hs (setReg_changes (by decide) (clampNote_changes (by decide) (changesOnly.refl _ _))) (by decide)
    · exact settle_regsOutside (setReg_regs (.inl rfl)
        (clampNote_regs (.inr (.inl rfl)) (.inr (.inr (.inr rfl))) (.inr (.inr (.inl rfl))) (regsOutside.refl _ _)))
end Sys2Proof.Machine

namespace Sys2Proof.Machine

/-! The registers of class A, and answers that leave them as they were (R6). -/

/-- Whether the register at `a` is of class A. -/
def isA (a : Nat) : Bool := (regDesc a).any fun d => d.cls == .a

theorem isA_iff {a : Nat} : isA a = true ↔ classA a := by
  unfold isA classA
  cases regDesc a <;> simp

/-- No class A register stands at `a`. -/
abbrev notA (a : Nat) : Prop := isA a = false

theorem hallRegs_notA {h a : Nat} (hh : h < 8) (ha : hallRegs h a) : notA a := by
  unfold hallRegs at ha
  rcases ha with rfl | rfl | rfl | rfl | rfl | rfl | rfl | rfl | rfl | ⟨w, hw, rfl⟩ | ⟨c, hc, ha⟩
  · decide
  · revert h; decide
  · revert h; decide
  · revert h; decide
  · revert h; decide
  · revert h; decide
  · revert h; decide
  · revert h; decide
  · revert h; decide
  · revert h w; decide
  · rcases ha with rfl | rfl | rfl | rfl | rfl | rfl | rfl | rfl | rfl | rfl | rfl <;> revert h c <;> decide

/-- An answer that leaves every class A register as it was. -/
def leavesA (s : State) (o : Host.Outcome State Fault Refusal) : Prop :=
  ∀ t, o = .next t → regsOutside notA s t

theorem leavesA_done {s u : State} (h : regsOutside notA s u) : leavesA s (done u) := by
  intro t e
  rw [done_eq] at e
  cases e
  exact settle_regs h

theorem leavesA_same {s : State} : leavesA s (done s) := leavesA_done (regsOutside.refl _ _)

theorem leavesA_ite {s : State} {c : Prop} [Decidable c] {o p : Host.Outcome State Fault Refusal}
    (h : leavesA s o) (k : leavesA s p) : leavesA s (if c then o else p) := by split <;> assumption

theorem leavesA_hallDo {h : Nat} {f : State → State} {s : State} (hh : h < 8) (hf : regsOutside notA s (f s)) :
    leavesA s (hallDo h f s) := by
  unfold hallDo
  exact leavesA_ite (leavesA_done (report_regs (fun _ ha => hallRegs_notA hh ha) (by decide) hf))
    leavesA_same

theorem leavesA_frame {m : Bool} {f : State → State} {s : State} (hf : ∀ u, regsOutside notA u (f u)) :
    leavesA s (frame m f s) := by
  unfold frame
  exact leavesA_ite (leavesA_done ((beginFrame_regs (by decide) (regsOutside.refl _ _)).trans (hf _)))
    leavesA_same

theorem leavesA_pairReceive {f : PairFrame} {use : State → State} {s : State} (hu : regsOutside notA s (use s)) :
    leavesA s (pairReceive f use s) := by
  unfold pairReceive
  exact leavesA_ite leavesA_same
    (leavesA_ite (leavesA_done (pairBad_regs (regsOutside.refl _ _)))
      (leavesA_ite (leavesA_done (crossingFull_regs (P := notA) (by decide) (by decide) (by decide) (regsOutside.refl _ _)))
        (leavesA_done hu)))

/-- An answer that writes no register at all. -/
theorem leavesA_of_replies {F : List Part} {s : State} {o : Host.Outcome State Fault Refusal} (h : replies F s o)
    (hn : Part.regs ∉ F) : leavesA s o := by
  obtain ⟨u, rfl, hu, _⟩ := h
  exact leavesA_done (regsOutside.skip hu hn (regsOutside.refl _ _))


section
/-! The register map block by block, and the words of each that no command but a COMMIT or an image writes. -/

theorem regDesc_aHall {h off : Nat} (hh : h < 8) (ho : off < 0x100) : regDesc (aHall h off) = descHall h off := by
  have e : (0x0400 + 0x100 * h + off - 0x0400) / 0x100 = h := by omega
  have f : (0x0400 + 0x100 * h + off - 0x0400) % 0x100 = off := by omega
  unfold regDesc aHall
  iterate 3 rw [if_neg (by omega)]
  rw [if_pos (by omega), e, f]

theorem regDesc_aConv {n off : Nat} (hn : n < 16) (ho : off < 0x80) : regDesc (aConv n off) = descConv n off := by
  have e : (0x0C00 + 0x80 * n + off - 0x0C00) / 0x80 = n := by omega
  have f : (0x0C00 + 0x80 * n + off - 0x0C00) % 0x80 = off := by omega
  unfold regDesc aConv
  iterate 4 rw [if_neg (by omega)]
  rw [if_pos (by omega), e, f]

theorem regDesc_aRot {h off : Nat} (hh : h < 8) (ho : off < 0x40) : regDesc (aRot h off) = descRot off := by
  have f : (0x1400 + 0x40 * h + off - 0x1400) % 0x40 = off := by omega
  unfold regDesc aRot
  iterate 5 rw [if_neg (by omega)]
  rw [if_pos (by omega), f]

theorem regDesc_aRun {m off : Nat} (hm : m < 8) (ho : off < 0x100) : regDesc (aRun m off) = descRun off := by
  have f : (0x1800 + 0x100 * m + off - 0x1800) % 0x100 = off := by omega
  unfold regDesc aRun
  iterate 7 rw [if_neg (by omega)]
  rw [if_pos (by omega), f]

theorem regDesc_aTot {m off : Nat} (hm : m < 8) (ho : off < 0x40) : regDesc (aTot m off) = descTot off := by
  have f : (0x2000 + 0x40 * m + off - 0x2000) % 0x40 = off := by omega
  unfold regDesc aTot
  iterate 8 rw [if_neg (by omega)]
  rw [if_pos (by omega), f]

theorem regDesc_aBal {b off : Nat} (hb : b < 64) (ho : off < 8) : regDesc (aBal b off) = descBal off := by
  have f : (0x2400 + 8 * b + off - 0x2400) % 8 = off := by omega
  unfold regDesc aBal
  iterate 10 rw [if_neg (by omega)]
  rw [if_pos (by omega), f]

theorem notA_hallStatus {h off : Nat} (hh : h < 8) (ho : off = 0x02 ∨ off = 0x03 ∨ off = 0x04 ∨ off = 0x6F) :
    notA (aHall h off) := by
  unfold notA isA
  rw [regDesc_aHall hh (by omega)]
  rcases ho with rfl | rfl | rfl | rfl <;> rfl

theorem notA_chOut {h c : Nat} (hh : h < 8) (hc : c < 4) : notA (aCh h c 0x1C) := by
  unfold notA isA aCh
  rw [regDesc_aHall hh (by omega)]
  interval_cases c <;> rfl

theorem notA_chMonitor {h c : Nat} (hh : h < 8) (hc : c < 4) : notA (aCh h c 0x64) := by
  unfold notA isA aCh
  rw [regDesc_aHall hh (by omega)]
  interval_cases c <;> rfl

theorem notA_convStatus {n off : Nat} (hn : n < 16) (h0 : 4 ≤ off) (h1 : off < 0x10) : notA (aConv n off) := by
  unfold notA isA
  rw [regDesc_aConv hn (by omega)]
  interval_cases off <;> rfl

theorem notA_runStatus {m off : Nat} (hm : m < 8) (h0 : 0x40 ≤ off) (h1 : off < 0x80) : notA (aRun m off) := by
  unfold notA isA
  rw [regDesc_aRun hm (by omega)]
  revert off; decide

theorem notA_tot {m off : Nat} (hm : m < 8) (ho : off < 0x40) : notA (aTot m off) := by
  unfold notA isA
  rw [regDesc_aTot hm ho]
  revert off; decide

theorem notA_balStatus {b off : Nat} (hb : b < 64) (h0 : 5 ≤ off) (h1 : off < 8) : notA (aBal b off) := by
  unfold notA isA
  rw [regDesc_aBal hb h1]
  interval_cases off <;> rfl

end

theorem notA_point {a : Nat} (ha : 0x4000 ≤ a) : notA a := by
  unfold notA isA regDesc
  iterate 18 rw [if_neg (by omega)]
  split
  · unfold descPoint; split <;> rfl
  · rfl

theorem ownerOf_lt {s : State} {n : Nat} (hn : n < 16) : ownerOf s n < 16 := by
  unfold ownerOf
  split <;> omega

theorem poutRun_lt {s : State} {g m : Nat} (h : poutRun s g = some m) : m < 8 :=
  List.mem_range.1 (List.mem_of_find?_eq_some h)

theorem tagCh_lt (w : Word) : tagCh w < 4 := Nat.mod_lt _ (by decide)

theorem hallsRegs_notA (h : Nat) (hh : h < 8) (a : Nat) (ha : hallRegs h a) : notA a := hallRegs_notA hh ha

/-- What the logic die keeps of a hall that it lost is no class A word (R34). -/
theorem heldAddrs_notA {h a : Nat} (hh : h < 8) (ha : a ∈ heldAddrs h) : notA a := by
  have k : ∀ h, h < 8 → ∀ a ∈ heldAddrs h, notA a := by decide
  exact k h hh a ha

theorem unlink_leavesA {h : Nat} {s0 s : State} (hh : h < 8) (hs : regsOutside notA s0 s) :
    regsOutside notA s0 (unlink h s) := by
  unfold unlink
  refine regsOutside.ite (updHall_regs (regsOutside.foldl (fun u a ha => ?_) hs)) hs
  split
  · exact setReg_regs (heldAddrs_notA hh ha) (regsOutside.refl _ _)
  · exact regsOutside.refl _ _

theorem giveCommand_leavesA {g v : Nat} {s0 s : State} (hs : regsOutside notA s0 s) :
    regsOutside notA s0 (giveCommand g v s) := by
  unfold giveCommand
  dsimp only
  split
  case isTrue h =>
    have hg : g < 32 := by simp_all
    exact updChan_regs (setReg_regs (notA_chOut (by omega) (by omega)) hs)
  case isFalse => exact hs

theorem giveValue_leavesA {g v : Option Nat} {s0 s : State} (hs : regsOutside notA s0 s) :
    regsOutside notA s0 (giveValue g v s) := by
  unfold giveValue
  split
  · exact regsOutside.ite (giveCommand_leavesA hs) hs
  · exact hs

theorem giveOutputs_leavesA {s0 s : State} (hs : regsOutside notA s0 s) : regsOutside notA s0 (giveOutputs s) :=
  forN_regs (fun _ u _ => regsOutside.ite
    (giveValue_leavesA (giveValue_leavesA (regsOutside.refl _ u))) (regsOutside.refl _ _)) hs

theorem takeCommands_leavesA {s0 s : State} (hs : regsOutside notA s0 s) : regsOutside notA s0 (takeCommands s) :=
  regsOutside.foldl (fun _ _ _ => regsOutside.ite (giveCommand_leavesA (regsOutside.refl _ _)) (regsOutside.refl _ _)) hs

theorem getReg_putWords {ws : List (Nat × Word)} {s : State} {a : Nat} (ha : ∀ e ∈ ws, e.1 ≠ a) :
    getReg (putWords ws s) a = getReg s a :=
  regsOutside.foldl (P := (· ≠ a)) (fun _ e he => setReg_regs (ha e he) (regsOutside.refl _ _)) (regsOutside.refl _ _) a
    (by simp)

theorem getReg_backWords {old : State} {a : Nat} : ∀ {ws : List (Nat × Word)} {u : State},
    (∃ e ∈ ws, e.1 = a) ∨ getReg u a = getReg old a → getReg (backWords ws old u) a = getReg old a
  | [], _, h => h.resolve_left (by simp)
  | e :: ws, u, h => by
    refine getReg_backWords (ws := ws) (u := setReg e.1 (getReg old e.1) u) ?_
    by_cases ha : e.1 = a
    · exact .inr (by rw [← ha, getReg_setReg_self])
    · rw [getReg_setReg_other (Ne.symm ha)]
      simpa [ha] using h

/-- Words put in place for an operation and taken back after it. -/
theorem backWords_putWords_regs {P : Nat → Prop} {ws : List (Nat × Word)} {s u : State}
    (h : regsOutside P (putWords ws s) u) : regsOutside P s (backWords ws s u) := by
  intro a ha
  refine getReg_backWords ?_
  by_cases hw : ∃ e ∈ ws, e.1 = a
  · exact .inl hw
  · exact .inr ((h a ha).trans (getReg_putWords fun e he hea => hw ⟨e, he, hea⟩))

theorem tickEnded_leavesA {s0 s : State} (hs : regsOutside notA s0 s) : regsOutside notA s0 (tickEnded s) := by
  unfold tickEnded
  have h : regsOutside notA s0 (sendOutputs (publishRuns (checkIn 8 s))) :=
    sendOutputs_regs (fun c _ => notA_chOut (by omega) (by omega))
      (publishRuns_regs (fun m j _ _ => notA_point (by omega)) (checkIn_regs (by decide) hs))
  exact regsOutside.ite (regsOutside.ite (sendTotals_regs h) h) hs

theorem takeover_leavesA {s0 s : State} (hs : regsOutside notA s0 s) : regsOutside notA s0 (takeover s) := by
  unfold takeover
  with_reducible repeat' first
    | assumption | exact hallsRegs_notA | decide | apply pairEvent_regs | apply updPair_regs | apply inputsMixed_regs
    | apply takeBacklogs_regs | apply takeoverTotals_regs | apply jClose_regs | apply jStep_regs | apply jOpen_regs
    | apply roleChange_regs | apply hoRollBack_regs | apply regsOutside.ite

theorem judge_leavesA {actIn : Bool} {s0 s : State} (hs : regsOutside notA s0 s) :
    regsOutside notA s0 (judge actIn s) := by
  unfold judge
  with_reducible repeat' first
    | assumption | exact hallsRegs_notA | decide | apply partnerLost_regs | apply pairEvent_regs | apply updPair_regs
    | apply takeover_leavesA | apply regsOutside.ite

theorem takeHeartbeat_leavesA {f : PairFrame} {s0 s : State} (hs : regsOutside notA s0 s) :
    regsOutside notA s0 (takeHeartbeat f s) := by
  unfold takeHeartbeat
  have h := heartbeatTime_regs (f := f) (by decide) (by decide) hs
  have h (g : PairSt → PairSt) (c l : Bool) (n : Nat) (b : Bool) : regsOutside notA s0
      (hoDropped n b (genCheck (partnerJoin c l (updPair g (heartbeatTime f s))))) :=
    hoDropped_regs hallsRegs_notA (by decide) (by decide) (genCheck_regs (by decide) (by decide) (by decide) (by decide)
      (partnerJoin_regs (by decide) (by decide) (updPair_regs h)))
  exact regsOutside.ite (fenceNow_regs hallsRegs_notA (by decide) (by decide) (h _ _ _ _ _))
    (regsOutside.ite (judge_leavesA (h _ _ _ _ _)) (h _ _ _ _ _))

theorem latchTick_leavesA {s0 s : State} (hs : regsOutside notA s0 s) : regsOutside notA s0 (latchTick s) := by
  unfold latchTick
  with_reducible repeat' first
    | assumption | decide | apply clearDeliveries_regs | apply balGap_regs | apply idleSlots_regs | apply updPair_regs
    | apply standbyLatch_regs | apply standbyBoundary_regs | apply activeLatch_regs | apply regsOutside.ite

theorem slotEnd_leavesA {m cycles : Nat} {trap : Option EngTrap} {s : State} (hm : m < 8) :
    regsOutside notA s (slotEnd m cycles trap s) := by
  have run (off : Nat) (h0 : 0x40 ≤ off) (h1 : off < 0x80) : notA (aRun m off) := notA_runStatus hm h0 h1
  apply slotEnd_regs
  all_goals first
    | exact regsOutside.refl _ _ | exact notA_tot hm (by decide) | exact run _ (by decide) (by decide)
    | exact fun j _ => run _ (by omega) (by omega) | exact fun k => notA_tot (by omega) (by decide) | decide

/-- A run that waits for the words of a COMMIT ends its slot on the words before them: they stand in the registers for
the slot's end only (log 59). -/
theorem slotDone_leavesA {m cycles : Nat} {trap : Option EngTrap} {s : State} (hm : m < 8) :
    regsOutside notA s (slotDone m cycles trap s) := by
  have late (t : State) (h : regsOutside notA s t) :
      regsOutside notA s (handoverSend (if t.eng.slot = 8 then lateRuns t else t)) := by
    refine handoverSend_regs (regsOutside.ite (lateRuns_regs ?_ ?_ ?_ ?_ ?_ ?_ ?_ ?_ ?_ ?_ h) h) <;> decide
  unfold slotDone
  cases s.eng.late with
  | none => exact late _ (slotEnd_leavesA hm)
  | some l => exact late _ (backWords_putWords_regs (slotEnd_leavesA hm))

/-! The commands. -/

theorem execInjectedSequenceStart_leavesA {n : Conv} {s : State} : leavesA s (execInjectedSequenceStart n s) := by
  unfold execInjectedSequenceStart
  split
  · exact leavesA_same
  · exact leavesA_done (takeTrigger_regs (notA_convStatus (ownerOf_lt n.isLt) (by decide) (by decide)) (by decide)
      (moveTo_regs (updConv_regs (regsOutside.refl _ _))))

theorem reported_leavesA {h : Nat} {s0 s : State} (hh : h < 8) (hs : regsOutside notA s0 s) :
    regsOutside notA s0 (report h s) := report_regs (fun _ ha => hallRegs_notA hh ha) (by decide) hs

theorem execTcOpen_leavesA {n : Conv} {high : Bool} {s : State} : leavesA s (execTcOpen n high s) :=
  leavesA_ite (leavesA_done (reported_leavesA (by omega) (ainFlag_regs (updConv_regs (regsOutside.refl _ _)))))
    leavesA_same

theorem blanked_leavesA {h : Nat} {b : Bool} {s0 s : State} (hh : h < 8) (hs : regsOutside notA s0 s) :
    regsOutside notA s0 (report h (afterBlank h b s)) :=
  have own (n : Nat) (hn : n < 16) (u : State) : notA (rCvEvt (ownerOf u n)) :=
    notA_convStatus (ownerOf_lt hn) (by decide) (by decide)
  reported_leavesA hh (afterBlank_regs (own _ (by omega)) (by decide) (own _ (by omega)) hs)

theorem execBlankAssert_leavesA {h : Hall} {input : Fin 2} {s : State} : leavesA s (execBlankAssert h input s) :=
  leavesA_ite (leavesA_done (blanked_leavesA h.isLt (updHall_regs (regsOutside.refl _ _))))
    leavesA_same

theorem execBlankRelease_leavesA {h : Hall} {input : Fin 2} {s : State} : leavesA s (execBlankRelease h input s) :=
  leavesA_ite (leavesA_done (blanked_leavesA h.isLt (updHall_regs (regsOutside.refl _ _))))
    leavesA_same

theorem execBlankStuck_leavesA {h : Hall} {input : Fin 2} {s : State} : leavesA s (execBlankStuck h input s) := by
  have conv (n : Nat) (hn : n < 16) : notA (rCvEvt n) := notA_convStatus hn (by decide) (by decide)
  exact leavesA_ite (leavesA_done (blanked_leavesA h.isLt (raiseBit_regs (conv _ (by omega)) (by decide)
      (raiseBit_regs (conv _ (by omega)) (by decide) (updHall_regs (moveTo_regs (regsOutside.refl _ _)))))))
    leavesA_same

theorem execResultComplete_leavesA {n : Conv} {x : Sample} {s : State} : leavesA s (execResultComplete n x s) := by
  have conv (k : Nat) (hk : k < 16) : notA (rCvEvt k) := notA_convStatus hk (by decide) (by decide)
  exact leavesA_ite (leavesA_done (reported_leavesA (by omega) (windowEnd_regs (conv _ n.isLt) (by decide)
      (conv _ (by omega)) (by decide) (moveTo_regs (regsOutside.refl _ _)))))
    leavesA_same

theorem execPulseEmitted_leavesA {h : Hall} {ch : Chan} {s : State} : leavesA s (execPulseEmitted h ch s) := by
  unfold execPulseEmitted
  split
  next hm =>
    exact leavesA_done (pulseReported_regs (notA_runStatus (poutRun_lt hm) (by decide) (by decide))
      (pulseGo_regs (updChan_regs (moveTo_regs (regsOutside.refl _ _)))))
  · exact leavesA_same

theorem execHallDown_leavesA {h : Hall} {s : State} : leavesA s (execHallDown h s) := by
  have hd : regsOutside notA s (setReg (aHall h 0x03) (putBit (getReg s (aHall h 0x03)) 0 true) (unlink h s)) :=
    setReg_regs (notA_hallStatus h.isLt (by decide)) (unlink_leavesA h.isLt (regsOutside.refl _ _))
  exact leavesA_ite (leavesA_done (regsOutside.ite hd
      (raiseBit_regs (notA_hallStatus h.isLt (by decide)) (by decide) hd)))
    leavesA_same

theorem execUnderVoltageReset_leavesA {h : Hall} {s : State} : leavesA s (execUnderVoltageReset h s) :=
  leavesA_done (regsOutside.ite (hallReset1_regs (unlink_leavesA h.isLt (regsOutside.refl _ _)))
    (regsOutside.refl _ _))

theorem execRunSlot_leavesA {m : Run} {cycles : Nat} {trap : Option EngTrap} {s : State} :
    leavesA s (execRunSlot m cycles trap s) :=
  leavesA_ite (leavesA_done (slotDone_leavesA m.isLt)) leavesA_same

theorem execSlotOverrun_leavesA {m : Run} {s : State} : leavesA s (execSlotOverrun m s) :=
  leavesA_ite (leavesA_done (slotDone_leavesA m.isLt)) leavesA_same

theorem execTickBoundary_leavesA {s : State} : leavesA s (execTickBoundary s) := by
  have hs := moveTo_regs (t := (nextBoundary s).2) (regsOutside.refl notA s)
  have hs := takeBoundary_regs (by decide) (by decide) hs
  have hs := ageDiverge_regs (idleReports_regs (fun g => hallsRegs_notA _ (by omega)) (by decide) hs)
  have hs := samplePulses_regs hallsRegs_notA (by decide) (latchPoutQ_regs (tickEnded_leavesA hs))
  have hs := forHalls_regs (f := noteVstate) (fun _ _ _ => noteVstate_regs (regsOutside.refl _ _)) hs
  have hs := ownSubs_regs (fun i _ => notA_point (by omega)) (balPublish_regs (fun b i _ _ => notA_point (by omega)) hs)
  have hs := sendStatus_regs (balTryAll_regs (by decide) (by decide) (by decide) (by decide) hs)
  have hs := coldJunctions_regs hallsRegs_notA (by decide) hs
  exact leavesA_ite leavesA_same
    (leavesA_done (regsOutside.ite (latchTick_leavesA hs) (clearDeliveries_regs hs)))

theorem execHeartbeatMissed_leavesA {actIn : Bool} {s : State} : leavesA s (execHeartbeatMissed actIn s) :=
  leavesA_ite leavesA_same
    (leavesA_done (judge_leavesA (updPair_regs (moveTo_regs (regsOutside.refl _ _)))))

theorem execTakeoverOutputDrive_leavesA {s : State} : leavesA s (execTakeoverOutputDrive s) := by
  unfold execTakeoverOutputDrive
  split
  · exact leavesA_done (sendOutputs_regs (fun c _ => notA_chOut (by omega) (by omega)) (giveBacklogs_regs
      (outputsActive_regs hallsRegs_notA (by decide) (giveOutputs_leavesA
        (updPair_regs (moveTo_regs (regsOutside.refl _ _)))))))
  · exact leavesA_same

theorem execFence_leavesA {s : State} : leavesA s (execFence s) := by
  unfold execFence
  dsimp only
  have hs := moveTo_regs (t := s.pair.actAt + 30000) (regsOutside.refl notA s)
  refine leavesA_ite ?_ leavesA_same
  split
  · exact leavesA_done (regsOutside.ite (fenceNow_regs hallsRegs_notA (by decide) (by decide) hs) hs)
  · exact leavesA_done hs

theorem execPairHeartbeat_leavesA {f : PairFrame} {s : State} : leavesA s (execPairHeartbeat f s) := by
  have hs := pairSend_regs (typ := 2) (maddr := 0) (payload := leBytes 4 f.seq) (regsOutside.refl notA s)
  exact leavesA_ite leavesA_same (leavesA_ite (leavesA_done (pairBad_regs (regsOutside.refl _ _)))
    (leavesA_ite (leavesA_done (crossingFull_regs (P := notA) (by decide) (by decide) (by decide) (regsOutside.refl _ _)))
      (leavesA_done (regsOutside.ite hs (regsOutside.ite (takeHeartbeat_leavesA hs) (updPair_regs hs))))))

theorem execHandoverRampStart_leavesA {s : State} : leavesA s (execHandoverRampStart s) := by
  unfold execHandoverRampStart
  split
  · exact leavesA_same
  · dsimp only
    refine leavesA_done (regsOutside.ite (inputsMixed_regs
      (forShared_regs (fun _ _ _ => outputIdle_regs (regsOutside.refl _ _)) hallsRegs_notA ?_)) (inputsActive_regs
      (forShared_regs (fun _ _ _ => outputActive_regs (regsOutside.refl _ _)) hallsRegs_notA (takeCommands_leavesA ?_))))
    all_goals exact jStep_regs (updPair_regs (moveTo_regs (regsOutside.refl _ _)))

theorem execResultDmaWrite_leavesA {n : Conv} {fits : Bool} {s : State} :
    leavesA s (execResultDmaWrite n fits s) := by
  unfold execResultDmaWrite
  split
  · exact leavesA_same
  next r rest _ =>
    have conv (off : Nat) (h0 : 4 ≤ off) (h1 : off < 0x10) : notA (aConv n off) := notA_convStatus n.isLt h0 h1
    have ht := updConv_regs (n := n) (f := fun x => { x with fifo := rest }) (regsOutside.refl notA s)
    refine leavesA_ite (leavesA_done ht) (leavesA_ite (leavesA_done
      (crossingFull_regs (P := notA) (by decide) (by decide) (by decide) ht)) ?_)
    have ht := setReg_regs (v := r.code) (conv 0x0A (by decide) (by decide))
      (setReg_regs (v := r.tag) (conv 0x0B (by decide) (by decide)) ht)
    refine leavesA_done (sampleTake_regs (regsOutside.iteL ?_ fun h => ?_))
    · exact regsOutside.ite (discard_regs ht) (regsOutside.ite ht
        (regsOutside.ite (pairSend_regs (placeRec_regs ht)) (placeRec_regs ht)))
    · exact monitorRec_regs (notA_chMonitor (by omega) (tagCh_lt _)) h

theorem execStepBoundary_leavesA {n : Conv} {s : State} : leavesA s (execStepBoundary n s) := by
  have hn : n.val / 2 < 8 := by omega
  unfold execStepBoundary
  with_reducible repeat' first
    | assumption | exact regsOutside.refl _ _ | apply leavesA_done | apply leavesA_ite | apply reported_leavesA
    | apply updConv_regs | apply joinShadow_regs | apply beginStep_regs | apply startRotation_regs
    | apply moveFlight_regs | apply takeNewFlight_regs | apply swapAt_regs | apply moveTo_regs
    | apply regsOutside.iteL | apply regsOutside.ite | split | (intro) | dsimp only

theorem execAuditRecordFlashWrite_leavesA {ok0 ok1 : Bool} {s : State} :
    leavesA s (execAuditRecordFlashWrite ok0 ok1 s) := by
  unfold execAuditRecordFlashWrite
  with_reducible repeat' first
    | exact regsOutside.refl _ _ | apply leavesA_done | apply leavesA_ite | apply audit_regs
    | apply jCommitProgress_regs | apply checkIn_regs | apply audUnread_regs | apply audDrop_regs
    | apply raiseBit_regs | apply chipResult_regs | apply nvProgram_regs | split | apply regsOutside.set | decide

theorem execAuditSectorErased_leavesA {s : State} : leavesA s (execAuditSectorErased s) := by
  unfold execAuditSectorErased
  with_reducible repeat' first
    | exact regsOutside.refl _ _ | apply leavesA_done | apply nvErase_regs | apply dirWrite_regs
    | apply checkIn_regs | split | apply regsOutside.set | decide

theorem execBalanceWaitExpiry_leavesA {b : Fin 64} {s : State} : leavesA s (execBalanceWaitExpiry b s) := by
  unfold execBalanceWaitExpiry
  with_reducible repeat' first
    | exact regsOutside.refl _ _ | apply leavesA_done | apply balTry_regs | apply moveTo_regs
    | apply balIncomplete_regs | split | decide
  all_goals exact notA_balStatus (by omega) (by omega) (by omega)

theorem execHallHeartbeatSend_leavesA {s : State} : leavesA s (execHallHeartbeatSend s) :=
  leavesA_done (regsOutside.ite (checkIn_regs (by decide) (forHalls_regs (fun _ _ _ => sendHeartbeat_regs
    (.refl _ _)) (.refl _ _))) (.refl _ _))

theorem execStatusFrame_leavesA {h : Hall} {m : HallMeas} {s : State} : leavesA s (execStatusFrame h m s) := by
  unfold execStatusFrame
  with_reducible repeat' first
    | exact regsOutside.refl _ _ | exact Fin.isLt _ | apply leavesA_done | apply leavesA_ite
    | apply crossingFull_regs | apply updHall_regs | apply modReg_regs | apply setReg_regs | apply reported_leavesA
    | apply readbackState_regs | decide
  all_goals exact notA_hallStatus (by omega) (by omega)

theorem execHallUvrExit_leavesA {h : Hall} {s : State} :
    leavesA s (execHallUvrExit h s) := leavesA_of_replies execHallUvrExit_replies (by decide)

theorem execSag1_leavesA {h : Hall} {s : State} : leavesA s (execSag1 h s) :=
  leavesA_hallDo h.isLt (hallFlag_regs (.refl _ _))

theorem execSag2_leavesA {h : Hall} {s : State} : leavesA s (execSag2 h s) :=
  leavesA_hallDo h.isLt (forChans_regs (fun _ _ _ => riskOf_regs (.refl _ _)) (hallFlag_regs (.refl _ _)))

theorem execSag3_leavesA {h : Hall} {s : State} : leavesA s (execSag3 h s) :=
  leavesA_hallDo h.isLt (regsOutside.ite (.refl _ _) (resolveAll_regs (sagRamps_regs (forChans_regs (fun _ _ _ =>
    updChan_regs (.refl _ _)) (updHall_regs (hallFlag_regs (.refl _ _)))))))

theorem execSag1Clear_leavesA {h : Hall} {s : State} : leavesA s (execSag1Clear h s) :=
  leavesA_hallDo h.isLt (hallFlag_regs (.refl _ _))

theorem execSag2Clear_leavesA {h : Hall} {s : State} : leavesA s (execSag2Clear h s) :=
  leavesA_hallDo h.isLt (forChans_regs (fun _ _ _ => riskOf_regs (.refl _ _)) (hallFlag_regs (.refl _ _)))

theorem execRecovering_leavesA {h : Hall} {above : Bool} {s : State} : leavesA s (execRecovering h above s) :=
  leavesA_hallDo h.isLt (hallFlag_regs (.refl _ _))

theorem execRecoveryEnd_leavesA {h : Hall} {s : State} : leavesA s (execRecoveryEnd h s) :=
  leavesA_hallDo h.isLt (regsOutside.ite (regsOutside.ite (updHall_regs (updHall_regs (hallFlag_regs (hallFlag_regs
    (.refl _ _))))) (leaveAll_regs (updHall_regs (hallFlag_regs (hallFlag_regs (.refl _ _)))))) (.refl _ _))

theorem execRestoreSwitchOn_leavesA {h : Hall} {s : State} : leavesA s (execRestoreSwitchOn h s) := by
  unfold execRestoreSwitchOn
  with_reducible repeat' first
    | exact regsOutside.refl _ _ | exact Fin.isLt _ | apply leavesA_hallDo | apply moveTo_regs
    | apply updHall_regs | apply updChan_regs | apply resolve_regs | apply regsOutside.foldl | split | (intro)

theorem execDieTempMeasure_leavesA {h : Hall} {deciC : Int} {s : State} :
    leavesA s (execDieTempMeasure h deciC s) :=
  leavesA_hallDo h.isLt (regsOutside.ite (resolveAll_regs (hallFlag_regs (regsOutside.ite (hallFlag_regs
    (updHall_regs (.refl _ _))) (regsOutside.ite (hallFlag_regs (updHall_regs (.refl _ _))) (updHall_regs
    (.refl _ _)))))) (regsOutside.ite (hallFlag_regs (updHall_regs (.refl _ _))) (regsOutside.ite (hallFlag_regs
    (updHall_regs (.refl _ _))) (updHall_regs (.refl _ _)))))

theorem execHallOvertempEnd_leavesA {h : Hall} {s : State} : leavesA s (execHallOvertempEnd h s) :=
  leavesA_hallDo h.isLt (regsOutside.ite (leaveAll_regs (hallFlag_regs (.refl _ _))) (.refl _ _))

theorem execLpOverDecl_leavesA {h : Hall} {on : Bool} {s : State} : leavesA s (execLpOverDecl h on s) :=
  leavesA_hallDo h.isLt (hallFlag_regs (.refl _ _))

theorem execStateEvt_leavesA {h : Hall} {ch : Chan} {level : Bool} {s : State} :
    leavesA s (execStateEvt h ch level s) :=
  leavesA_hallDo h.isLt (regsOutside.ite (chStateAt_regs (.refl _ _)) (.refl _ _))

theorem execWireBreakMeasure_leavesA {h : Hall} {ch : Chan} {i : MicroAmp} {s : State} :
    leavesA s (execWireBreakMeasure h ch i s) :=
  leavesA_hallDo h.isLt (regsOutside.ite (regsOutside.ite (wbEffect_regs (updChan_regs (.refl _ _)))
    (updChan_regs (.refl _ _))) (.refl _ _))

theorem execPulseEdge_leavesA {h : Hall} {ch : Chan} {rising : Bool} {phaseNs : Nat} {s : State} :
    leavesA s (execPulseEdge h ch rising phaseNs s) :=
  leavesA_hallDo h.isLt (regsOutside.ite (.refl _ _) (regsOutside.ite (regsOutside.ite (chFlag_regs (.refl _ _))
    (.refl _ _)) (regsOutside.ite (takeFree_regs (takeFree_regs (takeFree_regs (countEdge_regs (regsOutside.ite
    (chFlag_regs (.refl _ _)) (.refl _ _)))))) (countEdge_regs (regsOutside.ite (chFlag_regs (.refl _ _))
    (.refl _ _))))))

theorem execFreqHighClear_leavesA {h : Hall} {ch : Chan} {s : State} : leavesA s (execFreqHighClear h ch s) :=
  leavesA_hallDo h.isLt (chFlag_regs (.refl _ _))

theorem execSettlingEnd_leavesA {n : Conv} {s : State} :
    leavesA s (execSettlingEnd n s) := leavesA_of_replies execSettlingEnd_replies (by decide)

theorem execModeChangeApply_leavesA {h : Hall} {ch : Chan} {s : State} :
    leavesA s (execModeChangeApply h ch s) := by
  unfold execModeChangeApply
  with_reducible repeat' first
    | exact regsOutside.refl _ _ | exact Fin.isLt _ | apply leavesA_done | apply takeMode_regs | apply moveTo_regs
    | apply reported_leavesA | apply restartChannel_regs | split

theorem execRotationDue_leavesA {h : Hall} {s : State} :
    leavesA s (execRotationDue h s) := leavesA_of_replies execRotationDue_replies (by decide)

theorem execOverdue_leavesA {h : Hall} {s : State} : leavesA s (execOverdue h s) :=
  leavesA_ite (leavesA_done (reported_leavesA h.isLt (updRot_regs (moveTo_regs (.refl _ _))))) leavesA_same

theorem execOutputCommand_leavesA {h : Hall} {ch : Chan} {value : BitVec 32} {s : State} :
    leavesA s (execOutputCommand h ch value s) := by
  unfold execOutputCommand
  with_reducible repeat' first
    | exact regsOutside.refl _ _ | exact Fin.isLt _ | apply leavesA_hallDo | apply takeBacklog_regs
    | apply applyCommand_regs | split

theorem execOverload_leavesA {h : Hall} {x : Overload} {s : State} : leavesA s (execOverload h x s) :=
  leavesA_hallDo h.isLt (regsOutside.ite (regsOutside.ite (.refl _ _) (chFlag_regs (.refl _ _)))
    (regsOutside.ite (regsOutside.ite (gangFail_regs (chFlag_regs (.refl _ _))) (regsOutside.ite (cutRetry_regs
    (chFlag_regs (.refl _ _))) (chFlag_regs (.refl _ _)))) (.refl _ _)))

theorem execExtDrive_leavesA {h : Hall} {x : OutsideDrive} {s : State} : leavesA s (execExtDrive h x s) :=
  leavesA_hallDo h.isLt (regsOutside.ite (regsOutside.ite (.refl _ _) (chFlag_regs (.refl _ _))) (regsOutside.ite
    (regsOutside.ite (gangFail_regs (chFlag_regs (.refl _ _))) (chFlag_regs (.refl _ _))) (.refl _ _)))

theorem execReverseCurrent_leavesA {h : Hall} {ch : Chan} {s : State} : leavesA s (execReverseCurrent h ch s) :=
  leavesA_hallDo h.isLt (regsOutside.ite (regsOutside.ite (gangFail_regs (chFlag_regs (updChan_regs (.refl _ _))))
    (cutLatch_regs (chFlag_regs (updChan_regs (.refl _ _))))) (.refl _ _))

theorem execReadback_leavesA {h : Hall} {ch : Chan} {s : State} : leavesA s (execReadback h ch s) :=
  leavesA_hallDo h.isLt (regsOutside.ite (regsOutside.ite (gangFail_regs (chFlag_regs (.refl _ _))) (cutLatch_regs
    (chFlag_regs (.refl _ _)))) (.refl _ _))

theorem execLoopShort_leavesA {h : Hall} {ch : Chan} {s : State} : leavesA s (execLoopShort h ch s) :=
  leavesA_hallDo h.isLt (regsOutside.ite (cutRetry_regs (chFlag_regs (.refl _ _))) (.refl _ _))

theorem execBurdenOver_leavesA {h : Hall} {ch : Chan} {s : State} : leavesA s (execBurdenOver h ch s) :=
  leavesA_hallDo h.isLt (regsOutside.ite (cutRetry_regs (ainFlag_regs (.refl _ _))) (.refl _ _))

theorem execRetry_leavesA {h : Hall} {ch : Chan} {again : Bool} {s : State} : leavesA s (execRetry h ch again s) :=
  leavesA_hallDo h.isLt (regsOutside.ite (regsOutside.ite (cutRetry_regs (.refl _ _)) (resolve_regs (ainFlag_regs
    (chFlag_regs (chFlag_regs (updChan_regs (.refl _ _))))))) (.refl _ _))

theorem execRetryClear_leavesA {h : Hall} {ch : Chan} {s : State} : leavesA s (execRetryClear h ch s) :=
  leavesA_hallDo h.isLt (regsOutside.ite (chFlag_regs (updChan_regs (.refl _ _))) (.refl _ _))

theorem execCurrentMonitorSample_leavesA {h : Hall} {ch : Chan} {iMeas : MicroAmp} {vFrc vLp : Int} {s : State} :
    leavesA s (execCurrentMonitorSample h ch iMeas vFrc vLp s) :=
  leavesA_hallDo h.isLt (regsOutside.ite (regsOutside.ite (updChan_regs (updChan_regs (.refl _ _)))
    (monitorFlags_regs (updChan_regs (.refl _ _)))) (.refl _ _))

theorem execExtOvercurrentReclose_leavesA {h : Hall} {ch : Chan} {again : Bool} {s : State} :
    leavesA s (execExtOvercurrentReclose h ch again s) :=
  leavesA_hallDo h.isLt (regsOutside.ite (regsOutside.ite (extDetected_regs (resolve_regs (updChan_regs
    (.refl _ _)))) (resolve_regs (updChan_regs (.refl _ _)))) (.refl _ _))

theorem execExtOvercurrentClear_leavesA {h : Hall} {ch : Chan} {s : State} :
    leavesA s (execExtOvercurrentClear h ch s) :=
  leavesA_hallDo h.isLt (regsOutside.ite (leaveSafe_regs (chFlag_regs (updChan_regs (.refl _ _)))) (.refl _ _))

theorem execRampEnd_leavesA {h : Hall} {ch : Chan} {s : State} : leavesA s (execRampEnd h ch s) := by
  unfold execRampEnd
  with_reducible repeat' first
    | exact regsOutside.refl _ _ | exact Fin.isLt _ | apply leavesA_hallDo | apply moveTo_regs
    | apply updChan_regs | apply resolveAll_regs | apply resolve_regs | split

theorem execVexcLimit_leavesA {h : Hall} {on : Bool} {s : State} : leavesA s (execVexcLimit h on s) :=
  leavesA_hallDo h.isLt (excFlag_regs (.refl _ _))

theorem execVexcSenseOpen_leavesA {h : Hall} {on : Bool} {s : State} : leavesA s (execVexcSenseOpen h on s) :=
  leavesA_hallDo h.isLt (excFlag_regs (.refl _ _))

theorem execFlashOperationComplete_leavesA {chip : Fin 2} {ok : Bool} {s : State} :
    leavesA s (execFlashOperationComplete chip ok s) := by
  unfold execFlashOperationComplete
  with_reducible repeat' first
    | exact regsOutside.refl _ _ | apply leavesA_done | apply nvProgram_regs | apply checkIn_regs
    | apply jobsSettle_regs | apply chipResult_regs | split | (intro) | apply regsOutside.set | decide
  all_goals exact notA_tot (by omega) (by omega)

theorem execChipRetry_leavesA {chip : Fin 2} {ok : Option ChipFound} {s : State} :
    leavesA s (execChipRetry chip ok s) := by
  unfold execChipRetry
  with_reducible repeat' first
    | exact regsOutside.refl _ _ | apply leavesA_done | apply checkIn_regs | apply updChip_regs
    | apply raiseBit_regs | apply dirWrite_regs | apply recapture_regs | split | apply regsOutside.set | decide

theorem execDumpDone_leavesA {ok0 : Bool} {ok1 : Bool} {s : State} : leavesA s (execDumpDone ok0 ok1 s) := by
  unfold execDumpDone
  with_reducible repeat' first
    | assumption | exact regsOutside.refl _ _ | apply leavesA_done | apply leavesA_ite | apply nvErase_regs
    | apply dirWrite_regs | apply chipResult_regs | apply nvProgram_regs | apply checkIn_regs | apply raiseBit_regs
    | apply bbResume_regs | apply regsOutside.iteL | (intro) | apply regsOutside.set | decide

theorem execStreamBufferFilled_leavesA {s : State} :
    leavesA s (execStreamBufferFilled s) := leavesA_of_replies execStreamBufferFilled_replies (by decide)

theorem execSyncIn_leavesA {s : State} : leavesA s (execSyncIn s) :=
  leavesA_ite (leavesA_done (regsOutside.set (.refl _ _))) (leavesA_ite (leavesA_done (raiseBit_regs (by decide)
    (by decide) (regsOutside.set (.refl _ _)))) (leavesA_done (scheduleLocal_regs (regsOutside.set
    (.refl _ _)))))

theorem execSyncExecute_leavesA {s : State} : leavesA s (execSyncExecute s) := by
  unfold execSyncExecute
  with_reducible repeat' first
    | exact regsOutside.refl _ _ | exact hallRegs_notA ‹_› ‹_› | apply leavesA_done | apply moveTo_regs
    | apply triggerAll_regs | apply syncPuls_regs | apply syncConv_regs | apply report_regs | apply syncDone_regs
    | apply forHalls_regs | apply forN_regs | apply regsOutside.foldl | split | (intro) | apply regsOutside.set
    | decide

theorem execSyncOutEnd_leavesA {s : State} :
    leavesA s (execSyncOutEnd s) := leavesA_of_replies execSyncOutEnd_replies (by decide)

theorem execGridLock_leavesA {s : State} :
    leavesA s (execGridLock s) := leavesA_of_replies execGridLock_replies (by decide)

theorem execHeartbeat_leavesA {h : Hall} {good : Bool} {seq : BitVec 16} {s : State} :
    leavesA s (execHeartbeat h good seq s) :=
  leavesA_ite (leavesA_done (reported_leavesA h.isLt (regsOutside.ite (releaseHall_regs (updHall_regs
    (.refl _ _))) (updHall_regs (.refl _ _))))) leavesA_same

theorem execHbLoss_leavesA {h : Hall} {s : State} : leavesA s (execHbLoss h s) :=
  leavesA_ite (leavesA_done (reported_leavesA h.isLt (resolveAll_regs (forChans_regs (fun _ _ _ => standbyForm_regs
    (.refl _ _)) (hallEvent_regs (hallFlag_regs (.refl _ _))))))) leavesA_same

theorem execWarmUpEnd_leavesA {h : Hall} {s : State} : leavesA s (execWarmUpEnd h s) :=
  leavesA_ite (leavesA_done (reported_leavesA h.isLt (reloadFlights_regs (by decide) (by decide) (startFlights_regs
    (updHall_regs (updHall_regs (moveTo_regs (.refl _ _)))))))) leavesA_same

theorem execImageVerifyDone_leavesA {s : State} : leavesA s (execImageVerifyDone s) := by
  unfold execImageVerifyDone
  with_reducible repeat' first
    | exact regsOutside.refl _ _ | apply leavesA_done | apply imgRefused_regs | apply imgRollBack_regs
    | apply jStep_regs | apply jMod_regs | apply raiseBit_regs | apply updImg_regs | apply setNewCopies_regs | split
    | decide

theorem execRollAbandon_leavesA {s : State} : leavesA s (execRollAbandon s) := by
  unfold execRollAbandon
  with_reducible repeat' first
    | exact regsOutside.refl _ _ | apply leavesA_done | apply imgAbort_regs | apply moveTo_regs | split | decide

theorem execRollStandbyCountDone_leavesA {s : State} :
    leavesA s (execRollStandbyCountDone s) := leavesA_of_replies execRollStandbyCountDone_replies (by decide)

theorem execImageCopyCheck_leavesA {s : State} : leavesA s (execImageCopyCheck s) :=
  leavesA_ite leavesA_same (leavesA_done (repairCopy_regs (regsOutside.ite (raiseBit_regs (by decide)
    (by decide) (audit_regs (by decide) (by decide) (by decide) (forN_regs (fun _ _ _ => regsOutside.ite
    (.refl _ _) (setCopy_regs (.refl _ _))) (.refl _ _)))) (forN_regs (fun _ _ _ => regsOutside.ite (.refl _ _)
    (setCopy_regs (.refl _ _))) (.refl _ _)))))

theorem execCommitCheckDone_leavesA {s : State} : leavesA s (execCommitCheckDone s) := by
  unfold execCommitCheckDone
  with_reducible repeat' first
    | exact regsOutside.refl _ _ | apply leavesA_done | apply commitRefused_regs | apply commitOpen_regs | split
    | decide

theorem execPulseDelivery_leavesA {h : Hall} {ch : Chan} {r : PulseReport} {s : State} :
    leavesA s (execPulseDelivery h ch r s) :=
  leavesA_hallDo h.isLt (regsOutside.ite (regsOutside.ite (regsOutside.ite (crossingFull_regs (by decide)
    (by decide) (by decide) (updChan_regs (.refl _ _))) (updChan_regs (.refl _ _))) (regsOutside.ite
    (pairSend_regs (updChan_regs (.refl _ _))) (updChan_regs (.refl _ _)))) (.refl _ _))

theorem execRead_leavesA {mode3 changed : Bool} {wext : Fin 32} {addr : Addr} {n : Nat} {underrun : List Nat}
    {s : State} :
    leavesA s (execRead mode3 wext addr n underrun changed s) :=
  leavesA_frame fun _ => readFrame_regs (by decide) (by decide) (by decide) (.refl _ _)

theorem execReadFixed_leavesA {mode3 changed : Bool} {wext : Fin 32} {addr : Addr} {n : Nat} {underrun : List Nat}
    {s : State} :
    leavesA s (execReadFixed mode3 wext addr n underrun changed s) :=
  leavesA_frame fun _ => readFrame_regs (by decide) (by decide) (by decide) (.refl _ _)

theorem execNop_leavesA {mode3 : Bool} {s : State} : leavesA s (execNop mode3 s) :=
  leavesA_frame fun _ => .refl _ _

theorem execReservedOp_leavesA {mode3 : Bool} {_op : Fin 3} {s : State} : leavesA s (execReservedOp mode3 _op s) :=
  leavesA_frame fun _ => hostRefused_regs (by decide) (by decide) (by decide) (.refl _ _)

theorem execStreamRead_leavesA {mode3 : Bool} {stream : Fin 24} {nbytes : Nat} {s : State} :
    leavesA s (execStreamRead mode3 stream nbytes s) :=
  leavesA_frame fun _ => streamDeliver_regs (by decide) (by decide) (by decide) (by decide) (.refl _ _)

theorem execStreamPeek_leavesA {mode3 : Bool} {stream : Fin 24} {nbytes : Nat} {s : State} :
    leavesA s (execStreamPeek mode3 stream nbytes s) :=
  leavesA_frame fun _ => streamDeliver_regs (by decide) (by decide) (by decide) (by decide) (.refl _ _)

theorem execReservedStreamOp_leavesA {mode3 : Bool} {sop : Fin 4} {stream : Fin 64} {s : State} :
    leavesA s (execReservedStreamOp mode3 sop stream s) :=
  leavesA_frame fun _ => regsOutside.ite (hostRefused_regs (by decide) (by decide) (by decide) (.refl _ _))
    (.refl _ _)

theorem execSelConflict_leavesA {s : State} : leavesA s (execSelConflict s) :=
  leavesA_done (regsOutside.ite (raiseBit_regs (by decide) (by decide) (.refl _ _)) (.refl _ _))

theorem execFrameEndsInStatusByte_leavesA {_mode3 : Bool} {s : State} :
    leavesA s (execFrameEndsInStatusByte _mode3 s) :=
  leavesA_of_replies execFrameEndsInStatusByte_replies (by decide)

theorem execResetNRelease_leavesA {straps : BitVec 2} {x : ReleasePins} {s : State} :
    leavesA s (execResetNRelease straps x s) :=
  leavesA_done (regsOutside.ite (releaseDie_regs (by decide) (regsOutside.set (.refl _ _))) (.refl _ _))

theorem execWatchdogResetRelease_leavesA {s : State} : leavesA s (execWatchdogResetRelease s) :=
  leavesA_done (regsOutside.ite (releaseDie_regs (by decide) (moveTo_regs (.refl _ _))) (.refl _ _))

theorem execPllLock_leavesA {f : StartFacts} {s : State} : leavesA s (execPllLock f s) := by
  unfold execPllLock
  with_reducible repeat' first
    | exact regsOutside.refl _ _ | apply leavesA_done | apply leavesA_ite | apply confirmRings_regs
    | apply identifyChips_regs | apply lockClocks_regs | apply retentionLost_regs | apply judgeGrid_regs
    | apply loadTime_regs | apply jobsLost_regs | apply settleJournal_regs | apply checkIn_regs
    | apply startFlights_regs | apply forHalls_regs | apply regsOutside.ite | (intro) | decide
  all_goals exact notA_tot (by omega) (by omega)

theorem execTotalsReconcile_leavesA {partner : List (Run × TotCopy)} {s : State} :
    leavesA s (execTotalsReconcile partner s) := by
  unfold execTotalsReconcile
  with_reducible repeat' first
    | assumption | exact regsOutside.refl _ _ | apply leavesA_done | apply leavesA_ite | apply reconcileRun_regs
    | apply updPair_regs | apply checkIn_regs | apply forN_regs | apply regsOutside.iteL | (intro)
    | apply regsOutside.set | decide
  all_goals exact notA_tot (by omega) (by omega)

theorem execRoleSettle_leavesA {ans : PartnerAnswer} {actIn : Bool} {s : State} :
    leavesA s (execRoleSettle ans actIn s) :=
  leavesA_ite (leavesA_done (checkIn_regs (by decide) (settleRole_regs hallsRegs_notA (by decide) (by decide)
    (.refl _ _)))) leavesA_same

theorem execPortUp_leavesA {p : Port} {s : State} : leavesA s (execPortUp p s) :=
  leavesA_ite leavesA_same (leavesA_done (regsOutside.ite (formStart_regs (by decide) (by decide) (by decide)
    (by decide) (startEcho_regs (isolate_regs (by decide) (by decide) (updPort_regs (.refl _ _)))))
    (startEcho_regs (isolate_regs (by decide) (by decide) (updPort_regs (.refl _ _))))))

theorem execLinkFault_leavesA {p : Port} {s : State} : leavesA s (execLinkFault p s) :=
  leavesA_ite leavesA_same (leavesA_done (isolate_regs (by decide) (by decide) (mlEvent_regs (by decide) (by decide)
    (updMl_regs (mlEvent_regs (by decide) (by decide) (updPort_regs (.refl _ _)))))))

theorem execTransmitterSilenceEnd_leavesA {p : Port} {s : State} :
    leavesA s (execTransmitterSilenceEnd p s) := leavesA_of_replies execTransmitterSilenceEnd_replies (by decide)

theorem execCharacterLockLost_leavesA {l : Link} {s : State} : leavesA s (execCharacterLockLost l s) := by
  unfold execCharacterLockLost
  with_reducible repeat' first
    | exact regsOutside.refl _ _ | apply leavesA_done | apply isolate_regs | apply updPort_regs
    | apply updPair_regs | split | decide

theorem execNullFrame_leavesA {p : Port} {s : State} :
    leavesA s (execNullFrame p s) := leavesA_of_replies execNullFrame_replies (by decide)

theorem execEcho_leavesA {p : Port} {f : MlFrame} {s : State} : leavesA s (execEcho p f s) :=
  leavesA_ite (leavesA_done (leaves_regs (by decide) (by decide) (by decide) (.refl _ _))) (leavesA_ite
    (leavesA_done (portError_regs (by decide) (by decide) (by decide) (.refl _ _))) (leavesA_ite (leavesA_done
    (crossingFull_regs (by decide) (by decide) (by decide) (.refl _ _))) (leavesA_done (mlSend_regs
    (takeFree_regs (.refl _ _))))))

theorem execEchoReply_leavesA {p : Port} {f : MlFrame} {roundTrip : Nat} {s : State} :
    leavesA s (execEchoReply p f roundTrip s) :=
  leavesA_ite (leavesA_done (leaves_regs (by decide) (by decide) (by decide) (.refl _ _))) (leavesA_ite
    (leavesA_done (portError_regs (by decide) (by decide) (by decide) (.refl _ _))) (leavesA_ite (leavesA_done
    (crossingFull_regs (by decide) (by decide) (by decide) (.refl _ _))) (leavesA_done (regsOutside.ite
    (updPort_regs (.refl _ _)) (sendEcho_regs (updPort_regs (.refl _ _)))))))

theorem execEchoRefresh_leavesA {s : State} :
    leavesA s (execEchoRefresh s) := leavesA_of_replies execEchoRefresh_replies (by decide)

theorem execCycleFrame_leavesA {p : Port} {f : MlFrame} {s : State} : leavesA s (execCycleFrame p f s) := by
  unfold execCycleFrame
  with_reducible repeat' first
    | exact regsOutside.refl _ _ | apply leavesA_done | apply leavesA_ite | apply leaves_regs
    | apply takeCycleOut_regs | apply passOn_regs | apply updMl_regs | apply goOn_regs | apply portError_regs
    | apply crossingFull_regs | apply checkIn_regs | apply twoHeads_regs | apply takeCycle_regs
    | apply regsOutside.ite | decide

theorem execForm_leavesA {p : Port} {f : MlFrame} {s : State} : leavesA s (execForm p f s) := by
  unfold execForm
  with_reducible repeat' first
    | exact regsOutside.refl _ _ | apply leavesA_done | apply leavesA_ite | apply leaves_regs | apply passOn_regs
    | apply portError_regs | apply formOn_regs | apply crossingFull_regs | apply twoHeads_regs
    | apply formBack_regs | apply takeDelay_regs | apply updMl_regs | apply regsOutside.ite | decide

theorem execFormDone_leavesA {p : Port} {f : MlFrame} {s : State} : leavesA s (execFormDone p f s) := by
  unfold execFormDone
  with_reducible repeat' first
    | exact regsOutside.refl _ _ | apply leavesA_done | apply leavesA_ite | apply leaves_regs | apply passOn_regs
    | apply portError_regs | apply formDoneOn_regs | apply crossingFull_regs | apply formEnd_regs
    | apply regsOutside.ite | decide

theorem execLoopAdopt_leavesA {s : State} : leavesA s (execLoopAdopt s) := by
  unfold execLoopAdopt
  with_reducible repeat' first
    | exact regsOutside.refl _ _ | apply leavesA_done | apply moveTo_regs | apply updPort_regs | apply updMl_regs
    | apply mlEvent_regs | apply forN_regs | split | (intro) | decide

theorem execFormationRetry_leavesA {s : State} : leavesA s (execFormationRetry s) :=
  leavesA_done (regsOutside.ite (formStart_regs (by decide) (by decide) (by decide) (by decide) (.refl _ _))
    (.refl _ _))

theorem execDataAppend_leavesA {s : State} : leavesA s (execDataAppend s) :=
  leavesA_done (regsOutside.ite (appendData_regs (by decide) (by decide) (by decide) (by decide) (by decide)
    (.refl _ _)) (.refl _ _))

theorem execCycleBoundary_leavesA {s : State} : leavesA s (execCycleBoundary s) := by
  unfold execCycleBoundary
  with_reducible repeat' first
    | exact regsOutside.refl _ _ | apply leavesA_done | apply leavesA_ite | apply dueEchoes_regs
    | apply moveTo_regs | apply updMl_regs | apply formGo_regs | apply mlOriginate_regs | apply sendData_regs
    | apply regsOutside.ite | decide

theorem execHeadTakeover_leavesA {s : State} : leavesA s (execHeadTakeover s) :=
  leavesA_done (regsOutside.ite (mlEvent_regs (by decide) (by decide) (updMl_regs (.refl _ _))) (.refl _ _))

theorem execNoHead_leavesA {s : State} : leavesA s (execNoHead s) :=
  leavesA_done (regsOutside.ite (mlEvent_regs (by decide) (by decide) (updMl_regs (.refl _ _))) (.refl _ _))

theorem execSubLost_leavesA {e : Fin 64} {s : State} : leavesA s (execSubLost e s) :=
  leavesA_done (regsOutside.ite (mlEvent_regs (by decide) (by decide) (updMl_regs (.refl _ _))) (.refl _ _))

theorem execInjectExecute_leavesA {s : State} :
    leavesA s (execInjectExecute s) := leavesA_of_replies execInjectExecute_replies (by decide)

theorem execAcyTimeout_leavesA {s : State} : leavesA s (execAcyTimeout s) := by
  unfold execAcyTimeout
  with_reducible repeat' first
    | exact regsOutside.refl _ _ | apply leavesA_done | apply moveTo_regs | apply modReg_regs | apply mlEvent_regs
    | apply mbDone_regs | split | decide

theorem execPpsIn_leavesA {s : State} :
    leavesA s (execPpsIn s) := leavesA_of_replies execPpsIn_replies (by decide)

theorem execPpsLost_leavesA {s : State} : leavesA s (execPpsLost s) :=
  leavesA_done (regsOutside.ite (mlEvent_regs (by decide) (by decide) (updMl_regs (.refl _ _))) (.refl _ _))

theorem execWdWarn_leavesA {s : State} : leavesA s (execWdWarn s) :=
  leavesA_ite leavesA_same (leavesA_done (regsOutside.ite (moveTo_regs (.refl _ _)) (raiseBit_regs (by decide)
    (by decide) (regsOutside.set (moveTo_regs (.refl _ _))))))

theorem execCheckIn_leavesA {slot : Fin 16} {s : State} : leavesA s (execCheckIn slot s) :=
  leavesA_done (regsOutside.ite (checkIn_regs (by decide) (.refl _ _)) (.refl _ _))

theorem execDebugHalt_leavesA {s : State} : leavesA s (execDebugHalt s) :=
  leavesA_ite leavesA_same (leavesA_ite (leavesA_ite (leavesA_done (hoRequest_regs (updPair_regs (.refl _ _))))
    (leavesA_done (pairEvent_regs (by decide) (by decide) (.refl _ _)))) (leavesA_done (haltNow_regs (by decide)
    (by decide) (by decide) (.refl _ _))))

theorem execDebugResume_leavesA {s : State} : leavesA s (execDebugResume s) := by
  unfold execDebugResume
  with_reducible repeat' first
    | exact regsOutside.refl _ _ | apply leavesA_done | apply audit_regs | apply bbEvent_regs
    | apply idleSlots_regs | apply updPair_regs | split | apply regsOutside.set | decide

theorem execXinLost_leavesA {s : State} : leavesA s (execXinLost s) :=
  leavesA_done (regsOutside.ite (eccEvent_regs (by decide) (by decide) (regsOutside.set (.refl _ _))) (.refl _ _))

theorem execPllUnlock_leavesA {i : Fin 4} {s : State} : leavesA s (execPllUnlock i s) :=
  leavesA_done (regsOutside.ite (eccEvent_regs (by decide) (by decide) (regsOutside.set (.refl _ _))) (.refl _ _))

theorem execRef10Lost_leavesA {s : State} : leavesA s (execRef10Lost s) :=
  leavesA_done (regsOutside.ite (eccEvent_regs (by decide) (by decide) (regsOutside.set (.refl _ _))) (.refl _ _))

theorem execRtcStop_leavesA {s : State} : leavesA s (execRtcStop s) :=
  leavesA_done (eccEvent_regs (by decide) (by decide) (regsOutside.set (.refl _ _)))

theorem execClockConditionClear_leavesA {cond : ClockCond} {s : State} :
    leavesA s (execClockConditionClear cond s) := leavesA_of_replies execClockConditionClear_replies (by decide)

theorem execVbatLow_leavesA {s : State} : leavesA s (execVbatLow s) :=
  leavesA_done (regsOutside.ite (eccEvent_regs (by decide) (by decide) (regsOutside.set (.refl _ _))) (.refl _ _))

theorem execVbatLowClear_leavesA {s : State} :
    leavesA s (execVbatLowClear s) := leavesA_of_replies execVbatLowClear_replies (by decide)

theorem execVbatDrop_leavesA {s : State} :
    leavesA s (execVbatDrop s) := leavesA_of_replies execVbatDrop_replies (by decide)

theorem execProgramRamRewrite_leavesA {s : State} :
    leavesA s (execProgramRamRewrite s) := leavesA_of_replies execProgramRamRewrite_replies (by decide)

theorem execPairLinkUp_leavesA {s : State} :
    leavesA s (execPairLinkUp s) := leavesA_of_replies execPairLinkUp_replies (by decide)

theorem execPairHeartbeatTick_leavesA {s : State} : leavesA s (execPairHeartbeatTick s) :=
  leavesA_ite leavesA_same (leavesA_done (checkIn_regs (by decide) (pairSend_regs (updPair_regs (moveTo_regs
    (.refl _ _))))))

theorem execTakeoverInputMode_leavesA {s : State} :
    leavesA s (execTakeoverInputMode s) := leavesA_of_replies execTakeoverInputMode_replies (by decide)

theorem execPairActFault_leavesA {s : State} : leavesA s (execPairActFault s) :=
  leavesA_done (regsOutside.ite (pairEvent_regs (by decide) (by decide) (updPair_regs (.refl _ _))) (.refl _ _))

theorem execAck_leavesA {f : PairFrame} {s : State} : leavesA s (execAck f s) :=
  leavesA_ite leavesA_same (leavesA_ite (leavesA_done (pairBad_regs (.refl _ _))) (leavesA_ite (leavesA_done
    (crossingFull_regs (by decide) (by decide) (by decide) (.refl _ _))) (leavesA_ite leavesA_same (leavesA_done
    (updPair_regs (.refl _ _))))))

theorem execRecord_leavesA {f : PairFrame} {collide : Collision} {s : State} : leavesA s (execRecord f collide s) :=
  leavesA_pairReceive (noteRecords_regs (mirrorFrame_regs (by decide) (by decide) (.refl _ _)))

theorem execTickset_leavesA {f : PairFrame} {collide : Collision} {s : State} :
    leavesA s (execTickset f collide s) :=
  leavesA_pairReceive (mirrorFrame_regs (by decide) (by decide) (.refl _ _))

theorem execTotals_leavesA {f : PairFrame} {collide : Collision} {s : State} : leavesA s (execTotals f collide s) :=
  leavesA_pairReceive (hoTotals_regs (mirrorFrame_regs (by decide) (by decide) (.refl _ _)))

theorem execState_leavesA {x : StoredFrame} {s : State} : leavesA s (execState x s) := by
  unfold execState
  with_reducible repeat' first
    | exact regsOutside.refl _ _ | apply leavesA_pairReceive | apply sendCarried_regs | apply mirrorFrame_regs
    | apply updPair_regs | apply regsOutside.ite | decide

theorem execHandoverInputRelease_leavesA {s : State} :
    leavesA s (execHandoverInputRelease s) := leavesA_of_replies execHandoverInputRelease_replies (by decide)

theorem execHandoverOutputOff_leavesA {s : State} : leavesA s (execHandoverOutputOff s) := by
  unfold execHandoverOutputOff
  with_reducible repeat' first
    | exact hallsRegs_notA | exact regsOutside.refl _ _ | apply leavesA_done | apply moveTo_regs
    | apply forShared_regs | apply outputIdle_regs | split | (intro)

theorem execImageCopyToStandby_leavesA {s : State} :
    leavesA s (execImageCopyToStandby s) := leavesA_of_replies execImageCopyToStandby_replies (by decide)

/-! What a write leaves, and the actions of its bits. -/

/-- The bits written to IMG_CTRL ask for neither ACTIVATE nor RELOAD. -/
def noLoad (a : Nat) (v : Word) : Prop := a = 0x2D0A → bits v 2 0 ≠ 3 ∧ bits v 2 0 ≠ 5

theorem anyTot_notA (off : Nat) (ho : off < 0x40) (m : Nat) : notA (aTot (m % 8) off) := notA_tot (by omega) ho

theorem imgAction_leavesA {act h : Nat} {s0 s : State} (h3 : act ≠ 3) (h5 : act ≠ 5) (hs : regsOutside notA s0 s) :
    regsOutside notA s0 (imgAction act h s) := by
  unfold imgAction
  split
  · exact imgOpen_regs hs
  · exact imgClose_regs (anyTot_notA 29 (by decide)) (anyTot_notA 27 (by decide)) (by decide) (by decide) (by decide)
      (by decide) (by decide) hs
  · exact absurd rfl h3
  · exact regsOutside.ite (abortRefused_regs (by decide) (by decide) hs) (imgAbort_regs (by decide) (by decide) hs)
  · exact absurd rfl h5
  · exact imgRoll_regs hs
  · exact hs

theorem action_leavesA {a : Nat} {v : Word} {pres : Nat} {s0 s : State} (hv : noLoad a v)
    (hs : regsOutside notA s0 s) : regsOutside notA s0 (action a v pres s) := by
  unfold action
  dsimp only
  by_cases hHall : 0x0400 ≤ a ∧ a < 0x0C00
  · have hh : (a - 0x400) / 0x100 < 8 := by omega
    rw [if_pos hHall]
    exact regsOutside.ite (hallAck_regs (hallsRegs_notA _ hh) (by decide) hs)
      (regsOutside.ite (forceExc_regs (hallsRegs_notA _ hh) (by decide) hs) hs)
  rw [if_neg hHall]
  by_cases hConv : 0x0C00 ≤ a ∧ a < 0x1400
  · rw [if_pos hConv]
    exact regsOutside.ite (injGoOp_regs hs) hs
  rw [if_neg hConv]
  by_cases hRot : 0x1400 ≤ a ∧ a < 0x1600
  · have hh : (a - 0x1400) / 0x40 < 8 := by omega
    rw [if_pos hRot]
    have un (k : Nat) {u : State} (hu : regsOutside notA s0 u) :
        regsOutside notA s0 (unretireOp ((a - 0x1400) / 0x40) k u) :=
      unretireOp_regs (hallsRegs_notA _ hh) (by decide) hu
    exact regsOutside.iteL (regsOutside.iteL (regsOutside.iteL hs rotNowOp_regs) (un 0)) (un 1)
  rw [if_neg hRot]
  split
  · exact stgCtrl_regs hs
  · exact regsOutside.iteL (regsOutside.iteL hs setStrPos_regs) setStrPos_regs
  · exact regsOutside.ite (syncNowOp_regs hs) hs
  · exact regsOutside.iteL (regsOutside.iteL hs (freeze_regs (by decide) (by decide))) bbResume_regs
  · exact regsOutside.ite (checkIn_regs (by decide) hs) hs
  · exact mlCtrl_regs (by decide) (by decide) (by decide) (by decide) hs
  · exact mlCmd_regs (by decide) (by decide) hs
  · exact mbStart_regs (by decide) (by decide) (by decide) hs
  · exact regsOutside.ite (handoverOp_regs (by decide) (by decide) hs) hs
  · exact imgAction_leavesA (hv rfl).1 (hv rfl).2 hs
  · exact imgData_regs (anyTot_notA 29 (by decide)) (anyTot_notA 27 (by decide)) (by decide) (by decide) (by decide)
      (by decide) (by decide) hs
  · exact hs

theorem hallAt_lt {a h : Nat} (e : hallAt a = some h) : h < 8 := by
  unfold hallAt at e
  split at e
  · cases e; omega
  · split at e
    · cases e; omega
    · split at e
      · cases e; omega
      · cases e

theorem classB_leavesA {a : Nat} {before : Word × Word} {s0 s : State} (hs : regsOutside notA s0 s) :
    regsOutside notA s0 (classB a before s) := by
  unfold classB
  split
  · split
    · exact hs
    next h e =>
      have hr := hallsRegs_notA h (hallAt_lt e)
      exact regsOutside.ite (chOutWrite_regs hr (by decide) hs) (regsOutside.ite (forceSafe_regs hr (by decide) hs)
        (regsOutside.ite (reported_leavesA (hallAt_lt e) (resolveAll_regs (copyWord_regs hs))) hs))
  · dsimp only
    split
    · have hp : notA (aRun ((a - 0x1800) / 0x100) 0x31) := by
        unfold notA isA
        rw [regDesc_aRun (by omega) (by decide)]
        rfl
      exact regsOutside.ite (poutWrite_regs (by decide) (by decide) (by decide) hp hs) hs
    · exact regsOutside.ite (syncOutOff_regs hs) (regsOutside.ite (updMl_regs hs) hs)

theorem classC_leavesA {o : Origin} {a : Nat} {w : Word} {s0 s : State} (ha : notA a) (hs : regsOutside notA s0 s) :
    regsOutside notA s0 (classC o a w s) := by
  unfold classC
  have hset := setReg_regs (v := w) ha hs
  split
  · exact nameStream_regs hset
  · exact hs
  · exact seekTo_regs (by decide) (by decide) (by decide) hs
  · exact audRelease_regs (by decide) (by decide) (by decide) (by decide) (by decide) hset
  · exact imgSeek_regs (anyTot_notA 29 (by decide)) (anyTot_notA 27 (by decide)) (by decide) (by decide) (by decide)
      (by decide) (by decide) hs
  · exact hset

/-- A write stages a class A word and applies no other class of word to a class A register (R6). -/
theorem writeReg_leavesA {o : Origin} {a : Nat} {mask v : Word} {pres : Option Nat} {s : State}
    (hv : ∀ d, regDesc a = some d → noLoad a (v &&& mask &&& d.wo)) :
    regsOutside notA s (writeReg o a mask v pres s).1 := by
  have hs := regsOutside.refl notA s
  unfold writeReg
  cases hd : regDesc a with
  | none => exact hs
  | some d =>
    have hact := hv d hd
    have hnot (hc : d.cls ≠ .a) : notA a := by simp [notA, isA, hd, hc]
    have note {b c : Word} {u : State} (hu : regsOutside notA s u) : regsOutside notA s (clampNote a b c u) :=
      clampNote_regs (by decide) (by decide) (by decide) hu
    dsimp only
    split
    · exact hs
    split
    · exact regsOutside.ite (hoRefused_regs (by decide) (by decide) hs) hs
    split
    next hc => exact note (updStg_regs hs)
    next hc =>
      have ht := forwardWrite_regs (o := o) (d := d) (a := a) (mask := mask) (v := v)
        (countWrite_regs (auditB_regs (o := o) (a := a) (d := d) (w := clampValue (modeAt s a) a (mergedWord s d a mask v))
          (v := v &&& mask &&& d.wo) (by decide) (by decide) (by decide) hs))
      exact regsOutside.ite (action_leavesA hact ht)
        (classB_leavesA (setReg_regs (hnot (by simp [hc])) (note ht)))
    next hc =>
      have ha := hnot (by simp [hc])
      have ht := forwardWrite_regs (o := o) (d := d) (a := a) (mask := mask) (v := v) hs
      split
      · exact classC_leavesA ha (note ht)
      split
      · exact modReg_regs ha ht
      split
      · exact action_leavesA hact ht
      · exact action_leavesA hact (regsOutside.ite (takeFree_regs ht) ht)
    · exact hs

theorem cmdWrite_leavesA {o : Origin} {a : Nat} {mask v : Word} {pres : Option Nat} {s : State}
    (hv : ∀ d, regDesc a = some d → noLoad a (v &&& mask &&& d.wo)) :
    regsOutside notA s (cmdWrite o a mask v pres s) := by
  have hw := writeReg_leavesA (o := o) (pres := pres) (s := s) hv
  unfold cmdWrite
  dsimp only
  split
  · exact hw
  · exact regsOutside.ite (hostRefused_regs (by decide) (by decide) (by decide) hw) hw

/-- A write to any register but IMG_CTRL. -/
theorem noLoad_of_ne {a : Nat} {mask v : Word} (ha : a ≠ 0x2D0A) :
    ∀ d, regDesc a = some d → noLoad a (v &&& mask &&& d.wo) := fun _ _ e => absurd e ha

/-- A write to IMG_CTRL of a code that is neither ACTIVATE nor RELOAD. -/
theorem noLoad_imgCtrl {v : Word} (h3 : bits (v &&& allBits &&& 0xF07) 2 0 ≠ 3)
    (h5 : bits (v &&& allBits &&& 0xF07) 2 0 ≠ 5) :
    ∀ d, regDesc 0x2D0A = some d → noLoad 0x2D0A (v &&& allBits &&& d.wo) := by
  intro d hd _
  cases hd
  exact ⟨h3, h5⟩

theorem actWrite_leavesA {o : Origin} {a : Nat} {v : Word} {s : State}
    (hv : ∀ d, regDesc a = some d → noLoad a (v &&& allBits &&& d.wo)) : leavesA s (actWrite o a v s) :=
  leavesA_done (cmdWrite_leavesA hv)

theorem aHall_ne_imgCtrl {h : Hall} {off : Nat} (ho : off < 0x100 := by decide) : aHall h off ≠ 0x2D0A := by
  unfold aHall; omega

theorem aConv_ne_imgCtrl {n : Conv} {off : Nat} (ho : off < 0x80 := by decide) : aConv n off ≠ 0x2D0A := by
  unfold aConv; omega

theorem aRot_ne_imgCtrl {h : Hall} {off : Nat} (ho : off < 0x40 := by decide) : aRot h off ≠ 0x2D0A := by
  unfold aRot; omega

/-! The rule over all commands. -/

/-- Every command outside the short list leaves the class A registers as they were, each by the operations it is
made of. -/
theorem exec_leavesA : ∀ (c : Instr) (s : State), configures c = false → leavesA s (exec c s)
  | .read .., _, _ => execRead_leavesA
  | .readFixed .., _, _ => execReadFixed_leavesA
  | .nop .., _, _ => execNop_leavesA
  | .reservedOp _ op, _, _ => execReservedOp_leavesA (_op := op)
  | .streamRead .., _, _ => execStreamRead_leavesA
  | .streamPeek .., _, _ => execStreamPeek_leavesA
  | .reservedStreamOp .., _, _ => execReservedStreamOp_leavesA
  | .selConflict, _, _ => execSelConflict_leavesA
  | .frameEndsInStatusByte m, _, _ => execFrameEndsInStatusByte_leavesA (_mode3 := m)
  | .commit .., _, _ => actWrite_leavesA (noLoad_of_ne (by decide))
  | .commitCheckDone, _, _ => execCommitCheckDone_leavesA
  | .abandon .., _, _ => actWrite_leavesA (noLoad_of_ne (by decide))
  | .seek .., _, _ => actWrite_leavesA (noLoad_of_ne (by decide))
  | .seekOldest .., _, _ => actWrite_leavesA (noLoad_of_ne (by decide))
  | .seekNewest .., _, _ => actWrite_leavesA (noLoad_of_ne (by decide))
  | .streamBufferFilled, _, _ => execStreamBufferFilled_leavesA
  | .auditRelease .., _, _ => actWrite_leavesA (noLoad_of_ne (by decide))
  | .auditSectorErased, _, _ => execAuditSectorErased_leavesA
  | .auditRecordFlashWrite .., _, _ => execAuditRecordFlashWrite_leavesA
  | .openImage .., _, _ => actWrite_leavesA (noLoad_imgCtrl (by decide) (by decide))
  | .imageData .., _, _ => actWrite_leavesA (noLoad_of_ne (by decide))
  | .imgWoffWrite .., _, _ => actWrite_leavesA (noLoad_of_ne (by decide))
  | .close .., _, _ => actWrite_leavesA (noLoad_imgCtrl (by decide) (by decide))
  | .imageVerifyDone, _, _ => execImageVerifyDone_leavesA
  | .abort .., _, _ => actWrite_leavesA (noLoad_imgCtrl (by decide) (by decide))
  | .roll .., _, _ => actWrite_leavesA (noLoad_imgCtrl (by decide) (by decide))
  | .rollAbandon, _, _ => execRollAbandon_leavesA
  | .rollStandbyCountDone, _, _ => execRollStandbyCountDone_leavesA
  | .imageCopyCheck, _, _ => execImageCopyCheck_leavesA
  | .resetNRelease .., _, _ => execResetNRelease_leavesA
  | .pllLock .., _, _ => execPllLock_leavesA
  | .totalsReconcile .., _, _ => execTotalsReconcile_leavesA
  | .roleSettle .., _, _ => execRoleSettle_leavesA
  | .spareCheckin, _, _ => actWrite_leavesA (noLoad_of_ne (by decide))
  | .watchdogResetRelease, _, _ => execWatchdogResetRelease_leavesA
  | .wdWarn, _, _ => execWdWarn_leavesA
  | .debugHalt, _, _ => execDebugHalt_leavesA
  | .debugResume, _, _ => execDebugResume_leavesA
  | .xinLost, _, _ => execXinLost_leavesA
  | .pllUnlock .., _, _ => execPllUnlock_leavesA
  | .ref10Lost, _, _ => execRef10Lost_leavesA
  | .rtcStop, _, _ => execRtcStop_leavesA
  | .clockConditionClear .., _, _ => execClockConditionClear_leavesA
  | .vbatLow, _, _ => execVbatLow_leavesA
  | .vbatDrop, _, _ => execVbatDrop_leavesA
  | .programRamRewrite, _, _ => execProgramRamRewrite_leavesA
  | .hallHeartbeatSend, _, _ => execHallHeartbeatSend_leavesA
  | .heartbeat .., _, _ => execHeartbeat_leavesA
  | .hbLoss .., _, _ => execHbLoss_leavesA
  | .statusFrame .., _, _ => execStatusFrame_leavesA
  | .hallDown .., _, _ => execHallDown_leavesA
  | .underVoltageReset .., _, _ => execUnderVoltageReset_leavesA
  | .hallUvrExit .., _, _ => execHallUvrExit_leavesA
  | .sag1 .., _, _ => execSag1_leavesA
  | .sag2 .., _, _ => execSag2_leavesA
  | .sag3 .., _, _ => execSag3_leavesA
  | .sag1Clear .., _, _ => execSag1Clear_leavesA
  | .sag2Clear .., _, _ => execSag2Clear_leavesA
  | .recovering .., _, _ => execRecovering_leavesA
  | .recoveryEnd .., _, _ => execRecoveryEnd_leavesA
  | .restoreSwitchOn .., _, _ => execRestoreSwitchOn_leavesA
  | .dieTempMeasure .., _, _ => execDieTempMeasure_leavesA
  | .hallOvertempEnd .., _, _ => execHallOvertempEnd_leavesA
  | .lpOverDecl .., _, _ => execLpOverDecl_leavesA
  | .stateEvt .., _, _ => execStateEvt_leavesA
  | .wireBreakMeasure .., _, _ => execWireBreakMeasure_leavesA
  | .pulseEdge .., _, _ => execPulseEdge_leavesA
  | .freqHighClear .., _, _ => execFreqHighClear_leavesA
  | .pulseDelivery .., _, _ => execPulseDelivery_leavesA
  | .outputCommand .., _, _ => execOutputCommand_leavesA
  | .modeChangeApply .., _, _ => execModeChangeApply_leavesA
  | .overload .., _, _ => execOverload_leavesA
  | .extDrive .., _, _ => execExtDrive_leavesA
  | .reverseCurrent .., _, _ => execReverseCurrent_leavesA
  | .readback .., _, _ => execReadback_leavesA
  | .loopShort .., _, _ => execLoopShort_leavesA
  | .burdenOver .., _, _ => execBurdenOver_leavesA
  | .retry .., _, _ => execRetry_leavesA
  | .retryClear .., _, _ => execRetryClear_leavesA
  | .hallAck .., _, _ => leavesA_done (cmdWrite_leavesA (noLoad_of_ne (by exact aHall_ne_imgCtrl)))
  | .forceSafe .., _, _ => actWrite_leavesA (noLoad_of_ne (by exact aHall_ne_imgCtrl))
  | .forceSafeRelease .., _, _ => actWrite_leavesA (noLoad_of_ne (by exact aHall_ne_imgCtrl))
  | .currentMonitorSample .., _, _ => execCurrentMonitorSample_leavesA
  | .extOvercurrentReclose .., _, _ => execExtOvercurrentReclose_leavesA
  | .extOvercurrentClear .., _, _ => execExtOvercurrentClear_leavesA
  | .vexcLimit .., _, _ => execVexcLimit_leavesA
  | .vexcSenseOpen .., _, _ => execVexcSenseOpen_leavesA
  | .force .., _, _ => actWrite_leavesA (noLoad_of_ne (by exact aHall_ne_imgCtrl))
  | .stepBoundary .., _, _ => execStepBoundary_leavesA
  | .tcOpen .., _, _ => execTcOpen_leavesA
  | .settlingEnd .., _, _ => execSettlingEnd_leavesA
  | .resultComplete .., _, _ => execResultComplete_leavesA
  | .resultDmaWrite .., _, _ => execResultDmaWrite_leavesA
  | .injGo .., _, _ => actWrite_leavesA (noLoad_of_ne (by exact aConv_ne_imgCtrl))
  | .injectedSequenceStart .., _, _ => execInjectedSequenceStart_leavesA
  | .blankAssert .., _, _ => execBlankAssert_leavesA
  | .blankRelease .., _, _ => execBlankRelease_leavesA
  | .blankStuck .., _, _ => execBlankStuck_leavesA
  | .warmUpEnd .., _, _ => execWarmUpEnd_leavesA
  | .syncIn, _, _ => execSyncIn_leavesA
  | .syncNow .., _, _ => actWrite_leavesA (noLoad_of_ne (by decide))
  | .syncExecute, _, _ => execSyncExecute_leavesA
  | .syncOutEnd, _, _ => execSyncOutEnd_leavesA
  | .rotationDue .., _, _ => execRotationDue_leavesA
  | .rotNow .., _, _ => actWrite_leavesA (noLoad_of_ne (by exact aRot_ne_imgCtrl))
  | .unretireK0 .., _, _ => actWrite_leavesA (noLoad_of_ne (by exact aRot_ne_imgCtrl))
  | .unretireK1 .., _, _ => actWrite_leavesA (noLoad_of_ne (by exact aRot_ne_imgCtrl))
  | .overdue .., _, _ => execOverdue_leavesA
  | .tickBoundary, _, _ => execTickBoundary_leavesA
  | .runSlot .., _, _ => execRunSlot_leavesA
  | .slotOverrun .., _, _ => execSlotOverrun_leavesA
  | .balanceWaitExpiry .., _, _ => execBalanceWaitExpiry_leavesA
  | .pulseEmitted .., _, _ => execPulseEmitted_leavesA
  | .flashOperationComplete .., _, _ => execFlashOperationComplete_leavesA
  | .chipRetry .., _, _ => execChipRetry_leavesA
  | .freezeNow .., _, _ => actWrite_leavesA (noLoad_of_ne (by decide))
  | .dumpDone .., _, _ => execDumpDone_leavesA
  | .release .., _, _ => actWrite_leavesA (noLoad_of_ne (by decide))
  | .portUp .., _, _ => execPortUp_leavesA
  | .linkFault .., _, _ => execLinkFault_leavesA
  | .transmitterSilenceEnd .., _, _ => execTransmitterSilenceEnd_leavesA
  | .nullFrame .., _, _ => execNullFrame_leavesA
  | .cycleFrame .., _, _ => execCycleFrame_leavesA
  | .form .., _, _ => execForm_leavesA
  | .formDone .., _, _ => execFormDone_leavesA
  | .echo .., _, _ => execEcho_leavesA
  | .echoReply .., _, _ => execEchoReply_leavesA
  | .echoRefresh, _, _ => execEchoRefresh_leavesA
  | .reform .., _, _ => actWrite_leavesA (noLoad_of_ne (by decide))
  | .formationRetry, _, _ => execFormationRetry_leavesA
  | .loopAdopt, _, _ => execLoopAdopt_leavesA
  | .cycleBoundary, _, _ => execCycleBoundary_leavesA
  | .dataAppend, _, _ => execDataAppend_leavesA
  | .headTakeover, _, _ => execHeadTakeover_leavesA
  | .noHead, _, _ => execNoHead_leavesA
  | .subLost .., _, _ => execSubLost_leavesA
  | .injectExecute, _, _ => execInjectExecute_leavesA
  | .acyTimeout, _, _ => execAcyTimeout_leavesA
  | .mailboxRead .., _, _ => actWrite_leavesA (noLoad_of_ne (by decide))
  | .mailboxWrite .., _, _ => actWrite_leavesA (noLoad_of_ne (by decide))
  | .syncCommandSend .., _, _ => actWrite_leavesA (noLoad_of_ne (by decide))
  | .injectCommandSend .., _, _ => actWrite_leavesA (noLoad_of_ne (by decide))
  | .ppsIn, _, _ => execPpsIn_leavesA
  | .ppsLost, _, _ => execPpsLost_leavesA
  | .timeSet .., _, _ => actWrite_leavesA (noLoad_of_ne (by decide))
  | .utcSet .., _, _ => actWrite_leavesA (noLoad_of_ne (by decide))
  | .utcClear .., _, _ => actWrite_leavesA (noLoad_of_ne (by decide))
  | .pairHeartbeatTick, _, _ => execPairHeartbeatTick_leavesA
  | .pairHeartbeat .., _, _ => execPairHeartbeat_leavesA
  | .ack .., _, _ => execAck_leavesA
  | .heartbeatMissed .., _, _ => execHeartbeatMissed_leavesA
  | .takeoverInputMode, _, _ => execTakeoverInputMode_leavesA
  | .takeoverOutputDrive, _, _ => execTakeoverOutputDrive_leavesA
  | .pairActFault, _, _ => execPairActFault_leavesA
  | .fence, _, _ => execFence_leavesA
  | .record .., _, _ => execRecord_leavesA
  | .tickset .., _, _ => execTickset_leavesA
  | .totals .., _, _ => execTotals_leavesA
  | .state .., _, _ => execState_leavesA
  | .handover .., _, _ => actWrite_leavesA (noLoad_of_ne (by decide))
  | .handoverRampStart, _, _ => execHandoverRampStart_leavesA
  | .handoverInputRelease, _, _ => execHandoverInputRelease_leavesA
  | .handoverOutputOff, _, _ => execHandoverOutputOff_leavesA
  | .imageCopyToStandby, _, _ => execImageCopyToStandby_leavesA
  | .gridLock, _, _ => execGridLock_leavesA
  | .characterLockLost .., _, _ => execCharacterLockLost_leavesA
  | .pairLinkUp, _, _ => execPairLinkUp_leavesA
  | .vbatLowClear, _, _ => execVbatLowClear_leavesA
  | .checkIn .., _, _ => execCheckIn_leavesA
  | .rampEnd .., _, _ => execRampEnd_leavesA
  | .write .., _, h | .writeFixed .., _, h | .short .., _, h | .registerWrite .., _, h | .commitDone, _, h
  | .activate .., _, h | .reload .., _, h | .hallSectionConfirmed .., _, h | .reloadOutputsReleased, _, h
  | .switchBoundary, _, h | .resetNLow, _, h | .logicSupplyFailure .., _, h | .thermalTrip, _, h
  | .imageChoice, _, h | .firstValidRunTick, _, h | .watchdogPeriodEnd .., _, h | .debugReset, _, h
  | .scrub .., _, h | .hallAnnounce .., _, h | .data .., _, h | .config .., _, h | .handoverMessage .., _, h
  | .handoverSwitch, _, h =>
    nomatch h

/-- Settles O60: each command by the registers its operations write, a write by its class. -/
theorem classARegistersChangeOnlyByCommitOrImage : Obligations.ClassARegistersChangeOnlyByCommitOrImage := by
  have classA_not {a : Nat} (ha : classA a) : ¬ notA a := by simp [notA, isA_iff.2 ha]
  constructor
  · intro c s t hc e a ha
    exact exec_leavesA c s hc t e a (classA_not ha)
  · intro o addr mask v s h
    exact ⟨_, exec_registerWrite .., fun a ha =>
      settle_regsOutside (cmdWrite_leavesA (noLoad_of_ne h)) a (classA_not ha)⟩

end Sys2Proof.Machine


namespace Sys2Proof.Machine

section
/-! The word of a register in effect does not depend on the frame state, but for the mode of the frame. -/

variable (s : State) (x : HpSt) (a : Nat)

theorem cvStatus_hp : cvStatus { s with hp := x } a = cvStatus s a := rfl
theorem rotStat_hp : rotStat { s with hp := x } a = rotStat s a := rfl
theorem refStat_hp : refStat { s with hp := x } a = refStat s a := rfl
theorem getHall_hp : getHall { s with hp := x } a = getHall s a := rfl
theorem getConv_hp : getConv { s with hp := x } a = getConv s a := rfl
theorem getRot_hp : getRot { s with hp := x } a = getRot s a := rfl
theorem getReg_hp : getReg { s with hp := x } a = getReg s a := rfl
theorem gridLock_hp : gridLock { s with hp := x } = gridLock s := rfl
theorem modclkPhase_hp : modclkPhase { s with hp := x } = modclkPhase s := rfl
theorem srcEngine_hp : srcEngine { s with hp := x } a = srcEngine s a := rfl
theorem liveRecords_hp : liveRecords { s with hp := x } a = liveRecords s a := rfl
theorem liveSystem_hp : liveSystem { s with hp := x } a = liveSystem s a := rfl

theorem heldWord_hp : heldWord { s with hp := x } a = heldWord s a := by
  unfold heldWord
  simp -implicitDefEqProofs only [cvStatus_hp, rotStat_hp, refStat_hp, getRot_hp]

theorem liveField_hp : liveField { s with hp := x } a = liveField s a := by
  unfold liveField
  simp only [heldWord_hp, srcEngine_hp, getHall_hp, getConv_hp, getReg_hp, gridLock_hp, modclkPhase_hp]

variable {x}

theorem liveHost_hp (h : x.mode3 = s.hp.mode3) : liveHost { s with hp := x } a = liveHost s a := by
  unfold liveHost
  rw [h]
  rfl

theorem liveWord_hp (h : x.mode3 = s.hp.mode3) : liveWord { s with hp := x } a = liveWord s a := by
  unfold liveWord liveWord1
  simp only [liveHost_hp s _ h, liveField_hp, liveRecords_hp, liveSystem_hp]
  rfl

end

/-! Reads in turn (R302, R303, R312, R313). -/

/-- A read moves the latches and nothing else. -/
theorem readWord_state (ifc a : Nat) (s : State) : ∃ l, (readWord ifc a s).2 = { s with latch := l } := by
  unfold readWord
  split
  · exact ⟨_, rfl⟩
  · dsimp only
    split <;> exact ⟨_, rfl⟩

theorem hp_readWord (ifc a : Nat) (s : State) : (readWord ifc a s).2.hp = s.hp := by
  obtain ⟨l, h⟩ := readWord_state ifc a s
  rw [h]

theorem free_readWord (ifc a : Nat) (s : State) : (readWord ifc a s).2.free = s.free := by
  obtain ⟨l, h⟩ := readWord_state ifc a s
  rw [h]

/-- What a unit leaves in the frame state has no effect on the reads after it. -/
theorem readWord_hp {s : State} {x : HpSt} (h : x.mode3 = s.hp.mode3) (ifc a : Nat) :
    readWord ifc a { s with hp := x } = ((readWord ifc a s).1, { (readWord ifc a s).2 with hp := x }) := by
  have hw := liveWord_hp s (h := h)
  unfold readWord getLatch
  dsimp only
  simp only [hw]
  split
  · rfl
  · split <;> rfl

/-- The reads of the units before unit `n`, each on the state its predecessors left, with the last word read. -/
def readInTurn (fixed : Bool) (a : Nat) (s : State) (n : Nat) : Word × State :=
  (List.range n).foldl (fun p k => readWord 0 (unitAddr fixed a k) p.2) (0, s)

theorem readInTurn_succ (fixed : Bool) (a : Nat) (s : State) (n : Nat) :
    readInTurn fixed a s (n + 1) = readWord 0 (unitAddr fixed a n) (readInTurn fixed a s n).2 := by
  simp [readInTurn, List.range_succ]

theorem readInTurn_state (fixed : Bool) (a : Nat) (s : State) : ∀ n, ∃ l, (readInTurn fixed a s n).2 = { s with latch := l }
  | 0 => ⟨_, rfl⟩
  | n + 1 => by
    obtain ⟨l, hl⟩ := readInTurn_state fixed a s n
    obtain ⟨m, hm⟩ := readWord_state 0 (unitAddr fixed a n) (readInTurn fixed a s n).2
    exact ⟨m, by rw [readInTurn_succ, hm, hl]⟩

/-- What unit `i` of `w` bits carries. -/
def unitOf (fixed : Bool) (w a : Nat) (s : State) (i : Nat) : Word :=
  BitVec.ofNat 32 ((readInTurn fixed a s (i + 1)).1.toNat % 2 ^ w)

/-- The frame state of `x` with the first `n` units read behind it. -/
def unitsRead (fixed : Bool) (w a : Nat) (s : State) (n : Nat) (x : HpSt) : HpSt :=
  { x with
    units := x.units ++ (List.range n).map (unitOf fixed w a s)
    addrEnd := x.addrEnd || (List.range n).any fun i => decide (0x5FFF < unitAddr fixed a i) }

/-- The word `v` of register `b` goes out as a unit of `w` bits. -/
def deliver (b w : Nat) (v : Word) (s : State) : State :=
  { s with hp := { s.hp with
    units := s.hp.units ++ [BitVec.ofNat 32 (v.toNat % 2 ^ w)]
    addrEnd := s.hp.addrEnd || decide (0x5FFF < b) } }

theorem pastEnd_units (b w : Nat) (v : Word) (s : State) :
    pastEnd b { s with hp := { s.hp with units := s.hp.units ++ [BitVec.ofNat 32 (v.toNat % 2 ^ w)] } } = deliver b w v s := by
  unfold pastEnd deliver
  split
  next h => simp [h]
  next h => simp [h]

/-- A unit that does not underrun carries its word. -/
theorem readUnit_onTime {fixed : Bool} {w a i : Nat} {un : List Nat} {s : State} (h : ¬ (w < 6 ∧ 0 < i ∧ i ∈ un)) :
    readUnit fixed w a un false i s =
      deliver (unitAddr fixed a i) w (readWord 0 (unitAddr fixed a i) s).1 (readWord 0 (unitAddr fixed a i) s).2 := by
  simp [readUnit, pastEnd_units, and_assoc, h]

/-- A unit that begins before its word has been fetched carries a free value, and is reported (R304). -/
theorem readUnit_late {fixed : Bool} {w a i : Nat} {un : List Nat} {s : State} (h : w < 6 ∧ 0 < i ∧ i ∈ un) :
    readUnit fixed w a un false i s =
      deliver (unitAddr fixed a i) w (freeValue (readWord 0 (unitAddr fixed a i) s).2)
        (raiseBit rHpEvt 3 (takeFree (readWord 0 (unitAddr fixed a i) s).2)) := by
  simp [readUnit, pastEnd_units, h]

theorem getReg_deliver (b w : Nat) (v : Word) (s : State) (a : Nat) : getReg (deliver b w v s) a = getReg s a := rfl

theorem free_deliver (b w : Nat) (v : Word) (s : State) : (deliver b w v s).free = s.free := rfl

theorem units_deliver (b w : Nat) (v : Word) (s : State) :
    (deliver b w v s).hp.units = s.hp.units ++ [BitVec.ofNat 32 (v.toNat % 2 ^ w)] := rfl

theorem deliver_changes {F : List Part} {s0 s : State} {b w : Nat} {v : Word} (hF : Part.sub [.hp] F = true)
    (hs : changesOnly F s0 s) : changesOnly F s0 (deliver b w v s) := changesOnly.set_hp hF hs

theorem free_raiseBit (a i : Nat) (s : State) : (raiseBit a i s).free = s.free :=
  raiseBit_changes (F := [.regs, .bb]) rfl (changesOnly.refl _ s) .free (by decide)

/-- The units of a frame without an underrun read their words in turn. -/
theorem forN_readUnit (fixed : Bool) (w a : Nat) (s : State) {x : HpSt} (hx : x.mode3 = s.hp.mode3) : ∀ n,
    forN n (readUnit fixed w a [] false) { s with hp := x } =
      { (readInTurn fixed a s n).2 with hp := unitsRead fixed w a s n x }
  | 0 => by simp [forN, readInTurn, unitsRead]
  | n + 1 => by
    have ih := forN_readUnit fixed w a s hx n
    obtain ⟨l, hl⟩ := readInTurn_state fixed a s n
    have hm : (unitsRead fixed w a s n x).mode3 = (readInTurn fixed a s n).2.hp.mode3 := by rw [hl]; exact hx
    unfold forN at ih ⊢
    rw [List.range_succ, List.foldl_append, List.foldl_cons, List.foldl_nil, ih, readUnit_onTime (by simp)]
    simp only [readWord_hp hm, ← readInTurn_succ]
    simp [deliver, unitsRead, unitOf, List.range_succ, Bool.or_assoc]

/-- The frame state when the echo of the command byte is chosen (R304). -/
def echoed (fixed : Bool) (wext : Nat) (x : HpSt) : HpSt :=
  { x with echo := some (BitVec.ofNat 8 (64 * b2n fixed + wext)) }

theorem readFrame_wide {fixed : Bool} {wext a n : Nat} {un : List Nat} {ch : Bool} {s : State} (hw : 3 ≤ wext) :
    readFrame fixed wext a n un ch s =
      forN n (readUnit fixed (wext + 1) a un ch) { s with hp := echoed fixed wext s.hp } := by
  unfold readFrame unitWidth
  simp only [if_neg (Nat.not_lt.2 hw)]
  rfl


/-- A read frame of wide units without an underrun, before the state settles. -/
theorem exec_readFrame {fixed m : Bool} {wext : Fin 32} {addr : Addr} {n : Nat} {un : List Nat} {ch : Bool} {s : State}
    (hl : logicUp s = true) (hw : 3 ≤ wext.val) :
    exec (if fixed then .readFixed m wext addr n un ch else .read m wext addr n un ch) s = done
      (forN n (readUnit fixed (wext.val + 1) addr.toNat un ch)
        { beginFrame m s with hp := echoed fixed wext.val (beginFrame m s).hp }) := by
  have e (fixed : Bool) : frame m (readFrame fixed wext.val addr.toNat n un ch) s = done
      (forN n (readUnit fixed (wext.val + 1) addr.toNat un ch)
        { beginFrame m s with hp := echoed fixed wext.val (beginFrame m s).hp }) := by
    unfold frame
    rw [if_pos hl, readFrame_wide hw]
  cases fixed
  · exact e false
  · exact e true

/-- A frame begins with the counter of frames stepped, and no other register moved. -/
theorem beginFrame_hpFrames (m : Bool) (s : State) : getReg (beginFrame m s) rHpFrames = getReg s rHpFrames + 1 :=
  getReg_setReg_self _ _ _

/-- What a read frame without an underrun comes to. -/
theorem readFrame_result (fixed m : Bool) (wext : Fin 32) (addr : Addr) (n : Nat) {s : State} (hl : logicUp s = true)
    (hw : 3 ≤ wext.val) : ∃ l,
    exec (if fixed then .readFixed m wext addr n [] false else .read m wext addr n [] false) s =
      done { beginFrame m s with
        latch := l
        hp := unitsRead fixed (wext.val + 1) addr.toNat (beginFrame m s) n (echoed fixed wext.val (beginFrame m s).hp) } := by
  obtain ⟨l, h⟩ := readInTurn_state fixed addr.toNat (beginFrame m s) n
  refine ⟨l, (exec_readFrame hl hw).trans (congrArg done ((forN_readUnit fixed _ addr.toNat
    (beginFrame m s) (x := echoed fixed wext.val (beginFrame m s).hp) rfl n).trans ?_))⟩
  rw [h]

theorem readFramesDeliverWords_onTime (fixed m : Bool) (wext : Fin 32) (addr : Addr) (n : Nat) (s : State) (hi : Inv s)
    (hl : logicUp s = true) (hw : 3 ≤ wext.val) :
    ∃ t, exec (if fixed then .readFixed m wext addr n [] false else .read m wext addr n [] false) s = .next t ∧
      t.hp.units = (List.range n).map (unitOf fixed (wext.val + 1) addr.toNat (beginFrame m s)) ∧
      (t.hp.addrEnd = true ↔ ∃ i, i < n ∧ 0x5FFF < unitAddr fixed addr.toNat i) ∧
      t.hp.changed = false ∧ t.hp.short = false ∧ t.hp.reject = false ∧
      t.hp.echo = some (BitVec.ofNat 8 (64 * b2n fixed + wext.val)) ∧
      getReg t rHpFrames = getReg s rHpFrames + 1 ∧
      framed [.hp, .regs, .latch] s t ∧ regsOutside (· = rHpFrames) s t := by
  obtain ⟨l, h⟩ := readFrame_result fixed m wext addr n hl hw
  have hc : changesOnly [.hp, .regs, .latch] s (beginFrame m s) := beginFrame_changes (by decide) (changesOnly.refl _ _)
  have hr : regsOutside (· = rHpFrames) s (beginFrame m s) := beginFrame_regs rfl (regsOutside.refl _ _)
  refine ⟨_, h, ?_, ?_, ?_, ?_, ?_, ?_, (getReg_settle _ _).trans (beginFrame_hpFrames m s),
    framed_settle hi ?_ (by decide), settle_regsOutside hr⟩
  case refine_7 =>
    exact changesOnly.set_hp (u := { beginFrame m s with latch := l }) (by decide) (changesOnly.set_latch (by decide) hc)
  all_goals simp [unitsRead, echoed, beginFrame]

/-- What unit 0 puts in the frame state, and unit 1, read too early for its word (R304). -/
theorem forN_two_underrun {w a : Nat} (u : State) (hw : w < 6) :
    let t := forN 2 (readUnit false w a [1] false) u
    bit (getReg t rHpEvt) 3 = true ∧ t.free = u.free + 1 ∧
    t.hp.units = u.hp.units ++ [BitVec.ofNat 32 ((readWord 0 (unitAddr false a 0) u).1.toNat % 2 ^ w)] ++
      [BitVec.ofNat 32 ((Config.freeWord u.free).toNat % 2 ^ w)] ∧
    changesOnly [.hp, .regs, .latch, .free, .bb] u t ∧ regsOutside (fun a => a = rHpEvt ∨ a = rBbMissed) u t := by
  have two (f : Nat → State → State) : forN 2 f u = f 1 (f 0 u) := rfl
  rw [two, readUnit_late (i := 1) ⟨hw, by decide, by simp⟩, readUnit_onTime (i := 0) (by simp)]
  refine ⟨bit_raiseBit (by decide) (by decide), ?_, ?_, ?_, ?_⟩
  · rw [free_deliver, free_raiseBit]
    exact congrArg (· + 1) (by rw [free_readWord, free_deliver, free_readWord])
  · rw [units_deliver, hp_raiseBit, freeValue, free_readWord, free_deliver, free_readWord]
    exact congrArg (· ++ _) (by rw [takeFree, hp_readWord, units_deliver, hp_readWord])
  · exact deliver_changes (by decide) (raiseBit_changes (by decide) (takeFree_changes (by decide)
      (readWord_changes (by decide) (deliver_changes (by decide) (readWord_changes (by decide) (changesOnly.refl _ _))))))
  · exact raiseBit_regs (.inl rfl) (.inr rfl) (takeFree_regs (readWord_regs (readWord_regs (regsOutside.refl _ u))))

/-- The frame of two units whose second begins before its word has been fetched (R304). -/
theorem readFramesDeliverWords_underrun (m : Bool) (wext : Fin 32) (addr : Addr) (s : State) (hi : Inv s)
    (hl : logicUp s = true) (hw : 3 ≤ wext.val) (h5 : wext.val < 5) :
    ∃ t, exec (.read m wext addr 2 [1] false) s = .next t ∧ bit (getReg t rHpEvt) 3 = true ∧
      t.hp.units = [BitVec.ofNat 32 ((readWord 0 addr.toNat (beginFrame m s)).1.toNat % 2 ^ (wext.val + 1)),
        BitVec.ofNat 32 ((Config.freeWord s.free).toNat % 2 ^ (wext.val + 1))] ∧ t.free = s.free + 1 ∧
      framed [.hp, .regs, .latch, .free, .bb] s t ∧
      regsOutside (fun a => a = rHpFrames ∨ a = rHpEvt ∨ a = rBbMissed) s t := by
  have h := exec_readFrame (fixed := false) (m := m) (addr := addr) (n := 2) (un := [1]) (ch := false) hl hw
  have h0 : unitAddr false addr.toNat 0 = addr.toNat := by unfold unitAddr; simp; omega
  obtain ⟨hbit, hfree, hunits, hc, hr⟩ := forN_two_underrun (w := wext.val + 1) (a := addr.toNat)
    { beginFrame m s with hp := echoed false wext.val (beginFrame m s).hp } (by omega)
  rw [h0] at hunits
  have hword := congrArg Prod.fst (readWord_hp (s := beginFrame m s) (x := echoed false wext.val (beginFrame m s).hp) rfl 0
    addr.toNat)
  refine ⟨_, h, ?_, ?_, (free_settle _).trans hfree, framed_settle hi ?_ (by decide), settle_regsOutside ?_⟩
  · rwa [getReg_settle]
  · exact (congrArg HpSt.units (hp_settle _)).trans (hunits.trans (congrArg (fun v : Word => [BitVec.ofNat 32 (v.toNat % _), _]) hword))
  · exact (beginFrame_changes (by decide) (changesOnly.refl _ s)).trans
      ((changesOnly.set_hp (u := beginFrame m s) (by decide) (changesOnly.refl _ _)).trans hc)
  · exact regsOutside.trans (beginFrame_regs (.inl rfl) (regsOutside.refl _ s)) (hr.mono fun _ => .inr)

/-- Settles O9: the units of a frame on time by induction over them, the late unit by what its read leaves. -/
theorem readFramesDeliverWords : Obligations.ReadFramesDeliverWords :=
  ⟨readFramesDeliverWords_onTime, readFramesDeliverWords_underrun⟩

end Sys2Proof.Machine

namespace Sys2Proof.Machine

/-! What the operations of a hall leave: the other halls and channels, the hall's copy of its configuration, its FORCE_SAFE flag
and its commands, and of the open periods all but the noted verification states. -/

/-- From `s` to `t` hall `h` moved its outputs or reported, and nothing of its configuration or its commands. -/
structure Quiet (h : Nat) (s t : State) : Prop where
  halls : hallsOutside (· = h) s t
  chans : chansOutside (fun a _ => a = h) s t
  vstates : onlyVstates s t
  cfg : (getHall t h).cfg = (getHall s h).cfg
  forced : bit (getHall t h).stat 6 = bit (getHall s h).stat 6
  cmds : ∀ c < 4, (getChan t h c).cmd = (getChan s h c).cmd

section
variable {h : Nat} {s t u : State}

theorem Quiet.refl (h : Nat) (s : State) : Quiet h s s :=
  ⟨fun _ _ => rfl, fun _ _ _ _ => rfl, rfl, rfl, rfl, fun _ _ => rfl⟩

theorem Quiet.trans (p : Quiet h s t) (q : Quiet h t u) : Quiet h s u where
  halls k hk := (q.halls k hk).trans (p.halls k hk)
  chans k d hd hk := (q.chans k d hd hk).trans (p.chans k d hd hk)
  vstates := q.vstates.trans p.vstates
  cfg := q.cfg.trans p.cfg
  forced := q.forced.trans p.forced
  cmds c hc := (q.cmds c hc).trans (p.cmds c hc)

theorem Quiet.ite {c : Prop} [Decidable c] (p : Quiet h s t) (q : Quiet h s u) : Quiet h s (if c then t else u) := by
  split <;> assumption

/-- Operations on other parts of the state. -/
theorem Quiet.skip {F : List Part} (k : changesOnly F t u) (hn : Part.halls ∉ F ∧ Part.chans ∉ F ∧ Part.per ∉ F)
    (p : Quiet h s t) : Quiet h s u := by
  obtain ⟨hh, hc, hp⟩ := hn
  have halls : u.halls = t.halls := k .halls hh
  have chans : u.chans = t.chans := k .chans hc
  have per : u.per = t.per := k .per hp
  have gh (k : Nat) : getHall u k = getHall t k := by simp only [getHall, halls]
  have gc (k c : Nat) : getChan u k c = getChan t k c := by simp only [getChan, chans]
  exact p.trans ⟨fun k _ => gh k, fun k d _ _ => gc k d, by unfold onlyVstates; rw [per], by rw [gh], by rw [gh], fun c _ => by rw [gc]⟩

theorem Quiet.updChan {c : Nat} {f : ChanState → ChanState} (hc : c < 4) (hf : ∀ x, (f x).cmd = x.cmd) (p : Quiet h s t) :
    Quiet h s (updChan h c f t) := by
  refine p.trans ⟨fun _ _ => rfl, fun k d hd hk => ?_, rfl, rfl, rfl, fun d hd => ?_⟩
  · exact getChan_updChan_other (by omega) f t
  · by_cases e : d = c
    · rw [e, getChan_updChan_self, hf]
    · rw [getChan_updChan_other (by omega) f t]

theorem Quiet.updHall {f : HallState → HallState} (hf : ∀ x, (f x).cfg = x.cfg ∧ bit (f x).stat 6 = bit x.stat 6)
    (p : Quiet h s t) : Quiet h s (updHall h f t) := by
  refine p.trans ⟨fun k hk => getHall_updHall_other hk f t, fun _ _ _ _ => rfl, rfl, ?_, ?_, fun _ _ => rfl⟩
  · rw [getHall_updHall_self, (hf _).1]
  · rw [getHall_updHall_self, (hf _).2]

theorem Quiet.forChans {f : Nat → State → State} (hf : ∀ c < 4, ∀ u, Quiet h u (f c u)) (p : Quiet h s t) :
    Quiet h s (forChans f t) :=
  p.trans ((((hf 0 (by decide) _).trans (hf 1 (by decide) _)).trans (hf 2 (by decide) _)).trans (hf 3 (by decide) _))

theorem Quiet.foldl {l : List Nat} {f : State → Nat → State} (hf : ∀ u, ∀ c ∈ l, Quiet h u (f u c)) (p : Quiet h s t) :
    Quiet h s (l.foldl f t) := by
  induction l generalizing t with
  | nil => exact p
  | cons c l ih =>
    exact ih (fun u d hd => hf u d (List.mem_cons_of_mem _ hd)) (p.trans (hf t c List.mem_cons_self))

variable {c : Nat}

theorem chFlag_quiet {i : Nat} {b : Bool} (hc : c < 4) (p : Quiet h s t) : Quiet h s (chFlag h c i b t) :=
  p.updChan hc fun _ => rfl

theorem setReg_quiet {a : Nat} {v : Word} (p : Quiet h s t) : Quiet h s (setReg a v t) :=
  p.skip (F := [.regs]) (setReg_changes (by decide) (changesOnly.refl _ _)) (by decide)

theorem raiseEvt_quiet {a : Nat} {m : Word} (p : Quiet h s t) : Quiet h s (raiseEvt a m t) :=
  p.skip (F := [.regs, .bb]) (raiseEvt_changes (by decide) (changesOnly.refl _ _)) (by decide)

theorem reportState_quiet (p : Quiet h s t) : Quiet h s (reportState h c t) :=
  p.skip (F := [.regs, .bb]) (reportState_changes (by decide) (changesOnly.refl _ _)) (by decide)

theorem setDrive_quiet {v : Nat} (hc : c < 4) (p : Quiet h s t) : Quiet h s (setDrive h c v t) := by
  unfold setDrive
  refine Quiet.ite (chFlag_quiet hc (chFlag_quiet hc (p.updChan hc ?_))) (chFlag_quiet hc (p.updChan hc ?_)) <;>
    exact fun _ => rfl

theorem pulseGo_quiet (hc : c < 4) (p : Quiet h s t) : Quiet h s (pulseGo h c t) := by
  unfold pulseGo
  exact Quiet.ite (p.updChan hc fun _ => rfl) p

theorem resolve_quiet (hc : c < 4) (p : Quiet h s t) : Quiet h s (resolve h c t) := by
  unfold resolve
  refine Quiet.ite p ?_
  split
  · exact Quiet.ite p (Quiet.ite p (setDrive_quiet hc p))
  · exact Quiet.ite p (Quiet.ite (chFlag_quiet hc p) (pulseGo_quiet hc (setDrive_quiet hc p)))

theorem resolveAll_quiet (p : Quiet h s t) : Quiet h s (resolveAll h t) :=
  p.forChans fun _ hc _ => resolve_quiet hc (Quiet.refl _ _)

theorem startRamp_quiet {v r : Nat} (hc : c < 4) (p : Quiet h s t) : Quiet h s (startRamp h c v r t) := by
  unfold startRamp
  exact chFlag_quiet hc (p.updChan hc fun _ => rfl)

theorem leaveSafe_quiet {l : Latch} (hc : c < 4) (p : Quiet h s t) : Quiet h s (leaveSafe l h c t) := by
  unfold leaveSafe
  refine Quiet.ite p (Quiet.ite (resolve_quiet hc (chFlag_quiet hc (p.updChan hc fun _ => rfl)))
    (Quiet.ite (Quiet.ite (resolve_quiet hc (p.updChan hc fun _ => rfl)) ?_) (resolve_quiet hc p)))
  exact Quiet.ite (startRamp_quiet hc p) (Quiet.ite (p.updChan hc fun _ => rfl) (resolve_quiet hc p))

theorem leaveAll_quiet {l : Latch} (p : Quiet h s t) : Quiet h s (leaveAll l h t) := by
  unfold leaveAll
  have q := Quiet.updHall (f := fun x => { x with nextOn := t.time.now + 200000 }) (fun _ => ⟨rfl, rfl⟩) p
  have q := Quiet.forChans (f := fun c => updChan h c fun y => { y with restoreDue := false })
    (fun _ hc _ => (Quiet.refl _ _).updChan hc fun _ => rfl) q
  have q := Quiet.forChans (f := leaveSafe l h) (fun _ hc _ => leaveSafe_quiet hc (Quiet.refl _ _)) q
  exact Quiet.forChans (fun _ hc _ => resolve_quiet hc (Quiet.refl _ _)) q

theorem noteVstate_quiet (p : Quiet h s t) : Quiet h s (noteVstate h t) := by
  refine p.trans ⟨fun _ _ => rfl, fun _ _ _ _ => rfl, ?_, rfl, rfl, fun _ _ => rfl⟩
  unfold onlyVstates noteVstate
  simp only [List.map_map]
  congr 2
  funext k
  simp only [Function.comp_apply]
  split <;> rfl

theorem reportChan_quiet (hc : c < 4) (p : Quiet h s t) : Quiet h s (reportChan h c t) := by
  unfold reportChan
  with_reducible
    refine Quiet.updChan hc (fun _ => rfl) (raiseEvt_quiet (raiseEvt_quiet (reportState_quiet ?_)))
    iterate 9 apply setReg_quiet
    exact p

theorem report_quiet (p : Quiet h s t) : Quiet h s (report h t) := by
  unfold report forN
  with_reducible
    refine Quiet.ite (Quiet.forChans (fun _ hc _ => reportChan_quiet hc (Quiet.refl _ _)) (noteVstate_quiet
      (Quiet.updHall (fun _ => ⟨rfl, rfl⟩) (raiseEvt_quiet (raiseEvt_quiet (raiseEvt_quiet
        (Quiet.foldl (fun _ _ _ => setReg_quiet (Quiet.refl _ _)) ?_))))))) p
    iterate 5 apply setReg_quiet
    exact p

end

/-- The other halls, their channels and the open periods' counts stand. -/
def Apart (h : Nat) (s t : State) : Prop := hallApart h s t ∧ onlyVstates s t

section
variable {h : Nat} {s t u : State}

theorem Quiet.apart (p : Quiet h s t) : Apart h s t := ⟨⟨p.halls, p.chans⟩, p.vstates⟩

theorem Apart.trans (p : Apart h s t) (q : Apart h t u) : Apart h s u := by
  obtain ⟨⟨ph, pc⟩, pv⟩ := p
  obtain ⟨⟨qh, qc⟩, qv⟩ := q
  exact ⟨⟨fun k hk => (qh k hk).trans (ph k hk), fun k d hd hk => (qc k d hd hk).trans (pc k d hd hk)⟩, qv.trans pv⟩

theorem updHall_apart (f : HallState → HallState) (s : State) : Apart h s (updHall h f s) :=
  ⟨⟨fun _ hk => getHall_updHall_other hk f s, fun _ _ _ _ => rfl⟩, rfl⟩

theorem updChan_apart {c : Nat} (hc : c < 4) (f : ChanState → ChanState) (s : State) : Apart h s (updChan h c f s) :=
  ⟨⟨fun _ _ => rfl, fun _ _ _ _ => getChan_updChan_other (by omega) f s⟩, rfl⟩

/-- Channel `c` with command `v`, its output not yet moved. -/
def commanded (h c v : Nat) (s : State) : State :=
  updChan h c (fun y => { y with cmd := v, held := if safeCause s h c then y.held else v }) s

theorem gangMembers_lt {c : Nat} (hc : c < 4) {s : State} : ∀ d ∈ gangMembers s h c, d < 4 := by
  unfold gangMembers
  split
  · exact fun d hd => List.mem_range.1 (List.mem_filter.1 hd).1
  · simpa using hc

theorem applyCommand_quiet {c v : Nat} (hc : c < 4) (s : State) : Quiet h (commanded h c v s) (applyCommand h c v s) := by
  unfold applyCommand
  exact Quiet.foldl (fun _ d hd => resolve_quiet (gangMembers_lt hc d hd) (Quiet.refl _ _))
    (Quiet.ite ((Quiet.refl _ _).updChan hc fun _ => rfl) (Quiet.refl _ _))

theorem chOutWrite_apart {c : Nat} (hc : c < 4) (s : State) : Apart h s (chOutWrite h c s) ∧
    ((getHall s h).active = true →
      (getChan (chOutWrite h c s) h c).cmd = min (bits (getReg s (aCh h c 0x1C)) 23 0) (cmdLimit s h c)) := by
  unfold chOutWrite
  split
  · have q := report_quiet (applyCommand_quiet (h := h) (v := min (bits (getReg s (aCh h c 0x1C)) 23 0) (cmdLimit s h c)) hc s)
    exact ⟨(updChan_apart hc _ s).trans q.apart, fun _ => (q.cmds c hc).trans (by rw [commanded, getChan_updChan_self])⟩
  next hn => exact ⟨(Quiet.refl _ _).apart, fun e => absurd e hn⟩

theorem bit_putBit (w : Word) {i : Nat} (hi : i < 32) (b : Bool) : bit (putBit w i b) i = b := by
  cases b
  · simp [bit, putBit, bitMask, hi, BitVec.getLsbD_ofNat, Nat.testBit_shiftLeft]
  · exact bit_or_bitMask w hi

/-- The hall's flag of FORCE_SAFE follows the register where the hall is up (R54). -/
theorem forceSafe_apart (b : Bool) (s : State) : Apart h s (forceSafe h b s) ∧
    ((getHall s h).up = true → bit (getHall (forceSafe h b s) h).stat 6 = b) := by
  have flag (c : Bool) : Apart h s (hallFlag h 6 c s) ∧ bit (getHall (hallFlag h 6 c s) h).stat 6 = c := by
    refine ⟨updHall_apart _ s, ?_⟩
    unfold hallFlag
    rw [getHall_updHall_self]
    exact bit_putBit _ (by decide) c
  unfold forceSafe
  split
  next hn => exact ⟨(Quiet.refl _ _).apart, fun e => by simp [e] at hn⟩
  split
  next hb =>
    have q := report_quiet (resolveAll_quiet (Quiet.refl h (hallFlag h 6 true s)))
    exact ⟨(flag true).1.trans q.apart, fun _ => (q.forced.trans (flag true).2).trans hb.symm⟩
  next hb =>
    have hb : b = false := by simpa using hb
    split
    · have q := report_quiet (leaveAll_quiet (l := .safe) (Quiet.refl h (hallFlag h 6 false s)))
      exact ⟨(flag false).1.trans q.apart, fun _ => (q.forced.trans (flag false).2).trans hb.symm⟩
    next hs => exact ⟨(Quiet.refl _ _).apart, fun _ => by rw [hb]; simpa using hs⟩

/-- The hall takes the register's word, and its outputs follow (R51). -/
theorem copyWord_apart (a : Nat) (s : State) : Apart h s (report h (resolveAll h (copyWord h a s))) ∧
    hcfg (report h (resolveAll h (copyWord h a s))) h a = getReg s a := by
  have q := report_quiet (resolveAll_quiet (Quiet.refl h (copyWord h a s)))
  refine ⟨(updHall_apart _ s).trans q.apart, ?_⟩
  unfold hcfg
  rw [q.cfg]
  unfold copyWord setHcfg
  rw [getHall_updHall_self]
  exact tget_tset_self ..

end

/-! The class B registers of a hall. -/

/-- Whether a class B register with RW fields stands at `a`. -/
def isBrw (a : Nat) : Bool := (regDesc a).any fun d => d.cls == .b && d.rw != 0

theorem hallAt_range {a h : Nat} (ha : hallAt a = some h) : h < 8 ∧ 0x0400 ≤ a ∧ a < 0x1600 := by
  unfold hallAt at ha
  split at ha
  · cases ha; omega
  split at ha
  · cases ha; omega
  split at ha
  · cases ha; omega
  · cases ha

theorem hallAt_low {a h : Nat} (ha : hallAt a = some h) (hl : a < 0x0C00) : h = (a - 0x400) / 0x100 := by
  have hr := hallAt_range ha
  unfold hallAt at ha
  rw [if_pos (by omega)] at ha
  exact (Option.some.inj ha).symm

theorem hallRegs_notB {h a : Nat} (hh : h < 8) (ha : hallRegs h a) : isBrw a = false := by
  unfold hallRegs at ha
  rcases ha with rfl | rfl | rfl | rfl | rfl | rfl | rfl | rfl | rfl | ⟨w, hw, rfl⟩ | ⟨c, hc, ha⟩
  · decide
  iterate 8 revert h; decide
  · revert h w; decide
  · rcases ha with rfl | rfl | rfl | rfl | rfl | rfl | rfl | rfl | rfl | rfl | rfl <;> revert h c <;> decide

theorem sectOf_hall {a : Nat} (h0 : 0x0400 ≤ a) (h1 : a < 0x1600) : sectOf a ≠ 0 := by
  unfold sectOf
  cases e : listSects.find? fun t => (sectRange t).1 ≤ a && a ≤ (sectRange t).2 with
  | some t =>
    have ht := List.mem_of_find?_eq_some e
    have all : ∀ t ∈ listSects, t ≠ 0 := by decide
    exact all t ht
  | none =>
    have hn := List.find?_eq_none.1 e
    have h1 := hn 1 (by decide)
    have h2 := hn 2 (by decide)
    have h3 := hn 3 (by decide)
    simp [sectRange] at h1 h2 h3
    omega

/-- Every class B word of a hall is part of its configuration, FORCE_SAFE apart. -/
theorem copied_of_isBrw {a h : Nat} (hb : isBrw a = true) (ha : hallAt a = some h) (h5 : a ≠ aHall h 0x05) :
    imgBits a ≠ 0 ∨ isPulsFrz a = true := by
  obtain ⟨hh, h0, h1⟩ := hallAt_range ha
  by_cases hp : isPulsFrz a = true
  · exact .inr hp
  left
  have hforce : ¬ (0x0400 ≤ a ∧ a < 0x0C00 ∧ (a - 0x400) % 0x100 = 0x05) := by
    rintro ⟨_, hl, hoff⟩
    have := hallAt_low ha hl
    exact h5 (by unfold aHall; omega)
  unfold isBrw at hb
  cases hd : regDesc a with
  | none => simp [hd] at hb
  | some d =>
    obtain ⟨hc, hrw⟩ : d.cls = .b ∧ d.rw ≠ 0 := by simpa [hd] using hb
    have hlist : listable a = true := by simpa [listable, hd, hc] using hrw
    unfold imgBits
    rw [if_neg (by omega), if_neg hp, if_neg hforce, if_pos (by simp [hlist, sectOf_hall h0 h1]), hd]
    exact hrw

/-- What a class B write does in the blocks of a hall. -/
theorem classB_hall {a h : Nat} {b : Word × Word} {s : State} (hb : isBrw a = true) (ha : hallAt a = some h) :
    Apart h s (classB a b s) ∧
    ((getHall s h).active = true → isChOut a = false → a ≠ aHall h 0x05 → hcfg (classB a b s) h a = getReg s a) ∧
    ((getHall s h).active = true → ∀ c < 4, a = aCh h c 0x1C →
      (getChan (classB a b s) h c).cmd = min (bits (getReg s a) 23 0) (cmdLimit s h c)) ∧
    (a = aHall h 0x05 → (getHall s h).up = true → bit (getHall (classB a b s) h).stat 6 = bit (getReg s a) 0) ∧
    changesOnly [.regs, .halls, .chans, .per, .bb] s (classB a b s) ∧ regsOutside (hallRegs h) s (classB a b s) := by
  obtain ⟨hh, h0, h1⟩ := hallAt_range ha
  have h2 := hallAt_low ha
  unfold classB
  rw [if_pos ⟨h0, h1⟩, ha]
  dsimp only
  split
  next ho =>
    obtain ⟨⟨hl, ho⟩, ho'⟩ : (a < 0x0C00 ∧ 0x1C ≤ (a - 0x400) % 0x100) ∧ (a - 0x400) % 0x100 < 0x20 := by simpa using ho
    have hc : (a - 0x400) % 0x100 - 0x1C < 4 := by omega
    have := h2 hl
    obtain ⟨hq, hv⟩ := chOutWrite_apart (h := h) hc s
    refine ⟨hq, fun _ hn => ?_, fun hact c hc ea => ?_, fun ea => ?_, chOutWrite_changes (by decide) (changesOnly.refl _ _),
      chOutWrite_regs (fun _ => id) (.inl rfl) (regsOutside.refl _ _)⟩
    · simp [isChOut, hl, ho, ho', h0] at hn
    · have ec : (a - 0x400) % 0x100 - 0x1C = c := by unfold aCh aHall at ea; omega
      rw [ec] at hv ⊢
      rw [hv hact, ← ea]
    · unfold aHall at ea; omega
  next ho =>
  split
  next hf =>
    obtain ⟨hl, hf⟩ : a < 0x0C00 ∧ (a - 0x400) % 0x100 = 0x05 := by simpa using hf
    have := h2 hl
    have ea : a = aHall h 0x05 := by unfold aHall; omega
    obtain ⟨hq, hv⟩ := forceSafe_apart (h := h) (bit (getReg s a) 0) s
    exact ⟨hq, fun _ _ hn => absurd ea hn, fun _ c hc ec => absurd (ea.symm.trans ec) (by unfold aCh aHall; omega), fun _ => hv,
      forceSafe_changes (by decide) (changesOnly.refl _ _), forceSafe_regs (fun _ => id) (.inl rfl) (regsOutside.refl _ _)⟩
  next hf =>
    have notOut : ∀ c < 4, a ≠ aCh h c 0x1C := by
      intro c hc e
      unfold aCh aHall at e
      simp at ho
      omega
    have notForce : a ≠ aHall h 0x05 := by
      intro e
      unfold aHall at e
      simp at hf
      omega
    have himg := copied_of_isBrw hb ha notForce
    obtain ⟨hq, hv⟩ := copyWord_apart (h := h) a s
    split
    · exact ⟨hq, fun _ _ _ => hv, fun _ c hc ec => absurd ec (notOut c hc), fun ea => absurd ea notForce,
        report_changes (by decide) (resolveAll_changes (by decide) (copyWord_changes (by decide) (changesOnly.refl _ _))),
        report_regs (fun _ => id) (.inl rfl) (resolveAll_regs (copyWord_regs (regsOutside.refl _ _)))⟩
    next hn =>
      refine ⟨(Quiet.refl _ _).apart, fun hact => ?_, fun _ c hc ec => absurd ec (notOut c hc), fun ea => absurd ea notForce,
        changesOnly.refl _ _, regsOutside.refl _ _⟩
      simp [hact] at hn
      obtain ⟨h3, h4⟩ := hn
      simp [h3, h4] at himg

/-! The class B registers outside the halls. -/

/-- The engine but for the pulse quantities that wait for a boundary (R204). -/
def restEng (e : EngSt) : EngSt := { e with poutQ := [], poutNew := [] }

theorem restEng_poutWrite (m j : Nat) (before : Word × Word) (s : State) :
    restEng (poutWrite m j before s).eng = restEng s.eng := by
  have clamp (c : Prop) [Decidable c] (a : Nat) (u : State) : (if c then cfgClamp a (setReg a 1 u) else u).eng = u.eng := by
    split
    · exact cfgClamp_changes (F := [.regs, .bb]) rfl (setReg_changes (by decide) (changesOnly.refl _ u)) .eng (by decide)
    · rfl
  unfold poutWrite
  dsimp only
  split
  · simp only [clamp]
    rfl
  · rfl

/-- A new pulse count whose quantity and width are 0 makes the quantity 1 (R11, R204). -/
theorem poutWrite_regs_below {m j : Nat} {before : Word × Word} {s : State} :
    regsOutside (fun b => (j = 2 ∧ b = aRun m 0x31) ∨ b = rHpEvt ∨ b = rHpClamp ∨ b = rBbMissed) s
      (poutWrite m j before s) := by
  unfold poutWrite
  dsimp only
  split
  next hj =>
    exact regsOutside.set (regsOutside.ite (cfgClamp_regs (.inr (.inl rfl)) (.inr (.inr (.inr rfl))) (.inr (.inr (.inl rfl)))
      (setReg_regs (.inl ⟨hj, rfl⟩) (regsOutside.refl _ s))) (regsOutside.refl _ s))
  · exact regsOutside.refl _ s

/-- What a class B write of the register at `a` leaves outside the blocks of the halls. -/
structure ActedOutside (a : Nat) (s t : State) : Prop where
  ml : t.ml = if a = 0x2A10 then { s.ml with utcOfs := getReg s a } else s.ml
  sync : t.sync = if a = 0x1600 ∧ bit (getReg s a) 28 = false then { s.sync with outEnd := none } else s.sync
  pins : t.pins = { s.pins with syncOut := s.pins.syncOut && (a != 0x1600 || bit (getReg s a) 28) }
  eng : restEng t.eng = restEng s.eng
  parts : changesOnly [.regs, .bb, .eng, .ml, .sync, .pins] s t
  regs : regsOutside (fun b => (b + 1 = a ∧ a < 0x2000 ∧ (a - 0x1800) % 0x100 = 0x32) ∨ b = rHpEvt ∨ b = rHpClamp ∨
    b = rBbMissed) s t

section
variable {a : Nat} {s t : State}

/-- Registers with no rule of their own. -/
theorem ActedOutside.of_changes (h1 : a ≠ 0x1600) (h2 : a ≠ 0x2A10) (hc : changesOnly [.regs, .bb, .eng] s t)
    (he : restEng t.eng = restEng s.eng)
    (hr : regsOutside (fun b => (b + 1 = a ∧ a < 0x2000 ∧ (a - 0x1800) % 0x100 = 0x32) ∨ b = rHpEvt ∨ b = rHpClamp ∨
      b = rBbMissed) s t) : ActedOutside a s t where
  ml := by rw [if_neg h2]; exact hc .ml (by decide)
  sync := by rw [if_neg (by simp [h1])]; exact hc .sync (by decide)
  pins := by
    have e : (a != 0x1600) = true := by simpa using h1
    rw [e, Bool.true_or, Bool.and_true]
    exact hc .pins (by decide)
  eng := he
  parts := hc.mono (by decide)
  regs := hr

theorem syncOutOff_acted (s : State) : ActedOutside 0x1600 s (syncOutOff s) := by
  unfold syncOutOff syncCfgW
  split
  next hb => exact ⟨rfl, by simp [hb], by simp [hb], rfl, changesOnly.refl _ _, regsOutside.refl _ _⟩
  next hb =>
    have hb : bit (getReg s 0x1600) 28 = false := by simpa using hb
    exact ⟨rfl, by simp [hb], by simp [hb], rfl, changesOnly.set_pins
      (F := [.regs, .bb, .eng, .ml, .sync, .pins]) (u := { s with sync := { s.sync with outEnd := none } }) (by decide)
      (changesOnly.set_sync (by decide) (changesOnly.refl _ s)), regsOutside.refl _ _⟩

/-- What a class B write does outside the blocks of the halls. -/
theorem classB_outside {b : Word × Word} (ha : hallAt a = none) : ActedOutside a s (classB a b s) := by
  have hn : ¬ (0x0400 ≤ a ∧ a < 0x1600) := by
    unfold hallAt at ha
    split at ha
    · cases ha
    split at ha
    · cases ha
    split at ha
    · cases ha
    · omega
  unfold classB
  rw [if_neg hn]
  split
  next hp =>
    dsimp only
    split
    next hj =>
      refine .of_changes (by omega) (by omega) (poutWrite_changes (by decide) (changesOnly.refl _ _)) (restEng_poutWrite ..)
        (poutWrite_regs_below.mono ?_)
      rintro b (⟨h2, rfl⟩ | h)
      · exact .inl (by unfold aRun; omega)
      · exact .inr h
    · exact .of_changes (by omega) (by omega) (changesOnly.refl _ _) rfl (regsOutside.refl _ _)
  split
  next hs => exact hs ▸ syncOutOff_acted s
  next h1 =>
  split
  next h2 =>
    subst h2
    exact ⟨rfl, rfl, by simp [updMl], rfl, updMl_changes (by decide) (changesOnly.refl _ _), regsOutside.refl _ _⟩
  next h2 => exact .of_changes h1 h2 (changesOnly.refl _ _) rfl (regsOutside.refl _ _)

end

/-! The record and the forwarding of a class B write (R239, R371). -/

theorem pairSent_pairSend (typ maddr : Nat) (bs : List Byte) (s : State) : pairSent typ maddr bs s (pairSend typ maddr bs s) := by
  unfold pairSent pairSend
  split <;> exact ⟨rfl, rfl⟩

theorem forwarded_congr {o : Origin} {a : Nat} {mask v : Word} {s t u : State} (htx : u.tx = t.tx) (hp : u.pair = t.pair)
    (h : forwarded o a mask v s t) : forwarded o a mask v s u := by
  unfold forwarded pairSent at *
  rwa [htx, hp]

theorem forwarded_forwardWrite {o : Origin} {a : Nat} {d : RegDesc} {mask v : Word} {s : State} (hc : d.cls = .b)
    (hA : a ≠ 0x2D0A) (hB : a ≠ 0x2D0B) (hC : a ≠ 0x2D0C) : forwarded o a mask v s (forwardWrite o d a mask v s) := by
  have hs : (o.src != .pair) = decide (o.src ≠ .pair) := by cases o.src <;> rfl
  have e : forwardWrite o d a mask v s =
      if o.src ≠ .pair ∧ notForwarded a = false then forward a 0 mask v s else s := by
    simp [forwardWrite, hc, hA, hB, hC, hs]
  have quiet : (s.tx = s.tx ∧ s.pair = s.pair) := ⟨rfl, rfl⟩
  rw [e]
  unfold forwarded forward
  by_cases h : o.src ≠ .pair ∧ notForwarded a = false ∧ s.pair.active = true
  · obtain ⟨h1, h2, h3⟩ := h
    rw [if_pos ⟨h1, h2, h3⟩, if_pos ⟨h1, h2⟩, if_pos h3]
    exact pairSent_pairSend ..
  · rw [if_neg h]
    by_cases k : o.src ≠ .pair ∧ notForwarded a = false
    · rw [if_pos k, if_neg fun h3 => h ⟨k.1, k.2, h3⟩]
      exact quiet
    · rw [if_neg k]
      exact quiet

/-- The state with the record `r` queued and the write counted, its words in retention RAM good (R239, R282, R398). -/
def writeRecorded (r : AudRec) (s : State) : State :=
  { s with
    aud := { s.aud with queue := s.aud.queue ++ [r], next := (s.aud.next + 1) % 2 ^ 48, writes := s.aud.writes + 1 }
    mem := { s.mem with bad := s.mem.bad.filter fun e => !inRet (.audit s.aud.next) e } }

theorem writeRecorded_changes (r : AudRec) (s : State) : changesOnly [.aud, .mem] s (writeRecorded r s) := by
  intro p hp
  cases p <;> first | rfl | simp at hp

theorem countWrite_auditB {o : Origin} {a : Nat} {d : RegDesc} {w v : Word} {s : State} (hd : regDesc a = some d) (hrw : d.rw ≠ 0)
    (hr : audRoom s 1 = true) :
    countWrite (auditB o a d w v s) = writeRecorded (auditRec o 0 a 0 (liveWord s a).toNat w.toNat s) s := by
  have hn : ¬ (0x1400 ≤ a ∧ a < 0x1600 ∧ (a - 0x1400) % 0x40 = 1 ∧ returnBits s ((a - 0x1400) / 0x40) v ≠ 0) := by
    rintro ⟨h0, h1, h2, -⟩
    have e : regDesc a = descRot 1 := by
      unfold regDesc
      iterate 5 rw [if_neg (by omega)]
      rw [if_pos h1, h2]
    rw [hd] at e
    cases e
    exact hrw rfl
  unfold auditB
  dsimp only
  rw [if_neg hn, if_neg hrw, audit_room hr]
  rfl

/-- A class B write with RW fields that R315 accepts (R6). -/
theorem cmdWrite_classB {o : Origin} {a : Nat} {mask v u w : Word} {d : RegDesc} {s : State} (hd : regDesc a = some d)
    (hc : d.cls = .b) (hrw : d.rw ≠ 0) (hm : (d.rw ||| d.w1c ||| d.wo) &&& mask ≠ 0) (ha : accepts o s)
    (hu : u = mergedWord s d a mask v) (hw : w = clampValue (modeAt s a) a u)
    (hb : homeBad s a w (v &&& mask &&& d.wo) = none) :
    cmdWrite o a mask v none s = classB a (poutBefore s a) (setReg a w (clampNote a u w
      (forwardWrite o d a mask v (writeRecorded (auditRec o 0 a 0 (liveWord s a).toNat w.toNat s) s)))) := by
  rw [← countWrite_auditB (v := v &&& mask &&& d.wo) hd hrw ha.2.1]
  have hw : writeReg o a mask v none s = (classB a (poutBefore s a) (setReg a w (clampNote a u w
      (forwardWrite o d a mask v (countWrite (auditB o a d w (v &&& mask &&& d.wo) s))))), none) := by
    unfold writeReg
    simp only [hd, access_eq (logicUp_of_applied ha.1) hm, ← hu, ← hw, hc, refusal_b ha hb, hrw, if_false, Bool.false_eq_true]
  rw [cmdWrite_accepted (by rw [hw]), hw]

/-- From `s` to `p` the word `w` was put in the register at `a`, recorded and forwarded; the register's own effect is still
to come. -/
structure Put (a : Nat) (w : Word) (s p : State) : Prop where
  word : getReg p a = w
  parts : changesOnly [.aud, .mem, .tx, .pair, .regs, .bb] s p
  regs : regsOutside (fun b => b = a ∨ b = rHpEvt ∨ b = rHpClamp ∨ b = rBbMissed) s p

section
variable {o : Origin} {a : Nat} {d : RegDesc} {mask v u w : Word} {s : State}

/-- The state once the word stands in its register, recorded and forwarded, before the register's own effect. -/
def classBPut (o : Origin) (d : RegDesc) (a : Nat) (mask v u w : Word) (s : State) : State :=
  setReg a w (clampNote a u w (forwardWrite o d a mask v
    (writeRecorded (auditRec o 0 a 0 (liveWord s a).toNat w.toNat s) s)))

theorem classBPut_put : Put a w s (classBPut o d a mask v u w s) where
  word := getReg_setReg_self ..
  parts := setReg_changes (by decide) (clampNote_changes (by decide) (forwardWrite_changes (by decide)
    ((writeRecorded_changes _ s).mono (by decide))))
  regs := setReg_regs (.inl rfl) (clampNote_regs (.inr (.inl rfl)) (.inr (.inr (.inr rfl))) (.inr (.inr (.inl rfl)))
    (forwardWrite_regs ((regsOutside.refl _ s).skip (writeRecorded_changes _ s) (by decide))))

/-- What the rest of a class B write leaves of its record and of its forwarding. -/
theorem classBPut_kept {F : List Part} {t : State} (hF : Part.aud ∉ F ∧ Part.mem ∉ F ∧ Part.tx ∉ F ∧ Part.pair ∉ F)
    (ht : changesOnly F (classBPut o d a mask v u w s) t) (hc : d.cls = .b) (hA : a ≠ 0x2D0A) (hB : a ≠ 0x2D0B)
    (hC : a ≠ 0x2D0C) :
    t.aud = { s.aud with
      queue := s.aud.queue ++ [auditRec o 0 a 0 (liveWord s a).toNat w.toNat s]
      next := (s.aud.next + 1) % 2 ^ 48
      writes := s.aud.writes + 1 } ∧
    forwarded o a mask v s t ∧ mended s t := by
  obtain ⟨haud, hmem, htx, hpair⟩ := hF
  let r := writeRecorded (auditRec o 0 a 0 (liveWord s a).toNat w.toNat s) s
  have hf : changesOnly [.tx, .pair] r (forwardWrite o d a mask v r) :=
    forwardWrite_changes (by decide) (changesOnly.refl _ _)
  have hw : changesOnly [.regs, .bb] (forwardWrite o d a mask v r) (classBPut o d a mask v u w s) :=
    setReg_changes (by decide) (clampNote_changes (by decide) (changesOnly.refl _ _))
  have mem : t.mem = r.mem := (ht .mem hmem).trans ((hw .mem (by decide)).trans (hf .mem (by decide)))
  refine ⟨(ht .aud haud).trans ((hw .aud (by decide)).trans (hf .aud (by decide))), ?_, ?_⟩
  · exact forwarded_congr ((ht .tx htx).trans (hw .tx (by decide))) ((ht .pair hpair).trans (hw .pair (by decide)))
      (forwarded_forwardWrite (s := r) hc hA hB hC)
  · unfold mended
    rw [mem]
    exact ⟨rfl, fun e he => (List.mem_filter.1 he).1⟩

end

theorem isBrw_of {a : Nat} {d : RegDesc} (hd : regDesc a = some d) (hc : d.cls = .b) (hrw : d.rw ≠ 0) : isBrw a = true := by
  have hb : (RegClass.b == RegClass.b) = true := rfl
  simpa [isBrw, hd, hc, hb] using hrw

theorem ne_of_isBrw {a b : Nat} (ha : isBrw a = true) (hb : isBrw b = false) : a ≠ b := by
  rintro rfl
  rw [ha] at hb
  cases hb

/-- The pins of an answer follow the state, SYNC_OUT and the scan register as its operations left them. -/
theorem pinned_settle (t : State) : pinned t.pins.syncOut t.pins.scan (settle t) := by
  rw [pinned, pinLevels_settle, settle_pins]
  rfl

theorem cmdLimit_congr {s t : State} {h c : Nat} (hc : t.chans = s.chans)
    (hr : getReg t (aCh h c 0x10) = getReg s (aCh h c 0x10)) : cmdLimit t h c = cmdLimit s h c := by
  unfold cmdLimit getChan
  rw [hc, hr]

section
variable {a : Nat} {b : Word × Word} {w : Word} {s p : State}

/-- The register's own effect leaves its word. -/
theorem Put.getReg_classB (q : Put a w s p) (hB : isBrw a = true) : getReg (classB a b p) a = w := by
  refine Eq.trans ?_ q.word
  cases e : hallAt a with
  | none =>
    refine (classB_outside e).regs a ?_
    rintro (⟨h, -⟩ | h | h | h)
    · omega
    all_goals exact ne_of_isBrw hB (by decide) h
  | some h =>
    obtain ⟨-, -, -, -, -, hregs⟩ := classB_hall (b := b) (s := p) hB e
    exact hregs a fun k => ne_of_isBrw hB (hallRegs_notB (hallAt_range e).1 k) rfl

theorem Put.answer_outside (q : Put a w s p) (e : hallAt a = none) :
    (settle (classB a b p)).ml = (if a = 0x2A10 then { s.ml with utcOfs := w } else s.ml) ∧
    (settle (classB a b p)).sync = (if a = 0x1600 ∧ bit w 28 = false then { s.sync with outEnd := none } else s.sync) ∧
    pinned (s.pins.syncOut && (a != 0x1600 || bit w 28)) s.pins.scan (settle (classB a b p)) ∧
    changesOnly [.regs, .aud, .mem, .tx, .pair, .eng, .bb, .ml, .sync, .pins] s (settle (classB a b p)) ∧
    restEng (settle (classB a b p)).eng = restEng s.eng ∧
    regsOutside (fun c => c = a ∨ (c + 1 = a ∧ a < 0x2000 ∧ (a - 0x1800) % 0x100 = 0x32) ∨ c = rHpEvt ∨ c = rHpClamp ∨
      c = rBbMissed) s (settle (classB a b p)) := by
  obtain ⟨hml, hsync, hpins, heng, hparts, hregs⟩ := classB_outside (b := b) (s := p) e
  rw [q.word] at hsync hpins hml
  refine ⟨?_, ?_, ?_, (q.parts.mono (by decide)).trans (settle_changes (by decide) (hparts.mono (by decide))), ?_,
    settle_regsOutside ((q.regs.mono ?_).trans (hregs.mono fun _ => .inr))⟩
  · rw [ml_settle, hml, (q.parts .ml (by decide) : p.ml = s.ml)]
  · rw [sync_settle, hsync, (q.parts .sync (by decide) : p.sync = s.sync)]
  · have k := pinned_settle (classB a b p)
    rw [hpins, (q.parts .pins (by decide) : p.pins = s.pins)] at k
    exact k
  · rw [eng_settle]
    exact heng.trans (congrArg restEng (q.parts .eng (by decide)))
  · rintro c (h | h | h | h) <;> simp [h]

theorem Put.cmdLimit_eq (q : Put a w s p) {h c : Nat} (ea : a = aCh h c 0x1C) (hc : c < 4) :
    cmdLimit p h c = cmdLimit s h c := by
  refine cmdLimit_congr (q.parts .chans (by decide)) (q.regs _ ?_)
  rw [ea]
  unfold aCh aHall rHpEvt rHpClamp rBbMissed
  omega

theorem Put.answer_hall (q : Put a w s p) (hs : Inv s) (hB : isBrw a = true) {h : Nat} (e : hallAt a = some h) :
    ((getHall s h).active = true → isChOut a = false → a ≠ aHall h 0x05 → hcfg (settle (classB a b p)) h a = w) ∧
    ((getHall s h).active = true → ∀ c < 4, a = aCh h c 0x1C →
      (getChan (settle (classB a b p)) h c).cmd = min (bits w 23 0) (cmdLimit s h c)) ∧
    (a = aHall h 0x05 → (getHall s h).up = true → bit (getHall (settle (classB a b p)) h).stat 6 = bit w 0) ∧
    framed [.regs, .aud, .mem, .tx, .pair, .halls, .chans, .per, .bb] s (settle (classB a b p)) ∧
    hallApart h s (settle (classB a b p)) ∧ onlyVstates s (settle (classB a b p)) ∧
    regsOutside (fun c => c = a ∨ hallRegs h c ∨ c = rHpEvt ∨ c = rHpClamp ∨ c = rBbMissed) s (settle (classB a b p)) := by
  obtain ⟨hap, hcopy, hcmds, hforce, hparts, hregs⟩ := classB_hall (b := b) (s := p) hB e
  have hhalls : p.halls = s.halls := q.parts .halls (by decide)
  have hh : getHall p h = getHall s h := by unfold getHall; rw [hhalls]
  rw [hh, q.word] at hcopy hcmds hforce
  have put : Apart h s p := ((Quiet.refl h s).skip q.parts (by decide)).apart
  have settled : Apart h (classB a b p) (settle (classB a b p)) :=
    ((Quiet.refl h _).skip (F := [.bb, .pins]) (settle_changes (by decide) (changesOnly.refl _ _)) (by decide)).apart
  obtain ⟨apart, vstates⟩ := (put.trans hap).trans settled
  refine ⟨?_, fun hact c hc ea => ?_, ?_, framed_settle hs ((q.parts.mono (by decide)).trans (hparts.mono (by decide)))
    (by decide), apart, vstates, settle_regsOutside ((q.regs.mono ?_).trans (hregs.mono fun _ => .inr ∘ .inl))⟩
  · unfold hcfg
    rwa [getHall_settle]
  · rw [getChan_settle, hcmds hact c hc ea, q.cmdLimit_eq ea hc]
  · rwa [getHall_settle]
  · rintro c (h | h | h | h) <;> simp [h]

end

/-- Settles O13: the word is recorded, forwarded and put in its register; what it does besides is that of its block. -/
theorem classBWriteActsAtOnce : Obligations.ClassBWriteActsAtOnce := by
  intro o addr mask v d s hs hd hc hrw hm ha a w hb
  have hB := isBrw_of hd hc hrw
  let p := classBPut o d a mask v (mergedWord s d a mask v) w s
  have q : Put a w s p := classBPut_put
  have hcmd : cmdWrite o a mask v none s = classB a (poutBefore s a) p := cmdWrite_classB hd hc hrw hm ha rfl rfl hb
  have ht : changesOnly [.regs, .bb, .halls, .chans, .per, .eng, .sync, .pins, .ml] p
      (settle (classB a (poutBefore s a) p)) :=
    settle_changes (by decide) (classB_changes (by decide) (changesOnly.refl _ _))
  obtain ⟨haud, hfwd, hmem⟩ := classBPut_kept (by decide) ht hc (ne_of_isBrw hB (by decide)) (ne_of_isBrw hB (by decide))
    (ne_of_isBrw hB (by decide))
  exact ⟨_, (exec_registerWrite ..).trans (by rw [hcmd]), (getReg_settle _ _).trans (q.getReg_classB hB), haud, hfwd, hmem,
    q.answer_outside, fun _ e => q.answer_hall hs hB e⟩

end Sys2Proof.Machine

namespace Sys2Proof.Machine

/-! Fields of a word. -/

theorem testBit_bits (w : Word) (hi lo i : Nat) :
    (bits w hi lo).testBit i = (decide (i < hi + 1 - lo) && w.getLsbD (lo + i)) := by
  unfold bits
  rw [Nat.testBit_mod_two_pow, Nat.testBit_shiftRight]
  rfl

theorem getLsbD_fieldMask {hi lo : Nat} (h : hi < 32) (i : Nat) :
    (fieldMask hi lo).getLsbD i = (decide (lo ≤ i) && decide (i ≤ hi)) := by
  unfold fieldMask
  rw [BitVec.getLsbD_ofNat, Nat.testBit_shiftLeft, Nat.testBit_two_pow_sub_one]
  by_cases h1 : lo ≤ i <;> by_cases h2 : i ≤ hi <;> simp [h1, h2] <;> omega

theorem getLsbD_putBits {hi : Nat} (h : hi < 32) (w : Word) (lo v i : Nat) : (putBits w hi lo v).getLsbD i =
    if lo ≤ i ∧ i ≤ hi then v.testBit (i - lo) else w.getLsbD i := by
  unfold putBits
  simp only [BitVec.getLsbD_or, BitVec.getLsbD_and, BitVec.getLsbD_not, getLsbD_fieldMask h, BitVec.getLsbD_ofNat,
    Nat.testBit_shiftLeft]
  by_cases hr : lo ≤ i ∧ i ≤ hi
  · obtain ⟨h1, h2⟩ := hr
    simp [h1, h2, show i < 32 by omega]
  · rw [if_neg hr, ← Bool.decide_and, decide_eq_false hr]
    by_cases h3 : i < 32
    · simp [h3]
    · simp [h3, BitVec.getLsbD_of_ge w i (by omega)]

/-- A field reads as what was put there. -/
theorem bits_putBits_self {hi lo : Nat} (h : hi < 32) (w : Word) {v : Nat} (hv : v < 2 ^ (hi + 1 - lo)) :
    bits (putBits w hi lo v) hi lo = v := by
  refine Nat.eq_of_testBit_eq fun i => ?_
  rw [testBit_bits, getLsbD_putBits h]
  by_cases hi' : i < hi + 1 - lo
  · rw [if_pos (by omega), decide_eq_true hi', Bool.true_and, Nat.add_sub_cancel_left]
  · rw [decide_eq_false hi', Bool.false_and, Nat.testBit_lt_two_pow]
    exact lt_of_lt_of_le hv (Nat.pow_le_pow_right (by decide) (by omega))

/-! Records on their way to main SRAM (R16, R137 to R139). -/

theorem length_leBytes (n v : Nat) : (leBytes n v).length = n := by
  induction n generalizing v with
  | zero => rfl
  | succ n ih => simp [leBytes, ih]

theorem length_recBytes (r : Rec) : (recBytes r).length = 16 := by
  simp [recBytes, length_leBytes]

theorem convsOutside.of_updConv {n : Nat} {f : ConvState → ConvState} (s : State) :
    convsOutside (· = n) s (updConv n f s) := fun _ hk => getConv_updConv_other hk f s

theorem convsOutside.trans {P : Nat → Prop} {s t u : State} (h : convsOutside P s t) (k : convsOutside P t u) :
    convsOutside P s u := fun n hn => (k n hn).trans (h n hn)

theorem getConv_congr {s t : State} (h : t.convs = s.convs) (n : Nat) : getConv t n = getConv s n := by
  unfold getConv; rw [h]

/-- An operation that leaves the converters alone. -/
theorem convsOutside.skip {P : Nat → Prop} {G : List Part} {s0 s t : State} (h : changesOnly G s t)
    (hn : Part.convs ∉ G) (hs : convsOutside P s0 s) : convsOutside P s0 t := fun n hk =>
  (getConv_congr (h .convs hn) n).trans (hs n hk)

/-- The oldest record has left the converter's queue. -/
def recordLeft (n : Nat) (rest : List Rec) (s : State) : State := updConv n (fun x => { x with fifo := rest }) s

/-- The record that left stands in CV_LAST_VAL and CV_LAST_TAG. -/
def recordShown (n : Nat) (r : Rec) (rest : List Rec) (s : State) : State :=
  setReg (aConv n 0x0A) r.code (setReg (aConv n 0x0B) r.tag (recordLeft n rest s))

/-- The record is placed in its buffer and copied to the partner, unless the buffer was reset or has no length. -/
def recordStored (n : Nat) (r : Rec) (t : State) : State :=
  if r.stale then discard n t
  else if bufLen t n = 0 then t
  else if mirrorSends (placeRec n r t) then pairSend 3 (recSlot n (dmaCount t n)) (recBytes r) (placeRec n r t)
  else placeRec n r t

/-- The channel monitor and the sample area take the record. -/
def recordNoted (n : Nat) (r : Rec) (t : State) : State :=
  sampleTake (4 * (n / 2) + tagCh r.tag) r (if isInput r then monitorRec (n / 2) r t else t)

section
variable {n : Conv} {fits : Bool} {r : Rec} {rest : List Rec} {s : State}

theorem exec_resultDmaWrite_none (h : (getConv s n).fifo = []) : exec (.resultDmaWrite n fits) s = done s := by
  show execResultDmaWrite n fits s = _
  unfold execResultDmaWrite
  rw [h]

theorem exec_resultDmaWrite_some (h : (getConv s n).fifo = r :: rest) : exec (.resultDmaWrite n fits) s =
    if !logicUp s then done (recordLeft n rest s)
    else if !fits then done (crossingFull 1 (recordLeft n rest s))
    else done (recordNoted n r (recordStored n r (recordShown n r rest s))) := by
  show execResultDmaWrite n fits s = _
  unfold execResultDmaWrite
  rw [h]
  rfl

theorem recordLeft_changes (n : Nat) (rest : List Rec) (s : State) : changesOnly [.convs] s (recordLeft n rest s) :=
  updConv_changes rfl (changesOnly.refl _ _)

theorem recordLeft_convs (n : Nat) (rest : List Rec) (s : State) : convsOutside (· = n) s (recordLeft n rest s) :=
  .of_updConv s

theorem getConv_recordLeft (n : Nat) (rest : List Rec) (s : State) :
    getConv (recordLeft n rest s) n = { getConv s n with fifo := rest } := getConv_updConv_self ..

theorem recordShown_changes (n : Nat) (r : Rec) (rest : List Rec) (s : State) :
    changesOnly [.regs, .convs] s (recordShown n r rest s) :=
  setReg_changes rfl (setReg_changes rfl ((recordLeft_changes n rest s).mono rfl))

theorem recordShown_regs (n : Nat) (r : Rec) (rest : List Rec) (s : State) :
    regsOutside (fun a => a = aConv n 0x0A ∨ a = aConv n 0x0B) s (recordShown n r rest s) :=
  setReg_regs (.inl rfl) (setReg_regs (.inr rfl) (.skip (recordLeft_changes n rest s) (by decide) (.refl _ s)))

theorem getReg_recordShown (n : Nat) (r : Rec) (rest : List Rec) (s : State) :
    getReg (recordShown n r rest s) (aConv n 0x0A) = r.code ∧ getReg (recordShown n r rest s) (aConv n 0x0B) = r.tag :=
  ⟨getReg_setReg_self .., (getReg_setReg_other (by unfold aConv; omega) ..).trans (getReg_setReg_self ..)⟩

theorem recordNoted_changes (n : Nat) (r : Rec) (t : State) : changesOnly [.regs, .bb] t (recordNoted n r t) :=
  sampleTake_changes rfl (.ite (monitorRec_changes rfl (.refl _ _)) (.refl _ _))

theorem recordNoted_regs (n : Nat) (r : Rec) (t : State) :
    regsOutside (fun a => isInput r = true ∧ a = aCh (n / 2) (tagCh r.tag) 0x64) t (recordNoted n r t) := by
  unfold recordNoted
  refine sampleTake_regs ?_
  split
  next hi => exact monitorRec_regs ⟨hi, rfl⟩ (.refl _ _)
  · exact .refl _ _

theorem aCh_ne_aConv {h c n off : Nat} (hh : h < 8) (hc : c < 4) : aCh h c 0x64 ≠ aConv n off := by
  unfold aCh aHall aConv; omega

end

/-! A record placed in its buffer (R138). -/

section
variable {n : Nat} {r : Rec} {t : State}

theorem mread_placeRec (n : Nat) (r : Rec) (t : State) :
    (∀ j < 16, mread 0 (placeRec n r t).mem.main (bufBase t n + 16 * (getConv t n).widx + j) = (recBytes r).getD j 0) ∧
    ∀ a, (a < bufBase t n + 16 * (getConv t n).widx ∨ bufBase t n + 16 * (getConv t n).widx + 16 ≤ a) →
      mread 0 (placeRec n r t).mem.main a = mread 0 t.mem.main a := by
  have hm : (placeRec n r t).mem = (writeMain (bufBase t n + 16 * (getConv t n).widx) (recBytes r) t).mem := by
    unfold placeRec
    split <;> rfl
  have hlen := length_recBytes r
  rw [hm]
  refine ⟨fun j hj => ?_, fun a ha => mread_mwrites_other 0 _ _ (by rwa [hlen])⟩
  rw [List.getD_eq_getElem _ _ (by omega)]
  exact mread_mwrites_self 0 (recBytes r) _ _ (by omega)

theorem mem_placeRec (n : Nat) (r : Rec) (t : State) :
    (placeRec n r t).mem.ret = t.mem.ret ∧ (placeRec n r t).mem.mirror = t.mem.mirror ∧
      (placeRec n r t).mem.prog = t.mem.prog := by
  unfold placeRec
  split <;> exact ⟨rfl, rfl, rfl⟩

/-- A converter once a record stands in its buffer of `len` records: the index advanced, or back at 0 with one more wrap. -/
def advanced (len : Nat) (y : ConvState) : ConvState :=
  { y with
    widx := if len ≤ y.widx + 1 then 0 else y.widx + 1
    wrap := if len ≤ y.widx + 1 then (y.wrap + 1) % 2 ^ 32 else y.wrap }

theorem convs_placeRec (n : Nat) (r : Rec) (t : State) :
    (placeRec n r t).convs = (updConv n (advanced (bufLen t n)) t).convs := by
  unfold placeRec
  split <;> rfl

theorem getConv_placeRec (n : Nat) (r : Rec) (t : State) :
    getConv (placeRec n r t) n = advanced (bufLen t n) (getConv t n) :=
  (getConv_congr (convs_placeRec n r t) n).trans (getConv_updConv_self ..)

theorem placeRec_convs (n : Nat) (r : Rec) (t : State) : convsOutside (· = n) t (placeRec n r t) := fun k hk =>
  (getConv_congr (convs_placeRec n r t) k).trans (getConv_updConv_other hk ..)

theorem newest_placeRec (n : Nat) (r : Rec) (t : State) :
    let g := 4 * (n / 2) + tagCh r.tag
    if isInput r then
      (placeRec n r t).newest = tput t.newest g { r with buf := n, idx := (getConv t n).widx, wrote := t.time.now } ∧
      ∀ e, t.newest.find? (fun e => e.1 = g) = some e → e.2.wrote < t.time.now →
        (placeRec n r t).older = tput t.older g e.2
    else (placeRec n r t).newest = t.newest ∧ (placeRec n r t).older = t.older := by
  intro g
  split
  next hi =>
    unfold placeRec
    simp only [hi, if_true]
    refine ⟨rfl, fun e he hw => ?_⟩
    show (match t.newest.find? (fun e => e.1 = g) with | some e => _ | none => _) = _
    rw [he]
    exact if_pos hw
  next hi =>
    unfold placeRec
    simp only [hi, if_false, Bool.false_eq_true]
    exact ⟨rfl, rfl⟩

/-! The record stored. -/

theorem recordStored_changes (n : Nat) (r : Rec) (t : State) :
    changesOnly [.convs, .newest, .older, .mem, .pair, .tx] t (recordStored n r t) := by
  have hp : changesOnly [.convs, .newest, .older, .mem, .pair, .tx] t (placeRec n r t) :=
    placeRec_changes rfl (.refl _ _)
  exact .ite (updConv_changes rfl (.refl _ _)) (.ite (.refl _ _) (.ite (pairSend_changes rfl hp) hp))

theorem recordStored_convs (n : Nat) (r : Rec) (t : State) : convsOutside (· = n) t (recordStored n r t) := by
  unfold recordStored
  split
  · exact .of_updConv t
  split
  · exact fun _ _ => rfl
  split
  · exact (placeRec_convs n r t).skip (pairSend_changes (F := [.tx, .pair]) rfl (.refl _ _)) (by decide)
  · exact placeRec_convs n r t

theorem recordStored_stale (h : r.stale = true) : recordStored n r t = discard n t := if_pos h

theorem recordStored_nowhere (h : r.stale = false) (hb : bufLen t n = 0) : recordStored n r t = t := by
  unfold recordStored
  rw [if_neg (by simp [h]), if_pos hb]

theorem mirrorSends_placeRec : mirrorSends (placeRec n r t) = mirrorSends t := by
  unfold placeRec
  split <;> rfl

theorem recordStored_placed (h : r.stale = false) (hb : bufLen t n ≠ 0) : recordStored n r t =
    if mirrorSends t then pairSend 3 (recSlot n (dmaCount t n)) (recBytes r) (placeRec n r t) else placeRec n r t := by
  unfold recordStored
  rw [if_neg (by simp [h]), if_neg hb, mirrorSends_placeRec]

end

/-- Wherever it goes, the record takes no other from the queue. -/
theorem fifo_recordStored (n : Nat) (r : Rec) (t : State) :
    (getConv (recordStored n r t) n).fifo = (getConv t n).fifo := by
  unfold recordStored
  split
  · rw [discard, getConv_updConv_self]
  split
  · rfl
  split
  · rw [getConv_congr (pairSend_changes (F := [.tx, .pair]) rfl (.refl _ _) .convs (by decide)), getConv_placeRec, advanced]
  · rw [getConv_placeRec, advanced]

/-! What the pair link carries does not depend on the parts that a record's way touches. -/

theorem pairEn_congr {s t : State} (hr : getReg t rPairCfg = getReg s rPairCfg) (hc : t.clk = s.clk) :
    pairEn t = pairEn s := by
  unfold pairEn; rw [hr, hc]

theorem logicUp_congr {s t : State} (hc : t.clk = s.clk) : logicUp t = logicUp s := by
  unfold logicUp; rw [hc]

theorem mirrorSends_congr {s t : State} (hr : getReg t rPairCfg = getReg s rPairCfg) (hc : t.clk = s.clk)
    (hp : t.pair = s.pair) : mirrorSends t = mirrorSends s := by
  unfold mirrorSends hoOpen
  rw [pairEn_congr hr hc, hp]

/-- A frame sent from a state that agrees with `s` on the pair link. -/
theorem pairSent_congr {typ maddr : Nat} {bs : List Byte} {s s' t t' : State} (hr : getReg s' rPairCfg = getReg s rPairCfg)
    (hc : s'.clk = s.clk) (hp : s'.pair = s.pair) (hx : s'.tx = s.tx) (htp : t'.pair = t.pair) (htx : t'.tx = t.tx)
    (h : pairSent typ maddr bs s' t) : pairSent typ maddr bs s t' := by
  unfold pairSent onPairLink imageNone pairSeq at *
  rwa [pairEn_congr hr hc, logicUp_congr hc, hc, hp, hx, ← htp, ← htx] at h

section
variable {n : Conv} {r : Rec} {rest : List Rec} {s : State}

/-! What the state with the record shown keeps of the one before. -/

theorem getReg_recordShown_other {a : Nat} (h : a ≠ aConv n 0x0A) (h' : a ≠ aConv n 0x0B) :
    getReg (recordShown n r rest s) a = getReg s a := recordShown_regs n r rest s a (by simp [h, h'])

theorem bufLen_recordShown : bufLen (recordShown n r rest s) n = bufLen s n := by
  unfold bufLen
  rw [getReg_recordShown_other] <;> unfold aConv <;> omega

theorem bufBase_recordShown : bufBase (recordShown n r rest s) n = bufBase s n := by
  unfold bufBase
  rw [getReg_recordShown_other] <;> unfold aConv <;> omega

theorem getConv_recordShown : getConv (recordShown n r rest s) n = { getConv s n with fifo := rest } :=
  getConv_recordLeft n rest s

theorem dmaCount_recordShown : dmaCount (recordShown n r rest s) n = dmaCount s n := by
  unfold dmaCount
  rw [bufLen_recordShown, getConv_recordShown]

theorem getReg_pairCfg_recordShown : getReg (recordShown n r rest s) rPairCfg = getReg s rPairCfg := by
  have := n.isLt
  refine getReg_recordShown_other ?_ ?_ <;> unfold aConv rPairCfg <;> omega

/-- What a record placed in its buffer leaves (R138, R367). -/
theorem recordStored_buffer (hs : r.stale = false) (hb : bufLen s n ≠ 0) :
    let v := getConv s n
    let t := recordStored n r (recordShown n r rest s)
    (if mirrorSends s = true then pairSent 3 (recSlot n (dmaCount s n)) (recBytes r) s t
      else t.tx = s.tx ∧ t.pair = s.pair) ∧
    t.mem = (placeRec n r (recordShown n r rest s)).mem ∧
    t.newest = (placeRec n r (recordShown n r rest s)).newest ∧ t.older = (placeRec n r (recordShown n r rest s)).older ∧
    getConv t n = advanced (bufLen s n) { v with fifo := rest } := by
  intro v t
  let p := placeRec n r (recordShown n r rest s)
  have hp : changesOnly [.mem, .convs, .newest, .older] (recordShown n r rest s) p := placeRec_changes rfl (.refl _ _)
  have hc : getConv p n = advanced (bufLen s n) { v with fifo := rest } := by
    rw [getConv_placeRec, bufLen_recordShown, getConv_recordShown]
  have hreg : getReg p rPairCfg = getReg s rPairCfg :=
    (getReg_congr (hp .regs (by decide)) _).trans getReg_pairCfg_recordShown
  have hclk : p.clk = s.clk := hp .clk (by decide)
  have hpair : p.pair = s.pair := hp .pair (by decide)
  have htx : p.tx = s.tx := hp .tx (by decide)
  have ht : t = if mirrorSends s then pairSend 3 (recSlot n (dmaCount s n)) (recBytes r) p else p := by
    rw [← mirrorSends_congr getReg_pairCfg_recordShown (rfl : (recordShown n r rest s).clk = s.clk) rfl,
      ← dmaCount_recordShown (r := r) (rest := rest)]
    exact recordStored_placed hs (by rwa [bufLen_recordShown])
  rw [ht]
  split
  next hm =>
    have hx := pairSend_changes (F := [.tx, .pair]) (typ := 3) (maddr := recSlot n (dmaCount s n)) (payload := recBytes r) rfl
      (changesOnly.refl _ p)
    exact ⟨pairSent_congr hreg hclk hpair htx rfl rfl (pairSent_pairSend ..), hx .mem (by decide), hx .newest (by decide),
      hx .older (by decide), (getConv_congr (hx .convs (by decide)) n).trans hc⟩
  next hm => exact ⟨⟨htx, hpair⟩, rfl, rfl, rfl, hc⟩

end

/-- The queue of the crossing is full: CDC_LAST shows the row and CDC_OVF_EVT is set (R401). -/
theorem crossingFull_shown {row : Nat} (h : row < 16) (s : State) :
    bit (getReg (crossingFull row s) rEccEvt) 2 = true ∧ bits (getReg (crossingFull row s) 0x2930) 31 28 = row := by
  refine ⟨bit_raiseBit (by decide) (by decide), ?_⟩
  rw [crossingFull, getReg_raiseBit_other (by decide) (by decide), getReg_modReg_self]
  exact bits_putBits_self (by decide) _ h

section
variable {n : Conv} {r : Rec} {rest : List Rec} {s : State}

/-- The registers of a record on its way. -/
theorem recordWay_regs : regsOutside (fun a => a = aConv n 0x0A ∨ a = aConv n 0x0B ∨
      (isInput r = true ∧ a = aCh (n / 2) (tagCh r.tag) 0x64)) s
    (recordNoted n r (recordStored n r (recordShown n r rest s))) := by
  have h1 := (recordShown_regs n r rest s).skip (recordStored_changes n r _) (by decide)
  exact (h1.mono fun a h => h.elim .inl (.inr ∘ .inl)).trans ((recordNoted_regs n r _).mono fun _ => .inr ∘ .inr)

/-- CV_LAST_VAL and CV_LAST_TAG keep the record's code and tag. -/
theorem recordWay_last : let t := recordNoted n r (recordStored n r (recordShown n r rest s))
    getReg t (aConv n 0x0A) = r.code ∧ getReg t (aConv n 0x0B) = r.tag := by
  have keep (off : Nat) : getReg (recordNoted n r (recordStored n r (recordShown n r rest s))) (aConv n off) =
      getReg (recordShown n r rest s) (aConv n off) :=
    (recordNoted_regs n r _ _ fun h => aCh_ne_aConv (by omega) (tagCh_lt _) h.2.symm).trans
      (getReg_congr (recordStored_changes n r _ .regs (by decide)) _)
  exact ⟨(keep _).trans (getReg_recordShown n r rest s).1, (keep _).trans (getReg_recordShown n r rest s).2⟩

theorem recordWay_convs :
    convsOutside (· = n.val) s (recordNoted n r (recordStored n r (recordShown n r rest s))) := by
  have h : convsOutside (· = n.val) s (recordShown n r rest s) := recordLeft_convs n rest s
  exact (h.trans (recordStored_convs n r _)).skip (recordNoted_changes n r _) (by decide)

theorem recordStored_noted : changesOnly [.regs, .bb, .pins] (recordStored n r (recordShown n r rest s))
    (settle (recordNoted n r (recordStored n r (recordShown n r rest s)))) :=
  settle_changes rfl ((recordNoted_changes n r _).mono rfl)

/-- The answer where the record has a place in its buffer: what was sent, main SRAM, the index, and the channel's newest. -/
theorem recordWay_placed (hst : r.stale = false) (hb : bufLen s n ≠ 0) :
    let v := getConv s n
    let base := bufBase s n + 16 * v.widx
    let t := settle (recordNoted n r (recordStored n r (recordShown n r rest s)))
    (if mirrorSends s = true then pairSent 3 (recSlot n (dmaCount s n)) (recBytes r) s t
      else t.tx = s.tx ∧ t.pair = s.pair) ∧
    (∀ j < 16, mread 0 t.mem.main (base + j) = (recBytes r).getD j 0) ∧
    ((∀ a, (a < base ∨ base + 16 ≤ a) → mread 0 t.mem.main a = mread 0 s.mem.main a) ∧
      t.mem.ret = s.mem.ret ∧ t.mem.mirror = s.mem.mirror ∧ t.mem.prog = s.mem.prog) ∧
    (if bufLen s n ≤ v.widx + 1 then (getConv t n).widx = 0 ∧ (getConv t n).wrap = (v.wrap + 1) % 2 ^ 32
      else (getConv t n).widx = v.widx + 1 ∧ (getConv t n).wrap = v.wrap) ∧
    (let g := 4 * (n.val / 2) + tagCh r.tag
     if isInput r then
      t.newest = tput s.newest g { r with buf := n, idx := v.widx, wrote := s.time.now } ∧
        ∀ e, s.newest.find? (fun e => e.1 = g) = some e → e.2.wrote < s.time.now → t.older = tput s.older g e.2
     else t.newest = s.newest ∧ t.older = s.older) := by
  intro v base t
  let u := recordStored n r (recordShown n r rest s)
  have noted : changesOnly [.regs, .bb, .pins] u t := recordStored_noted
  obtain ⟨hsent, hmem, hnew, hold, hconv⟩ := recordStored_buffer (rest := rest) hst hb
  have mem : t.mem = (placeRec n r (recordShown n r rest s)).mem := (noted .mem (by decide)).trans hmem
  have newest : t.newest = _ := (noted .newest (by decide)).trans hnew
  have older : t.older = _ := (noted .older (by decide)).trans hold
  have tx : t.tx = u.tx := noted .tx (by decide)
  have pair : t.pair = u.pair := noted .pair (by decide)
  obtain ⟨bytes, others⟩ := mread_placeRec n r (recordShown n r rest s)
  have news := newest_placeRec n r (recordShown n r rest s)
  rw [bufBase_recordShown, getConv_recordShown] at bytes others
  rw [getConv_recordShown] at news
  refine ⟨?_, by rwa [mem], by rw [mem]; exact ⟨others, mem_placeRec ..⟩, ?_, by rwa [newest, older]⟩
  · split
    next hm => exact pairSent_congr rfl rfl rfl rfl pair tx (by simpa only [if_pos hm] using hsent)
    next hm =>
      rw [if_neg hm] at hsent
      exact ⟨tx.trans hsent.1, pair.trans hsent.2⟩
  · rw [getConv_congr (noted .convs (by decide)), hconv, advanced]
    split <;> exact ⟨rfl, rfl⟩

end

/-- Settles O44: the record leaves the queue, stands in CV_LAST, and goes to its place, each by the operation for it. -/
theorem recordsReachMainSram : Obligations.RecordsReachMainSram := by
  intro n fits s hs
  cases hf : (getConv s n).fifo with
  | nil => exact ⟨_, exec_resultDmaWrite_none hf, framed_settle hs (.refl _ _) (by decide)⟩
  | cons r rest =>
    have e := exec_resultDmaWrite_some (fits := fits) hf
    refine ⟨fun hl => ?_, fun hl hn => ?_, fun hl hn => ?_⟩
    · rw [hl] at e
      exact ⟨_, e, (getConv_settle _ _).trans (getConv_recordLeft ..), framed_settle hs (recordLeft_changes n rest s) (by decide),
        fun k hk => (getConv_settle _ _).trans (recordLeft_convs n rest s k hk)⟩
    · subst hn
      rw [hl] at e
      have hc : changesOnly [.regs, .bb] (recordLeft n rest s) (crossingFull 1 (recordLeft n rest s)) :=
        crossingFull_changes rfl (.refl _ _)
      obtain ⟨h2, h28⟩ := crossingFull_shown (row := 1) (by decide) (recordLeft n rest s)
      refine ⟨_, e, ?_, ?_, ?_, fun k hk => ?_, framed_settle hs ?_ (by decide), settle_regsOutside ?_⟩
      · rw [getConv_settle, getConv_congr (hc .convs (by decide)), getConv_recordLeft]
      · rwa [getReg_settle]
      · rwa [getReg_settle]
      · rw [getConv_settle, getConv_congr (hc .convs (by decide))]; exact recordLeft_convs n rest s k hk
      · exact ((recordLeft_changes n rest s).mono rfl).trans (hc.mono rfl)
      · exact crossingFull_regs (.inl rfl) (.inr (.inr rfl)) (.inr (.inl rfl))
          (.skip (recordLeft_changes n rest s) (by decide) (.refl _ _))
    · subst hn
      rw [hl] at e
      let u := recordStored n r (recordShown n r rest s)
      have conv : getConv (settle (recordNoted n r u)) n = getConv u n :=
        getConv_congr (recordStored_noted .convs (by decide)) n
      have shown := (recordShown_changes n r rest s).mono (F := [.regs, .convs, .newest, .older, .bb, .mem, .pair, .tx]) rfl
      have way := (shown.trans ((recordStored_changes n r _).mono rfl)).trans ((recordNoted_changes n r _).mono rfl)
      have short (h : changesOnly [.convs] (recordShown n r rest s) u) :
          framed [.regs, .convs, .bb] s (settle (recordNoted n r u)) :=
        framed_settle hs ((((recordShown_changes n r rest s).mono rfl).trans (h.mono rfl)).trans
          ((recordNoted_changes n r _).mono rfl)) (by decide)
      refine ⟨_, e, ?_, ?_, ?_, ?_, framed_settle hs way (by decide), settle_regsOutside recordWay_regs,
        fun hst => ?_, fun hst hb => ?_, fun hst hb => ?_⟩
      · rw [conv, fifo_recordStored, getConv_recordShown]
      · rw [getReg_settle]; exact recordWay_last.1
      · rw [getReg_settle]; exact recordWay_last.2
      · exact fun k hk => (getConv_settle _ _).trans (recordWay_convs k hk)
      · have hu : u = discard n (recordShown n r rest s) := recordStored_stale hst
        refine ⟨?_, short (by rw [hu]; exact updConv_changes rfl (.refl _ _))⟩
        rw [conv, hu, discard, getConv_updConv_self, getConv_recordShown]
      · have hu : u = recordShown n r rest s := recordStored_nowhere hst (by rwa [bufLen_recordShown])
        refine ⟨?_, short (by rw [hu]; exact .refl _ _)⟩
        rw [conv, hu, getConv_recordShown]
      · obtain ⟨hsent, hbytes, ⟨hothers, hret, hmirror, hprog⟩, hidx, hnew⟩ := recordWay_placed (rest := rest) hst hb
        exact ⟨hsent, hbytes, hothers, hret, hmirror, hprog, hidx, hnew⟩

end Sys2Proof.Machine

namespace Sys2Proof.Machine

/-! Views of the channels: what an operation leaves of every channel, as far as a view shows it. -/

/-- Every channel shows the same under the view `p`. -/
def chansAlike {α : Type} (p : ChanState → α) (s t : State) : Prop := ∀ k d, p (getChan t k d) = p (getChan s k d)

section
variable {α : Type} {p : ChanState → α} {h c : Nat} {s t u : State}

theorem chansAlike.refl (p : ChanState → α) (s : State) : chansAlike p s s := fun _ _ => rfl

theorem chansAlike.trans (a : chansAlike p s t) (b : chansAlike p t u) : chansAlike p s u :=
  fun k d => (b k d).trans (a k d)

theorem chansAlike.ite {c : Prop} [Decidable c] (a : chansAlike p s t) (b : chansAlike p s u) :
    chansAlike p s (if c then t else u) := by split <;> assumption

/-- A coarser view. -/
theorem chansAlike.view {β : Type} {q : ChanState → β} (f : α → β) (hq : ∀ x, q x = f (p x)) (a : chansAlike p s t) :
    chansAlike q s t := fun k d => by rw [hq, hq, a k d]

/-- Operations on other parts of the state. -/
theorem chansAlike.skip {F : List Part} (k : changesOnly F t u) (hn : Part.chans ∉ F) (a : chansAlike p s t) :
    chansAlike p s u := by
  have e : u.chans = t.chans := k .chans hn
  refine a.trans fun k d => ?_
  unfold getChan
  rw [e]

theorem chansAlike.updChan {f : ChanState → ChanState} (hf : ∀ x, p (f x) = p x) (a : chansAlike p s t) :
    chansAlike p s (updChan h c f t) := by
  refine a.trans fun k d => ?_
  by_cases e : 4 * k + d = 4 * h + c
  · have key (v : State) : getChan v k d = getChan v h c := by unfold getChan; rw [e]
    rw [key, key, getChan_updChan_self, hf]
  · rw [getChan_updChan_other e]

theorem chansAlike.forChans {f : Nat → State → State} (hf : ∀ c u, chansAlike p u (f c u)) (a : chansAlike p s t) :
    chansAlike p s (forChans f t) := a.trans ((((hf 0 _).trans (hf 1 _)).trans (hf 2 _)).trans (hf 3 _))

theorem chansAlike.foldl {β : Type} {l : List β} {f : State → β → State} (hf : ∀ u x, chansAlike p u (f u x))
    (a : chansAlike p s t) : chansAlike p s (l.foldl f t) := by
  induction l generalizing t with
  | nil => exact a
  | cons x l ih => exact ih (a.trans (hf t x))

/-- Events are kept and reported: the views that do not show them are left alone. -/
theorem report_alike (hp : ∀ x e a, p { x with evt := e, ainEvt := a } = p x) (a : chansAlike p s t) :
    chansAlike p s (report h t) := by
  unfold report
  refine chansAlike.ite (chansAlike.forChans (fun c u => ?_) ?_) a
  · unfold reportChan
    refine chansAlike.updChan (fun x => hp x 0 0) ?_
    refine chansAlike.skip (F := [.regs, .bb]) (t := u) ?_ (by decide) (.refl _ _)
    exact raiseEvt_changes rfl (raiseEvt_changes rfl (reportState_changes rfl (by
      iterate 9 refine setReg_changes rfl ?_
      exact .refl _ _)))
  · refine a.skip (F := [.regs, .bb, .halls, .per]) ?_ (by decide)
    refine noteVstate_changes rfl (updHall_changes rfl (raiseEvt_changes rfl (raiseEvt_changes rfl (raiseEvt_changes rfl
      (forN_into (fun _ _ => setReg_changes rfl (.refl _ _)) ?_)))))
    iterate 5 refine setReg_changes rfl ?_
    exact .refl _ _

end

/-! The state of an output (R55): what moving it leaves of the channels. -/

/-- A channel but for what its output drives, its flags and its kept events. -/
def outputCore (x : ChanState) : ChanState :=
  { x with drive := 0, ramp := none, held := 0, pulseOn := none, stat := 0, evt := 0, ainEvt := 0 }

section
variable {h c : Nat} {s t : State}

theorem chFlag_alike {α : Type} {p : ChanState → α} (hp : ∀ x w e, p { x with stat := w, evt := e } = p x) {i : Nat} {b : Bool}
    (a : chansAlike p s t) : chansAlike p s (chFlag h c i b t) := a.updChan fun x => hp x _ _

/-- Channel `c` with its output driven at `v`, its flags not yet moved. -/
def driven (h c v : Nat) (s : State) : State :=
  updChan h c (fun y => { y with
    drive := v, ramp := none, pulseOn := if outRank s h c = 5 then y.pulseOn else none
    held := if outRank s h c = 5 then y.cmd else y.held }) s

/-- Driving an output moves its flags besides. -/
theorem setDrive_alike {α : Type} {p : ChanState → α} (hp : ∀ x w e, p { x with stat := w, evt := e } = p x) {v : Nat}
    (s : State) : chansAlike p (driven h c v s) (setDrive h c v s) :=
  chansAlike.ite (chFlag_alike hp (chFlag_alike hp (.refl _ _))) (chFlag_alike hp (.refl _ _))

theorem pulseGo_alike {α : Type} {p : ChanState → α} (hp : ∀ x v, p { x with pulseOn := v } = p x)
    (a : chansAlike p s t) : chansAlike p s (pulseGo h c t) := chansAlike.ite (a.updChan fun x => hp x _) a

theorem setDrive_core {v : Nat} (a : chansAlike outputCore s t) : chansAlike outputCore s (setDrive h c v t) :=
  (chansAlike.updChan (fun _ => rfl) a : chansAlike outputCore s (driven h c v t)).trans (setDrive_alike (fun _ _ _ => rfl) t)

theorem chFlag_core {i : Nat} {b : Bool} (a : chansAlike outputCore s t) : chansAlike outputCore s (chFlag h c i b t) :=
  chFlag_alike (fun _ _ _ => rfl) a

theorem pulseGo_core (a : chansAlike outputCore s t) : chansAlike outputCore s (pulseGo h c t) :=
  pulseGo_alike (fun _ _ => rfl) a

theorem resolve_core (a : chansAlike outputCore s t) : chansAlike outputCore s (resolve h c t) := by
  unfold resolve
  refine chansAlike.ite a ?_
  split
  · exact chansAlike.ite a (chansAlike.ite a (setDrive_core a))
  · exact chansAlike.ite a (chansAlike.ite (chFlag_core a) (pulseGo_core (setDrive_core a)))

theorem riskOf_core (a : chansAlike outputCore s t) : chansAlike outputCore s (riskOf h c t) :=
  chFlag_core (chFlag_core a)

/-! What decides an output (R55). -/

/-- What of a channel the order of R55 looks at. -/
def rankView (x : ChanState) : Nat × Bool × Latch × Bool × Bool × Bool :=
  (x.mode, x.cut, x.latch, x.idleOut, x.gangSafe, x.extSafe)

theorem leadOf_self {h c : Nat} {s : State} (hm : (getChan s h c).mode ≠ 14) : leadOf s h c = c := by
  unfold leadOf gangMembers modeOf
  rw [if_neg hm]
  rfl

theorem gangMembers_self {h c : Nat} {s : State} (hm : (getChan s h c).mode ≠ 14) : gangMembers s h c = [c] :=
  if_neg hm

/-- The rank of an output follows its hall and what R55 looks at. -/
theorem outRank_congr (hh : t.halls = s.halls) (hc : chansAlike rankView s t) : outRank t h c = outRank s h c := by
  have gh (k : Nat) : getHall t k = getHall s k := by unfold getHall; rw [hh]
  have mode (k d : Nat) : (getChan t k d).mode = (getChan s k d).mode := congrArg Prod.fst (hc k d)
  have lead : leadOf t h c = leadOf s h c := by
    unfold leadOf gangMembers gangOf chCfgW hcfg modeOf
    simp only [mode, gh]
  have view := hc h (leadOf s h c)
  have own := hc h c
  simp only [rankView, Prod.mk.injEq] at view own
  unfold outRank safeCause modeOf
  rw [lead]
  simp only [gh, view, own]

/-- A ramp-free output that its command decides and nothing holds takes the command. -/
theorem resolve_free {s : State} (hm : isOutMode (getChan s h c).mode = true) (hg : (getChan s h c).mode ≠ 14)
    (hr : (getChan s h c).ramp = none) (hh : (getHall s h).hold = false) (hq : (getChan s h c).queued = false)
    (ho : outRank s h c = 5) : resolve h c s = pulseGo h c (setDrive h c (getChan s h c).cmd s) := by
  have hlead := leadOf_self hg
  unfold resolve outTarget
  simp [hm, hr, hh, hq, ho, hlead]

theorem drive_setDrive {v : Nat} (s : State) : (getChan (setDrive h c v s) h c).drive = v :=
  (setDrive_alike (p := ChanState.drive) (fun _ _ _ => rfl) s h c).trans
    (congrArg ChanState.drive (getChan_updChan_self h c _ s))

theorem drive_resolve_free {s : State} (hm : isOutMode (getChan s h c).mode = true) (hg : (getChan s h c).mode ≠ 14)
    (hr : (getChan s h c).ramp = none) (hh : (getHall s h).hold = false) (hq : (getChan s h c).queued = false)
    (ho : outRank s h c = 5) : (getChan (resolve h c s) h c).drive = (getChan s h c).cmd := by
  rw [resolve_free hm hg hr hh hq ho, pulseGo_alike (p := ChanState.drive) (fun _ _ => rfl) (.refl _ _) h c, drive_setDrive]

end

/-! Ramps: bringing an output to its state ends one or lets it run. -/

/-- No channel without a ramp has one after. -/
def noNewRamp (s t : State) : Prop := ∀ k d, (getChan s k d).ramp = none → (getChan t k d).ramp = none

section
variable {h c : Nat} {s t u : State}

theorem noNewRamp.trans (a : noNewRamp s t) (b : noNewRamp t u) : noNewRamp s u := fun k d hr => b k d (a k d hr)

theorem noNewRamp.of_alike (a : chansAlike ChanState.ramp s t) : noNewRamp s t := fun k d hr => (a k d).trans hr

theorem setDrive_noNewRamp {v : Nat} (s : State) : noNewRamp s (setDrive h c v s) := by
  refine noNewRamp.trans (t := driven h c v s) (fun k d hr => ?_) (.of_alike (setDrive_alike (fun _ _ _ => rfl) s))
  by_cases e : 4 * k + d = 4 * h + c
  · have key (v : State) : getChan v k d = getChan v h c := by unfold getChan; rw [e]
    rw [key, driven, getChan_updChan_self]
  · rwa [driven, getChan_updChan_other e]

theorem resolve_noNewRamp (s : State) : noNewRamp s (resolve h c s) := by
  have same : noNewRamp s s := fun _ _ => id
  unfold resolve
  dsimp only
  split
  · exact same
  split
  · split
    · exact same
    split
    · exact same
    · exact setDrive_noNewRamp s
  · split
    · exact same
    split
    · exact .of_alike (chFlag_alike (fun _ _ _ => rfl) (.refl _ s))
    · exact (setDrive_noNewRamp s).trans (.of_alike (pulseGo_alike (fun _ _ => rfl) (.refl _ _)))

theorem resolveAll_noNewRamp (s : State) : noNewRamp s (resolveAll h s) :=
  ((((resolve_noNewRamp s).trans (resolve_noNewRamp _)).trans (resolve_noNewRamp _)).trans (resolve_noNewRamp _))

end

/-! Time brought up to an instant. -/

theorem now_moveTo (t : Nat) (s : State) : (moveTo t s).time.now = max s.time.now t := by
  unfold moveTo
  split
  · simp only [advance]; omega
  · omega

theorem moveTo_time (t : Nat) (s : State) : changesOnly [.time] s (moveTo t s) := moveTo_changes rfl (.refl _ _)

end Sys2Proof.Machine

namespace Sys2Proof.Machine

/-! The answer of a hall's command: what was done to the hall, then its report. -/

section
variable {h : Nat} {s t u : State}

/-- Operations outside halls, channels and open periods. -/
theorem apart_of_changes {F : List Part} (k : changesOnly F s t) (hn : Part.halls ∉ F ∧ Part.chans ∉ F ∧ Part.per ∉ F) :
    Apart h s t := ((Quiet.refl h s).skip k hn).apart

theorem report_apart (a : Apart h s t) : Apart h s (report h t) := a.trans (report_quiet (.refl h t)).apart

theorem settle_apart (a : Apart h s t) : Apart h s (settle t) :=
  a.trans (apart_of_changes (F := [.bb, .pins]) (settle_changes rfl (.refl _ _)) (by decide))

/-- A report ends a command of hall `h`: what `F` names may have changed, of registers those of the report, and no other hall. -/
theorem report_frame {F : List Part} (hs : Inv s) (hF : Part.sub [.regs, .bb, .halls, .chans, .per] F = true)
    (hp : Part.pins ∉ F) (hc : changesOnly F s t) (hr : regsOutside (hallRegs h) s t) (ha : Apart h s t) :
    framed F s (settle (report h t)) ∧ regsOutside (hallRegs h) s (settle (report h t)) ∧
      hallApart h s (settle (report h t)) ∧ onlyVstates s (settle (report h t)) := by
  obtain ⟨hapart, hv⟩ := settle_apart (report_apart ha)
  exact ⟨framed_settle hs (report_changes hF hc) hp,
    settle_regsOutside (report_regs (fun _ => id) (.inl rfl) hr), hapart, hv⟩

theorem hallOnly_report (hs : Inv s) (hc : changesOnly [.chans] s t) (ha : Apart h s t) :
    hallOnly h s (settle (report h t)) :=
  report_frame hs rfl (by decide) (hc.mono rfl) (.skip hc (by decide) (.refl _ _)) ha

/-- What a report leaves of a channel but its kept events. -/
theorem getChan_report {α : Type} {p : ChanState → α} (hp : ∀ x e a, p { x with evt := e, ainEvt := a } = p x) (k d : Nat)
    (t : State) : p (getChan (settle (report h t)) k d) = p (getChan t k d) := by
  rw [getChan_settle]
  exact report_alike hp (.refl _ t) k d

theorem hallDo_down {f : State → State} (h0 : (getHall s h).up = false) : hallDo h f s = done s := by
  unfold hallDo
  rw [h0]
  rfl

theorem hallDo_up {f : State → State} (h0 : (getHall s h).up = true) : hallDo h f s = done (report h (f s)) := by
  unfold hallDo
  rw [if_pos h0]

end

/-! OUTPUT_COMMAND (R19, R57). -/

section
variable {h : Hall} {c : Chan} {v : Word} {s : State}

theorem exec_outputCommand_down (hd : (getHall s h).up = false) : exec (.outputCommand h c v) s = done s := by
  show execOutputCommand h c v s = _
  unfold execOutputCommand
  exact hallDo_down hd

theorem exec_outputCommand_pulse {m : Nat} (hu : (getHall s h).up = true) (hm : poutRun s (4 * h + c) = some m) :
    exec (.outputCommand h c v) s = done (report h (takeBacklog h c m v.toNat s)) := by
  show execOutputCommand h c v s = _
  unfold execOutputCommand
  rw [hallDo_up hu, hm]

theorem exec_outputCommand_plain (hu : (getHall s h).up = true) (hm : poutRun s (4 * h + c) = none) :
    exec (.outputCommand h c v) s = done (report h (applyCommand h c (min v.toNat (cmdLimit s h c)) s)) := by
  show execOutputCommand h c v s = _
  unfold execOutputCommand
  rw [hallDo_up hu, hm]

theorem takeBacklog_apart {h c m v : Nat} (hc : c < 4) (s : State) : Apart h s (takeBacklog h c m v s) :=
  (updChan_apart hc _ s).trans (pulseGo_quiet hc (.refl h _)).apart

theorem applyCommand_apart {h c v : Nat} (hc : c < 4) (s : State) : Apart h s (applyCommand h c v s) :=
  (updChan_apart hc _ s).trans (applyCommand_quiet hc s).apart

/-- Channel `c` with command `v` and, where it moves a current output by more than 0.5 mA, the suspension of R85; its output
not yet moved. -/
def commandStored (h c v : Nat) (s : State) : State :=
  if (getChan s h c).mode = 15 ∧ (500 < v - (getChan s h c).cmd ∨ 500 < (getChan s h c).cmd - v)
  then updChan h c (fun y => { y with suspend := s.time.now + 200000 }) (commanded h c v s) else commanded h c v s

theorem applyCommand_eq (h c v : Nat) (s : State) :
    applyCommand h c v s = (gangMembers s h c).foldl (fun u d => resolve h d u) (commandStored h c v s) := rfl

/-- Nothing but the command, the value a HOLD keeps and the suspension is stored. -/
theorem commandStored_alike {α : Type} {p : ChanState → α} (hp : ∀ x a b c, p { x with cmd := a, held := b, suspend := c } = p x)
    (h c v : Nat) (s : State) : chansAlike p s (commandStored h c v s) := by
  have hu : chansAlike p s (commanded h c v s) := (chansAlike.refl p s).updChan fun x => hp x _ _ x.suspend
  exact chansAlike.ite (hu.updChan fun x => hp x x.cmd x.held _) hu

theorem cmd_commandStored (h c v : Nat) (s : State) : (getChan (commandStored h c v s) h c).cmd = v := by
  have hu : (getChan (commanded h c v s) h c).cmd = v := by rw [commanded, getChan_updChan_self]
  unfold commandStored
  split
  · rw [getChan_updChan_self, hu]
  · exact hu

theorem halls_commandStored (h c v : Nat) (s : State) : (commandStored h c v s).halls = s.halls := by
  unfold commandStored
  split <;> rfl

/-- An output that its command decides, with no ramp and nothing that holds it, drives the command at once (R57). -/
theorem drive_applyCommand {h c v : Nat} {s : State} (hm : isOutMode (getChan s h c).mode = true) (hg : (getChan s h c).mode ≠ 14)
    (hr : (getChan s h c).ramp = none) (hh : (getHall s h).hold = false) (hq : (getChan s h c).queued = false)
    (ho : outRank s h c = 5) : (getChan (applyCommand h c v s) h c).drive = v := by
  rw [applyCommand_eq, gangMembers_self hg, List.foldl_cons, List.foldl_nil]
  let t := commandStored h c v s
  have mode : (getChan t h c).mode = (getChan s h c).mode := commandStored_alike (fun _ _ _ _ => rfl) h c v s h c
  have ramp : (getChan t h c).ramp = (getChan s h c).ramp := commandStored_alike (fun _ _ _ _ => rfl) h c v s h c
  have queued : (getChan t h c).queued = (getChan s h c).queued := commandStored_alike (fun _ _ _ _ => rfl) h c v s h c
  have hall : getHall t h = getHall s h := by unfold getHall; rw [halls_commandStored]
  have rank : outRank t h c = outRank s h c :=
    outRank_congr (halls_commandStored ..) (commandStored_alike (fun _ _ _ _ => rfl) h c v s)
  rw [drive_resolve_free (mode ▸ hm) (mode ▸ hg) (ramp.trans hr) (hall ▸ hh) (queued.trans hq) (rank.trans ho)]
  exact cmd_commandStored h c v s

/-- The other channels keep their commands and modes, and channel `c` its mode. -/
theorem applyCommand_alike {h c v : Nat} (s : State) :
    chansAlike (fun x => outputCore { x with cmd := 0, suspend := 0 }) s (applyCommand h c v s) := by
  rw [applyCommand_eq]
  refine chansAlike.foldl (fun u d => (resolve_core (.refl _ u)).view (fun x => { x with cmd := 0, suspend := 0 }) fun _ => rfl)
    (commandStored_alike (fun _ _ _ _ => rfl) h c v s)

theorem cmd_applyCommand {h c v : Nat} (s : State) :
    (getChan (applyCommand h c v s) h c).cmd = v ∧
      ∀ d < 4, d ≠ c → (getChan (applyCommand h c v s) h d).cmd = (getChan s h d).cmd := by
  have same : chansAlike ChanState.cmd (commandStored h c v s) (applyCommand h c v s) := by
    rw [applyCommand_eq]
    exact chansAlike.foldl (fun u d => chansAlike.view (p := outputCore) ChanState.cmd (fun _ => rfl) (resolve_core (.refl _ u)))
      (.refl _ _)
  refine ⟨(same h c).trans (cmd_commandStored h c v s), fun d _ hd => (same h d).trans ?_⟩
  have other : getChan (commanded h c v s) h d = getChan s h d := getChan_updChan_other (by omega) _ s
  unfold commandStored
  split
  · rw [getChan_updChan_other (by omega), other]
  · rw [other]

/-- OUTPUT_COMMAND to the pulse output of a run: the backlog and the pulse width stored. -/
theorem outputCommand_pulse {m : Nat} (hs : Inv s) (hu : (getHall s h).up = true) (hm : poutRun s (4 * h + c) = some m) :
    ∃ t, exec (.outputCommand h c v) s = .next t ∧ (getChan t h c).pulseLeft = v.toNat ∧
      (getChan t h c).pulseW = pulseWidth s m ∧ (getChan t h c).cmd = (getChan s h c).cmd ∧
      (getChan t h c).drive = (getChan s h c).drive ∧
      (∀ d < 4, d ≠ c.val → (getChan t h d).cmd = (getChan s h d).cmd ∧ (getChan t h d).mode = (getChan s h d).mode) ∧
      hallOnly h s t := by
  have hc := c.isLt
  let w := updChan h c (fun x => { x with pulseLeft := v.toNat, pulseW := pulseWidth s m }) s
  have core : chansAlike (fun x => { x with pulseOn := none }) w (takeBacklog h c m v.toNat s) :=
    pulseGo_alike (fun _ _ => rfl) (.refl _ w)
  have self {α : Type} {p : ChanState → α} (hp : ∀ x o e a, p { x with pulseOn := o, evt := e, ainEvt := a } = p x) (d : Nat) :
      p (getChan (settle (report h (takeBacklog h c m v.toNat s))) h d) = p (getChan w h d) :=
    (getChan_report (fun x e a => hp x x.pulseOn e a) h d _).trans
      ((core.view p fun x => (hp x none x.evt x.ainEvt).symm) h d)
  have own : getChan w h c = { getChan s h c with pulseLeft := v.toNat, pulseW := pulseWidth s m } := getChan_updChan_self ..
  refine ⟨_, exec_outputCommand_pulse hu hm, ?_, ?_, ?_, ?_, fun d hd hne => ⟨?_, ?_⟩,
    hallOnly_report hs (takeBacklog_changes rfl (.refl _ _)) (takeBacklog_apart hc s)⟩
  · exact (self (p := ChanState.pulseLeft) (fun _ _ _ _ => rfl) c).trans (by rw [own])
  · exact (self (p := ChanState.pulseW) (fun _ _ _ _ => rfl) c).trans (by rw [own])
  · exact (self (p := ChanState.cmd) (fun _ _ _ _ => rfl) c).trans (by rw [own])
  · exact (self (p := ChanState.drive) (fun _ _ _ _ => rfl) c).trans (by rw [own])
  · exact (self (p := ChanState.cmd) (fun _ _ _ _ => rfl) d).trans (by rw [getChan_updChan_other (by omega)])
  · exact (self (p := ChanState.mode) (fun _ _ _ _ => rfl) d).trans (by rw [getChan_updChan_other (by omega)])

/-- OUTPUT_COMMAND to another channel: the command within its limit, driven at once where nothing keeps the output. -/
theorem outputCommand_plain (hs : Inv s) (hu : (getHall s h).up = true) (hm : poutRun s (4 * h + c) = none) :
    let x := getChan s h c
    ∃ t, exec (.outputCommand h c v) s = .next t ∧ (getChan t h c).cmd = min v.toNat (cmdLimit s h c) ∧
      ((x.mode = 13 ∨ x.mode = 15 ∨ x.mode = 16) → x.ramp = none →
        (getHall s h).hold = false ∧ x.queued = false ∧ outRank s h c = 5 →
        (getChan t h c).drive = min v.toNat (cmdMax x.mode)) ∧
      (∀ d < 4, d ≠ c.val → (getChan t h d).cmd = (getChan s h d).cmd ∧ (getChan t h d).mode = (getChan s h d).mode) ∧
      hallOnly h s t := by
  intro x
  have hc := c.isLt
  obtain ⟨cmd, others⟩ := cmd_applyCommand (h := h) (c := c) (v := min v.toNat (cmdLimit s h c)) s
  refine ⟨_, exec_outputCommand_plain hu hm, ?_, fun hmode hr ⟨hh, hq, ho⟩ => ?_, fun d hd hne => ⟨?_, ?_⟩,
    hallOnly_report hs (applyCommand_changes rfl (.refl _ _)) (applyCommand_apart hc s)⟩
  · exact (getChan_report (p := ChanState.cmd) (fun _ _ _ => rfl) h c _).trans cmd
  · have limit : cmdLimit s h c = cmdMax x.mode := by
      exact congrArg cmdMax (if_pos (show x.mode ≠ 0 by omega))
    have out : isOutMode x.mode = true := by
      unfold isOutMode
      rcases hmode with e | e | e <;> simp [e]
    exact (getChan_report (p := ChanState.drive) (fun _ _ _ => rfl) h c _).trans
      ((drive_applyCommand out (show x.mode ≠ 14 by omega) hr hh hq ho).trans (by rw [limit]))
  · exact (getChan_report (p := ChanState.cmd) (fun _ _ _ => rfl) h d _).trans (others d hd hne)
  · exact (getChan_report (p := ChanState.mode) (fun _ _ _ => rfl) h d _).trans
      ((applyCommand_alike s).view ChanState.mode (fun _ => rfl) h d)

/-- OUTPUT_COMMAND, with what it stores for either kind of channel. -/
theorem outputCommand_next (hs : Inv s) (hu : (getHall s h).up = true) :
    let x := getChan s h c
    ∃ t, exec (.outputCommand h c v) s = .next t ∧
      (∀ m, poutRun s (4 * h + c) = some m → (getChan t h c).pulseLeft = v.toNat ∧ (getChan t h c).pulseW = pulseWidth s m ∧
        (getChan t h c).cmd = x.cmd ∧ (getChan t h c).drive = x.drive) ∧
      (poutRun s (4 * h + c) = none → (getChan t h c).cmd = min v.toNat (cmdLimit s h c) ∧
        ((x.mode = 13 ∨ x.mode = 15 ∨ x.mode = 16) → x.ramp = none →
          (getHall s h).hold = false ∧ x.queued = false ∧ outRank s h c = 5 →
          (getChan t h c).drive = min v.toNat (cmdMax x.mode))) ∧
      (∀ d < 4, d ≠ c.val → (getChan t h d).cmd = (getChan s h d).cmd ∧ (getChan t h d).mode = (getChan s h d).mode) ∧
      hallOnly h s t := by
  intro x
  cases hm : poutRun s (4 * h + c) with
  | some m =>
    obtain ⟨t, e, left, width, cmd, drive, others, only⟩ := outputCommand_pulse (v := v) hs hu hm
    exact ⟨t, e, fun m' hm' => Option.some.inj hm' ▸ ⟨left, width, cmd, drive⟩, fun hn => absurd hn (by simp), others, only⟩
  | none =>
    obtain ⟨t, e, cmd, drive, others, only⟩ := outputCommand_plain (v := v) hs hu hm
    exact ⟨t, e, fun m' hm' => absurd hm' (by simp), fun _ => ⟨cmd, drive⟩, others, only⟩

end

/-! MODE_CHANGE_APPLY (R31). -/

/-- Channel `c` with mode `m`, in the form of the device's role, its flags and its output not yet moved. -/
def modeTaken (h c m : Nat) (s : State) : State :=
  updChan h c (fun x => { x with
    mode := if idleForm s h c && (m = 5 || m = 6) then 17 else m, newMode := none, cmd := min x.cmd (cmdMax m)
    held := min x.cmd (cmdMax m), idleOut := idleForm s h c && isOutMode m }) s

theorem takeMode_core (h c m : Nat) (s : State) : chansAlike outputCore (modeTaken h c m s) (takeMode h c m s) :=
  resolve_core (riskOf_core (.refl _ _))

section
variable {h c : Nat} {s t : State}

theorem takeMode_apart {m : Nat} (hc : c < 4) (s : State) : Apart h s (takeMode h c m s) :=
  (updChan_apart hc _ s).trans (resolve_quiet hc (chFlag_quiet hc (chFlag_quiet hc (.refl h (modeTaken h c m s))))).apart

/-- Converters outside hall `h`. -/
theorem updConv_hall {n : Nat} {f : ConvState → ConvState} (hn : n / 2 = h) (a : convsOutside (fun k => k / 2 = h) s t) :
    convsOutside (fun k => k / 2 = h) s (updConv n f t) :=
  a.trans fun _ hk => getConv_updConv_other (fun e => hk (by rw [e]; exact hn)) f t

theorem convsOutside.ite {P : Nat → Prop} {u : State} {b : Prop} [Decidable b] (a : convsOutside P s t)
    (k : convsOutside P s u) : convsOutside P s (if b then t else u) := by split <;> assumption

theorem convsOutside.refl (P : Nat → Prop) (s : State) : convsOutside P s s := fun _ _ => rfl

theorem discardOpen_hall {n : Nat} (hn : n / 2 = h) (a : convsOutside (fun k => k / 2 = h) s t) :
    convsOutside (fun k => k / 2 = h) s (discardOpen n t) := .ite (updConv_hall hn a) a

theorem leaveShadow_hall {n : Nat} (hn : n / 2 = h) (a : convsOutside (fun k => k / 2 = h) s t) :
    convsOutside (fun k => k / 2 = h) s (leaveShadow n t) := .ite (updConv_hall hn (discardOpen_hall hn a)) a

theorem dropShadow_hall (a : convsOutside (fun k => k / 2 = h) s t) :
    convsOutside (fun k => k / 2 = h) s (dropShadow h t) :=
  leaveShadow_hall (by omega) (leaveShadow_hall (by omega) a)

theorem dropShadow_apart (s : State) : Apart h s (dropShadow h s) :=
  (apart_of_changes (F := [.convs]) (leaveShadow_changes rfl (leaveShadow_changes rfl (.refl _ s))) (by decide)).trans
    (updHall_apart _ _)

/-- One converter's part of a restart: its window on channel `c`, opened before the change, is given up (R31). -/
def restartedOn (h c before t16 n : Nat) (s : State) : State :=
  if (getConv s n).role != .ladder && saCh (nowA s n) == c && (((getConv s n).phase == .window && decide ((getConv s n).open16 < before)) ||
      ((getConv s n).phase == .settling && decide ((getConv s n).at16 < before))) then
    if (getConv s n).role == .flight then restartAt n t16 (discardOpen n s) else dropShadow h s
  else s

theorem restartedOn_apart {n : Nat} (c before t16 : Nat) (s : State) : Apart h s (restartedOn h c before t16 n s) := by
  unfold restartedOn
  split
  · split
    · exact apart_of_changes (F := [.convs]) (restartAt_changes rfl (discardOpen_changes rfl (.refl _ _))) (by decide)
    · exact dropShadow_apart s
  · exact (Quiet.refl h _).apart

theorem restartedOn_hall {n : Nat} (hn : n / 2 = h) (c before t16 : Nat) (a : convsOutside (fun k => k / 2 = h) s t) :
    convsOutside (fun k => k / 2 = h) s (restartedOn h c before t16 n t) := by
  unfold restartedOn
  split
  · split
    · exact updConv_hall hn (discardOpen_hall hn a)
    · exact dropShadow_hall a
  · exact a

theorem restartChannel_apart (c before t16 : Nat) (s : State) : Apart h s (restartChannel h c before t16 s) :=
  (restartedOn_apart c before t16 s).trans (restartedOn_apart c before t16 _)

theorem restartChannel_hall (c before t16 : Nat) (s : State) :
    convsOutside (fun k => k / 2 = h) s (restartChannel h c before t16 s) :=
  restartedOn_hall (by omega) c before t16 (restartedOn_hall (by omega) c before t16 (.refl _ s))

end

/-- Windows opened before channel `c` took its mode, given up (R31). -/
def windowsLeft (h c t0 : Nat) (t : State) : State :=
  restartChannel h c (modclkTime t (16 * t0)) (gridAfter (max (modclkTime t (16 * t0)) (nowM t))) t

/-- The state when a mode change has been applied, before the hall reports. -/
def modeApplied (h c m t0 : Nat) (s : State) : State := windowsLeft h c t0 (takeMode h c m (moveTo t0 s))

theorem windowsLeft_changes (h c t0 : Nat) (s : State) : changesOnly [.convs, .halls] s (windowsLeft h c t0 s) :=
  restartChannel_changes rfl (.refl _ s)

theorem takeMode_chans (h c m : Nat) (s : State) : changesOnly [.chans] s (takeMode h c m s) := takeMode_changes rfl (.refl _ s)

theorem modeApplied_changes (h c m t0 : Nat) (s : State) : changesOnly [.time, .chans, .convs, .halls] s (modeApplied h c m t0 s) := by
  have taken : changesOnly [.chans] (moveTo t0 s) (takeMode h c m (moveTo t0 s)) := takeMode_chans h c m _
  have left := windowsLeft_changes h c t0 (takeMode h c m (moveTo t0 s))
  exact (((moveTo_time t0 s).mono rfl).trans (taken.mono rfl)).trans (left.mono rfl)

theorem windowsLeft_apart (h c t0 : Nat) (s : State) : Apart h s (windowsLeft h c t0 s) := restartChannel_apart c _ _ s

theorem windowsLeft_hall (h c t0 : Nat) (s : State) : convsOutside (fun n => n / 2 = h) s (windowsLeft h c t0 s) :=
  restartChannel_hall c _ _ s

theorem modeApplied_apart {h c m : Nat} (hc : c < 4) (t0 : Nat) (s : State) : Apart h s (modeApplied h c m t0 s) := by
  have taken : Apart h (moveTo t0 s) (takeMode h c m (moveTo t0 s)) := takeMode_apart hc _
  have left := windowsLeft_apart h c t0 (takeMode h c m (moveTo t0 s))
  exact ((apart_of_changes (moveTo_time t0 s) (by decide)).trans taken).trans left

theorem modeApplied_hall (h c m t0 : Nat) (s : State) : convsOutside (fun n => n / 2 = h) s (modeApplied h c m t0 s) := by
  have moved := (convsOutside.refl (fun n => n / 2 = h) s).skip (moveTo_time t0 s) (by decide)
  have taken := moved.skip (takeMode_chans h c m (moveTo t0 s)) (by decide)
  have left := windowsLeft_hall h c t0 (takeMode h c m (moveTo t0 s))
  exact taken.trans left

theorem now_modeApplied (h c m t0 : Nat) (s : State) : (modeApplied h c m t0 s).time.now = max s.time.now t0 := by
  have left : (modeApplied h c m t0 s).time = (takeMode h c m (moveTo t0 s)).time := windowsLeft_changes h c t0 _ .time (by decide)
  have taken : (takeMode h c m (moveTo t0 s)).time = (moveTo t0 s).time := takeMode_chans h c m _ .time (by decide)
  rw [left, taken, now_moveTo]

section
variable {h : Hall} {c : Chan} {s : State}

theorem exec_modeChangeApply {m t0 : Nat} (hu : (getHall s h).up = true) (hn : (getChan s h c).newMode = some (m, t0)) :
    exec (.modeChangeApply h c) s = done (report h (modeApplied h c m t0 s)) := by
  show execModeChangeApply h c s = _
  unfold execModeChangeApply
  rw [hn]
  exact if_pos hu

theorem exec_modeChangeApply_none (hn : (getChan s h c).newMode = none) : exec (.modeChangeApply h c) s = done s := by
  show execModeChangeApply h c s = _
  unfold execModeChangeApply
  rw [hn]

theorem exec_modeChangeApply_down (hu : (getHall s h).up = false) : exec (.modeChangeApply h c) s = done s := by
  show execModeChangeApply h c s = _
  unfold execModeChangeApply
  cases (getChan s h c).newMode with
  | none => rfl
  | some e => simp [hu]

/-- The channel with its new mode: the other operations move its output and its flags only. -/
theorem modeApplied_core (h c m t0 : Nat) (s : State) :
    chansAlike outputCore (modeTaken h c m (moveTo t0 s)) (modeApplied h c m t0 s) := by
  have taken := takeMode_core h c m (moveTo t0 s)
  have left := windowsLeft_changes h c t0 (takeMode h c m (moveTo t0 s))
  exact chansAlike.skip left (by decide) taken

/-- What a report leaves of a channel whose mode change was applied, for a field the outputs do not move. -/
theorem getChan_modeReported {α : Type} {p : ChanState → α} (hp : ∀ x e a, p { x with evt := e, ainEvt := a } = p x)
    (hq : ∀ x, p x = p (outputCore x)) (h c m t0 : Nat) (s : State) :
    p (getChan (settle (report h (modeApplied h c m t0 s))) h c) = p (getChan (modeTaken h c m (moveTo t0 s)) h c) := by
  rw [getChan_report hp, hq, modeApplied_core h c m t0 s h c, ← hq]

theorem idleForm_congr {s t : State} {k d : Nat} (hh : t.halls = s.halls) (hr : t.regs = s.regs) (hc : t.clk = s.clk)
    (hp : t.pair = s.pair) : idleForm t k d = idleForm s k d := by
  unfold idleForm hcfg getHall
  rw [hh, hp, pairEn_congr (getReg_congr hr _) hc]

/-- What the mode change leaves in the channel. -/
theorem getChan_modeTaken (h c m t0 : Nat) (s : State) :
    let x := getChan (modeTaken h c m (moveTo t0 s)) h c
    x.mode = (if idleForm s h c && (m = 5 || m = 6) then 17 else m) ∧ x.newMode = none ∧
      x.cmd = min (getChan s h c).cmd (cmdMax m) := by
  have moved := moveTo_time t0 s
  have own : getChan (moveTo t0 s) h c = getChan s h c := by
    unfold getChan
    rw [(moved .chans (by decide) : (moveTo t0 s).chans = s.chans)]
  have idle : idleForm (moveTo t0 s) h c = idleForm s h c :=
    idleForm_congr (moved .halls (by decide)) (moved .regs (by decide)) (moved .clk (by decide)) (moved .pair (by decide))
  dsimp only
  rw [modeTaken, getChan_updChan_self, own, idle]
  exact ⟨rfl, rfl, rfl⟩

/-- The mode after 100 µs in mode 0 (R31). -/
theorem modeChangeApply_some {m t0 : Nat} (hs : Inv s) (hu : (getHall s h).up = true)
    (hn : (getChan s h c).newMode = some (m, t0)) :
    ∃ t, exec (.modeChangeApply h c) s = .next t ∧
      (getChan t h c).mode = (if idleForm s h c && (m = 5 || m = 6) then 17 else m) ∧ (getChan t h c).newMode = none ∧
      (getChan t h c).cmd = min (getChan s h c).cmd (cmdMax m) ∧ t.time.now = max s.time.now t0 ∧
      framed [.time, .regs, .halls, .chans, .convs, .per, .bb] s t ∧ regsOutside (hallRegs h) s t ∧ hallApart h s t ∧
      convsOutside (fun n => n / 2 = h.val) s t ∧ onlyVstates s t := by
  have all := modeApplied_changes h c m t0 s
  have reported : changesOnly [.regs, .bb, .halls, .chans, .per, .pins] (modeApplied h c m t0 s)
      (settle (report h (modeApplied h c m t0 s))) := settle_changes rfl (report_changes rfl (.refl _ _))
  have time : (settle (report h (modeApplied h c m t0 s))).time = (modeApplied h c m t0 s).time := reported .time (by decide)
  obtain ⟨mode, new, cmd⟩ := getChan_modeTaken h c m t0 s
  obtain ⟨hf, hr, ha, hv⟩ := report_frame (F := [.time, .regs, .halls, .chans, .convs, .per, .bb]) hs rfl (by decide)
    (all.mono rfl) (.skip all (by decide) (.refl _ _)) (modeApplied_apart c.isLt t0 s)
  refine ⟨_, exec_modeChangeApply hu hn, ?_, ?_, ?_, ?_, hf, hr, ha, (modeApplied_hall h c m t0 s).skip reported (by decide), hv⟩
  · exact (getChan_modeReported (p := ChanState.mode) (fun _ _ _ => rfl) (fun _ => rfl) h c m t0 s).trans mode
  · exact (getChan_modeReported (p := ChanState.newMode) (fun _ _ _ => rfl) (fun _ => rfl) h c m t0 s).trans new
  · exact (getChan_modeReported (p := ChanState.cmd) (fun _ _ _ => rfl) (fun _ => rfl) h c m t0 s).trans cmd
  · rw [time, now_modeApplied]

end

/-! RAMP_END (R58, R87). -/

section
variable {h : Hall} {c : Chan} {s : State}

/-- The ramp of channel `c` at its end, its output not yet brought to what its causes call for. -/
def rampOver (h c : Nat) (r : Ramp) (s : State) : State :=
  updChan h c (fun x => { x with ramp := none, drive := r.dest }) (moveTo (r.start + r.len) s)

/-- The ramp ended: the outputs that waited for it move. -/
def rampEnded (h c : Nat) (r : Ramp) (s : State) : State :=
  if r.rank = 2 then resolveAll h (rampOver h c r s) else resolve h c (rampOver h c r s)

theorem exec_rampEnd_down (hd : (getHall s h).up = false) : exec (.rampEnd h c) s = done s := by
  show execRampEnd h c s = _
  unfold execRampEnd
  exact hallDo_down hd

theorem exec_rampEnd_none (hu : (getHall s h).up = true) (hr : (getChan s h c).ramp = none) :
    exec (.rampEnd h c) s = done (report h s) := by
  show execRampEnd h c s = _
  unfold execRampEnd
  rw [hallDo_up hu, hr]

theorem exec_rampEnd_some {r : Ramp} (hu : (getHall s h).up = true) (hr : (getChan s h c).ramp = some r) :
    exec (.rampEnd h c) s = done (report h (rampEnded h c r s)) := by
  show execRampEnd h c s = _
  unfold execRampEnd
  rw [hallDo_up hu, hr]
  rfl

theorem rampEnded_chans (h c : Nat) (r : Ramp) (s : State) : changesOnly [.chans] (moveTo (r.start + r.len) s) (rampEnded h c r s) :=
  .ite (resolveAll_changes rfl (updChan_changes rfl (.refl _ _))) (resolve_changes rfl (updChan_changes rfl (.refl _ _)))

theorem rampEnded_apart {h c : Nat} {r : Ramp} (hc : c < 4) (s : State) : Apart h s (rampEnded h c r s) := by
  have ended : Apart h s (rampOver h c r s) :=
    (apart_of_changes (moveTo_time (r.start + r.len) s) (by decide)).trans (updChan_apart hc _ _)
  unfold rampEnded
  split
  · exact ended.trans (resolveAll_quiet (.refl h _)).apart
  · exact ended.trans (resolve_quiet hc (.refl h _)).apart

/-- The channel when its ramp is over. -/
theorem getChan_rampOver (h c : Nat) (r : Ramp) (s : State) :
    getChan (rampOver h c r s) h c = { getChan s h c with ramp := none, drive := r.dest } := by
  rw [rampOver, getChan_updChan_self]
  unfold getChan
  rw [(moveTo_time (r.start + r.len) s .chans (by decide) : (moveTo (r.start + r.len) s).chans = s.chans)]

theorem halls_rampOver (h c : Nat) (r : Ramp) (s : State) : (rampOver h c r s).halls = s.halls :=
  moveTo_time (r.start + r.len) s .halls (by decide)

theorem rampOver_rank {h c : Nat} {r : Ramp} (s : State) : outRank (rampOver h c r s) h c = outRank s h c :=
  outRank_congr (halls_rampOver h c r s)
    (((chansAlike.refl rankView s).skip (moveTo_time (r.start + r.len) s) (by decide)).updChan fun _ => rfl)

theorem ramp_rampEnded (h c : Nat) (r : Ramp) (s : State) : (getChan (rampEnded h c r s) h c).ramp = none := by
  have ended : (getChan (rampOver h c r s) h c).ramp = none := by rw [getChan_rampOver]
  unfold rampEnded
  split
  · exact resolveAll_noNewRamp _ h c ended
  · exact resolve_noNewRamp _ h c ended

/-- The latest command of a current output that its command decides applies when its ramp ends (R87). -/
theorem drive_rampEnded {h c : Nat} {r : Ramp} {s : State} (h2 : r.rank ≠ 2) (hm : (getChan s h c).mode = 15)
    (hh : (getHall s h).hold = false) (hq : (getChan s h c).queued = false) (ho : outRank s h c = 5) :
    (getChan (rampEnded h c r s) h c).drive = (getChan s h c).cmd := by
  have own := getChan_rampOver h c r s
  have hall : getHall (rampOver h c r s) h = getHall s h := by unfold getHall; rw [halls_rampOver]
  rw [rampEnded, if_neg h2, drive_resolve_free, own]
  · rw [own, hm]; rfl
  · rw [own, hm]; decide
  · rw [own]
  · rw [hall]; exact hh
  · rw [own]; exact hq
  · rw [rampOver_rank]; exact ho

/-- A channel that is no output any more keeps the value its ramp ended at. -/
theorem drive_rampEnded_input {h c : Nat} {r : Ramp} {s : State} (h2 : r.rank ≠ 2) (hm : isOutMode (getChan s h c).mode = false) :
    (getChan (rampEnded h c r s) h c).drive = r.dest := by
  have own := getChan_rampOver h c r s
  have e : resolve h c (rampOver h c r s) = rampOver h c r s := by
    unfold resolve
    rw [own]
    simp [hm]
  rw [rampEnded, if_neg h2, e, own]

/-- RAMP_END with a ramp: it is over, and an output its command decides drives its latest command. -/
theorem rampEnd_some {r : Ramp} (hs : Inv s) (hu : (getHall s h).up = true) (hr : (getChan s h c).ramp = some r) :
    let x := getChan s h c
    ∃ t, exec (.rampEnd h c) s = .next t ∧ (getChan t h c).ramp = none ∧ t.time.now = max s.time.now (r.start + r.len) ∧
      (r.rank ≠ 2 → x.mode = 15 → (getHall s h).hold = false ∧ x.queued = false ∧ outRank s h c = 5 →
        (getChan t h c).drive = x.cmd) ∧
      (r.rank ≠ 2 → isOutMode x.mode = false → (getChan t h c).drive = r.dest) ∧
      framed [.time, .regs, .halls, .chans, .per, .bb] s t ∧ regsOutside (hallRegs h) s t ∧ hallApart h s t ∧
      onlyVstates s t := by
  intro x
  have ended := rampEnded_chans h c r s
  have all : changesOnly [.time, .chans] s (rampEnded h c r s) :=
    ((moveTo_time (r.start + r.len) s).mono rfl).trans (ended.mono rfl)
  have reported : changesOnly [.regs, .bb, .halls, .chans, .per, .pins] (rampEnded h c r s)
      (settle (report h (rampEnded h c r s))) := settle_changes rfl (report_changes rfl (.refl _ _))
  refine ⟨_, exec_rampEnd_some hu hr, ?_, ?_, fun h2 hm ⟨hh, hq, ho⟩ => ?_, fun h2 hm => ?_,
    report_frame hs rfl (by decide) (all.mono rfl) (.skip all (by decide) (.refl _ _)) (rampEnded_apart c.isLt s)⟩
  · exact (getChan_report (p := ChanState.ramp) (fun _ _ _ => rfl) h c _).trans (ramp_rampEnded h c r s)
  · have t1 : (settle (report h (rampEnded h c r s))).time = (rampEnded h c r s).time := reported .time (by decide)
    have t2 : (rampEnded h c r s).time = (moveTo (r.start + r.len) s).time := ended .time (by decide)
    rw [t1, t2, now_moveTo]
  · exact (getChan_report (p := ChanState.drive) (fun _ _ _ => rfl) h c _).trans (drive_rampEnded h2 hm hh hq ho)
  · exact (getChan_report (p := ChanState.drive) (fun _ _ _ => rfl) h c _).trans (drive_rampEnded_input h2 hm)

/-- RAMP_END without a ramp is a report only. -/
theorem rampEnd_none (hs : Inv s) (hu : (getHall s h).up = true) (hr : (getChan s h c).ramp = none) :
    ∃ t, exec (.rampEnd h c) s = .next t ∧ (getChan t h c).drive = (getChan s h c).drive ∧ hallOnly h s t :=
  ⟨_, exec_rampEnd_none hu hr, getChan_report (p := ChanState.drive) (fun _ _ _ => rfl) h c _,
    hallOnly_report hs (.refl _ _) (Quiet.refl h s).apart⟩

end

/-- Settles O39: each command by what it stores, what it leaves of the channel, and the report that ends it. -/
theorem outputCommandsModesAndRamps : Obligations.OutputCommandsModesAndRamps := by
  intro h c v s hs
  have quiet : framed [] s (settle s) := framed_settle hs (.refl _ _) (by decide)
  refine ⟨fun hd k hk => ?_, fun hu => ⟨?_, fun hn => ?_, fun m t0 hn => modeChangeApply_some hs hu hn,
    rampEnd_none hs hu, fun r hr => rampEnd_some hs hu hr⟩⟩
  · refine ⟨settle s, ?_, quiet⟩
    simp only [List.mem_cons, List.not_mem_nil, or_false] at hk
    rcases hk with rfl | rfl | rfl
    · exact exec_outputCommand_down hd
    · exact exec_modeChangeApply_down hd
    · exact exec_rampEnd_down hd
  · exact outputCommand_next hs hu
  · exact ⟨_, exec_modeChangeApply_none hn, quiet⟩

end Sys2Proof.Machine

namespace Sys2Proof.Machine

/-! What the operations of one converter leave of its hall: the other halls, their channels and converters, and where the rotation
stands (R113 to R122). -/

/-- Where a rotation stands: its phase, the converter that runs the flight, and a swap or swap back that is due. -/
def rotStand (r : RotSt) : Nat × Bool × Bool × Bool := (r.phase, r.onK1, r.swap, r.back)

/-- From `s` to `t` nothing outside hall `h` moved, and neither its rotation nor the channels' modes. -/
structure inHall (h : Nat) (s t : State) : Prop where
  apart : Apart h s t
  convs : convsOutside (fun k => k / 2 = h) s t
  rot : rotStand (getHall t h).rot = rotStand (getHall s h).rot
  rotEn : rotEn t h = rotEn s h
  mode : ∀ c, modeOf t h c = modeOf s h c

/-- What of a converter decides how its step goes on, and the records it sent. -/
def stepView (v : ConvState) : ConvState :=
  { v with autoGain := [], lastGain := [], lastOvr := none, ovrStep := false, first := false, cycled := false, trigs := [] }

/-- From `s` to `t` neither the hall's configuration nor the progress of converter `n` moved. -/
structure stepAlike (n : Nat) (s t : State) : Prop extends inHall (n / 2) s t where
  cfg : (getHall t (n / 2)).cfg = (getHall s (n / 2)).cfg
  conv : stepView (getConv t n) = stepView (getConv s n)

section
variable {h n : Nat} {s t u : State}

theorem hcfg_congr (e : (getHall t h).cfg = (getHall s h).cfg) (a : Nat) : hcfg t h a = hcfg s h a := by
  unfold hcfg; rw [e]

theorem inHall.refl (h : Nat) (s : State) : inHall h s s :=
  ⟨(Quiet.refl h s).apart, .refl _ s, rfl, rfl, fun _ => rfl⟩

theorem inHall.trans (p : inHall h s t) (q : inHall h t u) : inHall h s u where
  apart := p.apart.trans q.apart
  convs := p.convs.trans q.convs
  rot := q.rot.trans p.rot
  rotEn := q.rotEn.trans p.rotEn
  mode c := (q.mode c).trans (p.mode c)

/-- A hall without a rotation keeps without one. -/
theorem noRotation.kept (hr : noRotation s h) (p : inHall h s t) : noRotation t h := by
  obtain ⟨en, phase, onK1, swap, back⟩ := hr
  have e := p.rot
  simp only [rotStand, Prod.mk.injEq] at e
  obtain ⟨ephase, eonK1, eswap, eback⟩ := e
  exact ⟨p.rotEn.trans en, ephase.trans phase, eonK1.trans onK1, eswap.trans swap, eback.trans back⟩

theorem inHall.updConv {k : Nat} (f : ConvState → ConvState) (hk : k / 2 = h) (p : inHall h s t) :
    inHall h s (updConv k f t) :=
  p.trans ⟨(Quiet.refl h _).apart, updConv_hall hk (.refl _ _), rfl, rfl, fun _ => rfl⟩

theorem stepAlike.refl (n : Nat) (s : State) : stepAlike n s s := ⟨.refl _ s, rfl, rfl⟩

theorem stepAlike.trans (p : stepAlike n s t) (q : stepAlike n t u) : stepAlike n s u :=
  ⟨p.toinHall.trans q.toinHall, q.cfg.trans p.cfg, q.conv.trans p.conv⟩

theorem stepAlike.ite {c : Prop} [Decidable c] (p : stepAlike n s t) (q : stepAlike n s u) :
    stepAlike n s (if c then t else u) := by split <;> assumption

/-- Operations on other parts of the state. -/
theorem stepAlike.skip {F : List Part} (k : changesOnly F t u)
    (hn : (Part.halls ∉ F ∧ Part.chans ∉ F ∧ Part.per ∉ F) ∧ Part.convs ∉ F) (p : stepAlike n s t) : stepAlike n s u := by
  obtain ⟨apart, hv⟩ := hn
  have halls : u.halls = t.halls := k .halls apart.1
  have chans : u.chans = t.chans := k .chans apart.2.1
  have hall : getHall u (n / 2) = getHall t (n / 2) := by unfold getHall; rw [halls]
  refine p.trans ⟨⟨apart_of_changes k apart, (convsOutside.refl _ t).skip k hv, by rw [hall], ?_, fun c => ?_⟩, by rw [hall], ?_⟩
  · exact congrArg (bit · 31) (hcfg_congr (by rw [hall]) _)
  · unfold modeOf getChan; rw [chans]
  · rw [getConv_congr (k .convs hv)]

theorem stepAlike.updHall {f : HallState → HallState} (hc : ∀ x, (f x).cfg = x.cfg)
    (hr : ∀ x, rotStand (f x).rot = rotStand x.rot) (p : stepAlike n s t) : stepAlike n s (updHall (n / 2) f t) := by
  have own : getHall (Machine.updHall (n / 2) f t) (n / 2) = f (getHall t (n / 2)) := getHall_updHall_self ..
  have cfg : (getHall (Machine.updHall (n / 2) f t) (n / 2)).cfg = (getHall t (n / 2)).cfg := by rw [own, hc]
  exact p.trans ⟨⟨updHall_apart f t, .refl _ _, by rw [own, hr], congrArg (bit · 31) (hcfg_congr cfg _), fun _ => rfl⟩, cfg, rfl⟩

theorem stepAlike.updChan {c : Nat} {f : ChanState → ChanState} (hc : c < 4) (hf : ∀ x, (f x).mode = x.mode)
    (p : stepAlike n s t) : stepAlike n s (updChan (n / 2) c f t) := by
  refine p.trans ⟨⟨updChan_apart hc f t, .refl _ _, rfl, rfl, fun d => ?_⟩, rfl, rfl⟩
  exact ((chansAlike.refl ChanState.mode t).updChan hf) (n / 2) d

theorem stepAlike.updConv {k : Nat} {f : ConvState → ConvState} (hk : k / 2 = n / 2) (hf : ∀ x, stepView (f x) = stepView x)
    (p : stepAlike n s t) : stepAlike n s (updConv k f t) := by
  refine p.trans ⟨(inHall.refl _ _).updConv f hk, rfl, ?_⟩
  by_cases e : n = k
  · rw [e, getConv_updConv_self, hf]
  · rw [getConv_updConv_other e]

/-- Ring time of a sample count follows time and the MODCLK grid (R15). -/
theorem stampOf_congr (ht : t.time = s.time) (hy : t.sync = s.sync) (k : Nat) : stampOf t k = stampOf s k := by
  unfold stampOf pairedRing localOfM ringOf
  rw [ht, hy]

theorem saCh_lt (a : Word) : saCh a < 4 := Nat.mod_lt _ (by decide)

/-! The operations of a result that leave its step alone. -/

theorem raiseBit_step {a i : Nat} (p : stepAlike n s t) : stepAlike n s (raiseBit a i t) :=
  p.skip (F := [.regs, .bb]) (raiseBit_changes rfl (.refl _ _)) (by decide)

theorem excFlag_step {i : Nat} {b : Bool} (p : stepAlike n s t) : stepAlike n s (excFlag (n / 2) i b t) :=
  p.updHall (fun _ => rfl) fun _ => rfl

theorem ainFlag_step {c i : Nat} {b : Bool} (hc : c < 4) (p : stepAlike n s t) : stepAlike n s (ainFlag (n / 2) c i b t) :=
  p.updChan hc fun _ => rfl

theorem complFlags_step {x : Sample} (p : stepAlike n s t) : stepAlike n s (complFlags (n / 2) x t) :=
  excFlag_step (excFlag_step p)

theorem openFlags_step {c : Nat} {x : Sample} (hc : c < 4) (p : stepAlike n s t) : stepAlike n s (openFlags (n / 2) c x t) :=
  .ite (ainFlag_step hc (ainFlag_step hc p)) p

theorem codeFlags_step {c gain : Nat} {code : Word} (hc : c < 4) (p : stepAlike n s t) :
    stepAlike n s (codeFlags (n / 2) c code gain t) :=
  ainFlag_step hc (.ite (ainFlag_step hc p) p)

theorem resultEvents_step {k : Nat} {ovr recov : Bool} (p : stepAlike n s t) : stepAlike n s (resultEvents k ovr recov t) := by
  have q : stepAlike n s (if ovr then raiseBit (rCvEvt k) 0 t else t) := .ite (raiseBit_step p) p
  exact .ite (raiseBit_step q) q

theorem pulsResult_step {own c : Nat} {a tag code : Word} (hc : c < 4) (p : stepAlike n s t) :
    stepAlike n s (pulsResult t own (n / 2) c a tag code) := by
  have taken : stepAlike n s (pulsTake t own (n / 2) c a code) := by
    unfold pulsTake
    exact p.updChan hc fun _ => rfl
  exact .ite p (.ite (p.updChan hc fun _ => rfl) taken)

theorem setWin_step {w : Nat} {v : Word} (p : stepAlike n s t) : stepAlike n s (setWin (n / 2) w v t) :=
  p.updHall (fun _ => rfl) fun _ => rfl

theorem bbEvent_step {code src data : Nat} (p : stepAlike n s t) : stepAlike n s (bbEvent code src data t) :=
  p.skip (F := [.regs, .bb]) (bbEvent_changes rfl (.refl _ _)) (by decide)

theorem winExit_step {w t16 : Nat} {high : Bool} {code : Word} (p : stepAlike n s t) :
    stepAlike n s (winExit (n / 2) w high code n t16 t) := by
  have q := raiseBit_step (a := rCvEvt (2 * (n / 2))) (i := 8 + w) (setWin_step (w := w)
    (v := putBits (putBits (putBit (winStat t (n / 2) w) 0 true) 1 1 (b2n high)) 31 16 (bits (winStat t (n / 2) w) 31 16 + 1)) p)
  have q := stepAlike.ite (c := bit (hcfg t (n / 2) (aWin (n / 2) w 2)) 31 = true)
    (bbEvent_step (code := if high then 0x31 else 0x30) (src := 4 * (2 * (n / 2)) + w) (data := code.toNat) q) q
  exact .ite (q.updConv rfl fun _ => rfl) q

theorem winEval_step {w t16 : Nat} {code : Word} (p : stepAlike n s t) :
    stepAlike n s (winEval (n / 2) w code n t16 t) :=
  .ite (.ite (winExit_step p) p)
    (.ite (.ite (bbEvent_step (raiseBit_step (setWin_step p))) (raiseBit_step (setWin_step p))) (.ite (setWin_step p) p))

theorem updRot_step {f : RotSt → RotSt} (hf : ∀ r, rotStand (f r) = rotStand r) (p : stepAlike n s t) :
    stepAlike n s (updRot (n / 2) f t) := p.updHall (fun _ => rfl) fun x => hf x.rot

theorem pairSide_step {k t16 : Nat} {code tag : Word} (p : stepAlike n s t) :
    stepAlike n s (pairSide (n / 2) k t16 code tag t) :=
  updRot_step (fun r => by split <;> rfl) p

/-! The operations that move a step on (R113 to R121). -/

theorem checkIn_step {i : Nat} (p : stepAlike n s t) : stepAlike n s (checkIn i t) :=
  p.skip (F := [.regs, .wd, .img]) (checkIn_changes rfl (.refl _ _)) (by decide)

theorem flightCheckIn_step (p : stepAlike n s t) : stepAlike n s (flightCheckIn n t) := by
  have q := p.updConv (k := n) (f := fun x => { x with cycled := true }) rfl fun _ => rfl
  exact .ite (checkIn_step ((q.updConv (k := 2 * (n / 2)) (f := fun x => { x with cycled := false }) (by omega)
    fun _ => rfl).updConv (k := 2 * (n / 2) + 1) (by omega) fun _ => rfl)) q

theorem shadowCycle_step (p : stepAlike n s t) : stepAlike n s (shadowCycle n t) :=
  .ite (p.updHall (fun _ => rfl) fun _ => rfl) p

/-- The words of a hall's sequence: CV_INJ_CFG and the injected steps. -/
theorem takeNext_inHall {l : List Nat} (h : Nat) (hl : aRot h 0 ∉ l) (s : State) : inHall h s (takeNext h l s) := by
  unfold takeNext
  induction l generalizing s with
  | nil => exact .refl h s
  | cons a l ih =>
    obtain ⟨hne, hl⟩ := not_or.1 (fun e => hl (List.mem_cons.2 e))
    refine inHall.trans ?_ (ih hl _)
    dsimp only
    split
    next e _ =>
      refine ⟨(updHall_apart ..).trans (updHall_apart ..), .refl _ _, ?_, ?_, fun _ => rfl⟩
      · rw [getHall_updHall_self]
        unfold setHcfg
        rw [getHall_updHall_self]
      · unfold Machine.rotEn hcfg setHcfg
        rw [getHall_updHall_self, getHall_updHall_self]
        exact congrArg (bit · 31) (tget_tset_other _ _ hne _)
    · exact .refl h s

end

/-- What a result is made of and what it leaves: `u` is the state it is recorded in, `r` its record, `w` the state in which the
step goes on (R117, R128 to R137). -/
theorem flightResult_eq {n : Nat} {s : State} (t16 : Nat) (x : Sample) (hown : ownerOf s n = n) :
    let v := getConv s n
    let a := stepA s n v.inj v.step
    let b := stepB s n v.inj v.step
    ∃ u w r, flightResult n t16 x s = advanceStep n t16 w ∧ stepAlike n s u ∧ stepAlike n (sendRec n r u) w ∧
      r.count = modclkCount t16 ∧ r.time = stampOf s r.count ∧ r.stale = false ∧
      ((sbInput b ≠ 0 ∨ isRtdMode (modeOf s (n / 2) (saCh a)) = false) →
        r.code = (resultCode x (saOdr a) (saCont a && !v.inj) false).1) := by
  unfold flightResult
  rw [hown]
  extract_lets v a b h own a' b' c inp s1 s2 res s3 op recov k tag s4 s5 s6 s7 y puls s8 win s9 s10
  have hc : c < 4 := saCh_lt a
  have e2 : stepAlike n s s2 := .ite (openFlags_step hc (complFlags_step (.refl n s))) (complFlags_step (.refl n s))
  have e3 : stepAlike n s s3 := .ite (codeFlags_step hc e2) e2
  have e4 : stepAlike n s s4 := (resultEvents_step e3).updConv rfl fun _ => rfl
  have e5 : stepAlike n s s5 := e4.updConv rfl fun _ => rfl
  have e6 : stepAlike n s s6 := .ite (e5.updChan hc fun _ => rfl) e5
  have e7 : stepAlike n s s7 := .ite (pulsResult_step hc e6) e6
  have e9 : stepAlike n s8 s9 := .ite (winEval_step (.refl n s8)) (.refl n s8)
  have counted : stepAlike n s8 (if (saCont a' && !v.inj) = true then updRot h (fun q => { q with cycles := q.cycles + 1 }) s9 else s9) :=
    .ite (updRot_step (fun _ => rfl) e9) e9
  have e10 : stepAlike n s8 s10 := .ite (pairSide_step counted) (.ite (pairSide_step e9) e9)
  have k2 : changesOnly [.halls, .chans] s s2 := .ite (openFlags_changes rfl (complFlags_changes rfl (.refl _ s)))
    (complFlags_changes rfl (.refl _ s))
  have k3 : changesOnly [.halls, .chans] s s3 := .ite (codeFlags_changes rfl k2) k2
  have k5 : changesOnly [.halls, .chans, .convs, .regs, .bb] s s5 := gainDone_changes rfl (updConv_changes rfl
    (resultEvents_changes rfl (k3.mono rfl)))
  have k6 : changesOnly [.halls, .chans, .convs, .regs, .bb] s s6 := .ite (setClass_changes rfl k5) k5
  have k7 : changesOnly [.halls, .chans, .convs, .regs, .bb] s s7 := .ite (pulsResult_changes rfl k6) k6
  refine ⟨s7, s10, mkRec s7 t16 res.1 tag puls, rfl, e7, e10, rfl, stampOf_congr (k7 .time (by decide)) (k7 .sync (by decide)) _,
    rfl, fun closed => ?_⟩
  have lead : (decide (inp = 0) && openResult s2 h c) = false := by
    rcases closed with hi | hm
    · exact Bool.and_eq_false_imp.2 fun hz => absurd (of_decide_eq_true hz) hi
    · unfold openResult
      rw [e2.mode, hm, Bool.false_and, Bool.and_false]
  show res.1 = _
  rw [show res = resultCode x (saOdr a) (saCont a && !v.inj) (decide (inp = 0) && openResult s2 h c) from rfl, lead]

/-! How a step goes on after a result (R113, R117, R120). -/

section
variable {n : Nat} {s t : State}

/-- How the step of converter `n`, as `v` has it, goes on after a result at `t16` that it completed. -/
def wentOn (t16 : Nat) (a b : Word) (len : Nat) (v w : ConvState) : Prop :=
  if saCont a && !v.inj then
    (if v.newFlight && decide (max (sbRepeat b) 1 ≤ v.cycRes + 1) then w.phase = .boundary ∧ w.at16 = t16 ∧ w.step = 0
     else w.phase = .window ∧ w.open16 = t16 ∧ w.at16 = t16 + odrPeriod (saOdr a))
  else if v.done + 1 < sbRepeat b then
    w.phase = .window ∧ w.open16 = t16 ∧ w.at16 = t16 + tConv (saOdr a) ∧ w.done = v.done + 1
  else w.phase = .boundary ∧ w.at16 = t16 ∧ (v.inj = false → w.done = 0 ∧ w.step = if len ≤ v.step + 1 then 0 else v.step + 1)

/-- A step that owes nothing leaves nothing to pay. -/
theorem stepPaid_of_not_owed {t16 : Nat} (ho : (getConv s n).owed = false) : stepPaid n t16 s = s := by
  unfold stepPaid
  exact if_neg (by simp [ho])

theorem stepAlike.of_conv (p : stepAlike n s t) {α : Type} (f : ConvState → α) (hf : ∀ v, f v = f (stepView v)) :
    f (getConv t n) = f (getConv s n) := by rw [hf, p.conv, ← hf]

/-- The next result of a step in continuous mode, or the end of the cycle that a new flight waits for (R108, R116). -/
theorem contDone_next {t16 : Nat} {u : State} (hown : ownerOf s n = n) (ho : (getConv s n).owed = false)
    (hu : contDone n t16 s = u) :
    inHall (n / 2) s u ∧ (getConv u n).fifo = (getConv s n).fifo ∧
      (if (getConv s n).newFlight &&
          decide (max (sbRepeat (stepB s n false (getConv s n).step)) 1 ≤ (getConv s n).cycRes + 1) then
        (getConv u n).phase = .boundary ∧ (getConv u n).at16 = t16 ∧ (getConv u n).step = 0
       else (getConv u n).phase = .window ∧ (getConv u n).open16 = t16 ∧
        (getConv u n).at16 = t16 + odrPeriod (saOdr (stepA s n false (getConv s n).step))) := by
  unfold contDone at hu
  rw [hown] at hu
  extract_lets own x a k last t1 t2 t3 at hu
  have h1 : inHall (n / 2) s t1 := (inHall.refl _ s).updConv _ rfl
  have g1 : getConv t1 n = { x with
      phase := .window, open16 := t16, at16 := t16 + odrPeriod (saOdr a), done := x.done + 1
      cycRes := if last then 0 else x.cycRes + 1, owedCnt := x.owedCnt + 1 } := getConv_updConv_self ..
  have e2 : stepAlike n t1 t2 := .ite (flightCheckIn_step (.refl n t1)) (.refl n t1)
  have left {α : Type} (f : ConvState → α) (hf : ∀ v, f v = f (stepView v)) : f (getConv t2 n) = f (getConv t1 n) :=
    e2.of_conv f hf
  have fifo : (getConv t2 n).fifo = x.fifo := (left ConvState.fifo fun _ => rfl).trans (by rw [g1])
  have new : (getConv t2 n).newFlight = x.newFlight := (left ConvState.newFlight fun _ => rfl).trans (by rw [g1])
  rw [if_neg (by simp [show x.owed = false from ho])] at hu
  subst hu
  show inHall _ _ _ ∧ _ ∧ if (x.newFlight && decide last) = true then _ else _
  by_cases hl : (x.newFlight && decide last) = true
  · have e3 : t3 = updConv n (fun y => { y with
        phase := .boundary, at16 := t16, step := 0, done := 0, fresh := true, again := false, cycStart := true }) t2 :=
      if_pos (by rw [new, Bool.and_comm]; exact hl)
    rw [if_pos hl, e3, getConv_updConv_self]
    exact ⟨(h1.trans e2.toinHall).updConv _ rfl, fifo, rfl, rfl, rfl⟩
  · have e3 : t3 = t2 := if_neg (by rw [new, Bool.and_comm]; exact hl)
    rw [if_neg hl, e3]
    exact ⟨h1.trans e2.toinHall, fifo, (left ConvState.phase fun _ => rfl).trans (by rw [g1]),
      (left ConvState.open16 fun _ => rfl).trans (by rw [g1]), (left ConvState.at16 fun _ => rfl).trans (by rw [g1])⟩

/-- The last result of a flight step: the next step is at its boundary (R113). -/
theorem flightStepDone_next {t16 : Nat} {u : State} (hown : ownerOf s n = n) (ho : (getConv s n).owed = false)
    (hu : flightStepDone n t16 s = u) :
    inHall (n / 2) s u ∧ (getConv u n).fifo = (getConv s n).fifo ∧ (getConv u n).phase = .boundary ∧
      (getConv u n).at16 = t16 ∧ (getConv u n).done = 0 ∧
      (getConv u n).step = if flightLen s n ≤ (getConv s n).step + 1 then 0 else (getConv s n).step + 1 := by
  unfold flightStepDone at hu
  rw [hown] at hu
  extract_lets own x last t1 at hu
  have h1 : inHall (n / 2) s t1 := (inHall.refl _ s).updConv _ rfl
  have g1 : getConv t1 n = { x with
      phase := .boundary, at16 := t16, step := if last then 0 else x.step + 1, done := 0, fresh := true, again := false
      cycStart := last } := getConv_updConv_self ..
  have e2 : stepAlike n t1 (if last then flightCheckIn own (shadowCycle own t1) else t1) :=
    .ite (flightCheckIn_step (shadowCycle_step (.refl n t1))) (.refl n t1)
  rw [stepPaid_of_not_owed ((e2.of_conv ConvState.owed fun _ => rfl).trans (by rw [g1]; exact ho))] at hu
  subst hu
  exact ⟨h1.trans e2.toinHall, (e2.of_conv ConvState.fifo fun _ => rfl).trans (by rw [g1]),
    (e2.of_conv ConvState.phase fun _ => rfl).trans (by rw [g1]), (e2.of_conv ConvState.at16 fun _ => rfl).trans (by rw [g1]),
    (e2.of_conv ConvState.done fun _ => rfl).trans (by rw [g1]), (e2.of_conv ConvState.step fun _ => rfl).trans (by rw [g1])⟩

theorem aRot_not_injRegs (hn : n < 16) : aRot (n / 2) 0 ∉ injRegs n := by
  have := hn
  simp only [injRegs, aRot, aConv, List.mem_cons, List.mem_map, List.mem_range, not_or, not_exists, not_and]
  refine ⟨by omega, fun i hi => by omega⟩

/-- The last result of an injected step: the converter is at a boundary (R120, R121). -/
theorem injStepDone_next {t16 : Nat} {u : State} (hn : n < 16) (hown : ownerOf s n = n) (hu : injStepDone n t16 s = u) :
    inHall (n / 2) s u ∧ (getConv u n).fifo = (getConv s n).fifo ∧ (getConv u n).phase = .boundary ∧
      (getConv u n).at16 = t16 := by
  unfold injStepDone at hu
  rw [hown] at hu
  extract_lets own x s1 t1 r at hu
  have h1 : inHall (n / 2) s s1 := (inHall.refl _ s).updConv _ rfl
  have g1 : getConv s1 n = { x with phase := .boundary, at16 := t16, done := 0, fresh := false, again := false } :=
    getConv_updConv_self ..
  have e2 := flightCheckIn_step (stepAlike.refl n s1)
  have words : inHall (n / 2) s t1 := (h1.trans e2.toinHall).trans (takeNext_inHall _ (aRot_not_injRegs hn) _)
  have same : getConv t1 n = getConv (flightCheckIn n s1) n :=
    getConv_congr (takeNext_changes (F := [.halls]) rfl (.refl _ _) .convs (by decide)) n
  have fifo : (getConv t1 n).fifo = x.fifo := by
    rw [same]; exact (e2.of_conv ConvState.fifo fun _ => rfl).trans (by rw [g1])
  have phase : (getConv t1 n).phase = .boundary := by
    rw [same]; exact (e2.of_conv ConvState.phase fun _ => rfl).trans (by rw [g1])
  have at16 : (getConv t1 n).at16 = t16 := by
    rw [same]; exact (e2.of_conv ConvState.at16 fun _ => rfl).trans (by rw [g1])
  by_cases more : x.step + 1 < injLen s1 own
  · rw [if_pos more] at hu
    subst hu
    refine ⟨h1.updConv _ rfl, ?_⟩
    rw [getConv_updConv_self, g1]
    exact ⟨rfl, rfl, rfl⟩
  rw [if_neg more] at hu
  have ends {f : ConvState → ConvState} (e : updConv n f t1 = u)
      (hf : ∀ v, (f v).fifo = v.fifo ∧ (f v).phase = v.phase ∧ (f v).at16 = v.at16) : inHall (n / 2) s u ∧ (getConv u n).fifo = x.fifo ∧ (getConv u n).phase = .boundary ∧
        (getConv u n).at16 = t16 := by
    obtain ⟨f1, f2, f3⟩ := hf (getConv t1 n)
    rw [← e, getConv_updConv_self, f1, f2, f3]
    exact ⟨words.updConv _ rfl, fifo, phase, at16⟩
  by_cases twice : (x.pend && !x.twice && injLen t1 own ≠ 0) = true
  · rw [if_pos twice] at hu
    exact ends hu fun _ => ⟨rfl, rfl, rfl⟩
  · rw [if_neg twice] at hu
    exact ends hu fun _ => ⟨rfl, rfl, rfl⟩

/-- The step of a converter that runs its own flight and owes nothing goes on after a result (R113, R117). -/
theorem advanceStep_next {t16 : Nat} {u : State} (hn : n < 16) (hown : ownerOf s n = n) (ho : (getConv s n).owed = false)
    (hw : (getConv s n).phase = .window) (hu : advanceStep n t16 s = u) :
    inHall (n / 2) s u ∧ (getConv u n).fifo = (getConv s n).fifo ∧
      wentOn t16 (stepA s n (getConv s n).inj (getConv s n).step) (stepB s n (getConv s n).inj (getConv s n).step)
        (flightLen s n) (getConv s n) (getConv u n) := by
  unfold advanceStep at hu
  rw [hown] at hu
  extract_lets own x a at hu
  unfold wentOn
  show inHall _ _ _ ∧ _ ∧ if (saCont a && !x.inj) = true then _ else
    if x.done + 1 < sbRepeat (stepB s own x.inj x.step) then _ else _
  by_cases hc : (saCont a && !x.inj) = true
  · have hi : x.inj = false := by simpa using (Bool.and_eq_true_iff.1 hc).2
    rw [if_pos hc] at hu ⊢
    have e := contDone_next hown ho hu
    rwa [← hi] at e
  rw [if_neg hc] at hu ⊢
  by_cases hd : x.done + 1 < sbRepeat (stepB s own x.inj x.step)
  · rw [if_pos hd] at hu ⊢
    subst hu
    rw [getConv_updConv_self]
    exact ⟨(inHall.refl _ s).updConv _ rfl, rfl, hw, rfl, rfl, rfl⟩
  rw [if_neg hd] at hu ⊢
  by_cases hi : x.inj = true
  · rw [if_pos hi] at hu
    obtain ⟨kept, fifo, phase, at16⟩ := injStepDone_next hn hown hu
    exact ⟨kept, fifo, phase, at16, fun h0 => absurd (hi.symm.trans h0) (by decide)⟩
  · rw [if_neg hi] at hu
    obtain ⟨kept, fifo, phase, at16, last⟩ := flightStepDone_next hown ho hu
    exact ⟨kept, fifo, phase, at16, fun _ => last⟩

/-- Without a rotation a result is the end of it. -/
theorem afterResult_of_noRotation {h t16 : Nat} (hr : noRotation s h) : afterResult h t16 s = s := by
  obtain ⟨en, phase, onK1, swap, back⟩ := hr
  unfold afterResult afterContinuous wantsBack mayRotate getRot
  simp [en, phase, onK1, swap, back]

end

end Sys2Proof.Machine

namespace Sys2Proof.Machine

/-! The converter's commands without a rotation (R113, R117, R31, R375, R98). -/

section
variable {n : Nat} {s t : State}

theorem ownerOf_self (hk : (getHall s (n / 2)).rot.onK1 = false) : ownerOf s n = n := by
  unfold ownerOf
  rw [if_neg (by simp [hk])]

/-- The step in progress of a converter that runs its own flight. -/
theorem nowA_self (hr : (getConv s n).role = .flight) (hk : (getHall s (n / 2)).rot.onK1 = false) :
    nowA s n = stepA s n (getConv s n).inj (getConv s n).step := by
  unfold nowA stepOwner
  rw [hr, ownerOf_self hk]
  rfl

theorem moveTo_eq (t : Nat) (s : State) : ∃ tm, moveTo t s = { s with time := tm } := by
  unfold moveTo
  split
  · exact ⟨_, rfl⟩
  · exact ⟨_, rfl⟩

theorem moveTo_step (t : Nat) (s : State) : stepAlike n s (moveTo t s) := (stepAlike.refl n s).skip (moveTo_time t s) (by decide)

theorem mixedWindow_moveTo (t a b : Nat) (s : State) : mixedWindow (moveTo t s) n a b = mixedWindow s n a b := by
  obtain ⟨tm, e⟩ := moveTo_eq t s
  rw [e]; rfl

theorem modeEnd_moveTo (t a : Nat) (s : State) : modeEnd (moveTo t s) n a = modeEnd s n a := by
  obtain ⟨tm, e⟩ := moveTo_eq t s
  rw [e]; rfl

theorem blankOn_moveTo (t h : Nat) (s : State) : blankOn (moveTo t s) h = blankOn s h := by
  obtain ⟨tm, e⟩ := moveTo_eq t s
  rw [e]; rfl

theorem modclkTime_moveTo (t g : Nat) (s : State) : modclkTime (moveTo t s) g = modclkTime s g := by
  obtain ⟨tm, e⟩ := moveTo_eq t s
  rw [e]; rfl

theorem nowA_moveTo (t : Nat) (s : State) : nowA (moveTo t s) n = nowA s n := by
  obtain ⟨tm, e⟩ := moveTo_eq t s
  rw [e]; rfl

theorem getConv_moveTo (t k : Nat) (s : State) : getConv (moveTo t s) k = getConv s k :=
  getConv_congr (moveTo_time t s .convs (by decide)) k

/-- What a command of converter `n` whose answer ends with a report leaves of the other halls and converters. -/
theorem report_inHall {h : Nat} {P : Nat → Prop} (ha : Apart h s t) (hc : convsOutside P s t) :
    hallApart h s (settle (report h t)) ∧ convsOutside P s (settle (report h t)) ∧ onlyVstates s (settle (report h t)) := by
  obtain ⟨apart, vstates⟩ := settle_apart (report_apart ha)
  have shown : changesOnly [.regs, .bb, .halls, .chans, .per, .pins] t (settle (report h t)) :=
    settle_changes rfl (report_changes rfl (.refl _ _))
  exact ⟨apart, hc.skip shown (by decide), vstates⟩

theorem getConv_report {h : Nat} (k : Nat) (t : State) : getConv (settle (report h t)) k = getConv t k := by
  rw [getConv_settle]
  exact getConv_congr (report_changes (F := [.regs, .halls, .chans, .per, .bb]) rfl (.refl _ t) .convs (by decide)) k

theorem time_report {h : Nat} (t : State) : (settle (report h t)).time = t.time :=
  settle_changes (F := [.regs, .halls, .chans, .per, .bb, .pins]) rfl (report_changes rfl (.refl _ t)) .time (by decide)

end

/-! SETTLING_END (R117, R125, R31). -/

section
variable {n : Conv} {s : State}

theorem exec_settlingEnd_idle (hp : (getConv s n).phase ≠ .settling) : exec (.settlingEnd n) s = done s := by
  show execSettlingEnd n s = _
  unfold execSettlingEnd
  exact if_neg (by simpa using hp)

/-- A channel that passes through mode 0, or has both burdens, at the end of the delay: the step restarts after it (R31, R375). -/
theorem exec_settlingEnd_late {e o : Nat} (ho : localOfM s (getConv s n).at16 / 16 = o) (hp : (getConv s n).phase = .settling) (hr : (getConv s n).role = .flight)
    (hm : modeEnd s n o = some e) (he : o < e) :
    exec (.settlingEnd n) s = done (restartAt n (gridAfter (modclkTime s (16 * e))) (moveTo o s)) := by
  show execSettlingEnd n s = _
  unfold execSettlingEnd
  subst ho
  rw [if_pos (by rw [hp]; rfl)]
  extract_lets o u late
  have some : late = some (gridAfter (modclkTime s (16 * e))) := by
    have hm : modeEnd u n o = Option.some e := (modeEnd_moveTo ..).trans hm
    simp only [late, hm, hr]
    rw [if_pos (by simpa using (show o < e from he)), modclkTime_moveTo]
  rw [some, hr]
  rfl

/-- The window opens, or waits for the release (R117, R125). -/
theorem exec_settlingEnd_open {o : Nat} (ho : localOfM s (getConv s n).at16 / 16 = o) (hp : (getConv s n).phase = .settling)
    (hm : ∀ e, modeEnd s n o = some e → e ≤ o) :
    exec (.settlingEnd n) s = done (if blankOn s (n / 2) then updConv n (fun y => { y with phase := .waiting }) (moveTo o s)
      else openWindow n (getConv s n).at16 (tConv (windowOdr (moveTo o s) n)) (moveTo o s)) := by
  show execSettlingEnd n s = _
  unfold execSettlingEnd
  subst ho
  rw [if_pos (by rw [hp]; rfl)]
  extract_lets o u late
  have none : late = none := by
    have same : modeEnd u n o = modeEnd s n o := modeEnd_moveTo ..
    cases he : modeEnd s n o with
    | none => simp only [late, same, he]
    | some e =>
      simp only [late, same, he]
      exact if_neg (by simp [show ¬ o < e from Nat.not_lt.2 (hm e he)])
  have blank : blankOn u (n / 2) = blankOn s (n / 2) := blankOn_moveTo ..
  rw [none, blank]
  dsimp only
  split <;> rfl

theorem windowOdr_self (hr : (getConv s n).role = .flight) (hk : (getHall s (n / 2)).rot.onK1 = false) (t : Nat) :
    windowOdr (moveTo t s) n = saOdr (stepA s n (getConv s n).inj (getConv s n).step) := by
  unfold windowOdr
  rw [getConv_moveTo, hr, nowA_moveTo, nowA_self hr hk]
  rfl

/-- SETTLING_END of a converter that runs its own flight. -/
theorem settlingEnd_flight (hs : Inv s) (hp : (getConv s n).phase = .settling) (hr : (getConv s n).role = .flight)
    (hk : (getHall s (n.val / 2)).rot.onK1 = false) :
    let v := getConv s n
    let o := localOfM s v.at16 / 16
    ∃ t, exec (.settlingEnd n) s = .next t ∧ t.time.now = max s.time.now o ∧
      ((∀ e, modeEnd s n o = some e → o < e → (getConv t n).phase = .boundary ∧
          (getConv t n).at16 = gridAfter (modclkTime s (16 * e)) ∧ (getConv t n).step = v.step ∧ (getConv t n).done = v.done) ∧
        ((∀ e, modeEnd s n o = some e → e ≤ o) →
          if blankOn s (n.val / 2) then (getConv t n) = { v with phase := .waiting }
          else (getConv t n).phase = .window ∧ (getConv t n).open16 = v.at16 ∧
            (getConv t n).at16 = v.at16 + tConv (saOdr (stepA s n v.inj v.step)))) ∧
      framed [.time, .convs] s t ∧ convsOutside (· = n.val) s t := by
  intro v o
  have answer {f : ConvState → ConvState} {t : State} (ht : t = updConv n f (moveTo o s)) :
      (settle t).time.now = max s.time.now o ∧ getConv (settle t) n = f v ∧ framed [.time, .convs] s (settle t) ∧
        convsOutside (· = n.val) s (settle t) := by
    have moved := moveTo_time o s
    subst ht
    refine ⟨?_, ?_, framed_settle hs (updConv_changes rfl (moved.mono rfl)) (by decide), ?_⟩
    · rw [show (settle (updConv n f (moveTo o s))).time = (updConv n f (moveTo o s)).time from
        settle_changes (F := [.bb, .pins]) rfl (.refl _ _) .time (by decide)]
      exact now_moveTo o s
    · rw [getConv_settle, getConv_updConv_self, getConv_moveTo]
    · exact ((convsOutside.refl _ s).skip moved (by decide)).trans ((convsOutside.of_updConv _).skip
        (settle_changes (F := [.bb, .pins]) rfl (.refl _ _)) (by decide))
  by_cases late : ∃ e, modeEnd s n o = some e ∧ o < e
  · obtain ⟨e, hm, he⟩ := late
    obtain ⟨now, conv, frame, others⟩ := answer (t := restartAt n (gridAfter (modclkTime s (16 * e))) (moveTo o s)) rfl
    refine ⟨_, exec_settlingEnd_late rfl hp hr hm he, now, ⟨fun e' hm' _ => ?_, fun h0 => absurd (h0 e hm) (by omega)⟩, frame, others⟩
    have same : e = e' := Option.some.inj (hm.symm.trans hm')
    rw [conv, same]
    exact ⟨rfl, rfl, rfl, rfl⟩
  · have soon : ∀ e, modeEnd s n o = some e → e ≤ o := fun e he => Nat.not_lt.1 fun hl => late ⟨e, he, hl⟩
    have run := exec_settlingEnd_open rfl hp soon
    by_cases hb : blankOn s (n.val / 2) = true
    · obtain ⟨now, conv, frame, others⟩ := answer (t := updConv n (fun y => { y with phase := .waiting }) (moveTo o s)) rfl
      rw [if_pos hb] at run
      refine ⟨_, run, now, ⟨fun e he hl => absurd (soon e he) (by omega), fun _ => ?_⟩, frame, others⟩
      rw [if_pos hb, conv]
    · obtain ⟨now, conv, frame, others⟩ := answer
        (t := openWindow n v.at16 (tConv (windowOdr (moveTo o s) n)) (moveTo o s)) rfl
      rw [if_neg hb] at run
      refine ⟨_, run, now, ⟨fun e he hl => absurd (soon e he) (by omega), fun _ => ?_⟩, frame, others⟩
      rw [if_neg hb, conv, windowOdr_self hr hk]
      exact ⟨rfl, rfl, rfl⟩

/-! TC_OPEN (R98). -/

theorem exec_tcOpen_idle {high : Bool} (hp : (getConv s n).phase ≠ .settling) : exec (.tcOpen n high) s = done s := by
  show execTcOpen n high s = _
  unfold execTcOpen
  exact if_neg (by simp [hp])

/-- The check of a settling delay of a thermocouple step. -/
theorem tcOpen_flight {high : Bool} (hs : Inv s) (hp : (getConv s n).phase = .settling) (hr : (getConv s n).role = .flight)
    (hk : (getHall s (n.val / 2)).rot.onK1 = false) :
    let v := getConv s n
    let h := n.val / 2
    let a := stepA s n v.inj v.step
    modeOf s h (saCh a) = 11 → sbInput (stepB s n v.inj v.step) = 0 → 308 ≤ saSettle a →
      ∃ t, exec (.tcOpen n high) s = .next t ∧ bit (getChan t h (saCh a)).ain 7 = high ∧ (getConv t n).tcOpen = high ∧
        framed [.regs, .halls, .chans, .convs, .per, .bb] s t ∧ regsOutside (hallRegs h) s t ∧
        convsOutside (· = n.val) s t ∧ hallApart h s t ∧ onlyVstates s t := by
  intro v h a hm hi hd
  let kept := updConv n (fun y => { y with tcOpen := high }) s
  have run : exec (.tcOpen n high) s = done (report h (ainFlag h (saCh a) 7 high kept)) := by
    show execTcOpen n high s = _
    unfold execTcOpen
    rw [ownerOf_self hk]
    exact if_pos (by simp only [hp, hr, hm, hi, hd, Bool.and_eq_true, beq_iff_eq, decide_eq_true_eq, and_self, a, v, h])
  have changed : changesOnly [.chans, .convs] s (ainFlag h (saCh a) 7 high kept) :=
    ainFlag_changes rfl (updConv_changes rfl (.refl _ s))
  have apart : Apart h s (ainFlag h (saCh a) 7 high kept) := updChan_apart (saCh_lt a) _ kept
  obtain ⟨frame, regs, hapart, vstates⟩ := report_frame (F := [.regs, .halls, .chans, .convs, .per, .bb]) hs rfl (by decide)
    (changed.mono rfl) (.skip changed (by decide) (.refl _ s)) apart
  have others : convsOutside (· = n.val) s (ainFlag h (saCh a) 7 high kept) := (convsOutside.of_updConv s).skip
    (ainFlag_changes (F := [.chans]) rfl (.refl _ kept)) (by decide)
  refine ⟨_, run, ?_, ?_, frame, regs, (report_inHall apart others).2.1, hapart, vstates⟩
  · rw [getChan_report (p := ChanState.ain) (fun _ _ _ => rfl), ainFlag, getChan_updChan_self]
    exact bit_putBit _ (by decide) high
  · rw [getConv_report, ainFlag, getConv_updChan, getConv_updConv_self]

/-! STEP_BOUNDARY (R113, R117). -/

theorem exec_stepBoundary_idle (hp : ¬ ((getConv s n).phase = .boundary ∧ (getConv s n).role = .flight ∧ s.clk.modclk = true)) :
    exec (.stepBoundary n) s = done s := by
  show execStepBoundary n s = _
  unfold execStepBoundary
  exact if_neg (by simpa [and_assoc] using hp)

end

section
variable {n h : Nat} {s t : State}

/-- Without a rotation no boundary swaps the converters (R163). -/
theorem swapAt_of_noRotation {t16 : Nat} (hr : noRotation s (n / 2)) : swapAt n t16 s = (n, s) := by
  obtain ⟨en, phase, onK1, swap, back⟩ := hr
  unfold swapAt getRot
  simp [onK1, swap]

theorem joinShadow_of_noRotation (hr : noRotation s h) : joinShadow h s = s := by
  obtain ⟨en, phase, onK1, swap, back⟩ := hr
  unfold joinShadow getRot
  simp [phase]

theorem applyExc_step (s : State) : stepAlike n s (applyExc (n / 2) s) := by
  unfold applyExc
  split
  · exact .refl n s
  · exact excFlag_step ((stepAlike.refl n s).updHall (fun _ => rfl) fun _ => rfl)

theorem stepA_congr {own i : Nat} {inj : Bool} (e : (getHall t (own / 2)).cfg = (getHall s (own / 2)).cfg) :
    stepA t own inj i = stepA s own inj i := hcfg_congr e _

theorem stepB_congr {own i : Nat} {inj : Bool} (e : (getHall t (own / 2)).cfg = (getHall s (own / 2)).cfg) :
    stepB t own inj i = stepB s own inj i := hcfg_congr e _

/-- The gain of a step follows the hall's configuration and modes, and the automatic gains (R134). -/
theorem stepGain_congr {i : Nat} {inj : Bool} (p : stepAlike n s t) (hv : t.convs = s.convs) (hs : ownerOf s n = n)
    (ht : ownerOf t n = n) : stepGain t n inj i = stepGain s n inj i := by
  unfold stepGain chSensW
  rw [hs, ht]
  dsimp only
  rw [stepA_congr p.cfg, stepB_congr p.cfg, getConv_congr hv, p.mode, hcfg_congr p.cfg]

theorem tcChecked_inHall (a b : Word) (s : State) : inHall (n / 2) s (tcChecked s n a b) :=
  (stepAlike.ite (ainFlag_step (saCh_lt a) (.refl n s)) (.refl n s)).toinHall

theorem ownerOf_kept (hs : noRotation s (n / 2)) (p : inHall (n / 2) s t) : ownerOf t n = n :=
  ownerOf_self (hs.kept p).2.2.1

/-- A step begins: its settling delay runs from the boundary, with its gain (R117). -/
theorem beginStep_next {inj : Bool} {i k t16 : Nat} {u : State} (hr : noRotation s (n / 2)) (hu : beginStep n inj i k t16 s = u) :
    inHall (n / 2) s u ∧ convsOutside (· = n) s u ∧ (getConv u n).phase = .settling ∧
      (getConv u n).at16 = t16 + saSettle (stepA s n inj i) * tick16 ∧ (getConv u n).step = i ∧ (getConv u n).inj = inj ∧
      (getConv u n).done = k ∧ (getConv u n).gain = stepGain s n inj i := by
  have own : ownerOf s n = n := ownerOf_self hr.2.2.1
  unfold beginStep at hu
  rw [own] at hu
  extract_lets h own' s1 a g s2 at hu
  have e1 : stepAlike n s s1 := (applyExc_step s).updHall (fun _ => rfl) fun _ => rfl
  have v1 : s1.convs = s.convs := applyExc_changes (F := [.halls]) (h := h) rfl (.refl _ s) .convs (by decide)
  have begun : inHall (n / 2) s s2 := e1.toinHall.updConv _ rfl
  have shown := tcChecked_changes (F := [.chans]) (n := n) (a := a) (b := stepB s1 own' inj i) rfl (.refl _ s2)
  have conv : getConv u n = getConv s2 n := by rw [← hu]; exact getConv_congr (shown .convs (by decide)) n
  have others : convsOutside (· = n) s s2 := fun m hm => (getConv_updConv_other hm _ s1).trans (getConv_congr v1 m)
  have word : a = stepA s n inj i := stepA_congr e1.cfg
  have gain : g = stepGain s n inj i := stepGain_congr e1 v1 own (ownerOf_kept hr e1.toinHall)
  refine ⟨hu ▸ begun.trans (tcChecked_inHall ..), hu ▸ others.skip shown (by decide), ?_⟩
  rw [conv, getConv_updConv_self, ← word, ← gain]
  exact ⟨rfl, rfl, rfl, rfl, rfl, rfl⟩

end

section
variable {n : Conv} {s : State}

/-- A boundary without a rotation and without a new flight: the flight ends, or its step begins. -/
theorem exec_stepBoundary_flight (hp : (getConv s n).phase = .boundary) (hf : (getConv s n).role = .flight)
    (hm : s.clk.modclk = true) (hr : noRotation s (n.val / 2)) (hn : (getConv s n).newFlight = false) :
    let v := getConv s n
    let u := moveTo (localOfM s v.at16 / 16) s
    exec (.stepBoundary n) s =
      if flightLen s n = 0 ∧ v.inj = false then
        done (report (n.val / 2) (updConv n (fun y => { y with phase := .idle, role := .none }) u))
      else done (report (n.val / 2) (beginStep n v.inj v.step v.done v.at16 u)) := by
  intro v u
  have moved : stepAlike n s u := moveTo_step _ s
  have kept : noRotation u (n.val / 2) := hr.kept moved.toinHall
  have conv : getConv u n = v := getConv_moveTo ..
  have len : flightLen u n = flightLen s n := congrArg (fun w => min (bits w 4 0) 16) (hcfg_congr moved.cfg _)
  have begun : noRotation (beginStep n v.inj v.step v.done v.at16 u) (n.val / 2) := kept.kept (beginStep_next kept rfl).1
  show execStepBoundary n s = _
  unfold execStepBoundary
  rw [if_pos (by simp [hp, hf, hm])]
  extract_lets u' own cycleEnd
  have none : cycleEnd = false := by
    simp only [cycleEnd, own, u']
    rw [ownerOf_self kept.2.2.1, conv, hn, Bool.and_false]
  have own : flightLen u' own = flightLen s n := (congrArg (flightLen u') (ownerOf_self kept.2.2.1)).trans len
  have still : mayRotate u' (n.val / 2) = false := by
    unfold mayRotate
    rw [kept.1]
    rfl
  rw [none, swapAt_of_noRotation (s := u') kept]
  simp only [Bool.false_eq_true, if_false]
  rw [own, still]
  by_cases hl : flightLen s n = 0 ∧ v.inj = false
  · rw [if_pos hl, if_pos ⟨hl.1, congrArg not hl.2⟩]
  · rw [if_neg hl, if_neg fun e => hl ⟨e.1, by simpa using e.2⟩]
    simp only [Bool.false_and, Bool.false_eq_true, if_false]
    rw [show getConv u' n = v from conv]
    split
    · exact congrArg (fun w => done (report (n.val / 2) w)) (joinShadow_of_noRotation begun)
    · rfl

/-- STEP_BOUNDARY without a rotation and without a new flight. -/
theorem stepBoundary_flight (hs : Inv s) (hp : (getConv s n).phase = .boundary) (hf : (getConv s n).role = .flight)
    (hm : s.clk.modclk = true) (hr : noRotation s (n.val / 2)) (hn : (getConv s n).newFlight = false) :
    let v := getConv s n
    let h := n.val / 2
    ∃ t, exec (.stepBoundary n) s = .next t ∧ t.time.now = max s.time.now (localOfM s v.at16 / 16) ∧
      (if flightLen s n = 0 ∧ v.inj = false then (getConv t n).phase = .idle ∧ (getConv t n).role = .none
       else (getConv t n).phase = .settling ∧ (getConv t n).at16 = v.at16 + saSettle (stepA s n v.inj v.step) * tick16 ∧
         (getConv t n).step = v.step ∧ (getConv t n).inj = v.inj ∧ (getConv t n).done = v.done ∧
         (getConv t n).gain = stepGain s n v.inj v.step) ∧
      framed [.time, .regs, .halls, .chans, .convs, .per, .bb] s t ∧ regsOutside (hallRegs h) s t ∧
      convsOutside (· = n.val) s t ∧ hallApart h s t ∧ onlyVstates s t := by
  intro v h
  let u := moveTo (localOfM s v.at16 / 16) s
  have moved : changesOnly [.time] s u := moveTo_time _ s
  have alike : stepAlike n s u := moveTo_step _ s
  have run := exec_stepBoundary_flight hp hf hm hr hn
  have answer {w : State} (hw : changesOnly [.halls, .chans, .convs] u w) (ha : Apart h u w) (ho : convsOutside (· = n.val) u w) :
      (settle (report h w)).time.now = max s.time.now (localOfM s v.at16 / 16) ∧
        framed [.time, .regs, .halls, .chans, .convs, .per, .bb] s (settle (report h w)) ∧
        regsOutside (hallRegs h) s (settle (report h w)) ∧ convsOutside (· = n.val) s (settle (report h w)) ∧
        hallApart h s (settle (report h w)) ∧ onlyVstates s (settle (report h w)) := by
    have all : changesOnly [.time, .halls, .chans, .convs] s w := (moved.mono rfl).trans (hw.mono rfl)
    have apart : Apart h s w := alike.apart.trans ha
    have others : convsOutside (· = n.val) s w := ((convsOutside.refl _ s).skip moved (by decide)).trans ho
    obtain ⟨frame, regs, hapart, vstates⟩ := report_frame (F := [.time, .regs, .halls, .chans, .convs, .per, .bb]) hs rfl
      (by decide) (all.mono rfl) (.skip all (by decide) (.refl _ s)) apart
    refine ⟨?_, frame, regs, (report_inHall apart others).2.1, hapart, vstates⟩
    rw [time_report, show w.time = u.time from hw .time (by decide)]
    exact now_moveTo _ s
  by_cases hl : flightLen s n = 0 ∧ v.inj = false
  · obtain ⟨now, rest⟩ := answer (w := updConv n (fun y => { y with phase := .idle, role := .none }) u)
      (updConv_changes rfl (.refl _ u)) ((Quiet.refl h u).apart) (.of_updConv u)
    refine ⟨_, run.trans (if_pos hl), now, ?_, rest⟩
    rw [if_pos hl, getConv_report, getConv_updConv_self]
    exact ⟨rfl, rfl⟩
  · obtain ⟨kept, others, begun⟩ := beginStep_next (k := v.done) (t16 := v.at16) (hr.kept alike.toinHall) rfl
    obtain ⟨now, rest⟩ := answer (w := beginStep n v.inj v.step v.done v.at16 u) (beginStep_changes rfl (.refl _ u))
      kept.apart others
    refine ⟨_, run.trans (if_neg hl), now, ?_, rest⟩
    rw [if_neg hl, getConv_report, ← stepA_congr alike.cfg, ← stepGain_congr alike (moved .convs (by decide)) (ownerOf_self hr.2.2.1)
      (ownerOf_kept hr alike.toinHall)]
    exact begun

end

end Sys2Proof.Machine

namespace Sys2Proof.Machine

/-! RESULT_COMPLETE without a rotation (R117, R137, R375). -/

section
variable {n : Conv} {x : Sample} {s t : State}

theorem exec_resultComplete_idle (hp : ¬ ((getConv s n).phase = .window ∧ s.clk.modclk = true)) :
    exec (.resultComplete n x) s = done s := by
  show execResultComplete n x s = _
  unfold execResultComplete
  exact if_neg (by simpa using hp)

theorem exec_resultComplete_window (hp : (getConv s n).phase = .window) (hm : s.clk.modclk = true) :
    exec (.resultComplete n x) s = done (report (n.val / 2) (windowEnd n (getConv s n) x
      (moveTo (localOfM s (getConv s n).at16 / 16) s))) := by
  show execResultComplete n x s = _
  unfold execResultComplete
  exact if_pos (by simp [hp, hm])

theorem modclkTime_congr (hy : t.sync = s.sync) (g : Nat) : modclkTime t g = modclkTime s g := by
  unfold modclkTime gridOff slewDone
  rw [hy]

theorem nowM_congr (ht : t.time = s.time) (hy : t.sync = s.sync) : nowM t = nowM s := by
  unfold nowM
  rw [modclkTime_congr hy, ht]

theorem getConv_restartAt (k t16 : Nat) (s : State) : getConv (restartAt k t16 s) k =
    { getConv s k with phase := .boundary, at16 := t16, fresh := false, again := true } := getConv_updConv_self ..

theorem getConv_discard (k : Nat) (s : State) : getConv (discard k s) k =
    { getConv s k with disc := ((getConv s k).disc + 1) % 65536 } := getConv_updConv_self ..

/-- The window whose end comes is looked at as it opened. -/
theorem mixedWindow_atEnd (hr : (getConv s n).role = .flight) (hk : (getHall s (n.val / 2)).rot.onK1 = false) (t : Nat) :
    let v := getConv s n
    mixedWindow (moveTo t s) n (windowOpen v (nowA (moveTo t s) n)) v.at16 =
      mixedWindow s n (windowOpen v (stepA s n v.inj v.step)) v.at16 := by
  intro v
  rw [mixedWindow_moveTo, nowA_moveTo, nowA_self hr hk]

/-- A window that overlaps the change of a shared input's form: its result is discarded and its step restarts (R375). -/
theorem windowEnd_mixed {e : Nat} (hp : (getConv s n).phase = .window) (hr : (getConv s n).role = .flight)
    (hk : (getHall s (n.val / 2)).rot.onK1 = false) (o : Nat)
    (hm : mixedWindow s n (windowOpen (getConv s n) (stepA s n (getConv s n).inj (getConv s n).step)) (getConv s n).at16 = some e) :
    windowEnd n (getConv s n) x (moveTo o s) =
      restartAt n (gridUp (max (nowM (moveTo o s)) (modclkTime s (16 * e)))) (discard n (moveTo o s)) := by
  have conv := getConv_moveTo o n s
  unfold windowEnd
  rw [mixedWindow_atEnd hr hk, hm]
  dsimp only
  unfold mixedResult discardOpen
  rw [conv, hr, hp, modclkTime_moveTo]
  rfl

/-- RESULT_COMPLETE of a window that overlaps the change of a shared input's form. -/
theorem resultComplete_mixed {e : Nat} (hs : Inv s) (hp : (getConv s n).phase = .window) (hm : s.clk.modclk = true)
    (hr : (getConv s n).role = .flight) (hk : (getHall s (n.val / 2)).rot.onK1 = false) :
    let v := getConv s n
    let h := n.val / 2
    mixedWindow s n (windowOpen v (stepA s n v.inj v.step)) v.at16 = some e → ∃ t, exec (.resultComplete n x) s = .next t ∧
      t.time.now = max s.time.now (localOfM s v.at16 / 16) ∧ (getConv t n).phase = .boundary ∧
      (getConv t n).at16 = gridUp (max (nowM t) (modclkTime s (16 * e))) ∧ (getConv t n).disc = (v.disc + 1) % 65536 ∧
      (getConv t n).fifo = v.fifo ∧ (getConv t n).step = v.step ∧ (getConv t n).done = v.done ∧
      framed [.time, .regs, .halls, .chans, .convs, .per, .bb] s t ∧ regsOutside (hallRegs h) s t ∧ hallApart h s t ∧
      convsOutside (· = n.val) s t ∧ onlyVstates s t := by
  intro v h he
  let u := moveTo (localOfM s v.at16 / 16) s
  let w := restartAt n (gridUp (max (nowM u) (modclkTime s (16 * e)))) (discard n u)
  have moved : changesOnly [.time] s u := moveTo_time _ s
  have ended : windowEnd n v x u = w := windowEnd_mixed hp hr hk _ he
  have run := exec_resultComplete_window (x := x) hp hm
  rw [ended] at run
  have done : changesOnly [.convs] u w := restartAt_changes rfl (updConv_changes rfl (.refl _ u))
  have all : changesOnly [.time, .convs] s w := (moved.mono rfl).trans (done.mono rfl)
  have apart : Apart h s w := apart_of_changes all (by decide)
  have others : convsOutside (· = n.val) s w :=
    ((convsOutside.refl _ s).skip moved (by decide)).trans ((convsOutside.of_updConv u).trans (.of_updConv _))
  have conv : getConv (settle (report h w)) n = { v with
      disc := (v.disc + 1) % 65536, phase := .boundary, at16 := gridUp (max (nowM u) (modclkTime s (16 * e))), fresh := false, again := true } := by
    rw [getConv_report, show w = restartAt n _ (discard n u) from rfl, getConv_restartAt, getConv_discard, getConv_moveTo]
  have now : nowM (settle (report h w)) = nowM u := nowM_congr ((time_report w).trans (done .time (by decide)))
    (((settle_changes (F := [.regs, .halls, .chans, .per, .bb, .pins]) rfl (report_changes rfl (.refl _ w))) .sync
      (by decide)).trans (done .sync (by decide)))
  obtain ⟨frame, regs, hapart, vstates⟩ := report_frame (F := [.time, .regs, .halls, .chans, .convs, .per, .bb]) hs rfl
    (by decide) (all.mono rfl) (.skip all (by decide) (.refl _ s)) apart
  refine ⟨_, run, ?_, ?_, ?_, ?_, ?_, ?_, ?_, frame, regs, hapart, (report_inHall apart others).2.1, vstates⟩
  · rw [time_report, show w.time = u.time from done .time (by decide)]
    exact now_moveTo _ s
  · rw [conv]
  · rw [conv, now]
  all_goals rw [conv]

/-- What the record sent leaves of the converter: `f` looks at nothing that a result changes on the way. -/
theorem stepAlike.sent {k : Nat} {r : Rec} {u w : State} (p : stepAlike k s u) (q : stepAlike k (sendRec k r u) w) {α : Type}
    (f : ConvState → α) (hf : ∀ v, f v = f (stepView v)) (hs : ∀ v l, f { v with fifo := l } = f v) :
    f (getConv w k) = f (getConv s k) := by
  rw [q.of_conv f hf, sendRec, getConv_updConv_self, hs, p.of_conv f hf]

theorem stepAlike.sent_fifo {k : Nat} {r : Rec} {u w : State} (p : stepAlike k s u) (q : stepAlike k (sendRec k r u) w) :
    (getConv w k).fifo = (getConv s k).fifo ++ [r] := by
  rw [q.of_conv ConvState.fifo fun _ => rfl, sendRec, getConv_updConv_self, p.of_conv ConvState.fifo fun _ => rfl]

/-- A result of a converter that runs its own flight: its record, and how its step goes on (R117). -/
theorem flightResult_next {k t16 : Nat} {u : State} (hn : k < 16) (hr : noRotation s (k / 2)) (hw : (getConv s k).phase = .window)
    (ho : (getConv s k).owed = false) (hu : flightResult k t16 x s = u) :
    let v := getConv s k
    let a := stepA s k v.inj v.step
    let b := stepB s k v.inj v.step
    inHall (k / 2) s u ∧ wentOn t16 a b (flightLen s k) v (getConv u k) ∧
      ∃ r, (getConv u k).fifo = v.fifo ++ [r] ∧ r.count = modclkCount t16 ∧ r.time = stampOf s r.count ∧ r.stale = false ∧
        ((sbInput b ≠ 0 ∨ isRtdMode (modeOf s (k / 2) (saCh a)) = false) →
          r.code = (resultCode x (saOdr a) (saCont a && !v.inj) false).1) := by
  intro v a b
  obtain ⟨u', w, r, run, made, sent, count, time, stale, code⟩ := flightResult_eq t16 x (ownerOf_self hr.2.2.1)
  have kept : inHall (k / 2) s w := (made.toinHall.updConv _ rfl).trans sent.toinHall
  have cfg : (getHall w (k / 2)).cfg = (getHall s (k / 2)).cfg := sent.cfg.trans made.cfg
  have inj : (getConv w k).inj = v.inj := made.sent sent ConvState.inj (fun _ => rfl) fun _ _ => rfl
  have step : (getConv w k).step = v.step := made.sent sent ConvState.step (fun _ => rfl) fun _ _ => rfl
  obtain ⟨on, fifo, went⟩ := advanceStep_next hn (ownerOf_kept hr kept)
    ((made.sent sent ConvState.owed (fun _ => rfl) fun _ _ => rfl).trans ho)
    ((made.sent sent ConvState.phase (fun _ => rfl) fun _ _ => rfl).trans hw) (run.symm.trans hu)
  refine ⟨kept.trans on, ?_, r, fifo.trans (made.sent_fifo sent), count, time, stale, code⟩
  have len : flightLen w k = flightLen s k := congrArg (fun c => min (bits c 4 0) 16) (hcfg_congr cfg _)
  have new : (getConv w k).newFlight = v.newFlight := made.sent sent ConvState.newFlight (fun _ => rfl) fun _ _ => rfl
  have res : (getConv w k).cycRes = v.cycRes := made.sent sent ConvState.cycRes (fun _ => rfl) fun _ _ => rfl
  have done : (getConv w k).done = v.done := made.sent sent ConvState.done (fun _ => rfl) fun _ _ => rfl
  unfold wentOn at went ⊢
  rwa [stepA_congr cfg, stepB_congr cfg, len, inj, step, new, res, done] at went

/-- RESULT_COMPLETE of a flight's result. -/
theorem resultComplete_flight (hs : Inv s) (hp : (getConv s n).phase = .window) (hm : s.clk.modclk = true)
    (hf : (getConv s n).role = .flight) (hr : noRotation s (n.val / 2)) (ho : (getConv s n).owed = false) :
    let v := getConv s n
    let h := n.val / 2
    let a := stepA s n v.inj v.step
    let b := stepB s n v.inj v.step
    mixedWindow s n (windowOpen v a) v.at16 = none →
      ∃ t r, exec (.resultComplete n x) s = .next t ∧ t.time.now = max s.time.now (localOfM s v.at16 / 16) ∧
        (getConv t n).fifo = v.fifo ++ [r] ∧ r.count = modclkCount v.at16 ∧ r.time = stampOf t r.count ∧ r.stale = false ∧
        ((sbInput b ≠ 0 ∨ isRtdMode (modeOf s h (saCh a)) = false) →
          r.code = (resultCode x (saOdr a) (saCont a && !v.inj) false).1) ∧
        wentOn v.at16 a b (flightLen s n) v (getConv t n) ∧
        framed [.time, .regs, .halls, .chans, .convs, .per, .bb, .img, .wd] s t ∧ hallApart h s t ∧
        convsOutside (fun k => k / 2 = h) s t ∧ onlyVstates s t := by
  intro v h a b hx
  let u := moveTo (localOfM s v.at16 / 16) s
  have moved : changesOnly [.time] s u := moveTo_time _ s
  have alike : stepAlike n s u := moveTo_step _ s
  have conv : getConv u n = v := getConv_moveTo ..
  have ha : stepA u n v.inj v.step = a := stepA_congr alike.cfg
  have hb : stepB u n v.inj v.step = b := stepB_congr alike.cfg
  have len : flightLen u n = flightLen s n := congrArg (fun c => min (bits c 4 0) 16) (hcfg_congr alike.cfg _)
  have kept : noRotation u h := hr.kept alike.toinHall
  obtain ⟨made, went, r, fifo, count, time, stale, code⟩ := flightResult_next (x := x) (t16 := v.at16) n.isLt kept
    (conv ▸ hp) (conv ▸ ho) rfl
  let w := flightResult n v.at16 x u
  have ended : windowEnd n v x u = w := by
    unfold windowEnd
    rw [mixedWindow_atEnd hf hr.2.2.1, hx]
    dsimp only [resultOf]
    rw [hf]
    exact afterResult_of_noRotation (kept.kept made)
  have run := exec_resultComplete_window (x := x) hp hm
  rw [ended] at run
  have done : changesOnly [.halls, .chans, .convs, .regs, .bb, .wd, .img] u w := flightResult_changes rfl (.refl _ u)
  have all : changesOnly [.time, .halls, .chans, .convs, .regs, .bb, .wd, .img] s w := (moved.mono rfl).trans (done.mono rfl)
  have inside : inHall h s w := alike.toinHall.trans made
  obtain ⟨apart, others, vstates⟩ := report_inHall inside.apart inside.convs
  rw [conv, ha, hb, len] at went
  rw [conv] at fifo
  rw [conv, ha, hb, alike.mode] at code
  have shown : changesOnly [.regs, .halls, .chans, .per, .bb, .pins] w (settle (report h w)) :=
    settle_changes rfl (report_changes rfl (.refl _ w))
  have same : getConv (settle (report h w)) n = getConv w n := getConv_report n w
  refine ⟨_, r, run, ?_, ?_, count, ?_, stale, code, ?_,
    framed_settle hs (report_changes rfl (all.mono rfl)) (by decide), apart, others, vstates⟩
  · rw [time_report, show w.time = u.time from done .time (by decide)]
    exact now_moveTo _ s
  · rw [same, fifo]
  · rw [time]
    exact (stampOf_congr ((shown .time (by decide)).trans (done .time (by decide)))
      ((shown .sync (by decide)).trans (done .sync (by decide))) _).symm
  · rw [same]
    exact went

end

/-- Settles O43: without a rotation each command is what its state of the converter calls for, a step's results by `wentOn`. -/
theorem stepsRunSettleConvertAndAdvance : Obligations.StepsRunSettleConvertAndAdvance := by
  intro n x high s hs
  have quiet : framed [] s (settle s) := framed_settle hs (.refl _ _) (by decide)
  refine ⟨fun hp => ⟨_, exec_stepBoundary_idle hp, quiet⟩, fun hp hf hm hr hn => stepBoundary_flight hs hp hf hm hr hn,
    fun hp => ⟨⟨_, exec_settlingEnd_idle hp, quiet⟩, _, exec_tcOpen_idle hp, quiet⟩, fun hp hf hk => ⟨settlingEnd_flight hs hp hf hk,
    tcOpen_flight hs hp hf hk⟩, fun hp => ⟨_, exec_resultComplete_idle hp, quiet⟩,
    fun e hp hm hf hr _ he => resultComplete_mixed hs hp hm hf hr.2.2.1 he,
    fun hp hm hf hr ho he => resultComplete_flight hs hp hm hf hr ho he⟩

end Sys2Proof.Machine

namespace Sys2Proof.Machine

/-! What the engine's bookkeeping leaves: the bytes of memory, a frozen black box, and of a run its totals, its carried state and
its outputs (R213, R222, R229, R247, R257). -/

/-- A run without its checkpoint and the figures of its periods. -/
def runCore (r : RunSt) : RunSt := { r with shadow := [], marks := 0, per := [], seqs := [] }

/-- From `s` to `t` memory holds the same bytes, a frozen black box stands, and no run's totals, live record or outputs moved. -/
structure upkeep (s t : State) : Prop where
  mem : t.mem = { s.mem with bad := t.mem.bad }
  bb : s.bb.frozen = true → t.bb = s.bb
  runs : ∀ k, runCore (getRun t k) = runCore (getRun s k)

section
variable {s t u : State}

theorem upkeep.refl (s : State) : upkeep s s := ⟨rfl, fun _ => rfl, fun _ => rfl⟩

theorem upkeep.trans (p : upkeep s t) (q : upkeep t u) : upkeep s u where
  mem := by rw [q.mem, p.mem]
  bb hb := by
    have e := p.bb hb
    exact (q.bb (by rw [e]; exact hb)).trans e
  runs k := (q.runs k).trans (p.runs k)

theorem upkeep.ite {c : Prop} [Decidable c] (p : upkeep s t) (q : upkeep s u) : upkeep s (if c then t else u) := by
  split <;> assumption

/-- Operations on other parts of the state. -/
theorem upkeep.skip {F : List Part} (k : changesOnly F t u) (hn : (Part.mem ∉ F ∧ Part.bb ∉ F) ∧ Part.runs ∉ F)
    (p : upkeep s t) : upkeep s u := by
  obtain ⟨⟨hm, hb⟩, hr⟩ := hn
  have mem : u.mem = t.mem := k .mem hm
  have runs : u.runs = t.runs := k .runs hr
  exact p.trans ⟨by rw [mem], fun _ => k .bb hb, fun k => by unfold getRun; rw [runs]⟩

/-- Operations on registers and the black box that leave a frozen one alone. -/
theorem upkeep.shown (k : changesOnly [.regs, .bb] t u) (hb : t.bb.frozen = true → u.bb = t.bb) (p : upkeep s t) :
    upkeep s u := by
  have mem : u.mem = t.mem := k .mem (by decide)
  have runs : u.runs = t.runs := k .runs (by decide)
  exact p.trans ⟨by rw [mem], hb, fun k => by unfold getRun; rw [runs]⟩

theorem upkeep.foldl {α : Type} {l : List α} {f : State → α → State} (hf : ∀ u, ∀ a ∈ l, upkeep u (f u a)) (p : upkeep s t) :
    upkeep s (l.foldl f t) := by
  induction l generalizing t with
  | nil => exact p
  | cons a l ih => exact ih (fun u b hb => hf u b (List.mem_cons_of_mem _ hb)) (p.trans (hf t a List.mem_cons_self))

theorem upkeep.forN {n : Nat} {f : Nat → State → State} (hf : ∀ i < n, ∀ u, upkeep u (f i u)) (p : upkeep s t) :
    upkeep s (forN n f t) :=
  .foldl (fun u i hi => hf i (List.mem_range.1 hi) u) p

theorem upkeep.updRun {m : Nat} {f : RunSt → RunSt} (hf : ∀ r, runCore (f r) = runCore r) (p : upkeep s t) :
    upkeep s (updRun m f t) := by
  refine p.trans ⟨rfl, fun _ => rfl, fun k => ?_⟩
  by_cases e : k = m
  · rw [e, getRun_updRun_self, hf]
  · rw [getRun_updRun_other e]

/-! The black box and the events. -/

theorem bbEventAt_upkeep {time code src data : Nat} (p : upkeep s t) : upkeep s (bbEventAt time code src data t) := by
  refine p.shown (bbEventAt_changes rfl (.refl _ t)) fun hb => ?_
  unfold bbEventAt
  rw [if_pos hb]
  rfl

theorem raiseEvt_upkeep {a : Nat} {m : Word} (p : upkeep s t) : upkeep s (raiseEvt a m t) := by
  have set : ∀ v, upkeep s (setReg a v t) := fun v => p.skip (F := [.regs]) (setReg_changes rfl (.refl _ t)) (by decide)
  exact .ite (set _) (bbEventAt_upkeep (set _))

theorem raiseBit_upkeep {a i : Nat} (p : upkeep s t) : upkeep s (raiseBit a i t) := raiseEvt_upkeep p

theorem modReg_upkeep {a : Nat} {f : Word → Word} (p : upkeep s t) : upkeep s (modReg a f t) :=
  p.skip (F := [.regs]) (modReg_changes rfl (.refl _ t)) (by decide)

theorem setReg_upkeep {a : Nat} {v : Word} (p : upkeep s t) : upkeep s (setReg a v t) :=
  p.skip (F := [.regs]) (setReg_changes rfl (.refl _ t)) (by decide)

theorem freeze_upkeep {cause trap addr : Nat} (p : upkeep s t) : upkeep s (freeze cause trap addr t) := by
  refine p.shown (freeze_changes rfl (.refl _ t)) fun hb => ?_
  unfold freeze
  rw [if_pos hb]
  rfl

theorem eccFound_upkeep {mem hall word : Nat} (p : upkeep s t) : upkeep s (eccFound mem hall word t) :=
  freeze_upkeep (raiseBit_upkeep (setReg_upkeep p))

/-! Check bits. -/

theorem eccRewritten_upkeep {sel : Nat × Nat → Bool} (p : upkeep s t) : upkeep s (eccRewritten sel t) :=
  p.trans ⟨rfl, fun _ => rfl, fun _ => rfl⟩

theorem retWritten_upkeep {x : RetItem} (p : upkeep s t) : upkeep s (retWritten x t) := eccRewritten_upkeep p

theorem eccMark_upkeep {mem word : Nat} (p : upkeep s t) : upkeep s (eccMark mem word t) :=
  p.trans ⟨rfl, fun _ => rfl, fun _ => rfl⟩

/-! The journal and the gallery. -/

theorem jOpen_upkeep {typ target detail : Nat} (p : upkeep s t) : upkeep s (jOpen typ target detail t) := by
  have written := retWritten_upkeep (x := .journal (jSlot t)) p
  exact (written.skip (F := [.jnl]) (changesOnly.set_jnl rfl (.refl _ _)) (by decide)).skip (F := [.nv, .jnl])
    (jCopy_changes rfl (.refl _ _)) (by decide)

theorem updTier_upkeep {tier : Nat} {f : GalTier → GalTier} (p : upkeep s t) : upkeep s (updTier tier f t) :=
  p.skip (F := [.gal]) (updTier_changes rfl (.refl _ t)) (by decide)

theorem galWrite_upkeep {tier seq : Nat} (p : upkeep s t) : upkeep s (galWrite tier seq t) :=
  (jOpen_upkeep p).skip (F := [.nv, .gal]) (pushJob_changes rfl (ringPut_changes rfl (.refl _ _))) (by decide)

theorem galDrop_upkeep {b : Nat} (p : upkeep s t) : upkeep s (galDrop b t) := raiseBit_upkeep (modReg_upkeep p)

theorem galFlush_upkeep {tier : Nat} (p : upkeep s t) : upkeep s (galFlush tier t) := by
  unfold galFlush
  refine .ite p (updTier_upkeep (upkeep.skip (F := [.gal]) (updRing_changes rfl (.refl _ _)) (by decide) ?_))
  split
  · exact galWrite_upkeep p
  · exact galDrop_upkeep (eccFound_upkeep (eccRewritten_upkeep p))

theorem galInterval_upkeep {tier : Nat} (p : upkeep s t) : upkeep s (galInterval tier t) := by
  have ended := p.skip (F := [.gal]) (galIntervalEnd_changes (tier := tier) rfl (.refl _ t)) (by decide)
  exact .ite (updTier_upkeep (galFlush_upkeep ended)) ended

theorem galIntervals_upkeep {n : Nat} (p : upkeep s t) : upkeep s (galIntervals n t) := by
  have first : upkeep s (if (n + 1) % 1000 = 0 then galInterval 1 t else t) := .ite (galInterval_upkeep p) p
  exact .ite (galInterval_upkeep first) first

theorem galBlocks_upkeep {n : Nat} (p : upkeep s t) : upkeep s (galBlocks n t) := by
  have second : upkeep s (if (n + 1) % 3600000 = 0 then galFlush 2 t else t) := .ite (galFlush_upkeep p) p
  exact .ite (galFlush_upkeep second) second

/-! Periods (R222, R223). -/

theorem capture_upkeep {c : CapRec} (p : upkeep s t) : upkeep s (capture c t) := by
  have put {v : State} (q : upkeep s v) : upkeep s (capPut c v) :=
    retWritten_upkeep (q.skip (F := [.gal]) (changesOnly.set_gal rfl (.refl _ v)) (by decide))
  unfold capture
  refine .ite (put p) ?_
  split
  · exact put (p.skip (F := [.nv, .jnl, .gal]) (capDrop_changes rfl (.refl _ t)) (by decide))
  · exact galDrop_upkeep p

theorem perRestart_upkeep {m kind : Nat} {base : List Nat} {closed : Bool} (p : upkeep s t) :
    upkeep s (perRestart m kind base closed t) := p.updRun fun _ => rfl

theorem closeRun_upkeep {m kind last op : Nat} (p : upkeep s t) : upkeep s (closeRun m kind last op t) := by
  unfold closeRun
  extract_lets q r k seq bs c t1 t2 t3
  have e1 : upkeep s t1 := capture_upkeep p
  have e2 : upkeep s t2 := .ite (e1.skip (F := [.nv, .gal]) (periodWrite_changes rfl (.refl _ t1)) (by decide)) e1
  have e3 : upkeep s t3 := perRestart_upkeep (e2.updRun fun _ => rfl)
  exact .ite (perRestart_upkeep p) (setReg_upkeep (setReg_upkeep (setReg_upkeep e3)))

theorem closeKind_upkeep {kind last op : Nat} (p : upkeep s t) : upkeep s (closeKind kind last op t) :=
  raiseBit_upkeep (p.forN fun _ _ u => closeRun_upkeep (.refl u))

theorem openKind_upkeep {k first : Nat} {stop : Int} (p : upkeep s t) : upkeep s (openKind k first stop t) :=
  p.skip (F := [.per]) (openKind_changes rfl (.refl _ t)) (by decide)

theorem closeKinds_upkeep {ks : List (Nat × Nat × Nat × Int)} {boundary : Nat} (p : upkeep s t) :
    upkeep s (closeKinds ks boundary t) := by
  unfold closeKinds
  extract_lets op mask t1
  have e1 : upkeep s t1 := (jOpen_upkeep p).skip (F := [.jnl]) (jStep_changes rfl (.refl _ _)) (by decide)
  have noted (u : State) : upkeep u (forHalls noteVstate u) :=
    (upkeep.refl u).skip (F := [.per]) (forHalls_into (fun _ _ => noteVstate_changes rfl (.refl _ _)) (.refl _ u))
      (by decide)
  have kind (u : State) (k : Nat × Nat × Nat × Int) :
      upkeep u (openKind k.1 k.2.2.1 k.2.2.2 (closeKind k.1 k.2.1 op (forHalls noteVstate u))) :=
    openKind_upkeep (closeKind_upkeep (noted u))
  exact .ite p ((e1.foldl fun u k _ => kind u k).skip (F := [.jnl, .nv]) (closeWritten_changes rfl (.refl _ _)) (by decide))

theorem periodEnd_upkeep {n : Nat} (p : upkeep s t) : upkeep s (periodEnd n t) := closeKinds_upkeep p

/-! Checkpoints and the writes of a chip that is lost. -/

theorem shadowWrite_upkeep {m : Nat} (p : upkeep s t) : upkeep s (shadowWrite m t) := by
  unfold shadowWrite
  split
  · exact retWritten_upkeep (p.updRun fun _ => rfl)
  · exact p

theorem ckptBegin_upkeep {m : Nat} {c : TotCopy} {commit : Bool} {op : Nat} (p : upkeep s t) :
    upkeep s (ckptBegin m c commit op t) := by
  unfold ckptBegin
  extract_lets n t1 off t2
  have e1 : upkeep s t1 := .ite p (jOpen_upkeep p)
  exact e1.skip (F := [.nv, .gal]) (pushJob_changes rfl (ringPut_changes rfl (.refl _ _))) (by decide)

theorem ckptTick_upkeep {n : Nat} (p : upkeep s t) : upkeep s (ckptTick n t) := by
  unfold ckptTick
  refine .ite ((p.forN fun _ _ u => .ite (shadowWrite_upkeep (.refl u)) (.refl u)).forN fun _ _ u => ?_) p
  split
  · exact .ite (ckptBegin_upkeep (.refl u)) (.refl u)
  · exact .refl u

theorem jobDone_upkeep {j : FlashJob} (p : upkeep s t) : upkeep s (jobDone j t) := by
  have wrote {v : State} (q : upkeep s v) : upkeep s (galWrote j v) :=
    q.skip (F := [.gal]) (galWrote_changes rfl (.refl _ v)) (by decide)
  have add {k : FlashJob} {v : State} (q : upkeep s v) : upkeep s (addJob k v) :=
    q.skip (F := [.nv]) (addJob_changes rfl (.refl _ v)) (by decide)
  have flush {v : State} (q : upkeep s v) : upkeep s (flushSteps j v) :=
    q.skip (F := [.jnl, .nv]) (flushSteps_changes rfl (.refl _ v)) (by decide)
  unfold jobDone
  split
  next m tick commit op _ =>
    unfold ckptOver
    extract_lets t1 t2
    have e1 : upkeep s t1 := .ite (setReg_upkeep p) p
    have e2 : upkeep s t2 := .ite (raiseBit_upkeep e1) e1
    refine wrote (.ite (add e1) (.ite (flush e2) (.ite ?_ e2)))
    exact e2.skip (F := [.jnl, .nv, .gal]) (jCommitProgress_changes rfl (ckptStored_changes rfl (.refl _ _))) (by decide)
  next m kind seq op _ =>
    unfold periodOver
    have raised := raiseBit_upkeep (a := rPerEvt) (i := 3) p
    refine wrote (.ite (p.skip (F := [.gal, .jnl, .nv]) (closeWritten_changes rfl ?_) (by decide)) (.ite (add raised) raised))
    have left : changesOnly [.gal, .jnl, .nv] t { t with gal := { t.gal with cap := t.gal.cap.filter fun c => match c with
        | .period a b d _ _ => !(a == m && b == kind && d == seq)
        | _ => true } } := changesOnly.set_gal rfl (.refl _ t)
    exact .ite left (.ite (jStep_changes rfl (.ite (jStep_changes rfl left) left)) (.ite (jStep_changes rfl left) left))
  next =>
    exact wrote (flush (.ite p (galDrop_upkeep p)))
  next op _ =>
    unfold repairOver
    refine .ite (raiseBit_upkeep (p.skip (F := [.jnl, .nv, .img]) ?_ (by decide)))
      (p.skip (F := [.jnl, .nv, .img]) (jClose_changes rfl (changesOnly.set_img rfl (.refl _ t))) (by decide))
    exact changesOnly.set_img rfl (jClose_changes rfl (jStep_changes rfl (jStep_changes rfl (jStep_changes rfl (.refl _ t)))))
  next =>
    exact p.skip (F := [.jnl]) (pagesDone_changes rfl (.refl _ t)) (by decide)

theorem jobsSettle_upkeep (n : Nat) (p : upkeep s t) : upkeep s (jobsSettle n t) := by
  induction n generalizing t with
  | zero => exact p
  | succ n ih =>
    unfold jobsSettle
    split
    · exact p
    · exact ih (jobDone_upkeep (p.skip (F := [.nv]) (changesOnly.set_nv rfl (.refl _ t)) (by decide)))

theorem jobsLost_upkeep (p : upkeep s t) : upkeep s (jobsLost t) := .ite p (jobsSettle_upkeep _ p)

/-! Balance windows (R228, R230). -/

theorem updBal_upkeep {b : Nat} {f : BalSt → BalSt} (p : upkeep s t) : upkeep s (updBal b f t) :=
  p.skip (F := [.bal]) (updBal_changes rfl (.refl _ t)) (by decide)

theorem balIncomplete_upkeep {b : Nat} (p : upkeep s t) : upkeep s (balIncomplete b t) :=
  raiseBit_upkeep (modReg_upkeep (updBal_upkeep p))

theorem balEvaluate_upkeep {b : Nat} {w : BalWin} {q : Nat} {ps ts : Word} (p : upkeep s t) :
    upkeep s (balEvaluate b w q ps ts t) := by
  unfold balEvaluate
  extract_lets lp i out st oc ic al set clr al2 t1 t2 t3 t4
  have e3 : upkeep s t3 := setReg_upkeep (setReg_upkeep (updBal_upkeep p))
  have e4 : upkeep s t4 := .ite (raiseBit_upkeep e3) e3
  exact .ite (raiseBit_upkeep e4) e4

theorem balMismatch_upkeep {b : Nat} {differ : Bool} (p : upkeep s t) : upkeep s (balMismatch b differ t) :=
  .ite (raiseBit_upkeep (modReg_upkeep p)) (modReg_upkeep p)

theorem balTry_upkeep {b : Nat} (p : upkeep s t) : upkeep s (balTry b t) := by
  unfold balTry
  split
  · exact p
  · exact .ite p (.ite (balIncomplete_upkeep (balMismatch_upkeep p)) (balEvaluate_upkeep (balMismatch_upkeep p)))

theorem balClose_upkeep {b n : Nat} (p : upkeep s t) : upkeep s (balClose b n t) := by
  unfold balClose
  exact .ite (updBal_upkeep p) (balTry_upkeep (updBal_upkeep (.ite (balIncomplete_upkeep p) p)))

theorem balTick_upkeep {m n : Nat} {alarm adj : Bool} (p : upkeep s t) : upkeep s (balTick m n alarm adj t) :=
  p.forN fun _ _ u => .ite (.refl u) (.ite (balClose_upkeep (updBal_upkeep (.refl u))) (updBal_upkeep (.refl u)))

/-! What follows a run's totals in its slot, and the end of a tick. -/

theorem periodTick_upkeep {m : Nat} {alarm : Bool} {status : Word} {q : Nat} {vs : List (Option Ext)} (p : upkeep s t) :
    upkeep s (periodTick m alarm status q vs t) := p.updRun fun _ => rfl

theorem galTick_upkeep {m : Nat} {alarm : Bool} {status : Word} {vs : List (Option Ext)} (p : upkeep s t) :
    upkeep s (galTick m alarm status vs t) := by
  unfold galTick
  exact updTier_upkeep (updTier_upkeep p)

theorem afterRun_upkeep {m : Nat} {alarm : Bool} {status : Word} {q : Nat} {vals gal : List (Option Ext)} (p : upkeep s t) :
    upkeep s (afterRun m alarm status q vals gal t) :=
  balTick_upkeep (galTick_upkeep (periodTick_upkeep p))

theorem endTick_upkeep (p : upkeep s t) : upkeep s (endTick t) :=
  (jobsLost_upkeep (galBlocks_upkeep (periodEnd_upkeep (ckptTick_upkeep (galIntervals_upkeep p))))).skip (F := [.eng])
    (changesOnly.set_eng rfl (.refl _ _)) (by decide)

theorem checkIn_upkeep {i : Nat} (p : upkeep s t) : upkeep s (checkIn i t) :=
  p.skip (F := [.regs, .wd, .img]) (checkIn_changes rfl (.refl _ t)) (by decide)

theorem noteStall_upkeep (p : upkeep s t) : upkeep s (noteStall t) :=
  p.skip (F := [.regs, .free]) (noteStall_changes rfl (.refl _ t)) (by decide)

end

end Sys2Proof.Machine

namespace Sys2Proof.Machine

/-! Memory keeps its bytes: what is written to retention RAM stands in the audit trail, the journal and the runs, and changes the
check bits alone (R213, R399). -/

/-- Memory holds the same bytes from `s` to `t`. -/
def sameBytes (s t : State) : Prop := t.mem = { s.mem with bad := t.mem.bad }

section
variable {s t u : State}

theorem upkeep.bytes (p : upkeep s t) : sameBytes s t := p.mem

theorem sameBytes.refl (s : State) : sameBytes s s := rfl

theorem sameBytes.trans (p : sameBytes s t) (q : sameBytes t u) : sameBytes s u := by
  unfold sameBytes at *
  rw [q, p]

theorem sameBytes.ite {c : Prop} [Decidable c] (p : sameBytes s t) (q : sameBytes s u) : sameBytes s (if c then t else u) := by
  split <;> assumption

theorem sameBytes.skip {F : List Part} (k : changesOnly F t u) (hn : Part.mem ∉ F) (p : sameBytes s t) : sameBytes s u := by
  have e : u.mem = t.mem := k .mem hn
  unfold sameBytes at *
  rw [e, p]

theorem sameBytes.foldl {α : Type} {l : List α} {f : State → α → State} (hf : ∀ u, ∀ a ∈ l, sameBytes u (f u a))
    (p : sameBytes s t) : sameBytes s (l.foldl f t) := by
  induction l generalizing t with
  | nil => exact p
  | cons a l ih => exact ih (fun u b hb => hf u b (List.mem_cons_of_mem _ hb)) (p.trans (hf t a List.mem_cons_self))

theorem sameBytes.forN {n : Nat} {f : Nat → State → State} (hf : ∀ i < n, ∀ u, sameBytes u (f i u)) (p : sameBytes s t) :
    sameBytes s (forN n f t) :=
  .foldl (fun u i hi => hf i (List.mem_range.1 hi) u) p

theorem retWritten_bytes {x : RetItem} (p : sameBytes s t) : sameBytes s (retWritten x t) :=
  p.trans (retWritten_upkeep (.refl t)).bytes

theorem updRun_bytes {m : Nat} {f : RunSt → RunSt} (p : sameBytes s t) : sameBytes s (updRun m f t) :=
  p.skip (F := [.runs]) (updRun_changes rfl (.refl _ t)) (by decide)

theorem liveWrite_bytes {m : Nat} {c : TotCopy} (p : sameBytes s t) : sameBytes s (liveWrite m c t) :=
  retWritten_bytes (updRun_bytes p)

/-! Audit records and reconciliation (R216, R239). -/

theorem audit_bytes {o : Origin} {kind addr width detail old new op : Nat} (p : sameBytes s t) :
    sameBytes s (audit o kind addr width detail old new op t) := by
  unfold audit
  refine .ite (retWritten_bytes (p.skip (F := [.aud]) (changesOnly.set_aud rfl (.refl _ t)) (by decide))) ?_
  exact p.skip (F := [.regs, .bb]) (raiseBit_changes rfl (modReg_changes rfl (.refl _ t))) (by decide)

theorem voteAudit_bytes {m : Nat} {c : List (Nat × TotCopy)} {w : List Acc} (p : sameBytes s t) :
    sameBytes s (voteAudit m c w t) :=
  p.foldl fun u _ _ => (sameBytes.refl u).foldl fun v _ _ => .ite (.refl v) (audit_bytes (.refl v))

theorem resume_bytes {m : Nat} {accs : List Acc} {tick : Option Nat} {outcome marks : Nat} (p : sameBytes s t) :
    sameBytes s (resume m accs tick outcome marks t) := by
  unfold resume
  extract_lets t1 t2 t3
  have e2 : sameBytes s t2 := by
    simp only [t2]
    split
    · exact liveWrite_bytes (updRun_bytes p)
    · exact retWritten_bytes (updRun_bytes (updRun_bytes p))
  exact e2.skip (F := [.regs, .bb]) (raiseEvt_changes rfl (setReg_changes rfl (.refl _ t2))) (by decide)

theorem reconcileRun_bytes {m : Nat} {partner : Option TotCopy} (p : sameBytes s t) :
    sameBytes s (reconcileRun m partner t) := by
  unfold reconcileRun
  have read : sameBytes s (totalsRead m t) := p.skip (F := [.regs, .bb]) (totalsRead_changes rfl (.refl _ t)) (by decide)
  extract_lets t1
  split
  · extract_lets c votes w kinds marks o t2 shadowOk
    have voted : sameBytes s t2 := voteAudit_bytes read
    split
    · exact .ite (resume_bytes voted) (resume_bytes voted)
    · exact resume_bytes voted
  · split
    · exact resume_bytes read
    · exact resume_bytes read

theorem applyRun_bytes {m : Nat} {was : Bool} {pout : Option Nat} {l : List Nat} (p : sameBytes s t) :
    sameBytes s (applyRun m was pout l t) := by
  unfold applyRun
  extract_lets t1 t2
  have e1 : sameBytes s t1 := updRun_bytes p
  have e2 : sameBytes s t2 := .ite (e1.skip (F := [.runs, .regs]) (dropBacklog_changes rfl (.refl _ t1)) (by decide)) e1
  exact .ite p (.ite (.ite (reconcileRun_bytes e2) e2) e2)

theorem lateRuns_bytes (p : sameBytes s t) : sameBytes s (lateRuns t) := by
  unfold lateRuns
  split
  next x _ =>
    have e : sameBytes s (applyRuns x.runs (x.old.map (·.1)) t) := p.forN fun _ _ u => applyRun_bytes (.refl u)
    exact e.skip (F := [.eng]) (changesOnly.set_eng rfl (.refl _ _)) (by decide)
  · exact p

end

end Sys2Proof.Machine

namespace Sys2Proof.Machine

/-! A run's step in its slot: what becomes of the run, of the other runs and of memory (R199, R202, R211). -/

/-- From `s` to `t` run `m` became `x`, its checkpoint and the figures of its periods apart; the other runs and the bytes of memory
stand. -/
structure runMade (m : Nat) (x : RunSt) (s t : State) : Prop where
  bytes : sameBytes s t
  self : runCore (getRun t m) = runCore x
  others : ∀ k, k ≠ m → runCore (getRun t k) = runCore (getRun s k)

theorem runMade.upkept {m : Nat} {x : RunSt} {s t u : State} (p : runMade m x s t) (q : upkeep t u) : runMade m x s u :=
  ⟨p.bytes.trans q.bytes, (q.runs m).trans p.self, fun k hk => (q.runs k).trans (p.others k hk)⟩

/-- The same, the black box frozen where it was. -/
structure runStep (m : Nat) (x : RunSt) (s t : State) : Prop extends runMade m x s t where
  frozen : t.bb.frozen = s.bb.frozen

theorem runCore_congr {f : RunSt → RunSt} (hf : ∀ r, runCore (f r) = runCore (f (runCore r))) {x y : RunSt}
    (h : runCore x = runCore y) : runCore (f x) = runCore (f y) := by
  rw [hf x, hf y, h]

/-! Events keep the black box frozen or not. -/

theorem frozen_bbEventAt (time code src data : Nat) (s : State) : (bbEventAt time code src data s).bb.frozen = s.bb.frozen := by
  unfold bbEventAt trimEvents
  split
  · rfl
  · dsimp only
    split <;> rfl

theorem frozen_raiseEvt (a : Nat) (m : Word) (s : State) : (raiseEvt a m s).bb.frozen = s.bb.frozen := by
  unfold raiseEvt raiseEvtAt
  dsimp only
  generalize (if (evtCode a).1 = 6 then _ else _ : Word) = shown
  split
  · rfl
  · exact frozen_bbEventAt ..

section
variable {m : Nat} {x : RunSt} {s t u : State}

theorem runStep.refl (m : Nat) (s : State) : runStep m (getRun s m) s s := ⟨⟨.refl s, rfl, fun _ _ => rfl⟩, rfl⟩

theorem runStep.accs (p : runStep m x s t) : (getRun t m).accs = x.accs := by
  have e := congrArg RunSt.accs p.self
  exact e

theorem runStep.car (p : runStep m x s t) : (getRun t m).car = x.car := by
  have e := congrArg RunSt.car p.self
  exact e

/-- Operations on other parts of the state. -/
theorem runStep.skip {F : List Part} (k : changesOnly F t u) (hn : (Part.mem ∉ F ∧ Part.bb ∉ F) ∧ Part.runs ∉ F)
    (p : runStep m x s t) : runStep m x s u := by
  obtain ⟨⟨hm, hb⟩, hr⟩ := hn
  have e : ∀ k, getRun u k = getRun t k := fun j => by unfold getRun; rw [show u.runs = t.runs from k .runs hr]
  exact ⟨⟨p.bytes.skip k hm, by rw [e]; exact p.self, fun j hj => by rw [e]; exact p.others j hj⟩,
    by rw [show u.bb = t.bb from k .bb hb]; exact p.frozen⟩

theorem runStep.raised (a : Nat) (w : Word) (p : runStep m x s t) : runStep m x s (raiseEvt a w t) := by
  have k := raiseEvt_changes (a := a) (m := w) (F := [.regs, .bb]) rfl (.refl _ t)
  have e : ∀ k, getRun (raiseEvt a w t) k = getRun t k := fun j => by
    unfold getRun; rw [show (raiseEvt a w t).runs = t.runs from k .runs (by decide)]
  exact ⟨⟨p.bytes.skip k (by decide), by rw [e]; exact p.self, fun j hj => by rw [e]; exact p.others j hj⟩,
    (frozen_raiseEvt a w t).trans p.frozen⟩

theorem runStep.written (a : Nat) (w : Word) (p : runStep m x s t) : runStep m x s (setReg a w t) :=
  p.skip (F := [.regs]) (setReg_changes rfl (.refl _ t)) (by decide)

theorem runStep.writtenN (n : Nat) (a : Nat → Nat) (w : Nat → Word) (p : runStep m x s t) :
    runStep m x s (forN n (fun j v => setReg (a j) (w j) v) t) :=
  p.skip (F := [.regs]) (forN_into (fun _ v => setReg_changes rfl (.refl _ v)) (.refl _ t)) (by decide)

/-- A field of the run is set that `runCore` keeps. -/
theorem runStep.put {f : RunSt → RunSt} (hf : ∀ r, runCore (f r) = runCore (f (runCore r))) (p : runStep m x s t) :
    runStep m (f x) s (updRun m f t) :=
  ⟨⟨updRun_bytes p.bytes, by rw [getRun_updRun_self]; exact runCore_congr hf p.self,
    fun k hk => by rw [getRun_updRun_other hk]; exact p.others k hk⟩, p.frozen⟩

/-- A field of the run is set that `runCore` drops. -/
theorem runStep.kept {f : RunSt → RunSt} (hf : ∀ r, runCore (f r) = runCore r) (p : runStep m x s t) :
    runStep m x s (updRun m f t) := by
  have e := p.put (f := f) fun r => (hf r).trans (hf (runCore r)).symm
  exact ⟨⟨e.bytes, e.self.trans (hf x), e.others⟩, e.frozen⟩

/-- The run as a tick's quantised increments leave it. -/
def addedRun (m n : Nat) (q : Nat × Nat × Nat) (alarm : Bool) (r : RunSt) : RunSt :=
  { r with accs := accsAdd r.accs q alarm, tick := some n, live := totBytes m 2 { tick := n, accs := accsAdd r.accs q alarm } }

theorem totalize_step (n : Nat) (q : (Nat × Nat × Nat) × Bool) (alarm : Bool) (p : runStep m x s t) :
    runStep m (addedRun m n q.1 (alarm || q.2) x) s (totalize m n q alarm t) := by
  have accs : (getRun t m).accs = x.accs := p.accs
  unfold totalize
  extract_lets a t1
  have ha : a = accsAdd x.accs q.1 (alarm || q.2) := by simp only [a, accs]
  have e1 : runStep m (addedRun m n q.1 (alarm || q.2) x) s t1 := by
    have added := (p.put (f := fun r => { r with
      accs := a, tick := some n, per := r.per.map (fun y => { y with marks := y.marks ||| r.marks }), marks := 0 })
      fun _ => rfl).put (f := fun r => { r with live := totBytes m 2 { tick := n, accs := a } }) fun _ => rfl
    refine ⟨⟨retWritten_bytes added.bytes, added.self.trans ?_, added.others⟩, added.frozen⟩
    simp only [addedRun, runCore, ha]
  split
  · exact (e1.kept (f := fun r => { r with per := r.per.map fun y => { y with marks := y.marks ||| 16 } })
      fun _ => rfl).raised _ _
  · exact e1

/-- The run with a pulse accumulator and a backlog. -/
def pulsedRun (a b : Nat) (r : RunSt) : RunSt := { r with car := { r.car with pacc := a, backlog := b } }

theorem pulseOut_step (q : Nat × Nat × Nat) (alarm : Bool) (p : runStep m x s t) :
    ∃ a b, runStep m (pulsedRun a b x) s (pulseOut m q alarm t).1 := by
  have car : (getRun t m).car = x.car := p.car
  unfold pulseOut
  split
  · exact ⟨x.car.pacc, x.car.backlog, p⟩
  · extract_lets w q0 q1 qp c a n room b t1 t2 t3
    have e1 : runStep m (pulsedRun (a % qp) b x) s t1 := p.put (f := pulsedRun (a % qp) b) fun _ => rfl
    have e2 : runStep m (pulsedRun (a % qp) b x) s t2 := e1.written _ _
    refine ⟨a % qp, b, ?_⟩
    show runStep m _ s (if room < n then _ else _)
    split
    · exact e2.written _ _
    · exact e2

theorem runStatus_step (w again : Word) (p : runStep m x s t) : runStep m x s (runStatus m w again t) :=
  (p.written _ _).raised _ _

theorem runCycles_step (cycles : Nat) (c : Bool) (p : runStep m x s t) : runStep m x s (runCycles m cycles c t) :=
  p.skip (F := [.regs]) (runCycles_changes rfl (.refl _ t)) (by decide)

/-! The black box at a trap (R202). -/

theorem trapFreeze_upkeep (m c : Nat) (s : State) : upkeep s (trapFreeze m c s) := by
  have e : upkeep s (if s.eng.armed || s.bb.frozen then freeze 4 (m * 32 + c) 0 s else s) :=
    .ite (freeze_upkeep (.refl s)) (.refl s)
  exact e.skip (F := [.eng]) (changesOnly.set_eng rfl (.refl _ _)) (by decide)

theorem frozen_freeze (c trap addr : Nat) (s : State) : (freeze c trap addr s).bb.frozen = true := by
  unfold freeze
  split
  · assumption
  · rfl

theorem hdr_freeze {c trap addr : Nat} {s : State} (hs : s.bb.frozen = false) :
    (freeze c trap addr s).bb.hdr.cause = c ∧ (freeze c trap addr s).bb.hdr.trap = trap := by
  unfold freeze
  rw [if_neg (by simp [hs])]
  exact ⟨rfl, rfl⟩

theorem trapFreeze_frozen {m c : Nat} {s : State} (hs : s.eng.armed = true) : (trapFreeze m c s).bb.frozen = true := by
  unfold trapFreeze
  rw [if_pos (by simp [hs])]
  exact frozen_freeze ..

theorem trapFreeze_hdr {m c : Nat} {s : State} (hs : s.eng.armed = true) (hb : s.bb.frozen = false) :
    (trapFreeze m c s).bb.hdr.cause = 4 ∧ (trapFreeze m c s).bb.hdr.trap = m * 32 + c := by
  unfold trapFreeze
  rw [if_pos (by simp [hs])]
  exact hdr_freeze hb

theorem trapFreeze_eng (m c : Nat) (s : State) : (trapFreeze m c s).eng = { s.eng with armed := false, tickTrap := true } := by
  have e : (if s.eng.armed || s.bb.frozen then freeze 4 (m * 32 + c) 0 s else s).eng = s.eng := by
    split
    · exact freeze_changes (F := [.regs, .bb]) rfl (.refl _ s) .eng (by decide)
    · rfl
  unfold trapFreeze
  simp only [e]

end

/-! The two ends of a run's slot (R201, R211). -/

/-- A run that traps: the increments of its last completed tick join the alarm totals. -/
def trappedRun (m n : Nat) (d : Option Nat) (a b : Nat) (r : RunSt) : RunSt :=
  pulsedRun a b (addedRun m n (quants (r.car.inc.getD (0, 0, 0))).1 true { r with car := { r.car with deliv := d } })

/-- A run that completes its tick. -/
def completedRun (m n : Nat) (o : RunOut) (f i rec : Option Nat) (a b : Nat) (r : RunSt) : RunSt :=
  pulsedRun a b (addedRun m n (quants o.inc).1 (o.alarm || (quants o.inc).2)
    { r with car := { o.car with pacc := r.car.pacc, backlog := r.car.backlog }, fout := f, iout := i, irec := rec })

/-- A run that traps, before the black box freezes. -/
def trapBooked (m c cycles : Nat) (s : State) : State :=
  let inc := (getRun s m).car.inc
  let q := quants (inc.getD (0, 0, 0))
  let t := totalize m s.eng.set.tick q true (updRun m (fun r => { r with car := { r.car with deliv := delivAge s m } }) s)
  let p := pulseOut m q.1 true t
  let w := (getReg s (rRunStatus m) &&& ~~~ (bitMask 10 ||| bitMask 6)) ||| fl 31 true ||| fl 30 true
    ||| fl 29 inc.isNone ||| fl 10 p.2 ||| fl 6 s.eng.set.adj
  modReg (aRun m 0x43) (fun x => BitVec.ofNat 32 (c * 2 ^ 28 + satSucc 0xFFFF (bits x 15 0)))
    (runCycles m cycles false (runStatus m w (bitMask 31) p.1))

theorem trapRun_eq (m c cycles : Nat) (s : State) : ∃ w q l, trapRun m c cycles s =
    afterRun m true w q l l (trapFreeze m c (trapBooked m c cycles s)) := ⟨_, _, _, rfl⟩

theorem trapBooked_step (m c cycles : Nat) (s : State) :
    ∃ d a b, runStep m (trappedRun m s.eng.set.tick d a b (getRun s m)) s (trapBooked m c cycles s) := by
  have aged := (runStep.refl m s).put (f := fun r => { r with car := { r.car with deliv := delivAge s m } }) fun _ => rfl
  obtain ⟨a, b, e⟩ := pulseOut_step (quants ((getRun s m).car.inc.getD (0, 0, 0))).1 true
    (totalize_step s.eng.set.tick (quants ((getRun s m).car.inc.getD (0, 0, 0))) true aged)
  exact ⟨_, a, b, (runCycles_step _ _ (runStatus_step _ _ e)).written _ _⟩

/-- A run that completes its tick, before what follows its totals. -/
def completeBooked (m cycles : Nat) (o : RunOut) (f i : Option (Nat × Bool)) (s : State) : State :=
  let q := quants o.inc
  let t := updRun m (fun r => { r with
    car := { o.car with pacc := r.car.pacc, backlog := r.car.backlog }
    fout := f.map (·.1), iout := i.map (·.1), irec := recorded s m (i.map (·.1)) }) s
  let p := pulseOut m q.1 (o.alarm || q.2) (totalize m s.eng.set.tick q o.alarm t)
  let w := o.flags ||| fl 30 (o.alarm || q.2) ||| fl 10 p.2 ||| fl 9 (f.any (·.2)) ||| fl 8 (i.any (·.2))
  let t := runCycles m cycles true (setReg (aRun m 0x48) (BitVec.ofNat 32 s.eng.set.tick) (runStatus m w 0 p.1))
  forN 17 (fun j u => setReg (aRun m (0x49 + j)) (x32 (o.live.getD j 0)) u) t

theorem completeRun_eq (m cycles : Nat) (o : RunOut) (f i : Option (Nat × Bool)) (s : State) :
    ∃ w q l, completeRun m cycles o f i s =
      afterRun m (o.alarm || (quants o.inc).2) w q o.vals l (completeBooked m cycles o f i s) := by
  cases f <;> cases i <;> exact ⟨_, _, _, rfl⟩

theorem completeBooked_step (m cycles : Nat) (o : RunOut) (f i : Option (Nat × Bool)) (s : State) :
    ∃ a b, runStep m (completedRun m s.eng.set.tick o (f.map (·.1)) (i.map (·.1)) (recorded s m (i.map (·.1))) a b
      (getRun s m)) s (completeBooked m cycles o f i s) := by
  have put := (runStep.refl m s).put (f := fun r => { r with
    car := { o.car with pacc := r.car.pacc, backlog := r.car.backlog }
    fout := f.map (·.1), iout := i.map (·.1), irec := recorded s m (i.map (·.1)) }) fun _ => rfl
  obtain ⟨a, b, e⟩ := pulseOut_step (quants o.inc).1 (o.alarm || (quants o.inc).2)
    (totalize_step s.eng.set.tick (quants o.inc) o.alarm put)
  exact ⟨a, b, (runCycles_step _ _ ((runStatus_step _ _ e).written _ _)).writtenN 17 _ _⟩

end Sys2Proof.Machine

namespace Sys2Proof.Machine

/-! A run's words after its slot (R201, R202). -/

/-! Words. -/

theorem bit_or (a b : Word) (i : Nat) : bit (a ||| b) i = (bit a i || bit b i) := by simp [bit]

theorem bit_fl_self {i : Nat} (hi : i < 32) (b : Bool) : bit (fl i b) i = b := by
  have e := bit_or_bitMask 0 hi
  cases b
  · simp [fl, bit]
  · simpa [fl, bit_or, bit] using e

theorem bits_lt (w : Word) (hi lo : Nat) : bits w hi lo < 2 ^ (hi + 1 - lo) := Nat.mod_lt _ (by positivity)

/-- A word put together from a high part and a low one. -/
theorem bits_pack {hi lo : Nat} {n : Nat} (a b : Nat) (hn : n = a * 2 ^ lo + b) (hb : b < 2 ^ lo) (hl : n < 2 ^ 32)
    (ha : a < 2 ^ (hi + 1 - lo)) : bits (BitVec.ofNat 32 n) hi lo = a := by
  unfold bits
  rw [BitVec.toNat_ofNat, Nat.mod_eq_of_lt hl, Nat.shiftRight_eq_div_pow, hn, Nat.mul_comm, Nat.mul_add_div (by positivity),
    Nat.div_eq_of_lt hb, Nat.add_zero, Nat.mod_eq_of_lt ha]

theorem bits_low {hi n : Nat} (a b : Nat) (hn : n = a * 2 ^ (hi + 1) + b) (hb : b < 2 ^ (hi + 1)) (hl : n < 2 ^ 32) :
    bits (BitVec.ofNat 32 n) hi 0 = b := by
  unfold bits
  rw [BitVec.toNat_ofNat, Nat.mod_eq_of_lt hl, Nat.shiftRight_zero, Nat.sub_zero, hn, Nat.mul_add_mod', Nat.mod_eq_of_lt hb]

/-! What writes no run's word: such addresses lie above those of the runs. -/

theorem afterRun_high {m : Nat} {alarm : Bool} {w : Word} {q : Nat} {l g : List (Option Ext)} (s : State) :
    regsOutside (0x2000 ≤ ·) s (afterRun m alarm w q l g s) := by
  apply afterRun_regs <;> simp [rBalEvt, aBal, rBbMissed, regsOutside.refl] <;> omega

theorem trapFreeze_high {m c : Nat} (s : State) : regsOutside (0x2000 ≤ ·) s (trapFreeze m c s) := by
  apply trapFreeze_regs <;> simp [rBbEvt, rBbMissed, regsOutside.refl]

theorem endTick_high (s : State) : regsOutside (0x2000 ≤ ·) s (endTick s) := by
  apply endTick_regs <;>
    simp [rGalEvt, rBbMissed, rGalDropped, rBbEvt, rEccEvt, rPerEvt, aTot, rTotEvt, rImgEvt, regsOutside.refl] <;> omega

theorem checkIn_high {i : Nat} (s : State) : regsOutside (0x2000 ≤ ·) s (checkIn i s) := by
  apply checkIn_regs <;> simp [rWdCount, regsOutside.refl]

theorem noteStall_high (s : State) : regsOutside (0x2000 ≤ ·) s (noteStall s) := by
  apply noteStall_regs <;> simp [rArbWait, regsOutside.refl]

theorem slotTrap_high {m cycles : Nat} {trap : Option EngTrap} {s : State} {x : Nat × State}
    (h : slotTrap m cycles trap s = some x) : regsOutside (0x2000 ≤ ·) s x.2 := by
  refine slotTrap_regs ?_ ?_ ?_ ?_ (.refl _ s) h <;> simp [rBbEvt, rBbMissed, rEccEvt]

theorem totalize_high {m n : Nat} {q : (Nat × Nat × Nat) × Bool} {alarm : Bool} (s : State) :
    regsOutside (0x2000 ≤ ·) s (totalize m n q alarm s) := by
  apply totalize_regs <;> simp [rTotEvt, aTot, rBbMissed, regsOutside.refl]; omega

section
variable {m : Nat} {s : State}

/-- Words of a run that neither the totals nor the pulse output write. -/
theorem getReg_pulseOut_totalize {m' n off : Nat} {q q' : Nat × Nat × Nat} {p alarm al : Bool} {f : RunSt → RunSt} (hm : m < 8)
    (ho : off < 0x100) (h6 : off ≠ 0x46) (h7 : off ≠ 0x47) :
    getReg (pulseOut m q al (totalize m n (q', p) alarm (updRun m' f s))).1 (aRun m off) = getReg s (aRun m off) := by
  have out : ¬ (aRun m off = aRun m 70 ∨ aRun m off = aRun m 71) := by unfold aRun; omega
  have low : ¬ 0x2000 ≤ aRun m off := by unfold aRun; omega
  rw [pulseOut_regs (P := fun a => a = aRun m 70 ∨ a = aRun m 71) (.inl rfl) (.inr rfl) (.refl _ _) _ out,
    totalize_high _ _ low, getReg_updRun]

theorem getReg_runStatus_self {w again : Word} (hm : m < 8) : getReg (runStatus m w again s) (rRunStatus m) = w := by
  have out : ¬ (rRunStatus m = rRunEvt m ∨ rRunStatus m = rBbMissed) := by unfold rRunStatus rRunEvt rBbMissed aRun; omega
  unfold runStatus
  rw [raiseEvt_regs (P := fun a => a = rRunEvt m ∨ a = rBbMissed) (.inl rfl) (.inr rfl) (.refl _ _) _ out, getReg_setReg_self]

theorem getReg_runStatus_other {w again : Word} {off : Nat} (hm : m < 8) (ho : off < 0x100) (h0 : off ≠ 0x40)
    (h1 : off ≠ 0x41) : getReg (runStatus m w again s) (aRun m off) = getReg s (aRun m off) := by
  refine runStatus_regs (P := fun a => a = rRunEvt m ∨ a = rBbMissed ∨ a = rRunStatus m) (.inl rfl) (.inr (.inl rfl))
    (.inr (.inr rfl)) (.refl _ _) _ ?_
  unfold rRunStatus rRunEvt rBbMissed aRun
  omega

theorem runStatus_again {w : Word} (hm : m < 8) : bit (getReg (runStatus m w (bitMask 31) s) (rRunEvt m)) 31 = true := by
  have out : rRunEvt m ≠ rBbMissed := by unfold rRunEvt rBbMissed aRun; omega
  unfold runStatus raiseEvt
  rw [getReg_raiseEvtAt_self out, bit_or]
  simp [bit, bitMask]

theorem getReg_runCycles_other {cycles off : Nat} {c : Bool} (h : off ≠ 0x44) :
    getReg (runCycles m cycles c s) (aRun m off) = getReg s (aRun m off) :=
  getReg_modReg_other (by unfold aRun; omega) _ _

theorem bits_runCycles_max {cycles : Nat} {c : Bool} : bits (getReg (runCycles m cycles c s) (aRun m 0x44)) 31 16 =
    max (bits (getReg s (aRun m 0x44)) 31 16) (min cycles 31250) := by
  have h1 := bits_lt (getReg s (aRun m 0x44)) 31 16
  have h2 := bits_lt (getReg s (aRun m 0x44)) 15 0
  unfold runCycles
  rw [getReg_modReg_self]
  refine bits_pack _ (if c then min cycles 31250 else bits (getReg s (aRun m 0x44)) 15 0) rfl ?_ ?_ ?_
  · split <;> omega
  · split <;> omega
  · omega

theorem bits_runCycles_last {cycles : Nat} (hc : cycles ≤ 31250) :
    bits (getReg (runCycles m cycles true s) (aRun m 0x44)) 15 0 = cycles := by
  have h1 := bits_lt (getReg s (aRun m 0x44)) 31 16
  unfold runCycles
  rw [getReg_modReg_self]
  have e : min cycles 31250 = cycles := min_eq_left hc
  refine bits_low (max (bits (getReg s (aRun m 0x44)) 31 16) cycles) _ (by simp [e]) ?_ ?_ <;> simp <;> omega

end

/-! Traps. -/

/-- RUN_STATUS, RUN_EVT, RUN_TRAP, RUN_CYC and the live values of run `m` as a trap with cause `c` leaves them. -/
structure trapWords (m c cycles : Nat) (none : Bool) (s t : State) : Prop where
  status : bit (getReg t (rRunStatus m)) 31 = true ∧ bit (getReg t (rRunStatus m)) 30 = true
  noValue : none = true → bit (getReg t (rRunStatus m)) 29 = true
  event : bit (getReg t (rRunEvt m)) 31 = true
  cause : bits (getReg t (aRun m 0x43)) 31 28 = c
  count : bits (getReg t (aRun m 0x43)) 15 0 = satSucc 0xFFFF (bits (getReg s (aRun m 0x43)) 15 0)
  most : bits (getReg t (aRun m 0x44)) 31 16 = max (bits (getReg s (aRun m 0x44)) 31 16) (min cycles 31250)
  live : ∀ j < 17, getReg t (aRun m (0x49 + j)) = getReg s (aRun m (0x49 + j))

theorem trapWords.congr {m c cycles : Nat} {none : Bool} {s s' t t' : State} (hm : m < 8) (p : trapWords m c cycles none s t)
    (hs : regsOutside (0x2000 ≤ ·) s' s) (ht : regsOutside (0x2000 ≤ ·) t t') : trapWords m c cycles none s' t' := by
  have low {off : Nat} (ho : off < 0x100) : ¬ 0x2000 ≤ aRun m off := by unfold aRun; omega
  have es : ∀ off < 0x100, getReg s (aRun m off) = getReg s' (aRun m off) := fun off ho => hs _ (low ho)
  have et : ∀ off < 0x100, getReg t' (aRun m off) = getReg t (aRun m off) := fun off ho => ht _ (low ho)
  have e0 := et 0x40 (by omega)
  have e1 := et 0x41 (by omega)
  constructor
  · rw [rRunStatus, e0]; exact p.status
  · rw [rRunStatus, e0]; exact p.noValue
  · rw [rRunEvt, e1]; exact p.event
  · rw [et _ (by omega)]; exact p.cause
  · rw [et _ (by omega), ← es _ (by omega)]; exact p.count
  · rw [et _ (by omega), ← es _ (by omega)]; exact p.most
  · intro j hj
    rw [et _ (by omega), ← es _ (by omega)]; exact p.live j hj

theorem trapBooked_words {m c : Nat} (cycles : Nat) (s : State) (hm : m < 8) (hc : c < 16) :
    trapWords m c cycles (getRun s m).car.inc.isNone s (trapBooked m c cycles s) := by
  unfold trapBooked
  extract_lets inc q t p w
  have keep {off : Nat} (ho : off < 0x100) (h6 : off ≠ 0x46) (h7 : off ≠ 0x47) : getReg p.1 (aRun m off) = getReg s (aRun m off) :=
    getReg_pulseOut_totalize hm ho h6 h7
  generalize hu : runStatus m w (bitMask 31) p.1 = u
  have ku {off : Nat} (ho : off < 0x100) (h0 : off ≠ 0x40) (h1 : off ≠ 0x41) (h6 : off ≠ 0x46) (h7 : off ≠ 0x47) :
      getReg u (aRun m off) = getReg s (aRun m off) := by
    rw [← hu, getReg_runStatus_other hm ho h0 h1, keep ho h6 h7]
  generalize hv : runCycles m cycles false u = v
  have kv {off : Nat} (h4 : off ≠ 0x44) : getReg v (aRun m off) = getReg u (aRun m off) := by
    rw [← hv, getReg_runCycles_other h4]
  have other {off : Nat} (h3 : off ≠ 0x43) (f : Word → Word) : getReg (modReg (aRun m 0x43) f v) (aRun m off) = getReg v (aRun m off) :=
    getReg_modReg_other (by unfold aRun; omega) _ _
  have status (f : Word → Word) : getReg (modReg (aRun m 0x43) f v) (rRunStatus m) = w := by
    rw [rRunStatus, other (by omega), kv (by omega), ← hu]
    exact getReg_runStatus_self hm
  have cnt : satSucc 0xFFFF (bits (getReg s (aRun m 0x43)) 15 0) < 2 ^ 16 := by unfold satSucc; split <;> omega
  constructor
  · rw [status]
    simp only [w, bit_or, bit_fl_self (show 31 < 32 by omega), bit_fl_self (show 30 < 32 by omega), Bool.or_true, Bool.true_or,
      and_self]
  · intro hn
    rw [status]
    simp only [w, bit_or, bit_fl_self (show 29 < 32 by omega), inc, hn, Bool.or_true, Bool.true_or]
  · rw [rRunEvt, other (by omega), kv (by omega), ← hu]
    exact runStatus_again hm
  · rw [getReg_modReg_self, kv (by omega), ku (by omega) (by omega) (by omega) (by omega) (by omega)]
    exact bits_pack _ _ rfl (by omega) (by omega) (by omega)
  · rw [getReg_modReg_self, kv (by omega), ku (by omega) (by omega) (by omega) (by omega) (by omega)]
    exact bits_low (c * 2 ^ 12) _ (by omega) cnt (by omega)
  · rw [other (by omega), ← hv, bits_runCycles_max, ku (by omega) (by omega) (by omega) (by omega) (by omega)]
  · intro j hj
    rw [other (by omega), kv (by omega), ku (by omega) (by omega) (by omega) (by omega) (by omega)]

/-! A completed tick. -/

theorem forN_succ (n : Nat) (f : Nat → State → State) (s : State) : forN (n + 1) f s = f n (forN n f s) := by
  simp [forN, List.range_succ, List.foldl_append]

theorem getReg_setRegs {a b : Nat} {w : Nat → Word} {s : State} (n : Nat) :
    getReg (forN n (fun j u => setReg (a + j) (w j) u) s) b = if a ≤ b ∧ b < a + n then w (b - a) else getReg s b := by
  induction n with
  | zero => rw [if_neg (by omega)]; rfl
  | succ n ih =>
    rw [forN_succ]
    by_cases e : b = a + n
    · subst e
      rw [getReg_setReg_self, if_pos (by omega), Nat.add_sub_cancel_left]
    · rw [getReg_setReg_other e, ih]
      exact if_congr (by omega) rfl rfl

/-- RUN_STATUS, RUN_TICK, the live values and the cycles of run `m` as a completed tick leaves them. -/
structure completeWords (m n cycles : Nat) (o : RunOut) (f i : Option (Nat × Bool)) (t : State) : Prop where
  status : ∃ p, getReg t (rRunStatus m) =
    o.flags ||| fl 30 (o.alarm || (quants o.inc).2) ||| fl 10 p ||| fl 9 (f.any (·.2)) ||| fl 8 (i.any (·.2))
  tick : getReg t (aRun m 0x48) = BitVec.ofNat 32 n
  live : ∀ j < 17, getReg t (aRun m (0x49 + j)) = x32 (o.live.getD j 0)
  last : bits (getReg t (aRun m 0x44)) 15 0 = cycles

theorem completeWords.congr {m n cycles : Nat} {o : RunOut} {f i : Option (Nat × Bool)} {t t' : State} (hm : m < 8)
    (p : completeWords m n cycles o f i t) (ht : regsOutside (0x2000 ≤ ·) t t') : completeWords m n cycles o f i t' := by
  have et : ∀ off < 0x100, getReg t' (aRun m off) = getReg t (aRun m off) := fun off ho => ht _ (by unfold aRun; omega)
  have e0 := et 0x40 (by omega)
  constructor
  · rw [rRunStatus, e0]; exact p.status
  · rw [et _ (by omega)]; exact p.tick
  · intro j hj
    rw [et _ (by omega)]; exact p.live j hj
  · rw [et _ (by omega)]; exact p.last

theorem completeBooked_words {m cycles : Nat} {o : RunOut} {f i : Option (Nat × Bool)} (s : State) (hm : m < 8)
    (hc : cycles ≤ 31250) : completeWords m s.eng.set.tick cycles o f i (completeBooked m cycles o f i s) := by
  unfold completeBooked
  extract_lets q src t p w t2
  have put {off : Nat} : getReg (forN 17 (fun j u => setReg (aRun m (0x49 + j)) (x32 (o.live.getD j 0)) u) t2) (aRun m off) =
      if 0x49 ≤ off ∧ off < 0x49 + 17 then x32 (o.live.getD (off - 0x49) 0) else getReg t2 (aRun m off) := by
    have e := getReg_setRegs (a := aRun m 0x49) (b := aRun m off) (w := fun j => x32 (o.live.getD j 0)) (s := t2) 17
    have k (j : Nat) : aRun m 0x49 + j = aRun m (0x49 + j) := by unfold aRun; omega
    have d : aRun m off - aRun m 0x49 = off - 0x49 := by unfold aRun; omega
    simp only [k, d] at e
    rw [e]
    exact if_congr (by unfold aRun; omega) rfl rfl
  have kept {off : Nat} (h4 : off ≠ 0x44) (h8 : off ≠ 0x48) : getReg t2 (aRun m off) = getReg (runStatus m w 0 p.1) (aRun m off) := by
    simp only [t2]
    rw [getReg_runCycles_other h4, getReg_setReg_other (by unfold aRun; omega)]
  constructor
  · refine ⟨p.2, ?_⟩
    rw [rRunStatus, put, if_neg (by omega), kept (by omega) (by omega)]
    exact getReg_runStatus_self hm
  · rw [put, if_neg (by omega)]
    simp only [t2]
    rw [getReg_runCycles_other (by omega), getReg_setReg_self]
  · intro j hj
    rw [put, if_pos (by omega), Nat.add_sub_cancel_left]
  · rw [put, if_neg (by omega)]
    exact bits_runCycles_last hc

end Sys2Proof.Machine

namespace Sys2Proof.Machine

/-! A slot of the engine: the run's computation, the end of the slot, and the answers of RUN_SLOT and SLOT_OVERRUN (R18, R20,
R201, R202, R211). -/

section
variable {m c cycles : Nat} {trap : Option EngTrap} {s t u v : State}

/-! A run that traps. -/

/-- From `s` to `t` run `m` trapped with cause `c`. -/
structure trapMade (m c cycles : Nat) (s t : State) : Prop where
  run : ∃ d a b, runMade m (trappedRun m s.eng.set.tick d a b (getRun s m)) s t
  words : trapWords m c cycles (getRun s m).car.inc.isNone s t
  frozen : s.eng.armed = true → t.bb.frozen = true
  hdr : s.eng.armed = true → s.bb.frozen = false → c ≠ 3 → t.bb.hdr.cause = 4 ∧ t.bb.hdr.trap = m * 32 + c
  eng : t.eng = { s.eng with armed := false, tickTrap := true }

theorem trapBooked_eng : (trapBooked m c cycles s).eng = s.eng := by
  unfold trapBooked
  extract_lets inc q t p w
  have e : changesOnly [.mem, .runs, .regs, .bb] s p.1 :=
    pulseOut_changes rfl (totalize_changes rfl (updRun_changes rfl (.refl _ s)))
  have e2 : changesOnly [.mem, .runs, .regs, .bb] s (runCycles m cycles false (runStatus m w (bitMask 31) p.1)) :=
    runCycles_changes rfl (runStatus_changes rfl e)
  exact modReg_changes rfl e2 .eng (by decide)

/-- Run `m` traps in a state `u` that holds what the trap found. -/
theorem trapRun_made (k : changesOnly [.regs, .bb, .mem] s u) (p : upkeep s u) (hr : regsOutside (0x2000 ≤ ·) s u)
    (h3 : c ≠ 3 → u = s) (hm : m < 8) (hc : c < 16) : trapMade m c cycles s (trapRun m c cycles u) := by
  have run : getRun u m = getRun s m := by unfold getRun; rw [show u.runs = s.runs from k .runs (by decide)]
  have eng : u.eng = s.eng := k .eng (by decide)
  obtain ⟨d, a, b, step⟩ := trapBooked_step m c cycles u
  obtain ⟨w, q, l, e⟩ := trapRun_eq m c cycles u
  have words := trapBooked_words (c := c) cycles u hm hc
  have booked : (trapBooked m c cycles u).eng = u.eng := trapBooked_eng
  rw [e]
  generalize hx : trapBooked m c cycles u = x at step words booked
  have after : upkeep (trapFreeze m c x) (afterRun m true w q l l (trapFreeze m c x)) := afterRun_upkeep (.refl _)
  refine ⟨⟨d, a, b, ?_⟩, ?_, fun ha => ?_, fun ha hb h => ?_, ?_⟩
  · have made := (step.upkept (trapFreeze_upkeep m c x)).upkept after
    rw [run, eng] at made
    exact ⟨p.bytes.trans made.bytes, made.self, fun j hj => (made.others j hj).trans (p.runs j)⟩
  · rw [run] at words
    exact words.congr hm hr ((trapFreeze_high x).trans (afterRun_high _))
  · have hf := trapFreeze_frozen (m := m) (c := c) (show x.eng.armed = true by rw [booked, eng]; exact ha)
    rw [after.bb hf]
    exact hf
  · have armed : x.eng.armed = true := by rw [booked, eng]; exact ha
    have fz : x.bb.frozen = false := by rw [step.frozen, h3 h]; exact hb
    rw [after.bb (trapFreeze_frozen armed)]
    exact trapFreeze_hdr armed fz
  · rw [show (afterRun m true w q l l (trapFreeze m c x)).eng = (trapFreeze m c x).eng from
      afterRun_changes (F := [.bal, .regs, .bb, .gal, .runs]) rfl (.refl _ _) .eng (by decide), trapFreeze_eng, booked, eng]

theorem slotTrap_found {x : Nat × State} (h : slotTrap m cycles trap s = some x) :
    upkeep s x.2 ∧ (x.1 ≠ 3 → x.2 = s) ∧ x.1 < 16 := by
  have plain {c : Nat} (hc : c < 16) : upkeep s (c, s).2 ∧ ((c, s).1 ≠ 3 → (c, s).2 = s) ∧ (c, s).1 < 16 :=
    ⟨.refl s, fun _ => rfl, hc⟩
  have ecc {u : State} (p : upkeep s u) : upkeep s (3, u).2 ∧ ((3, u).1 ≠ 3 → (3, u).2 = s) ∧ (3, u).1 < 16 :=
    ⟨p, fun h => absurd rfl h, by show 3 < 16; decide⟩
  unfold slotTrap at h
  split at h
  · cases h; exact ecc (eccFound_upkeep (.refl s))
  · cases h; exact ecc (eccMark_upkeep (eccFound_upkeep (.refl s)))
  · cases h; exact plain (by decide)
  · cases h; exact plain (by decide)
  · split at h
    · cases h; exact plain (by decide)
    · cases h

/-! A run's computation in its slot. -/

theorem slotRun_off (h : ¬ (runEn s m = true ∧ (getRun s m).reconciled = true)) : slotRun m cycles trap s = s := by
  unfold slotRun
  rw [if_pos]
  cases e : runEn s m <;> simp_all

theorem slotRun_on (h : runEn s m = true ∧ (getRun s m).reconciled = true) :
    ¬ (!runEn s m || !(getRun s m).reconciled) = true := by simp [h]

/-- The cycles of a trap count up to a slot's length. -/
theorem trapMade.capped (p : trapMade m c (min cycles 31250) s t) : trapMade m c cycles s t := by
  obtain ⟨run, words, frozen, hdr, eng⟩ := p
  obtain ⟨status, noValue, event, cause, count, most, live⟩ := words
  exact ⟨run, ⟨status, noValue, event, cause, count, by rw [most, min_assoc, min_self], live⟩, frozen, hdr, eng⟩

theorem slotRun_trap {x : Nat × State} (h : runEn s m = true ∧ (getRun s m).reconciled = true) (hm : m < 8)
    (hx : slotTrap m cycles trap s = some x) : trapMade m x.1 cycles s (slotRun m cycles trap s) := by
  obtain ⟨p, h3, hc⟩ := slotTrap_found hx
  unfold slotRun
  rw [if_neg (slotRun_on h), hx]
  exact (trapRun_made (slotTrap_changes rfl (.refl _ s) hx) p (slotTrap_high hx) h3 hm hc).capped

theorem slotRun_unsound (h : runEn s m = true ∧ (getRun s m).reconciled = true) (hm : m < 8)
    (hx : slotTrap m cycles trap s = none) (ho : outputsOf s m (compute s m) = none ∨ soundOut (compute s m) = false) :
    trapMade m 2 cycles s (slotRun m cycles trap s) := by
  have made : trapMade m 2 cycles s (trapRun m 2 cycles s) :=
    trapRun_made (.refl _ s) (.refl s) (.refl _ s) (fun _ => rfl) hm (by omega)
  have e : slotRun m cycles trap s = trapRun m 2 cycles s := by
    unfold slotRun
    rw [if_neg (slotRun_on h), hx]
    dsimp only
    split
    next fi hfi => rw [if_neg (by simpa [hfi] using ho)]
    · rfl
  rw [e]
  exact made

/-- From `s` to `t` run `m` completed its tick. -/
structure completeMade (m cycles : Nat) (o : RunOut) (f i : Option (Nat × Bool)) (s t : State) : Prop where
  run : ∃ a b, runMade m (completedRun m s.eng.set.tick o (f.map (·.1)) (i.map (·.1)) (recorded s m (i.map (·.1))) a b
    (getRun s m)) s t
  words : completeWords m s.eng.set.tick cycles o f i t
  eng : t.eng = s.eng

theorem slotRun_complete {f : Option (Nat × Bool) × Option (Nat × Bool)} (h : runEn s m = true ∧ (getRun s m).reconciled = true)
    (hm : m < 8) (hx : slotTrap m cycles trap s = none) (ho : outputsOf s m (compute s m) = some f)
    (hs : soundOut (compute s m) = true) :
    completeMade m cycles (compute s m) f.1 f.2 s (slotRun m cycles trap s) := by
  have hc : cycles ≤ 31250 := by
    unfold slotTrap at hx
    split at hx <;> simp at hx
    exact hx
  have e : slotRun m cycles trap s = completeRun m cycles (compute s m) f.1 f.2 s := by
    unfold slotRun
    rw [if_neg (slotRun_on h), hx]
    dsimp only
    rw [ho]
    exact if_pos hs
  obtain ⟨w, q, l, ec⟩ := completeRun_eq m cycles (compute s m) f.1 f.2 s
  obtain ⟨a, b, step⟩ := completeBooked_step m cycles (compute s m) f.1 f.2 s
  rw [e]
  refine ⟨⟨a, b, ?_⟩, ?_, completeRun_changes (F := [.runs, .regs, .mem, .bb, .bal, .gal]) rfl (.refl _ s) .eng (by decide)⟩
  · rw [ec]
    exact step.upkept (afterRun_upkeep (.refl _))
  · rw [ec]
    exact (completeBooked_words s hm hc).congr hm (afterRun_high _)

/-- What a run's slot leaves of the rest: the bytes of memory, the tick set and the COMMIT that waits, the other runs. -/
structure slotKept (m : Nat) (s t : State) : Prop where
  bytes : sameBytes s t
  eng : t.eng.set = s.eng.set ∧ t.eng.late = s.eng.late
  others : ∀ k, k ≠ m → runCore (getRun t k) = runCore (getRun s k)

theorem trapMade.kept (p : trapMade m c cycles s t) : slotKept m s t := by
  obtain ⟨⟨d, a, b, run⟩, -, -, -, eng⟩ := p
  exact ⟨run.bytes, by rw [eng]; exact ⟨rfl, rfl⟩, run.others⟩

theorem completeMade.kept {o : RunOut} {f i : Option (Nat × Bool)} (p : completeMade m cycles o f i s t) : slotKept m s t := by
  obtain ⟨⟨a, b, run⟩, -, eng⟩ := p
  exact ⟨run.bytes, by rw [eng]; exact ⟨rfl, rfl⟩, run.others⟩

theorem slotRun_kept (cycles : Nat) (trap : Option EngTrap) (s : State) (hm : m < 8) :
    slotKept m s (slotRun m cycles trap s) := by
  by_cases h : runEn s m = true ∧ (getRun s m).reconciled = true
  · cases hx : slotTrap m cycles trap s with
    | some x => exact (slotRun_trap h hm hx).kept
    | none =>
      cases ho : outputsOf s m (compute s m) with
      | none => exact (slotRun_unsound h hm hx (.inl ho)).kept
      | some f =>
        cases hs : soundOut (compute s m) with
        | false => exact (slotRun_unsound h hm hx (.inr hs)).kept
        | true => exact (slotRun_complete h hm hx ho hs).kept
  · rw [slotRun_off h]
    exact ⟨.refl s, ⟨rfl, rfl⟩, fun _ _ => rfl⟩

/-! The end of the slot. -/

/-- The slot of run `m` ends after its computation. -/
def slotClose (m : Nat) (s : State) : State :=
  let t := noteStall s
  let t := { t with eng := { t.eng with slot := m + 1 } }
  if m = 7 then endTick (checkIn 9 t) else t

/-- The state in which run `m` computes. -/
def slotStart (m : Nat) (s : State) : State := moveTo (s.eng.start + (m + 1) * 125000) s

theorem slotEnd_due (h : slotDue m s = true) :
    slotEnd m cycles trap s = slotClose m (slotRun m cycles trap (slotStart m s)) := by
  unfold slotEnd
  rw [if_neg]
  · rfl
  · simp only [slotDue, Bool.and_eq_true, beq_iff_eq, Option.isNone_iff_eq_none] at h
    simp [h]

theorem endTick_eng (s : State) : (endTick s).eng =
    { s.eng with doneTick := s.eng.set.tick, armed := s.eng.armed || !s.eng.tickTrap, tickTrap := false } := by
  unfold endTick
  extract_lets n t1 t2 t3 t4
  have k : changesOnly [.gal, .nv, .jnl, .mem, .regs, .bb, .runs, .per, .img] s t4 :=
    jobsLost_changes rfl (galBlocks_changes rfl (periodEnd_changes rfl (ckptTick_changes rfl (galIntervals_changes rfl (.refl _ s)))))
  have e : t4.eng = s.eng := k .eng (by decide)
  show { t4.eng with doneTick := n, armed := t4.eng.armed || !t4.eng.tickTrap, tickTrap := false } = _
  rw [e]

/-- From `s` to `t` the slot of run `m` closed. -/
structure slotClosed (m : Nat) (s t : State) : Prop where
  kept : upkeep s t
  regs : regsOutside (0x2000 ≤ ·) s t
  slot : t.eng.slot = m + 1
  late : t.eng.late = s.eng.late
  armed : t.eng.armed = if m = 7 then s.eng.armed || !s.eng.tickTrap else s.eng.armed
  done : m = 7 → t.eng.doneTick = s.eng.set.tick

theorem slotClose_closed (m : Nat) (s : State) : slotClosed m s (slotClose m s) := by
  unfold slotClose
  extract_lets t1 src t2
  have eng : t2.eng = { s.eng with slot := m + 1 } := by
    simp only [t2]
    rw [show src = s.eng from noteStall_changes (F := [.free, .regs]) rfl (.refl _ s) .eng (by decide)]
  have up : upkeep s t2 := (noteStall_upkeep (.refl s)).skip (F := [.eng]) (changesOnly.set_eng rfl (.refl _ _)) (by decide)
  have regs : regsOutside (0x2000 ≤ ·) s t2 := noteStall_high s
  by_cases h : m = 7
  · rw [if_pos h]
    have ce : (checkIn 9 t2).eng = t2.eng := checkIn_changes (F := [.regs, .wd, .img]) rfl (.refl _ t2) .eng (by decide)
    refine ⟨endTick_upkeep (checkIn_upkeep up), regs.trans ((checkIn_high t2).trans (endTick_high _)), ?_, ?_, ?_, fun _ => ?_⟩ <;>
      simp [endTick_eng, ce, eng, h]
  · rw [if_neg h]
    exact ⟨up, regs, by rw [eng], by rw [eng], by rw [eng, if_neg h], fun e => absurd e h⟩

theorem slotStart_eq (m : Nat) (s : State) : ∃ tm, slotStart m s = { s with time := tm } := moveTo_eq _ s

theorem now_slotStart (m : Nat) (s : State) :
    (slotStart m s).time.now = max s.time.now (s.eng.start + (m + 1) * 125000) := now_moveTo _ s

/-! The standby's words of the tick before a COMMIT. -/

/-- The words that the tick computed has in effect (R20, R182). -/
def lateWords (s : State) : State :=
  match s.eng.late with
  | some l => putWords l.old s
  | none => s

theorem lateWords_plain (h : s.eng.late = none) : lateWords s = s := by
  unfold lateWords
  rw [h]

theorem lateWords_regs (s : State) : changesOnly [.regs] s (lateWords s) := by
  unfold lateWords
  split
  · exact putWords_changes rfl (.refl _ s)
  · exact .refl _ s

theorem lateRuns_plain (h : s.eng.late = none) : lateRuns s = s := by
  unfold lateRuns
  rw [h]

theorem lateRuns_eng (s : State) : (lateRuns s).eng = { s.eng with late := none } := by
  unfold lateRuns
  split
  · rfl
  next h => rw [← h]

/-- From the end of run `m`'s computation in `s` to the answer `t`, `late` that a COMMIT waited. -/
structure slotAnswered (m : Nat) (late : Option LateCommit) (s t : State) : Prop where
  bytes : sameBytes s t
  runs : late = none ∨ m ≠ 7 → ∀ k, runCore (getRun t k) = runCore (getRun s k)
  regs : late = none → regsOutside (0x2000 ≤ ·) s t
  bb : late = none → s.bb.frozen = true → t.bb.frozen = true ∧ t.bb.hdr = s.bb.hdr
  slot : t.eng.slot = m + 1
  armed : t.eng.armed = if m = 7 then s.eng.armed || !s.eng.tickTrap else s.eng.armed
  done : m = 7 → t.eng.doneTick = s.eng.set.tick ∧ t.eng.late = none
  time : t.time = s.time
  aud : late = none → t.aud = s.aud

theorem slotClose_changes (m : Nat) (s : State) :
    changesOnly [.free, .regs, .eng, .wd, .img, .gal, .nv, .jnl, .mem, .bb, .runs, .per] s (slotClose m s) := by
  unfold slotClose
  extract_lets t1 src t2
  have k : changesOnly [.free, .regs, .eng, .wd, .img, .gal, .nv, .jnl, .mem, .bb, .runs, .per] s t2 :=
    changesOnly.set_eng rfl (noteStall_changes rfl (.refl _ s))
  exact changesOnly.ite (endTick_changes rfl (checkIn_changes rfl k)) k

theorem slotDone_eq (h : slotDue m s = true) :
    ∃ t, slotDone m cycles trap s = handoverSend (if t.eng.slot = 8 then lateRuns t else t) ∧
      changesOnly [.regs] (slotClose m (slotRun m cycles trap (slotStart m (lateWords s)))) t ∧
      (s.eng.late = none → t = slotClose m (slotRun m cycles trap (slotStart m (lateWords s)))) := by
  unfold slotDone
  have due : slotDue m (lateWords s) = true := by
    have k := lateWords_regs s
    unfold slotDue
    rw [show (lateWords s).eng = s.eng from k .eng (by decide), show (lateWords s).clk = s.clk from k .clk (by decide)]
    exact h
  rw [← slotEnd_due due]
  unfold lateWords
  cases hl : s.eng.late with
  | none => exact ⟨_, rfl, .refl _ _, fun _ => rfl⟩
  | some l => exact ⟨_, rfl, backWords_changes rfl (.refl _ _), fun e => nomatch e⟩

theorem bb_settle (s : State) : (settle s).bb.frozen = s.bb.frozen ∧ (settle s).bb.hdr = s.bb.hdr := by
  unfold settle trimEvents
  split <;> exact ⟨rfl, rfl⟩

theorem slotDone_answered (cycles : Nat) (trap : Option EngTrap) (h : slotDue m s = true) (hm : m < 8) :
    slotAnswered m s.eng.late (slotRun m cycles trap (slotStart m (lateWords s))) (settle (slotDone m cycles trap s)) := by
  obtain ⟨t, e, back, plain⟩ := slotDone_eq (cycles := cycles) (trap := trap) h
  have late : (slotRun m cycles trap (slotStart m (lateWords s))).eng.late = s.eng.late := by
    obtain ⟨tm, es⟩ := slotStart_eq m (lateWords s)
    rw [(slotRun_kept cycles trap _ hm).eng.2, es]
    exact congrArg EngSt.late (lateWords_regs s .eng (by decide))
  generalize slotRun m cycles trap (slotStart m (lateWords s)) = v at back plain late
  obtain ⟨kept, regs, slot, hlate, armed, ended⟩ := slotClose_closed m v
  have eng : t.eng = (slotClose m v).eng := back .eng (by decide)
  -- After the tick's last slot a waiting COMMIT reaches the runs; the handover's frames change nothing of these parts.
  generalize hw : (if t.eng.slot = 8 then lateRuns t else t) = w at e
  have sent : changesOnly [.tx, .pair] w (handoverSend w) := handoverSend_changes rfl (.refl _ w)
  have time : w.time = v.time := by
    have kt : t.time = v.time := (back .time (by decide)).trans (slotClose_changes m v .time (by decide))
    rw [← hw]
    split
    · exact (lateRuns_changes (F := [.runs, .regs, .bb, .mem, .aud, .eng]) rfl (.refl _ t) .time (by decide)).trans kt
    · exact kt
  have bytes : sameBytes v w := by
    have b : sameBytes v t := kept.bytes.skip back (by decide)
    rw [← hw]
    exact .ite (lateRuns_bytes b) b
  have weng : w.eng = { t.eng with late := if m = 7 then none else t.eng.late } := by
    rw [← hw, eng, slot]
    by_cases h7 : m = 7
    · rw [if_pos (by omega), if_pos h7, lateRuns_eng, eng]
    · rw [if_neg (by omega), if_neg h7, eng]
  have same : s.eng.late = none ∨ m ≠ 7 → w = t := by
    intro hp
    rw [← hw, eng, slot]
    by_cases h7 : m = 7
    · rw [if_pos (by omega), lateRuns_plain]
      rw [eng, hlate, late]
      exact hp.resolve_right (not_not_intro h7)
    · rw [if_neg (by omega)]
  have first (hp : s.eng.late = none) : w = slotClose m v := (same (.inl hp)).trans (plain hp)
  rw [e]
  have heng : (settle (handoverSend w)).eng = w.eng := (eng_settle _).trans (sent .eng (by decide))
  constructor
  · exact (bytes.skip sent (by decide)).skip (F := [.bb, .pins]) (settle_changes rfl (.refl _ _)) (by decide)
  · intro hp k
    have runs : (handoverSend w).runs = (slotClose m v).runs := by
      rw [show (handoverSend w).runs = w.runs from sent .runs (by decide), same hp]
      exact back .runs (by decide)
    rw [getRun_settle, show getRun (handoverSend w) k = getRun (slotClose m v) k by unfold getRun; rw [runs]]
    exact kept.runs k
  · intro hp
    refine settle_regsOutside (handoverSend_regs ?_)
    rw [first hp]
    exact regs
  · intro hp hf
    obtain ⟨f, d⟩ := bb_settle (handoverSend w)
    rw [f, d, show (handoverSend w).bb = w.bb from sent .bb (by decide), first hp, kept.bb hf]
    exact ⟨hf, rfl⟩
  · rw [heng, weng]; exact eng ▸ slot
  · rw [heng, weng]; exact eng ▸ armed
  · intro h7
    rw [heng, weng, if_pos h7]
    exact ⟨eng ▸ ended h7, rfl⟩
  · rw [time_settle, show (handoverSend w).time = w.time from sent .time (by decide), time]
  · intro hp
    rw [aud_settle, show (handoverSend w).aud = w.aud from sent .aud (by decide), first hp]
    exact slotClose_changes m v .aud (by decide)

end

end Sys2Proof.Machine

namespace Sys2Proof.Machine

/-! RUN_SLOT and SLOT_OVERRUN of the slot that goes on (R18, R20, R201, R202, R211). -/

section
variable {m c cycles : Nat} {trap : Option EngTrap} {s t v : State}

/-- The state in which run `m`'s slot computes: the words of its tick, at the end of the slot. -/
def slotNow (m : Nat) (s : State) : State := slotStart m (lateWords s)

theorem slotNow_changes (m : Nat) (s : State) : changesOnly [.regs, .time] s (slotNow m s) :=
  moveTo_changes rfl ((lateWords_regs s).mono rfl)

theorem slotNow_run (m k : Nat) (s : State) : getRun (slotNow m s) k = getRun s k := by
  unfold getRun
  rw [show (slotNow m s).runs = s.runs from slotNow_changes m s .runs (by decide)]

theorem slotNow_eng (m : Nat) (s : State) : (slotNow m s).eng = s.eng := slotNow_changes m s .eng (by decide)

theorem slotNow_runEn (m k : Nat) (s : State) : runEn (slotNow m s) k = runEn (lateWords s) k := by
  obtain ⟨tm, e⟩ := slotStart_eq m (lateWords s)
  unfold slotNow
  rw [e]
  rfl

/-- The words of a run as the slot of a tick without a waiting COMMIT finds them. -/
theorem slotNow_regs (h : s.eng.late = none) : regsOutside (0x2000 ≤ ·) s (slotNow m s) := by
  obtain ⟨tm, e⟩ := slotStart_eq m (lateWords s)
  unfold slotNow
  rw [e, lateWords_plain h]
  exact fun _ _ => rfl

/-- What every end of run `m`'s slot leaves. -/
def slotEnds (m : Nat) (s t : State) : Prop :=
  t.time.now = max s.time.now (s.eng.start + (m + 1) * 125000) ∧ t.eng.slot = m + 1 ∧
    (s.eng.late = none ∨ m ≠ 7 → ∀ k, k ≠ m → (getRun t k).accs = (getRun s k).accs ∧ (getRun t k).live = (getRun s k).live) ∧
    (m = 7 → t.eng.doneTick = s.eng.set.tick ∧ t.eng.late = none) ∧ (s.eng.late = none → t.aud = s.aud) ∧
    framed [.time, .regs, .eng, .runs, .per, .bal, .aud, .gal, .bb, .jnl, .img, .nv, .mem, .wd, .pair, .tx, .free] s t ∧
    t.mem = { s.mem with bad := t.mem.bad }

/-- The state that RUN_SLOT answers. -/
def slotNext (m cycles : Nat) (trap : Option EngTrap) (s : State) : State := settle (slotDone m cycles trap s)

/-- Run `m`'s computation of its slot. -/
def slotMade (m cycles : Nat) (trap : Option EngTrap) (s : State) : State := slotRun m cycles trap (slotNow m s)

theorem slotNext_answered (cycles : Nat) (trap : Option EngTrap) (h : slotDue m s = true) (hm : m < 8) :
    slotAnswered m s.eng.late (slotMade m cycles trap s) (slotNext m cycles trap s) := slotDone_answered cycles trap h hm

theorem slotNext_ends (cycles : Nat) (trap : Option EngTrap) (hs : Inv s) (h : slotDue m s = true) (hm : m < 8) :
    slotEnds m s (slotNext m cycles trap s) := by
  obtain ⟨bytes, runs, -, -, slot, -, ended, time, aud⟩ := slotNext_answered cycles trap h hm
  have kept : slotKept m (slotNow m s) (slotMade m cycles trap s) := slotRun_kept cycles trap _ hm
  have part : changesOnly [.regs, .bb, .mem, .runs, .bal, .gal, .eng] (slotNow m s) (slotMade m cycles trap s) :=
    slotRun_changes rfl (.refl _ _)
  refine ⟨?_, slot, fun hp k hk => ?_, fun h7 => ?_, fun hp => ?_, framed_settle hs (slotDone_changes rfl (.refl _ s)) (by decide), ?_⟩
  · rw [time, show (slotMade m cycles trap s).time = (slotNow m s).time from part .time (by decide), slotNow, now_slotStart]
    have k := lateWords_regs s
    rw [show (lateWords s).time = s.time from k .time (by decide), show (lateWords s).eng = s.eng from k .eng (by decide)]
  · have e := (runs hp k).trans (kept.others k hk)
    rw [slotNow_run] at e
    have accs := congrArg RunSt.accs e
    have live := congrArg RunSt.live e
    exact ⟨accs, live⟩
  · obtain ⟨e, l⟩ := ended h7
    exact ⟨by rw [e, kept.eng.1, slotNow_eng], l⟩
  · rw [aud hp, show (slotMade m cycles trap s).aud = (slotNow m s).aud from part .aud (by decide)]
    exact slotNow_changes m s .aud (by decide)
  · have e : (slotNow m s).mem = s.mem := slotNow_changes m s .mem (by decide)
    have b := kept.bytes.trans bytes
    unfold sameBytes at b
    rw [e] at b
    exact b

/-- Run `m`'s totals of tick `n`. -/
def slotTotals (m : Nat) (i : Nat × Nat × Nat) (al : Bool) (s t : State) : Prop := s.eng.late = none ∨ m ≠ 7 →
  (getRun t m).accs = accsAdd (getRun s m).accs i al ∧ (getRun t m).tick = some s.eng.set.tick ∧
  (getRun t m).live = totBytes m 2 { tick := s.eng.set.tick, accs := accsAdd (getRun s m).accs i al }

/-- What a trap with cause `c` leaves of run `m`. -/
def slotTrapped (m c cyc : Nat) (s t : State) : Prop :=
  slotTotals m (quants ((getRun s m).car.inc.getD (0, 0, 0))).1 true s t ∧ t.eng.armed = false ∧
    (s.eng.late = none ∨ m ≠ 7 → (getRun t m).fout = (getRun s m).fout ∧ (getRun t m).iout = (getRun s m).iout) ∧
    (s.eng.late = none → bit (getReg t (rRunStatus m)) 31 = true ∧ bit (getReg t (rRunStatus m)) 30 = true ∧
      ((getRun s m).car.inc = none → bit (getReg t (rRunStatus m)) 29 = true) ∧ bit (getReg t (rRunEvt m)) 31 = true ∧
      bits (getReg t (aRun m 0x43)) 31 28 = c ∧
      bits (getReg t (aRun m 0x43)) 15 0 = satSucc 0xFFFF (bits (getReg s (aRun m 0x43)) 15 0) ∧
      bits (getReg t (aRun m 0x44)) 31 16 = max (bits (getReg s (aRun m 0x44)) 31 16) (min cyc 31250) ∧
      (∀ j < 17, getReg t (aRun m (0x49 + j)) = getReg s (aRun m (0x49 + j))) ∧
      (s.eng.armed = true → t.bb.frozen = true) ∧
      (s.eng.armed = true → s.bb.frozen = false → c ≠ 3 →
        t.bb.frozen = true ∧ t.bb.hdr.cause = 4 ∧ t.bb.hdr.trap = m * 32 + c))

theorem slotNext_trapped (h : slotDue m s = true) (hm : m < 8)
    (p : trapMade m c cycles (slotNow m s) (slotMade m cycles trap s)) : slotTrapped m c cycles s (slotNext m cycles trap s) := by
  obtain ⟨-, runs, regs, bb, -, armed, -, -, -⟩ := slotNext_answered cycles trap h hm
  obtain ⟨⟨d, a, b, made⟩, words, frozen, hdr, eng⟩ := p
  rw [slotNow_run, slotNow_eng] at made
  rw [slotNow_run] at words
  have core (hp : s.eng.late = none ∨ m ≠ 7) : _ := (runs hp m).trans made.self
  refine ⟨fun hp => ?_, ?_, fun hp => ?_, fun hp => ?_⟩
  · have accs := congrArg RunSt.accs (core hp)
    have tick := congrArg RunSt.tick (core hp)
    have live := congrArg RunSt.live (core hp)
    exact ⟨accs, tick, live⟩
  · rw [armed, eng]
    simp
  · have fout := congrArg RunSt.fout (core hp)
    have iout := congrArg RunSt.iout (core hp)
    exact ⟨fout, iout⟩
  · obtain ⟨status, noValue, event, cause, count, most, live⟩ := words.congr hm (slotNow_regs hp) (regs hp)
    have bbs : (slotNow m s).bb = s.bb := slotNow_changes m s .bb (by decide)
    rw [slotNow_eng] at frozen hdr
    rw [bbs] at hdr
    refine ⟨status.1, status.2, fun hi => noValue (by rw [hi]; rfl), event, cause, count, most, live, fun ha => ?_,
      fun ha hb h3 => ?_⟩
    · exact (bb hp (frozen ha)).1
    · obtain ⟨f, e⟩ := bb hp (frozen ha)
      rw [e]
      exact ⟨f, hdr ha hb h3⟩

/-- What a completed tick leaves of run `m`. -/
def slotCompleted (m cycles : Nat) (o : RunOut) (f : Option (Nat × Bool) × Option (Nat × Bool)) (s t : State) : Prop :=
  slotTotals m (quants o.inc).1 (o.alarm || (quants o.inc).2) s t ∧
    (s.eng.late = none → (∃ p, getReg t (rRunStatus m) =
        o.flags ||| fl 30 (o.alarm || (quants o.inc).2) ||| fl 10 p ||| fl 9 (f.1.any (·.2)) ||| fl 8 (f.2.any (·.2))) ∧
      getReg t (aRun m 0x48) = BitVec.ofNat 32 s.eng.set.tick ∧
      (∀ j < 17, getReg t (aRun m (0x49 + j)) = x32 (o.live.getD j 0)) ∧ bits (getReg t (aRun m 0x44)) 15 0 = cycles) ∧
    (s.eng.late = none ∨ m ≠ 7 → (∃ a b, (getRun t m).car = { o.car with pacc := a, backlog := b }) ∧
      (getRun t m).fout = f.1.map (·.1) ∧ (getRun t m).iout = f.2.map (·.1) ∧
      (getRun t m).irec = recorded (slotNow m s) m (f.2.map (·.1)))

theorem slotNext_completed {o : RunOut} {f : Option (Nat × Bool) × Option (Nat × Bool)} (h : slotDue m s = true) (hm : m < 8)
    (p : completeMade m cycles o f.1 f.2 (slotNow m s) (slotMade m cycles trap s)) :
    slotCompleted m cycles o f s (slotNext m cycles trap s) := by
  obtain ⟨-, runs, regs, -, -, -, -, -, -⟩ := slotNext_answered cycles trap h hm
  obtain ⟨⟨a, b, made⟩, words, -⟩ := p
  rw [slotNow_run, slotNow_eng] at made
  rw [slotNow_eng] at words
  have core (hp : s.eng.late = none ∨ m ≠ 7) : _ := (runs hp m).trans made.self
  refine ⟨fun hp => ?_, fun hp => ?_, fun hp => ?_⟩
  · have accs := congrArg RunSt.accs (core hp)
    have tick := congrArg RunSt.tick (core hp)
    have live := congrArg RunSt.live (core hp)
    exact ⟨accs, tick, live⟩
  · obtain ⟨status, tick, live, last⟩ := words.congr hm (regs hp)
    exact ⟨status, tick, live, last⟩
  · have car := congrArg RunSt.car (core hp)
    have fout := congrArg RunSt.fout (core hp)
    have iout := congrArg RunSt.iout (core hp)
    have irec := congrArg RunSt.irec (core hp)
    exact ⟨⟨a, b, car⟩, fout, iout, irec⟩

/-- The trap that ends a slot overrun. -/
theorem slotTrap_overrun (m : Nat) (s : State) :
    ∃ u, slotTrap m 31251 none s = some (if (slotEcc s m).isSome then 3 else 1, u) := by
  unfold slotTrap
  cases slotEcc s m with
  | some e => exact ⟨_, rfl⟩
  | none => exact ⟨_, rfl⟩

theorem exec_runSlot (m : Run) (h : slotDue m s = true) : exec (.runSlot m cycles trap) s = .next (slotNext m cycles trap s) :=
  if_pos h

theorem exec_slotOverrun (m : Run) (h : slotDue m s = true) : exec (.slotOverrun m) s = .next (slotNext m 31251 none s) :=
  if_pos h

/-- A slot that is not the one that goes on. -/
theorem slot_idle (m : Run) (hs : Inv s) (h : slotDue m s = false) :
    (∃ t, exec (.runSlot m cycles trap) s = .next t ∧ framed [] s t) ∧ ∃ t, exec (.slotOverrun m) s = .next t ∧ framed [] s t := by
  have quiet : framed [] s (settle s) := framed_settle hs (.refl _ _) (by decide)
  exact ⟨⟨_, if_neg (by simp [h]), quiet⟩, _, if_neg (by simp [h]), quiet⟩

/-- The run of a slot that computes. -/
def slotOn (m : Nat) (s : State) : Prop := runEn (lateWords s) m = true ∧ (getRun s m).reconciled = true

theorem slotOn_iff : slotOn m s ↔ runEn (slotNow m s) m = true ∧ (getRun (slotNow m s) m).reconciled = true := by
  rw [slotNow_runEn, slotNow_run]
  rfl

theorem runSlot_off (cycles : Nat) (trap : Option EngTrap) (h : slotDue m s = true) (hm : m < 8) (hn : ¬ slotOn m s)
    (hp : s.eng.late = none ∨ m ≠ 7) : (getRun (slotNext m cycles trap s) m).accs = (getRun s m).accs ∧
      (getRun (slotNext m cycles trap s) m).live = (getRun s m).live := by
  have e := (slotNext_answered cycles trap h hm).runs hp m
  rw [slotMade, slotRun_off (mt slotOn_iff.2 hn), slotNow_run] at e
  have accs := congrArg RunSt.accs e
  have live := congrArg RunSt.live e
  exact ⟨accs, live⟩

end

/-- Settles O48: a run that computes completes or traps at the end of its slot, and what closes the slot leaves every run's totals
and its words. -/
theorem runSlotAddsIncrementsAtItsEnd : Obligations.RunSlotAddsIncrementsAtItsEnd := by
  unfold Obligations.RunSlotAddsIncrementsAtItsEnd
  intro m cycles trap s hs
  have hm := m.isLt
  have hu : moveTo (s.eng.start + (m.val + 1) * 125000) (lateWords s) = slotNow m s := by
    unfold slotNow slotStart
    rw [show (lateWords s).eng = s.eng from lateWords_regs s .eng (by decide)]
  extract_lets w u plain r n o q alarm on mem ends totals trapped
  have hw : u = slotNow m s := hu
  have next (hd : slotDue m s = true) (cyc : Nat) (tr : Option EngTrap) : ends (slotNext m cyc tr s) :=
    slotNext_ends cyc tr hs hd hm
  have going (hd : slotDue m s = true) := exec_runSlot (cycles := cycles) (trap := trap) m hd
  refine ⟨slot_idle m hs, fun hd hn => ⟨_, going hd, next hd _ _, runSlot_off cycles trap hd hm hn⟩, fun hd hon => ?_⟩
  have on' := slotOn_iff.1 hon
  refine ⟨⟨_, exec_slotOverrun m hd, next hd _ _, ?_⟩, fun c v hx => ⟨_, going hd, next hd _ _, ?_⟩,
    fun hx ho => ⟨_, going hd, next hd _ _, ?_⟩, fun f hx ho hsd => ⟨_, going hd, next hd _ _, ?_⟩⟩
  · obtain ⟨x, hx⟩ := slotTrap_overrun m (slotNow m s)
    rw [hw]
    exact slotNext_trapped hd hm (slotRun_trap on' hm hx)
  · rw [hw] at hx
    exact slotNext_trapped hd hm (slotRun_trap on' hm hx)
  · simp only [o, hw] at hx ho
    exact slotNext_trapped hd hm (slotRun_unsound on' hm hx ho)
  · simp only [o, hw] at hx ho hsd
    obtain ⟨sums, words, rest⟩ := slotNext_completed hd hm (slotRun_complete on' hm hx ho hsd)
    rw [← hw] at sums words rest
    exact ⟨sums, words, rest⟩

end Sys2Proof.Machine

namespace Sys2Proof.Machine

/-! A tick boundary in a state whose newest record names a converter buffer that the device does not have. `Inv` bounds no record's
buffer number, and CV_DMA_BASE of "buffer 44" would lie at the address of PER_EVT (0x2202). The boundary that follows a step of ring
time sets PER_EVT bit 4 before it latches, so that the record's place in main SRAM, and with it whether its words read, is another
at the latching than it was before. -/

/-- A record of channel 0 in buffer 44. -/
def strayRec : Rec :=
  { code := 0, tag := 0, count := 0, time := 0, puls := none, stale := false, buf := 44, idx := 0, wrote := 0 }

/-- A running single device after a step of ring time; the first word of main SRAM has an uncorrectable error. -/
def strayState : State :=
  settle { State.reset with
    clk := { State.reset.clk with die := .applied }
    eng := { engReset with running := true, slot := 0 }
    time := { State.reset.time with now := 1, adj := true }
    newest := [(0, strayRec)]
    mem := { State.reset.mem with bad := [(0, 0)] } }

/-- Before the boundary the record's words begin at byte 0 and do not read. -/
theorem strayRec_unsound : recSound strayState strayRec = false := by decide

/-- The boundary latches the record. -/
theorem strayState_latches : ∃ t, exec .tickBoundary strayState = .next t ∧ t.eng.set.recs ≠ [] := ⟨_, rfl, by decide +kernel⟩

/-- Refutes O49: a newest record whose buffer number is 44 does not read before the boundary and is latched all the same. -/
theorem not_tickBoundaryLatchesTheSet : ¬ Obligations.TickBoundaryLatchesTheSet := by
  unfold Obligations.TickBoundaryLatchesTheSet
  intro h
  obtain ⟨-, hb⟩ := h strayState (settle_inv _)
  obtain ⟨t, ht, -, -, -, -, -, -, -, -, -, latched, -, -, -, frame, -⟩ := hb (by decide)
  obtain ⟨-, -, -, -, -, recs⟩ := latched (by decide) (by decide) (.inl (by decide))
  obtain ⟨u, hu, hne⟩ := strayState_latches
  have same : t = u := by rw [ht] at hu; exact Host.Outcome.next.inj hu
  refine hne (same ▸ recs.trans (List.filter_eq_nil_iff.2 fun e he => ?_))
  -- Every record latched is the stray one, and it did not read.
  obtain ⟨e0, h0, hl⟩ := List.mem_filterMap.1 he
  have stray : e0 = (0, strayRec) := by simpa [strayState] using h0
  have older : t.older = [] := frame.1 .older (by decide)
  have own : e = (0, strayRec) := by
    unfold latchRec at hl
    rw [stray, older] at hl
    split at hl
    · exact (Option.some.inj hl).symm
    · cases hl
  rw [own, strayRec_unsound]
  simp

end Sys2Proof.Machine

namespace Sys2Proof.Machine

/-! Bits of a word. -/

theorem bit_bitMask {i : Nat} (j : Nat) (hi : i < 32) : bit (bitMask i) j = decide (j = i) := by
  rw [bit, bitMask, BitVec.getLsbD_ofNat, Nat.one_shiftLeft, Nat.testBit_two_pow, ← Bool.decide_and]
  exact decide_eq_decide.2 ⟨fun ⟨_, e⟩ => e.symm, fun e => ⟨e ▸ hi, e.symm⟩⟩

theorem bit_putBit_other (w : Word) {i j : Nat} (hi : i < 32) (hj : j ≠ i) (b : Bool) : bit (putBit w i b) j = bit w j := by
  have mask : (bitMask i).getLsbD j = false := (bit_bitMask j hi).trans (decide_eq_false hj)
  by_cases h : j < 32
  · cases b <;> simp only [bit, putBit, mask, h, if_true, if_false, Bool.false_eq_true, BitVec.getLsbD_and, BitVec.getLsbD_not,
      BitVec.getLsbD_or, decide_true, Bool.not_false, Bool.and_true, Bool.or_false]
  · exact (BitVec.getLsbD_of_ge _ _ (Nat.le_of_not_lt h)).trans (BitVec.getLsbD_of_ge _ _ (Nat.le_of_not_lt h)).symm

theorem word_ext {v w : Word} (h : ∀ i < 32, bit v i = bit w i) : v = w := BitVec.eq_of_getLsbD_eq h

/-- Two flags put in either order. -/
theorem putBit_comm (w : Word) {i j : Nat} (hi : i < 32) (hj : j < 32) (h : i ≠ j) (a b : Bool) :
    putBit (putBit w i a) j b = putBit (putBit w j b) i a := by
  refine word_ext fun k _ => ?_
  by_cases ki : k = i
  · rw [ki, bit_putBit_other _ hj h, bit_putBit _ hi, bit_putBit _ hi]
  · rw [bit_putBit_other _ hi ki]
    by_cases kj : k = j
    · rw [kj, bit_putBit _ hj, bit_putBit _ hj]
    · rw [bit_putBit_other _ hj kj, bit_putBit_other _ hj kj, bit_putBit_other _ hi ki]

/-- The later value of a flag stands. -/
theorem putBit_putBit (w : Word) {i : Nat} (hi : i < 32) (a b : Bool) : putBit (putBit w i a) i b = putBit w i b := by
  refine word_ext fun k _ => ?_
  by_cases ki : k = i
  · rw [ki, bit_putBit _ hi, bit_putBit _ hi]
  · rw [bit_putBit_other _ hi ki, bit_putBit_other _ hi ki, bit_putBit_other _ hi ki]

/-! Views of the halls: what an operation leaves of every hall, as far as a view shows it. -/

/-- Every hall shows the same under the view `p`. -/
def hallsAlike {α : Type} (p : HallState → α) (s t : State) : Prop := ∀ k, p (getHall t k) = p (getHall s k)

section
variable {α : Type} {p : HallState → α} {h : Nat} {s t u : State}

theorem hallsAlike.refl (p : HallState → α) (s : State) : hallsAlike p s s := fun _ => rfl

theorem hallsAlike.trans (a : hallsAlike p s t) (b : hallsAlike p t u) : hallsAlike p s u := fun k => (b k).trans (a k)

theorem hallsAlike.ite {c : Prop} [Decidable c] (a : hallsAlike p s t) (b : hallsAlike p s u) :
    hallsAlike p s (if c then t else u) := by split <;> assumption

/-- Operations on other parts of the state. -/
theorem hallsAlike.skip {F : List Part} (k : changesOnly F t u) (hn : Part.halls ∉ F) (a : hallsAlike p s t) :
    hallsAlike p s u := by
  have e : u.halls = t.halls := k .halls hn
  refine a.trans fun k => ?_
  unfold getHall
  rw [e]

theorem hallsAlike.updHall {f : HallState → HallState} (hf : ∀ x, p (f x) = p x) (a : hallsAlike p s t) :
    hallsAlike p s (updHall h f t) := by
  refine a.trans fun k => ?_
  by_cases e : k = h
  · rw [e, getHall_updHall_self, hf]
  · rw [getHall_updHall_other e]

theorem hallsAlike.forChans {f : Nat → State → State} (hf : ∀ c u, hallsAlike p u (f c u)) (a : hallsAlike p s t) :
    hallsAlike p s (forChans f t) := a.trans ((((hf 0 _).trans (hf 1 _)).trans (hf 2 _)).trans (hf 3 _))

end

/-! What a report shows and takes (R25, R32). -/

section
variable {h c i : Nat} {s t : State}

/-- A hall's status words in the registers of the logic die. -/
def statusShown (h : Nat) (s : State) : State :=
  let x := getHall s h
  let t := setReg (aHall h 0x03) (x.stat ||| (getReg s (aHall h 0x03) &&& 1)) s
  let t := setReg (aHall h 0x07) (putBits 0 15 0 (ofInt x.tdie).toNat) t
  let t := setReg (aHall h 0x6D) (putBits x.excStat 1 0 x.profile) t
  let stuck := x.stuck0 || x.stuck1
  let t := setReg (aHall h 0x43) (BitVec.ofNat 32 (b2n (blankOn s h && !stuck) + 2 * b2n stuck)) t
  let t := setReg (aRot h 0x15) (pulsStat s h) t
  forN 4 (fun w u => setReg (aConv (2 * h) (0x3B + 4 * w)) (x.win.getD w 0) u) t

/-- The events that a hall kept, raised. -/
def eventsRaised (h : Nat) (x : HallState) (s : State) : State :=
  raiseEvt (rRotEvt h) x.rotEvt (raiseEvt (rExcEvt h) x.excEvt (raiseEvt (rHallEvt h) x.evt s))

/-- The events that a hall kept, handed over, and the hall's part of the open periods noted. -/
def eventsShown (h : Nat) (x : HallState) (s : State) : State :=
  noteVstate h (updHall h (fun y => { y with evt := 0, excEvt := 0, rotEvt := 0 }) (eventsRaised h x s))

/-- The logic die takes the hall's report. -/
def reports (s : State) (h : Nat) : Bool := logicUp s && (getHall s h).linked && (getHall s h).up

theorem report_eq (hr : reports s h = true) :
    report h s = forChans (reportChan h) (eventsShown h (getHall s h) (statusShown h s)) := if_pos hr

theorem report_off (hr : reports s h = false) : report h s = s := if_neg (by unfold reports at hr; rw [hr]; exact Bool.false_ne_true)

theorem statusShown_changes (h : Nat) (s : State) : changesOnly [.regs] s (statusShown h s) := by
  unfold statusShown
  refine forN_into (fun _ _ => setReg_changes rfl (.refl _ _)) ?_
  iterate 5 refine setReg_changes rfl ?_
  exact .refl _ _

theorem eventsRaised_changes (h : Nat) (x : HallState) (s : State) : changesOnly [.regs, .bb] s (eventsRaised h x s) :=
  raiseEvt_changes rfl (raiseEvt_changes rfl (raiseEvt_changes rfl (.refl _ _)))

theorem getReg_eventsShown (h : Nat) (x : HallState) (s : State) (a : Nat) :
    getReg (eventsShown h x s) a = getReg (eventsRaised h x s) a :=
  getReg_congr (noteVstate_changes (F := [.halls, .per]) rfl (updHall_changes rfl (.refl _ _)) .regs (by decide)) a

/-- Only the kept events of a hall go with a report. -/
theorem report_hallAlike {α : Type} {p : HallState → α}
    (hp : ∀ x e f g, p { x with evt := e, excEvt := f, rotEvt := g } = p x) (h : Nat) (s : State) :
    hallsAlike p s (report h s) := by
  cases hr : reports s h with
  | false => rw [report_off hr]; exact .refl _ _
  | true =>
    rw [report_eq hr]
    unfold eventsShown
    refine hallsAlike.forChans (fun c u => (hallsAlike.refl p u).skip (F := [.regs, .bb, .chans])
      (reportChan_changes rfl (.refl _ _)) (by decide)) ?_
    refine hallsAlike.skip (F := [.per]) (noteVstate_changes rfl (.refl _ _)) (by decide)
      (hallsAlike.updHall (fun x => hp x 0 0 0) ?_)
    exact hallsAlike.skip (eventsRaised_changes h _ _) (by decide) ((hallsAlike.refl p s).skip (statusShown_changes h s) (by decide))

/-- What a report leaves of a hall but its kept events. -/
theorem getHall_report {α : Type} {p : HallState → α}
    (hp : ∀ x e f g, p { x with evt := e, excEvt := f, rotEvt := g } = p x) (h k : Nat) (t : State) :
    p (getHall (settle (report h t)) k) = p (getHall t k) := by
  rw [getHall_settle]
  exact report_hallAlike hp h t k

/-- A register keeps what it holds but for the addresses of the operation. -/
theorem getReg_of_outside {a : Nat} (k : regsOutside (· ≠ a) s t) : getReg t a = getReg s a := k a fun e => e rfl

/-- A word that no report of channel `c` of hall `h` writes, the counter of missed entries apart. -/
def notChanWord (h c a : Nat) : Prop :=
  (a ≠ aCh h c 0x20 ∧ a ≠ aCh h c 0x24 ∧ a ≠ aCh h c 0x58 ∧ a ≠ aCh h c 0x5C ∧ a ≠ aCh h c 0x60) ∧
    (a ≠ aHall h (0x28 + 4 * c) ∧ a ≠ aHall h (0x29 + 4 * c) ∧ a ≠ aHall h (0x2A + 4 * c) ∧ a ≠ aHall h (0x2B + 4 * c)) ∧
    a ≠ aRot h (0x18 + 2 * c) ∧ a ≠ aRot h (0x19 + 2 * c)

theorem reportChan_reg {a : Nat} (hd : a ≠ rBbMissed) (n : notChanWord h c a) : getReg (reportChan h c s) a = getReg s a := by
  obtain ⟨⟨a0, a1, a2, a3, a4⟩, ⟨b0, b1, b2, b3⟩, c0, c1⟩ := n
  exact getReg_of_outside (reportChan_regs a0.symm a2.symm a4.symm b0.symm b1.symm b2.symm b3.symm c0.symm c1.symm a1.symm
    hd.symm a3.symm (.refl _ _))

theorem getReg_raiseEvt_self {a : Nat} {m : Word} (ha : a ≠ rBbMissed) : getReg (raiseEvt a m s) a = getReg s a ||| m :=
  getReg_raiseEvtAt_self ha

theorem getReg_raiseEvt_other {a b : Nat} {m : Word} (ha : b ≠ a) (hb : b ≠ rBbMissed) :
    getReg (raiseEvt a m s) b = getReg s b :=
  getReg_of_outside (raiseEvt_regs ha.symm hb.symm (.refl _ _))

end

end Sys2Proof.Machine

namespace Sys2Proof.Machine

/-! Where a report's words stand (R25, R32). -/

section
variable {h c i a : Nat} {s t u : State}

theorem statusShown_regs (h : Nat) (s : State) : regsOutside (fun a => a = aHall h 0x03 ∨ a = aHall h 0x07 ∨ a = aHall h 0x6D ∨
    a = aHall h 0x43 ∨ a = aRot h 0x15 ∨ ∃ w, a = aConv (2 * h) (0x3B + 4 * w)) s (statusShown h s) := by
  unfold statusShown
  refine forN_regs (fun w u _ => setReg_regs (.inr (.inr (.inr (.inr (.inr ⟨w, rfl⟩))))) (.refl _ u)) ?_
  exact setReg_regs (by simp) (setReg_regs (by simp) (setReg_regs (by simp) (setReg_regs (by simp) (setReg_regs (by simp)
    (.refl _ _)))))

/-- A word that no channel's part of a report writes. -/
theorem forChans_reportChan_reg (hd : a ≠ rBbMissed) (n : ∀ c < 4, notChanWord h c a) :
    getReg (forChans (reportChan h) s) a = getReg s a := by
  have part (c : Nat) (hc : c < 4) (u : State) : getReg (reportChan h c u) a = getReg u a := reportChan_reg hd (n c hc)
  exact (((part 3 (by decide) _).trans (part 2 (by decide) _)).trans (part 1 (by decide) _)).trans (part 0 (by decide) _)

theorem eventsRaised_reg (x : HallState) (h1 : a ≠ rHallEvt h) (h2 : a ≠ rExcEvt h) (h3 : a ≠ rRotEvt h)
    (hd : a ≠ rBbMissed) : getReg (eventsRaised h x s) a = getReg s a :=
  (getReg_raiseEvt_other h3 hd).trans ((getReg_raiseEvt_other h2 hd).trans (getReg_raiseEvt_other h1 hd))

theorem eventsRaised_hallEvt (hh : h < 8) (x : HallState) :
    getReg (eventsRaised h x s) (rHallEvt h) = getReg s (rHallEvt h) ||| x.evt := by
  have missed : rHallEvt h ≠ rBbMissed := by unfold rHallEvt rBbMissed aHall; omega
  refine (getReg_raiseEvt_other ?_ missed).trans ((getReg_raiseEvt_other ?_ missed).trans (getReg_raiseEvt_self missed))
  · unfold rHallEvt rRotEvt aHall aRot; omega
  · unfold rHallEvt rExcEvt aHall; omega

/-- The events a report raises stand in HALL_EVT. -/
theorem hallEvt_report (hh : h < 8) (hr : reports s h = true) :
    getReg (report h s) (rHallEvt h) = getReg s (rHallEvt h) ||| (getHall s h).evt := by
  rw [report_eq hr, forChans_reportChan_reg, getReg_eventsShown, eventsRaised_hallEvt hh, statusShown_regs h s]
  · unfold rHallEvt aHall aRot aConv; omega
  · unfold rHallEvt rBbMissed aHall; omega
  · intro c hc
    unfold notChanWord rHallEvt aCh aHall aRot
    omega

/-- A hall's event kept or set before its report is set or kept after it. -/
theorem hallRaised_report (hh : h < 8) (r : hallRaised h i s) : hallRaised h i (settle (report h s)) := by
  unfold hallRaised at *
  rw [getHall_settle, getReg_settle]
  cases hr : reports s h with
  | false => rwa [report_off hr]
  | true =>
    rw [hallEvt_report hh hr, bit_or]
    rcases r with r | r <;> simp [r]

/-- HALL_STATUS after a report. -/
theorem hallStat_report (hh : h < 8) (hr : reports s h = true) :
    getReg (report h s) (aHall h 0x03) = (getHall s h).stat ||| (getReg s (aHall h 0x03) &&& 1) := by
  rw [report_eq hr, forChans_reportChan_reg, getReg_eventsShown, eventsRaised_reg]
  · unfold statusShown
    rw [getReg_of_outside (forN_regs (fun w u _ => setReg_regs ?_ (.refl (· ≠ aHall h 0x03) u)) (.refl _ _)),
      getReg_setReg_other, getReg_setReg_other, getReg_setReg_other, getReg_setReg_other, getReg_setReg_self]
    · unfold aHall; omega
    · unfold aHall; omega
    · unfold aHall; omega
    · unfold aHall aRot; omega
    · unfold aHall aConv; omega
  · unfold rHallEvt aHall; omega
  · unfold rExcEvt aHall; omega
  · unfold rRotEvt aHall aRot; omega
  · unfold rBbMissed aHall; omega
  · unfold rBbMissed aHall; omega
  · intro c hc
    unfold notChanWord aCh aHall aRot
    omega

end

/-! The channels in turn. -/

/-- What the operation of one channel meets and leaves where those of the other channels keep to the relation `Q`. -/
theorem forChans_at {Q : State → State → Prop} {f : Nat → State → State} {c : Nat} {s : State} (refl : ∀ s, Q s s)
    (trans : ∀ s t u, Q s t → Q t u → Q s u) (hc : c < 4) (hf : ∀ d < 4, d ≠ c → ∀ u, Q u (f d u)) :
    ∃ u, Q s u ∧ Q (f c u) (forChans f s) := by
  have step (d : Nat) (hd : d < 4) (n : d ≠ c) {t u : State} (q : Q t u) : Q t (f d u) := trans _ _ _ q (hf d hd n u)
  match c, hc with
  | 0, _ => exact ⟨_, refl _, step 3 (by decide) (by decide) (step 2 (by decide) (by decide) (step 1 (by decide) (by decide) (refl _)))⟩
  | 1, _ => exact ⟨_, step 0 (by decide) (by decide) (refl s), step 3 (by decide) (by decide) (step 2 (by decide) (by decide) (refl _))⟩
  | 2, _ => exact ⟨_, step 1 (by decide) (by decide) (step 0 (by decide) (by decide) (refl s)), step 3 (by decide) (by decide) (refl _)⟩
  | 3, _ =>
    exact ⟨_, step 2 (by decide) (by decide) (step 1 (by decide) (by decide) (step 0 (by decide) (by decide) (refl s))), refl _⟩

/-! A channel's words in a report. -/

section
variable {h c d i : Nat} {s t u : State}

/-- The words of channel `c` that a report shows its status and its events in are no other channel's. -/
theorem notChanWord_of_ne (hc : c < 4) (hd : d < 4) (e : d ≠ c) :
    notChanWord h d (aCh h c 0x20) ∧ notChanWord h d (aCh h c 0x24) := by
  unfold notChanWord aCh aHall aRot
  omega

/-- A channel as a report finds it, with its status and its events as the logic die holds them. -/
def chanShown (h c : Nat) (s : State) : Word × Word × ChanState :=
  (getReg s (aCh h c 0x20), getReg s (aCh h c 0x24), getChan s h c)

theorem chanShown_reportChan_other (hh : h < 8) (hc : c < 4) (hd : d < 4) (e : d ≠ c) (u : State) :
    chanShown h c (reportChan h d u) = chanShown h c u := by
  obtain ⟨n0, n4⟩ := notChanWord_of_ne (h := h) hc hd e
  have missed (o : Nat) (ho : o < 0x100) : aCh h c o ≠ rBbMissed := by unfold aCh aHall rBbMissed; omega
  have chan : getChan (reportChan h d u) h c = getChan u h c := by
    unfold reportChan
    rw [getChan_updChan_other (by omega)]
    refine congrArg (fun l => tget (fun _ => chanReset) l (4 * h + c)) ?_
    refine (raiseEvt_changes (F := [.regs, .bb]) rfl (raiseEvt_changes rfl (reportState_changes rfl ?_)) .chans (by decide) :
      _ = u.chans)
    iterate 9 refine setReg_changes rfl ?_
    exact .refl _ _
  unfold chanShown
  rw [reportChan_reg (missed _ (by decide)) n0, reportChan_reg (missed _ (by decide)) n4, chan]

/-- The channel's words of a report, but for its events. -/
def chanWordsShown (h c : Nat) (s : State) : State :=
  let x := getChan s h c
  let t := setReg (aCh h c 0x20) x.stat s
  let t := setReg (aCh h c 0x58) x.ain t
  let t := setReg (aCh h c 0x60) x.imeas t
  let t := setReg (aHall h (0x28 + 4 * c)) (BitVec.ofNat 32 x.pcnt) t
  let t := setReg (aHall h (0x29 + 4 * c)) (BitVec.ofNat 32 (x.plast.getD 0)) t
  let t := setReg (aHall h (0x2A + 4 * c)) (BitVec.ofNat 32 (x.plast.getD 0 / 2 ^ 32)) t
  let t := setReg (aHall h (0x2B + 4 * c)) (BitVec.ofNat 32 (min (x.pper.getD 0xFFFFFFFF) 0xFFFFFFFF)) t
  let t := setReg (aRot h (0x18 + 2 * c)) x.pulsP t
  setReg (aRot h (0x19 + 2 * c)) x.pulsMean t

theorem reportChan_eq (h c : Nat) (s : State) : reportChan h c s =
    updChan h c (fun y => { y with evt := 0, ainEvt := 0 }) (raiseEvt (aCh h c 0x5C) (getChan s h c).ainEvt
      (raiseEvt (aCh h c 0x24) (getChan s h c).evt (reportState h c (chanWordsShown h c s)))) := rfl

theorem chanWordsShown_changes (h c : Nat) (s : State) : changesOnly [.regs] s (chanWordsShown h c s) := by
  unfold chanWordsShown
  iterate 9 refine setReg_changes rfl ?_
  exact .refl _ _

theorem notRotWord {h c o p : Nat} (hh : h < 8) (hc : c < 4) (ho : o < 0xFC) : aCh h c o ≠ aRot h p := by
  unfold aCh aHall aRot
  omega

theorem chanWordsShown_stat (hh : h < 8) (hc : c < 4) : getReg (chanWordsShown h c s) (aCh h c 0x20) = (getChan s h c).stat := by
  unfold chanWordsShown
  rw [getReg_setReg_other (notRotWord hh hc (by decide)), getReg_setReg_other (notRotWord hh hc (by decide))]
  iterate 6 rw [getReg_setReg_other (by unfold aCh aHall; omega)]
  exact getReg_setReg_self ..

theorem chanWordsShown_evt (hh : h < 8) (hc : c < 4) :
    getReg (chanWordsShown h c s) (aCh h c 0x24) = getReg s (aCh h c 0x24) := by
  unfold chanWordsShown
  rw [getReg_setReg_other (notRotWord hh hc (by decide)), getReg_setReg_other (notRotWord hh hc (by decide))]
  iterate 7 rw [getReg_setReg_other (by unfold aCh aHall; omega)]

/-- A change of STATE is reported ahead of the channel's other events. -/
theorem reportState_evt (hc : c < 4) : getReg (reportState h c s) (aCh h c 0x24) =
    if bit (getChan s h c).evt 0 then getReg s (aCh h c 0x24) ||| bitMask 0 else getReg s (aCh h c 0x24) := by
  unfold reportState
  dsimp only
  split
  · exact getReg_raiseEvtAt_self (by unfold aCh aHall rBbMissed; omega)
  · rfl

/-- A channel's part of a report shows its status and raises its events. -/
theorem reportChan_shown (hh : h < 8) (hc : c < 4) : getReg (reportChan h c s) (aCh h c 0x20) = (getChan s h c).stat ∧
    bit (getReg (reportChan h c s) (aCh h c 0x24)) i = (bit (getReg s (aCh h c 0x24)) i || bit (getChan s h c).evt i) := by
  have missed (o : Nat) (ho : o < 0x100) : aCh h c o ≠ rBbMissed := by unfold aCh aHall rBbMissed; omega
  have d1 : aCh h c 0x20 ≠ aCh h c 0x24 := by unfold aCh aHall; omega
  have d2 : aCh h c 0x20 ≠ aCh h c 0x5C := by unfold aCh aHall; omega
  have d3 : aCh h c 0x24 ≠ aCh h c 0x5C := by unfold aCh aHall; omega
  have chan : getChan (chanWordsShown h c s) h c = getChan s h c := by
    unfold getChan
    rw [(chanWordsShown_changes h c s .chans (by decide) : (chanWordsShown h c s).chans = s.chans)]
  rw [reportChan_eq, getReg_updChan, getReg_updChan]
  constructor
  · rw [getReg_raiseEvt_other d2 (missed _ (by decide)), getReg_raiseEvt_other d1 (missed _ (by decide)),
      getReg_of_outside (reportState_regs d1.symm (missed 0x20 (by decide)).symm (.refl _ _)), chanWordsShown_stat hh hc]
  · rw [getReg_raiseEvt_other d3 (missed _ (by decide)), getReg_raiseEvt_self (missed _ (by decide)), reportState_evt hc,
      chan, chanWordsShown_evt hh hc]
    split
    next e =>
      rw [bit_or, bit_or]
      by_cases k : i = 0
      · simp [k, e]
      · simp [bit_bitMask i (show 0 < 32 by decide), k]
    next => rw [bit_or]

/-- Before the channels' parts a report moves no word of theirs that shows status or events. -/
theorem eventsShown_chanEvt (hc : c < 4) :
    getReg (eventsShown h (getHall s h) (statusShown h s)) (aCh h c 0x24) = getReg s (aCh h c 0x24) := by
  rw [getReg_eventsShown, eventsRaised_reg, statusShown_regs h s]
  · unfold aCh aHall aRot aConv; omega
  · unfold aCh rHallEvt aHall; omega
  · unfold aCh rExcEvt aHall; omega
  · unfold aCh rRotEvt aHall aRot; omega
  · unfold aCh aHall rBbMissed; omega

theorem eventsShown_chans (h : Nat) (x : HallState) (s : State) : (eventsShown h x (statusShown h s)).chans = s.chans :=
  (noteVstate_changes (F := [.regs, .bb, .halls, .per]) rfl (updHall_changes rfl ((eventsRaised_changes h x _).mono rfl)) .chans
    (by decide)).trans (statusShown_changes h s .chans (by decide))

/-- A report shows a channel's status and raises its events. -/
theorem chanShown_report (hh : h < 8) (hc : c < 4) (hr : reports s h = true) (i : Nat) :
    getReg (report h s) (aCh h c 0x20) = (getChan s h c).stat ∧
      bit (getReg (report h s) (aCh h c 0x24)) i = (bit (getReg s (aCh h c 0x24)) i || bit (getChan s h c).evt i) := by
  let e := eventsShown h (getHall s h) (statusShown h s)
  obtain ⟨u, before, after⟩ := forChans_at (Q := fun s t => chanShown h c t = chanShown h c s) (f := reportChan h) (s := e)
    (fun _ => rfl) (fun _ _ _ a b => b.trans a) hc fun d hd n u => chanShown_reportChan_other hh hc hd n u
  have chan : getChan e h c = getChan s h c := by
    unfold getChan
    rw [eventsShown_chans]
  simp only [chanShown, Prod.mk.injEq] at before after
  obtain ⟨-, evt, same⟩ := before
  obtain ⟨stat', evt', -⟩ := after
  obtain ⟨stat, raised⟩ := reportChan_shown (i := i) (s := u) hh hc
  rw [report_eq hr, stat', evt', stat, raised, evt, same, chan, eventsShown_chanEvt hc]
  exact ⟨rfl, rfl⟩

/-- A channel's event kept or set before its hall's report is set or kept after it. -/
theorem chanRaised_report (hh : h < 8) (hc : c < 4) (r : chanRaised h c i s) : chanRaised h c i (settle (report h s)) := by
  unfold chanRaised at *
  rw [getChan_settle, getReg_settle]
  cases hr : reports s h with
  | false => rwa [report_off hr]
  | true =>
    rw [(chanShown_report hh hc hr i).2]
    rcases r with r | r <;> simp [r]

end

end Sys2Proof.Machine

namespace Sys2Proof.Machine

/-! The answer of a hall's command that moves its state and its channels. -/

/-- From `s` to `t` hall `h` and its channels moved, nothing else. -/
def Within (h : Nat) (s t : State) : Prop := changesOnly [.halls, .chans] s t ∧ Apart h s t

section
variable {h c : Nat} {s t u : State}

theorem Apart.refl (h : Nat) (s : State) : Apart h s s := (Quiet.refl h s).apart

theorem Within.refl (h : Nat) (s : State) : Within h s s := ⟨.refl _ _, .refl _ _⟩

theorem Within.trans (a : Within h s t) (b : Within h t u) : Within h s u := ⟨a.1.trans b.1, a.2.trans b.2⟩

theorem Within.ite {p : Prop} [Decidable p] (a : Within h s t) (b : Within h s u) : Within h s (if p then t else u) := by
  split <;> assumption

theorem Within.updHall {f : HallState → HallState} (a : Within h s t) : Within h s (updHall h f t) :=
  a.trans ⟨updHall_changes rfl (.refl _ _), updHall_apart f t⟩

theorem Within.updChan {f : ChanState → ChanState} (hc : c < 4) (a : Within h s t) : Within h s (updChan h c f t) :=
  a.trans ⟨updChan_changes rfl (.refl _ _), updChan_apart hc f t⟩

theorem Within.forChans {f : Nat → State → State} (hf : ∀ c < 4, ∀ u, Within h u (f c u)) (a : Within h s t) :
    Within h s (forChans f t) :=
  a.trans ((((hf 0 (by decide) _).trans (hf 1 (by decide) _)).trans (hf 2 (by decide) _)).trans (hf 3 (by decide) _))

theorem Within.resolve (hc : c < 4) (a : Within h s t) : Within h s (resolve h c t) :=
  a.trans ⟨resolve_changes rfl (.refl _ _), (resolve_quiet hc (.refl h t)).apart⟩

theorem Within.resolveAll (a : Within h s t) : Within h s (resolveAll h t) := a.forChans fun _ hc u => (Within.refl h u).resolve hc

theorem Within.leaveAll {l : Latch} (a : Within h s t) : Within h s (leaveAll l h t) :=
  a.trans ⟨leaveAll_changes rfl (.refl _ _), (leaveAll_quiet (.refl h t)).apart⟩

theorem Within.frame (hs : Inv s) (a : Within h s t) : hallOnly h s (settle (report h t)) :=
  report_frame hs rfl (by decide) (a.1.mono rfl) (.skip a.1 (by decide) (.refl _ _)) a.2

/-- What it leaves of the halls but for `h`, and of the other parts. -/
theorem halls_of_changes (k : changesOnly [.chans] s t) (j : Nat) : getHall t j = getHall s j := by
  unfold getHall
  rw [(k .halls (by decide) : t.halls = s.halls)]

end

/-! Operations of one channel. -/

/-- From `s` to `t` channel `c` of hall `h` moved, nothing else. -/
structure OneChan (h c : Nat) (s t : State) : Prop where
  parts : changesOnly [.chans] s t
  others : ∀ k d, 4 * k + d ≠ 4 * h + c → getChan t k d = getChan s k d

section
variable {h c i : Nat} {b : Bool} {s t u : State}

theorem OneChan.refl (h c : Nat) (s : State) : OneChan h c s s := ⟨.refl _ _, fun _ _ _ => rfl⟩

theorem OneChan.trans (a : OneChan h c s t) (b : OneChan h c t u) : OneChan h c s u :=
  ⟨a.parts.trans b.parts, fun k d e => (b.others k d e).trans (a.others k d e)⟩

theorem OneChan.ite {p : Prop} [Decidable p] (a : OneChan h c s t) (b : OneChan h c s u) :
    OneChan h c s (if p then t else u) := by split <;> assumption

theorem OneChan.updChan {f : ChanState → ChanState} (a : OneChan h c s t) : OneChan h c s (updChan h c f t) :=
  a.trans ⟨updChan_changes rfl (.refl _ _), fun _ _ e => getChan_updChan_other e f t⟩

theorem OneChan.chFlag (a : OneChan h c s t) : OneChan h c s (chFlag h c i b t) := a.updChan

theorem OneChan.ainFlag (a : OneChan h c s t) : OneChan h c s (ainFlag h c i b t) := a.updChan

theorem OneChan.setDrive {v : Nat} (a : OneChan h c s t) : OneChan h c s (setDrive h c v t) :=
  .ite (.chFlag (.chFlag (.updChan a))) (.chFlag (.updChan a))

theorem OneChan.pulseGo (a : OneChan h c s t) : OneChan h c s (pulseGo h c t) := .ite a.updChan a

theorem OneChan.resolve (a : OneChan h c s t) : OneChan h c s (resolve h c t) := by
  unfold Machine.resolve
  refine .ite a ?_
  split
  · exact .ite a (.ite a a.setDrive)
  · exact .ite a (.ite a.chFlag (.pulseGo a.setDrive))

theorem OneChan.startRamp {v r : Nat} (a : OneChan h c s t) : OneChan h c s (startRamp h c v r t) := .chFlag a.updChan

theorem OneChan.leaveSafe {l : Latch} (a : OneChan h c s t) : OneChan h c s (leaveSafe l h c t) := by
  unfold Machine.leaveSafe
  refine .ite a (.ite (.resolve (.chFlag a.updChan)) (.ite (.ite (.resolve a.updChan) ?_) a.resolve))
  exact .ite a.startRamp (.ite a.updChan a.resolve)

theorem OneChan.riskOf (a : OneChan h c s t) : OneChan h c s (riskOf h c t) := .chFlag a.chFlag

theorem OneChan.latchOff {l : Latch} (a : OneChan h c s t) : OneChan h c s (latchOff l h c t) := .chFlag (.chFlag a.updChan)

theorem OneChan.cutRetry (a : OneChan h c s t) : OneChan h c s (cutRetry h c t) :=
  .resolve (.ite (.chFlag a.updChan) (.latchOff a.updChan))

theorem OneChan.cutLatch (a : OneChan h c s t) : OneChan h c s (cutLatch h c t) := .resolve (.latchOff a.updChan)

theorem OneChan.hall (a : OneChan h c s t) (j : Nat) : getHall t j = getHall s j := halls_of_changes a.parts j

theorem OneChan.within (hc : c < 4) (a : OneChan h c s t) : Within h s t := by
  refine ⟨a.parts.mono rfl, ⟨fun k _ => a.hall k, fun k d hd hk => a.others k d (by omega)⟩, ?_⟩
  unfold onlyVstates
  rw [(a.parts .per (by decide) : t.per = s.per)]

theorem OneChan.frame (hs : Inv s) (hc : c < 4) (a : OneChan h c s t) : hallOnly h s (settle (report h t)) :=
  (a.within hc).frame hs

end

/-! What moving an output leaves of its channel (R55). -/

/-- CH_STATUS but for IN_SAFE, and for EXT_DRIVE unless the stage was opened for reverse current. -/
def restStat (rev : Bool) (w : Word) : Word := putBit (if rev then w else putBit w 5 false) 8 false

theorem bit_restStat {rev : Bool} {i : Nat} (h8 : i ≠ 8) (h5 : i ≠ 5 ∨ rev = true) (w : Word) :
    bit (restStat rev w) i = bit w i := by
  unfold restStat
  rw [bit_putBit_other _ (by decide) h8]
  split
  · rfl
  next hr => exact bit_putBit_other _ (by decide) (h5.resolve_right hr) _

theorem restStat_inSafe (rev : Bool) (w : Word) (b : Bool) : restStat rev (putBit w 8 b) = restStat rev w := by
  unfold restStat
  split
  · exact putBit_putBit _ (by decide) ..
  · rw [putBit_comm w (by decide) (by decide) (by decide), putBit_putBit _ (by decide)]

theorem restStat_extDrive (w : Word) (b : Bool) : restStat false (putBit w 5 b) = restStat false w :=
  congrArg (fun v => putBit v 8 false) (putBit_putBit w (by decide) b false)

/-- A channel but for its output: what it drives, IN_SAFE, and EXT_DRIVE unless the stage was opened for reverse current. -/
def outputRest (x : ChanState) : ChanState := { outputCore x with stat := restStat x.rev x.stat }

theorem outputRest_bit {x y : ChanState} (e : outputRest x = outputRest y) {i : Nat} (h8 : i ≠ 8) (h5 : i ≠ 5 ∨ y.rev = true) :
    bit x.stat i = bit y.stat i := by
  have rev : x.rev = y.rev := (congrArg ChanState.rev e : (outputRest x).rev = (outputRest y).rev)
  have stat : restStat x.rev x.stat = restStat y.rev y.stat :=
    (congrArg ChanState.stat e : (outputRest x).stat = (outputRest y).stat)
  rw [← bit_restStat h8 (rev ▸ h5) x.stat, stat, bit_restStat h8 h5]

/-- IN_SAFE and the kept events are not shown. -/
theorem outputRest_inSafe (x : ChanState) (b : Bool) (e : Word) :
    outputRest { x with stat := putBit x.stat 8 b, evt := e } = outputRest x :=
  congrArg (fun w => { outputCore x with stat := w }) (restStat_inSafe x.rev x.stat b)

/-- Nor is EXT_DRIVE while the stage was not opened for reverse current. -/
theorem outputRest_extDrive {x : ChanState} (hx : x.rev = false) (b : Bool) (e : Word) :
    outputRest { x with stat := putBit x.stat 5 b, evt := e } = outputRest x := by
  have key : restStat x.rev (putBit x.stat 5 b) = restStat x.rev x.stat := by rw [hx, restStat_extDrive]
  exact congrArg (fun w => { outputCore x with stat := w }) key

section
variable {h c : Nat} {s t u : State}

theorem updChan_alike_own {α : Type} {p : ChanState → α} {f : ChanState → ChanState}
    (hf : p (f (getChan t h c)) = p (getChan t h c)) (a : chansAlike p s t) : chansAlike p s (updChan h c f t) := by
  refine a.trans fun k d => ?_
  by_cases e : 4 * k + d = 4 * h + c
  · have key (v : State) : getChan v k d = getChan v h c := by unfold getChan; rw [e]
    rw [key, key, getChan_updChan_self, hf]
  · rw [getChan_updChan_other e]

theorem chFlag_inSafe_rest {b : Bool} (a : chansAlike outputRest s t) : chansAlike outputRest s (chFlag h c 8 b t) :=
  chansAlike.updChan (fun x => outputRest_inSafe x _ _) a

theorem chFlag_extDrive_rest {b : Bool} (hr : (getChan t h c).rev = false) (a : chansAlike outputRest s t) :
    chansAlike outputRest s (chFlag h c 5 b t) := by
  unfold chFlag
  exact updChan_alike_own (outputRest_extDrive hr b _) a

theorem driven_rest {v : Nat} (a : chansAlike outputRest s t) : chansAlike outputRest s (driven h c v t) :=
  chansAlike.updChan (fun _ => rfl) a

/-- Channel `c` with its output driven at `v` and IN_SAFE as it is then. -/
def drivenShown (h c v : Nat) (s : State) : State :=
  chFlag h c 8 (outRank s h c = 4 || (getChan s h c).ext == .opened) (driven h c v s)

theorem setDrive_eq (h c v : Nat) (s : State) : setDrive h c v s =
    if modeOf s h c ≠ 15 && v ≠ 0 && !(getChan s h c).rev then chFlag h c 5 false (drivenShown h c v s)
    else drivenShown h c v s := rfl

theorem setDrive_rest {v : Nat} (a : chansAlike outputRest s t) : chansAlike outputRest s (setDrive h c v t) := by
  have shown : chansAlike outputRest t (drivenShown h c v t) := chFlag_inSafe_rest (driven_rest (.refl _ t))
  rw [setDrive_eq]
  refine a.trans ?_
  split
  next e =>
    have rev : (getChan t h c).rev = false := by
      simp only [Bool.and_eq_true, Bool.not_eq_true'] at e
      exact e.2
    have same : (getChan (drivenShown h c v t) h c).rev = (getChan t h c).rev :=
      (congrArg ChanState.rev (shown h c) : (outputRest _).rev = (outputRest _).rev)
    exact chFlag_extDrive_rest (same.trans rev) shown
  next => exact shown

theorem pulseGo_rest (a : chansAlike outputRest s t) : chansAlike outputRest s (pulseGo h c t) :=
  pulseGo_alike (fun _ _ => rfl) a

theorem resolve_rest (a : chansAlike outputRest s t) : chansAlike outputRest s (resolve h c t) := by
  unfold resolve
  refine chansAlike.ite a ?_
  split
  · exact chansAlike.ite a (chansAlike.ite a (setDrive_rest a))
  · exact chansAlike.ite a (chansAlike.ite (chFlag_inSafe_rest a) (pulseGo_rest (setDrive_rest a)))

theorem startRamp_rest {v r : Nat} (a : chansAlike outputRest s t) : chansAlike outputRest s (startRamp h c v r t) :=
  chFlag_inSafe_rest (chansAlike.updChan (fun _ => rfl) a)

/-- A flag that moving the output does not touch. -/
theorem resolve_bit {i k d : Nat} (h8 : i ≠ 8) (h5 : i ≠ 5) (s : State) :
    bit (getChan (resolve h c s) k d).stat i = bit (getChan s k d).stat i :=
  outputRest_bit (resolve_rest (.refl _ s) k d) h8 (.inl h5)

end

/-! The order of R55. -/

section
variable {h c : Nat} {s t : State}

/-- Outside a gang the rank of an output follows its hall and its own channel. -/
theorem outRank_own (hm : (getChan s h c).mode ≠ 14)
    (hh : (getHall t h).up = (getHall s h).up ∧ (getHall t h).stat = (getHall s h).stat ∧ (getHall t h).ecc = (getHall s h).ecc)
    (hc : rankView (getChan t h c) = rankView (getChan s h c)) : outRank t h c = outRank s h c := by
  obtain ⟨up, stat, ecc⟩ := hh
  simp only [rankView, Prod.mk.injEq] at hc
  obtain ⟨mode, cut, latch, idle, gang, ext⟩ := hc
  have leadT : leadOf t h c = c := leadOf_self (mode ▸ hm)
  unfold outRank safeCause modeOf
  simp only [leadT, leadOf_self hm, up, stat, ecc, mode, cut, latch, idle, gang, ext]

/-- SAG3 and HALL_OVERTEMP decide the outputs of a hall that has L+. -/
theorem outRank_sag (hu : (getHall s h).up = true) (hm : (getChan s h c).mode ≠ 0)
    (hb : bit (getHall s h).stat 3 = true ∨ bit (getHall s h).stat 8 = true) : outRank s h c = 2 := by
  unfold outRank modeOf
  rcases hb with hb | hb <;> simp [hu, hm, hb]

/-- An output switched off is not decided by a safe state or its command. -/
theorem outRank_cut (hc : (getChan s h c).cut = true) : outRank s h c ≠ 4 ∧ outRank s h c ≠ 5 := by
  unfold outRank
  simp only [hc, Bool.true_or, if_true]
  split
  · decide
  · split <;> decide

/-- In the safe state of its hall an output's command does not decide. -/
theorem outRank_forced (hb : bit (getHall s h).stat 5 = true ∨ bit (getHall s h).stat 6 = true) : outRank s h c ≠ 5 := by
  have cause : safeCause s h c = true := by
    unfold safeCause
    rcases hb with hb | hb <;> simp [hb]
  unfold outRank
  simp only [cause, if_true]
  split
  · decide
  · split
    · decide
    · split <;> decide

theorem outTarget_off (h4 : outRank s h c ≠ 4) (h5 : outRank s h c ≠ 5) : outTarget s h c = 0 := by
  unfold outTarget
  split
  next e => exact absurd e h4
  next e => exact absurd e h5
  next => rfl

theorem outTarget_safe (h4 : outRank s h c = 4) : outTarget s h c = safeValue s h c := by
  unfold outTarget
  split
  next => rfl
  next e => exact absurd (h4.symm.trans e) (by decide)
  next n _ => exact absurd h4 n

theorem ne_zero_of_isOutMode {m : Nat} (hm : isOutMode m = true) : m ≠ 0 := by
  rintro rfl
  exact absurd hm (by decide)

/-! Where an output comes to rest (R55, R62, R87). -/

/-- A ramp whose cause still decides runs on. -/
theorem resolve_ramping {r : Ramp} (hr : (getChan s h c).ramp = some r) (hd : r.rank = outRank s h c) : resolve h c s = s := by
  unfold resolve
  simp [hr, hd]

/-- An output without a ramp takes the value of its rank, where neither its command decides nor a current output's ramp at SAG3
holds it. -/
theorem drive_resolve (hm : isOutMode (getChan s h c).mode = true) (hr : (getChan s h c).ramp = none) (h5 : outRank s h c ≠ 5)
    (h2 : outRank s h c = 2 → sagRamping s h = false ∨ bit (getHall s h).stat 8 = true) :
    (getChan (resolve h c s) h c).drive = outTarget s h c := by
  have free : ¬ (outRank s h c = 2 ∧ (getChan s h c).mode ≠ 15 ∧ sagRamping s h = true ∧ bit (getHall s h).stat 8 = false) := by
    rintro ⟨e, -, ramp, hot⟩
    rcases h2 e with k | k
    · rw [k] at ramp; cases ramp
    · rw [k] at hot; cases hot
  have go : resolve h c s = pulseGo h c (setDrive h c (outTarget s h c) s) := by
    unfold resolve
    simp only [hm, hr, h5, decide_false, Bool.false_and, Bool.not_true, Bool.false_eq_true, if_false]
    rw [if_neg]
    simpa [and_assoc] using free
  rw [go, pulseGo_alike (p := ChanState.drive) (fun _ _ => rfl) (.refl _ _) h c, drive_setDrive]

/-- An output switched off drives nothing, unless a ramp at SAG3 still holds it. -/
theorem drive_resolve_off (hm : isOutMode (getChan s h c).mode = true) (hr : (getChan s h c).ramp = none)
    (h4 : outRank s h c ≠ 4) (h5 : outRank s h c ≠ 5)
    (h2 : outRank s h c = 2 → sagRamping s h = false ∨ bit (getHall s h).stat 8 = true) :
    (getChan (resolve h c s) h c).drive = 0 := (drive_resolve hm hr h5 h2).trans (outTarget_off h4 h5)

/-- An output that a safe-state cause decides drives its safe value. -/
theorem drive_resolve_safe (hm : isOutMode (getChan s h c).mode = true) (hr : (getChan s h c).ramp = none)
    (h4 : outRank s h c = 4) : (getChan (resolve h c s) h c).drive = safeValue s h c :=
  (drive_resolve hm hr (by rw [h4]; decide) (by rw [h4]; simp)).trans (outTarget_safe h4)

theorem sagRamping_congr (a : chansAlike ChanState.ramp s t) : sagRamping t h = sagRamping s h := by
  unfold sagRamping
  simp only [a h]

/-- Without a ramp in the hall none holds its switched outputs. -/
theorem sagRamping_none (hr : ∀ c < 4, (getChan s h c).ramp = none) : sagRamping s h = false := by
  unfold sagRamping
  rw [List.any_eq_false]
  intro c hc
  rw [hr c (List.mem_range.1 hc)]
  exact Bool.false_ne_true

end

end Sys2Proof.Machine

namespace Sys2Proof.Machine

/-! Commands of a hall: their answers and what the flags they move read. -/

section
variable {h c i : Nat} {b : Bool} {f : State → State} {s t u : State}

/-- A command of a hall without L+ does nothing. -/
theorem next_down {k : Instr} (r : Host.Outcome State Fault Refusal) (e : exec k s = r) (hr : r = hallDo h f s) (hs : Inv s)
    (hd : (getHall s h).up = false) : ∃ t, exec k s = .next t ∧ framed [] s t :=
  ⟨_, e.trans (hr.trans (hallDo_down hd)), framed_settle hs (.refl _ _) (by decide)⟩

/-- A command of a hall with L+ ends with the hall's report. -/
theorem exec_up {k : Instr} (r : Host.Outcome State Fault Refusal) (e : exec k s = r) (hr : r = hallDo h f s)
    (hu : (getHall s h).up = true) : exec k s = done (report h (f s)) := e.trans (hr.trans (hallDo_up hu))

theorem stat_report (h : Nat) (t : State) : (getHall (settle (report h t)) h).stat = (getHall t h).stat :=
  getHall_report (p := HallState.stat) (fun _ _ _ _ => rfl) h h t

theorem Within.hallFlag (a : Within h s t) : Within h s (hallFlag h i b t) := a.updHall

theorem stat_hallFlag (h i : Nat) (b : Bool) (s : State) : (getHall (hallFlag h i b s) h).stat = putBit (getHall s h).stat i b := by
  unfold hallFlag
  rw [getHall_updHall_self]

/-- A rise of a flag that has an event keeps the event. -/
theorem raised_hallFlag (hi : i = 1 ∨ i = 2 ∨ i = 3 ∨ i = 7 ∨ i = 8 ∨ i = 9) (h0 : bit (getHall s h).stat i = false) :
    hallRaised h i (hallFlag h i true s) := by
  have kept : (true && !bit (getHall s h).stat i && (i = 1 || i = 2 || i = 3 || i = 7 || i = 8 || i = 9)) = true := by
    simpa [h0, or_assoc] using hi
  left
  unfold hallFlag
  rw [getHall_updHall_self, if_pos kept]
  exact bit_or_bitMask _ (by omega)

/-- What the operation of channel `c` meets and leaves where each channel's operation keeps to its own channel. -/
theorem forChans_oneChan {Q : State → State → Prop} {f : Nat → State → State} (refl : ∀ s, Q s s)
    (trans : ∀ s t u, Q s t → Q t u → Q s u) (hc : c < 4) (hQ : ∀ d < 4, d ≠ c → ∀ u, Q u (f d u))
    (hf : ∀ d < 4, ∀ u, OneChan h d u (f d u)) :
    ∃ u, changesOnly [.chans] s u ∧ Q s u ∧ getChan u h c = getChan s h c ∧
      getChan (forChans f s) h c = getChan (f c u) h c := by
  obtain ⟨u, ⟨parts, q, before⟩, -, -, after⟩ := forChans_at (f := f) (s := s)
    (Q := fun s t => changesOnly [.chans] s t ∧ Q s t ∧ getChan t h c = getChan s h c)
    (fun s => ⟨.refl _ _, refl s, rfl⟩) (fun s t u a b => ⟨a.1.trans b.1, trans _ _ _ a.2.1 b.2.1, b.2.2.trans a.2.2⟩) hc
    fun d hd n u => ⟨(hf d hd u).parts, hQ d hd n u, (hf d hd u).others h c (by omega)⟩
  exact ⟨u, parts, q, before, after⟩

/-- What an output meets when the outputs of its hall are brought to their states in turn. -/
theorem resolveAll_at (hc : c < 4) (s : State) : ∃ u, changesOnly [.chans] s u ∧ (noNewRamp s u ∧ chansAlike outputRest s u) ∧
    getChan u h c = getChan s h c ∧ getChan (resolveAll h s) h c = getChan (resolve h c u) h c :=
  forChans_oneChan (Q := fun s t => noNewRamp s t ∧ chansAlike outputRest s t) (fun s => ⟨fun _ _ => id, .refl _ s⟩)
    (fun _ _ _ a b => ⟨a.1.trans b.1, a.2.trans b.2⟩) hc (fun _ _ _ u => ⟨resolve_noNewRamp u, resolve_rest (.refl _ u)⟩)
    fun _ _ u => (OneChan.refl h _ u).resolve

end

/-! HALL_STATUS and the flags of the channels that follow it (R60, R61, R64, R69). -/

section
variable {h : Hall} {b : Bool} {s : State}

/-- A command that moves one flag of a hall. -/
theorem hallFlag_next {k : Instr} {i : Nat} (hs : Inv s) (e : exec k s = done (report h (hallFlag h i b s))) :
    ∃ t, exec k s = .next t ∧ (getHall t h).stat = putBit (getHall s h).stat i b ∧
      ((i = 1 ∨ i = 2 ∨ i = 3 ∨ i = 7 ∨ i = 8 ∨ i = 9) → b = true → bit (getHall s h).stat i = false → hallRaised h i t) ∧
      hallOnly h s t := by
  refine ⟨_, e, (stat_report h _).trans (stat_hallFlag ..), fun hi hb h0 => ?_, (Within.refl h s).hallFlag.frame hs⟩
  subst hb
  exact hallRaised_report h.isLt (raised_hallFlag hi h0)

/-- The risk flags of the channels follow the hall's SAG2. -/
theorem forChans_riskOf {h c : Nat} (hc : c < 4) (s : State) :
    bit (getChan (forChans (riskOf h) s) h c).stat 12 = (bit (getHall s h).stat 2 && modeOf s h c = 15) ∧
      bit (getChan (forChans (riskOf h) s) h c).stat 13 = (bit (getHall s h).stat 2 && modeOf s h c = 5) := by
  obtain ⟨u, parts, -, before, after⟩ := forChans_oneChan (Q := fun _ _ => True) (f := riskOf h) (s := s) (fun _ => trivial)
    (fun _ _ _ _ _ => trivial) hc (fun _ _ _ _ => trivial) fun d _ u => (OneChan.refl h d u).riskOf
  have mode : modeOf s h c = modeOf u h c := by unfold modeOf; rw [before]
  rw [after, mode, ← halls_of_changes parts]
  unfold riskOf chFlag
  simp only [getChan_updChan_self]
  exact ⟨by rw [bit_putBit_other _ (by decide) (by decide), bit_putBit _ (by decide)], bit_putBit _ (by decide) _⟩

theorem sag2_next {k : Instr} (hs : Inv s) (e : exec k s = done (report h (forChans (riskOf h) (hallFlag h 2 b s)))) :
    ∃ t, exec k s = .next t ∧ (getHall t h).stat = putBit (getHall s h).stat 2 b ∧
      (b = true → bit (getHall s h).stat 2 = false → hallRaised h 2 t) ∧
      (∀ c < 4, bit (getChan t h c).stat 12 = (b && modeOf s h c = 15) ∧ bit (getChan t h c).stat 13 = (b && modeOf s h c = 5)) ∧
      hallOnly h s t := by
  have risks : changesOnly [.chans] (hallFlag h 2 b s) (forChans (riskOf h) (hallFlag h 2 b s)) :=
    forChans_into (fun _ _ => riskOf_changes rfl (.refl _ _)) (.refl _ _)
  refine ⟨_, e, ?_, fun hb h0 => hallRaised_report h.isLt ?_, fun c hc => ?_, Within.frame hs (.forChans (fun c hc u => ?_)
    (Within.refl _ s).hallFlag)⟩
  · rw [stat_report, halls_of_changes risks, stat_hallFlag]
  · subst hb
    rcases raised_hallFlag (h := h) (i := 2) (by decide) h0 with r | r
    · exact .inl (by rwa [halls_of_changes risks])
    · exact .inr (by rwa [getReg_congr (risks .regs (by decide))])
  · obtain ⟨compl, loop⟩ := forChans_riskOf (h := h) hc (hallFlag h 2 b s)
    rw [stat_hallFlag, bit_putBit _ (by decide)] at compl loop
    constructor
    · exact (congrArg (bit · 12) (getChan_report (p := ChanState.stat) (fun _ _ _ => rfl) h c _)).trans compl
    · exact (congrArg (bit · 13) (getChan_report (p := ChanState.stat) (fun _ _ _ => rfl) h c _)).trans loop
  · exact (OneChan.refl h c u).riskOf.within hc

/-! DIE_TEMP_MEASURE (R70). -/

/-- The temperature taken, and HALL_HOT with it. -/
def hotNoted (h : Nat) (d : Int) (s : State) : State :=
  let u := updHall h (fun x => { x with tdie := d }) s
  if 1200 < d then hallFlag h 7 true u else if d < 1150 then hallFlag h 7 false u else u

variable {d : Int}

theorem Within.hotNoted {h : Nat} (s : State) : Within h s (hotNoted h d s) :=
  .ite (.hallFlag (.updHall (.refl h s))) (.ite (.hallFlag (.updHall (.refl h s))) (.updHall (.refl h s)))

theorem tdie_hallFlag {h : Nat} (i : Nat) (b : Bool) (s : State) : (getHall (hallFlag h i b s) h).tdie = (getHall s h).tdie := by
  unfold hallFlag
  rw [getHall_updHall_self]

theorem up_hallFlag {h : Nat} (i : Nat) (b : Bool) (s : State) : (getHall (hallFlag h i b s) h).up = (getHall s h).up := by
  unfold hallFlag
  rw [getHall_updHall_self]

theorem hotNoted_hall {h : Nat} (s : State) : (getHall (hotNoted h d s) h).tdie = d ∧ (getHall (hotNoted h d s) h).up = (getHall s h).up ∧
    bit (getHall (hotNoted h d s) h).stat 7 = (if 1200 < d then true else if d < 1150 then false else bit (getHall s h).stat 7) ∧
    bit (getHall (hotNoted h d s) h).stat 8 = bit (getHall s h).stat 8 := by
  unfold hotNoted
  dsimp only
  split
  · rw [tdie_hallFlag, up_hallFlag, stat_hallFlag, getHall_updHall_self]
    exact ⟨rfl, rfl, bit_putBit _ (by decide) _, bit_putBit_other _ (by decide) (by decide) _⟩
  · split
    · rw [tdie_hallFlag, up_hallFlag, stat_hallFlag, getHall_updHall_self]
      exact ⟨rfl, rfl, bit_putBit _ (by decide) _, bit_putBit_other _ (by decide) (by decide) _⟩
    · rw [getHall_updHall_self]
      exact ⟨rfl, rfl, rfl, rfl⟩

/-- An output of a hall too hot is off. -/
theorem drive_overtemp {h c : Nat} {s : State} (hc : c < 4) (hu : (getHall s h).up = true) (hb : bit (getHall s h).stat 8 = true)
    (hm : isOutMode (modeOf s h c) = true) (hr : (getChan s h c).ramp = none) :
    (getChan (resolveAll h s) h c).drive = 0 := by
  obtain ⟨u, parts, -, before, after⟩ := resolveAll_at (h := h) hc s
  have hall := halls_of_changes parts h
  have rank : outRank u h c = 2 := outRank_sag (hall ▸ hu) (before ▸ ne_zero_of_isOutMode hm) (.inr (hall ▸ hb))
  rw [after]
  exact drive_resolve_off (before ▸ hm) (before ▸ hr) (by rw [rank]; decide) (by rw [rank]; decide) fun _ => .inr (hall ▸ hb)

theorem dieTempMeasure_next (hs : Inv s) (hu : (getHall s h).up = true) :
    ∃ t, exec (.dieTempMeasure h d) s = .next t ∧ (getHall t h).tdie = d ∧
      bit (getHall t h).stat 7 = (if 1200 < d then true else if d < 1150 then false else bit (getHall s h).stat 7) ∧
      bit (getHall t h).stat 8 = (bit (getHall s h).stat 8 || decide (1400 < d)) ∧
      (1400 < d → ∀ c < 4, isOutMode (modeOf s h c) = true → (getChan s h c).ramp = none → (getChan t h c).drive = 0) ∧
      hallOnly h s t := by
  obtain ⟨tdie, up, hot, trip⟩ := hotNoted_hall (h := h) (d := d) s
  have e : exec (.dieTempMeasure h d) s =
      done (report h (if 1400 < d then resolveAll h (hallFlag h 8 true (hotNoted h d s)) else hotNoted h d s)) :=
    exec_up (execDieTempMeasure h d s) rfl rfl hu
  by_cases hd : 1400 < d
  · rw [if_pos hd] at e
    have moved : changesOnly [.chans] (hallFlag h 8 true (hotNoted h d s)) (resolveAll h (hallFlag h 8 true (hotNoted h d s))) :=
      resolveAll_changes rfl (.refl _ _)
    refine ⟨_, e, ?_, ?_, ?_, fun _ c hc hm hr => ?_, Within.frame hs (.resolveAll (.hallFlag (.hotNoted s)))⟩
    · exact (getHall_report (p := HallState.tdie) (fun _ _ _ _ => rfl) h h _).trans
        (by rw [halls_of_changes moved, tdie_hallFlag, tdie])
    · rw [stat_report, halls_of_changes moved, stat_hallFlag, bit_putBit_other _ (by decide) (by decide), hot]
    · rw [stat_report, halls_of_changes moved, stat_hallFlag, bit_putBit _ (by decide), decide_eq_true hd, Bool.or_true]
    · refine (getChan_report (p := ChanState.drive) (fun _ _ _ => rfl) h c _).trans ?_
      have chan : getChan (hallFlag h 8 true (hotNoted h d s)) h c = getChan s h c := by
        unfold hallFlag hotNoted
        dsimp only
        split
        · rfl
        · split <;> rfl
      refine drive_overtemp hc ((up_hallFlag ..).trans (up.trans hu)) (by rw [stat_hallFlag, bit_putBit _ (by decide)]) ?_ (chan ▸ hr)
      unfold modeOf
      rw [chan]
      exact hm
  · rw [if_neg hd] at e
    refine ⟨_, e, ?_, ?_, ?_, fun k => absurd k hd, Within.frame hs (.hotNoted s)⟩
    · exact (getHall_report (p := HallState.tdie) (fun _ _ _ _ => rfl) h h _).trans tdie
    · rw [stat_report, hot]
    · rw [stat_report, trip, decide_eq_false hd, Bool.or_false]

/-! HALL_OVERTEMP_END (R70). -/

/-- Leaving a cause moves of a hall's own state the time of its next switch-on. -/
theorem getHall_leaveAll (l : Latch) (h k : Nat) (s : State) : getHall (leaveAll l h s) k =
    getHall (updHall h (fun x => { x with nextOn := s.time.now + 200000 }) s) k := by
  unfold leaveAll
  refine halls_of_changes ?_ k
  refine forChans_into (fun _ _ => resolve_changes rfl (.refl _ _)) (forChans_into (fun _ _ => leaveSafe_changes rfl (.refl _ _))
    (forChans_into (fun _ _ => updChan_changes rfl (.refl _ _)) (.refl _ _)))

theorem hallOvertempEnd_next (hs : Inv s) (hu : (getHall s h).up = true) :
    ∃ t, exec (.hallOvertempEnd h) s = .next t ∧ bit (getHall t h).stat 8 = false ∧ hallOnly h s t := by
  have e : exec (.hallOvertempEnd h) s =
      done (report h (if bit (getHall s h).stat 8 then leaveAll .off h (hallFlag h 8 false s) else s)) :=
    exec_up (execHallOvertempEnd h s) rfl rfl hu
  cases hb : bit (getHall s h).stat 8 with
  | true =>
    rw [hb, if_pos rfl] at e
    refine ⟨_, e, ?_, Within.frame hs (.leaveAll (.hallFlag (.refl _ s)))⟩
    rw [stat_report, getHall_leaveAll, getHall_updHall_self]
    exact (congrArg (bit · 8) (stat_hallFlag ..)).trans (bit_putBit _ (by decide) _)
  | false =>
    rw [hb, if_neg (by decide)] at e
    exact ⟨_, e, by rw [stat_report, hb], Within.frame hs (.refl _ s)⟩

end

/-- Settles O34: each command moves its flag, and the outputs follow where the flag decides them. -/
theorem hallStatusFlagsFollowMeasures : Obligations.HallStatusFlagsFollowMeasures := by
  intro h d b s hs
  refine ⟨fun hd k hk => ?_, fun hu => ?_⟩
  · simp only [List.mem_cons, List.not_mem_nil, or_false] at hk
    rcases hk with rfl | rfl | rfl | rfl | rfl | rfl | rfl | rfl | rfl | rfl | rfl
    · exact next_down (execSag1 h s) rfl rfl hs hd
    · exact next_down (execSag1Clear h s) rfl rfl hs hd
    · exact next_down (execSag2 h s) rfl rfl hs hd
    · exact next_down (execSag2Clear h s) rfl rfl hs hd
    · exact next_down (execLpOverDecl h b s) rfl rfl hs hd
    · exact next_down (execRecovering h b s) rfl rfl hs hd
    · exact next_down (execDieTempMeasure h d s) rfl rfl hs hd
    · exact next_down (execHallOvertempEnd h s) rfl rfl hs hd
    · exact next_down (execSag3 h s) rfl rfl hs hd
    · exact next_down (execRecoveryEnd h s) rfl rfl hs hd
    · exact next_down (execRestoreSwitchOn h s) rfl rfl hs hd
  · intro st
    refine ⟨?_, ?_, ?_, ?_, ?_, ?_, dieTempMeasure_next hs hu, hallOvertempEnd_next hs hu⟩
    · obtain ⟨t, e, stat, raised, only⟩ := hallFlag_next (k := .sag1 h) hs (exec_up (execSag1 h s) rfl rfl hu)
      exact ⟨t, e, stat, raised (by decide) rfl, only⟩
    · obtain ⟨t, e, stat, -, only⟩ := hallFlag_next (k := .sag1Clear h) hs (exec_up (execSag1Clear h s) rfl rfl hu)
      exact ⟨t, e, stat, only⟩
    · have e : exec (.sag2 h) s = done (report h (forChans (riskOf h) (hallFlag h 2 true s))) :=
        exec_up (f := fun t => forChans (riskOf h) (hallFlag h 2 true t)) (execSag2 h s) rfl rfl hu
      obtain ⟨t, e, stat, raised, risks, only⟩ := sag2_next hs e
      exact ⟨t, e, stat, raised rfl, fun c hc => by simpa using risks c hc, only⟩
    · have e : exec (.sag2Clear h) s = done (report h (forChans (riskOf h) (hallFlag h 2 false s))) :=
        exec_up (f := fun t => forChans (riskOf h) (hallFlag h 2 false t)) (execSag2Clear h s) rfl rfl hu
      obtain ⟨t, e, stat, -, risks, only⟩ := sag2_next hs e
      exact ⟨t, e, stat, fun c hc => by simpa using risks c hc, only⟩
    · obtain ⟨t, e, stat, raised, only⟩ := hallFlag_next (k := .lpOverDecl h b) hs (exec_up (execLpOverDecl h b s) rfl rfl hu)
      exact ⟨t, e, stat, raised (by decide), only⟩
    · have e : exec (.recovering h b) s = done (report h (hallFlag h 4 (b && bit (getHall s h).stat 3) s)) :=
        exec_up (f := fun t => hallFlag h 4 (b && bit (getHall t h).stat 3) t) (execRecovering h b s) rfl rfl hu
      obtain ⟨t, e, stat, -, only⟩ := hallFlag_next hs e
      exact ⟨t, e, stat, only⟩

end Sys2Proof.Machine

namespace Sys2Proof.Machine

/-! The words that the state of a hall gives, and what of them stays when its status frames end (R32, R34). -/

section
variable {h a : Nat} {s t : State}

/-- Where such a word stands: in the hall's block, in one of its two converters' or in its rotation's. -/
theorem heldAddrs_range (hh : h < 8) (ha : a ∈ heldAddrs h) :
    (0x0400 ≤ a ∧ a < 0x0C00 ∧ (a - 0x400) % 0x100 = 0x41 ∧ (a - 0x400) / 0x100 = h) ∨
    (0x0C00 ≤ a ∧ a < 0x1400 ∧ (a - 0xC00) % 0x80 = 0x04 ∧ (a - 0xC00) / 0x100 = h) ∨
    (0x1400 ≤ a ∧ a < 0x1600 ∧ (a - 0x1400) / 0x40 = h) := by
  simp only [heldAddrs, List.mem_append, List.mem_cons, List.mem_map, List.not_mem_nil, or_false, exists_eq_or_imp,
    exists_eq_left] at ha
  unfold aHall aConv aRot at ha
  omega

theorem heldHall_eq (hh : h < 8) (ha : a ∈ heldAddrs h) : heldHall a = h := by
  unfold heldHall
  have := heldAddrs_range hh ha
  split
  · omega
  · split <;> omega

/-- The word of a hall's state as the logic die reads it (R7, R10, R32). -/
theorem liveWord_held (hh : h < 8) (ha : a ∈ heldAddrs h) (s : State) : liveWord s a =
    if logicUp s then (if (getHall s h).linked then (heldWord s a).getD (getReg s a) else getReg s a) else resetWord a := by
  have late : beforeImage s a = false := by
    have := heldAddrs_range hh ha
    unfold beforeImage
    simp only [show a ≠ 0x2901 by omega, show a ≠ 0x2908 by omega, show a ≠ 0x0213 by omega, decide_false, Bool.false_and,
      Bool.or_false, Bool.and_false]
  have field : liveField s a = if (getHall s h).linked then heldWord s a else none := by
    unfold liveField
    rw [heldHall_eq hh ha]
    rcases heldAddrs_range hh ha with ⟨h1, h2, h3, -⟩ | ⟨h1, h2, h3, -⟩ | ⟨h1, h2, -⟩
    · rw [if_pos ⟨h1, h2⟩]
      exact if_pos h3
    · rw [if_neg (by omega), if_pos ⟨h1, h2⟩]
      simp only [h3]
    · rw [if_neg (by omega), if_neg (by omega), if_pos ⟨h1, h2⟩]
  have live : liveWord1 s a = (if (getHall s h).linked then (heldWord s a).getD (getReg s a) else getReg s a) := by
    have := heldAddrs_range hh ha
    unfold liveWord1
    rw [if_neg (show ¬ a < 0x400 by omega), if_pos (show a < 0x1800 by omega), field]
    cases (getHall s h).linked with
    | false => rfl
    | true => cases heldWord s a <;> rfl
  unfold liveWord
  rw [late, Bool.or_false, if_neg (show a ≠ 0x0213 by have := heldAddrs_range hh ha; omega), live]
  cases logicUp s <;> rfl

/-- The word of the state `s` at `a`, where it gives one, stored. -/
def storeWord (s t : State) (a : Nat) : State :=
  match heldWord s a with
  | some w => setReg a w t
  | none => t

theorem getReg_storeWord (s t : State) (a b : Nat) :
    getReg (storeWord s t b) a = if a = b then (heldWord s a).getD (getReg t a) else getReg t a := by
  unfold storeWord
  by_cases e : a = b
  · subst e
    cases heldWord s a with
    | some w => simp
    | none => simp
  · rw [if_neg e]
    cases heldWord s b with
    | some w => exact getReg_setReg_other e w t
    | none => rfl

theorem storeWord_changes (s t : State) (a : Nat) : changesOnly [.regs] t (storeWord s t a) := by
  unfold storeWord
  split
  · exact setReg_changes rfl (.refl _ _)
  · exact .refl _ _

/-- The words of a list of addresses, stored. -/
def wordsStored (s : State) (l : List Nat) (t : State) : State := l.foldl (storeWord s) t

theorem getReg_wordsStored (s : State) (l : List Nat) (t : State) (a : Nat) :
    getReg (wordsStored s l t) a = if a ∈ l then (heldWord s a).getD (getReg t a) else getReg t a := by
  induction l generalizing t with
  | nil => rfl
  | cons b l ih =>
    refine (ih (storeWord s t b)).trans ?_
    rw [getReg_storeWord]
    by_cases e : a = b
    · subst e
      cases heldWord s a <;> simp
    · simp [e]

theorem unlink_linked (hl : (getHall s h).linked = true) :
    unlink h s = updHall h (fun x => { x with linked := false }) (wordsStored s (heldAddrs h) s) := if_pos hl

theorem unlink_unlinked (hl : (getHall s h).linked = false) : unlink h s = s := if_neg (by rw [hl]; decide)

theorem wordsStored_changes (s : State) (l : List Nat) (t : State) : changesOnly [.regs] t (wordsStored s l t) :=
  changesOnly.foldl (fun u a => storeWord_changes s u a) l t (.refl _ _)

/-- The end of a hall's status frames leaves the hall but for its link. -/
theorem getHall_unlink (h : Nat) (s : State) : getHall (unlink h s) h = { getHall s h with linked := false } := by
  cases hl : (getHall s h).linked with
  | true =>
    have same : getHall (wordsStored s (heldAddrs h) s) h = getHall s h := by
      unfold getHall
      rw [(wordsStored_changes s _ s .halls (by decide) : (wordsStored s (heldAddrs h) s).halls = s.halls)]
    rw [unlink_linked hl, getHall_updHall_self, same]
  | false =>
    rw [unlink_unlinked hl, ← hl]

theorem unlink_apart (h : Nat) (s : State) : Apart h s (unlink h s) := by
  cases hl : (getHall s h).linked with
  | true =>
    rw [unlink_linked hl]
    exact (apart_of_changes (wordsStored_changes s _ s) (by decide)).trans (updHall_apart _ _)
  | false => rw [unlink_unlinked hl]; exact .refl _ _

theorem unlink_held (h : Nat) (s : State) : regsOutside (· ∈ heldAddrs h) s (unlink h s) := by
  intro a ha
  cases hl : (getHall s h).linked with
  | true =>
    rw [unlink_linked hl, getReg_updHall, getReg_wordsStored, if_neg ha]
  | false => rw [unlink_unlinked hl]

/-- The words of a hall's state read as they last did once its status frames have ended (R34). -/
theorem liveWord_unlink (hh : h < 8) (ha : a ∈ heldAddrs h) (hc : t.clk = s.clk) (hl : (getHall t h).linked = false)
    (hr : getReg t a = getReg (unlink h s) a) : liveWord t a = liveWord s a := by
  rw [liveWord_held hh ha, liveWord_held hh ha, logicUp_congr hc, hl, hr]
  cases e : (getHall s h).linked with
  | true =>
    rw [unlink_linked e, getReg_updHall, getReg_wordsStored, if_pos ha]
    simp
  | false =>
    rw [unlink_unlinked e]
    simp

end

end Sys2Proof.Machine

namespace Sys2Proof.Machine

/-! UNDER_VOLTAGE_RESET and HALL_UVR_EXIT (R36, R63, R170, R421). -/

section
variable {h c : Nat} {s t : State}

/-- The converters of a hall stopped and their gains forgotten, and its rotation abandoned. -/
def hallStopped (h : Nat) (s : State) : State :=
  updConv (2 * h + 1) (fun x => { x with autoGain := [], lastGain := [], lastOvr := none })
    (updConv (2 * h) (fun x => { x with autoGain := [], lastGain := [], lastOvr := none }) (rotAbandon h (stopHall h s)))

/-- The channels of a hall cleared but for what survives of its pulse inputs. -/
def chansCleared (h : Nat) (s : State) : State :=
  forChans (fun c => updChan h c (fun x => { chanReset with pcnt := x.pcnt, level := x.level })) s

theorem hallReset1_eq (h : Nat) (s : State) : hallReset1 h s = chansCleared h (updHall h hallCleared (hallStopped h s)) := rfl

theorem Apart.updHall {f : HallState → HallState} (a : Apart h s t) : Apart h s (updHall h f t) := a.trans (updHall_apart f t)

theorem Apart.updConv {n : Nat} {f : ConvState → ConvState} (a : Apart h s t) : Apart h s (updConv n f t) :=
  a.trans (apart_of_changes (F := [.convs]) (updConv_changes rfl (.refl _ _)) (by decide))

theorem hallStopped_apart (h : Nat) (s : State) : Apart h s (hallStopped h s) :=
  .updConv (.updConv (.updHall (.updHall (.updConv (.updConv (.refl h s))))))

theorem hallStopped_convs (h : Nat) (s : State) : convsOutside (fun n => n / 2 = h) s (hallStopped h s) := by
  have even : 2 * h / 2 = h := by omega
  have odd : (2 * h + 1) / 2 = h := by omega
  refine updConv_hall odd (updConv_hall even ?_)
  exact convsOutside.skip (G := [.halls]) (updHall_changes rfl (.refl _ _)) (by decide)
    (convsOutside.skip (G := [.halls]) (updHall_changes rfl (.refl _ _)) (by decide) (updConv_hall odd (updConv_hall even (.refl _ s))))

/-- A converter that does nothing. -/
def convIdle (n : Nat) (s : State) : Prop := (getConv s n).phase = .idle ∧ (getConv s n).role = .none

theorem convIdle.updConv {m n : Nat} {f : ConvState → ConvState} (hf : ∀ x, (f x).phase = x.phase ∧ (f x).role = x.role)
    (a : convIdle n s) : convIdle n (updConv m f s) := by
  unfold convIdle at *
  by_cases e : n = m
  · subst e
    rw [getConv_updConv_self, (hf _).1, (hf _).2]
    exact a
  · rw [getConv_updConv_other e]
    exact a

theorem convIdle_convStop (n : Nat) (s : State) : convIdle n (convStop n s) := by
  unfold convIdle convStop
  rw [getConv_updConv_self]
  exact ⟨rfl, rfl⟩

theorem convIdle.convStop {m n : Nat} (a : convIdle n s) : convIdle n (convStop m s) := by
  by_cases e : n = m
  · exact e ▸ convIdle_convStop n s
  · unfold convIdle Machine.convStop at *
    rwa [getConv_updConv_other e]

theorem hallStopped_idle {k : Nat} (hk : k < 2) : convIdle (2 * h + k) (hallStopped h s) := by
  have stopped : convIdle (2 * h + k) (convStop (2 * h + 1) (convStop (2 * h) s)) :=
    match k, hk with
    | 0, _ => (convIdle_convStop _ s).convStop
    | 1, _ => convIdle_convStop _ _
  exact convIdle.updConv (fun _ => ⟨rfl, rfl⟩) (convIdle.updConv (fun _ => ⟨rfl, rfl⟩) stopped)

theorem chansCleared_changes (h : Nat) (s : State) : changesOnly [.chans] s (chansCleared h s) :=
  forChans_into (fun _ _ => updChan_changes rfl (.refl _ _)) (.refl _ _)

theorem getChan_chansCleared (hc : c < 4) : getChan (chansCleared h s) h c =
    { chanReset with pcnt := (getChan s h c).pcnt, level := (getChan s h c).level } := by
  obtain ⟨u, -, -, before, after⟩ := forChans_oneChan (Q := fun _ _ => True)
    (f := fun c => updChan h c (fun x => { chanReset with pcnt := x.pcnt, level := x.level })) (s := s) (fun _ => trivial)
    (fun _ _ _ _ _ => trivial) hc (fun _ _ _ _ => trivial) fun d _ u => (OneChan.refl h d u).updChan
  rw [chansCleared, after, getChan_updChan_self, before]

/-- A hall after its under-voltage reset. -/
theorem getHall_hallReset1 (h : Nat) (s : State) : ∃ x, getHall (hallReset1 h s) h = hallCleared x ∧
    x.kept0 = (getHall s h).kept0 ∧ x.kept1 = (getHall s h).kept1 ∧ x.linked = (getHall s h).linked := by
  refine ⟨getHall (hallStopped h s) h, ?_, ?_⟩
  · rw [hallReset1_eq, halls_of_changes (chansCleared_changes h _), getHall_updHall_self]
  · unfold hallStopped rotAbandon stopHall
    simp only [getHall_updConv, getHall_updHall_self]
    exact ⟨rfl, rfl, rfl⟩

/-- The hall's own state cleared, and its channels. -/
theorem hallReset1_cleared (h : Nat) (s : State) : changesOnly [.halls, .chans] (hallStopped h s) (hallReset1 h s) :=
  (updHall_changes rfl (.refl _ _)).trans ((chansCleared_changes h _).mono rfl)

theorem hallReset1_apart (h : Nat) (s : State) : Apart h s (hallReset1 h s) :=
  (hallStopped_apart h s).trans (Within.forChans (fun _ hc u => (Within.refl h u).updChan hc) (Within.refl h _).updHall).2

theorem hallReset1_convs (h : Nat) (s : State) : convsOutside (fun n => n / 2 = h) s (hallReset1 h s) :=
  (hallStopped_convs h s).skip (hallReset1_cleared h s) (by decide)

theorem hallReset1_idle {k : Nat} (hk : k < 2) : convIdle (2 * h + k) (hallReset1 h s) := by
  unfold convIdle
  rw [getConv_congr (hallReset1_cleared h s .convs (by decide))]
  exact hallStopped_idle hk

end

section
variable {h : Hall} {s : State}

/-- UNDER_VOLTAGE_RESET of a hall with L+. -/
theorem underVoltageReset_next (hs : Inv s) (hu : (getHall s h).up = true) :
    ∃ t, exec (.underVoltageReset h) s = .next t ∧ (getHall t h).up = false ∧ (getHall t h).cfg = [] ∧
      (getHall t h).crc = none ∧ (getHall t h).active = false ∧ (getHall t h).running = false ∧
      (getHall t h).ret0 = (getHall s h).kept0 ∧ (getHall t h).ret1 = (getHall s h).kept1 ∧
      (getHall t h).kept0 = (getHall s h).kept0 ∧ (getHall t h).kept1 = (getHall s h).kept1 ∧
      (∀ c < 4, (getChan t h c).mode = 0 ∧ (getChan t h c).drive = 0 ∧ (getChan t h c).ramp = none) ∧
      (∀ k < 2, (getConv t (2 * h + k)).phase = .idle ∧ (getConv t (2 * h + k)).role = .none) ∧
      (∀ a ∈ heldAddrs h, liveWord t a = liveWord s a) ∧ framed [.regs, .halls, .chans, .convs] s t ∧
      regsOutside (· ∈ heldAddrs h) s t ∧ hallApart h s t ∧ convsOutside (fun n => n / 2 = h.val) s t := by
  let u := hallReset1 h (unlink h s)
  have e : exec (.underVoltageReset h) s = done u := by
    show done (if (getHall s h).up then hallReset1 h (unlink h s) else s) = _
    rw [if_pos hu]
  obtain ⟨x, hall, kept0, kept1, linked⟩ := getHall_hallReset1 h (unlink h s)
  rw [getHall_unlink] at kept0 kept1 linked
  have hall : getHall (settle u) h = hallCleared x := (getHall_settle ..).trans hall
  have parts : changesOnly [.halls, .regs, .convs, .chans] s u := hallReset1_changes rfl (unlink_changes rfl (.refl _ _))
  have regs (a : Nat) : getReg (settle u) a = getReg (unlink h s) a :=
    (getReg_settle ..).trans (hallReset1_regs (.refl (fun _ => False) _) a id)
  refine ⟨_, e, by rw [hall]; rfl, by rw [hall]; rfl, by rw [hall]; rfl, by rw [hall]; rfl, by rw [hall]; rfl,
    by rw [hall]; exact kept0, by rw [hall]; exact kept1, by rw [hall]; exact kept0, by rw [hall]; exact kept1,
    fun c hc => ?_, fun k hk => ?_, fun a ha => ?_, framed_settle hs (parts.mono rfl) (by decide), fun a ha => ?_, ?_, ?_⟩
  · rw [getChan_settle, show getChan u h c = _ from getChan_chansCleared hc]
    exact ⟨rfl, rfl, rfl⟩
  · rw [getConv_settle]
    exact hallReset1_idle hk
  · refine liveWord_unlink h.isLt ha ((clk_settle u).trans (parts .clk (by decide))) ?_ (regs a)
    rw [hall]
    exact linked
  · rw [regs, unlink_held h s a ha]
  · exact (settle_apart ((unlink_apart h s).trans (hallReset1_apart h _))).1
  · intro n hn
    rw [getConv_settle, hallReset1_convs h _ n hn]
    exact getConv_congr ((unlink_changes rfl (.refl _ _) : changesOnly [.halls, .regs] s (unlink h s)) .convs (by decide)) n

end

/-- Settles O37: the words the logic die held stay, and the hall with its channels and converters is as after its reset. -/
theorem underVoltageResetAndExit : Obligations.UnderVoltageResetAndExit := by
  intro h s hs
  refine ⟨fun hd => ⟨?_, ?_⟩, fun hu => ⟨?_, underVoltageReset_next hs hu⟩⟩
  · have e : exec (.underVoltageReset h) s = done s := by
      show done (if (getHall s h).up then hallReset1 h (unlink h s) else s) = _
      rw [if_neg (by rw [hd]; decide)]
    exact ⟨_, e, framed_settle hs (.refl _ _) (by decide)⟩
  · have e : exec (.hallUvrExit h) s =
        done (updHall h (fun x => { x with up := true, stat := bitMask 3, uvrSag := true, uvrEvt := false }) s) := by
      show execHallUvrExit h s = _
      unfold execHallUvrExit
      rw [if_neg (by rw [hd]; decide)]
    refine ⟨_, e, framed_settle hs (updHall_changes rfl (.refl _ _)) (by decide), (settle_apart (updHall_apart _ s)).1, ?_⟩
    rw [getHall_settle, getHall_updHall_self]
    rfl
  · have e : exec (.hallUvrExit h) s = done s := by
      show execHallUvrExit h s = _
      unfold execHallUvrExit
      rw [if_pos hu]
    exact ⟨_, e, framed_settle hs (.refl _ _) (by decide)⟩

end Sys2Proof.Machine

namespace Sys2Proof.Machine

/-! What an operation leaves of a flag of the channels. -/

/-- Flag `j` of every channel reads the same. -/
def flagKept (j : Nat) (s t : State) : Prop := chansAlike (fun x => bit x.stat j) s t

section
variable {h c i j : Nat} {b : Bool} {s t u : State}

theorem flagKept.refl (j : Nat) (s : State) : flagKept j s s := chansAlike.refl _ s

theorem flagKept.trans (a : flagKept j s t) (k : flagKept j t u) : flagKept j s u := chansAlike.trans a k

theorem flagKept.ite {p : Prop} [Decidable p] (a : flagKept j s t) (k : flagKept j s u) : flagKept j s (if p then t else u) :=
  chansAlike.ite a k

theorem flagKept.updChan {f : ChanState → ChanState} (hf : ∀ x, (f x).stat = x.stat) (a : flagKept j s t) :
    flagKept j s (updChan h c f t) := chansAlike.updChan (fun x => congrArg (bit · j) (hf x)) a

theorem flagKept.chFlag (hi : i < 32) (hj : j ≠ i) (a : flagKept j s t) : flagKept j s (chFlag h c i b t) :=
  chansAlike.updChan (fun x => bit_putBit_other x.stat hi hj b) a

theorem flagKept.resolve (h8 : j ≠ 8) (h5 : j ≠ 5) (a : flagKept j s t) : flagKept j s (resolve h c t) :=
  a.trans fun _ _ => resolve_bit h8 h5 t

theorem flagKept.latchOff {l : Latch} (h7 : j ≠ 7) (h9 : j ≠ 9) (a : flagKept j s t) : flagKept j s (latchOff l h c t) :=
  .chFlag (by decide) h7 (.chFlag (by decide) h9 (a.updChan fun _ => rfl))

theorem flagKept.cutLatch (hj : j ≠ 5 ∧ j ≠ 7 ∧ j ≠ 8 ∧ j ≠ 9) (a : flagKept j s t) : flagKept j s (cutLatch h c t) := by
  obtain ⟨h5, h7, h8, h9⟩ := hj
  exact .resolve h8 h5 (.latchOff h7 h9 (a.updChan fun _ => rfl))

theorem stat_chFlag (h c i : Nat) (b : Bool) (s : State) : (getChan (chFlag h c i b s) h c).stat = putBit (getChan s h c).stat i b := by
  unfold chFlag
  rw [getChan_updChan_self]

theorem bit_chFlag (hi : i < 32) : bit (getChan (chFlag h c i b s) h c).stat i = b := by
  rw [stat_chFlag]
  exact bit_putBit _ hi b

/-- What moving an output leaves of a channel but for its output. -/
theorem resolve_view {α : Type} {q : ChanState → α} (hq : ∀ x, q x = q (outputCore x)) (a : chansAlike q s t) :
    chansAlike q s (resolve h c t) := a.trans ((resolve_core (.refl _ t)).view q hq)

/-- A channel but for its output and for what leaving a cause stores: the latch and what it waits for. -/
def leaveCore (x : ChanState) : ChanState := { outputCore x with latch := .none, restoreDue := false, queued := false }

theorem leaveSafe_core {l : Latch} (a : chansAlike leaveCore s t) : chansAlike leaveCore s (leaveSafe l h c t) := by
  have moved {u : State} (k : chansAlike leaveCore s u) : chansAlike leaveCore s (Machine.resolve h c u) := resolve_view (fun _ => rfl) k
  have stored {f : ChanState → ChanState} (hf : ∀ x, leaveCore (f x) = leaveCore x) : chansAlike leaveCore s (Machine.updChan h c f t) :=
    a.updChan hf
  unfold leaveSafe
  refine .ite a (.ite (moved (chFlag_alike (fun _ _ _ => rfl) (stored fun _ => rfl))) (.ite (.ite (moved (stored fun _ => rfl))
    (.ite ?_ (.ite (stored fun _ => rfl) (moved a)))) (moved a)))
  exact chFlag_alike (fun _ _ _ => rfl) (stored fun _ => rfl)

theorem flagKept.leaveSafe {l : Latch} (hj : j ≠ 5 ∧ j ≠ 7 ∧ j ≠ 8) (a : flagKept j s t) : flagKept j s (leaveSafe l h c t) := by
  obtain ⟨h5, h7, h8⟩ := hj
  unfold Machine.leaveSafe
  refine .ite a (.ite (.resolve h8 h5 (.chFlag (by decide) h7 (a.updChan fun _ => rfl))) (.ite (.ite (.resolve h8 h5
    (a.updChan fun _ => rfl)) (.ite ?_ (.ite (a.updChan fun _ => rfl) (.resolve h8 h5 a)))) (.resolve h8 h5 a)))
  exact .chFlag (by decide) h8 (a.updChan fun _ => rfl)

/-- LATCHED_OFF shows, RETRYING does not, and the latch is `l`. -/
theorem getChan_latchOff {l : Latch} (s : State) : (getChan (latchOff l h c s) h c).latch = l ∧
    bit (getChan (latchOff l h c s) h c).stat 7 = true ∧ bit (getChan (latchOff l h c s) h c).stat 9 = false := by
  refine ⟨?_, bit_chFlag (by decide), ?_⟩
  · unfold latchOff chFlag
    simp only [getChan_updChan_self]
  · exact (flagKept.chFlag (j := 9) (i := 7) (by decide) (by decide) (.refl 9 _) h c).trans (bit_chFlag (by decide))

/-- A view of a channel but for its latch, its flags and its events. -/
theorem latchOff_alike {α : Type} {p : ChanState → α} {l : Latch} (hp : ∀ x l w e, p { x with latch := l, stat := w, evt := e } = p x)
    (a : chansAlike p s t) : chansAlike p s (latchOff l h c t) :=
  chFlag_alike (fun x w e => hp x x.latch w e) (chFlag_alike (fun x w e => hp x x.latch w e)
    (a.updChan fun x => hp x l x.stat x.evt))

theorem stat_chan_report (h c : Nat) (t : State) : (getChan (settle (report h t)) h c).stat = (getChan t h c).stat :=
  getChan_report (p := ChanState.stat) (fun _ _ _ => rfl) h c t

/-- What holds of a channel whatever events it keeps holds after its hall's report. -/
theorem of_report {P : ChanState → Prop} (hP : ∀ x e a, P { x with evt := e, ainEvt := a } = P x) (hp : P (getChan t h c)) :
    P (getChan (settle (report h t)) h c) := (getChan_report hP h c t).mpr hp

/-- After its hall's report a channel is as before but for its kept events. -/
theorem getChan_report_self (h c : Nat) (t : State) : getChan (settle (report h t)) h c =
    { getChan t h c with evt := (getChan (settle (report h t)) h c).evt, ainEvt := (getChan (settle (report h t)) h c).ainEvt } := by
  have same := getChan_report (h := h) (p := fun x => { x with evt := 0, ainEvt := 0 }) (fun _ _ _ => rfl) h c t
  exact congrArg (fun x => { x with evt := (getChan (settle (report h t)) h c).evt
                                    ainEvt := (getChan (settle (report h t)) h c).ainEvt }) same

end

end Sys2Proof.Machine

namespace Sys2Proof.Machine

/-! CURRENT_MONITOR_SAMPLE (R82 to R86): the conditions of a current output, each counted over consecutive samples. -/

/-- The counts after one sample. -/
def monCounts (h c : Nat) (i hr ref : Int) (s : State) : List Nat :=
  let x := getChan s h c
  let susp := decide (s.time.now < x.suspend)
  let quiet := sharedStandby s h c
  [monStep x.mon 0 (hr < 3000000 && ref - 200 ≤ i && i ≤ ref + 200), monStep x.mon 1 (3400000 ≤ hr),
    monStep x.mon 2 (hr < 200000 && i < ref - 200 && 200 ≤ i && !susp && !quiet && !bit x.stat 18),
    monStep x.mon 3 (ref - 100 ≤ i && i ≤ ref + 100), monStep x.mon 4 (hr < 200000 && i < 200 && 1000 ≤ ref && !quiet),
    monStep x.mon 5 (500 ≤ i), monStep x.mon 6 (200000 ≤ hr && i < ref - 200 && !susp && !x.cut),
    monStep x.mon 7 (ref + 500 < i && !susp && !bit (chSensW s h c) 17 && (x.ext == .none || x.ext == .driving))]

/-- OPEN_LOOP by its counts. -/
def openNoted (h c : Nat) (x : ChanState) (mon : List Nat) (t : State) : State :=
  if bit x.stat 18 then (if 11 ≤ mon.getD 5 0 then chFlag h c 18 false t else t)
  else if 51 ≤ mon.getD 4 0 then chFlag h c 18 true t else t

/-- COMPLIANCE_FAIL by its counts. -/
def failNoted (h c : Nat) (x : ChanState) (mon : List Nat) (t : State) : State :=
  if bit x.stat 17 then (if 11 ≤ mon.getD 3 0 then chFlag h c 17 false t else t)
  else if 11 ≤ mon.getD 2 0 && !bit (getChan t h c).stat 18 then chFlag h c 17 true t else t

/-- COMPLIANCE_WARN by its counts. -/
def warnNoted (h c : Nat) (x : ChanState) (mon : List Nat) (t : State) : State :=
  let y := getChan t h c
  if bit y.stat 17 || bit y.stat 18 then chFlag h c 16 false t
  else if bit x.stat 16 then (if 11 ≤ mon.getD 1 0 then chFlag h c 16 false t else t)
  else if 11 ≤ mon.getD 0 0 then chFlag h c 16 true t else t

/-- READBACK by its count. -/
def readbackNoted (h c : Nat) (mon : List Nat) (t : State) : State :=
  if 11 ≤ mon.getD 6 0 then cutLatch h c (chFlag h c 6 true t) else t

/-- The channel after a sample, before an overcurrent is acted on. -/
def monitorNoted (h c : Nat) (i hr ref : Int) (s : State) : State :=
  let x := getChan s h c
  let mon := monCounts h c i hr ref s
  readbackNoted h c mon (warnNoted h c x mon (failNoted h c x mon (openNoted h c x mon (updChan h c (fun y => { y with mon := mon }) s))))

theorem monitorFlags_eq (h c : Nat) (i hr ref : Int) (s : State) : monitorFlags h c i hr ref s =
    if 4 ≤ (monCounts h c i hr ref s).getD 7 0 then
      extDetected h c (updChan h c (fun z => { z with mon := List.replicate 8 0 }) (monitorNoted h c i hr ref s))
    else monitorNoted h c i hr ref s := rfl

section
variable {h c j : Nat} {i hr ref : Int} {x : ChanState} {mon : List Nat} {s t : State}

/-- A view of a channel but for what a sample moves: its latch, its switch-off, its counts, its flags and its output. -/
theorem afterOpen_alike {α : Type} {q : ChanState → α} (hq : ∀ x, q x = q (outputCore x))
    (hl : ∀ x l k w e, q { x with latch := l, cut := k, stat := w, evt := e } = q x) (t : State) :
    chansAlike q t (readbackNoted h c mon (warnNoted h c x mon (failNoted h c x mon t))) := by
  have flag (i : Nat) (b : Bool) {u v : State} (a : chansAlike q u v) : chansAlike q u (chFlag h c i b v) :=
    chFlag_alike (fun x w e => hl x x.latch x.cut w e) a
  have fail : chansAlike q t (failNoted h c x mon t) :=
    .ite (.ite (flag _ _ (.refl _ t)) (.refl _ t)) (.ite (flag _ _ (.refl _ t)) (.refl _ t))
  have warn : chansAlike q t (warnNoted h c x mon (failNoted h c x mon t)) :=
    .ite (flag _ _ fail) (.ite (.ite (flag _ _ fail) fail) (.ite (flag _ _ fail) fail))
  refine .ite (resolve_view hq (latchOff_alike (fun x l w e => hl x l x.cut w e) ?_)) warn
  exact (flag 6 true warn).updChan fun x => hl x x.latch true x.stat x.evt

/-- The flags that a sample leaves but for OPEN_LOOP. -/
theorem afterOpen_flag (hj : j = 18 ∨ j = 19) (t : State) :
    flagKept j t (readbackNoted h c mon (warnNoted h c x mon (failNoted h c x mon t))) := by
  have flag (i : Nat) (hi : i < 18) (b : Bool) {u v : State} (a : flagKept j u v) : flagKept j u (chFlag h c i b v) :=
    a.chFlag (by omega) (by omega)
  have fail : flagKept j t (failNoted h c x mon t) :=
    .ite (.ite (flag _ (by decide) _ (.refl _ t)) (.refl _ t)) (.ite (flag _ (by decide) _ (.refl _ t)) (.refl _ t))
  have warn : flagKept j t (warnNoted h c x mon (failNoted h c x mon t)) :=
    .ite (flag _ (by decide) _ fail) (.ite (.ite (flag _ (by decide) _ fail) fail) (.ite (flag _ (by decide) _ fail) fail))
  exact .ite (.cutLatch (by omega) (flag 6 (by decide) true warn)) warn

theorem openNoted_flag : flagKept 19 t (openNoted h c x mon t) :=
  .ite (.ite (.chFlag (by decide) (by decide) (.refl _ t)) (.refl _ t))
    (.ite (.chFlag (by decide) (by decide) (.refl _ t)) (.refl _ t))

/-- OPEN_LOOP after a sample. -/
theorem bit_openNoted (hx : bit (getChan t h c).stat 18 = bit x.stat 18) : bit (getChan (openNoted h c x mon t) h c).stat 18 =
    if bit x.stat 18 then decide (mon.getD 5 0 < 11) else decide (51 ≤ mon.getD 4 0) := by
  unfold openNoted
  split
  next e =>
    split
    next k => rw [bit_chFlag (by decide), decide_eq_false (by omega)]
    next k => rw [hx, e, decide_eq_true (by omega)]
  next e =>
    split
    next k => rw [bit_chFlag (by decide), decide_eq_true k]
    next k => rw [hx, decide_eq_false k, Bool.eq_false_iff.2 e]

/-- What one sample comes to before an overcurrent is acted on. -/
theorem monitorNoted_own (h c : Nat) (i hr ref : Int) (s : State) :
    let x := getChan s h c
    let y := getChan (monitorNoted h c i hr ref s) h c
    let mon := monCounts h c i hr ref s
    bit y.stat 18 = (if bit x.stat 18 then decide (mon.getD 5 0 < 11) else decide (51 ≤ mon.getD 4 0)) ∧
      bit y.stat 19 = bit x.stat 19 ∧ y.ext = x.ext ∧ y.imeas = x.imeas := by
  intro x y mon
  let u := updChan h c (fun y => { y with mon := mon }) s
  have own : getChan u h c = { x with mon := mon } := getChan_updChan_self ..
  have noted {α : Type} {q : ChanState → α} (hq : ∀ x, q x = q (outputCore x))
      (hl : ∀ x l k w e, q { x with latch := l, cut := k, stat := w, evt := e } = q x) : q y = q (getChan u h c) := by
    have flag (i : Nat) (b : Bool) : chansAlike q u (chFlag h c i b u) := chFlag_alike (fun x w e => hl x x.latch x.cut w e) (.refl _ u)
    have opened : chansAlike q u (openNoted h c x mon u) :=
      .ite (.ite (flag _ _) (.refl _ u)) (.ite (flag _ _) (.refl _ u))
    exact (afterOpen_alike hq hl _ h c).trans (opened h c)
  refine ⟨?_, ?_, ?_, ?_⟩
  · exact (afterOpen_flag (.inl rfl) _ h c).trans (bit_openNoted (by rw [own]))
  · exact (afterOpen_flag (.inr rfl) _ h c).trans ((openNoted_flag h c).trans (by rw [own]))
  · exact (noted (q := ChanState.ext) (fun _ => rfl) fun _ _ _ _ _ => rfl).trans (by rw [own])
  · exact (noted (q := ChanState.imeas) (fun _ => rfl) fun _ _ _ _ _ => rfl).trans (by rw [own])

/-- The switch of an output whose overcurrent was detected, its flag not yet set. -/
def extOpened (h c : Nat) (s : State) : State :=
  if (getChan s h c).ext == .driving then latchOff .off h c (updChan h c (fun y => { y with ext := .latched, cut := true }) s)
  else updChan h c (fun y => { y with ext := .opened, extSafe := true, cut := true }) s

theorem extDetected_eq (h c : Nat) (s : State) : extDetected h c s = resolve h c (chFlag h c 19 true (extOpened h c s)) := rfl

theorem extOpened_own (h c : Nat) (s : State) :
    let y := getChan (extOpened h c s) h c
    y.cut = true ∧ y.ext = (if (getChan s h c).ext = .driving then .latched else .opened) ∧
      ((getChan s h c).ext = .driving → bit y.stat 7 = true) := by
  unfold extOpened
  split
  next e =>
    have e : (getChan s h c).ext = .driving := by simpa using e
    obtain ⟨-, latched, -⟩ := getChan_latchOff (h := h) (c := c) (l := .off)
      (updChan h c (fun y => { y with ext := .latched, cut := true }) s)
    refine ⟨?_, ?_, fun _ => latched⟩
    · rw [latchOff_alike (p := ChanState.cut) (fun _ _ _ _ => rfl) (.refl _ _) h c, getChan_updChan_self]
    · rw [latchOff_alike (p := ChanState.ext) (fun _ _ _ _ => rfl) (.refl _ _) h c, getChan_updChan_self, if_pos e]
  next e =>
    have e : (getChan s h c).ext ≠ .driving := by simpa using e
    rw [getChan_updChan_self, if_neg e]
    exact ⟨rfl, rfl, fun k => absurd k e⟩

/-- EXT_OVERCURRENT detected (R86): the switch opens with its flag, for good where it was closed again. -/
theorem extDetected_own (h c : Nat) (s : State) :
    let y := getChan (extDetected h c s) h c
    bit y.stat 19 = true ∧ y.cut = true ∧ y.ext = (if (getChan s h c).ext = .driving then .latched else .opened) ∧
      ((getChan s h c).ext = .driving → bit y.stat 7 = true) := by
  obtain ⟨cut, ext, latched⟩ := extOpened_own h c s
  let u := chFlag h c 19 true (extOpened h c s)
  have moved {α : Type} {q : ChanState → α} (hq : ∀ x, q x = q (outputCore x)) (hf : ∀ x w e, q { x with stat := w, evt := e } = q x) :
      q (getChan (resolve h c u) h c) = q (getChan (extOpened h c s) h c) :=
    (resolve_view hq (.refl _ u) h c).trans (chFlag_alike hf (.refl _ _) h c)
  rw [extDetected_eq]
  refine ⟨?_, ?_, ?_, fun e => ?_⟩
  · exact (resolve_bit (by decide) (by decide) u).trans (bit_chFlag (by decide))
  · exact (moved (q := ChanState.cut) (fun _ => rfl) fun _ _ _ => rfl).trans cut
  · exact (moved (q := ChanState.ext) (fun _ => rfl) fun _ _ _ => rfl).trans ext
  · exact (resolve_bit (by decide) (by decide) u).trans
      ((flagKept.chFlag (j := 7) (i := 19) (by decide) (by decide) (.refl _ _) h c).trans (latched e))

/-- What an overcurrent detected leaves of the other flags and of the measurement. -/
theorem extDetected_kept (s : State) : flagKept 18 s (extDetected h c s) ∧ chansAlike ChanState.imeas s (extDetected h c s) := by
  constructor
  · rw [extDetected_eq]
    exact .resolve (by decide) (by decide) (.chFlag (by decide) (by decide) (.ite (.latchOff (by decide) (by decide)
      (.updChan (fun _ => rfl) (.refl _ s))) (.updChan (fun _ => rfl) (.refl _ s))))
  · rw [extDetected_eq]
    exact resolve_view (fun _ => rfl) (chFlag_alike (fun _ _ _ => rfl) (.ite (latchOff_alike (fun _ _ _ _ => rfl)
      (.updChan (fun _ => rfl) (.refl _ s))) (.updChan (fun _ => rfl) (.refl _ s))))

/-- What one sample comes to: OPEN_LOOP by its counts, and the switch opened after the fourth sample in a row of overcurrent. -/
theorem monitorFlags_own (h c : Nat) (i hr ref : Int) (s : State) :
    let x := getChan s h c
    let y := getChan (monitorFlags h c i hr ref s) h c
    let mon := monCounts h c i hr ref s
    y.imeas = x.imeas ∧
    bit y.stat 18 = (if bit x.stat 18 then decide (mon.getD 5 0 < 11) else decide (51 ≤ mon.getD 4 0)) ∧
      (4 ≤ mon.getD 7 0 → bit y.stat 19 = true ∧ y.cut = true ∧ y.ext = (if x.ext = .driving then .latched else .opened) ∧
        (x.ext = .driving → bit y.stat 7 = true)) ∧
      (mon.getD 7 0 < 4 → bit y.stat 19 = bit x.stat 19 ∧ y.ext = x.ext) := by
  intro x y mon
  obtain ⟨h18, h19, ext, imeas⟩ := monitorNoted_own h c i hr ref s
  let u := updChan h c (fun z => { z with mon := List.replicate 8 0 }) (monitorNoted h c i hr ref s)
  have own : getChan u h c = { getChan (monitorNoted h c i hr ref s) h c with mon := List.replicate 8 0 } := getChan_updChan_self ..
  by_cases k : 4 ≤ mon.getD 7 0
  · have e : y = getChan (extDetected h c u) h c := congrArg (fun t => getChan t h c) ((monitorFlags_eq ..).trans (if_pos k))
    obtain ⟨flag, same⟩ := extDetected_kept (h := h) (c := c) u
    have opened := extDetected_own h c u
    rw [own] at opened
    rw [e]
    refine ⟨(same h c).trans (by rw [own]; exact imeas), (flag h c).trans (by rw [own]; exact h18), fun _ => ?_,
      fun n => absurd k (by omega)⟩
    simpa only [ext] using opened
  · have e : y = getChan (monitorNoted h c i hr ref s) h c := congrArg (fun t => getChan t h c) ((monitorFlags_eq ..).trans (if_neg k))
    rw [e]
    exact ⟨imeas, h18, fun n => absurd n k, fun _ => ⟨h19, ext⟩⟩

theorem monitorFlags_oneChan (h c : Nat) (i hr ref : Int) (s : State) : OneChan h c s (monitorFlags h c i hr ref s) := by
  have flag (j : Nat) (b : Bool) {u v : State} (a : OneChan h c u v) : OneChan h c u (chFlag h c j b v) := a.chFlag
  have opened (x : ChanState) (mon : List Nat) {u v : State} (a : OneChan h c u v) : OneChan h c u (openNoted h c x mon v) :=
    .ite (.ite (flag _ _ a) a) (.ite (flag _ _ a) a)
  have fail (x : ChanState) (mon : List Nat) {u v : State} (a : OneChan h c u v) : OneChan h c u (failNoted h c x mon v) :=
    .ite (.ite (flag _ _ a) a) (.ite (flag _ _ a) a)
  have warn (x : ChanState) (mon : List Nat) {u v : State} (a : OneChan h c u v) : OneChan h c u (warnNoted h c x mon v) :=
    .ite (flag _ _ a) (.ite (.ite (flag _ _ a) a) (.ite (flag _ _ a) a))
  have noted : OneChan h c s (monitorNoted h c i hr ref s) := by
    have start := OneChan.updChan (f := fun y => { y with mon := monCounts h c i hr ref s }) (.refl h c s)
    have w := warn (getChan s h c) (monCounts h c i hr ref s) (fail (getChan s h c) (monCounts h c i hr ref s)
      (opened (getChan s h c) (monCounts h c i hr ref s) start))
    exact .ite (.cutLatch (flag _ _ w)) w
  rw [monitorFlags_eq]
  refine .ite ?_ noted
  rw [extDetected_eq]
  exact .resolve (flag _ _ (.ite (.latchOff (.updChan (.updChan noted))) (.updChan (.updChan noted))))

end

section
variable {h : Hall} {c : Chan} {i : MicroAmp} {vf vl : Int} {b : Bool} {s : State}

/-- The measurement taken. -/
def imeasTaken (h c : Nat) (i vf vl : Int) (s : State) : State := updChan h c (fun x => { x with imeas := imeasWord i vf vl }) s

theorem getChan_imeasTaken (h c : Nat) (i vf vl : Int) (s : State) :
    getChan (imeasTaken h c i vf vl s) h c = { getChan s h c with imeas := imeasWord i vf vl } := getChan_updChan_self ..

theorem exec_currentMonitorSample (hu : (getHall s h).up = true) : exec (.currentMonitorSample h c i vf vl) s =
    done (report h (if modeOf s h c = 15 then
      (if bit (getHall s h).stat 3 then updChan h c (fun x => { x with mon := List.replicate 8 0 }) (imeasTaken h c i vf vl s)
       else monitorFlags h c i (headroom2 i vf vl) (driveNow s h c) (imeasTaken h c i vf vl s)) else s)) := by
  show execCurrentMonitorSample h c i vf vl s = _
  unfold execCurrentMonitorSample
  exact hallDo_up hu

/-- While SAG3 holds a sample is shown and nothing counted (R61, R85). -/
theorem currentMonitorSample_sag (hs : Inv s) (hu : (getHall s h).up = true) (hm : modeOf s h c = 15)
    (h3 : bit (getHall s h).stat 3 = true) : ∃ t, exec (.currentMonitorSample h c i vf vl) s = .next t ∧ hallOnly h s t ∧
      (getChan t h c).imeas = imeasWord i vf vl ∧ (getChan t h c).stat = (getChan s h c).stat ∧
      (getChan t h c).mon = List.replicate 8 0 := by
  have e := exec_currentMonitorSample (c := c) (i := i) (vf := vf) (vl := vl) hu
  rw [if_pos hm, if_pos h3] at e
  refine ⟨_, e, OneChan.frame hs c.isLt (.updChan (.updChan (.refl h c s))), ?_⟩
  rw [getChan_report_self, getChan_updChan_self, getChan_imeasTaken]
  exact ⟨rfl, rfl, rfl⟩

/-- A sample of a current output without SAG3. -/
theorem currentMonitorSample_counts (hs : Inv s) (hu : (getHall s h).up = true) (hm : modeOf s h c = 15)
    (h3 : bit (getHall s h).stat 3 = false) :
    let x := getChan s h c
    let mon := monCounts h c i (headroom2 i vf vl) (driveNow s h c) (imeasTaken h c i vf vl s)
    ∃ t, exec (.currentMonitorSample h c i vf vl) s = .next t ∧ hallOnly h s t ∧ (getChan t h c).imeas = imeasWord i vf vl ∧
      bit (getChan t h c).stat 18 = (if bit x.stat 18 then decide (mon.getD 5 0 < 11) else decide (51 ≤ mon.getD 4 0)) ∧
      (4 ≤ mon.getD 7 0 → bit (getChan t h c).stat 19 = true ∧ (getChan t h c).cut = true ∧
        (getChan t h c).ext = (if x.ext = .driving then .latched else .opened) ∧
        (x.ext = .driving → bit (getChan t h c).stat 7 = true)) ∧
      (mon.getD 7 0 < 4 → bit (getChan t h c).stat 19 = bit x.stat 19 ∧ (getChan t h c).ext = x.ext) := by
  intro x mon
  have e := exec_currentMonitorSample (c := c) (i := i) (vf := vf) (vl := vl) hu
  rw [if_pos hm, h3, if_neg (by decide)] at e
  refine ⟨_, e, OneChan.frame hs c.isLt ((OneChan.updChan (.refl h c s)).trans (monitorFlags_oneChan h c _ _ _ _)), ?_⟩
  have own := monitorFlags_own h c i (headroom2 i vf vl) (driveNow s h c) (imeasTaken h c i vf vl s)
  rw [getChan_imeasTaken] at own
  rw [getChan_report_self]
  exact own

/-- In another mode a sample is not used. -/
theorem currentMonitorSample_other (hs : Inv s) (hu : (getHall s h).up = true) (hm : modeOf s h c ≠ 15) :
    ∃ t, exec (.currentMonitorSample h c i vf vl) s = .next t ∧ hallOnly h s t ∧
      getChan t h c = { getChan s h c with evt := (getChan t h c).evt, ainEvt := (getChan t h c).ainEvt } := by
  have e := exec_currentMonitorSample (c := c) (i := i) (vf := vf) (vl := vl) hu
  rw [if_neg hm] at e
  exact ⟨_, e, OneChan.frame hs c.isLt (.refl h c s), getChan_report_self h c s⟩

/-! The overcurrent sequence (R86). -/

/-- The switch closed again, the safe state driven. -/
def reclosed (h c : Nat) (s : State) : State := resolve h c (updChan h c (fun x => { x with ext := .driving, cut := false }) s)

theorem reclosed_own (h c : Nat) (s : State) : (getChan (reclosed h c s) h c).ext = .driving ∧
    (getChan (reclosed h c s) h c).cut = false := by
  unfold reclosed
  constructor
  · rw [resolve_view (q := ChanState.ext) (fun _ => rfl) (.refl _ _) h c, getChan_updChan_self]
  · rw [resolve_view (q := ChanState.cut) (fun _ => rfl) (.refl _ _) h c, getChan_updChan_self]

theorem extDetected_oneChan (h c : Nat) (s : State) : OneChan h c s (extDetected h c s) := by
  rw [extDetected_eq]
  exact .resolve (.chFlag (.ite (.latchOff (.updChan (.refl h c s))) (.updChan (.refl h c s))))

theorem exec_extOvercurrentReclose (hu : (getHall s h).up = true) : exec (.extOvercurrentReclose h c b) s =
    done (report h (if (getChan s h c).ext == .opened then
      (if b then extDetected h c (reclosed h c s) else reclosed h c s) else s)) := by
  show execExtOvercurrentReclose h c b s = _
  unfold execExtOvercurrentReclose
  exact hallDo_up hu

theorem extOvercurrentReclose_next (hs : Inv s) (hu : (getHall s h).up = true) :
    let x := getChan s h c
    ∃ t, exec (.extOvercurrentReclose h c b) s = .next t ∧ hallOnly h s t ∧
      (if x.ext = .opened then
        (if b then (getChan t h c).ext = .latched ∧ (getChan t h c).cut = true ∧ bit (getChan t h c).stat 7 = true
         else (getChan t h c).ext = .driving ∧ (getChan t h c).cut = false)
      else (getChan t h c).stat = x.stat ∧ (getChan t h c).ext = x.ext) := by
  intro x
  have e := exec_extOvercurrentReclose (c := c) (b := b) hu
  have closed : OneChan h c s (reclosed h c s) := .resolve (.updChan (.refl h c s))
  by_cases k : x.ext = .opened
  · rw [if_pos (by simpa using k)] at e
    obtain ⟨driving, shut⟩ := reclosed_own h c s
    cases b with
    | true =>
      obtain ⟨-, cut, ext, latched⟩ := extDetected_own h c (reclosed h c s)
      rw [driving, if_pos rfl] at ext
      rw [if_pos rfl] at e
      refine ⟨_, e, OneChan.frame hs c.isLt (closed.trans (extDetected_oneChan h c _)), ?_⟩
      rw [if_pos k, if_pos rfl]
      exact of_report (P := fun y => y.ext = .latched ∧ y.cut = true ∧ bit y.stat 7 = true) (fun _ _ _ => rfl)
        ⟨ext, cut, latched driving⟩
    | false =>
      rw [if_neg (by decide)] at e
      refine ⟨_, e, OneChan.frame hs c.isLt closed, ?_⟩
      rw [if_pos k, if_neg (by decide)]
      exact of_report (P := fun y => y.ext = .driving ∧ y.cut = false) (fun _ _ _ => rfl) ⟨driving, shut⟩
  · rw [if_neg (by simpa using k)] at e
    refine ⟨_, e, OneChan.frame hs c.isLt (.refl h c s), ?_⟩
    rw [if_neg k]
    exact of_report (P := fun y => y.stat = x.stat ∧ y.ext = x.ext) (fun _ _ _ => rfl) ⟨rfl, rfl⟩

/-- A current output's cause cleared, its policy not yet followed. -/
def extCleared (h c : Nat) (s : State) : State :=
  chFlag h c 19 false (updChan h c (fun x => { x with ext := .none, extSafe := false }) s)

theorem extCleared_own (h c : Nat) (s : State) : (getChan (extCleared h c s) h c).ext = .none ∧
    (getChan (extCleared h c s) h c).extSafe = false ∧ bit (getChan (extCleared h c s) h c).stat 19 = false := by
  refine ⟨?_, ?_, bit_chFlag (by decide)⟩
  · exact (chFlag_alike (p := ChanState.ext) (fun _ _ _ => rfl) (.refl _ _) h c).trans (by rw [getChan_updChan_self])
  · exact (chFlag_alike (p := ChanState.extSafe) (fun _ _ _ => rfl) (.refl _ _) h c).trans (by rw [getChan_updChan_self])

theorem extCleared_oneChan (h c : Nat) (s : State) : OneChan h c s (extCleared h c s) := .chFlag (.updChan (.refl h c s))

theorem exec_extOvercurrentClear (hu : (getHall s h).up = true) : exec (.extOvercurrentClear h c) s =
    done (report h (if (getChan s h c).ext == .driving then
      leaveSafe .safe h c (extCleared h c s) else s)) := by
  show execExtOvercurrentClear h c s = _
  unfold execExtOvercurrentClear
  exact hallDo_up hu

theorem extOvercurrentClear_next (hs : Inv s) (hu : (getHall s h).up = true) :
    let x := getChan s h c
    ∃ t, exec (.extOvercurrentClear h c) s = .next t ∧ hallOnly h s t ∧
      (if x.ext = .driving then (getChan t h c).ext = .none ∧ (getChan t h c).extSafe = false ∧
        bit (getChan t h c).stat 19 = false
      else (getChan t h c).stat = x.stat ∧ (getChan t h c).ext = x.ext) := by
  intro x
  have e := exec_extOvercurrentClear (c := c) hu
  by_cases k : x.ext = .driving
  · rw [if_pos (by simpa using k)] at e
    obtain ⟨ext, safe, flag⟩ := extCleared_own h c s
    have kept {α : Type} {q : ChanState → α} (hq : ∀ x, q x = q (leaveCore x)) :
        q (getChan (leaveSafe .safe h c (extCleared h c s)) h c) = q (getChan (extCleared h c s) h c) :=
      (leaveSafe_core (.refl _ _)).view q hq h c
    refine ⟨_, e, OneChan.frame hs c.isLt (.leaveSafe (extCleared_oneChan h c s)), ?_⟩
    rw [if_pos k]
    exact of_report (P := fun y => y.ext = .none ∧ y.extSafe = false ∧ bit y.stat 19 = false) (fun _ _ _ => rfl) ⟨(kept (q := ChanState.ext) fun _ => rfl).trans ext, (kept (q := ChanState.extSafe) fun _ => rfl).trans safe,
      (flagKept.leaveSafe (by decide) (.refl 19 _) h c).trans flag⟩
  · rw [if_neg (by simpa using k)] at e
    refine ⟨_, e, OneChan.frame hs c.isLt (.refl h c s), ?_⟩
    rw [if_neg k]
    exact of_report (P := fun y => y.stat = x.stat ∧ y.ext = x.ext) (fun _ _ _ => rfl) ⟨rfl, rfl⟩

/-! The excitation's flags (R93). -/

theorem excFlag_next {k : Instr} {n : Nat} (hs : Inv s) (e : exec k s = done (report h (excFlag h n b s))) :
    ∃ t, exec k s = .next t ∧ (getHall t h).excStat = putBit (getHall s h).excStat n b ∧ hallOnly h s t := by
  refine ⟨_, e, ?_, Within.frame hs (Within.refl _ s).updHall⟩
  refine (getHall_report (p := HallState.excStat) (fun _ _ _ _ => rfl) h h _).trans ?_
  unfold excFlag
  rw [getHall_updHall_self]

end

/-- Settles O42: each sample moves the counts, and the counts the flags; the switch follows the overcurrent's sequence. -/
theorem currentOutputMonitorAndExcitation : Obligations.CurrentOutputMonitorAndExcitation := by
  intro h c b i vf vl s hs
  refine ⟨fun hd k hk => ?_, fun hu => ?_⟩
  · simp only [List.mem_cons, List.not_mem_nil, or_false] at hk
    rcases hk with rfl | rfl | rfl | rfl | rfl
    · exact next_down (execCurrentMonitorSample h c i vf vl s) rfl rfl hs hd
    · exact next_down (execExtOvercurrentReclose h c b s) rfl rfl hs hd
    · exact next_down (execExtOvercurrentClear h c s) rfl rfl hs hd
    · exact next_down (execVexcLimit h b s) rfl rfl hs hd
    · exact next_down (execVexcSenseOpen h b s) rfl rfl hs hd
  · intro x ref hr beyond
    refine ⟨?_, extOvercurrentReclose_next hs hu, extOvercurrentClear_next hs hu,
      excFlag_next (k := .vexcLimit h b) hs (exec_up (execVexcLimit h b s) rfl rfl hu),
      excFlag_next (k := .vexcSenseOpen h b) hs (exec_up (execVexcSenseOpen h b s) rfl rfl hu)⟩
    by_cases hm : x.mode = 15
    · cases h3 : bit (getHall s h).stat 3 with
      | true =>
        obtain ⟨t, e, only, imeas, stat, mon⟩ := currentMonitorSample_sag (vf := vf) (vl := vl) (i := i) hs hu hm h3
        exact ⟨t, e, only, by rw [if_pos hm, if_pos rfl]; exact ⟨imeas, stat, mon⟩⟩
      | false =>
        obtain ⟨t, e, only, imeas, counts⟩ := currentMonitorSample_counts (vf := vf) (vl := vl) (i := i) hs hu hm h3
        refine ⟨t, e, only, ?_⟩
        rw [if_pos hm, if_neg (by decide)]
        have mon : monCounts h c i hr ref (imeasTaken h c i vf vl s) = _ := rfl
        unfold monCounts at counts
        rw [getChan_imeasTaken] at counts
        exact ⟨imeas, counts⟩
    · obtain ⟨t, e, only, own⟩ := currentMonitorSample_other (vf := vf) (vl := vl) (i := i) hs hu hm
      exact ⟨t, e, only, by rw [if_neg hm]; exact own⟩

end Sys2Proof.Machine

namespace Sys2Proof.Machine

/-! Switch-offs (R48 to R50): what each leaves of its channel. -/

section
variable {h c i j : Nat} {b : Bool} {s t u : State}

/-- A channel switched off: nothing driven, unless a ramp of its own or of its hall's SAG3 runs. -/
def switchedOff (h : Nat) (s : State) (x y : ChanState) : Prop :=
  y.cut = true ∧ (isOutMode x.mode = true → x.ramp = none → sagRamping s h = false → y.drive = 0)

/-- A channel latched off. -/
def latchedOff (y : ChanState) : Prop := y.latch = .off ∧ bit y.stat 7 = true ∧ bit y.stat 9 = false

/-- The attempts of a channel `x` with the switch-off that follows a retry counted. -/
def attemptsOf (x : ChanState) : Nat := if bit x.stat 9 then x.attempts + 1 else x.attempts

/-- A channel switched off by a cause that is retried (R50). -/
def retriedOff (h : Nat) (s : State) (x y : ChanState) : Prop :=
  switchedOff h s x y ∧ y.attempts = attemptsOf x ∧ (attemptsOf x < retryCount s h → bit y.stat 9 = true) ∧
    (retryCount s h ≤ attemptsOf x → latchedOff y)

/-- Bringing a switched-off output to its state turns it off. -/
theorem switchedOff_resolve (hc : (getChan t h c).cut = true) (hm : (getChan t h c).mode = (getChan s h c).mode)
    (hr : chansAlike ChanState.ramp s t) : switchedOff h s (getChan s h c) (getChan (resolve h c t) h c) := by
  obtain ⟨h4, h5⟩ := outRank_cut hc
  refine ⟨(resolve_view (q := ChanState.cut) (fun _ => rfl) (.refl _ t) h c).trans hc, fun mode ramp sag => ?_⟩
  exact drive_resolve_off (hm ▸ mode) ((hr h c).trans ramp) h4 h5 fun _ => .inl ((sagRamping_congr hr).trans sag)

/-- A channel switched off with its attempt counted, RETRYING or latched, its output not yet moved. -/
def retryMarked (h c : Nat) (s : State) : State :=
  let t := updChan h c (fun y => { y with cut := true, attempts := attemptsOf (getChan s h c) }) s
  if attemptsOf (getChan s h c) < retryCount s h then chFlag h c 9 true t else latchOff .off h c t

theorem cutRetry_eq (h c : Nat) (s : State) : cutRetry h c s = resolve h c (retryMarked h c s) := rfl

/-- A view of the channels but for a switch-off and its latch. -/
theorem retryMarked_alike {α : Type} {p : ChanState → α}
    (hp : ∀ x k n l w e, p { x with cut := k, attempts := n, latch := l, stat := w, evt := e } = p x) (s : State) :
    chansAlike p s (retryMarked h c s) := by
  have marked : chansAlike p s (updChan h c (fun y => { y with cut := true, attempts := attemptsOf (getChan s h c) }) s) :=
    .updChan (fun x => hp x true _ x.latch x.stat x.evt) (.refl _ s)
  exact .ite (chFlag_alike (fun x w e => hp x x.cut x.attempts x.latch w e) marked)
    (latchOff_alike (fun x l w e => hp x x.cut x.attempts l w e) marked)

theorem retryMarked_flag (hj : j ≠ 7 ∧ j ≠ 9) (s : State) : flagKept j s (retryMarked h c s) := by
  obtain ⟨h7, h9⟩ := hj
  exact .ite (.chFlag (by decide) h9 (.updChan (fun _ => rfl) (.refl j s))) (.latchOff h7 h9 (.updChan (fun _ => rfl) (.refl j s)))

theorem retryMarked_own (h c : Nat) (s : State) : let y := getChan (retryMarked h c s) h c
    y.cut = true ∧ y.attempts = attemptsOf (getChan s h c) ∧ (attemptsOf (getChan s h c) < retryCount s h → bit y.stat 9 = true) ∧
      (retryCount s h ≤ attemptsOf (getChan s h c) → latchedOff y) := by
  let t := updChan h c (fun y => { y with cut := true, attempts := attemptsOf (getChan s h c) }) s
  have own : getChan t h c = { getChan s h c with cut := true, attempts := attemptsOf (getChan s h c) } := getChan_updChan_self ..
  by_cases k : attemptsOf (getChan s h c) < retryCount s h
  · have e : retryMarked h c s = chFlag h c 9 true t := if_pos k
    rw [e]
    refine ⟨?_, ?_, fun _ => bit_chFlag (by decide), fun n => absurd k (by omega)⟩
    · exact (chFlag_alike (p := ChanState.cut) (fun _ _ _ => rfl) (.refl _ t) h c).trans (by rw [own])
    · exact (chFlag_alike (p := ChanState.attempts) (fun _ _ _ => rfl) (.refl _ t) h c).trans (by rw [own])
  · have e : retryMarked h c s = latchOff .off h c t := if_neg k
    rw [e]
    refine ⟨?_, ?_, fun n => absurd n k, fun _ => getChan_latchOff t⟩
    · exact (latchOff_alike (p := ChanState.cut) (fun _ _ _ _ => rfl) (.refl _ t) h c).trans (by rw [own])
    · exact (latchOff_alike (p := ChanState.attempts) (fun _ _ _ _ => rfl) (.refl _ t) h c).trans (by rw [own])

theorem latchedOff_resolve (hl : latchedOff (getChan t h c)) : latchedOff (getChan (resolve h c t) h c) := by
  obtain ⟨latch, flag, quiet⟩ := hl
  exact ⟨(resolve_view (q := ChanState.latch) (fun _ => rfl) (.refl _ t) h c).trans latch,
    (resolve_bit (by decide) (by decide) t).trans flag, (resolve_bit (by decide) (by decide) t).trans quiet⟩

/-- A switch-off that is retried (R50). -/
theorem retriedOff_cutRetry (h c : Nat) (s : State) : retriedOff h s (getChan s h c) (getChan (cutRetry h c s) h c) := by
  obtain ⟨cut, attempts, retrying, latched⟩ := retryMarked_own h c s
  rw [cutRetry_eq]
  refine ⟨switchedOff_resolve cut (retryMarked_alike (p := ChanState.mode) (fun _ _ _ _ _ _ => rfl) s h c)
    (retryMarked_alike (fun _ _ _ _ _ _ => rfl) s), ?_, fun n => ?_, fun n => latchedOff_resolve (latched n)⟩
  · exact (resolve_view (q := ChanState.attempts) (fun _ => rfl) (.refl _ _) h c).trans attempts
  · exact (resolve_bit (by decide) (by decide) _).trans (retrying n)

theorem cutRetry_flag (hj : j ≠ 5 ∧ j ≠ 7 ∧ j ≠ 8 ∧ j ≠ 9) (s : State) : flagKept j s (cutRetry h c s) := by
  obtain ⟨h5, h7, h8, h9⟩ := hj
  rw [cutRetry_eq]
  exact .resolve h8 h5 (retryMarked_flag ⟨h7, h9⟩ s)

theorem cutLatch_eq (h c : Nat) (s : State) : cutLatch h c s =
    resolve h c (latchOff .off h c (updChan h c (fun y => { y with cut := true }) s)) := rfl

/-- A switch-off that latches at once (R49). -/
theorem cutLatch_own (h c : Nat) (s : State) :
    switchedOff h s (getChan s h c) (getChan (cutLatch h c s) h c) ∧ latchedOff (getChan (cutLatch h c s) h c) := by
  let t := updChan h c (fun y => { y with cut := true }) s
  have own : getChan t h c = { getChan s h c with cut := true } := getChan_updChan_self ..
  have cut : (getChan (latchOff .off h c t) h c).cut = true :=
    (latchOff_alike (p := ChanState.cut) (fun _ _ _ _ => rfl) (.refl _ t) h c).trans (by rw [own])
  have mode : (getChan (latchOff .off h c t) h c).mode = (getChan s h c).mode :=
    (latchOff_alike (p := ChanState.mode) (fun _ _ _ _ => rfl) (.refl _ t) h c).trans (by rw [own])
  have latched : latchedOff (getChan (latchOff .off h c t) h c) := getChan_latchOff t
  rw [cutLatch_eq]
  refine ⟨?_, latchedOff_resolve latched⟩
  refine switchedOff_resolve cut mode (latchOff_alike (fun _ _ _ _ => rfl) ?_)
  exact chansAlike.updChan (fun _ => rfl) (.refl _ s)

/-- EXT_DRIVE of a stage opened for reverse current stays. -/
theorem cutLatch_reversed (hr : (getChan s h c).rev = true) : (getChan (cutLatch h c s) h c).rev = true ∧
    bit (getChan (cutLatch h c s) h c).stat 5 = bit (getChan s h c).stat 5 := by
  let u := updChan h c (fun y => { y with cut := true }) s
  let t := latchOff .off h c u
  have own : (getChan u h c).rev = (getChan s h c).rev := by rw [getChan_updChan_self]
  have rev : (getChan t h c).rev = true :=
    (latchOff_alike (p := ChanState.rev) (fun _ _ _ _ => rfl) (.refl _ u) h c).trans (own.trans hr)
  have flag : flagKept 5 s t := .latchOff (by decide) (by decide) (.updChan (fun _ => rfl) (.refl 5 s))
  rw [cutLatch_eq]
  exact ⟨(resolve_view (q := ChanState.rev) (fun _ => rfl) (.refl _ t) h c).trans rev,
    (outputRest_bit (resolve_rest (.refl _ t) h c) (by decide) (.inr rev)).trans (flag h c)⟩

/-- Marking a flag other than RETRYING before the switch-off makes no difference to what it leaves. -/
theorem retriedOff_congr {x y z : ChanState} (hh : t.halls = s.halls) (hr : chansAlike ChanState.ramp s t)
    (hx : (z.mode, z.ramp, z.attempts, bit z.stat 9) = (x.mode, x.ramp, x.attempts, bit x.stat 9))
    (k : retriedOff h t z y) : retriedOff h s x y := by
  simp only [Prod.mk.injEq] at hx
  obtain ⟨mode, ramp, attempts, retrying⟩ := hx
  have count : attemptsOf z = attemptsOf x := by unfold attemptsOf; rw [retrying, attempts]
  have limit : retryCount t h = retryCount s h := by unfold retryCount hallCfgW hcfg getHall; rw [hh]
  unfold retriedOff switchedOff at k ⊢
  rwa [count, limit, mode, ramp, sagRamping_congr hr] at k

/-! A gang (R47, R48). -/

theorem leadOf_lt (hc : c < 4) (s : State) : leadOf s h c < 4 := by
  unfold leadOf
  cases e : gangMembers s h c with
  | nil => exact hc
  | cons d l => exact gangMembers_lt (h := h) hc d (by rw [e]; exact List.mem_cons_self)

theorem leadOf_congr (hh : (getHall t h).cfg = (getHall s h).cfg) (hm : chansAlike ChanState.mode s t) :
    leadOf t h c = leadOf s h c := by
  unfold leadOf gangMembers gangOf chCfgW hcfg modeOf
  simp only [hh, hm h]

/-- The lead of a gang that fails, latched; its members not yet moved. -/
def gangMarked (h c : Nat) (s : State) : State :=
  chFlag h (leadOf s h c) 7 true (updChan h (leadOf s h c) (fun x => { x with gangSafe := true }) s)

theorem gangFail_eq (h c : Nat) (s : State) : gangFail h c s =
    (gangMembers (gangMarked h c s) h c).foldl (fun u d => resolve h d u) (gangMarked h c s) := rfl

theorem Within.gangFail (hc : c < 4) (a : Within h s t) : Within h s (gangFail h c t) := by
  refine a.trans ⟨gangFail_changes rfl (.refl _ _), ?_⟩
  have marked : Apart h t (gangMarked h c t) := (updChan_apart (leadOf_lt hc t) _ t).trans (updChan_apart (leadOf_lt hc t) _ _)
  exact marked.trans (Quiet.foldl (fun u d hd => resolve_quiet (gangMembers_lt hc d hd) (.refl h u)) (.refl h _)).apart

/-- A gang that fails goes to the safe state of its lead, with LATCHED_OFF there (R48). -/
theorem gangFail_lead (h c : Nat) (s : State) : (getChan (gangFail h c s) h (leadOf s h c)).gangSafe = true ∧
    bit (getChan (gangFail h c s) h (leadOf s h c)).stat 7 = true := by
  rw [gangFail_eq]
  constructor
  · refine (chansAlike.foldl (p := ChanState.gangSafe) (fun u d => resolve_view (fun _ => rfl) (.refl _ u)) (.refl _ _) h _).trans ?_
    refine (chFlag_alike (p := ChanState.gangSafe) (fun _ _ _ => rfl) (.refl _ _) h _).trans ?_
    rw [getChan_updChan_self]
  · exact (chansAlike.foldl (fun u d => flagKept.resolve (j := 7) (by decide) (by decide) (.refl 7 u)) (.refl _ _) h _).trans
      (bit_chFlag (by decide))

/-- The flags of the members that it leaves, EXT_DRIVE among them where the stage was opened for reverse current. -/
theorem gangFail_flag (hj : j ≠ 7 ∧ j ≠ 8) (s : State) (k d : Nat) (h5 : j ≠ 5 ∨ (getChan s k d).rev = true) :
    bit (getChan (gangFail h c s) k d).stat j = bit (getChan s k d).stat j := by
  obtain ⟨h7, h8⟩ := hj
  have marked : flagKept j s (gangMarked h c s) := .chFlag (by decide) h7 (.updChan (fun _ => rfl) (.refl j s))
  have rev : chansAlike ChanState.rev s (gangMarked h c s) := chFlag_alike (fun _ _ _ => rfl) (.updChan (fun _ => rfl) (.refl _ s))
  have moved : chansAlike outputRest (gangMarked h c s) (gangFail h c s) := by
    rw [gangFail_eq]
    exact chansAlike.foldl (fun u d => resolve_rest (.refl _ u)) (.refl _ _)
  exact (outputRest_bit (moved k d) h8 (h5.imp_right fun r => (rev k d).trans r)).trans (marked k d)

/-- What a member's flag raised before a gang's failure comes to. -/
theorem gangFail_next {k : Instr} (hs : Inv s) (hc : c < 4) (e : exec k s = done (report h (gangFail h c t)))
    (a : Within h s t) (hh : (getHall t h).cfg = (getHall s h).cfg) (hm : chansAlike ChanState.mode s t) (hj : j ≠ 7 ∧ j ≠ 8)
    (h5 : j ≠ 5 ∨ (getChan t h c).rev = true) (hb : bit (getChan t h c).stat j = true) :
    ∃ t, exec k s = .next t ∧ bit (getChan t h c).stat j = true ∧ (getChan t h (leadOf s h c)).gangSafe = true ∧
      bit (getChan t h (leadOf s h c)).stat 7 = true ∧ hallOnly h s t := by
  obtain ⟨safe, latched⟩ := gangFail_lead h c t
  rw [leadOf_congr hh hm] at safe latched
  refine ⟨_, e, ?_, ?_, ?_, Within.frame hs (a.gangFail hc)⟩
  · exact of_report (P := fun y => bit y.stat j = true) (fun _ _ _ => rfl) ((gangFail_flag hj t h c h5).trans hb)
  · exact of_report (P := fun y => y.gangSafe = true) (fun _ _ _ => rfl) safe
  · exact of_report (P := fun y => bit y.stat 7 = true) (fun _ _ _ => rfl) latched

end

/-! The commands. -/

section
variable {h : Hall} {c : Chan} {b : Bool} {p : LimitPhase} {s : State}

/-- A command that moves channel `c` alone, and what holds of the channel. -/
theorem oneChan_next {k : Instr} {t : State} {P : ChanState → Prop} (hs : Inv s) (e : exec k s = done (report h t))
    (a : OneChan h c s t) (hP : ∀ x e a, P { x with evt := e, ainEvt := a } = P x) (hp : P (getChan t h c)) :
    ∃ t, exec k s = .next t ∧ hallOnly h s t ∧ P (getChan t h c) := ⟨_, e, a.frame hs c.isLt, of_report hP hp⟩

/-- A channel that a command leaves alone. -/
def channelKept (x y : ChanState) : Prop := y.stat = x.stat ∧ y.cut = x.cut

theorem kept_next {k : Instr} (hs : Inv s) (e : exec k s = done (report h s)) :
    ∃ t, exec k s = .next t ∧ hallOnly h s t ∧ channelKept (getChan s h c) (getChan t h c) :=
  oneChan_next hs e (.refl h c s) (fun _ _ _ => rfl) ⟨rfl, rfl⟩

/-! OVERLOAD (R48, R49). -/

theorem exec_overload (hu : (getHall s h).up = true) : exec (.overload h ⟨c, p⟩) s = done (report h
    (if p = .left then (if (getChan s h c).cut then s else chFlag h c 4 false s)
     else if stageOn s h c then
       (if modeOf s h c = 14 then gangFail h c (chFlag h c 4 true s)
        else if p = .switchedOff then cutRetry h c (chFlag h c 4 true s) else chFlag h c 4 true s)
     else s)) := by
  show execOverload h ⟨c, p⟩ s = _
  unfold execOverload
  exact hallDo_up hu

/-- The attempts counted do not follow the flags of a condition. -/
theorem retriedOff_chFlag {h c i : Nat} {b : Bool} {s : State} {y : ChanState} (hi : i < 32) (h9 : i ≠ 9)
    (k : retriedOff h (chFlag h c i b s) (getChan (chFlag h c i b s) h c) y) : retriedOff h s (getChan s h c) y := by
  refine retriedOff_congr (t := chFlag h c i b s) rfl (chFlag_alike (fun _ _ _ => rfl) (.refl _ s)) ?_ k
  have same := chFlag_alike (p := fun x => (x.mode, x.ramp, x.attempts)) (fun _ _ _ => rfl) (.refl _ s) (h := h) (c := c) (i := i) (b := b) h c
  simp only [Prod.mk.injEq] at same ⊢
  obtain ⟨mode, ramp, attempts⟩ := same
  exact ⟨mode, ramp, attempts, flagKept.chFlag hi h9.symm (.refl 9 s) h c⟩

theorem overload_left (hs : Inv s) (hu : (getHall s h).up = true) :
    ∃ t, exec (.overload h ⟨c, .left⟩) s = .next t ∧ hallOnly h s t ∧
      (getChan t h c).cut = (getChan s h c).cut ∧
      (getChan t h c).stat = if (getChan s h c).cut then (getChan s h c).stat else putBit (getChan s h c).stat 4 false := by
  have e := exec_overload (c := c) (p := .left) hu
  rw [if_pos rfl] at e
  cases k : (getChan s h c).cut with
  | true =>
    rw [k, if_pos rfl] at e
    exact oneChan_next (P := fun y => y.cut = true ∧ y.stat = (getChan s h c).stat) hs e (.refl h c s) (fun _ _ _ => rfl) ⟨k, rfl⟩
  | false =>
    rw [k, if_neg (by decide)] at e
    exact oneChan_next (P := fun y => y.cut = false ∧ y.stat = putBit (getChan s h c).stat 4 false) hs e (.chFlag (.refl h c s))
      (fun _ _ _ => rfl) ⟨(chFlag_alike (p := ChanState.cut) (fun _ _ _ => rfl) (.refl _ s) h c).trans k, stat_chFlag ..⟩

theorem overload_on (hs : Inv s) (hu : (getHall s h).up = true) (hm : (getChan s h c).mode ≠ 14) (hp : p ≠ .left)
    (hon : stageOn s h c = true) : ∃ t, exec (.overload h ⟨c, p⟩) s = .next t ∧ hallOnly h s t ∧
      bit (getChan t h c).stat 4 = true ∧ (p = .switchedOff → retriedOff h s (getChan s h c) (getChan t h c)) ∧
      (p = .entered → (getChan t h c).cut = (getChan s h c).cut ∧ (getChan t h c).drive = (getChan s h c).drive) := by
  have e := exec_overload (c := c) (p := p) hu
  rw [if_neg hp, if_pos hon, if_neg (show modeOf s h c ≠ 14 from hm)] at e
  by_cases k : p = .switchedOff
  · rw [if_pos k] at e
    refine oneChan_next (P := fun y => bit y.stat 4 = true ∧ (p = .switchedOff → retriedOff h s (getChan s h c) y) ∧
      (p = .entered → y.cut = (getChan s h c).cut ∧ y.drive = (getChan s h c).drive)) hs e
      (.cutRetry (.chFlag (.refl h c s))) (fun _ _ _ => rfl) ⟨?_, fun _ => ?_, fun n => absurd (k.symm.trans n) (by decide)⟩
    · exact (cutRetry_flag (by decide) _ h c).trans (bit_chFlag (by decide))
    · exact retriedOff_chFlag (by decide) (by decide) (retriedOff_cutRetry h c _)
  · rw [if_neg k] at e
    refine oneChan_next (P := fun y => bit y.stat 4 = true ∧ (p = .switchedOff → retriedOff h s (getChan s h c) y) ∧
      (p = .entered → y.cut = (getChan s h c).cut ∧ y.drive = (getChan s h c).drive)) hs e
      (.chFlag (.refl h c s)) (fun _ _ _ => rfl) ⟨bit_chFlag (by decide), fun n => absurd n k, fun _ => ⟨?_, ?_⟩⟩
    · exact chFlag_alike (p := ChanState.cut) (fun _ _ _ => rfl) (.refl _ s) h c
    · exact chFlag_alike (p := ChanState.drive) (fun _ _ _ => rfl) (.refl _ s) h c

theorem overload_off (hs : Inv s) (hu : (getHall s h).up = true) (hp : p ≠ .left) (hon : stageOn s h c = false) :
    ∃ t, exec (.overload h ⟨c, p⟩) s = .next t ∧ hallOnly h s t ∧ channelKept (getChan s h c) (getChan t h c) := by
  have e := exec_overload (c := c) (p := p) hu
  rw [if_neg hp, hon, if_neg (by decide)] at e
  exact kept_next hs e

/-- What a flag set on a channel leaves for its gang's failure. -/
theorem gangFlag_next {k : Instr} {i : Nat} (hs : Inv s) (e : exec k s = done (report h (gangFail h c (chFlag h c i true s))))
    (hi : i < 32) (hj : i ≠ 7 ∧ i ≠ 8 ∧ i ≠ 5) :
    ∃ t, exec k s = .next t ∧ bit (getChan t h c).stat i = true ∧ (getChan t h (leadOf s h c)).gangSafe = true ∧
      bit (getChan t h (leadOf s h c)).stat 7 = true ∧ hallOnly h s t := by
  obtain ⟨h7, h8, h5⟩ := hj
  exact gangFail_next hs c.isLt e ((OneChan.refl h c s).chFlag.within c.isLt) rfl (chFlag_alike (fun _ _ _ => rfl) (.refl _ s))
    ⟨h7, h8⟩ (.inl h5) (bit_chFlag hi)

/-! EXT_DRIVE (R49). -/

theorem exec_extDrive (hu : (getHall s h).up = true) : exec (.extDrive h ⟨c, b⟩) s = done (report h
    (if !b then (if (getChan s h c).rev then s else chFlag h c 5 false s)
     else if (modeOf s h c = 13 ∨ modeOf s h c = 14 ∨ modeOf s h c = 16) ∧ offLong s h c = true ∧ (!sharedStandby s h c) = true then
       (if modeOf s h c = 14 then gangFail h c (chFlag h c 5 true s) else chFlag h c 5 true s)
     else s)) := by
  show execExtDrive h ⟨c, b⟩ s = _
  unfold execExtDrive
  exact hallDo_up hu

theorem extDrive_end (hs : Inv s) (hu : (getHall s h).up = true) :
    ∃ t, exec (.extDrive h ⟨c, false⟩) s = .next t ∧ hallOnly h s t ∧
      (getChan t h c).stat = (if (getChan s h c).rev then (getChan s h c).stat else putBit (getChan s h c).stat 5 false) ∧
      (getChan t h c).cut = (getChan s h c).cut := by
  have e := exec_extDrive (c := c) (b := false) hu
  rw [if_pos (show (!false) = true from rfl)] at e
  cases k : (getChan s h c).rev with
  | true =>
    rw [k, if_pos rfl] at e
    exact kept_next hs e
  | false =>
    rw [k, if_neg (by decide)] at e
    exact oneChan_next (P := fun y => y.stat = putBit (getChan s h c).stat 5 false ∧ y.cut = (getChan s h c).cut) hs e
      (.chFlag (.refl h c s)) (fun _ _ _ => rfl) ⟨stat_chFlag .., chFlag_alike (p := ChanState.cut) (fun _ _ _ => rfl) (.refl _ s) h c⟩

/-- A rise of a channel's flag keeps its event. -/
theorem raised_chFlag {h c i : Nat} {s : State} (hi : i < 32) (h0 : bit (getChan s h c).stat i = false) :
    chanRaised h c i (chFlag h c i true s) := by
  left
  unfold chFlag
  rw [getChan_updChan_self, if_pos (by rw [h0]; rfl)]
  exact bit_or_bitMask _ hi

theorem extDrive_begin (hs : Inv s) (hu : (getHall s h).up = true) (hm : (getChan s h c).mode ≠ 14) :
    ∃ t, exec (.extDrive h ⟨c, true⟩) s = .next t ∧ hallOnly h s t ∧
      (if ((getChan s h c).mode = 13 ∨ (getChan s h c).mode = 16) ∧ offLong s h c = true ∧ sharedStandby s h c = false then
        (getChan t h c).stat = putBit (getChan s h c).stat 5 true ∧ (getChan t h c).cut = (getChan s h c).cut ∧
          (bit (getChan s h c).stat 5 = false → chanRaised h c 5 t)
       else channelKept (getChan s h c) (getChan t h c)) := by
  have e := exec_extDrive (c := c) (b := true) hu
  have hm' : modeOf s h c ≠ 14 := hm
  rw [if_neg (by decide), if_neg hm'] at e
  by_cases k : ((getChan s h c).mode = 13 ∨ (getChan s h c).mode = 16) ∧ offLong s h c = true ∧ sharedStandby s h c = false
  · obtain ⟨mode, off, own⟩ := k
    rw [if_pos ⟨by unfold modeOf; omega, off, by rw [own]; rfl⟩] at e
    refine ⟨_, e, (OneChan.refl h c s).chFlag.frame hs c.isLt, ?_⟩
    rw [if_pos ⟨mode, off, own⟩]
    exact ⟨(stat_chan_report ..).trans (stat_chFlag ..),
      of_report (P := fun y => y.cut = (getChan s h c).cut) (fun _ _ _ => rfl)
        (chFlag_alike (p := ChanState.cut) (fun _ _ _ => rfl) (.refl _ s) h c),
      fun h0 => chanRaised_report h.isLt c.isLt (raised_chFlag (by decide) h0)⟩
  · rw [if_neg] at e
    · obtain ⟨t, e, only, same⟩ := kept_next (c := c) hs e
      exact ⟨t, e, only, by rw [if_neg k]; exact same⟩
    · rintro ⟨mode, off, own⟩
      refine k ⟨?_, off, by simpa using own⟩
      unfold modeOf at mode
      omega

/-! REVERSE_CURRENT and READBACK (R49). -/

theorem switchedOff_congr {h : Nat} {s t : State} {x y z : ChanState} (hr : chansAlike ChanState.ramp s t) (hm : z.mode = x.mode)
    (hz : z.ramp = x.ramp) (k : switchedOff h t z y) : switchedOff h s x y := by
  unfold switchedOff at k ⊢
  rwa [hm, hz, sagRamping_congr hr] at k

/-- A stage opened for reverse current, with EXT_DRIVE. -/
def reversed (h c : Nat) (s : State) : State := chFlag h c 5 true (updChan h c (fun x => { x with rev := true }) s)

theorem reversed_oneChan (h c : Nat) (s : State) : OneChan h c s (reversed h c s) := .chFlag (.updChan (.refl h c s))

theorem reversed_alike {α : Type} {p : ChanState → α} (hp : ∀ x r w e, p { x with rev := r, stat := w, evt := e } = p x)
    (h c : Nat) (s : State) : chansAlike p s (reversed h c s) :=
  chFlag_alike (fun x w e => hp x x.rev w e) (chansAlike.updChan (fun x => hp x true x.stat x.evt) (.refl _ s))

theorem reversed_own (h c : Nat) (s : State) : (getChan (reversed h c s) h c).rev = true ∧
    bit (getChan (reversed h c s) h c).stat 5 = true := by
  refine ⟨?_, bit_chFlag (by decide)⟩
  unfold reversed
  rw [chFlag_alike (p := ChanState.rev) (fun _ _ _ => rfl) (.refl _ _) h c, getChan_updChan_self]

theorem exec_reverseCurrent (hu : (getHall s h).up = true) : exec (.reverseCurrent h c) s = done (report h
    (if stageOn s h c && !sharedStandby s h c && !handoverOverlap s h c then
       (if modeOf s h c = 14 then gangFail h c (reversed h c s) else cutLatch h c (reversed h c s))
     else s)) := by
  show execReverseCurrent h c s = _
  unfold execReverseCurrent
  exact hallDo_up hu

theorem reverseCurrent_next (hs : Inv s) (hu : (getHall s h).up = true) (hm : (getChan s h c).mode ≠ 14) :
    ∃ t, exec (.reverseCurrent h c) s = .next t ∧ hallOnly h s t ∧
      (if stageOn s h c && !sharedStandby s h c && !handoverOverlap s h c then
        bit (getChan t h c).stat 5 = true ∧ (getChan t h c).rev = true ∧ switchedOff h s (getChan s h c) (getChan t h c) ∧
          latchedOff (getChan t h c)
       else channelKept (getChan s h c) (getChan t h c)) := by
  have e := exec_reverseCurrent (c := c) hu
  split
  next k =>
    rw [if_pos k, if_neg (show modeOf s h c ≠ 14 from hm)] at e
    obtain ⟨rev, flag⟩ := reversed_own h c s
    obtain ⟨rev', flag'⟩ := cutLatch_reversed rev
    obtain ⟨off, latched⟩ := cutLatch_own h c (reversed h c s)
    have mode := reversed_alike (p := ChanState.mode) (fun _ _ _ _ => rfl) h c s h c
    have ramp := reversed_alike (p := ChanState.ramp) (fun _ _ _ _ => rfl) h c s
    exact oneChan_next (P := fun y => bit y.stat 5 = true ∧ y.rev = true ∧ switchedOff h s (getChan s h c) y ∧ latchedOff y) hs e
      (reversed_oneChan h c s).cutLatch (fun _ _ _ => rfl)
      ⟨flag'.trans flag, rev', switchedOff_congr ramp mode (ramp h c) off, latched⟩
  next k =>
    rw [if_neg k] at e
    exact kept_next hs e

theorem exec_readback (hu : (getHall s h).up = true) : exec (.readback h c) s = done (report h
    (if stageOn s h c && !sharedStandby s h c then
       (if modeOf s h c = 14 then gangFail h c (chFlag h c 6 true s) else cutLatch h c (chFlag h c 6 true s))
     else s)) := by
  show execReadback h c s = _
  unfold execReadback
  exact hallDo_up hu

theorem readback_next (hs : Inv s) (hu : (getHall s h).up = true) (hm : (getChan s h c).mode ≠ 14) :
    ∃ t, exec (.readback h c) s = .next t ∧ hallOnly h s t ∧
      (if stageOn s h c && !sharedStandby s h c then
        bit (getChan t h c).stat 6 = true ∧ switchedOff h s (getChan s h c) (getChan t h c) ∧ latchedOff (getChan t h c)
       else channelKept (getChan s h c) (getChan t h c)) := by
  have e := exec_readback (c := c) hu
  split
  next k =>
    rw [if_pos k, if_neg (show modeOf s h c ≠ 14 from hm)] at e
    obtain ⟨off, latched⟩ := cutLatch_own h c (chFlag h c 6 true s)
    have mode := chFlag_alike (p := ChanState.mode) (fun _ _ _ => rfl) (.refl _ s) (h := h) (c := c) (i := 6) (b := true) h c
    have ramp := chFlag_alike (p := ChanState.ramp) (fun _ _ _ => rfl) (.refl _ s) (h := h) (c := c) (i := 6) (b := true)
    exact oneChan_next (P := fun y => bit y.stat 6 = true ∧ switchedOff h s (getChan s h c) y ∧ latchedOff y) hs e
      (OneChan.cutLatch (.chFlag (.refl h c s))) (fun _ _ _ => rfl)
      ⟨(flagKept.cutLatch (by decide) (.refl 6 _) h c).trans (bit_chFlag (by decide)), switchedOff_congr ramp mode (ramp h c) off,
        latched⟩
  next k =>
    rw [if_neg k] at e
    exact kept_next hs e

/-! LOOP_SHORT and BURDEN_OVER (R49, R76). -/

theorem exec_loopShort (hu : (getHall s h).up = true) : exec (.loopShort h c) s = done (report h
    (if modeOf s h c = 5 then cutRetry h c (chFlag h c 11 true s) else s)) := by
  show execLoopShort h c s = _
  unfold execLoopShort
  exact hallDo_up hu

theorem loopShort_next (hs : Inv s) (hu : (getHall s h).up = true) :
    ∃ t, exec (.loopShort h c) s = .next t ∧ hallOnly h s t ∧
      (if (getChan s h c).mode = 5 then bit (getChan t h c).stat 11 = true ∧ retriedOff h s (getChan s h c) (getChan t h c)
       else channelKept (getChan s h c) (getChan t h c)) := by
  have e := exec_loopShort (c := c) hu
  split
  next k =>
    rw [if_pos (show modeOf s h c = 5 from k)] at e
    exact oneChan_next (P := fun y => bit y.stat 11 = true ∧ retriedOff h s (getChan s h c) y) hs e
      (.cutRetry (.chFlag (.refl h c s))) (fun _ _ _ => rfl)
      ⟨(cutRetry_flag (by decide) _ h c).trans (bit_chFlag (by decide)), retriedOff_chFlag (by decide) (by decide) (retriedOff_cutRetry h c _)⟩
  next k =>
    rw [if_neg (show modeOf s h c ≠ 5 from k)] at e
    exact kept_next hs e

theorem exec_burdenOver (hu : (getHall s h).up = true) : exec (.burdenOver h c) s = done (report h
    (if modeOf s h c = 6 then cutRetry h c (ainFlag h c 3 true s) else s)) := by
  show execBurdenOver h c s = _
  unfold execBurdenOver
  exact hallDo_up hu

theorem ainFlag_alike {α : Type} {p : ChanState → α} (hp : ∀ x a e, p { x with ain := a, ainEvt := e } = p x) (h c i : Nat) (b : Bool)
    (s : State) : chansAlike p s (ainFlag h c i b s) := chansAlike.updChan (fun x => hp x _ _) (.refl _ s)

theorem cutRetry_ain (h c : Nat) (s : State) : (getChan (cutRetry h c s) h c).ain = (getChan s h c).ain := by
  rw [cutRetry_eq]
  exact (resolve_view (q := ChanState.ain) (fun _ => rfl) (.refl _ _) h c).trans
    (retryMarked_alike (p := ChanState.ain) (fun _ _ _ _ _ _ => rfl) s h c)

theorem burdenOver_next (hs : Inv s) (hu : (getHall s h).up = true) :
    ∃ t, exec (.burdenOver h c) s = .next t ∧ hallOnly h s t ∧
      (if (getChan s h c).mode = 6 then bit (getChan t h c).ain 3 = true ∧ retriedOff h s (getChan s h c) (getChan t h c)
       else channelKept (getChan s h c) (getChan t h c)) := by
  have e := exec_burdenOver (c := c) hu
  split
  next k =>
    rw [if_pos (show modeOf s h c = 6 from k)] at e
    have flag : bit (getChan (ainFlag h c 3 true s) h c).ain 3 = true := by
      unfold ainFlag
      rw [getChan_updChan_self]
      exact bit_putBit _ (by decide) true
    refine oneChan_next (P := fun y => bit y.ain 3 = true ∧ retriedOff h s (getChan s h c) y) hs e
      (.cutRetry (.ainFlag (.refl h c s))) (fun _ _ _ => rfl) ⟨by rw [cutRetry_ain]; exact flag, ?_⟩
    exact retriedOff_congr (t := ainFlag h c 3 true s) rfl (ainFlag_alike (fun _ _ _ => rfl) h c 3 true s)
      (ainFlag_alike (p := fun x => (x.mode, x.ramp, x.attempts, bit x.stat 9)) (fun _ _ _ => rfl) h c 3 true s h c)
      (retriedOff_cutRetry h c _)
  next k =>
    rw [if_neg (show modeOf s h c ≠ 6 from k)] at e
    exact kept_next hs e

/-! RETRY and RETRY_CLEAR (R50). -/

/-- A channel switched on again with its conditions cleared, its output not yet moved. -/
def retried (h c : Nat) (s : State) : State :=
  ainFlag h c 3 false (chFlag h c 11 false (chFlag h c 4 false (updChan h c (fun y => { y with cut := false }) s)))

theorem retried_own (h c : Nat) (s : State) : (getChan (retried h c s) h c).cut = false ∧
    bit (getChan (retried h c s) h c).stat 4 = false ∧ bit (getChan (retried h c s) h c).stat 11 = false := by
  let t := chFlag h c 4 false (updChan h c (fun y => { y with cut := false }) s)
  have flag (j : Nat) : bit (getChan (retried h c s) h c).stat j = bit (getChan (chFlag h c 11 false t) h c).stat j :=
    ainFlag_alike (p := fun x => bit x.stat j) (fun _ _ _ => rfl) h c 3 false _ h c
  refine ⟨?_, ?_, (flag 11).trans (bit_chFlag (by decide))⟩
  · refine (ainFlag_alike (p := ChanState.cut) (fun _ _ _ => rfl) h c 3 false _ h c).trans ?_
    rw [chFlag_alike (p := ChanState.cut) (fun _ _ _ => rfl) (.refl _ _) h c,
      chFlag_alike (p := ChanState.cut) (fun _ _ _ => rfl) (.refl _ _) h c, getChan_updChan_self]
  · exact (flag 4).trans ((flagKept.chFlag (by decide) (by decide) (.refl 4 t) h c).trans (bit_chFlag (by decide)))

theorem exec_retry (hu : (getHall s h).up = true) : exec (.retry h c b) s = done (report h
    (if (getChan s h c).cut && bit (getChan s h c).stat 9 && !bit (getHall s h).stat 3 then
       (if b then cutRetry h c s else resolve h c (retried h c s)) else s)) := by
  show execRetry h c b s = _
  unfold execRetry
  exact hallDo_up hu

theorem retry_next (hs : Inv s) (hu : (getHall s h).up = true) :
    ∃ t, exec (.retry h c b) s = .next t ∧ hallOnly h s t ∧
      (if (getChan s h c).cut && bit (getChan s h c).stat 9 && !bit (getHall s h).stat 3 then
        (if b then retriedOff h s (getChan s h c) (getChan t h c)
         else (getChan t h c).cut = false ∧ bit (getChan t h c).stat 4 = false ∧ bit (getChan t h c).stat 11 = false)
       else channelKept (getChan s h c) (getChan t h c)) := by
  have e := exec_retry (c := c) (b := b) hu
  split
  next k =>
    rw [if_pos k] at e
    split
    next hb =>
      rw [if_pos hb] at e
      exact oneChan_next (P := retriedOff h s (getChan s h c)) hs e (.cutRetry (.refl h c s)) (fun _ _ _ => rfl)
        (retriedOff_cutRetry h c s)
    next hb =>
      rw [if_neg hb] at e
      obtain ⟨cut, short, loop⟩ := retried_own h c s
      have a : OneChan h c s (retried h c s) := .ainFlag (.chFlag (.chFlag (.updChan (.refl h c s))))
      exact oneChan_next (P := fun y => y.cut = false ∧ bit y.stat 4 = false ∧ bit y.stat 11 = false) hs e a.resolve
        (fun _ _ _ => rfl) ⟨(resolve_view (q := ChanState.cut) (fun _ => rfl) (.refl _ _) h c).trans cut,
          (resolve_bit (by decide) (by decide) _).trans short, (resolve_bit (by decide) (by decide) _).trans loop⟩
  next k =>
    rw [if_neg k] at e
    exact kept_next hs e

theorem exec_retryClear (hu : (getHall s h).up = true) : exec (.retryClear h c) s = done (report h
    (if bit (getChan s h c).stat 9 && !(getChan s h c).cut then
       chFlag h c 9 false (updChan h c (fun y => { y with attempts := 0 }) s) else s)) := by
  show execRetryClear h c s = _
  unfold execRetryClear
  exact hallDo_up hu

theorem retryClear_next (hs : Inv s) (hu : (getHall s h).up = true) :
    ∃ t, exec (.retryClear h c) s = .next t ∧ hallOnly h s t ∧
      (if bit (getChan s h c).stat 9 && !(getChan s h c).cut then
        (getChan t h c).attempts = 0 ∧ (getChan t h c).stat = putBit (getChan s h c).stat 9 false
       else channelKept (getChan s h c) (getChan t h c)) := by
  have e := exec_retryClear (c := c) hu
  split
  next k =>
    rw [if_pos k] at e
    have own : getChan (updChan h c (fun y => { y with attempts := 0 }) s) h c = { getChan s h c with attempts := 0 } :=
      getChan_updChan_self ..
    exact oneChan_next (P := fun y => y.attempts = 0 ∧ y.stat = putBit (getChan s h c).stat 9 false) hs e
      (.chFlag (.updChan (.refl h c s))) (fun _ _ _ => rfl)
      ⟨(chFlag_alike (p := ChanState.attempts) (fun _ _ _ => rfl) (.refl _ _) h c).trans (by rw [own]), by rw [stat_chFlag, own]⟩
  next k =>
    rw [if_neg k] at e
    exact kept_next hs e

/-! A member of a gang (R48). -/

theorem gang_overload (hs : Inv s) (hu : (getHall s h).up = true) (hm : (getChan s h c).mode = 14) (hon : stageOn s h c = true)
    (hp : p ≠ .left) : ∃ t, exec (.overload h ⟨c, p⟩) s = .next t ∧ bit (getChan t h c).stat 4 = true ∧
      (getChan t h (leadOf s h c)).gangSafe = true ∧ bit (getChan t h (leadOf s h c)).stat 7 = true ∧ hallOnly h s t := by
  have e := exec_overload (c := c) (p := p) hu
  rw [if_neg hp, if_pos hon, if_pos (show modeOf s h c = 14 from hm)] at e
  exact gangFlag_next hs e (by decide) (by decide)

theorem gang_extDrive (hs : Inv s) (hu : (getHall s h).up = true) (hm : (getChan s h c).mode = 14) (hoff : offLong s h c = true)
    (ho : sharedStandby s h c = false) : ∃ t, exec (.extDrive h ⟨c, true⟩) s = .next t ∧
      (getChan t h (leadOf s h c)).gangSafe = true ∧ bit (getChan t h (leadOf s h c)).stat 7 = true ∧ hallOnly h s t := by
  have e := exec_extDrive (c := c) (b := true) hu
  have hm : modeOf s h c = 14 := hm
  rw [if_neg (by decide), if_pos ⟨.inr (.inl hm), hoff, by rw [ho]; rfl⟩, if_pos hm] at e
  obtain ⟨safe, latched⟩ := gangFail_lead h c (chFlag h c 5 true s)
  have lead : leadOf (chFlag h c 5 true s) h c = leadOf s h c := leadOf_congr rfl (chFlag_alike (fun _ _ _ => rfl) (.refl _ s))
  rw [lead] at safe latched
  exact ⟨_, e, of_report (P := fun y => y.gangSafe = true) (fun _ _ _ => rfl) safe,
    of_report (P := fun y => bit y.stat 7 = true) (fun _ _ _ => rfl) latched,
    Within.frame hs (.gangFail c.isLt ((OneChan.refl h c s).chFlag.within c.isLt))⟩

theorem gang_reverseCurrent (hs : Inv s) (hu : (getHall s h).up = true) (hm : (getChan s h c).mode = 14) (hon : stageOn s h c = true)
    (ho : sharedStandby s h c = false) (hh : handoverOverlap s h c = false) :
    ∃ t, exec (.reverseCurrent h c) s = .next t ∧ bit (getChan t h c).stat 5 = true ∧
      (getChan t h (leadOf s h c)).gangSafe = true ∧ bit (getChan t h (leadOf s h c)).stat 7 = true ∧ hallOnly h s t := by
  have e := exec_reverseCurrent (c := c) hu
  rw [if_pos (by simp [hon, ho, hh]), if_pos (show modeOf s h c = 14 from hm)] at e
  obtain ⟨rev, flag⟩ := reversed_own h c s
  exact gangFail_next hs c.isLt e ((reversed_oneChan h c s).within c.isLt) rfl (reversed_alike (fun _ _ _ _ => rfl) h c s)
    (by decide) (.inr rev) flag

theorem gang_readback (hs : Inv s) (hu : (getHall s h).up = true) (hm : (getChan s h c).mode = 14) (hon : stageOn s h c = true)
    (ho : sharedStandby s h c = false) : ∃ t, exec (.readback h c) s = .next t ∧ bit (getChan t h c).stat 6 = true ∧
      (getChan t h (leadOf s h c)).gangSafe = true ∧ bit (getChan t h (leadOf s h c)).stat 7 = true ∧ hallOnly h s t := by
  have e := exec_readback (c := c) hu
  rw [if_pos (by simp [hon, ho]), if_pos (show modeOf s h c = 14 from hm)] at e
  exact gangFlag_next hs e (by decide) (by decide)

end

/-- Settles O40: the causes that are retried by what a counted switch-off leaves, those that latch by what a latched one does, and
a gang's by its failure. -/
theorem switchOffsAndRetries : Obligations.SwitchOffsAndRetries := by
  intro h c b p s hs
  refine ⟨fun hd k hk => ?_, fun hu => ⟨fun hm => ⟨?_, ?_, reverseCurrent_next hs hu hm, readback_next hs hu hm⟩,
    loopShort_next hs hu, burdenOver_next hs hu, retry_next hs hu, retryClear_next hs hu, fun hm => ⟨fun hon hp => ?_,
      gang_extDrive hs hu hm, fun hon ho => ⟨gang_reverseCurrent hs hu hm hon ho, gang_readback hs hu hm hon ho⟩⟩⟩⟩
  · simp only [List.mem_cons, List.not_mem_nil, or_false] at hk
    rcases hk with rfl | rfl | rfl | rfl | rfl | rfl | rfl | rfl
    · exact next_down (execOverload h ⟨c, p⟩ s) rfl rfl hs hd
    · exact next_down (execExtDrive h ⟨c, b⟩ s) rfl rfl hs hd
    · exact next_down (execReverseCurrent h c s) rfl rfl hs hd
    · exact next_down (execReadback h c s) rfl rfl hs hd
    · exact next_down (execLoopShort h c s) rfl rfl hs hd
    · exact next_down (execBurdenOver h c s) rfl rfl hs hd
    · exact next_down (execRetry h c b s) rfl rfl hs hd
    · exact next_down (execRetryClear h c s) rfl rfl hs hd
  · by_cases hp : p = .left
    · subst hp
      obtain ⟨t, e, only, cleared⟩ := overload_left (c := c) hs hu
      exact ⟨t, e, only, by rw [if_pos rfl]; exact cleared⟩
    · cases hon : stageOn s h c with
      | true =>
        obtain ⟨t, e, only, taken⟩ := overload_on hs hu hm hp hon
        exact ⟨t, e, only, by rw [if_neg hp, if_pos rfl]; exact taken⟩
      | false =>
        obtain ⟨t, e, only, same⟩ := overload_off hs hu hp hon
        exact ⟨t, e, only, by rw [if_neg hp, if_neg (by decide)]; exact same⟩
  · cases b with
    | false =>
      obtain ⟨t, e, only, ended⟩ := extDrive_end (c := c) hs hu
      exact ⟨t, e, only, by rw [if_pos rfl]; exact ended⟩
    | true =>
      obtain ⟨t, e, only, begun⟩ := extDrive_begin hs hu hm
      exact ⟨t, e, only, by rw [if_neg (by decide)]; exact begun⟩
  · exact gang_overload hs hu hm hon hp

end Sys2Proof.Machine

namespace Sys2Proof.Machine

/-! SAG3 (R62). -/

section
variable {h c i : Nat} {s t u : State}

theorem hallRaised_congr (k : changesOnly [.chans] t u) (r : hallRaised h i t) : hallRaised h i u := by
  unfold hallRaised
  rwa [halls_of_changes k, getReg_congr (k .regs (by decide))]

theorem driveNow_congr (ht : t.time.now = s.time.now) (hc : (getChan t h c).ramp = (getChan s h c).ramp)
    (hd : (getChan t h c).drive = (getChan s h c).drive) : driveNow t h c = driveNow s h c := by
  unfold driveNow
  rw [ht, hc, hd]

/-- The ramp of an output started. -/
theorem ramp_startRamp (h c v r : Nat) (s : State) : (getChan (startRamp h c v r s) h c).ramp =
    some { from_ := driveNow s h c, dest := v, start := s.time.now, len := 200000, rank := r } := by
  unfold startRamp
  rw [chFlag_alike (p := ChanState.ramp) (fun _ _ _ => rfl) (.refl _ _) h c, getChan_updChan_self]

/-- What an output meets and leaves where the outputs of its hall are brought to their states, and a ramp it runs is decided as it
stands. -/
theorem resolveAll_ramping {r : Ramp} (hc : c < 4) (hm : (getChan s h c).mode ≠ 14) (hr : (getChan s h c).ramp = some r)
    (hd : r.rank = outRank s h c) : getChan (resolveAll h s) h c = getChan s h c := by
  obtain ⟨u, parts, -, before, after⟩ := resolveAll_at (h := h) hc s
  have hall := halls_of_changes parts h
  have rank : outRank u h c = outRank s h c := outRank_own hm (by rw [hall]; exact ⟨rfl, rfl, rfl⟩) (by rw [before])
  rw [after, resolve_ramping (before ▸ hr) (hd.trans rank.symm), before]

/-- SAG3 noted: no policy waits, and no output for its place in the switch-on order. -/
def sagTaken (h : Nat) (s : State) : State :=
  forChans (fun c => updChan h c (fun x => { x with queued := false }))
    (updHall h (fun x => { x with leaveDue := none }) (hallFlag h 3 true s))

theorem sagTaken_chans (h : Nat) (s : State) : changesOnly [.chans] (updHall h (fun x => { x with leaveDue := none }) (hallFlag h 3 true s))
    (sagTaken h s) := forChans_into (fun _ _ => updChan_changes rfl (.refl _ _)) (.refl _ _)

theorem getHall_sagTaken (h : Nat) (s : State) :
    getHall (sagTaken h s) h = { getHall (hallFlag h 3 true s) h with leaveDue := none } := by
  rw [halls_of_changes (sagTaken_chans h s), getHall_updHall_self]

theorem sagTaken_alike {α : Type} {p : ChanState → α} (hp : ∀ x, p { x with queued := false } = p x) (h : Nat) (s : State) :
    chansAlike p s (sagTaken h s) :=
  chansAlike.forChans (fun _ u => .updChan hp (.refl _ u)) (.refl _ _)

/-- The ramp of channel `c` at SAG3, where it is a current output. -/
def sagRamp (h c : Nat) (s : State) : State := if modeOf s h c = 15 then startRamp h c 0 2 s else s

theorem sagRamps_at (hc : c < 4) (s : State) : ∃ u, changesOnly [.chans] s u ∧ getChan u h c = getChan s h c ∧
    getChan (sagRamps h s) h c = getChan (sagRamp h c u) h c := by
  obtain ⟨u, parts, -, before, after⟩ := forChans_oneChan (Q := fun _ _ => True) (f := sagRamp h) (s := s) (fun _ => trivial)
    (fun _ _ _ _ _ => trivial) hc (fun _ _ _ _ => trivial) fun d _ u => .ite (.startRamp (.refl h d u)) (.refl h d u)
  exact ⟨u, parts, before, after⟩

/-- A current output starts its ramp to 0 mA. -/
theorem sagRamps_ramp (hc : c < 4) (hm : (getChan s h c).mode = 15) : (getChan (sagRamps h s) h c).mode = 15 ∧
    (getChan (sagRamps h s) h c).ramp =
      some { from_ := driveNow s h c, dest := 0, start := s.time.now, len := 200000, rank := 2 } := by
  obtain ⟨u, parts, before, after⟩ := sagRamps_at (h := h) hc s
  have time : u.time = s.time := parts .time (by decide)
  have start : sagRamp h c u = startRamp h c 0 2 u := if_pos (show (getChan u h c).mode = 15 by rw [before]; exact hm)
  rw [after, start]
  constructor
  · have same : chansAlike ChanState.mode u (startRamp h c 0 2 u) := 
      chansAlike.view (p := outputRest) ChanState.mode (fun _ => rfl) (startRamp_rest (.refl _ u))
    rw [same h c, before, hm]
  · rw [ramp_startRamp, driveNow_congr (congrArg TimeSt.now time) (by rw [before]) (by rw [before]), time]

/-- Another output has no ramp to start. -/
theorem sagRamps_other (hc : c < 4) (hm : (getChan s h c).mode ≠ 15) : getChan (sagRamps h s) h c = getChan s h c := by
  obtain ⟨u, -, before, after⟩ := sagRamps_at (h := h) hc s
  have idle : sagRamp h c u = u := if_neg (show (getChan u h c).mode ≠ 15 by rw [before]; exact hm)
  rw [after, idle, before]

theorem sagRamps_chans (h : Nat) (s : State) : changesOnly [.chans] s (sagRamps h s) := sagRamps_changes rfl (.refl _ _)

end

section
variable {h : Hall} {c : Nat} {s : State}

theorem exec_sag3_again (hu : (getHall s h).up = true) (h3 : bit (getHall s h).stat 3 = true) :
    exec (.sag3 h) s = done (report h s) := by
  show execSag3 h s = _
  unfold execSag3
  rw [hallDo_up hu, if_pos h3]

theorem exec_sag3_first (hu : (getHall s h).up = true) (h3 : bit (getHall s h).stat 3 = false) :
    exec (.sag3 h) s = done (report h (resolveAll h (sagRamps h (sagTaken h s)))) := by
  show execSag3 h s = _
  unfold execSag3
  rw [hallDo_up hu, if_neg (by rw [h3]; decide)]
  unfold sagTaken
  rfl

theorem sag3_again (hs : Inv s) (hu : (getHall s h).up = true) (h3 : bit (getHall s h).stat 3 = true) :
    ∃ t, exec (.sag3 h) s = .next t ∧ (getHall t h).stat = (getHall s h).stat ∧
      (∀ c < 4, (getChan t h c).drive = (getChan s h c).drive ∧ (getChan t h c).ramp = (getChan s h c).ramp) ∧
      hallOnly h s t :=
  ⟨_, exec_sag3_again hu h3, stat_report h s, fun c _ => of_report (P := fun y => y.drive = (getChan s h c).drive ∧
    y.ramp = (getChan s h c).ramp) (fun _ _ _ => rfl) ⟨rfl, rfl⟩, Within.frame hs (.refl h s)⟩

/-- The hall once its SAG3 is noted: powered, with the flag, so that every output is decided by it. -/
theorem sagTaken_hall {h : Nat} (hu : (getHall s h).up = true) : (getHall (sagTaken h s) h).up = true ∧
    bit (getHall (sagTaken h s) h).stat 3 = true := by
  rw [getHall_sagTaken]
  exact ⟨(up_hallFlag ..).trans hu, (congrArg (bit · 3) (stat_hallFlag ..)).trans (bit_putBit _ (by decide) true)⟩

theorem raised_sagTaken {h : Nat} (h3 : bit (getHall s h).stat 3 = false) : hallRaised h 3 (sagTaken h s) := by
  refine hallRaised_congr (sagTaken_chans h s) ?_
  have raised := raised_hallFlag (i := 3) (by decide) h3
  unfold hallRaised at raised ⊢
  rwa [getHall_updHall_self]

/-- A current output at SAG3 ramps from its present value to 0 mA. -/
theorem sag3_ramp {h : Nat} (hc : c < 4) (hu : (getHall s h).up = true) (hm : modeOf s h c = 15) :
    (getChan (resolveAll h (sagRamps h (sagTaken h s))) h c).ramp =
      some { from_ := driveNow s h c, dest := 0, start := s.time.now, len := 200000, rank := 2 } := by
  have mode : (getChan (sagTaken h s) h c).mode = 15 := (sagTaken_alike (p := ChanState.mode) (fun _ => rfl) h s h c).trans hm
  have value : driveNow (sagTaken h s) h c = driveNow s h c :=
    driveNow_congr rfl (sagTaken_alike (p := ChanState.ramp) (fun _ => rfl) h s h c)
      (sagTaken_alike (p := ChanState.drive) (fun _ => rfl) h s h c)
  obtain ⟨out, ramp⟩ := sagRamps_ramp (h := h) hc mode
  obtain ⟨up, sag⟩ := sagTaken_hall hu
  have hall := halls_of_changes (sagRamps_chans h (sagTaken h s)) h
  have rank : outRank (sagRamps h (sagTaken h s)) h c = 2 :=
    outRank_sag (by rw [hall]; exact up) (by rw [out]; decide) (.inl (by rw [hall]; exact sag))
  rw [resolveAll_ramping hc (by rw [out]; decide) ramp rank.symm, ramp, value]
  rfl

/-- Without current outputs and ramps every output is off at SAG3. -/
theorem sag3_off {h : Nat} (hc : c < 4) (hu : (getHall s h).up = true)
    (hq : ∀ c < 4, modeOf s h c ≠ 15 ∧ (getChan s h c).ramp = none) (hm : isOutMode (modeOf s h c) = true) :
    (getChan (resolveAll h (sagRamps h (sagTaken h s))) h c).drive = 0 := by
  have same (d : Nat) (hd : d < 4) : (getChan (sagRamps h (sagTaken h s)) h d).mode = modeOf s h d ∧
      (getChan (sagRamps h (sagTaken h s)) h d).ramp = none := by
    have mode : (getChan (sagTaken h s) h d).mode = modeOf s h d := sagTaken_alike (p := ChanState.mode) (fun _ => rfl) h s h d
    have ramp := sagTaken_alike (p := ChanState.ramp) (fun _ => rfl) h s h d
    rw [sagRamps_other hd (by rw [mode]; exact (hq d hd).1)]
    exact ⟨mode, ramp.trans (hq d hd).2⟩
  obtain ⟨u, parts, ⟨noRamp, -⟩, before, after⟩ := resolveAll_at (h := h) hc (sagRamps h (sagTaken h s))
  obtain ⟨mode, ramp⟩ := same c hc
  have hall := (halls_of_changes parts h).trans (halls_of_changes (sagRamps_chans h (sagTaken h s)) h)
  obtain ⟨up, sag⟩ := sagTaken_hall hu
  have out : isOutMode (getChan u h c).mode = true := by rw [before, mode]; exact hm
  have rank : outRank u h c = 2 := outRank_sag (by rw [hall]; exact up) (ne_zero_of_isOutMode out) (.inl (by rw [hall]; exact sag))
  rw [after]
  exact drive_resolve_off out (by rw [before]; exact ramp) (by rw [rank]; decide) (by rw [rank]; decide)
    fun _ => .inl (sagRamping_none fun d hd => noRamp h d (same d hd).2)

theorem Within.sagTaken {h : Nat} (s : State) : Within h s (sagTaken h s) :=
  .forChans (fun _ hc u => (Within.refl h u).updChan hc) (.updHall (.hallFlag (.refl h s)))

theorem Within.sagRamps {h : Nat} {s t : State} (a : Within h s t) : Within h s (sagRamps h t) :=
  a.forChans fun c hc u => .ite ((OneChan.refl h c u).startRamp.within hc) (.refl h u)

theorem sag3_first (hs : Inv s) (hu : (getHall s h).up = true) (h3 : bit (getHall s h).stat 3 = false) :
    ∃ t, exec (.sag3 h) s = .next t ∧ bit (getHall t h).stat 3 = true ∧ hallRaised h 3 t ∧
      (∀ c < 4, modeOf s h c = 15 → (getChan t h c).ramp =
        some { from_ := driveNow s h c, dest := 0, start := s.time.now, len := 200000, rank := 2 }) ∧
      ((∀ c < 4, modeOf s h c ≠ 15 ∧ (getChan s h c).ramp = none) →
        ∀ c < 4, isOutMode (modeOf s h c) = true → (getChan t h c).drive = 0) ∧ hallOnly h s t := by
  have moved : changesOnly [.chans] (sagTaken h s) (resolveAll h (sagRamps h (sagTaken h s))) :=
    resolveAll_changes rfl (sagRamps_chans h _)
  refine ⟨_, exec_sag3_first hu h3, ?_, hallRaised_report h.isLt (hallRaised_congr moved (raised_sagTaken h3)), fun c hc hm => ?_,
    fun hq c hc hm => ?_, Within.frame hs (.resolveAll (.sagRamps (.sagTaken s)))⟩
  · rw [stat_report, halls_of_changes moved]
    exact (sagTaken_hall hu).2
  · exact (getChan_report (p := ChanState.ramp) (fun _ _ _ => rfl) h c _).trans (sag3_ramp hc hu hm)
  · exact (getChan_report (p := ChanState.drive) (fun _ _ _ => rfl) h c _).trans (sag3_off hc hu hq hm)

end

/-! Outputs leaving a cause by their policy (R56, R58). -/

section
variable {h c : Nat} {l : Latch} {s t u : State}

/-- A hall about to let its outputs leave a cause: the first switch-on is due, and nothing waits for the release. -/
def leaveStart (h : Nat) (s : State) : State :=
  forChans (fun c => updChan h c (fun x => { x with restoreDue := false })) (updHall h (fun x => { x with nextOn := s.time.now + 200000 }) s)

/-- The policy of every output followed. -/
def policiesFollowed (l : Latch) (h : Nat) (s : State) : State := forChans (leaveSafe l h) (leaveStart h s)

theorem leaveAll_eq (l : Latch) (h : Nat) (s : State) : leaveAll l h s = resolveAll h (policiesFollowed l h s) := rfl

theorem policiesFollowed_chans (l : Latch) (h : Nat) (s : State) : changesOnly [.chans] (leaveStart h s) (policiesFollowed l h s) :=
  forChans_into (fun _ _ => leaveSafe_changes rfl (.refl _ _)) (.refl _ _)

theorem leaveStart_alike {α : Type} {p : ChanState → α} (hp : ∀ x, p { x with restoreDue := false } = p x) (h : Nat) (s : State) :
    chansAlike p s (leaveStart h s) := chansAlike.forChans (fun _ u => .updChan hp (.refl _ u)) (.refl _ _)

theorem leaveStart_chans (h : Nat) (s : State) : changesOnly [.chans]
    (updHall h (fun x => { x with nextOn := s.time.now + 200000 }) s) (leaveStart h s) :=
  forChans_into (fun _ _ => updChan_changes rfl (.refl _ _)) (.refl _ _)

theorem leaveStart_time (h : Nat) (s : State) : (leaveStart h s).time = s.time := by
  have parts : changesOnly [.halls, .chans] s (leaveStart h s) :=
    (updHall_changes rfl (.refl _ _)).trans ((leaveStart_chans h s).mono rfl)
  exact parts .time (by decide)

theorem getHall_leaveStart (h : Nat) (s : State) :
    getHall (leaveStart h s) h = { getHall s h with nextOn := s.time.now + 200000 } := by
  rw [halls_of_changes (leaveStart_chans h s), getHall_updHall_self]

/-- What the policy of channel `c` meets, and what of it stands when all outputs have left. -/
theorem leaveAll_at (hc : c < 4) (l : Latch) (s : State) : ∃ u, changesOnly [.chans] (leaveStart h s) u ∧
    chansAlike ChanState.mode (leaveStart h s) u ∧ getChan u h c = getChan (leaveStart h s) h c ∧
    getChan (policiesFollowed l h s) h c = getChan (leaveSafe l h c u) h c := by
  obtain ⟨u, parts, mode, before, after⟩ := forChans_oneChan (h := h) (Q := chansAlike ChanState.mode) (f := leaveSafe l h)
    (s := leaveStart h s) (.refl _) (fun _ _ _ => .trans) hc
    (fun d _ _ u => chansAlike.view (p := leaveCore) ChanState.mode (fun _ => rfl) (leaveSafe_core (.refl _ u)))
    fun d _ u => (OneChan.refl h d u).leaveSafe
  exact ⟨u, parts, mode, before, after⟩

/-- The policy LATCH_OFF (R56). -/
theorem leaveSafe_latch (hm : isOutMode (getChan s h c).mode = true) (hl : leadOf s h c = c) (hp : bit (chSafeW s h c) 3 = true) :
    (getChan (leaveSafe .off h c s) h c).latch = .off ∧ bit (getChan (leaveSafe .off h c s) h c).stat 7 = true := by
  let t := updChan h c (fun y => { y with latch := latchAs .off y.latch }) s
  have e : leaveSafe .off h c s = resolve h c (chFlag h c 7 true t) := by
    unfold leaveSafe
    dsimp only
    rw [if_neg (by simp [hm, hl]), if_pos (by rw [hp]; rfl)]
  have own : getChan t h c = { getChan s h c with latch := latchAs .off (getChan s h c).latch } := getChan_updChan_self ..
  rw [e]
  constructor
  · refine (resolve_view (q := ChanState.latch) (fun _ => rfl) (.refl _ _) h c).trans ?_
    rw [chFlag_alike (p := ChanState.latch) (fun _ _ _ => rfl) (.refl _ _) h c, own]
    rfl
  · exact (resolve_bit (by decide) (by decide) _).trans (bit_chFlag (by decide))

/-- Every output whose policy is LATCH_OFF latches. -/
theorem leaveAll_latch (hc : c < 4) (hm : isOutMode (getChan s h c).mode = true) (hl : leadOf s h c = c)
    (hp : bit (chSafeW s h c) 3 = true) :
    (getChan (leaveAll .off h s) h c).latch = .off ∧ bit (getChan (leaveAll .off h s) h c).stat 7 = true := by
  obtain ⟨u, parts, modes, before, after⟩ := leaveAll_at (h := h) hc .off s
  have start := leaveStart_alike (p := ChanState.mode) (fun _ => rfl) h s
  have mode : (getChan u h c).mode = (getChan s h c).mode := (modes h c).trans (start h c)
  have cfg : (getHall u h).cfg = (getHall s h).cfg := by rw [halls_of_changes parts, getHall_leaveStart]
  obtain ⟨latch, flag⟩ := leaveSafe_latch (s := u) (h := h) (c := c) (by rw [mode]; exact hm) ((leadOf_congr cfg (start.trans modes)).trans hl)
    (by unfold chSafeW hcfg at hp ⊢; rw [cfg]; exact hp)
  rw [← after] at latch flag
  rw [leaveAll_eq]
  constructor
  · exact (chansAlike.forChans (p := ChanState.latch) (fun d u => resolve_view (fun _ => rfl) (.refl _ u)) (.refl _ _) h c).trans latch
  · exact (chansAlike.forChans (fun d u => flagKept.resolve (j := 7) (by decide) (by decide) (.refl 7 u)) (.refl _ _) h c).trans flag

/-- The policy RESTORE of a current output outside a hold: a ramp to its command where the command decides, else what decides. -/
theorem leaveSafe_restore (hm : (getChan s h c).mode = 15) (hp : l = .none ∨ bit (chSafeW s h c) 3 = false)
    (hh : (getHall s h).hold = false) : leaveSafe l h c s =
      if outRank s h c = 5 then startRamp h c (getChan s h c).cmd 5 s else resolve h c s := by
  have lead : leadOf s h c = c := leadOf_self (by rw [hm]; decide)
  have policy : ¬ (l != .none && bit (chSafeW s h c) 3) = true := by
    rcases hp with rfl | hp
    · simp
    · simp [hp]
  unfold leaveSafe
  dsimp only
  rw [if_neg (by rw [hm, lead]; simp [isOutMode]), if_neg policy, hh, if_neg Bool.false_ne_true, if_pos hm]

theorem startRamp_rankView (h c v r : Nat) (s : State) : chansAlike rankView s (startRamp h c v r s) :=
  chansAlike.view (p := outputRest) rankView (fun _ => rfl) (startRamp_rest (.refl _ s))

theorem outRank_same {s t : State} (hm : (getChan s h c).mode ≠ 14) (hh : getHall t h = getHall s h)
    (hc : rankView (getChan t h c) = rankView (getChan s h c)) : outRank t h c = outRank s h c :=
  outRank_own hm (by rw [hh]; exact ⟨rfl, rfl, rfl⟩) hc

/-- The rank of a current output does not change any more once the policies are followed. -/
theorem outRank_leaveAll (hm : (getChan (policiesFollowed l h s) h c).mode = 15) :
    outRank (leaveAll l h s) h c = outRank (policiesFollowed l h s) h c := by
  rw [leaveAll_eq]
  refine outRank_same (by rw [hm]; decide) (halls_of_changes (resolveAll_changes rfl (.refl _ _)) h) ?_
  exact chansAlike.forChans (p := rankView) (fun d v => resolve_view (fun _ => rfl) (.refl _ v)) (.refl _ _) h c

/-- A current output under RESTORE that its command decides ramps to it when the policies are followed, and keeps its rank. -/
theorem policiesFollowed_restore (hc : c < 4) (hm : (getChan s h c).mode = 15) (hp : l = .none ∨ bit (chSafeW s h c) 3 = false)
    (hh : (getHall s h).hold = false) : (getChan (policiesFollowed l h s) h c).mode = 15 ∧
      (outRank (policiesFollowed l h s) h c = 5 → (getChan (policiesFollowed l h s) h c).ramp =
        some { from_ := driveNow s h c, dest := (getChan s h c).cmd, start := s.time.now, len := 200000, rank := 5 }) := by
  obtain ⟨u, parts, -, before, after⟩ := leaveAll_at (h := h) hc l s
  have hall : getHall u h = { getHall s h with nextOn := s.time.now + 200000 } :=
    (halls_of_changes parts h).trans (getHall_leaveStart h s)
  have hallEnd : getHall (policiesFollowed l h s) h = getHall u h :=
    (halls_of_changes (policiesFollowed_chans l h s) h).trans (halls_of_changes parts h).symm
  have mode : (getChan u h c).mode = 15 := by
    rw [before]
    exact (leaveStart_alike (p := ChanState.mode) (fun _ => rfl) h s h c).trans hm
  have time : u.time = s.time := (parts .time (by decide)).trans (leaveStart_time h s)
  have policy := leaveSafe_restore (l := l) mode (by unfold chSafeW hcfg at hp ⊢; rw [hall]; exact hp) (by rw [hall]; exact hh)
  have view : rankView (getChan (policiesFollowed l h s) h c) = rankView (getChan u h c) := by
    rw [after, policy]
    exact chansAlike.ite (startRamp_rankView h c _ 5 u) (resolve_view (fun _ => rfl) (.refl _ u)) h c
  have modeEnd : (getChan (policiesFollowed l h s) h c).mode = (getChan u h c).mode := by
    have parts := view
    simp only [rankView, Prod.mk.injEq] at parts
    exact parts.1
  refine ⟨modeEnd.trans mode, fun h5 => ?_⟩
  have rank : outRank u h c = 5 := (outRank_same (by rw [mode]; decide) hallEnd view).symm.trans h5
  rw [after, policy, if_pos rank, ramp_startRamp, time, before]
  have value : driveNow u h c = driveNow s h c := driveNow_congr (congrArg TimeSt.now time)
    (by rw [before]; exact leaveStart_alike (p := ChanState.ramp) (fun _ => rfl) h s h c)
    (by rw [before]; exact leaveStart_alike (p := ChanState.drive) (fun _ => rfl) h s h c)
  rw [value, leaveStart_alike (p := ChanState.cmd) (fun _ => rfl) h s h c]

/-- A current output under RESTORE that its command decides in the end ramps to it. -/
theorem leaveAll_restore (hc : c < 4) (hm : (getChan s h c).mode = 15) (hp : l = .none ∨ bit (chSafeW s h c) 3 = false)
    (hh : (getHall s h).hold = false) : (getChan (leaveAll l h s) h c).mode = 15 ∧
      (outRank (leaveAll l h s) h c = 5 → (getChan (leaveAll l h s) h c).ramp =
        some { from_ := driveNow s h c, dest := (getChan s h c).cmd, start := s.time.now, len := 200000, rank := 5 }) := by
  obtain ⟨mode, ramp⟩ := policiesFollowed_restore hc hm hp hh
  have keep : (getChan (leaveAll l h s) h c).mode = (getChan (policiesFollowed l h s) h c).mode := by
    rw [leaveAll_eq]
    exact chansAlike.forChans (p := ChanState.mode) (fun d v => resolve_view (fun _ => rfl) (.refl _ v)) (.refl _ _) h c
  refine ⟨keep.trans mode, fun h5 => ?_⟩
  have rank := (outRank_leaveAll mode).symm.trans h5
  rw [leaveAll_eq, resolveAll_ramping hc (by rw [mode]; decide) (ramp rank) rank.symm]
  exact ramp rank

end

/-! RECOVERY_END (R36, R64, R421). -/

section
variable {h : Hall} {s : State}

/-- SAG3 and RECOVERING cleared, the under-voltage reset forgotten. -/
def recovered (h : Nat) (s : State) : State :=
  updHall h (fun y => { y with uvrSag := false, uvrEvt := false }) (hallFlag h 4 false (hallFlag h 3 false s))

/-- The latch of a recovery: none after an under-voltage reset without UVR_EVT. -/
def recoveryLatch (x : HallState) : Latch := if x.uvrSag && !x.uvrEvt then .none else .off

theorem getChan_recovered (h : Nat) (s : State) (k d : Nat) : getChan (recovered h s) k d = getChan s k d := by
  unfold recovered hallFlag
  simp only [getChan_updHall]

theorem getHall_recovered (h : Nat) (s : State) : getHall (recovered h s) h =
    { getHall s h with stat := putBit (putBit (getHall s h).stat 3 false) 4 false, uvrSag := false, uvrEvt := false } := by
  unfold recovered hallFlag
  rw [getHall_updHall_self, getHall_updHall_self, getHall_updHall_self]
  rfl

theorem exec_recoveryEnd_other (hu : (getHall s h).up = true) (hb : ¬ (bit (getHall s h).stat 3 = true ∧ bit (getHall s h).stat 4 = true)) :
    exec (.recoveryEnd h) s = done (report h s) := by
  show execRecoveryEnd h s = _
  unfold execRecoveryEnd
  rw [hallDo_up hu, if_neg (by simpa using hb)]

theorem exec_recoveryEnd (hu : (getHall s h).up = true) (h3 : bit (getHall s h).stat 3 = true) (h4 : bit (getHall s h).stat 4 = true) :
    exec (.recoveryEnd h) s = done (report h (if unreleased (recovered h s) h then
      updHall h (fun y => { y with leaveDue := some (recoveryLatch (getHall s h)) }) (recovered h s)
    else leaveAll (recoveryLatch (getHall s h)) h (recovered h s))) := by
  show execRecoveryEnd h s = _
  unfold execRecoveryEnd
  rw [hallDo_up hu, if_pos (by rw [h3, h4]; rfl)]
  rfl

theorem unreleased_recovered (h : Nat) (s : State) : unreleased (recovered h s) h = (!(getHall s h).active || (getHall s h).hold) := by
  unfold unreleased
  rw [getHall_recovered]

/-- Recovery of a hall whose outputs wait for their release. -/
theorem recoveryEnd_unreleased (hs : Inv s) (hu : (getHall s h).up = true) (h3 : bit (getHall s h).stat 3 = true)
    (h4 : bit (getHall s h).stat 4 = true) (hr : (getHall s h).active = false ∨ (getHall s h).hold = true) :
    ∃ t, exec (.recoveryEnd h) s = .next t ∧ (getHall t h).stat = putBit (putBit (getHall s h).stat 3 false) 4 false ∧
      (getHall t h).uvrSag = false ∧ (getHall t h).leaveDue = some (recoveryLatch (getHall s h)) ∧
      (∀ c < 4, (getChan t h c).drive = (getChan s h c).drive ∧ (getChan t h c).latch = (getChan s h c).latch) ∧ hallOnly h s t := by
  have e := exec_recoveryEnd hu h3 h4
  rw [if_pos (by rw [unreleased_recovered]; simpa using hr)] at e
  have own := getHall_updHall_self h (fun y => { y with leaveDue := some (recoveryLatch (getHall s h)) }) (recovered h s)
  rw [getHall_recovered] at own
  refine ⟨_, e, ?_, ?_, ?_, fun c _ => ?_, Within.frame hs (.updHall (.updHall (.hallFlag (.hallFlag (.refl _ s)))))⟩
  · rw [stat_report, own]
  · exact (getHall_report (p := HallState.uvrSag) (fun _ _ _ _ => rfl) h h _).trans (by rw [own])
  · exact (getHall_report (p := HallState.leaveDue) (fun _ _ _ _ => rfl) h h _).trans (by rw [own])
  · refine of_report (P := fun y => y.drive = (getChan s h c).drive ∧ y.latch = (getChan s h c).latch) (fun _ _ _ => rfl) ?_
    rw [getChan_updHall, getChan_recovered]
    exact ⟨rfl, rfl⟩

/-- Recovery of a hall whose outputs are released: each leaves by its policy. -/
theorem recoveryEnd_released (hs : Inv s) (hu : (getHall s h).up = true) (h3 : bit (getHall s h).stat 3 = true)
    (h4 : bit (getHall s h).stat 4 = true) (ha : (getHall s h).active = true) (hh : (getHall s h).hold = false) :
    ∃ t, exec (.recoveryEnd h) s = .next t ∧ (getHall t h).stat = putBit (putBit (getHall s h).stat 3 false) 4 false ∧
      (getHall t h).uvrSag = false ∧
      (∀ c < 4, isOutMode (modeOf s h c) = true → leadOf s h c = c → bit (chSafeW s h c) 3 = true →
        recoveryLatch (getHall s h) = .off → (getChan t h c).latch = .off ∧ bit (getChan t h c).stat 7 = true) ∧
      (∀ c < 4, modeOf s h c = 15 → (recoveryLatch (getHall s h) = .none ∨ bit (chSafeW s h c) 3 = false) → outRank t h c = 5 →
        (getChan t h c).ramp = some { from_ := driveNow s h c, dest := (getChan s h c).cmd, start := s.time.now, len := 200000, rank := 5 }) ∧
      hallOnly h s t := by
  have e := exec_recoveryEnd hu h3 h4
  rw [if_neg (by rw [unreleased_recovered, ha, hh]; decide)] at e
  let u := recovered h s
  let v := leaveAll (recoveryLatch (getHall s h)) h u
  have own : getHall v h = { getHall u h with nextOn := u.time.now + 200000 } := by rw [getHall_leaveAll, getHall_updHall_self]
  rw [getHall_recovered] at own
  have cfg : (getHall u h).cfg = (getHall s h).cfg := by rw [getHall_recovered]
  have safe (c : Nat) : chSafeW u h c = chSafeW s h c := by unfold chSafeW hcfg; rw [cfg]
  refine ⟨_, e, ?_, ?_, fun c hc hm hl hp hk => ?_, fun c hc hm hp h5 => ?_,
    Within.frame hs (.leaveAll (.updHall (.hallFlag (.hallFlag (.refl _ s)))))⟩
  · rw [stat_report, own]
  · exact (getHall_report (p := HallState.uvrSag) (fun _ _ _ _ => rfl) h h _).trans (by rw [own])
  · rw [hk]
    exact of_report (P := fun y => y.latch = .off ∧ bit y.stat 7 = true) (fun _ _ _ => rfl)
      (leaveAll_latch hc hm ((leadOf_congr cfg (.refl _ _)).trans hl) (by rw [safe]; exact hp))
  · obtain ⟨mode, ramp⟩ := leaveAll_restore (l := recoveryLatch (getHall s h)) (s := u) hc hm (by rw [safe]; exact hp)
      (by rw [getHall_recovered]; exact hh)
    have rank : outRank (settle (report h v)) h c = outRank v h c :=
      outRank_own (by rw [mode]; decide) ⟨getHall_report (p := HallState.up) (fun _ _ _ _ => rfl) h h v, stat_report h v,
        getHall_report (p := HallState.ecc) (fun _ _ _ _ => rfl) h h v⟩ (getChan_report (p := rankView) (fun _ _ _ => rfl) h c v)
    exact (getChan_report (p := ChanState.ramp) (fun _ _ _ => rfl) h c _).trans (ramp (rank.symm.trans h5))

/-! RESTORE_SWITCH_ON (R58). -/

theorem exec_restoreSwitchOn_none (hu : (getHall s h).up = true) (hq : ((List.range 4).find? fun c => (getChan s h c).queued) = none) :
    exec (.restoreSwitchOn h) s = done (report h s) := by
  show execRestoreSwitchOn h s = _
  unfold execRestoreSwitchOn
  rw [hallDo_up hu, hq]

/-- The waiting output `c` at its time of switching on, its gang not yet moved. -/
def switchedOn (h c : Nat) (s : State) : State :=
  let u := moveTo (getHall s h).nextOn s
  updChan h c (fun x => { x with queued := false }) (updHall h (fun x => { x with nextOn := u.time.now + 1000000 }) u)

theorem switchedOn_changes (h c : Nat) (s : State) : changesOnly [.time, .halls, .chans] s (switchedOn h c s) := by
  unfold switchedOn
  exact updChan_changes rfl (updHall_changes rfl (moveTo_changes rfl (.refl _ _)))

theorem nextOn_switchedOn (h c : Nat) (s : State) :
    (getHall (switchedOn h c s) h).nextOn = (switchedOn h c s).time.now + 1000000 := by
  unfold switchedOn
  rw [getHall_updChan, getHall_updHall_self]
  rfl

theorem exec_restoreSwitchOn {c : Nat} (hu : (getHall s h).up = true)
    (hq : ((List.range 4).find? fun c => (getChan s h c).queued) = some c) : exec (.restoreSwitchOn h) s =
      done (report h ((gangMembers (switchedOn h c s) h c).foldl (fun v d => resolve h d v) (switchedOn h c s))) := by
  show execRestoreSwitchOn h s = _
  unfold execRestoreSwitchOn
  rw [hallDo_up hu, hq]
  rfl

theorem restoreSwitchOn_next {c : Nat} (hs : Inv s) (hu : (getHall s h).up = true)
    (hq : ((List.range 4).find? fun c => (getChan s h c).queued) = some c) :
    ∃ t, exec (.restoreSwitchOn h) s = .next t ∧ (getChan t h c).queued = false ∧
      t.time.now = max s.time.now (getHall s h).nextOn ∧ (getHall t h).nextOn = t.time.now + 1000000 ∧
      framed [.time, .regs, .halls, .chans, .per, .bb] s t ∧ regsOutside (hallRegs h) s t ∧ hallApart h s t ∧ onlyVstates s t := by
  have hc : c < 4 := List.mem_range.1 (List.mem_of_find?_eq_some hq)
  let u := switchedOn h c s
  let v := (gangMembers u h c).foldl (fun v d => resolve h d v) u
  have moved : changesOnly [.chans] u v := changesOnly.foldl (fun _ _ => resolve_changes rfl (.refl _ _)) _ u (.refl _ _)
  have on : changesOnly [.time, .halls, .chans] s u := switchedOn_changes h c s
  have apart : Apart h s u := ((apart_of_changes (moveTo_time _ s) (by decide)).trans (updHall_apart _ _)).trans (updChan_apart hc _ _)
  have now : u.time.now = max s.time.now (getHall s h).nextOn := now_moveTo ..
  have nowEnd : (settle (report h v)).time = u.time := by
    rw [time_settle]
    exact (report_changes (F := [.regs, .bb, .halls, .chans, .per]) rfl (.refl _ v) .time (by decide)).trans (moved .time (by decide))
  refine ⟨_, exec_restoreSwitchOn hu hq, ?_, (congrArg TimeSt.now nowEnd).trans now, ?_,
    report_frame hs rfl (by decide) ((on.mono rfl).trans (moved.mono rfl)) (.skip (on.trans (moved.mono rfl)) (by decide) (.refl _ _))
      (apart.trans (Quiet.foldl (fun w d hd => resolve_quiet (gangMembers_lt hc d hd) (.refl h w)) (.refl h u)).apart)⟩
  · refine of_report (P := fun y => y.queued = false) (fun _ _ _ => rfl) ?_
    refine (chansAlike.foldl (p := ChanState.queued) (fun w d => resolve_view (fun _ => rfl) (.refl _ w)) (.refl _ u) h c).trans ?_
    exact congrArg ChanState.queued (getChan_updChan_self h c _ _)
  · refine (getHall_report (p := HallState.nextOn) (fun _ _ _ _ => rfl) h h v).trans ?_
    rw [halls_of_changes moved, nowEnd, nextOn_switchedOn]

end

/-- Settles O35: the ramps of SAG3 by what each channel's operation leaves, the recovery by the policies followed. -/
theorem sag3AndItsRecovery : Obligations.Sag3AndItsRecovery := by
  intro h s hs hu
  refine ⟨sag3_again hs hu, sag3_first hs hu, ⟨fun hb => ?_, fun h3 h4 => ?_⟩, ?_⟩
  · refine ⟨_, exec_recoveryEnd_other hu hb, stat_report h s, fun c _ => ?_, Within.frame hs (.refl h s)⟩
    exact getChan_report (p := ChanState.drive) (fun _ _ _ => rfl) h c s
  · have bits (w : Word) : bit (putBit (putBit w 3 false) 4 false) 3 = false ∧ bit (putBit (putBit w 3 false) 4 false) 4 = false :=
      ⟨(bit_putBit_other _ (by decide) (by decide) _).trans (bit_putBit _ (by decide) _), bit_putBit _ (by decide) _⟩
    by_cases hr : (getHall s h).active = false ∨ (getHall s h).hold = true
    · obtain ⟨t, e, stat, sag, due, same, only⟩ := recoveryEnd_unreleased hs hu h3 h4 hr
      refine ⟨t, e, by rw [stat]; exact (bits _).1, by rw [stat]; exact (bits _).2, sag, fun _ => ⟨due, same⟩,
        fun c _ ha hh => absurd hr (by rw [ha, hh]; decide), fun c _ _ _ ha hh => absurd hr (by rw [ha, hh]; decide), only⟩
    · obtain ⟨ha, hh⟩ : (getHall s h).active = true ∧ (getHall s h).hold = false := by simpa using hr
      obtain ⟨t, e, stat, sag, latch, restore, only⟩ := recoveryEnd_released hs hu h3 h4 ha hh
      refine ⟨t, e, by rw [stat]; exact (bits _).1, by rw [stat]; exact (bits _).2, sag, fun n => absurd n hr,
        fun c hc _ _ hm hl hp hk => latch c hc hm hl hp ?_, fun c hc hm hp _ _ h5 => restore c hc hm ?_ h5, only⟩
      · unfold recoveryLatch
        rcases hk with hk | hk <;> simp [hk]
      · refine hp.symm.imp_left fun ⟨sag, evt⟩ => ?_
        unfold recoveryLatch
        rw [sag, evt]
        rfl
  · cases hq : (List.range 4).find? fun c => (getChan s h c).queued with
    | none => exact ⟨_, exec_restoreSwitchOn_none hu hq, Within.frame hs (.refl h s)⟩
    | some c => exact restoreSwitchOn_next hs hu hq

end Sys2Proof.Machine

namespace Sys2Proof.Machine

/-! HALL_ACK (R51). -/

section
variable {h c d : Nat} {b : Bool} {present : Nat → Bool} {s t u : State}

/-- From `s` to `t` hall `h` moved with channel `c` standing, and no mode changed. -/
structure Spared (h c : Nat) (s t : State) : Prop where
  within : Within h s t
  mode : chansAlike ChanState.mode s t
  own : getChan t h c = getChan s h c

theorem Spared.refl (h c : Nat) (s : State) : Spared h c s s := ⟨.refl h s, .refl _ s, rfl⟩

theorem Spared.trans (a : Spared h c s t) (k : Spared h c t u) : Spared h c s u :=
  ⟨a.within.trans k.within, a.mode.trans k.mode, k.own.trans a.own⟩

/-- An operation of another channel. -/
theorem Spared.other (hd : d < 4) (e : d ≠ c) (a : OneChan h d s t) (m : chansAlike ChanState.mode s t) : Spared h c s t :=
  ⟨a.within hd, m, a.others h c (by omega)⟩

theorem Spared.foldl {l : List Nat} {f : State → Nat → State} (hf : ∀ u, ∀ d ∈ l, Spared h c u (f u d)) (s : State) :
    Spared h c s (l.foldl f s) := by
  induction l generalizing s with
  | nil => exact .refl h c s
  | cons d l ih =>
    exact (hf s d List.mem_cons_self).trans (ih (fun u e he => hf u e (List.mem_cons_of_mem _ he)) _)

theorem Spared.ite {p : Prop} [Decidable p] (a : Spared h c s t) (k : Spared h c s u) : Spared h c s (if p then t else u) := by
  split <;> assumption

theorem ne_of_mem_gangMembers (hm : modeOf s h c ≠ 14) (e : d ≠ c) : ∀ k ∈ gangMembers s h d, k ≠ c := by
  rintro k hk rfl
  unfold gangMembers at hk
  split at hk
  · have member := (List.mem_filter.1 hk).2
    simp [hm] at member
  · exact e (List.mem_singleton.1 hk).symm

theorem Spared.resolve (hd : d < 4) (e : d ≠ c) (s : State) : Spared h c s (resolve h d s) :=
  .other hd e (OneChan.refl h d s).resolve (resolve_view (fun _ => rfl) (.refl _ s))

theorem OneChan.ackFlags (a : OneChan h c s t) : OneChan h c s (ackFlags h c b t) :=
  .ite a (.ainFlag (.chFlag (.chFlag (.chFlag (.chFlag a.updChan)))))

/-- What an acknowledgement leaves of a channel but for its flags, its latch and its attempts. -/
theorem ackFlags_alike {α : Type} {p : ChanState → α}
    (hp : ∀ x r w e a f, p { x with rev := r, stat := w, evt := e, ain := a, ainEvt := f } = p x) (s : State) :
    chansAlike p s (ackFlags h c b s) := by
  have flagged {i : Nat} {f : Bool} {u : State} (k : chansAlike p s u) : chansAlike p s (chFlag h c i f u) :=
    chFlag_alike (fun x w e => hp x x.rev w e x.ain x.ainEvt) k
  have reversed : chansAlike p s (updChan h c (fun x => { x with rev := false }) s) :=
    .updChan (fun x => hp x false x.stat x.evt x.ain x.ainEvt) (.refl _ s)
  unfold ackFlags
  refine .ite (.refl _ s) (.updChan (fun x => hp x x.rev x.stat x.evt _ _) ?_)
  exact flagged (flagged (flagged (flagged reversed)))

/-- The lead of a gang, or a channel alone, unlatched. -/
def unlatched (h c : Nat) (s : State) : State :=
  chFlag h c 19 false (chFlag h c 7 false (chFlag h c 9 false (updChan h c (fun y => { y with
    latch := .none, gangSafe := false, extSafe := false, cut := false, attempts := 0, ext := .none }) s)))

theorem unlatched_oneChan (h c : Nat) (s : State) : OneChan h c s (unlatched h c s) :=
  .chFlag (.chFlag (.chFlag (.updChan (.refl h c s))))

theorem unlatched_mode (h c : Nat) (s : State) : chansAlike ChanState.mode s (unlatched h c s) :=
  chFlag_alike (fun _ _ _ => rfl) (chFlag_alike (fun _ _ _ => rfl) (chFlag_alike (fun _ _ _ => rfl)
    (.updChan (fun _ => rfl) (.refl _ s))))

/-- The members of the gang of `c` acknowledged, their outputs not yet moved. -/
def acknowledged (h c : Nat) (present : Nat → Bool) (s : State) : State :=
  let ms := gangMembers (unlatched h c s) h c
  ms.foldl (fun u d => ackFlags h d (ms.length ≠ 1 && present d) u) (unlatched h c s)

/-- Their outputs moved. -/
def acknowledgedAll (h c : Nat) (present : Nat → Bool) (s : State) : State :=
  (gangMembers (unlatched h c s) h c).foldl (fun u d => resolve h d u) (acknowledged h c present s)

theorem ackChannel_eq (h c : Nat) (present : Nat → Bool) (s : State) : ackChannel h c present s =
    if leadOf s h c ≠ c || !bit (getChan s h c).stat 7 then s
    else
      let ms := gangMembers (unlatched h c s) h c
      let t := acknowledged h c present s
      if ms.length ≠ 1 && ms.any fun d => present d && bits (getChan t h d).stat 6 4 ≠ 0
        then gangFail h c (acknowledgedAll h c present s) else acknowledgedAll h c present s := rfl

theorem Within.foldl {l : List Nat} {f : State → Nat → State} (hf : ∀ u, ∀ d ∈ l, Within h u (f u d)) (s : State) :
    Within h s (l.foldl f s) := by
  induction l generalizing s with
  | nil => exact .refl h s
  | cons d l ih =>
    exact (hf s d List.mem_cons_self).trans (ih (fun u e he => hf u e (List.mem_cons_of_mem _ he)) _)

theorem Within.acknowledgedAll (hc : c < 4) (s : State) : Within h s (acknowledgedAll h c present s) := by
  have start : Within h s (unlatched h c s) := (unlatched_oneChan h c s).within hc
  unfold Machine.acknowledgedAll acknowledged
  exact (start.trans (Within.foldl (fun u d hd => ((OneChan.refl h d u).ackFlags).within (gangMembers_lt hc d hd)) _)).trans
    (Within.foldl (fun u d hd => (Within.refl h u).resolve (gangMembers_lt hc d hd)) _)

theorem Within.ackChannel (hc : c < 4) (a : Within h s t) : Within h s (ackChannel h c present t) := by
  have moved : Within h t (Machine.acknowledgedAll h c present t) := .acknowledgedAll hc t
  rw [ackChannel_eq]
  exact .ite a (a.trans (.ite (moved.gangFail hc) moved))

theorem Spared.gangFail (hm : modeOf s h c ≠ 14) (hd : d < 4) (e : d ≠ c) : Spared h c s (gangFail h d s) := by
  have lead : leadOf s h d ≠ c := by
    unfold leadOf
    cases k : gangMembers s h d with
    | nil => exact e
    | cons j l => exact ne_of_mem_gangMembers hm e j (by rw [k]; exact List.mem_cons_self)
  have marked : Spared h c s (gangMarked h d s) := .other (leadOf_lt hd s) lead (.chFlag (.updChan (.refl h _ s)))
    (chFlag_alike (fun _ _ _ => rfl) (.updChan (fun _ => rfl) (.refl _ s)))
  have mode : modeOf (gangMarked h d s) h c ≠ 14 := fun k => hm ((marked.mode h c).symm.trans k)
  rw [gangFail_eq]
  exact marked.trans (Spared.foldl (fun u k hk => .resolve (gangMembers_lt hd k hk) (ne_of_mem_gangMembers mode e k hk) u) _)

theorem Spared.acknowledgedAll (hm : modeOf s h c ≠ 14) (hd : d < 4) (e : d ≠ c) :
    Spared h c s (acknowledgedAll h d present s) := by
  have start : Spared h c s (unlatched h d s) := .other hd e (unlatched_oneChan h d s) (unlatched_mode h d s)
  have mode : modeOf (unlatched h d s) h c ≠ 14 := fun n => hm ((start.mode h c).symm.trans n)
  have others := ne_of_mem_gangMembers mode e
  unfold Machine.acknowledgedAll acknowledged
  refine (start.trans (Spared.foldl (fun u k hk => ?_) _)).trans (Spared.foldl (fun u k hk => ?_) _)
  · exact .other (gangMembers_lt hd k hk) (others k hk) (OneChan.refl h k u).ackFlags (ackFlags_alike (fun _ _ _ _ _ _ => rfl) u)
  · exact .resolve (gangMembers_lt hd k hk) (others k hk) u

/-- A channel of no gang does not follow another one's acknowledgement. -/
theorem Spared.ackChannel (hm : modeOf s h c ≠ 14) (hd : d < 4) (e : d ≠ c) : Spared h c s (ackChannel h d present s) := by
  have moved : Spared h c s (Machine.acknowledgedAll h d present s) := .acknowledgedAll hm hd e
  have mode : modeOf (Machine.acknowledgedAll h d present s) h c ≠ 14 := fun n => hm ((moved.mode h c).symm.trans n)
  rw [ackChannel_eq]
  exact .ite (.refl h c s) (.ite (moved.trans (.gangFail mode hd e)) moved)

/-- A latched channel of no gang, acknowledged: its latch, its switch-off and its attempts end (R51). -/
theorem ackChannel_latched (hm : modeOf s h c ≠ 14) (hl : bit (getChan s h c).stat 7 = true) :
    ackChannel h c present s = resolve h c (ackFlags h c false (unlatched h c s)) := by
  have own : gangMembers (unlatched h c s) h c = [c] := gangMembers_self fun k => hm ((unlatched_mode h c s h c).symm.trans k)
  rw [ackChannel_eq, leadOf_self hm, hl]
  simp [acknowledgedAll, acknowledged, own]

theorem ackChannel_unlatched (hl : bit (getChan s h c).stat 7 = false) : ackChannel h c present s = s := by
  rw [ackChannel_eq, hl]
  simp

/-- A channel with no latch, no switch-off and no attempts left. -/
def acked (y : ChanState) : Prop :=
  y.latch = .none ∧ y.cut = false ∧ y.attempts = 0 ∧ bit y.stat 7 = false ∧ bit y.stat 9 = false

theorem acked_unlatched (h c : Nat) (s : State) : acked (getChan (unlatched h c s) h c) := by
  let t := updChan h c (fun y => { y with
    latch := .none, gangSafe := false, extSafe := false, cut := false, attempts := 0, ext := .none }) s
  have own : getChan t h c = { getChan s h c with
    latch := .none, gangSafe := false, extSafe := false, cut := false, attempts := 0, ext := .none } := getChan_updChan_self ..
  have kept {α : Type} {p : ChanState → α} (hp : ∀ x w e, p { x with stat := w, evt := e } = p x) :
      chansAlike p t (unlatched h c s) := chFlag_alike hp (chFlag_alike hp (chFlag_alike hp (.refl _ t)))
  have off : flagKept 9 (chFlag h c 9 false t) (unlatched h c s) :=
    .chFlag (by decide) (by decide) (.chFlag (by decide) (by decide) (.refl 9 _))
  have latched : flagKept 7 (chFlag h c 7 false (chFlag h c 9 false t)) (unlatched h c s) :=
    .chFlag (by decide) (by decide) (.refl 7 _)
  refine ⟨(kept (p := ChanState.latch) (fun _ _ _ => rfl) h c).trans (by rw [own]),
    (kept (p := ChanState.cut) (fun _ _ _ => rfl) h c).trans (by rw [own]),
    (kept (p := ChanState.attempts) (fun _ _ _ => rfl) h c).trans (by rw [own]), ?_, ?_⟩
  · exact (latched h c).trans (bit_chFlag (by decide))
  · exact (off h c).trans (bit_chFlag (by decide))

theorem flagKept.ackFlags {j : Nat} (hj : j ≠ 4 ∧ j ≠ 5 ∧ j ≠ 6 ∧ j ≠ 11) (s : State) : flagKept j s (ackFlags h c b s) := by
  obtain ⟨h4, h5, h6, h11⟩ := hj
  refine .ite (.refl j s) (.updChan (fun _ => rfl) (.chFlag (by decide) h11 (.chFlag (by decide) h6 (.chFlag (by decide) h5
    (.chFlag (by decide) h4 (.updChan (fun _ => rfl) (.refl j s)))))))

theorem acked_ackChannel (hm : modeOf s h c ≠ 14) (hl : bit (getChan s h c).stat 7 = true) :
    acked (getChan (ackChannel h c present s) h c) := by
  let t := unlatched h c s
  obtain ⟨latch, cut, attempts, hl7, hl9⟩ := acked_unlatched h c s
  have kept {α : Type} {p : ChanState → α} (hp : ∀ x r w e a f, p { x with rev := r, stat := w, evt := e, ain := a, ainEvt := f } = p x)
      (hq : ∀ x, p x = p (outputCore x)) : chansAlike p t (resolve h c (ackFlags h c false t)) :=
    resolve_view hq (ackFlags_alike hp t)
  have flags {j : Nat} (hj : j ≠ 4 ∧ j ≠ 5 ∧ j ≠ 6 ∧ j ≠ 11) (h8 : j ≠ 8) :
      flagKept j t (resolve h c (ackFlags h c false t)) := .resolve h8 hj.2.1 (.ackFlags hj t)
  rw [ackChannel_latched hm hl]
  exact ⟨(kept (p := ChanState.latch) (fun _ _ _ _ _ _ => rfl) (fun _ => rfl) h c).trans latch,
    (kept (p := ChanState.cut) (fun _ _ _ _ _ _ => rfl) (fun _ => rfl) h c).trans cut,
    (kept (p := ChanState.attempts) (fun _ _ _ _ _ _ => rfl) (fun _ => rfl) h c).trans attempts,
    (flags (by decide) (by decide) h c).trans hl7, (flags (by decide) (by decide) h c).trans hl9⟩

theorem ackChannel_mode (hm : modeOf s h c ≠ 14) (present : Nat → Bool) : modeOf (ackChannel h c present s) h c = modeOf s h c := by
  by_cases hl : bit (getChan s h c).stat 7 = true
  · rw [ackChannel_latched hm hl]
    exact (resolve_view (q := ChanState.mode) (fun _ => rfl) (ackFlags_alike (fun _ _ _ _ _ _ => rfl) _) h c).trans
      (unlatched_mode h c s h c)
  · rw [ackChannel_unlatched (Bool.eq_false_iff.2 hl)]

/-- The channels of the hall whose bits are written, acknowledged. -/
def ackChans (h acks : Nat) (present : Nat → Bool) (s : State) : State :=
  forChans (fun d t => if acks.testBit d then ackChannel h d present t else t) s

theorem Within.ackChans (acks : Nat) (s : State) : Within h s (ackChans h acks present s) :=
  .forChans (fun _ hd u => .ite (.ackChannel hd (.refl h u)) (.refl h u)) (.refl h s)

/-- What comes of a channel of no gang. -/
theorem getChan_ackChans {acks : Nat} (hc : c < 4) (hm : modeOf s h c ≠ 14) :
    if acks.testBit c && bit (getChan s h c).stat 7 then acked (getChan (ackChans h acks present s) h c)
    else getChan (ackChans h acks present s) h c = getChan s h c := by
  let f (d : Nat) (t : State) : State := if acks.testBit d then ackChannel h d present t else t
  have mode {u v : State} (k : modeOf u h c ≠ 14 → Spared h c u v) (hu : modeOf u h c ≠ 14) : modeOf v h c ≠ 14 :=
    fun n => hu (((k hu).mode h c).symm.trans n)
  have other : ∀ d < 4, d ≠ c → ∀ u, modeOf u h c ≠ 14 → Spared h c u (f d u) := fun d hd e u hu =>
    .ite (.ackChannel hu hd e) (.refl h c u)
  obtain ⟨u, before, after⟩ := forChans_at (Q := fun u v => modeOf u h c ≠ 14 → Spared h c u v) (f := f) (s := s)
    (fun s _ => .refl h c s) (fun s t u p q hs => (p hs).trans (q (mode p hs))) hc other
  have same := (before hm).own
  have hu := mode before hm
  rw [← same]
  by_cases ha : acks.testBit c = true
  · have e : f c u = ackChannel h c present u := if_pos ha
    have end_ : getChan (ackChans h acks present s) h c = getChan (ackChannel h c present u) h c := by
      rw [e] at after
      exact (after (by rwa [ackChannel_mode hu])).own
    rw [end_, ha, Bool.true_and]
    split
    next hl => exact acked_ackChannel hu hl
    next hl => rw [ackChannel_unlatched (Bool.eq_false_iff.2 hl)]
  · have e : f c u = u := if_neg ha
    rw [e] at after
    rw [if_neg (by simp [ha])]
    exact (after hu).own

end

theorem homeBad_hall {h off : Nat} (hh : h < 8) (ho : off < 0x18 ∨ 0x20 ≤ off) (h1 : off < 0x100) (s : State) (w v : Word) :
    homeBad s (aHall h off) w v = none := by
  have f : (0x0400 + 0x100 * h + off - 0x0400) % 0x100 = off := by omega
  unfold homeBad aHall
  rw [if_pos (by omega)]
  dsimp only
  rw [f, if_neg (by omega), if_neg (by omega)]

section
variable {o : Origin} {h : Hall} {acks pres : BitVec 4} {s : State}

theorem exec_hallAck (hu : (getHall s h).up = true) (hl : logicUp s = true) :
    exec (.hallAck o h acks pres) s = done (report h (ackChans h acks.toNat (fun c => pres.toNat.testBit c) s)) := by
  have hh : h.val < 8 := h.isLt
  have hd : regDesc (aHall h 0x06) = some (woReg .c 0xF) := regDesc_aHall hh (by decide)
  have word : acks.setWidth 32 &&& 0xF = acks.setWidth 32 := by
    revert acks; decide
  have value : (acks.setWidth 32).toNat = acks.toNat := BitVec.toNat_setWidth_of_le (by decide)
  have act (u : State) : action (aHall h 0x06) (acks.setWidth 32) pres.toNat u =
      hallAck h (acks.setWidth 32).toNat (fun c => pres.toNat.testBit c) u := by
    have e : (0x0400 + 0x100 * h.val + 6 - 0x0400) / 0x100 = h := by omega
    have f : (0x0400 + 0x100 * h.val + 6 - 0x0400) % 0x100 = 6 := by omega
    unfold action aHall
    rw [if_pos (by omega)]
    dsimp only
    rw [f, if_pos rfl, e]
  show done (cmdWrite o (aHall h 0x06) allBits (acks.setWidth 32) (some pres.toNat) s) = _
  rw [cmdWrite_actC hd (by decide) hl (homeBad_hall hh (by decide) (by decide) s · _), forwardWrite_c rfl (by unfold aHall; omega)
    (by unfold aHall; omega), word, act, value]
  unfold hallAck
  rw [if_pos hu]
  rfl

theorem hallAck_next (hs : Inv s) (hu : (getHall s h).up = true) (hl : logicUp s = true) :
    ∃ t, exec (.hallAck o h acks pres) s = .next t ∧ hallOnly h s t ∧
      ∀ c < 4, modeOf s h c ≠ 14 →
        (if acks.getLsbD c && bit (getChan s h c).stat 7 then
          (getChan t h c).latch = .none ∧ (getChan t h c).cut = false ∧ (getChan t h c).attempts = 0 ∧
            bit (getChan t h c).stat 7 = false ∧ bit (getChan t h c).stat 9 = false
        else (getChan t h c).stat = (getChan s h c).stat ∧ (getChan t h c).latch = (getChan s h c).latch ∧
          (getChan t h c).drive = (getChan s h c).drive) := by
  refine ⟨_, exec_hallAck hu hl, Within.frame hs (.ackChans acks.toNat s), fun c hc hm => ?_⟩
  have key := getChan_ackChans (h := h) (s := s) (acks := acks.toNat) (present := fun c => pres.toNat.testBit c) hc hm
  have kept : (acks.getLsbD c) = acks.toNat.testBit c := rfl
  rw [kept]
  split at key
  next e =>
    rw [if_pos e]
    exact of_report (P := acked) (fun _ _ _ => rfl) key
  next e =>
    rw [if_neg e]
    refine of_report (P := fun y => y.stat = (getChan s h c).stat ∧ y.latch = (getChan s h c).latch ∧ y.drive = (getChan s h c).drive)
      (fun _ _ _ => rfl) ?_
    rw [key]
    exact ⟨rfl, rfl, rfl⟩

end

end Sys2Proof.Machine

namespace Sys2Proof.Machine

/-! Outputs in the safe state of their hall (R53 to R55). -/

section
variable {h c : Nat} {s t : State}

/-- What of a hall decides its outputs. -/
def decides (x : HallState) : Bool × Word × Bool × List (Nat × Word) := (x.up, x.stat, x.ecc, x.cfg)

theorem outRank_alike (hh : decides (getHall t h) = decides (getHall s h)) (hc : chansAlike rankView s t) :
    outRank t h c = outRank s h c := by
  simp only [decides, Prod.mk.injEq] at hh
  obtain ⟨up, stat, ecc, cfg⟩ := hh
  have lead : leadOf t h c = leadOf s h c := leadOf_congr cfg (hc.view (q := ChanState.mode) Prod.fst fun _ => rfl)
  have view := hc h (leadOf s h c)
  have own := hc h c
  simp only [rankView, Prod.mk.injEq] at view own
  unfold outRank safeCause modeOf
  rw [lead]
  simp only [up, stat, ecc, view, own]

/-- What an output's safe value is read from besides the hall's words: the modes, and what a HOLD of the lead keeps. -/
theorem safeValue_congr (hh : (getHall t h).cfg = (getHall s h).cfg) (hm : chansAlike ChanState.mode s t)
    (hk : chansAlike ChanState.held s t) : safeValue t h c = safeValue s h c := by
  have lead : leadOf t h c = leadOf s h c := leadOf_congr hh hm
  unfold safeValue chSafeW hcfg modeOf
  simp only [lead, hh, hm h c, hk h (leadOf s h c)]

/-- While no command decides an output, moving it keeps what a HOLD would drive. -/
theorem resolve_held (h5 : outRank s h c ≠ 5) : chansAlike ChanState.held s (resolve h c s) := by
  have driven : chansAlike ChanState.held s (setDrive h c (outTarget s h c) s) := by
    refine chansAlike.trans ?_ (setDrive_alike (fun _ _ _ => rfl) s)
    unfold Machine.driven
    exact .updChan (fun x => if_neg h5) (.refl _ s)
  unfold resolve
  refine .ite (.refl _ s) ?_
  split
  · exact .ite (.refl _ s) (.ite (.refl _ s) driven)
  · exact .ite (.refl _ s) (.ite (chFlag_alike (fun _ _ _ => rfl) (.refl _ s)) (pulseGo_alike (fun _ _ => rfl) driven))

/-- The hall's outputs are in their safe states at least. -/
def forcedSafe (h : Nat) (s : State) : Prop := bit (getHall s h).stat 5 = true ∨ bit (getHall s h).stat 6 = true

/-- From `s` to `t` channels moved with their modes and what a HOLD keeps standing. -/
structure SafeMove (h : Nat) (s t : State) : Prop where
  parts : changesOnly [.chans] s t
  core : chansAlike outputCore s t
  held : forcedSafe h s → chansAlike ChanState.held s t

theorem SafeMove.trans {u : State} (a : SafeMove h s t) (b : SafeMove h t u) : SafeMove h s u where
  parts := a.parts.trans b.parts
  core := a.core.trans b.core
  held := fun f => (a.held f).trans (b.held (by unfold forcedSafe; rw [halls_of_changes a.parts]; exact f))

theorem SafeMove.resolve (h c : Nat) (s : State) : SafeMove h s (resolve h c s) where
  parts := resolve_changes rfl (.refl _ _)
  core := resolve_core (.refl _ s)
  held := fun f => resolve_held (outRank_forced f)

theorem SafeMove.resolveAll (h : Nat) (s : State) : SafeMove h s (resolveAll h s) :=
  (((SafeMove.resolve h 0 s).trans (.resolve h 1 _)).trans (.resolve h 2 _)).trans (.resolve h 3 _)

theorem SafeMove.outRank (a : SafeMove h s t) : Machine.outRank t h c = Machine.outRank s h c :=
  outRank_alike (by rw [halls_of_changes a.parts]) (chansAlike.view (p := outputCore) rankView (fun _ => rfl) a.core)

theorem SafeMove.safeValue (a : SafeMove h s t) (f : forcedSafe h s) : Machine.safeValue t h c = Machine.safeValue s h c :=
  safeValue_congr (by rw [halls_of_changes a.parts]) (chansAlike.view (p := outputCore) ChanState.mode (fun _ => rfl) a.core) (a.held f)

/-- An output that a safe-state cause decides drives its safe value once its hall's outputs are brought to their states. -/
theorem resolveAll_safe (hc : c < 4) (hf : forcedSafe h s) (hm : isOutMode (modeOf s h c) = true) (hr : (getChan s h c).ramp = none)
    (h4 : outRank (resolveAll h s) h c = 4) : (getChan (resolveAll h s) h c).drive = safeValue (resolveAll h s) h c := by
  obtain ⟨u, parts, first, own, after⟩ := forChans_oneChan (h := h) (Q := SafeMove h) (f := resolve h) (s := s)
    (fun s => ⟨.refl _ s, .refl _ s, fun _ => .refl _ s⟩) (fun _ _ _ a b => a.trans b) hc (fun d _ _ u => .resolve h d u)
    fun d _ u => (OneChan.refl h d u).resolve
  have last : SafeMove h s (resolveAll h s) := .resolveAll h s
  have rank : outRank u h c = 4 := first.outRank.trans (last.outRank.symm.trans h4)
  rw [last.safeValue hf, ← first.safeValue hf]
  exact (congrArg ChanState.drive after).trans (drive_resolve_safe (own ▸ hm) (own ▸ hr) rank)

theorem report_chans {α : Type} {p : ChanState → α} (hp : ∀ x e a, p { x with evt := e, ainEvt := a } = p x) (h : Nat) (s : State) :
    chansAlike p s (settle (report h s)) := fun k d => getChan_report hp k d s

/-- The same after the hall's report. -/
theorem report_resolveAll_safe (hc : c < 4) (hf : forcedSafe h s) (hm : isOutMode (modeOf s h c) = true)
    (hr : (getChan s h c).ramp = none) (h4 : outRank (settle (report h (resolveAll h s))) h c = 4) :
    (getChan (settle (report h (resolveAll h s))) h c).drive = safeValue (settle (report h (resolveAll h s))) h c := by
  have hall := getHall_report (p := decides) (fun _ _ _ _ => rfl) h h (resolveAll h s)
  have cfg := getHall_report (p := HallState.cfg) (fun _ _ _ _ => rfl) h h (resolveAll h s)
  rw [safeValue_congr cfg (report_chans (fun _ _ _ => rfl) h _) (report_chans (fun _ _ _ => rfl) h _)]
  rw [outRank_alike hall (report_chans (fun _ _ _ => rfl) h _)] at h4
  exact (report_chans (p := ChanState.drive) (fun _ _ _ => rfl) h _ h c).trans (resolveAll_safe hc hf hm hr h4)

end

end Sys2Proof.Machine

namespace Sys2Proof.Machine

/-! FORCE_SAFE and its release (R54, R56). -/

section
variable {o : Origin} {h : Hall} {a : Nat} {v m : Word} {s t : State}

/-- The action registers of a hall are none of those that a standby or a device without an image still accepts. -/
theorem accepts_hallAct {off : Nat} (ho : off = 0x05 ∨ off = 0x6C) (ha : acceptsAct o (aHall h off) v s) : accepts o s := by
  have hh : h.val < 8 := h.isLt
  have image : noneAccepts s (aHall h off) = false := by
    have key : ∀ k < 8, (aHall k off = 0x2D0A || aHall k off = 0x2D0B || aHall k off = 0x2D0C) = false := by
      rcases ho with rfl | rfl <;> decide
    unfold noneAccepts
    rw [key h hh, Bool.and_false]
  have role0 : standbyAccepts (aHall h off) v = false := by
    have key : ∀ k < 8, (aHall k off = 0x2806 || evtMaskReg (aHall k off) || aHall k off = 0x0205 || aHall k off = 0x0206) = false ∧
        aHall k off ≠ 0x2D0A := by rcases ho with rfl | rfl <;> decide
    obtain ⟨k, n⟩ := key h hh
    unfold standbyAccepts
    simpa [n] using k
  obtain ⟨-, die, room, nv, source⟩ := ha
  rw [image] at die source
  rw [role0] at source
  exact ⟨by simpa using die, room, nv, by simpa using source⟩

theorem hallAt_ctrl (hh : h.val < 8) : hallAt (aHall h 0x05) = some h.val := by
  have f : (0x0400 + 0x100 * h.val + 5 - 0x0400) / 0x100 = h := by omega
  unfold hallAt aHall
  rw [if_pos (by omega), f]

theorem regDesc_ctrl (hh : h.val < 8) : regDesc (aHall h 0x05) = some (rwReg .b 0x1 0) := regDesc_aHall hh (by decide)

theorem clampValue_ctrl (hh : h.val < 8) (mode : Nat) (w : Word) : clampValue mode (aHall h 0x05) w = w := by
  have f : (0x0400 + 0x100 * h.val + 5 - 0x0400) % 0x100 = 5 := by omega
  unfold clampValue aHall
  rw [if_neg (by omega), if_pos (by omega), f]
  rfl

/-- The written bit is the whole word where nothing else is set. -/
theorem merge_bit {w : Word} (hv : v = 0 ∨ v = 1) (hw : w &&& 0xFFFFFFFE = 0) : merge (0x1 &&& allBits) w v = v := by
  have e : (1 : Word) &&& allBits = 1 := and_allBits 1
  have f : ~~~(1 : Word) = 0xFFFFFFFE := by decide
  have k : merge (0x1 &&& allBits) w v = (w &&& 0xFFFFFFFE) ||| (v &&& 1) := by
    unfold merge
    rw [e, f]
  rw [k, hw]
  rcases hv with rfl | rfl <;> decide

/-- The state once HALL_CTRL holds `v`, before its outputs follow. -/
def ctrlPut (o : Origin) (h : Nat) (v : Word) (s : State) : State :=
  classBPut o (rwReg .b 0x1 0) (aHall h 0x05) allBits v v v s

theorem ctrlPut_put (o : Origin) (h : Nat) (v : Word) (s : State) : Put (aHall h 0x05) v s (ctrlPut o h v s) := classBPut_put

theorem ctrlPut_eq (o : Origin) (h : Nat) (v : Word) (s : State) : ctrlPut o h v s = setReg (aHall h 0x05) v
    (forwardWrite o (rwReg .b 0x1 0) (aHall h 0x05) allBits v (writeRecorded (auditRec o 0 (aHall h 0x05) 0
      (liveWord s (aHall h 0x05)).toNat v.toNat s) s)) := by
  unfold ctrlPut classBPut clampNote
  rw [if_pos rfl]

theorem ctrlPut_regs (o : Origin) (h : Nat) (v : Word) (s : State) : regsOutside (· = aHall h 0x05) s (ctrlPut o h v s) := by
  rw [ctrlPut_eq]
  exact setReg_regs rfl (forwardWrite_regs ((regsOutside.refl _ s).skip (writeRecorded_changes _ s) (by decide)))

theorem cmdWrite_ctrl (hv : v = 0 ∨ v = 1) (ha : accepts o s) (hb : baseWord s (aHall h 0x05) &&& 0xFFFFFFFE = 0) :
    cmdWrite o (aHall h 0x05) allBits v none s = classB (aHall h 0x05) (poutBefore s (aHall h 0x05)) (ctrlPut o h v s) := by
  have hh : h.val < 8 := h.isLt
  exact cmdWrite_classB (regDesc_ctrl hh) rfl (by decide) (by decide) ha (merge_bit hv hb).symm (clampValue_ctrl hh _ v).symm
    (homeBad_hall hh (by decide) (by decide) s _ _)

theorem classB_ctrl (b : Word × Word) : classB (aHall h 0x05) b t = forceSafe h (bit (getReg t (aHall h 0x05)) 0) t := by
  have hh : h.val < 8 := h.isLt
  have e := hallAt_ctrl hh
  have f : (aHall h 0x05 - 0x400) % 0x100 = 5 := by unfold aHall; omega
  have low : aHall h 0x05 < 0x0C00 := by unfold aHall; omega
  unfold classB
  rw [if_pos (by unfold aHall; omega), e]
  simp [f, low]

/-- HALL_CTRL holds `v` and its hall follows: what of the answer is the same for 0 and 1. -/
def ctrlTaken (o : Origin) (h : Nat) (v : Word) (s t : State) : Prop :=
  getReg t (aHall h 0x05) = v ∧ bit (getHall t h).stat 6 = bit v 0 ∧
    (∃ r, t.aud = { s.aud with queue := s.aud.queue ++ [r], next := (s.aud.next + 1) % 2 ^ 48, writes := s.aud.writes + 1 } ∧
      r.kind = 0 ∧ r.addr = aHall h 0x05 ∧ r.new = v.toNat ∧ r.src = o.src) ∧
    forwarded o (aHall h 0x05) allBits v s t ∧ framedRet [.regs, .halls, .chans, .per, .aud, .bb, .pair, .tx] s t ∧
    regsOutside (fun b => hallRegs h b ∨ b = aHall h 0x05) s t ∧ hallApart h s t ∧ onlyVstates s t

theorem ctrlTaken_settle (hs : Inv s) (hu : (getHall s h).up = true) (b : Word × Word) :
    ctrlTaken o h v s (settle (classB (aHall h 0x05) b (ctrlPut o h v s))) := by
  have hh : h.val < 8 := h.isLt
  have hB : isBrw (aHall h 0x05) = true := isBrw_of (regDesc_ctrl hh) rfl (by decide)
  have hat := hallAt_ctrl hh
  have q := ctrlPut_put o h v s
  obtain ⟨-, -, force, frame, apart, vstates, -⟩ := q.answer_hall (b := b) hs hB hat
  obtain ⟨-, -, -, -, parts, regs⟩ := classB_hall (b := b) (s := ctrlPut o h v s) hB hat
  obtain ⟨aud, fwd, mem⟩ := classBPut_kept (by decide) (settle_changes (F := [.regs, .halls, .chans, .per, .bb, .pins]) (by decide)
    (parts.mono (by decide))) rfl (ne_of_isBrw hB (by decide)) (ne_of_isBrw hB (by decide)) (ne_of_isBrw hB (by decide))
  refine ⟨(getReg_settle _ _).trans (q.getReg_classB hB), force rfl hu, ⟨_, aud, rfl, rfl, rfl, rfl⟩, fwd,
    ⟨⟨frame.1.mono (by decide), frame.2⟩, mem⟩, settle_regsOutside ?_, apart, vstates⟩
  exact ((ctrlPut_regs o h v s).mono fun _ => .inr).trans (regs.mono fun _ => .inl)

theorem ctrl_next {k : Instr} (e : exec k s = actWrite o (aHall h 0x05) v s) (hs : Inv s) (hu : (getHall s h).up = true)
    (hv : v = 0 ∨ v = 1) (ha : accepts o s) (hb : baseWord s (aHall h 0x05) &&& 0xFFFFFFFE = 0) :
    exec k s = done (forceSafe h (bit v 0) (ctrlPut o h v s)) ∧
      ctrlTaken o h v s (settle (forceSafe h (bit v 0) (ctrlPut o h v s))) := by
  have taken := ctrlTaken_settle (o := o) (v := v) hs hu (poutBefore s (aHall h 0x05))
  have word := (ctrlPut_put o h v s).word
  rw [classB_ctrl, word] at taken
  refine ⟨?_, taken⟩
  rw [e]
  unfold actWrite
  rw [cmdWrite_ctrl hv ha hb, classB_ctrl, word]

theorem forceSafe_next (hs : Inv s) (hu : (getHall s h).up = true) (ha : accepts o s)
    (hb : baseWord s (aHall h 0x05) &&& 0xFFFFFFFE = 0) :
    ∃ t, exec (.forceSafe o h) s = .next t ∧ ctrlTaken o h 1 s t ∧
      ∀ c < 4, isOutMode (modeOf s h c) = true → (getChan s h c).ramp = none → outRank t h c = 4 →
        (getChan t h c).drive = safeValue t h c := by
  obtain ⟨e, taken⟩ := ctrl_next (k := .forceSafe o h) (v := 1) rfl hs hu (.inr rfl) ha hb
  refine ⟨_, e, taken, fun c hc hm hr => ?_⟩
  have parts := (ctrlPut_put o h 1 s).parts
  have up : (getHall (ctrlPut o h 1 s) h).up = true := by
    unfold getHall
    rw [(parts .halls (by decide) : (ctrlPut o h 1 s).halls = s.halls)]
    exact hu
  have chan : getChan (hallFlag h 6 true (ctrlPut o h 1 s)) h c = getChan s h c := by
    unfold hallFlag
    rw [getChan_updHall]
    unfold getChan
    rw [(parts .chans (by decide) : (ctrlPut o h 1 s).chans = s.chans)]
  have force : forceSafe h (bit 1 0) (ctrlPut o h 1 s) = report h (resolveAll h (hallFlag h 6 true (ctrlPut o h 1 s))) := by
    have one : bit 1 0 = true := by decide
    unfold forceSafe
    rw [if_neg (by rw [up]; decide), if_pos one]
  rw [force]
  refine report_resolveAll_safe hc (.inr ?_) ?_ (chan ▸ hr)
  · rw [stat_hallFlag]
    exact bit_putBit _ (by decide) _
  · unfold modeOf
    rw [chan]
    exact hm

end

end Sys2Proof.Machine

namespace Sys2Proof.Machine

/-! FORCE (R91). -/

section
variable {h i : Nat} {s t : State}

theorem eventsRaised_excEvt (hh : h < 8) (x : HallState) :
    getReg (eventsRaised h x s) (rExcEvt h) = getReg s (rExcEvt h) ||| x.excEvt := by
  have missed : rExcEvt h ≠ rBbMissed := by unfold rExcEvt rBbMissed aHall; omega
  refine (getReg_raiseEvt_other ?_ missed).trans ((getReg_raiseEvt_self missed).trans ?_)
  · unfold rExcEvt rRotEvt aHall aRot; omega
  · rw [getReg_raiseEvt_other (by unfold rHallEvt rExcEvt aHall; omega) missed]

/-- The events a report raises stand in HALL_EXC_EVT. -/
theorem excEvt_report (hh : h < 8) (hr : reports s h = true) :
    getReg (report h s) (rExcEvt h) = getReg s (rExcEvt h) ||| (getHall s h).excEvt := by
  rw [report_eq hr, forChans_reportChan_reg, getReg_eventsShown, eventsRaised_excEvt hh, statusShown_regs h s]
  · unfold rExcEvt aHall aRot aConv; omega
  · unfold rExcEvt rBbMissed aHall; omega
  · intro c hc
    unfold notChanWord rExcEvt aCh aHall aRot
    omega

/-- An event of the excitation kept by the hall stands in its register or is still kept after a report. -/
theorem excRaised_report (hh : h < 8) (r : bit (getHall s h).excEvt i = true) :
    bit (getHall (settle (report h s)) h).excEvt i = true ∨ bit (getReg (settle (report h s)) (rExcEvt h)) i = true := by
  rw [getHall_settle, getReg_settle]
  cases hr : reports s h with
  | false => rw [report_off hr]; exact .inl r
  | true => rw [excEvt_report hh hr, bit_or, r, Bool.or_true]; exact .inr rfl

/-- The profiles that waited are in force. -/
theorem applyExc_hall {e : List Word} (hx : (getHall s h).excNew = some e) :
    (getHall (applyExc h s) h).exc = e ∧ (getHall (applyExc h s) h).excNew = none := by
  unfold applyExc
  rw [hx]
  unfold excFlag
  simp only [getHall_updHall_self, and_self]

/-- Every step in progress in the hall restarted with the new profiles, and the shadow execution with them. -/
def excRestarted (h : Nat) (s : State) : State :=
  let t := applyExc h s
  let r := gridAfter (nowM t)
  dropShadow h (restartStep (2 * h + 1) r (restartStep (2 * h) r (forcedShadow h t)))

/-- The same with the restart's event kept. -/
def excForced (h : Nat) (s : State) : State := updHall h (fun y => { y with excEvt := y.excEvt ||| bitMask 7 }) (excRestarted h s)

theorem forceExc_eq (h : Nat) (s : State) : forceExc h s =
    if (getHall s h).up && (getHall s h).excNew.isSome then
      report h (excForced h s)
    else s := rfl

theorem forceExc_some {e : List Word} (hu : (getHall s h).up = true) (hx : (getHall s h).excNew = some e) :
    forceExc h s = report h (excForced h s) := by
  rw [forceExc_eq, if_pos (by rw [hu, hx]; rfl)]

theorem forceExc_none (hx : (getHall s h).excNew = none) : forceExc h s = s := by
  rw [forceExc_eq, if_neg (by rw [hx]; simp)]

theorem restartStep_hall {n : Nat} {r : Nat} (hn : n / 2 = h) (a : convsOutside (fun k => k / 2 = h) s t) :
    convsOutside (fun k => k / 2 = h) s (restartStep n r t) := .ite (updConv_hall hn (discardOpen_hall hn a)) a

theorem excRestarted_changes (h : Nat) (s : State) : changesOnly [.halls, .convs] s (excRestarted h s) :=
  dropShadow_changes rfl (restartStep_changes rfl (restartStep_changes rfl (forcedShadow_changes rfl (applyExc_changes rfl (.refl _ s)))))

theorem applyExc_apart (h : Nat) (s : State) : Apart h s (applyExc h s) := by
  unfold applyExc
  split
  · exact .refl h s
  · exact (updHall_apart _ s).trans (updHall_apart _ _)

theorem excRestarted_apart (h : Nat) (s : State) : Apart h s (excRestarted h s) :=
  (((applyExc_apart h s).trans (updHall_apart _ _)).trans (apart_of_changes (F := [.convs]) (restartStep_changes rfl
    (restartStep_changes rfl (.refl _ _))) (by decide))).trans (dropShadow_apart _)

theorem excRestarted_convs (h : Nat) (s : State) : convsOutside (fun n => n / 2 = h) s (excRestarted h s) := by
  have start : convsOutside (fun n => n / 2 = h) s (forcedShadow h (applyExc h s)) :=
    .skip (G := [.halls]) (forcedShadow_changes rfl (applyExc_changes rfl (.refl _ s))) (by decide) (.refl _ s)
  exact dropShadow_hall (restartStep_hall (by omega) (restartStep_hall (by omega) start))

theorem excRestarted_hall {e : List Word} (hx : (getHall s h).excNew = some e) :
    (getHall (excRestarted h s) h).exc = e ∧ (getHall (excRestarted h s) h).excNew = none := by
  let p (x : HallState) := (x.exc, x.excNew)
  have shadow (u : State) : hallsAlike p u (forcedShadow h u) := by
    unfold forcedShadow
    exact .updHall (fun _ => rfl) (.refl p u)
  have steps (r : Nat) (u : State) : hallsAlike p u (restartStep (2 * h + 1) r (restartStep (2 * h) r u)) :=
    .skip (F := [.convs]) (restartStep_changes rfl (restartStep_changes rfl (.refl _ u))) (by decide) (.refl p u)
  have drop (u : State) : hallsAlike p u (dropShadow h u) := by
    unfold dropShadow
    exact .updHall (fun _ => rfl) (.skip (F := [.convs]) (leaveShadow_changes rfl (leaveShadow_changes rfl (.refl _ u))) (by decide)
      (.refl p u))
  have kept : hallsAlike p (applyExc h s) (excRestarted h s) := by
    unfold excRestarted
    exact ((shadow _).trans (steps _ _)).trans (drop _)
  obtain ⟨exc, none⟩ := applyExc_hall hx
  have same := kept h
  simp only [p, Prod.mk.injEq] at same
  exact ⟨same.1.trans exc, same.2.trans none⟩

theorem excForced_changes (h : Nat) (s : State) : changesOnly [.halls, .convs] s (excForced h s) :=
  updHall_changes rfl (excRestarted_changes h s)

theorem excForced_apart (h : Nat) (s : State) : Apart h s (excForced h s) := (excRestarted_apart h s).trans (updHall_apart _ _)

theorem excForced_convs (h : Nat) (s : State) : convsOutside (fun n => n / 2 = h) s (excForced h s) :=
  .skip (G := [.halls]) (updHall_changes rfl (.refl _ _)) (by decide) (excRestarted_convs h s)

theorem excForced_hall {e : List Word} (hx : (getHall s h).excNew = some e) : (getHall (excForced h s) h).exc = e ∧
    (getHall (excForced h s) h).excNew = none ∧ bit (getHall (excForced h s) h).excEvt 7 = true := by
  obtain ⟨exc, none⟩ := excRestarted_hall hx
  have kept {α : Type} {p : HallState → α} (hp : ∀ x e, p { x with excEvt := e } = p x) :
      hallsAlike p (excRestarted h s) (excForced h s) := .updHall (fun x => hp x _) (.refl p _)
  refine ⟨(kept (p := HallState.exc) (fun _ _ => rfl) h).trans exc, (kept (p := HallState.excNew) (fun _ _ => rfl) h).trans none, ?_⟩
  unfold excForced
  rw [getHall_updHall_self]
  exact bit_or_bitMask _ (by decide)

end

section
variable {o : Origin} {h : Hall} {s t : State}

theorem regDesc_exc (hh : h.val < 8) : regDesc (aHall h 0x6C) = some (woReg .b 0x1) := regDesc_aHall hh (by decide)

/-- The state once the write of FORCE is recorded and forwarded. -/
def forcePut (o : Origin) (h : Nat) (s : State) : State :=
  forwardWrite o (woReg .b 0x1) (aHall h 0x6C) allBits 1 (writeRecorded (auditRec o 0 (aHall h 0x6C) 0 0 1 s) s)

theorem countWrite_auditAct {w : Word} (hh : h.val < 8) (hr : audRoom s 1 = true) :
    countWrite (auditB o (aHall h 0x6C) (woReg .b 0x1) w 1 s) = writeRecorded (auditRec o 0 (aHall h 0x6C) 0 0 1 s) s := by
  unfold auditB
  dsimp only
  rw [if_neg (by unfold aHall; omega), if_pos (show (woReg .b 0x1).rw = 0 from rfl), audit_room hr]
  rfl

theorem action_exc (hh : h.val < 8) (u : State) : action (aHall h 0x6C) 1 0 u = forceExc h u := by
  have e : (0x0400 + 0x100 * h.val + 0x6C - 0x0400) / 0x100 = h := by omega
  have f : (0x0400 + 0x100 * h.val + 0x6C - 0x0400) % 0x100 = 0x6C := by omega
  have one : bit 1 0 = true := by decide
  unfold action aHall
  rw [if_pos (by omega)]
  dsimp only
  rw [f, if_neg (by decide), if_pos one, e]

theorem exec_force (ha : accepts o s) : exec (.force o h) s = done (forceExc h (forcePut o h s)) := by
  have hh : h.val < 8 := h.isLt
  obtain ⟨-, room, -, -⟩ := id ha
  have one : (1 : Word) &&& 0x1 = 1 := by decide
  show done (cmdWrite o (aHall h 0x6C) allBits 1 none s) = _
  rw [cmdWrite_actB (regDesc_exc hh) (by decide) ha (homeBad_hall hh (by decide) (by decide) s · _), one,
    countWrite_auditAct hh room, action_exc hh]
  rfl

/-- What the write leaves before FORCE acts. -/
theorem forcePut_changes (o : Origin) (h : Nat) (s : State) : changesOnly [.aud, .mem, .tx, .pair] s (forcePut o h s) :=
  forwardWrite_changes (by decide) ((writeRecorded_changes _ s).mono (by decide))

theorem forcePut_kept {F : List Part} (hF : Part.aud ∉ F ∧ Part.mem ∉ F ∧ Part.tx ∉ F ∧ Part.pair ∉ F)
    (ht : changesOnly F (forcePut o h s) t) :
    audited o (aHall h 0x6C) 1 s t ∧ forwarded o (aHall h 0x6C) allBits 1 s t ∧ mended s t := by
  obtain ⟨haud, hmem, htx, hpair⟩ := hF
  let r := writeRecorded (auditRec o 0 (aHall h 0x6C) 0 0 1 s) s
  have hf : changesOnly [.tx, .pair] r (forcePut o h s) := forwardWrite_changes (by decide) (.refl _ _)
  have mem : t.mem = r.mem := (ht .mem hmem).trans (hf .mem (by decide))
  have hh : h.val < 8 := h.isLt
  have fwd : forwarded o (aHall h 0x6C) allBits 1 r (forcePut o h s) :=
    forwarded_forwardWrite rfl (by unfold aHall; omega) (by unfold aHall; omega) (by unfold aHall; omega)
  refine ⟨(ht .aud haud).trans (hf .aud (by decide)), forwarded_congr (ht .tx htx) (ht .pair hpair) fwd, ?_⟩
  unfold mended
  rw [mem]
  exact ⟨rfl, fun e he => (List.mem_filter.1 he).1⟩

theorem force_idle (hs : Inv s) (ha : accepts o s) (hx : (getHall s h).excNew = none) :
    ∃ t, exec (.force o h) s = .next t ∧ audited o (aHall h 0x6C) 1 s t ∧ forwarded o (aHall h 0x6C) allBits 1 s t ∧
      framedRet [.aud, .pair, .tx] s t := by
  have parts := forcePut_changes o h s
  have same : getHall (forcePut o h s) h = getHall s h := by
    unfold getHall
    rw [(parts .halls (by decide) : (forcePut o h s).halls = s.halls)]
  have e := exec_force (o := o) (h := h) ha
  rw [forceExc_none (by rw [same]; exact hx)] at e
  obtain ⟨aud, fwd, mem⟩ := forcePut_kept (t := settle (forcePut o h s)) (F := [.bb, .pins]) (by decide) (settle_changes rfl (.refl _ _))
  exact ⟨_, e, aud, fwd, framed_settle hs (parts.mono (by decide)) (by decide), mem⟩

theorem force_waiting {e : List Word} (hs : Inv s) (hu : (getHall s h).up = true) (ha : accepts o s)
    (hx : (getHall s h).excNew = some e) :
    ∃ t, exec (.force o h) s = .next t ∧ audited o (aHall h 0x6C) 1 s t ∧ forwarded o (aHall h 0x6C) allBits 1 s t ∧
      (getHall t h).exc = e ∧ (getHall t h).excNew = none ∧
      (bit (getHall t h).excEvt 7 = true ∨ bit (getReg t (rExcEvt h)) 7 = true) ∧
      framedRet [.regs, .halls, .chans, .convs, .per, .aud, .bb, .pair, .tx] s t ∧ regsOutside (hallRegs h) s t ∧
      hallApart h s t ∧ convsOutside (fun n => n / 2 = h.val) s t ∧ onlyVstates s t := by
  let p := forcePut o h s
  let u := excForced h p
  have put : changesOnly [.aud, .mem, .tx, .pair] s p := forcePut_changes o h s
  have same : getHall p h = getHall s h := by
    unfold getHall
    rw [(put .halls (by decide) : p.halls = s.halls)]
  have restarted : changesOnly [.halls, .convs] p u := excForced_changes h p
  obtain ⟨exc, none, restart⟩ := excForced_hall (h := h) (s := p) (e := e) (by rw [same]; exact hx)
  have run : exec (.force o h) s = done (report h u) := by
    rw [exec_force ha, forceExc_some (by rw [same]; exact hu) (by rw [same]; exact hx)]
  have answer : changesOnly [.regs, .halls, .chans, .convs, .per, .bb] p (report h u) := report_changes rfl (restarted.mono (by decide))
  obtain ⟨aud, fwd, mem⟩ := forcePut_kept (t := settle (report h u)) (F := [.regs, .halls, .chans, .convs, .per, .bb, .pins]) (by decide)
    (settle_changes rfl (answer.mono (by decide)))
  have apart : Apart h s u := (apart_of_changes put (by decide)).trans (excForced_apart h p)
  have convs : convsOutside (fun n => n / 2 = h.val) s u := .trans (.skip put (by decide) (.refl _ s)) (excForced_convs h p)
  obtain ⟨frame, regs, hall, vstates⟩ := report_frame (h := h) (F := [.mem, .regs, .halls, .chans, .convs, .per, .aud, .bb, .pair, .tx]) hs
    rfl (by decide) ((put.mono (by decide)).trans (restarted.mono (by decide)))
    (((regsOutside.refl (hallRegs h) s).skip put (by decide)).skip restarted (by decide)) apart
  refine ⟨_, run, aud, fwd, ?_, ?_, ?_, ⟨frame, mem⟩, regs, hall, ?_, vstates⟩
  · exact (getHall_report (p := HallState.exc) (fun _ _ _ _ => rfl) h h u).trans exc
  · exact (getHall_report (p := HallState.excNew) (fun _ _ _ _ => rfl) h h u).trans none
  · exact excRaised_report h.isLt restart
  · exact .skip (G := [.regs, .halls, .chans, .per, .bb, .pins]) (settle_changes rfl (report_changes rfl (.refl _ u))) (by decide) convs

/-- Settles O41: an acknowledgement ends the latch of each channel of no gang whose bit is written and moves no other, FORCE_SAFE
stands in its register and its hall follows, and FORCE applies the profiles that wait and restarts the steps in progress. -/
theorem hallAckForceSafeAndForce : Obligations.HallAckForceSafeAndForce := by
  intro o h acks pres s hs hu
  refine ⟨fun hl => hallAck_next hs hu hl, fun ha hb => ?_, fun ha => ?_⟩
  · have accepted := accepts_hallAct (.inl rfl) ha
    refine ⟨forceSafe_next hs hu accepted hb, ?_⟩
    obtain ⟨e, taken⟩ := ctrl_next (k := .forceSafeRelease o h) (v := 0) rfl hs hu (.inl rfl) accepted hb
    exact ⟨_, e, taken⟩
  · have accepted := accepts_hallAct (.inr rfl) ha
    exact ⟨fun hx => force_idle hs accepted hx, fun e hx => force_waiting hs hu accepted hx⟩

end

end Sys2Proof.Machine

namespace Sys2Proof.Machine

/-! Discrete and supervised inputs (R37 to R40). -/

section
variable {h c : Nat} {b : Bool} {n k time : Nat} {s t : State}

theorem getChan_chStateAt (time h c : Nat) (b : Bool) (s : State) : getChan (chStateAt time h c b s) h c =
    { getChan s h c with
      stat := putBit (getChan s h c).stat 0 b
      stTime := if b != bit (getChan s h c).stat 0 then time else (getChan s h c).stTime
      evt := if b != bit (getChan s h c).stat 0 then (getChan s h c).evt ||| 1 else (getChan s h c).evt } := getChan_updChan_self ..

theorem OneChan.chStateAt (a : OneChan h c s t) : OneChan h c s (chStateAt time h c b t) := a.updChan

theorem stat_chStateAt (time h c : Nat) (b : Bool) (s : State) :
    (getChan (chStateAt time h c b s) h c).stat = putBit (getChan s h c).stat 0 b := by rw [getChan_chStateAt]

/-- A change of STATE raises its event and notes its time (R38). -/
theorem chStateAt_changed (hb : b ≠ bit (getChan s h c).stat 0) : chanRaised h c 0 (chStateAt time h c b s) ∧
    (getChan (chStateAt time h c b s) h c).stTime = time := by
  have changed : (b != bit (getChan s h c).stat 0) = true := by simpa using hb
  have own := getChan_chStateAt time h c b s
  have evt : (getChan (chStateAt time h c b s) h c).evt = (getChan s h c).evt ||| 1 :=
    (congrArg ChanState.evt own).trans (if_pos changed)
  refine ⟨.inl ?_, (congrArg ChanState.stTime own).trans (if_pos changed)⟩
  rw [evt, bit_or]
  simp [bit]

/-- A flag other than WB_STATE leaves its field. -/
theorem wbState_putBit (w : Word) {i : Nat} (hi : i < 32) (h1 : i ≠ 1) (h2 : i ≠ 2) (b : Bool) : bits (putBit w i b) 2 1 = bits w 2 1 := by
  refine Nat.eq_of_testBit_eq fun j => ?_
  rw [testBit_bits, testBit_bits]
  by_cases hj : j < 2
  · have e : bit (putBit w i b) (1 + j) = bit w (1 + j) := bit_putBit_other w hi (by omega) b
    exact congrArg (_ && ·) e
  · rw [decide_eq_false (show ¬ j < 2 + 1 - 1 by omega), Bool.false_and, Bool.false_and]

theorem bit_putBits_other (w : Word) {hi lo i : Nat} (h : hi < 32) (hi' : i < lo ∨ hi < i) (v : Nat) :
    bit (putBits w hi lo v) i = bit w i := (getLsbD_putBits h w lo v i).trans (if_neg (by omega))

theorem wbBand_le (w : Word) (i : Int) : wbBand w i ≤ 4 := by
  unfold wbBand
  split
  · decide
  · split
    · decide
    · split
      · decide
      · split <;> decide

/-- The flags of a supervised input once a band other than that between open and closed takes effect (R39). -/
def bandShown (band : Nat) (x y : Word) : Prop :=
  bits y 2 1 = band ∧ bit y 3 = (band = 0 || band = 3) ∧
    bit y 0 = (if band = 1 then false else if band = 2 then true else bit x 0)

/-- WB_STATE and WB_FAULT as a band gives them, STATE not yet moved. -/
def bandNoted (h c band : Nat) (s : State) : State :=
  chFlag h c 3 (band = 0 || band = 3) (updChan h c (fun x => { x with stat := putBits x.stat 2 1 band }) s)

theorem stat_bandNoted (h c band : Nat) (s : State) : (getChan (bandNoted h c band s) h c).stat =
    putBit (putBits (getChan s h c).stat 2 1 band) 3 (band = 0 || band = 3) := by
  unfold bandNoted
  rw [stat_chFlag, getChan_updChan_self]

theorem wbEffect_eq {band : Nat} (hb : band ≠ 4) (h c : Nat) (s : State) : wbEffect h c band s =
    if band = 1 then chState h c false (bandNoted h c band s) else if band = 2 then chState h c true (bandNoted h c band s)
    else bandNoted h c band s := if_neg hb

theorem OneChan.wbEffect (a : OneChan h c s t) (band : Nat) : OneChan h c s (wbEffect h c band t) := by
  have noted : OneChan h c s (bandNoted h c band t) := .chFlag a.updChan
  exact .ite a (.ite noted.chStateAt (.ite noted.chStateAt noted))

theorem wbEffect_bands {α : Type} {p : ChanState → α} (hp : ∀ x w e m, p { x with stat := w, evt := e, stTime := m } = p x) (h c band : Nat)
    (s : State) : chansAlike p s (wbEffect h c band s) := by
  have noted : chansAlike p s (bandNoted h c band s) :=
    chFlag_alike (fun x w e => hp x w e x.stTime) (.updChan (fun x => hp x _ x.evt x.stTime) (.refl p s))
  have state (v : Bool) : chansAlike p s (chState h c v (bandNoted h c band s)) := .updChan (fun x => hp x _ _ _) noted
  exact .ite (.refl p s) (.ite (state false) (.ite (state true) noted))

theorem bandShown_wbEffect {band : Nat} (hb : band ≤ 4) (h4 : band ≠ 4) (h c : Nat) (s : State) :
    bandShown band (getChan s h c).stat (getChan (wbEffect h c band s) h c).stat := by
  let w := putBit (putBits (getChan s h c).stat 2 1 band) 3 (band = 0 || band = 3)
  have field : bits w 2 1 = band :=
    (wbState_putBit _ (by decide) (by decide) (by decide) _).trans (bits_putBits_self (by decide) _ (by omega))
  have fault : bit w 3 = (band = 0 || band = 3) := bit_putBit _ (by decide) _
  have state : bit w 0 = bit (getChan s h c).stat 0 :=
    (bit_putBit_other _ (by decide) (by decide) _).trans (bit_putBits_other _ (by decide) (.inl (by decide)) _)
  have reported (v : Bool) : bits (putBit w 0 v) 2 1 = band ∧ bit (putBit w 0 v) 3 = (band = 0 || band = 3) ∧ bit (putBit w 0 v) 0 = v :=
    ⟨(wbState_putBit _ (by decide) (by decide) (by decide) _).trans field,
      (bit_putBit_other _ (by decide) (by decide) _).trans fault, bit_putBit _ (by decide) _⟩
  rw [wbEffect_eq h4]
  unfold bandShown chState
  split
  next => rw [stat_chStateAt, stat_bandNoted]; exact reported false
  next =>
    split
    next => rw [stat_chStateAt, stat_bandNoted]; exact reported true
    next => rw [stat_bandNoted]; exact ⟨field, fault, state⟩

end

section
variable {h : Hall} {c : Chan} {b : Bool} {i : MicroAmp} {s : State}

theorem exec_stateEvt (hu : (getHall s h).up = true) : exec (.stateEvt h c b) s = done (report h
    (if (modeOf s h c = 1 ∨ modeOf s h c = 2) ∧ s.clk.modclk then chStateAt (firstSample s h c) h c b s else s)) := by
  show execStateEvt h c b s = _
  unfold execStateEvt
  exact hallDo_up hu

theorem stateEvt_next (hs : Inv s) (hu : (getHall s h).up = true) :
    ∃ t, exec (.stateEvt h c b) s = .next t ∧ hallOnly h s t ∧
      (if (modeOf s h c = 1 ∨ modeOf s h c = 2) ∧ s.clk.modclk = true then
        (getChan t h c).stat = putBit (getChan s h c).stat 0 b ∧
          (b ≠ bit (getChan s h c).stat 0 → chanRaised h c 0 t ∧ (getChan t h c).stTime = firstSample s h c)
      else (getChan t h c).stat = (getChan s h c).stat) := by
  have e := exec_stateEvt (c := c) (b := b) hu
  by_cases hm : (modeOf s h c = 1 ∨ modeOf s h c = 2) ∧ s.clk.modclk = true
  · rw [if_pos hm] at e
    let u := chStateAt (firstSample s h c) h c b s
    refine ⟨_, e, OneChan.frame hs c.isLt (OneChan.chStateAt (.refl h c s)), ?_⟩
    rw [if_pos hm]
    refine ⟨(stat_chan_report h c u).trans (stat_chStateAt ..), fun hb => ?_⟩
    obtain ⟨raised, time⟩ := chStateAt_changed (time := firstSample s h c) hb
    exact ⟨chanRaised_report h.isLt c.isLt raised, of_report (P := fun y => y.stTime = firstSample s h c) (fun _ _ _ => rfl) time⟩
  · rw [if_neg hm] at e
    refine ⟨_, e, OneChan.frame hs c.isLt (.refl h c s), ?_⟩
    rw [if_neg hm]
    exact stat_chan_report h c s

/-- The measurement of a supervised input counted in its band (R40, log 14). -/
def bandCounted (h c band n : Nat) (s : State) : State := updChan h c (fun y => { y with wbBand := band, wbCount := n }) s

theorem getChan_bandCounted (h c band n : Nat) (s : State) : getChan (bandCounted h c band n s) h c =
    { getChan s h c with wbBand := band, wbCount := n } := getChan_updChan_self ..

/-- The measurements in a row of a band, this one included. -/
def bandCount (x : ChanState) (band : Nat) : Nat := if x.wbBand = band then min (x.wbCount + 1) 1000 else 1

theorem exec_wireBreakMeasure (hu : (getHall s h).up = true) : exec (.wireBreakMeasure h c i) s = done (report h
    (if modeOf s h c = 3 then
      let band := wbBand (hcfg s h (aHall h (0x14 + c))) i
      let n := bandCount (getChan s h c) band
      if wbNeeded (chCfgW s h c) ≤ n then wbEffect h c band (bandCounted h c band n s) else bandCounted h c band n s
    else s)) := by
  show execWireBreakMeasure h c i s = _
  unfold execWireBreakMeasure
  exact hallDo_up hu

/-- What a measurement of a supervised input comes to. -/
theorem wireBreak_counted {band n : Nat} (hb : band ≤ 4) (need : Nat) :
    let t := if need ≤ n then wbEffect h c band (bandCounted h c band n s) else bandCounted h c band n s
    OneChan h c s t ∧ (getChan t h c).wbBand = band ∧ (getChan t h c).wbCount = n ∧
      (if need ≤ n ∧ band ≠ 4 then bandShown band (getChan s h c).stat (getChan t h c).stat
      else (getChan t h c).stat = (getChan s h c).stat) := by
  have own := getChan_bandCounted h c band n s
  have counted : OneChan h c s (bandCounted h c band n s) := .updChan (.refl h c s)
  have stat : (getChan (bandCounted h c band n s) h c).stat = (getChan s h c).stat := by rw [own]
  by_cases hn : need ≤ n
  · simp only [hn, if_true, true_and]
    refine ⟨.wbEffect counted band, (wbEffect_bands (p := ChanState.wbBand) (fun _ _ _ _ => rfl) h c band _ h c).trans (by rw [own]),
      (wbEffect_bands (p := ChanState.wbCount) (fun _ _ _ _ => rfl) h c band _ h c).trans (by rw [own]), ?_⟩
    by_cases h4 : band = 4
    · rw [if_neg (by simpa using h4), ← stat]
      unfold wbEffect
      rw [if_pos h4]
    · rw [if_pos h4, ← stat]
      exact bandShown_wbEffect hb h4 h c _
  · simp only [hn, if_false, false_and]
    exact ⟨counted, by rw [own], by rw [own], stat⟩

theorem wireBreakMeasure_next (hs : Inv s) (hu : (getHall s h).up = true) :
    ∃ t, exec (.wireBreakMeasure h c i) s = .next t ∧ hallOnly h s t ∧
      (if modeOf s h c = 3 then
        let band := wbBand (hcfg s h (aHall h (0x14 + c))) i
        let n := bandCount (getChan s h c) band
        (getChan t h c).wbBand = band ∧ (getChan t h c).wbCount = n ∧
        (if wbNeeded (chCfgW s h c) ≤ n ∧ band ≠ 4 then bandShown band (getChan s h c).stat (getChan t h c).stat
         else (getChan t h c).stat = (getChan s h c).stat)
      else (getChan t h c).stat = (getChan s h c).stat ∧ (getChan t h c).wbCount = (getChan s h c).wbCount) := by
  have e := exec_wireBreakMeasure (c := c) (i := i) hu
  by_cases hm : modeOf s h c = 3
  · rw [if_pos hm] at e
    let band := wbBand (hcfg s h (aHall h (0x14 + c))) i
    let n := bandCount (getChan s h c) band
    obtain ⟨one, hband, hcount, hstat⟩ :=
      wireBreak_counted (h := h) (c := c) (s := s) (band := band) (n := n) (wbBand_le _ i) (wbNeeded (chCfgW s h c))
    refine ⟨_, e, one.frame hs c.isLt, ?_⟩
    rw [if_pos hm]
    refine ⟨of_report (P := fun y => y.wbBand = band) (fun _ _ _ => rfl) hband, of_report (P := fun y => y.wbCount = n) (fun _ _ _ => rfl) hcount, ?_⟩
    exact of_report (P := fun y => if wbNeeded (chCfgW s h c) ≤ n ∧ band ≠ 4 then bandShown band (getChan s h c).stat y.stat
      else y.stat = (getChan s h c).stat) (fun _ _ _ => rfl) hstat
  · rw [if_neg hm] at e
    refine ⟨_, e, OneChan.frame hs c.isLt (.refl h c s), ?_⟩
    rw [if_neg hm]
    exact of_report (P := fun y => y.stat = (getChan s h c).stat ∧ y.wbCount = (getChan s h c).wbCount) (fun _ _ _ => rfl) ⟨rfl, rfl⟩

end

end Sys2Proof.Machine

namespace Sys2Proof.Machine

/-! Pulse inputs (R41 to R44). -/

section
variable {h c : Nat} {b : Bool} {ns : Nat} {s t : State}

/-- What `n` edges counted leave in their channel. -/
def edgesCounted (n k time : Nat) (x : ChanState) : ChanState :=
  { x with
    pcnt := (x.pcnt + n) % 2 ^ 32
    pper := match x.pstep with
      | some j => if j ≤ k ∧ (k - j) * 15625 / 4096 ≤ 0xFFFFFFFF then some ((k - j) * 15625 / 4096) else none
      | none => none
    plast := some time
    pstep := some k
    acc := x.acc + n
    accFirst := if x.acc = 0 then time else x.accFirst
    accLast := time }

theorem edgesCounted_fields (n k time : Nat) (x : ChanState) :
    let y := edgesCounted n k time x
    y.pstep = some k ∧ y.acc = x.acc + n ∧ y.pcnt = (x.pcnt + n) % 2 ^ 32 ∧ y.plast = some time ∧ y.accLast = time ∧
      ∀ j, x.pstep = some j → j ≤ k → (k - j) * 15625 / 4096 ≤ 0xFFFFFFFF → y.pper = some ((k - j) * 15625 / 4096) := by
  refine ⟨rfl, rfl, rfl, rfl, rfl, fun j hj h1 h2 => ?_⟩
  unfold edgesCounted
  simp only [hj, h1, h2, and_self, if_true]

theorem getChan_countEdge (h c n k time : Nat) (s : State) : getChan (countEdge h c n k time s) h c =
    edgesCounted n k time (getChan s h c) := getChan_updChan_self ..

/-- A phase ended: FREQ_HIGH where it was short. -/
def phaseEnded (h c ns : Nat) (s : State) : State := if ns < 10000 then chFlag h c 10 true s else s

/-- An edge counted while its number is not guaranteed. -/
def freeEdges (h c : Nat) (s : State) : State :=
  takeFree (takeFree (takeFree (countEdge h c (Config.freeWord s.free).toNat (Config.freeWord (s.free + 1)).toNat
    (Config.freeWord (s.free + 2)).toNat s)))

/-- The edge that ends a phase, counted where its sense is selected. -/
def edgeTaken (h c : Nat) (b : Bool) (w : Word) (s : State) : State :=
  if !edgeSelected w b then s
  else if bit (getChan s h c).stat 10 then freeEdges h c s
  else countEdge h c 1 (edgeStep s) (edgeTime s (edgeStep s)) s

section
variable {w : Word}

theorem edgeTaken_unselected (sel : edgeSelected w b = false) (s : State) : edgeTaken h c b w s = s := by
  unfold edgeTaken
  rw [if_pos (by rw [sel]; rfl)]

theorem edgeTaken_high (sel : edgeSelected w b = true) (high : bit (getChan s h c).stat 10 = true) :
    edgeTaken h c b w s = freeEdges h c s := by
  unfold edgeTaken
  rw [if_neg (by rw [sel]; decide), if_pos high]

theorem edgeTaken_low (sel : edgeSelected w b = true) (low : bit (getChan s h c).stat 10 = false) :
    edgeTaken h c b w s = countEdge h c 1 (edgeStep s) (edgeTime s (edgeStep s)) s := by
  unfold edgeTaken
  rw [if_neg (by rw [sel]; decide), if_neg (by rw [low]; decide)]

end

/-- What a pulse edge may change before its hall's report. -/
structure PulseMove (h : Nat) (s t : State) : Prop where
  parts : changesOnly [.chans, .free] s t
  apart : Apart h s t

theorem PulseMove.of_oneChan (hc : c < 4) (a : OneChan h c s t) : PulseMove h s t := ⟨a.parts.mono rfl, (a.within hc).2⟩

theorem takeFree_apart (s : State) : Apart h s (takeFree s) :=
  apart_of_changes (F := [.free]) (takeFree_changes rfl (.refl _ s)) (by decide)

theorem freeEdges_move (hc : c < 4) (s : State) : PulseMove h s (freeEdges h c s) := by
  have counted : PulseMove h s (countEdge h c (Config.freeWord s.free).toNat (Config.freeWord (s.free + 1)).toNat
    (Config.freeWord (s.free + 2)).toNat s) := .of_oneChan hc (.updChan (.refl h c s))
  exact ⟨takeFree_changes rfl (takeFree_changes rfl (takeFree_changes rfl counted.parts)),
    ((counted.apart.trans (takeFree_apart _)).trans (takeFree_apart _)).trans (takeFree_apart _)⟩

theorem getChan_freeEdges (h c : Nat) (s : State) : getChan (freeEdges h c s) h c =
    edgesCounted (Config.freeWord s.free).toNat (Config.freeWord (s.free + 1)).toNat (Config.freeWord (s.free + 2)).toNat
      (getChan s h c) := by
  unfold freeEdges
  rw [← getChan_countEdge]
  unfold getChan
  rw [(takeFree_changes (F := [.free]) rfl (takeFree_changes rfl (takeFree_changes rfl (.refl _ _))) .chans (by decide) :
    (takeFree (takeFree (takeFree _))).chans = _)]

theorem edgeTaken_move {w : Word} (hc : c < 4) (s : State) : PulseMove h s (edgeTaken h c b w s) := by
  have none : PulseMove h s s := .of_oneChan hc (.refl h c s)
  have one : PulseMove h s (countEdge h c 1 (edgeStep s) (edgeTime s (edgeStep s)) s) := .of_oneChan hc (.updChan (.refl h c s))
  unfold edgeTaken
  split
  · exact none
  · split
    · exact freeEdges_move hc s
    · exact one

theorem stat_edgeTaken {w : Word} (s : State) : (getChan (edgeTaken h c b w s) h c).stat = (getChan s h c).stat := by
  unfold edgeTaken
  split
  · rfl
  · split
    · rw [getChan_freeEdges]; rfl
    · rw [getChan_countEdge]; rfl

end

section
variable {h : Hall} {c : Chan} {b : Bool} {ns : Nat} {r : PulseReport} {s t : State}

theorem exec_pulseEdge (hu : (getHall s h).up = true) : exec (.pulseEdge h c b ns) s = done (report h
    (if modeOf s h c ≠ 4 ∨ !s.clk.modclk ∨ ns < 1000 * bits (chCfgW s h c) 16 14 then s
     else edgeTaken h c b (chCfgW s h c) (phaseEnded h c ns s))) := by
  show execPulseEdge h c b ns s = _
  unfold execPulseEdge
  exact hallDo_up hu

/-- The frame of a pulse edge. -/
theorem PulseMove.frame (hs : Inv s) (a : PulseMove h s t) : framed [.regs, .halls, .chans, .per, .bb, .free] s (settle (report h t)) ∧
    regsOutside (hallRegs h) s (settle (report h t)) ∧ hallApart h s (settle (report h t)) ∧ onlyVstates s (settle (report h t)) :=
  report_frame hs rfl (by decide) (a.parts.mono rfl) (.skip a.parts (by decide) (.refl _ _)) a.apart

theorem phaseEnded_move (hc : c.val < 4) (s : State) : PulseMove h s (phaseEnded h c ns s) :=
  .of_oneChan hc (.ite (.chFlag (.refl h c s)) (.refl h c s))

theorem PulseMove.trans {u : State} {h : Nat} (a : PulseMove h s t) (k : PulseMove h t u) : PulseMove h s u :=
  ⟨a.parts.trans k.parts, a.apart.trans k.apart⟩

theorem phaseEnded_flag (h c ns : Nat) (s : State) :
    bit (getChan (phaseEnded h c ns s) h c).stat 10 = (bit (getChan s h c).stat 10 || decide (ns < 10000)) := by
  unfold phaseEnded
  split
  next k => rw [bit_chFlag (by decide), decide_eq_true k, Bool.or_true]
  next k => rw [decide_eq_false k, Bool.or_false]

/-- A phase that leaves FREQ_HIGH clear moved no flag. -/
theorem phaseEnded_quiet {h c : Nat} (k : bit (getChan (phaseEnded h c ns s) h c).stat 10 = false) : phaseEnded h c ns s = s := by
  rw [phaseEnded_flag] at k
  have long : ¬ ns < 10000 := fun n => by simp [n] at k
  exact if_neg long

/-- A view of the channel but for its flags. -/
theorem phaseEnded_alike {α : Type} {p : ChanState → α} (hp : ∀ x w e, p { x with stat := w, evt := e } = p x) (h c ns : Nat) (s : State) :
    chansAlike p s (phaseEnded h c ns s) := .ite (chFlag_alike hp (.refl p s)) (.refl p s)

/-- What a phase that counts leaves of its channel `x`, of which `s` was the state. -/
def edgeOutcome (h c : Nat) (b : Bool) (ns : Nat) (s : State) (y : ChanState) : Prop :=
  let x := getChan s h c
  let w := chCfgW s h c
  bit y.stat 10 = (bit x.stat 10 || decide (ns < 10000)) ∧
  (edgeSelected w b = false → y.pcnt = x.pcnt ∧ y.plast = x.plast) ∧
  (edgeSelected w b = true → bit y.stat 10 = false →
    y.pstep = some (edgeStep s) ∧ y.acc = x.acc + 1 ∧ y.pcnt = (x.pcnt + 1) % 2 ^ 32 ∧
      y.plast = some (edgeTime s (edgeStep s)) ∧ y.accLast = edgeTime s (edgeStep s) ∧
      (∀ j, x.pstep = some j → j ≤ edgeStep s → (edgeStep s - j) * 15625 / 4096 ≤ 0xFFFFFFFF →
        y.pper = some ((edgeStep s - j) * 15625 / 4096))) ∧
  (edgeSelected w b = true → bit y.stat 10 = true →
    ∃ n now, y.acc = x.acc + n ∧ y.pcnt = (x.pcnt + n) % 2 ^ 32 ∧ y.plast = some now ∧ y.accLast = now)

theorem edgeOutcome_taken (h c : Nat) (b : Bool) (ns : Nat) (s : State) :
    edgeOutcome h c b ns s (getChan (edgeTaken h c b (chCfgW s h c) (phaseEnded h c ns s)) h c) := by
  have stat : (getChan (edgeTaken h c b (chCfgW s h c) (phaseEnded h c ns s)) h c).stat = (getChan (phaseEnded h c ns s) h c).stat :=
    stat_edgeTaken _
  have same {α : Type} {p : ChanState → α} (hp : ∀ x w e, p { x with stat := w, evt := e } = p x) :
      p (getChan (phaseEnded h c ns s) h c) = p (getChan s h c) := phaseEnded_alike hp h c ns s h c
  unfold edgeOutcome
  rw [stat]
  refine ⟨phaseEnded_flag h c ns s, fun sel => ?_, fun sel low => ?_, fun sel high => ?_⟩
  · rw [edgeTaken_unselected sel]
    exact ⟨same (p := ChanState.pcnt) (fun _ _ _ => rfl), same (p := ChanState.plast) (fun _ _ _ => rfl)⟩
  · have quiet := phaseEnded_quiet low
    rw [quiet] at low ⊢
    rw [edgeTaken_low sel low, getChan_countEdge]
    exact edgesCounted_fields 1 (edgeStep s) (edgeTime s (edgeStep s)) (getChan s h c)
  · rw [edgeTaken_high sel high, getChan_freeEdges]
    obtain ⟨-, acc, pcnt, last, accLast, -⟩ := edgesCounted_fields (Config.freeWord (phaseEnded h c ns s).free).toNat
      (Config.freeWord ((phaseEnded h c ns s).free + 1)).toNat (Config.freeWord ((phaseEnded h c ns s).free + 2)).toNat
      (getChan (phaseEnded h c ns s) h c)
    rw [same (p := ChanState.acc) fun _ _ _ => rfl] at acc
    rw [same (p := ChanState.pcnt) fun _ _ _ => rfl] at pcnt
    exact ⟨_, _, acc, pcnt, last, accLast⟩

/-- No free value is taken where the number of edges is guaranteed. -/
theorem free_edgeTaken {h c : Nat} (sel : edgeSelected (chCfgW s h c) b = true)
    (low : bit (getChan (phaseEnded h c ns s) h c).stat 10 = false) :
    (edgeTaken h c b (chCfgW s h c) (phaseEnded h c ns s)).free = s.free := by
  have quiet := phaseEnded_quiet low
  rw [quiet] at low ⊢
  rw [edgeTaken_low sel low]
  unfold countEdge
  exact updChan_changes (F := [.chans]) rfl (.refl _ s) .free (by decide)

theorem pulseEdge_next (hs : Inv s) (hu : (getHall s h).up = true) :
    ∃ t, exec (.pulseEdge h c b ns) s = .next t ∧ framed [.regs, .halls, .chans, .per, .bb, .free] s t ∧
      regsOutside (hallRegs h) s t ∧ hallApart h s t ∧ onlyVstates s t ∧
      (if modeOf s h c ≠ 4 ∨ s.clk.modclk = false ∨ ns < 1000 * bits (chCfgW s h c) 16 14 then
        (getChan t h c).pcnt = (getChan s h c).pcnt ∧ (getChan t h c).stat = (getChan s h c).stat
      else edgeOutcome h c b ns s (getChan t h c) ∧
        (edgeSelected (chCfgW s h c) b = true → bit (getChan t h c).stat 10 = false → t.free = s.free)) := by
  have e := exec_pulseEdge (c := c) (b := b) (ns := ns) hu
  by_cases hm : modeOf s h c ≠ 4 ∨ s.clk.modclk = false ∨ ns < 1000 * bits (chCfgW s h c) 16 14
  · rw [if_pos (by simpa using hm)] at e
    obtain ⟨frame, regs, hall, vstates⟩ := PulseMove.frame hs (.of_oneChan c.isLt (.refl h c s))
    refine ⟨_, e, frame, regs, hall, vstates, ?_⟩
    rw [if_pos hm]
    exact of_report (P := fun y => y.pcnt = (getChan s h c).pcnt ∧ y.stat = (getChan s h c).stat) (fun _ _ _ => rfl) ⟨rfl, rfl⟩
  · rw [if_neg (by simpa using hm)] at e
    let u := edgeTaken h c b (chCfgW s h c) (phaseEnded h c ns s)
    obtain ⟨frame, regs, hall, vstates⟩ := PulseMove.frame hs ((phaseEnded_move (ns := ns) c.isLt s).trans
      (edgeTaken_move (b := b) (w := chCfgW s h c) c.isLt _))
    refine ⟨_, e, frame, regs, hall, vstates, ?_⟩
    rw [if_neg hm]
    refine ⟨of_report (P := edgeOutcome h c b ns s) (fun _ _ _ => rfl) (edgeOutcome_taken h c b ns s), fun sel low => ?_⟩
    rw [stat_chan_report, stat_edgeTaken] at low
    have kept : (settle (report h u)).free = u.free :=
      settle_changes (F := [.regs, .halls, .chans, .per, .bb, .pins]) rfl (report_changes rfl (.refl _ u)) .free (by decide)
    exact kept.trans (free_edgeTaken sel low)

theorem exec_freqHighClear (hu : (getHall s h).up = true) : exec (.freqHighClear h c) s = done (report h (chFlag h c 10 false s)) := by
  show execFreqHighClear h c s = _
  unfold execFreqHighClear
  exact hallDo_up hu

theorem freqHighClear_next (hs : Inv s) (hu : (getHall s h).up = true) : ∃ t, exec (.freqHighClear h c) s = .next t ∧
    (getChan t h c).stat = putBit (getChan s h c).stat 10 false ∧ hallOnly h s t :=
  ⟨_, exec_freqHighClear hu, (stat_chan_report ..).trans (stat_chFlag ..), OneChan.frame hs c.isLt (.chFlag (.refl h c s))⟩

end

end Sys2Proof.Machine

namespace Sys2Proof.Machine

/-! PULSE_DELIVERY (R44, R367, R401). -/

section
variable {h : Hall} {c : Chan} {r : PulseReport} {s t : State}

/-- What a channel delivers: the edges counted since its last delivery. -/
def delivery (x : ChanState) : Deliv :=
  { idx := (x.delivN + 1) % 2 ^ 32, edges := x.acc, first := x.accFirst, last := x.accLast, high := bit x.stat 10 }

/-- Channel `c` with its edges handed over. -/
def delivered (h c : Nat) (r : PulseReport) (d : Deliv) (s : State) : State :=
  updChan h c (fun y => { y with
    level := r.level, deliv := if r.fits then y.deliv ++ [d] else y.deliv, delivN := d.idx, acc := 0 }) s

/-- The delivery on its way: dropped where its queue is full, else copied to the partner where the device mirrors. -/
def deliverySent (h c : Nat) (r : PulseReport) (d : Deliv) (u : State) : State :=
  if !r.fits then (if logicUp u then crossingFull 1 u else u)
  else if mirrorSends u then pairSend 3 (delivSlot (tickOf u.time.ring + 1) (4 * h + c)) (delivBytes d) u
  else u

theorem exec_pulseDelivery (hu : (getHall s h).up = true) : exec (.pulseDelivery h c r) s = done (report h
    (if modeOf s h c = 4 then
      deliverySent h c r (delivery (getChan s h c)) (delivered h c r (delivery (getChan s h c)) s)
    else s)) := by
  show execPulseDelivery h c r s = _
  unfold execPulseDelivery
  exact hallDo_up hu

theorem delivered_own (h c : Nat) (r : PulseReport) (d : Deliv) (s : State) :
    let y := getChan (delivered h c r d s) h c
    y.level = r.level ∧ y.acc = 0 ∧ y.delivN = d.idx ∧
      y.deliv = (if r.fits then (getChan s h c).deliv ++ [d] else (getChan s h c).deliv) := by
  unfold delivered
  simp only [getChan_updChan_self, and_self]

theorem deliverySent_changes (h c : Nat) (r : PulseReport) (d : Deliv) (u : State) :
    changesOnly [.regs, .bb, .tx, .pair] u (deliverySent h c r d u) := by
  unfold deliverySent
  exact .ite (.ite (crossingFull_changes rfl (.refl _ u)) (.refl _ u)) (.ite (pairSend_changes rfl (.refl _ u)) (.refl _ u))

theorem deliverySent_regs (h c : Nat) (r : PulseReport) (d : Deliv) (u : State) :
    regsOutside (fun a => a = rBbMissed ∨ a = 0x2930 ∨ a = rEccEvt) u (deliverySent h c r d u) := by
  unfold deliverySent
  exact .ite (.ite (crossingFull_regs (.inr (.inr rfl)) (.inl rfl) (.inr (.inl rfl)) (.refl _ u)) (.refl _ u))
    (.ite (pairSend_regs (.refl _ u)) (.refl _ u))

/-- The words of a crossing that was full are none of the report's. -/
theorem not_hallRegs_crossing (hh : h.val < 8) : ¬ hallRegs h 0x2930 ∧ ¬ hallRegs h rEccEvt := by
  unfold hallRegs rBbMissed rEccEvt rHallEvt rExcEvt rRotEvt aCh aHall aRot aConv
  refine ⟨?_, ?_⟩ <;> rintro (k | k | k | k | k | k | k | k | k | ⟨w, hw, k⟩ | ⟨d, hd, k⟩) <;> omega

/-- The copy of a delivery goes to the partner where the device mirrors. -/
theorem deliverySent_pair (h c : Nat) (r : PulseReport) (d : Deliv) (hs : changesOnly [.chans] s t) :
    if r.fits = true ∧ mirrorSends s = true then
      pairSent 3 (delivSlot (tickOf s.time.ring + 1) (4 * h + c)) (delivBytes d) s (deliverySent h c r d t)
    else (deliverySent h c r d t).tx = s.tx ∧ (deliverySent h c r d t).pair = s.pair := by
  have reg := getReg_congr (hs .regs (by decide)) rPairCfg
  have clk := hs .clk (by decide)
  have pair := hs .pair (by decide)
  have tx := hs .tx (by decide)
  have time := hs .time (by decide)
  have sends : mirrorSends t = mirrorSends s := mirrorSends_congr reg clk pair
  unfold deliverySent
  cases fits : r.fits with
  | false =>
    rw [if_neg (by simp), if_pos (by decide)]
    have k : changesOnly [.regs, .bb] t (if logicUp t then crossingFull 1 t else t) := .ite (crossingFull_changes rfl (.refl _ t)) (.refl _ t)
    exact ⟨(k .tx (by decide)).trans tx, (k .pair (by decide)).trans pair⟩
  | true =>
    rw [if_neg (show ¬ (!true) = true by decide), sends, time]
    cases mirror : mirrorSends s with
    | false => simpa using ⟨tx, pair⟩
    | true =>
      simp only [and_self, if_true]
      exact pairSent_congr reg clk pair tx rfl rfl (pairSent_pairSend 3 _ _ t)

theorem pulseDelivery_next (hs : Inv s) (hu : (getHall s h).up = true) :
    ∃ t, exec (.pulseDelivery h c r) s = .next t ∧ framed [.regs, .halls, .chans, .per, .bb, .pair, .tx] s t ∧
      regsOutside (fun a => hallRegs h a ∨ a = 0x2930 ∨ a = rEccEvt) s t ∧ hallApart h s t ∧ onlyVstates s t ∧
      (if modeOf s h c = 4 then
        let d := delivery (getChan s h c)
        (getChan t h c).level = r.level ∧ (getChan t h c).acc = 0 ∧ (getChan t h c).delivN = d.idx ∧
          (getChan t h c).deliv = (if r.fits then (getChan s h c).deliv ++ [d] else (getChan s h c).deliv) ∧
          (if r.fits = true ∧ mirrorSends s = true then
            pairSent 3 (delivSlot (tickOf s.time.ring + 1) (4 * h + c)) (delivBytes d) s t
          else t.tx = s.tx ∧ t.pair = s.pair) ∧
          (r.fits = false → logicUp s = true → bits (getReg t 0x2930) 31 28 = 1 ∧ bit (getReg t rEccEvt) 2 = true)
      else (getChan t h c).deliv = (getChan s h c).deliv ∧ (getChan t h c).acc = (getChan s h c).acc ∧ t.tx = s.tx ∧ t.pair = s.pair) := by
  have e := exec_pulseDelivery (c := c) (r := r) hu
  by_cases hm : modeOf s h c = 4
  · rw [if_pos hm] at e
    let d := delivery (getChan s h c)
    let u := delivered h c r d s
    let v := deliverySent h c r d u
    have one : OneChan h c s u := .updChan (.refl h c s)
    have sent : changesOnly [.regs, .bb, .tx, .pair] u v := deliverySent_changes h c r d u
    have shown : changesOnly [.regs, .halls, .chans, .per, .bb, .pins] v (settle (report h v)) := settle_changes rfl (report_changes rfl (.refl _ v))
    have apart : Apart h s (settle (report h v)) := settle_apart (report_apart ((one.within c.isLt).2.trans (apart_of_changes sent (by decide))))
    have regs : regsOutside (hallRegs h) v (settle (report h v)) := settle_regsOutside (report_regs (fun _ => id) (.inl rfl) (.refl _ v))
    have chan {α : Type} {p : ChanState → α} (hp : ∀ x e a, p { x with evt := e, ainEvt := a } = p x) :
        p (getChan (settle (report h v)) h c) = p (getChan u h c) :=
      (getChan_report hp h c v).trans (chansAlike.skip sent (by decide) (.refl p u) h c)
    obtain ⟨level, acc, num, deliv⟩ := delivered_own h c r d s
    refine ⟨_, e, framed_settle hs ?_ (by decide), ?_, apart.1, apart.2, ?_⟩
    · exact report_changes rfl ((one.parts.mono rfl).trans (sent.mono rfl))
    · refine regsOutside.trans ((regsOutside.skip one.parts (by decide) (.refl _ s)).trans ((deliverySent_regs h c r d u).mono ?_))
        (regs.mono fun _ => .inl)
      rintro a (k | k | k)
      · exact .inl (.inl k)
      · exact .inr (.inl k)
      · exact .inr (.inr k)
    · rw [if_pos hm]
      refine ⟨(chan (p := ChanState.level) fun _ _ _ => rfl).trans level, (chan (p := ChanState.acc) fun _ _ _ => rfl).trans acc,
        (chan (p := ChanState.delivN) fun _ _ _ => rfl).trans num, (chan (p := ChanState.deliv) fun _ _ _ => rfl).trans deliv, ?_, ?_⟩
      · have pairs := deliverySent_pair h c r d one.parts
        have tx : (settle (report h v)).tx = v.tx := shown .tx (by decide)
        have pair : (settle (report h v)).pair = v.pair := shown .pair (by decide)
        split at pairs
        next k =>
          rw [if_pos k]
          exact pairSent_congr rfl rfl rfl rfl pair tx pairs
        next k =>
          rw [if_neg k, tx, pair]
          exact pairs
      · intro full up
        obtain ⟨row, evt⟩ := not_hallRegs_crossing (h := h) h.isLt
        have v_eq : v = crossingFull 1 u := by
          have k : logicUp u = true := (logicUp_congr (one.parts .clk (by decide))).trans up
          exact (if_pos (by rw [full]; rfl)).trans (if_pos k)
        obtain ⟨ecc, crossing⟩ := crossingFull_shown (row := 1) (by decide) u
        rw [regs _ row, regs _ evt, v_eq]
        exact ⟨crossing, ecc⟩
  · rw [if_neg hm] at e
    obtain ⟨frame, regs, hall, vstates⟩ := OneChan.frame hs c.isLt (.refl h c s)
    refine ⟨_, e, ⟨frame.1.mono (by decide), frame.2⟩, regs.mono fun _ => .inl, hall, vstates, ?_⟩
    rw [if_neg hm]
    have chan : (getChan (settle (report h s)) h c).deliv = (getChan s h c).deliv ∧ (getChan (settle (report h s)) h c).acc = (getChan s h c).acc :=
      of_report (P := fun y => y.deliv = (getChan s h c).deliv ∧ y.acc = (getChan s h c).acc) (fun _ _ _ => rfl) ⟨rfl, rfl⟩
    exact ⟨chan.1, chan.2, frame.1 .tx (by decide), frame.1 .pair (by decide)⟩

/-- Settles O38: each input reports in its own modes through the hall's report; a band, an edge or a delivery that its mode does not
take leaves the channel as it was. -/
theorem channelInputsFollowTheirTerminals : Obligations.ChannelInputsFollowTheirTerminals := by
  intro h c b i ns r s hs
  refine ⟨fun hd k hk => ?_, fun hu => ⟨stateEvt_next hs hu, wireBreakMeasure_next hs hu, ?_, freqHighClear_next hs hu, pulseDelivery_next hs hu⟩⟩
  · simp only [List.mem_cons, List.not_mem_nil, or_false] at hk
    rcases hk with rfl | rfl | rfl | rfl | rfl
    · exact next_down (execStateEvt h c b s) rfl rfl hs hd
    · exact next_down (execWireBreakMeasure h c i s) rfl rfl hs hd
    · exact next_down (execPulseEdge h c b ns s) rfl rfl hs hd
    · exact next_down (f := chFlag h c 10 false) (execFreqHighClear h c s) rfl rfl hs hd
    · exact next_down (execPulseDelivery h c r s) rfl rfl hs hd
  · obtain ⟨t, e, frame, regs, hall, vstates, outcome⟩ := pulseEdge_next (c := c) (b := b) (ns := ns) hs hu
    refine ⟨t, e, frame, regs, hall, vstates, ?_⟩
    unfold modeOf at outcome
    split at outcome
    next k => rw [if_pos k]; exact outcome
    next k =>
      rw [if_neg k]
      obtain ⟨⟨flag, unselected, counted, free⟩, kept⟩ := outcome
      refine ⟨flag, unselected, fun sel low => ?_, free⟩
      obtain ⟨step, acc, pcnt, last, accLast, per⟩ := counted sel low
      exact ⟨step, acc, pcnt, kept sel low, last, accLast, per⟩

end

end Sys2Proof.Machine

namespace Sys2Proof.Machine

/-! The forms of a hall's shared channels (R373): what taking one leaves. -/

/-- From `s` to `t` hall `h` moved with its channels and its converters, nothing else. -/
structure Formed (h : Nat) (s t : State) : Prop where
  parts : changesOnly [.halls, .chans, .convs] s t
  apart : Apart h s t
  convs : convsOutside (fun n => n / 2 = h) s t

/-- A hall but for its rotation and for when its next switched output may follow. -/
def hallRest (x : HallState) : HallState := { x with rot := rotReset, nextOn := 0 }

section
variable {h c d : Nat} {s t u : State}

theorem Formed.refl (h : Nat) (s : State) : Formed h s s := ⟨.refl _ s, .refl h s, .refl _ s⟩

theorem Formed.trans (a : Formed h s t) (k : Formed h t u) : Formed h s u :=
  ⟨a.parts.trans k.parts, a.apart.trans k.apart, a.convs.trans k.convs⟩

theorem Formed.ite {p : Prop} [Decidable p] (a : Formed h s t) (k : Formed h s u) : Formed h s (if p then t else u) := by
  split <;> assumption

theorem Formed.of_within (a : Within h s t) : Formed h s t := ⟨a.1.mono rfl, a.2, .skip a.1 (by decide) (.refl _ s)⟩

theorem Formed.forChans {f : Nat → State → State} (hf : ∀ c < 4, ∀ u, Formed h u (f c u)) (a : Formed h s t) :
    Formed h s (forChans f t) :=
  a.trans ((((hf 0 (by decide) _).trans (hf 1 (by decide) _)).trans (hf 2 (by decide) _)).trans (hf 3 (by decide) _))

theorem Formed.restartChannel (c before t16 : Nat) (s : State) : Formed h s (restartChannel h c before t16 s) :=
  ⟨restartChannel_changes rfl (.refl _ s), restartChannel_apart c before t16 s, restartChannel_hall c before t16 s⟩

theorem Formed.oneChan (hc : c < 4) (a : OneChan h c s t) : Formed h s t := .of_within (a.within hc)

theorem Formed.inputForm (hc : c < 4) (m a e : Nat) (s : State) : Formed h s (inputForm h c m a e s) := by
  unfold Machine.inputForm
  exact (Formed.oneChan hc (.riskOf (.updChan (.refl h c s)))).trans (.restartChannel ..)

theorem Formed.standbyForm (hc : c < 4) (s : State) : Formed h s (standbyForm h c s) :=
  .ite (.ite (.inputForm hc ..) (.ite (.oneChan hc (.resolve (.updChan (.refl h c s)))) (.refl h s))) (.refl h s)

theorem Formed.activeForm (hc : c < 4) (s : State) : Formed h s (activeForm h c s) :=
  .ite (.ite (.inputForm hc ..) (.ite (.oneChan hc (.resolve (.updChan (.refl h c s)))) (.refl h s))) (.refl h s)

theorem Formed.roleForm (hc : c < 4) (s : State) : Formed h s (roleForm h c s) :=
  .ite (.refl h s) (.ite (.activeForm hc s) (.oneChan hc (.updChan (.refl h c s))))

/-- A report after it: the answer of a command that may move forms. -/
theorem Formed.frame (hs : Inv s) (a : Formed h s t) : hallForms h s (settle (report h t)) := by
  obtain ⟨frame, regs, hall, vstates⟩ := report_frame (F := [.regs, .halls, .chans, .convs, .per, .bb]) hs rfl (by decide)
    (a.parts.mono rfl) (.skip a.parts (by decide) (.refl (hallRegs h) s)) a.apart
  exact ⟨frame, regs, hall, vstates, .skip (G := [.regs, .halls, .chans, .per, .bb, .pins])
    (settle_changes rfl (report_changes rfl (.refl _ t))) (by decide) a.convs⟩

/-! What taking a form leaves of the hall. -/

theorem restartedOn_rest (c before t16 n : Nat) (s : State) : hallsAlike hallRest s (restartedOn h c before t16 n s) := by
  have drop : hallsAlike hallRest s (dropShadow h s) := by
    unfold dropShadow
    exact .updHall (fun _ => rfl) (.skip (F := [.convs]) (leaveShadow_changes rfl (leaveShadow_changes rfl (.refl _ s))) (by decide)
      (.refl _ s))
  have again : hallsAlike hallRest s (restartAt n t16 (discardOpen n s)) :=
    .skip (F := [.convs]) (restartAt_changes rfl (discardOpen_changes rfl (.refl _ s))) (by decide) (.refl _ s)
  exact .ite (.ite again drop) (.refl _ s)

theorem restartChannel_rest (c before t16 : Nat) (s : State) : hallsAlike hallRest s (restartChannel h c before t16 s) :=
  (restartedOn_rest c before t16 (2 * h) s).trans (restartedOn_rest c before t16 (2 * h + 1) _)

theorem oneChan_rest (a : OneChan h c s t) : hallsAlike hallRest s t := .skip a.parts (by decide) (.refl _ s)

theorem inputForm_rest (c m a e : Nat) (s : State) : hallsAlike hallRest s (inputForm h c m a e s) := by
  let u := riskOf h c (updChan h c (fun x => { x with mode := m, mixFrom := a, mixed := e }) s)
  have moved : hallsAlike hallRest s u := oneChan_rest (OneChan.riskOf (OneChan.updChan (.refl h c s)))
  exact moved.trans (restartChannel_rest c _ _ u)

theorem standbyForm_rest (c : Nat) (s : State) : hallsAlike hallRest s (standbyForm h c s) := by
  have input : hallsAlike hallRest s (inputForm h c 17 s.time.now s.time.now s) := inputForm_rest c _ _ _ s
  exact .ite (.ite input (.ite (oneChan_rest (.resolve (.updChan (.refl h c s)))) (.refl _ s))) (.refl _ s)

theorem activeForm_rest (c : Nat) (s : State) : hallsAlike hallRest s (activeForm h c s) := by
  have input (m : Nat) : hallsAlike hallRest s (inputForm h c m s.time.now s.time.now s) := inputForm_rest c _ _ _ s
  exact .ite (.ite (input _) (.ite (oneChan_rest (.resolve (.updChan (.refl h c s)))) (.refl _ s))) (.refl _ s)

theorem roleForm_rest (c : Nat) (s : State) : hallsAlike hallRest s (roleForm h c s) :=
  .ite (.refl _ s) (.ite (activeForm_rest c s) (oneChan_rest (OneChan.updChan (.refl h c s))))

theorem leaveAll_rest (l : Latch) (s : State) : hallsAlike hallRest s (leaveAll l h s) := by
  have start : hallsAlike hallRest s (leaveStart h s) := by
    unfold leaveStart
    exact .skip (F := [.chans]) (forChans_into (fun c w => updChan_changes rfl (.refl _ w)) (.refl _ _)) (by decide)
      (.updHall (fun _ => rfl) (.refl _ s))
  have moved : changesOnly [.chans] (policiesFollowed l h s) (leaveAll l h s) := by
    rw [leaveAll_eq]
    exact resolveAll_changes rfl (.refl _ _)
  exact .skip ((policiesFollowed_chans l h s).trans moved) (by decide) start

/-! What a standby form leaves of an output. -/

/-- Another channel's standby form. -/
theorem standbyForm_other (e : d ≠ c) (s : State) : getChan (standbyForm h d s) h c = getChan s h c := by
  have one {u : State} (a : OneChan h d s u) : getChan u h c = getChan s h c := a.others h c (by omega)
  have input (m a b : Nat) : getChan (inputForm h d m a b s) h c = getChan s h c := by
    let v := riskOf h d (updChan h d (fun x => { x with mode := m, mixFrom := a, mixed := b }) s)
    have moved : getChan v h c = getChan s h c := one (.riskOf (.updChan (.refl h d s)))
    have kept (b t16 : Nat) : getChan (restartChannel h d b t16 v) h c = getChan v h c := by
      have k : changesOnly [.halls, .convs] v (restartChannel h d b t16 v) := restartChannel_changes rfl (.refl _ v)
      unfold getChan
      rw [k .chans (by decide)]
    exact (kept ..).trans moved
  unfold standbyForm
  split
  · dsimp only
    split
    · exact input _ _ _
    · split
      · exact one (.resolve (.updChan (.refl h d s)))
      · rfl
  · rfl

/-- An output's own standby form keeps its mode and starts no ramp. -/
theorem standbyForm_output (hm : isOutMode (modeOf s h c) = true) (hr : (getChan s h c).ramp = none) :
    modeOf (standbyForm h c s) h c = modeOf s h c ∧ (getChan (standbyForm h c s) h c).ramp = none := by
  have notInput : ¬ (modeOf s h c = 5 ∨ modeOf s h c = 6) := by
    rintro (k | k) <;> rw [k] at hm <;> exact absurd hm (by decide)
  let u := updChan h c (fun x => { x with idleOut := true }) s
  have own : getChan u h c = { getChan s h c with idleOut := true } := getChan_updChan_self ..
  have idle : modeOf (resolve h c u) h c = modeOf s h c ∧ (getChan (resolve h c u) h c).ramp = none := by
    refine ⟨(resolve_view (q := ChanState.mode) (fun _ => rfl) (.refl _ u) h c).trans (by rw [own]; rfl), ?_⟩
    exact resolve_noNewRamp u h c (by rw [own]; exact hr)
  unfold standbyForm
  split
  · dsimp only
    rw [if_neg notInput]
    split
    · exact idle
    · exact ⟨rfl, hr⟩
  · exact ⟨rfl, hr⟩

theorem forChans_standbyForm (hc : c < 4) (hm : isOutMode (modeOf s h c) = true) (hr : (getChan s h c).ramp = none) :
    modeOf (forChans (standbyForm h) s) h c = modeOf s h c ∧ (getChan (forChans (standbyForm h) s) h c).ramp = none := by
  obtain ⟨u, before, after⟩ := forChans_at (Q := fun s t => getChan t h c = getChan s h c) (f := standbyForm h) (s := s) (fun _ => rfl)
    (fun _ _ _ a b => b.trans a) hc fun d _ e u => standbyForm_other e u
  have key := standbyForm_output (s := u) (h := h) (c := c) (by unfold modeOf; rw [before]; exact hm) (by rw [before]; exact hr)
  unfold modeOf at key ⊢
  rw [after, ← before]
  exact key

end

end Sys2Proof.Machine

namespace Sys2Proof.Machine

/-! Heartbeats to the halls (R32, R362, R383). -/

section
variable {h k i n : Nat} {s t : State}

/-- The heartbeat frame of a hall: its sequence number and section CRC. -/
def heartbeatFrame (s : State) (k : Nat) : TxFrame :=
  ⟨4 + k, leBytes 2 (getHall s k).hbTx ++ leBytes 4 ((getHall s k).crc.getD 0), true⟩

theorem getHall_sendHeartbeat (n : Nat) (s : State) (k : Nat) : getHall (sendHeartbeat n s) k =
    if k = n then { getHall s k with hbTx := ((getHall s k).hbTx + 1) % 65536 } else getHall s k := by
  by_cases e : k = n
  · subst e
    rw [if_pos rfl]
    exact getHall_updHall_self ..
  · rw [if_neg e]
    exact getHall_updHall_other e ..

/-- Heartbeats sent to the halls below `n`. -/
theorem forN_sendHeartbeat (n : Nat) (s : State) :
    (forN n sendHeartbeat s).tx = s.tx ++ (List.range n).map (heartbeatFrame s) ∧
    ∀ k, getHall (forN n sendHeartbeat s) k =
      if k < n then { getHall s k with hbTx := ((getHall s k).hbTx + 1) % 65536 } else getHall s k := by
  induction n with
  | zero => exact ⟨(List.append_nil _).symm, fun k => (if_neg (Nat.not_lt_zero k)).symm⟩
  | succ n ih =>
    obtain ⟨tx, halls⟩ := ih
    have step : forN (n + 1) sendHeartbeat s = sendHeartbeat n (forN n sendHeartbeat s) := by
      unfold forN
      rw [List.range_succ, List.foldl_append]
      rfl
    have own : getHall (forN n sendHeartbeat s) n = getHall s n := (halls n).trans (if_neg (Nat.lt_irrefl n))
    rw [step]
    refine ⟨?_, fun k => ?_⟩
    · have sent : (sendHeartbeat n (forN n sendHeartbeat s)).tx = (forN n sendHeartbeat s).tx ++ [heartbeatFrame (forN n sendHeartbeat s) n] := rfl
      have frame : heartbeatFrame (forN n sendHeartbeat s) n = heartbeatFrame s n := by
        unfold heartbeatFrame
        rw [own]
      rw [sent, tx, frame, List.range_succ, List.map_append, List.append_assoc]
      rfl
    · rw [getHall_sendHeartbeat, halls k]
      by_cases e : k = n
      · rw [if_pos e, if_neg (by omega), if_pos (by omega)]
      · rw [if_neg e]
        by_cases lt : k < n
        · rw [if_pos lt, if_pos (by omega)]
        · rw [if_neg lt, if_neg (by omega)]

/-- A check-in noted, the excuse of a reload not yet ended. -/
def checkNoted (i : Nat) (s : State) : State :=
  if s.wd.checked.testBit i then modReg rWdCount (fun w => w + 1) s
  else { s with wd := { s.wd with checked := s.wd.checked + 2 ^ i } }

theorem wd_checkIn (i : Nat) (s : State) : (checkIn i s).wd = (checkNoted i s).wd := by
  have e : checkIn i s = if (checkNoted i s).img.excuse.testBit i && !((checkNoted i s).img.reloads.any fun r => r.hall = i && !r.flights) then
    { checkNoted i s with img := { (checkNoted i s).img with excuse := (checkNoted i s).img.excuse - 2 ^ i } } else checkNoted i s := rfl
  rw [e]
  generalize checkNoted i s = u
  split <;> rfl

/-- The slot that checks in has checked in. -/
theorem checked_checkIn (i : Nat) (s : State) : (checkIn i s).wd.checked.testBit i = true := by
  rw [wd_checkIn]
  unfold checkNoted
  cases e : s.wd.checked.testBit i with
  | true =>
    rw [if_pos rfl]
    exact e
  | false =>
    rw [if_neg (by decide)]
    show (s.wd.checked + 2 ^ i).testBit i = true
    rw [Nat.add_comm, Nat.testBit_two_pow_add_eq, e]
    rfl

theorem hallHeartbeatSend_off (hs : Inv s) (ha : heartbeatAllowed s = false) :
    ∃ t, exec .hallHeartbeatSend s = .next t ∧ framed [] s t := by
  refine ⟨settle s, ?_, framed_settle hs (.refl _ s) (by decide)⟩
  show done (if heartbeatAllowed s then checkIn 13 (forHalls sendHeartbeat s) else s) = _
  rw [if_neg (by rw [ha]; decide)]
  rfl

theorem hallHeartbeatSend_on (hs : Inv s) (ha : heartbeatAllowed s = true) :
    ∃ t, exec .hallHeartbeatSend s = .next t ∧ t.tx = s.tx ++ (List.range 8).map (heartbeatFrame s) ∧
      (∀ k < 8, getHall t k = { getHall s k with hbTx := ((getHall s k).hbTx + 1) % 65536 }) ∧
      t.wd.checked.testBit 13 = true ∧ framed [.regs, .halls, .img, .wd, .tx] s t ∧ regsOutside (· = rWdCount) s t := by
  obtain ⟨tx, halls⟩ := forN_sendHeartbeat 8 s
  let u := forN 8 sendHeartbeat s
  have sent : changesOnly [.tx, .halls] s u := forHalls_into (fun _ v => sendHeartbeat_changes rfl (.refl _ v)) (.refl _ s)
  have checked : changesOnly [.regs, .wd, .img] u (checkIn 13 u) := checkIn_changes rfl (.refl _ u)
  have rest : changesOnly [.regs, .wd, .img, .bb, .pins] u (settle (checkIn 13 u)) := settle_changes rfl (checked.mono rfl)
  have e : exec .hallHeartbeatSend s = .next (settle (checkIn 13 u)) := by
    show done (if heartbeatAllowed s then checkIn 13 (forHalls sendHeartbeat s) else s) = _
    rw [if_pos ha]
    rfl
  refine ⟨_, e, (rest .tx (by decide)).trans tx, fun k hk => ?_, ?_, framed_settle hs ((sent.mono rfl).trans (checked.mono rfl)) (by decide), ?_⟩
  · have same : getHall (settle (checkIn 13 u)) k = getHall u k := by
      unfold getHall
      rw [rest .halls (by decide)]
    rw [same, halls k, if_pos hk]
  · rw [wd_settle]
    exact checked_checkIn 13 u
  · exact settle_regsOutside (checkIn_regs rfl ((regsOutside.refl _ s).skip sent (by decide)))

end

section
variable {h : Hall} {good : Bool} {seq : BitVec 16} {s t : State}

/-- A valid heartbeat of a hall: its sequence number is kept. -/
def heartbeatKept (h : Nat) (seq : BitVec 16) (s : State) : State := updHall h (fun x => { x with hbSeq := some seq.toNat }) s

/-- A view of the halls but for a hall's flags and its kept events. -/
theorem hallFlag_alike {α : Type} {p : HallState → α} (hp : ∀ x w e, p { x with stat := w, evt := e } = p x) (h i : Nat) (b : Bool)
    (s : State) : hallsAlike p s (hallFlag h i b s) := .updHall (fun x => hp x _ _) (.refl p s)

/-- The release of a hall ends HB_SAFE. -/
theorem releaseHall_hall {h : Nat} : bit (getHall (releaseHall h s) h).stat 5 = false ∧
    (getHall (releaseHall h s) h).hbSeq = (getHall s h).hbSeq := by
  let u := hallFlag h 6 (forceOn s h) (hallFlag h 5 false s)
  by_cases lost : bit (getHall s h).stat 5 = true
  · have e : releaseHall h s = leaveAll .safe h (forChans (roleForm h) u) := if_pos lost
    have rest : hallsAlike hallRest u (releaseHall h s) := by
      rw [e]
      exact (hallsAlike.forChans (fun c v => roleForm_rest c v) (.refl _ u)).trans (leaveAll_rest .safe _)
    have stat : (getHall (releaseHall h s) h).stat = (getHall u h).stat :=
      (congrArg HallState.stat (rest h) : (hallRest _).stat = (hallRest _).stat)
    have seq : (getHall (releaseHall h s) h).hbSeq = (getHall u h).hbSeq :=
      (congrArg HallState.hbSeq (rest h) : (hallRest _).hbSeq = (hallRest _).hbSeq)
    rw [stat, seq]
    refine ⟨?_, ?_⟩
    · rw [stat_hallFlag, bit_putBit_other _ (by decide) (by decide), stat_hallFlag]
      exact bit_putBit _ (by decide) _
    · exact ((hallFlag_alike (p := HallState.hbSeq) (fun _ _ _ => rfl) h 6 _ _ h).trans (hallFlag_alike (fun _ _ _ => rfl) h 5 _ s h))
  · have e : releaseHall h s = s := if_neg lost
    rw [e]
    exact ⟨Bool.eq_false_iff.2 lost, rfl⟩

theorem Formed.releaseHall (h : Nat) (s : State) : Formed h s (releaseHall h s) := by
  unfold Machine.releaseHall
  refine .ite ?_ (.refl h s)
  have flags : Formed h s (hallFlag h 6 (forceOn s h) (hallFlag h 5 false s)) := .of_within (.hallFlag (.hallFlag (.refl h s)))
  exact (flags.forChans fun c hc u => .roleForm hc u).trans (.of_within (.leaveAll (.refl h _)))

theorem heartbeat_invalid (hs : Inv s) (hv : ¬ ((getHall s h).up = true ∧ good = true ∧ (getHall s h).hbSeq ≠ some seq.toNat)) :
    ∃ t, exec (.heartbeat h good seq) s = .next t ∧ framed [] s t := by
  refine ⟨settle s, ?_, framed_settle hs (.refl _ s) (by decide)⟩
  show execHeartbeat h good seq s = _
  unfold execHeartbeat
  rw [if_neg (by simpa [and_assoc] using hv)]
  rfl

theorem exec_heartbeat (hv : (getHall s h).up = true ∧ good = true ∧ (getHall s h).hbSeq ≠ some seq.toNat) :
    exec (.heartbeat h good seq) s =
      done (report h (if s.clk.phase = 1 then releaseHall h (heartbeatKept h seq s) else heartbeatKept h seq s)) := by
  show execHeartbeat h good seq s = _
  unfold execHeartbeat
  rw [if_pos (by simpa [and_assoc] using hv)]
  rfl

theorem heartbeat_valid (hs : Inv s) (hv : (getHall s h).up = true ∧ good = true ∧ (getHall s h).hbSeq ≠ some seq.toNat) :
    ∃ t, exec (.heartbeat h good seq) s = .next t ∧ (getHall t h).hbSeq = some seq.toNat ∧
      bit (getHall t h).stat 5 = (bit (getHall s h).stat 5 && s.clk.phase != 1) ∧ hallForms h s t := by
  have own : getHall (heartbeatKept h seq s) h = { getHall s h with hbSeq := some seq.toNat } := getHall_updHall_self ..
  have kept : Formed h s (heartbeatKept h seq s) := .of_within (.updHall (.refl h s))
  have e := exec_heartbeat hv
  by_cases hp : s.clk.phase = 1
  · rw [if_pos hp] at e
    obtain ⟨safe, same⟩ := releaseHall_hall (h := h) (s := heartbeatKept h seq s)
    refine ⟨_, e, ?_, ?_, Formed.frame hs (kept.trans (.releaseHall h _))⟩
    · exact (getHall_report (p := HallState.hbSeq) (fun _ _ _ _ => rfl) h h _).trans (same.trans (by rw [own]))
    · rw [stat_report, safe, hp]
      simp
  · rw [if_neg hp] at e
    refine ⟨_, e, ?_, ?_, Formed.frame hs kept⟩
    · exact (getHall_report (p := HallState.hbSeq) (fun _ _ _ _ => rfl) h h _).trans (by rw [own])
    · rw [stat_report, own]
      have k : (s.clk.phase != 1) = true := by simpa using hp
      rw [k, Bool.and_true]

/-- A hall that lost its heartbeat, its shared channels in their standby form. -/
def heartbeatLost (h : Nat) (s : State) : State := forChans (standbyForm h) (hallEvent h 5 (hallFlag h 5 true s))

theorem heartbeatLost_hall {h : Nat} (s : State) : bit (getHall (heartbeatLost h s) h).stat 5 = true ∧
    bit (getHall (heartbeatLost h s) h).evt 5 = true := by
  let u := hallEvent h 5 (hallFlag h 5 true s)
  have own : getHall u h = { getHall (hallFlag h 5 true s) h with evt := (getHall (hallFlag h 5 true s) h).evt ||| bitMask 5 } :=
    getHall_updHall_self ..
  have rest : hallsAlike hallRest u (heartbeatLost h s) := .forChans (fun c v => standbyForm_rest c v) (.refl _ u)
  have stat : (getHall (heartbeatLost h s) h).stat = (getHall u h).stat :=
      (congrArg HallState.stat (rest h) : (hallRest _).stat = (hallRest _).stat)
  have evt : (getHall (heartbeatLost h s) h).evt = (getHall u h).evt :=
      (congrArg HallState.evt (rest h) : (hallRest _).evt = (hallRest _).evt)
  rw [stat, evt, own]
  refine ⟨?_, bit_or_bitMask _ (by decide)⟩
  exact (congrArg (bit · 5) (stat_hallFlag h 5 true s)).trans (bit_putBit _ (by decide) _)

theorem exec_hbLoss (hu : (getHall s h).up = true) : exec (.hbLoss h) s = done (report h (resolveAll h (heartbeatLost h s))) := by
  show execHbLoss h s = _
  unfold execHbLoss
  rw [if_pos hu]
  rfl

theorem hbLoss_next (hs : Inv s) (hu : (getHall s h).up = true) :
    ∃ t, exec (.hbLoss h) s = .next t ∧ bit (getHall t h).stat 5 = true ∧ hallRaised h 5 t ∧
      (∀ c < 4, isOutMode (modeOf s h c) = true → (getChan s h c).ramp = none → outRank t h c = 4 →
        (getChan t h c).drive = safeValue t h c) ∧ hallForms h s t := by
  obtain ⟨safe, kept⟩ := heartbeatLost_hall (h := h) s
  have chans : changesOnly [.chans] (heartbeatLost h s) (resolveAll h (heartbeatLost h s)) := resolveAll_changes rfl (.refl _ _)
  have flags : Formed h s (hallEvent h 5 (hallFlag h 5 true s)) := .of_within (.updHall (.hallFlag (.refl h s)))
  have lost : Formed h s (heartbeatLost h s) := flags.forChans fun c hc u => .standbyForm hc u
  refine ⟨_, exec_hbLoss hu, ?_, hallRaised_report h.isLt (hallRaised_congr chans (.inl kept)), fun c hc hm hr => ?_,
    Formed.frame hs (lost.trans (.of_within (.resolveAll (.refl h _))))⟩
  · rw [stat_report, halls_of_changes chans]
    exact safe
  · have start (d : Nat) : getChan (hallEvent h 5 (hallFlag h 5 true s)) h d = getChan s h d := by
      unfold hallEvent hallFlag
      simp only [getChan_updHall]
    obtain ⟨mode, ramp⟩ := forChans_standbyForm (h := h) (s := hallEvent h 5 (hallFlag h 5 true s)) hc
      (by unfold modeOf; rw [start]; exact hm) (by rw [start]; exact hr)
    refine report_resolveAll_safe hc (.inl safe) ?_ ramp
    have same : modeOf (hallEvent h 5 (hallFlag h 5 true s)) h c = modeOf s h c := congrArg ChanState.mode (start c)
    exact (congrArg isOutMode (mode.trans same)).trans hm

end

end Sys2Proof.Machine

namespace Sys2Proof.Machine

/-! STATUS_FRAME and HALL_DOWN (R32, R34, R401). -/

section
variable {h : Hall} {m : HallMeas} {c : Nat} {s t : State}

theorem statusFrame_idle (hs : Inv s) (hi : (getHall s h).up = false ∨ logicUp s = false) :
    ∃ t, exec (.statusFrame h m) s = .next t ∧ framed [] s t := by
  have off : ((getHall s h).up && logicUp s) = false := by
    rcases hi with k | k <;> simp [k]
  refine ⟨settle s, ?_, framed_settle hs (.refl _ s) (by decide)⟩
  show execStatusFrame h m s = _
  unfold execStatusFrame
  rw [off]
  rfl

theorem statusFrame_dropped (hs : Inv s) (hu : (getHall s h).up = true) (hl : logicUp s = true) (hf : m.fits = false) :
    ∃ t, exec (.statusFrame h m) s = .next t ∧ bits (getReg t 0x2930) 31 28 = 1 ∧ bit (getReg t rEccEvt) 2 = true ∧
      framed [.regs, .bb] s t ∧ regsOutside (fun a => a = 0x2930 ∨ a = rEccEvt ∨ a = rBbMissed) s t := by
  obtain ⟨ecc, row⟩ := crossingFull_shown (row := 1) (by decide) s
  refine ⟨settle (crossingFull 1 s), ?_, ?_, ?_, framed_settle hs (crossingFull_changes rfl (.refl _ s)) (by decide),
    settle_regsOutside (crossingFull_regs (.inr (.inl rfl)) (.inr (.inr rfl)) (.inl rfl) (.refl _ s))⟩
  · show execStatusFrame h m s = _
    unfold execStatusFrame
    rw [if_pos (by rw [hu, hl, hf]; rfl)]
    rfl
  · rw [getReg_settle]
    exact row
  · rw [getReg_settle]
    exact ecc

/-- What a status frame brings besides the hall's report: its measurements, and the end of HALL_DOWN. -/
def frameTaken (h : Nat) (m : HallMeas) (s : State) : State :=
  setReg (aHall h 0x6F) m.cj (setReg (aHall h 0x02) (BitVec.ofNat 32 (min m.vres 65535 * 65536 + min m.vlp 65535))
    (modReg (aHall h 0x03) (fun w => putBit w 0 false)
      (updHall h (fun x => { x with linked := true, vlp := m.vlp, vres := m.vres, cj := m.cj }) s)))

theorem exec_statusFrame (hu : (getHall s h).up = true) (hl : logicUp s = true) (hf : m.fits = true) :
    exec (.statusFrame h m) s = done (report h (readbackState h m.frc (frameTaken h m s))) := by
  show execStatusFrame h m s = _
  unfold execStatusFrame
  rw [if_neg (by rw [hu, hl, hf]; decide), if_pos (by rw [hu, hl]; rfl)]
  rfl

theorem frameTaken_changes (h : Nat) (m : HallMeas) (s : State) : changesOnly [.regs, .halls] s (frameTaken h m s) :=
  setReg_changes rfl (setReg_changes rfl (modReg_changes rfl (updHall_changes rfl (.refl _ s))))

theorem frameTaken_regs (h : Nat) (m : HallMeas) (s : State) :
    regsOutside (fun a => a = aHall h 0x03 ∨ a = aHall h 0x02 ∨ a = aHall h 0x6F) s (frameTaken h m s) :=
  setReg_regs (.inr (.inr rfl)) (setReg_regs (.inr (.inl rfl)) (modReg_regs (.inl rfl)
    ((regsOutside.refl _ s).skip (G := [.halls]) (updHall_changes rfl (.refl _ s)) (by decide))))

theorem getHall_frameTaken (h : Nat) (m : HallMeas) (s : State) : getHall (frameTaken h m s) h =
    { getHall s h with linked := true, vlp := m.vlp, vres := m.vres, cj := m.cj } := by
  unfold frameTaken
  rw [getHall_setReg, getHall_setReg, getHall_modReg, getHall_updHall_self]

theorem frameTaken_apart (h : Nat) (m : HallMeas) (s : State) : Apart h s (frameTaken h m s) :=
  (updHall_apart _ s).trans (apart_of_changes (F := [.regs]) (setReg_changes rfl (setReg_changes rfl (modReg_changes rfl (.refl _ _))))
    (by decide))

/-- The words that a status frame brings. -/
theorem getReg_frameTaken (h : Nat) (m : HallMeas) (s : State) :
    getReg (frameTaken h m s) (aHall h 0x02) = BitVec.ofNat 32 (min m.vres 65535 * 65536 + min m.vlp 65535) ∧
    getReg (frameTaken h m s) (aHall h 0x6F) = m.cj ∧ bit (getReg (frameTaken h m s) (aHall h 0x03)) 0 = false := by
  unfold frameTaken
  refine ⟨?_, getReg_setReg_self .., ?_⟩
  · rw [getReg_setReg_other (by unfold aHall; omega), getReg_setReg_self]
  · rw [getReg_setReg_other (by unfold aHall; omega), getReg_setReg_other (by unfold aHall; omega), getReg_modReg_self]
    exact bit_putBit _ (by decide) _

/-- The part of channel `c` in the readback of the outputs. -/
def readbackOf (h : Nat) (frc : BitVec 4) (c : Nat) (s : State) : State :=
  if modeOf s h c = 13 ∨ modeOf s h c = 14 ∨ modeOf s h c = 16 then chState h c (frc.getLsbD c) s else s

theorem readbackState_eq (h : Nat) (frc : BitVec 4) (s : State) : readbackState h frc s = forChans (readbackOf h frc) s := rfl

theorem readbackOf_oneChan (h : Nat) (frc : BitVec 4) (c : Nat) (s : State) : OneChan h c s (readbackOf h frc c s) :=
  .ite (OneChan.chStateAt (.refl h c s)) (.refl h c s)

theorem Within.readbackState (frc : BitVec 4) (s : State) : Within h s (readbackState h frc s) := by
  rw [readbackState_eq]
  exact .forChans (fun c hc u => (readbackOf_oneChan h frc c u).within hc) (.refl h s)

/-- STATE of a switched output is its readback; the other flags and inputs stay. -/
theorem readbackState_stat (hc : c < 4) (frc : BitVec 4) (s : State) :
    bit (getChan (readbackState h frc s) h c).stat 0 =
      (if modeOf s h c = 13 ∨ modeOf s h c = 14 ∨ modeOf s h c = 16 then frc.getLsbD c else bit (getChan s h c).stat 0) ∧
    ∀ i, 0 < i → bit (getChan (readbackState h frc s) h c).stat i = bit (getChan s h c).stat i := by
  obtain ⟨u, -, -, before, after⟩ := forChans_oneChan (h := h) (Q := fun _ _ => True) (f := readbackOf h frc) (s := s) (fun _ => trivial)
    (fun _ _ _ _ _ => trivial) hc (fun _ _ _ _ => trivial) fun d _ u => readbackOf_oneChan h frc d u
  have mode : modeOf u h c = modeOf s h c := congrArg ChanState.mode before
  rw [readbackState_eq, after]
  unfold readbackOf
  rw [mode]
  split
  · unfold chState
    rw [stat_chStateAt, before]
    exact ⟨bit_putBit _ (by decide) _, fun i hi => bit_putBit_other _ (by decide) (by omega) _⟩
  · rw [before]
    exact ⟨rfl, fun _ _ => rfl⟩

theorem hallRegs_measured (hh : h.val < 8) : ¬ hallRegs h (aHall h 0x02) ∧ ¬ hallRegs h (aHall h 0x6F) := by
  unfold hallRegs rBbMissed rHallEvt rExcEvt rRotEvt aCh aHall aRot aConv
  refine ⟨?_, ?_⟩ <;> rintro (k | k | k | k | k | k | k | k | k | ⟨w, hw, k⟩ | ⟨d, hd, k⟩) <;> omega

/-- HALL_STATUS shows the hall's flags alone where HALL_DOWN is clear. -/
theorem or_and_one {w : Word} (x : Word) (hw : bit w 0 = false) : x ||| (w &&& 1) = x := by
  refine word_ext fun k _ => ?_
  rw [bit_or]
  have e : bit (w &&& 1) k = (bit w k && bit (1 : Word) k) := BitVec.getLsbD_and
  rw [e]
  by_cases k0 : k = 0
  · rw [k0, hw, Bool.false_and, Bool.or_false]
  · have one : bit (1 : Word) k = false := by
      rw [show (1 : Word) = bitMask 0 from rfl, bit_bitMask k (by decide)]
      simpa using k0
    rw [one, Bool.and_false, Bool.or_false]

theorem statusFrame_next (hs : Inv s) (hu : (getHall s h).up = true) (hl : logicUp s = true) (hf : m.fits = true) :
    ∃ t, exec (.statusFrame h m) s = .next t ∧ (getHall t h).linked = true ∧
      (getHall t h).vlp = m.vlp ∧ (getHall t h).vres = m.vres ∧ (getHall t h).cj = m.cj ∧
      getReg t (aHall h 0x02) = BitVec.ofNat 32 (min m.vres 65535 * 65536 + min m.vlp 65535) ∧
      getReg t (aHall h 0x6F) = m.cj ∧ getReg t (aHall h 0x03) = (getHall s h).stat ∧
      (∀ c < 4, getReg t (aCh h c 0x20) = (getChan t h c).stat ∧
        bit (getChan t h c).stat 0 = (if modeOf s h c = 13 ∨ modeOf s h c = 14 ∨ modeOf s h c = 16 then m.frc.getLsbD c
          else bit (getChan s h c).stat 0) ∧
        ∀ i, 0 < i → bit (getChan t h c).stat i = bit (getChan s h c).stat i) ∧
      framed [.regs, .halls, .chans, .per, .bb] s t ∧ hallApart h s t ∧ onlyVstates s t ∧
      regsOutside (fun a => hallRegs h a ∨ a = aHall h 0x02 ∨ a = aHall h 0x6F) s t := by
  let u := frameTaken h m s
  let v := readbackState h m.frc u
  have taken : changesOnly [.regs, .halls] s u := frameTaken_changes h m s
  have back : changesOnly [.chans] u v := readbackState_changes rfl (.refl _ u)
  have hall : getHall v h = { getHall s h with linked := true, vlp := m.vlp, vres := m.vres, cj := m.cj } :=
    (halls_of_changes back h).trans (getHall_frameTaken h m s)
  have chan (c : Nat) : getChan u h c = getChan s h c := by
    unfold getChan
    rw [taken .chans (by decide)]
  have reg (a : Nat) : getReg v a = getReg u a := getReg_congr (back .regs (by decide)) a
  obtain ⟨volts, cj, down⟩ := getReg_frameTaken h m s
  obtain ⟨n02, n6F⟩ := hallRegs_measured (h := h) h.isLt
  have linked : reports v h = true := by
    have up : logicUp v = true := (logicUp_congr ((back .clk (by decide)).trans (taken .clk (by decide)))).trans hl
    unfold reports
    rw [up, hall]
    exact hu
  have view {α : Type} {p : HallState → α} (hp : ∀ x e f g, p { x with evt := e, excEvt := f, rotEvt := g } = p x) :
      p (getHall (settle (report h v)) h) = p (getHall v h) := getHall_report hp h h v
  have shown : regsOutside (hallRegs h) v (settle (report h v)) := settle_regsOutside (report_regs (fun _ => id) (.inl rfl) (.refl _ v))
  have apart : Apart h s (settle (report h v)) := settle_apart (report_apart ((frameTaken_apart h m s).trans (Within.readbackState m.frc u).2))
  refine ⟨_, exec_statusFrame hu hl hf, ?_, ?_, ?_, ?_, ?_, ?_, ?_, fun c hc => ⟨?_, ?_⟩, ?_, apart.1, apart.2, ?_⟩
  · exact (view (p := HallState.linked) fun _ _ _ _ => rfl).trans (by rw [hall])
  · exact (view (p := HallState.vlp) fun _ _ _ _ => rfl).trans (by rw [hall])
  · exact (view (p := HallState.vres) fun _ _ _ _ => rfl).trans (by rw [hall])
  · exact (view (p := HallState.cj) fun _ _ _ _ => rfl).trans (by rw [hall])
  · exact (shown _ n02).trans ((reg _).trans volts)
  · exact (shown _ n6F).trans ((reg _).trans cj)
  · rw [getReg_settle, hallStat_report h.isLt linked, or_and_one _ (by rw [reg]; exact down), hall]
  · rw [getReg_settle, stat_chan_report]
    exact (chanShown_report h.isLt hc linked 0).1
  · obtain ⟨state, others⟩ := readbackState_stat (h := h) hc m.frc u
    have mode : modeOf u h c = modeOf s h c := congrArg ChanState.mode (chan c)
    rw [mode, chan] at state
    rw [stat_chan_report]
    exact ⟨state, fun i hi => (others i hi).trans (by rw [chan])⟩
  · exact framed_settle hs (report_changes rfl ((taken.mono rfl).trans (back.mono rfl))) (by decide)
  · refine ((frameTaken_regs h m s).mono ?_).trans ((regsOutside.skip back (by decide) (.refl _ u)).trans (shown.mono fun _ => .inl))
    rintro a (k | k | k)
    · exact .inl (.inr (.inl k))
    · exact .inr (.inl k)
    · exact .inr (.inr k)

/-- The hall is down: its words are kept and HALL_DOWN shows. -/
def downShown (h : Nat) (s : State) : State := setReg (aHall h 0x03) (putBit (getReg s (aHall h 0x03)) 0 true) (unlink h s)

/-- The event of HALL_DOWN on a rise. -/
def downRaised (h : Nat) (s : State) : State :=
  if bit (getReg s (aHall h 0x03)) 0 then downShown h s else raiseBit (rHallEvt h) 0 (downShown h s)

theorem exec_hallDown (hl : logicUp s = true) : exec (.hallDown h) s = done (downRaised h s) := by
  show execHallDown h s = _
  unfold execHallDown
  rw [if_pos hl]
  rfl

theorem hallDown_idle (hs : Inv s) (hl : logicUp s = false) : ∃ t, exec (.hallDown h) s = .next t ∧ framed [] s t := by
  refine ⟨settle s, ?_, framed_settle hs (.refl _ s) (by decide)⟩
  show execHallDown h s = _
  unfold execHallDown
  rw [if_neg (by rw [hl]; decide)]
  rfl

theorem downRaised_changes (h : Nat) (s : State) : changesOnly [.regs, .bb] (unlink h s) (downRaised h s) :=
  .ite (setReg_changes rfl (.refl _ _)) (raiseBit_changes rfl (setReg_changes rfl (.refl _ _)))

theorem downRaised_regs (h : Nat) (s : State) :
    regsOutside (fun a => a = aHall h 0x03 ∨ a = rHallEvt h ∨ a = rBbMissed) (unlink h s) (downRaised h s) := by
  have shown : regsOutside (fun a => a = aHall h 0x03 ∨ a = rHallEvt h ∨ a = rBbMissed) (unlink h s) (downShown h s) :=
    setReg_regs (.inl rfl) (.refl _ _)
  exact .ite shown (raiseBit_regs (.inr (.inl rfl)) (.inr (.inr rfl)) shown)

theorem downRaised_shown (hh : h.val < 8) : bit (getReg (downRaised h s) (aHall h 0x03)) 0 = true ∧
    (bit (getReg s (aHall h 0x03)) 0 = false → bit (getReg (downRaised h s) (rHallEvt h)) 0 = true) := by
  have shown : bit (getReg (downShown h s) (aHall h 0x03)) 0 = true := by
    unfold downShown
    rw [getReg_setReg_self]
    exact bit_putBit _ (by decide) _
  unfold downRaised
  split
  next k => exact ⟨shown, fun n => absurd (n.symm.trans k) (by decide)⟩
  next k =>
    refine ⟨?_, fun _ => bit_raiseBit (by unfold rHallEvt rBbMissed aHall; omega) (by decide)⟩
    rw [getReg_raiseBit_other (by unfold rHallEvt aHall; omega) (by unfold rBbMissed aHall; omega)]
    exact shown

/-- HALL_DOWN, its event and the missed entries are no words of the hall's state. -/
theorem heldAddrs_apart {a : Nat} (hh : h.val < 8) (ha : a ∈ heldAddrs h) : ¬ (a = aHall h 0x03 ∨ a = rHallEvt h ∨ a = rBbMissed) := by
  have := heldAddrs_range hh ha
  unfold rHallEvt rBbMissed aHall
  omega

theorem hallDown_next (hs : Inv s) (hl : logicUp s = true) :
    ∃ t, exec (.hallDown h) s = .next t ∧ (getHall t h).linked = false ∧ bit (getReg t (aHall h 0x03)) 0 = true ∧
      (bit (getReg s (aHall h 0x03)) 0 = false → bit (getReg t (rHallEvt h)) 0 = true) ∧
      (∀ a ∈ heldAddrs h, liveWord t a = liveWord s a) ∧ framed [.regs, .halls, .bb] s t ∧ hallApart h s t ∧
      regsOutside (fun a => a = aHall h 0x03 ∨ a = rHallEvt h ∨ a = rBbMissed ∨ a ∈ heldAddrs h) s t := by
  have ended : changesOnly [.regs, .halls] s (unlink h s) := unlink_changes rfl (.refl _ s)
  have raised : changesOnly [.regs, .bb] (unlink h s) (downRaised h s) := downRaised_changes h s
  have rest : changesOnly [.regs, .bb, .pins] (unlink h s) (settle (downRaised h s)) := settle_changes rfl (raised.mono rfl)
  have regs : regsOutside (fun a => a = aHall h 0x03 ∨ a = rHallEvt h ∨ a = rBbMissed) (unlink h s) (settle (downRaised h s)) :=
    settle_regsOutside (downRaised_regs h s)
  have linked : (getHall (settle (downRaised h s)) h).linked = false := by
    have same : getHall (settle (downRaised h s)) h = getHall (unlink h s) h := by
      unfold getHall
      rw [rest .halls (by decide)]
    rw [same, getHall_unlink]
  obtain ⟨shown, event⟩ := downRaised_shown (h := h) (s := s) h.isLt
  refine ⟨_, exec_hallDown hl, linked, ?_, fun k => ?_, fun a ha => ?_, framed_settle hs ((ended.mono rfl).trans (raised.mono rfl)) (by decide),
    ((unlink_apart h s).trans (apart_of_changes rest (by decide))).1, ?_⟩
  · rw [getReg_settle]
    exact shown
  · rw [getReg_settle]
    exact event k
  · exact liveWord_unlink h.isLt ha ((rest .clk (by decide)).trans (ended .clk (by decide))) linked (regs a (heldAddrs_apart h.isLt ha))
  · refine ((unlink_held h s).mono fun a k => .inr (.inr (.inr k))).trans (regs.mono ?_)
    rintro a (k | k | k)
    · exact .inl k
    · exact .inr (.inl k)
    · exact .inr (.inr (.inl k))

end

/-- Settles O36: a round of heartbeats hall by hall, the role's form taken again where a hall's outputs are released, the report
of a status frame, and the words of the hall kept where its frames end. -/
theorem heartbeatsAndStatusFrames : Obligations.HeartbeatsAndStatusFrames := by
  intro h good seq m s hs
  refine ⟨hallHeartbeatSend_off hs, hallHeartbeatSend_on hs, ⟨heartbeat_invalid hs, heartbeat_valid hs⟩, fun hd => ⟨?_, ?_⟩, hbLoss_next hs,
    statusFrame_dropped hs, statusFrame_next hs, hallDown_next hs, fun hl => ⟨hallDown_idle hs hl, statusFrame_idle hs (.inr hl)⟩⟩
  · refine ⟨settle s, ?_, framed_settle hs (.refl _ s) (by decide)⟩
    show execHbLoss h s = _
    unfold execHbLoss
    rw [if_neg (by rw [hd]; decide)]
    rfl
  · exact statusFrame_idle hs (.inl hd)

end Sys2Proof.Machine

namespace Sys2Proof.Machine

/-! The engine runs on at a tick boundary: what latching a tick set leaves of it (R20, R365, R455). -/

/-- From `s` to `t` the engine runs as before. -/
def runsOn (s t : State) : Prop := t.eng.running = s.eng.running

section
variable {n : Nat} {s t u : State}

theorem runsOn.refl (s : State) : runsOn s s := rfl

theorem runsOn.trans (a : runsOn s t) (k : runsOn t u) : runsOn s u := Eq.trans k a

theorem runsOn.ite {p : Prop} [Decidable p] (a : runsOn s t) (k : runsOn s u) : runsOn s (if p then t else u) := by
  split <;> assumption

/-- An operation that leaves the engine alone. -/
theorem runsOn.skip {F : List Part} (k : changesOnly F t u) (hn : Part.eng ∉ F) (a : runsOn s t) : runsOn s u :=
  a.trans (congrArg EngSt.running (k .eng hn))

theorem lateRuns_runsOn (s : State) : runsOn s (lateRuns s) := by
  unfold lateRuns
  split <;> rfl

theorem idleSlots_runsOn (s : State) : runsOn s (idleSlots s) := by
  have late : runsOn { s with eng := { s.eng with slot := 8 } } (lateRuns { s with eng := { s.eng with slot := 8 } }) := lateRuns_runsOn _
  exact .skip (F := [.pair]) (updPair_changes rfl (.refl _ _)) (by decide) ((runsOn.refl s).trans late)

theorem tickHeld_runsOn (n : Nat) (s : State) : runsOn s (tickHeld n s) := rfl

theorem beginSlots_runsOn (x : TickSet) (b : Bool) (s : State) : runsOn s (beginSlots x b s) := by
  let u : State := { s with eng := { s.eng with set := x, slot := 0, start := s.time.now } }
  have begun : runsOn s u := rfl
  have reached : runsOn u (updPair (fun p => { p with mirrored := b }) (reachTick x.tick u)) :=
    .skip (F := [.bal, .regs, .bb, .gal, .nv, .jnl, .mem, .pair]) (updPair_changes rfl (reachTick_changes rfl (.refl _ u))) (by decide) (.refl u)
  exact begun.trans reached

theorem activeLatch_runsOn (s : State) : runsOn s (activeLatch s) := by
  have joined : runsOn s (recsRead (activeJoin (thisTick s).tick (lateRuns s))) :=
    .skip (F := [.pair, .bal, .runs, .jnl, .nv, .mem, .per, .regs, .bb, .gal]) (recsRead_changes rfl (activeJoin_changes rfl (.refl _ _))) (by decide)
      (lateRuns_runsOn s)
  have begun := joined.trans (beginSlots_runsOn (ownSet (thisTick s) s) false _)
  exact .ite (.skip (F := [.tx, .pair]) (sendSet_changes rfl (.refl _ _)) (by decide) begun) begun

theorem standbyLatch_runsOn (s : State) : runsOn s (standbyLatch s) := by
  unfold standbyLatch
  split
  · next i _ =>
    have read : runsOn s (alignRings i.tick (mirrorSeen (0x7000 + 0x400 * (i.tick % 2)) 1024 s)) :=
      .skip (F := [.regs, .bb, .pair]) (alignRings_changes rfl (mirrorSeen_changes rfl (.refl _ s))) (by decide) (.refl s)
    exact read.trans (beginSlots_runsOn _ true _)
  · exact idleSlots_runsOn s

theorem standbyJoin_runsOn (s : State) : runsOn s (standbyJoin s) := by
  unfold standbyJoin
  split
  · next b _ =>
    have taken : runsOn s (updPair (fun p => { p with join := false }) (takeTotals b.1 b.2 true (balGap (gapUpTo (b.1 + 1) s)))) :=
      .skip (F := [.mem, .runs, .aud, .regs, .bb, .bal, .jnl, .nv, .per, .gal, .pair]) (updPair_changes rfl (takeTotals_changes rfl
        (balGap_changes rfl (gapUpTo_changes rfl (.refl _ s))))) (by decide) (.refl s)
    exact .skip (F := [.tx, .pair]) (askCarried_changes rfl (.refl _ _)) (by decide) (taken.trans (tickHeld_runsOn b.1 _))
  · exact .refl s

theorem standbyTake_runsOn (s : State) : runsOn s (standbyTake s) := by
  have ended (u : State) (k : runsOn s u) : runsOn s (updPair (fun p => { p with stateAsked := false, stateHere := false, standbyTicks := 0 })
      (takeCarried u)) := .skip (F := [.regs, .bb, .runs, .pair]) (updPair_changes rfl (takeCarried_changes rfl (.refl _ u))) (by decide) k
  unfold standbyTake
  refine ended _ ?_
  split
  · next b _ =>
    have taken : runsOn s (takeTotals b.1 b.2 true s) :=
      .skip (F := [.mem, .runs, .aud, .regs, .bb]) (takeTotals_changes rfl (.refl _ s)) (by decide) (.refl s)
    exact taken.trans (tickHeld_runsOn b.1 _)
  · exact .refl s

theorem standbyBoundary_runsOn (s : State) : runsOn s (standbyBoundary s) := by
  let t := if s.pair.mirrored && s.eng.slot = 8 then standbyCompare (mirrorSeen (0x8000 + 0x400 * (s.eng.set.tick % 2)) 780 s) else s
  have compared : runsOn s t := .ite (.skip (F := [.pair, .mem, .runs, .aud, .regs, .bb, .tx]) (standbyCompare_changes rfl
    (mirrorSeen_changes rfl (.refl _ s))) (by decide) (.refl s)) (.refl s)
  have joined : runsOn s (if t.pair.join then standbyJoin t else t) := .ite (compared.trans (standbyJoin_runsOn t)) compared
  exact .ite (joined.trans (standbyTake_runsOn _)) joined

theorem latchTick_runsOn (s : State) : runsOn s (latchTick s) := by
  have halted : runsOn s (balGap (idleSlots (updPair (fun p => { p with standbyTicks := 0 }) s))) := by
    have aged : runsOn s (updPair (fun p => { p with standbyTicks := 0 }) s) := rfl
    exact .skip (F := [.bal]) (balGap_changes rfl (.refl _ _)) (by decide) (aged.trans (idleSlots_runsOn _))
  have latched := runsOn.ite (p := s.clk.halt.isSome) halted (.ite (p := pairEn s && !s.pair.active)
    ((standbyBoundary_runsOn s).trans (standbyLatch_runsOn _)) (activeLatch_runsOn s))
  exact .skip (F := [.chans]) (clearDeliveries_changes rfl (.refl _ _)) (by decide) latched

end

end Sys2Proof.Machine

namespace Sys2Proof.Machine

/-! FIRST_VALID_RUN_TICK (R280, R389). -/

section
variable {h n : Nat} {s t u : State}

/-- The boundary of the first tick taken. -/
def firstBoundary (s : State) : State := takeBoundary (moveTo (nextBoundary s).2 s)

/-- The ticks missed before it caught up. -/
def missedTicks (f : Nat) (s : State) : State := lostTicks f (if s.pair.active then gapUpTo f s else s)

/-- The balance windows open; an active device that joins has joined. -/
def windowsOpened (s : State) : State :=
  if (balOpenAll s).pair.active then updPair (fun p => { p with join := false }) (balOpenAll s) else balOpenAll s

/-- The engine computes from here on. -/
def engineStarted (s : State) : State := latchTick (samplePulses { s with eng := { s.eng with running := true } })

/-- PHASE 1 and START_TIME. -/
def startShown (s : State) : State := { s with clk := { s.clk with phase := 1, startUs := (s.time.now - s.clk.rel) / 1000 } }

/-- A hall's outputs released. -/
def hallReleased (h : Nat) (s : State) : State := if (getHall s h).up then report h (releaseHall h s) else s

/-- The state before the outputs are released. -/
def runTickStarted (s : State) : State :=
  startShown (engineStarted (windowsOpened (imagePlan (missedTicks (tickOf (nextBoundary s).1) (firstBoundary s)))))

/-- The state that the first valid run tick leaves. -/
def runTickDone (s : State) : State := checkIn 14 (expiredEvt (forHalls hallReleased (runTickStarted s)))

theorem exec_firstValidRunTick (hm : mayRun s = true) : exec .firstValidRunTick s = done (runTickDone s) := by
  show execFirstValidRunTick s = _
  unfold execFirstValidRunTick
  rw [if_neg (by rw [hm]; decide)]
  unfold runTickDone runTickStarted startShown engineStarted windowsOpened missedTicks firstBoundary hallReleased
  rfl

theorem firstValidRunTick_idle (hs : Inv s) (hm : mayRun s = false) : ∃ t, exec .firstValidRunTick s = .next t ∧ framed [] s t := by
  refine ⟨settle s, ?_, framed_settle hs (.refl _ s) (by decide)⟩
  show execFirstValidRunTick s = _
  unfold execFirstValidRunTick
  rw [if_pos (by rw [hm]; rfl)]
  rfl

/-! What each stage leaves. -/

theorem missedTicks_changes (f : Nat) (s : State) : changesOnly [.runs, .jnl, .nv, .mem, .per, .regs, .bb, .gal] s (missedTicks f s) :=
  lostTicks_changes rfl (.ite (gapUpTo_changes rfl (.refl _ s)) (.refl _ s))

theorem windowsOpened_changes (s : State) : changesOnly [.bal, .pair] s (windowsOpened s) := by
  have opened : changesOnly [.bal, .pair] s (balOpenAll s) := balOpenAll_changes rfl (.refl _ s)
  exact .ite (updPair_changes rfl opened) opened

theorem engineStarted_changes (s : State) : changesOnly [.bal, .pair, .runs, .regs, .bb, .mem, .aud, .eng, .gal, .nv, .jnl, .tx, .per, .chans, .halls] s
    (engineStarted s) := latchTick_changes rfl (samplePulses_changes rfl (.set_eng (by decide) (.refl _ s)))

theorem hallReleased_changes (h : Nat) (s : State) : changesOnly [.regs, .bb, .halls, .chans, .convs, .per] s (hallReleased h s) :=
  .ite (report_changes rfl (releaseHall_changes rfl (.refl _ s))) (.refl _ s)

theorem released_changes (s : State) : changesOnly [.regs, .bb, .halls, .chans, .convs, .per] s (forHalls hallReleased s) :=
  forHalls_into (fun h u => hallReleased_changes h u) (.refl _ s)

/-- The stages between the boundary and START_TIME. -/
theorem between_changes (f : Nat) (s : State) :
    changesOnly [.runs, .jnl, .nv, .mem, .per, .regs, .bb, .gal, .wd, .bal, .pair, .aud, .eng, .tx, .chans, .halls] s
      (engineStarted (windowsOpened (imagePlan (missedTicks f s)))) :=
  ((((missedTicks_changes f s).mono rfl).trans (imagePlan_changes rfl (.refl _ _))).trans ((windowsOpened_changes _).mono rfl)).trans
    ((engineStarted_changes _).mono rfl)

theorem firstBoundary_changes (s : State) : changesOnly [.eng, .regs, .bb, .per, .gal, .time] s (firstBoundary s) :=
  takeBoundary_changes rfl ((moveTo_time _ s).mono rfl)

/-- A boundary taken leaves local time. -/
theorem now_takeBoundary (s : State) : (takeBoundary s).time.now = s.time.now := by
  let t : State := { s with eng := { s.eng with prev := s.eng.this, this := some { tick := tickOf s.time.ring, adj := s.time.adj, modes := s.modes } } }
  have e : (takeBoundary s).time.now = (if s.time.adj then periodStep (galStep t) else t).time.now := rfl
  have kept : changesOnly [.regs, .bb, .per, .gal] t (if s.time.adj then periodStep (galStep t) else t) :=
    .ite (periodStep_changes rfl (galStep_changes rfl (.refl _ t))) (.refl _ t)
  rw [e, kept .time (by decide)]

theorem now_firstBoundary (s : State) : (firstBoundary s).time.now = max s.time.now (nextBoundary s).2 :=
  (now_takeBoundary _).trans (now_moveTo _ s)

theorem startShown_changes (s : State) : changesOnly [.clk] s (startShown s) := .set_clk (by decide) (.refl _ s)

theorem startShown_clk (s : State) : (startShown s).clk = { s.clk with phase := 1, startUs := (s.time.now - s.clk.rel) / 1000 } := rfl

theorem engineStarted_running (s : State) : (engineStarted s).eng.running = true := by
  let u : State := { s with eng := { s.eng with running := true } }
  have sampled : runsOn u (samplePulses u) := .skip (F := [.regs, .bb, .halls, .chans, .per]) (samplePulses_changes rfl (.refl _ u)) (by decide) (.refl u)
  exact sampled.trans (latchTick_runsOn _)

/-! The watchdog's plan. -/

theorem rWdCfg_classA : ¬ notA rWdCfg := by decide

/-- No stage after the plan writes WD_CFG. -/
theorem engineStarted_leavesA (s : State) : regsOutside notA s (engineStarted s) := by
  have sampled : regsOutside notA s (samplePulses { s with eng := { s.eng with running := true } }) :=
    samplePulses_regs hallsRegs_notA (by decide) (.set (.refl _ s))
  exact latchTick_leavesA sampled

theorem released_leavesA (s : State) : regsOutside notA s (forHalls hallReleased s) := by
  refine forHalls_regs (fun h u hh => ?_) (.refl _ s)
  exact .ite (report_regs (hallsRegs_notA h hh) (by decide) (.skip (G := [.halls, .chans, .convs]) (releaseHall_changes rfl (.refl _ u)) (by decide) (.refl _ u)))
    (.refl _ u)

theorem runTickDone_leavesA (s : State) :
    regsOutside notA (imagePlan (missedTicks (tickOf (nextBoundary s).1) (firstBoundary s))) (runTickDone s) := by
  let p := imagePlan (missedTicks (tickOf (nextBoundary s).1) (firstBoundary s))
  have opened : regsOutside notA p (windowsOpened p) := .skip (windowsOpened_changes p) (by decide) (.refl _ p)
  have engine : regsOutside notA p (engineStarted (windowsOpened p)) := opened.trans (engineStarted_leavesA _)
  have started : regsOutside notA p (runTickStarted s) := engine.skip (startShown_changes _) (by decide)
  exact checkIn_regs (by decide) (expiredEvt_regs (by decide) (by decide) (started.trans (released_leavesA _)))

theorem checkIn_plan (i : Nat) (s : State) : (checkIn i s).wd.period = s.wd.period ∧ (checkIn i s).wd.mask = s.wd.mask := by
  rw [wd_checkIn]
  unfold checkNoted
  split <;> exact ⟨rfl, rfl⟩

theorem runTickDone_plan (s : State) : (runTickDone s).wd.period = bits (getReg (runTickDone s) rWdCfg) 9 0 ∧
    (runTickDone s).wd.mask = bits (getReg (runTickDone s) rWdCfg) 31 16 := by
  let p := imagePlan (missedTicks (tickOf (nextBoundary s).1) (firstBoundary s))
  let q := expiredEvt (forHalls hallReleased (runTickStarted s))
  have wd : q.wd = p.wd := by
    have opened := windowsOpened_changes p .wd (by decide)
    have started := engineStarted_changes (windowsOpened p) .wd (by decide)
    have released := released_changes (runTickStarted s) .wd (by decide)
    have expired := expiredEvt_changes (F := [.regs, .bb]) rfl (.refl _ (forHalls hallReleased (runTickStarted s))) .wd (by decide)
    have shown := startShown_changes (engineStarted (windowsOpened p)) .wd (by decide)
    exact expired.trans (released.trans (shown.trans (started.trans opened)))
  obtain ⟨period, mask⟩ := checkIn_plan 14 q
  rw [runTickDone_leavesA s rWdCfg rWdCfg_classA]
  exact ⟨period.trans (congrArg WdSt.period wd), mask.trans (congrArg WdSt.mask wd)⟩

/-! The halls. -/

/-- What the operation of hall `h` meets and leaves where those of the other halls leave it. -/
theorem forN_at {f : Nat → State → State} (other : ∀ j, j ≠ h → ∀ u, getHall (f j u) h = getHall u h) (s : State) (n : Nat) :
    (n ≤ h → getHall (forN n f s) h = getHall s h) ∧
    (h < n → ∃ u, getHall u h = getHall s h ∧ getHall (forN n f s) h = getHall (f h u) h) := by
  induction n with
  | zero => exact ⟨fun _ => rfl, fun k => absurd k (Nat.not_lt_zero h)⟩
  | succ n ih =>
    have step : forN (n + 1) f s = f n (forN n f s) := by
      unfold forN
      rw [List.range_succ, List.foldl_append]
      rfl
    obtain ⟨before, after⟩ := ih
    rw [step]
    refine ⟨fun k => (other n (by omega) _).trans (before (by omega)), fun k => ?_⟩
    by_cases e : h = n
    · subst e
      exact ⟨forN h f s, before (Nat.le_refl h), rfl⟩
    · obtain ⟨u, same, done⟩ := after (by omega)
      exact ⟨u, same, (other n (Ne.symm e) _).trans done⟩

theorem forHalls_eq_forN (f : Nat → State → State) (s : State) : forHalls f s = forN 8 f s := rfl

theorem hallReleased_other {j : Nat} (e : j ≠ h) (s : State) : getHall (hallReleased j s) h = getHall s h := by
  have apart : Apart j s (report j (releaseHall j s)) := report_apart (Formed.releaseHall j s).apart
  unfold hallReleased
  split
  · exact apart.1.1 h (fun k => e k.symm)
  · rfl

theorem hallReleased_own (hu : (getHall s h).up = true) : bit (getHall (hallReleased h s) h).stat 5 = false := by
  have same : (getHall (report h (releaseHall h s)) h).stat = (getHall (releaseHall h s) h).stat :=
    report_hallAlike (p := HallState.stat) (fun _ _ _ _ => rfl) h _ h
  unfold hallReleased
  rw [if_pos hu, same]
  exact releaseHall_hall.1

theorem released_hall (hh : h < 8) (hu : (getHall s h).up = true) : bit (getHall (forHalls hallReleased s) h).stat 5 = false := by
  obtain ⟨-, after⟩ := forN_at (h := h) (fun j e u => hallReleased_other e u) s 8
  obtain ⟨u, before, done⟩ := after hh
  rw [forHalls_eq_forN, done]
  exact hallReleased_own (by rw [before]; exact hu)

/-- Sampling the pulse inputs leaves the halls but for their events. -/
theorem samplePulses_up (s : State) : hallsAlike HallState.up s (samplePulses s) := by
  have one (h : Nat) (u : State) : hallsAlike HallState.up u (if (getHall u h).up then report h (forChans (samplePulse h) u) else u) := by
    have sampled : hallsAlike HallState.up u (forChans (samplePulse h) u) :=
      .forChans (fun c v => .skip (F := [.chans]) (samplePulse_changes rfl (.refl _ v)) (by decide) (.refl _ v)) (.refl _ u)
    exact .ite (sampled.trans (report_hallAlike (fun _ _ _ _ => rfl) h _)) (.refl _ u)
  exact (((((((one 0 _).trans (one 1 _)).trans (one 2 _)).trans (one 3 _)).trans (one 4 _)).trans (one 5 _)).trans (one 6 _)).trans (one 7 _)

theorem runTickStarted_up (s : State) : hallsAlike HallState.up s (runTickStarted s) := by
  let b := firstBoundary s
  let w := windowsOpened (imagePlan (missedTicks (tickOf (nextBoundary s).1) b))
  let r : State := { w with eng := { w.eng with running := true } }
  have opened : hallsAlike HallState.up s w := by
    have missed : hallsAlike HallState.up b (missedTicks (tickOf (nextBoundary s).1) b) := .skip (missedTicks_changes _ b) (by decide) (.refl _ b)
    have planned : hallsAlike HallState.up b (imagePlan (missedTicks (tickOf (nextBoundary s).1) b)) :=
      .skip (F := [.regs, .wd, .bb]) (imagePlan_changes rfl (.refl _ _)) (by decide) missed
    exact (hallsAlike.skip (firstBoundary_changes s) (by decide) (.refl _ s)).trans (.skip (windowsOpened_changes _) (by decide) planned)
  have ready : hallsAlike HallState.up s r := opened
  have latched : hallsAlike HallState.up s (latchTick (samplePulses r)) :=
    .skip (F := [.bal, .pair, .runs, .regs, .bb, .mem, .aud, .eng, .gal, .nv, .jnl, .tx, .per, .chans]) (latchTick_changes rfl (.refl _ _)) (by decide)
      (ready.trans (samplePulses_up r))
  exact .skip (startShown_changes _) (by decide) latched

theorem expiredEvt_raised (hc : s.clk.cause = 2) : bit (getReg (expiredEvt s) rWdEvt) 1 = true := by
  unfold expiredEvt
  rw [if_pos hc]
  exact bit_raiseBit (by decide) (by decide)

/-- FAULT_N follows DEV_FAULT in PHASE 1 (R412). -/
theorem faultN_running (hs : Inv s) (hp : s.clk.phase = 1) : s.pins.faultN = true ↔ devFault s = 0 := by
  have level : s.pins.faultN = faultNLevel s := by
    rw [hs.1]
    rfl
  rw [level]
  unfold faultNLevel
  simp [hp]

theorem getHall_of_halls {s t : State} (same : t.halls = s.halls) (h : Nat) : getHall t h = getHall s h := by
  unfold getHall
  rw [same]

/-! What the release keeps of the started engine. -/

/-- The state in which START_TIME is shown. -/
def engineReady (s : State) : State :=
  engineStarted (windowsOpened (imagePlan (missedTicks (tickOf (nextBoundary s).1) (firstBoundary s))))

theorem clk_engineReady (s : State) : (engineReady s).clk = s.clk :=
  (between_changes (tickOf (nextBoundary s).1) (firstBoundary s) .clk (by decide)).trans (firstBoundary_changes s .clk (by decide))

theorem now_engineReady (s : State) : (engineReady s).time.now = max s.time.now (nextBoundary s).2 := by
  have kept : (engineReady s).time = (firstBoundary s).time := between_changes (tickOf (nextBoundary s).1) (firstBoundary s) .time (by decide)
  rw [kept, now_firstBoundary]

theorem engineReady_running (s : State) : (engineReady s).eng.running = true := by
  unfold engineReady
  rw [engineStarted_running]

theorem runTickStarted_eq (s : State) : runTickStarted s = startShown (engineReady s) := rfl

theorem runTickDone_changes (s : State) :
    changesOnly [.regs, .bb, .halls, .chans, .convs, .per, .wd, .img] (runTickStarted s) (runTickDone s) := by
  have released := released_changes (runTickStarted s)
  have expired : changesOnly [.regs, .bb] (forHalls hallReleased (runTickStarted s)) (expiredEvt (forHalls hallReleased (runTickStarted s))) :=
    expiredEvt_changes rfl (.refl _ _)
  exact ((released.mono rfl).trans (expired.mono rfl)).trans ((checkIn_changes (F := [.regs, .wd, .img]) rfl (.refl _ _)).mono rfl)

theorem clk_runTickDone (s : State) :
    (runTickDone s).clk = { s.clk with phase := 1, startUs := ((engineReady s).time.now - s.clk.rel) / 1000 } := by
  rw [runTickDone_changes s .clk (by decide), runTickStarted_eq, startShown_clk, clk_engineReady]

theorem time_runTickDone (s : State) : (runTickDone s).time = (engineReady s).time := by
  rw [runTickDone_changes s .time (by decide), runTickStarted_eq, startShown_changes (engineReady s) .time (by decide)]

theorem eng_runTickDone (s : State) : (runTickDone s).eng = (engineReady s).eng := by
  rw [runTickDone_changes s .eng (by decide), runTickStarted_eq, startShown_changes (engineReady s) .eng (by decide)]

theorem clk_released (s : State) : (forHalls hallReleased (runTickStarted s)).clk = (runTickDone s).clk :=
  (released_changes (runTickStarted s) .clk (by decide)).trans (runTickDone_changes s .clk (by decide)).symm

theorem getHall_runTickDone (s : State) (h : Nat) : getHall (runTickDone s) h = getHall (forHalls hallReleased (runTickStarted s)) h := by
  have expired : changesOnly [.regs, .bb] (forHalls hallReleased (runTickStarted s)) (expiredEvt (forHalls hallReleased (runTickStarted s))) :=
    expiredEvt_changes rfl (.refl _ _)
  have checked : changesOnly [.regs, .wd, .img] (expiredEvt (forHalls hallReleased (runTickStarted s))) (runTickDone s) :=
    checkIn_changes rfl (.refl _ _)
  exact getHall_of_halls ((checked .halls (by decide)).trans (expired .halls (by decide))) h

theorem expired_runTickDone (hc : s.clk.cause = 2) : bit (getReg (runTickDone s) rWdEvt) 1 = true := by
  have kept : getReg (runTickDone s) rWdEvt = getReg (expiredEvt (forHalls hallReleased (runTickStarted s))) rWdEvt :=
    checkIn_regs (P := (· = rWdCount)) rfl (.refl _ _) rWdEvt (by decide)
  rw [kept]
  exact expiredEvt_raised (by rw [clk_released, clk_runTickDone]; exact hc)

/-- Settles O31: the boundary that begins the first tick, the image's watchdog plan, the engine started, PHASE 1 and the release of
every hall with L+, in this order. -/
theorem firstValidRunTickReleases : Obligations.FirstValidRunTickReleases := by
  intro s hs
  refine ⟨firstValidRunTick_idle hs, fun hm => ?_⟩
  have e := exec_firstValidRunTick hm
  obtain ⟨period, mask⟩ := runTickDone_plan s
  have inv : Inv (settle (runTickDone s)) := settle_inv _
  obtain ⟨u, reply, parts, -⟩ := execFirstValidRunTick_replies (s := s)
  have answer : settle u = settle (runTickDone s) := Host.Outcome.next.inj (reply.symm.trans e)
  refine ⟨_, e, ?_, ?_, ?_, ?_, ?_, ?_, ?_, fun h hh hu => ?_, fun hc => ?_, ?_, ?_⟩
  · rw [time_settle, time_runTickDone, now_engineReady]
  · rw [eng_settle, eng_runTickDone, engineReady_running]
  · rw [clk_settle, clk_runTickDone]
  · rw [clk_settle, time_settle, clk_runTickDone, time_runTickDone]
  · rw [wd_settle, getReg_settle, period]
  · rw [wd_settle, getReg_settle, mask]
  · rw [wd_settle]
    exact checked_checkIn 14 _
  · rw [getHall_settle, getHall_runTickDone]
    exact released_hall hh ((runTickStarted_up s h).trans hu)
  · rw [getReg_settle]
    exact expired_runTickDone hc
  · exact faultN_running inv (by rw [clk_settle, clk_runTickDone])
  · rw [← answer]
    exact framed_settle hs parts (by decide)

end

end Sys2Proof.Machine
